-- ==== Sys2Proof/Word.lean ====
section
/-! DEFINITION. The word types of the TH7: bytes, 32-bit words, 64-bit double words. -/

namespace Sys2Proof

/-- A byte of memory. -/
abbrev Byte := BitVec 8

/-- A general register (R76) or an instruction word (R53). -/
abbrev Word := BitVec 32

/-- A register pair, an address or a 64-bit special register (R101). -/
abbrev DWord := BitVec 64

/-- The number of a general register, g0 to g31. -/
abbrev RegNo := BitVec 5

/-- The number of a predicate, p0 to p11 (R94: any higher number is decode cause 0x05). -/
abbrev PredNo := Fin 12

/-- The number of a tensor descriptor, td0 to td255 (R15). -/
abbrev TdNo := BitVec 8

end Sys2Proof
end

