-- ==== Sys2Proof/Syntax.lean ====
section
/-! DEFINITION. The instruction syntax of the TH7: one constructor of `Instr` for each row of spec/opcode_table.json. Rows 0 to 146 are instruction words; rows 147 to 239 are events of the machine, whose constructors carry what the event needs from outside. -/

namespace Sys2Proof

/-- The guard of a word (R57, R58): unguarded (G = 15, S = 0), or a predicate with its sense. -/
inductive Guard where
  | always
  | on (p : PredNo) (sense : Bool)
  deriving DecidableEq, Repr

/-- The header of a word (R57) but for its opcode: chain, uniform, guard. -/
structure Hdr where
  c : Bool
  u : Bool
  guard : Guard
  deriving DecidableEq, Repr

/-- Integer types of R71: f = 00 to 11. -/
inductive IntTy where
  | b32 | i32 | b64 | i64
  deriving DecidableEq, Repr

/-- Floating types of rows 4_ and 5_ (R70): OP[1:0] = 00 to 11. -/
inductive FTy where
  | f32 | f64 | f16 | bf16
  deriving DecidableEq, Repr

/-- Rounding modes (R112): f = 00 to 11. -/
inductive Rnd where
  | rn | rz | ru | rd
  deriving DecidableEq, Repr

/-- CVT type codes 0 to 7 (R72). -/
inductive CvtTy where
  | f32 | f64 | f16 | bf16 | e4m3 | e5m2 | i32 | b32
  deriving DecidableEq, Repr

/-- CMP type codes 0 to 5 (R96). -/
inductive CmpTy where
  | i32 | b32 | i64 | b64 | f32 | f64
  deriving DecidableEq, Repr

/-- Comparison conditions (R96): f = 00 to 11. -/
inductive CC where
  | eq | ne | lt | ge
  deriving DecidableEq, Repr

/-- Access sizes of LD, ST, LDS, STS, LDF, STF (R71): sz = 00 to 10. -/
inductive Sz3 where
  | b32 | b64 | b128
  deriving DecidableEq, Repr

/-- Access sizes of LD.acq, ST.rel, CASV (R71): sz = 00, 01. -/
inductive Sz2 where
  | b32 | b64
  deriving DecidableEq, Repr

/-- Narrow load types (R71): sz = 00 to 11. -/
inductive NLd where
  | b8 | b16 | i8 | i16
  deriving DecidableEq, Repr

/-- Narrow store types (R71): sz = 00, 01. -/
inductive NSt where
  | b8 | b16
  deriving DecidableEq, Repr

/-- RWL operations (R247): sz = 00 to 10. -/
inductive RwlOp where
  | rd | wr | rel
  deriving DecidableEq, Repr

/-- PREF levels (R157): sz = 00, 01. -/
inductive PrefLevel where
  | l1 | l2
  deriving DecidableEq, Repr

/-- Barrier levels (R258): LVL = 00 to 10. -/
inductive BarLevel where
  | hh | par | lch
  deriving DecidableEq, Repr

/-- The bits of %fs that PSET reads (R95): 0 ER, 1 ST, 3 FP, 4 RF, 5 FR. -/
inductive FsBit where
  | er | st | fp | rf | fr
  deriving DecidableEq, Repr

/-- Special registers that MOVS reads (R99). -/
inductive SpecReg where
  | fid | lane | hid | hcoord | pid | pcoord | stage | fs | esc | escq | cont | fault | ver | cyc
  deriving DecidableEq, Repr

/-- Special registers that MOVSW writes (R99). -/
inductive WSpecReg where
  | fs | esc | escq | cont | fault
  deriving DecidableEq, Repr

/-- Privileged special registers that MOVP reads (R322). -/
inductive PrivReg where
  | ctxid | ctxattr | sctr | xinv | rfq
  deriving DecidableEq, Repr

/-- Privileged special registers that MOVPW writes (R322). -/
inductive WPrivReg where
  | xinv | rfq
  deriving DecidableEq, Repr

/-- What FLUSHC names (R282). -/
inductive FlushTgt where
  | all
  | peer (p : BitVec 10)
  | grp (g : BitVec 12)
  deriving DecidableEq, Repr

/-- A fibre's stub reference (R161): package cluster, share slot, cluster lane, stub number in the slot. -/
structure FKey where
  c : Nat
  k : Nat
  l : Nat
  s : Nat
  deriving DecidableEq, Repr

/-- The answer to a request. Local requests are answered by the package itself; a peer's answer comes from outside (R273, R274). -/
inductive Answer where
  /-- served inside the package -/
  | own
  /-- the peer's reply: its bytes, as one little-endian number, with the line's version where the unit asks for it -/
  | value (v : Nat) (version : Nat)
  /-- the exporter refused with this code, 1 to 7 (R273), or 9 for a group leaf (R284) -/
  | refused (code : Nat)
  /-- the reply carries poisoned data (R274) -/
  | poisoned
  deriving DecidableEq, Repr

/-- One element of a cart packet, the fields of R275. -/
structure CartElem where
  data : Word
  gen : BitVec 16
  win : BitVec 12
  op : BitVec 4
  sz : BitVec 3
  va : BitVec 52
  deriving DecidableEq, Repr

/-- The header of a cart packet, the fields of R276. -/
structure CartHdr where
  dest : Nat
  group : Bool
  plane : Nat
  srcTen : Nat
  srcPeer : Nat
  seq : BitVec 16
  srcDie : Nat
  cart : Nat
  deriving DecidableEq, Repr

/-- A request that a peer sends to this package as exporter (R273, R274). -/
inductive InKind where
  | load (n : Nat)
  | ldv
  /-- a returning atomic: op code of R71 (0 add to 8 fadd), signed, 64 bits wide, operand, new value for cas -/
  | atom (op : Nat) (signed wide : Bool) (v e : DWord)
  | rwl (op : RwlOp) (counted : Bool)
  | casv (wide : Bool) (expected : BitVec 48) (new : DWord)
  deriving DecidableEq, Repr

/-- What a plane channel delivers (R234): the head packet of an own channel to its peer, a peer's packet, a peer's bulk write or a peer's request. -/
inductive Delivery where
  | out (die : Nat) (group : Bool) (peer plane : Nat)
  | packet (h : CartHdr) (es : List CartElem)
  | request (peer ten win gen : Nat) (va : Nat) (k : InKind)
  | bulkWrite (peer ten win gen : Nat) (va : Nat) (elem : Nat) (bytes : List Byte)
  | bulkRead (peer ten win gen : Nat) (va : Nat) (elem : Nat) (n : Nat)
  deriving DecidableEq, Repr

/-- A failure named by an acknowledgement: element index, refusal code, the failing member's peer number (R278, R285). -/
structure AckFail where
  elem : Nat
  code : Nat
  peer : Nat
  deriving DecidableEq, Repr

/-- What ended an outstanding bulk transfer of a copy line (R211, R274). -/
inductive LineAnswer where
  /-- a remote read: its bytes, and the refused elements by offset and refusal code -/
  | read (bs : List Byte) (fails : List (Nat × Nat))
  /-- a remote write: the refused elements by offset and refusal code -/
  | wrote (fails : List (Nat × Nat))
  /-- the peer was lost (code 8) -/
  | lost
  /-- the peer's data are poisoned (R140) -/
  | poisoned
  deriving DecidableEq, Repr

/-- The class and cause that a halt is asserted with, and the unit and fibre that raised it (R310, R313). -/
structure HaltInfo where
  cls : Nat
  cause : Nat
  fip : DWord
  ffib : Option FKey
  /-- the unit that raised it, as UNIT of R313: 1 quarter, 2 matrix engine, 3 copy engine -/
  unit : Nat
  deriving DecidableEq, Repr

/-- A 64-byte flit as the link layer sees it (R266): its sequence number, whether its CRC-32 holds, and what it acknowledges. -/
structure Flit where
  seq : BitVec 12
  crcOk : Bool
  /-- the sequence number up to which the sender of this flit has received, when it says so -/
  ack : Option (BitVec 12)
  /-- the peer that the switch reports unreachable on the port's plane, when it does (R286): the spec gives the report no form (DESIGN CHOICE, log 112) -/
  lost : Option Nat
  deriving DecidableEq, Repr

/-- One instruction or event: one constructor per row of spec/opcode_table.json. -/
inductive Instr where
  -- 0x00 to 0x1E, pipe A (R103 to R107)
  | iadd (h : Hdr) (d a b : RegNo) (t : IntTy)
  | isub (h : Hdr) (d a b : RegNo) (t : IntTy)
  | imul (h : Hdr) (d a b : RegNo) (t : IntTy)
  | imulh (h : Hdr) (d a b : RegNo) (t : IntTy)
  | imad (h : Hdr) (d a b : RegNo) (t : IntTy)
  | iadds (h : Hdr) (d a b : RegNo) (t : IntTy)
  | isubs (h : Hdr) (d a b : RegNo) (t : IntTy)
  | idiv (h : Hdr) (d a b : RegNo) (t : IntTy)
  | irem (h : Hdr) (d a b : RegNo) (t : IntTy)
  | imin (h : Hdr) (d a b : RegNo) (t : IntTy)
  | imax (h : Hdr) (d a b : RegNo) (t : IntTy)
  | iabs (h : Hdr) (d a : RegNo) (t : IntTy)
  | ineg (h : Hdr) (d a : RegNo) (t : IntTy)
  | and (h : Hdr) (d a b : RegNo) (t : IntTy)
  | or (h : Hdr) (d a b : RegNo) (t : IntTy)
  | xor (h : Hdr) (d a b : RegNo) (t : IntTy)
  | not (h : Hdr) (d a : RegNo) (t : IntTy)
  | shl (h : Hdr) (d a b : RegNo) (t : IntTy)
  | shr (h : Hdr) (d a b : RegNo) (t : IntTy)
  | sar (h : Hdr) (d a b : RegNo) (t : IntTy)
  | rot (h : Hdr) (d a b : RegNo) (t : IntTy)
  | popc (h : Hdr) (d a : RegNo) (t : IntTy)
  | clz (h : Hdr) (d a : RegNo) (t : IntTy)
  | brev (h : Hdr) (d a : RegNo) (t : IntTy)
  | bfe (h : Hdr) (d a b : RegNo) (t : IntTy)
  | bfi (h : Hdr) (d a b : RegNo) (t : IntTy)
  | addp (h : Hdr) (d a b : RegNo) (sh : BitVec 2)
  | subp (h : Hdr) (d a b : RegNo)
  -- 0x20 to 0x2A (R107 to R109)
  | iaddi (h : Hdr) (d a : RegNo) (imm : BitVec 7)
  | andi (h : Hdr) (d a : RegNo) (imm : BitVec 7)
  | ori (h : Hdr) (d a : RegNo) (imm : BitVec 7)
  | xori (h : Hdr) (d a : RegNo) (imm : BitVec 7)
  | shli (h : Hdr) (d a : RegNo) (imm : BitVec 7)
  | shri (h : Hdr) (d a : RegNo) (imm : BitVec 7)
  | sari (h : Hdr) (d a : RegNo) (imm : BitVec 7)
  | imuli (h : Hdr) (d a : RegNo) (imm : BitVec 7)
  | movi (h : Hdr) (d : RegNo) (imm : BitVec 12)
  | movh (h : Hdr) (d : RegNo) (imm : BitVec 12)
  | addpi (h : Hdr) (d a : RegNo) (imm : BitVec 7)
  -- 0x40 to 0x6F, pipe F (R113 to R122)
  | fadd (h : Hdr) (d a b : RegNo) (t : FTy) (r : Rnd)
  | fsub (h : Hdr) (d a b : RegNo) (t : FTy) (r : Rnd)
  | fmul (h : Hdr) (d a b : RegNo) (t : FTy) (r : Rnd)
  | fma (h : Hdr) (d a b : RegNo) (t : FTy) (r : Rnd)
  | fmin (h : Hdr) (d a b : RegNo) (t : FTy)
  | fmax (h : Hdr) (d a b : RegNo) (t : FTy)
  | fabs (h : Hdr) (d a : RegNo) (t : FTy)
  | fneg (h : Hdr) (d a : RegNo) (t : FTy)
  | frcp (h : Hdr) (d a : RegNo)
  | frsq (h : Hdr) (d a : RegNo)
  | fex2 (h : Hdr) (d a : RegNo)
  | flg2 (h : Hdr) (d a : RegNo)
  | fsin (h : Hdr) (d a : RegNo)
  | fcos (h : Hdr) (d a : RegNo)
  | cvt (h : Hdr) (d a : RegNo) (src dst : CvtTy) (sat : Bool) (r : Rnd)
  -- 0x80 to 0x9D, pipe X (R88 to R99)
  | bra (h : Hdr) (off : BitVec 17)
  | call (h : Hdr) (off : BitVec 17)
  | brx (h : Hdr) (a : RegNo)
  | callx (h : Hdr) (a : RegNo)
  | ret (h : Hdr)
  | fork (h : Hdr) (off : BitVec 17)
  | join (h : Hdr) (d : RegNo)
  | quit (h : Hdr) (imm : BitVec 12)
  | yield (h : Hdr)
  | nop (h : Hdr)
  | sleep (h : Hdr) (imm : BitVec 17)
  | cont (h : Hdr) (off : BitVec 17)
  | resume (h : Hdr) (a : RegNo)
  | trap (h : Hdr) (imm : BitVec 17)
  | movs (h : Hdr) (d : RegNo) (r : SpecReg)
  | movsw (h : Hdr) (d : RegNo) (r : WSpecReg)
  | pand (h : Hdr) (d a b : PredNo) (na nb : Bool)
  | por (h : Hdr) (d a b : PredNo) (na nb : Bool)
  | pxor (h : Hdr) (d a b : PredNo) (na nb : Bool)
  | pnot (h : Hdr) (d a : PredNo)
  | pmov (h : Hdr) (d a : PredNo) (na : Bool)
  | pset (h : Hdr) (d : PredNo) (bit : FsBit)
  | cmp (h : Hdr) (d : PredNo) (a b : RegNo) (t : CmpTy) (cc : CC)
  -- 0xA0 to 0xCF, pipe M (R148 to R159, R240 to R261)
  | ld (h : Hdr) (d base : RegNo) (la : BitVec 4) (esc : Bool) (sz : Sz3)
  | ldNarrow (h : Hdr) (d base : RegNo) (la : BitVec 4) (esc : Bool) (t : NLd)
  | st (h : Hdr) (s base : RegNo) (sz : Sz3)
  | stNarrow (h : Hdr) (s base : RegNo) (t : NSt)
  | lds (h : Hdr) (d base : RegNo) (la : BitVec 4) (sz : Sz3)
  | ldsNarrow (h : Hdr) (d base : RegNo) (la : BitVec 4) (t : NLd)
  | sts (h : Hdr) (s base : RegNo) (sz : Sz3)
  | stsNarrow (h : Hdr) (s base : RegNo) (t : NSt)
  | ldf (h : Hdr) (d base : RegNo) (la : BitVec 4) (esc : Bool) (sz : Sz3)
  | stf (h : Hdr) (s base : RegNo) (sz : Sz3)
  | pref (h : Hdr) (base : RegNo) (lv : PrefLevel)
  | escm (h : Hdr) (imm : BitVec 17)
  | ldAcq (h : Hdr) (d base : RegNo) (la : BitVec 4) (esc : Bool) (sz : Sz2)
  | stRel (h : Hdr) (s base : RegNo) (sz : Sz2)
  | ldv (h : Hdr) (d base : RegNo) (la : BitVec 4) (esc : Bool) (w : Bool)
  | casv (h : Hdr) (d base : RegNo) (la : BitVec 4) (esc : Bool) (sz : Sz2)
  | atomAdd (h : Hdr) (d base : RegNo) (la : BitVec 4) (esc : Bool) (t : IntTy)
  | atomAnd (h : Hdr) (d base : RegNo) (la : BitVec 4) (esc : Bool) (t : IntTy)
  | atomOr (h : Hdr) (d base : RegNo) (la : BitVec 4) (esc : Bool) (t : IntTy)
  | atomXor (h : Hdr) (d base : RegNo) (la : BitVec 4) (esc : Bool) (t : IntTy)
  | atomMin (h : Hdr) (d base : RegNo) (la : BitVec 4) (esc : Bool) (t : IntTy)
  | atomMax (h : Hdr) (d base : RegNo) (la : BitVec 4) (esc : Bool) (t : IntTy)
  | atomExch (h : Hdr) (d base : RegNo) (la : BitVec 4) (esc : Bool) (t : IntTy)
  | atomCas (h : Hdr) (d base : RegNo) (la : BitVec 4) (esc : Bool) (t : IntTy)
  | atomFadd (h : Hdr) (d base : RegNo) (la : BitVec 4) (esc : Bool)
  | rwl (h : Hdr) (d base : RegNo) (la : BitVec 4) (esc : Bool) (op : RwlOp)
  | valset (h : Hdr) (d : PredNo) (a b : RegNo) (st : Bool)
  | waitcSigned (h : Hdr) (d a b : RegNo) (cc : CC)
  | fence (h : Hdr)
  | bar (h : Hdr) (lv : BarLevel) (mchk : Bool)
  | waitcUnsigned (h : Hdr) (d a b : RegNo) (ge : Bool)
  | atomOrdAdd (h : Hdr) (d base : RegNo) (la : BitVec 4) (esc : Bool) (t : IntTy)
  | atomOrdAnd (h : Hdr) (d base : RegNo) (la : BitVec 4) (esc : Bool) (t : IntTy)
  | atomOrdOr (h : Hdr) (d base : RegNo) (la : BitVec 4) (esc : Bool) (t : IntTy)
  | atomOrdXor (h : Hdr) (d base : RegNo) (la : BitVec 4) (esc : Bool) (t : IntTy)
  | atomOrdMin (h : Hdr) (d base : RegNo) (la : BitVec 4) (esc : Bool) (t : IntTy)
  | atomOrdMax (h : Hdr) (d base : RegNo) (la : BitVec 4) (esc : Bool) (t : IntTy)
  | atomOrdExch (h : Hdr) (d base : RegNo) (la : BitVec 4) (esc : Bool) (t : IntTy)
  | atomOrdCas (h : Hdr) (d base : RegNo) (la : BitVec 4) (esc : Bool) (t : IntTy)
  | atomOrdFadd (h : Hdr) (d base : RegNo) (la : BitVec 4) (esc : Bool)
  | redAdd (h : Hdr) (s base : RegNo) (t : IntTy)
  | redAnd (h : Hdr) (s base : RegNo) (t : IntTy)
  | redOr (h : Hdr) (s base : RegNo) (t : IntTy)
  | redXor (h : Hdr) (s base : RegNo) (t : IntTy)
  | redMin (h : Hdr) (s base : RegNo) (t : IntTy)
  | redMax (h : Hdr) (s base : RegNo) (t : IntTy)
  | redFadd (h : Hdr) (s base : RegNo)
  -- 0xD0 to 0xDE, pipe E (R200 to R214, R271 to R301)
  | tdset (h : Hdr) (x : TdNo) (g : RegNo) (spad : Bool)
  | tdget (h : Hdr) (x : TdNo) (g : RegNo) (spad : Bool)
  | tdinv (h : Hdr) (x : TdNo)
  | mscl (h : Hdr) (x : TdNo) (g : RegNo) (tile : Bool)
  | mzero (h : Hdr) (x : TdNo) (tile : Bool)
  | mma (h : Hdr) (x y : TdNo) (tile : Bool)
  | mdrn (h : Hdr) (x : TdNo) (free : Bool) (p : PredNo) (tile : Bool)
  | cpy (h : Hdr) (x y : TdNo)
  | tmm (h : Hdr) (x y : TdNo) (tile : Bool)
  | twait (h : Hdr) (d a : RegNo) (imm : BitVec 7)
  | flushc (h : Hdr) (t : FlushTgt)
  | wopen (h : Hdr) (d a b : RegNo)
  | wrevoke (h : Hdr) (d b : RegNo)
  | monset (h : Hdr) (a b : RegNo)
  | monrd (h : Hdr) (a b : RegNo)
  -- 0xE8 to 0xEE, pipe X (R321, R322, R335)
  | save (h : Hdr) (d a b : RegNo)
  | rest (h : Hdr) (d a b : RegNo)
  | keyld (h : Hdr) (d a b : RegNo)
  | evict (h : Hdr) (d b : RegNo)
  | movp (h : Hdr) (d : RegNo) (r : PrivReg)
  | movpw (h : Hdr) (d : RegNo) (r : WPrivReg)
  | dbrk (h : Hdr) (imm : BitVec 17)
  -- 0xFE (R61)
  | imx (x : BitVec 17)
  -- events of issue (R80 to R93, R159 to R174)
  | flockForm (q : Nat)
  | urgentFibre (k : FKey)
  | scoreboardHoldExpiry (q : Nat)
  | sleepExpiry (k : FKey)
  | escortDecision (r : Nat)
  | departure (k : FKey)
  | escortCreditRefill (die : Nat)
  | replyArrival (r : Nat) (a : Answer)
  | reinstatement (k : FKey)
  | displacedTimeout (k : FKey)
  | lateReplyLanding (r : Nat) (a : Answer)
  | ldfRetest (r : Nat)
  | waitcPoll (r : Nat) (a : Answer)
  | l1Writeback (share : Nat)
  | stepTrap (k : FKey)
  | codeComparatorHit (q i : Nat)
  | dataWatchpointHit (q i : Nat)
  -- events of the ordering machine (R221 to R238)
  | writeBufferLeave (k : FKey)
  | applyWrite (die i : Nat)
  | cartAgeExpiry (die cart : Nat)
  | channelDeliver (d : Delivery)
  | packetAcknowledge (die : Nat) (group : Bool) (peer plane : Nat) (fails : List AckFail)
  | engineThreadComplete (op : Nat)
  | waitingUnitEnd (k : FKey) (remote : List LineAnswer)
  | mzeroApply (c t : Nat)
  | mmaApply (c t : Nat)
  | mdrnApply (c t : Nat) (remote : List LineAnswer)
  | copyLanded (op : Nat) (remote : List LineAnswer)
  | tmmChunk (op : Nat) (remote : List LineAnswer)
  | flipEnd (page : Nat)
  | snoopResponse (page : Nat)
  | hostWrite (addr : Nat) (bytes : List Byte)
  | hostRead (addr n : Nat)
  -- events of launching, placing and retiring (R28 to R52, R350 to R353)
  | commitLineInvalidate (slot : Nat)
  | commitLineSweep
  | lwinEnable (v : DWord)
  | dependenceSatisfied (order : Nat) (which : Bool)
  | dependencePoll (order : Nat) (which : Bool)
  | parishPlacement (die : Nat)
  | forcedDeparture (k : FKey)
  | stealRequest (thief : Nat)
  | stealAnswer (thief : Nat)
  | parishRetire (ctx pid : Nat)
  | launchCompletion (ctx : Nat)
  | contextHalt (ctx : Nat) (i : HaltInfo)
  | haltComplete (ctx : Nat)
  | lateKind1Reinstate (k : FKey)
  -- host register events (R27, R42, R124, R304, R364)
  | xinv (t : Nat) (v : DWord)
  | invalidationComplete (t : Nat)
  | trows (t : Nat) (v : DWord)
  | ctxkill (v : DWord)
  | trst (t : Nat)
  | tenancyResetDone (t : Nat)
  | registerWrite (off : Nat) (v : DWord)
  | quarterStop (q : Nat)
  | quarterRelease (q : Nat) (stl : Word)
  | stallSample (q : Nat)
  -- the test access port (R346)
  | idcode
  | samplePreload (pins : DWord)
  | extest
  | curfew (bit : Bool)
  | saddr (v : DWord)
  | sdata
  | bypass (code : Byte)
  -- the steward and the package (R140 to R142, R363 to R371)
  | packageReset
  | doeAttestation (nonce : List Byte)
  | doeCertChain
  | doeExtend (i : Nat) (digest : List Byte)
  | doeKekInstall (t : Nat) (pub iv wrapped tag : List Byte)
  | doeUnknown (ty : Nat)
  | clockEvaluation (power : Nat) (sensors : List Nat)
  | thermalTrip (sensor : Nat)
  | sliceRetire (die slice : Nat) (newMap : List Nat)
  | graceWindowEnd (die : Nat)
  | planeRemap (plane port : Nat)
  | flitReceive (port : Nat) (f : Flit)
  | replayRequest (port : Nat) (seq : BitVec 12)
  | bufferHold (port : Nat)
  | bufferRelease (port : Nat)
  | linkDown (port : Nat)
  | linkSilenceTimeout (port : Nat)
  | holdHintOn (port peer : Nat)
  | holdHintOff (port peer : Nat)
  | holdHintExpiry (port peer : Nat)
  | peerProbe (peer : Nat)
  | peerLost (peer : Nat)
  | peerReadmit (peer : Nat)
  | hostSnoop (addr : Nat)
  | uncorrectableError (loc : Nat)
  | linkTrained (port : Nat)
  | peerNumberAssign (n : Nat)
  | resetEnd (image sig pub config dispatcher : List Byte)
  | stewardKeyInstall (slot ten : Nat) (key : List Byte)
  deriving DecidableEq, Repr

/-- The header of an instruction word; none for IMX words and events. -/
def Instr.hdr? : Instr → Option Hdr
  | .iadd h _ _ _ _ => some h
  | .isub h _ _ _ _ => some h
  | .imul h _ _ _ _ => some h
  | .imulh h _ _ _ _ => some h
  | .imad h _ _ _ _ => some h
  | .iadds h _ _ _ _ => some h
  | .isubs h _ _ _ _ => some h
  | .idiv h _ _ _ _ => some h
  | .irem h _ _ _ _ => some h
  | .imin h _ _ _ _ => some h
  | .imax h _ _ _ _ => some h
  | .iabs h _ _ _ => some h
  | .ineg h _ _ _ => some h
  | .and h _ _ _ _ => some h
  | .or h _ _ _ _ => some h
  | .xor h _ _ _ _ => some h
  | .not h _ _ _ => some h
  | .shl h _ _ _ _ => some h
  | .shr h _ _ _ _ => some h
  | .sar h _ _ _ _ => some h
  | .rot h _ _ _ _ => some h
  | .popc h _ _ _ => some h
  | .clz h _ _ _ => some h
  | .brev h _ _ _ => some h
  | .bfe h _ _ _ _ => some h
  | .bfi h _ _ _ _ => some h
  | .addp h _ _ _ _ => some h
  | .subp h _ _ _ => some h
  | .iaddi h _ _ _ => some h
  | .andi h _ _ _ => some h
  | .ori h _ _ _ => some h
  | .xori h _ _ _ => some h
  | .shli h _ _ _ => some h
  | .shri h _ _ _ => some h
  | .sari h _ _ _ => some h
  | .imuli h _ _ _ => some h
  | .movi h _ _ => some h
  | .movh h _ _ => some h
  | .addpi h _ _ _ => some h
  | .fadd h _ _ _ _ _ => some h
  | .fsub h _ _ _ _ _ => some h
  | .fmul h _ _ _ _ _ => some h
  | .fma h _ _ _ _ _ => some h
  | .fmin h _ _ _ _ => some h
  | .fmax h _ _ _ _ => some h
  | .fabs h _ _ _ => some h
  | .fneg h _ _ _ => some h
  | .frcp h _ _ => some h
  | .frsq h _ _ => some h
  | .fex2 h _ _ => some h
  | .flg2 h _ _ => some h
  | .fsin h _ _ => some h
  | .fcos h _ _ => some h
  | .cvt h _ _ _ _ _ _ => some h
  | .bra h _ => some h
  | .call h _ => some h
  | .brx h _ => some h
  | .callx h _ => some h
  | .ret h => some h
  | .fork h _ => some h
  | .join h _ => some h
  | .quit h _ => some h
  | .yield h => some h
  | .nop h => some h
  | .sleep h _ => some h
  | .cont h _ => some h
  | .resume h _ => some h
  | .trap h _ => some h
  | .movs h _ _ => some h
  | .movsw h _ _ => some h
  | .pand h _ _ _ _ _ => some h
  | .por h _ _ _ _ _ => some h
  | .pxor h _ _ _ _ _ => some h
  | .pnot h _ _ => some h
  | .pmov h _ _ _ => some h
  | .pset h _ _ => some h
  | .cmp h _ _ _ _ _ => some h
  | .ld h _ _ _ _ _ => some h
  | .ldNarrow h _ _ _ _ _ => some h
  | .st h _ _ _ => some h
  | .stNarrow h _ _ _ => some h
  | .lds h _ _ _ _ => some h
  | .ldsNarrow h _ _ _ _ => some h
  | .sts h _ _ _ => some h
  | .stsNarrow h _ _ _ => some h
  | .ldf h _ _ _ _ _ => some h
  | .stf h _ _ _ => some h
  | .pref h _ _ => some h
  | .escm h _ => some h
  | .ldAcq h _ _ _ _ _ => some h
  | .stRel h _ _ _ => some h
  | .ldv h _ _ _ _ _ => some h
  | .casv h _ _ _ _ _ => some h
  | .atomAdd h _ _ _ _ _ => some h
  | .atomAnd h _ _ _ _ _ => some h
  | .atomOr h _ _ _ _ _ => some h
  | .atomXor h _ _ _ _ _ => some h
  | .atomMin h _ _ _ _ _ => some h
  | .atomMax h _ _ _ _ _ => some h
  | .atomExch h _ _ _ _ _ => some h
  | .atomCas h _ _ _ _ _ => some h
  | .atomFadd h _ _ _ _ => some h
  | .rwl h _ _ _ _ _ => some h
  | .valset h _ _ _ _ => some h
  | .waitcSigned h _ _ _ _ => some h
  | .fence h => some h
  | .bar h _ _ => some h
  | .waitcUnsigned h _ _ _ _ => some h
  | .atomOrdAdd h _ _ _ _ _ => some h
  | .atomOrdAnd h _ _ _ _ _ => some h
  | .atomOrdOr h _ _ _ _ _ => some h
  | .atomOrdXor h _ _ _ _ _ => some h
  | .atomOrdMin h _ _ _ _ _ => some h
  | .atomOrdMax h _ _ _ _ _ => some h
  | .atomOrdExch h _ _ _ _ _ => some h
  | .atomOrdCas h _ _ _ _ _ => some h
  | .atomOrdFadd h _ _ _ _ => some h
  | .redAdd h _ _ _ => some h
  | .redAnd h _ _ _ => some h
  | .redOr h _ _ _ => some h
  | .redXor h _ _ _ => some h
  | .redMin h _ _ _ => some h
  | .redMax h _ _ _ => some h
  | .redFadd h _ _ => some h
  | .tdset h _ _ _ => some h
  | .tdget h _ _ _ => some h
  | .tdinv h _ => some h
  | .mscl h _ _ _ => some h
  | .mzero h _ _ => some h
  | .mma h _ _ _ => some h
  | .mdrn h _ _ _ _ => some h
  | .cpy h _ _ => some h
  | .tmm h _ _ _ => some h
  | .twait h _ _ _ => some h
  | .flushc h _ => some h
  | .wopen h _ _ _ => some h
  | .wrevoke h _ _ => some h
  | .monset h _ _ => some h
  | .monrd h _ _ => some h
  | .save h _ _ _ => some h
  | .rest h _ _ _ => some h
  | .keyld h _ _ _ => some h
  | .evict h _ _ => some h
  | .movp h _ _ => some h
  | .movpw h _ _ => some h
  | .dbrk h _ => some h
  | .imx _ => none
  | .flockForm _ => none
  | .urgentFibre _ => none
  | .scoreboardHoldExpiry _ => none
  | .sleepExpiry _ => none
  | .escortDecision _ => none
  | .departure _ => none
  | .escortCreditRefill _ => none
  | .replyArrival _ _ => none
  | .reinstatement _ => none
  | .displacedTimeout _ => none
  | .lateReplyLanding _ _ => none
  | .ldfRetest _ => none
  | .waitcPoll _ _ => none
  | .l1Writeback _ => none
  | .stepTrap _ => none
  | .codeComparatorHit _ _ => none
  | .dataWatchpointHit _ _ => none
  | .writeBufferLeave _ => none
  | .applyWrite _ _ => none
  | .cartAgeExpiry _ _ => none
  | .channelDeliver _ => none
  | .packetAcknowledge _ _ _ _ _ => none
  | .engineThreadComplete _ => none
  | .waitingUnitEnd _ _ => none
  | .mzeroApply _ _ => none
  | .mmaApply _ _ => none
  | .mdrnApply _ _ _ => none
  | .copyLanded _ _ => none
  | .tmmChunk _ _ => none
  | .flipEnd _ => none
  | .snoopResponse _ => none
  | .hostWrite _ _ => none
  | .hostRead _ _ => none
  | .commitLineInvalidate _ => none
  | .commitLineSweep => none
  | .lwinEnable _ => none
  | .dependenceSatisfied _ _ => none
  | .dependencePoll _ _ => none
  | .parishPlacement _ => none
  | .forcedDeparture _ => none
  | .stealRequest _ => none
  | .stealAnswer _ => none
  | .parishRetire _ _ => none
  | .launchCompletion _ => none
  | .contextHalt _ _ => none
  | .haltComplete _ => none
  | .lateKind1Reinstate _ => none
  | .xinv _ _ => none
  | .invalidationComplete _ => none
  | .trows _ _ => none
  | .ctxkill _ => none
  | .trst _ => none
  | .tenancyResetDone _ => none
  | .registerWrite _ _ => none
  | .quarterStop _ => none
  | .quarterRelease _ _ => none
  | .stallSample _ => none
  | .idcode => none
  | .samplePreload _ => none
  | .extest => none
  | .curfew _ => none
  | .saddr _ => none
  | .sdata => none
  | .bypass _ => none
  | .packageReset => none
  | .doeAttestation _ => none
  | .doeCertChain => none
  | .doeExtend _ _ => none
  | .doeKekInstall _ _ _ _ _ => none
  | .doeUnknown _ => none
  | .clockEvaluation _ _ => none
  | .thermalTrip _ => none
  | .sliceRetire _ _ _ => none
  | .graceWindowEnd _ => none
  | .planeRemap _ _ => none
  | .flitReceive _ _ => none
  | .replayRequest _ _ => none
  | .bufferHold _ => none
  | .bufferRelease _ => none
  | .linkDown _ => none
  | .linkSilenceTimeout _ => none
  | .holdHintOn _ _ => none
  | .holdHintOff _ _ => none
  | .holdHintExpiry _ _ => none
  | .peerProbe _ => none
  | .peerLost _ => none
  | .peerReadmit _ => none
  | .hostSnoop _ => none
  | .uncorrectableError _ => none
  | .linkTrained _ => none
  | .peerNumberAssign _ => none
  | .resetEnd _ _ _ _ _ => none
  | .stewardKeyInstall _ _ _ => none

/-- An instruction word, as against an event. -/
def Instr.isWord (i : Instr) : Bool :=
  i.hdr?.isSome || match i with
    | .imx _ => true
    | _ => false

end Sys2Proof
end

