-- ==== Sys2Proof/Machine/State.lean ====
section
/-! DEFINITION. The state of one TH7 package: everything the manual names, as plain data, and `State.reset`. -/

namespace Sys2Proof.Machine

/-- Why the machine stops. The TH7 reports every program error inside its own state (a fault frame, a stop record), so only an access from outside can stop the model. -/
inductive Fault where
  /-- Raised by `execHostRead` and `execHostWrite` for an address outside the HDM range of R25 (1.5 TiB). The manual gives such an access no effect. Safe. -/
  | outsideHdmRange
  deriving DecidableEq, Repr

/-- Why an instruction is refused. -/
inductive Refusal where
  /-- Raised by an arm of `exec` for an instruction without a meaning. Safe. -/
  | notModelled (mnemonic : String)
  deriving DecidableEq, Repr

/-- A sparse table: the last value given to each key; a key never given a value has the table's default. -/
abbrev Tab (α : Type) := List (Nat × α)

/-- Memory: (location number, byte) pairs in the canonical form of `Memory.wf`. -/
abbrev Memory := List Host.Cell

/-- A view (R219). It names every write applied before position `upTo` of the record of applied writes, and the writes numbered in `wids`. -/
structure View where
  upTo : Nat
  wids : List Nat
  deriving DecidableEq, Repr

/-- Operations of an atomic (R71), which the cart elements of R275 name too. -/
inductive AOp where
  | add | and | or | xor | min | max | exch | cas | fadd
  deriving DecidableEq, Repr

/-- What a write does to its bytes: stores them, or modifies them at the home (RED). -/
inductive WKind where
  | store (bytes : List Byte)
  /-- STF: stores and sets the granule full (R154) -/
  | fill (bytes : List Byte)
  | red (op : AOp) (signed : Bool) (n : Nat) (v : DWord)
  deriving DecidableEq, Repr

/-- Where an access goes: a location of this package (device, host or scratchpad memory, see `Machine/Ops`), or a peer or group through a remote leaf. -/
inductive Dest where
  | home (loc : Nat)
  | peer (group : Bool) (p win gen va : Nat)
  deriving DecidableEq, Repr

/-- The source of a write (R223). -/
inductive Src where
  | fibre (k : FKey)
  | engine (op : Nat)
  | host
  | chan (peer plane : Nat)
  deriving DecidableEq, Repr

/-- A write in a fibre's write buffer (R221). -/
structure BufWrite where
  wid : Nat
  seq : Nat
  dest : Dest
  n : Nat
  kind : WKind
  rel : Bool
  pva : Nat
  /-- its page is one that an L1 holds (R131), and is system-atomic (R125) -/
  cached : Bool
  sa : Bool
  deriving DecidableEq, Repr

/-- A write in an apply queue (R218). -/
structure AqWrite where
  /-- the die it is homed on -/
  die : Nat
  src : Src
  wid : Nat
  loc : Nat
  n : Nat
  kind : WKind
  view : Option View
  /-- the die it came from, the number that die gave it, and its stamp (R224) -/
  sdie : Nat
  num : Nat
  stamp : List Nat
  /-- its page is system-atomic (R240) -/
  sa : Bool
  /-- what the read of a modification in two steps returned (R240, R242) -/
  rd : Option Nat
  /-- the write-back it belongs to, 0 for none, and whether that event is counted already (R132, R138) -/
  grp : Nat
  merged : Bool
  deriving DecidableEq, Repr

/-- An applied write: its place in the order of all applications is the number of entries after it in `State.hist`. -/
structure Applied where
  wid : Nat
  loc : Nat
  old : List Byte
  new : List Byte
  view : Option View
  /-- the stamp that a reply with its value carries (R224); empty: none -/
  stamp : List Nat
  deriving DecidableEq, Repr

/-- Where a fibre's window is (R76, R77, R164, R173 to R176). -/
inductive Res where
  /-- in window `w` of its lane -/
  | resident (w : Nat)
  /-- its record is away with a request, or in the cluster escort buffer (JOIN) -/
  | abroad
  /-- its reply has come and its record waits for a window -/
  | returning
  /-- in lodge window `w`, as a record of KIND 2 -/
  | lodged (w : Nat)
  /-- in landing entry `i` -/
  | landed (i : Nat)
  /-- in the wait of QUIT: no window, only the stub (R91) -/
  | stubOnly
  /-- it has ended; its last writes have not left its write buffer (R91) -/
  | ended
  deriving DecidableEq, Repr

/-- What a fibre waits for, apart from an outstanding request of its own (R79). -/
inductive Wait where
  | none
  | join (d : RegNo)
  | sleep (wake : Nat)
  | quit (status : Word) (seq : Nat)
  /-- `rip` is the unit after the BAR (R300) -/
  | bar (lv : BarLevel) (mchk : Bool) (seq : Nat) (rip : DWord)
  | fence (seq : Nat)
  /-- a PSET chained behind a FENCE, or behind a unit whose escort is not decided: it reads %fs once they have set it (R95). Its destination and bit, and the fibre whose %fs it reads: the leader where U = 1 (R84) -/
  | pset (p : PredNo) (bit : Nat) (src : FKey)
  /-- a FORK whose release step is not allowed yet (R90, R230): its child, which has its place already, none where no stub was free -/
  | fork (child : Option FKey) (seq : Nat)
  /-- a child whose FORK has not taken its step -/
  | unborn
  /-- a RESUME of the frame at `v` behind a FENCE or BAR of its chain (R222) -/
  | resume (v : DWord)
  /-- a unit of R232's last paragraph: operation `op` -/
  | engine (op : Nat)
  /-- WAITC, TWAIT, VALSET: request `r` -/
  | request (r : Nat)
  /-- a tile held by another household (R196), since operation number `op` -/
  | tile (op : Nat)
  /-- a MOVPW to %xinv (R124) -/
  | xinv
  /-- frozen by the halt of its context (R311) -/
  | halted
  deriving DecidableEq, Repr

/-- A wait, with the number and the address of the unit that waits. -/
structure Waiting where
  seq : Nat
  unit : DWord
  wait : Wait
  deriving DecidableEq, Repr

/-- An escort record's own fields (R161) besides those the fibre fixes. `vals` holds the words of MASK, zero elsewhere. -/
structure EscRec where
  mask : Word
  vals : Vector Word 32
  kind : Nat
  dst : RegNo
  dw : Nat
  fc : Nat
  depc : Word
  tag : Nat
  /-- bytes charged to the allowances (R166) -/
  charge : Nat
  /-- the unit whose escort it is, or that its fibre waits at (R341) -/
  unit : DWord
  deriving DecidableEq, Repr

/-- A recoverable fault to deliver (R306): class, cause, reason, resume address, fault address, code, registers recorded. -/
structure FaultRec where
  cls : Nat
  cause : Nat
  reason : Nat
  rip : DWord
  faddr : Nat
  code : Nat
  mask : Word
  /-- the unit that faulted: FIP of the halt that takes the delivery's place (R307, R313), and its number -/
  unit : DWord
  seq : Nat
  deriving DecidableEq, Repr

/-- A live fibre (R76, R77). -/
structure Fibre where
  key : FKey
  ip : DWord
  regs : Vector Word 32
  preds : Vector Bool 12
  fs : Word
  esc : Word
  cont : DWord
  fault : DWord
  nch : Nat
  pv : Bool
  par : Nat
  fid : Nat
  res : Res
  /-- its wait, with the number and the address of the unit that waits, and the waits of later units of the same chain (R66) -/
  wait : Wait
  waitSeq : Nat
  waitUnit : DWord
  more : List Waiting
  rcd : Option EscRec
  /-- faults that wait to be delivered, the first one first: until the fibre is resident (R179), and until the waits of the units before the faulting one are over (R69) -/
  rfaults : List FaultRec
  /-- a forked child, a parked fibre or a displaced fibre whose wait is over queues as a returning fibre from this serial number (R173) -/
  retFrom : Option Nat
  /-- the hot peer it parked at (R178) -/
  parkedAt : Option Nat
  /-- when it was displaced, or its last wait ended (R174), and its place in the order of displacement and parking (R174, R178) -/
  since : Nat
  putAt : Nat
  /-- time from which it has been ready without issuing (R79), none while it is not ready -/
  readyFrom : Option Nat
  /-- last issue, or its last reinstatement (R173) -/
  lastIssue : Nat
  /-- YIELD (R93) -/
  yielded : Bool
  /-- comparators below this number do not match its next unit: R338, R339, or they have acted on it -/
  cmpFrom : Nat
  /-- a unit before which a comparator has stopped its quarter: none is checked when it first issues (R339) -/
  cmpPast : Option DWord
  /-- it has issued a unit with ST = 1 outside its handler region (R335) -/
  stepDue : Bool
  /-- where it goes once the rest of its chain has issued, as a unit of the chain has moved it (R56, R88, R98), with the first comparator that its unit there meets (R338) -/
  after : Option (DWord × Nat)
  /-- the same for chains that are cut and issue again from the address (R69) -/
  owed : List (DWord × DWord × Nat)
  /-- CPY with FOLN = 1 just issued: the operation it started (R212) -/
  foln : Option Nat
  /-- the join of the views of the children that quit (R230) -/
  childView : View
  view : View
  wb : List BufWrite
  deriving DecidableEq, Repr

/-- A flock (R80, R81), with the chain it is issuing (R66, R67) and the IMX words read so far (R61). -/
structure Flock where
  q : Nat
  sh : Nat
  addr : DWord
  members : List FKey
  issued : Nat
  imxs : List (BitVec 17)
  /-- address of the unit in progress: its first IMX word (R61) -/
  unitAddr : DWord
  /-- the members as they stood before the chain issued (R67); empty between chains -/
  snap : List Fibre
  /-- the cycles for which each member that is held has been held (R81) -/
  held : List (FKey × Nat)
  /-- ends after the unit that is issuing -/
  ending : Bool
  /-- the unit before which the chain splits (R68) -/
  split : Option DWord
  deriving DecidableEq, Repr

/-- What an outstanding read request does when it is performed. -/
inductive ReqKind where
  /-- LD, LDS and narrow forms: size in bytes, sign-extension -/
  | load (n : Nat) (signed : Bool)
  | ldf (n : Nat)
  | ldv (w : Bool)
  | atom (op : AOp) (signed wide : Bool) (v e : DWord)
  | rwl (op : RwlOp) (counted : Bool)
  | casv (wide : Bool) (expected : BitVec 48) (new : DWord)
  | waitc (signed : Bool) (cc : CC) (v : Word)
  | twait (thr : Int)
  | valset (pairs : List (Nat × Nat)) (st : Option (Nat × Word)) (p : PredNo)
  /-- RESUME of a frame that lies in a peer's memory (R98) -/
  | frame
  /-- the fill of a sector that a PREF has started (R157): no access, and no member waits for it -/
  | pref
  deriving DecidableEq, Repr

/-- An outstanding request: one entry of the outstanding transaction table (R171), or a request served by its L1 or scratchpad. -/
structure Req where
  id : Nat
  key : FKey
  seq : Nat
  /-- address of the unit (R61), the producer that the scoreboard names (R85) -/
  unitAddr : DWord
  va : Nat
  /-- the addresses that it has translated (R128) -/
  vas : List Nat
  dest : Dest
  n : Nat
  kind : ReqKind
  acq : Bool
  rel : Bool
  dst : RegNo
  /-- destination registers: 0, 1, 2 or 4 -/
  dw : Nat
  /-- the other members of a U = 1 unit whose destination it writes, with the units each may still issue (R84, R86) -/
  also : List (FKey × Nat)
  /-- units the fibre may still issue (R86) -/
  left : Nat
  /-- the registers captured for the escort: mask and words (R162) -/
  esc : Option (Word × Vector Word 32)
  /-- the unit asks for an escort (E = 1, WAITC, TWAIT) -/
  asks : Bool
  decided : Bool
  granted : Bool
  /-- a unit held at the end of its window has been counted (R86) -/
  stalled : Bool
  /-- bytes charged while granted (R166) -/
  charge : Nat
  /-- a bell is armed at the home slice (R254) -/
  bell : Bool
  /-- the order in which LDFs began to wait in their banks' lists (R156); of WAITC and TWAIT, not 0 once the word has been read (R254, R255) -/
  waitFrom : Nat
  /-- the answer on its way back: the value read (R254, R155), with the view to join -/
  ans : Option Nat
  ansView : View
  /-- or the recoverable fault that comes back instead: class and code (R179, R274) -/
  fail : Option (Nat × Nat)
  /-- the share's L1 has taken the acquire of its answer (R135) -/
  l1Done : Bool
  /-- a load of a peer's page that the package has answered: it leaves no package (R132, R136, R167) -/
  served : Bool
  /-- a remote request has entered its channel, and has been delivered (R234) -/
  sent : Bool
  delivered : Bool
  /-- its page is one that an L1 holds, with RO as here (R131); and is system-atomic (R125) -/
  cache : Option Bool
  sa : Bool
  /-- what the read of an atomic in two steps returned (R240, R242) -/
  rd : Option Nat
  /-- its entry of the outstanding transaction table of the cluster that issued it, where it takes one (R161, R171), and the share that it issued from (R170, R317) -/
  tag : Option Nat
  share : Nat
  /-- when it issued (R341) -/
  born : Nat
  deriving DecidableEq, Repr

/-- The fields of a launch record (R21). -/
structure LaunchRec where
  entry : DWord
  args : DWord
  gx : Nat
  gy : Nat
  gz : Nat
  nfib : Nat
  prio : Nat
  w : Nat
  s : Nat
  win : Nat
  spad : Nat
  l1sz : Nat
  ten : Nat
  dtab : DWord
  dcnt : Nat
  land : DWord
  lsize : DWord
  dep0 : DWord
  thr0 : DWord
  dep1 : DWord
  thr1 : DWord
  done : DWord
  escq : Nat
  vec : Nat
  cont : DWord
  tag : Word
  deriving DecidableEq, Repr

/-- A launch in the pending table (R34, R35). -/
structure Pending where
  order : Nat
  slot : Nat
  attr : DWord
  lrec : LaunchRec
  raw : List Byte
  desc : Tab (BitVec 512)
  sat0 : Bool
  sat1 : Bool
  view : View
  deriving DecidableEq, Repr

/-- The state of a context's halt (R311): the faults that asserted it, the first one first. -/
structure Halting where
  infos : List HaltInfo
  /-- the dies of the fibres whose FENCE or BAR arrival it abandoned (R287), and of those for which a reply came too late (R180) -/
  fences : List Nat
  late : List Nat
  deriving DecidableEq, Repr

/-- A monitor partial or check total (R293, R298). -/
structure MonSum where
  a : Int
  nan : Bool
  sat : Bool
  inx : Bool
  pw : Bool
  deriving DecidableEq, Repr

/-- A household in its share slot (R43 to R46): key cluster * 4 + slot in `State.shares`. -/
structure Household where
  ctx : Nat
  ten : Nat
  prio : Nat
  pid : Nat
  hid : Nat
  /-- package cluster of the parish's household 0 -/
  c0 : Nat
  base : Nat
  bnda : Nat
  bndb : Nat
  bndc : Nat
  lim : Nat
  /-- windows on each lane now (R46, R316) -/
  windows : Nat
  /-- a loan: borrower's slot, length and base in 16-byte units (R316) -/
  lend : Option (Nat × Nat × Nat)
  /-- the loan this share's registers lie in: lender's slot, length and base -/
  borrowed : Option (Nat × Nat × Nat)
  exited : Bool
  escq : Nat
  charge : Nat
  /-- entries of the remote-fault queue at the last FENCE (R257) -/
  rfSeen : Nat
  partials : Vector MonSum 8
  deriving DecidableEq, Repr

/-- A fibre of a saved context, with its parish and household numbers; and the landing entry, with its record, that a late reply has got where the fibre's window is in the image (R176). -/
structure Away where
  f : Fibre
  pid : Nat
  hid : Nat
  late : Option (Nat × EscRec)
  deriving DecidableEq, Repr

/-- A loan that waits for windows to be given up (R315, R316): the launch's commit order, the parish, the cluster, the borrower's and the lender's slots, and the borrower's bank range. -/
structure Loan where
  order : Nat
  pid : Nat
  c : Nat
  slot : Nat
  lender : Nat
  base : Nat
  len : Nat
  deriving DecidableEq, Repr

/-- A context (R303, R304). Its number is the key of `State.ctxs`. -/
structure Ctx where
  st : Nat
  ten : Nat
  priv : Bool
  prot : Bool
  keyslot : Nat
  sctr : DWord
  rstd : Bool
  slot : Nat
  order : Nat
  lrec : LaunchRec
  raw : List Byte
  desc : Tab (BitVec 512)
  /-- %rfq (R279) and the failure count that is kept whatever EN says (R281) -/
  rfq : DWord
  fails : Nat
  /-- parishes not yet placed, by the die that owns them (R48) -/
  unplaced : List (Nat × Nat)
  /-- parishes retired, of gx * gy * gz -/
  retired : Nat
  view : View
  /-- the views of the fibres and engine threads that have ended (R230) -/
  doneView : View
  /-- protected pages its walks have met: first page number and count (R146) -/
  walked : List (Nat × Nat)
  halting : Option Halting
  /-- what a save leaves with the device besides the image (DESIGN CHOICE, log 16): its fibres with their parish and household numbers, and the households -/
  away : List Away
  kept : List (Nat × Household)
  deriving DecidableEq, Repr

/-- A quarter (R51, R80, R166, R170, R339). -/
structure Quarter where
  rr : Vector Int 4
  charge : Nat
  credit : Nat
  refill : Bool
  dqctl : DWord
  dqdbuf : DWord
  stopped : Bool
  deriving DecidableEq, Repr

/-- A matrix tile (R189, R196). -/
structure Tile where
  holder : Option Nat
  /-- number of the occupation, for contents that are unknown (DESIGN CHOICE, log 8) -/
  serial : Nat
  /-- none: unknown until MZERO (R196) -/
  elems : Option (List MonSum)
  eb : Int
  inx : Bool
  /-- scale memory bytes that have been loaded: key side * 8192 + row * 64 + column -/
  scales : Tab Byte
  deriving DecidableEq, Repr

/-- The kinds of engine operation (R199). -/
inductive EKind where
  | tdset | tdget | tdinv | mscl | mzero | mma | mdrn | cpy | tmm | wopen | wrevoke | monset | monrd | save | rest | keyld | evict
  deriving DecidableEq, Repr

/-- An engine operation: a thread forked when its unit issued (R232). -/
structure EngineOp where
  id : Nat
  kind : EKind
  key : FKey
  fid : Nat
  ctx : Nat
  seq : Nat
  unitAddr : DWord
  tile : Nat
  /-- descriptor images read at issue: operands A/D, B/S, staging pair -/
  descs : List (BitVec 512)
  descNos : List Nat
  parm : BitVec 17
  /-- MDRN: predicate and FREE; MSCL: column and side -/
  pred : PredNo
  free : Bool
  arg : Nat
  /-- address operand of a waiting unit, whether it is a scratchpad address, and the destination register -/
  va : Nat
  spad : Bool
  dst : RegNo
  /-- location of the completion object (R201) -/
  obj : Option Nat
  /-- place in its tile's acceptance queue (R198); none: not accepted yet -/
  accepted : Option Nat
  /-- the follow-on MMA of a CPY, and the CPY of a follow-on MMA (R212) -/
  partner : Option Nat
  /-- TMM step (R214) -/
  step : Nat
  /-- elements still to copy of a TMM chunk or a CPY have all landed -/
  landed : Bool
  /-- first fault: address, FINFO, and PEER of R280 (R201, R203) -/
  flt : Option (Nat × Nat × Nat)
  /-- MDRN: the snapshot's INX, once taken -/
  snapInx : Option Bool
  /-- EVICT and SAVE: what the unit was given -/
  lines : Nat
  ended : Bool
  /-- its thread has forked (R232): VW_T is taken from the fibre at that step -/
  forked : Bool
  /-- lines it has written, and whose write event it has counted (R138, R211, R313) -/
  lined : List Nat
  /-- its bulk transfers, if any, have entered their plane channels (R234, R267, R274); whether one of them writes -/
  bulk : Option Bool
  /-- its first move has begun (R313) -/
  began : Bool
  /-- MMA: the rows of its operands, once fetched (R207), or of B alone where a fetch that another MMA made serves it (R209) -/
  rows : Option (List (List Byte) × List (List Byte))
  fetched : Option (List (List Byte))
  view : View
  /-- when it issued (R341) -/
  born : Nat
  deriving DecidableEq, Repr

/-- A fetch of operand B that MMAs may share for 256 cycles (R209): the MMA that made it, the rows, the view after it, the instant before which nothing in it was applied, and when. -/
structure BFetch where
  op : EngineOp
  rows : List (List Byte)
  view : View
  pos : Nat
  born : Nat
  deriving DecidableEq, Repr

/-- A line present in an L2 slice (R137, R138), keyed by line number. While it has an owner, the version is the one that the owner holds. -/
structure Line where
  version : Nat
  /-- valid and dirty sectors, and written words (R137) -/
  valid : BitVec 4
  dirty : BitVec 4
  mask : BitVec 64
  /-- the directory's entry: the owning share, and the serial of the grant (R133) -/
  owner : Option (Nat × Nat)
  deriving DecidableEq, Repr

/-- A line in the L1 of a share (R131). The dirty words of an unowned line are the writes that stand in write buffers (R231), so only those of an owned line are kept here. -/
structure L1Line where
  share : Nat
  /-- the line's number; for a line of a peer, see `remoteLine` -/
  line : Nat
  valid : BitVec 4
  owned : Bool
  mask : BitVec 64
  /-- its page has RO = 1 -/
  ro : Bool
  /-- of a mode-10 line: the bytes of its valid sectors -/
  bytes : Memory
  deriving DecidableEq, Repr

/-- Attributes of a 64 KiB page (R143) and its flip (R238). -/
structure PageAttr where
  hostBias : Bool
  prot : Bool
  flipping : Bool
  /-- while it flips: the bias that the latest walk has asked for (R145) -/
  want : Bool
  /-- a back-invalidate snoop has not been answered (R144, R145) -/
  waitHost : Bool
  /-- its 64-byte lines that have been snooped and not answered for, and those for which the host has answered and that neither side has accessed since (R144, R237) -/
  asked : List Nat
  answered : List Nat
  deriving DecidableEq, Repr

/-- An undeparted or departed element: what R276 keeps for queue entries. -/
structure SentElem where
  elem : CartElem
  key : FKey
  fid : Nat
  ctx : Nat
  seq : Nat
  wid : Nat
  deriving DecidableEq, Repr

/-- A cart (R275, R277), keyed by die * 256 + number. -/
structure Cart where
  ctx : Nat
  group : Bool
  peer : Nat
  plane : Nat
  born : Nat
  elems : List SentElem
  deriving DecidableEq, Repr

/-- What stands in a plane channel (R234): a packet, or a direct request. -/
inductive ChanItem where
  | packet (hdr : CartHdr) (es : List SentElem)
  | request (r : Nat)
  /-- a bulk read, or a bulk write of some bytes, of operation `op`, with the window, the generation and the element size -/
  | bulk (op : Nat) (write : Bool) (win gen va elem n : Nat) (bytes : List Byte)
  deriving DecidableEq, Repr

/-- A plane channel CH(s, p, pi) of one die. -/
structure Chan where
  die : Nat
  group : Bool
  peer : Nat
  plane : Nat
  seq : BitVec 16
  items : List ChanItem
  /-- what it has delivered, oldest first, while it may still have to be sent again (R268) -/
  flight : List ChanItem
  deriving DecidableEq, Repr

/-- A packet sent and not acknowledged: K(c, d) of R218. -/
structure Unacked where
  die : Nat
  group : Bool
  peer : Nat
  plane : Nat
  seq : BitVec 16
  delivered : Bool
  es : List SentElem
  /-- when it departed (R286) -/
  born : Nat
  deriving DecidableEq, Repr

/-- An acknowledgement that this package owes a peer: the writes it waits for, and what it will name as failed. -/
structure AckDue where
  peer : Nat
  plane : Nat
  seq : BitVec 16
  wids : List Nat
  fails : List (Nat × Nat)
  deriving DecidableEq, Repr

/-- An entry of the window table (R270). -/
structure WindowEntry where
  image : BitVec 256
  v : Bool
  gen : BitVec 16
  ten : Nat
  deriving DecidableEq, Repr

/-- A peer's atomic on a page in host bias that is not system-atomic, between its read and its write (R240, R242): what it read. -/
structure Import where
  id : Nat
  peer : Nat
  win : Nat
  gen : Nat
  va : Nat
  k : InKind
  loc : Nat
  rd : Nat
  deriving DecidableEq, Repr

/-- A fabric port (R265, R266). -/
structure Port where
  up : Bool
  down : Bool
  /-- sequence number expected next, and the number of the next flit sent -/
  rxSeq : BitVec 12
  txSeq : BitVec 12
  /-- flits sent and not acknowledged -/
  unacked : Nat
  replays : Nat
  held : Bool
  lastFlit : Nat
  /-- flits in its receive buffer, and whether it has asked the other side to hold -/
  rxFill : Nat
  rxHold : Bool
  deriving DecidableEq, Repr

/-- A request at a peer whose context has halted (R180): its number, cluster and table entry, which stay open until the reply comes, and the entry of the tenancy's stop ring in which the fabric interface of its die counts that reply. -/
structure OpenTag where
  id : Nat
  c : Nat
  tag : Nat
  ring : Option (Nat × Nat)
  /-- its peer, and the plane on which its reply comes -/
  peer : Nat
  plane : Nat
  deriving DecidableEq, Repr

/-- A monitor slot as its home holds it (R293 to R299). -/
structure MonSlot where
  ctx : Nat
  order : Nat
  image : BitVec 512
  total : MonSum
  breached : Bool
  hidx : Nat
  checks : Nat
  breaches : Nat
  deriving DecidableEq, Repr

/-- A key slot (R320, R363). The key is none when erased. -/
structure KeySlot where
  key : Option (List Byte)
  ten : Nat
  deriving DecidableEq, Repr

/-- One entry of the schedule (DESIGN CHOICE, log 3): an event of the machine or from outside, or that a quarter's flock issues its next chain. -/
inductive Pick where
  | event (i : Instr)
  | issue (q : Nat)
  deriving DecidableEq, Repr

/-- What has left the package: the model's record of its outputs (R37, R237, R346, R368). -/
inductive Output where
  | msix (entry : Nat)
  | hostData (addr : Nat) (bytes : List Byte) (poison : Bool)
  | doe (bytes : List Byte)
  | tap (v : DWord)
  /-- a control flit on a port (R266): 0 acknowledgement, 1 replay request, 2 flits sent again, 3 buffer-hold, 4 buffer-release -/
  | flit (port : Nat) (what : Nat)
  /-- a cart packet (R276), and a direct request (R273, R274): peer, tenancy, window, generation, unit address, virtual address and operation -/
  | packet (h : CartHdr) (es : List CartElem)
  | request (peer ten win gen : Nat) (ua : DWord) (va : Nat) (k : InKind)
  /-- a bulk read of one line or less, or a bulk write with its bytes (R273, R274) -/
  | bulk (peer : Nat) (group write : Bool) (ten win gen va elem n : Nat) (bytes : List Byte)
  /-- an answer to a peer's request: refusal code (0 none, 12 poisoned data), bytes, and refused elements of a bulk read -/
  | reply (peer : Nat) (code : Nat) (bytes : List Byte) (fails : List (Nat × Nat))
  /-- an acknowledgement to a peer: failed elements with their codes -/
  | ack (peer plane : Nat) (seq : BitVec 16) (fails : List (Nat × Nat))
  /-- a probe of a peer on a plane (R286) -/
  | probe (peer plane : Nat)
  /-- a back-invalidate snoop of the line at a location (R144), and one of every 64-byte line of a page (R145) -/
  | snoop (loc : Nat)
  | snoopPage (page : Nat)
  /-- back-invalidate snoops of the commit lines that the host owns (R30) -/
  | sweep
  /-- the thermal-trip pin (R371), and the sideband and test pins as EXTEST drives them (R346) -/
  | thermalPin
  | pins (v : DWord)
  deriving DecidableEq, Repr

/-- A host access of a page in flip, which stalls until the flip is over (R145): a read of `n` bytes, or a write of its bytes. -/
structure HostAccess where
  addr : Nat
  n : Nat
  data : Option (List Byte)
  deriving DecidableEq, Repr

/-- The state of one package. -/
structure State where
  -- memory and the ordering machine
  mem : Memory
  full : List Nat
  poison : List Nat
  /-- read-only bytes of peers that mode-10 code pages show (R8), keyed by peer * 2^52 + virtual address -/
  peerCode : Memory
  fibres : List Fibre
  flocks : List Flock
  reqs : List Req
  aq : List AqWrite
  hist : List Applied
  /-- KN_d[e] of R224, keyed by 4 * d + e -/
  kn : Tab Nat
  -- placement
  shares : Tab Household
  sgen : Tab Nat
  /-- shares of saved contexts whose slots are not placed again yet (R317) -/
  saved : Tab Household
  /-- what stays in the window of a fibre that has ended until its parish retires (R349), by `windowKey` -/
  remains : Tab (Vector Word 32)
  loans : List Loan
  quarters : Tab Quarter
  -- engines
  tiles : Tab Tile
  eops : List EngineOp
  fetches : List BFetch
  -- lines, pages, slices
  lines : Tab Line
  /-- the lines of device memory whose bit H is set (R144) -/
  hbits : List Nat
  /-- the L1s' lines, those filled first in front -/
  l1 : List L1Line
  /-- the peer predictors' columns (R136), keyed by 64 * share + index -/
  predict : Tab Nat
  floors : Tab Nat
  pages : Tab PageAttr
  smap : Tab (List Nat)
  smapGen : Tab Nat
  /-- dies whose slice map changed less than 100 microseconds ago, with the time (R142) -/
  grace : List (Nat × Nat)
  /-- slices that apply no further write (R365) -/
  frozen : List Nat
  leafCnt : Tab Nat
  -- launching
  /-- slots whose commit line is to be re-read (R30), and slots whose COMMIT byte the host wrote last (R303) -/
  staleSlots : List Nat
  hostCommits : List Nat
  pending : List Pending
  ctxs : Tab Ctx
  /-- steal requests under way: thief, victim, and the commit order of the launch (R50) -/
  steal : List (Nat × Nat × Nat)
  /-- parishes of pending launches that have been stolen: commit order, parish, and the die that owns it now (R50) -/
  stolen : List (Nat × Nat × Nat)
  -- dispatch block registers, by offset (R27)
  regs : Tab DWord
  -- fabric
  wins : Tab WindowEntry
  carts : Tab Cart
  chans : List Chan
  unacked : List Unacked
  /-- entries of remote-fault queues whose page is held by a flip (R238, R281): context, and the entry but for SEQ -/
  rfqWait : List (Nat × List Byte)
  /-- the numbers of the host's writes that have entered, for their views (R237) -/
  hostWids : List Nat
  /-- host accesses that a flip stalls, oldest first (R145) -/
  hostHeld : List HostAccess
  /-- answers that peers are owed once the writes numbered have been applied (R278) -/
  acks : List AckDue
  /-- replies and acknowledgements that wait for their plane, with it (R267) -/
  outbox : List (Nat × Output)
  /-- planes to be remapped, with their new ports (R268) -/
  remaps : Tab Nat
  openTags : List OpenTag
  imports : List Import
  /-- the peers that have been probed and have not answered, with the time (R286) -/
  probes : Tab Nat
  /-- the peers that the switch has reported unreachable, with the ports (R286) -/
  lostOn : List (Nat × Nat)
  ports : Tab Port
  hot : List (Nat × Nat × Nat × Nat)
  recvSeq : Tab (BitVec 16)
  -- monitors
  monitors : Tab MonSlot
  -- debug
  stopSeq : Tab Nat
  traceSeq : Tab Nat
  dbgCount : Tab Nat
  stallOut : Tab DWord
  /-- the unit that a quarter issued last: when, its address, and the size of its flock (R345) -/
  lastUnit : Tab (Nat × DWord × Nat)
  -- steward
  keys : Tab KeySlot
  hwm : Tab DWord
  keks : Tab (List Byte)
  meas : Tab (List Byte)
  reportSeq : Nat
  boots : Nat
  booted : Bool
  bootFailed : Bool
  curfew : Bool
  tapIr : Byte
  saddr : DWord
  boundary : DWord
  -- time and outputs
  now : Nat
  cyc : Vector DWord 4
  out : List Output
  -- the model's own fields (logs 3 to 8)
  agenda : List Pick
  /-- lines that leave their slices in each of the next steps (R139): the choice is the slice's own (DESIGN CHOICE, log 18) -/
  leaving : List (List Nat)
  cur : Nat
  pace : Nat
  lag : Nat
  serial : Nat
  deriving DecidableEq, Repr

/-- A monitor partial with nothing counted. -/
def MonSum.zero : MonSum := ⟨0, false, false, false, false⟩

/-- A quarter after reset: 8 KiB of store credit (R170). -/
def Quarter.init : Quarter :=
  ⟨Vector.replicate 4 0, 0, 8192, false, 0#64, 0#64, false⟩

/-- A view that names only the initial writes. -/
def View.init : View := ⟨0, []⟩

/-- The package right after reset (R363): every table empty, every register at its reset value. The reset functions of the dispatch block stand with its registers (Machine/Host): a register absent from `regs` reads as its reset value. (DESIGN CHOICE, log 2) -/
def State.reset : State where
  mem := []
  full := []
  poison := []
  peerCode := []
  fibres := []
  flocks := []
  reqs := []
  aq := []
  hist := []
  kn := []
  shares := []
  sgen := []
  saved := []
  remains := []
  loans := []
  quarters := []
  tiles := []
  eops := []
  fetches := []
  lines := []
  hbits := []
  l1 := []
  predict := []
  floors := []
  pages := []
  smap := []
  smapGen := []
  grace := []
  frozen := []
  leafCnt := []
  staleSlots := []
  hostCommits := []
  pending := []
  ctxs := []
  steal := []
  stolen := []
  regs := []
  wins := []
  carts := []
  chans := []
  unacked := []
  rfqWait := []
  hostWids := []
  hostHeld := []
  acks := []
  outbox := []
  remaps := []
  openTags := []
  imports := []
  probes := []
  lostOn := []
  ports := []
  hot := []
  recvSeq := []
  monitors := []
  stopSeq := []
  traceSeq := []
  dbgCount := []
  stallOut := []
  lastUnit := []
  keys := []
  hwm := []
  keks := []
  meas := []
  reportSeq := 0
  boots := 0
  booted := false
  bootFailed := false
  curfew := false
  tapIr := 1#8
  saddr := 0#64
  boundary := 0#64
  now := 0
  cyc := Vector.replicate 4 0#64
  out := []
  agenda := []
  leaving := []
  cur := 0
  pace := 1
  lag := 0
  serial := 0

end Sys2Proof.Machine
end

