-- ==== Sys2Proof/Machine/Mem.lean ====
section
/-! DEFINITION. Memory and tables: the canonical byte memory, location numbers, byte order, and lookups of fibres, shares, contexts and requests. -/

namespace Sys2Proof

/-- The share of a fibre: cluster * 4 + slot (R43). -/
def FKey.share (k : FKey) : Nat := k.c * 4 + k.k
/-- The quarter of a fibre in the package: cluster * 4 + quarter (R41). -/
def FKey.quarter (k : FKey) : Nat := k.c * 4 + k.l / 32
/-- The die of a fibre. -/
def FKey.die (k : FKey) : Nat := k.c / 64

end Sys2Proof

namespace Sys2Proof.Machine

/-! ### Tables -/

def Tab.get? {α : Type} : Tab α → Nat → Option α
  | [], _ => none
  | (j, x) :: t, k => if j = k then some x else Tab.get? t k

def Tab.getD {α : Type} (t : Tab α) (k : Nat) (d : α) : α := (t.get? k).getD d

/-- Gives key `k` the value `x`, in place when the key is present. -/
def Tab.set {α : Type} : Tab α → Nat → α → Tab α
  | [], k, x => [(k, x)]
  | (j, y) :: t, k, x => if j = k then (k, x) :: t else (j, y) :: Tab.set t k x

def Tab.del {α : Type} (t : Tab α) (k : Nat) : Tab α := t.filter fun e => e.1 ≠ k

def Tab.upd {α : Type} (t : Tab α) (k : Nat) (d : α) (f : α → α) : Tab α := t.set k (f (t.getD k d))

/-! ### Sorting -/

def insertBy {α : Type} (le : α → α → Bool) (x : α) : List α → List α
  | [] => [x]
  | y :: t => if le x y then x :: y :: t else y :: insertBy le x t

/-- The list in the order `le`; equal elements keep their order. -/
def sortBy {α : Type} (le : α → α → Bool) : List α → List α
  | [] => []
  | x :: t => insertBy le x (sortBy le t)

def sortNat (l : List Nat) : List Nat := sortBy (fun a b => decide (a ≤ b)) l

/-! ### Bytes -/

/-- The number that a little-endian list of bytes stands for. -/
def leNat : List Byte → Nat
  | [] => 0
  | b :: t => b.toNat + 256 * leNat t

/-- The `n` low bytes of `v`, little-endian (R16, R53, R149). -/
def leBytes : Nat → Nat → List Byte
  | 0, _ => []
  | n + 1, v => BitVec.ofNat 8 v :: leBytes n (v / 256)

/-- Bits [hi:lo] of a number. -/
def bits (v hi lo : Nat) : Nat := v / 2 ^ lo % 2 ^ (hi + 1 - lo)

/-- A number read as a signed one of `n` bits. -/
def signedOf (n v : Nat) : Int := if v % 2 ^ n < 2 ^ (n - 1) then (v % 2 ^ n : Nat) else (v % 2 ^ n : Nat) - (2 ^ n : Nat)

/-! ### Memory (DESIGN CHOICE, log 1: an unlisted byte reads as 0) -/

/-- What an unlisted address reads as (DESIGN CHOICE, log 1). -/
def Memory.blank : Byte := 0#8

def Memory.get : Memory → Nat → Byte
  | [], _ => Memory.blank
  | (x, v) :: t, a => if x = a then v else Memory.get t a

/-- Writes one byte and keeps the canonical form. -/
def Memory.set : Memory → Nat → Byte → Memory
  | [], a, b => if b = Memory.blank then [] else [(a, b)]
  | (x, v) :: t, a, b =>
    if a < x then (if b = Memory.blank then (x, v) :: t else (a, b) :: (x, v) :: t)
    else if a = x then (if b = Memory.blank then t else (a, b) :: t)
    else (x, v) :: Memory.set t a b

/-- Addresses strictly rise from `lo` on, and no entry is the blank byte. -/
def Memory.wfFrom : Nat → Memory → Bool
  | _, [] => true
  | lo, (x, v) :: t => decide (lo ≤ x) && decide (v ≠ Memory.blank) && Memory.wfFrom (x + 1) t

/-- The canonical form of memory. -/
def Memory.wf (m : Memory) : Bool := Memory.wfFrom 0 m

def Memory.readBytes (m : Memory) (a : Nat) : Nat → List Byte
  | 0 => []
  | n + 1 => m.get a :: Memory.readBytes m (a + 1) n

def Memory.writeBytes (m : Memory) (a : Nat) : List Byte → Memory
  | [] => m
  | b :: t => Memory.writeBytes (m.set a b) (a + 1) t

/-- The `n` bytes at `a` as a little-endian number. -/
def Memory.read (m : Memory) (a n : Nat) : Nat := leNat (m.readBytes a n)

/-! ### Locations

One number names every byte the package can reach: a device physical address (R126); 2^51 + a host physical address; 2^60 + 2^20 times a share (cluster * 4 + slot) + a scratchpad offset. -/

def hostBase : Nat := 2 ^ 51
def spadBase : Nat := 2 ^ 60
def hostLoc (hpa : Nat) : Nat := hostBase + hpa
def spadLoc (share off : Nat) : Nat := spadBase + share * 2 ^ 20 + off
def isSpad (loc : Nat) : Bool := decide (spadBase ≤ loc)
def isHost (loc : Nat) : Bool := decide (hostBase ≤ loc) && decide (loc < spadBase)
def isDram (loc : Nat) : Bool := decide (loc < hostBase)
/-- The share of a scratchpad location. -/
def spadShare (loc : Nat) : Nat := (loc - spadBase) / 2 ^ 20

/-- End of the memory that leaves may map, and of the HDM range (R126, R25). -/
def dramLimit : Nat := 0x17FFF800000
def hdmLimit : Nat := 0x18000000000
/-- Bytes of device memory on each die (R130). -/
def dieBytes : Nat := 0x6000000000

/-- The die a location is homed on (R130, R218). -/
def homeDie (loc : Nat) : Nat :=
  if isSpad loc then spadShare loc / 256 else if isHost loc then 0 else loc / dieBytes

/-- h of R130. -/
def sliceHash (n : Nat) : Nat :=
  bits n 5 0 ^^^ bits n 11 6 ^^^ bits n 17 12 ^^^ bits n 23 18 ^^^ bits n 29 24 ^^^ bits n 35 30

/-- Two ranges of locations overlap. -/
def overlap (a n b m : Nat) : Bool := decide (a < b + m) && decide (b < a + n)

/-- SMAP_d (R141): the identity after reset. -/
def State.smapOf (s : State) (d : Nat) : List Nat := s.smap.getD d (List.range 64)

/-- The home slice of a line of device or host memory (R130): die * 64 + slice. -/
def State.homeSlice (s : State) (loc : Nat) : Nat :=
  let d := homeDie loc
  let n := (if isHost loc then loc - hostBase else loc - d * dieBytes) / 256
  d * 64 + (s.smapOf d).getD (sliceHash n) 0

/-- The channel of a device location's line on its die, and the line's address in it (R130). -/
def channelOf (loc : Nat) : Nat := (loc - loc / dieBytes * dieBytes) / 256 % 96
def channelAddr (loc : Nat) : Nat :=
  let q := loc - loc / dieBytes * dieBytes
  256 * (q / 256 / 96) + q % 256

/-- The version floor of a slice (R138): 1 after reset. -/
def State.floor (s : State) (sl : Nat) : Nat := s.floors.getD sl 1

/-- The line of a location, filled at its floor when absent (R138). -/
def State.line (s : State) (loc : Nat) : Line :=
  s.lines.getD (loc / 256) ⟨s.floor (s.homeSlice loc), 0#4, 0#4, 0#64, none⟩

def PageAttr.init : PageAttr := ⟨false, false, false, false, false, [], []⟩
/-- The attribute entry of the 64 KiB page of a device location (R143). -/
def State.page (s : State) (loc : Nat) : PageAttr := s.pages.getD (loc / 65536) PageAttr.init

/-! ### Dispatch block registers (R27): the reset values that are not zero -/

/-- Reset value of the dispatch block register at an offset. -/
def regReset (off : Nat) : DWord :=
  if 0x9000 ≤ off ∧ off < 0x9200 then
    (if off % 0x40 = 0x08 then 0x4000#64 else if off = 0x9038 then 0xFFFFFFFF#64 else 0#64)
  else if 0xA000 ≤ off ∧ off < 0xA100 ∧ off % 0x20 = 0x18 then 0x3FF00000000#64
  else if 0xB000 ≤ off ∧ off < 0xB100 ∧ off % 0x20 = 0x08 then 2#64
  else if off = 0xF100 then BitVec.ofNat 64 (2400 * 2 ^ 32 + 28 * 2 ^ 8)
  else if off = 0xC008 then BitVec.ofNat 64 ((List.range 12).foldr (fun k a => a * 32 + k) 0)
  else if off = 0xC010 then BitVec.ofNat 64 ([12, 13, 14, 15].foldr (fun k a => a * 32 + k) 0)
  else 0#64

def State.reg (s : State) (off : Nat) : DWord := s.regs.getD off (regReset off)
def State.setReg (s : State) (off : Nat) (v : DWord) : State := { s with regs := s.regs.set off v }

def offLwin : Nat := 0x8000
def offSlots (t : Nat) : Nat := 0x9000 + 0x40 * t
def offTcfg (t : Nat) : Nat := 0x9008 + 0x40 * t
def offCqbase (t : Nat) : Nat := 0x9010 + 0x40 * t
def offCqctl (t : Nat) : Nat := 0x9018 + 0x40 * t
def offCqhead (t : Nat) : Nat := 0x9020 + 0x40 * t
def offCqtail (t : Nat) : Nat := 0x9028 + 0x40 * t
def offCqstat (t : Nat) : Nat := 0x9030 + 0x40 * t
def offTrows (t : Nat) : Nat := 0x9038 + 0x40 * t
def offAsroot (t : Nat) : Nat := 0xA000 + 0x20 * t
def offXinv (t : Nat) : Nat := 0xA008 + 0x20 * t
def offMigq (t : Nat) : Nat := 0xA010 + 0x20 * t
def offMigctl (t : Nat) : Nat := 0xA018 + 0x20 * t
def offRfqdef (t : Nat) : Nat := 0xB000 + 0x20 * t
def offCage (t : Nat) : Nat := 0xB008 + 0x20 * t
def offFabid : Nat := 0xC000
def offPmapa : Nat := 0xC008
def offPmapb : Nat := 0xC010
def offLost (i : Nat) : Nat := 0xC040 + 8 * i

/-! ### Lookups -/

def State.fibre? (s : State) (k : FKey) : Option Fibre := s.fibres.find? fun f => f.key = k
/-- Changes the fibre of a key; a key without a fibre changes nothing. -/
def State.updFibre (s : State) (k : FKey) (g : Fibre → Fibre) : State :=
  { s with fibres := s.fibres.map fun f => if f.key = k then g f else f }
def State.dropFibre (s : State) (k : FKey) : State := { s with fibres := s.fibres.filter fun f => f.key ≠ k }

def State.req? (s : State) (r : Nat) : Option Req := s.reqs.find? fun q => q.id = r
def State.updReq (s : State) (r : Nat) (g : Req → Req) : State :=
  { s with reqs := s.reqs.map fun q => if q.id = r then g q else q }
def State.dropReq (s : State) (r : Nat) : State := { s with reqs := s.reqs.filter fun q => q.id ≠ r }

def State.eop? (s : State) (o : Nat) : Option EngineOp := s.eops.find? fun e => e.id = o
def State.updEop (s : State) (o : Nat) (g : EngineOp → EngineOp) : State :=
  { s with eops := s.eops.map fun e => if e.id = o then g e else e }

def blankLaunchRec : LaunchRec :=
  ⟨0#64, 0#64, 1, 1, 1, 32, 0, 1, 1, 32, 0, 0, 0, 0#64, 0, 0#64, 0#64, 0#64, 0#64, 0#64, 0#64, 0#64, 0, 0, 0#64, 0#32⟩
def blankCtx : Ctx :=
  ⟨0, 0, false, false, 0, 0#64, false, 0, 0, blankLaunchRec, [], [], 0#64, 0, [], 0, View.init, View.init, [], none, [], []⟩
def blankHousehold : Household :=
  ⟨0, 0, 0, 0, 0, 0, 0, 0, 0, 0, 0, 0, none, none, false, 0, 0, 0, Vector.replicate 8 MonSum.zero⟩

/-- The household of a share slot; that of a saved context while the slot is kept from placement (R317). -/
def State.share (s : State) (sh : Nat) : Household := s.shares.getD sh (s.saved.getD sh blankHousehold)
def State.updShare (s : State) (sh : Nat) (g : Household → Household) : State :=
  match s.shares.get? sh with
  | some h => { s with shares := s.shares.set sh (g h) }
  | none => s
def State.ctx (s : State) (n : Nat) : Ctx := s.ctxs.getD n blankCtx
def State.updCtx (s : State) (n : Nat) (g : Ctx → Ctx) : State :=
  match s.ctxs.get? n with
  | some c => { s with ctxs := s.ctxs.set n (g c) }
  | none => s
/-- The context number of a fibre (R303, R43). -/
def State.ctxOf (s : State) (k : FKey) : Nat := (s.share k.share).ctx
def State.tenOf (s : State) (k : FKey) : Nat := (s.share k.share).ten
/-- Window size of a fibre's launch in registers (R21). -/
def State.winOf (s : State) (k : FKey) : Nat := (s.ctx (s.ctxOf k)).lrec.win

def State.quarter (s : State) (q : Nat) : Quarter := s.quarters.getD q Quarter.init
def State.updQuarter (s : State) (q : Nat) (g : Quarter → Quarter) : State :=
  { s with quarters := s.quarters.upd q Quarter.init g }

/-- The current flock of a quarter (R80). -/
def State.flockOf? (s : State) (q : Nat) : Option Flock := s.flocks.find? fun f => f.q = q
def State.setFlock (s : State) (f : Flock) : State :=
  { s with flocks := f :: s.flocks.filter fun g => g.q ≠ f.q }
def State.endFlock (s : State) (q : Nat) : State := { s with flocks := s.flocks.filter fun g => g.q ≠ q }

/-- A number never given before: write, request and operation numbers. -/
def State.bump (s : State) : State := { s with serial := s.serial + 1 }

/-- Adds one to a debug event count of a die: 0 chain split (R68), 1 lookahead stall (R86), 2 full overwrite (R154), 3 reinstatement wait (R173). -/
def State.count (s : State) (die ev : Nat) : State :=
  { s with dbgCount := s.dbgCount.upd (die * 8 + ev) 0 (· + 1) }

def State.emit (s : State) (o : Output) : State := { s with out := o :: s.out }

/-! ### Waits (R66, R79) -/

/-- Every wait of a fibre, in program order. -/
def Fibre.waits (f : Fibre) : List Waiting := if f.wait = .none then f.more else ⟨f.waitSeq, f.waitUnit, f.wait⟩ :: f.more
/-- The fibre with these waits and no other. -/
def Fibre.withWaits (f : Fibre) : List Waiting → Fibre
  | [] => { f with wait := .none, more := [] }
  | w :: t => { f with wait := w.wait, waitSeq := w.seq, waitUnit := w.unit, more := t }
/-- The fibre also waits as unit `seq` at `ua` asks; one that is halted does not. -/
def Fibre.await (seq : Nat) (ua : DWord) (w : Wait) (f : Fibre) : Fibre := if f.wait = .halted then f else f.withWaits (f.waits ++ [⟨seq, ua, w⟩])
/-- The waits of which `p` holds are over. -/
def Fibre.unwait (p : Wait → Bool) (f : Fibre) : Fibre := f.withWaits (f.waits.filter fun w => !p w.wait)
/-- Frozen by the halt of its context (R311). -/
def Fibre.freeze (f : Fibre) : Fibre := { f with wait := .halted, more := [] }
/-- One of the fibre's waits is of a kind. -/
def Fibre.waitsFor (f : Fibre) (p : Wait → Bool) : Bool := f.waits.any fun w => p w.wait
/-- The fibre waits, and for nothing but this. -/
def Fibre.waitsOnly (f : Fibre) (p : Wait → Bool) : Bool := !f.waits.isEmpty && f.waits.all fun w => p w.wait

def Wait.isFence : Wait → Bool
  | .fence .. => true
  | _ => false
def Wait.isPset : Wait → Bool
  | .pset .. => true
  | _ => false
def Wait.isBar : Wait → Bool
  | .bar .. => true
  | _ => false
def Wait.isJoin : Wait → Bool
  | .join _ => true
  | _ => false
def Wait.isQuit : Wait → Bool
  | .quit .. => true
  | _ => false
def Wait.isSleep : Wait → Bool
  | .sleep _ => true
  | _ => false
def Wait.isFork : Wait → Bool
  | .fork .. => true
  | _ => false
def Wait.isResume : Wait → Bool
  | .resume .. => true
  | _ => false

def Wait.fence? : Wait → Option Nat
  | .fence q => some q
  | _ => .none
def Wait.bar? : Wait → Option (BarLevel × Bool × Nat × DWord)
  | .bar lv m q rip => some (lv, m, q, rip)
  | _ => .none
def Wait.join? : Wait → Option RegNo
  | .join d => some d
  | _ => .none
def Wait.request? : Wait → Option Nat
  | .request r => some r
  | _ => .none
def Wait.engine? : Wait → Option Nat
  | .engine o => some o
  | _ => .none

/-- The FENCE at which the fibre waits, the BAR, and the register of the JOIN: a chain has at most one of each. -/
def Fibre.fence? (f : Fibre) : Option Nat := f.waits.findSome? fun w => w.wait.fence?
def Fibre.bar? (f : Fibre) : Option (BarLevel × Bool × Nat × DWord) := f.waits.findSome? fun w => w.wait.bar?
def Fibre.join? (f : Fibre) : Option RegNo := f.waits.findSome? fun w => w.wait.join?

/-- A FENCE or BAR older than unit `seq` is not complete (R222). -/
def Fibre.fencedAt (f : Fibre) (seq : Nat) : Bool := f.waits.any fun w => (w.wait.isFence || w.wait.isBar) && decide (w.seq < seq)

/-! ### Code addresses (R6, R53, R54) -/

/-- The packet index of an address (R54). -/
def packetIndex (v : DWord) : DWord :=
  BitVec.ofNat 64 (5460 * (v.toNat / 65536) + v.toNat % 65536 / 12)
/-- The address of the packet with an index (R54). -/
def packetAddr (n : DWord) : DWord :=
  BitVec.ofNat 64 (65536 * (n.toNat / 5460) + 12 * (n.toNat % 5460))
/-- A packet start (R55). -/
def isPacketStart (v : DWord) : Bool := v.toNat % 65536 % 12 == 0 && decide (v.toNat % 65536 / 12 < 5460)
/-- The slot of a word in its packet (R53). -/
def slotOf (v : DWord) : Nat := v.toNat % 65536 % 12 / 4
/-- The address of the packet that holds a word. -/
def packetOf (v : DWord) : DWord := v - BitVec.ofNat 64 (4 * slotOf v)
/-- The next word in program order (R53). -/
def nextWord (v : DWord) : DWord := if slotOf v < 2 then v + 4#64 else packetAddr (packetIndex v + 1#64)
/-- The target of a BR-format word (R54, R88). -/
def brTarget (v : DWord) (off : BitVec 17) : DWord := packetAddr (packetIndex v + off.signExtend 64)

end Sys2Proof.Machine
end

