-- ==== Sys2Proof/Machine/Crypto.lean ====
section
/-! DEFINITION. The cryptography that the manual names: AES-256-GCM and the RFC 3394 unwrapping (R320, R321), SHA-384 (R366, R367), HKDF-SHA-384 (R368), and ECDSA and ECDH over brainpoolP384r1 of RFC 5639 (R366 to R369). The standards themselves are outside the manual (PRESUMED, log 14). -/

namespace Sys2Proof.Machine

/-- A list of bytes as a big-endian number, and back. -/
def beNat (bs : List Byte) : Nat := bs.foldl (fun a b => a * 256 + b.toNat) 0
def beBytes (n v : Nat) : List Byte := (leBytes n v).reverse
def xorBytes (a b : List Byte) : List Byte := (a.zip b).map fun p => p.1 ^^^ p.2
/-- The `i`-th of the pieces of `n` bytes. -/
def chunk (bs : List Byte) (n i : Nat) : List Byte := (bs.drop (n * i)).take n

/-! ### AES-256 (FIPS 197) -/

/-- Multiplication by x in GF(2^8). -/
def gfDouble (b : Byte) : Byte := (b <<< 1) ^^^ (if b.getLsbD 7 then 0x1B#8 else 0#8)
def gfMul (a b : Byte) : Byte :=
  ((List.range 8).foldl (fun (acc : Byte × Byte) i => ((if b.getLsbD i then acc.1 ^^^ acc.2 else acc.1), gfDouble acc.2)) (0#8, a)).1
/-- The inverse b^254; 0 for 0. -/
def gfInv (b : Byte) : Byte :=
  let b2 := gfMul b b
  let b3 := gfMul b2 b
  let b12 := gfMul (gfMul b3 b3) (gfMul b3 b3)
  let b15 := gfMul b12 b3
  let sq (x : Byte) : Byte := gfMul x x
  let b240 := sq (sq (sq (sq b15)))
  gfMul (gfMul b240 b12) b2
def sbox (b : Byte) : Byte :=
  let i := gfInv b
  i ^^^ i.rotateLeft 1 ^^^ i.rotateLeft 2 ^^^ i.rotateLeft 3 ^^^ i.rotateLeft 4 ^^^ 0x63#8
def invSbox (b : Byte) : Byte := gfInv (b.rotateLeft 1 ^^^ b.rotateLeft 3 ^^^ b.rotateLeft 6 ^^^ 0x05#8)

/-- The 60 words of the key schedule, newest first. -/
def aesWords (key : List Byte) : Nat → List (List Byte)
  | 0 => (List.range 8).reverse.map fun i => chunk key 4 i
  | n + 1 =>
    let ws := aesWords key n
    let i := n + 8
    let prev := ws.headD []
    let t := if i % 8 = 0 then
        xorBytes ((prev.drop 1 ++ prev.take 1).map sbox) [(List.range (i / 8 - 1)).foldl (fun b _ => gfDouble b) 1#8, 0#8, 0#8, 0#8]
      else if i % 8 = 4 then prev.map sbox else prev
    xorBytes (ws.getD 7 []) t :: ws

/-- The 15 round keys of 16 bytes. -/
def aesKeys (key : List Byte) : List (List Byte) :=
  let w := (aesWords key 52).reverse
  (List.range 15).map fun r => ((w.drop (4 * r)).take 4).flatten

def aesShift (s : List Byte) : List Byte := (List.range 16).map fun i => s.getD ((i + 4 * (i % 4)) % 16) 0#8
def aesUnshift (s : List Byte) : List Byte := (List.range 16).map fun i => s.getD ((i + 12 * (i % 4)) % 16) 0#8
/-- A column matrix with first row `m`. -/
def aesMix (m : List Byte) (s : List Byte) : List Byte :=
  (List.range 16).map fun i =>
    (List.range 4).foldl (fun a j => a ^^^ gfMul (m.getD ((j + 4 - i % 4) % 4) 0#8) (s.getD (i / 4 * 4 + j) 0#8)) 0#8

/-- Encrypts a block with the round keys `ks`. -/
def aesRounds (ks : List (List Byte)) (block : List Byte) : List Byte :=
  let s := (List.range 13).foldl (fun s r => xorBytes (aesMix [2#8, 3#8, 1#8, 1#8] (aesShift (s.map sbox))) (ks.getD (r + 1) [])) (xorBytes block (ks.headD []))
  xorBytes (aesShift (s.map sbox)) (ks.getD 14 [])

def aesEncrypt (key block : List Byte) : List Byte := aesRounds (aesKeys key) block

def aesDecrypt (key block : List Byte) : List Byte :=
  let ks := aesKeys key
  let s := (List.range 13).foldl (fun s r =>
    aesMix [14#8, 11#8, 13#8, 9#8] (xorBytes ((aesUnshift s).map invSbox) (ks.getD (13 - r) []))) (xorBytes block (ks.getD 14 []))
  xorBytes ((aesUnshift s).map invSbox) (ks.headD [])

/-! ### GCM (NIST SP 800-38D) with a 96-bit IV and a 128-bit tag -/

/-- The product in GF(2^128); numbers are big-endian, so bit 127 is the first. -/
def ghashMul (x y : Nat) : Nat :=
  ((List.range 128).foldl (fun (acc : Nat × Nat) i =>
    ((if x.testBit (127 - i) then acc.1 ^^^ acc.2 else acc.1),
     acc.2 / 2 ^^^ (if acc.2.testBit 0 then 0xE1 * 2 ^ 120 else 0))) (0, y)).1

/-- Pads with zeros to whole blocks. -/
def pad16 (bs : List Byte) : List Byte := bs ++ List.replicate ((16 - bs.length % 16) % 16) 0#8

def ghash (h : Nat) (bs : List Byte) : Nat :=
  (List.range (bs.length / 16)).foldl (fun y i => ghashMul (y ^^^ beNat (chunk bs 16 i)) h) 0

/-- Encryption in counter mode from block counter 2 on; decryption is the same. -/
def gcmStream (key iv text : List Byte) : List Byte :=
  let ks := aesKeys key
  (List.range ((text.length + 15) / 16)).flatMap fun i => xorBytes (chunk text 16 i) (aesRounds ks (iv ++ beBytes 4 (i + 2)))

def gcmTag (key iv aad cipher : List Byte) : List Byte :=
  let h := beNat (aesEncrypt key (List.replicate 16 0#8))
  let s := ghash h (pad16 aad ++ pad16 cipher ++ beBytes 8 (8 * aad.length) ++ beBytes 8 (8 * cipher.length))
  xorBytes (beBytes 16 s) (aesEncrypt key (iv ++ beBytes 4 1))

/-! ### RFC 3394: the 32-byte key inside a 40-byte wrap, none when the integrity check fails -/

def unwrapSteps (kek : List Byte) : Nat → List Byte × List (List Byte) → List Byte × List (List Byte)
  | 0, x => x
  | t + 1, (a, r) =>
    let i := t % 4
    let b := aesDecrypt kek (xorBytes a (beBytes 8 (t + 1)) ++ r.getD i [])
    unwrapSteps kek t (b.take 8, r.set i (b.drop 8))

def keyUnwrap (kek blob : List Byte) : Option (List Byte) :=
  let (a, r) := unwrapSteps kek 24 (blob.take 8, (List.range 4).map fun i => chunk blob 8 (i + 1))
  if a = List.replicate 8 0xA6#8 then some r.flatten else none

/-! ### SHA-384 (FIPS 180-4), HMAC (RFC 2104) and HKDF (RFC 5869) -/

def shaK : List DWord :=
  [0x428a2f98d728ae22#64, 0x7137449123ef65cd#64, 0xb5c0fbcfec4d3b2f#64, 0xe9b5dba58189dbbc#64, 0x3956c25bf348b538#64, 0x59f111f1b605d019#64, 0x923f82a4af194f9b#64, 0xab1c5ed5da6d8118#64]
  ++ [0xd807aa98a3030242#64, 0x12835b0145706fbe#64, 0x243185be4ee4b28c#64, 0x550c7dc3d5ffb4e2#64, 0x72be5d74f27b896f#64, 0x80deb1fe3b1696b1#64, 0x9bdc06a725c71235#64, 0xc19bf174cf692694#64]
  ++ [0xe49b69c19ef14ad2#64, 0xefbe4786384f25e3#64, 0x0fc19dc68b8cd5b5#64, 0x240ca1cc77ac9c65#64, 0x2de92c6f592b0275#64, 0x4a7484aa6ea6e483#64, 0x5cb0a9dcbd41fbd4#64, 0x76f988da831153b5#64]
  ++ [0x983e5152ee66dfab#64, 0xa831c66d2db43210#64, 0xb00327c898fb213f#64, 0xbf597fc7beef0ee4#64, 0xc6e00bf33da88fc2#64, 0xd5a79147930aa725#64, 0x06ca6351e003826f#64, 0x142929670a0e6e70#64]
  ++ [0x27b70a8546d22ffc#64, 0x2e1b21385c26c926#64, 0x4d2c6dfc5ac42aed#64, 0x53380d139d95b3df#64, 0x650a73548baf63de#64, 0x766a0abb3c77b2a8#64, 0x81c2c92e47edaee6#64, 0x92722c851482353b#64]
  ++ [0xa2bfe8a14cf10364#64, 0xa81a664bbc423001#64, 0xc24b8b70d0f89791#64, 0xc76c51a30654be30#64, 0xd192e819d6ef5218#64, 0xd69906245565a910#64, 0xf40e35855771202a#64, 0x106aa07032bbd1b8#64]
  ++ [0x19a4c116b8d2d0c8#64, 0x1e376c085141ab53#64, 0x2748774cdf8eeb99#64, 0x34b0bcb5e19b48a8#64, 0x391c0cb3c5c95a63#64, 0x4ed8aa4ae3418acb#64, 0x5b9cca4f7763e373#64, 0x682e6ff3d6b2b8a3#64]
  ++ [0x748f82ee5defb2fc#64, 0x78a5636f43172f60#64, 0x84c87814a1f0ab72#64, 0x8cc702081a6439ec#64, 0x90befffa23631e28#64, 0xa4506cebde82bde9#64, 0xbef9a3f7b2c67915#64, 0xc67178f2e372532b#64]
  ++ [0xca273eceea26619c#64, 0xd186b8c721c0c207#64, 0xeada7dd6cde0eb1e#64, 0xf57d4f7fee6ed178#64, 0x06f067aa72176fba#64, 0x0a637dc5a2c898a6#64, 0x113f9804bef90dae#64, 0x1b710b35131c471b#64]
  ++ [0x28db77f523047d84#64, 0x32caab7b40c72493#64, 0x3c9ebe0a15c9bebc#64, 0x431d67c49c100d4c#64, 0x4cc5d4becb3e42b6#64, 0x597f299cfc657e2a#64, 0x5fcb6fab3ad6faec#64, 0x6c44198c4a475817#64]

def shaInit : List DWord :=
  [0xcbbb9d5dc1059ed8#64, 0x629a292a367cd507#64, 0x9159015a3070dd17#64, 0x152fecd8f70e5939#64, 0x67332667ffc00b31#64, 0x8eb44a8768581511#64, 0xdb0c2e0d64f98fa7#64, 0x47b5481dbefa4fa4#64]

/-- The 80 words of a block, newest first. -/
def shaWords (b : List Byte) : Nat → List DWord
  | 0 => (List.range 16).reverse.map fun i => BitVec.ofNat 64 (beNat (chunk b 8 i))
  | n + 1 =>
    let w := shaWords b n
    let x := w.getD 14 0#64
    let y := w.getD 1 0#64
    ((x.rotateRight 1 ^^^ x.rotateRight 8 ^^^ (x >>> 7)) + (y.rotateRight 19 ^^^ y.rotateRight 61 ^^^ (y >>> 6)) + w.getD 15 0#64 + w.getD 6 0#64) :: w

def shaRound (v : List DWord) (k w : DWord) : List DWord :=
  match v with
  | [a, b, c, d, e, f, g, h] =>
    let t1 := h + (e.rotateRight 14 ^^^ e.rotateRight 18 ^^^ e.rotateRight 41) + ((e &&& f) ^^^ (~~~e &&& g)) + k + w
    let t2 := (a.rotateRight 28 ^^^ a.rotateRight 34 ^^^ a.rotateRight 39) + ((a &&& b) ^^^ (a &&& c) ^^^ (b &&& c))
    [t1 + t2, a, b, c, d + t1, e, f, g]
  | v => v

def shaBlock (h : List DWord) (b : List Byte) : List DWord :=
  let v := (shaK.zip (shaWords b 64).reverse).foldl (fun v p => shaRound v p.1 p.2) h
  (h.zip v).map fun p => p.1 + p.2

def sha384 (m : List Byte) : List Byte :=
  let p := m ++ [0x80#8] ++ List.replicate ((239 - m.length % 128) % 128) 0#8 ++ beBytes 16 (8 * m.length)
  (((List.range (p.length / 128)).foldl (fun h i => shaBlock h (chunk p 128 i)) shaInit).take 6).flatMap fun w => beBytes 8 w.toNat

def hmac384 (key m : List Byte) : List Byte :=
  let k0 := if key.length > 128 then sha384 key else key
  let k := k0 ++ List.replicate (128 - k0.length) 0#8
  sha384 (k.map (fun b => b ^^^ 0x5C#8) ++ sha384 (k.map (fun b => b ^^^ 0x36#8) ++ m))

/-- The first 32 bytes of HKDF's output, with no salt and no info (PRESUMED, log 14). -/
def hkdf32 (ikm : List Byte) : List Byte :=
  (hmac384 (hmac384 (List.replicate 48 0#8) ikm) [1#8]).take 32

/-! ### brainpoolP384r1 (RFC 5639) -/

def ecP : Nat := 0x8CB91E82A3386D280F5D6F7E50E641DF152F7109ED5456B412B1DA197FB71123ACD3A729901D1A71874700133107EC53
def ecA : Nat := 0x7BC382C63D8C150C3C72080ACE05AFA0C2BEA28E4FB22787139165EFBA91F90F8AA5814A503AD4EB04A8C7DD22CE2826
def ecB : Nat := 0x04A8C7DD22CE28268B39B55416F0447C2FB77DE107DCD2A62E880EA53EEB62D57CB4390295DBC9943AB78696FA504C11
def ecGx : Nat := 0x1D1C64F068CF45FFA2A63A81B7C13F6B8847A3E77EF14FE3DB7FCAFE0CBD10E8E826E03436D646AAEF87B2E247D4AF1E
def ecGy : Nat := 0x8ABE1D7520F9C2A45CB1EB8E95CFD55262B70B29FEEC5864E19C054FF99129280E4646217791811142820341263C5315
def ecN : Nat := 0x8CB91E82A3386D280F5D6F7E50E641DF152F7109ED5456B31F166E6CAC0425A7CF3AB6AF6B7FC3103B883202E9046565

/-- b ^ e mod m, over the low `n` bits of e. -/
def powMod (m b e : Nat) : Nat → Nat
  | 0 => 1
  | n + 1 =>
    let r := powMod m (b * b % m) (e / 2) n
    if e % 2 = 1 then r * b % m else r
/-- The inverse modulo a prime (Fermat). -/
def invMod (m b : Nat) : Nat := powMod m (b % m) (m - 2) 384

/-- A point; none is the point at infinity. -/
abbrev EcPoint := Option (Nat × Nat)

def ecAdd (x y : EcPoint) : EcPoint :=
  match x, y with
  | none, q => q
  | p, none => p
  | some (x1, y1), some (x2, y2) =>
    if x1 = x2 ∧ (y1 + y2) % ecP = 0 then none
    else
      let l := if x1 = x2 then (3 * x1 * x1 + ecA) * invMod ecP (2 * y1) % ecP
        else (y2 + ecP - y1) * invMod ecP (x2 + ecP - x1) % ecP
      let x3 := (l * l + 2 * ecP - x1 - x2) % ecP
      some (x3, (l * (x1 + ecP - x3) + ecP - y1) % ecP)

/-- The multiple by the low `n` bits of k. -/
def ecMul (k : Nat) (p : EcPoint) : Nat → EcPoint
  | 0 => none
  | n + 1 =>
    let r := ecMul (k / 2) (ecAdd p p) n
    if k % 2 = 1 then ecAdd r p else r

def ecBase : EcPoint := some (ecGx, ecGy)

/-- A point as 0x04, X, Y (R369). -/
def ecBytes (p : EcPoint) : List Byte :=
  match p with
  | some (x, y) => [4#8] ++ beBytes 48 x ++ beBytes 48 y
  | none => List.replicate 97 0#8
/-- Reads such a point; none when it is malformed or not on the curve. -/
def ecOfBytes (bs : List Byte) : EcPoint :=
  let x := beNat ((bs.drop 1).take 48)
  let y := beNat (bs.drop 49)
  if bs.length = 97 ∧ bs.headD 0#8 = 4#8 ∧ x < ecP ∧ y < ecP ∧ y * y % ecP = (x * x * x + ecA * x + ecB) % ecP then some (x, y) else none

/-- An ECDSA signature r, s of a SHA-384 digest. -/
def ecdsaSign (d nonce : Nat) (digest : List Byte) : List Byte :=
  match ecMul nonce ecBase 384 with
  | none => List.replicate 96 0#8
  | some (x, _) =>
    let r := x % ecN
    beBytes 48 r ++ beBytes 48 (invMod ecN nonce * ((beNat digest + r * d) % ecN) % ecN)

def ecdsaVerify (pub digest sig : List Byte) : Bool :=
  let r := beNat (sig.take 48)
  let t := beNat (sig.drop 48)
  match ecOfBytes pub with
  | none => false
  | some q =>
    if sig.length ≠ 96 ∨ r = 0 ∨ ecN ≤ r ∨ t = 0 ∨ ecN ≤ t then false
    else
      let w := invMod ecN t
      match ecAdd (ecMul (beNat digest * w % ecN) ecBase 384) (ecMul (r * w % ecN) (some q) 384) with
      | some (x, _) => x % ecN == r
      | none => false

end Sys2Proof.Machine
end

