-- ==== Sys2Proof/Config.lean ====
section
/-! DEFINITION. What an implementation fixes, and the free values: constants without a body, which no proof can evaluate (logs 7, 8, 14). -/

namespace Sys2Proof.Config

/-- The TH7's own FRCP approximation before the bounds of R117 are applied (DESIGN CHOICE, log 7). -/
opaque frcp : Word → Word
/-- The TH7's own FRSQ approximation before the bounds of R117 are applied (DESIGN CHOICE, log 7). -/
opaque frsq : Word → Word
/-- The TH7's own FEX2 approximation before the bounds of R117 are applied (DESIGN CHOICE, log 7). -/
opaque fex2 : Word → Word
/-- The TH7's own FLG2 approximation before the bounds of R117 are applied (DESIGN CHOICE, log 7). -/
opaque flg2 : Word → Word
/-- The TH7's own FSIN approximation before the bounds of R117 are applied (DESIGN CHOICE, log 7). -/
opaque fsin : Word → Word
/-- The TH7's own FCOS approximation before the bounds of R117 are applied (DESIGN CHOICE, log 7). -/
opaque fcos : Word → Word

/-- Contents of tile element `i` before MZERO (R196: unknown), for the occupation numbered `serial` (DESIGN CHOICE, log 8). -/
opaque unknownTile : (serial i : Nat) → BitVec 98
/-- Base exponent and inexact flag of a tile before MZERO (R196: unknown) (DESIGN CHOICE, log 8). -/
opaque unknownTileHead : (serial : Nat) → BitVec 17
/-- A scale-memory byte nothing has loaded (R196: unknown) (DESIGN CHOICE, log 8). -/
opaque unknownScale : (serial i : Nat) → Byte

/-- What MDRN delivers for a saturated element with A = 0, in bits of the format (R193) (DESIGN CHOICE, log 107). -/
opaque satZero : (width : Nat) → Nat

/-- The SHA-384 digest of the vendor root public key, fused into the package (R366) (PRESUMED, log 14). -/
opaque rootKeyDigest : List Byte
/-- The private scalar of the device attestation key, derived at each boot from the fused seed (R368) (PRESUMED, log 14). -/
opaque deviceKey : Nat → Nat
/-- The nonce of the n-th signature of a report; ECDSA leaves it to the signer (R369) (PRESUMED, log 14). -/
opaque signNonce : Nat → Nat
/-- The certificate chain of the device key (R368, DOE type 2) (PRESUMED, log 14). -/
opaque certChain : List Byte
/-- The BSDL boundary register's length in bits is not in the manual; its captured pin values (R346) (PRESUMED, log 14). -/
opaque pinSample : Nat → DWord
/-- What the boundary register takes in a scan under EXTEST: an input of the port that the event does not carry (R346) (PRESUMED, log 14). -/
opaque scanIn : Nat → DWord

/-- A byte of a storage array as the debug read-out shows it, where the manual does not say what it holds (R347), by time and place (DESIGN CHOICE, log 21). -/
opaque arrayByte : (now place : Nat) → Byte

/-- Flits that a port's receive buffer holds (R266): the manual gives no size (DESIGN CHOICE, log 92). -/
opaque rxFlits : Nat

/-- Whether a write that arrives from a peer is a release of its writer: a cart element does not say (R275) (DESIGN CHOICE, log 90). -/
opaque peerRelease : (wid : Nat) → Bool

end Sys2Proof.Config
end

