-- ==== Sys2Proof/WellFormed.lean ====
section
/-! DEFINITION. Operand roles of every instruction word and the static checks that one word alone must pass: R60 (pairs, quads), R72 (reserved modifier values), R84 (where U may be set), and the ranges of an event's names. -/

namespace Sys2Proof

/-- A register operand: its first register, how many registers it spans (1, 2 or 4), whether it is read and written. -/
structure Opd where
  reg : RegNo
  n : Nat
  rd : Bool
  wr : Bool
  deriving DecidableEq, Repr

def IntTy.n : IntTy → Nat
  | .b32 => 1 | .i32 => 1 | .b64 => 2 | .i64 => 2
def IntTy.signed : IntTy → Bool
  | .b32 => false | .i32 => true | .b64 => false | .i64 => true
def FTy.n : FTy → Nat
  | .f64 => 2 | .f32 => 1 | .f16 => 1 | .bf16 => 1
def CvtTy.n : CvtTy → Nat
  | .f64 => 2 | .f32 => 1 | .f16 => 1 | .bf16 => 1 | .e4m3 => 1 | .e5m2 => 1 | .i32 => 1 | .b32 => 1
def CmpTy.n : CmpTy → Nat
  | .i32 => 1 | .b32 => 1 | .f32 => 1 | .i64 => 2 | .b64 => 2 | .f64 => 2
def Sz3.n : Sz3 → Nat
  | .b32 => 1 | .b64 => 2 | .b128 => 4
def Sz2.n : Sz2 → Nat
  | .b32 => 1 | .b64 => 2
def SpecReg.n : SpecReg → Nat
  | .cont => 2 | .fault => 2 | .ver => 2 | .cyc => 2
  | .fid => 1 | .lane => 1 | .hid => 1 | .hcoord => 1 | .pid => 1 | .pcoord => 1 | .stage => 1
  | .fs => 1 | .esc => 1 | .escq => 1
def WSpecReg.n : WSpecReg → Nat
  | .cont => 2 | .fault => 2 | .fs => 1 | .esc => 1 | .escq => 1
def PrivReg.n : PrivReg → Nat
  | .ctxid => 1 | .ctxattr => 1 | .sctr => 2 | .xinv => 2 | .rfq => 2

/-- A source operand. -/
def Opd.src (r : RegNo) (n : Nat) : Opd := ⟨r, n, true, false⟩
/-- A destination operand. -/
def Opd.dst (r : RegNo) (n : Nat) : Opd := ⟨r, n, false, true⟩
/-- An operand that is read and written. -/
def Opd.both (r : RegNo) (n : Nat) : Opd := ⟨r, n, true, true⟩

/-- R60: a pair starts at an even register, a quad at a multiple of 4. -/
def Opd.aligned (o : Opd) : Bool := o.reg.toNat % o.n == 0

/-- The last register of the operand. -/
def Opd.last (o : Opd) : Nat := o.reg.toNat + o.n - 1

/-- Two register operands overlap (R66). -/
def Opd.overlaps (a b : Opd) : Bool :=
  decide (a.reg.toNat ≤ b.last) && decide (b.reg.toNat ≤ a.last)

def opdsRRR (d a b : RegNo) (n : Nat) : List Opd := [.dst d n, .src a n, .src b n]
def opdsShift (d a b : RegNo) (n : Nat) : List Opd := [.dst d n, .src a n, .src b 1]
def opdsRR (d a : RegNo) (n : Nat) : List Opd := [.dst d n, .src a n]

/-- The register operands an instruction's fields name, with their roles. The link pair of CALL, CALLX and RET is not a field. -/
def Instr.opds : Instr → List Opd
  | .iadd _ d a b t => opdsRRR d a b t.n
  | .isub _ d a b t => opdsRRR d a b t.n
  | .imul _ d a b t => opdsRRR d a b t.n
  | .imulh _ d a b t => opdsRRR d a b t.n
  | .imad _ d a b t => [.both d t.n, .src a t.n, .src b t.n]
  | .iadds _ d a b t => opdsRRR d a b t.n
  | .isubs _ d a b t => opdsRRR d a b t.n
  | .idiv _ d a b t => opdsRRR d a b t.n
  | .irem _ d a b t => opdsRRR d a b t.n
  | .imin _ d a b t => opdsRRR d a b t.n
  | .imax _ d a b t => opdsRRR d a b t.n
  | .iabs _ d a t => opdsRR d a t.n
  | .ineg _ d a t => opdsRR d a t.n
  | .and _ d a b t => opdsRRR d a b t.n
  | .or _ d a b t => opdsRRR d a b t.n
  | .xor _ d a b t => opdsRRR d a b t.n
  | .not _ d a t => opdsRR d a t.n
  | .shl _ d a b t => opdsShift d a b t.n
  | .shr _ d a b t => opdsShift d a b t.n
  | .sar _ d a b t => opdsShift d a b t.n
  | .rot _ d a b t => opdsShift d a b t.n
  | .popc _ d a t => opdsRR d a t.n
  | .clz _ d a t => opdsRR d a t.n
  | .brev _ d a t => opdsRR d a t.n
  | .bfe _ d a b t => opdsShift d a b t.n
  | .bfi _ d a b t => [.both d t.n, .src a t.n, .src b 1]
  | .addp _ d a b _ => opdsShift d a b 2
  | .subp _ d a b => opdsRRR d a b 2
  | .iaddi _ d a _ => opdsRR d a 1
  | .andi _ d a _ => opdsRR d a 1
  | .ori _ d a _ => opdsRR d a 1
  | .xori _ d a _ => opdsRR d a 1
  | .shli _ d a _ => opdsRR d a 1
  | .shri _ d a _ => opdsRR d a 1
  | .sari _ d a _ => opdsRR d a 1
  | .imuli _ d a _ => opdsRR d a 1
  | .movi _ d _ => [.dst d 1]
  | .movh _ d _ => [.both d 1]
  | .addpi _ d a _ => opdsRR d a 2
  | .fadd _ d a b t _ => opdsRRR d a b t.n
  | .fsub _ d a b t _ => opdsRRR d a b t.n
  | .fmul _ d a b t _ => opdsRRR d a b t.n
  | .fma _ d a b t _ => [.both d t.n, .src a t.n, .src b t.n]
  | .fmin _ d a b t => opdsRRR d a b t.n
  | .fmax _ d a b t => opdsRRR d a b t.n
  | .fabs _ d a t => opdsRR d a t.n
  | .fneg _ d a t => opdsRR d a t.n
  | .frcp _ d a => opdsRR d a 1
  | .frsq _ d a => opdsRR d a 1
  | .fex2 _ d a => opdsRR d a 1
  | .flg2 _ d a => opdsRR d a 1
  | .fsin _ d a => opdsRR d a 1
  | .fcos _ d a => opdsRR d a 1
  | .cvt _ d a src dst _ _ => [.dst d dst.n, .src a src.n]
  | .brx _ a => [.src a 2]
  | .callx _ a => [.src a 2]
  | .join _ d => [.dst d 1]
  | .resume _ a => [.src a 2]
  | .movs _ d r => [.dst d r.n]
  | .movsw _ d r => [.src d r.n]
  | .cmp _ _ a b t _ => [.src a t.n, .src b t.n]
  | .ld _ d base _ _ sz => [.dst d sz.n, .src base 2]
  | .ldNarrow _ d base _ _ _ => [.dst d 1, .src base 2]
  | .st _ s base sz => [.src s sz.n, .src base 2]
  | .stNarrow _ s base _ => [.src s 1, .src base 2]
  | .lds _ d base _ sz => [.dst d sz.n, .src base 2]
  | .ldsNarrow _ d base _ _ => [.dst d 1, .src base 2]
  | .sts _ s base sz => [.src s sz.n, .src base 2]
  | .stsNarrow _ s base _ => [.src s 1, .src base 2]
  | .ldf _ d base _ _ sz => [.dst d sz.n, .src base 2]
  | .stf _ s base sz => [.src s sz.n, .src base 2]
  | .pref _ base _ => [.src base 2]
  | .ldAcq _ d base _ _ sz => [.dst d sz.n, .src base 2]
  | .stRel _ s base sz => [.src s sz.n, .src base 2]
  | .ldv _ d base _ _ w => [.dst d (if w then 4 else 2), .src base 2]
  | .casv _ d base _ _ _ => [.both d 4, .src base 2]
  | .atomAdd _ d base _ _ t => [.both d t.n, .src base 2]
  | .atomAnd _ d base _ _ t => [.both d t.n, .src base 2]
  | .atomOr _ d base _ _ t => [.both d t.n, .src base 2]
  | .atomXor _ d base _ _ t => [.both d t.n, .src base 2]
  | .atomMin _ d base _ _ t => [.both d t.n, .src base 2]
  | .atomMax _ d base _ _ t => [.both d t.n, .src base 2]
  | .atomExch _ d base _ _ t => [.both d t.n, .src base 2]
  | .atomCas _ d base _ _ t => [.both d (2 * t.n), .src base 2]
  | .atomFadd _ d base _ _ => [.both d 1, .src base 2]
  | .rwl _ d base _ _ op => [if op = .wr then .both d 1 else .dst d 1, .src base 2]
  | .valset _ _ a b strong => if strong then [.src a 2, .src b 1] else [.src a 2]
  | .waitcSigned _ d a b _ => [.dst d 1, .src a 2, .src b 1]
  | .waitcUnsigned _ d a b _ => [.dst d 1, .src a 2, .src b 1]
  | .atomOrdAdd _ d base _ _ t => [.both d t.n, .src base 2]
  | .atomOrdAnd _ d base _ _ t => [.both d t.n, .src base 2]
  | .atomOrdOr _ d base _ _ t => [.both d t.n, .src base 2]
  | .atomOrdXor _ d base _ _ t => [.both d t.n, .src base 2]
  | .atomOrdMin _ d base _ _ t => [.both d t.n, .src base 2]
  | .atomOrdMax _ d base _ _ t => [.both d t.n, .src base 2]
  | .atomOrdExch _ d base _ _ t => [.both d t.n, .src base 2]
  | .atomOrdCas _ d base _ _ t => [.both d (2 * t.n), .src base 2]
  | .atomOrdFadd _ d base _ _ => [.both d 1, .src base 2]
  | .redAdd _ s base t => [.src s t.n, .src base 2]
  | .redAnd _ s base t => [.src s t.n, .src base 2]
  | .redOr _ s base t => [.src s t.n, .src base 2]
  | .redXor _ s base t => [.src s t.n, .src base 2]
  | .redMin _ s base t => [.src s t.n, .src base 2]
  | .redMax _ s base t => [.src s t.n, .src base 2]
  | .redFadd _ s base => [.src s 1, .src base 2]
  | .tdset _ _ g _ => [.src g 2]
  | .tdget _ _ g _ => [.src g 2]
  | .mscl _ _ g _ => [.src g 1]
  | .twait _ d a _ => if d = 0 then [.src a 2] else [.dst d 1, .src a 2]
  | .wopen _ d a b => [.dst d 1, .src a 2, .src b 1]
  | .wrevoke _ d b => [.dst d 1, .src b 1]
  | .monset _ a b => [.src a 2, .src b 1]
  | .monrd _ a b => [.src a 2, .src b 1]
  | .save _ d a b => [.dst d 1, .src a 2, .src b 2]
  | .rest _ d a b => [.dst d 1, .src a 2, .src b 1]
  | .keyld _ d a b => [.dst d 1, .src a 2, .src b 1]
  | .evict _ d b => [.dst d 1, .src b 1]
  | .movp _ d r => [.dst d r.n]
  | .movpw _ d _ => [.src d 2]
  | _ => []

/-- R84: the units on which U = 1 is allowed. -/
def Instr.uniformOk : Instr → Bool
  | .iadd .. | .isub .. | .imul .. | .imulh .. | .imad .. | .iadds .. | .isubs .. | .idiv .. | .irem .. | .imin .. | .imax ..
  | .iabs .. | .ineg .. | .and .. | .or .. | .xor .. | .not .. | .shl .. | .shr .. | .sar .. | .rot .. | .popc .. | .clz ..
  | .brev .. | .bfe .. | .bfi .. | .addp .. | .subp .. | .iaddi .. | .andi .. | .ori .. | .xori .. | .shli .. | .shri ..
  | .sari .. | .imuli .. | .movi .. | .movh .. | .addpi .. => true
  | .fadd .. | .fsub .. | .fmul .. | .fma .. | .fmin .. | .fmax .. | .fabs .. | .fneg .. | .frcp .. | .frsq .. | .fex2 ..
  | .flg2 .. | .fsin .. | .fcos .. | .cvt .. => true
  | .cmp .. | .pand .. | .por .. | .pxor .. | .pnot .. | .pmov .. | .pset .. | .movs .. => true
  | .ld _ _ _ _ e _ => !e
  | .ldNarrow _ _ _ _ e _ => !e
  | .lds .. | .ldsNarrow .. => true
  | .ldAcq _ _ _ _ e _ => !e
  | .ldv _ _ _ _ e _ => !e
  | _ => false

/-- R72, R118: the CVT encodings that are not reserved. -/
def cvtOk (src dst : CvtTy) (sat : Bool) (r : Rnd) : Bool :=
  decide (src ≠ dst)
  && (!sat || decide (dst = .e4m3 ∨ dst = .e5m2 ∨ dst = .i32 ∨ dst = .b32))
  && (decide (r = .rn) || decide (dst ≠ .e4m3 ∧ dst ≠ .e5m2))

/-- The range of a stub reference: 256 clusters, 4 slots, 128 lanes, 32 stubs (R43). -/
def FKey.ok (k : FKey) : Bool :=
  decide (k.c < 256) && decide (k.k < 4) && decide (k.l < 128) && decide (k.s < 32)

/-- Ranges of the names that an event carries. -/
def Instr.eventOk : Instr → Bool
  | .flockForm q | .scoreboardHoldExpiry q | .quarterStop q | .quarterRelease q _ | .stallSample q => decide (q < 1024)
  | .urgentFibre k | .sleepExpiry k | .departure k | .reinstatement k | .displacedTimeout k | .stepTrap k
  | .writeBufferLeave k | .waitingUnitEnd k _ | .forcedDeparture k | .lateKind1Reinstate k => k.ok
  | .codeComparatorHit q i => decide (q < 1024) && decide (i < 8)
  | .dataWatchpointHit q i => decide (q < 1024) && decide (8 ≤ i ∧ i < 12)
  | .escortCreditRefill d | .applyWrite d _ | .parishPlacement d | .stealRequest d | .stealAnswer d | .graceWindowEnd d
  | .packetAcknowledge d .. => decide (d < 4)
  | .cartAgeExpiry d c => decide (d < 4) && decide (c < 256)
  | .l1Writeback sh => decide (sh < 1024)
  | .mzeroApply c t | .mmaApply c t | .mdrnApply c t _ => decide (c < 256) && decide (t < 2)
  | .commitLineInvalidate k => decide (k < 64)
  | .contextHalt n _ | .launchCompletion n | .haltComplete n | .parishRetire n _ => decide (n < 512)
  | .xinv t _ | .invalidationComplete t | .trows t _ | .trst t | .tenancyResetDone t => decide (t < 8)
  | .doeKekInstall t .. => decide (t < 8)
  | .sliceRetire d s m => decide (d < 4) && decide (s < 64) && decide (m.length = 64) && m.all (fun x => decide (x < 64))
  | .planeRemap p port => decide (p < 16) && decide (port < 18)
  | .flitReceive p _ | .replayRequest p _ | .bufferHold p | .bufferRelease p | .linkDown p | .linkSilenceTimeout p
  | .linkTrained p => decide (p < 18)
  | .holdHintOn p n | .holdHintOff p n | .holdHintExpiry p n => decide (p < 18) && decide (n < 1024)
  | .peerProbe n | .peerLost n | .peerReadmit n | .peerNumberAssign n => decide (n < 1024)
  | .stewardKeyInstall s t key => decide (s < 64) && decide (t < 8) && decide (key.length = 32)
  | _ => true

/-- A well-formed instruction or event: what one word alone must satisfy (R60, R72, R84), and the ranges of an event's names. -/
def Instr.wf (i : Instr) : Bool :=
  i.opds.all Opd.aligned
  && (match i.hdr? with
      | some h => !h.u || i.uniformOk
      | none => true)
  && (match i with
      | .cvt _ _ _ src dst sat r => cvtOk src dst sat r
      | .valset _ _ _ b strong => strong || b == 0#5
      | _ => true)
  && i.eventOk

end Sys2Proof
end

