-- ==== Sys2Proof/Decode.lean ====
section
/-! DEFINITION. Decoding of one 32-bit word (R57 to R73) to an `Instr` or a decode cause, and the encoder after it. The checks are those that one word alone decides, in the order of R74 stage 2: causes 0x01, 0x02, 0x03, 0x04, 0x05, 0x09 (an IMX word with a wrong header), 0x0A (FLUSHC). What depends on the words before it, on the packet or on privilege (0x06 to 0x0D) is checked when the unit would issue (Machine/Sched). -/

namespace Sys2Proof

/-! ### Fields of a word (R57, R59) -/

def fieldC (w : Word) : Bool := w.getLsbD 31
def fieldU (w : Word) : Bool := w.getLsbD 30
def fieldG (w : Word) : BitVec 4 := w.extractLsb' 26 4
def fieldS (w : Word) : Bool := w.getLsbD 25
def fieldOp (w : Word) : BitVec 8 := w.extractLsb' 17 8
/-- d, or the source s of a store. -/
def fieldD (w : Word) : RegNo := w.extractLsb' 12 5
/-- a, or the base of MEM. -/
def fieldA (w : Word) : RegNo := w.extractLsb' 7 5
def fieldB (w : Word) : RegNo := w.extractLsb' 2 5
/-- f of RRR, sz of MEM. -/
def fieldF (w : Word) : BitVec 2 := w.extractLsb' 0 2
def fieldImm7 (w : Word) : BitVec 7 := w.extractLsb' 0 7
def fieldImm12 (w : Word) : BitVec 12 := w.extractLsb' 0 12
/-- L of MEM. -/
def fieldL (w : Word) : BitVec 4 := w.extractLsb' 3 4
/-- E of MEM. -/
def fieldE (w : Word) : Bool := w.getLsbD 2
/-- off17, imm17 or x17. -/
def field17 (w : Word) : BitVec 17 := w.extractLsb' 0 17
def fieldTx (w : Word) : BitVec 8 := w.extractLsb' 9 8
def fieldTy (w : Word) : BitVec 8 := w.extractLsb' 1 8
/-- g of ENR. -/
def fieldEg (w : Word) : RegNo := w.extractLsb' 4 5
/-- [3:1] of ENR. -/
def fieldEz (w : Word) : BitVec 3 := w.extractLsb' 1 3
def fieldK (w : Word) : Bool := w.getLsbD 0

/-! ### Codes of the modifier fields (R71, R72) -/

def IntTy.ofBits (f : BitVec 2) : IntTy :=
  if f = 0#2 then .b32 else if f = 1#2 then .i32 else if f = 2#2 then .b64 else .i64
def IntTy.code : IntTy → BitVec 2
  | .b32 => 0#2 | .i32 => 1#2 | .b64 => 2#2 | .i64 => 3#2
def FTy.ofBits (f : BitVec 2) : FTy :=
  if f = 0#2 then .f32 else if f = 1#2 then .f64 else if f = 2#2 then .f16 else .bf16
def FTy.code : FTy → BitVec 2
  | .f32 => 0#2 | .f64 => 1#2 | .f16 => 2#2 | .bf16 => 3#2
def Rnd.ofBits (f : BitVec 2) : Rnd :=
  if f = 0#2 then .rn else if f = 1#2 then .rz else if f = 2#2 then .ru else .rd
def Rnd.code : Rnd → BitVec 2
  | .rn => 0#2 | .rz => 1#2 | .ru => 2#2 | .rd => 3#2
def CvtTy.ofBits (f : BitVec 3) : CvtTy :=
  if f = 0#3 then .f32 else if f = 1#3 then .f64 else if f = 2#3 then .f16 else if f = 3#3 then .bf16
  else if f = 4#3 then .e4m3 else if f = 5#3 then .e5m2 else if f = 6#3 then .i32 else .b32
def CvtTy.code : CvtTy → BitVec 3
  | .f32 => 0#3 | .f64 => 1#3 | .f16 => 2#3 | .bf16 => 3#3 | .e4m3 => 4#3 | .e5m2 => 5#3 | .i32 => 6#3 | .b32 => 7#3
def CC.ofBits (f : BitVec 2) : CC :=
  if f = 0#2 then .eq else if f = 1#2 then .ne else if f = 2#2 then .lt else .ge
def CC.code : CC → BitVec 2
  | .eq => 0#2 | .ne => 1#2 | .lt => 2#2 | .ge => 3#2
def Sz3.ofBits (f : BitVec 2) : Option Sz3 :=
  if f = 0#2 then some .b32 else if f = 1#2 then some .b64 else if f = 2#2 then some .b128 else none
def Sz3.code : Sz3 → BitVec 2
  | .b32 => 0#2 | .b64 => 1#2 | .b128 => 2#2
def Sz2.ofBits (f : BitVec 2) : Option Sz2 :=
  if f = 0#2 then some .b32 else if f = 1#2 then some .b64 else none
def Sz2.code : Sz2 → BitVec 2
  | .b32 => 0#2 | .b64 => 1#2
def NLd.ofBits (f : BitVec 2) : NLd :=
  if f = 0#2 then .b8 else if f = 1#2 then .b16 else if f = 2#2 then .i8 else .i16
def NLd.code : NLd → BitVec 2
  | .b8 => 0#2 | .b16 => 1#2 | .i8 => 2#2 | .i16 => 3#2
def NSt.ofBits (f : BitVec 2) : Option NSt :=
  if f = 0#2 then some .b8 else if f = 1#2 then some .b16 else none
def NSt.code : NSt → BitVec 2
  | .b8 => 0#2 | .b16 => 1#2
def RwlOp.ofBits (f : BitVec 2) : Option RwlOp :=
  if f = 0#2 then some .rd else if f = 1#2 then some .wr else if f = 2#2 then some .rel else none
def RwlOp.code : RwlOp → BitVec 2
  | .rd => 0#2 | .wr => 1#2 | .rel => 2#2
def PrefLevel.ofBits (f : BitVec 2) : Option PrefLevel :=
  if f = 0#2 then some .l1 else if f = 1#2 then some .l2 else none
def PrefLevel.code : PrefLevel → BitVec 2
  | .l1 => 0#2 | .l2 => 1#2
def BarLevel.ofBits (f : BitVec 2) : Option BarLevel :=
  if f = 0#2 then some .hh else if f = 1#2 then some .par else if f = 2#2 then some .lch else none
def BarLevel.code : BarLevel → BitVec 2
  | .hh => 0#2 | .par => 1#2 | .lch => 2#2

/-- R95: the %fs bits PSET may name. -/
def FsBit.ofBits (n : BitVec 12) : Option FsBit :=
  if n = 0#12 then some .er else if n = 1#12 then some .st else if n = 3#12 then some .fp
  else if n = 4#12 then some .rf else if n = 5#12 then some .fr else none
def FsBit.code : FsBit → BitVec 12
  | .er => 0#12 | .st => 1#12 | .fp => 3#12 | .rf => 4#12 | .fr => 5#12

/-- R99: special register numbers of MOVS. -/
def SpecReg.ofBits (n : BitVec 12) : Option SpecReg :=
  if n = 0x000#12 then some .fid else if n = 0x001#12 then some .lane else if n = 0x002#12 then some .hid
  else if n = 0x003#12 then some .hcoord else if n = 0x004#12 then some .pid else if n = 0x005#12 then some .pcoord
  else if n = 0x006#12 then some .stage else if n = 0x010#12 then some .fs else if n = 0x011#12 then some .esc
  else if n = 0x012#12 then some .escq else if n = 0x013#12 then some .cont else if n = 0x014#12 then some .fault
  else if n = 0x015#12 then some .ver else if n = 0x020#12 then some .cyc else none
def SpecReg.code : SpecReg → BitVec 12
  | .fid => 0x000#12 | .lane => 0x001#12 | .hid => 0x002#12 | .hcoord => 0x003#12 | .pid => 0x004#12 | .pcoord => 0x005#12
  | .stage => 0x006#12 | .fs => 0x010#12 | .esc => 0x011#12 | .escq => 0x012#12 | .cont => 0x013#12 | .fault => 0x014#12
  | .ver => 0x015#12 | .cyc => 0x020#12

/-- R99: special register numbers of MOVSW. -/
def WSpecReg.ofBits (n : BitVec 12) : Option WSpecReg :=
  if n = 0x010#12 then some .fs else if n = 0x011#12 then some .esc else if n = 0x012#12 then some .escq
  else if n = 0x013#12 then some .cont else if n = 0x014#12 then some .fault else none
def WSpecReg.code : WSpecReg → BitVec 12
  | .fs => 0x010#12 | .esc => 0x011#12 | .escq => 0x012#12 | .cont => 0x013#12 | .fault => 0x014#12

/-- R322: privileged special register numbers of MOVP. -/
def PrivReg.ofBits (n : BitVec 12) : Option PrivReg :=
  if n = 0x000#12 then some .ctxid else if n = 0x001#12 then some .ctxattr else if n = 0x002#12 then some .sctr
  else if n = 0x010#12 then some .xinv else if n = 0x011#12 then some .rfq else none
def PrivReg.code : PrivReg → BitVec 12
  | .ctxid => 0x000#12 | .ctxattr => 0x001#12 | .sctr => 0x002#12 | .xinv => 0x010#12 | .rfq => 0x011#12

/-- R322: privileged special register numbers of MOVPW. -/
def WPrivReg.ofBits (n : BitVec 12) : Option WPrivReg :=
  if n = 0x010#12 then some .xinv else if n = 0x011#12 then some .rfq else none
def WPrivReg.code : WPrivReg → BitVec 12
  | .xinv => 0x010#12 | .rfq => 0x011#12

/-- R94: a predicate number, 0 to 11. -/
def predOf (r : BitVec 5) : Option PredNo := if h : r.toNat < 12 then some ⟨r.toNat, h⟩ else none
def predCode (p : PredNo) : BitVec 5 := BitVec.ofNat 5 p.val

/-- R58: the guard and sense fields; none: illegal. -/
def Guard.ofBits (g : BitVec 4) (s : Bool) : Option Guard :=
  if h : g.toNat < 12 then some (.on ⟨g.toNat, h⟩ s)
  else if g = 15#4 && !s then some .always else none
def Guard.code : Guard → BitVec 4
  | .always => 15#4
  | .on p _ => BitVec.ofNat 4 p.val
def Guard.sense : Guard → Bool
  | .always => false
  | .on _ s => s

/-- R282: the imm17 of FLUSHC; none: cause 0x0A. -/
def FlushTgt.ofBits (x : BitVec 17) : Option FlushTgt :=
  if x.getLsbD 16 then (if x.extractLsb' 0 16 = 0#16 then some .all else none)
  else if x.extractLsb' 12 3 ≠ 0#3 then none
  else if x.getLsbD 15 then some (.grp (x.extractLsb' 0 12))
  else if x.extractLsb' 10 2 ≠ 0#2 then none
  else some (.peer (x.extractLsb' 0 10))
def FlushTgt.code : FlushTgt → BitVec 17
  | .all => 0x10000#17
  | .peer p => 0#7 ++ p
  | .grp g => 1#2 ++ 0#3 ++ g

/-! ### The opcode map (R70), one definition for each row -/

/-- What one opcode makes of a word: the checks of causes 0x02, 0x03 and 0x0A, and the instruction under a header (none: a predicate number above 11, cause 0x05). -/
structure Form where
  ok02 : Bool
  ok03 : Bool
  ok0A : Bool
  build : Hdr → Option Instr

/-- A form with no reserved modifier values and no unused fields. -/
def Form.plain (mk : Hdr → Instr) : Form := ⟨true, true, true, fun h => some (mk h)⟩
/-- A form whose unused fields must satisfy `z` (0x03) and whose modifiers must satisfy `m` (0x02). -/
def Form.chk (m z : Bool) (mk : Hdr → Instr) : Form := ⟨m, z, true, fun h => some (mk h)⟩
/-- A form with predicate operands. -/
def Form.pred (m z : Bool) (mk : Hdr → Option Instr) : Form := ⟨m, z, true, mk⟩
/-- A form whose modifier field selects a value of `o`; a reserved value is cause 0x02. -/
def Form.sel {α : Type} (o : Option α) (m z : Bool) (mk : Hdr → α → Instr) : Form :=
  match o with
  | some x => ⟨m, z, true, fun h => some (mk h x)⟩
  | none => ⟨false, z, true, fun _ => none⟩


/-- Three predicate numbers in d, a and b (R94). -/
def pred3 (w : Word) (k : PredNo → PredNo → PredNo → Instr) : Option Instr :=
  match predOf (fieldD w), predOf (fieldA w), predOf (fieldB w) with
  | some d, some a, some b => some (k d a b)
  | _, _, _ => none

/-- CVT (R71, R72, R118): b[4:2] destination, b[1] .sat, b[0] zero. -/
def formCvt (w : Word) (src : CvtTy) : Form :=
  let dst := CvtTy.ofBits ((fieldB w).extractLsb' 2 3)
  let sat := (fieldB w).getLsbD 1
  let r := Rnd.ofBits (fieldF w)
  Form.chk (cvtOk src dst sat r && !(fieldB w).getLsbD 0) true fun h => .cvt h (fieldD w) (fieldA w) src dst sat r

/-- PSET (R95): an unlisted bit number is cause 0x02, a predicate number above 11 cause 0x05. -/
def formPset (w : Word) : Form :=
  match FsBit.ofBits (fieldImm12 w) with
  | some bit => Form.pred true true fun h => (predOf (fieldD w)).map fun d => .pset h d bit
  | none => Form.pred false true fun _ => none

/-- VALSET (R251): f[0] is .st, f[1] zero; without .st the field b is unused. -/
def formValset (w : Word) : Form :=
  let strong := (fieldF w).getLsbD 0
  Form.pred (!(fieldF w).getLsbD 1) (strong || fieldB w == 0#5) fun h =>
    (predOf (fieldD w)).map fun d => .valset h d (fieldA w) (fieldB w) strong

/-- FLUSHC (R282). -/
def formFlushc (w : Word) : Form :=
  match FlushTgt.ofBits (field17 w) with
  | some t => ⟨true, true, true, fun h => some (.flushc h t)⟩
  | none => ⟨true, true, false, fun _ => none⟩


/-- Row 0_ of the opcode map. -/
def opRow0 (lo : Nat) (w : Word) : Option Form :=
  match lo with
  | 0x0 => some (Form.plain fun h => .iadd h (fieldD w) (fieldA w) (fieldB w) (IntTy.ofBits (fieldF w)))
  | 0x1 => some (Form.plain fun h => .isub h (fieldD w) (fieldA w) (fieldB w) (IntTy.ofBits (fieldF w)))
  | 0x2 => some (Form.plain fun h => .imul h (fieldD w) (fieldA w) (fieldB w) (IntTy.ofBits (fieldF w)))
  | 0x3 => some (Form.plain fun h => .imulh h (fieldD w) (fieldA w) (fieldB w) (IntTy.ofBits (fieldF w)))
  | 0x4 => some (Form.plain fun h => .imad h (fieldD w) (fieldA w) (fieldB w) (IntTy.ofBits (fieldF w)))
  | 0x5 => some (Form.plain fun h => .iadds h (fieldD w) (fieldA w) (fieldB w) (IntTy.ofBits (fieldF w)))
  | 0x6 => some (Form.plain fun h => .isubs h (fieldD w) (fieldA w) (fieldB w) (IntTy.ofBits (fieldF w)))
  | 0x7 => some (Form.plain fun h => .idiv h (fieldD w) (fieldA w) (fieldB w) (IntTy.ofBits (fieldF w)))
  | 0x8 => some (Form.plain fun h => .irem h (fieldD w) (fieldA w) (fieldB w) (IntTy.ofBits (fieldF w)))
  | 0x9 => some (Form.plain fun h => .imin h (fieldD w) (fieldA w) (fieldB w) (IntTy.ofBits (fieldF w)))
  | 0xA => some (Form.plain fun h => .imax h (fieldD w) (fieldA w) (fieldB w) (IntTy.ofBits (fieldF w)))
  | 0xB => some (Form.chk true (fieldB w == 0#5) fun h => .iabs h (fieldD w) (fieldA w) (IntTy.ofBits (fieldF w)))
  | 0xC => some (Form.chk true (fieldB w == 0#5) fun h => .ineg h (fieldD w) (fieldA w) (IntTy.ofBits (fieldF w)))
  | _ => none

/-- Row 1_ of the opcode map. -/
def opRow1 (lo : Nat) (w : Word) : Option Form :=
  match lo with
  | 0x0 => some (Form.plain fun h => .and h (fieldD w) (fieldA w) (fieldB w) (IntTy.ofBits (fieldF w)))
  | 0x1 => some (Form.plain fun h => .or h (fieldD w) (fieldA w) (fieldB w) (IntTy.ofBits (fieldF w)))
  | 0x2 => some (Form.plain fun h => .xor h (fieldD w) (fieldA w) (fieldB w) (IntTy.ofBits (fieldF w)))
  | 0x3 => some (Form.chk true (fieldB w == 0#5) fun h => .not h (fieldD w) (fieldA w) (IntTy.ofBits (fieldF w)))
  | 0x4 => some (Form.plain fun h => .shl h (fieldD w) (fieldA w) (fieldB w) (IntTy.ofBits (fieldF w)))
  | 0x5 => some (Form.plain fun h => .shr h (fieldD w) (fieldA w) (fieldB w) (IntTy.ofBits (fieldF w)))
  | 0x6 => some (Form.plain fun h => .sar h (fieldD w) (fieldA w) (fieldB w) (IntTy.ofBits (fieldF w)))
  | 0x7 => some (Form.plain fun h => .rot h (fieldD w) (fieldA w) (fieldB w) (IntTy.ofBits (fieldF w)))
  | 0x8 => some (Form.chk true (fieldB w == 0#5) fun h => .popc h (fieldD w) (fieldA w) (IntTy.ofBits (fieldF w)))
  | 0x9 => some (Form.chk true (fieldB w == 0#5) fun h => .clz h (fieldD w) (fieldA w) (IntTy.ofBits (fieldF w)))
  | 0xA => some (Form.chk true (fieldB w == 0#5) fun h => .brev h (fieldD w) (fieldA w) (IntTy.ofBits (fieldF w)))
  | 0xB => some (Form.plain fun h => .bfe h (fieldD w) (fieldA w) (fieldB w) (IntTy.ofBits (fieldF w)))
  | 0xC => some (Form.plain fun h => .bfi h (fieldD w) (fieldA w) (fieldB w) (IntTy.ofBits (fieldF w)))
  | 0xD => some (Form.plain fun h => .addp h (fieldD w) (fieldA w) (fieldB w) (fieldF w))
  | 0xE => some (Form.chk (fieldF w == 0#2) true fun h => .subp h (fieldD w) (fieldA w) (fieldB w))
  | _ => none

/-- Row 2_ of the opcode map. -/
def opRow2 (lo : Nat) (w : Word) : Option Form :=
  match lo with
  | 0x0 => some (Form.plain fun h => .iaddi h (fieldD w) (fieldA w) (fieldImm7 w))
  | 0x1 => some (Form.plain fun h => .andi h (fieldD w) (fieldA w) (fieldImm7 w))
  | 0x2 => some (Form.plain fun h => .ori h (fieldD w) (fieldA w) (fieldImm7 w))
  | 0x3 => some (Form.plain fun h => .xori h (fieldD w) (fieldA w) (fieldImm7 w))
  | 0x4 => some (Form.plain fun h => .shli h (fieldD w) (fieldA w) (fieldImm7 w))
  | 0x5 => some (Form.plain fun h => .shri h (fieldD w) (fieldA w) (fieldImm7 w))
  | 0x6 => some (Form.plain fun h => .sari h (fieldD w) (fieldA w) (fieldImm7 w))
  | 0x7 => some (Form.plain fun h => .imuli h (fieldD w) (fieldA w) (fieldImm7 w))
  | 0x8 => some (Form.plain fun h => .movi h (fieldD w) (fieldImm12 w))
  | 0x9 => some (Form.plain fun h => .movh h (fieldD w) (fieldImm12 w))
  | 0xA => some (Form.plain fun h => .addpi h (fieldD w) (fieldA w) (fieldImm7 w))
  | _ => none

/-- Row 4_ of the opcode map. -/
def opRow4 (lo : Nat) (w : Word) : Option Form :=
  match lo with
  | 0x0 => some (Form.plain fun h => .fadd h (fieldD w) (fieldA w) (fieldB w) .f32 (Rnd.ofBits (fieldF w)))
  | 0x1 => some (Form.plain fun h => .fadd h (fieldD w) (fieldA w) (fieldB w) .f64 (Rnd.ofBits (fieldF w)))
  | 0x2 => some (Form.plain fun h => .fadd h (fieldD w) (fieldA w) (fieldB w) .f16 (Rnd.ofBits (fieldF w)))
  | 0x3 => some (Form.plain fun h => .fadd h (fieldD w) (fieldA w) (fieldB w) .bf16 (Rnd.ofBits (fieldF w)))
  | 0x4 => some (Form.plain fun h => .fsub h (fieldD w) (fieldA w) (fieldB w) .f32 (Rnd.ofBits (fieldF w)))
  | 0x5 => some (Form.plain fun h => .fsub h (fieldD w) (fieldA w) (fieldB w) .f64 (Rnd.ofBits (fieldF w)))
  | 0x6 => some (Form.plain fun h => .fsub h (fieldD w) (fieldA w) (fieldB w) .f16 (Rnd.ofBits (fieldF w)))
  | 0x7 => some (Form.plain fun h => .fsub h (fieldD w) (fieldA w) (fieldB w) .bf16 (Rnd.ofBits (fieldF w)))
  | 0x8 => some (Form.plain fun h => .fmul h (fieldD w) (fieldA w) (fieldB w) .f32 (Rnd.ofBits (fieldF w)))
  | 0x9 => some (Form.plain fun h => .fmul h (fieldD w) (fieldA w) (fieldB w) .f64 (Rnd.ofBits (fieldF w)))
  | 0xA => some (Form.plain fun h => .fmul h (fieldD w) (fieldA w) (fieldB w) .f16 (Rnd.ofBits (fieldF w)))
  | 0xB => some (Form.plain fun h => .fmul h (fieldD w) (fieldA w) (fieldB w) .bf16 (Rnd.ofBits (fieldF w)))
  | 0xC => some (Form.plain fun h => .fma h (fieldD w) (fieldA w) (fieldB w) .f32 (Rnd.ofBits (fieldF w)))
  | 0xD => some (Form.plain fun h => .fma h (fieldD w) (fieldA w) (fieldB w) .f64 (Rnd.ofBits (fieldF w)))
  | 0xE => some (Form.plain fun h => .fma h (fieldD w) (fieldA w) (fieldB w) .f16 (Rnd.ofBits (fieldF w)))
  | 0xF => some (Form.plain fun h => .fma h (fieldD w) (fieldA w) (fieldB w) .bf16 (Rnd.ofBits (fieldF w)))
  | _ => none

/-- Row 5_ of the opcode map. -/
def opRow5 (lo : Nat) (w : Word) : Option Form :=
  match lo with
  | 0x0 => some (Form.chk (fieldF w == 0#2) true fun h => .fmin h (fieldD w) (fieldA w) (fieldB w) .f32)
  | 0x1 => some (Form.chk (fieldF w == 0#2) true fun h => .fmin h (fieldD w) (fieldA w) (fieldB w) .f64)
  | 0x2 => some (Form.chk (fieldF w == 0#2) true fun h => .fmin h (fieldD w) (fieldA w) (fieldB w) .f16)
  | 0x3 => some (Form.chk (fieldF w == 0#2) true fun h => .fmin h (fieldD w) (fieldA w) (fieldB w) .bf16)
  | 0x4 => some (Form.chk (fieldF w == 0#2) true fun h => .fmax h (fieldD w) (fieldA w) (fieldB w) .f32)
  | 0x5 => some (Form.chk (fieldF w == 0#2) true fun h => .fmax h (fieldD w) (fieldA w) (fieldB w) .f64)
  | 0x6 => some (Form.chk (fieldF w == 0#2) true fun h => .fmax h (fieldD w) (fieldA w) (fieldB w) .f16)
  | 0x7 => some (Form.chk (fieldF w == 0#2) true fun h => .fmax h (fieldD w) (fieldA w) (fieldB w) .bf16)
  | 0x8 => some (Form.chk (fieldF w == 0#2) (fieldB w == 0#5) fun h => .fabs h (fieldD w) (fieldA w) .f32)
  | 0x9 => some (Form.chk (fieldF w == 0#2) (fieldB w == 0#5) fun h => .fabs h (fieldD w) (fieldA w) .f64)
  | 0xA => some (Form.chk (fieldF w == 0#2) (fieldB w == 0#5) fun h => .fabs h (fieldD w) (fieldA w) .f16)
  | 0xB => some (Form.chk (fieldF w == 0#2) (fieldB w == 0#5) fun h => .fabs h (fieldD w) (fieldA w) .bf16)
  | 0xC => some (Form.chk (fieldF w == 0#2) (fieldB w == 0#5) fun h => .fneg h (fieldD w) (fieldA w) .f32)
  | 0xD => some (Form.chk (fieldF w == 0#2) (fieldB w == 0#5) fun h => .fneg h (fieldD w) (fieldA w) .f64)
  | 0xE => some (Form.chk (fieldF w == 0#2) (fieldB w == 0#5) fun h => .fneg h (fieldD w) (fieldA w) .f16)
  | 0xF => some (Form.chk (fieldF w == 0#2) (fieldB w == 0#5) fun h => .fneg h (fieldD w) (fieldA w) .bf16)
  | _ => none

/-- Row 6_ of the opcode map. -/
def opRow6 (lo : Nat) (w : Word) : Option Form :=
  match lo with
  | 0x0 => some (Form.chk (fieldF w == 0#2) (fieldB w == 0#5) fun h => .frcp h (fieldD w) (fieldA w))
  | 0x1 => some (Form.chk (fieldF w == 0#2) (fieldB w == 0#5) fun h => .frsq h (fieldD w) (fieldA w))
  | 0x2 => some (Form.chk (fieldF w == 0#2) (fieldB w == 0#5) fun h => .fex2 h (fieldD w) (fieldA w))
  | 0x3 => some (Form.chk (fieldF w == 0#2) (fieldB w == 0#5) fun h => .flg2 h (fieldD w) (fieldA w))
  | 0x4 => some (Form.chk (fieldF w == 0#2) (fieldB w == 0#5) fun h => .fsin h (fieldD w) (fieldA w))
  | 0x5 => some (Form.chk (fieldF w == 0#2) (fieldB w == 0#5) fun h => .fcos h (fieldD w) (fieldA w))
  | 0x8 => some (formCvt w .f32)
  | 0x9 => some (formCvt w .f64)
  | 0xA => some (formCvt w .f16)
  | 0xB => some (formCvt w .bf16)
  | 0xC => some (formCvt w .e4m3)
  | 0xD => some (formCvt w .e5m2)
  | 0xE => some (formCvt w .i32)
  | 0xF => some (formCvt w .b32)
  | _ => none

/-- Row 8_ of the opcode map. -/
def opRow8 (lo : Nat) (w : Word) : Option Form :=
  match lo with
  | 0x0 => some (Form.plain fun h => .bra h (field17 w))
  | 0x1 => some (Form.plain fun h => .call h (field17 w))
  | 0x2 => some (Form.chk (fieldF w == 0#2) (fieldD w == 0#5 && fieldB w == 0#5) fun h => .brx h (fieldA w))
  | 0x3 => some (Form.chk (fieldF w == 0#2) (fieldD w == 0#5 && fieldB w == 0#5) fun h => .callx h (fieldA w))
  | 0x4 => some (Form.chk true (field17 w == 0#17) fun h => .ret h)
  | 0x5 => some (Form.plain fun h => .fork h (field17 w))
  | 0x6 => some (Form.chk (fieldF w == 0#2) (fieldA w == 0#5 && fieldB w == 0#5) fun h => .join h (fieldD w))
  | 0x7 => some (Form.chk true (fieldD w == 0#5) fun h => .quit h (fieldImm12 w))
  | 0x8 => some (Form.chk true (field17 w == 0#17) fun h => .yield h)
  | 0x9 => some (Form.chk true (field17 w == 0#17) fun h => .nop h)
  | 0xA => some (Form.plain fun h => .sleep h (field17 w))
  | 0xB => some (Form.plain fun h => .cont h (field17 w))
  | 0xC => some (Form.chk (fieldF w == 0#2) (fieldD w == 0#5 && fieldB w == 0#5) fun h => .resume h (fieldA w))
  | 0xD => some (Form.plain fun h => .trap h (field17 w))
  | 0xE => some (Form.sel (SpecReg.ofBits (fieldImm12 w)) true true fun h r => .movs h (fieldD w) r)
  | 0xF => some (Form.sel (WSpecReg.ofBits (fieldImm12 w)) true true fun h r => .movsw h (fieldD w) r)
  | _ => none

/-- Row 9_ of the opcode map. -/
def opRow9 (lo : Nat) (w : Word) : Option Form :=
  match lo with
  | 0x0 => some (Form.pred true true fun h => pred3 w fun d a b => .pand h d a b ((fieldF w).getLsbD 0) ((fieldF w).getLsbD 1))
  | 0x1 => some (Form.pred true true fun h => pred3 w fun d a b => .por h d a b ((fieldF w).getLsbD 0) ((fieldF w).getLsbD 1))
  | 0x2 => some (Form.pred true true fun h => pred3 w fun d a b => .pxor h d a b ((fieldF w).getLsbD 0) ((fieldF w).getLsbD 1))
  | 0x3 => some (Form.pred (fieldF w == 0#2) (fieldB w == 0#5) fun h => pred3 w fun d a _ => .pnot h d a)
  | 0x4 => some (Form.pred (!(fieldF w).getLsbD 1) (fieldB w == 0#5) fun h => pred3 w fun d a _ => .pmov h d a ((fieldF w).getLsbD 0))
  | 0x5 => some (formPset w)
  | 0x8 => some (Form.pred true true fun h => (predOf (fieldD w)).map fun d => .cmp h d (fieldA w) (fieldB w) .i32 (CC.ofBits (fieldF w)))
  | 0x9 => some (Form.pred true true fun h => (predOf (fieldD w)).map fun d => .cmp h d (fieldA w) (fieldB w) .b32 (CC.ofBits (fieldF w)))
  | 0xA => some (Form.pred true true fun h => (predOf (fieldD w)).map fun d => .cmp h d (fieldA w) (fieldB w) .i64 (CC.ofBits (fieldF w)))
  | 0xB => some (Form.pred true true fun h => (predOf (fieldD w)).map fun d => .cmp h d (fieldA w) (fieldB w) .b64 (CC.ofBits (fieldF w)))
  | 0xC => some (Form.pred true true fun h => (predOf (fieldD w)).map fun d => .cmp h d (fieldA w) (fieldB w) .f32 (CC.ofBits (fieldF w)))
  | 0xD => some (Form.pred true true fun h => (predOf (fieldD w)).map fun d => .cmp h d (fieldA w) (fieldB w) .f64 (CC.ofBits (fieldF w)))
  | _ => none

/-- Row A_ of the opcode map. -/
def opRowA (lo : Nat) (w : Word) : Option Form :=
  match lo with
  | 0x0 => some (Form.sel (Sz3.ofBits (fieldF w)) true true fun h z => .ld h (fieldD w) (fieldA w) (fieldL w) (fieldE w) z)
  | 0x1 => some (Form.plain fun h => .ldNarrow h (fieldD w) (fieldA w) (fieldL w) (fieldE w) (NLd.ofBits (fieldF w)))
  | 0x2 => some (Form.sel (Sz3.ofBits (fieldF w)) (fieldL w == 0#4 && !fieldE w) true fun h z => .st h (fieldD w) (fieldA w) z)
  | 0x3 => some (Form.sel (NSt.ofBits (fieldF w)) (fieldL w == 0#4 && !fieldE w) true fun h z => .stNarrow h (fieldD w) (fieldA w) z)
  | 0x4 => some (Form.sel (Sz3.ofBits (fieldF w)) (!fieldE w) true fun h z => .lds h (fieldD w) (fieldA w) (fieldL w) z)
  | 0x5 => some (Form.chk (!fieldE w) true fun h => .ldsNarrow h (fieldD w) (fieldA w) (fieldL w) (NLd.ofBits (fieldF w)))
  | 0x6 => some (Form.sel (Sz3.ofBits (fieldF w)) (fieldL w == 0#4 && !fieldE w) true fun h z => .sts h (fieldD w) (fieldA w) z)
  | 0x7 => some (Form.sel (NSt.ofBits (fieldF w)) (fieldL w == 0#4 && !fieldE w) true fun h z => .stsNarrow h (fieldD w) (fieldA w) z)
  | 0x8 => some (Form.sel (Sz3.ofBits (fieldF w)) true true fun h z => .ldf h (fieldD w) (fieldA w) (fieldL w) (fieldE w) z)
  | 0x9 => some (Form.sel (Sz3.ofBits (fieldF w)) (fieldL w == 0#4 && !fieldE w) true fun h z => .stf h (fieldD w) (fieldA w) z)
  | 0xA => some (Form.sel (PrefLevel.ofBits (fieldF w)) (fieldL w == 0#4 && !fieldE w) (fieldD w == 0#5) fun h z => .pref h (fieldA w) z)
  | 0xB => some (Form.plain fun h => .escm h (field17 w))
  | 0xC => some (Form.sel (Sz2.ofBits (fieldF w)) true true fun h z => .ldAcq h (fieldD w) (fieldA w) (fieldL w) (fieldE w) z)
  | 0xD => some (Form.sel (Sz2.ofBits (fieldF w)) (fieldL w == 0#4 && !fieldE w) true fun h z => .stRel h (fieldD w) (fieldA w) z)
  | 0xE => some (Form.chk (!(fieldF w).getLsbD 1) true fun h => .ldv h (fieldD w) (fieldA w) (fieldL w) (fieldE w) ((fieldF w).getLsbD 0))
  | 0xF => some (Form.sel (Sz2.ofBits (fieldF w)) true true fun h z => .casv h (fieldD w) (fieldA w) (fieldL w) (fieldE w) z)
  | _ => none

/-- Row B_ of the opcode map. -/
def opRowB (lo : Nat) (w : Word) : Option Form :=
  match lo with
  | 0x0 => some (Form.plain fun h => .atomAdd h (fieldD w) (fieldA w) (fieldL w) (fieldE w) (IntTy.ofBits (fieldF w)))
  | 0x1 => some (Form.plain fun h => .atomAnd h (fieldD w) (fieldA w) (fieldL w) (fieldE w) (IntTy.ofBits (fieldF w)))
  | 0x2 => some (Form.plain fun h => .atomOr h (fieldD w) (fieldA w) (fieldL w) (fieldE w) (IntTy.ofBits (fieldF w)))
  | 0x3 => some (Form.plain fun h => .atomXor h (fieldD w) (fieldA w) (fieldL w) (fieldE w) (IntTy.ofBits (fieldF w)))
  | 0x4 => some (Form.plain fun h => .atomMin h (fieldD w) (fieldA w) (fieldL w) (fieldE w) (IntTy.ofBits (fieldF w)))
  | 0x5 => some (Form.plain fun h => .atomMax h (fieldD w) (fieldA w) (fieldL w) (fieldE w) (IntTy.ofBits (fieldF w)))
  | 0x6 => some (Form.plain fun h => .atomExch h (fieldD w) (fieldA w) (fieldL w) (fieldE w) (IntTy.ofBits (fieldF w)))
  | 0x7 => some (Form.plain fun h => .atomCas h (fieldD w) (fieldA w) (fieldL w) (fieldE w) (IntTy.ofBits (fieldF w)))
  | 0x8 => some (Form.chk (fieldF w == 0#2) true fun h => .atomFadd h (fieldD w) (fieldA w) (fieldL w) (fieldE w))
  | 0x9 => some (Form.sel (RwlOp.ofBits (fieldF w)) true true fun h z => .rwl h (fieldD w) (fieldA w) (fieldL w) (fieldE w) z)
  | 0xA => some (formValset w)
  | 0xB => some (Form.plain fun h => .waitcSigned h (fieldD w) (fieldA w) (fieldB w) (CC.ofBits (fieldF w)))
  | 0xC => some (Form.chk true (field17 w == 0#17) fun h => .fence h)
  | 0xD => some (Form.sel (BarLevel.ofBits ((field17 w).extractLsb' 15 2)) ((field17 w).extractLsb' 0 14 == 0#14) true fun h lv => .bar h lv ((field17 w).getLsbD 14))
  | 0xE => some (Form.chk (!(fieldF w).getLsbD 1) true fun h => .waitcUnsigned h (fieldD w) (fieldA w) (fieldB w) ((fieldF w).getLsbD 0))
  | _ => none

/-- Row C_ of the opcode map. -/
def opRowC (lo : Nat) (w : Word) : Option Form :=
  match lo with
  | 0x0 => some (Form.plain fun h => .atomOrdAdd h (fieldD w) (fieldA w) (fieldL w) (fieldE w) (IntTy.ofBits (fieldF w)))
  | 0x1 => some (Form.plain fun h => .atomOrdAnd h (fieldD w) (fieldA w) (fieldL w) (fieldE w) (IntTy.ofBits (fieldF w)))
  | 0x2 => some (Form.plain fun h => .atomOrdOr h (fieldD w) (fieldA w) (fieldL w) (fieldE w) (IntTy.ofBits (fieldF w)))
  | 0x3 => some (Form.plain fun h => .atomOrdXor h (fieldD w) (fieldA w) (fieldL w) (fieldE w) (IntTy.ofBits (fieldF w)))
  | 0x4 => some (Form.plain fun h => .atomOrdMin h (fieldD w) (fieldA w) (fieldL w) (fieldE w) (IntTy.ofBits (fieldF w)))
  | 0x5 => some (Form.plain fun h => .atomOrdMax h (fieldD w) (fieldA w) (fieldL w) (fieldE w) (IntTy.ofBits (fieldF w)))
  | 0x6 => some (Form.plain fun h => .atomOrdExch h (fieldD w) (fieldA w) (fieldL w) (fieldE w) (IntTy.ofBits (fieldF w)))
  | 0x7 => some (Form.plain fun h => .atomOrdCas h (fieldD w) (fieldA w) (fieldL w) (fieldE w) (IntTy.ofBits (fieldF w)))
  | 0x8 => some (Form.chk (fieldF w == 0#2) true fun h => .atomOrdFadd h (fieldD w) (fieldA w) (fieldL w) (fieldE w))
  | 0x9 => some (Form.chk (fieldL w == 0#4 && !fieldE w) true fun h => .redAdd h (fieldD w) (fieldA w) (IntTy.ofBits (fieldF w)))
  | 0xA => some (Form.chk (fieldL w == 0#4 && !fieldE w) true fun h => .redAnd h (fieldD w) (fieldA w) (IntTy.ofBits (fieldF w)))
  | 0xB => some (Form.chk (fieldL w == 0#4 && !fieldE w) true fun h => .redOr h (fieldD w) (fieldA w) (IntTy.ofBits (fieldF w)))
  | 0xC => some (Form.chk (fieldL w == 0#4 && !fieldE w) true fun h => .redXor h (fieldD w) (fieldA w) (IntTy.ofBits (fieldF w)))
  | 0xD => some (Form.chk (fieldL w == 0#4 && !fieldE w) true fun h => .redMin h (fieldD w) (fieldA w) (IntTy.ofBits (fieldF w)))
  | 0xE => some (Form.chk (fieldL w == 0#4 && !fieldE w) true fun h => .redMax h (fieldD w) (fieldA w) (IntTy.ofBits (fieldF w)))
  | 0xF => some (Form.chk ((fieldL w == 0#4 && !fieldE w) && fieldF w == 0#2) true fun h => .redFadd h (fieldD w) (fieldA w))
  | _ => none

/-- Row D_ of the opcode map. -/
def opRowD (lo : Nat) (w : Word) : Option Form :=
  match lo with
  | 0x0 => some (Form.chk true (fieldEz w == 0#3) fun h => .tdset h (fieldTx w) (fieldEg w) (fieldK w))
  | 0x1 => some (Form.chk true (fieldEz w == 0#3) fun h => .tdget h (fieldTx w) (fieldEg w) (fieldK w))
  | 0x2 => some (Form.chk true (fieldTy w == 0#8 && !fieldK w) fun h => .tdinv h (fieldTx w))
  | 0x3 => some (Form.chk true (fieldEz w == 0#3) fun h => .mscl h (fieldTx w) (fieldEg w) (fieldK w))
  | 0x4 => some (Form.chk true (fieldTy w == 0#8) fun h => .mzero h (fieldTx w) (fieldK w))
  | 0x5 => some (Form.plain fun h => .mma h (fieldTx w) (fieldTy w) (fieldK w))
  | 0x6 => some (Form.pred true ((fieldTy w).extractLsb' 5 3 == 0#3) fun h => (predOf (0#1 ++ (fieldTy w).extractLsb' 0 4)).map fun p => .mdrn h (fieldTx w) ((fieldTy w).getLsbD 4) p (fieldK w))
  | 0x7 => some (Form.chk true (!fieldK w) fun h => .cpy h (fieldTx w) (fieldTy w))
  | 0x8 => some (Form.plain fun h => .tmm h (fieldTx w) (fieldTy w) (fieldK w))
  | 0x9 => some (Form.plain fun h => .twait h (fieldD w) (fieldA w) (fieldImm7 w))
  | 0xA => some (formFlushc w)
  | 0xB => some (Form.chk (fieldF w == 0#2) true fun h => .wopen h (fieldD w) (fieldA w) (fieldB w))
  | 0xC => some (Form.chk (fieldF w == 0#2) (fieldA w == 0#5) fun h => .wrevoke h (fieldD w) (fieldB w))
  | 0xD => some (Form.chk (fieldF w == 0#2) (fieldD w == 0#5) fun h => .monset h (fieldA w) (fieldB w))
  | 0xE => some (Form.chk (fieldF w == 0#2) (fieldD w == 0#5) fun h => .monrd h (fieldA w) (fieldB w))
  | _ => none

/-- Row E_ of the opcode map. -/
def opRowE (lo : Nat) (w : Word) : Option Form :=
  match lo with
  | 0x8 => some (Form.chk (fieldF w == 0#2) true fun h => .save h (fieldD w) (fieldA w) (fieldB w))
  | 0x9 => some (Form.chk (fieldF w == 0#2) true fun h => .rest h (fieldD w) (fieldA w) (fieldB w))
  | 0xA => some (Form.chk (fieldF w == 0#2) true fun h => .keyld h (fieldD w) (fieldA w) (fieldB w))
  | 0xB => some (Form.chk (fieldF w == 0#2) (fieldA w == 0#5) fun h => .evict h (fieldD w) (fieldB w))
  | 0xC => some (Form.sel (PrivReg.ofBits (fieldImm12 w)) true true fun h r => .movp h (fieldD w) r)
  | 0xD => some (Form.sel (WPrivReg.ofBits (fieldImm12 w)) true true fun h r => .movpw h (fieldD w) r)
  | 0xE => some (Form.plain fun h => .dbrk h (field17 w))
  | _ => none

/-- The opcode map of R70; none: unassigned (cause 0x01). IMX (0xFE) is decoded apart. -/
def opForm (op : BitVec 8) (w : Word) : Option Form :=
  match op.toNat / 16 with
  | 0x0 => opRow0 (op.toNat % 16) w
  | 0x1 => opRow1 (op.toNat % 16) w
  | 0x2 => opRow2 (op.toNat % 16) w
  | 0x4 => opRow4 (op.toNat % 16) w
  | 0x5 => opRow5 (op.toNat % 16) w
  | 0x6 => opRow6 (op.toNat % 16) w
  | 0x8 => opRow8 (op.toNat % 16) w
  | 0x9 => opRow9 (op.toNat % 16) w
  | 0xA => opRowA (op.toNat % 16) w
  | 0xB => opRowB (op.toNat % 16) w
  | 0xC => opRowC (op.toNat % 16) w
  | 0xD => opRowD (op.toNat % 16) w
  | 0xE => opRowE (op.toNat % 16) w
  | _ => none

/-- R58: the header of a word other than IMX; none: cause 0x04. -/
def decodeHdr (w : Word) : Option Hdr :=
  (Guard.ofBits (fieldG w) (fieldS w)).map fun g => ⟨fieldC w, fieldU w, g⟩

/-- R61: the header an IMX word must have. -/
def imxHdrOk (w : Word) : Bool := fieldC w && !fieldU w && fieldG w == 15#4 && !fieldS w

/-- The instruction under a form and a header, with the checks of cause 0x05 (R60), and cause 0x0A. -/
def Form.finish (f : Form) (h : Hdr) : Except Nat Instr :=
  match f.build h with
  | some i => if i.opds.all Opd.aligned then (if f.ok0A then .ok i else .error 0x0A) else .error 0x05
  | none => if f.ok0A then .error 0x05 else .error 0x0A

/-- U = 1 on a unit on which R84 does not allow it. -/
def Form.uniformBad (f : Form) (w : Word) : Bool :=
  fieldU w && (match f.build ⟨false, true, .always⟩ with | some i => !i.uniformOk | none => !(fieldOp w == 0x95#8 || fieldOp w == 0x90#8 || fieldOp w == 0x91#8 || fieldOp w == 0x92#8 || fieldOp w == 0x93#8 || fieldOp w == 0x94#8 || (fieldOp w).extractLsb' 3 5 == 0x13#5))

/-- The decoder: total on every word; a refusal names its decode cause (R73), the first in the order of R74 stage 2. -/
def decode (w : Word) : Except Nat Instr :=
  if fieldOp w = 0xFE#8 then
    (if imxHdrOk w then .ok (.imx (field17 w)) else .error 0x09)
  else match opForm (fieldOp w) w with
  | none => .error 0x01
  | some f =>
    if !f.ok02 || f.uniformBad w then .error 0x02
    else if !f.ok03 then .error 0x03
    else match decodeHdr w with
    | none => .error 0x04
    | some h => f.finish h

/-- R53: a word is stored little-endian. -/
def wordOfBytes (b0 b1 b2 b3 : Byte) : Word := b3 ++ b2 ++ b1 ++ b0

/-- The decoder on bytes: four of them make a word. -/
def decodeBytes : List Byte → Except Nat (Instr × List Byte)
  | b0 :: b1 :: b2 :: b3 :: rest =>
    match decode (wordOfBytes b0 b1 b2 b3) with
    | .ok i => .ok (i, rest)
    | .error c => .error c
  | _ => .error 0x01

/-- The instruction the decoder reads from the bits `w` as spec/opcode_table.json numbers them. Every row of the table that has bits is one 32-bit word. -/
def decodeTableWord (nbits w : Nat) : Option Instr :=
  if nbits = 0 then none else
  match decode (BitVec.ofNat 32 w) with
  | .ok i => some i
  | .error _ => none

/-! ### The encoder -/

/-- The type codes of CMP (R96). -/
def CmpTy.code : CmpTy → BitVec 3
  | .i32 => 0#3 | .b32 => 1#3 | .i64 => 2#3 | .b64 => 3#3 | .f32 => 4#3 | .f64 => 5#3

def encWord (h : Hdr) (op : BitVec 8) (x : BitVec 17) : Word :=
  BitVec.ofBool h.c ++ BitVec.ofBool h.u ++ h.guard.code ++ BitVec.ofBool h.guard.sense ++ op ++ x
def encRRR (d a b : BitVec 5) (f : BitVec 2) : BitVec 17 := d ++ a ++ b ++ f
def encRRI (d a : BitVec 5) (imm : BitVec 7) : BitVec 17 := d ++ a ++ imm
def encRI (d : BitVec 5) (imm : BitVec 12) : BitVec 17 := d ++ imm
def encMEM (d b : BitVec 5) (l : BitVec 4) (e : Bool) (z : BitVec 2) : BitVec 17 := d ++ b ++ l ++ BitVec.ofBool e ++ z
def encENG (x y : BitVec 8) (k : Bool) : BitVec 17 := x ++ y ++ BitVec.ofBool k
def encENR (x : BitVec 8) (g : BitVec 5) (k : Bool) : BitVec 17 := x ++ g ++ 0#3 ++ BitVec.ofBool k

/-- The word of an instruction (R57 to R71); an event has none. -/
def encode : Instr → Option Word
  | .iadd h d a b t => some (encWord h 0x00#8 (encRRR d a b t.code))
  | .isub h d a b t => some (encWord h 0x01#8 (encRRR d a b t.code))
  | .imul h d a b t => some (encWord h 0x02#8 (encRRR d a b t.code))
  | .imulh h d a b t => some (encWord h 0x03#8 (encRRR d a b t.code))
  | .imad h d a b t => some (encWord h 0x04#8 (encRRR d a b t.code))
  | .iadds h d a b t => some (encWord h 0x05#8 (encRRR d a b t.code))
  | .isubs h d a b t => some (encWord h 0x06#8 (encRRR d a b t.code))
  | .idiv h d a b t => some (encWord h 0x07#8 (encRRR d a b t.code))
  | .irem h d a b t => some (encWord h 0x08#8 (encRRR d a b t.code))
  | .imin h d a b t => some (encWord h 0x09#8 (encRRR d a b t.code))
  | .imax h d a b t => some (encWord h 0x0A#8 (encRRR d a b t.code))
  | .and h d a b t => some (encWord h 0x10#8 (encRRR d a b t.code))
  | .or h d a b t => some (encWord h 0x11#8 (encRRR d a b t.code))
  | .xor h d a b t => some (encWord h 0x12#8 (encRRR d a b t.code))
  | .shl h d a b t => some (encWord h 0x14#8 (encRRR d a b t.code))
  | .shr h d a b t => some (encWord h 0x15#8 (encRRR d a b t.code))
  | .sar h d a b t => some (encWord h 0x16#8 (encRRR d a b t.code))
  | .rot h d a b t => some (encWord h 0x17#8 (encRRR d a b t.code))
  | .bfe h d a b t => some (encWord h 0x1B#8 (encRRR d a b t.code))
  | .bfi h d a b t => some (encWord h 0x1C#8 (encRRR d a b t.code))
  | .iabs h d a t => some (encWord h 0x0B#8 (encRRR d a 0#5 t.code))
  | .ineg h d a t => some (encWord h 0x0C#8 (encRRR d a 0#5 t.code))
  | .not h d a t => some (encWord h 0x13#8 (encRRR d a 0#5 t.code))
  | .popc h d a t => some (encWord h 0x18#8 (encRRR d a 0#5 t.code))
  | .clz h d a t => some (encWord h 0x19#8 (encRRR d a 0#5 t.code))
  | .brev h d a t => some (encWord h 0x1A#8 (encRRR d a 0#5 t.code))
  | .addp h d a b sh => some (encWord h 0x1D#8 (encRRR d a b sh))
  | .subp h d a b => some (encWord h 0x1E#8 (encRRR d a b 0#2))
  | .iaddi h d a imm => some (encWord h 0x20#8 (encRRI d a imm))
  | .andi h d a imm => some (encWord h 0x21#8 (encRRI d a imm))
  | .ori h d a imm => some (encWord h 0x22#8 (encRRI d a imm))
  | .xori h d a imm => some (encWord h 0x23#8 (encRRI d a imm))
  | .shli h d a imm => some (encWord h 0x24#8 (encRRI d a imm))
  | .shri h d a imm => some (encWord h 0x25#8 (encRRI d a imm))
  | .sari h d a imm => some (encWord h 0x26#8 (encRRI d a imm))
  | .imuli h d a imm => some (encWord h 0x27#8 (encRRI d a imm))
  | .movi h d imm => some (encWord h 0x28#8 (encRI d imm))
  | .movh h d imm => some (encWord h 0x29#8 (encRI d imm))
  | .addpi h d a imm => some (encWord h 0x2A#8 (encRRI d a imm))
  | .fadd h d a b t r => some (encWord h (0x10#6 ++ t.code) (encRRR d a b r.code))
  | .fsub h d a b t r => some (encWord h (0x11#6 ++ t.code) (encRRR d a b r.code))
  | .fmul h d a b t r => some (encWord h (0x12#6 ++ t.code) (encRRR d a b r.code))
  | .fma h d a b t r => some (encWord h (0x13#6 ++ t.code) (encRRR d a b r.code))
  | .fmin h d a b t => some (encWord h (0x14#6 ++ t.code) (encRRR d a b 0#2))
  | .fmax h d a b t => some (encWord h (0x15#6 ++ t.code) (encRRR d a b 0#2))
  | .fabs h d a t => some (encWord h (0x16#6 ++ t.code) (encRRR d a 0#5 0#2))
  | .fneg h d a t => some (encWord h (0x17#6 ++ t.code) (encRRR d a 0#5 0#2))
  | .frcp h d a => some (encWord h 0x60#8 (encRRR d a 0#5 0#2))
  | .frsq h d a => some (encWord h 0x61#8 (encRRR d a 0#5 0#2))
  | .fex2 h d a => some (encWord h 0x62#8 (encRRR d a 0#5 0#2))
  | .flg2 h d a => some (encWord h 0x63#8 (encRRR d a 0#5 0#2))
  | .fsin h d a => some (encWord h 0x64#8 (encRRR d a 0#5 0#2))
  | .fcos h d a => some (encWord h 0x65#8 (encRRR d a 0#5 0#2))
  | .cvt h d a src dst sat r => some (encWord h (0x0D#5 ++ src.code) (encRRR d a (dst.code ++ BitVec.ofBool sat ++ 0#1) r.code))
  | .bra h x => some (encWord h 0x80#8 x)
  | .call h x => some (encWord h 0x81#8 x)
  | .fork h x => some (encWord h 0x85#8 x)
  | .sleep h x => some (encWord h 0x8A#8 x)
  | .cont h x => some (encWord h 0x8B#8 x)
  | .trap h x => some (encWord h 0x8D#8 x)
  | .escm h x => some (encWord h 0xAB#8 x)
  | .dbrk h x => some (encWord h 0xEE#8 x)
  | .brx h a => some (encWord h 0x82#8 (encRRR 0#5 a 0#5 0#2))
  | .callx h a => some (encWord h 0x83#8 (encRRR 0#5 a 0#5 0#2))
  | .resume h a => some (encWord h 0x8C#8 (encRRR 0#5 a 0#5 0#2))
  | .join h d => some (encWord h 0x86#8 (encRRR d 0#5 0#5 0#2))
  | .ret h => some (encWord h 0x84#8 0#17)
  | .yield h => some (encWord h 0x88#8 0#17)
  | .nop h => some (encWord h 0x89#8 0#17)
  | .fence h => some (encWord h 0xBC#8 0#17)
  | .quit h imm => some (encWord h 0x87#8 (encRI 0#5 imm))
  | .movs h d r => some (encWord h 0x8E#8 (encRI d r.code))
  | .movsw h d r => some (encWord h 0x8F#8 (encRI d r.code))
  | .movp h d r => some (encWord h 0xEC#8 (encRI d r.code))
  | .movpw h d r => some (encWord h 0xED#8 (encRI d r.code))
  | .pand h d a b na nb => some (encWord h 0x90#8 (encRRR (predCode d) (predCode a) (predCode b) (BitVec.ofBool nb ++ BitVec.ofBool na)))
  | .por h d a b na nb => some (encWord h 0x91#8 (encRRR (predCode d) (predCode a) (predCode b) (BitVec.ofBool nb ++ BitVec.ofBool na)))
  | .pxor h d a b na nb => some (encWord h 0x92#8 (encRRR (predCode d) (predCode a) (predCode b) (BitVec.ofBool nb ++ BitVec.ofBool na)))
  | .pnot h d a => some (encWord h 0x93#8 (encRRR (predCode d) (predCode a) 0#5 0#2))
  | .pmov h d a na => some (encWord h 0x94#8 (encRRR (predCode d) (predCode a) 0#5 (0#1 ++ BitVec.ofBool na)))
  | .pset h d bit => some (encWord h 0x95#8 (encRI (predCode d) bit.code))
  | .cmp h d a b t cc => some (encWord h (0x13#5 ++ t.code) (encRRR (predCode d) a b cc.code))
  | .ld h d b l e z => some (encWord h 0xA0#8 (encMEM d b l e z.code))
  | .ldf h d b l e z => some (encWord h 0xA8#8 (encMEM d b l e z.code))
  | .ldAcq h d b l e z => some (encWord h 0xAC#8 (encMEM d b l e z.code))
  | .casv h d b l e z => some (encWord h 0xAF#8 (encMEM d b l e z.code))
  | .rwl h d b l e z => some (encWord h 0xB9#8 (encMEM d b l e z.code))
  | .ldNarrow h d b l e t => some (encWord h 0xA1#8 (encMEM d b l e t.code))
  | .st h s b z => some (encWord h 0xA2#8 (encMEM s b 0#4 false z.code))
  | .stNarrow h s b z => some (encWord h 0xA3#8 (encMEM s b 0#4 false z.code))
  | .sts h s b z => some (encWord h 0xA6#8 (encMEM s b 0#4 false z.code))
  | .stsNarrow h s b z => some (encWord h 0xA7#8 (encMEM s b 0#4 false z.code))
  | .stf h s b z => some (encWord h 0xA9#8 (encMEM s b 0#4 false z.code))
  | .stRel h s b z => some (encWord h 0xAD#8 (encMEM s b 0#4 false z.code))
  | .lds h d b l z => some (encWord h 0xA4#8 (encMEM d b l false z.code))
  | .ldsNarrow h d b l t => some (encWord h 0xA5#8 (encMEM d b l false t.code))
  | .pref h b z => some (encWord h 0xAA#8 (encMEM 0#5 b 0#4 false z.code))
  | .ldv h d b l e wd => some (encWord h 0xAE#8 (encMEM d b l e (0#1 ++ BitVec.ofBool wd)))
  | .atomAdd h d b l e t => some (encWord h 0xB0#8 (encMEM d b l e t.code))
  | .atomAnd h d b l e t => some (encWord h 0xB1#8 (encMEM d b l e t.code))
  | .atomOr h d b l e t => some (encWord h 0xB2#8 (encMEM d b l e t.code))
  | .atomXor h d b l e t => some (encWord h 0xB3#8 (encMEM d b l e t.code))
  | .atomMin h d b l e t => some (encWord h 0xB4#8 (encMEM d b l e t.code))
  | .atomMax h d b l e t => some (encWord h 0xB5#8 (encMEM d b l e t.code))
  | .atomExch h d b l e t => some (encWord h 0xB6#8 (encMEM d b l e t.code))
  | .atomCas h d b l e t => some (encWord h 0xB7#8 (encMEM d b l e t.code))
  | .atomFadd h d b l e => some (encWord h 0xB8#8 (encMEM d b l e 0#2))
  | .atomOrdAdd h d b l e t => some (encWord h 0xC0#8 (encMEM d b l e t.code))
  | .atomOrdAnd h d b l e t => some (encWord h 0xC1#8 (encMEM d b l e t.code))
  | .atomOrdOr h d b l e t => some (encWord h 0xC2#8 (encMEM d b l e t.code))
  | .atomOrdXor h d b l e t => some (encWord h 0xC3#8 (encMEM d b l e t.code))
  | .atomOrdMin h d b l e t => some (encWord h 0xC4#8 (encMEM d b l e t.code))
  | .atomOrdMax h d b l e t => some (encWord h 0xC5#8 (encMEM d b l e t.code))
  | .atomOrdExch h d b l e t => some (encWord h 0xC6#8 (encMEM d b l e t.code))
  | .atomOrdCas h d b l e t => some (encWord h 0xC7#8 (encMEM d b l e t.code))
  | .atomOrdFadd h d b l e => some (encWord h 0xC8#8 (encMEM d b l e 0#2))
  | .redAdd h s b t => some (encWord h 0xC9#8 (encMEM s b 0#4 false t.code))
  | .redAnd h s b t => some (encWord h 0xCA#8 (encMEM s b 0#4 false t.code))
  | .redOr h s b t => some (encWord h 0xCB#8 (encMEM s b 0#4 false t.code))
  | .redXor h s b t => some (encWord h 0xCC#8 (encMEM s b 0#4 false t.code))
  | .redMin h s b t => some (encWord h 0xCD#8 (encMEM s b 0#4 false t.code))
  | .redMax h s b t => some (encWord h 0xCE#8 (encMEM s b 0#4 false t.code))
  | .redFadd h s b => some (encWord h 0xCF#8 (encMEM s b 0#4 false 0#2))
  | .valset h d a b strong => some (encWord h 0xBA#8 (encRRR (predCode d) a b (0#1 ++ BitVec.ofBool strong)))
  | .waitcSigned h d a b cc => some (encWord h 0xBB#8 (encRRR d a b cc.code))
  | .waitcUnsigned h d a b ge => some (encWord h 0xBE#8 (encRRR d a b (0#1 ++ BitVec.ofBool ge)))
  | .bar h lv m => some (encWord h 0xBD#8 (lv.code ++ BitVec.ofBool m ++ 0#14))
  | .tdset h x g k => some (encWord h 0xD0#8 (encENR x g k))
  | .tdget h x g k => some (encWord h 0xD1#8 (encENR x g k))
  | .mscl h x g k => some (encWord h 0xD3#8 (encENR x g k))
  | .tdinv h x => some (encWord h 0xD2#8 (encENG x 0#8 false))
  | .mzero h x k => some (encWord h 0xD4#8 (encENG x 0#8 k))
  | .mma h x y k => some (encWord h 0xD5#8 (encENG x y k))
  | .tmm h x y k => some (encWord h 0xD8#8 (encENG x y k))
  | .mdrn h x free p k => some (encWord h 0xD6#8 (encENG x (0#3 ++ BitVec.ofBool free ++ BitVec.ofNat 4 p.val) k))
  | .cpy h x y => some (encWord h 0xD7#8 (encENG x y false))
  | .twait h d a imm => some (encWord h 0xD9#8 (encRRI d a imm))
  | .flushc h t => some (encWord h 0xDA#8 t.code)
  | .wopen h d a b => some (encWord h 0xDB#8 (encRRR d a b 0#2))
  | .save h d a b => some (encWord h 0xE8#8 (encRRR d a b 0#2))
  | .rest h d a b => some (encWord h 0xE9#8 (encRRR d a b 0#2))
  | .keyld h d a b => some (encWord h 0xEA#8 (encRRR d a b 0#2))
  | .wrevoke h d b => some (encWord h 0xDC#8 (encRRR d 0#5 b 0#2))
  | .evict h d b => some (encWord h 0xEB#8 (encRRR d 0#5 b 0#2))
  | .monset h a b => some (encWord h 0xDD#8 (encRRR 0#5 a b 0#2))
  | .monrd h a b => some (encWord h 0xDE#8 (encRRR 0#5 a b 0#2))
  | .imx x => some (0b101111011111110#15 ++ x)
  | _ => none

end Sys2Proof
end

