-- ==== Sys2Proof/Machine/Fp.lean ====
section
/-! DEFINITION. Floating point (R110 to R122, R96): formats, exact values, one rounding, the special values. A finite value is an integer times a power of two, so sums and products are exact until they are rounded once. -/

namespace Sys2Proof.Machine

/-- A format of R110: exponent and mantissa widths, largest finite magnitude as bits, infinity (none in E4M3) and canonical NaN (R111). -/
structure Fmt where
  eb : Nat
  mb : Nat
  maxBits : Nat
  inf : Option Nat
  nan : Nat
  deriving DecidableEq, Repr

def Fmt.bias (f : Fmt) : Nat := 2 ^ (f.eb - 1) - 1
def Fmt.width (f : Fmt) : Nat := 1 + f.eb + f.mb

def fmt64 : Fmt := ⟨11, 52, 0x7FEFFFFFFFFFFFFF, some 0x7FF0000000000000, 0x7FF8000000000000⟩
def fmt32 : Fmt := ⟨8, 23, 0x7F7FFFFF, some 0x7F800000, 0x7FC00000⟩
def fmt16 : Fmt := ⟨5, 10, 0x7BFF, some 0x7C00, 0x7E00⟩
def fmtB16 : Fmt := ⟨8, 7, 0x7F7F, some 0x7F80, 0x7FC0⟩
def fmtE4M3 : Fmt := ⟨4, 3, 0x7E, none, 0x7F⟩
def fmtE5M2 : Fmt := ⟨5, 2, 0x7B, some 0x7C, 0x7E⟩

/-- A value: NaN, an infinity, or (-1)^neg * m * 2^e. -/
inductive FV where
  | nan
  | inf (neg : Bool)
  | fin (neg : Bool) (m : Nat) (e : Int)
  deriving DecidableEq, Repr

/-- The value of the low bits of `w` in a format (R110). -/
def Fmt.decode (f : Fmt) (w : Nat) : FV :=
  let mag := w % 2 ^ (f.eb + f.mb)
  let neg := w / 2 ^ (f.eb + f.mb) % 2 == 1
  let ex := mag / 2 ^ f.mb
  let ma := mag % 2 ^ f.mb
  if mag > f.maxBits then (if f.inf = some mag then .inf neg else .nan)
  else if ex = 0 then .fin neg ma (1 - (f.bias : Int) - f.mb)
  else .fin neg (2 ^ f.mb + ma) ((ex : Int) - f.bias - f.mb)

/-- Rounds `m / 2^sh` to an integer (R112). -/
def roundShift (r : Rnd) (neg : Bool) (m sh : Nat) : Nat :=
  let q := m / 2 ^ sh
  let rem := m % 2 ^ sh
  if rem = 0 then q else
  match r with
  | .rz => q
  | .ru => if neg then q else q + 1
  | .rd => if neg then q + 1 else q
  | .rn => if 2 * rem > 2 ^ sh then q + 1 else if 2 * rem < 2 ^ sh then q else q + q % 2

/-- The magnitude bits of `m * 2^e` rounded once to a format, as if its exponents went on (R112); above `maxBits`: overflow. -/
def Fmt.roundMag (f : Fmt) (r : Rnd) (neg : Bool) (m : Nat) (e : Int) : Nat :=
  if m = 0 then 0 else
  let emin : Int := 1 - (f.bias : Int)
  let q : Int := max ((Nat.log2 m : Int) + e - f.mb) (emin - f.mb)
  let n := if q ≤ e then m * 2 ^ (e - q).toNat else roundShift r neg m (q - e).toNat
  (q + f.mb - emin).toNat * 2 ^ f.mb + n

def Fmt.signBit (f : Fmt) (neg : Bool) : Nat := if neg then 2 ^ (f.eb + f.mb) else 0

/-- The overflow row of R114. -/
def Fmt.overflow (f : Fmt) (r : Rnd) (neg : Bool) : Nat :=
  let toInf := match r with
    | .rn => true
    | .rz => false
    | .ru => !neg
    | .rd => neg
  f.signBit neg + (if toInf then f.inf.getD f.nan else f.maxBits)

/-- A value rounded once to a format (R111, R112, R114). -/
def Fmt.pack (f : Fmt) (r : Rnd) : FV → Nat
  | .nan => f.nan
  | .inf neg => f.signBit neg + f.inf.getD f.nan
  | .fin neg m e =>
    let mag := f.roundMag r neg m e
    if mag > f.maxBits then f.overflow r neg else f.signBit neg + mag

/-- The signed integer m * 2^(e - lo) for lo at most e. -/
def alignTo (lo : Int) (neg : Bool) (m : Nat) (e : Int) : Int :=
  let v : Int := (m * 2 ^ (e - lo).toNat : Nat)
  if neg then -v else v

/-- The exact sum (R114); the sign of a zero depends on the rounding mode. -/
def FV.add (r : Rnd) : FV → FV → FV
  | .nan, _ => .nan
  | _, .nan => .nan
  | .inf a, .inf b => if a = b then .inf a else .nan
  | .inf a, .fin .. => .inf a
  | .fin .., .inf b => .inf b
  | .fin na ma ea, .fin nb mb eb =>
    if ma = 0 ∧ mb = 0 ∧ na = nb then .fin na 0 0 else
    let lo := min ea eb
    let t := alignTo lo na ma ea + alignTo lo nb mb eb
    if t = 0 then .fin (decide (r = .rd)) 0 0 else .fin (decide (t < 0)) t.natAbs lo

def FV.neg : FV → FV
  | .nan => .nan
  | .inf a => .inf !a
  | .fin a m e => .fin (!a) m e

/-- The exact product (R114). -/
def FV.mul : FV → FV → FV
  | .nan, _ => .nan
  | _, .nan => .nan
  | .inf a, .inf b => .inf (a != b)
  | .inf a, .fin b m _ => if m = 0 then .nan else .inf (a != b)
  | .fin a m _, .inf b => if m = 0 then .nan else .inf (a != b)
  | .fin a m e, .fin b n d => .fin (a != b) (m * n) (e + d)

def fpAdd (f : Fmt) (r : Rnd) (a b : Nat) : Nat := f.pack r (FV.add r (f.decode a) (f.decode b))
def fpSub (f : Fmt) (r : Rnd) (a b : Nat) : Nat := f.pack r (FV.add r (f.decode a) (f.decode b).neg)
def fpMul (f : Fmt) (r : Rnd) (a b : Nat) : Nat := f.pack r (FV.mul (f.decode a) (f.decode b))
/-- a * b + c, rounded once (R113). -/
def fpFma (f : Fmt) (r : Rnd) (a b c : Nat) : Nat :=
  f.pack r (FV.add r (FV.mul (f.decode a) (f.decode b)) (f.decode c))

/-- Order of two values that are not NaN: -0 equals +0 (R96). -/
def FV.cmp : FV → FV → Ordering
  | .inf a, .inf b => if a = b then .eq else if a then .lt else .gt
  | .inf a, _ => if a then .lt else .gt
  | _, .inf b => if b then .gt else .lt
  | .fin na ma ea, .fin nb mb eb =>
    let lo := min ea eb
    compare (alignTo lo na ma ea) (alignTo lo nb mb eb)
  | _, _ => .eq

def FV.isNan : FV → Bool
  | .nan => true
  | .inf _ => false
  | .fin .. => false

/-- R115: FMIN (`lo`) or FMAX of two operands' bits. -/
def fpPick (f : Fmt) (lo : Bool) (a b : Nat) : Nat :=
  let x := f.decode a
  let y := f.decode b
  if x.isNan && y.isNan then f.nan
  else if x.isNan then b
  else if y.isNan then a
  else match x.cmp y with
    | .lt => if lo then a else b
    | .gt => if lo then b else a
    | .eq =>
      let aneg := a / 2 ^ (f.eb + f.mb) % 2 == 1
      if aneg == lo then a else b

/-- R116. -/
def fpAbs (f : Fmt) (a : Nat) : Nat := if (f.decode a).isNan then f.nan else a % 2 ^ (f.eb + f.mb)
def fpNeg (f : Fmt) (a : Nat) : Nat :=
  if (f.decode a).isNan then f.nan
  else if a / 2 ^ (f.eb + f.mb) % 2 = 1 then a % 2 ^ (f.eb + f.mb) else a + 2 ^ (f.eb + f.mb)

/-- Applies a two-operand function to both elements of packed registers (R113). -/
def packed2 (g : Nat → Nat → Nat) (a b : Nat) : Nat :=
  g (a % 65536) (b % 65536) + 65536 * g (a / 65536 % 65536) (b / 65536 % 65536)
def packed1 (g : Nat → Nat) (a : Nat) : Nat := g (a % 65536) + 65536 * g (a / 65536 % 65536)
def packed3 (g : Nat → Nat → Nat → Nat) (a b c : Nat) : Nat :=
  g (a % 65536) (b % 65536) (c % 65536) + 65536 * g (a / 65536 % 65536) (b / 65536 % 65536) (c / 65536 % 65536)

/-- The format of an F-pipe type, and its packing. -/
def ftyFmt : FTy → Fmt
  | .f32 => fmt32
  | .f64 => fmt64
  | .f16 => fmt16
  | .bf16 => fmtB16
def ftyPacked : FTy → Bool
  | .f16 => true
  | .bf16 => true
  | .f32 => false
  | .f64 => false

def fty1 (t : FTy) (g : Fmt → Nat → Nat) (a : Nat) : Nat :=
  if ftyPacked t then packed1 (g (ftyFmt t)) a else g (ftyFmt t) a
def fty2 (t : FTy) (g : Fmt → Nat → Nat → Nat) (a b : Nat) : Nat :=
  if ftyPacked t then packed2 (g (ftyFmt t)) a b else g (ftyFmt t) a b
def fty3 (t : FTy) (g : Fmt → Nat → Nat → Nat → Nat) (a b c : Nat) : Nat :=
  if ftyPacked t then packed3 (g (ftyFmt t)) a b c else g (ftyFmt t) a b c

/-! ### Conversions (R118 to R122) -/

/-- The format of a floating CVT type. -/
def cvtFmt : CvtTy → Option Fmt
  | .f32 => some fmt32
  | .f64 => some fmt64
  | .f16 => some fmt16
  | .bf16 => some fmtB16
  | .e4m3 => some fmtE4M3
  | .e5m2 => some fmtE5M2
  | .i32 => none
  | .b32 => none

/-- The value rounded to an integer (R121). -/
def FV.toInt (r : Rnd) (neg : Bool) (m : Nat) (e : Int) : Int :=
  let v : Int := if 0 ≤ e then (m * 2 ^ e.toNat : Nat) else (roundShift r neg m (-e).toNat : Nat)
  if neg then -v else v

/-- R121: a floating value to .i32 or .b32. -/
def cvtToInt (signed sat : Bool) (r : Rnd) (x : FV) : Nat :=
  let lo : Int := if signed then -2147483648 else 0
  let hi : Int := if signed then 2147483647 else 4294967295
  let bad : Nat := if signed then 0x80000000 else 0xFFFFFFFF
  let wrap (v : Int) : Nat := (v % 4294967296).toNat
  match x with
  | .nan => if sat then 0 else bad
  | .inf neg => if sat then wrap (if neg then lo else hi) else bad
  | .fin neg m e =>
    let v := FV.toInt r neg m e
    if lo ≤ v ∧ v ≤ hi then wrap v
    else if sat then wrap (if v < lo then lo else hi) else bad

/-- R120: a value to E4M3 or E5M2. -/
def cvtTo8 (f : Fmt) (sat : Bool) (x : FV) : Nat :=
  let overflowed (neg : Bool) : Nat :=
    if sat then f.signBit neg + f.maxBits
    else match f.inf with
      | some i => f.signBit neg + i
      | none => f.nan
  match x with
  | .nan => f.nan
  | .inf neg => overflowed neg
  | .fin neg m e =>
    let mag := f.roundMag .rn neg m e
    if mag > f.maxBits then overflowed neg else f.signBit neg + mag

/-- CVT (R118 to R122) on the source's bits. -/
def cvtValue (src dst : CvtTy) (sat : Bool) (r : Rnd) (a : Nat) : Nat :=
  let x : FV := match src with
    | .i32 => let v := if a % 2 ^ 32 < 2 ^ 31 then ((a % 2 ^ 32 : Nat) : Int) else ((a % 2 ^ 32 : Nat) : Int) - 2 ^ 32
              .fin (decide (v < 0)) v.natAbs 0
    | .b32 => .fin false (a % 2 ^ 32) 0
    | .f32 => fmt32.decode a
    | .f64 => fmt64.decode a
    | .f16 => fmt16.decode (a % 65536)
    | .bf16 => fmtB16.decode (a % 65536)
    | .e4m3 => fmtE4M3.decode (a % 256)
    | .e5m2 => fmtE5M2.decode (a % 256)
  match dst with
  | .f32 => fmt32.pack r x
  | .f64 => fmt64.pack r x
  | .f16 => fmt16.pack r x
  | .bf16 => fmtB16.pack r x
  | .e4m3 => cvtTo8 fmtE4M3 sat x
  | .e5m2 => cvtTo8 fmtE5M2 sat x
  | .i32 => if src = .b32 then (if sat && decide (a % 2 ^ 32 ≥ 2 ^ 31) then 0x7FFFFFFF else a % 2 ^ 32) else cvtToInt true sat r x
  | .b32 => if src = .i32 then (if sat && decide (a % 2 ^ 32 ≥ 2 ^ 31) then 0 else a % 2 ^ 32) else cvtToInt false sat r x

end Sys2Proof.Machine
end

