-- ==== Sys2Proof/Machine/Translate.lean ====
section
/-! DEFINITION. Virtual addresses and page tables (R123 to R127), instruction fetch (R8), and the scratchpad address checks (R151, R241, R11). The walk reads the tables as they stand: the cached entries of R128 are empty at every step (DESIGN CHOICE, log 13). -/

namespace Sys2Proof.Machine

/-- A leaf that a walk found (R125), with where its entry lies and how many address bits it maps. -/
structure Leaf where
  pa : Nat
  mode : Nat
  hb : Bool
  sa : Bool
  pr : Bool
  ro : Bool
  gen : Nat
  win : Nat
  peer : Nat
  entry : Nat
  sizeBits : Nat
  deriving DecidableEq, Repr

/-- The outcome of a translation (R127): a leaf, TRANSLATE with its reason, or a table entry that is poisoned (R140). -/
inductive Tr where
  | ok (l : Leaf)
  | fail (reason : Nat)
  | poison
  deriving DecidableEq, Repr

def State.poisoned (s : State) (loc n : Nat) : Bool := s.poison.any fun g => overlap (16 * g) 16 loc n

/-- A leaf entry at level `lv` (1 to 3) that maps `k` address bits: R125, R126. (DEDUCED, log 37) -/
def decodeLeaf (e entry k : Nat) : Option Leaf :=
  let mode := bits e 7 6
  let ro := bits e 2 2 == 1
  let pr := bits e 3 3 == 1
  let hb := bits e 5 5 == 1
  let sa := bits e 4 4 == 1
  if bits e 15 8 ≠ 0 then none
  else if mode = 0 then
    let pa := bits e 51 16 * 65536
    if bits e 63 52 ≠ 0 then none
    else if pa % 2 ^ k ≠ 0 then none
    else if sa && !hb then none
    else if pa ≥ hostBase then some ⟨pa, 0, hb, sa, pr, ro, 0, 0, 0, entry, k⟩
    else if pa + 2 ^ k ≤ dramLimit then some ⟨pa, 0, hb, sa, pr, ro, 0, 0, 0, entry, k⟩
    else none
  else if hb || sa then none
  else if mode ≠ 3 ∧ bits e 63 54 ≠ 0 then none
  else some ⟨0, mode, false, false, pr, ro, bits e 53 38, bits e 37 26, bits e 25 16, entry, k⟩

/-- The pointer of an entry with L = 0 at level `lv`; none: malformed (R125, R126). -/
def decodeNext (e lv : Nat) : Option Nat :=
  let next := bits e 40 8 * 256
  if bits e 63 41 ≠ 0 ∨ bits e 7 2 ≠ 0 then none
  else if next ≥ dramLimit then none
  else if lv < 2 ∧ next % 4096 ≠ 0 then none
  else some next

/-- The walk from level `lv` on; `ls` lists the shift and width of the levels left. -/
def walkFrom (s : State) (va : Nat) : Nat → Nat → List (Nat × Nat) → Tr
  | _, _, [] => .fail 2
  | lv, table, (sh, w) :: ls =>
    let entry := table + 8 * (va / 2 ^ sh % 2 ^ w)
    if s.poisoned entry 8 then .poison else
    let e := s.mem.read entry 8
    if bits e 0 0 = 0 then .fail 1
    else if bits e 1 1 = 1 then
      (if lv = 0 then .fail 2
       else match decodeLeaf e entry sh with
         | some l => .ok l
         | none => .fail 2)
    else if ls = [] then .fail 2
    else match decodeNext e lv with
      | some t => walkFrom s va (lv + 1) t ls
      | none => .fail 2

/-- R123, R124, R127: translation of a virtual address in tenancy `t`. A table that ROOT or NEXT places outside device memory, or inside the attribute table, is read as memory holds it (DESIGN CHOICE, log 108). -/
def State.translate (s : State) (t va : Nat) : Tr :=
  let root := s.reg (offAsroot t)
  if !root.getLsbD 0 then .fail 1
  else if va ≥ 2 ^ 52 then .fail 3
  else walkFrom s va 0 (bits root.toNat 40 16 * 65536) [(39, 13), (30, 9), (21, 9), (16, 5)]

/-- The entries that a walk reads (R127), as `walkFrom` goes. -/
def entriesFrom (s : State) (va : Nat) : Nat → Nat → List (Nat × Nat) → List Nat
  | _, _, [] => []
  | lv, table, (sh, w) :: ls =>
    let entry := table + 8 * (va / 2 ^ sh % 2 ^ w)
    let e := s.mem.read entry 8
    if s.poisoned entry 8 ∨ bits e 0 0 = 0 ∨ bits e 1 1 = 1 then [entry]
    else match decodeNext e lv with
      | some t => entry :: entriesFrom s va (lv + 1) t ls
      | none => [entry]

def State.walkPath (s : State) (t va : Nat) : List Nat :=
  let root := s.reg (offAsroot t)
  if !root.getLsbD 0 || decide (2 ^ 52 ≤ va) then []
  else entriesFrom s va 0 (bits root.toNat 40 16 * 65536) [(39, 13), (30, 9), (21, 9), (16, 5)]

/-- The leaves of a table at level `lv` whose first byte has address `va0`, among those that map addresses from `lo` to `hi` - 1: (first address, leaf) pairs. An entry that is invalid, malformed or poisoned maps nothing. -/
def leavesFrom (s : State) (lo hi : Nat) : Nat → Nat → Nat → List (Nat × Nat) → List (Nat × Leaf)
  | _, _, _, [] => []
  | va0, lv, table, (sh, w) :: ls =>
    (List.range (2 ^ w)).flatMap fun i =>
      let va := va0 + i * 2 ^ sh
      let entry := table + 8 * i
      if va + 2 ^ sh ≤ lo ∨ hi ≤ va ∨ s.poisoned entry 8 then [] else
      let e := s.mem.read entry 8
      if bits e 0 0 = 0 then []
      else if bits e 1 1 = 1 then
        (if lv = 0 then [] else match decodeLeaf e entry sh with
          | some l => [(va, l)]
          | none => [])
      else if ls.isEmpty then []
      else match decodeNext e lv with
        | some t => leavesFrom s lo hi va (lv + 1) t ls
        | none => []

/-- The valid leaves of a tenancy that map addresses from `lo` to `hi` - 1. -/
def State.leaves (s : State) (t lo hi : Nat) : List (Nat × Leaf) :=
  let root := s.reg (offAsroot t)
  if root.getLsbD 0 then leavesFrom s lo hi 0 0 (bits root.toNat 40 16 * 65536) [(39, 13), (30, 9), (21, 9), (16, 5)] else []

/-- The device's own peer number (R269), when it holds one. -/
def State.ownPeer (s : State) : Option Nat :=
  let r := s.reg offFabid
  if r.getLsbD 10 then some (bits r.toNat 9 0) else none

/-- Where an address lies under its leaf (R126, R284: the device's own number names the group WIN). -/
def State.destOf (s : State) (l : Leaf) (va : Nat) : Dest :=
  if l.mode = 0 then .home (l.pa + va % 2 ^ l.sizeBits)
  else .peer (decide (s.ownPeer = some l.peer)) (if s.ownPeer = some l.peer then l.win else l.peer) l.win l.gen va

/-- Bytes of the launch window, wherever LWIN.OFF puts it (R26). -/
def State.onWindow (s : State) (loc n : Nat) : Bool := overlap (bits (s.reg offLwin).toNat 63 13 * 8192) 8192 loc n
/-- The pages of the live launch window (R26): in host bias whatever a leaf requests (R143). -/
def State.inWindow (s : State) (loc n : Nat) : Bool := (s.reg offLwin).getLsbD 0 && s.onWindow loc n

/-- Bias of a device location's page (R143): the launch window's pages are in host bias while LWIN.EN = 1. -/
def State.hostBias (s : State) (loc : Nat) : Bool :=
  (s.page loc).hostBias || s.inWindow (loc / 65536 * 65536) 65536

/-- A word of code (R6, R8): the word, or the decode cause 0x0E, 0x17 or 0x18, the last for poisoned bytes, though R140 does not name a fetch (DESIGN CHOICE, log 38) (DESIGN CHOICE, log 93). -/
def State.fetch (s : State) (t : Nat) (prot : Bool) (va : DWord) : Except Nat Word :=
  match s.translate t va.toNat with
  | .ok l =>
    if !l.ro || (l.mode ≠ 0 && l.mode ≠ 2) then .error 0x0E
    else if l.pr && !prot then .error 0x17
    else if l.mode = 0 then
      let loc := l.pa + va.toNat % 2 ^ l.sizeBits
      if s.poisoned loc 4 then .error 0x18
      else .ok (BitVec.ofNat 32 (s.mem.read loc 4))
    else .ok (BitVec.ofNat 32 (s.peerCode.read (l.peer * 2 ^ 52 + va.toNat) 4))
  | .fail _ => .error 0x0E
  | .poison => .error 0x18

/-- R151 (and R241, with bit 63 already taken off): the scratchpad location of an access of `n` bytes, or cause 0x14. -/
def State.spadDest (s : State) (k : FKey) (a n : Nat) : Except Nat Nat :=
  let h := s.share k.share
  let r := (s.ctx h.ctx).lrec
  let i := bits a 22 20
  if a ≥ 2 ^ 23 ∨ i ≥ r.s * r.w ∨ a % 2 ^ 20 + n > r.spad then .error 0x14
  else .ok (spadLoc ((h.c0 + i) * 4 + (match s.shares.find? (fun e => e.1 / 4 == h.c0 + i && e.2.ctx == h.ctx && e.2.pid == h.pid) with
    | some e => e.1 % 4
    | none => k.k)) (a % 2 ^ 20))

/-- R11: full/empty operations are permitted on the own household and on those of the next stage. -/
def State.fullEmptyOk (s : State) (k : FKey) (a : Nat) : Bool :=
  let h := s.share k.share
  let r := (s.ctx h.ctx).lrec
  let i := bits a 22 20
  i == h.hid || i / r.w == h.hid / r.w + 1

end Sys2Proof.Machine
end

