-- ==== Sys2Proof/Machine/Lines.lean ====
section
/-! DEFINITION. Halts and machine checks (R311, R365), and the lines that slices and L1s hold (R131 to R139). The ordering machine holds the data (R217): a line here is what the hardware keeps about it. -/

namespace Sys2Proof.Machine

/-! ### Halts (R311) and machine checks (R365) -/

/-- The dies of a context's fibres that wait in FENCE or BAR. -/
def State.fencesOf (s : State) (c : Nat) : List Nat :=
  (s.fibres.filter fun f => decide (s.ctxOf f.key = c) && f.waitsFor fun w => w.isFence || w.isBar).map fun f => f.key.die

/-- A fatal fault asserts the halt line of context `c` (R311): no fibre of it issues again. A fault raised while it halts only adds its own report. -/
def State.halt (s : State) (c : Nat) (i : HaltInfo) : State :=
  match s.ctxs.get? c with
  | none => s
  | some x =>
    match x.halting with
    | some h => { s with ctxs := s.ctxs.set c { x with halting := some { h with infos := h.infos ++ [i] } } }
    | none =>
      { s with
        ctxs := s.ctxs.set c { x with st := 6, halting := some ⟨[i], s.fencesOf c, []⟩ }
        fibres := s.fibres.map fun f => if s.ctxOf f.key = c then f.freeze else f
        flocks := s.flocks.filter fun g => !decide ((s.share g.sh).ctx = c) }

def offTrst (t : Nat) : Nat := 0xF000 + 8 * t
def offMcstat : Nat := 0xF080

/-- A machine check (R365): MCSTAT, the halts with cause 0x28, and vector 255 of the tenancies concerned. (DEDUCED, log 35) -/
def State.machineCheck (s : State) (kind die slice c : Nat) : State :=
  let s := s.setReg offMcstat (BitVec.ofNat 64 (die * 2 ^ 24 + (if kind = 1 then slice * 2 ^ 16 else 0) + (if kind = 2 then c * 2 ^ 7 else 0) + kind))
  if kind = 1 then
    let s : State := { s with frozen := (die * 64 + slice) :: s.frozen.filter fun x => x ≠ die * 64 + slice }
    let s := (s.ctxs.filter fun e => e.2.st ≠ 6).foldl (fun s e => s.halt e.1 ⟨16, 0x28, 0#64, none, 0⟩) s
    (List.range 8).foldl (fun s t => if (s.reg (offTrows t)).toNat % 2 ^ 32 = 0 then s else s.emit (.msix (256 * t + 255))) s
  else (s.halt c ⟨16, 0x28, 0#64, none, 0⟩).emit (.msix (256 * (s.ctx c).ten + 255))

/-! ### Words and sectors of a line (R130, R137) -/

/-- The words of line `ln` that `n` bytes at `loc` cover whole, or touch. -/
def wordMask (whole : Bool) (ln loc n : Nat) : BitVec 64 :=
  BitVec.ofNat 64 ((List.range 64).foldl (fun a w =>
    let b := 256 * ln + 4 * w
    if (if whole then decide (loc ≤ b) && decide (b + 4 ≤ loc + n) else overlap b 4 loc n) then a + 2 ^ w else a) 0)

/-- The sectors of which `p` holds, of the 16 words of each. -/
def sectorsOf (p : List Bool → Bool) (m : BitVec 64) : BitVec 4 :=
  BitVec.ofNat 4 ((List.range 4).foldl (fun a i => if p ((List.range 16).map fun j => m.getLsbD (16 * i + j)) then a + 2 ^ i else a) 0)
/-- The sectors that hold a word of the mask. -/
def anySector (m : BitVec 64) : BitVec 4 := sectorsOf (fun l => l.any id) m
/-- The sectors all of whose words are in the mask. -/
def allSector (m : BitVec 64) : BitVec 4 := sectorsOf (fun l => l.all id) m

/-- A write merges into a line (R137): a word written in part fills its sector first. -/
def Line.merge (l : Line) (whole touched : BitVec 64) : Line :=
  let mask := l.mask ||| touched
  { l with
    valid := l.valid ||| anySector (touched &&& ~~~whole) ||| allSector mask
    dirty := l.dirty ||| anySector touched
    mask := mask }

/-- Lines that `n` bytes at `loc` touch. -/
def lineCount (loc n : Nat) : Nat := if n = 0 then 0 else (loc + n - 1) / 256 - loc / 256 + 1

/-- A line of device or host memory that a slice holds: one of a page in host bias is not (R144). -/
def State.inSlice (s : State) (loc : Nat) : Bool := !isSpad loc && !(isDram loc && s.hostBias loc)

/-! ### The L1 of a share (R131, R132) -/

/-- The number of a peer's line in an L1, apart from every line of the package. -/
def remoteLine (p va : Nat) : Nat := 2 ^ 60 + (p * 2 ^ 52 + va) / 256

/-- Lines that the L1 of a share can hold: its region of R46. -/
def State.l1Lines (s : State) (sh : Nat) : Nat := 8 * ((s.share sh).bndc - (s.share sh).bndb)

def State.l1Line? (s : State) (sh line : Nat) : Option L1Line := s.l1.find? fun e => decide (e.share = sh ∧ e.line = line)
def State.l1Drop (s : State) (sh line : Nat) : State := { s with l1 := s.l1.filter fun e => !decide (e.share = sh ∧ e.line = line) }
def State.l1Set (s : State) (e : L1Line) : State :=
  if (s.l1Line? e.share e.line).isSome then { s with l1 := s.l1.map fun x => if x.share = e.share ∧ x.line = e.line then e else x }
  else { s with l1 := s.l1 ++ [e] }

/-- A plain store of whole words to a page that an L1 holds: it is a dirty word of its line until it is written back (R132, R231). (DEDUCED, log 19) -/
def BufWrite.dirtyIn (w : BufWrite) (line : Nat) : Bool :=
  w.cached && !w.rel && decide (4 ≤ w.n) && (match w.kind, w.dest with
    | .store _, .home l => decide (l / 256 = line)
    | _, _ => false)

/-- The words of a line that a buffered write makes dirty. -/
def BufWrite.words (w : BufWrite) (line : Nat) : BitVec 64 :=
  match w.dest with
  | .home l => if w.dirtyIn line then wordMask true line l w.n else 0#64
  | .peer .. => 0#64

/-- The dirty words of an L1 line (R131): its own when it is owned, else the plain words that the share's fibres hold in write buffers (R231). -/
def State.l1Dirty (s : State) (e : L1Line) : BitVec 64 :=
  if e.owned then e.mask
  else (s.fibres.filter fun f => f.key.share = e.share).foldl (fun m f => f.wb.foldl (fun m w => m ||| w.words e.line) m) 0#64

/-- The owner of a line gives it up (R133): the slice takes its dirty words; for a plain read it keeps a clean unowned copy. -/
def State.recall (s : State) (line : Nat) (keep : Bool) : State :=
  match s.lines.get? line with
  | none => s
  | some l =>
    match l.owner with
    | none => s
    | some (sh, _) =>
      match s.l1Line? sh line with
      | none => { s with lines := s.lines.set line { l with owner := none } }
      | some e =>
        let s : State := { s with lines := s.lines.set line { l.merge e.mask e.mask with owner := none } }
        if keep then s.l1Set { e with owned := false, mask := 0#64 } else s.l1Drop sh line

/-- Every owner recalled and every copy dropped, in all L1s, of the lines that satisfy `p`: a retirement, a flip, an invalidation. -/
def State.l1Clear (s : State) (p : Nat → Bool) : State :=
  let s := ((s.l1.filter fun e => e.owned && p e.line).map fun e => e.line).foldl (fun (s : State) l => s.recall l false) s
  { s with l1 := s.l1.filter fun e => !p e.line }

/-- A share's L1 gives up every line, and the fills that PREFs have started: its share is released. -/
def State.l1Leave (s : State) (sh : Nat) : State :=
  let s := ((s.l1.filter fun e => e.owned && decide (e.share = sh)).map fun e => e.line).foldl (fun (s : State) l => s.recall l false) s
  { s with l1 := s.l1.filter fun e => e.share ≠ sh, reqs := s.reqs.filter fun r => !decide (r.share = sh ∧ r.kind = .pref) }

/-- The invalidation of an acquire (R135): unowned lines go, but for those of pages with RO = 1. -/
def State.l1Acquire (s : State) (sh : Nat) : State :=
  { s with l1 := s.l1.filter fun e => !decide (e.share = sh) || e.owned || e.ro }

/-- The L1 of a share has room for one more line. -/
def State.l1Roomy (s : State) (sh : Nat) : Bool := decide ((s.l1.filter fun e => e.share = sh).length < s.l1Lines sh)

/-- Room for one more line in an L1: the line filled first that holds no dirty word leaves, or else the owned line filled first, whose words its slice takes. A line with dirty words of its own is never evicted before their write-back: where every line holds some, there is no room (DESIGN CHOICE, log 84). -/
def State.l1Room (s : State) (sh : Nat) : State :=
  if s.l1Roomy sh then s else
  let mine := s.l1.filter fun e => e.share = sh
  match (mine.find? fun e => s.l1Dirty e == 0#64).orElse fun _ => mine.find? fun e => e.owned with
  | some e => (if e.owned then s.recall e.line false else s).l1Drop sh e.line
  | none => s

/-- Sectors become valid in a share's L1. An L1 without lines, or without room, holds nothing more. -/
def State.l1Fill (s : State) (sh line : Nat) (valid : BitVec 4) (ro : Bool) : State :=
  if s.l1Lines sh = 0 then s else
  match s.l1Line? sh line with
  | some e => s.l1Set { e with valid := e.valid ||| valid }
  | none => if (s.l1Room sh).l1Roomy sh then (s.l1Room sh).l1Set ⟨sh, line, valid, false, 0#64, ro, []⟩ else s

/-- The sector of a peer's line that a load of a mode-10 page brings comes into the L1 (R131, R132). -/
def State.l1Load (s : State) (sh p va : Nat) (ro : Bool) (bs : List Byte) : State :=
  let line := remoteLine p va
  let s := s.l1Fill sh line (anySector (wordMask false (va / 256) va bs.length)) ro
  match s.l1Line? sh line with
  | some e => s.l1Set { e with bytes := e.bytes.writeBytes va bs }
  | none => s

/-- Every sector of `n` bytes at a peer's address is valid in an L1 line. -/
def L1Line.holds (e : L1Line) (va n : Nat) : Bool :=
  let m := anySector (wordMask false (va / 256) va n)
  e.valid &&& m == m

/-- A load of `n` bytes at `loc` is satisfied by the share's L1 (R132): every word is dirty there or lies in a valid sector. -/
def State.l1Hit (s : State) (sh loc n : Nat) : Bool :=
  match s.l1Line? sh (loc / 256) with
  | some e => (List.range 64).all fun i => !(wordMask false (loc / 256) loc n).getLsbD i || (s.l1Dirty e).getLsbD i || e.valid.getLsbD (i / 16)
  | none => false

/-! ### The peer predictor (R136) -/

def predictKey (k : FKey) (va : Nat) : Nat := 64 * k.share + bits va 21 16
/-- The column after one, the cluster's own skipped. -/
def nextColumn (c col : Nat) : Nat := if (col + 1) % 8 = c % 8 then (col + 2) % 8 else (col + 1) % 8
/-- The predicted cluster of the row; at first the one in the next column (DESIGN CHOICE, log 84). -/
def State.predicted (s : State) (k : FKey) (va : Nat) : Nat := k.c / 8 * 8 + s.predict.getD (predictKey k va) (nextColumn k.c (k.c % 8))

/-- A miss on a page with RO = 1 probes the L1s of the predicted cluster's shares of the tenancy: the line that answers, if any. A line of a page with RO = 0 never does. -/
def State.probe (s : State) (k : FKey) (va : Nat) (ok : L1Line → Bool) : Option L1Line :=
  s.l1.find? fun e => decide (e.share / 4 = s.predicted k va ∧ (s.share e.share).ten = s.tenOf k) && e.ro && ok e

/-- The predictor after a probe: it keeps its column on a hit, and goes to the next one on a miss. -/
def State.predictNext (s : State) (k : FKey) (va : Nat) (hit : Bool) : State :=
  if hit then s else { s with predict := s.predict.set (predictKey k va) (nextColumn k.c (s.predicted k va % 8)) }

/-! ### Lines of the slices (R133, R137 to R139) -/

/-- A line leaves its slice (R138, R139): its owner is recalled, its version is dropped, and the slice's floor passes it. -/
def State.dropLine (s : State) (line : Nat) : State :=
  match (s.recall line false).lines.get? line with
  | none => s
  | some l =>
    let s := s.recall line false
    let sl := s.homeSlice (line * 256)
    let f := max (s.floor sl) (l.version + 1)
    if 2 ^ 48 ≤ f then s.machineCheck 1 (sl / 64) (sl % 64) 0
    else { s with lines := s.lines.del line, floors := s.floors.set sl f }

/-- The lines that a slice holds, those filled first in front. -/
def State.sliceLines (s : State) (sl : Nat) : List (Nat × Line) :=
  s.lines.filter fun e => s.inSlice (256 * e.1) && decide (s.homeSlice (256 * e.1) = sl)

/-- The line is filled into its slice, at its floor, where it is absent (R138). A full slice evicts the line filled first: no pin is held between steps (R137, R139, R208) (DESIGN CHOICE, log 84). -/
def State.fillLine (s : State) (line : Nat) : State :=
  if (s.lines.get? line).isSome then s else
  let held := s.sliceLines (s.homeSlice (256 * line))
  let s := if s.inSlice (256 * line) && decide (8192 ≤ held.length) then (match held.head? with
      | some e => s.dropLine e.1
      | none => s) else s
  { s with lines := s.lines.set line (s.line (256 * line)) }

/-- The slice of a line applies no further write: its version is at its limit, or a machine check froze it (R138, R365). -/
def State.sliceStops (s : State) (loc : Nat) : Bool :=
  !isSpad loc && (s.frozen.contains (s.homeSlice loc) || decide (2 ^ 48 ≤ (s.line loc).version + 1))

/-- The share that owns a line. -/
def State.ownerOf (s : State) (line : Nat) : Option Nat := ((s.lines.get? line).bind fun l => l.owner).map Prod.fst

/-- A write of `n` bytes at `loc` reaches line `line`: in the L1 that owns it, if the write comes from that share; else at the slice, the owner recalled (R132, R133). The version rises by 1 where the write counts as an event of its own (R138). -/
def State.writeLine (s : State) (line loc n : Nat) (own : Option Nat) (counts : Bool) : State :=
  let whole := wordMask true line loc n
  let touched := wordMask false line loc n
  let s := s.fillLine line
  let up (l : Line) : Line := { l with version := if counts then l.version + 1 else l.version }
  match s.ownerOf line with
  | some sh =>
    if own = some sh then
      let s : State := { s with lines := s.lines.set line (up (s.line (256 * line))) }
      { s with l1 := s.l1.map fun e => if e.share = sh ∧ e.line = line then { e with
          mask := e.mask ||| touched, valid := e.valid ||| anySector (touched &&& ~~~whole) ||| allSector (e.mask ||| touched) } else e }
    else
      let s := s.recall line false
      { s with lines := s.lines.set line (up ((s.line (256 * line)).merge whole touched)) }
  | none =>
    if s.inSlice (256 * line) then { s with lines := s.lines.set line (up ((s.line (256 * line)).merge whole touched)) }
    else { s with lines := s.lines.set line (up (s.line (256 * line))) }

/-- A write reaches the `i` lines from line `line` on. -/
def State.writeLines (s : State) (line loc n : Nat) (own : Option Nat) (counts : Bool) : Nat → State
  | 0 => s
  | i + 1 => (s.writeLine line loc n own counts).writeLines (line + 1) loc n own counts i

/-- A read reaches a line's slice: the owner is recalled unless it reads itself, and the sectors read are filled (R133, R137). -/
def State.readLine (s : State) (loc n : Nat) (own : Option Nat) (keep : Bool) : State :=
  let line := loc / 256
  if !s.inSlice loc then s else
  let s := s.fillLine line
  if (s.ownerOf line).isSome && decide (own = s.ownerOf line) then s else
  let s := s.recall line keep
  let l := s.line loc
  { s with lines := s.lines.set line { l with valid := l.valid ||| anySector (wordMask false line loc n) } }

/-- A share's L1 obtains ownership of a line (R133). The directory of the home slice holds 4,096 grants: a full one recalls the grant made first. -/
def State.grantLine (s : State) (sh line : Nat) : State :=
  if s.ownerOf line = some sh ∨ s.l1Lines sh = 0 then s else
  let s := (s.fillLine line).recall line false
  let sl := s.homeSlice (256 * line)
  let dir := (s.sliceLines sl).filter fun e => e.2.owner.isSome
  let s := if dir.length < 4096 then s else
    match dir.foldl (fun (b : Option (Nat × Nat)) e => match e.2.owner, b with
        | some (_, g), some (_, h) => if g < h then some (e.1, g) else b
        | some (_, g), none => some (e.1, g)
        | none, _ => b) none with
    | some (ln, _) => s.recall ln false
    | none => s
  let s := s.l1Fill sh line 15#4 false
  let s := s.bump
  { s with
    lines := s.lines.set line { s.line (256 * line) with owner := some (sh, s.serial) }
    l1 := s.l1.map fun e => if e.share = sh ∧ e.line = line then { e with owned := true } else e }

/-- Every device copy of a page is written back and invalidated, in every L1 and slice (R145). The versions that the model keeps for lines outside a slice, those of a page in host bias, are dropped in the same way (R138). -/
def State.leavePage (s : State) (page : Nat) : State :=
  let s := s.l1Clear fun l => decide (l / 256 = page)
  ((s.lines.filter fun e => decide (e.1 / 256 = page)).map Prod.fst).foldl (fun (s : State) l => s.dropLine l) s

end Sys2Proof.Machine
end

