-- ==== Sys2Proof/Machine/Order.lean ====
section
/-! DEFINITION. The ordering machine (R217 to R239): views, reads at an instant, write buffers, apply queues, read-modify-writes, carts and plane channels, and the remote-fault queue (R276 to R281). -/

namespace Sys2Proof.Machine

/-! ### Views (R219) -/

def View.join (a b : View) : View := ⟨max a.upTo b.upTo, a.wids ++ b.wids.filter fun w => !a.wids.contains w⟩
/-- The view also names write `w`. -/
def View.name (a : View) (w : Nat) : View := if a.wids.contains w then a else { a with wids := w :: a.wids }
def View.joinOpt (a : View) : Option View → View
  | some b => a.join b
  | none => a

/-! ### Stamps (R224) -/

/-- KN_d[e]. -/
def State.knOf (s : State) (d e : Nat) : Nat := s.kn.getD (4 * d + e) 0
/-- KN_d. -/
def State.stampOf (s : State) (d : Nat) : List Nat := (List.range 4).map fun e => s.knOf d e
/-- A reply with this stamp reaches die `d`. -/
def State.learn (s : State) (d : Nat) (stamp : List Nat) : State :=
  { s with kn := stamp.zipIdx.foldl (fun (t : Tab Nat) p => t.upd (4 * d + p.2) 0 (max p.1)) s.kn }
/-- APF_e: every write of die `e` up to this number has been applied. The copies of the other dies are current at every step (DESIGN CHOICE, log 85). -/
def State.apf (s : State) (e : Nat) : Nat :=
  (s.aq.filter fun w => w.sdie = e).foldl (fun m w => min m (w.num - 1)) (s.knOf e e)

/-- A write from die `d` enters the apply queue of its home die, with its number and its stamp (R218, R224). -/
def State.enterAq (s : State) (d : Nat) (src : Src) (wid loc n : Nat) (kind : WKind) (view : Option View) (sa : Bool) (grp : Nat) (merged : Bool) : State :=
  let s : State := { s with kn := s.kn.upd (4 * d + d) 0 (· + 1) }
  { s with aq := s.aq ++ [⟨homeDie loc, src, wid, loc, n, kind, view, d, s.knOf d d, s.stampOf d, sa, none, grp, merged⟩] }

/-! ### Atomic operations (R244) -/

/-- The word after an atomic and whether it is written, for W bits. `v` is the operand (the new value of cas), `e` what cas expects. -/
def atomNew (op : AOp) (signed wide : Bool) (m v e : Nat) : Nat × Bool :=
  let W := if wide then 64 else 32
  let mm := m % 2 ^ W
  let vv := v % 2 ^ W
  let less := if signed then decide (signedOf W mm < signedOf W vv) else decide (mm < vv)
  match op with
  | .add => ((mm + vv) % 2 ^ W, true)
  | .and => (mm &&& vv, true)
  | .or => (mm ||| vv, true)
  | .xor => (mm ^^^ vv, true)
  | .min => (if less then mm else vv, true)
  | .max => (if less then vv else mm, true)
  | .exch => (vv, true)
  | .cas => if mm = e % 2 ^ W then (vv, true) else (mm, false)
  | .fadd => (fpAdd fmt32 .rn mm vv, true)

/-- R247: the lock word after an attempt. -/
def rwlNew (op : RwlOp) (counted : Bool) (m : Nat) : Nat :=
  let w := bits m 31 31
  let p := bits m 30 30
  let ww := bits m 29 16
  let rd := bits m 15 0
  match op with
  | .rd => if w = 0 ∧ rd < 65535 ∧ ¬ (p = 1 ∧ ww > 0) then m + 1 else m
  | .wr =>
    if w = 0 ∧ rd = 0 then m + 2 ^ 31 - (if counted ∧ ww > 0 then 2 ^ 16 else 0)
    else if !counted ∧ ww < 16383 then m + 2 ^ 16 else m
  | .rel => if w = 1 then m - 2 ^ 31 else if rd > 0 then m - 1 else m

/-- The condition of WAITC (R253). -/
def waitcCond (signed : Bool) (cc : CC) (u v : Nat) : Bool :=
  match cc with
  | .eq => u % 2 ^ 32 == v % 2 ^ 32
  | .ne => u % 2 ^ 32 != v % 2 ^ 32
  | .lt => if signed then decide (signedOf 32 u < signedOf 32 v) else decide (u % 2 ^ 32 < v % 2 ^ 32)
  | .ge => if signed then decide (signedOf 32 v ≤ signedOf 32 u) else decide (v % 2 ^ 32 ≤ u % 2 ^ 32)

/-! ### Reads (R220) -/

/-- Applied writes of a location before the instant, newest first. -/
def State.histBefore (s : State) (p : Nat) : List Applied := s.hist.drop (s.hist.length - p)
/-- Applied writes from the instant on, newest first. -/
def State.histAfter (s : State) (p : Nat) : List Applied := s.hist.take (s.hist.length - p)

/-- mo-last of a byte as it stood at instant `p`. -/
def State.byteAt (s : State) (p x : Nat) : Byte :=
  (s.histAfter p).foldl (fun b e => if e.loc ≤ x ∧ x < e.loc + e.old.length then e.old.getD (x - e.loc) b else b) (s.mem.get x)

/-- The `n` bytes at `loc` as they stood at instant `p`. -/
def State.bytesAt (s : State) (p loc n : Nat) : List Byte :=
  if p = s.hist.length then s.mem.readBytes loc n else (List.range n).map fun i => s.byteAt p (loc + i)

/-- The bytes of a read at instant `p`, as a little-endian number. -/
def State.readAt (s : State) (p loc n : Nat) : Nat := leNat (s.bytesAt p loc n)

/-- No write that the view names and that overlaps the bytes was applied at or after instant `p`. -/
def State.instantOk (s : State) (v : View) (p loc n : Nat) : Bool :=
  let later := s.histAfter p
  (List.range later.length).all fun j =>
    match later[j]? with
    | some e => !(overlap e.loc e.new.length loc n && (decide (s.hist.length - 1 - j < v.upTo) || v.wids.contains e.wid))
    | none => true

/-- Some write that the view names and that overlaps the bytes has not been applied. -/
def State.viewPending (s : State) (v : View) (loc n : Nat) : Bool :=
  s.aq.any (fun w => v.wids.contains w.wid && overlap w.loc w.n loc n)
  || s.fibres.any (fun f => f.wb.any fun w => v.wids.contains w.wid && (match w.dest with
      | .home l => overlap l w.n loc n
      | .peer .. => false))

/-- The instant a plain read takes (DESIGN CHOICE, log 5): `lag` applications ago where the view allows it, else now. -/
def State.instant (s : State) (v : View) (loc n : Nat) : Nat :=
  let p := s.hist.length - s.lag
  if s.instantOk v p loc n then p else s.hist.length

/-- The writes a read at instant `p` returns: for each byte the newest applied write before it. -/
def State.returned (s : State) (p loc n : Nat) : List Applied :=
  ((List.range n).filterMap fun i =>
    (s.histBefore p).find? fun e => decide (e.loc ≤ loc + i) && decide (loc + i < e.loc + e.new.length)).eraseDups

/-- The view after a read: the returned writes, and for an acquire their own views (R220, R227). -/
def State.afterRead (s : State) (v : View) (acq : Bool) (p loc n : Nat) : View :=
  (s.returned p loc n).foldl (fun v e => (if acq then v.joinOpt e.view else v).name e.wid) v

/-- The die of a reader learns the stamps of the writes it read (R224). -/
def State.learnRead (s : State) (d p loc n : Nat) : State := (s.returned p loc n).foldl (fun (s : State) e => s.learn d e.stamp) s

/-- The view V(w) that an RMW without release carries forward: that of the write it read (R228). -/
def State.carried (s : State) (loc n : Nat) : Option View :=
  match s.returned s.hist.length loc n with
  | [] => none
  | es => if es.any (fun e => e.view.isSome) then some (es.foldl (fun v e => v.joinOpt e.view) View.init) else none

/-! ### Application (R223) -/

/-- Commit lines that a write touches (R30): the slots whose bytes 0x40 to 0x7F it writes. -/
def State.touchedSlots (s : State) (loc n : Nat) : List Nat :=
  let r := s.reg offLwin
  let base := bits r.toNat 63 13 * 8192
  if r.getLsbD 0 then (List.range 64).filter fun k => overlap (base + 128 * k + 64) 64 loc n else []

/-- Slots whose COMMIT byte a write covers. -/
def State.committed (s : State) (loc n : Nat) : List Nat :=
  let r := s.reg offLwin
  let base := bits r.toNat 63 13 * 8192
  if r.getLsbD 0 then (List.range 64).filter fun k => overlap (base + 128 * k + 127) 1 loc n else []

/-- A request after the test of its bell, where one is armed on bytes just written (R254): a satisfied waiter is answered and its bell freed. Poisoned bytes are not tested: the waiter reads them itself, which is fatal (R140). -/
def State.rung (s : State) (loc n : Nat) (r : Req) : Req :=
  match r.dest with
  | .peer .. => r
  | .home l =>
    if r.bell && r.ans.isNone && overlap l r.n loc n && !s.poisoned l r.n then
      let u := s.mem.read l r.n
      let v := s.afterRead View.init true s.hist.length l r.n
      match r.kind with
      | .waitc sg cc g => if waitcCond sg cc u g.toNat then { r with bell := false, ans := some u, ansView := v } else r
      | .twait thr => if thr ≤ ((u % 2 ^ 48 : Nat) : Int) then { r with bell := false, ans := some u, ansView := v } else r
      | .load .. => r
      | .ldf .. => r
      | .ldv .. => r
      | .atom .. => r
      | .rwl .. => r
      | .casv .. => r
      | .valset .. => r
      | .frame | .pref => r
    else r

/-- The bells on bytes just written are tested, and the dies of the waiters answered learn the stamps (R224, R254). -/
def State.ring (s : State) (loc n : Nat) : State :=
  let hits := s.reqs.filter fun r => r.ans.isNone && (s.rung loc n r).ans.isSome
  hits.foldl (fun (t : State) r => match r.dest with
    | .home l => t.learnRead r.key.die t.hist.length l r.n
    | .peer .. => t) { s with reqs := s.reqs.map (s.rung loc n) }

/-- Applies one write: memory, the record of applications, the lines it touches, poison, commit lines and bells. A write whose line can take no further version raises the machine check instead. `own` is the share of the fibre it comes from; `counts` says that it is a write event of its own (R138). -/
def State.applyFrom (s : State) (own : Option Nat) (counts : Bool) (stamp : List Nat) (wid loc : Nat) (bs : List Byte) (view : Option View) : State :=
  match (List.range (lineCount loc bs.length)).find? fun i => s.sliceStops (loc + 256 * i) with
  | some i =>
    let sl := s.homeSlice (loc + 256 * i)
    if s.frozen.contains sl then s else s.machineCheck 1 (sl / 64) (sl % 64) 0
  | none =>
    let s1 : State := { s with
      mem := s.mem.writeBytes loc bs
      hist := ⟨wid, loc, s.mem.readBytes loc bs.length, bs, view, stamp⟩ :: s.hist
      poison := s.poison.filter fun g => !(decide (loc ≤ 16 * g) && decide (16 * g + 16 ≤ loc + bs.length))
      staleSlots := s.staleSlots ++ (s.touchedSlots loc bs.length).filter fun k => !s.staleSlots.contains k
      hostCommits := s.hostCommits.filter fun k => !(s.committed loc bs.length).contains k
      leafCnt := s.leafCnt.filter fun e => !overlap (e.1 % 2 ^ 52) 8 loc bs.length }
    (if isSpad loc then s1 else s1.writeLines (loc / 256) loc bs.length own counts (lineCount loc bs.length)).ring loc bs.length

/-- A write event that no fibre's L1 makes. -/
def State.applyBytes (s : State) (wid loc : Nat) (bs : List Byte) (view : Option View) : State := s.applyFrom none true [] wid loc bs view

/-- The bytes a write stores, given the bytes it finds. -/
def WKind.bytes (k : WKind) (m : Nat) : List Byte :=
  match k with
  | .store bs => bs
  | .fill bs => bs
  | .red op sg n v => leBytes n (atomNew op sg (n == 8) m v.toNat 0).1

/-- A commit line that holds 0x01 waits to be re-read: its slot is busy (R22, R30, R31). `loc` lies in the slot's line of 256 bytes. -/
def State.slotBusy (s : State) (loc : Nat) : Bool :=
  let r := s.reg offLwin
  let base := bits r.toNat 63 13 * 8192
  r.getLsbD 0 && s.staleSlots.any fun k => decide ((base + 128 * k) / 256 = loc / 256) && decide (s.mem.get (base + 128 * k + 127) = 1#8)

/-- R238, R144: no access touches a page in flip, nor one whose back-invalidate snoop is not answered, nor a busy slot (R31). -/
def State.pageHeld (s : State) (loc : Nat) : Bool := isDram loc && ((s.page loc).flipping || (s.page loc).waitHost || s.slotBusy loc)

/-- R145, R238: a walk of the tenancy to an address reads an entry on such a page. -/
def State.walkHeld (s : State) (t va : Nat) : Bool := (s.walkPath t va).any fun e => s.pageHeld e

/-- R238: as `pageHeld`, for an apply step. The writes that a page holds when it starts to flip to host bias are the copies that the flip writes back (R145) (DEDUCED, log 86). -/
def State.applyHeld (s : State) (loc : Nat) : Bool :=
  isDram loc && (((s.page loc).flipping && (s.page loc).hostBias) || (s.page loc).waitHost || s.slotBusy loc)

/-- Between the read and the write of a modification in two steps no other device access reaches its line (R242). -/
def State.lineHeld (s : State) (loc id : Nat) : Bool :=
  s.aq.any (fun w => w.rd.isSome && decide (w.wid ≠ id ∧ w.loc / 256 = loc / 256))
  || s.reqs.any (fun r => r.rd.isSome && decide (r.id ≠ id) && (match r.dest with
      | .home l => decide (l / 256 = loc / 256)
      | .peer .. => false))
  || s.imports.any fun i => decide (i.id ≠ id ∧ i.loc / 256 = loc / 256)

/-- The LDF that began waiting on a granule first (R156). -/
def State.waiter? (s : State) (g : Nat) : Option Req :=
  (s.reqs.filter fun r => r.bell && r.ans.isNone && (match r.kind, r.dest with
      | .ldf _, .home l => l / 16 == g
      | _, _ => false)).foldl (fun (b : Option Req) r => match b with
    | some o => if r.waitFrom < o.waitFrom then some r else b
    | none => some r) none

/-- A setting of a granule's bit (R154, R156): it serves the LDF that began waiting first, or leaves the granule full. -/
def State.fillGranule (s : State) (die loc : Nat) : State :=
  let s := if s.full.contains (loc / 16) then s.count die 2 else s
  match s.waiter? (loc / 16) with
  | some r =>
    let l := match r.dest with
      | .home l => l
      | .peer .. => loc
    { (s.learnRead r.key.die s.hist.length l r.n).updReq r.id fun q => { q with bell := false, ans := some (s.mem.read l r.n), ansView := s.afterRead View.init true s.hist.length l r.n } with
      full := s.full.filter fun g => g ≠ loc / 16 }
  | none => if s.full.contains (loc / 16) then s else { s with full := loc / 16 :: s.full }

/-- A RED is an RMW at its home: without release it carries the view of the write it read (R228). -/
def State.writeView (s : State) (w : AqWrite) : Option View :=
  match w.kind with
  | .store _ => w.view
  | .fill _ => w.view
  | .red .. => if w.view.isSome then w.view else s.carried w.loc w.n

/-- Two writes of one source that keep their order: they overlap, or are REDs to one line (R223, R245). -/
def ordered (a : WKind) (la na : Nat) (b : WKind) (lb nb : Nat) : Bool :=
  overlap la na lb nb || (match a, b with
    | .red .., .red .. => decide (la / 256 = lb / 256)
    | _, _ => false)

/-- Two writes of one write-back (R132). -/
def AqWrite.together (w o : AqWrite) : Bool := decide (w.grp ≠ 0 ∧ o.grp = w.grp)

/-- R224: every earlier write of its own die has been applied, and every write of another die that its stamp names. -/
def State.stampOk (s : State) (w : AqWrite) : Bool :=
  !(s.aq.any fun o => decide (o.sdie = w.sdie ∧ o.num < w.num) && !w.together o)
  && (List.range 4).all fun e => decide (e = w.sdie) || decide (w.stamp.getD e 0 ≤ s.apf e)

/-- R223, R224: the write may be applied: its view and its stamp allow it (DESIGN CHOICE, log 9). -/
def State.applyOk (s : State) (w : AqWrite) : Bool :=
  !s.applyHeld w.loc && !s.lineHeld w.loc w.wid && s.stampOk w
  && !((s.aq.takeWhile fun o => o.wid ≠ w.wid).any fun o => decide (o.src = w.src) && !w.together o && ordered o.kind o.loc o.n w.kind w.loc w.n)
  && (match w.view with
      | some v => !(s.aq.any (fun o => decide (o.wid ≠ w.wid) && v.wids.contains o.wid)
                    || s.fibres.any (fun f => f.wb.any fun o => v.wids.contains o.wid && (match o.dest with
                        | .home _ => true
                        | .peer .. => false)))
      | none => true)

/-- The H bit of the lines of a host access is set, and their owners are recalled (R133, R144); a plain read leaves the owner its copy. -/
def State.hostTouch (s : State) (a : Nat) (keep : Bool) : Nat → State
  | 0 => s
  | n + 1 =>
    let s := (s.fillLine (a / 256)).recall (a / 256) keep
    ({ s with hbits := if s.hbits.contains (a / 256) then s.hbits else (a / 256) :: s.hbits } : State).hostTouch (a + 256) keep n

/-- A device access in device bias to a line whose H bit is set sends a back-invalidate snoop first, and clears H (R144). -/
def State.snoop (s : State) (loc : Nat) : State :=
  if isDram loc && !s.hostBias loc && s.hbits.contains (loc / 256) then { s with hbits := s.hbits.filter fun x => x ≠ loc / 256 }.emit (.snoop loc) else s

/-- The numbers, in memory, of the 64-byte lines that `n` bytes at `loc` touch. -/
def hostLines (loc n : Nat) : List Nat := if n = 0 then [] else (List.range ((loc + n - 1) / 64 - loc / 64 + 1)).map fun i => loc / 64 + i

/-- The host has answered for every line of `n` bytes of a page in host bias, or the page is not in host bias (R144, R237). -/
def State.hostAnswered (s : State) (loc n : Nat) : Bool :=
  !isDram loc || !s.hostBias loc || (hostLines loc n).all fun x => (s.page loc).answered.contains x

/-- What the host answered for `n` bytes serves one access of them, by the device or the host. -/
def State.useAnswer (s : State) (loc n : Nat) : State :=
  if isDram loc && (hostLines loc n).any fun x => (s.page loc).answered.contains x then
    { s with pages := s.pages.upd (loc / 65536) PageAttr.init fun a => { a with answered := a.answered.filter fun x => !(hostLines loc n).contains x } }
  else s

/-- A device access to a page in host bias: a back-invalidate snoop of each 64-byte line, whose answer the access awaits (R144). -/
def State.askHost (s : State) (loc n : Nat) : State :=
  if !isDram loc || !s.hostBias loc || n == 0 then s else
  let s : State := { s.useAnswer loc n with pages := (s.useAnswer loc n).pages.upd (loc / 65536) PageAttr.init fun a => { a with waitHost := true, asked := a.asked ++ (hostLines loc n).filter fun x => !a.asked.contains x } }
  (hostLines loc n).foldl (fun (s : State) x => s.emit (.snoop (64 * x))) s

/-- The snoops of a read or write that the device makes for itself, of the landing area, a launch's dependence word or a fault frame: the host answers them in the step of the access (R144) (DESIGN CHOICE, log 100). -/
def State.snoopNow (s : State) (loc n : Nat) : State :=
  if !isDram loc || n == 0 then s
  else if s.hostBias loc then (hostLines loc n).foldl (fun (s : State) x => s.emit (.snoop (64 * x))) s
  else (List.range (lineCount loc n)).foldl (fun (s : State) i => s.snoop (loc / 256 * 256 + 256 * i)) s

/-- A modification of a page in host bias that is not system-atomic is a read and a write, each with its own snoop (R240, R242). -/
def State.twoSteps (s : State) (loc : Nat) (sa : Bool) : Bool := isDram loc && s.hostBias loc && !sa

def WKind.isRed : WKind → Bool
  | .red .. => true
  | .store _ | .fill _ => false

def Src.share? : Src → Option Nat
  | .fibre k => some k.share
  | .engine _ | .host | .chan .. => none

/-- The read of a modification in two steps has been taken. -/
def State.noteRead (s : State) (wid v : Nat) : State :=
  { s with aq := s.aq.map fun (o : AqWrite) => if o.wid = wid then { o with rd := some v } else o }

/-- The event of write-back `g` is counted. -/
def AqWrite.joins (g : Nat) (o : AqWrite) : AqWrite := if g ≠ 0 ∧ o.grp = g then { o with merged := true } else o

/-- Applies one write of an apply queue, which its rule allows. -/
def State.applyOne (s : State) (w : AqWrite) : State :=
  let s1 : State := { s with aq := (s.aq.filter fun o => o.wid ≠ w.wid).map (AqWrite.joins w.grp) }
  let view := s1.writeView w
  let s1 := if w.src = .host then s1.hostTouch w.loc false (lineCount w.loc w.n) else (s1.snoop w.loc).useAnswer w.loc w.n
  let s2 := s1.applyFrom w.src.share? (!w.merged) w.stamp w.wid w.loc (w.kind.bytes (w.rd.getD (s1.mem.read w.loc w.n))) view
  match w.kind with
  | .store _ => s2
  | .fill _ => (List.range ((w.loc + w.n - 1) / 16 - w.loc / 16 + 1)).foldl (fun (s : State) i => s.fillGranule w.die (w.loc / 16 * 16 + 16 * i)) s2
  | .red .. => s2

/-- The writes that a write-back sends as one event (R132, R138); any other write is one by itself. -/
def State.aqGroup (s : State) (w : AqWrite) : List AqWrite := if w.grp = 0 then [w] else s.aq.filter fun o => o.grp = w.grp

/-- 16 bytes that the writes cover among them are poisoned no longer (R140). -/
def coveredBy (ws : List AqWrite) (g : Nat) : Bool :=
  (List.range 16).all fun i => ws.any fun w => decide (w.loc ≤ 16 * g + i ∧ 16 * g + i < w.loc + w.n)

/-- Applies the write of an apply queue with number `wid`: with it the whole of a write-back, as one event, once all of it may be applied. -/
def State.applyAq (s : State) (wid : Nat) : State :=
  match s.aq.find? fun w => w.wid = wid with
  | none => s
  | some w =>
    let ws := s.aqGroup w
    if !ws.all fun o => s.applyOk o then s
    else if w.kind.isRed && s.twoSteps w.loc w.sa && w.rd.isNone then
      (s.noteRead wid (s.mem.read w.loc w.n)).askHost w.loc w.n
    else
      let t := ws.foldl (fun (s : State) o => match s.aq.find? fun x => x.wid = o.wid with
        | some x => s.applyOne x
        | none => s) s
      if w.grp = 0 then t else ws.foldl (fun (s : State) o => s.ring o.loc o.n) { t with poison := t.poison.filter fun g => !coveredBy ws g }

/-! ### What a walk that meets a leaf does -/

/-- The pages of a local leaf with PR = 1 are marked as protected, and context `c` is recorded as having walked it (R146). -/
def State.markLeaf (s : State) (c : Option Nat) (l : Leaf) (loc : Nat) : State :=
  let first := l.pa / 65536
  let n := 2 ^ (l.sizeBits - 16)
  if (match c with
    | some c => (s.ctx c).walked.contains (first, n)
    | none => (s.page loc).prot) then s
  else
    let s := match c with
      | some c => s.updCtx c fun x => { x with walked := (first, n) :: x.walked }
      | none => s
    { s with pages := (List.range n).foldl (fun p i => p.upd (first + i) PageAttr.init fun a => { a with prot := true }) s.pages }

/-- A flip starts (R145, R238). To device bias, every 64-byte line of the page is snooped back from the host. -/
def State.flipStart (s : State) (pg : Nat) : State :=
  let a := s.pages.getD pg PageAttr.init
  let s : State := { s with pages := s.pages.set pg { a with flipping := true, want := !a.hostBias, waitHost := a.hostBias } }
  if a.hostBias then s.emit (.snoopPage pg) else s

/-- A leaf asks for a bias of a page: a flip starts where it differs from the present one; while the page flips, the request of the latest walk is kept for the end of that flip (R145). -/
def State.askBias (s : State) (pg : Nat) (hb : Bool) : State :=
  let a := s.pages.getD pg PageAttr.init
  if s.inWindow (pg * 65536) 65536 then s
  else if a.flipping then (if a.want = hb then s else { s with pages := s.pages.set pg { a with want := hb } })
  else if hb != a.hostBias then s.flipStart pg
  else s

/-- A local leaf is met: a bias flip starts (R145), protected pages are marked (R146). (DEDUCED, log 78) -/
def State.meetLeaf (s : State) (c : Option Nat) (l : Leaf) (va : Nat) : State :=
  let loc := l.pa + va % 2 ^ l.sizeBits
  if l.mode ≠ 0 ∨ !isDram loc then s else
  let s := s.askBias (loc / 65536) l.hb
  if l.pr then s.markLeaf c l loc else s

/-- An access through a mode-11 leaf is counted (R129). At the saturated ACNT nothing is added, so no further record is written (DESIGN CHOICE, log 93). -/
def State.countLeaf (s : State) (k : FKey) (l : Leaf) (va : Nat) : State :=
  if l.mode ≠ 3 then s else
  let key := k.c * 2 ^ 52 + l.entry
  let n := s.leafCnt.getD key 0 + 1
  let s := { s with leafCnt := s.leafCnt.set key n }
  if n % 64 ≠ 0 then s else
  let e := s.mem.read l.entry 8
  let cnt := bits e 63 54
  if cnt ≥ 1023 then s else
  let e' := e + 2 ^ 54
  let s : State := { s.bump.applyBytes s.serial l.entry (leBytes 8 e') none with leafCnt := s.leafCnt }
  -- the migration record of R129
  let t := s.tenOf k
  let q := (s.reg (offMigq t)).toNat
  let ctl := (s.reg (offMigctl t)).toNat
  if cnt + 1 ≠ bits ctl 41 32 ∨ bits q 0 0 = 0 then s else
  let g := bits q 11 8
  let lgn := if 4 ≤ g ∧ g ≤ 12 then g else 4
  let tail := bits ctl 31 16
  let head := bits ctl 15 0
  let nxt := (tail + 1) % 2 ^ lgn
  if nxt = head % 2 ^ lgn then s.setReg (offMigctl t) (BitVec.ofNat 64 (ctl % 2 ^ 63 + 2 ^ 63))
  else
    let size := if l.sizeBits = 16 then 0 else if l.sizeBits = 21 then 1 else 2
    let ph := (s.regs.getD (offMigq t + 0x100000000) 1#64).toNat % 2
    let rec16 := leBytes 8 (va / 2 ^ l.sizeBits * 2 ^ l.sizeBits + size) ++ leBytes 2 l.peer ++ leBytes 2 (cnt + 1) ++ leBytes 2 k.c ++ leBytes 1 ph ++ leBytes 1 0
    let s := s.bump.applyBytes s.serial (hostLoc (bits q 63 12 * 4096 + 16 * tail)) rec16 none
    let s := s.setReg (offMigctl t) (BitVec.ofNat 64 (bits ctl 63 32 * 2 ^ 32 + nxt * 2 ^ 16 + head))
    if nxt = 0 then s.setReg (offMigq t + 0x100000000) (BitVec.ofNat 64 (1 - ph)) else s

/-- The entries that a walk reads and that some applied write has written. -/
def State.walkReads (s : State) (t va : Nat) : List Nat := (s.walkPath t va).filter fun e => !(s.returned s.hist.length e 8).isEmpty

/-- A view after a walk, which reads its entries as acquire reads (R127, R227). -/
def State.walkView (s : State) (t va : Nat) (v : View) : View := (s.walkReads t va).foldl (fun v e => s.afterRead v true s.hist.length e 8) v

/-- A die learns the stamps of what a walk reads (R224). -/
def State.learnWalk (s : State) (d t va : Nat) : State := (s.walkReads t va).foldl (fun (s : State) e => s.learnRead d s.hist.length e 8) s

/-- A walk of fibre `k` reads its entries as acquire reads (R127, R227). -/
def State.joinWalk (s : State) (k : FKey) (va : Nat) : State :=
  let t := s.tenOf k
  if (s.walkReads t va).isEmpty then s else (s.learnWalk k.die t va).updFibre k fun f => { f with view := s.walkView t va f.view }

/-- What an access of fibre `k` does to the leaf it goes through. -/
def State.touchLeaf (s : State) (k : FKey) (l : Leaf) (va : Nat) : State :=
  ((s.joinWalk k va).meetLeaf (some (s.ctxOf k)) l va).countLeaf k l va

def State.touched (s : State) (k : FKey) (l : Option Leaf) (va : Nat) : State :=
  match l with
  | some l => s.touchLeaf k l va
  | none => s

/-- The leaf that maps an address is met, for context `c` of tenancy `t` where there is one. -/
def State.meetVa (s : State) (c : Option Nat) (t va : Nat) : State :=
  match s.translate t va with
  | .ok l => s.meetLeaf c l va
  | .fail _ => s
  | .poison => s

/-- A walk of fibre `k`'s own: an instruction fetch, a frame, an access that R149 then refuses. -/
def State.walkVa (s : State) (k : FKey) (va : Nat) : State := (s.joinWalk k va).meetVa (some (s.ctxOf k)) (s.tenOf k) va

/-- A walk and an access of a fibre's own that no request makes. -/
def State.accessVa (s : State) (k : FKey) (va : Nat) : State :=
  match s.translate (s.tenOf k) va with
  | .ok l => s.touchLeaf k l va
  | .fail _ => s.joinWalk k va
  | .poison => s.joinWalk k va

/-! ### The remote-fault queue (R279 to R281) -/

/-- FFIB of R201. -/
def ffib (k : FKey) (fid : Nat) : Nat := k.k * 2 ^ 20 + k.c * 2 ^ 12 + fid

/-- The location of the queue region's byte `off` (R279): writable mode-00 device memory of the package, in device bias. -/
def State.rfqLoc? (s : State) (c off : Nat) : Option Nat :=
  let x := s.ctx c
  match s.translate x.ten (bits x.rfq.toNat 63 12 * 4096 + off) with
  | .ok l =>
    let loc := l.pa + (bits x.rfq.toNat 63 12 * 4096 + off) % 2 ^ l.sizeBits
    if l.mode = 0 ∧ !l.ro ∧ isDram loc ∧ !s.hostBias loc ∧ (!l.pr ∨ x.prot) then some loc else none
  | .fail _ => none
  | .poison => none

/-- Writes an entry of context `c` where the queue takes it (R281). `head` is the entry but for SEQ. -/
def State.rfqPut (s : State) (c : Nat) (head : List Byte) : State :=
  let x := s.ctx c
  if !x.rfq.getLsbD 0 then s else
  let g0 := bits x.rfq.toNat 11 8
  let lgn := if 4 ≤ g0 ∧ g0 ≤ 12 then g0 else 4
  match s.rfqLoc? c 0 with
  | none => s
  | some h =>
    let fcnt := s.mem.read h 8
    let widx := s.mem.read (h + 8) 8
    let ridx := s.mem.read (h + 16) 8
    let drop := s.mem.read (h + 24) 8
    let room := decide ((widx + 2 ^ 64 - ridx) % 2 ^ 64 < 2 ^ lgn)
    match (if room then s.rfqLoc? c (64 + 32 * (widx % 2 ^ lgn)) else none) with
    | some e =>
      let s := (s.meetVa (some c) x.ten (bits x.rfq.toNat 63 12 * 4096)).meetVa (some c) x.ten (bits x.rfq.toNat 63 12 * 4096 + 64 + 32 * (widx % 2 ^ lgn))
      let s1 := s.bump.applyBytes s.serial e (head ++ leBytes 4 (fcnt + 1)) none
      s1.bump.applyBytes s1.serial h (leBytes 8 (fcnt + 1) ++ leBytes 8 (widx + 1)) (some ⟨s1.hist.length, []⟩)
    | none =>
      let s1 := s.bump.applyBytes s.serial h (leBytes 8 (fcnt + 1)) (some ⟨s.hist.length, []⟩)
      s1.bump.applyBytes s1.serial (h + 24) (leBytes 8 (drop + 1)) (some ⟨s1.hist.length, []⟩)

/-- A page of the queue region is held by a flip (R238). -/
def State.rfqHeld (s : State) (c : Nat) : Bool :=
  (s.ctx c).rfq.getLsbD 0 && (List.range 3).any fun i => match s.rfqLoc? c (65536 * i) with
    | some l => s.pageHeld l
    | none => false

/-- Counts one failure of context `c`, and its entry is written, once no flip holds the queue's pages (R238, R281). -/
def State.rfqEntry (s : State) (c : Nat) (head : List Byte) : State :=
  let s := s.updCtx c fun y => { y with fails := y.fails + 1 }
  if s.rfqHeld c || s.rfqWait.any (fun e => e.1 = c) then { s with rfqWait := s.rfqWait ++ [(c, head)] } else s.rfqPut c head

/-- Entries that waited for a flip are written, in order. -/
def State.rfqFlush (s : State) : State :=
  if s.rfqWait.isEmpty then s else
  s.rfqWait.foldl (fun (s : State) e => if s.rfqHeld e.1 then { s with rfqWait := s.rfqWait ++ [e] } else s.rfqPut e.1 e.2) { s with rfqWait := [] }

/-- An entry of R280 but for SEQ. -/
def rfqHead (va data kind op sz code fib peer : Nat) (group : Bool) (win : Nat) : List Byte :=
  leBytes 8 va ++ leBytes 8 data ++ leBytes 1 kind ++ leBytes 1 op ++ leBytes 1 sz ++ leBytes 1 code ++ leBytes 4 fib
  ++ leBytes 2 (peer + (if group then 2 ^ 15 else 0)) ++ leBytes 2 win

/-! ### Carts and plane channels (R233, R234, R275 to R278) -/

/-- The elements of one access (R275): the first and its continuations. -/
def elemsOf (d : Dest) (n : Nat) (kind : WKind) : List CartElem :=
  match d with
  | .home _ => []
  | .peer _ _ win gen va =>
    let op : Nat := match kind with
      | .store _ => 0
      | .fill _ => 0
      | .red .add _ _ _ => 1
      | .red .and _ _ _ => 2
      | .red .or _ _ _ => 3
      | .red .xor _ _ _ => 4
      | .red .min sg _ _ => if sg then 5 else 7
      | .red .max sg _ _ => if sg then 6 else 8
      | .red .fadd _ _ _ => 9
      | .red .exch _ _ _ => 0
      | .red .cas _ _ _ => 0
    let data : Nat := match kind with
      | .store bs => leNat bs
      | .fill bs => leNat bs
      | .red _ _ _ v => v.toNat
    let sz := if n = 1 then 0 else if n = 2 then 1 else if n = 4 then 2 else if n = 8 then 3 else 4
    (List.range (max 1 (n / 4))).map fun i =>
      ⟨BitVec.ofNat 32 (data / 2 ^ (32 * i)), BitVec.ofNat 16 gen, BitVec.ofNat 12 win,
        BitVec.ofNat 4 (if i = 0 then op else 15), BitVec.ofNat 3 sz, BitVec.ofNat 52 va⟩

/-- The queue entries that a failed access gives (R278): one, or one for each half of 16 bytes. `es` are its elements. -/
def failEntries (es : List SentElem) (code peer : Nat) (group : Bool) : List (List Byte) :=
  match es with
  | [] => []
  | e :: _ =>
    let fib := ffib e.key e.fid
    let word (i : Nat) : Nat := (es[i]?.map fun x => x.elem.data.toNat).getD 0
    if e.elem.sz = 4#3 then
      [rfqHead e.elem.va.toNat (word 0 + 2 ^ 32 * word 1) 1 e.elem.op.toNat 3 code fib peer group e.elem.win.toNat,
       rfqHead (e.elem.va.toNat + 8) (word 2 + 2 ^ 32 * word 3) 1 e.elem.op.toNat 3 code fib peer group e.elem.win.toNat]
    else
      [rfqHead e.elem.va.toNat (word 0 + 2 ^ 32 * word 1) 1 e.elem.op.toNat e.elem.sz.toNat code fib peer group e.elem.win.toNat]

/-- Splits elements into accesses: an element that is no continuation starts one. -/
def accesses : List SentElem → List (List SentElem)
  | [] => []
  | e :: t =>
    match accesses t with
    | [] => [[e]]
    | g :: gs =>
      match g with
      | [] => [e] :: gs
      | x :: _ => if x.elem.op = 15#4 then (e :: g) :: gs else [e] :: g :: gs

def State.failAccess (s : State) (es : List SentElem) (code peer : Nat) (group : Bool) : State :=
  match es with
  | [] => s
  | e :: _ => (failEntries es code peer group).foldl (fun s h => s.rfqEntry e.ctx h) s

/-- A peer is lost (R286). -/
def State.lost (s : State) (p : Nat) : Bool := (s.reg (offLost (p / 64))).getLsbD (p % 64)

def State.chan? (s : State) (die : Nat) (group : Bool) (peer plane : Nat) : Option Chan :=
  s.chans.find? fun c => decide (c.die = die ∧ c.group = group ∧ c.peer = peer ∧ c.plane = plane)

/-- Puts an item at the tail of a plane channel; `step` says whether it takes a packet sequence number. -/
def State.enqueue (s : State) (die : Nat) (group : Bool) (peer plane : Nat) (step : Bool) (mk : BitVec 16 → ChanItem) : State :=
  let c := (s.chan? die group peer plane).getD ⟨die, group, peer, plane, 0#16, [], []⟩
  let c' := { c with seq := if step then c.seq + 1#16 else c.seq, items := c.items ++ [mk c.seq] }
  { s with chans := c' :: s.chans.filter fun x => !decide (x.die = die ∧ x.group = group ∧ x.peer = peer ∧ x.plane = plane) }

/-- Accesses to the lines of a plane stall while it is being remapped (R268). -/
def State.planeStalled (s : State) (plane : Nat) : Bool := (s.remaps.get? plane).isSome

/-- The port of a plane (R267). -/
def State.planePort (s : State) (plane : Nat) : Nat :=
  if plane < 12 then bits (s.reg offPmapa).toNat (5 * plane + 4) (5 * plane)
  else bits (s.reg offPmapb).toNat (5 * (plane - 12) + 4) (5 * (plane - 12))

/-- A cart departs as one packet (R233, R276); its elements are recorded until acknowledged. -/
def State.departCart (s : State) (key : Nat) : State :=
  match s.carts.get? key with
  | none => s
  | some c =>
    let die := key / 256
    let s := { s with carts := s.carts.del key }
    let seq := ((s.chan? die c.group c.peer c.plane).map fun x => x.seq).getD 0#16
    let hdr : CartHdr := ⟨c.peer, c.group, c.plane, (s.ctx c.ctx).ten, s.ownPeer.getD 0, seq, die, key % 256⟩
    let s := s.enqueue die c.group c.peer c.plane true fun _ => .packet hdr c.elems
    { s with unacked := s.unacked ++ [⟨die, c.group, c.peer, c.plane, seq, false, c.elems, s.now⟩] }

/-- Every cart of a die that satisfies `p` departs, in ascending number. -/
def State.departCarts (s : State) (p : Nat → Cart → Bool) : State :=
  (sortNat ((s.carts.filter fun e => p (e.1 / 256) e.2).map Prod.fst)).foldl (fun s k => s.departCart k) s

/-- the cart is kept, and departs at 15 elements -/
def State.full15 (s : State) (key : Nat) (c : Cart) : State :=
  let s := { s with carts := s.carts.set key c }
  if c.elems.length ≥ 15 then s.departCart key else s
/-- the lowest-numbered free cart, after the oldest has departed when none is free -/
def State.freshCart (s : State) (die ctx : Nat) (es : List SentElem) (group : Bool) (peer plane : Nat) : State :=
  let used (s : State) := (s.carts.filter fun c => c.1 / 256 = die)
  let s := if (used s).length ≥ 256 then
      match (used s).foldl (fun (b : Option (Nat × Cart)) c => match b with
          | none => some c
          | some o => if c.2.born < o.2.born ∨ (c.2.born = o.2.born ∧ c.1 < o.1) then some c else b) none with
      | some o => s.departCart o.1
      | none => s
    else s
  match (List.range 256).find? fun i => (s.carts.get? (die * 256 + i)).isNone with
  | some i => s.full15 (die * 256 + i) ⟨ctx, group, peer, plane, s.now, es⟩
  | none => s

/-- A write enters its cart (R277), or fails at once: code 8 to a lost peer (R286), code 11 without a peer number (R280). -/
def State.enterCart (s : State) (die ctx : Nat) (es : List SentElem) (group : Bool) (peer : Nat) : State :=
  match es with
  | [] => s
  | e :: _ =>
    if s.ownPeer.isNone then s.failAccess es 11 peer group
    else if !group && s.lost peer then s.failAccess es 8 peer group
    else
      let plane := bits e.elem.va.toNat 11 8
      let same := s.carts.find? fun c => decide (c.1 / 256 = die ∧ c.2.ctx = ctx ∧ c.2.group = group ∧ c.2.peer = peer ∧ c.2.plane = plane)
      match same with
      | some (key, c) =>
        if c.elems.length + es.length ≤ 15 then s.full15 key { c with elems := c.elems ++ es }
        else (s.departCart key).freshCart die ctx es group peer plane
      | none => s.freshCart die ctx es group peer plane

/-- Operations whose bulk writes to peers have been sent and not acknowledged: their part of K(c, d) (R218, R232). -/
def State.bulkWrites (s : State) : List EngineOp := s.eops.filter fun e => decide (e.bulk = some true) && !e.landed && !e.ended

/-- R235: no cart of the context on the die holds an element older than `seq`, and K(c, d) holds no older write. -/
def State.sentBefore (s : State) (die ctx seq : Nat) : Bool :=
  !(s.carts.any fun c => decide (c.1 / 256 = die ∧ c.2.ctx = ctx) && c.2.elems.any fun e => decide (e.seq < seq))
  && !(s.unacked.any fun k => decide (k.die = die) && k.es.any fun e => decide (e.ctx = ctx ∧ e.seq < seq))
  && !(s.bulkWrites.any fun b => decide (b.key.die = die ∧ b.ctx = ctx ∧ b.seq < seq))

/-- A release, fence or arrival of the context makes its older carts depart (R233). -/
def State.pushCarts (s : State) (die ctx seq : Nat) : State :=
  s.departCarts fun d c => decide (d = die ∧ c.ctx = ctx) && c.elems.any fun e => decide (e.seq < seq)

/-! ### Write buffers (R221, R226) -/

/-- Requests of a fibre older than `seq` that have not been performed. -/
def State.olderReads (s : State) (k : FKey) (seq : Nat) : List Req :=
  s.reqs.filter fun r => decide (r.key = k ∧ r.seq < seq ∧ r.kind ≠ .pref) && r.ans.isNone

def Req.overlaps (r : Req) (d : Dest) (n : Nat) : Bool :=
  match r.dest, d with
  | .home a, .home b => overlap a r.n b n
  | .peer g p _ _ va, .peer g' p' _ _ vb => decide (g = g' ∧ p = p') && overlap va r.n vb n
  | _, _ => false

def BufWrite.overlaps (w : BufWrite) (d : Dest) (n : Nat) : Bool :=
  match w.dest, d with
  | .home a, .home b => overlap a w.n b n
  | .peer g p _ _ va, .peer g' p' _ _ vb => decide (g = g' ∧ p = p') && overlap va w.n vb n
  | _, _ => false

/-- Writes of `f` older than a write of its buffer. -/
def Fibre.olderWrites (f : Fibre) (w : BufWrite) : List BufWrite := f.wb.filter fun o => decide (o.seq < w.seq ∨ (o.seq = w.seq ∧ o.wid < w.wid))

/-- A view without the buffered writes of `f` that unit `seq` does not come after: its own write, and younger ones (DEDUCED, log 87). -/
def Fibre.viewAt (f : Fibre) (seq : Nat) : View :=
  { f.view with wids := f.view.wids.filter fun i => !(f.wb.any fun w => decide (w.wid = i ∧ seq ≤ w.seq)) }

/-- Two buffered writes that keep their order: they overlap, or are REDs to one line (R221, R245). -/
def BufWrite.before (o w : BufWrite) : Bool :=
  o.overlaps w.dest w.n || (match o.dest, w.dest with
    | .home a, .home b => ordered o.kind a o.n w.kind b w.n
    | .peer _ _ _ _ a, .peer _ _ _ _ b => o.kind.isRed && w.kind.isRed && decide (a / 256 = b / 256)
    | _, _ => false)

/-- R221: the write may leave the write buffer of `f`. -/
def State.leaveOk (s : State) (f : Fibre) (w : BufWrite) : Bool :=
  let older := f.olderWrites w
  let reads := s.olderReads f.key w.seq
  !(match w.dest with
    | .peer _ _ _ _ va => s.planeStalled (bits va 11 8)
    | .home _ => false)
  && !older.any (fun o => o.before w)
  && !reads.any (fun r => r.acq || r.overlaps w.dest w.n)
  && !f.fencedAt w.seq && decide (f.wait ≠ .halted)
  && (!w.rel || (older.isEmpty && reads.isEmpty && s.sentBefore f.key.die (s.ctxOf f.key) w.seq))

/-- The write leaves its write buffer: to the apply queue of its home die, or to a cart (R221, R233). `grp` is the write-back it belongs to, 0 for none. -/
def State.leave (s : State) (f : Fibre) (w : BufWrite) (grp : Nat) : State :=
  let s := s.updFibre f.key fun g => { g with wb := g.wb.filter fun o => o.wid ≠ w.wid }
  match w.dest with
  | .home l =>
    (s.askHost l w.n).enterAq f.key.die (.fibre f.key) w.wid l w.n w.kind (if w.rel then some (f.viewAt w.seq) else none) w.sa grp false
  | .peer group p _ _ _ =>
    s.enterCart f.key.die (s.ctxOf f.key)
      ((elemsOf w.dest w.n w.kind).map fun e => ⟨e, f.key, f.fid, s.ctxOf f.key, w.seq, w.wid⟩) group p

/-- The L1 of a share writes back the dirty words of an unowned line that may leave: one write event (R132, R138). -/
def State.writeBackLine (s : State) (sh line : Nat) : State :=
  let g := s.serial
  let ws := (s.fibres.filter fun f => f.key.share = sh).flatMap fun f => (f.wb.filter fun w => w.dirtyIn line).map fun w => (f.key, w)
  let s := ws.foldl (fun (s : State) p => match s.fibre? p.1 with
    | some f => if s.leaveOk f p.2 then s.leave f p.2 g else s
    | none => s) s.bump
  ws.foldl (fun (s : State) p => s.applyAq p.2.wid) s

/-- The lines of which a share's L1 holds dirty words that it does not own. -/
def State.dirtyLines (s : State) (sh : Nat) : List Nat :=
  ((s.fibres.filter fun f => f.key.share = sh).flatMap fun f => f.wb.filterMap fun w => match w.dest with
    | .home l => if w.dirtyIn (l / 256) && decide (s.ownerOf (l / 256) ≠ some sh) then some (l / 256) else none
    | .peer .. => none).eraseDups

/-- The L1 of a share writes back the dirty words of every unowned line (R135, R256). -/
def State.writeBack (s : State) (sh : Nat) : State := (s.dirtyLines sh).foldl (fun (s : State) l => s.writeBackLine sh l) s

/-- The line of which a write is a dirty word that its share does not own. -/
def State.lineOf? (s : State) (sh : Nat) (w : BufWrite) : Option Nat :=
  match w.dest with
  | .home l => if w.dirtyIn (l / 256) && decide (s.ownerOf (l / 256) ≠ some sh) then some (l / 256) else none
  | .peer .. => none

/-- What a release step of a fibre's unit needs begins: its L1 writes back, and the carts of its context that are older depart (R135, R233). -/
def State.release (s : State) (k : FKey) (seq : Nat) : State := (s.writeBack k.share).pushCarts k.die (s.ctxOf k) seq

/-- Lets every write of a fibre that may leave do so, oldest first, and applies what reaches an apply queue. -/
def State.drainList (s : State) (k : FKey) : List BufWrite → State
  | [] => s
  | w :: ws =>
    match s.fibre? k with
    | none => s
    | some f =>
      let s := if w.rel then s.release k w.seq else s
      let s :=
        if !(f.wb.any fun o => o.wid = w.wid) || !s.leaveOk f w then s
        else match s.lineOf? k.share w with
        | some l => s.writeBackLine k.share l
        | none => (s.leave f w 0).applyAq w.wid
      s.drainList k ws

def State.drain (s : State) (k : FKey) : State :=
  match s.fibre? k with
  | some f => s.drainList k f.wb
  | none => s

/-- A write unit issues: its write enters the write buffer at the tail and the fibre's view names it (R221). -/
def State.bufferPage (s : State) (k : FKey) (seq : Nat) (d : Dest) (n : Nat) (kind : WKind) (rel : Bool) (va : Nat) (cached sa : Bool) : State :=
  let w : BufWrite := ⟨s.serial, seq, d, n, kind, rel, va, cached, sa⟩
  s.bump.updFibre k fun f => { f with wb := f.wb ++ [w], view := f.view.name w.wid }

/-- A write that no L1 holds. -/
def State.bufferWrite (s : State) (k : FKey) (seq : Nat) (d : Dest) (n : Nat) (kind : WKind) (rel : Bool) (va : Nat) : State :=
  s.bufferPage k seq d n kind rel va false false

/-! ### Ports (R265, R266) -/

def blankPort : Port := ⟨false, false, 0#12, 0#12, 0, 0, false, 0, 0, false⟩
def State.port (s : State) (p : Nat) : Port := s.ports.getD p blankPort
def State.updPort (s : State) (p : Nat) (g : Port → Port) : State := { s with ports := s.ports.upd p blankPort g }

/-- `n` flits leave on a port. -/
def State.sendFlits (s : State) (p n : Nat) : State :=
  s.updPort p fun x => { x with txSeq := x.txSeq + BitVec.ofNat 12 n, unacked := x.unacked + n }

/-- Flits leave a port's receive buffer: below half of it, the other side may go on. -/
def State.rxLeave (s : State) (p n : Nat) : State :=
  let s := s.updPort p fun x => { x with rxFill := x.rxFill - n }
  if (s.port p).rxHold && decide (2 * (s.port p).rxFill < Config.rxFlits) then (s.updPort p fun x => { x with rxHold := false }).emit (.flit p 4) else s

/-- A peer that answers a probe, or anything else, has not gone silent and is not unreachable (R286). -/
def State.answers (s : State) (peer : Nat) : State := { s with probes := s.probes.del peer, lostOn := s.lostOn.filter fun e => e.1 ≠ peer }

/-- An answer of a peer, of `n` flits, has come on the plane of an address and is taken. -/
def State.heardFrom (s : State) (peer va n : Nat) : State := (s.answers peer).rxLeave (s.planePort (bits va 11 8)) n

end Sys2Proof.Machine
end

