-- ==== Sys2Proof/Machine/Units.lean ====
section
/-! DEFINITION. The units of a chain as they stand in a packet, and the checks that they pass before they issue (R61 to R66, R72 to R74). -/

namespace Sys2Proof.Machine

/-! ### Locations and masks -/

/-- A location that carries a pending bit. -/
inductive Loc where
  | reg (r : Nat)
  | pred (p : Nat)
  | esc | fs | cont | fault
  deriving DecidableEq, Repr

def regLocs (r : RegNo) (n : Nat) : List Loc := (List.range n).map fun i => .reg (r.toNat + i)

/-- Every register of the window (R160). -/
def windowMask (n : Nat) : Word := BitVec.ofNat 32 (2 ^ n - 1)
/-- The copy mask of a FORK's IMX words (R63). -/
def forkMaskOf (xs : List (BitVec 17)) : Word :=
  match xs with
  | [] => 0#32
  | [x] => x.zeroExtend 32
  | x :: y :: _ => x.extractLsb' 0 15 ++ y

/-- The mask of an ESCM (R159). -/
def escmMask (xs : List (BitVec 17)) (imm : BitVec 17) : Word :=
  match xs.getLast? with
  | none => imm.zeroExtend 32
  | some x => x.extractLsb' 0 15 ++ imm

/-! ### The chain (R66) -/

/-- The words of one unit as they stand in the packet: its IMX words, its consumer with its address (none where an IMX stands in slot 2). -/
structure RawUnit where
  addr : DWord
  heads : List Word
  cons : Option (DWord × Word)
  deriving DecidableEq, Repr

def isImxWord (w : Word) : Bool := fieldOp w == 0xFE#8

/-- Splits words into the units of one chain, from `addr` on; `heads` are the IMX words read so far. -/
def splitUnits (addr : DWord) (heads : List Word) : List (DWord × Word) → List RawUnit
  | [] => if heads.isEmpty then [] else [⟨addr, heads, none⟩]
  | (a, w) :: t =>
    let ua := if heads.isEmpty then a else addr
    if isImxWord w then splitUnits ua (heads ++ [w]) t
    else ⟨ua, heads, some (a, w)⟩ :: (if fieldC w then splitUnits (nextWord a) [] t else [])

/-- The words from an address to the end of its packet (R53), or the cause of the fetch fault (R8). (DEDUCED, log 70) -/
def State.packetWords (s : State) (t : Nat) (prot : Bool) : Nat → DWord → Except Nat (List (DWord × Word))
  | 0, _ => .ok []
  | n + 1, a =>
    match s.fetch t prot a with
    | .error c => .error c
    | .ok w =>
      match s.packetWords t prot n (a + 4#64) with
      | .error c => .error c
      | .ok ws => .ok ((a, w) :: ws)

/-! ### Stage 2: each unit alone (R61 to R63, R72 to R74) -/

/-- The opcodes of MEM format (R64). -/
def instrMem : Instr → Bool
  | .ld .. | .ldNarrow .. | .st .. | .stNarrow .. | .lds .. | .ldsNarrow .. | .sts .. | .stsNarrow .. | .ldf .. | .stf .. | .pref .. => true
  | .ldAcq .. | .stRel .. | .ldv .. | .casv .. | .rwl .. => true
  | .atomAdd .. | .atomAnd .. | .atomOr .. | .atomXor .. | .atomMin .. | .atomMax .. | .atomExch .. | .atomCas .. | .atomFadd .. => true
  | .atomOrdAdd .. | .atomOrdAnd .. | .atomOrdOr .. | .atomOrdXor .. | .atomOrdMin .. | .atomOrdMax .. | .atomOrdExch .. | .atomOrdCas ..
  | .atomOrdFadd .. => true
  | .redAdd .. | .redAnd .. | .redOr .. | .redXor .. | .redMin .. | .redMax .. | .redFadd .. => true
  | _ => false

/-- The consumers that accept IMX (R62). -/
def instrTakesImx (i : Instr) : Bool :=
  instrMem i || match i with
  | .iaddi .. | .andi .. | .ori .. | .xori .. | .shli .. | .shri .. | .sari .. | .imuli .. | .addpi .. | .twait .. => true
  | .movi .. | .quit .. | .movh .. | .escm .. | .mma .. | .cpy .. | .tmm .. | .fork .. => true
  | _ => false

/-- IMX words misused in front of consumer `i` (R61). -/
def imxMisused (n : Nat) (i : Instr) : Bool :=
  decide (0 < n) && (!instrTakesImx i || (decide (1 < n) && !(match i with
    | .fork .. => true
    | _ => false)))

/-- The immediate of an RRI unit as a number (R62). -/
def immValue (xs : List (BitVec 17)) (imm : BitVec 7) : Int :=
  match xs.getLast? with
  | some x => (x ++ imm).toInt
  | none => imm.toInt

/-- An extension, an immediate or a parameter word outside its limit (R62, R63, R72, R206, R211, R214). -/
def extBad (xs : List (BitVec 17)) (i : Instr) : Bool :=
  let x := xs.getLast?.getD 0#17
  match i with
  | .shli _ _ _ imm | .shri _ _ _ imm | .sari _ _ _ imm => decide (immValue xs imm < 0) || decide (31 < immValue xs imm)
  | .movh .. => decide (16 ≤ x.toNat)
  | .escm .. => decide (x.extractLsb' 15 2 ≠ 0#2)
  | .fork .. => decide (1 < xs.length) && decide ((xs.headD 0#17).extractLsb' 15 2 ≠ 0#2)
  | .mma .. => decide (x.extractLsb' 10 2 = 3#2)
  | .cpy .. => decide (x.extractLsb' 7 10 ≠ 0#10) || x.getLsbD 0
  | .tmm .. => decide (x.extractLsb' 14 3 ≠ 0#3) || x.getLsbD 0
  | _ => false

/-- The context-privileged instructions (R73). -/
def instrPriv : Instr → Bool
  | .wopen .. | .wrevoke .. | .save .. | .rest .. | .keyld .. | .evict .. | .movp .. | .movpw .. => true
  | _ => false

/-- A unit that has passed stage 2. -/
structure ChainUnit where
  addr : DWord
  imxs : List (BitVec 17)
  at_ : DWord
  word : Word
  i : Instr
  deriving DecidableEq, Repr

/-- Stage 2 of R74 for one unit: the first cause in the order 0x01 to 0x05, 0x09, 0x0A, 0x0D that it breaches, or the unit. -/
def RawUnit.check (u : RawUnit) (priv : Bool) : Except Nat ChainUnit :=
  match u.cons with
  | none => .error 0x09
  | some (a, w) =>
    let xs := u.heads.map field17
    let badHead := u.heads.any fun x => !imxHdrOk x
    match decode w with
    | .error c => .error (if c ≤ 0x05 ∨ u.heads.isEmpty then c else 0x09)
    | .ok i =>
      if badHead || imxMisused xs.length i then .error 0x09
      else if extBad xs i then .error 0x0A
      else if instrPriv i && !priv then .error 0x0D
      else .ok ⟨u.addr, xs, a, w, i⟩

/-- Stage 2 for the units of a chain in order: the lowest-addressed breach. -/
def checkUnits (priv : Bool) : List RawUnit → Except (Nat × DWord) (List ChainUnit)
  | [] => .ok []
  | u :: t =>
    match u.check priv with
    | .error c => .error (c, u.addr)
    | .ok x =>
      match checkUnits priv t with
      | .error e => .error e
      | .ok xs => .ok (x :: xs)

/-! ### Stage 3: the chain (R65, R66) -/

/-- Pipes A, F, X, M, E as 0 to 4 (R65). -/
def pipeOf (op : Nat) : Nat :=
  if op < 0x40 then 0 else if op < 0x80 then 1 else if op < 0xA0 then 2 else if op < 0xD0 then 3 else if op < 0xE8 then 4 else 2

def ChainUnit.pipe (u : ChainUnit) : Nat := pipeOf (fieldOp u.word).toNat

/-- The destinations of a unit for cause 0x08 (R66). -/
def instrDests (i : Instr) : List Loc :=
  ((i.opds.filter fun o => o.wr).flatMap fun o => regLocs o.reg o.n) ++ match i with
  | .call .. | .callx .. => regLocs 2 2
  | .pand _ d .. | .por _ d .. | .pxor _ d .. | .pnot _ d _ | .pmov _ d _ _ | .pset _ d _ | .cmp _ d _ _ _ _ | .valset _ d _ _ _ => [.pred d.val]
  | .mdrn _ _ _ p _ => [.pred p.val]
  | .movsw _ _ .fs => [.fs]
  | .movsw _ _ .esc => [.esc]
  | .movsw _ _ .cont => [.cont]
  | .movsw _ _ .fault => [.fault]
  | .escm .. => [.esc]
  | _ => []

/-- The cause of stage 3 that unit `u` breaches, given the units before it. -/
def ChainUnit.clash (u : ChainUnit) (before : List ChainUnit) : Option Nat :=
  if fieldC u.word && decide (slotOf u.at_ = 2) then some 0x06
  else if before.any fun v => v.pipe == u.pipe then some 0x07
  else if before.any fun v => (instrDests v.i).any fun l => (instrDests u.i).contains l then some 0x08
  else none

/-- Stage 3: the lowest-addressed breach. -/
def clashes (before : List ChainUnit) : List ChainUnit → Option (Nat × DWord)
  | [] => none
  | u :: t =>
    match u.clash before with
    | some c => some (c, u.addr)
    | none => clashes (before ++ [u]) t

/-! ### Stage 4 (R60, R90, R159, R211, R214) -/

/-- The pair that the parameter word of a CPY or TMM names. (DEDUCED, log 71) -/
def ChainUnit.parmPair (u : ChainUnit) : List Opd :=
  match u.i with
  | .cpy .. | .tmm .. => [.src ((u.imxs.getLast?.getD 0#17).extractLsb' 0 5) 2]
  | _ => []

/-- The mask that a FORK or ESCM gives (R63, R159). -/
def ChainUnit.mask (u : ChainUnit) : Word :=
  match u.i with
  | .fork .. => forkMaskOf u.imxs
  | .escm _ imm => escmMask u.imxs imm
  | _ => 0#32

/-- The unit names a register at or above the window size. -/
def ChainUnit.beyond (win : Nat) (u : ChainUnit) : Bool :=
  (u.i.opds ++ u.parmPair).any (fun o => decide (win ≤ o.last)) || decide (u.mask &&& ~~~(windowMask win) ≠ 0#32)

/-- The checks of R74 on the chain that fibre `k` meets at an address: its units, or a cause and the unit it names. -/
def State.chainAt (s : State) (k : FKey) (a : DWord) : Except (Nat × DWord) (List ChainUnit) :=
  let x := s.ctx (s.ctxOf k)
  match s.packetWords (s.tenOf k) x.prot (3 - slotOf a) a with
  | .error c => .error (c, a)
  | .ok ws =>
    match checkUnits x.priv (splitUnits a [] ws) with
    | .error e => .error e
    | .ok us =>
      match clashes [] us with
      | some e => .error e
      | none =>
        match us.find? fun u => u.beyond x.lrec.win with
        | some u => .error (0x0B, u.addr)
        | none => .ok us

/-- The same for the next chain of a flock. -/
def State.chainCheck (s : State) (fl : Flock) : Except (Nat × DWord) (List ChainUnit) :=
  match fl.members with
  | [] => .ok []
  | k :: _ => s.chainAt k fl.addr

end Sys2Proof.Machine
end

