-- ==== Sys2Proof/Machine/Ops.lean ====
section
/-! DEFINITION. Registers, taking and returning from an exception (R97, R98, R305 to R311), the scoreboard (R85 to R87), and the frame that every instruction word runs in: what the flock of the current quarter does before and after the word's own effect (R66, R67, R81, R83, R84). -/

namespace Sys2Proof.Machine

/-! ### Registers (R60, R101) -/

def Fibre.reg (f : Fibre) (r : RegNo) : Word := f.regs[r.toNat]
/-- Register `r + i`, wrapping at 32: an aligned operand never wraps. -/
def Fibre.regI (f : Fibre) (r : RegNo) (i : Nat) : Word := f.reg (r + BitVec.ofNat 5 i)
def Fibre.setReg (f : Fibre) (r : RegNo) (v : Word) : Fibre := { f with regs := f.regs.set r.toNat v }
/-- A pair, low half in the even register (R101). -/
def Fibre.pair (f : Fibre) (r : RegNo) : DWord := f.regI r 1 ++ f.reg r
/-- An operand of `n` registers as a number. -/
def Fibre.opd (f : Fibre) (r : RegNo) (n : Nat) : Nat :=
  if n = 1 then (f.reg r).toNat
  else if n = 2 then (f.pair r).toNat
  else leNat ((List.range n).flatMap fun i => leBytes 4 (f.regI r i).toNat)
/-- Writes `n` registers with a value, low word first. -/
def Fibre.setOpd (f : Fibre) (r : RegNo) (n v : Nat) : Fibre :=
  if n = 1 then f.setReg r (BitVec.ofNat 32 v)
  else if n = 2 then (f.setReg r (BitVec.ofNat 32 v)).setReg (r + 1#5) (BitVec.ofNat 32 (v / 2 ^ 32))
  else (List.range n).foldl (fun f i => f.setReg (r + BitVec.ofNat 5 i) (BitVec.ofNat 32 (v / 2 ^ (32 * i)))) f
def Fibre.pred (f : Fibre) (p : PredNo) : Bool := f.preds[p.val]
def Fibre.setPred (f : Fibre) (p : PredNo) (b : Bool) : Fibre := { f with preds := f.preds.set p.val b }
/-- The member is active under the guard (R83). -/
def Fibre.guard (f : Fibre) : Guard → Bool
  | .always => true
  | .on p sense => f.pred p != sense

/-! %fs (R78) -/
def Fibre.fsBit (f : Fibre) (i : Nat) : Bool := f.fs.getLsbD i
def setBit (w : Word) (i : Nat) (b : Bool) : Word :=
  if b then w ||| (1#32 <<< i) else w &&& ~~~(1#32 <<< i)
def Fibre.setFs (f : Fibre) (i : Nat) (b : Bool) : Fibre := { f with fs := setBit f.fs i b }
def fsER : Nat := 0
def fsST : Nat := 1
def fsAB : Nat := 2
def fsFP : Nat := 3
def fsRF : Nat := 4
def fsFR : Nat := 5
/-- JEC, [14:6] of %fs. -/
def Fibre.jec (f : Fibre) : Nat := bits f.fs.toNat 14 6
def Fibre.setJec (f : Fibre) (n : Nat) : Fibre :=
  { f with fs := BitVec.ofNat 32 (f.fs.toNat % 64 + 64 * (n % 512) + f.fs.toNat / 2 ^ 15 * 2 ^ 15) }

/-- The predicates as a number, p0 in bit 0. -/
def predBits (p : Vector Bool 12) : Nat := p.toList.foldr (fun b a => 2 * a + (if b then 1 else 0)) 0
def predsOf (n : Nat) : Vector Bool 12 := Vector.ofFn fun i => n.testBit i.val

/-- The words of a mask, zero elsewhere (R161). -/
def maskRegs (m : Word) (v : Vector Word 32) : Vector Word 32 :=
  Vector.ofFn fun i => if m.getLsbD i.val then v[i] else 0#32
def popMask (m : Word) : Nat := ((List.range 32).filter fun i => m.getLsbD i).length

/-! ### Halts (R310, R311) -/

/-- The halt class of a cause (R310). -/
def haltClass (cause : Nat) : Nat :=
  if cause ≤ 0x0A then 9
  else if cause = 0x0D ∨ cause = 0x0E ∨ cause = 0x16 ∨ cause = 0x17 ∨ cause = 0x19 then 10
  else if cause = 0x0C ∨ cause = 0x10 ∨ cause = 0x11 ∨ cause = 0x13 ∨ cause = 0x1B ∨ cause = 0x29 then 11
  else if cause = 0x18 then 13
  else if cause = 0x24 then 14
  else if cause = 0x25 ∨ cause = 0x26 ∨ cause = 0x27 ∨ cause = 0x2B then 15
  else if cause = 0x28 then 16
  else 12

/-- A fatal fault of a unit of fibre `k` at address `ua`. -/
def State.fatal (s : State) (k : FKey) (cause : Nat) (ua : DWord) : State :=
  s.halt (s.ctxOf k) ⟨haltClass cause, cause, ua, some k, 1⟩

/-- A flock without a member: it ends, at once or after the unit that issues (R81). -/
def Flock.without (k : FKey) (g : Flock) : Option Flock :=
  if !g.members.contains k then some g else
  let g' : Flock := { g with members := g.members.filter fun m => m ≠ k, snap := g.snap.filter fun f => f.key ≠ k, ending := true }
  if g'.members.isEmpty || g.snap.isEmpty then none else some g'

/-- A member leaves its flock and takes no further part in the chain (R69, R81). -/
def State.leaveFlock (s : State) (k : FKey) : State := { s with flocks := s.flocks.filterMap (Flock.without k) }

/-! ### Taking a recoverable fault (R305 to R307) -/

/-- The word before a word in program order. -/
def prevWord (v : DWord) : DWord := if slotOf v = 0 then packetAddr (packetIndex v - 1#64) + 8#64 else v - 4#64

/-- The 192 bytes of a fault frame (R306). -/
def frameBytes (f : Fibre) (h : Household) (r : FaultRec) : List Byte :=
  leBytes 4 1 ++ leBytes 1 r.cls ++ leBytes 1 r.cause ++ leBytes 1 r.reason ++ leBytes 1 0
  ++ leBytes 8 r.rip.toNat ++ leBytes 8 r.faddr ++ leBytes 4 r.code ++ leBytes 2 f.fid ++ leBytes 1 h.hid ++ leBytes 1 0
  ++ leBytes 4 h.pid ++ leBytes 2 (h.ctx + 512 * h.ten) ++ leBytes 2 (f.fs.toNat % 2 ^ 15) ++ leBytes 4 r.mask.toNat
  ++ leBytes 4 f.esc.toNat ++ leBytes 2 (predBits f.preds) ++ leBytes 14 0
  ++ (maskRegs r.mask f.regs).toList.flatMap fun w => leBytes 4 w.toNat

/-- A place that fibre `k` may write plainly (R149): the destination, or none where the write would fault. -/
def State.writable? (s : State) (k : FKey) (va : Nat) : Option Dest :=
  match s.translate (s.tenOf k) va with
  | .ok l => if l.ro || (l.pr && !(s.ctx (s.ctxOf k)).prot) then none else some (s.destOf l va)
  | .fail _ => none
  | .poison => none

/-- Plain writes of fibre `k`, 16 bytes at a time in ascending address order. -/
def State.frameWrites (s : State) (k : FKey) (seq va : Nat) : Nat → List Byte → State
  | 0, _ => s
  | n + 1, bs =>
    match s.writable? k va with
    | some d => ((s.accessVa k va).bufferWrite k seq d 16 (.store (bs.take 16)) false va).frameWrites k seq (va + 16) n (bs.drop 16)
    | none => s

/-- The 192 bytes at a frame address may be written (R307, R337). -/
def State.frameOk (s : State) (k : FKey) (va : Nat) : Bool := (List.range 12).all fun i => (s.writable? k (va + 16 * i)).isSome

/-- An instruction pointer names a word (R53). -/
def wordAddr (v : DWord) : DWord := v &&& ~~~3#64

/-- The fibre's chain is cut at `rip`, from which it issues again, behind a frame or not: where a unit of the chain has moved the fibre, the rest of it still leads there (R56, R69). (DEDUCED, log 113) -/
def Fibre.cutAt (f : Fibre) (rip : DWord) : Fibre :=
  match f.after with
  | some a => { f with after := none, owed := (rip, a) :: f.owed.filter fun o => o.1 ≠ rip }
  | none => f

/-- Takes a recoverable fault of a class delivered to the continuation (R307). -/
def State.deliverNow (s : State) (k : FKey) (r : FaultRec) : State :=
  match s.fibre? k with
  | none => s
  | some f =>
    let c := s.ctxOf k
    if f.wait = .halted then s
    else if f.fault = 0#64 then s.halt c ⟨15, 0x25, r.unit, some k, 1⟩
    else if f.fsBit fsFP then s.halt c ⟨15, 0x26, r.unit, some k, 1⟩
    else if !s.frameOk k f.fault.toNat then s.halt c ⟨15, 0x27, r.unit, some k, 1⟩
    else
      let s1 := s.bump.frameWrites k s.serial f.fault.toNat 12 (frameBytes f (s.share k.share) r)
      let s2 := s1.updFibre k fun g => { ((g.setFs fsFP true).cutAt r.rip) with ip := wordAddr g.cont }
      s2.leaveFlock k

/-- The child of a FORK that does not commit is not made: its place and its stub are free again. -/
def State.unfork (s : State) (w : Wait) : State :=
  match w with
  | .fork (some c) _ => s.dropFibre c
  | _ => s

/-- The waits of units younger than `seq` do not go on: those units do not commit (R69). What they did in the cycle in which the chain issued stands (DEDUCED, log 95). -/
def State.cancelAfter (s : State) (k : FKey) (seq : Nat) : State :=
  match s.fibre? k with
  | none => s
  | some f =>
    let late := f.waits.filter fun w => decide (seq < w.seq)
    if late.isEmpty || decide (f.wait = .halted) then s
    else late.foldl (fun (s : State) w => s.unfork w.wait) (s.updFibre k fun g => g.withWaits (g.waits.filter fun w => decide (w.seq ≤ seq)))

/-- The fibre can take a fault: it is resident, and nothing older of its chain waits. -/
def Fibre.takesFault (f : Fibre) : Bool :=
  (match f.res with
    | .resident _ => true
    | _ => false) && f.waits.isEmpty && f.rfaults.isEmpty

/-- A recoverable fault of fibre `k`: the units after the faulting one do not commit, and those before it do (R69), so it is taken once their waits are over and the fibre is resident (R179). -/
def State.deliver (s : State) (k : FKey) (r : FaultRec) : State :=
  let s := s.cancelAfter k r.seq
  match s.fibre? k with
  | none => s
  | some f =>
    if f.wait = .halted then s
    else if f.takesFault then s.deliverNow k r
    else (s.updFibre k fun g => { (g.cutAt r.rip) with rfaults := g.rfaults ++ [r] }).leaveFlock k

/-- Faults that enter the debug handler (R305): taking them stands with the handler (Machine/Debug). -/
def FaultRec.traps (r : FaultRec) : Bool := r.cls == 5 || r.cls == 6

/-- The first fault that waits is taken, once it can be. -/
def State.deliverNext (s : State) (k : FKey) : State :=
  match s.fibre? k with
  | none => s
  | some f =>
    match f.rfaults with
    | [] => s
    | r :: t =>
      if r.traps || !({ f with rfaults := [] } : Fibre).takesFault then s
      else (s.updFibre k fun g => { g with rfaults := t }).deliverNow k r

/-- A fault of a resident member at its unit: every register of the window is recorded (R306). -/
def State.deliverResident (s : State) (k : FKey) (cls cause reason : Nat) (rip : DWord) (faddr code : Nat) (unit : DWord) (seq : Nat) : State :=
  s.deliver k ⟨cls, cause, reason, rip, faddr, code, windowMask (s.winOf k), unit, seq⟩

/-- TRANSLATE (R127) of a resident member. -/
def State.translateFault (s : State) (k : FKey) (reason : Nat) (ua : DWord) (va seq : Nat) : State :=
  s.deliverResident k 1 0 reason ua va 0 ua seq

/-! ### The return from a frame (R98, R308) -/

/-- `bs`, which lie at `loc`, with the bytes of one write over them. -/
def layOver (loc : Nat) (bs : List Byte) (a : Nat) (k : WKind) : List Byte :=
  match k with
  | .fill ws | .store ws => bs.zipIdx.map fun p => if a ≤ loc + p.2 ∧ loc + p.2 < a + ws.length then ws.getD (loc + p.2 - a) p.1 else p.1
  | .red .. => bs

/-- The `n` bytes at `loc` as the fibre itself reads them: memory's, under its own stores that have not been applied (R220). -/
def State.ownBytes (s : State) (f : Fibre) (loc n : Nat) : List Byte :=
  f.wb.foldl (fun bs w => match w.dest with
    | .home a => layOver loc bs a w.kind
    | .peer .. => bs)
    ((s.aq.filter fun w => w.src = .fibre f.key).foldl (fun bs w => layOver loc bs w.loc w.kind) (s.mem.readBytes loc n))

/-- Where 16 bytes of a frame lie, or the cause of a fatal fault. -/
def State.frameLoc (s : State) (k : FKey) (va : Nat) : Except Nat Dest :=
  match s.translate (s.tenOf k) va with
  | .fail _ => .error 0x2B
  | .poison => .error 0x18
  | .ok l =>
    if l.pr && !(s.ctx (s.ctxOf k)).prot then .error 0x2B
    else match s.destOf l va with
      | .home loc => if s.poisoned loc 16 then .error 0x18 else .ok (.home loc)
      | d => .ok d

/-- The bytes of a frame as fibre `f` reads them, its own buffered writes included (R220); `far` holds the whole frame where a part of it lies at a peer. (DEDUCED, log 30) -/
def State.frameRead (s : State) (f : Fibre) (va : Nat) (far : List Byte) : Nat → Except Nat (List Byte)
  | 0 => .ok []
  | n + 1 =>
    match s.frameLoc f.key va with
    | .error c => .error c
    | .ok d =>
      match s.frameRead f (va + 16) (far.drop 16) n with
      | .error c => .error c
      | .ok bs => .ok ((match d with
          | .home loc => s.ownBytes f loc 16
          | .peer .. => (far ++ leBytes 16 0).take 16) ++ bs)

/-- The first part of a frame that lies at a peer. -/
def State.frameFar? (s : State) (k : FKey) (va : Nat) : Option Dest :=
  (List.range 12).findSome? fun i => match s.frameLoc k (va + 16 * i) with
    | .ok (.peer g p w gen a) => some (.peer g p w gen a)
    | .ok (.home _) | .error _ => none

/-- The frame at `v` is read: one access for each page that it lies on (DESIGN CHOICE, log 94). -/
def State.frameAccess (s : State) (k : FKey) (v : Nat) : State :=
  let s := if v / 65536 = (v + 176) / 65536 then s.accessVa k v else (s.accessVa k v).accessVa k (v + 176)
  (List.range 3).foldl (fun (s : State) i => match s.frameLoc k (v + 64 * i) with
    | .ok (.home loc) => s.snoopNow loc 64
    | .ok (.peer ..) | .error _ => s) s

/-- The fibre goes to `a`, where comparators below `n` do not meet its unit: at once, or once the rest of the chain has issued (R56). -/
def Fibre.resumeAt (f : Fibre) (more : Bool) (a : DWord) (n : Nat) : Fibre :=
  if !more then { f with ip := a, cmpFrom := n }
  else { f with after := some (a, n) }

/-- The fibre takes the frame `bs` at `v` (R98, R308); a debug handler's frame with the differences of R338. The frame is marked as consumed by a plain write, whatever RO its page has (DESIGN CHOICE, log 93). -/
def State.takeFrame (s : State) (f : Fibre) (v : Nat) (d : Dest) (bs : List Byte) (ua : DWord) (more : Bool) : State :=
  let k := f.key
  let rd (off n : Nat) : Nat := leNat ((bs.drop off).take n)
  let h := s.share k.share
  if rd 0 4 ≠ 1 ∨ rd 0x1C 2 ≠ f.fid ∨ rd 0x1E 1 ≠ h.hid ∨ rd 0x20 4 ≠ h.pid ∨ rd 0x24 2 ≠ h.ctx + 512 * h.ten then
    s.fatal k 0x12 ua
  else if rd 0x08 8 % 65536 ≥ 65520 then s.fatal k 0x11 ua
  else
    let mask := BitVec.ofNat 32 (rd 0x28 4)
    let fs := rd 0x26 2
    let s0 := s.accessVa k v
    let s1 := s0.bump.bufferWrite k s0.serial d 4 (.store (leBytes 4 2)) false v
    let dbg := decide (rd 4 1 = 5 ∨ rd 4 1 = 6)
    s1.updFibre k fun g =>
      let g1 : Fibre := { g with
        regs := Vector.ofFn fun i => if mask.getLsbD i.val then BitVec.ofNat 32 (rd (0x40 + 4 * i.val) 4) else g.regs[i]
        preds := predsOf (rd 0x30 2)
        esc := BitVec.ofNat 32 (rd 0x2C 4) }
      let g2 := ((g1.setFs fsER (fs.testBit fsER)).setFs fsFR (fs.testBit fsFR)).resumeAt more (wordAddr (BitVec.ofNat 64 (rd 0x08 8))) (if dbg then 8 else 0)
      if dbg then g2.setFs fsST (fs.testBit fsST) else g2.setFs fsFP false

/-- RESUME of the frame at `v` for fibre `k`, with what peers hold of it; `more` says that units of its chain follow. Its reads go through the leaves that map the frame (R127, R129). -/
def State.resumeFrame (s : State) (k : FKey) (v : DWord) (far : List Byte) (ua : DWord) (more : Bool) : State :=
  match s.fibre? k with
  | none => s
  | some f =>
    if v.toNat % 64 ≠ 0 then s.fatal k 0x11 ua
    else
      let s := if far.isEmpty then s.frameAccess k v.toNat else s
      match s.frameRead f v.toNat far 12, s.frameLoc k v.toNat with
      | .error c, _ => s.fatal k c ua
      | .ok _, .error c => s.fatal k c ua
      | .ok bs, .ok d => s.takeFrame f v.toNat d bs ua more

/-! ### The scoreboard (R85) -/

/-- The predicates, special registers and link pair that an instruction reads or writes besides its register operands. -/
def instrOtherLocs : Instr → List Loc
  | .call .. => regLocs 2 2
  | .callx .. => regLocs 2 2
  | .ret _ => regLocs 2 2
  | .cont .. => [.cont]
  | .movs _ _ .fs => [.fs]
  | .movs _ _ .esc => [.esc]
  | .movs _ _ .cont => [.cont]
  | .movs _ _ .fault => [.fault]
  | .movsw _ _ .fs => [.fs]
  | .movsw _ _ .esc => [.esc]
  | .movsw _ _ .cont => [.cont]
  | .movsw _ _ .fault => [.fault]
  | .pand _ d a b _ _ => [.pred d, .pred a, .pred b]
  | .por _ d a b _ _ => [.pred d, .pred a, .pred b]
  | .pxor _ d a b _ _ => [.pred d, .pred a, .pred b]
  | .pnot _ d a => [.pred d, .pred a]
  | .pmov _ d a _ => [.pred d, .pred a]
  | .pset _ d _ => [.pred d, .fs]
  | .cmp _ d _ _ _ _ => [.pred d]
  | .escm .. => [.esc]
  | .valset _ d _ _ _ => [.pred d]
  | .mdrn _ _ _ p _ => [.pred p]
  | .fork .. => [.fs]
  | .join .. => [.fs]
  | .fence _ => [.fs]
  | .waitcSigned .. | .waitcUnsigned .. | .twait .. => [.fs]
  | .resume .. | .trap .. => [.fs, .esc]
  | _ => []

/-- The unit asks for an escort: E = 1. -/
def instrEsc : Instr → Bool
  | .ld _ _ _ _ e _ => e
  | .ldNarrow _ _ _ _ e _ => e
  | .ldf _ _ _ _ e _ => e
  | .ldAcq _ _ _ _ e _ => e
  | .ldv _ _ _ _ e _ => e
  | .casv _ _ _ _ e _ => e
  | .atomAdd _ _ _ _ e _ | .atomAnd _ _ _ _ e _ | .atomOr _ _ _ _ e _ | .atomXor _ _ _ _ e _ => e
  | .atomMin _ _ _ _ e _ | .atomMax _ _ _ _ e _ | .atomExch _ _ _ _ e _ | .atomCas _ _ _ _ e _ => e
  | .atomFadd _ _ _ _ e => e
  | .atomOrdAdd _ _ _ _ e _ | .atomOrdAnd _ _ _ _ e _ | .atomOrdOr _ _ _ _ e _ | .atomOrdXor _ _ _ _ e _ => e
  | .atomOrdMin _ _ _ _ e _ | .atomOrdMax _ _ _ _ e _ | .atomOrdExch _ _ _ _ e _ | .atomOrdCas _ _ _ _ e _ => e
  | .atomOrdFadd _ _ _ _ e => e
  | .rwl _ _ _ _ e _ => e
  | _ => false

/-- The units that would wait (R86). -/
def instrWaits : Instr → Bool
  | .waitcSigned .. | .waitcUnsigned .. | .twait .. | .join .. | .sleep .. | .quit .. | .fence .. | .bar .. => true
  | _ => false

/-- Every location that a unit names, its guard included. -/
def instrLocs (i : Instr) : List Loc :=
  (i.opds.flatMap fun o => regLocs o.reg o.n) ++ instrOtherLocs i
  ++ (match i.hdr? with
      | some h => (match h.guard with
          | .on p _ => [.pred p.val]
          | .always => [])
      | none => [])
  ++ (if instrEsc i then [.esc, .fs] else [])

/-- The registers of a mask. -/
def maskLocs (m : Word) : List Loc := ((List.range 32).filter fun n => m.getLsbD n).map Loc.reg
/-- Every predicate. -/
def predLocs : List Loc := (List.range 12).map Loc.pred

/-- A tenancy's handler register (R336): DHIP and DHFRAME. -/
def offDhip (t : Nat) : Nat := 0xB010 + 0x20 * t
def offDhframe (t : Nat) : Nat := 0xB018 + 0x20 * t
/-- The address lies in the handler region of the fibre's tenancy (R336). -/
def State.inHandler (s : State) (k : FKey) (a : DWord) : Bool :=
  let r := s.reg (offDhip (s.tenOf k))
  r.getLsbD 0 && decide (a.toNat / 65536 = r.toNat / 65536)

/-- The locations that a unit of fibre `f` reads or writes without naming them: what it captures (R162), what a FORK copies (R90), what RESUME restores (R98), what a TRAP or DBRK records in its frame (R97, R306, R335), and the pair that a parameter word names (R211, R214). -/
def State.hiddenLocs (s : State) (f : Fibre) (xs : List (BitVec 17)) (i : Instr) : List Loc :=
  let window := maskLocs (windowMask (s.winOf f.key))
  match i with
  | .waitcSigned .. | .waitcUnsigned .. | .twait .. => window
  | .join .. => if f.nch = 0 then [] else window
  | .fork .. => maskLocs (forkMaskOf xs) ++ predLocs
  | .resume .. | .trap .. => window ++ predLocs
  | .dbrk .. => if s.inHandler f.key f.ip then [] else window ++ predLocs ++ [.fs, .esc]
  | .cpy .. | .tmm .. => regLocs ((xs.getLast?.getD 0#17).extractLsb' 0 5) 2
  | _ => if instrEsc i then maskLocs f.esc else []

/-- Every location that a unit of a fibre reads or writes (R85). -/
def State.unitLocs (s : State) (f : Fibre) (xs : List (BitVec 17)) (i : Instr) : List Loc := instrLocs i ++ s.hiddenLocs f xs i

/-- The members whose destinations a request writes (R84). -/
def Req.members (r : Req) : List FKey := if r.kind = .pref then [] else r.key :: r.also.map Prod.fst
/-- A destination of fibre `k` is pending from the request. -/
def Req.serves (r : Req) (k : FKey) : Bool := r.members.contains k
/-- Member `k` may issue fewer than `n` further units while the request is outstanding (R86). -/
def Req.short (r : Req) (k : FKey) (n : Nat) : Bool := (decide (r.key = k) && decide (r.left < n)) || r.also.any fun m => decide (m.1 = k) && decide (m.2 < n)
/-- The members in `ks` have issued one more unit (R86). -/
def Req.issued (ks : List FKey) (r : Req) : Req :=
  { r with left := if ks.contains r.key then r.left - 1 else r.left, also := r.also.map fun m => if ks.contains m.1 then (m.1, m.2 - 1) else m }

/-- What a unit that an engine thread serves writes: MDRN's predicate, and the register of a unit that waits for its thread (R210, R271, R272, R321). -/
def EngineOp.dests (e : EngineOp) : List Loc :=
  match e.kind with
  | .mdrn => [.pred e.pred.val]
  | .wopen | .wrevoke | .save | .rest | .keyld | .evict => regLocs e.dst 1
  | .tdset | .tdget | .tdinv | .mscl | .mzero | .mma | .cpy | .tmm | .monset | .monrd => []

/-- What a unit writes at the end of its wait: JOIN its register (R92), FENCE and FORK their bits of %fs (R90, R257), a PSET its predicate. -/
def Waiting.dests (w : Waiting) : List Loc :=
  match w.wait with
  | .join d => regLocs d 1
  | .fence _ | .fork .. => [.fs]
  | .pset p .. => [.pred p.val]
  | .none | .sleep _ | .quit .. | .bar .. | .unborn | .resume _ | .engine _ | .request _ | .tile _ | .xinv | .halted => []

/-- The locations pending for a fibre with the address of their producer (R85). -/
def State.pendingOf (s : State) (k : FKey) : List (Loc × DWord) :=
  (s.reqs.flatMap fun r =>
    if r.serves k then
      ((regLocs r.dst r.dw).map fun l => (l, r.unitAddr))
      ++ (match r.kind with
          | .valset _ _ p => [(.pred p.val, r.unitAddr)]
          | _ => [])
      ++ (if r.asks && !r.decided then [(.fs, r.unitAddr)] else [])
    else [])
  ++ (s.eops.flatMap fun e => if e.key = k then e.dests.map fun l => (l, e.unitAddr) else [])
  ++ ((s.fibre? k).map fun f => f.waits.flatMap fun w => w.dests.map fun l => (l, w.unit)).getD []

/-- %fs of fibre `k` stands as every unit before unit `seq` sets it (R95). -/
def State.fsKnown (s : State) (k : FKey) (seq : Nat) : Bool :=
  !(s.reqs.any fun r => decide (r.key = k ∧ r.seq < seq) && r.asks && !r.decided) && !(s.fibre? k).any fun f => f.fencedAt seq

/-- The unit at an address (R61): its IMX words, its consumer, and the consumer's address; or a decode cause. -/
def State.unitFrom (s : State) (t : Nat) (prot : Bool) : Nat → DWord → List (BitVec 17) → Except Nat (List (BitVec 17) × Instr × DWord)
  | 0, _, _ => .error 0x09
  | n + 1, a, xs =>
    match s.fetch t prot a with
    | .error c => .error c
    | .ok w =>
      match decode w with
      | .error c => .error c
      | .ok (.imx x) => if slotOf a = 2 then .error 0x09 else s.unitFrom t prot n (nextWord a) (xs ++ [x])
      | .ok i => .ok (xs, i, a)

def State.unitAt (s : State) (k : FKey) (a : DWord) : Except Nat (List (BitVec 17) × Instr × DWord) :=
  s.unitFrom (s.tenOf k) (s.ctx (s.ctxOf k)).prot 4 a []

/-! ### The split (R68) -/

/-- A register that the mask names is written by the unit. -/
def maskMeets (m : Word) (i : Instr) : Bool := (instrDests i).any fun l => match l with
  | .reg r => m.getLsbD r
  | .pred _ | .esc | .fs | .cont | .fault => false

/-- The masks of the members that are active in a unit with E = 1. -/
def escMasks (ms : List Fibre) (u : ChainUnit) : List Word :=
  if instrEsc u.i then (ms.filter fun f => match u.i.hdr? with
    | some h => f.guard h.guard
    | none => false).map fun f => f.esc
  else []

/-- Where a chain splits: before its escorting unit when a writer stands before it, else before the writer that follows it (R68). A writer whose guard is false for every member counts like any other (DESIGN CHOICE, log 93). -/
def splitAt (ms : List Fibre) (before : List ChainUnit) : List ChainUnit → Option DWord
  | [] => none
  | u :: t =>
    let masks := escMasks ms u
    if masks.any fun m => before.any fun v => maskMeets m v.i then some u.addr
    else match t.find? fun v => masks.any fun m => maskMeets m v.i with
    | some v => some v.addr
    | none => splitAt ms (before ++ [u]) t

/-- The part of a chain that issues in one cycle: what stands before its split. -/
def firstPart (ms : List Fibre) (us : List ChainUnit) : List ChainUnit :=
  match splitAt ms [] us with
  | none => us
  | some a => us.takeWhile fun u => decide (u.addr ≠ a)

/-- What the fibre would issue next in one cycle; nothing where its chain faults. -/
def State.nextChain (s : State) (f : Fibre) : List ChainUnit :=
  match s.chainAt f.key f.ip with
  | .error _ => []
  | .ok us => firstPart [f] us

/-! ### Lookahead windows and holds (R85 to R87) -/

/-- The fibre's budget does not cover its next chain, all of whose units issue in one cycle (R67, R86). -/
def State.windowSpent (s : State) (f : Fibre) : Bool :=
  (s.reqs.any fun r => r.short f.key 1) || ((s.reqs.any fun r => r.short f.key 3) && s.reqs.any fun r => r.short f.key (s.nextChain f).length)

/-- The locations that a unit must not touch inside the window of an escorting unit: its destination, and the registers it captured (R86). -/
def Req.touched (r : Req) (ls : List Loc) : Bool :=
  ls.any fun l => (regLocs r.dst r.dw).contains l || (match r.esc, l with
    | some (m, _), .reg n => m.getLsbD n
    | _, _ => false)

/-- The window of an escorting unit ends before a unit with these locations (R86), whatever its guard (DESIGN CHOICE, log 99). -/
def Req.endsBefore (r : Req) (i : Instr) (ls : List Loc) : Bool := instrEsc i || instrWaits i || r.touched ls

/-- The escort of a request is granted, or not decided yet. -/
def Req.escorting (r : Req) : Bool := r.asks && (!r.decided || r.granted)

/-- The window of an escorting unit of `f` ends before the fibre's next chain (R86). -/
def State.escortEnds (s : State) (f : Fibre) (r : Req) : Bool :=
  r.left == 0 ||
    (let us := s.nextChain f
     decide (r.left < us.length) || us.any fun u => r.endsBefore u.i (s.unitLocs f u.imxs u.i))

/-- A unit of the fibre reads or writes a pending location, or ends the window of an escorting unit (R85, R86). -/
def State.unitHeld (s : State) (f : Fibre) (xs : List (BitVec 17)) (i : Instr) : Bool :=
  let ls := s.unitLocs f xs i
  let pend := s.pendingOf f.key
  ls.any (fun l => pend.any fun p => decide (p.1 = l))
  || s.reqs.any fun r => decide (r.key = f.key) && r.escorting && r.endsBefore i ls

/-- The producer that a unit of the fibre's next chain waits for (R85, R345). -/
def State.heldOn (s : State) (f : Fibre) : Option DWord :=
  (s.nextChain f).findSome? fun u =>
    let ls := s.unitLocs f u.imxs u.i
    match (s.pendingOf f.key).find? fun p => ls.contains p.1 with
    | some p => some p.2
    | none => (s.reqs.find? fun r => decide (r.key = f.key) && r.escorting && r.endsBefore u.i ls).map fun r => r.unitAddr

/-- The fibre's next unit is held. -/
def State.heldUnit (s : State) (f : Fibre) : Bool :=
  if s.reqs.isEmpty && s.eops.isEmpty then false else
  match s.unitAt f.key f.ip with
  | .error _ => false
  | .ok (xs, i, _) => s.unitHeld f xs i

/-- R79: the fibre is ready. -/
def State.ready (s : State) (f : Fibre) : Bool :=
  (match f.res with
    | .resident _ => true
    | _ => false)
  && decide (f.wait = .none) && f.rfaults.isEmpty && !f.stepDue && decide ((s.ctx (s.ctxOf f.key)).st = 1)
  && !s.windowSpent f && !(s.reqs.any fun r => decide (r.key = f.key) && r.escorting && s.escortEnds f r) && !s.heldUnit f

/-- R79: cycles ready without issuing. -/
def State.age (s : State) (f : Fibre) : Nat :=
  match f.readyFrom with
  | some t => s.now - t
  | none => 0

/-- R82. -/
def State.urgent (s : State) (f : Fibre) : Bool := decide (2048 ≤ s.age f) && s.ready f

/-! ### The frame of a unit -/

/-- What a unit sees when it issues: its address (the first IMX word, R61), the word after it, its IMX words, and its active members as they stood before the chain (R67), in ascending lane order. -/
structure UnitCtx where
  q : Nat
  uaddr : DWord
  addr : DWord
  nxt : DWord
  imxs : List (BitVec 17)
  act : List Fibre
  seq : Nat
  deriving DecidableEq, Repr

/-- Members as they stood before the chain issued (R67). -/
def State.snapOf (s : State) (fl : Flock) : List Fibre :=
  if fl.snap.isEmpty then sortBy (fun a b => decide (a.key.l ≤ b.key.l)) (s.fibres.filter fun f => fl.members.contains f.key)
  else fl.snap

/-- The flock has issued a part of its chain (R66): its units issue in one cycle. -/
def Flock.mid (fl : Flock) : Bool := !fl.snap.isEmpty || !fl.imxs.isEmpty

def Flock.uaddr (fl : Flock) : DWord := if fl.imxs.isEmpty then fl.addr else fl.unitAddr

def unitCtx (h : Hdr) (fl : Flock) (s : State) : UnitCtx :=
  ⟨fl.q, fl.uaddr, fl.addr, nextWord fl.addr, fl.imxs, (s.snapOf fl).filter fun f => f.guard h.guard, s.serial⟩

/-- A member that a unit of the chain has moved goes where it leads, now that the whole chain has issued (R56). -/
def Fibre.land (f : Fibre) : Fibre :=
  { f with ip := f.after.elim f.ip (fun a => a.1), cmpFrom := f.after.elim f.cmpFrom (fun a => a.2), after := none }

/-- The fibre's chain begins at `a`: where it is the rest of one that was cut there, it leads where that one led. -/
def Fibre.takeUp (f : Fibre) (a : DWord) : Fibre :=
  { f with
    after := f.after.or ((f.owed.find? fun o => decide (o.1 = a)).map fun o => o.2)
    owed := if f.after.isNone then f.owed.filter fun p => decide (p.1 ≠ a) else f.owed }

/-- The chain of member `f` began with the unit that issues now. -/
def State.begins (s : State) (fl : Flock) (f : Fibre) : Bool := (s.snapOf fl).any fun x => decide (x.key = f.key ∧ x.ip = fl.uaddr)

/-- Every member advances past the unit (R83); its lookahead budgets fall by one (R86). (DEDUCED, log 74) -/
def State.beginUnit (s : State) (fl : Flock) : State :=
  let ua := fl.uaddr
  let fl' : Flock := { fl with snap := s.snapOf fl, addr := nextWord fl.addr, imxs := [], issued := fl.issued + 1, unitAddr := ua }
  { s.setFlock fl' with
    serial := s.serial + 1
    lastUnit := s.lastUnit.set fl.q (s.now, ua, fl.members.length)
    fibres := s.fibres.map fun f =>
      if fl.members.contains f.key then
        { f with
          after := if s.begins fl f then (f.takeUp ua).after else f.after
          owed := if s.begins fl f then (f.takeUp ua).owed else f.owed
          ip := if f.ip = ua then nextWord fl.addr else f.ip
          lastIssue := s.now
          readyFrom := none
          cmpFrom := 0
          cmpPast := if f.cmpPast = some ua then none else f.cmpPast
          stepDue := f.fsBit fsST && !s.inHandler f.key ua }
      else f
    reqs := s.reqs.map (Req.issued fl.members) }

/-- R81: the flock ends after a unit. -/
def State.flockEnds (s : State) (fl : Flock) : Bool :=
  fl.ending || decide (16 ≤ fl.issued)
  || fl.members.any (fun k => match s.fibre? k with
      | none => true
      | some f => decide (f.ip ≠ fl.addr) || decide (f.wait ≠ .none) || !f.rfaults.isEmpty || s.windowSpent f || (match f.res with
          | .resident _ => false
          | _ => true))
  || s.fibres.any fun f => decide (f.key.quarter = fl.q) && !fl.members.contains f.key
      && ((decide (f.key.share = fl.sh) && decide (f.ip = fl.addr) && s.ready f) || s.urgent f)

/-- Where the members of a flock stand after a chain, when they stand together. -/
def State.flockPc (s : State) (fl : Flock) : DWord :=
  match fl.members with
  | [] => fl.addr
  | k :: _ => ((s.fibre? k).map fun f => f.ip).getD fl.addr

/-- The member goes on with its flock: one that has been stepped leaves it after the unit, and changes the issue of no other (R335). -/
def State.goesOn (s : State) (k : FKey) : Bool := ((s.fibre? k).map fun f => !f.stepDue).getD true

/-- The flock of a quarter after a unit: its chain goes on, or else the flock goes on or ends (R81). -/
def State.closeFlock (s : State) (c : Bool) (q : Nat) : State :=
  match s.flockOf? q with
  | none => s
  | some fl =>
    let stay := fl.members.filter fun k => s.goesOn k
    if stay.isEmpty then s.endFlock q
    else if c then (if stay.length = fl.members.length then s else s.setFlock { fl with members := stay, snap := fl.snap.filter fun f => s.goesOn f.key })
    else
      let fl1 : Flock := { fl with members := stay, snap := [], imxs := [], held := [], split := none }
      let fl' : Flock := { fl1 with addr := s.flockPc fl1 }
      if s.flockEnds fl' then s.endFlock q else s.setFlock fl'

/-- The members of a flock that its chain has moved go where it leads (R56). -/
def State.landMembers (s : State) (fl : Flock) : State := { s with fibres := s.fibres.map fun f => if fl.members.contains f.key then f.land else f }

/-- After a unit of a flock: the chain goes on where C = 1; otherwise it is over, and members that it has moved go where it leads (R56, R66). -/
def State.closeUnit (s : State) (c : Bool) (fl : Flock) : State := (if c then s else s.landMembers fl).closeFlock c fl.q

/-- An instruction word runs on the flock of the current quarter; without one nothing happens (DESIGN CHOICE, log 3). (DESIGN CHOICE, log 6) -/
def runUnitAny (h : Hdr) (body : UnitCtx → State → State) (s : State) : State :=
  match s.flockOf? s.cur with
  | none => s
  | some fl => (body (unitCtx h fl s) (s.beginUnit fl)).closeUnit h.c fl

/-- The unit that issues next after a CPY with FOLN = 1 must be its follow-on MMA: any other one breaches, with cause 0x1E (R212). -/
def followed (body : UnitCtx → State → State) (c : UnitCtx) (s : State) : State :=
  match c.act.find? fun f => (s.fibre? f.key).any fun g => g.foln.isSome with
  | some f => s.fatal f.key 0x1E c.uaddr
  | none => body c s

/-- Every word but MMA. -/
def runUnit (h : Hdr) (body : UnitCtx → State → State) (s : State) : State := runUnitAny h (followed body) s

/-- The snapshot that member `k` computes from: the leader's where U = 1 (R84), none for a member that is not active. -/
def UnitCtx.source (c : UnitCtx) (u : Bool) (k : FKey) : Option Fibre :=
  match c.act.find? (fun f => decide (f.key = k)) with
  | none => none
  | some f => if u then c.act.head? else some f

/-- Writes an active member from its source; another fibre is unchanged. -/
def UnitCtx.write (c : UnitCtx) (u : Bool) (w : Fibre → Fibre → Fibre) (f : Fibre) : Fibre :=
  match c.source u f.key with
  | some o => w o f
  | none => f

/-- A unit that only writes registers, predicates or special registers of its active members. -/
def resultUnit (h : Hdr) (w : UnitCtx → Fibre → Fibre → Fibre) (s : State) : State :=
  runUnit h (fun c s => { s with fibres := s.fibres.map (c.write h.u (w c)) }) s

/-- The fibre still runs: its context has not been halted by an earlier member's fault. -/
def State.live (s : State) (k : FKey) : Bool :=
  match s.fibre? k with
  | some f => decide (f.wait ≠ .halted)
  | none => false

/-- A unit that acts for each active member in ascending lane order (R167, R198). A member that has left the flock in an earlier unit of the chain is no longer in `act`. -/
def memberUnit (h : Hdr) (act : UnitCtx → Fibre → State → State) (s : State) : State :=
  runUnit h (fun c s => c.act.foldl (fun s f => if s.live f.key then act c f s else s) s) s

/-- The IMX extension, absent 0 (R62). -/
def UnitCtx.x17 (c : UnitCtx) : BitVec 17 := c.imxs.getLast?.getD 0#17
/-- imm7 or x17 : imm7, sign-extended to 32 bits (R62). -/
def UnitCtx.imm7 (c : UnitCtx) (i : BitVec 7) : Word :=
  if c.imxs.isEmpty then i.signExtend 32 else (c.x17 ++ i).signExtend 32
/-- imm12 or x17 : imm12, sign-extended to 32 bits (R62). -/
def UnitCtx.imm12 (c : UnitCtx) (i : BitVec 12) : Word :=
  if c.imxs.isEmpty then i.signExtend 32 else (c.x17 ++ i).signExtend 32
/-- imm12 or x17 : imm12, unsigned (MOVH, R62). -/
def UnitCtx.uimm12 (c : UnitCtx) (i : BitVec 12) : Word :=
  if c.imxs.isEmpty then i.zeroExtend 32 else (c.x17 ++ i).zeroExtend 32
/-- The byte offset of a MEM-format unit (R62). -/
def UnitCtx.off (c : UnitCtx) : DWord := if c.imxs.isEmpty then 0#64 else c.x17.signExtend 64

end Sys2Proof.Machine
end

