-- ==== Sys2Proof/Machine/Operands.lean ====
section
/-! DEFINITION. Operand forms of the arithmetic units (R101) and the value of every integer, address and immediate operation (R103 to R109), for a width W of 32 or 64. -/

namespace Sys2Proof.Machine

/-- The outcome type of every meaning. -/
abbrev Out := Host.Outcome State Fault Refusal

def Fibre.setPair (f : Fibre) (r : RegNo) (v : DWord) : Fibre :=
  (f.setReg r (v.extractLsb' 0 32)).setReg (r + 1#5) (v.extractLsb' 32 32)

/-- A value operation on two W-bit operands and the old destination; `sg` is the .i type. -/
abbrev IntOp := (w : Nat) → (sg : Bool) → (d a b : BitVec w) → BitVec w
/-- An operation whose second operand is one 32-bit register in both widths (R103: shifts, BFE, BFI). -/
abbrev ShiftOp := (w : Nat) → (sg : Bool) → (d a : BitVec w) → (b : Word) → BitVec w

/-- RRR with three registers or three pairs. -/
def rrr (f : IntOp) (t : IntTy) (d a b : RegNo) (o g : Fibre) : Fibre :=
  if t.n = 1 then g.setReg d (f 32 t.signed (o.reg d) (o.reg a) (o.reg b))
  else g.setPair d (f 64 t.signed (o.pair d) (o.pair a) (o.pair b))

/-- RRR whose b names one register (R103). -/
def rrs (f : ShiftOp) (t : IntTy) (d a b : RegNo) (o g : Fibre) : Fibre :=
  if t.n = 1 then g.setReg d (f 32 t.signed (o.reg d) (o.reg a) (o.reg b))
  else g.setPair d (f 64 t.signed (o.pair d) (o.pair a) (o.reg b))

/-- The single-source forms (R103). -/
def rr1 (f : IntOp) (t : IntTy) (d a : RegNo) (o g : Fibre) : Fibre := rrr f t d a a o g

/-! ### R103 -/

def vIadd : IntOp := fun _ _ _ a b => a + b
def vIsub : IntOp := fun _ _ _ a b => a - b
def vImul : IntOp := fun _ _ _ a b => a * b
def vImulh : IntOp := fun w sg _ a b =>
  if sg then BitVec.ofInt w (a.toInt * b.toInt / 2 ^ w) else BitVec.ofNat w (a.toNat * b.toNat / 2 ^ w)
def vImad : IntOp := fun _ _ d a b => a * b + d
/-- sat of R103: clamped to the type's range. -/
def clamp (w : Nat) (sg : Bool) (v : Int) : BitVec w :=
  let lo : Int := if sg then -(2 ^ (w - 1)) else 0
  let hi : Int := if sg then 2 ^ (w - 1) - 1 else 2 ^ w - 1
  BitVec.ofInt w (max lo (min hi v))
/-- A W-bit operand as a number, signed for .i types. -/
def asInt {w : Nat} (sg : Bool) (a : BitVec w) : Int := if sg then a.toInt else a.toNat
def vIadds : IntOp := fun w sg _ a b => clamp w sg (asInt sg a + asInt sg b)
def vIsubs : IntOp := fun w sg _ a b => clamp w sg (asInt sg a - asInt sg b)
def vImin : IntOp := fun _ sg _ a b => if asInt sg a ≤ asInt sg b then a else b
def vImax : IntOp := fun _ sg _ a b => if asInt sg a ≤ asInt sg b then b else a
def vIabs : IntOp := fun w sg _ a _ => if sg then clamp w true (a.toInt.natAbs : Int) else BitVec.ofNat w a.toInt.natAbs
def vIneg : IntOp := fun w sg _ a _ => if sg then clamp w true (-a.toInt) else -a
def vAnd : IntOp := fun _ _ _ a b => a &&& b
def vOr : IntOp := fun _ _ _ a b => a ||| b
def vXor : IntOp := fun _ _ _ a b => a ^^^ b
def vNot : IntOp := fun _ _ _ a _ => ~~~a
def vPopc : IntOp := fun w _ _ a _ => BitVec.ofNat w ((List.range w).filter fun i => a.getLsbD i).length
def vClz : IntOp := fun w _ _ a _ => BitVec.ofNat w (if a.toNat = 0 then w else w - 1 - Nat.log2 a.toNat)
def vBrev : IntOp := fun _ _ _ a _ => a.reverse

/-! ### R104 -/

def vIdiv : IntOp := fun w sg _ a b =>
  if b = 0#w then
    (if sg then (if 0 ≤ a.toInt then BitVec.ofInt w (2 ^ (w - 1) - 1) else BitVec.ofInt w (-(2 ^ (w - 1))))
     else BitVec.allOnes w)
  else if sg then BitVec.ofInt w (Int.tdiv a.toInt b.toInt) else BitVec.ofNat w (a.toNat / b.toNat)
def vIrem : IntOp := fun w sg _ a b =>
  if b = 0#w then a
  else if sg then BitVec.ofInt w (Int.tmod a.toInt b.toInt) else BitVec.ofNat w (a.toNat % b.toNat)

/-! ### R105, R106 -/

/-- The count of a shift: the low 8 bits of gb. -/
def shiftCount (b : Word) : Nat := b.toNat % 256
def vShl : ShiftOp := fun _ _ _ a b => a <<< shiftCount b
def vShr : ShiftOp := fun _ _ _ a b => a >>> shiftCount b
def vSar : ShiftOp := fun _ _ _ a b => a.sshiftRight (shiftCount b)
def vRot : ShiftOp := fun w _ _ a b => a.rotateLeft (shiftCount b % w)
/-- p and n of R106. -/
def fieldPos (w : Nat) (b : Word) : Nat := min (b.toNat % 256) w
def fieldLen (w : Nat) (b : Word) : Nat := min (b.toNat / 256 % 256) (w - fieldPos w b)
def vBfe : ShiftOp := fun w sg _ a b =>
  let n := fieldLen w b
  let v := a.toNat / 2 ^ fieldPos w b % 2 ^ n
  if n = 0 then 0#w
  else if sg then BitVec.ofInt w (signedOf n v) else BitVec.ofNat w v
def vBfi : ShiftOp := fun w _ d a b =>
  let n := fieldLen w b
  let m : BitVec w := BitVec.ofNat w (2 ^ n - 1) <<< fieldPos w b
  (d &&& ~~~m) ||| ((a <<< fieldPos w b) &&& m)

/-! ### R107 to R109 -/

/-- ADDP. -/
def vAddp (a : DWord) (b : Word) (sh : BitVec 2) : DWord := a + (b.signExtend 64 <<< sh.toNat)
/-- The count of an immediate shift, 0 to 31. -/
def immCount (v : Word) : Nat := v.toNat % 32

end Sys2Proof.Machine
end

