-- ==== Sys2Proof/Machine/Flags.lean ====
section
/-! DEFINITION. Predicate results: comparisons (R96), the predicate operations (R94) and the %fs bits (R78, R95). The machine has no arithmetic flags (R101, R112). -/

namespace Sys2Proof.Machine

/-- A comparison of two numbers. -/
def ccInt (cc : CC) (a b : Int) : Bool :=
  match cc with
  | .eq => decide (a = b)
  | .ne => decide (a ≠ b)
  | .lt => decide (a < b)
  | .ge => decide (b ≤ a)

/-- A comparison of two floating values: NaN makes .eq, .lt and .ge false and .ne true (R72, R96). -/
def ccFp (cc : CC) (x y : FV) : Bool :=
  if x.isNan || y.isNan then decide (cc = .ne)
  else
    let o := x.cmp y
    match cc with
    | .eq => o == .eq
    | .ne => o != .eq
    | .lt => o == .lt
    | .ge => o != .lt

/-- R96: (ga cc gb) under the type. -/
def cmpValue (t : CmpTy) (cc : CC) (a b : RegNo) (o : Fibre) : Bool :=
  match t with
  | .i32 => ccInt cc (o.reg a).toInt (o.reg b).toInt
  | .b32 => ccInt cc (o.reg a).toNat (o.reg b).toNat
  | .i64 => ccInt cc (o.pair a).toInt (o.pair b).toInt
  | .b64 => ccInt cc (o.pair a).toNat (o.pair b).toNat
  | .f32 => ccFp cc (fmt32.decode (o.reg a).toNat) (fmt32.decode (o.reg b).toNat)
  | .f64 => ccFp cc (fmt64.decode (o.pair a).toNat) (fmt64.decode (o.pair b).toNat)

/-- The bit number of a PSET source (R95). -/
def fsBitNo : FsBit → Nat
  | .er => fsER
  | .st => fsST
  | .fp => fsFP
  | .rf => fsRF
  | .fr => fsFR

/-- %fs as MOVS reads it: AB reads 0 to the fibre itself (R78). -/
def Fibre.fsRead (f : Fibre) : Word := setBit f.fs fsAB false

/-- MOVSW to %fs: writing 1 to ER, FP, RF or FR clears the bit (R78, R99). -/
def Fibre.fsWrite (f : Fibre) (v : Word) : Fibre := { f with fs := f.fs &&& ~~~(v &&& 0x39#32) }

end Sys2Proof.Machine
end

