-- ==== Sys2Proof/Machine/Memsys.lean ====
section
/-! DEFINITION. Accesses and requests: the checks of R149, the outstanding transaction table (R171), escorts (R159 to R181), performing a read or an atomic (R220, R228, R231, R240 to R250), and bringing its result home (R165, R172, R173). -/

namespace Sys2Proof.Machine

/-! ### The checks of an access (R149, R151, R158) -/

inductive Acc where
  | ok (d : Dest) (l : Option Leaf)
  | fatal (cause : Nat)
  | trans (reason : Nat)
  deriving DecidableEq, Repr

/-- R149, R244: alignment, translation, PR, RO, in this order. Poison is met when the data are consumed (R140). -/
def State.access (s : State) (k : FKey) (va align : Nat) (write : Bool) : Acc :=
  if va % align ≠ 0 then .fatal 0x13
  else match s.translate (s.tenOf k) va with
  | .fail r => .trans r
  | .poison => .fatal 0x18
  | .ok l =>
    if l.pr && !(s.ctx (s.ctxOf k)).prot then .fatal 0x17
    else if write && l.ro then .fatal 0x16
    else
      .ok (s.destOf l va) (some l)

/-- R151: alignment, range, and R11 for full/empty operations. -/
def State.spadAccess (s : State) (k : FKey) (va n align : Nat) (fe : Bool) : Acc :=
  if va % align ≠ 0 then .fatal 0x13
  else match s.spadDest k va n with
  | .error c => .fatal c
  | .ok loc => if fe && !s.fullEmptyOk k va then .fatal 0x15 else .ok (.home loc) none

/-- Global, or with bit 63 a scratchpad address (R241). -/
def State.atomAccess (s : State) (k : FKey) (va n : Nat) : Acc :=
  if va % n ≠ 0 then .fatal 0x13
  else if va ≥ 2 ^ 63 then s.spadAccess k (va - 2 ^ 63) n n false
  else s.access k va n true

/-! ### Escorts: the decision (R166, R167, R170) -/

/-- Grants or refuses an escort of `m` registers to fibre `k`; `off` says that the request leaves the package. The answer is whether it is granted. -/
def State.grantEscort (s : State) (k : FKey) (m : Nat) (off : Bool) : State × Bool :=
  let size := 16 + 4 * m
  let q := s.quarter k.quarter
  let h := s.share k.share
  let short := off && decide (q.credit < size)
  if q.charge + size > 131072 ∨ h.charge + size > h.escq ∨ short then
    (((if short then s.updQuarter k.quarter fun q => { q with refill := true } else s).updFibre k fun f => f.setFs fsER true), false)
  else
    let s := s.updQuarter k.quarter fun q =>
      let credit := if off then q.credit - size else q.credit
      { q with charge := q.charge + size, credit := credit, refill := q.refill || decide (credit < 8192) }
    let s := s.updShare k.share fun h => { h with charge := h.charge + size }
    (s.updFibre k fun f => f.setFs fsER false, true)

/-- Releases a charge (R166). -/
def State.releaseCharge (s : State) (k : FKey) (n : Nat) : State :=
  (s.updQuarter k.quarter fun q => { q with charge := q.charge - n }).updShare k.share fun h => { h with charge := h.charge - n }

def Dest.offPackage : Dest → Bool
  | .home _ => false
  | .peer .. => true

/-- The request leaves the package: an L1 or a store of the package does not answer it. -/
def Req.offPackage (r : Req) : Bool := r.dest.offPackage && !r.served

/-- The request has left its cluster, or has its answer (R163). -/
def Req.out (r : Req) : Bool := !r.dest.offPackage || r.sent || r.ans.isSome || r.fail.isSome

/-- The decision of one request (R163). -/
def State.decideOne (s : State) (r : Req) : State :=
  match r.esc with
  | none => s.updReq r.id fun q => { q with decided := true }
  | some (m, _) =>
    let (s, g) := s.grantEscort r.key (popMask m) r.offPackage
    s.updReq r.id fun q => { q with decided := true, granted := g, charge := if g then 16 + 4 * popMask m else 0 }

/-- ESCORT_DECISION: the members of a request's unit are decided in one cycle, in ascending lane order (R163, R167). -/
def State.decideReq (s : State) (r : Req) : State :=
  if r.decided || !r.asks || !r.out then s else
  (sortBy (fun (a b : Req) => decide (a.key.l ≤ b.key.l)) (s.reqs.filter fun o =>
    decide (o.seq = r.seq ∧ o.key.quarter = r.key.quarter) && o.asks && !o.decided && o.out)).foldl (fun (s : State) o => s.decideOne o) s

/-! ### Windows, displacement and reinstatement (R161, R172 to R176) -/

/-- Bytes of a window, G of R44. -/
def State.gOf (s : State) (k : FKey) : Nat := 4 * s.winOf k

/-- The record header and words of R161. -/
def recordBytes (k : FKey) (sgen : Nat) (e : EscRec) : List Byte :=
  let dw := if e.dw = 0 then 0 else if e.dw = 1 then 1 else if e.dw = 2 then 2 else 3
  leBytes 16 (e.mask.toNat * 2 ^ 96 + k.c * 2 ^ 88 + k.k * 2 ^ 86 + k.l * 2 ^ 79 + k.s * 2 ^ 74 + sgen % 256 * 2 ^ 66 + e.tag % 2048 * 2 ^ 55
    + (if dw = 0 then 0 else e.dst.toNat) * 2 ^ 50 + dw * 2 ^ 48 + e.fc * 2 ^ 40 + e.kind * 2 ^ 36 + 2 ^ 32 + e.depc.toNat)
  ++ ((List.range 32).filter fun i => e.mask.getLsbD i).flatMap fun i => leBytes 4 (e.vals.toList.getD i 0#32).toNat

/-- `n` bytes at a virtual address, split where a 64 KiB page ends: (offset, length) pairs. -/
def pagePieces (va n : Nat) : List (Nat × Nat) :=
  let m := min n (65536 - va % 65536)
  if m = n then [(0, n)] else [(0, m), (m, n - m)]

/-- Where `n` bytes at offset `off` of landing entry `i` of a context lie, as (location, offset, length), if all of them may be written (R175). -/
def State.landParts (s : State) (c i off n : Nat) : Option (List (Nat × Nat × Nat)) :=
  let x := s.ctx c
  let va := x.lrec.land.toNat + i * (16 + 4 * x.lrec.win) + off
  (pagePieces va n).mapM fun p =>
    match s.translate x.ten (va + p.1) with
    | .ok l =>
      let loc := l.pa + (va + p.1) % 2 ^ l.sizeBits
      if l.mode = 0 ∧ !l.ro ∧ isDram loc ∧ (!l.pr ∨ x.prot) then some (loc, p.1, p.2) else none
    | .fail _ => none
    | .poison => none

/-- No access touches the landing area of a context now: a page of it, or of a table that maps it, is in flip or waits for the host (R145, R238). -/
def State.landHeld (s : State) (c : Nat) : Bool :=
  let x := s.ctx c
  let n := x.lrec.lsize.toNat
  decide (n ≠ 0) && (List.range ((n + 65534) / 65536 + 1)).any fun i =>
    let va := min (x.lrec.land.toNat + 65536 * i) (x.lrec.land.toNat + n - 1)
    s.walkHeld x.ten va || (match s.translate x.ten va with
      | .ok l => decide (l.mode = 0) && s.pageHeld (l.pa + va % 2 ^ l.sizeBits)
      | .fail _ => false
      | .poison => false)

/-- A write to a landing entry; none where it does not translate as R175 asks. -/
def State.landWrite (s : State) (c i off : Nat) (bs : List Byte) : Option State :=
  (s.landParts c i off bs.length).map fun ps => ps.foldl (fun (s : State) p =>
    let x := s.ctx c
    ((s.meetVa (some c) x.ten (x.lrec.land.toNat + i * (16 + 4 * x.lrec.win) + off + p.2.1)).snoopNow p.1 p.2.2).bump.applyBytes s.serial p.1 ((bs.drop p.2.1).take p.2.2) none) s

/-- Bytes of a landing entry. -/
def State.landRead (s : State) (c i off n : Nat) : Option (List Byte) :=
  (s.landParts c i off n).map fun ps => ps.flatMap fun p => s.mem.readBytes p.1 p.2.2

/-- What the reads of `n` bytes of a landing entry send to the host (R144). -/
def State.landSnoop (s : State) (c i n : Nat) : State :=
  ((s.landParts c i 0 n).getD []).foldl (fun (s : State) p => s.snoopNow p.1 p.2.2) s

/-- A landing write that cannot be made is the fatal fault PROTECTION of cause 0x19 (R175). -/
def State.landOrFault (s : State) (k : FKey) (c i off : Nat) (bs : List Byte) : State :=
  (s.landWrite c i off bs).getD (s.fatal k 0x19 0#64)

/-- The lowest free landing entry (DESIGN CHOICE, log 11), or none; `.error`: the area cannot be written (cause 0x19). -/
def State.freeEntry (s : State) (c : Nat) : Nat → Nat → Except Unit (Option Nat)
  | 0, _ => .ok none
  | n + 1, i =>
    match s.landRead c i 0 (16 + 4 * (s.ctx c).lrec.win) with
    | none => .error ()
    | some bs => if (bs.getD 4 0#8).toNat % 2 = 0 then .ok (some i) else s.freeEntry c n (i + 1)

def State.landEntries (s : State) (c : Nat) : Nat :=
  let x := s.ctx c
  x.lrec.lsize.toNat / (16 + 4 * x.lrec.win)

/-- Writes a record to the landing area; the entry taken, none when full or held, error when it cannot be written. -/
def State.landRecord (s : State) (k : FKey) (e : EscRec) : Except Unit (Option (State × Nat)) :=
  let c := s.ctxOf k
  if s.landHeld c then .ok none else
  match s.freeEntry c (s.landEntries c) 0 with
  | .error () => .error ()
  | .ok none => .ok none
  | .ok (some i) =>
    match ((List.range (i + 1)).foldl (fun (s : State) j => s.landSnoop c j 16) s).landWrite c i 0 (recordBytes k (s.sgen.getD k.share 0) e) with
    | some s => .ok (some (s, i))
    | none => .error ()

/-- Windows of the fibre's share on its lane that no fibre holds (R46, R173). (DESIGN CHOICE, log 10) -/
def State.freeWindow? (s : State) (k : FKey) : Option Nat :=
  (List.range (s.share k.share).windows).find? fun w =>
    !(s.fibres.any fun f => decide (f.key.share = k.share ∧ f.key.l = k.l ∧ f.res = .resident w))

/-- Lodge windows of the lane (R46) that no fibre holds. -/
def State.freeLodge? (s : State) (k : FKey) : Option Nat :=
  let h := s.share k.share
  (List.range ((h.lim - h.bndc) * 16 / s.gOf k)).find? fun w =>
    !(s.fibres.any fun f => decide (f.key.share = k.share ∧ f.key.l = k.l ∧ f.res = .lodged w))

/-- The unit that a fibre without an escort waits at, or issues next. -/
def State.awayUnit (s : State) (f : Fibre) : DWord :=
  match s.reqs.find? fun r => r.serves f.key with
  | some r => r.unitAddr
  | none => ((f.waits.head?).map fun w => w.unit).getD f.ip

/-- Puts a whole window away as a record of KIND `kind`: lodge first when `lodge`, then the landing area. None: no place. A record of a unit without a table entry has TAG 0 (DESIGN CHOICE, log 101); an escort that the record replaces gives its charge back (R166). -/
def State.putAway (s : State) (f : Fibre) (kind : Nat) (lodge : Bool) : Option State :=
  let m := windowMask (s.winOf f.key)
  let e : EscRec := ⟨m, maskRegs m f.regs, kind, 0#5, 0, 0, (s.cyc[f.key.die % 4]'(Nat.mod_lt _ (by decide))).extractLsb' 0 32, 0, 0, s.awayUnit f⟩
  let gone (g : Fibre) (r : Res) : Fibre := { g with res := r, rcd := some e, regs := Vector.replicate 32 0#32, since := s.now, putAt := s.serial, fs := setBit g.fs fsAB true, readyFrom := none }
  let s := s.bump.releaseCharge f.key ((f.rcd.map fun e => e.charge).getD 0)
  match (if lodge then s.freeLodge? f.key else none) with
  | some w => some ((s.updFibre f.key fun g => gone g (.lodged w)).leaveFlock f.key)
  | none =>
    match s.landRecord f.key e with
    | .error () => some (s.fatal f.key 0x19 0#64)
    | .ok none => none
    | .ok (some (s1, i)) => some ((s1.updFibre f.key fun g => gone g (.landed i)).leaveFlock f.key)

/-- R173: the destination is that of a unit that waits on a party outside its quarter: a long-latency unit whose request has left the cluster, or a WAITC, TWAIT or LDF that waits resident because its escort was refused. -/
def Req.awaitsAbroad (r : Req) : Bool :=
  match r.kind with
  | .load .. | .ldv _ | .atom .. | .rwl .. | .casv .. => r.tag.isSome && (!r.dest.offPackage || r.sent)
  | .ldf _ => (r.asks && r.decided && !r.granted) || (match r.dest with
      | .home l => r.tag.isSome && decide (spadShare l / 4 ≠ r.key.c)
      | .peer .. => r.sent)
  | .waitc .. | .twait _ => r.decided && !r.granted
  | .valset .. | .frame | .pref => false

/-- The pending location of a wait does not keep its fibre from displacement (R173): a JOIN must have been refused its escort. -/
def Fibre.waitMoves (f : Fibre) : Wait → Bool
  | .none | .sleep _ | .fence .. | .bar .. | .request _ | .xinv | .quit .. => true
  | .join _ => f.rcd.isNone
  | .pset .. | .fork .. | .unborn | .resume _ | .engine _ | .tile _ | .halted => false

/-- R173: the fibre may be displaced. A FORK or RESUME under way keeps %fs pending, an engine unit its register. -/
def State.eligible (s : State) (f : Fibre) : Bool :=
  (match f.res with
    | .resident _ => true
    | _ => false)
  && f.rfaults.isEmpty && f.waits.all (fun w => f.waitMoves w.wait)
  && !(s.reqs.any fun r => r.serves f.key && ((r.asks && !r.decided) || !r.awaitsAbroad))
  && !(s.eops.any fun e => decide (e.key = f.key) && !e.dests.isEmpty)

/-- The victim: most cycles without issuing, ties to the lower stub number (R173). -/
def State.victim? (s : State) (k : FKey) : Option Fibre :=
  (s.fibres.filter fun f => decide (f.key.share = k.share ∧ f.key.l = k.l) && s.eligible f).foldl
    (fun b f => match b with
      | none => some f
      | some g => if f.lastIssue < g.lastIssue ∨ (f.lastIssue = g.lastIssue ∧ f.key.s < g.key.s) then some f else b) none

/-- The words of a landing entry over those of a window (R161). -/
def entryWords (bs : List Byte) (base : Vector Word 32) : Vector Word 32 :=
  let rd (off : Nat) : Nat := leNat ((bs.drop off).take 4)
  let m := BitVec.ofNat 32 (rd 12)
  Vector.ofFn fun j => if m.getLsbD j.val then BitVec.ofNat 32 (rd (16 + 4 * popMask (m &&& BitVec.ofNat 32 (2 ^ j.val - 1)))) else base[j]

/-- The window words a record brings back (R172): from the record, or from the landing entry. -/
def State.recordWords (s : State) (f : Fibre) : Vector Word 32 :=
  match f.res with
  | .landed i =>
    (match s.landRead (s.ctxOf f.key) i 0 (16 + s.gOf f.key) with
      | some bs => entryWords bs (Vector.replicate 32 0#32)
      | none => f.regs)
  | _ =>
    (match f.rcd with
      | some e => maskRegs e.mask e.vals
      | none => f.regs)

/-- A reinstatement into a quarter ends the flock of the fibre's share there (R81). -/
def Flock.after (k : FKey) (g : Flock) : Option Flock :=
  if g.q ≠ k.quarter ∨ g.sh ≠ k.share then some g
  else if g.snap.isEmpty && g.imxs.isEmpty then none else some { g with ending := true }

/-- The fibre takes window `w` (R172); a fault that came back is then delivered (R179). -/
def State.enterWindow (s : State) (f : Fibre) (w : Nat) : State :=
  let words := s.recordWords f
  let s := match f.res with
    | .landed i => (s.landSnoop (s.ctxOf f.key) i (16 + s.gOf f.key)).landOrFault f.key (s.ctxOf f.key) i 4 (leBytes 4 0)
    | _ => s
  let s := s.releaseCharge f.key ((f.rcd.map fun e => e.charge).getD 0)
  let s := s.updFibre f.key fun g => { g with
    res := .resident w, regs := words, rcd := none, retFrom := none, parkedAt := none
    rfaults := g.rfaults.map fun r => { r with mask := (f.rcd.map fun e => e.mask).getD r.mask }
    fs := setBit g.fs fsAB false, lastIssue := s.now, readyFrom := none }
  let s : State := { s with flocks := s.flocks.filterMap (Flock.after f.key) }
  s.deliverNext f.key

/-- The fibre's record lies in the landing area, which no access touches now (R238). -/
def State.landWaits (s : State) (f : Fibre) : Bool :=
  match f.res with
  | .landed _ => s.landHeld (s.ctxOf f.key)
  | _ => false

/-- REINSTATEMENT of a returning fibre (R172, R173): a free window, or a victim's. It waits when there is neither, and while its quarter is stopped (R340). -/
def State.reinstate (s : State) (k : FKey) : State :=
  match s.fibre? k with
  | none => s
  | some f =>
    if f.retFrom.isNone || (s.quarter k.quarter).stopped || s.landWaits f then s else
    match s.freeWindow? k with
    | some w => s.enterWindow f w
    | none =>
      match s.victim? k with
      | none => s.count k.die 3
      | some v =>
        match s.putAway v 2 true with
        | none => s.count k.die 3
        | some s1 =>
          match s1.freeWindow? k, s1.fibre? k with
          | some w, some f1 => s1.enterWindow f1 w
          | _, _ => s1

/-- Waits during which a displaced fibre may not take a free window: it returns when they end. -/
def Wait.holdsDisplaced : Wait → Bool
  | .none | .sleep _ | .fence .. | .bar .. => false
  | .join _ | .quit .. | .pset .. | .fork .. | .unborn | .resume _ | .engine _ | .request _ | .tile _ | .xinv | .halted => true

/-- One of the fibre's waits keeps it where it is. -/
def Fibre.heldAway (f : Fibre) : Bool := f.waitsFor Wait.holdsDisplaced

/-- The fibre's turn among the returning fibres of its share and lane, which go first, or among the displaced ones, in the order of their displacement (R173, R174). -/
def State.turn (s : State) (f : Fibre) : Bool :=
  !(s.fibres.any fun g => decide (g.key.share = f.key.share ∧ g.key.l = f.key.l ∧ g.key ≠ f.key) &&
    (match f.retFrom, g.retFrom with
      | some t, some u => decide (u < t)
      | some _, none => false
      | none, some _ => true
      | none, none => g.parkedAt.isNone && !g.heldAway && !(s.reqs.any fun r => r.serves g.key) && decide (g.putAt < f.putAt)
          && (match g.res with
            | .lodged _ | .landed _ => true
            | _ => false)))

/-- A fibre whose reply has come takes a window if it is its turn; else it waits for its REINSTATEMENT. -/
def State.turnIn (s : State) (k : FKey) : State :=
  match s.fibre? k with
  | some f => if s.turn f then s.reinstate k else s
  | none => s

/-- A returning fibre of the share waits for a window of the lane (R173). -/
def State.claimed (s : State) (k : FKey) : Bool := s.fibres.any fun g => decide (g.key.share = k.share ∧ g.key.l = k.l) && g.retFrom.isSome

/-- A displaced fibre, or one in the landing area, takes a free window that no returning fibre claims (R174). -/
def State.reinstateDisplaced (s : State) (k : FKey) : State :=
  match s.fibre? k with
  | none => s
  | some f =>
    let waits := s.reqs.any fun r => r.serves k
    match f.res with
    | .lodged _ | .landed _ =>
      if waits || s.claimed k || f.heldAway || (s.quarter k.quarter).stopped || s.landWaits f then s
      else match s.freeWindow? k with
      | some w => s.enterWindow f w
      | none => s
    | _ => s

/-- DEPARTURE (R164) of a granted request `r`: the stub keeps the state, the window is freed. -/
def State.departNow (s : State) (k : FKey) (e : EscRec) : State :=
  (s.updFibre k fun f => { f with
    res := .abroad, rcd := some e, regs := Vector.replicate 32 0#32, fs := setBit f.fs fsAB true, readyFrom := none }).leaveFlock k

/-- A unit of the fibre's next chain waits for the register of an escorting unit (R86). -/
def State.stalls (s : State) (r : Req) : Bool :=
  r.escorting && !r.stalled && r.ans.isNone && ((s.fibre? r.key).any fun f => (match f.res with
    | .resident _ => true
    | _ => false) && decide (f.wait = .none) && (s.nextChain f).any fun u => r.touched (s.unitLocs f u.imxs u.i))

/-- Lookahead stalls are counted, one for each window that ends so (R86). -/
def State.countStalls (s : State) : State :=
  (s.reqs.filter fun r => s.stalls r).foldl (fun (s : State) r => (s.updReq r.id fun q => { q with stalled := true }).count r.key.die 1) s

/-- R87: departs only when no other register of the fibre is pending. -/
def State.departReq? (s : State) (k : FKey) : Option Req :=
  match s.fibre? k with
  | none => none
  | some f =>
    match f.res with
    | .resident _ =>
      (s.reqs.find? fun r => decide (r.key = k) && r.granted && r.ans.isNone
          && (if f.wait = .none then s.escortEnds f r else f.waitsOnly fun w => decide (w.request? = some r.id))).bind fun r =>
        if (s.reqs.any fun o => o.serves k && decide (o.id ≠ r.id)) || (s.eops.any fun e => decide (e.key = k) && !e.dests.isEmpty)
          || !f.rfaults.isEmpty then none else some r
    | _ => none

def State.departFor (s : State) (r : Req) : State :=
  match r.esc with
  | none => s
  | some (m, v) =>
    s.departNow r.key ⟨m, maskRegs m v, 0, r.dst, r.dw, 0, (s.cyc[r.key.die % 4]'(Nat.mod_lt _ (by decide))).extractLsb' 0 32, r.tag.getD 0, r.charge, r.unitAddr⟩

/-! ### Performing a request (R220, R222, R228, R231, R240 to R250) -/

/-- The request writes or reads as an RMW at its home. -/
def ReqKind.rmw : ReqKind → Bool
  | .atom .. | .rwl .. | .casv .. | .ldv .. | .ldf .. => true
  | .load .. | .waitc .. | .twait .. | .valset .. | .frame | .pref => false

/-- The newest write of the fibre's buffer, older than unit `seq`, that overlaps the bytes; none when there is none. A unit never reads a write that is younger than itself (DEDUCED from R220 and R222). -/
def Fibre.newest (f : Fibre) (seq : Nat) (d : Dest) (n : Nat) : Option BufWrite :=
  (f.wb.filter fun w => decide (w.seq < seq) && w.overlaps d n).getLast?

/-- Bytes of a buffered store that covers the whole read (R220). -/
def BufWrite.forward (w : BufWrite) (d : Dest) (n : Nat) : Option Nat :=
  match w.kind, w.dest, d with
  | .store bs, .home a, .home b => if a ≤ b ∧ b + n ≤ a + w.n then some (leNat ((bs.drop (b - a)).take n)) else none
  | .fill bs, .home a, .home b => if a ≤ b ∧ b + n ≤ a + w.n then some (leNat ((bs.drop (b - a)).take n)) else none
  | .store bs, .peer _ _ _ _ a, .peer _ _ _ _ b => if a ≤ b ∧ b + n ≤ a + w.n then some (leNat ((bs.drop (b - a)).take n)) else none
  | _, _, _ => none

def State.granuleFull (s : State) (loc : Nat) : Bool := s.full.contains (loc / 16)

/-- Every write that a view names has been applied, but for writes to peers (R223). -/
def State.viewApplied (s : State) (v : View) : Bool :=
  !(s.aq.any fun o => v.wids.contains o.wid)
  && !(s.fibres.any fun g => g.wb.any fun o => v.wids.contains o.wid && !o.dest.offPackage)

/-- R223: no older write of the fibre that overlaps an RMW of its own waits in an apply queue. -/
def State.ownApplied (s : State) (k : FKey) (loc n : Nat) : Bool :=
  !(s.aq.any fun o => decide (o.src = .fibre k) && overlap o.loc o.n loc n)

/-- R222, R226: what a release step of unit `seq` waits for. -/
def State.drained (s : State) (f : Fibre) (seq : Nat) : Bool :=
  !f.fencedAt seq && (s.olderReads f.key seq).isEmpty && !(f.wb.any fun w => decide (w.seq < seq)) && s.sentBefore f.key.die (s.ctxOf f.key) seq

/-- R226, R223: the step of unit `seq`, a release whose write is applied in it, is allowed. Its view names older writes only. -/
def State.releaseOk (s : State) (f : Fibre) (seq : Nat) : Bool := s.drained f seq && s.viewApplied (f.viewAt seq)

/-- The step of a local request is allowed. -/
def State.performOk (s : State) (f : Fibre) (r : Req) : Bool :=
  match r.dest with
  | .peer .. => false
  | .home loc =>
    let older := s.olderReads f.key r.seq
    let lineLoc := loc / 256 * 256
    let v := f.viewAt r.seq
    !s.pageHeld loc && !s.lineHeld loc r.id && !f.fencedAt r.seq
    && !older.any (fun o => o.acq || o.overlaps r.dest r.n)
    && (match r.kind with
        | .load n _ => (match f.newest r.seq r.dest n with
            | some w => (w.forward r.dest n).isSome
            | none => !s.viewPending v loc n)
        | .ldf n => s.granuleFull loc && (f.newest r.seq r.dest n).isNone && !s.viewPending v loc n
        | .ldv _ => (f.newest r.seq (.home lineLoc) 256).isNone && !s.viewPending v lineLoc 256
        | .atom .. => (f.newest r.seq r.dest r.n).isNone && s.ownApplied f.key loc r.n && !s.viewPending v loc r.n
        | .rwl .. => (f.newest r.seq r.dest r.n).isNone && s.ownApplied f.key loc r.n && !s.viewPending v loc r.n
        | .casv .. => (f.newest r.seq r.dest r.n).isNone && s.ownApplied f.key loc r.n && !s.viewPending v loc r.n
        | .waitc .. => (f.newest r.seq r.dest r.n).isNone && !s.viewPending v loc r.n
        | .twait _ => (f.newest r.seq r.dest r.n).isNone && !s.viewPending v loc r.n
        | .frame | .pref => false
        | .valset pairs st _ => older.isEmpty && (st.isNone || s.releaseOk f r.seq)
            && pairs.all (fun p => (f.newest r.seq (.home (p.1 * 256)) 256).isNone && !s.pageHeld (p.1 * 256) && !s.lineHeld (p.1 * 256) r.id
                && !s.viewPending v (p.1 * 256) 256))
    && (!r.rel || s.releaseOk f r.seq)

/-- The step of a local request consumes poisoned bytes (R140): a load that its own buffered store serves does not. -/
def State.eatsPoison (s : State) (f : Fibre) (r : Req) : Bool :=
  match r.dest, r.kind with
  | .peer .., _ => false
  | .home loc, .load n _ => (f.newest r.seq r.dest n).isNone && s.poisoned loc n
  | .home loc, .ldv w => w && s.poisoned loc 4
  | .home _, .valset .. | .home _, .frame | .home _, .pref => false
  | .home loc, .ldf n => s.poisoned loc n
  | .home loc, .atom .. | .home loc, .rwl .. | .home loc, .casv .. | .home loc, .waitc .. | .home loc, .twait _ => s.poisoned loc r.n

/-- Narrow results: zero- or sign-extended to the destination (R149). -/
def extendLoad (n : Nat) (signed : Bool) (v : Nat) : Nat :=
  if signed then (BitVec.ofInt 32 (signedOf (8 * n) v)).toNat else v

/-! ### Where an atomic is performed, and bells (R240, R254) -/

/-- Device words that pending launches watch (R34). -/
def State.depWatches (s : State) : List Nat :=
  s.pending.flatMap fun p => ([(p.lrec.dep0, p.sat0), (p.lrec.dep1, p.sat1)].filter fun d => !d.2 && decide (d.1 ≠ 0#64)).filterMap fun d =>
    match s.translate p.lrec.ten d.1.toNat with
    | .ok l => if l.mode = 0 ∧ isDram l.pa ∧ !s.hostBias (l.pa + d.1.toNat % 2 ^ l.sizeBits) then some (l.pa + d.1.toNat % 2 ^ l.sizeBits) else none
    | .fail _ => none
    | .poison => none

/-- A bell is armed on the line of a location: a waiter's, or one of the dispatcher's (R34). -/
def State.bellOn (s : State) (loc : Nat) : Bool :=
  (s.reqs.any fun r => r.bell && (match r.kind, r.dest with
    | .waitc .., .home l | .twait _, .home l => decide (l / 256 = loc / 256)
    | _, _ => false)) || s.depWatches.any fun l => decide (l / 256 = loc / 256)

/-- ATOM, ATOM.ord and RWL are performed in the L1 of the issuing share (R240). -/
def State.inL1 (s : State) (r : Req) (loc : Nat) : Bool :=
  isDram loc && !s.hostBias loc && !r.sa && !s.bellOn loc && (match r.kind with
    | .atom .. | .rwl .. => true
    | _ => false)

/-- An L1 in which every line holds dirty words that it does not own writes those of the first one back, and so has room for a line that it is granted (R132). -/
def State.grantRoom (s : State) (sh : Nat) : State :=
  if s.l1Roomy sh || (s.l1Room sh).l1Roomy sh then s else
  match s.l1.find? fun e => e.share = sh with
  | some e => s.writeBackLine sh e.line
  | none => s

/-- The line of an atomic goes where it is performed: the L1 obtains it, or the slice recalls its owner (R133, R240). -/
def State.placeAtomic (s : State) (r : Req) (loc : Nat) : State :=
  if s.inL1 r loc then (s.grantRoom r.key.share).grantLine r.key.share (loc / 256) else s.readLine loc r.n none false

/-- The share whose L1 an atomic's write is made in, if any. -/
def State.writeShare (s : State) (r : Req) (loc : Nat) : Option Nat := if s.inL1 r loc then some r.key.share else none

/-- The home slice of a location has one of its 1,024 bells free for request `id` (R254); the dispatcher's watches draw on the same ones. -/
def State.bellFree (s : State) (loc id : Nat) : Bool :=
  let sl := s.homeSlice loc
  decide ((s.reqs.filter fun r => r.bell && decide (r.id ≠ id) && (match r.kind, r.dest with
      | .waitc .., .home l | .twait _, .home l => decide (s.homeSlice l = sl)
      | _, _ => false)).length + (s.depWatches.filter fun l => decide (s.homeSlice l = sl)).length < 1024)

/-- The wait is not over: a bell is armed at the home slice and the line's owner recalled, where the slice can watch the word (R254, R255); else the fibre polls again. -/
def State.armBell (s : State) (r : Req) (loc : Nat) : State :=
  if isDram loc && !s.hostBias loc && !r.sa && s.bellFree loc r.id then (s.readLine loc r.n none false).updReq r.id fun q => { q with bell := true, waitFrom := 1 }
  else s.updReq r.id fun q => { q with bell := false, waitFrom := 1 }

/-! ### The step -/

/-- An RMW that writes (R228): its write is applied in the same step, and carries VW_f for the release class, else the view of the write it read. `view` is VW_f with what the step's read joins. Its stamp is its die's KN (DESIGN CHOICE, log 85). -/
def State.rmwWrite (s : State) (f : Fibre) (r : Req) (loc : Nat) (bs : List Byte) (view : View) : State :=
  let s1 := s.bump.applyFrom (s.writeShare r loc) true (s.stampOf f.key.die) s.serial loc bs (if r.rel then some view else s.carried loc bs.length)
  s1.updFibre f.key fun g => { g with view := g.view.name s.serial }

/-- The answer of a request is taken: it goes home, and its reads join the fibre's view. -/
def State.answer (s : State) (r : Req) (v : Nat) (w : View) : State :=
  (s.updReq r.id fun q => { q with ans := some v, ansView := w, bell := false, rd := none }).updFibre r.key fun g => { g with view := g.view.join w }

/-- The read of a modification in two steps: the word is noted, and the host asked again before the write (R240, R242). -/
def State.readFirst (s : State) (r : Req) (loc : Nat) : State :=
  (s.updReq r.id fun q => { q with rd := some (s.mem.read loc r.n) }).askHost loc r.n

/-- The L1 of a share at an acquire (R135): dirty words go back, and unowned lines are dropped. -/
def State.shareAcquire (s : State) (sh : Nat) : State := (s.writeBack sh).l1Acquire sh

/-- The L1 of an acquire's share. -/
def State.acquireL1 (s : State) (r : Req) : State := if r.acq then s.shareAcquire r.key.share else s

/-- The L1s of the requests that a bell or a granule has answered take their acquire, in the step of the answer (R135, R155, R254). -/
def State.acquireAnswers (s : State) : State :=
  (s.reqs.filter fun r => r.acq && r.ans.isSome && !r.l1Done && !r.dest.offPackage).foldl (fun (s : State) r =>
    (s.updReq r.id fun q => { q with l1Done := true }).acquireL1 r) s

/-- A load reaches its data: the L1 where it holds them; on a miss the sectors are filled from the predicted peer or the home slice (R132, R136). -/
def State.loadLine (s : State) (r : Req) (loc n : Nat) : State :=
  if isSpad loc then s else
  match r.cache with
  | none => s.readLine loc n none true
  | some ro =>
    let line := loc / 256
    let sectors := anySector (wordMask false line loc n)
    if s.l1Hit r.key.share loc n then s
    else
      let hit := ro && (s.probe r.key r.va fun e => decide (e.line = line) && e.valid &&& sectors == sectors).isSome
      let s := if ro then s.predictNext r.key r.va hit else s
      (if hit then s else s.readLine loc n (some r.key.share) true).l1Fill r.key.share line sectors ro

/-- Takes the step of a local request (allowed by `performOk`) and notes its answer; a waiting kind that is not satisfied stays. A load takes the instant of log 5; LDF, WAITC and TWAIT, which the scratchpad bank or the home slice answers, always read the present one, though R220 allows an earlier one (DESIGN CHOICE, log 5). -/
def State.perform (s : State) (f : Fibre) (r : Req) : State :=
  match r.dest with
  | .peer .. => s
  | .home loc =>
    let s := (s.snoop loc).useAnswer loc r.n
    let now := s.hist.length
    let v0 := f.viewAt r.seq
    let die := f.key.die
    match r.kind with
    | .load n sg =>
      (match f.newest r.seq r.dest n with
        | some w => (s.answer r (extendLoad n sg ((w.forward r.dest n).getD 0)) View.init).acquireL1 r
        | none =>
          let p := s.instant v0 loc n
          (((s.answer r (extendLoad n sg (s.readAt p loc n)) (s.afterRead v0 r.acq p loc n)).learnRead die p loc n).loadLine r loc n).acquireL1 r)
    | .ldf n =>
      (({ s with full := s.full.filter fun g => g ≠ loc / 16 }.answer r (s.mem.read loc n) (s.afterRead v0 true now loc n)).learnRead die now loc n).acquireL1 r
    | .ldv wd =>
      let lineLoc := loc / 256 * 256
      let s1 := (s.fillLine (loc / 256)).recall (loc / 256) true
      let s2 := if wd then s1.readLine loc 4 none true else s1
      ((s2.answer r ((s1.line loc).version + (if wd then s.mem.read loc 4 * 2 ^ 64 else 0)) (s.afterRead v0 true now lineLoc 256)).learnRead die now lineLoc 256).acquireL1 r
    | .atom op sg wide v e =>
      if s.twoSteps loc r.sa && r.rd.isNone then s.readFirst r loc else
      let n := if wide then 8 else 4
      let m := r.rd.getD (s.mem.read loc n)
      let (m', wr) := atomNew op sg wide m v.toNat e.toNat
      let w := s.afterRead v0 r.acq now loc n
      let ans := match op with
        | .cas => m + v.toNat % 2 ^ (8 * n) * 2 ^ (8 * n)
        | .add | .and | .or | .xor | .min | .max | .exch | .fadd => m
      let s1 := (s.placeAtomic r loc).learnRead die now loc n
      ((if wr then s1.rmwWrite f r loc (leBytes n m') w else s1).answer r ans w).acquireL1 r
    | .rwl op counted =>
      if s.twoSteps loc r.sa && r.rd.isNone then s.readFirst r loc else
      let m := r.rd.getD (s.mem.read loc 4)
      let m' := rwlNew op counted m
      let w := s.afterRead v0 r.acq now loc 4
      let s1 := (s.placeAtomic r loc).learnRead die now loc 4
      ((if m' ≠ m then s1.rmwWrite f r loc (leBytes 4 m') w else s1).answer r m w).acquireL1 r
    | .casv wide expected new =>
      if s.twoSteps loc r.sa && r.rd.isNone then s.readFirst r loc else
      let n := if wide then 8 else 4
      let m := r.rd.getD (s.mem.read loc n)
      let s1 := (((s.fillLine (loc / 256)).recall (loc / 256) false).placeAtomic r loc).learnRead die now loc n
      let ok := decide ((s1.line loc).version = expected.toNat)
      let w := s.afterRead v0 r.acq now loc n
      let s2 := if ok then s1.rmwWrite f r loc (leBytes n new.toNat) w else s1
      (s2.answer r ((s2.line loc).version + (if ok then 2 ^ 63 else 0) + m * 2 ^ 64) w).acquireL1 r
    | .waitc sg cc g =>
      let u := s.mem.read loc 4
      if waitcCond sg cc u g.toNat then ((s.answer r u (s.afterRead v0 true now loc 4)).learnRead die now loc 4).acquireL1 r
      else s.armBell r loc
    | .twait thr =>
      let c := s.mem.read loc 8
      if thr ≤ 0 ∨ thr ≤ ((c % 2 ^ 48 : Nat) : Int) then ((s.answer r c (s.afterRead v0 true now loc 8)).learnRead die now loc 8).acquireL1 r
      else s.armBell r loc
    | .frame | .pref => s
    | .valset pairs st _ =>
      let s1 := pairs.foldl (fun (s : State) p => ((s.snoop (256 * p.1)).fillLine p.1).recall p.1 true) s
      let ok := pairs.all fun p => decide ((s1.line (p.1 * 256)).version = p.2)
      let w := pairs.foldl (fun v p => s.afterRead v false now (p.1 * 256) 256) v0
      let s2 := match st with
        | some (a, v) => if ok then s1.rmwWrite f { r with rel := true } a (leBytes 4 v.toNat) v0 else s1
        | none => s1
      s2.answer r (if ok then 1 else 0) w

/-! ### Bringing the result home (R165, R172, R173) -/

/-- The register value an answer gives: TWAIT writes FLT (R202), VALSET a predicate. -/
def Req.regValue (r : Req) (v : Nat) : Nat :=
  match r.kind with
  | .twait _ => bits v 63 48
  | _ => v

/-- Writes the answer's predicate, of a VALSET. -/
def Req.writePred (r : Req) (v : Nat) (f : Fibre) : Fibre :=
  match r.kind with
  | .valset _ _ p => f.setPred p (v == 1)
  | _ => f

/-- Changes the fibre's record. -/
def Fibre.withRecord (f : Fibre) (g : EscRec → EscRec) : Fibre := { f with rcd := f.rcd.map g }

/-- Writes the answer into a window. -/
def Req.writeTo (r : Req) (v : Nat) (f : Fibre) : Fibre :=
  match r.kind with
  | .valset _ _ p => f.setPred p (v == 1)
  | _ => if r.dw = 0 then f else f.setOpd r.dst r.dw (r.regValue v)

/-- Writes the answer into a record (R172, R173): the destination's words, with their MASK bits. -/
def Req.writeRecord (r : Req) (v : Nat) (e : EscRec) : EscRec :=
  (List.range r.dw).foldl (fun e i =>
    let n := (r.dst.toNat + i) % 32
    { e with mask := e.mask ||| (1#32 <<< n), vals := e.vals.set n (BitVec.ofNat 32 (r.regValue v / 2 ^ (32 * i))) (Nat.mod_lt _ (by decide)) }) e

/-- The wait of a request is over. -/
def Fibre.waitOver (f : Fibre) (id now : Nat) : Fibre := { f.unwait (fun w => decide (w.request? = some id)) with since := now }

/-- The value reaches a member, wherever its window is: in the window, or in its record, in the landing area too (R172, R173). -/
def State.giveValue (s : State) (r : Req) (v : Nat) (k : FKey) : State :=
  match s.fibre? k with
  | none => s
  | some f =>
    match f.res with
    | .resident _ =>
      let s := s.updFibre k fun g => r.writeTo v (g.waitOver r.id s.now)
      if r.kind = .frame then s.resumeFrame k (BitVec.ofNat 64 r.va) (leBytes 192 v) r.unitAddr false else s
    | .stubOnly | .ended => s
    | .lodged _ | .abroad | .returning => s.updFibre k fun g => (r.writePred v (g.waitOver r.id s.now)).withRecord (r.writeRecord v)
    | .landed i =>
      let s := s.updFibre k fun g => (r.writePred v (g.waitOver r.id s.now)).withRecord (r.writeRecord v)
      (List.range r.dw).foldl (fun (s : State) j =>
        let n := (r.dst.toNat + j) % 32
        s.landOrFault k (s.ctxOf k) i (16 + 4 * n) (leBytes 4 (r.regValue v / 2 ^ (32 * j)))) s

/-- A reply for a context that halts is discarded, and counted by the fabric interface of its die (R180). -/
def State.lateFor (s : State) (r : Req) (c : Nat) : State :=
  s.updCtx c fun x => { x with halting := x.halting.map fun h => { h with late := (r.share / 256) :: h.late } }

/-- The reply of request `r` with answer `v` arrives: REPLY_ARRIVAL. With U = 1 every member takes the value (R84). -/
def State.arrive (s : State) (r : Req) (v : Nat) : State :=
  let s := s.dropReq r.id
  match s.fibre? r.key with
  | none => r.members.foldl (fun (s : State) k => s.giveValue r v k) s
  | some f =>
    if f.wait = .halted then ((match f.res with
        | .abroad => s
        | _ => s.releaseCharge r.key r.charge)).lateFor r (s.ctxOf r.key) else
    match f.res with
    | .abroad =>
      let s := r.members.foldl (fun (s : State) k => s.giveValue r v k) s
      (s.bump.updFibre r.key fun g => { g with res := .returning, retFrom := some s.serial }).turnIn r.key
    | _ => r.members.foldl (fun (s : State) k => s.giveValue r v k) (s.releaseCharge r.key r.charge)

/-- A recoverable fault of request `id` reaches a member: it is taken once the member can take it (R69, R179). One of the read of a frame is the fatal fault FRAME (R98). -/
def State.faultTo (s : State) (id : Nat) (fr : FaultRec) (k : FKey) : State :=
  match s.fibre? k with
  | none => s
  | some f =>
    if fr.cls = 15 then s.fatal k 0x2B fr.unit else
    match f.res with
    | .stubOnly | .ended => s
    | _ => (s.updFibre k fun g => g.waitOver id s.now).deliver k { fr with mask := windowMask (s.winOf k) }

/-- The fault that a reply of request `r` brings (R179, R274, R306). -/
def Req.faultRec (r : Req) (cls code : Nat) (mask : Word) : FaultRec :=
  ⟨if r.kind = .frame then 15 else cls, 0, if cls = 1 then 4 else code, r.unitAddr, r.va, if cls = 1 then code else 0, mask, r.unitAddr, r.seq⟩

/-- A reply that carries a recoverable fault (R179, R274): class 1 reason 4 with a code, or class 2. -/
def State.arriveFault (s : State) (r : Req) (cls code : Nat) : State :=
  let fr := r.faultRec cls code (windowMask (s.winOf r.key))
  let s := s.dropReq r.id
  match s.fibre? r.key with
  | none => r.members.foldl (fun (s : State) k => s.faultTo r.id fr k) s
  | some f =>
    if f.wait = .halted then ((match f.res with
        | .abroad => s
        | _ => s.releaseCharge r.key r.charge)).lateFor r (s.ctxOf r.key) else
    match f.res with
    | .abroad =>
      let s := s.faultTo r.id fr r.key
      ((s.bump.updFibre r.key fun g => { g with res := .returning, retFrom := some s.serial }).updFibre r.key fun g =>
        g.withRecord fun e => { e with fc := cls * 16 + code }).turnIn r.key
    | _ => r.members.foldl (fun (s : State) k => s.faultTo r.id fr k) (s.releaseCharge r.key r.charge)

/-- Entries of a cluster's outstanding transaction table in use (R171, R180). -/
def State.entriesUsed (s : State) (c : Nat) : Nat :=
  (s.reqs.filter fun r => decide (r.share / 4 = c) && r.tag.isSome).length + (s.openTags.filter fun o => decide (o.c = c)).length

/-- The lowest free entry of a cluster's outstanding transaction table (R161) (DESIGN CHOICE, log 88). -/
def State.freeTag (s : State) (c : Nat) : Nat :=
  ((List.range 2048).find? fun i => !(s.reqs.any fun r => decide (r.share / 4 = c ∧ r.tag = some i)) && !(s.openTags.any fun o => decide (o.c = c ∧ o.tag = i))).getD 0

/-- A request leaves the L1 and the scratchpad of its cluster, and so takes an entry (R171). (DEDUCED, log 72) -/
def State.leavesCluster (s : State) (r : Req) : Bool :=
  match r.dest, r.kind with
  | .peer .., .frame | .peer .., .pref => false
  | .peer .., _ => true
  | .home l, .load n _ => !isSpad l && !(r.cache.isSome && s.l1Hit r.share l n)
  | .home l, .atom .. | .home l, .rwl .. => !isSpad l && !(s.inL1 r l && decide (s.ownerOf (l / 256) = some r.share))
  | .home l, _ => !isSpad l

/-- An LDF that reaches an empty granule joins its bank's waiter list of 2,048 entries a cluster, where there is room (R155). -/
def State.beginWait (s : State) (f : Fibre) (r : Req) : State :=
  match r.kind, r.dest with
  | .ldf _, .home loc =>
    let waiting := s.reqs.filter fun o => o.bell && (match o.kind, o.dest with
      | .ldf _, .home l => decide (spadShare l / 4 = spadShare loc / 4)
      | _, _ => false)
    if !r.bell && !s.granuleFull loc && (f.newest r.seq r.dest r.n).isNone && !s.viewPending (f.viewAt r.seq) loc r.n
        && (s.olderReads f.key r.seq).isEmpty && waiting.length < 2048 && s.entriesUsed (r.share / 4) < 2048 then
      s.bump.updReq r.id fun q => { q with bell := true, waitFrom := s.serial, tag := some (s.freeTag (r.share / 4)) }
    else s
  | _, _ => s

/-- Poisoned data have come for a request: it is over, with the charge of its escort, and its context halts (R140, R166). -/
def State.poisonReq (s : State) (r : Req) : State := ((s.dropReq r.id).releaseCharge r.key (if r.granted then r.charge else 0)).fatal r.key 0x18 r.unitAddr

/-- Takes the step of a request if it is allowed now, and lets its answer arrive. -/
def State.tryReq (s : State) (id : Nat) : State :=
  match s.req? id with
  | none => s
  | some r =>
    match s.fibre? r.key with
    | none => s
    | some f =>
      match r.fail, r.ans with
      | some (cls, code), _ => s.arriveFault r cls code
      | none, some v => (s.updFibre f.key fun g => { g with view := g.view.join r.ansView }).arrive r v
      | none, none =>
        let s := if r.rel then s.release f.key r.seq else s
        if !s.performOk f r then s.beginWait f r
        else if s.eatsPoison f r then s.poisonReq r
        else
          let s := s.perform f r
          match s.req? id with
          | some r1 => (match r1.ans with
              | some v => s.arrive r1 v
              | none => s)
          | none => s

/-! ### What a peer answers (R255, R274) -/

/-- A load of a page that an L1 holds brings the whole sector of its bytes (R131, R132); an acquire, which empties the L1, only its own (DESIGN CHOICE, log 84). -/
def Req.fetches (r : Req) : Bool :=
  !r.acq && r.dest.offPackage && r.cache.isSome && (match r.kind with
    | .load .. | .pref => true
    | _ => false)

/-- The bytes of the peer that a direct request asks for: virtual address and length. -/
def Req.asked (r : Req) : Nat × Nat := if r.fetches then (r.va / 64 * 64, 64) else (r.va, r.n)

/-- What a peer's reply means to the unit that asked: the value that `arrive` takes. -/
def Req.remoteValue (r : Req) (v version : Nat) : Nat :=
  match r.kind with
  | .load n sg => extendLoad n sg ((if r.fetches then v / 2 ^ (8 * (r.va % 64)) else v) % 2 ^ (8 * n))
  | .ldv w => version + (if w then v % 2 ^ 32 * 2 ^ 64 else 0)
  | .atom .cas _ wide new _ => let b := if wide then 64 else 32; v % 2 ^ b + new.toNat % 2 ^ b * 2 ^ b
  | .casv wide .. => version + v % 2 ^ (if wide then 64 else 32) * 2 ^ 64
  | .waitc .. => v % 2 ^ 32
  | _ => v

/-- The condition that a returned word must meet: WAITC's (R253). -/
def Req.accepts (r : Req) (v : Nat) : Bool :=
  match r.kind with
  | .waitc sg cc g => waitcCond sg cc v g.toNat
  | _ => true

/-- What an acquire read at a peer joins: the package cannot tell what its value's writer had seen, so every write applied here so far (DESIGN CHOICE, log 90). -/
def State.remoteView (s : State) (r : Req) : View := if r.acq then ⟨s.hist.length, []⟩ else View.init

/-- The sector that a load of a mode-10 page has brought stays in its L1 (R131). -/
def State.keepSector (s : State) (r : Req) (v : Nat) : State :=
  match r.dest, r.cache with
  | .peer _ p _ _ va, some ro => if r.fetches then s.l1Load r.share p (va / 64 * 64) ro (leBytes 64 v) else s
  | _, _ => s

/-- The flits of an answer to a request are taken from their port's receive buffer (R266). -/
def Req.heard (r : Req) (s : State) : State :=
  match r.dest with
  | .peer _ p _ _ _ => s.heardFrom p r.va (1 + r.asked.2 / 64)
  | .home _ => s

/-- A peer's answer to a request that has been delivered: the value, a refusal as REMOTE (code 8) or TRANSLATE reason 4, or poisoned data, which the context consumes (R140, R274). A word that does not end a WAITC is polled again, by another request (R255). What a PREF has asked for comes into its L1, or is dropped (R157). -/
def State.peerAnswer (s : State) (r : Req) (a : Answer) : State :=
  if !r.delivered || decide (a = .own) then s else
  let s := r.heard s
  if r.kind = .pref then (match a with
    | .own => s
    | .value v _ => (s.keepSector r v).dropReq r.id
    | .refused _ | .poisoned => s.dropReq r.id)
  else match a with
  | .own => s
  | .value v ver =>
    if r.accepts v then ((s.updReq r.id fun q => { q with ans := some (r.remoteValue v ver), ansView := s.remoteView r, l1Done := true }).keepSector r v).acquireL1 r
    else s.updReq r.id fun q => { q with waitFrom := 1, sent := false, delivered := false }
  | .refused code => s.updReq r.id fun q => { q with fail := some (if code = 8 ∨ code = 11 then (2, 8) else (1, code)) }
  | .poisoned => s.poisonReq r

/-! ### Issuing a request -/

/-- Puts a direct request into its plane channel; a cart of the context with an element of the lines it touches departs first (R234). -/
def State.sendDirect (s : State) (k : FKey) (r : Nat) (group : Bool) (p va n : Nat) : State :=
  let c := s.ctxOf k
  let s := s.departCarts fun d x => decide (d = k.die ∧ x.ctx = c ∧ x.peer = p ∧ x.group = group)
    && x.elems.any fun e => overlap (e.elem.va.toNat / 256 * 256) 256 va n
  (s.enqueue k.die group p (bits va 11 8) false fun _ => .request r).updReq r fun q => { q with sent := true }

/-- The step of a request to a peer is allowed, so that it may enter its channel: R220, R222, and R226 with R235 for the release class. -/
def State.sendOk (s : State) (f : Fibre) (r : Req) : Bool :=
  !s.planeStalled (bits r.va 11 8) && !f.fencedAt r.seq
  && !((s.olderReads f.key r.seq).any fun o => o.acq || o.overlaps r.dest r.n)
  && (match r.kind, r.dest with
      | .ldv _, .peer g p w gen va => (f.newest r.seq (.peer g p w gen (va / 256 * 256)) 256).isNone
      | _, _ => (f.newest r.seq r.dest r.n).isNone)
  && (!r.rel || s.releaseOk f r.seq)

/-- The share's own L1 line that holds a load of a peer's page, or the predicted peer's (R132, R136). -/
def State.heldLine (s : State) (r : Req) (p va n : Nat) (own : Bool) : Option L1Line :=
  let held (e : L1Line) : Bool := decide (e.line = remoteLine p va) && e.holds va n
  match r.cache with
  | none => none
  | some ro => if own then (s.l1Line? r.key.share (remoteLine p va)).filter held else if ro then s.probe r.key va held else none

/-- What a load of a peer's page finds without asking the peer: its own buffered store, or the words in its L1, or in the predicted peer's, which is outside its cluster (R132, R136, R171, R220). -/
def State.localLoad (s : State) (f : Fibre) (r : Req) : Option (Nat × Bool) :=
  match r.kind, r.dest with
  | .load n sg, .peer _ p _ _ va =>
    (match f.newest r.seq r.dest n with
      | some w => (w.forward r.dest n).map fun v => (extendLoad n sg v, false)
      | none =>
        if r.acq then none else
        match s.heldLine r p va n true with
        | some e => some (extendLoad n sg (e.bytes.read va n), false)
        | none => (s.heldLine r p va n false).map fun e => (extendLoad n sg (e.bytes.read va n), true))
  | _, _ => none

/-- A load that the predicted peer's L1 serves leaves its sector in the share's own (R132, R136). -/
def State.forwardLine (s : State) (r : Req) : State :=
  match r.kind, r.dest, r.cache with
  | .load n _, .peer _ p _ _ va, some ro => (match s.heldLine r p va n false with
      | some e => s.l1Load r.share p (va / 64 * 64) ro (e.bytes.readBytes (va / 64 * 64) 64)
      | none => s)
  | _, _, _ => s

/-- Peer `p` is hot on a die (R177, R283). -/
def State.hotPeer (s : State) (die p : Nat) : Bool := s.hot.any fun h => decide (h.1 = die ∧ h.2.1 = p)

/-- The member parks at a hot peer (R178), or is held when no landing entry is free: either way the unit issues again. -/
def State.park (s : State) (k : FKey) (p id : Nat) (ua : DWord) : State :=
  let s := s.updFibre k fun f => { (f.unwait fun w => decide (w.request? = some id)).cutAt ua with ip := ua }
  match s.fibre? k with
  | none => s
  | some f =>
    match s.putAway f 3 false with
    | some s1 => s1.updFibre k fun g => { g with parkedAt := some p }
    | none => s.leaveFlock k

/-- Every member of a unit that would send a direct request to a hot peer parks, followers of a U = 1 load too, and each issues the unit again in the flock that it then joins (R178, DESIGN CHOICE, log 102). -/
def State.parkAll (s : State) (r : Req) (p : Nat) : State := r.members.foldl (fun (s : State) m => s.park m p r.id r.unitAddr) s

/-- No member has issued since the cycle of the request. -/
def State.unmoved (s : State) (r : Req) : Bool := r.members.all fun k => ((s.fibre? k).map fun f => decide (f.lastIssue = r.born)).getD false

/-- A request leaves for its peer. The member of one that ordering has held in the cluster until its peer is hot parks too, unless it has issued a further unit: then the request stays in the cluster until the peer cools (R178, DESIGN CHOICE, log 102). -/
def State.depart1 (s : State) (r : Req) (group : Bool) (p va : Nat) : State :=
  if s.hotPeer r.key.die p then (if s.unmoved r then (s.dropReq r.id).parkAll r p else s)
  else
    let s := match r.cache, r.kind with
      | some true, .load .. => s.predictNext r.key va false
      | _, _ => s
    s.sendDirect r.key r.id group p r.asked.1 r.asked.2

/-- A request to a peer that has not been sent is answered in the package, or sent, or it waits (R222, R234). -/
def State.trySend (s : State) (id : Nat) : State :=
  match s.req? id with
  | none => s
  | some r =>
    match s.fibre? r.key, r.dest with
    | some f, .peer group p _ _ va =>
      if r.sent || r.ans.isSome || decide (f.wait = .halted ∨ r.kind = .pref) then s else
      if (s.olderReads f.key r.seq).any fun o => o.acq || o.overlaps r.dest r.n then s else
      match s.localLoad f r with
      | some (v, far) =>
        let s := if far then s.forwardLine r else s
        s.updReq id fun q => { q with ans := some v, served := true, tag := if far then q.tag else none }
      | none =>
        let s := if r.rel then s.release f.key r.seq else s
        if s.sendOk f r then s.depart1 r group p va else s
    | _, _ => s

/-- Every request to a peer that may be answered or sent now. -/
def State.trySends (s : State) : State :=
  ((s.reqs.filter fun r => r.dest.offPackage && !r.sent && r.ans.isNone).map fun r => r.id).foldl (fun (s : State) i => s.trySend i) s

/-- A request that fails before it is sent (R269, R284, R286): the fibre is resident, and every destination's member takes the fault (R84). -/
def State.arriveFaultNow (s : State) (r : Req) (cls code : Nat) : State :=
  if r.kind = .frame then s.fatal r.key 0x2B r.unitAddr else
  r.members.foldl (fun s k =>
    s.deliverResident k cls 0 (if cls = 1 then 4 else code) r.unitAddr r.va (if cls = 1 then code else 0) r.unitAddr r.seq) (s.releaseCharge r.key r.charge)

/-- The fibre waits for a request, unless its context has halted in the meantime. -/
def State.awaits (s : State) (k : FKey) (r : Req) : State := s.updFibre k fun g => g.await r.seq r.unitAddr (.request r.id)

/-- The H bits of the lines that a request touches: its page awaits the host's answer to the snoops (R144). -/
def State.snoopLines (s : State) (ls : List Nat) : State :=
  let hs := ls.filter fun l => isDram l && !s.hostBias l && s.hbits.contains (l / 256)
  if hs.isEmpty then s else { s with pages := hs.foldl (fun p l => p.upd (l / 65536) PageAttr.init fun a => { a with waitHost := true }) s.pages }

/-- The lines that a local request touches. -/
def Req.lines (r : Req) : List Nat :=
  match r.dest, r.kind with
  | .peer .., _ => []
  | .home loc, .valset pairs _ _ => loc :: pairs.map fun p => 256 * p.1
  | .home loc, _ => [loc]

/-- A request issues: it is outstanding until its REPLY_ARRIVAL, its escort decided at ESCORT_DECISION. -/
def State.issueReq (s : State) (r : Req) : State :=
  let k := r.key
  let start (s : State) : State := { s with reqs := s.reqs ++ [{ r with tag := if s.leavesCluster r then some (s.freeTag k.c) else none }] }
  match r.dest with
  | .peer group p _ _ va =>
    if group then s.arriveFaultNow r 1 9 else
    if ((s.fibre? k).bind fun f => s.localLoad f r).isSome then (start s).trySend r.id
    else if s.ownPeer.isNone || s.lost p then s.arriveFaultNow r 2 8
    else if s.hotPeer k.die p then s.parkAll r p
    else
      let s := match r.kind, r.cache with
        | .load .., _ | _, none => s
        | _, some _ => s.l1Drop k.share (remoteLine p va)
      (start s).trySend r.id
  | .home loc => start ((s.snoopLines r.lines).askHost loc r.n)

/-- The L1 holds the page of a local leaf (R131). -/
def State.l1Holds (s : State) (l : Leaf) (loc : Nat) : Bool := isHost loc || (isDram loc && !s.hostBias loc && !l.sa)

/-- A request as issued. -/
def mkReq (s : State) (c : UnitCtx) (o : Fibre) (va n : Nat) (d : Dest) (kind : ReqKind) (acq rel : Bool)
    (dst : RegNo) (dw left : Nat) (esc : Bool) (mask : Word) : Req :=
  { id := s.serial, key := o.key, seq := c.seq, unitAddr := c.uaddr, va := va, dest := d
    vas := match d with
      | .home l => if isSpad l then [] else [va]
      | .peer .. => [va]
    n := n, kind := kind, acq := acq, rel := rel
    dst := dst, dw := dw, also := [], left := left, esc := if esc then some (mask, maskRegs mask o.regs) else none, asks := esc, decided := !esc
    granted := false, stalled := false, charge := 0, bell := false, waitFrom := 0, ans := none, ansView := View.init, fail := none, l1Done := false, served := false, sent := false, delivered := false
    cache := none, sa := false, rd := none, tag := none, share := o.key.share, born := s.now }

/-- How the L1 and the slices treat the page of a leaf (R131, R240). -/
def State.paged (s : State) (l : Option Leaf) (r : Req) : Req :=
  match l, r.dest with
  | none, _ => r
  | some l, .home loc => { r with sa := l.sa, cache := if s.l1Holds l loc then some l.ro else none }
  | some l, .peer .. => { r with cache := if l.mode = 2 then some l.ro else none }

end Sys2Proof.Machine
end

