-- ==== Sys2Proof/Machine/Control.lean ====
section
/-! DEFINITION. Control units, opcodes 0x80 to 0x8F (R88 to R93, R97 to R99), and the ends of the waits of QUIT, JOIN and SLEEP. -/

namespace Sys2Proof.Machine

/-! ### Transfers (R88, R89) -/

/-- A taken transfer ends the lookahead window of an escorting unit (R86). -/
def State.endWindows (s : State) (k : FKey) : State :=
  { s with reqs := s.reqs.map fun r => if r.key = k && r.asks then { r with left := 0 } else r }

/-- The fibre goes to `t`: at once, or where units of the unit's chain follow, once they have issued (R56). -/
def Fibre.goTo (f : Fibre) (more : Bool) (t : DWord) : Fibre := if more then { f with after := some (t, 0) } else { f with ip := t }

/-- Member `k` moves to `t`. -/
def State.transfer (s : State) (k : FKey) (more : Bool) (t : DWord) : State := (s.updFibre k fun g => g.goTo more t).endWindows k

/-- Every active member moves to the packet `off` away from the unit's own. -/
def branch (h : Hdr) (link : Bool) (off : BitVec 17) (s : State) : State :=
  memberUnit h (fun c f s =>
    let s := if link then s.updFibre f.key fun g => g.setPair 2#5 (packetAddr (packetIndex c.addr + 1#64)) else s
    s.transfer f.key h.c (brTarget c.addr off)) s

/-- Every active member moves to the address in a pair, or none does and the context halts with cause 0x0C (R75). -/
def branchReg (h : Hdr) (link : Bool) (a : RegNo) (s : State) : State :=
  runUnit h (fun c s =>
    match c.act.find? fun f => !isPacketStart (f.pair a) with
    | some f => s.fatal f.key 0x0C c.uaddr
    | none => c.act.foldl (fun s f =>
        let s := if link then s.updFibre f.key fun g => g.setPair 2#5 (packetAddr (packetIndex c.addr + 1#64)) else s
        s.transfer f.key h.c (f.pair a)) s) s

/-- BRA (R88). -/
def execBra (h : Hdr) (off : BitVec 17) (s : State) : Out := .next (branch h false off s)

/-- CALL (R88). -/
def execCall (h : Hdr) (off : BitVec 17) (s : State) : Out := .next (branch h true off s)

/-- BRX (R88). -/
def execBrx (h : Hdr) (a : RegNo) (s : State) : Out := .next (branchReg h false a s)

/-- CALLX (R88). -/
def execCallx (h : Hdr) (a : RegNo) (s : State) : Out := .next (branchReg h true a s)

/-- RET (R88): the address in g2:g3. -/
def execRet (h : Hdr) (s : State) : Out := .next (branchReg h false 2#5 s)

/-- CONT (R89). -/
def execCont (h : Hdr) (off : BitVec 17) (s : State) : Out :=
  .next (resultUnit h (fun c _ g => { g with cont := brTarget c.addr off }) s)

/-! ### FORK (R90) -/

/-- The copy mask of the IMX words (R63). -/
def UnitCtx.forkMask (c : UnitCtx) : Word := forkMaskOf c.imxs

/-- The lowest free stub of a share on a lane (R43). -/
def State.freeStub? (s : State) (k : FKey) : Option Nat :=
  (List.range 32).find? fun n => (s.fibre? { k with s := n }).isNone

/-- Live fibres of a household: those that hold stubs. -/
def State.liveOf (s : State) (sh : Nat) : List Fibre := s.fibres.filter fun f => decide (f.key.share = sh ∧ f.res ≠ .ended)

/-- The lowest %fid free in a household (R12). -/
def State.freeFid (s : State) (sh : Nat) : Nat :=
  ((List.range 4096).find? fun n => !((s.liveOf sh).any fun f => f.fid == n)).getD 0

/-- A fibre as it is made: R24 and R90 say what its registers and kin hold. -/
def newFibre (k : FKey) (ip : DWord) (fid : Nat) (res : Res) (now : Nat) : Fibre :=
  { key := k, ip := ip, regs := Vector.replicate 32 0#32, preds := Vector.replicate 12 false, fs := 0#32, esc := 0#32
    cont := 0#64, fault := 0#64, nch := 0, pv := false, par := 0, fid := fid, res := res, wait := .none, waitSeq := 0, waitUnit := 0#64, more := []
    rcd := none, rfaults := [], retFrom := none, parkedAt := none, since := now, putAt := 0, readyFrom := none, lastIssue := now, yielded := false
    cmpFrom := 0, cmpPast := none, stepDue := false, after := none, owed := [], foln := none, childView := View.init, view := View.init, wb := [] }

/-- The parent's side of a FORK. -/
def Fibre.forked (f : Fibre) : Fibre := { (f.setFs fsFR false) with nch := f.nch + 1 }

/-- A FORK issues: its child has its stub, its %fid and its place (R90), and waits for the FORK's step. `vals` and `preds` are what it holds, `ip` its first packet. A window that a returning fibre waits for is not free (R173). None: there is no place. -/
def State.placeChild (s : State) (k0 : FKey) (n : Nat) (vals : Vector Word 32) (preds : Vector Bool 12) (ip : DWord) : Option State :=
  match s.fibre? k0 with
  | none => none
  | some f =>
    let k : FKey := { k0 with s := n }
    let child : Fibre := { newFibre k ip (s.freeFid k.share) .returning s.now with
      regs := vals, preds := preds, cont := f.cont, pv := true, par := k0.s, wait := .unborn }
    match (if s.claimed k then none else s.freeWindow? k) with
    | some w => some { s with fibres := s.fibres ++ [{ child with res := .resident w }] }
    | none => (({ s with fibres := s.fibres ++ [child] } : State).putAway child 2 true).map fun (s1 : State) =>
        (s1.updFibre k fun g => { g with retFrom := some s1.serial }).bump

/-- The step of a FORK, a release by the parent and an acquire by the child (R90, R230): the child lives, with the parent's view. Without a free stub there is none, and FR is set. -/
def State.forkStep (s : State) (k0 : FKey) (child : Option FKey) : State :=
  match child, s.fibre? k0 with
  | none, _ => s.updFibre k0 fun g => g.setFs fsFR true
  | some _, none => s
  | some k, some f => ((s.updFibre k fun g => { g.unwait (fun w => decide (w = .unborn)) with view := f.view }).updFibre k0 Fibre.forked)

/-- The child of a FORK takes its place, where there is a stub for it; none: there is no place. -/
def State.forkChild (s : State) (o : Fibre) (mask : Word) (ip : DWord) : Option (State × Option FKey) :=
  match s.freeStub? o.key with
  | none => some (s, none)
  | some n => (s.placeChild o.key n (maskRegs mask o.regs) o.preds ip).map fun t => (t, some { o.key with s := n })

/-- FORK of one member: `o` as it stood before the chain. It is a release step (R230): where that is not allowed yet, the fibre waits for it. A FORK that finds no place is held, and issues again (R90). -/
def State.forkOne (s : State) (o : Fibre) (mask : Word) (ip ua : DWord) (seq : Nat) : State :=
  match s.fibre? o.key with
  | none => s
  | some f =>
    match s.forkChild o mask ip with
    | none => (s.updFibre o.key fun g => { g.cutAt ua with ip := ua }).leaveFlock o.key
    | some (t, child) => if s.drained f seq then t.forkStep o.key child else t.updFibre o.key fun g => g.await seq ua (.fork child seq)

/-- A FORK that waits takes its step once it may. -/
def State.forkDone (s : State) (k : FKey) (child : Option FKey) (seq : Nat) : State :=
  let s := s.release k seq
  match s.fibre? k with
  | some g => if s.drained g seq then (s.forkStep k child).updFibre k fun g => g.unwait Wait.isFork else s
  | none => s

/-- FORK (R90). A mask beyond the window is cause 0x0B. -/
def execFork (h : Hdr) (off : BitVec 17) (s : State) : Out :=
  .next (memberUnit h (fun c f s =>
    if c.forkMask &&& ~~~(windowMask (s.winOf f.key)) ≠ 0#32 then s.fatal f.key 0x0B c.uaddr
    else s.forkOne f c.forkMask (brTarget c.addr off) c.uaddr c.seq) s)

/-! ### JOIN and QUIT (R91, R92) -/

/-- A location of the fibre is pending: an outstanding request, or what an engine thread writes for it. -/
def State.anyPending (s : State) (k : FKey) : Bool :=
  s.reqs.any (fun r => r.serves k) || s.eops.any fun e => decide (e.key = k) && !e.dests.isEmpty

/-- No location of the fibre is pending, and no request serves it. -/
def State.idle (s : State) (k : FKey) : Bool := !s.anyPending k && (s.pendingOf k).isEmpty

/-- Word `n` of a record takes a value, with its MASK bit (R173). -/
def EscRec.put (e : EscRec) (r : RegNo) (v : Word) : EscRec :=
  { e with mask := e.mask ||| (1#32 <<< r.toNat), vals := e.vals.set r.toNat v }

/-- A JOIN ends: gd takes JEC, and the parent joins its children's views (R92, R230). -/
def State.joinDone (s : State) (k : FKey) (d : RegNo) : State :=
  match s.fibre? k with
  | none => s
  | some f =>
    let v := BitVec.ofNat 32 f.jec
    let g := { (f.setJec 0).unwait Wait.isJoin with since := s.now, view := f.view.join f.childView, childView := View.init }
    let s := s.shareAcquire k.share
    match f.res with
    | .resident _ =>
      (s.releaseCharge k ((f.rcd.map fun e => e.charge).getD 0)).updFibre k fun _ => { g.setReg d v with rcd := none }
    | .abroad =>
      let s := s.updFibre k fun _ => { g with res := .returning, retFrom := some s.serial, rcd := f.rcd.map fun e => e.put d v }
      s.bump
    | .lodged _ => s.updFibre k fun _ => { g with rcd := f.rcd.map fun e => e.put d v }
    | .landed i =>
      let s := s.updFibre k fun _ => { g with rcd := f.rcd.map fun e => e.put d v }
      s.landOrFault k (s.ctxOf k) i (16 + 4 * d.toNat) (leBytes 4 v.toNat)
    | .returning | .stubOnly | .ended => s

/-- DEPARTURE of a JOIN whose escort was granted, once nothing else of the fibre is pending (R87, R92). (DEDUCED, log 22) -/
def State.departJoin (s : State) (k : FKey) : State :=
  match s.fibre? k with
  | none => s
  | some f =>
    match f.res, f.rcd with
    | .resident _, some e =>
      if s.anyPending k || !f.waitsOnly Wait.isJoin || !f.rfaults.isEmpty then s else s.departNow k { e with depc := (s.cyc[k.die % 4]'(Nat.mod_lt _ (by decide))).extractLsb' 0 32 }
    | _, _ => s

/-- JOIN of one member (R92); it departs once its chain has issued. -/
def State.joinOne (s : State) (c : UnitCtx) (o : Fibre) (d : RegNo) (more : Bool) : State :=
  match s.fibre? o.key with
  | none => s
  | some f =>
    if f.nch = 0 then s.joinDone o.key d
    else
      let n := s.winOf o.key
      let (s, granted) := s.grantEscort o.key n false
      let m := windowMask n
      let e : EscRec := ⟨m, maskRegs m o.regs, 0, d, 1, 0, 0#32, 0, 16 + 4 * n, c.uaddr⟩
      let s := s.updFibre o.key fun g => { g.await c.seq c.uaddr (.join d) with rcd := if granted then some e else none }
      if more then s else s.departJoin o.key

/-- JOIN (R92). -/
def execJoin (h : Hdr) (d : RegNo) (s : State) : Out :=
  .next (memberUnit h (fun c f s => s.joinOne c f d h.c) s)

/-- The household has lost its last fibre (R350). -/
def State.householdExit (s : State) (sh : Nat) : State :=
  if (s.liveOf sh).isEmpty then s.updShare sh fun h => { h with exited := true } else s

/-- The key of a window of a lane, or of one of its lodge, in `State.remains`. -/
def windowKey (k : FKey) (lodge : Bool) (w : Nat) : Nat := 65536 * k.share + 512 * k.l + (if lodge then 256 else 0) + w

/-- What a fibre's window holds stays there when the fibre leaves it for good (R349). -/
def State.leaveWords (s : State) (f : Fibre) : State :=
  match f.res with
  | .resident w => { s with remains := s.remains.set (windowKey f.key false w) f.regs }
  | .lodged w => { s with remains := s.remains.set (windowKey f.key true w) (s.recordWords f) }
  | .abroad | .returning | .landed _ | .stubOnly | .ended => s

/-- The fibre's stub is freed. Writes still in its write buffer leave afterwards: they stay under a key that no stub has (R91). (DESIGN CHOICE, log 82) -/
def State.freeStub (s : State) (f : Fibre) : State :=
  let s := s.leaveWords f
  if f.wb.isEmpty then s.dropFibre f.key
  else
    let k : FKey := { f.key with s := 32 + s.serial }
    { s.bump with
      fibres := s.fibres.map fun g => if g.key = f.key then { g.withWaits [] with key := k, res := .ended } else g
      aq := s.aq.map fun w => if w.src = .fibre f.key then { w with src := .fibre k } else w }

/-- The parent of a fibre waits in JOIN for its last child, with a record in a landing area that no access touches now (R238). -/
def State.joinHeld (s : State) (f : Fibre) : Bool :=
  f.pv && (s.fibre? { f.key with s := f.par }).any fun p => p.join?.isSome && p.nch == 1 && s.landWaits p

/-- A fibre in the wait of QUIT ends once it has no live child and no pending location, and its older writes have left its write buffer: a release step but for the fabric (R91, R230). A landing entry that it holds keeps V = 1 (DESIGN CHOICE, log 103). -/
def State.quitDone (s : State) (k : FKey) : State :=
  match s.fibre? k with
  | none => s
  | some f =>
    match f.wait with
    | .quit status seq =>
      if f.nch ≠ 0 ∨ !f.more.isEmpty ∨ s.anyPending k ∨ f.wb.any (fun w => decide (w.seq < seq)) ∨ s.joinHeld f then s else
      let s := s.updCtx (s.ctxOf k) fun x => { x with doneView := x.doneView.join f.view }
      let s := (s.freeStub f).leaveFlock k
      let s :=
        if !f.pv then s else
        let q : FKey := { k with s := f.par }
        let s := s.updFibre q fun p =>
          let p := if status ≠ 0#32 then p.setJec (min (p.jec + 1) 511) else p
          { p with nch := p.nch - 1, childView := p.childView.join f.view }
        (match s.fibre? q with
          | some p => if p.nch ≠ 0 then s else
            (match p.join? with
              | some d => s.joinDone q d
              | none => s)
          | none => s)
      s.householdExit k.share
    | _ => s

/-- A fibre in the wait of QUIT gives its window up while it has live children (R91). -/
def State.quitLeave (s : State) (k : FKey) : State :=
  match s.fibre? k with
  | none => s
  | some f =>
    match f.wait, f.res with
    | .quit .., .resident _ =>
      if f.nch = 0 || !f.more.isEmpty then s else ((s.leaveWords f).updFibre k fun g => { g with res := .stubOnly, regs := Vector.replicate 32 0#32 }).leaveFlock k
    | _, _ => s

/-- A parent in the wait of QUIT may itself end when its last child ends: such ends run up the kin links. -/
def State.quitUp (s : State) : Nat → FKey → State
  | 0, _ => s
  | n + 1, k =>
    match s.fibre? k with
    | none => s
    | some f =>
      let s' := s.quitDone k
      if (s'.fibre? k).isSome || !f.pv then s' else s'.quitUp n { k with s := f.par }

/-- QUIT takes its effect on a member: its L1 writes back (R135, R230), its window goes, or it ends. -/
def State.quitStep (s : State) (k : FKey) : State := ((s.writeBack k.share).quitLeave k).quitUp 33 k

/-- QUIT (R91, R62). It takes its effect once its chain has issued (R66). -/
def execQuit (h : Hdr) (imm : BitVec 12) (s : State) : Out :=
  .next (memberUnit h (fun c f s =>
    let s := s.updFibre f.key fun g => g.await c.seq c.uaddr (.quit (c.imm12 imm) c.seq)
    if h.c then s else s.quitStep f.key) s)

/-! ### Pacing (R93) -/

/-- The quarter's flock ends after the unit that issues. -/
def State.endAfter (s : State) (q : Nat) : State :=
  { s with flocks := s.flocks.map fun g => if g.q = q then { g with ending := true } else g }

/-- NOP (R93). -/
def execNop (h : Hdr) (s : State) : Out := .next (runUnit h (fun _ s => s) s)

/-- A member yields: the flock ends, and the next one of the quarter leaves it out where it can. -/
def State.yieldOne (s : State) (q : Nat) (k : FKey) : State :=
  (s.updFibre k fun g => { g with yielded := true }).endAfter q

/-- YIELD (R93). -/
def execYield (h : Hdr) (s : State) : Out :=
  .next (memberUnit h (fun c f s => s.yieldOne c.q f.key) s)

/-- SLEEP (R93): the model wakes the fibre in the first cycle the manual allows. SLEEP 0 acts as YIELD. -/
def execSleep (h : Hdr) (imm : BitVec 17) (s : State) : Out :=
  .next (memberUnit h (fun c f s =>
    if imm = 0#17 then s.yieldOne c.q f.key
    else s.updFibre f.key fun g => g.await c.seq c.uaddr (.sleep (s.now + imm.toNat))) s)

/-! ### TRAP, RESUME (R97, R98) -/

/-- TRAP (R97): USERTRAP, class 4, with the unit after it as resume address. -/
def execTrap (h : Hdr) (imm : BitVec 17) (s : State) : Out :=
  .next (memberUnit h (fun c f s => s.deliverResident f.key 4 0 0 c.nxt 0 imm.toNat c.uaddr c.seq) s)

/-- RESUME takes its step for one member (R98, R308, R338). A frame of which a part lies at a peer is read there first, by a request for all of it (DESIGN CHOICE, log 94). -/
def State.resumeStep (s : State) (c : UnitCtx) (f : Fibre) (v : DWord) (more : Bool) : State :=
  match (if v.toNat % 64 = 0 then s.frameFar? f.key v.toNat else none) with
  | some (.peer g p w gen _) =>
    let s := s.frameAccess f.key v.toNat
    let r := mkReq s c f v.toNat 192 (.peer g p w gen v.toNat) .frame false false 0#5 0 0 false 0#32
    (s.bump.awaits f.key r).issueReq r
  | _ => s.resumeFrame f.key v [] c.uaddr more

/-- RESUME of one member: behind a FENCE or BAR of its chain it waits (R222). -/
def State.resumeOne (s : State) (c : UnitCtx) (f : Fibre) (v : DWord) (more : Bool) : State :=
  if (s.fibre? f.key).any fun g => g.fencedAt c.seq then s.updFibre f.key fun g => g.await c.seq c.uaddr (.resume v)
  else s.resumeStep c f v more

/-- A RESUME that waits takes its step once it may. -/
def State.resumeDone (s : State) (k : FKey) (w : Waiting) (v : DWord) : State :=
  match s.fibre? k with
  | some f =>
    if f.fencedAt w.seq then s
    else (s.updFibre k fun g => g.unwait Wait.isResume).resumeStep ⟨k.quarter, w.unit, w.unit, nextWord w.unit, [], [f], w.seq⟩ f v false
  | none => s

/-- RESUME (R98). -/
def execResume (h : Hdr) (a : RegNo) (s : State) : Out :=
  .next (memberUnit h (fun c f s => s.resumeOne c f (f.pair a) h.c) s)

/-! ### Special registers (R99) -/

/-- The count of a die's arithmetic clock. -/
def State.cycOf (s : State) (die : Nat) : DWord := s.cyc[die % 4]'(Nat.mod_lt _ (by decide))

/-- The value of a special register to fibre `k` (R12 to R14, R99, R249). -/
def State.special (s : State) (k : FKey) (g : Fibre) (r : SpecReg) : DWord :=
  let h := s.share k.share
  let l := (s.ctx h.ctx).lrec
  let w := max l.w 1
  match r with
  | .fid => BitVec.ofNat 64 g.fid
  | .lane => BitVec.ofNat 64 k.l
  | .hid => BitVec.ofNat 64 h.hid
  | .hcoord => BitVec.ofNat 64 ((l.s - 1) * 512 + (l.w - 1) * 64 + h.hid / w * 8 + h.hid % w)
  | .pid => BitVec.ofNat 64 h.pid
  | .pcoord => BitVec.ofNat 64 (h.pid / (max l.gx 1 * max l.gy 1) * 2 ^ 24 + h.pid / max l.gx 1 % max l.gy 1 * 2 ^ 12 + h.pid % max l.gx 1)
  | .stage => BitVec.ofNat 64 (h.hid / w)
  | .fs => g.fsRead.zeroExtend 64
  | .esc => g.esc.zeroExtend 64
  | .escq => BitVec.ofNat 64 h.escq
  | .cont => g.cont
  | .fault => g.fault
  | .ver => BitVec.ofNat 64 ((List.range 64).foldl (fun m i => max m (s.floor (k.die * 64 + i))) 0)
  | .cyc => s.cycOf k.die

/-- A special register of 64 bits (R99). -/
def specWide : SpecReg → Bool
  | .cont | .fault | .ver | .cyc => true
  | .fid | .lane | .hid | .hcoord | .pid | .pcoord | .stage | .fs | .esc | .escq => false

/-- MOVS (R99). With U = 1 the leader's value (R84). -/
def execMovs (h : Hdr) (d : RegNo) (r : SpecReg) (s : State) : Out :=
  .next (resultUnit h (fun _ o g => if specWide r then g.setPair d (s.special o.key o r) else g.setReg d ((s.special o.key o r).extractLsb' 0 32)) s)

/-- MOVSW of one member. -/
def State.writeSpecial (s : State) (o : Fibre) (d : RegNo) (r : WSpecReg) (ua : DWord) : State :=
  match r with
  | .fs => s.updFibre o.key fun g => g.fsWrite (o.reg d)
  | .esc =>
    if o.reg d &&& ~~~(windowMask (s.winOf o.key)) ≠ 0#32 then s.fatal o.key 0x0B ua
    else s.updFibre o.key fun g => { g with esc := o.reg d }
  | .escq => s.updShare o.key.share fun h => { h with escq := min h.escq (o.reg d).toNat }
  | .cont =>
    if isPacketStart (o.pair d) then s.updFibre o.key fun g => { g with cont := o.pair d } else s.fatal o.key 0x0C ua
  | .fault =>
    if (o.pair d).toNat % 64 = 0 then s.updFibre o.key fun g => { g with fault := o.pair d } else s.fatal o.key 0x10 ua

/-- MOVSW (R99). -/
def execMovsw (h : Hdr) (d : RegNo) (r : WSpecReg) (s : State) : Out :=
  .next (memberUnit h (fun c f s => s.writeSpecial f d r c.uaddr) s)

end Sys2Proof.Machine
end

