-- ==== Sys2Proof/Machine/MatrixNum.lean ====
section
/-! DEFINITION. Matrix numbers: block products (R185 to R188), exact accumulation (R189, R190, R298), the drain (R193) and element images (R194). -/

namespace Sys2Proof.Machine

/-- Element `e` of an MX block as a signed integer: MXINT8 bytes, or MXI4 nibbles with the even element low (R185, R186). -/
def mxElem (fmt : Nat) (bytes : List Byte) (e : Nat) : Int :=
  if fmt = 1 then (bytes.getD e 0#8).toInt
  else signedOf 4 ((bytes.getD (e / 2) 0#8).toNat / (if e % 2 = 0 then 1 else 16))

/-- The block integer P of two blocks, through the three residue channels (R188). -/
def blockProduct (xs ys : List Int) : Int :=
  let ch (m : Int) : Int := ((xs.zip ys).foldl (fun t p => t + (p.1 % m) * (p.2 % m)) 0) % m
  let p := (ch 127 * 1056768 + ch 128 * 2080641 + ch 129 * 1056640) % 2097024
  if p ≥ 1048512 then p - 2097024 else p

/-- `p * 2^n` to the nearest integer, ties to even, and whether it was exact. -/
def scaleRound (p n : Int) : Int × Bool :=
  if 0 ≤ n then (p * 2 ^ n.toNat, true)
  else
    let sh := (-n).toNat
    let m := roundShift .rn false p.natAbs sh
    (if p < 0 then -(m : Int) else m, p.natAbs % 2 ^ sh == 0)

/-- Adds into a 96-bit sum, frozen once it has saturated (R190, R298). -/
def MonSum.add (x : MonSum) (v : Int) : MonSum :=
  if x.sat then x else
  let t := x.a + v
  if t > 2 ^ 95 - 1 then { x with a := 2 ^ 95 - 1, sat := true }
  else if t < -(2 ^ 95) then { x with a := -(2 ^ 95), sat := true }
  else { x with a := t }

/-- One block product into one element (R190): the element, and whether INX is set. -/
def accumulate (x : MonSum) (p : Int) (sa sb : Nat) (eb : Int) : MonSum × Bool :=
  if sa = 255 ∨ sb = 255 then ({ x with nan := true }, false)
  else
    let (v, exact) := scaleRound p ((sa : Int) + sb - 254 - eb)
    (x.add v, !exact)

/-- The value that MDRN delivers for an element (R193). For a saturated one with A = 0, which only the REST of an edited image can make, the rule gives none: it is a free value (DESIGN CHOICE, log 107). -/
def drainValue (f : Fmt) (x : MonSum) (eb : Int) : Nat :=
  if x.nan then f.nan
  else if x.sat && decide (x.a = 0) then Config.satZero f.width % 2 ^ f.width
  else if x.sat then f.pack .rn (.inf (decide (x.a < 0)))
  else if x.a = 0 then 0
  else f.pack .rn (.fin (decide (x.a < 0)) x.a.natAbs eb)

/-- The 16-byte image of an element (R194). -/
def elemImage (x : MonSum) (eb : Int) (inx : Bool) : Nat :=
  (eb % 2 ^ 16).toNat * 2 ^ 112 + (if inx then 2 ^ 98 else 0) + (if x.sat then 2 ^ 97 else 0) + (if x.nan then 2 ^ 96 else 0) + (x.a % 2 ^ 96).toNat

/-- An element from its image's low 98 bits. -/
def elemOf (v : Nat) : MonSum := ⟨signedOf 96 v, v.testBit 96, v.testBit 97, false, false⟩

/-! ### Monitor values (R298) -/

/-- Adds one counted field value. -/
def MonSum.count (x : MonSum) (ty : Nat) (ebm : Int) (w : Nat) : MonSum :=
  let put (p n : Int) : MonSum :=
    let (v, exact) := scaleRound p n
    { x.add v with inx := x.inx || !exact }
  if ty = 0 then put (signedOf 32 w) (-ebm)
  else match (if ty = 1 then fmt32 else fmt64).decode w with
  | .nan => { x with nan := true }
  | .inf _ => { x with nan := true }
  | .fin neg m e => put (if neg then -(m : Int) else m) (e - ebm)

end Sys2Proof.Machine
end

