-- ==== Sys2Proof/Machine/Thread.lean ====
section
/-! DEFINITION. Engine threads (R199, R232): operations, their reads and writes, units whose fibre waits for them, completion objects (R201) and deferred faults (R203). -/

namespace Sys2Proof.Machine

/-- `n` bytes at byte offset `off` of a 64-byte image. -/
def imgField (d : BitVec 512) (off n : Nat) : Nat := d.toNat / 2 ^ (8 * off) % 2 ^ (8 * n)
/-- The image that a list of 64 bytes is. -/
def imgOf (bs : List Byte) : BitVec 512 := BitVec.ofNat 512 (leNat bs)
def imgBytes (d : BitVec 512) : List Byte := leBytes 64 d.toNat

/-! ### Reads and writes of a thread -/

/-- What became of one transfer that lies in one line. -/
inductive Piece where
  /-- the bytes, and the refused elements by offset and code -/
  | ok (bytes : List Byte) (fails : List (Nat × Nat))
  /-- no element of it was transferred: class, reason and code as FINFO has them (R201), and the peer where one refused it -/
  | fault (cls reason code peer : Nat)
  /-- a fatal fault (R203) -/
  | fatal (cause : Nat)
  /-- a page is held, a write that the view names has not been applied, or a peer has not answered; the bytes of which the host is to be asked first (R237) -/
  | blocked (ask : Option (Nat × Nat))
  deriving DecidableEq, Repr

/-- The transfer may still be made, once what blocks it is over. -/
def Piece.stops : Piece → Bool
  | .blocked _ => true
  | .ok .. | .fault .. | .fatal _ => false

/-- PEER of R280: bit 15 marks a group. -/
def peerField (group : Bool) (p : Nat) : Nat := p + (if group then 2 ^ 15 else 0)

/-- A transfer to or from a peer takes the next answer (R274, R284, R286). (DEDUCED, log 83) -/
def State.remotePiece (s : State) (write group : Bool) (p : Nat) : List LineAnswer → Piece × List LineAnswer
  | ans =>
    if group && !write then (.fault 1 4 9 (peerField true p), ans)
    else if s.ownPeer.isNone || (!group && s.lost p) then (.fault 2 0 8 (peerField group p), ans)
    else match ans with
    | [] => (.blocked none, [])
    | .read bs fails :: t => (if write then .blocked none else .ok bs fails, t)
    | .wrote fails :: t => (if write then .ok [] fails else .blocked none, t)
    | .lost :: t => (.fault 2 0 8 (peerField group p), t)
    | .poisoned :: t => (if write then .blocked none else .fatal 0x18, t)

/-- Where a thread of fibre `k` accesses `n` bytes. -/
def State.threadAcc (s : State) (k : FKey) (spad : Bool) (va n : Nat) (write : Bool) : Acc :=
  if spad then s.spadAccess k va n 1 false else s.access k va 1 write

/-- Notes a line that an operation writes (R313). -/
def State.noteLine (s : State) (op : EngineOp) (line : Nat) : State :=
  s.updEop op.id fun e => { e with lined := if e.lined.contains line then e.lined else line :: e.lined }

/-- The peer that a thread's transfer goes to, as PEER of R280 has it; 0 for none. -/
def State.peerAt (s : State) (k : FKey) (spad : Bool) (va : Nat) : Nat :=
  match s.threadAcc k spad va 1 false with
  | .ok (.peer g p _ _ _) _ => peerField g p
  | .ok (.home _) _ | .fatal _ | .trans _ => 0

/-- A thread's view after the walk of one of its transfers, which its own acquire reads are (R127). -/
def State.threadView (s : State) (k : FKey) (spad : Bool) (va : Nat) (v : View) : View := if spad then v else s.walkView (s.tenOf k) va v

/-- What one transfer of a thread does to the leaf it goes through (R129, R145, R146), and a read to the line's slice (R133, R137, R144). (DEDUCED, log 79) -/
def State.threadWalk (s : State) (k : FKey) (spad : Bool) (va n : Nat) (read : Bool) : State :=
  if spad then s else
  match s.translate (s.tenOf k) va with
  | .ok l =>
    let s := (((s.learnWalk k.die (s.tenOf k) va).meetLeaf (some (s.ctxOf k)) l va).countLeaf k l va)
    let loc := l.pa + va % 2 ^ l.sizeBits
    if l.mode ≠ 0 then s else if read then (s.snoop loc).readLine loc n none true else s.snoop loc
  | .fail _ => s
  | .poison => s

/-- What keeps a thread with view `v` from reading: a flip, an atomic in two steps, a write named in its view that has not been applied (R220), or a host that has not answered (R237). -/
def State.threadBlock (s : State) (v : View) (loc n : Nat) : Option Piece :=
  if s.pageHeld loc || s.lineHeld loc 0 || s.viewPending v loc n then some (.blocked none)
  else if !s.hostAnswered loc n then some (.blocked (some (loc, n)))
  else none

/-- A thread with view `v` reads `n` bytes that lie in one line, at the instant of log 5; its view names what it read (R220, R232). -/
def State.threadRead (s : State) (k : FKey) (v : View) (spad : Bool) (va n : Nat) (ans : List LineAnswer) : Piece × View × List LineAnswer :=
  let v := s.threadView k spad va v
  match s.threadAcc k spad va n false with
  | .fatal c => (.fatal c, v, ans)
  | .trans r => (.fault 1 r 0 0, v, ans)
  | .ok (.home loc) _ =>
    (match s.threadBlock v loc n with
      | some b => (b, v, ans)
      | none =>
        if s.poisoned loc n then (.fatal 0x18, v, ans)
        else
          let p := s.instant v loc n
          (.ok (s.bytesAt p loc n) [], s.afterRead v false p loc n, ans))
  | .ok (.peer g p _ _ _) _ => let (r, t) := s.remotePiece false g p ans; (r, v, t)

/-- What the host answered for the bytes of a transfer has served it (R144). -/
def State.threadTook (s : State) (k : FKey) (spad : Bool) (va n : Nat) : State :=
  match s.threadAcc k spad va n false with
  | .ok (.home loc) _ => s.useAnswer loc n
  | .ok (.peer ..) _ | .fatal _ | .trans _ => s

/-- Writes all bytes of `bs` but the skipped ones: the write goes straight to the apply queue (R218, R232), and counts one event for each line that the operation writes (R138, R211). With `fill` it sets its granules (R153). -/
def State.threadApply (s : State) (op : EngineOp) (v : View) (loc : Nat) (bs : List Byte) (skip : Nat → Bool) (fill : Bool) : State × View :=
  let old := s.mem.readBytes loc bs.length
  let new := (bs.zip old).zipIdx.map fun p => if skip p.2 then p.1.2 else p.1.1
  let seen := ((s.eop? op.id).map fun e => e.lined.contains (loc / 256)).getD false
  let s1 := ((s.askHost loc bs.length).noteLine op (loc / 256)).bump
  ((s1.enterAq op.key.die (.engine op.id) s.serial loc bs.length (if fill then .fill new else .store new) none false 0 seen).applyAq s.serial, v.name s.serial)

/-- A thread writes bytes that lie in one line. `skip` names offsets that are not written. -/
def State.threadWrite (s : State) (op : EngineOp) (v : View) (spad : Bool) (va : Nat) (bs : List Byte) (skip : Nat → Bool) (fill : Bool) (ans : List LineAnswer) :
    State × View × Piece × List LineAnswer :=
  let s := s.threadWalk op.key spad va bs.length false
  let v := s.threadView op.key spad va v
  match s.threadAcc op.key spad va bs.length true with
  | .fatal c => (s, v, .fatal c, ans)
  | .trans r => (s, v, .fault 1 r 0 0, ans)
  | .ok (.home loc) _ =>
    if s.pageHeld loc then (s, v, .blocked none, ans) else
    let (s1, v1) := s.threadApply op v loc bs skip fill
    (s1, v1, .ok [] [], ans)
  | .ok (.peer g p _ _ _) _ =>
    let (r, t) := s.remotePiece true g p ans
    (s.noteLine op (remoteLine p va), v, r, t)

/-- Splits `n` bytes at `va` at line boundaries of 256 bytes: (offset, length) pairs. -/
def linePieces (va : Nat) : Nat → Nat → Nat → List (Nat × Nat)
  | 0, _, _ => []
  | fuel + 1, off, n =>
    if n = 0 then [] else
    let m := min n (256 - (va + off) % 256)
    (off, m) :: linePieces va fuel (off + m) (n - m)

/-- A thread reads `n` bytes in order: all of them, or the first failure and its offset; and its view. -/
def State.threadReadAll (s : State) (k : FKey) (v : View) (spad : Bool) (va n : Nat) (ans : List LineAnswer) :
    (Except (Nat × Piece) (List Byte)) × View × List LineAnswer :=
  (linePieces va (n / 256 + 2) 0 n).foldl (fun (acc : (Except (Nat × Piece) (List Byte)) × View × List LineAnswer) p =>
    match acc.1 with
    | .error _ => acc
    | .ok bs =>
      match s.threadRead k acc.2.1 spad (va + p.1) p.2 acc.2.2 with
      | (.ok b [], w, t) => (.ok (bs ++ b), w, t)
      | (.ok _ (f :: _), w, t) => (.error (p.1, .fault 1 4 f.2 (s.peerAt k spad (va + p.1))), w, t)
      | (r, w, t) => (.error (p.1, r), w, t)) (.ok [], v, ans)

/-- A thread writes bytes in order, 16 at a time (R200, R301): the state, and the first failure with its offset. -/
def State.threadWriteAll (s : State) (op : EngineOp) (v : View) (spad : Bool) (va : Nat) (bs : List Byte) (ans : List LineAnswer) :
    State × View × Option (Nat × Piece) × List LineAnswer :=
  (List.range ((bs.length + 15) / 16)).foldl (fun (acc : State × View × Option (Nat × Piece) × List LineAnswer) i =>
    match acc.2.2.1 with
    | some _ => acc
    | none =>
      match acc.1.threadWrite op acc.2.1 spad (va + 16 * i) ((bs.drop (16 * i)).take 16) (fun _ => false) false acc.2.2.2 with
      | (s1, v1, .ok _ [], t) => (s1, v1, none, t)
      | (s1, v1, .ok _ (f :: _), t) => (s1, v1, some (16 * i, .fault 1 4 f.2 (s1.peerAt op.key spad (va + 16 * i))), t)
      | (s1, v1, r, t) => (s1, v1, some (16 * i, r), t)) (s, v, none, ans)

/-! ### Operations -/

/-- R232: the thread of unit `seq` may fork: the conditions of R226 but for carts, and no older FENCE or BAR that is not complete (R222). (DEDUCED, log 75) -/
def State.forkOk (s : State) (k : FKey) (seq : Nat) : Bool :=
  match s.fibre? k with
  | none => true
  | some f => !f.fencedAt seq && (s.olderReads k seq).isEmpty && !(f.wb.any fun w => decide (w.seq < seq))

/-- An operation of a unit of fibre `o`; the fields a kind needs are set on top of it. Its thread forks at once where it may, and its share's L1 has nothing to write back first (R135). -/
def newOp (s : State) (c : UnitCtx) (o : Fibre) (kind : EKind) : EngineOp :=
  { id := s.serial, kind := kind, key := o.key, fid := o.fid, ctx := s.ctxOf o.key, seq := c.seq, unitAddr := c.uaddr, tile := 0
    descs := [], descNos := [], parm := 0#17, pred := 0, free := false, arg := 0, va := 0, spad := false, dst := 0#5, obj := none
    accepted := none, partner := none, step := 0, landed := false, flt := none, snapInx := none, lines := 0, ended := false
    forked := s.forkOk o.key c.seq && (s.dirtyLines o.key.share).isEmpty, lined := [], bulk := none, began := false, rows := none, fetched := none
    view := ((s.fibre? o.key).map fun f => f.viewAt c.seq).getD View.init, born := s.now }

def State.dropEop (s : State) (o : Nat) : State := { s with eops := s.eops.filter fun e => e.id ≠ o }

/-- A thread ends: the launch's completion carries its view (R230). -/
def State.endThread (s : State) (op : EngineOp) : State :=
  (s.updCtx op.ctx fun x => { x with doneView := x.doneView.join op.view }).dropEop op.id

/-- A thread forks where it may, and takes the fibre's view (R232). -/
def State.forkOp (s : State) (e : EngineOp) : EngineOp :=
  if e.forked || !s.forkOk e.key e.seq then e
  else { e with forked := true, view := ((s.fibre? e.key).map fun f => f.viewAt e.seq).getD e.view }

/-- Every thread that may fork now does, after the release actions on the L1 of its share (R135, R199). -/
def State.forks (s : State) : State :=
  let s := ((s.eops.filter fun e => !e.forked).map fun e => e.key.share).eraseDups.foldl (fun (s : State) sh => s.writeBack sh) s
  { s with eops := s.eops.map s.forkOp }

/-- A forked operation. -/
def State.thread? (s : State) (id : Nat) : Option EngineOp := (s.eop? id).filter fun e => e.forked

/-- Every write of an operation has been applied (R232). -/
def State.threadApplied (s : State) (id : Nat) : Bool := !(s.aq.any fun w => w.src = .engine id)

/-- What finishes a waiting unit: none where it must wait for a peer or a page. -/
abbrev Finish := State → EngineOp → List LineAnswer → Option State

/-- The image that a waiting unit has read has used what the host answered (R144). -/
def State.imageTook (s : State) (op : EngineOp) : State :=
  match op.kind with
  | .tdset | .monset => s.threadTook op.key op.spad op.va 64
  | .keyld => s.threadTook op.key false op.va 48
  | .wopen => s.threadTook op.key false op.va 32
  | .tdget | .tdinv | .mscl | .mzero | .mma | .mdrn | .cpy | .tmm | .wrevoke | .monrd | .save | .rest | .evict => s

/-- A waiting unit ends: the thread's view joins its fibre's, and the fibre goes on (R232). -/
def State.unitEnds (s : State) (op : EngineOp) (v : View) : State :=
  ((s.imageTook op).endThread { op with view := v }).updFibre op.key fun f => { f.unwait (fun w => decide (w.engine? = some op.id)) with view := f.view.join v }

/-- A unit whose fibre waits resident until its WAITING_UNIT_END. -/
def State.waitUnit (s : State) (op : EngineOp) : State :=
  { s.bump with eops := s.eops ++ [op] }.updFibre op.key fun f => f.await op.seq op.unitAddr (.engine op.id)

/-- A recoverable fault of a waiting unit is its end, delivered to the continuation once the fibre can take it (R179). -/
def State.unitFault (s : State) (op : EngineOp) (v : View) (cls reason va code : Nat) : State :=
  (s.unitEnds op v).deliverResident op.key cls 0 reason op.unitAddr va code op.unitAddr op.seq

/-- The outcome of a transfer that did not succeed, for a waiting unit: none where it is blocked. -/
def State.unitPiece (s : State) (op : EngineOp) (v : View) (va : Nat) : Piece → Option State
  | .ok _ _ => some s
  | .fault 2 _ code _ => some (s.unitFault op v 2 code va 0)
  | .fault cls reason code _ => some (s.unitFault op v cls reason va code)
  | .fatal cause => some ((s.dropEop op.id).fatal op.key cause op.unitAddr)
  | .blocked (some (loc, n)) => some (s.askHost loc n)
  | .blocked none => none

/-! ### Completion (R201, R203) -/

/-- The opcode of an engine operation, as FINFO names it. -/
def EKind.opcode : EKind → Nat
  | .tdset => 0xD0 | .tdget => 0xD1 | .tdinv => 0xD2 | .mscl => 0xD3 | .mzero => 0xD4 | .mma => 0xD5 | .mdrn => 0xD6
  | .cpy => 0xD7 | .tmm => 0xD8 | .wopen => 0xDB | .wrevoke => 0xDC | .monset => 0xDD | .monrd => 0xDE
  | .save => 0xE8 | .rest => 0xE9 | .keyld => 0xEA | .evict => 0xEB

/-- Notes a fault of an operation, the first one only: address, opcode, descriptor, reason, code, class, peer. -/
def EngineOp.noteFault (e : EngineOp) (va opcode desc reason code cls peer : Nat) : EngineOp :=
  match e.flt with
  | some _ => e
  | none => { e with flt := some (va, opcode * 2 ^ 24 + desc * 2 ^ 16 + reason * 2 ^ 8 + code * 2 ^ 4 + cls, peer) }

/-- A completion object at a virtual address (R201, R202, R216): alignment, translation, then the kind of page. One on a page that its leaf sends to host bias, or that still is in it, is refused at once (DESIGN CHOICE, log 104). -/
def State.complAccess (s : State) (k : FKey) (va : Nat) : Acc :=
  if va % 32 ≠ 0 then .fatal 0x1B
  else match s.access k va 1 false with
  | .ok (.home loc) (some l) =>
    if l.mode = 0 && isDram loc && !s.hostBias loc && !l.hb && !l.sa && !l.ro then .ok (.home loc) (some l) else .fatal 0x1C
  | .ok _ _ => .fatal 0x1C
  | .fatal c => .fatal c
  | .trans r => .trans r

/-- The increment of R201: one release RMW at the object's home, with the stamp of its die (R224), its fault fields before it (R232). A poisoned object is consumed (R140). -/
def State.countDone (s : State) (e : EngineOp) (loc : Nat) : State :=
  if s.poisoned loc 8 then s.halt e.ctx ⟨haltClass 0x18, 0x18, e.unitAddr, some e.key, 2⟩ else
  let w := s.mem.read loc 8
  let cnt := w % 2 ^ 48
  let flt := w / 2 ^ 48
  if cnt = 2 ^ 48 - 1 then s.machineCheck 2 e.key.die 0 e.ctx
  else
    let (s, v) := match e.flt with
      | some (va, finfo, _) =>
        if flt = 0 then
          (s.bump.applyBytes s.serial (loc + 8) (leBytes 8 va ++ leBytes 4 finfo ++ leBytes 4 (ffib e.key e.fid)
            ++ leBytes 8 (if e.kind = EKind.tmm then e.step % 65536 else 0)) none, e.view.name s.serial)
        else (s, e.view)
      | none => (s, e.view)
    let flt' := if e.flt.isSome ∧ flt < 0xFFFF then flt + 1 else flt
    s.bump.applyFrom none true (s.stampOf e.key.die) s.serial loc (leBytes 8 (cnt + 1 + flt' * 2 ^ 48)) (some v)

/-- A fault without a completion object goes to the remote-fault queue (R203, R280). (DEDUCED, log 26) -/
def State.deferFault (s : State) (e : EngineOp) : State :=
  match e.flt with
  | none => s
  | some (va, finfo, peer) =>
    s.rfqEntry e.ctx (leBytes 8 va ++ leBytes 8 0 ++ leBytes 1 3 ++ leBytes 1 (bits finfo 31 24) ++ leBytes 1 (finfo % 256)
      ++ leBytes 1 (bits finfo 15 8) ++ leBytes 4 (ffib e.key e.fid) ++ leBytes 2 (if bits finfo 7 4 = 0 then 0 else peer) ++ leBytes 2 (bits finfo 23 16))

/-- ENGINE_THREAD_COMPLETE: the increment, once every write that its view names has been applied (R223), the predicate of an MDRN, or the deferred fault; the operation leaves the engine. -/
def State.completeOp (s : State) (id : Nat) : State :=
  match s.eop? id with
  | none => s
  | some e =>
    if !e.ended || !s.threadApplied id || e.obj.any (fun l => s.pageHeld l) || (e.obj.isSome && !s.viewApplied e.view) then s else
    let s := match e.obj with
      | some loc => s.countDone e loc
      | none => s.deferFault e
    let s := match e.kind with
      | .mdrn => s.updFibre e.key fun f => { (f.setPred e.pred (e.snapInx.getD false)) with view := f.view.join e.view }
      | _ => s
    s.endThread e

end Sys2Proof.Machine
end

