-- ==== Sys2Proof/Machine/Monitor.lean ====
section
/-! DEFINITION. Conservation monitors (R293 to R302): MONSET, MONRD, the counting of stores, and the check at a barrier. -/

namespace Sys2Proof.Machine

/-! ### Slot images (R294, R295) -/

def monBase (d : BitVec 512) : Nat := imgField d 0x00 8
def monSize (d : BitVec 512) : Nat := imgField d 0x08 8
def monStride (d : BitVec 512) : Nat := imgField d 0x10 4
def monOff (d : BitVec 512) : Nat := imgField d 0x14 4
def monRef (d : BitVec 512) : Int := signedOf 96 (imgField d 0x18 12)
def monEbm (d : BitVec 512) : Int := signedOf 16 (imgField d 0x24 2)
def monCtl (d : BitVec 512) : Nat := imgField d 0x26 2
def monBound (d : BitVec 512) : Nat := imgField d 0x28 8
def monEn (d : BitVec 512) : Bool := bits (monCtl d) 0 0 == 1
def monType (d : BitVec 512) : Nat := bits (monCtl d) 2 1
def monLvl (d : BitVec 512) : Nat := bits (monCtl d) 4 3
def monHalt (d : BitVec 512) : Bool := bits (monCtl d) 5 5 == 1
def monLoc (d : BitVec 512) : Bool := bits (monCtl d) 6 6 == 1
/-- Bytes of a field. -/
def monField (d : BitVec 512) : Nat := if monType d = 2 then 8 else 4

/-- The image obeys R294 and R295. -/
def monOk (d : BitVec 512) : Bool :=
  let f := monField d
  decide (imgField d 0x30 16 = 0) && decide (monCtl d < 128) && decide (monType d ≠ 3) && decide (monLvl d ≠ 3)
  && decide (1 ≤ monSize d) && decide (monSize d ≤ 2 ^ 40) && decide (monBase d + monSize d ≤ 2 ^ 52)
  && decide (4 ≤ monStride d) && decide (monStride d ≤ 65536) && decide (monStride d % f = 0)
  && decide (monOff d % f = 0) && decide (monOff d + f ≤ monStride d)
  && (if monLoc d then decide (monBase d < 2 ^ 20) else decide (monBase d < 2 ^ 52))

/-! ### Counting (R297, R298) -/

/-- Fields of the window that `n` bytes at `a` touch. -/
def monFields (d : BitVec 512) (a n : Nat) : List Nat :=
  let f := monField d
  ((List.range (n + f)).map fun i => a + i - f).filter fun x =>
    decide (monBase d ≤ x) && decide (x + f ≤ monBase d + monSize d) && decide ((x - monBase d) % monStride d = monOff d) && overlap x f a n

/-- One store into one slot's partial. -/
def countInto (d : BitVec 512) (a n v : Nat) (x : MonSum) : MonSum :=
  let f := monField d
  (monFields d a n).eraseDups.foldl (fun x p =>
    if a ≤ p ∧ p + f ≤ a + n then x.count (monType d) (monEbm d) (v / 2 ^ (8 * (p - a)) % 2 ^ (8 * f)) else { x with pw := true }) x

/-- Changes the partial of slot `i`. -/
def Household.onPartial (h : Household) (i : Nat) (f : MonSum → MonSum) : Household :=
  { h with partials := (Vector.ofFn (fun (j : Fin 8) => if j.val = i then f h.partials[j] else h.partials[j])) }

/-- A store of fibre `k` that has passed its checks (R297): `spad` for STS and STF, `v` the bytes as a number. -/
def State.countStore (s : State) (k : FKey) (spad : Bool) (va n v : Nat) : State :=
  let c := s.ctxOf k
  (List.range 8).foldl (fun s i =>
    match s.monitors.get? i with
    | none => s
    | some m =>
      if m.ctx = c && m.order == (s.ctx c).order && monLoc m.image == spad then
        s.updShare k.share fun h => h.onPartial i (countInto m.image (if spad then va % 2 ^ 20 else va) n v)
      else s) s

/-! ### MONSET (R296) -/

/-- The slot is bound to another live launch. -/
def State.monTaken (s : State) (c k : Nat) : Bool :=
  match s.monitors.get? k with
  | some m => decide (m.ctx ≠ c ∨ m.order ≠ (s.ctx c).order)
  | none => false

/-- Clears a slot's partial in every household of a launch. -/
def State.clearPartials (s : State) (c k : Nat) : State :=
  { s with shares := s.shares.map fun e => if e.2.ctx = c then (e.1, e.2.onPartial k fun _ => MonSum.zero) else e }

def monsetFin : Finish := fun s op ans =>
  let s := s.threadWalk op.key false op.va 64 true
  match s.threadReadAll op.key op.view false op.va 64 ans with
  | (.error (o, p), v, _) => s.unitPiece op v (op.va + o) p
  | (.ok bs, v, _) =>
    let d := imgOf bs
    if 7 < op.arg || !monOk d || s.monTaken op.ctx op.arg then some ((s.dropEop op.id).fatal op.key 0x23 op.unitAddr)
    else
      let s := s.clearPartials op.ctx op.arg
      let s : State := if monEn d then { s with monitors := s.monitors.set op.arg ⟨op.ctx, (s.ctx op.ctx).order, d, MonSum.zero, false, 0, 0, 0⟩ }
        else { s with monitors := s.monitors.del op.arg }
      some (s.unitEnds op v)

/-- MONSET (R296). -/
def execMonset (h : Hdr) (a b : RegNo) (s : State) : Out :=
  .next (memberUnit h (fun c f s =>
    let v := (f.pair a).toNat
    if v % 64 ≠ 0 then s.fatal f.key 0x1B c.uaddr
    else s.waitUnit { newOp s c f .monset with va := v, arg := (f.reg b).toNat }) s)

/-! ### MONRD (R301) -/

def flagBits (x : MonSum) : Nat :=
  (if x.nan then 1 else 0) + (if x.sat then 2 else 0) + (if x.inx then 4 else 0) + (if x.pw then 8 else 0)

/-- The 64 bytes that MONRD writes. -/
def State.monImage (s : State) (k : FKey) (i : Nat) : List Byte :=
  match s.monitors.get? i with
  | none => List.replicate 64 0#8
  | some m =>
    let p := (s.share k.share).partials.toList.getD i MonSum.zero
    leBytes 12 (m.total.a % 2 ^ 96).toNat ++ leBytes 4 (flagBits m.total + (if m.breached then 16 else 0) + m.hidx * 256)
    ++ leBytes 8 m.checks ++ leBytes 8 m.breaches ++ leBytes 12 (p.a % 2 ^ 96).toNat ++ leBytes 4 (flagBits p)
    ++ leBytes 2 (monCtl m.image) ++ leBytes 14 0

/-- A unit that writes 64 bytes held in its operation: MONRD and TDGET. -/
def writeFin : Finish := fun s op ans =>
  if op.landed then (if s.threadApplied op.id then some (s.unitEnds op op.view) else none) else
  match s.threadWriteAll op op.view op.spad op.va (imgBytes (op.descs.headD 0#512)) ans with
  | (s1, v1, some (o, p), _) => s1.unitPiece op v1 (op.va + o) p
  | (s1, v1, none, _) =>
    if s1.threadApplied op.id then some (s1.unitEnds op v1)
    else some (s1.updEop op.id fun e => { e with landed := true, view := v1 })

/-- MONRD (R301). -/
def execMonrd (h : Hdr) (a b : RegNo) (s : State) : Out :=
  .next (memberUnit h (fun c f s =>
    let v := (f.pair a).toNat
    let i := (f.reg b).toNat
    if v % 64 ≠ 0 then s.fatal f.key 0x1B c.uaddr
    else if 7 < i || s.monTaken (s.ctxOf f.key) i then s.fatal f.key 0x23 c.uaddr
    else s.waitUnit { newOp s c f .monrd with va := v, arg := i, descs := [imgOf (s.monImage f.key i)] }) s)

/-! ### The check (R299) -/

/-- One check of slot `i` over some households: the state, and whether it breached. -/
def State.checkSlot (s : State) (i : Nat) (shares : List Nat) (hidx : Nat) : State × Bool :=
  match s.monitors.get? i with
  | none => (s, false)
  | some m =>
    let ps := shares.map fun sh => (s.share sh).partials.toList.getD i MonSum.zero
    let sum := ps.foldl (fun t p => t + p.a) 0
    let x : MonSum := (⟨0, ps.any (·.nan), false, ps.any (·.inx), ps.any (·.pw)⟩ : MonSum).add sum
    let x := { x with sat := x.sat || ps.any (·.sat) }
    let breach := x.nan || x.sat || x.pw || decide ((x.a - monRef m.image).natAbs > monBound m.image)
    let s := shares.foldl (fun s sh => s.updShare sh fun h => h.onPartial i fun _ => MonSum.zero) s
    ({ s with monitors := s.monitors.set i { m with
        total := x, breached := breach, hidx := hidx, checks := m.checks + 1, breaches := m.breaches + if breach then 1 else 0 } }, breach)

/-- The slots of context `c` armed for a level. -/
def State.armed (s : State) (c lvl : Nat) : List Nat :=
  (List.range 8).filter fun i => match s.monitors.get? i with
    | some m => decide (m.ctx = c) && decide (monLvl m.image = lvl)
    | none => false

/-- The checks of a barrier over groups of households, each checked on its own: the state, and for each breach the slot and its households. -/
def State.monCheck (s : State) (c lvl : Nat) (groups : List (Nat × List Nat)) : State × List (Nat × List Nat) :=
  (s.armed c lvl).foldl (fun acc i => groups.foldl (fun (acc : State × List (Nat × List Nat)) g =>
    let (s1, b) := acc.1.checkSlot i g.2 (if lvl = 0 then g.1 else 0)
    (s1, if b then acc.2 ++ [(i, g.2)] else acc.2)) acc) (s, [])

/-- A breaching slot asks for a halt (R300). -/
def State.monHalts (s : State) (bs : List (Nat × List Nat)) : Bool :=
  bs.any fun b => match s.monitors.get? b.1 with
    | some m => monHalt m.image
    | none => false

end Sys2Proof.Machine
end

