-- ==== Sys2Proof/Machine/MemoryUnits.lean ====
section
/-! DEFINITION. Global and scratchpad loads and stores, prefetch and the escort mask, opcodes 0xA0 to 0xAD (R148 to R159). -/

namespace Sys2Proof.Machine

/-- Bytes of an access and registers of its operand (R71). -/
def sz3Bytes : Sz3 → Nat
  | .b32 => 4
  | .b64 => 8
  | .b128 => 16
def sz2Bytes : Sz2 → Nat
  | .b32 => 4
  | .b64 => 8
def nldBytes : NLd → Nat
  | .b8 | .i8 => 1
  | .b16 | .i16 => 2
def nldSigned : NLd → Bool
  | .i8 | .i16 => true
  | .b8 | .b16 => false
def nstBytes : NSt → Nat
  | .b8 => 1
  | .b16 => 2
/-- Registers that hold `n` bytes. -/
def wordsOf (n : Nat) : Nat := max 1 (n / 4)

/-- The address of a MEM-format unit: base pair + offset, mod 2^64 (R62, R149). -/
def UnitCtx.ea (c : UnitCtx) (f : Fibre) (base : RegNo) : Nat := (f.pair base + c.off).toNat

/-- A memory unit of each active member, in ascending lane order: a member that faults leaves the others their accesses (R149, R152). -/
def eachMember (h : Hdr) (act : UnitCtx → Fibre → State → State) (s : State) : State :=
  runUnit h (fun c s => c.act.foldl (fun s f => act c f s) s) s

/-- A unit that each active member issues for itself; with U = 1 the leader issues it once, for all (R84). -/
def accessUnit (h : Hdr) (act : UnitCtx → Fibre → List FKey → State → State) (s : State) : State :=
  runUnit h (fun c s =>
    if h.u then
      match c.act with
      | [] => s
      | f :: fs => act c f (fs.map fun g => g.key) s
    else c.act.foldl (fun s f => act c f [] s) s) s

/-- What happens to a member whose access is not allowed: a fatal fault, or TRANSLATE for every member the unit runs for (R84, R127, R158). -/
def State.accessFault (s : State) (c : UnitCtx) (k : FKey) (also : List FKey) (va : Nat) : Acc → State
  | .fatal cause => (if cause = 0x13 ∨ cause = 0x14 ∨ cause = 0x15 ∨ cause = 0x1B then s else s.walkVa k va).fatal k cause c.uaddr
  | .trans reason => (k :: also).foldl (fun s k => s.translateFault k reason c.uaddr va c.seq) s
  | .ok _ _ => s

/-- A read or atomic request of one member. -/
def State.requestOne (s : State) (c : UnitCtx) (o : Fibre) (also : List FKey) (acc : Acc) (va n : Nat) (kind : ReqKind)
    (acq rel : Bool) (dst : RegNo) (dw left : Nat) (esc : Bool) : State :=
  match acc with
  | .ok d l =>
    let s := s.touched o.key l va
    s.bump.issueReq (s.paged l { mkReq s c o va n d kind acq rel dst dw left esc o.esc with also := also.map fun m => (m, left) })
  | a => s.accessFault c o.key also va a

/-- What a store does to its share's L1 (R132): a line of a page that the L1 holds takes the whole words, without a fetch; a store to a mode-10 page drops the L1's copy of the line. -/
def State.storeL1 (s : State) (k : FKey) (d : Dest) (l : Option Leaf) (n : Nat) : State :=
  match l, d with
  | some l, .home loc => if s.l1Holds l loc && decide (4 ≤ n) then s.l1Fill k.share (loc / 256) 0#4 l.ro else s
  | some _, .peer _ p _ _ va => s.l1Drop k.share (remoteLine p va)
  | none, _ => s

/-- The L1 holds the page of an access. -/
def State.cachedPage (s : State) (d : Dest) : Option Leaf → Bool
  | some l => (match d with
      | .home loc => s.l1Holds l loc
      | .peer .. => false)
  | none => false

/-- A write of one member: it enters the write buffer (R221); a store is counted by the monitors (R297). -/
def State.storeOne (s : State) (c : UnitCtx) (o : Fibre) (acc : Acc) (va n : Nat) (kind : WKind) (rel : Bool) : State :=
  match acc with
  | .ok d l =>
    let s := s.touched o.key l va
    let s := if kind.isRed then s else s.storeL1 o.key d l n
    let s := s.bufferPage o.key c.seq d n kind rel va (s.cachedPage d l) (l.any fun x => x.sa)
    match kind with
    | .store bs => s.countStore o.key l.isNone va n (leNat bs)
    | .fill bs => s.countStore o.key l.isNone va n (leNat bs)
    | .red .. => s
  | a => s.accessFault c o.key [] va a

/-- A global load (R149). -/
def globalLoad (h : Hdr) (d base : RegNo) (la : BitVec 4) (esc : Bool) (n : Nat) (signed acq : Bool) (s : State) : State :=
  accessUnit h (fun c f also s =>
    let va := c.ea f base
    s.requestOne c f also (s.access f.key va n false) va n (.load n signed) acq false d (wordsOf n) la.toNat esc) s

/-- A global store (R149). -/
def globalStore (h : Hdr) (sr base : RegNo) (n : Nat) (rel : Bool) (s : State) : State :=
  eachMember h (fun c f s =>
    let va := c.ea f base
    s.storeOne c f (s.access f.key va n true) va n (.store (leBytes n (f.opd sr (wordsOf n)))) rel) s

/-- A scratchpad load (R152). -/
def spadLoad (h : Hdr) (d base : RegNo) (la : BitVec 4) (n : Nat) (signed : Bool) (s : State) : State :=
  accessUnit h (fun c f also s =>
    let va := c.ea f base
    s.requestOne c f also (s.spadAccess f.key va n n false) va n (.load n signed) false false d (wordsOf n) la.toNat false) s

/-- A scratchpad store (R152). -/
def spadStore (h : Hdr) (sr base : RegNo) (n : Nat) (s : State) : State :=
  eachMember h (fun c f s =>
    let va := c.ea f base
    s.storeOne c f (s.spadAccess f.key va n n false) va n (.store (leBytes n (f.opd sr (wordsOf n)))) false) s

/-- LD (R148, R149). -/
def execLd (h : Hdr) (d base : RegNo) (la : BitVec 4) (esc : Bool) (sz : Sz3) (s : State) : Out :=
  .next (globalLoad h d base la esc (sz3Bytes sz) false false s)

/-- LD narrow (R148, R149). -/
def execLdNarrow (h : Hdr) (d base : RegNo) (la : BitVec 4) (esc : Bool) (t : NLd) (s : State) : Out :=
  .next (globalLoad h d base la esc (nldBytes t) (nldSigned t) false s)

/-- ST (R148, R149). -/
def execSt (h : Hdr) (sr base : RegNo) (sz : Sz3) (s : State) : Out :=
  .next (globalStore h sr base (sz3Bytes sz) false s)

/-- ST narrow (R148, R149). -/
def execStNarrow (h : Hdr) (sr base : RegNo) (t : NSt) (s : State) : Out :=
  .next (globalStore h sr base (nstBytes t) false s)

/-- LDS (R151, R152). -/
def execLds (h : Hdr) (d base : RegNo) (la : BitVec 4) (sz : Sz3) (s : State) : Out :=
  .next (spadLoad h d base la (sz3Bytes sz) false s)

/-- LDS narrow (R151, R152). -/
def execLdsNarrow (h : Hdr) (d base : RegNo) (la : BitVec 4) (t : NLd) (s : State) : Out :=
  .next (spadLoad h d base la (nldBytes t) (nldSigned t) s)

/-- STS (R151, R152). -/
def execSts (h : Hdr) (sr base : RegNo) (sz : Sz3) (s : State) : Out :=
  .next (spadStore h sr base (sz3Bytes sz) s)

/-- STS narrow (R151, R152). -/
def execStsNarrow (h : Hdr) (sr base : RegNo) (t : NSt) (s : State) : Out :=
  .next (spadStore h sr base (nstBytes t) s)

/-- LDF (R155): an acquire read that waits for a full granule and empties it. -/
def execLdf (h : Hdr) (d base : RegNo) (la : BitVec 4) (esc : Bool) (sz : Sz3) (s : State) : Out :=
  .next (eachMember h (fun c f s =>
    let va := c.ea f base
    let n := sz3Bytes sz
    s.requestOne c f [] (s.spadAccess f.key va n n true) va n (.ldf n) true false d (wordsOf n) la.toNat esc) s)

/-- STF (R154): a release write that fills its granule. -/
def execStf (h : Hdr) (sr base : RegNo) (sz : Sz3) (s : State) : Out :=
  .next (eachMember h (fun c f s =>
    let va := c.ea f base
    let n := sz3Bytes sz
    s.storeOne c f (s.spadAccess f.key va n n true) va n (.fill (leBytes n (f.opd sr (wordsOf n)))) true) s)

/-- A PREF of a mode-10 page (R131, R157): the sector comes from the predicted peer's L1, or from its peer by a request that takes no table entry and that nothing waits for. It is dropped where the peer cannot be asked now. -/
def State.prefPeer (s : State) (r : Req) (p va : Nat) : State :=
  if (s.heldLine r p va 4 true).isSome then s
  else match s.heldLine r p va 4 false, r.cache with
  | some e, some ro => s.l1Load r.share p (va / 64 * 64) ro (e.bytes.readBytes (va / 64 * 64) 64)
  | _, _ =>
    if s.ownPeer.isNone || s.lost p || s.hotPeer r.key.die p || s.planeStalled (bits va 11 8) then s
    else { s.enqueue r.key.die false p (bits va 11 8) false fun _ => .request r.id with reqs := s.reqs ++ [{ r with sent := true }] }.bump

/-- PREF of one member (R157): no access, so its walk joins no view. The sector of the address is filled, where the address translates and is aligned, the page is open to the fibre, and the level can hold it; otherwise nothing at all happens. It names no access size: one that is no multiple of 4 is misaligned. (DESIGN CHOICE, log 33) -/
def State.prefOne (s : State) (c : UnitCtx) (f : Fibre) (va : Nat) (lv : PrefLevel) : State :=
  let k := f.key
  match s.access k va 4 false with
  | .ok (.home loc) (some l) =>
    let held := match lv with
      | .l1 => s.l1Holds l loc
      | .l2 => s.inSlice loc
    if !held || s.pageHeld loc || s.walkHeld (s.tenOf k) va then s else
    let s := (s.meetVa (some (s.ctxOf k)) (s.tenOf k) va).readLine loc 4 (some k.share) true
    (match lv with
      | .l1 => s.l1Fill k.share (loc / 256) (anySector (wordMask false (loc / 256) loc 4)) l.ro
      | .l2 => s)
  | .ok (.peer false p w gen _) (some l) =>
    if l.mode ≠ 2 || decide (lv = .l2) || s.walkHeld (s.tenOf k) va then s
    else s.prefPeer (s.paged (some l) (mkReq s c f (va / 64 * 64) 64 (.peer false p w gen (va / 64 * 64)) .pref false false 0#5 0 0 false 0#32)) p va
  | .ok .. | .fatal _ | .trans _ => s

/-- PREF (R157). -/
def execPref (h : Hdr) (base : RegNo) (lv : PrefLevel) (s : State) : Out :=
  .next (memberUnit h (fun c f s => s.prefOne c f (c.ea f base) lv) s)

/-- ESCM (R159). -/
def execEscm (h : Hdr) (imm : BitVec 17) (s : State) : Out :=
  .next (memberUnit h (fun c f s =>
    let v := escmMask c.imxs imm
    if v &&& ~~~(windowMask (s.winOf f.key)) ≠ 0#32 then s.fatal f.key 0x0B c.uaddr
    else s.updFibre f.key fun g => { g with esc := v }) s)

/-- LD.acq (R148, R227). -/
def execLdAcq (h : Hdr) (d base : RegNo) (la : BitVec 4) (esc : Bool) (sz : Sz2) (s : State) : Out :=
  .next (globalLoad h d base la esc (sz2Bytes sz) false true s)

/-- ST.rel (R148, R226). -/
def execStRel (h : Hdr) (sr base : RegNo) (sz : Sz2) (s : State) : Out :=
  .next (globalStore h sr base (sz2Bytes sz) true s)

end Sys2Proof.Machine
end

