-- ==== Sys2Proof/Machine/Atomics.lean ====
section
/-! DEFINITION. Atomics, reductions, locks and versions: opcodes 0xAE to 0xBA and 0xC0 to 0xCF (R240 to R252). Where an atomic is performed (R240) is settled when it takes its step (Machine/Memsys). -/

namespace Sys2Proof.Machine

/-- W of an integer type, in bytes. -/
def tyBytes (t : IntTy) : Nat := 4 * t.n

/-- ATOM and ATOM.ord of one member (R243, R244). -/
def State.atomOne (s : State) (c : UnitCtx) (f : Fibre) (d base : RegNo) (la : BitVec 4) (esc : Bool) (op : AOp) (signed wide ord : Bool) : State :=
  let n := if wide then 2 else 1
  let va := c.ea f base
  let low := BitVec.ofNat 64 (f.opd d n)
  let high := BitVec.ofNat 64 (f.opd (d + BitVec.ofNat 5 n) n)
  let cas := decide (op = .cas)
  s.requestOne c f [] (s.atomAccess f.key va (4 * n)) va (4 * n)
    (if cas then .atom op signed wide high low else .atom op signed wide low 0#64) ord ord d (if cas then 2 * n else n) la.toNat esc

def atomUnit (h : Hdr) (d base : RegNo) (la : BitVec 4) (esc : Bool) (op : AOp) (t : IntTy) (ord : Bool) (s : State) : State :=
  eachMember h (fun c f s => s.atomOne c f d base la esc op t.signed (decide (t.n = 2)) ord) s

/-- RED (R245): a write-buffer entry that modifies its word at the home, or an element of a cart. -/
def redUnit (h : Hdr) (sr base : RegNo) (op : AOp) (t : IntTy) (s : State) : State :=
  eachMember h (fun c f s =>
    let va := c.ea f base
    let n := tyBytes t
    s.storeOne c f (s.atomAccess f.key va n) va n (.red op t.signed n (BitVec.ofNat 64 (f.opd sr t.n))) false) s

/-- ATOM.add (R243, R244). -/
def execAtomAdd (h : Hdr) (d base : RegNo) (la : BitVec 4) (esc : Bool) (t : IntTy) (s : State) : Out := .next (atomUnit h d base la esc .add t false s)
/-- ATOM.and (R243, R244). -/
def execAtomAnd (h : Hdr) (d base : RegNo) (la : BitVec 4) (esc : Bool) (t : IntTy) (s : State) : Out := .next (atomUnit h d base la esc .and t false s)
/-- ATOM.or (R243, R244). -/
def execAtomOr (h : Hdr) (d base : RegNo) (la : BitVec 4) (esc : Bool) (t : IntTy) (s : State) : Out := .next (atomUnit h d base la esc .or t false s)
/-- ATOM.xor (R243, R244). -/
def execAtomXor (h : Hdr) (d base : RegNo) (la : BitVec 4) (esc : Bool) (t : IntTy) (s : State) : Out := .next (atomUnit h d base la esc .xor t false s)
/-- ATOM.min (R243, R244). -/
def execAtomMin (h : Hdr) (d base : RegNo) (la : BitVec 4) (esc : Bool) (t : IntTy) (s : State) : Out := .next (atomUnit h d base la esc .min t false s)
/-- ATOM.max (R243, R244). -/
def execAtomMax (h : Hdr) (d base : RegNo) (la : BitVec 4) (esc : Bool) (t : IntTy) (s : State) : Out := .next (atomUnit h d base la esc .max t false s)
/-- ATOM.exch (R243, R244). -/
def execAtomExch (h : Hdr) (d base : RegNo) (la : BitVec 4) (esc : Bool) (t : IntTy) (s : State) : Out := .next (atomUnit h d base la esc .exch t false s)
/-- ATOM.cas (R243, R244). -/
def execAtomCas (h : Hdr) (d base : RegNo) (la : BitVec 4) (esc : Bool) (t : IntTy) (s : State) : Out := .next (atomUnit h d base la esc .cas t false s)
/-- ATOM.fadd (R243, R244). -/
def execAtomFadd (h : Hdr) (d base : RegNo) (la : BitVec 4) (esc : Bool) (s : State) : Out := .next (atomUnit h d base la esc .fadd .b32 false s)
/-- ATOM.ord.add (R243, R244). -/
def execAtomOrdAdd (h : Hdr) (d base : RegNo) (la : BitVec 4) (esc : Bool) (t : IntTy) (s : State) : Out := .next (atomUnit h d base la esc .add t true s)
/-- ATOM.ord.and (R243, R244). -/
def execAtomOrdAnd (h : Hdr) (d base : RegNo) (la : BitVec 4) (esc : Bool) (t : IntTy) (s : State) : Out := .next (atomUnit h d base la esc .and t true s)
/-- ATOM.ord.or (R243, R244). -/
def execAtomOrdOr (h : Hdr) (d base : RegNo) (la : BitVec 4) (esc : Bool) (t : IntTy) (s : State) : Out := .next (atomUnit h d base la esc .or t true s)
/-- ATOM.ord.xor (R243, R244). -/
def execAtomOrdXor (h : Hdr) (d base : RegNo) (la : BitVec 4) (esc : Bool) (t : IntTy) (s : State) : Out := .next (atomUnit h d base la esc .xor t true s)
/-- ATOM.ord.min (R243, R244). -/
def execAtomOrdMin (h : Hdr) (d base : RegNo) (la : BitVec 4) (esc : Bool) (t : IntTy) (s : State) : Out := .next (atomUnit h d base la esc .min t true s)
/-- ATOM.ord.max (R243, R244). -/
def execAtomOrdMax (h : Hdr) (d base : RegNo) (la : BitVec 4) (esc : Bool) (t : IntTy) (s : State) : Out := .next (atomUnit h d base la esc .max t true s)
/-- ATOM.ord.exch (R243, R244). -/
def execAtomOrdExch (h : Hdr) (d base : RegNo) (la : BitVec 4) (esc : Bool) (t : IntTy) (s : State) : Out := .next (atomUnit h d base la esc .exch t true s)
/-- ATOM.ord.cas (R243, R244). -/
def execAtomOrdCas (h : Hdr) (d base : RegNo) (la : BitVec 4) (esc : Bool) (t : IntTy) (s : State) : Out := .next (atomUnit h d base la esc .cas t true s)
/-- ATOM.ord.fadd (R243, R244). -/
def execAtomOrdFadd (h : Hdr) (d base : RegNo) (la : BitVec 4) (esc : Bool) (s : State) : Out := .next (atomUnit h d base la esc .fadd .b32 true s)

/-- RED.add (R245). -/
def execRedAdd (h : Hdr) (sr base : RegNo) (t : IntTy) (s : State) : Out := .next (redUnit h sr base .add t s)
/-- RED.and (R245). -/
def execRedAnd (h : Hdr) (sr base : RegNo) (t : IntTy) (s : State) : Out := .next (redUnit h sr base .and t s)
/-- RED.or (R245). -/
def execRedOr (h : Hdr) (sr base : RegNo) (t : IntTy) (s : State) : Out := .next (redUnit h sr base .or t s)
/-- RED.xor (R245). -/
def execRedXor (h : Hdr) (sr base : RegNo) (t : IntTy) (s : State) : Out := .next (redUnit h sr base .xor t s)
/-- RED.min (R245). -/
def execRedMin (h : Hdr) (sr base : RegNo) (t : IntTy) (s : State) : Out := .next (redUnit h sr base .min t s)
/-- RED.max (R245). -/
def execRedMax (h : Hdr) (sr base : RegNo) (t : IntTy) (s : State) : Out := .next (redUnit h sr base .max t s)
/-- RED.fadd (R245). -/
def execRedFadd (h : Hdr) (sr base : RegNo) (s : State) : Out := .next (redUnit h sr base .fadd .b32 s)

/-- RWL (R247): one attempt, acquire for .rd and .wr, release for .rel. -/
def execRwl (h : Hdr) (d base : RegNo) (la : BitVec 4) (esc : Bool) (op : RwlOp) (s : State) : Out :=
  .next (eachMember h (fun c f s =>
    let va := c.ea f base
    let rel := decide (op = .rel)
    s.requestOne c f [] (s.atomAccess f.key va 4) va 4 (.rwl op ((f.reg d).getLsbD 0)) (!rel) rel d 1 la.toNat esc) s)

/-- LDV (R248). -/
def execLdv (h : Hdr) (d base : RegNo) (la : BitVec 4) (esc : Bool) (w : Bool) (s : State) : Out :=
  .next (accessUnit h (fun c f also s =>
    let va := c.ea f base
    s.requestOne c f also (s.access f.key va 4 false) va 4 (.ldv w) true false d (if w then 4 else 2) la.toNat esc) s)

/-- CASV (R250): an aligned global word, read and written. -/
def State.casvAccess (s : State) (k : FKey) (va n : Nat) : Acc := s.access k va n true

/-- CASV (R250). -/
def execCasv (h : Hdr) (d base : RegNo) (la : BitVec 4) (esc : Bool) (sz : Sz2) (s : State) : Out :=
  .next (eachMember h (fun c f s =>
    let va := c.ea f base
    let n := sz2Bytes sz
    let new := if n = 4 then (f.regI d 2).zeroExtend 64 else f.regI d 3 ++ f.regI d 2
    s.requestOne c f [] (s.casvAccess f.key va n) va n
      (.casv (decide (n = 8)) ((f.regI d 1).extractLsb' 0 16 ++ f.reg d) new) true true d 4 la.toNat esc) s)

/-! ### VALSET (R251, R252) -/

/-- The list that a VALSET names, once read: pairs (address, version), and SADDR. -/
inductive ValList where
  | ok (pairs : List (Nat × Nat)) (saddr : Nat)
  | fatal (cause : Nat)
  deriving DecidableEq, Repr

/-- Reads and checks the list at scratchpad address `a` (R252): a read of the fibre's own (R220). -/
def State.valList (s : State) (f : Fibre) (a : Nat) (st : Bool) : ValList :=
  match s.spadAccess f.key a 16 16 false with
  | .ok (.home loc) _ =>
    let rd (off n : Nat) : Nat := leNat (s.ownBytes f (loc + off) n)
    let n := rd 0 1
    if n = 0 ∨ 8 < n then .fatal 0x20
    else match s.spadAccess f.key a (16 + 16 * n) 16 false with
    | .ok _ _ =>
      let pairs := (List.range n).map fun i => (rd (16 * i + 16) 8, rd (16 * i + 24) 8)
      let sa := rd 8 8
      if rd 1 7 ≠ 0 ∨ (pairs.any fun p => decide (2 ^ 48 ≤ p.2)) ∨ (st = false ∧ sa ≠ 0) ∨ (st = true ∧ sa % 4 ≠ 0) then .fatal 0x20
      else .ok pairs sa
    | .fatal c => .fatal c
    | .trans _ => .fatal 0x14
  | .ok (.peer ..) _ => .fatal 0x14
  | .fatal c => .fatal c
  | .trans _ => .fatal 0x14

/-- Translates one address of the list; `none` in the destination: not mode-00 device memory in device bias with SA = 0. -/
def State.valLine (s : State) (k : FKey) (va : Nat) (write : Bool) : Acc × Option Nat :=
  match s.access k va 1 write with
  | .ok (.home loc) (some l) => (.ok (.home loc) (some l), if l.mode = 0 && isDram loc && !s.hostBias loc && !l.hb && !l.sa then some loc else none)
  | a => (a, none)

/-- The addresses in turn: the first one that faults, or the locations. -/
def State.valLines (s : State) (k : FKey) : List (Nat × Bool) → (Option (Nat × Acc)) × List (Option Nat)
  | [] => (none, [])
  | (va, w) :: t =>
    match s.valLine k va w with
    | (.ok _ _, loc) =>
      let (e, ls) := s.valLines k t
      (e, loc :: ls)
    | (a, _) => (some (va, a), [])

/-- VALSET of one member. -/
def State.valsetOne (s : State) (c : UnitCtx) (f : Fibre) (d : PredNo) (a b : RegNo) (st : Bool) : State :=
  match s.valList f (f.pair a).toNat st with
  | .fatal cause => s.fatal f.key cause c.uaddr
  | .ok pairs sa =>
    let q := pairs.map (fun p => (p.1, false)) ++ (if st then [(sa, true)] else [])
    match s.valLines f.key q with
    | (some (va, acc), _) => s.accessFault c f.key [] va acc
    | (none, locs) =>
      match locs.mapM id with
      | none => s.fatal f.key 0x20 c.uaddr
      | some ls =>
        let lines := (ls.take pairs.length).map fun l => l / 256
        let die := homeDie (ls.headD 0)
        if !ls.all (fun l => homeDie l == die) || (st && !lines.contains (ls.getLastD 0 / 256)) then s.fatal f.key 0x20 c.uaddr
        else
          let s := q.foldl (fun (s : State) p => s.walkVa f.key p.1) s
          let r := { mkReq s c f (f.pair a).toNat 1 (.home (ls.headD 0))
            (.valset (lines.zip (pairs.map Prod.snd)) (if st then some (ls.getLastD 0, f.reg b) else none) d) false false 0#5 0 0 false 0#32 with vas := q.map Prod.fst }
          (s.bump.awaits f.key r).issueReq r

/-- VALSET (R251, R252). -/
def execValset (h : Hdr) (d : PredNo) (a b : RegNo) (st : Bool) (s : State) : Out :=
  .next (eachMember h (fun c f s => s.valsetOne c f d a b st) s)

end Sys2Proof.Machine
end

