-- ==== Sys2Proof/Machine/Sync.lean ====
section
/-! DEFINITION. Waiting on memory and on other fibres: WAITC, FENCE, BAR and TWAIT (R202, R229, R230, R253 to R259, R300), and the completions that need no event of their own. -/

namespace Sys2Proof.Machine

/-- A unit that waits for a word, with every register of the window as its escort (R160): it departs unless it is answered first. -/
def State.waitOne (s : State) (c : UnitCtx) (o : Fibre) (acc : Acc) (va n : Nat) (kind : ReqKind) (dst : RegNo) (dw : Nat) : State :=
  match acc with
  | .ok d l =>
    let s := s.touched o.key l va
    let r := mkReq s c o va n d kind true false dst dw 0 true (windowMask (s.winOf o.key))
    (s.bump.awaits o.key r).issueReq (s.paged l r)
  | a => s.accessFault c o.key [] va a

/-- WAITC of signed and of equality conditions (R253). -/
def waitcUnit (h : Hdr) (d a b : RegNo) (signed : Bool) (cc : CC) (s : State) : State :=
  eachMember h (fun c f s =>
    let va := (f.pair a).toNat
    s.waitOne c f (s.access f.key va 4 false) va 4 (.waitc signed cc (f.reg b)) d 1) s

/-- WAITC.eq, .ne, .lt.i32, .ge.i32 (R253). -/
def execWaitcSigned (h : Hdr) (d a b : RegNo) (cc : CC) (s : State) : Out := .next (waitcUnit h d a b true cc s)

/-- WAITC.lt.b32, .ge.b32 (R253). -/
def execWaitcUnsigned (h : Hdr) (d a b : RegNo) (ge : Bool) (s : State) : Out :=
  .next (waitcUnit h d a b false (if ge then .ge else .lt) s)

/-- TWAIT (R202). A threshold of 0 or less never waits; d = 0 writes no register. -/
def execTwait (h : Hdr) (d a : RegNo) (imm : BitVec 7) (s : State) : Out :=
  .next (eachMember h (fun c f s =>
    let va := (f.pair a).toNat
    s.waitOne c f (s.complAccess f.key va) va 8 (.twait (c.imm7 imm).toInt) d (if d = 0#5 then 0 else 1)) s)

/-! ### FENCE (R229, R257) -/

/-- The step of R229 is allowed, and the entries of the transaction table that stood when the FENCE issued have drained (R171, R257). -/
def State.fenceOk (s : State) (f : Fibre) (seq : Nat) : Bool :=
  !(s.reqs.any fun r => r.serves f.key && decide (r.seq < seq))
  && !(f.wb.any fun w => decide (w.seq < seq))
  && !(s.aq.any fun w => decide (w.src = .fibre f.key))
  && s.sentBefore f.key.die (s.ctxOf f.key) seq

/-- A FENCE completes: the view catches up with every location, RF tells of new queue entries, and the share's L1 writes back and invalidates (R135, R229, R257). -/
def State.fenceDone (s : State) (k : FKey) (seq : Nat) : State :=
  let s := s.release k seq
  if (s.fibre? k).any fun g => s.fenceOk g seq then
    let s := s.shareAcquire k.share
    let fails := (s.ctx (s.ctxOf k)).fails
    let risen := decide ((s.share k.share).rfSeen < fails)
    (s.updShare k.share fun h => { h with rfSeen := fails }).updFibre k fun g =>
      let g := if risen then g.setFs fsRF true else g
      { g.unwait Wait.isFence with view := { g.view with upTo := max g.view.upTo s.hist.length } }
  else s

/-- FENCE (R257). -/
def execFence (h : Hdr) (s : State) : Out :=
  .next (memberUnit h (fun c f s => s.updFibre f.key fun g => g.await c.seq c.uaddr (.fence c.seq)) s)

/-! ### BAR (R258, R259, R299, R300) -/

/-- The barrier group of a fibre at a level: its live participants. -/
def State.barGroup (s : State) (k : FKey) (lv : BarLevel) : List Fibre :=
  let h := s.share k.share
  s.fibres.filter fun f =>
    decide (f.res ≠ .ended) && (f.bar?.isSome || !f.waitsFor fun w => w.isQuit || decide (w = .unborn))
    && (match lv with
      | .hh => decide (f.key.share = k.share)
      | .par => decide ((s.share f.key.share).ctx = h.ctx ∧ (s.share f.key.share).pid = h.pid)
      | .lch => decide ((s.share f.key.share).ctx = h.ctx))

/-- The fibre has arrived at a BAR of the level: its release step is taken (R226, R235, R259). (DEDUCED, log 31) -/
def State.arrived (s : State) (f : Fibre) (lv : BarLevel) : Bool :=
  match f.bar? with
  | some (l, _, seq, _) => decide (l = lv) && s.drained f seq
  | none => false

def lvlNo : BarLevel → Nat
  | .hh => 0
  | .par => 1
  | .lch => 2

/-- The households of a barrier, by group: each on its own at level 00 (R299). -/
def State.barHouseholds (s : State) (k : FKey) (lv : BarLevel) (gs : List Fibre) : List (Nat × List Nat) :=
  let h := s.share k.share
  match lv with
  | .hh => [(h.hid, [k.share])]
  | .par => [(0, (s.shares.filter fun e => decide (e.2.ctx = h.ctx ∧ e.2.pid = h.pid)).map Prod.fst)]
  | .lch => if gs.isEmpty then [] else [(0, (s.shares.filter fun e => decide (e.2.ctx = h.ctx)).map Prod.fst)]

/-- The unit after the BAR at which a fibre waits (R300). -/
def Fibre.barNext (f : Fibre) : DWord :=
  match f.bar? with
  | some (_, _, _, rip) => rip
  | none => f.ip
/-- The number of the BAR's unit. -/
def Fibre.barSeq (f : Fibre) : Nat := (f.bar?.map fun b => b.2.2.1).getD 0

/-- R300: the faults or the halt of a breach. `gs` are the fibres as they stood at the barrier. -/
def State.barBreach (s : State) (c : Nat) (gs : List Fibre) (bs : List (Nat × List Nat)) : State :=
  if bs.isEmpty then s
  else if s.monHalts bs then
    (gs.map fun f => f.key.quarter).eraseDups.foldl (fun s q =>
      match gs.find? fun f => f.key.quarter = q with
      | some f => s.halt c ⟨14, 0x24, prevWord f.barNext, some f.key, 1⟩
      | none => s) s
  else gs.foldl (fun s f =>
    let mask := (List.range 8).foldl (fun m i => if bs.any fun b => decide (b.1 = i) && b.2.contains f.key.share then m + 2 ^ i else m) 0
    if mask = 0 then s else s.deliverResident f.key 3 0x24 0 f.barNext 0 mask (prevWord f.barNext) f.barSeq) s

/-- Completes the barrier that fibre `k` waits at, if every participant has arrived: an acquire of each (R135, R225). -/
def State.barDone (s : State) (k : FKey) : State :=
  match s.fibre? k with
  | none => s
  | some f =>
    match f.bar? with
    | some (lv, _, _, _) =>
      let gs := s.barGroup k lv
      let c := s.ctxOf k
      if gs.all (fun g => s.arrived g lv) && (match lv with
          | .lch => (s.ctx c).unplaced.isEmpty
          | .hh => true
          | .par => true) then
        let v := gs.foldl (fun v g => v.join g.view) View.init
        let mchk := gs.any fun g => (g.bar?.map fun b => b.2.1).getD false
        let s := (gs.map fun g => g.key.share).eraseDups.foldl (fun (s : State) sh => s.shareAcquire sh) s
        let (s, bs) := if mchk then s.monCheck c (lvlNo lv) (s.barHouseholds k lv gs) else (s, [])
        let s : State := { s with fibres := s.fibres.map fun g => if (gs.any fun x => decide (x.key = g.key)) then { g.unwait Wait.isBar with view := g.view.join v } else g }
        s.barBreach c gs bs
      else s
    | none => s

/-- BAR (R258, R259). -/
def execBar (h : Hdr) (lv : BarLevel) (mchk : Bool) (s : State) : Out :=
  .next (memberUnit h (fun c f s =>
    let s := s.updFibre f.key fun g => g.await c.seq c.uaddr (.bar lv mchk c.seq c.nxt)
    s.release f.key c.seq) s)

/-! ### Completions that have no event of their own -/

/-- The fibre's flock is in the middle of a chain, and issues the rest of it in this cycle. Where its quarter has stopped, what the chain has issued runs on (R339). -/
def State.midChain (s : State) (k : FKey) : Bool :=
  s.flocks.any fun g => g.members.contains k && !g.snap.isEmpty && !(s.quarter g.q).stopped

/-- Ends one wait of a fibre where its rule allows it now: FENCE, BAR, QUIT, FORK, RESUME, and the departure of a JOIN. -/
def State.settleWait (s : State) (k : FKey) (w : Waiting) : State :=
  match w.wait with
  | .fence seq => s.fenceDone k seq
  | .bar _ _ seq _ => (s.release k seq).barDone k
  | .quit .. => s.quitStep k
  | .join _ => s.departJoin k
  | .fork child seq => s.forkDone k child seq
  | .resume v => s.resumeDone k w v
  | .none | .sleep _ | .pset .. | .unborn | .engine _ | .request _ | .tile _ | .xinv | .halted => s

/-- A fibre's waits that can end do, in program order, and then the first fault that waits for them is taken (R69). -/
def State.settleOne (s : State) (k : FKey) : State :=
  if s.midChain k then s else
  match s.fibre? k with
  | none => s
  | some f => (f.waits.foldl (fun (s : State) w => if (s.fibre? k).any fun g => g.waits.contains w then s.settleWait k w else s) s).deliverNext k

/-- The PSETs of a fibre that can read their %fs do. -/
def State.psetDone (s : State) (f : Fibre) : Fibre :=
  (f.waits.filter fun w => w.wait.isPset).foldl (fun (g : Fibre) w => match w.wait with
    | .pset p bit src => if s.fsKnown src w.seq then (g.unwait fun x => decide (x = w.wait)).setPred p (((s.fibre? src).map fun x => x.fsBit bit).getD false) else g
    | _ => g) f

/-- Every wait that can end now ends. -/
def State.settle (s : State) : State :=
  let s := (s.fibres.map fun f => f.key).foldl (fun (s : State) k => s.settleOne k) s
  if s.fibres.any fun f => f.waitsFor Wait.isPset then { s with fibres := s.fibres.map fun f => if s.midChain f.key then f else s.psetDone f } else s

/-- Ended fibres whose writes have left are forgotten (R91). -/
def State.forgetEnded (s : State) : State := { s with fibres := s.fibres.filter fun f => !(decide (f.res = .ended) && f.wb.isEmpty) }

end Sys2Proof.Machine
end

