-- ==== Sys2Proof/Machine/Tensor.lean ====
section
/-! DEFINITION. Tensor descriptors (R15 to R20), tiles and their holders (R196, R198), and the moves that the copy engine and the tile units make. -/

namespace Sys2Proof.Machine

/-! ### Descriptors -/

def dBase (d : BitVec 512) : Nat := imgField d 0x00 8
def dSbase (d : BitVec 512) : Nat := imgField d 0x08 8
/-- Extent of dimension `i`. -/
def dN (d : BitVec 512) (i : Nat) : Nat := imgField d (0x10 + 4 * i) 4
/-- Stride of dimension `i`, 1 to 3, signed. -/
def dSt (d : BitVec 512) (i : Nat) : Int := signedOf 64 (imgField d (0x18 + 8 * i) 8)
def dCtl (d : BitVec 512) : Nat := imgField d 0x38 8
def dFmt (d : BitVec 512) : Nat := bits (dCtl d) 7 0
def dNdm1 (d : BitVec 512) : Nat := bits (dCtl d) 9 8
def dLoc (d : BitVec 512) : Bool := bits (dCtl d) 10 10 == 1
def dSloc (d : BitVec 512) : Bool := bits (dCtl d) 11 11 == 1
def dV (d : BitVec 512) : Bool := bits (dCtl d) 15 15 == 1
def dEb (d : BitVec 512) : Int := signedOf 16 (bits (dCtl d) 31 16)
def dSst1 (d : BitVec 512) : Nat := bits (dCtl d) 63 32
/-- The image with V as given. -/
def dSetV (d : BitVec 512) (v : Bool) : BitVec 512 :=
  if v then d ||| (1#512 <<< 463) else d &&& ~~~(1#512 <<< 463)

/-- R18: bits of an element and the multiple that BASE and the strides keep; none: reserved. ACC96 has no element in memory. -/
def fmtInfo (f : Nat) : Option (Nat × Nat) :=
  if f = 0x01 then some (8, 16) else if f = 0x02 then some (4, 16) else if f = 0x10 then some (32, 4) else if f = 0x11 then some (16, 2)
  else if f = 0x12 then some (16, 2) else if f = 0x13 then some (8, 1) else if f = 0x14 then some (8, 1) else if f = 0x20 then some (8, 1)
  else if f = 0x21 then some (32, 4) else none
def dMx (d : BitVec 512) : Bool := decide (dFmt d = 1 ∨ dFmt d = 2)
/-- Bytes of a row along dimension 0. -/
def dRowBytes (d : BitVec 512) : Nat := (dN d 0 * ((fmtInfo (dFmt d)).getD (8, 1)).1 + 7) / 8

/-- Offsets of the lowest and the highest byte of a tensor from BASE. -/
def dSpan (d : BitVec 512) : Int × Int :=
  [1, 2, 3].foldl (fun b i =>
    let s := ((dN d i : Int) - 1) * dSt d i
    (b.1 + min s 0, b.2 + max s 0)) (0, (dRowBytes d : Int) - 1)

/-- A scratchpad base names bits [22:0] and a household of the parish (R20). -/
def spadBaseOk (v hh : Nat) : Bool := decide (v < 2 ^ 23) && decide (bits v 22 20 < hh)

/-- R20, with the further rules of R18: the descriptor is accepted for a launch of `hh` households a parish and `spad` bytes of scratchpad. (DEDUCED, log 25) -/
def descOk (d : BitVec 512) (hh spad : Nat) : Bool :=
  decide (bits (dCtl d) 14 12 = 0)
  && (if dFmt d = 0x30 then decide (dN d 0 = 128 ∧ dN d 1 = 128 ∧ dNdm1 d = 1 ∧ dN d 2 = 1 ∧ dN d 3 = 1)
    else match fmtInfo (dFmt d) with
    | none => false
    | some (_, m) =>
      let used := dNdm1 d + 1
      let (lo, hi) := dSpan d
      ((List.range 4).all fun i => if i < used then decide (dN d i ≠ 0) else decide (dN d i = 1) && decide (dSt d i = 0))
      && decide (dBase d % m = 0) && ([1, 2, 3].all fun i => decide (dSt d i % (m : Int) = 0))
      && (dMx d || decide (dSbase d = 0))
      && (!dMx d || decide (dN d 0 % 32 = 0))
      && (!dLoc d || (spadBaseOk (dBase d) hh && decide (0 ≤ (dBase d % 2 ^ 20 : Int) + lo) && decide ((dBase d % 2 ^ 20 : Int) + hi < spad)))
      && (!(dMx d && dSloc d) || (spadBaseOk (dSbase d) hh
            && (!dLoc d || decide (dSbase d % 2 ^ 20 + (dN d 0 / 32 - 1) + dSst1 d * (dN d 1 * dN d 2 * dN d 3 - 1) < spad)))))

/-- Entry `x` of the launch's table: zeros where it was never written (R200). -/
def State.descOf (s : State) (c : Nat) (x : Nat) : BitVec 512 := (s.ctx c).desc.getD x 0#512
def State.setDesc (s : State) (c x : Nat) (d : BitVec 512) : State := s.updCtx c fun y => { y with desc := y.desc.set x d }

/-- Offsets of the rows along dimension 0, dimension 1 fastest (R19). -/
def dRows (d : BitVec 512) : List Int :=
  (List.range (dN d 3)).flatMap fun (i3 : Nat) => (List.range (dN d 2)).flatMap fun (i2 : Nat) => (List.range (dN d 1)).map fun (i1 : Nat) =>
    (i1 : Int) * dSt d 1 + (i2 : Int) * dSt d 2 + (i3 : Int) * dSt d 3

/-- An address `base + off` mod 2^64. -/
def addOff (base : Nat) (off : Int) : Nat := (((base : Int) + off) % 2 ^ 64).toNat

/-! ### Tiles -/

def tileKey (c t : Nat) : Nat := c * 2 + t
def blankTile : Tile := ⟨none, 0, none, 0, false, []⟩
def State.tile (s : State) (c t : Nat) : Tile := s.tiles.getD (tileKey c t) blankTile
def State.updTile (s : State) (c t : Nat) (g : Tile → Tile) : State := { s with tiles := s.tiles.upd (tileKey c t) blankTile g }

/-- Element `i` = 128 * row + column: unknown before MZERO (DESIGN CHOICE, log 8), zero past the end of the list that MZERO starts. -/
def Tile.elem (t : Tile) (i : Nat) : MonSum :=
  match t.elems with
  | some l => l.getD i MonSum.zero
  | none => elemOf (Config.unknownTile t.serial i).toNat
def Tile.ebOf (t : Tile) : Int := if t.elems.isSome then t.eb else signedOf 16 (Config.unknownTileHead t.serial).toNat
def Tile.inxOf (t : Tile) : Bool := if t.elems.isSome then t.inx else (Config.unknownTileHead t.serial).getLsbD 16
/-- Scale memory (R196): side 0 is A, 1 is B; a byte never loaded is unknown (DESIGN CHOICE, log 8). -/
def scaleKey (side row col : Nat) : Nat := side * 8192 + row * 64 + col
def Tile.scale (t : Tile) (side row col : Nat) : Nat :=
  (t.scales.getD (scaleKey side row col) (Config.unknownScale t.serial (scaleKey side row col))).toNat

/-- The operation that a tile's engine takes next: the one accepted first (R198). The engines stop for a context that halts (R311), and a TMM when a save begins (R215). -/
def State.tileHead? (s : State) (c t : Nat) : Option EngineOp :=
  (s.eops.filter fun e => e.accepted.isSome && !e.ended && decide (e.key.c = c ∧ e.tile = t ∧ (s.ctx e.ctx).st ≠ 6)
      && (decide (e.kind ≠ .tmm) || decide ((s.ctx e.ctx).st = 1))).foldl
    (fun b e => match b with
      | none => some e
      | some x => if e.accepted.getD 0 < x.accepted.getD 0 then some e else b) none

def State.accept (s : State) (id : Nat) : State := (s.updEop id fun e => { e with accepted := some s.serial }).bump

/-- The tile's next operation, once its thread has forked (R232). -/
def State.tileNext? (s : State) (c t : Nat) : Option EngineOp := (s.tileHead? c t).filter fun e => e.forked

/-- A tile's acceptance queue has room: it holds 16 operations (R198). -/
def State.queueRoom (s : State) (c t : Nat) : Bool :=
  decide ((s.eops.filter fun e => e.accepted.isSome && !e.ended && decide (e.key.c = c ∧ e.tile = t)).length < 16)

/-- The household holds the tile (R196). -/
def State.holdsTile (s : State) (k : FKey) (t : Nat) : Bool := decide ((s.tile k.c t).holder = some k.k)

/-- The entry is an MX operand (R204, R207). -/
def mxEntry (d : BitVec 512) : Bool := dV d && dMx d && decide (dNdm1 d = 1)

/-- A tile taken by the household of `op` (R196): the checks of MZERO and MSCL, then acceptance. -/
def State.tileTaken (s : State) (op : EngineOp) : State :=
  let d := op.descs.headD 0#512
  match op.kind with
  | .mscl =>
    if mxEntry d && decide (dN d 1 ≤ 128) && decide (op.arg % 64 + dN d 0 / 32 ≤ 64) && decide (op.arg < 128) then
      (s.updFibre op.key fun f => (f.unwait fun w => decide (w = .tile op.id)).await op.seq op.unitAddr (.engine op.id)).accept op.id
    else (s.dropEop op.id).fatal op.key 0x1A op.unitAddr
  | _ =>
    if dV d && decide (dFmt d = 0x30) then (s.updFibre op.key fun f => f.unwait fun w => decide (w = .tile op.id)).accept op.id
    else (s.dropEop op.id).fatal op.key 0x1A op.unitAddr

/-- The household takes a tile that has no holder; one that it holds stays as it is. -/
def State.takeTile (s : State) (k : FKey) (t : Nat) : State :=
  if (s.tile k.c t).holder.isSome then s
  else { s.bump with tiles := s.tiles.upd (tileKey k.c t) blankTile fun x => { x with holder := some k.k, serial := s.serial, elems := none } }

/-- Units that wait for the tile take it in the order in which they began to wait (R196). -/
def State.grantTile (s : State) (c t : Nat) : State :=
  (s.eops.filter fun e => e.accepted.isNone && decide (e.key.c = c ∧ e.tile = t ∧ (e.kind = .mzero ∨ e.kind = .mscl))).foldl
    (fun s e =>
      if (decide ((s.ctx e.ctx).st = 1) || decide ((s.ctx e.ctx).st = 2)) && (decide ((s.tile c t).holder = none) || s.holdsTile e.key t) && s.queueRoom c t then
        (s.takeTile e.key t).tileTaken e
      else s) s

/-- The tile loses its holder, and waiters are served. (DEDUCED, log 32) -/
def State.freeTile (s : State) (c t : Nat) : State := (s.updTile c t fun x => { x with holder := none }).grantTile c t

/-! ### Moves -/

/-- The running state of a move: the machine, the thread's view, the first fault (address, reason, code, class, peer), what stopped it, the answers left. -/
structure Move where
  st : State
  view : View
  flt : Option (Nat × Nat × Nat × Nat × Nat)
  stop : Option Piece
  ans : List LineAnswer
  deriving DecidableEq, Repr

/-- A move that an operation begins. -/
def Move.start (s : State) (v : View) (ans : List LineAnswer) : Move := ⟨s, v, none, none, ans⟩

def Move.note (m : Move) (va reason code cls peer : Nat) : Move := { m with flt := m.flt.orElse fun _ => some (va, reason, code, cls, peer) }

/-- Reads `n` bytes at offset `off` of a row, in one line: the bytes, and the offsets of the row whose elements, of `esz` bytes, failed (R211, R273). -/
def Move.read (m : Move) (op : EngineOp) (spad : Bool) (va esz off n : Nat) : Move × List Byte × List Nat :=
  if m.stop.isSome then (m, [], []) else
  let m := { m with st := m.st.threadWalk op.key spad (va + off) n true }
  let peer := m.st.peerAt op.key spad (va + off)
  match m.st.threadRead op.key m.view spad (va + off) n m.ans with
  | (.fault cls r code p, v, t) => (({ m with view := v, ans := t }).note (va + off) r code cls p, List.replicate n 0#8, (List.range n).map fun i => off + i)
  | (.fatal c, _, t) => ({ m with stop := some (.fatal c), ans := t }, [], [])
  | (.blocked a, _, t) => ({ m with stop := some (.blocked a), ans := t }, [], [])
  | (.ok bs fails, v, t) =>
    let m := { m with st := m.st.threadTook op.key spad (va + off) n, view := v, ans := t }
    ((match fails with
      | [] => m
      | x :: _ => m.note (va + off + x.1) 4 x.2 1 peer), bs, fails.flatMap fun x => (List.range esz).map fun i => off + x.1 + i)

/-- Writes bytes at offset `off` of a row, in one line, but for the offsets skipped. -/
def Move.write (m : Move) (op : EngineOp) (spad : Bool) (va off : Nat) (bs : List Byte) (skipped : List Nat) (fill : Bool) : Move :=
  if m.stop.isSome then m else
  match m.st.threadWrite op m.view spad (va + off) bs (fun i => skipped.contains (off + i)) fill m.ans with
  | (s1, v1, .fault cls r code p, t) => ({ m with st := s1, view := v1, ans := t }).note (va + off) r code cls p
  | (s1, _, .fatal c, t) => { m with st := s1, stop := some (.fatal c), ans := t }
  | (_, _, .blocked a, t) => { m with stop := some (.blocked a), ans := t }
  | (s1, v1, .ok _ fails, t) =>
    let m := { m with st := s1, view := v1, ans := t }
    (match fails with
      | [] => m
      | x :: _ => m.note (va + off + x.1) 4 x.2 1 (m.st.peerAt op.key spad (va + off)))

/-- One row of `n` bytes. Elements that fail are skipped (R211). In a scratchpad destination, each granule of which every byte landed sets its bit (R153, R156). (DEDUCED, log 28) -/
def Move.row (m : Move) (op : EngineOp) (srcSpad : Bool) (src : Nat) (dstSpad : Bool) (dst esz n : Nat) : Move :=
  if !dstSpad then
    (linePieces dst (n / 256 + 2) 0 n).foldl (fun (m : Move) p =>
      let (m, bs, sk) := m.read op srcSpad src esz p.1 p.2
      m.write op dstSpad dst p.1 bs sk false) m
  else
    let (m, bs, sk) := (linePieces src (n / 256 + 2) 0 n).foldl (fun (acc : Move × List Byte × List Nat) p =>
      let (m, b, sk) := acc.1.read op srcSpad src esz p.1 p.2
      (m, acc.2.1 ++ b, acc.2.2 ++ sk)) (m, [], [])
    (linePieces dst (n / 256 + 2) 0 n).foldl (fun (m : Move) p =>
      if !(sk.any fun o => decide (p.1 ≤ o ∧ o < p.1 + p.2)) then m.write op true dst p.1 ((bs.drop p.1).take p.2) [] true
      else (List.range (p.2 / 16)).foldl (fun (m : Move) g =>
        let o := p.1 + 16 * g
        m.write op true dst o ((bs.drop o).take 16) sk (!(sk.any fun i => decide (i / 16 = o / 16)))) m) m

/-! ### Bulk transfers (R234, R267, R274) -/

/-- A span of global addresses that an operation moves: whether it is written, its address and length, and the bytes of a write. -/
structure Span where
  write : Bool
  va : Nat
  n : Nat
  bytes : List Byte
  deriving DecidableEq, Repr

/-- Bytes of an element of a tensor (R18). -/
def elemBytes (d : BitVec 512) : Nat := max 1 (((fmtInfo (dFmt d)).getD (8, 1)).1 / 8)

/-- A bulk transfer enters the plane channel of its line. A cart of the context that holds an element of the line departs first, as before a direct request (R220, R234) (DEDUCED, log 83). -/
def State.sendBulk (s : State) (op : EngineOp) (d : Dest) (sp : Span) : State :=
  match d with
  | .home _ => s
  | .peer group p win gen _ =>
    let s := s.departCarts fun d x => decide (d = op.key.die ∧ x.ctx = op.ctx ∧ x.peer = p ∧ x.group = group)
      && x.elems.any fun e => decide (e.elem.va.toNat / 256 = sp.va / 256)
    let elem := if op.kind = .cpy then elemBytes (op.descs.headD 0#512) else 1
    s.enqueue op.key.die group p (bits sp.va 11 8) false fun _ => .bulk op.id sp.write win gen sp.va elem sp.n sp.bytes

/-- The parts of an operation's spans that go to peers, each in one line. -/
def State.bulkParts (s : State) (op : EngineOp) (sp : Span) : List (Dest × Span) :=
  (linePieces sp.va (sp.n / 256 + 2) 0 sp.n).filterMap fun q =>
    match s.threadAcc op.key false (sp.va + q.1) q.2 sp.write with
    | .ok (.peer g p win gen a) _ =>
      if (g && !sp.write) || s.ownPeer.isNone || (!g && s.lost p) then none
      else some (.peer g p win gen a, ⟨sp.write, sp.va + q.1, q.2, (sp.bytes.drop q.1).take q.2⟩)
    | .ok (.home _) _ | .fatal _ | .trans _ => none

/-- The bulk transfers of an operation's next move are sent, once. -/
def State.sendSpans (s : State) (op : EngineOp) (spans : List Span) : State :=
  if op.bulk.isSome then s else
  let ps := spans.flatMap fun sp => s.bulkParts op sp
  if ps.any fun x => s.planeStalled (bits x.2.va 11 8) then s else
  (ps.foldl (fun (s : State) x => s.sendBulk op x.1 x.2) s).updEop op.id fun e => { e with bulk := some (ps.any fun x => x.2.write) }

/-- A bulk transfer of the operation has not been delivered to its peer. -/
def State.bulkOut (s : State) (id : Nat) : Bool := s.chans.any fun c => c.items.any fun i => match i with
  | .bulk o .. => decide (o = id)
  | .packet .. | .request _ => false

/-- The operation's context halts for a fatal fault of its thread, which has stopped it midway (R203, R313). -/
def State.threadFatal (s : State) (op : EngineOp) (cause : Nat) : State :=
  (s.updEop op.id fun e => { e with began := true }).halt op.ctx ⟨haltClass cause, cause, op.unitAddr, some op.key, if op.kind = .cpy then 3 else 2⟩

end Sys2Proof.Machine
end

