-- ==== Sys2Proof/Machine/EngineUnits.lean ====
section
/-! DEFINITION. Engine units, opcodes 0xD0 to 0xD8 (R200 to R215), and what the engines do after a unit has issued. -/

namespace Sys2Proof.Machine

/-! ### Descriptor units (R200) -/

/-- The address check of TDSET and TDGET. -/
def State.imageAccess (s : State) (k : FKey) (spad : Bool) (va : Nat) (write : Bool) : Acc :=
  if va % 64 ≠ 0 then .fatal 0x1B
  else if spad then s.spadAccess k va 64 1 false else s.access k va 1 write

def tdsetFin : Finish := fun s op ans =>
  let s := s.threadWalk op.key op.spad op.va 64 true
  match s.threadReadAll op.key op.view op.spad op.va 64 ans with
  | (.error (o, p), v, _) => s.unitPiece op v (op.va + o) p
  | (.ok bs, v, _) =>
    let d := imgOf bs
    let l := (s.ctx op.ctx).lrec
    if descOk d (l.s * l.w) l.spad then some ((s.setDesc op.ctx op.arg (dSetV d true)).unitEnds op v)
    else some ((s.dropEop op.id).fatal op.key 0x1A op.unitAddr)

/-- TDSET (R200, R20). -/
def execTdset (h : Hdr) (x : TdNo) (g : RegNo) (spad : Bool) (s : State) : Out :=
  .next (memberUnit h (fun c f s =>
    let va := (f.pair g).toNat
    match s.imageAccess f.key spad va false with
    | .ok _ _ =>
      let s := if spad then s else s.walkVa f.key va
      s.waitUnit { newOp s c f .tdset with va := va, spad := spad, arg := x.toNat }
    | a => s.accessFault c f.key [] va a) s)

/-- TDGET (R200): the entry as held, V included. -/
def execTdget (h : Hdr) (x : TdNo) (g : RegNo) (spad : Bool) (s : State) : Out :=
  .next (memberUnit h (fun c f s =>
    let va := (f.pair g).toNat
    match s.imageAccess f.key spad va true with
    | .ok _ _ =>
      let s := if spad then s else s.walkVa f.key va
      s.waitUnit { newOp s c f .tdget with va := va, spad := spad, arg := x.toNat, descs := [s.descOf (s.ctxOf f.key) x.toNat] }
    | a => s.accessFault c f.key [] va a) s)

def tdinvFin : Finish := fun s op _ => some ((s.setDesc op.ctx op.arg (dSetV (s.descOf op.ctx op.arg) false)).unitEnds op op.view)

/-- TDINV (R200). -/
def execTdinv (h : Hdr) (x : TdNo) (s : State) : Out :=
  .next (memberUnit h (fun c f s => s.waitUnit { newOp s c f .tdinv with arg := x.toNat }) s)

/-! ### Scales and zeroing (R204, R205) -/

/-- The address of a row's scales from block `b0` on. -/
def scaleVa (d : BitVec 512) (row b0 : Nat) : Nat := dSbase d + b0 + dSst1 d * row

/-- What a load of scales has come to: the machine, the thread's view, the first failure with its address, the answers left. -/
abbrev Scales := State × View × Option (Nat × Piece) × List LineAnswer

/-- One row of scales enters scale memory; the columns before a failure keep their new values. -/
def Scales.row (acc : Scales) (k : FKey) (t : Nat) (d : BitVec 512) (side row col b0 n : Nat) : Scales :=
  let va := scaleVa d row b0
  let put (s : State) (off : Nat) (bs : List Byte) : State :=
    s.updTile k.c t fun x => { x with scales := bs.zipIdx.foldl (fun m p => m.set (scaleKey side row (col + off + p.2)) p.1) x.scales }
  (linePieces va (n / 256 + 2) 0 n).foldl (fun (acc : Scales) p =>
    match acc.2.2.1 with
    | some _ => acc
    | none =>
      let s := acc.1.threadWalk k (dSloc d) (va + p.1) p.2 true
      match s.threadRead k acc.2.1 (dSloc d) (va + p.1) p.2 acc.2.2.2 with
      | (.ok bs [], v, t) => ((put s p.1 bs).threadTook k (dSloc d) (va + p.1) p.2, v, none, t)
      | (.ok bs (f :: _), v, t) => (put s p.1 (bs.take f.1), v, some (va + p.1 + f.1, .fault 1 4 f.2 (s.peerAt k (dSloc d) (va + p.1))), t)
      | (r, v, t) => (s, v, some (va + p.1, r), t)) acc

/-- The scales of rows 0 to N1 - 1, `n` blocks from block `b0` on, into columns from `col` on. -/
def Scales.rows (acc : Scales) (k : FKey) (t : Nat) (d : BitVec 512) (side col b0 n : Nat) : Scales :=
  (List.range (dN d 1)).foldl (fun (acc : Scales) i => acc.row k t d side i col b0 n) acc

/-- MSCL runs when its tile takes it (R198, R204). -/
def msclFin : Finish := fun s op ans =>
  match s.tileNext? op.key.c op.tile with
  | none => none
  | some e =>
    if e.id ≠ op.id then none else
    let d := op.descs.headD 0#512
    match Scales.rows (s, op.view, none, ans) op.key op.tile d (op.arg / 64 % 2) (op.arg % 64) 0 (dN d 0 / 32) with
    | (s1, v, none, _) => some (s1.unitEnds op v)
    | (s1, v, some (va, p), _) => s1.unitPiece op v va p

/-- A unit that needs the tile: it takes it, or waits for it (R196). -/
def State.needTile (s : State) (op : EngineOp) : State :=
  let s1 : State := { s.bump with eops := s.eops ++ [op] }
  if decide ((s.tile op.key.c op.tile).holder = none) || s.holdsTile op.key op.tile then (s1.takeTile op.key op.tile).tileTaken op
  else s1.updFibre op.key fun f => f.await op.seq op.unitAddr (.tile op.id)

/-- MSCL (R204). -/
def execMscl (h : Hdr) (x : TdNo) (g : RegNo) (tile : Bool) (s : State) : Out :=
  .next (memberUnit h (fun c f s =>
    let op := { newOp s c f .mscl with tile := if tile then 1 else 0, arg := (f.reg g).toNat, descs := [s.descOf (s.ctxOf f.key) x.toNat], descNos := [x.toNat] }
    s.needTile op) s)

/-- MZERO_APPLY (R205): the tile's next operation is an MZERO. -/
def State.mzeroApply (s : State) (c t : Nat) : State :=
  match s.tileNext? c t with
  | some e =>
    if e.kind = .mzero then
      (s.updTile c t fun x => { x with elems := some [], eb := dEb (e.descs.headD 0#512), inx := false }).endThread e
    else s
  | none => s

/-- MZERO (R205). -/
def execMzero (h : Hdr) (x : TdNo) (tile : Bool) (s : State) : Out :=
  .next (memberUnit h (fun c f s =>
    let op := { newOp s c f .mzero with tile := if tile then 1 else 0, descs := [s.descOf (s.ctxOf f.key) x.toNat], descNos := [x.toNat] }
    s.needTile op) s)

/-! ### MMA (R206 to R209, R212) -/

def mmaKo (p : BitVec 17) : Nat := bits p.toNat 16 13
def mmaFol (p : BitVec 17) : Bool := p.getLsbD 12
def mmaBc (p : BitVec 17) : Nat := bits p.toNat 11 10
def mmaC (p : BitVec 17) : Nat := bits p.toNat 9 4
def mmaKb (p : BitVec 17) : Nat := bits p.toNat 3 0 + 1

/-- Bytes of one K-block of an operand. -/
def blockBytes (d : BitVec 512) : Nat := if dFmt d = 1 then 32 else 16

/-- R208: every page that the K-blocks of a global operand cover, where it translates, is mode-00 device memory in device bias with SA = 0 (DEDUCED, log 105). -/
def State.operandPages (s : State) (k : FKey) (d : BitVec 512) (k0 kb : Nat) : Bool :=
  dLoc d || (List.range 128).all fun i =>
    let a := addOff (dBase d) ((k0 * blockBytes d : Nat) + (i : Int) * dSt d 1)
    [a, a + kb * blockBytes d - 1].all fun va => match s.translate (s.tenOf k) va with
      | .ok l => l.mode = 0 && isDram (l.pa + va % 2 ^ l.sizeBits) && !s.hostBias (l.pa + va % 2 ^ l.sizeBits) && !l.hb && !l.sa
      | .fail _ => true
      | .poison => true

/-- R207's entry checks. -/
def mmaEntry (d : BitVec 512) (k0 kb : Nat) : Bool := mxEntry d && decide (dN d 1 = 128) && decide (32 * (k0 + kb) ≤ dN d 0)

/-- The cause of an MMA that fails its checks at issue (R207), none when it passes. -/
def State.mmaCause (s : State) (k : FKey) (t : Nat) (a b : BitVec 512) (p : BitVec 17) : Option Nat :=
  let k0 := 16 * mmaKo p
  let kb := mmaKb p
  if !s.holdsTile k t then some 0x1D
  else if !mmaEntry a k0 kb || !mmaEntry b k0 kb || decide (64 < mmaC p + kb) || (decide (mmaBc p ≠ 0) && dLoc b) then some 0x1A
  else if !s.operandPages k a k0 kb || !s.operandPages k b k0 kb then some 0x1C
  else none

/-- The address of row `i` of an operand, from block `k0` on. -/
def rowVa (d : BitVec 512) (k0 i : Nat) : Nat := addOff (dBase d) ((k0 * blockBytes d : Nat) + (i : Int) * dSt d 1)

/-- The rows of an operand in the order in which the fetch unit comes to them: that of their addresses (R208). -/
def rowOrder (d : BitVec 512) (k0 : Nat) : List Nat := sortBy (fun i j => decide (rowVa d k0 i ≤ rowVa d k0 j)) (List.range 128)

/-- Rows 0 to 127 of an operand, blocks from `k0` on, read in ascending address order: all bytes, or the first failure and its address; and the thread's view. -/
def State.operandRows (s : State) (k : FKey) (v : View) (d : BitVec 512) (k0 kb : Nat) : Except (Nat × Piece) (List (List Byte)) × View :=
  let r := (rowOrder d k0).foldl (fun (acc : Except (Nat × Piece) (List (Nat × List Byte)) × View) (i : Nat) =>
    match acc.1 with
    | .error _ => acc
    | .ok rows =>
      let va := rowVa d k0 i
      match s.threadReadAll k acc.2 (dLoc d) va (kb * blockBytes d) [] with
      | (.ok bs, w, _) => (.ok ((i, bs) :: rows), w)
      | (.error (o, p), w, _) => (.error (va + o, p), w)) (.ok [], v)
  (r.1.map fun rows => (sortBy (fun a b => decide (a.1 ≤ b.1)) rows.reverse).map Prod.snd, r.2)

/-- The leaves and lines that a global operand's rows go through (R133, R145, R146, R208). -/
def State.operandWalk (s : State) (k : FKey) (d : BitVec 512) (k0 kb : Nat) : State :=
  if dLoc d then s else
  (rowOrder d k0).foldl (fun (s : State) (i : Nat) =>
    (linePieces (rowVa d k0 i) 4 0 (kb * blockBytes d)).foldl (fun (s : State) p => s.threadWalk k false (rowVa d k0 i + p.1) p.2 true) s) s

/-- The MMA of cluster `c` shares its fetch of B with another one, of a cluster of its row (BC = 01) or column (BC = 10) (R209). -/
def State.shares? (s : State) (op o : EngineOp) : Bool :=
  let bc := mmaBc op.parm
  decide (o.kind = .mma) && decide (o.id ≠ op.id) && decide (mmaBc o.parm = bc) && decide (o.key.die = op.key.die)
  && (if bc = 1 then decide (o.key.c / 8 = op.key.c / 8) else if bc = 2 then decide (o.key.c % 8 = op.key.c % 8) else false)
  && decide ((s.ctx o.ctx).ten = (s.ctx op.ctx).ten) && decide (o.descs.getD 1 0#512 = op.descs.getD 1 0#512)
  && decide (mmaKo o.parm = mmaKo op.parm) && decide (mmaKb o.parm = mmaKb op.parm)

/-- A thread with view `v` may read an operand's blocks as they stood at instant `pos` (R220). -/
def State.rowsAllowed (s : State) (k : FKey) (v : View) (d : BitVec 512) (k0 kb pos : Nat) : Bool :=
  (List.range 128).all fun i => (linePieces (rowVa d k0 i) 4 0 (kb * blockBytes d)).all fun p =>
    match s.threadAcc k (dLoc d) (rowVa d k0 i + p.1) p.2 false with
    | .ok (.home loc) _ => s.instantOk v pos loc p.2 && !s.viewPending v loc p.2
    | .ok (.peer ..) _ | .fatal _ | .trans _ => false

/-- A fetch of B serves an MMA that comes to its tile's head within 256 cycles of it, and may read the same bytes (R209). (DEDUCED, log 89) -/
def State.serveFetch (s : State) (b : BFetch) (o : EngineOp) : State :=
  if !s.shares? b.op o || o.fetched.isSome || o.rows.isSome || decide ((s.tileNext? o.key.c o.tile).map (fun e => e.id) ≠ some o.id)
    || !s.rowsAllowed o.key o.view (o.descs.getD 1 0#512) (16 * mmaKo o.parm) (mmaKb o.parm) b.pos then s
  else s.updEop o.id fun e => { e with fetched := some b.rows, view := e.view.join b.view }

/-- Fetches of B serve the MMAs that share them, for 256 cycles (R209). -/
def State.shareFetches (s : State) : State :=
  if s.fetches.isEmpty then s else
  let s : State := { s with fetches := s.fetches.filter fun b => decide (s.now ≤ b.born + 256) }
  s.fetches.foldl (fun (s : State) b => s.eops.foldl (fun (s : State) o => s.serveFetch b o) s) s

/-- Operand B of an MMA: what another MMA's fetch brought, or its own fetch. -/
def State.operandB (s : State) (op : EngineOp) (v : View) : Except (Nat × Piece) (List (List Byte)) × View :=
  match op.fetched with
  | some rows => (.ok rows, v)
  | none => s.operandRows op.key v (op.descs.getD 1 0#512) (16 * mmaKo op.parm) (mmaKb op.parm)

/-- An MMA's own fetch of B, which others may share. -/
def State.noteFetch (s : State) (op : EngineOp) (rows : List (List Byte)) (v : View) : State :=
  if mmaBc op.parm = 0 || op.fetched.isSome then s
  else ({ s with fetches := s.fetches ++ [⟨op, rows, v, s.hist.length - s.lag, s.now⟩] } : State).shareFetches

/-- The integers of block `b` of a row. -/
def rowBlock (d : BitVec 512) (row : List Byte) (b : Nat) : List Int :=
  let bs := (row.drop (b * blockBytes d)).take (blockBytes d)
  (List.range 32).map fun e => mxElem (dFmt d) bs e

/-- Adds blocks `b0` to `b0 + n - 1` of the rows, with the scale columns from `c0` on, into every element (R207, R190, R191). -/
def Tile.multiply (t : Tile) (a b : BitVec 512) (ra rb : List (List Byte)) (b0 n c0 : Nat) : Tile :=
  let eb := t.ebOf
  let xs := ra.map fun r => (List.range n).map fun q => rowBlock a r (b0 + q)
  let ys := rb.map fun r => (List.range n).map fun q => rowBlock b r (b0 + q)
  let r := xs.zipIdx.flatMap fun x => ys.zipIdx.map fun y =>
    (List.range n).foldl (fun (acc : MonSum × Bool) q =>
      let (e, i) := accumulate acc.1 (blockProduct (x.1.getD q []) (y.1.getD q [])) (t.scale 0 x.2 (c0 + q)) (t.scale 1 y.2 (c0 + q)) eb
      (e, acc.2 || i)) (t.elem (128 * x.2 + y.2), false)
  { t with elems := some (r.map Prod.fst), eb := eb, inx := t.inxOf || r.any Prod.snd }

/-- The copy that an MMA follows ends with it (R212): an abandonment counts as its fault. -/
def State.partnerEnds (s : State) (op : EngineOp) : State :=
  match op.partner with
  | none => s.deferFault op
  | some c => s.updEop c fun e => { e with ended := true, flt := e.flt.orElse fun _ => op.flt }

/-- An MMA's transfer that did not succeed: the MMA is abandoned (R207). -/
def State.mmaFails (s : State) (op : EngineOp) (n : Nat) (va : Nat) : Piece → State
  | .fatal cause => s.threadFatal op cause
  | .fault cls r code peer =>
    let op1 := op.noteFault va 0xD5 (op.descNos.getD n 0) r code cls peer
    (s.partnerEnds op1).endThread op
  | .ok _ _ | .blocked _ => s

/-- The rows of both operands, fetched before the first K-block is added, and the thread's view; or the operand whose access failed, with its address. -/
def State.mmaRows (s : State) (op : EngineOp) : Except (Nat × Nat × Piece) ((List (List Byte) × List (List Byte)) × View) :=
  match op.rows with
  | some r => .ok (r, op.view)
  | none =>
    match s.operandRows op.key op.view (op.descs.headD 0#512) (16 * mmaKo op.parm) (mmaKb op.parm) with
    | (.error (va, p), _) => .error (0, va, p)
    | (.ok ra, v) =>
      match s.operandB op v with
      | (.error (va, p), _) => .error (1, va, p)
      | (.ok rb, v) => .ok ((ra, rb), v)

/-- The leaves and lines that both operands of an MMA go through, once. -/
def State.mmaWalk (s : State) (op : EngineOp) : State :=
  if op.rows.isSome then s else
  let k0 := 16 * mmaKo op.parm
  (s.operandWalk op.key (op.descs.headD 0#512) k0 (mmaKb op.parm)).operandWalk op.key (op.descs.getD 1 0#512) k0 (mmaKb op.parm)

/-- MMA_APPLY (R207): the tile's next operation is an MMA, and its next K-block is applied. -/
def State.mmaApply (s : State) (c t : Nat) : State :=
  match s.tileNext? c t with
  | none => s
  | some op =>
    if op.kind ≠ .mma then s else
    let s := s.mmaWalk op
    match s.mmaRows op with
    | .error (n, va, p) => s.mmaFails op n va p
    | .ok (r, v) =>
      let s := if op.rows.isSome then s else s.noteFetch op r.2 v
      let s1 := s.updTile c t fun x => x.multiply (op.descs.headD 0#512) (op.descs.getD 1 0#512) r.1 r.2 op.step 1 (mmaC op.parm + op.step)
      if op.step + 1 < mmaKb op.parm then s1.updEop op.id fun e => { e with step := e.step + 1, began := true, rows := some r, view := v }
      else (s1.partnerEnds op).endThread { op with view := v }

/-- A copy all of whose writes have landed hands its follow-on MMA over, or discards it after a fault of its own (R212). -/
def State.copySettle (s : State) (id : Nat) : State :=
  match s.eop? id with
  | none => s
  | some e =>
    if !e.landed || !s.threadApplied id then s
    else if !e.free then s.updEop id fun x => { x with ended := true }
    else match e.partner with
    | none => s
    | some m =>
      if e.flt.isSome then (((s.eop? m).map fun y => s.endThread y).getD s).updEop id fun x => { x with ended := true }
      else match s.eop? m with
        | some y => if y.accepted.isSome || !s.queueRoom y.key.c y.tile then s else s.accept m
        | none => s

/-- MMA of one member. -/
def State.mmaOne (s : State) (c : UnitCtx) (f : Fibre) (x y : TdNo) (t : Nat) : State :=
  let p := c.x17
  let k := f.key
  let ctx := s.ctxOf k
  let pend := ((s.fibre? k).map fun g => g.foln).getD none
  let s := s.updFibre k fun g => { g with foln := none }
  if mmaFol p != pend.isSome then s.fatal k 0x1E c.uaddr
  else
    let a := s.descOf ctx x.toNat
    let b := s.descOf ctx y.toNat
    match s.mmaCause k t a b p with
    | some cause => s.fatal k cause c.uaddr
    | none =>
      let op := { newOp s c f .mma with tile := t, descs := [a, b], descNos := [x.toNat, y.toNat], parm := p, partner := pend }
      let s : State := { s.bump with eops := s.eops ++ [op] }
      match pend with
      | some cp =>
        (s.updEop cp fun e => { e with partner := some op.id }).copySettle cp
      | none =>
        s.accept op.id

/-- MMA (R206, R207, R212). -/
def execMma (h : Hdr) (x y : TdNo) (tile : Bool) (s : State) : Out :=
  .next (runUnitAny h (fun c s => c.act.foldl (fun s f =>
    if s.live f.key then s.mmaOne c f x y (if tile then 1 else 0) else s) s) s)

/-! ### MDRN (R210) -/

/-- Row `i` of a drain: column-ordered values of the tile (R193, R210). -/
def drainRow (d : BitVec 512) (t : Tile) (i : Nat) : List Byte :=
  let f := if dFmt d = 0x10 then fmt32 else fmtB16
  (List.range 128).flatMap fun j => leBytes (f.width / 8) (drainValue f (t.elem (128 * i + j)) t.ebOf)

/-- Writes the rows of a drain, up to the first failure. -/
def State.drainRows (s : State) (op : EngineOp) (d : BitVec 512) (t : Tile) (ans : List LineAnswer) : Move :=
  (List.range 128).foldl (fun (m : Move) (i : Nat) =>
    if m.stop.isSome || m.flt.isSome then m else
    let row := drainRow d t i
    (linePieces (rowVa d 0 i) 5 0 row.length).foldl (fun (m : Move) p =>
      if m.flt.isSome then m else m.write op (dLoc d) (rowVa d 0 i) p.1 ((row.drop p.1).take p.2) [] false) m) (Move.start s op.view ans)

/-- FINFO's parts for a fault of a move: opcode and descriptor number go in front of reason, code and class (R201). -/
def moveFault (opcode desc : Nat) (x : Nat × Nat × Nat × Nat × Nat) : Nat × Nat × Nat :=
  (x.1, opcode * 2 ^ 24 + desc * 2 ^ 16 + x.2.1 * 2 ^ 8 + x.2.2.1 * 2 ^ 4 + x.2.2.2.1, x.2.2.2.2)

/-! ### What an operation moves to and from peers -/

/-- Blocks per chunk, and the chunk in hand, of a TMM (R214). -/
def EngineOp.chunk (op : EngineOp) : Nat := op.step / 16
def EngineOp.chunkBlocks (op : EngineOp) : Nat := min 16 (dN (op.descs.headD 0#512) 0 / 32 - 16 * op.chunk)

/-- The rows of a copy: the addresses of source and destination (R211). -/
def copyRows (d r : BitVec 512) : List (Nat × Nat) := ((dRows r).zip (dRows d)).map fun x => (addOff (dBase r) x.1, addOff (dBase d) x.2)

/-- The bytes of a scratchpad row, as they stand. -/
def State.spadRow (s : State) (k : FKey) (va n : Nat) : List Byte :=
  match s.spadDest k va n with
  | .ok loc => s.mem.readBytes loc n
  | .error _ => List.replicate n 0#8

/-- The global scales of an operand's rows. -/
def scaleSpans (d : BitVec 512) (b0 n : Nat) : List Span := if dSloc d then [] else (List.range (dN d 1)).map fun i => ⟨false, scaleVa d i b0, n, []⟩

/-- The global spans of an operation's next move; none while it has not come to it. -/
def State.spansOf (s : State) (e : EngineOp) : Option (List Span) :=
  let d := e.descs.headD 0#512
  let r := e.descs.getD 1 0#512
  let first := decide (((s.tileNext? e.key.c e.tile).map fun x => x.id) = some e.id)
  match e.kind with
  | .tdset | .monset => some (if e.spad then [] else [⟨false, e.va, 64, []⟩])
  | .wopen => some [⟨false, e.va, 32, []⟩]
  | .keyld => some [⟨false, e.va, 48, []⟩]
  | .rest => some (if e.step = 0 then [⟨false, e.va, 128, []⟩] else [⟨false, e.va + 128, imgField d 0x10 8 - 128, []⟩])
  | .tdget | .monrd => some (if e.spad then [] else [⟨true, e.va, 64, imgBytes d⟩])
  | .mscl => if first then some (scaleSpans d 0 (dN d 0 / 32)) else none
  | .mdrn => if first then some (if dLoc d then [] else (List.range 128).map fun i =>
      let row := drainRow d (s.tile e.key.c e.tile) i
      ⟨true, rowVa d 0 i, row.length, row⟩) else none
  | .cpy => some ((copyRows d r).map fun x => if dLoc d then ⟨false, x.1, dRowBytes d, []⟩ else ⟨true, x.2, dRowBytes d, s.spadRow e.key x.1 (dRowBytes d)⟩)
  | .tmm =>
    let b0 := 16 * e.chunk
    if e.accepted.isNone then
      some ((List.range 128).flatMap fun i => [⟨false, rowVa d b0 i, e.chunkBlocks * blockBytes d, []⟩, ⟨false, rowVa r b0 i, e.chunkBlocks * blockBytes r, []⟩])
    else if first then some (scaleSpans d b0 e.chunkBlocks ++ scaleSpans r b0 e.chunkBlocks) else none
  | .tdinv | .mzero | .mma | .wrevoke | .save | .evict => some []

/-- An operation whose thread has forked sends the bulk transfers of its next move. -/
def State.sendsOf (s : State) (e : EngineOp) : State :=
  if !e.forked || e.ended || e.landed || e.bulk.isSome || decide ((s.ctx e.ctx).st = 6) then s else
  match s.spansOf e with
  | some sp => s.sendSpans e sp
  | none => s

/-- Every operation that may send now. -/
def State.bulkSends (s : State) : State := s.eops.foldl (fun (s : State) e => s.sendsOf e) s

/-- An operation ready for its next move: forked, its bulk transfers delivered (R232, R234). -/
def State.mover? (s : State) (id : Nat) : Option EngineOp := (s.thread? id).filter fun e => e.bulk.isSome && !s.bulkOut id

/-- MDRN_APPLY (R210): the tile's next operation is an MDRN. -/
def State.mdrnApply (s : State) (c t : Nat) (ans : List LineAnswer) : State :=
  match s.tileNext? c t with
  | none => s
  | some op0 =>
    if op0.kind ≠ .mdrn then s else
    let s := s.sendsOf op0
    match s.mover? op0.id with
    | none => s
    | some op =>
      let tl := s.tile c t
      let m := s.drainRows op (op.descs.headD 0#512) tl ans
      match m.stop with
      | some (.fatal cause) => m.st.threadFatal op cause
      | some _ => s
      | none =>
        let s1 := m.st.updEop op.id fun e => { e with
          ended := true, snapInx := some tl.inxOf, view := m.view, flt := m.flt.map (moveFault 0xD6 (op.descNos.headD 0)) }
        if op.free then s1.freeTile c t else s1

/-- MDRN (R210). -/
def execMdrn (h : Hdr) (x : TdNo) (free : Bool) (p : PredNo) (tile : Bool) (s : State) : Out :=
  .next (memberUnit h (fun c f s =>
    let t := if tile then 1 else 0
    let d := s.descOf (s.ctxOf f.key) x.toNat
    if !s.holdsTile f.key t then s.fatal f.key 0x1D c.uaddr
    else if !(dV d && decide (dFmt d = 0x10 ∨ dFmt d = 0x11) && decide (dNdm1 d = 1) && decide (dN d 0 = 128) && decide (dN d 1 = 128)) then
      s.fatal f.key 0x1A c.uaddr
    else
      let op := { newOp s c f .mdrn with tile := t, descs := [d], descNos := [x.toNat], pred := p, free := free }
      ({ s.bump with eops := s.eops ++ [op] }).accept op.id) s)

/-! ### CPY (R211) -/

def cpyFoln (p : BitVec 17) : Bool := p.getLsbD 6
def cpyCe (p : BitVec 17) : Bool := p.getLsbD 5
def cpyG (p : BitVec 17) : RegNo := p.extractLsb' 0 5

/-- The cause of a CPY that fails its checks at issue, but for those of its object. -/
def State.cpyCause (s : State) (k : FKey) (d r : BitVec 512) : Option Nat :=
  let sp := if dLoc d then d else r
  if !dV d || !dV r || decide (dFmt d ≠ dFmt r) || decide (dNdm1 d ≠ dNdm1 r) || ((List.range 4).any fun i => decide (dN d i ≠ dN r i)) then some 0x1A
  else if decide (dFmt d = 0x30) || dLoc d == dLoc r then some 0x1A
  else if decide (dBase sp % 16 ≠ 0) || ([1, 2, 3].any fun i => decide (dSt sp i % 16 ≠ 0)) || decide (dRowBytes sp % 16 ≠ 0) then some 0x1A
  else if dLoc d && !s.fullEmptyOk k (dBase d) then some 0x15
  else none

/-- The next row of a copy, with the answers of peers: what it leaves, and the answers left; none where it cannot go on. -/
def State.copyRow (s : State) (op : EngineOp) (ans : List LineAnswer) : State × Option (List LineAnswer) :=
  let d := op.descs.headD 0#512
  let r := op.descs.getD 1 0#512
  match (copyRows d r)[op.step]? with
  | none => (s, none)
  | some x =>
    let m := (Move.start s op.view ans).row op (dLoc r) x.1 (dLoc d) x.2 (elemBytes d) (dRowBytes d)
    match m.stop with
    | some (.fatal cause) => (m.st.threadFatal op cause, none)
    | some (.blocked (some (loc, n))) => (s.askHost loc n, none)
    | some _ => (s, none)
    | none => (m.st.updEop op.id fun e => { e with
        step := e.step + 1, began := true, landed := decide ((copyRows d r).length ≤ op.step + 1), view := m.view
        flt := e.flt.orElse fun _ => m.flt.map (moveFault 0xD7 (op.descNos.getD (if dLoc d then 1 else 0) 0)) }, some m.ans)

/-- A row of a copy, and further ones while answers of peers are left. -/
def State.copyOn (s : State) (id : Nat) : Nat → List LineAnswer → State
  | 0, _ => s
  | n + 1, ans =>
    match (s.thread? id).filter fun e => !e.landed with
    | none => s
    | some op =>
      match s.copyRow op ans with
      | (t, some (a :: l)) => t.copyOn id n (a :: l)
      | (t, _) => t

/-- COPY_LANDED (R211, R212): the next row has been copied, elements that failed skipped; after the last one the copy has landed. (DESIGN CHOICE, log 12) (DESIGN CHOICE, log 27) -/
def State.copyLanded (s : State) (id : Nat) (ans : List LineAnswer) : State :=
  match s.thread? id with
  | none => s
  | some op0 =>
    if op0.kind ≠ .cpy ∨ op0.landed ∨ (s.ctx op0.ctx).st = 6 then s else
    let s := s.sendsOf op0
    if (s.mover? id).isNone then s else (s.copyOn id (ans.length + 1) ans).copySettle id

/-- The completion object that a parameter word names: its location, none when it names none; or the access that fails. (DEDUCED, log 23) -/
def State.parmObj (s : State) (f : Fibre) (p : BitVec 17) : Except (Nat × Acc) (Option Nat) :=
  if !cpyCe p then .ok none
  else
    let va := (f.pair (cpyG p)).toNat
    match s.complAccess f.key va with
    | .ok (.home loc) _ => .ok (some loc)
    | .ok (.peer ..) _ => .error (va, .fatal 0x1C)
    | .fatal c => .error (va, .fatal c)
    | .trans r => .error (va, .trans r)

/-- CPY (R211). -/
def execCpy (h : Hdr) (x y : TdNo) (s : State) : Out :=
  .next (memberUnit h (fun c f s =>
    let p := c.x17
    let ctx := s.ctxOf f.key
    let d := s.descOf ctx x.toNat
    let r := s.descOf ctx y.toNat
    match s.cpyCause f.key d r, s.parmObj f p with
    | some cause, _ => s.fatal f.key cause c.uaddr
    | none, .error (va, a) => s.accessFault c f.key [] va a
    | none, .ok obj =>
      let op := { newOp s c f .cpy with descs := [d, r], descNos := [x.toNat, y.toNat], parm := p, free := cpyFoln p, obj := obj, va := if obj.isSome then (f.pair (cpyG p)).toNat else 0 }
      let s : State := { s.bump with eops := s.eops ++ [op] }
      s.updFibre f.key fun g => { g with foln := if cpyFoln p then some op.id else none }) s)

/-! ### TMM (R214, R215) -/

def tmmSd (p : BitVec 17) : Nat := bits p.toNat 13 6

/-- The cause of a TMM that fails its checks at issue, but for those of its object. `e`, `g`: the staging pair. Its copies set full/empty bits, so a staging area where R11 does not permit that is cause 0x15, as for CPY (DESIGN CHOICE, log 106). -/
def State.tmmCause (s : State) (k : FKey) (t : Nat) (a b e g : BitVec 512) (sd : Nat) : Option Nat :=
  let nb := dN a 0 / 32
  let stage (q o : BitVec 512) : Bool :=
    dV q && dLoc q && decide (dNdm1 q = 1) && decide (dN q 1 = 128) && decide (dN q 0 = 32 * min 16 nb) && decide (dFmt q = dFmt o)
  if !mmaEntry a 0 nb || !mmaEntry b 0 nb || dLoc a || dLoc b || decide (dN a 0 ≠ dN b 0) || decide (254 < sd) || !stage e a || !stage g b then some 0x1A
  else if !s.fullEmptyOk k (dBase e) || !s.fullEmptyOk k (dBase g) then some 0x15
  else if !s.holdsTile k t then some 0x1D
  else none

/-- Blocks `b0` to `b0 + n - 1` of an operand are copied to its staging tensor. -/
def Move.stage (m : Move) (op : EngineOp) (src dst : BitVec 512) (b0 n : Nat) : Move :=
  (List.range 128).foldl (fun (m : Move) (i : Nat) => m.row op false (rowVa src b0 i) true (rowVa dst 0 i) 1 (n * blockBytes src)) m

/-- A TMM ends with a fault (R214): FSTEP keeps the blocks already applied. -/
def State.tmmFault (s : State) (op : EngineOp) (desc va reason code cls peer : Nat) : State :=
  s.updEop op.id fun e => { (e.noteFault va 0xD8 desc reason code cls peer) with ended := true, accepted := none }

/-- A TMM's chunk is staged, and joins the tile's queue where that has room (R198, R214). -/
def State.tmmStage (s : State) (op : EngineOp) (ans : List LineAnswer) : State :=
  let d (i : Nat) : BitVec 512 := op.descs.getD i 0#512
  let b0 := 16 * op.chunk
  if !s.queueRoom op.key.c op.tile then s else
  let m1 := (Move.start s op.view ans).stage op (d 0) (d 2) b0 op.chunkBlocks
  let m := if m1.flt.isSome then m1 else m1.stage op (d 1) (d 3) b0 op.chunkBlocks
  match m.stop, m.flt with
  | some (.fatal cause), _ => m.st.threadFatal op cause
  | some (.blocked (some (loc, n))), _ => s.askHost loc n
  | some _, _ => s
  | none, some (va, r, code, cls, peer) =>
    (m.st.updEop op.id fun x => { x with view := m.view }).tmmFault op (op.descNos.getD (if m1.flt.isSome then 0 else 1) 0) va r code cls peer
  | none, none => (m.st.updEop op.id fun x => { x with view := m.view, bulk := none }).accept op.id

/-- The next block of a TMM's chunk, whose scales are loaded and whose staged rows are read, is applied (R214, R215). -/
def State.tmmBlock (s : State) (op : EngineOp) (ra rb : List (List Byte)) (v : View) : State :=
  let d (i : Nat) : BitVec 512 := op.descs.getD i 0#512
  let b := op.step - 16 * op.chunk
  let whole := decide (op.chunkBlocks ≤ b + 1)
  (s.updTile op.key.c op.tile fun x => x.multiply (d 2) (d 3) ra rb b 1 b).updEop op.id fun x => { x with
    step := x.step + 1, view := v, rows := if whole then none else some (ra, rb), accepted := if whole then none else x.accepted
    bulk := if whole then none else x.bulk, ended := decide (dN (d 0) 0 / 32 ≤ op.step + 1) }

/-- The tile takes a TMM's chunk: its scales are loaded, and its blocks applied, one with each event (R214). -/
def State.tmmApply (s : State) (op : EngineOp) (ans : List LineAnswer) : State :=
  let d (i : Nat) : BitVec 512 := op.descs.getD i 0#512
  let b0 := 16 * op.chunk
  let kq := op.chunkBlocks
  match op.rows with
  | some r => s.tmmBlock op r.1 r.2 op.view
  | none =>
  let a := Scales.rows (s, op.view, none, ans) op.key op.tile (d 0) 0 0 b0 kq
  let z : Scales := if a.2.2.1.isSome then a else a.rows op.key op.tile (d 1) 1 0 b0 kq
  match z.2.2.1 with
  | some (va, .fault cls r code peer) => z.1.tmmFault op (op.descNos.getD (if a.2.2.1.isSome then 0 else 1) 0) va r code cls peer
  | some (_, .fatal cause) => z.1.threadFatal op cause
  | some (_, .blocked (some (loc, n))) => s.askHost loc n
  | some _ => s
  | none =>
    match z.1.operandRows op.key z.2.1 (d 2) 0 kq with
    | (.error (_, .fatal cause), _) => z.1.threadFatal op cause
    | (.error _, _) => s
    | (.ok ra, v) =>
      match z.1.operandRows op.key v (d 3) 0 kq with
      | (.error (_, .fatal cause), _) => z.1.threadFatal op cause
      | (.error _, _) => s
      | (.ok rb, v) => z.1.tmmBlock op ra rb v

/-- TMM_CHUNK (R214): the next chunk is staged and joins the tile's queue; when the tile takes it, its scales are loaded and its blocks applied, one by one. -/
def State.tmmChunk (s : State) (id : Nat) (ans : List LineAnswer) : State :=
  match s.thread? id with
  | none => s
  | some op0 =>
    if op0.kind ≠ .tmm ∨ op0.ended ∨ (s.ctx op0.ctx).st ≠ 1 then s else
    let s := s.sendsOf op0
    match s.mover? id with
    | none => s
    | some op =>
      if op.accepted.isNone then s.tmmStage op ans
      else if ((s.tileNext? op.key.c op.tile).map fun e => e.id) = some id then s.tmmApply op ans
      else s

/-- Runs a TMM's chunks to its end while nothing holds it. -/
def State.tmmRun (s : State) (id : Nat) : Nat → State
  | 0 => s
  | n + 1 => (s.tmmChunk id []).tmmRun id n

/-- TMM (R214). -/
def execTmm (h : Hdr) (x y : TdNo) (tile : Bool) (s : State) : Out :=
  .next (memberUnit h (fun c f s =>
    let p := c.x17
    let t := if tile then 1 else 0
    let ctx := s.ctxOf f.key
    let a := s.descOf ctx x.toNat
    let b := s.descOf ctx y.toNat
    let sd := tmmSd p
    let e := s.descOf ctx sd
    let g := s.descOf ctx (sd + 1)
    match s.tmmCause f.key t a b e g sd, s.parmObj f p with
    | some cause, _ => s.fatal f.key cause c.uaddr
    | none, .error (va, acc) => s.accessFault c f.key [] va acc
    | none, .ok obj =>
      let op := { newOp s c f .tmm with tile := t, descs := [a, b, e, g], descNos := [x.toNat, y.toNat, sd, sd + 1], parm := p, obj := obj, va := if obj.isSome then (f.pair (cpyG p)).toNat else 0 }
      { s.bump with eops := s.eops ++ [op] }) s)

end Sys2Proof.Machine
end

