-- ==== Sys2Proof/Machine/FabricUnits.lean ====
section
/-! DEFINITION. The extension word (R61), and the fabric units FLUSHC, WOPEN and WREVOKE (R270 to R272, R282). -/

namespace Sys2Proof.Machine

/-! ### IMX (R61, R62) -/

/-- An IMX word is no unit: the flock keeps it for its consumer, and no member moves. The first one's address is the unit's. -/
def State.extend (s : State) (x : BitVec 17) : State :=
  match s.flockOf? s.cur with
  | none => s
  | some fl => s.setFlock { fl with imxs := fl.imxs ++ [x], unitAddr := fl.uaddr, snap := s.snapOf fl, addr := nextWord fl.addr }

/-- IMX (R61). -/
def execImx (x : BitVec 17) (s : State) : Out := .next (s.extend x)

/-! ### Context privilege (R73) -/

/-- A context-privileged unit: in a context without PRIV it is the fatal fault PROTECTION, cause 0x0D. -/
def privUnit (h : Hdr) (act : UnitCtx → Fibre → State → State) (s : State) : State :=
  memberUnit h (fun c f s => if (s.ctx (s.ctxOf f.key)).priv then act c f s else s.fatal f.key 0x0D c.uaddr) s

/-! ### FLUSHC (R282) -/

/-- The cart is one that FLUSHC names. -/
def flushNames (t : FlushTgt) (x : Cart) : Bool :=
  match t with
  | .all => true
  | .peer p => !x.group && x.peer == p.toNat
  | .grp g => x.group && x.peer == g.toNat

/-- FLUSHC (R282). -/
def execFlushc (h : Hdr) (t : FlushTgt) (s : State) : Out :=
  .next (memberUnit h (fun _ f s => s.departCarts fun d x => decide (d = f.key.die ∧ x.ctx = s.ctxOf f.key) && flushNames t x) s)

/-! ### Windows (R270 to R272) -/

def winField (i : BitVec 256) (off n : Nat) : Nat := i.toNat / 2 ^ (8 * off) % 2 ^ (8 * n)
def blankWindow : WindowEntry := ⟨0#256, false, 0#16, 0⟩
def State.window (s : State) (w : Nat) : WindowEntry := s.wins.getD w blankWindow

/-- The window image obeys R270. -/
def winOk (i : BitVec 256) : Bool :=
  decide (winField i 0 8 % 65536 = 0) && decide (winField i 0 8 < 2 ^ 52)
  && decide (winField i 8 8 % 65536 = 0) && decide (winField i 8 8 ≠ 0) && decide (winField i 0 8 + winField i 8 8 ≤ 2 ^ 52)
  && decide (winField i 0x10 2 ≤ winField i 0x12 2) && decide (winField i 0x12 2 ≤ 1023)
  && decide (winField i 0x14 1 < 8) && decide (winField i 0x15 1 < 8) && decide (winField i 0x16 10 = 0)

/-- GEN + 1, with 0xFFFF followed by 1. -/
def nextGen (g : BitVec 16) : BitVec 16 := if g = 0xFFFF#16 then 1#16 else g + 1#16

/-- Some valid leaf of the range maps a byte of the launch window (R26). (DEDUCED, log 40) -/
def State.mapsWindow (s : State) (t lo hi : Nat) : Bool :=
  (s.leaves t lo hi).any fun p =>
    let a := max lo p.1
    let b := min hi (p.1 + 2 ^ p.2.sizeBits)
    p.2.mode == 0 && s.onWindow (p.2.pa + (a - p.1)) (b - a)

/-- A walk of a range meets its leaves, page by page (R145, R146). -/
def State.meetRange (s : State) (c t lo hi : Nat) : State :=
  (s.leaves t lo hi).foldl (fun (s : State) p =>
    let a := max lo p.1
    let b := min hi (p.1 + 2 ^ p.2.sizeBits)
    (List.range ((b - a + 65535) / 65536)).foldl (fun (s : State) i => s.meetLeaf (some c) p.2 (a + 65536 * i)) s) s

/-- A unit that reports through a register ends. -/
def State.reportEnd (s : State) (op : EngineOp) (v : View) (n : Nat) : State :=
  (s.unitEnds op v).updFibre op.key fun f => f.setReg op.dst (BitVec.ofNat 32 n)

def wopenFin : Finish := fun s op ans =>
  let s := s.threadWalk op.key false op.va 32 true
  match s.threadReadAll op.key op.view false op.va 32 ans with
  | (.error (o, p), v, _) => s.unitPiece op v (op.va + o) p
  | (.ok bs, v, _) =>
    let i : BitVec 256 := BitVec.ofNat 256 (leNat bs)
    let t := s.tenOf op.key
    let e := s.window op.arg
    let lo := winField i 0 8
    let hi := lo + winField i 8 8
    if 4095 < op.arg || !winOk i || e.v then some ((s.dropEop op.id).fatal op.key 0x21 op.unitAddr)
    else
      let s := s.meetRange op.ctx t lo hi
      if s.mapsWindow t lo hi then some ((s.dropEop op.id).fatal op.key 0x21 op.unitAddr) else
      let g := nextGen e.gen
      some ({ s with wins := s.wins.set op.arg ⟨i, true, g, t⟩ }.reportEnd op v g.toNat)

/-- WOPEN (R271). -/
def execWopen (h : Hdr) (d a b : RegNo) (s : State) : Out :=
  .next (privUnit h (fun c f s =>
    let v := (f.pair a).toNat
    if v % 32 ≠ 0 then s.fatal f.key 0x1B c.uaddr
    else match s.access f.key v 1 false with
    | .ok _ _ => (s.walkVa f.key v).waitUnit { newOp (s.walkVa f.key v) c f .wopen with va := v, arg := (f.reg b).toNat, dst := d }
    | x => s.accessFault c f.key [] v x) s)

/-- Every write that was checked against a window before it closed has been applied. (DEDUCED, log 39) -/
def State.importsApplied (s : State) : Bool :=
  !(s.aq.any fun w => match w.src with
    | .chan _ _ => true
    | .fibre _ => false
    | .engine _ => false
    | .host => false)

/-- Closes window `w` (R272). -/
def State.closeWindow (s : State) (w : Nat) : State :=
  let e := s.window w
  if e.v then { s with wins := s.wins.set w { e with v := false, gen := nextGen e.gen } } else s

/-- The entry closes once; the unit then waits for what was checked before. -/
def wrevokeFin : Finish := fun s op _ =>
  let v := op.view
  let e := s.window op.arg
  if op.landed then (if s.importsApplied then some (s.reportEnd op v e.gen.toNat) else none)
  else if 4095 < op.arg then some ((s.dropEop op.id).fatal op.key 0x21 op.unitAddr)
  else if e.v && decide (e.ten ≠ s.tenOf op.key) then some ((s.dropEop op.id).fatal op.key 0x22 op.unitAddr)
  else
    let s1 := s.closeWindow op.arg
    if s1.importsApplied then some (s1.reportEnd op v (s1.window op.arg).gen.toNat)
    else some (s1.updEop op.id fun x => { x with landed := true })

/-- WREVOKE (R272). -/
def execWrevoke (h : Hdr) (d b : RegNo) (s : State) : Out :=
  .next (privUnit h (fun c f s => s.waitUnit { newOp s c f .wrevoke with arg := (f.reg b).toNat, dst := d }) s)

end Sys2Proof.Machine
end

