-- ==== Sys2Proof/Machine/Trace.lean ====
section
/-! DEFINITION. Rings that the device writes (R39, R129, R312, R342), trace records (R342 to R344), and completion records and interrupts (R37 to R39). -/

namespace Sys2Proof.Machine

/-- The device writes host or device memory of its own accord; no context's order is concerned (R344). -/
def State.deviceWrite (s : State) (loc : Nat) (bs : List Byte) : State := s.bump.applyBytes s.serial loc bs none

/-! ### Trace (R342 to R344) -/

def offTrbuf (d : Nat) : Nat := 0x320000 + 0x20 * d
def offTrix (d : Nat) : Nat := 0x320008 + 0x20 * d

/-- One trace record of a die; SEQ counts dropped records too (DEDUCED, log 24). -/
def State.trace (s : State) (d kind clu qs lane reason a b : Nat) : State :=
  let t := (s.reg (offTrbuf d)).toNat
  let x := (s.reg (offTrix d)).toNat
  if bits t 0 0 = 0 then s else
  let n := 2 ^ (bits t 11 8 + 8)
  let tail := bits x 55 32
  let head := bits x 23 0
  let nxt := (tail + 1) % n
  let seq := s.traceSeq.getD d 0 + 1
  let s : State := { s with traceSeq := s.traceSeq.set d seq }
  if nxt = head then s.setReg (offTrix d) (BitVec.ofNat 64 (x % 2 ^ 63 + 2 ^ 63))
  else
    let s := s.deviceWrite (bits t 63 12 * 4096 + 32 * tail)
      (leBytes 1 kind ++ leBytes 1 d ++ leBytes 1 clu ++ leBytes 1 qs ++ leBytes 4 seq ++ leBytes 6 (s.cycOf d).toNat ++ leBytes 1 lane
        ++ leBytes 1 reason ++ leBytes 8 a ++ leBytes 8 b)
    s.setReg (offTrix d) (BitVec.ofNat 64 (bits x 63 63 * 2 ^ 63 + nxt * 2 ^ 32 + head))

/-- A launch event goes to the ring of die 0, where LEV = 1 (R342, R344). -/
def State.traceLaunch (s : State) (kind a b : Nat) : State :=
  if (s.reg (offTrbuf 0)).getLsbD 2 then s.trace 0 kind 0xFF 0 0 0 a b else s

/-! ### Completion records and interrupts (R37 to R39) -/

/-- log2 of a ring's size: 4 to 12, other values act as 4. -/
def ringLgn (g : Nat) : Nat := if 4 ≤ g ∧ g ≤ 12 then g else 4

/-- The phase of a completion ring: 1 on the first pass (R38). It is kept beside the registers. -/
def offPhase (off : Nat) : Nat := off + 0x100000000

/-- Steps 2 and 3 of R37: the record, or what takes its place, and the interrupts. (DEDUCED, log 43) -/
def State.report (s : State) (t tag status reason slot donev vec : Nat) : State :=
  let ctl := (s.reg (offCqctl t)).toNat
  let bad := decide (status ≠ 1)
  let last (s : State) : State := if vec ≠ 0 then s.emit (.msix (256 * t + vec)) else s
  if bits ctl 0 0 = 0 then last (if bad then s.emit (.msix (256 * t)) else s)
  else
    let n := 2 ^ ringLgn (bits ctl 15 12)
    let tail := (s.reg (offCqtail t)).toNat
    let nxt := (tail + 1) % n
    if nxt = (s.reg (offCqhead t)).toNat then
      last ((s.setReg (offCqstat t) 1#64).emit (.msix (256 * t)))
    else
      let ph := (s.regs.getD (offPhase (offCqtail t)) 1#64).toNat % 2
      let s := s.deviceWrite (hostLoc ((s.reg (offCqbase t)).toNat + 16 * tail))
        (leBytes 4 tag ++ leBytes 1 status ++ leBytes 1 reason ++ leBytes 1 slot ++ leBytes 1 ph ++ leBytes 8 donev)
      let s := s.setReg (offCqtail t) (BitVec.ofNat 64 nxt)
      let s := if nxt = 0 then s.setReg (offPhase (offCqtail t)) (BitVec.ofNat 64 (1 - ph)) else s
      last (if bad then s.emit (.msix (256 * t)) else s)

end Sys2Proof.Machine
end

