-- ==== Sys2Proof/Machine/Place.lean ====
section
/-! DEFINITION. Placing and releasing shares (R41 to R52), initial fibres (R24, R47), partial eviction (R315, R316), and the end of a launch (R37, R350 to R352). -/

namespace Sys2Proof.Machine

/-! ### Demand and room (R44) -/

/-- Bytes of each bank that a household asks for (R44). -/
structure Demand where
  g : Nat
  reg : Nat
  spd : Nat
  loc : Nat
  q : Nat
  deriving DecidableEq, Repr

def demand (l : LaunchRec) : Demand :=
  let g := 4 * l.win
  let reg := g * ((l.nfib + 127) / 128)
  let spd := l.spad / 128
  let loc := l.l1sz * 32
  ⟨g, reg, spd, loc, (reg + spd + loc + g + 255) / 256 * 256⟩

/-- Households of a parish. -/
def LaunchRec.hh (l : LaunchRec) : Nat := l.s * l.w
/-- Parishes of a launch. -/
def LaunchRec.parishes (l : LaunchRec) : Nat := l.gx * l.gy * l.gz

def State.sharesOf (s : State) (c : Nat) : List (Nat × Household) := s.shares.filter fun e => decide (e.1 / 4 = c)

/-- Bank ranges of a cluster that are taken, in 16-byte units. -/
def State.ranges (s : State) (c : Nat) : List (Nat × Nat) :=
  ((s.sharesOf c).flatMap fun e => (e.2.base, e.2.lim) :: (match e.2.borrowed with
    | some (_, n, b) => [(b, b + n)]
    | none => []))
  ++ (s.loans.filter fun l => decide (l.c = c)).map fun l => (l.base, l.base + l.len)

/-- The lowest free contiguous range of `n` bytes of a bank of 8 KiB: its base in 16-byte units. -/
def State.freeRange (s : State) (c n : Nat) : Option Nat :=
  let rs := s.ranges c
  (sortNat (0 :: rs.map Prod.snd)).find? fun b => decide (b + n / 16 ≤ 512) && !(rs.any fun r => decide (b < r.2) && decide (r.1 < b + n / 16))

/-- The lowest free slot. A slot whose saved share still owns outstanding requests is not free (R317). -/
def State.freeSlot (s : State) (c : Nat) : Option Nat :=
  (List.range 4).find? fun k => (s.shares.get? (4 * c + k)).isNone
    && !(s.reqs.any fun r => decide (r.share = 4 * c + k)) && !(s.loans.any fun l => decide (l.c = c ∧ l.slot = k))

/-- R44: the slot and base that a cluster offers a share. -/
def State.offer (s : State) (c : Nat) (d : Demand) : Option (Nat × Nat) :=
  match s.freeSlot c, s.freeRange c d.q with
  | some k, some b =>
    if ((s.sharesOf c).map fun e => 16 * (e.2.bnda - e.2.base)).sum + d.reg ≤ 6144 then some (k, b) else none
  | _, _ => none

/-- A row takes new placements of a tenancy (R42). -/
def State.rowOpen (s : State) (t d y : Nat) : Bool :=
  (s.reg (offTrows t)).getLsbD (8 * d + y) && !(s.shares.any fun e => decide (e.1 / 256 = d ∧ e.1 / 32 % 8 = y ∧ e.2.ten ≠ t))

/-- The lowest row and then the lowest column at which every cluster makes an offer (R49): the first cluster and the offers. (DESIGN CHOICE, log 42) -/
def State.findPlace {α : Type} (s : State) (t d p : Nat) (ask : Nat → Nat → Option α) : Option (Nat × List α) :=
  (List.range 8).findSome? fun y =>
    if !s.rowOpen t d y then none else
    (List.range (9 - p)).findSome? fun x0 =>
      let c0 := 64 * d + 8 * y + x0
      let offers := (List.range p).filterMap fun i => ask (c0 + i) i
      if offers.length = p then some (c0, offers) else none

/-! ### Placing (R24, R45 to R47) -/

def escqClip (n : Nat) : Nat := min n 131072

/-- A household as it is placed; with a loan its registers lie in the lender's range (R316). -/
def newHousehold (x : Ctx) (ctx pid hid c0 base : Nat) (loan : Option (Nat × Nat × Nat)) : Household :=
  let d := demand x.lrec
  let bnda := if loan.isSome then base else base + d.reg / 16
  let len := if loan.isSome then d.q - d.reg else d.q
  ⟨ctx, x.ten, x.lrec.prio, pid, hid, c0, base, bnda, bnda + d.spd / 16, bnda + d.spd / 16 + d.loc / 16, base + len / 16,
    d.reg / d.g, none, loan, false, escqClip x.lrec.escq, 0, x.fails, Vector.replicate 8 MonSum.zero⟩

/-- A write that what stands there now does not come from. -/
def Applied.forget (e : Applied) : Applied := { e with loc := 0, old := [], new := [] }

/-- A share is placed: its slot's generation and counters start anew, its scratchpad is empty (R153, DESIGN CHOICE, log 17), and no read reaches what stood there before, and tiles without a holder lose what is known of their scales (R196). -/
def State.putShare (s : State) (c k : Nat) (h : Household) : State :=
  let sh := 4 * c + k
  let lo := spadLoc sh 0
  let inSpad (a : Nat) : Bool := decide (lo ≤ a) && decide (a < lo + 2 ^ 20)
  let s : State := { s with
    shares := s.shares.set sh h
    saved := s.saved.del sh
    sgen := s.sgen.upd sh 0 (· + 1)
    mem := s.mem.filter fun e => !inSpad e.1
    hist := s.hist.map fun e => if inSpad e.loc then e.forget else e
    full := s.full.filter fun g => !inSpad (16 * g) }
  let s := (List.range 4).foldl (fun (s : State) j => s.updQuarter (4 * c + j) fun q => { q with rr := (Vector.ofFn (fun (i : Fin 4) => if i.val = k then 0 else q.rr[i])) }) s
  (List.range 2).foldl (fun (s : State) t =>
    if (s.tile c t).holder.isSome then s
    else { s.bump with tiles := s.tiles.upd (tileKey c t) blankTile fun x => { x with serial := s.serial, scales := [], elems := none } }) s

/-- Initial fibre `f` of a household (R24, R47). -/
def initialFibre (x : Ctx) (c k f now : Nat) : Fibre :=
  let key : FKey := ⟨c, k, 32 * (f % 4) + f / 4 % 32, f / 128⟩
  let r : Vector Word 32 := Vector.ofFn fun i =>
    if i.val = 0 then x.lrec.args.extractLsb' 0 32 else if i.val = 1 then x.lrec.args.extractLsb' 32 32
    else if i.val = 2 then BitVec.ofNat 32 f else 0#32
  { newFibre key x.lrec.entry f (.resident (f / 128)) now with regs := r, cont := x.lrec.cont, view := x.view }

/-- Places parish `pid` of a context at the offers from cluster `c0` on. -/
def State.placeParish (s : State) (ctx pid c0 : Nat) (offers : List (Nat × Nat × Option (Nat × Nat × Nat))) : State :=
  let x := s.ctx ctx
  let s := s.updCtx ctx fun y => { y with unplaced := y.unplaced.filter fun p => p.1 ≠ pid }
  offers.zipIdx.foldl (fun (s : State) o =>
    let s := s.putShare (c0 + o.2) o.1.1 (newHousehold x ctx pid o.2 c0 o.1.2.1 o.1.2.2)
    { s with fibres := s.fibres ++ (List.range x.lrec.nfib).map fun f => initialFibre x (c0 + o.2) o.1.1 f s.now }) s

/-! ### Releasing (R52, R352) -/

/-- Ends a loan: the lender has its windows of `g` bytes again (R316). -/
def Household.unlend (h : Household) (g : Nat) : Household :=
  match h.lend with
  | some (_, n, _) => { h with lend := none, windows := h.windows + 16 * n / g }
  | none => h

/-- The lender in slot `l` of a cluster has its windows again. -/
def State.returnLoan (s : State) (c l : Nat) : State :=
  s.updShare (4 * c + l) fun h => h.unlend (4 * (s.ctx h.ctx).lrec.win)

/-- Loans that have not been taken up come to nothing. -/
def State.cancelLoans (s : State) (p : Loan → Bool) : State :=
  let s1 := (s.loans.filter p).foldl (fun (s : State) l => s.returnLoan l.c l.lender) s
  { s1 with loans := s.loans.filter fun l => !p l }

/-- What a tile holds is discarded, its scale memory too (R352). -/
def State.wipeTile (s : State) (c t : Nat) : State := s.bump.updTile c t fun x => { x with serial := s.bump.serial, scales := [], elems := none }

/-- Releases one share: its L1, tiles, loans, stubs, and the writes that have left its fibres' buffers. -/
def State.releaseShare (s : State) (sh : Nat) : State :=
  let c := sh / 4
  let k := sh % 4
  let s := match (s.share sh).borrowed with
    | some (l, _, _) => s.returnLoan c l
    | none => s
  let s := match s.loans.find? fun l => decide (l.c = c ∧ l.lender = k) with
    | some l => s.cancelLoans fun m => decide (m.order = l.order ∧ m.pid = l.pid)
    | none => s
  let s : State := { (s.l1Leave sh).bump with
    shares := s.shares.del sh
    fibres := s.fibres.filter fun f => f.key.share ≠ sh
    flocks := s.flocks.filter fun g => g.sh ≠ sh
    aq := (s.aq.map fun w => match w.src with
      | .fibre q => if q.share = sh then { w with src := .fibre { q with s := 32 + s.serial } } else w
      | _ => w)
    remains := s.remains.filter fun e => e.1 / 65536 ≠ sh }
  (List.range 2).foldl (fun (s : State) t => if (s.tile c t).holder = some k then (s.wipeTile c t).freeTile c t else s) s

def State.releaseShares (s : State) (l : List Nat) : State := l.foldl (fun s sh => s.releaseShare sh) s

/-- Shares of a context, or of one parish of it. -/
def State.ctxShares (s : State) (ctx : Nat) : List Nat := (s.shares.filter fun e => decide (e.2.ctx = ctx)).map Prod.fst
def State.parishShares (s : State) (ctx pid : Nat) : List Nat := (s.shares.filter fun e => decide (e.2.ctx = ctx ∧ e.2.pid = pid)).map Prod.fst

end Sys2Proof.Machine
end

