-- ==== Sys2Proof/Machine/Launch.lean ====
section
/-! DEFINITION. Launching, placing and retiring (R22, R23, R28 to R40, R48 to R50, R315, R316, R350 to R352): the events of the dispatcher and the distributors. -/

namespace Sys2Proof.Machine

/-! ### Launch records (R21 to R23) -/

def recField (r : List Byte) (off n : Nat) : Nat := leNat ((r.drop off).take n)

/-- The fields of a record (R21). -/
def launchRecOf (r : List Byte) : LaunchRec :=
  let f (off n : Nat) : Nat := recField r off n
  ⟨BitVec.ofNat 64 (f 0x00 8), BitVec.ofNat 64 (f 0x08 8), bits (f 0x10 4) 11 0 + 1, bits (f 0x10 4) 23 12 + 1, bits (f 0x10 4) 31 24 + 1,
    f 0x14 2, bits (f 0x16 1) 7 6, bits (f 0x16 1) 5 3 + 1, bits (f 0x16 1) 2 0 + 1, 4 * (bits (f 0x17 1) 2 0 + 1), f 0x18 4, f 0x1C 2,
    bits (f 0x1E 2) 2 0, BitVec.ofNat 64 (f 0x20 8), f 0x28 2, BitVec.ofNat 64 (f 0x30 8), BitVec.ofNat 64 (f 0x38 8),
    BitVec.ofNat 64 (f 0x40 8), BitVec.ofNat 64 (f 0x48 8), BitVec.ofNat 64 (f 0x50 8), BitVec.ofNat 64 (f 0x58 8), BitVec.ofNat 64 (f 0x60 8),
    f 0x68 4, bits (f 0x6C 4) 7 0, BitVec.ofNat 64 (f 0x70 8), BitVec.ofNat 32 (f 0x78 4)⟩

/-- Memory that the dispatcher may read: device memory of this package or host memory (R23 rule 6, R32). -/
def State.packageLoc? (s : State) (t va : Nat) : Option Nat :=
  match s.translate t va with
  | .ok l => if l.mode = 0 then some (l.pa + va % 2 ^ l.sizeBits) else none
  | .fail _ => none
  | .poison => none

/-- The descriptor image that a record preloads, none where it cannot be read (R23). -/
def State.preload (s : State) (l : LaunchRec) : Option (Tab (BitVec 512)) :=
  (List.range l.dcnt).foldl (fun (acc : Option (Tab (BitVec 512))) i =>
    match acc with
    | none => none
    | some t =>
      (List.range 64).foldl (fun (a : Option (List Byte)) j =>
        match a, s.packageLoc? l.ten (l.dtab.toNat + 64 * i + j) with
        | some bs, some loc => if s.poisoned loc 1 then none else some (bs ++ [s.mem.get loc])
        | _, _ => none) (some []) |>.map fun bs => t.set i (imgOf bs)) (some [])

/-- The first rule of R23 that a record breaks, none when it keeps all. -/
def State.recReason (s : State) (r : List Byte) : Option Nat :=
  let l := launchRecOf r
  let d := demand l
  let fibres := l.nfib * l.hh * l.parishes
  if !isPacketStart l.entry then some 1
  else if l.nfib < 32 ∨ 1024 < l.nfib ∨ 8 < l.hh then some 2
  else if bits (recField r 0x17 1) 7 3 ≠ 0 ∨ bits (recField r 0x1E 2) 15 3 ≠ 0 ∨ recField r 0x2A 6 ≠ 0 ∨ bits (recField r 0x6C 4) 31 8 ≠ 0
      ∨ l.vec = 255 ∨ recField r 0x7C 3 ≠ 0 ∨ l.spad % 4096 ≠ 0 then some 3
  else if 8192 < d.q ∨ 6144 < d.reg then some 4
  else if (s.reg (offTrows l.ten)).toNat % 2 ^ 32 = 0 then some 5
  else if 256 < l.dcnt ∨ (0 < l.dcnt ∧ l.dtab = 0#64) then some 6
  else match s.preload l with
  | none => some 6
  | some t =>
    if t.any fun e => dV e.2 && !descOk e.2 l.hh l.spad then some 6
    else if l.land.toNat % 4096 ≠ 0 ∨ l.lsize.toNat < (16 + d.g) * fibres then some 7
    else if l.dep0.toNat % 8 ≠ 0 ∨ l.dep1.toNat % 8 ≠ 0 ∨ l.done.toNat % 8 ≠ 0 then some 8
    else none

/-- Launches of a tenancy that are pending. -/
def State.pendingOfTen (s : State) (t : Nat) : Nat := (s.pending.filter fun p => decide (p.lrec.ten = t)).length

/-- The checks of R32: the first rule broken. The pending table holds 512 launches (R29). A walk that meets a poisoned table entry does not translate (DESIGN CHOICE, log 93). -/
def State.refusal (s : State) (slot : Nat) (r : List Byte) : Option Nat :=
  let l := launchRecOf r
  if !(s.reg (offSlots l.ten)).getLsbD slot then some 9
  else (s.recReason r).orElse fun _ =>
    if [l.dep0, l.dep1, l.done].any fun a => a ≠ 0#64 && (s.packageLoc? l.ten a.toNat).isNone then some 10
    else if bits (s.reg (offTcfg l.ten)).toNat 15 8 ≤ s.pendingOfTen l.ten ∨ 512 ≤ s.pending.length then some 11
    else none

/-- The tenancy that owns a slot, for reports of refused launches (R37). -/
def State.slotOwner (s : State) (slot : Nat) : Nat :=
  ((List.range 8).find? fun t => (s.reg (offSlots t)).getLsbD slot).getD 0

/-- A tenancy to which the slot belongs is being reset (R364). -/
def State.slotReset (s : State) (slot : Nat) : Bool := (List.range 8).any fun t => (s.reg (offSlots t)).getLsbD slot && (s.reg (offTrst t)).getLsbD 0

/-! ### Commit lines (R30, R31) -/

def slotAddr (s : State) (slot : Nat) : Nat := bits (s.reg offLwin).toNat 63 13 * 8192 + 128 * slot

def offCtxattr (k : Nat) : Nat := 0xD000 + 8 * k

/-- A page is in flip, or waits for the host's answer (R144, R145). -/
def State.inFlip (s : State) (loc : Nat) : Bool := isDram loc && ((s.page loc).flipping || (s.page loc).waitHost)

/-- Where the 64-byte lines of the descriptors that a record preloads stand (R23). -/
def State.preloadLines (s : State) (l : LaunchRec) : List Nat :=
  (List.range (64 * l.dcnt)).filterMap fun i =>
    let a := l.dtab.toNat + i
    if i = 0 ∨ a % 64 = 0 then s.packageLoc? l.ten a else none

/-- A commit line is re-read: COMMIT = 0x01 starts the steps of R22 and R32. The slot stays busy while a page of its descriptors is in flip (R145, R238). (DEDUCED, log 45) -/
def State.rereadLine (s : State) (slot : Nat) : State :=
  let s1 : State := { s with staleSlots := s.staleSlots.filter fun k => k ≠ slot }
  let a := slotAddr s slot
  if !(s.reg offLwin).getLsbD 0 || s.mem.get (a + 127) ≠ 1#8 then s1
  else
    let raw := s.mem.readBytes a 128
    let l := launchRecOf raw
    if !s.slotReset slot && (s.preloadLines l).any s.inFlip then s else
    let host := s.hostCommits.contains slot
    let attr := if host then s.reg (offCtxattr slot) else 0#64
    let s2 := s1.deviceWrite (a + 127) [0#8]
    let s2 : State := { s2 with staleSlots := s1.staleSlots }
    if s.slotReset slot then s2.report l.ten l.tag.toNat 4 0 slot 0 (if l.vec = 255 then 0 else l.vec)
    else match s.refusal slot raw with
    | some r => s2.report (s.slotOwner slot) l.tag.toNat 2 r slot 0 0
    | none =>
      let p : Pending := ⟨s2.serial, slot, attr, l, raw, (s.preload l).getD [], decide (l.dep0 = 0#64), decide (l.dep1 = 0#64), View.init⟩
      let s3 := ([l.dep0, l.dep1, l.done] ++ if l.dcnt = 0 then [] else [l.dtab, l.dtab + BitVec.ofNat 64 (64 * l.dcnt - 1)]).foldl (fun (s : State) a => if a = 0#64 then s else s.meetVa none l.ten a.toNat) s2
      let s3 := (s.preloadLines l).foldl (fun (s : State) a => s.snoopNow a 1) s3
      { s3.bump with pending := s3.pending ++ [{ p with order := s3.serial }] }

/-- COMMIT_LINE_INVALIDATE (R30, R31): invalidated lines are re-read in ascending slot order. -/
def execCommitLineInvalidate (slot : Nat) (s : State) : Out :=
  .next (if s.staleSlots.contains slot && s.staleSlots.all fun k => decide (slot ≤ k) then s.rereadLine slot else s)

/-- COMMIT_LINE_SWEEP (R30): lines that the host holds modified are drawn back. Their data arrive as HOST_WRITE events. -/
def execCommitLineSweep (s : State) : Out :=
  .next (if (s.reg offLwin).getLsbD 0 then s.emit .sweep else s)

/-- The page of the launch window leaves it: it keeps host bias until a walk or an invalidation flips it (R26). -/
def State.windowLeaves (s : State) (page : Nat) : State :=
  if s.inWindow (page * 65536) 65536 then s else { s with pages := s.pages.upd page PageAttr.init fun a => { a with hostBias := true } }

/-- The page of the launch window enters it: it is in host bias from now on (R26, R143), and a flip to host bias is over at once. -/
def State.windowEnters (s : State) (page : Nat) : State :=
  if s.hostBias (page * 65536) then s
  else
    let s := s.leavePage page
    if (s.pages.getD page PageAttr.init).flipping then { s with pages := s.pages.upd page PageAttr.init fun a => { a with hostBias := true, flipping := false } } else s

/-- A write of LWIN (R28). Setting EN from 0 to 1 re-reads every slot, as commits of device code. Where OFF moves while EN stays 1, the marks of the slots go with their numbers (DESIGN CHOICE, log 93). -/
def State.writeLwin (s : State) (v : DWord) : State :=
  let old := s.reg offLwin
  let pageOf (r : DWord) : Nat := bits r.toNat 63 13 * 8192 / 65536
  if old.getLsbD 1 then s
  else
    let s := if v.getLsbD 0 then s.windowEnters (pageOf v) else s
    let s := s.setReg offLwin (v &&& 0xFFFFFFFFFFFFE003#64)
    let s := if old.getLsbD 0 then s.windowLeaves (pageOf old) else s
    if !old.getLsbD 0 && v.getLsbD 0 then { s with staleSlots := List.range 64, hostCommits := [] } else s

/-- LWIN_ENABLE (R28). -/
def execLwinEnable (v : DWord) (s : State) : Out := .next (s.writeLwin v)

/-! ### Dependences (R34) -/

/-- The location and value of a dependence word by acquire read, with the view it brings; none where it cannot be read now. A word that no longer translates keeps its launch waiting, and a poisoned one is read as its bytes stand (DESIGN CHOICE, log 93). -/
def State.depRead (s : State) (t a : Nat) : Option (Nat × Nat × View) :=
  match s.packageLoc? t a with
  | some loc => if s.pageHeld loc then none else some (loc, s.mem.read loc 8, s.afterRead View.init true s.hist.length loc 8)
  | none => none

/-- A dependence of a launch is satisfied, and stays so. -/
def Pending.satisfy (p : Pending) (which : Bool) (w : View) : Pending :=
  if which then { p with sat1 := true, view := p.view.join w } else { p with sat0 := true, view := p.view.join w }

/-- Tests one dependence of a pending launch. -/
def State.testDep (s : State) (order : Nat) (which : Bool) : State :=
  match s.pending.find? fun p => decide (p.order = order) with
  | none => s
  | some p =>
    match s.depRead p.lrec.ten (if which then p.lrec.dep1 else p.lrec.dep0).toNat with
    | none => s
    | some (loc, v, w) =>
      let s := s.snoopNow loc 8
      if (if which then p.lrec.thr1 else p.lrec.thr0).toNat ≤ v then
        { s with pending := s.pending.map fun o => if o.order = order then o.satisfy which w else o }
      else s

/-- DEPENDENCE_SATISFIED (R34): a watched word has reached its threshold. -/
def execDependenceSatisfied (order : Nat) (which : Bool) (s : State) : Out := .next (s.testDep order which)

/-- DEPENDENCE_POLL (R34): a word without a bell is read again. -/
def execDependencePoll (order : Nat) (which : Bool) (s : State) : Out := .next (s.testDep order which)

/-! ### Placement (R35, R48, R49) -/

def Pending.eligible (p : Pending) : Bool := p.sat0 && p.sat1

/-- What is placed next for a tenancy (R35): priority and commit order, and the context when it runs already. -/
def State.headLaunch (s : State) (t : Nat) : Option (Nat × Nat × Option Nat) :=
  let rs := (s.ctxs.filter fun e => decide (e.2.st = 1 ∧ e.2.ten = t) && !e.2.unplaced.isEmpty).map fun e => (e.2.lrec.prio, e.2.order, some e.1)
  let ps := (s.pending.filter fun p => decide (p.lrec.ten = t) && p.eligible).map fun p => (p.lrec.prio, p.order, (none : Option Nat))
  (rs ++ ps).foldl (fun (b : Option (Nat × Nat × Option Nat)) x => match b with
    | none => some x
    | some y => if y.1 < x.1 ∨ (y.1 = x.1 ∧ x.2.1 < y.2.1) then some x else b) none

/-- The lowest free context number (R303). -/
def State.freeCtx (s : State) : Option Nat := (List.range 512).find? fun n => (s.ctxs.get? n).isNone

/-- The parishes of a pending launch, with the dies that own them (R48, R50). -/
def State.owners (s : State) (p : Pending) : List (Nat × Nat) :=
  (List.range p.lrec.parishes).map fun i => (i, ((s.stolen.find? fun x => decide (x.1 = p.order ∧ x.2.1 = i)).map fun x => x.2.2).getD (i % 4))

/-- The context that a pending launch becomes at its first placement (R303). A preloaded entry with V = 0 keeps the other fields of its image (R23) (DESIGN CHOICE, log 93). -/
def State.newCtx (s : State) (p : Pending) : Ctx :=
  let prot := p.attr.getLsbD 1
  let ks := bits p.attr.toNat 8 3
  { blankCtx with
    st := 1, ten := p.lrec.ten, priv := p.attr.getLsbD 0, prot := prot, keyslot := ks
    sctr := if prot then s.hwm.getD ks 0#64 else 0#64
    slot := p.slot, order := p.order, lrec := p.lrec, raw := p.raw
    desc := (p.desc.map fun e => (e.1, if dV e.2 then e.2 else dSetV e.2 false))
    rfq := s.reg (offRfqdef p.lrec.ten), view := p.view
    unplaced := s.owners p }

/-- The launch that a tenancy places now (R35): its record, its parishes not yet placed with the dies that own them, and its commit order. Nothing of a tenancy in reset is placed (R40, R364). -/
def State.current (s : State) (t : Nat) : Option (LaunchRec × List (Nat × Nat) × Nat) :=
  if (s.reg (offTrst t)).getLsbD 0 then none else
  match s.headLaunch t with
  | none => none
  | some (_, order, some n) => some ((s.ctx n).lrec, (s.ctx n).unplaced, order)
  | some (_, order, none) => (s.pending.find? fun p => decide (p.order = order)).map fun p => (p.lrec, s.owners p, order)

/-- The next parish of a list that a die owns: its lowest. -/
def nextParish (u : List (Nat × Nat)) (d : Nat) : Option Nat :=
  ((u.filter fun p => decide (p.2 = d)).map Prod.fst).foldl (fun (b : Option Nat) p => some (match b with
    | none => p
    | some q => min p q)) none

/-! #### Partial eviction (R315) -/

/-- The share of a cluster that lends registers to a launch of a tenancy and priority: its slot and how many windows. -/
def State.lender (s : State) (c t prio reg : Nat) : Option (Nat × Nat) :=
  (((s.sharesOf c).filter fun e =>
    let g := 4 * (s.ctx e.2.ctx).lrec.win
    decide (e.2.ten = t ∧ e.2.prio < prio) && e.2.lend.isNone && e.2.borrowed.isNone && decide ((reg + g - 1) / g + 1 ≤ e.2.windows)).foldl
      (fun (b : Option (Nat × Household)) e => match b with
        | none => some e
        | some x => if e.2.prio < x.2.prio ∨ (e.2.prio = x.2.prio ∧ e.1 < x.1) then some e else b) none).map fun e =>
    let g := 4 * (s.ctx e.2.ctx).lrec.win
    (e.1 % 4, (reg + g - 1) / g)

/-- What a cluster offers under R315: the slot, the base, the lender and its windows. -/
def State.offerLent (s : State) (c : Nat) (l : LaunchRec) : Option (Nat × Nat × Nat × Nat) :=
  let d := demand l
  match s.freeSlot c, s.freeRange c (d.q - d.reg), s.lender c l.ten l.prio d.reg with
  | some k, some b, some (v, m) => some (k, b, v, m)
  | _, _, _ => none

/-- The lenders give up their highest windows; the places are held until those are empty (R316). (DEDUCED, log 51) -/
def State.startLoans (s : State) (order pid : Nat) (l : LaunchRec) (c0 : Nat) (os : List (Nat × Nat × Nat × Nat)) : State :=
  let d := demand l
  os.zipIdx.foldl (fun (s : State) o =>
    let c := c0 + o.2
    let (k, b, v, m) := o.1
    let s := s.updShare (4 * c + v) fun h =>
      let n := m * 4 * (s.ctx h.ctx).lrec.win / 16
      { h with windows := h.windows - m, lend := some (k, n, h.bnda - n) }
    { s with loans := s.loans ++ [⟨order, pid, c, k, v, b, (d.q - d.reg) / 16⟩] }) s

/-- Fibres stand in windows that a share has lent. -/
def State.lentInUse (s : State) (sh : Nat) : List Fibre :=
  s.fibres.filter fun f => decide (f.key.share = sh) && (match f.res with
    | .resident w => decide ((s.share sh).windows ≤ w)
    | _ => false)

/-- The offers of a parish whose loans have all been given up. -/
def State.loanOffers (s : State) (order pid : Nat) : Option (Nat × List (Nat × Nat × Option (Nat × Nat × Nat))) :=
  let ls := s.loans.filter fun l => decide (l.order = order ∧ l.pid = pid)
  match ls with
  | [] => none
  | l :: _ =>
    if ls.all fun l => (s.lentInUse (4 * l.c + l.lender)).isEmpty then
      some (l.c, ls.map fun l => (l.slot, l.base, ((s.share (4 * l.c + l.lender)).lend.map fun x => (l.lender, x.2.1, x.2.2))))
    else none

/-- A distributor is dry for a launch, and could place a parish of it (R50). A place that partial eviction could make does not count (DESIGN CHOICE, log 93). -/
def State.thiefFor (s : State) (d : Nat) (l : LaunchRec) (u : List (Nat × Nat)) : Bool :=
  (nextParish u d).isNone && (s.findPlace l.ten d l.hh (fun c _ => s.offer c (demand l))).isSome

/-- Places one parish of a launch on a die: by an ordinary place, by loans that are ready, or by starting loans, where no other die could take the parish over (R35, R50). None when nothing can be done. -/
def State.placeOne (s : State) (d order pid : Nat) (l : LaunchRec) (u : List (Nat × Nat)) (start : State → State × Nat) : Option State :=
  if s.loans.any fun x => decide (x.order = order ∧ x.pid = pid) then
    (s.loanOffers order pid).map fun o =>
      let s1 : State := { s with loans := s.loans.filter fun x => !decide (x.order = order ∧ x.pid = pid) }
      let (s2, n) := start s1
      s2.placeParish n pid o.1 o.2
  else match s.findPlace l.ten d l.hh (fun c _ => s.offer c (demand l)) with
  | some (c0, os) =>
    let (s1, n) := start s
    some (s1.placeParish n pid c0 (os.map fun o => (o.1, o.2, none)))
  | none =>
    if l.prio < 2 || (List.range 4).any (fun e => s.thiefFor e l u) then none
    else (s.findPlace l.ten d l.hh (fun c _ => s.offerLent c l)).map fun o => s.startLoans order pid l o.1 o.2

/-- A pending launch becomes a context (R303, R343). -/
def State.startLaunch (s : State) (p : Pending) (n : Nat) : State × Nat :=
  ((({ s with
    ctxs := s.ctxs.set n (s.newCtx p)
    pending := s.pending.filter fun x => x.order ≠ p.order
    stolen := s.stolen.filter fun x => x.1 ≠ p.order } : State)).traceLaunch 5 p.lrec.tag.toNat n, n)

/-- Places the next parish of a tenancy on a die, where its launch has one there. -/
def State.placeFor (s : State) (d t : Nat) : Option State :=
  (s.current t).bind fun x => (nextParish x.2.1 d).bind fun pid =>
    match (s.headLaunch t).bind fun h => h.2.2 with
    | some n => s.placeOne d x.2.2 pid x.1 x.2.1 fun s => (s, n)
    | none =>
      match s.freeCtx, s.pending.find? fun p => decide (p.order = x.2.2) with
      | some n, some p => s.placeOne d x.2.2 pid x.1 x.2.1 fun s => s.startLaunch p n
      | _, _ => none

/-- PARISH_PLACEMENT (R48, R49): the first tenancy whose next parish can be placed on the die. After a version machine check nothing is placed (R365). (DESIGN CHOICE, log 52) -/
def State.parishPlacement (s : State) (d : Nat) : State :=
  if !s.frozen.isEmpty then s
  else ((List.range 8).findSome? fun t => s.placeFor d t).getD s

def execParishPlacement (die : Nat) (s : State) : Out := .next (s.parishPlacement die)

/-- FORCED_DEPARTURE (R316): a fibre in a lent window goes as a record of KIND 2 once nothing of it is pending. -/
def State.forcedDeparture (s : State) (k : FKey) : State :=
  match s.fibre? k with
  | none => s
  | some f =>
    if (s.lentInUse k.share).any (fun g => decide (g.key = k)) && s.idle k && !s.midChain k then (s.putAway f 2 true).getD s else s

def execForcedDeparture (k : FKey) (s : State) : Out := .next (s.forcedDeparture k)

/-! ### Stealing (R50) -/

/-- The die with the most unplaced parishes, the lowest on a tie. -/
def mostUnplaced (u : List (Nat × Nat)) : Option Nat :=
  ((List.range 4).foldl (fun (b : Nat × Option Nat) d =>
    let n := (u.filter fun p => decide (p.2 = d)).length
    if b.1 < n then (n, some d) else b) (0, none)).2

/-- The launch that a tenancy places now has a context number, or finds one free (R303). -/
def State.numbered (s : State) (t : Nat) : Bool := ((s.headLaunch t).bind fun h => h.2.2).isSome || s.freeCtx.isSome

/-- STEAL_REQUEST (R50): a dry distributor that could place a parish of a launch asks the die with the most of them; it looks at the lowest tenancy first (DESIGN CHOICE, log 93). After a version machine check nothing can be placed (R365). -/
def State.stealRequest (s : State) (d : Nat) : State :=
  if !s.frozen.isEmpty || s.steal.any fun p => decide (p.1 = d) then s else
  match (List.range 8).findSome? fun t => (s.current t).bind fun x =>
      if s.numbered t && s.thiefFor d x.1 x.2.1 then (mostUnplaced x.2.1).map fun v => (v, x.2.2) else none with
  | some (v, order) => { s with steal := (d, v, order) :: s.steal }
  | none => s

def execStealRequest (thief : Nat) (s : State) : Out := .next (s.stealRequest thief)

/-- The highest-numbered parish of a launch that die `v` may give away: none that it has begun to place by loans (DESIGN CHOICE, log 109). -/
def State.givenUp (s : State) (v order : Nat) (u : List (Nat × Nat)) : Option Nat :=
  ((u.filter fun p => decide (p.2 = v) && !(s.loans.any fun l => decide (l.order = order ∧ l.pid = p.1))).map Prod.fst).foldl
    (fun (b : Option Nat) p => some (max p (b.getD 0))) none

/-- A parish's new owner. -/
def passTo (d pid : Nat) (p : Nat × Nat) : Nat × Nat := if p.1 = pid then (pid, d) else p

/-- STEAL_ANSWER (R50): the victim's highest-numbered unplaced parish of the launch passes to the thief, or nothing does. -/
def State.stealAnswer (s : State) (d : Nat) : State :=
  match s.steal.find? fun p => decide (p.1 = d) with
  | none => s
  | some (_, v, order) =>
    let s1 : State := { s with steal := s.steal.filter fun p => p.1 ≠ d }
    match s.ctxs.find? fun e => decide (e.2.order = order ∧ e.2.st = 1), s.pending.find? fun p => decide (p.order = order) with
    | some (n, x), _ =>
      (match s.givenUp v order x.unplaced with
        | some pid => s1.updCtx n fun x => { x with unplaced := x.unplaced.map (passTo d pid) }
        | none => s1)
    | none, some p =>
      (match s.givenUp v order (s.owners p) with
        | some pid => { s1 with stolen := (order, pid, d) :: s1.stolen.filter fun x => !decide (x.1 = order ∧ x.2.1 = pid) }
        | none => s1)
    | none, none => s1

def execStealAnswer (thief : Nat) (s : State) : Out := .next (s.stealAnswer thief)

/-! ### Retiring (R350 to R352, R37) -/

/-- R350: the parish may retire. The shares of a context that halts are released once its stop records are written (R311). -/
def State.retireOk (s : State) (ctx pid : Nat) : Bool :=
  let shs := s.parishShares ctx pid
  !shs.isEmpty && decide ((s.ctx ctx).st ≠ 6)
  && shs.all (fun sh => (s.share sh).exited && (s.liveOf sh).isEmpty)
  && !(s.eops.any fun e => decide (e.ctx = ctx) && shs.contains e.key.share)
  && !(s.fibres.any fun f => shs.contains f.key.share && !f.wb.isEmpty)
  && !(s.reqs.any fun r => shs.contains r.key.share)

/-- PARISH_RETIRE (R350): every share of the parish is released in one step. -/
def State.parishRetire (s : State) (ctx pid : Nat) : State :=
  if s.retireOk ctx pid then
    (s.releaseShares (s.parishShares ctx pid)).updCtx ctx fun x => { x with retired := x.retired + 1 }
  else s

def execParishRetire (ctx pid : Nat) (s : State) : Out := .next (s.parishRetire ctx pid)

/-- Protected pages that only context `c` still walks lose their mark (R146, R352). -/
def State.unprotect (s : State) (c : Nat) : State :=
  let others := (s.ctxs.filter fun e => decide (e.1 ≠ c) && e.2.prot).flatMap fun e => e.2.walked
  if !(s.ctx c).prot then s else
  let pages := (s.ctx c).walked.flatMap fun w => (List.range w.2).map fun i => w.1 + i
  { s with pages := pages.foldl (fun t p =>
      if others.any fun w => decide (w.1 ≤ p ∧ p < w.1 + w.2) then t else t.upd p PageAttr.init fun a => { a with prot := false }) s.pages }

/-- The launch is over: what it held is released, its report is made and its context number is free (R352). (DEDUCED, log 44) -/
def State.endLaunch (s : State) (c status donev : Nat) : State :=
  let x := s.ctx c
  let s : State := { s.unprotect c with monitors := s.monitors.filter fun m => !decide (m.2.ctx = c ∧ m.2.order = x.order) }
  let s := s.report x.ten x.lrec.tag.toNat status 0 x.slot donev x.lrec.vec
  ({ s with ctxs := s.ctxs.del c }).traceLaunch 6 x.lrec.tag.toNat status

/-- Elements of a context that are in carts or not acknowledged. -/
def State.inFlight (s : State) (c : Nat) : Bool :=
  s.carts.any (fun e => decide (e.2.ctx = c)) || s.unacked.any fun k => k.es.any fun e => decide (e.ctx = c)

/-- LAUNCH_COMPLETION (R351, R37): carts are drained, acknowledgements awaited, then DONE rises by release (R230) and the launch is reported. DONE rises whatever RO and PR of its leaf are (DESIGN CHOICE, log 110). Entries of its remote-fault queue that a flip holds are written before (R281, R351). -/
def State.launchCompletion (s : State) (c : Nat) : State :=
  match s.ctxs.get? c with
  | none => s
  | some x =>
    if x.st = 6 ∨ !x.unplaced.isEmpty ∨ x.retired ≠ x.lrec.parishes then s else
    let s := s.departCarts fun _ y => decide (y.ctx = c)
    if s.inFlight c || s.rfqWait.any (fun e => e.1 = c) || s.aq.any (fun w => x.doneView.wids.contains w.wid) then s else
    if x.lrec.done = 0#64 then s.endLaunch c 1 0 else
    match s.packageLoc? x.ten x.lrec.done.toNat with
    | none => s.endLaunch c 1 0
    | some loc =>
      if s.pageHeld loc then s else
      let s := s.meetVa (some c) x.ten x.lrec.done.toNat
      let v := (s.mem.read loc 8 + 1) % 2 ^ 64
      (s.bump.applyBytes s.serial loc (leBytes 8 v) (some x.doneView)).endLaunch c 1 v

def execLaunchCompletion (ctx : Nat) (s : State) : Out := .next (s.launchCompletion ctx)

end Sys2Proof.Machine
end

