-- ==== Sys2Proof/Machine/Halt.lean ====
section
/-! DEFINITION. The halt of a context (R180, R287, R310 to R314): CONTEXT_HALT, the stop records, and HALT_COMPLETE. -/

namespace Sys2Proof.Machine

/-- CONTEXT_HALT (R311): the halt line of a running or saving context is asserted. -/
def execContextHalt (ctx : Nat) (i : HaltInfo) (s : State) : Out :=
  .next (if decide ((s.ctx ctx).st = 1 ∨ (s.ctx ctx).st = 2 ∨ (s.ctx ctx).st = 6) then s.halt ctx i else s)

/-! ### Stop records (R312, R313) -/

def offStopq (t : Nat) : Nat := 0xD800 + 0x10 * t
def offStopix (t : Nat) : Nat := 0xD808 + 0x10 * t

/-- The unit that writes a stop record: UNIT, DIE, CLU, SUB. -/
structure StopUnit where
  unit : Nat
  die : Nat
  clu : Nat
  sub : Nat
  deriving DecidableEq, Repr

/-- Writes one stop record of context `c`, or drops it. `orig` is given by the unit that raised the halt. -/
def State.stopRecord (s : State) (c : Nat) (u : StopUnit) (i : HaltInfo) (orig : Option (Nat × Nat)) (c0 c1 c2 c3 : Nat) : State :=
  let x := s.ctx c
  let seq := s.stopSeq.getD u.die 0 + 1
  let s : State := { s with stopSeq := s.stopSeq.set u.die seq }
  let q := (s.reg (offStopq x.ten)).toNat
  let ix := (s.reg (offStopix x.ten)).toNat
  let n := 2 ^ ringLgn (bits q 11 8)
  let tail := bits ix 31 16
  let nxt := (tail + 1) % n
  if bits q 0 0 = 0 ∨ nxt = bits ix 15 0 then s.setReg (offStopix x.ten) (BitVec.ofNat 64 (ix % 2 ^ 63 + 2 ^ 63))
  else
    let s := s.deviceWrite (hostLoc (bits q 63 12 * 4096 + 64 * tail))
      (leBytes 1 u.unit ++ leBytes 1 u.die ++ leBytes 1 u.clu ++ leBytes 1 u.sub ++ leBytes 2 (c + 512 * x.ten) ++ leBytes 1 i.cls ++ leBytes 1 i.cause
        ++ leBytes 4 x.lrec.tag.toNat ++ leBytes 4 seq ++ leBytes 8 ((orig.map Prod.fst).getD 0) ++ leBytes 4 ((orig.map Prod.snd).getD 0)
        ++ leBytes 1 (if orig.isSome then 1 else 0) ++ leBytes 3 0 ++ leBytes 8 c0 ++ leBytes 8 c1 ++ leBytes 8 c2 ++ leBytes 8 c3)
    s.setReg (offStopix x.ten) (BitVec.ofNat 64 (bits ix 63 63 * 2 ^ 63 + nxt * 2 ^ 16 + bits ix 15 0))

/-- The unit that raised a halt (R313). -/
def stopUnitOf (i : HaltInfo) : Option StopUnit :=
  i.ffib.map fun k =>
    if i.unit = 2 then ⟨2, k.die, k.c, 0⟩ else if i.unit = 3 then ⟨3, k.die, k.c, 0⟩ else ⟨1, k.die, k.c, k.l / 32⟩

/-- FIP and FFIB of a halt. (DEDUCED, log 80) -/
def State.origin (s : State) (i : HaltInfo) : Nat × Nat :=
  (i.fip.toNat, (i.ffib.map fun k => ffib k (((s.fibre? k).map fun f => f.fid).getD (((s.eops.find? fun e => decide (e.key = k)).map fun e => e.fid).getD 0))).getD 0)

/-! ### Escort records at a halt (R180) -/

/-- The place of R168 that holds an escort record: the cluster escort buffer, with the quarter that counts it; the crossbars and links; a home slice; a channel's controller; the store of a fabric interface. -/
inductive Place where
  | cluster (q : Nat)
  | transit
  | slice (sl : Nat)
  | controller (die ch : Nat)
  | fabric (d : Nat)
  deriving DecidableEq, Repr

/-- The place of a request that is not held back: a cluster keeps what it serves itself, LDF waits too, and a slice forwards the reads of lines that it does not hold. -/
def State.wantsPlace (s : State) (r : Req) : Place :=
  match r.dest with
  | .peer .. => if r.offPackage then .fabric (r.share / 256) else .cluster r.key.quarter
  | .home loc =>
    let own : Place := .cluster r.key.quarter
    if isSpad loc then own else
    let hit := (match r.kind with
      | .load n _ => s.l1Hit r.key.share loc n
      | .atom .. | .rwl .. => decide (s.ownerOf (loc / 256) = some r.key.share)
      | _ => false)
    if hit then own
    else if isDram loc && !r.bell && (s.lines.get? (loc / 256)).isNone then .controller (homeDie loc) (channelOf loc)
    else .slice (s.homeSlice loc)

/-- Bytes of a place, where it has a limit that other places' requests can meet (R168). -/
def Place.capacity : Place → Option Nat
  | .slice _ => some 262144
  | .controller .. => some 65536
  | .cluster _ | .transit | .fabric _ => none

/-- Bytes of records that stand in a place before the request's own, in the order of the requests. -/
def State.ahead (s : State) (p : Place) (r : Req) : Nat :=
  ((s.reqs.filter fun o => o.granted && decide (o.id < r.id) && decide (s.wantsPlace o = p)).map fun o => o.charge).sum

/-- The place that holds a request. A full slice or controller queue holds it in the place before: a slice's in the crossbars. A record whose answer is on its way home is in transit too. -/
def State.placeOf (s : State) (r : Req) : Place :=
  let full (p : Place) : Bool := match p.capacity with
    | some n => decide (n < s.ahead p r + r.charge)
    | none => false
  let at_ (sl : Nat) : Place := if full (.slice sl) then .transit else .slice sl
  match r.dest, s.wantsPlace r with
  | _, .cluster q => .cluster q
  | .home loc, .controller d ch =>
    if r.ans.isSome || r.fail.isSome then .transit else if full (.controller d ch) then at_ (s.homeSlice loc) else .controller d ch
  | _, .slice sl => if r.ans.isSome || r.fail.isSome then .transit else at_ sl
  | _, p => if r.ans.isSome || r.fail.isSome then .transit else p

/-- Where a halt finds the record of a request: one in transit comes to the place toward which it travels (R180). -/
def State.haltPlace (s : State) (r : Req) : Place :=
  match s.placeOf r, s.wantsPlace r, r.dest with
  | .transit, .slice sl, _ => if r.ans.isSome || r.fail.isSome then .cluster r.key.quarter else .slice sl
  | .transit, .controller .., .home loc => if r.ans.isSome || r.fail.isSome then .cluster r.key.quarter else .slice (s.homeSlice loc)
  | .transit, _, _ => .cluster r.key.quarter
  | p, _, _ => p

/-- The fibres of a context, those of a switched-out one too. -/
def State.fibresOf (s : State) (c : Nat) : List Fibre := (s.fibres.filter fun f => decide (s.ctxOf f.key = c)) ++ (s.ctx c).away.map fun a => a.f

/-- The outstanding requests of a context. -/
def State.reqsOf (s : State) (c : Nat) : List Req :=
  s.reqs.filter fun r => decide (s.ctxOf r.key = c) || (s.ctx c).away.any fun a => decide (a.f.key = r.key)

/-- Its record stands in a fibre's own entry: one that departed or returns, or a granted JOIN. -/
def Fibre.ownRecord (f : Fibre) : Bool :=
  f.rcd.isSome && (match f.res with
    | .abroad | .returning | .resident _ => true
    | .lodged _ | .landed _ | .stubOnly | .ended => false)

/-- Every escort record of a context and where it lodges: those of granted requests, of JOINs, and of fibres that wait to return. (DEDUCED, log 49) -/
def State.escortsOf (s : State) (c : Nat) : List (Place × FKey × EscRec) :=
  let fs := s.fibresOf c
  ((s.reqsOf c).filter fun r => r.granted).filterMap (fun r =>
    match fs.find? fun f => decide (f.key = r.key) && f.ownRecord && decide (f.res = .abroad) with
    | some f => f.rcd.map fun e => (s.haltPlace r, r.key, { e with kind := 4 })
    | none => r.esc.map fun e =>
        (s.haltPlace r, r.key, (⟨e.1, maskRegs e.1 e.2, 4, r.dst, r.dw, 0, (s.cycOf r.key.die).extractLsb' 0 32, r.tag.getD 0, r.charge, r.unitAddr⟩ : EscRec)))
  ++ (fs.filter fun f => f.ownRecord && !(decide (f.res = .abroad) && (s.reqsOf c).any fun r => r.granted && decide (r.key = f.key))).filterMap
    fun f => f.rcd.map fun e => (.cluster f.key.quarter, f.key, { e with kind := 4 })

/-- Writes records to the landing area: the state, how many were written and how many dropped. One that cannot be written adds the fault of its own (R175, R311). -/
def State.landAll (s : State) (l : List (Place × FKey × EscRec)) : State × Nat × Nat :=
  l.foldl (fun (acc : State × Nat × Nat) e =>
    match acc.1.landRecord e.2.1 e.2.2 with
    | .ok (some (s1, _)) => (s1, acc.2.1 + 1, acc.2.2)
    | .ok none => (acc.1, acc.2.1, acc.2.2 + 1)
    | .error () => (acc.1.fatal e.2.1 0x19 0#64, acc.2.1, acc.2.2 + 1)) (s, 0, 0)

/-! ### What each unit reports -/

/-- The fibres of a context in one quarter. -/
def fibresIn (fs : List Fibre) (q : Nat) : List Fibre := fs.filter fun f => decide (f.key.quarter = q)

def isResident (f : Fibre) : Bool := match f.res with
  | .resident _ => true
  | _ => false

/-- A stop record and its origin mark, where the first halt was this unit's. -/
def State.report1 (s : State) (c : Nat) (h : HaltInfo) (u : StopUnit) (c0 c1 c2 c3 : Nat) : State :=
  s.stopRecord c u h (if stopUnitOf h = some u then some (s.origin h) else none) c0 c1 c2 c3

def State.stopQuarter (s : State) (c : Nat) (h : HaltInfo) (fs : List Fibre) (es : List (Place × FKey × EscRec)) (q : Nat) : State :=
  let own := fibresIn fs q
  let (s, w, d) := s.landAll (es.filter fun e => decide (e.1 = .cluster q))
  s.report1 c h ⟨1, q / 256, q / 4, q % 4⟩ (own.filter isResident).length ((own.map fun f => f.wb.length).sum) w d

/-- An engine has begun the operation, which the halt stops midway. -/
def EngineOp.started (e : EngineOp) : Bool := e.began || decide (0 < e.step) || e.rows.isSome || e.landed

/-- Matrix and copy engines of a cluster (R313): what has not started is discarded, and of what has, the K-blocks that an MMA or TMM has applied and the lines that a copy has written are counted. -/
def State.stopEngines (s : State) (c : Nat) (h : HaltInfo) (cl : Nat) : State :=
  let os := s.eops.filter fun e => decide (e.ctx = c ∧ e.key.c = cl)
  let ms := os.filter fun e => decide (e.kind = EKind.mzero ∨ e.kind = EKind.mscl ∨ e.kind = EKind.mma ∨ e.kind = EKind.mdrn ∨ e.kind = EKind.tmm)
  let cs := os.filter fun e => decide (e.kind = EKind.cpy)
  let run := ms.find? EngineOp.started
  let s := if ms.isEmpty && stopUnitOf h ≠ some ⟨2, cl / 64, cl, 0⟩ then s else
    s.report1 c h ⟨2, cl / 64, cl, 0⟩ (ms.filter fun e => !e.started).length ((run.map fun e => e.step).getD 0) ((run.map fun e => e.unitAddr.toNat).getD 0) 0
  let half := cs.find? EngineOp.started
  if cs.isEmpty && stopUnitOf h ≠ some ⟨3, cl / 64, cl, 0⟩ then s else
    s.report1 c h ⟨3, cl / 64, cl, 0⟩ (cs.filter fun e => !e.started).length ((half.map fun e => e.lined.length).getD 0) ((half.map fun e => e.unitAddr.toNat).getD 0) 0

/-- The carts of a context on a die are discarded, with entries of code 10 (R287). -/
def State.stopCarts (s : State) (c : Nat) (h : HaltInfo) (d : Nat) : State :=
  let cs := (s.carts.filter fun e => decide (e.1 / 256 = d ∧ e.2.ctx = c))
  if cs.isEmpty then s else
  let widx (s : State) : Nat := match s.rfqLoc? c 8 with
    | some l => s.mem.read l 8
    | none => 0
  let w0 := widx s
  let accs := cs.flatMap fun e => (accesses e.2.elems).map fun a => (a, e.2.peer, e.2.group)
  let tries := (accs.map fun a => (failEntries a.1 10 a.2.1 a.2.2).length).sum
  let s1 := accs.foldl (fun (s : State) a => s.failAccess a.1 10 a.2.1 a.2.2) { s with carts := s.carts.filter fun e => !decide (e.1 / 256 = d ∧ e.2.ctx = c) }
  s1.report1 c h ⟨4, d, 0xFF, 0⟩ cs.length ((cs.map fun e => e.2.elems.length).sum) (tries - (widx s1 + 2 ^ 64 - w0) % 2 ^ 64 - (s1.rfqWait.length - s.rfqWait.length)) 0

/-- The fabric interface of a die abandons the context's fences and its K(c, d) (R287). The entries of its requests at peers stay open (R180). -/
def State.stopFabric (s : State) (c : Nat) (h : HaltInfo) (fences late : List Nat) (fs : List Fibre) (es : List (Place × FKey × EscRec)) (d : Nat) : State :=
  let fen := (fences.filter fun x => decide (x = d)).length
    + (((fs.filter fun f => decide (f.key.die = d)).map fun f => (f.wb.filter fun w => w.rel).length).sum)
    + ((s.reqsOf c).filter fun r => decide (r.share / 256 = d) && r.rel).length
  let lr := (late.filter fun x => decide (x = d)).length
  let opens := (s.reqsOf c).filter fun r => decide (r.share / 256 = d) && r.offPackage && r.sent && r.ans.isNone && r.fail.isNone
  let ks := ((s.unacked.filter fun k => decide (k.die = d)).map fun k => (k.es.filter fun e => decide (e.ctx = c)).length).sum
  let mine := es.filter fun e => decide (e.1 = .fabric d)
  let (s, _, dr) := s.landAll mine
  let s : State := { s with unacked := (s.unacked.map fun k => if k.die = d then { k with es := k.es.filter fun e => decide (e.ctx ≠ c) } else k).filter fun k => !k.es.isEmpty }
  if fen = 0 ∧ ks = 0 ∧ lr = 0 ∧ mine.isEmpty ∧ opens.isEmpty then s else
  let ix := offStopix (s.ctx c).ten
  let t := s.report1 c h ⟨5, d, 0xFF, 0⟩ fen ks lr dr
  let n := bits (s.reg ix).toNat 31 16
  let ring := if bits (t.reg ix).toNat 31 16 = n then none else some ((s.ctx c).ten, n)
  { t with openTags := t.openTags ++ opens.filterMap fun r => match r.dest with
    | .peer _ q _ _ v => some ⟨r.id, r.share / 4, r.tag.getD 0, ring, q, bits v 11 8⟩
    | .home _ => none }

/-- A home slice or a controller writes its records; a slice frees its bells. -/
def State.stopQueue (s : State) (c : Nat) (h : HaltInfo) (es : List (Place × FKey × EscRec)) (p : Place) : State :=
  let bells := ((s.reqsOf c).filter fun r => r.bell && decide (s.haltPlace r = p)).length
  let (s, w, dr) := s.landAll (es.filter fun e => decide (e.1 = p))
  match p with
  | .slice sl => s.report1 c h ⟨6, sl / 64, 0xFF, sl % 64⟩ w dr bells 0
  | .controller d ch => s.report1 c h ⟨7, d, 0xFF, ch⟩ w dr bells 0
  | .cluster _ | .transit | .fabric _ => s

/-- The slices and controllers that hold requests of a context, slices first, each kind in ascending order. -/
def State.queuesOf (s : State) (c : Nat) : List Place :=
  let ps := (s.reqsOf c).map fun r => s.haltPlace r
  (sortNat (ps.filterMap fun p => match p with
    | .slice sl => some sl
    | .cluster _ | .transit | .controller .. | .fabric _ => none).eraseDups).map Place.slice
  ++ (sortNat (ps.filterMap fun p => match p with
    | .controller d ch => some (128 * d + ch)
    | .cluster _ | .transit | .slice _ | .fabric _ => none).eraseDups).map fun n => Place.controller (n / 128) (n % 128)

/-- What the fibres and requests of a context are charged goes back to its quarters (R166). -/
def State.releaseCharges (s : State) (c : Nat) : State :=
  let s1 := ((s.fibresOf c).filter fun f => f.ownRecord).foldl (fun (s : State) f => s.releaseCharge f.key ((f.rcd.map fun e => e.charge).getD 0)) s
  ((s.reqsOf c).filter fun r => !(s.fibresOf c).any fun f => decide (f.key = r.key ∧ f.res = .abroad)).foldl (fun (s : State) r => s.releaseCharge r.key r.charge) s1

/-- A save or a restore that a halted context had under way gives its target up: the one runs on, the other is as it was. (DEDUCED, log 50) -/
def State.dropSaves (s : State) (c : Nat) : State :=
  (s.eops.filter fun e => decide (e.ctx = c)).foldl (fun (s : State) e => match e.kind with
    | .save => if e.step = 1 then s.updCtx e.arg fun x => if x.st = 2 then { x with st := 1 } else x else s
    | .rest => if e.step = 0 then s else
        (if e.step = 2 then s.releaseShares e.descNos else s).updCtx e.arg fun x => if x.st = 4 then { x with st := if e.free then 5 else 3 } else x
    | _ => s) s

/-- HALT_COMPLETE (R311): every unit writes its stop record, once no page of a landing area that takes records is in flip (R238); then the shares are released and the launch ends with STATUS 0x03. -/
def State.haltComplete (s : State) (c : Nat) : State :=
  match (s.ctx c).halting with
  | none => s
  | some hs =>
    match hs.infos with
    | [] => s
    | h :: more =>
      if s.landHeld c && !(s.escortsOf c).isEmpty then s else
      let s := (s.eops.filter fun e => decide (e.ctx = c) && e.ended).foldl (fun (s : State) e => s.completeOp e.id) s
      let fs := s.fibresOf c
      let es := s.escortsOf c
      let rs := s.reqsOf c
      let queues := s.queuesOf c
      let qs := sortNat ((fs.map fun f => f.key.quarter) ++ (match stopUnitOf h with
        | some u => if u.unit = 1 then [4 * u.clu + u.sub] else []
        | none => [])).eraseDups
      let cls := ((s.eops.filter fun e => decide (e.ctx = c)).map fun e => e.key.c) ++ (match stopUnitOf h with
        | some u => if u.unit = 2 ∨ u.unit = 3 then [u.clu] else []
        | none => [])
      let s := qs.foldl (fun (s : State) q => s.stopQuarter c h fs es q) s
      let s := (sortNat cls.eraseDups).foldl (fun (s : State) q => s.stopEngines c h q) s
      let s := (List.range 4).foldl (fun (s : State) d => s.stopCarts c h d) s
      let s := (List.range 4).foldl (fun (s : State) d => s.stopFabric c h hs.fences hs.late fs es d) s
      let s := queues.foldl (fun (s : State) p => s.stopQueue c h es p) s
      let more := more ++ (((s.ctx c).halting.map fun x => x.infos.drop hs.infos.length).getD [])
      let s := more.foldl (fun (s : State) i => match stopUnitOf i with
        | some u => s.stopRecord c u i (some (s.origin i)) 0 0 0 0
        | none => s) s
      let s := ((s.dropSaves c).cancelLoans fun l => decide (l.order = (s.ctx c).order)).releaseCharges c
      let s : State := { s with
        eops := s.eops.filter fun e => e.ctx ≠ c
        saved := s.saved.filter fun e => e.2.ctx ≠ c
        reqs := s.reqs.filter fun r => !rs.any fun g => decide (g.id = r.id) }
      (s.releaseShares (s.ctxShares c)).endLaunch c 3 0

def execHaltComplete (ctx : Nat) (s : State) : Out := .next (s.haltComplete ctx)

end Sys2Proof.Machine
end

