-- ==== Sys2Proof/Machine/Images.lean ====
section
/-! DEFINITION. Save images (R77, R194, R318, R319): writing a context out, and reading one back. -/

namespace Sys2Proof.Machine

/-! ### Writing -/

/-- The stub of R77. -/
def stubImage (f : Fibre) : Nat :=
  f.ip.toNat / 4 * 2 ^ 66 + f.esc.toNat * 2 ^ 34 + predBits f.preds * 2 ^ 22 + f.key.l * 2 ^ 15 + f.fs.toNat % 2 ^ 15
/-- The kin word of R77. -/
def kinWord (f : Fibre) : Nat := f.nch % 32 * 2048 + (if f.pv then 1024 else 0) + f.par % 32 * 32

/-- RES of R319. -/
def resCode (f : Fibre) : Nat :=
  match f.res with
  | .resident _ => 1
  | .lodged _ => 2
  | .landed _ => 3
  | .abroad | .returning | .stubOnly | .ended => 0

/-- A fibre's part of a household section, with windows of `win` registers. -/
def State.fibreImage (s : State) (f : Fibre) (win : Nat) : List Byte :=
  let words := (match f.res with
    | .resident _ => f.regs
    | .lodged _ => s.recordWords f
    | _ => Vector.replicate 32 0#32)
  leBytes 16 (stubImage f) ++ leBytes 2 (kinWord f) ++ leBytes 2 f.fid ++ leBytes 4 0 ++ leBytes 8 f.cont.toNat ++ leBytes 8 f.fault.toNat
  ++ leBytes 1 (resCode f) ++ leBytes 1 f.key.s ++ leBytes 6 0 ++ (words.toList.take win).flatMap fun w => leBytes 4 w.toNat

/-- The TMM state of a tile (R215, R319). -/
def tmmImage (op : Option EngineOp) : List Byte :=
  match op with
  | none => leBytes 256 0
  | some e =>
    imgBytes (e.descs.getD 0 0#512) ++ imgBytes (e.descs.getD 1 0#512) ++ imgBytes (e.descs.getD 2 0#512)
    ++ leBytes 4 e.parm.toNat ++ leBytes 2 e.step ++ leBytes 1 1 ++ leBytes 1 0 ++ leBytes 8 e.va ++ leBytes 48 0

/-- The unfinished TMM of a tile. -/
def State.tmmOf (s : State) (c t : Nat) : Option EngineOp :=
  s.eops.find? fun e => decide (e.kind = EKind.tmm ∧ e.key.c = c ∧ e.tile = t) && !e.ended

def State.tileImage (s : State) (c t : Nat) : List Byte :=
  let x := s.tile c t
  (List.range 16384).flatMap (fun i => leBytes 16 (elemImage (x.elem i) x.ebOf x.inxOf))
  ++ (List.range 16384).map (fun i => BitVec.ofNat 8 (x.scale (i / 8192) (i / 64 % 128) (i % 64)))
  ++ tmmImage (s.tmmOf c t)

/-- The tiles that a share holds. -/
def State.heldTiles (s : State) (sh : Nat) : List Nat := (List.range 2).filter fun t => decide ((s.tile (sh / 4) t).holder = some (sh % 4))

def partialImage (x : MonSum) : List Byte := leBytes 16 ((x.a % 2 ^ 96).toNat + flagBits x * 2 ^ 96)

/-- Full/empty bits of a scratchpad of `spad` bytes. -/
def State.fullImage (s : State) (sh spad : Nat) : List Byte :=
  (List.range ((spad + 2047) / 2048 * 16)).map fun i =>
    BitVec.ofNat 8 ((List.range 8).foldl (fun a b => if s.full.contains (spadLoc sh (16 * (8 * i + b)) / 16) then a + 2 ^ b else a) 0)

/-- A household section (R319). -/
def State.section (s : State) (sh : Nat) : List Byte :=
  let h := s.share sh
  let l := (s.ctx h.ctx).lrec
  let fs := sortBy (fun a b => decide (a.fid ≤ b.fid)) (s.liveOf sh)
  let ts := s.heldTiles sh
  leBytes 4 h.pid ++ leBytes 1 h.hid ++ leBytes 1 ((if ts.contains 0 then 1 else 0) + if ts.contains 1 then 2 else 0) ++ leBytes 2 fs.length ++ leBytes 56 0
  ++ h.partials.toList.flatMap partialImage
  ++ fs.flatMap (fun f => s.fibreImage f l.win)
  ++ s.mem.readBytes (spadLoc sh 0) l.spad ++ s.fullImage sh l.spad
  ++ ts.flatMap fun t => s.tileImage (sh / 4) t

/-- The monitor part: slot image and readout of each slot that the context has bound. -/
def State.monPart (s : State) (c : Nat) : List Byte :=
  (List.range 8).flatMap fun i => match s.monitors.get? i with
    | none => leBytes 128 0
    | some m =>
      if m.ctx = c ∧ m.order = (s.ctx c).order then
        imgBytes m.image ++ leBytes 12 (m.total.a % 2 ^ 96).toNat ++ leBytes 4 (flagBits m.total + (if m.breached then 16 else 0) + m.hidx * 256)
        ++ leBytes 8 m.checks ++ leBytes 8 m.breaches ++ leBytes 16 0 ++ leBytes 2 (monCtl m.image) ++ leBytes 14 0
      else leBytes 128 0

/-- The shares of a context in the order of its image: ascending parish, then household. -/
def State.imageShares (s : State) (c : Nat) : List Nat :=
  (sortBy (fun a b => decide (a.2.pid < b.2.pid) || (decide (a.2.pid = b.2.pid) && decide (a.2.hid ≤ b.2.hid))) (s.shares.filter fun e => decide (e.2.ctx = c))).map Prod.fst

/-- The image from offset 0x80 on, in the clear. -/
def State.imageBody (s : State) (c : Nat) : List Byte :=
  let x := s.ctx c
  (x.raw ++ leBytes 128 0).take 128 ++ (List.range 256).flatMap (fun i => imgBytes (s.descOf c i)) ++ s.monPart c
  ++ (s.imageShares c).flatMap fun sh => s.section sh

def imageCtx (c ten : Nat) : Nat := c + 512 * ten

/-- Bytes 0x00 to 0x2F of an image. (DEDUCED, log 47) -/
def imageHead (c : Nat) (x : Ctx) (size : Nat) : List Byte :=
  leBytes 4 1 ++ leBytes 2 (imageCtx c x.ten) ++ leBytes 1 (if x.prot then 1 else 0) ++ leBytes 1 x.keyslot ++ leBytes 8 x.sctr.toNat ++ leBytes 8 size
  ++ leBytes 12 (imageCtx c x.ten * 2 ^ 84 + x.sctr.toNat) ++ leBytes 12 0

/-! ### Reading -/

/-- A household section as an image gives it: parish, household, tiles, fibre count and offset. -/
structure Sect where
  pid : Nat
  hid : Nat
  tiles : Nat
  nf : Nat
  off : Nat
  deriving DecidableEq, Repr

def sectTiles (t : Nat) : List Nat := (List.range 2).filter fun i => t.testBit i
def fibreSize (win : Nat) : Nat := 48 + 4 * win
def fullSize (spad : Nat) : Nat := (spad + 2047) / 2048 * 16
def tileSize : Nat := 278784

def Sect.fibres (x : Sect) : Nat := x.off + 192
def Sect.spad (x : Sect) (win : Nat) : Nat := x.fibres + x.nf * fibreSize win
def Sect.full (x : Sect) (win spad : Nat) : Nat := x.spad win + spad
def Sect.tile (x : Sect) (win spad i : Nat) : Nat := x.full win spad + fullSize spad + i * tileSize
def Sect.size (x : Sect) (win spad : Nat) : Nat := x.tile win spad (sectTiles x.tiles).length - x.off

/-- The sections of an image of `size` bytes from `off` on; none when they do not end there. -/
def parseSects (b : List Byte) (win spad size : Nat) : Nat → Nat → Option (List Sect)
  | 0, _ => none
  | n + 1, off =>
    if off = size then some []
    else if size < off + 192 then none
    else
      let x : Sect := ⟨recField b off 4, recField b (off + 4) 1, recField b (off + 5) 1, recField b (off + 6) 2, off⟩
      if 3 < x.tiles ∨ recField b (off + 8) 56 ≠ 0 then none
      else (parseSects b win spad size n (off + x.size win spad)).map fun l => x :: l

/-- The sections are whole parishes in ascending order, and no element image has a reserved bit (R194). (DEDUCED, log 48) -/
def sectsOk (b : List Byte) (l : LaunchRec) (xs : List Sect) : Bool :=
  decide (xs.length % l.hh = 0)
  && xs.zipIdx.all (fun p => decide (p.1.hid = p.2 % l.hh) && decide (p.1.pid < l.parishes)
      && (match xs[p.2 - 1]? with
          | some y => p.2 == 0 || (if p.2 % l.hh = 0 then decide (y.pid < p.1.pid) else decide (y.pid = p.1.pid))
          | none => true)
      && (List.range (sectTiles p.1.tiles).length).all fun i =>
          (List.range 16384).all fun e => decide (bits (recField b (p.1.tile l.win l.spad i + 16 * e) 16) 111 99 = 0))

/-- A tile as an image gives it (R194): EB and INX come from element (0, 0). -/
def tileFrom (b : List Byte) (off : Nat) (t : Tile) : Tile :=
  let e (i : Nat) : Nat := recField b (off + 16 * i) 16
  { t with
    elems := some ((List.range 16384).map fun i => elemOf (e i % 2 ^ 98))
    eb := signedOf 16 (bits (e 0) 127 112), inx := (e 0).testBit 98
    scales := (List.range 16384).map fun i => (scaleKey (i / 8192) (i / 64 % 128) (i % 64), b.getD (off + 262144 + i) 0#8) }

/-- A partial as an image gives it. -/
def partialFrom (v : Nat) : MonSum := ⟨signedOf 96 v, v.testBit 96, v.testBit 97, v.testBit 98, v.testBit 99⟩

/-- A fibre from its part of an image, over what the device has kept of it (R308). -/
def fibreFrom (b : List Byte) (off c k : Nat) (win now : Nat) (kept : Option Fibre) : Fibre :=
  let v := recField b off 16
  let kin := recField b (off + 16) 2
  let key : FKey := ⟨c, k, bits v 21 15, recField b (off + 41) 1 % 32⟩
  let f := kept.getD (newFibre key 0#64 0 .abroad now)
  { f with
    key := key, ip := BitVec.ofNat 64 (bits v 127 66 * 4), esc := BitVec.ofNat 32 (bits v 65 34), preds := predsOf (bits v 33 22)
    fs := BitVec.ofNat 32 (bits v 14 0), cont := BitVec.ofNat 64 (recField b (off + 24) 8), fault := BitVec.ofNat 64 (recField b (off + 32) 8)
    nch := bits kin 15 11, pv := kin.testBit 10, par := bits kin 9 5, fid := recField b (off + 18) 2 % 4096
    regs := (Vector.ofFn fun i => if i.val < win then BitVec.ofNat 32 (recField b (off + 48 + 4 * i.val) 4) else 0#32)
    since := now, lastIssue := now, readyFrom := none }

end Sys2Proof.Machine
end

