-- ==== Sys2Proof/Machine/ContextUnits.lean ====
section
/-! DEFINITION. The context instructions (R176, R181, R317 to R322): SAVE, REST, KEYLD, EVICT, MOVP, MOVPW; invalidations (R124, R128); and replies for contexts that have been switched out. -/

namespace Sys2Proof.Machine

/-! ### Invalidations (R124, R128) -/

/-- The range that a value of XINV names. -/
def xinvRange (v : Nat) : Nat × Nat :=
  let a := bits v 63 16 * 65536
  match bits v 2 1 with
  | 0 => (a, a + 65536)
  | 1 => (a / 2 ^ 21 * 2 ^ 21, a / 2 ^ 21 * 2 ^ 21 + 2 ^ 21)
  | 2 => (a / 2 ^ 30 * 2 ^ 30, a / 2 ^ 30 * 2 ^ 30 + 2 ^ 30)
  | _ => (0, 2 ^ 52)

/-- The device pages that local leaves of a range map, with the bias each leaf asks for. -/
def State.leafPages (s : State) (t lo hi : Nat) : List (Nat × Bool) :=
  (s.leaves t lo hi).flatMap fun p =>
    if p.2.mode ≠ 0 ∨ !isDram p.2.pa then [] else
    let a := max lo p.1
    let b := min hi (p.1 + 2 ^ p.2.sizeBits)
    (List.range ((b - a) / 65536)).map fun i => ((p.2.pa + (a - p.1)) / 65536 + i, p.2.hb)

/-- An invalidation meets the leaves of its range and starts the flips that they ask for (R145). -/
def State.startFlips (s : State) (t lo hi : Nat) : State :=
  (s.leafPages t lo hi).foldl (fun (s : State) p => s.askBias p.1 p.2) s

/-- A write of XINV: GO starts an invalidation. A write while GO is 1 is ignored. -/
def State.writeXinv (s : State) (t : Nat) (v : DWord) : State :=
  if (s.reg (offXinv t)).getLsbD 0 then s
  else
    let s := s.setReg (offXinv t) (v &&& 0xFFFFFFFFFFFF0007#64)
    if !v.getLsbD 0 then s else s.startFlips t (xinvRange v.toNat).1 (xinvRange v.toNat).2

/-- A request has been performed, as R128 asks: it has its answer, or it is a wait that has read its word. One to a scratchpad was never translated. -/
def Req.done (r : Req) : Bool :=
  r.ans.isSome || r.fail.isSome || (match r.kind, r.dest with
    | .waitc .., _ | .twait _, _ => decide (r.waitFrom ≠ 0)
    | _, .home l => isSpad l
    | _, .peer .. => false)

/-- R128: every access translated before an invalidation of a range has been performed, the completion objects of running operations too, and every flip it met is over. -/
def State.invalidated (s : State) (t : Nat) (r : Nat × Nat) : Bool :=
  let mine (k : FKey) : Bool := decide (s.tenOf k = t)
  let own (c : Nat) : Bool := decide ((s.ctx c).ten = t)
  let inside (a : Nat) : Bool := decide (r.1 ≤ a ∧ a < r.2)
  let elems (es : List SentElem) : Bool := es.any fun e => own e.ctx && inside e.elem.va.toNat
  !((s.leafPages t r.1 r.2).any fun p => (s.pages.getD p.1 PageAttr.init).flipping)
  && !(s.reqs.any fun q => mine q.key && !q.done && q.vas.any inside)
  && !(s.fibres.any fun f => mine f.key && f.wb.any fun w => inside w.pva)
  && !(s.carts.any fun e => elems e.2.elems) && !(s.unacked.any fun u => elems u.es)
  && !(s.eops.any fun e => own e.ctx && (s.bulkOut e.id || decide (e.bulk = some true)) && !e.landed && !e.ended)
  && !(s.eops.any fun e => own e.ctx && e.obj.isSome && inside e.va && decide (e.kind = .cpy ∨ e.kind = .tmm) && decide ((s.ctx e.ctx).st ≠ 3))
  && !(s.aq.any fun w => match w.src with
      | .fibre k => mine k
      | .engine i => (s.eop? i).any fun e => own e.ctx
      | .host => false
      | .chan _ _ => false)

/-- A tenancy's L1s write back what may leave, and then hold no line: the model drops more than the range (R128) (DESIGN CHOICE, log 91). -/
def State.tenantL1s (s : State) (t : Nat) (f : State → Nat → State) : State :=
  ((s.shares.filter fun e => decide (e.2.ten = t)).map Prod.fst).foldl f s

/-- An invalidation waits for what its tenancy's L1s write back and its carts hold (R128). -/
def State.drainTenancy (s : State) (t : Nat) : State :=
  (s.tenantL1s t State.writeBack).departCarts fun _ c => decide ((s.ctx c.ctx).ten = t)

/-- The cached entries of a range are dropped, and with them the L1s' lines and the counts of cached mode-11 leaves (R128, R129). -/
def State.dropEntries (s : State) (t : Nat) (r : Nat × Nat) : State :=
  let gone := (s.leaves t r.1 r.2).map fun p => p.2.entry
  let s := s.tenantL1s t State.l1Leave
  { s with leafCnt := s.leafCnt.filter fun e => !gone.contains (e.1 % 2 ^ 52) }

/-- INVALIDATION_COMPLETE (R128): GO clears, and fibres that wait for it in MOVPW go on. -/
def State.invalidationComplete (s : State) (t : Nat) : State :=
  if !(s.reg (offXinv t)).getLsbD 0 then s else
  let s := s.drainTenancy t
  let r := xinvRange (s.reg (offXinv t)).toNat
  if !s.invalidated t r then s else
  let s := (s.setReg (offXinv t) (s.reg (offXinv t) &&& ~~~1#64)).dropEntries t r
  { s with fibres := s.fibres.map fun f => if s.tenOf f.key = t then f.unwait (fun w => decide (w = .xinv)) else f }

/-! ### MOVP, MOVPW (R322) -/

/-- The value of a privileged special register to a fibre. -/
def State.privReg (s : State) (k : FKey) (r : PrivReg) : DWord :=
  let c := s.ctxOf k
  let x := s.ctx c
  match r with
  | .ctxid => BitVec.ofNat 64 (imageCtx c x.ten)
  | .ctxattr => BitVec.ofNat 64 ((if x.priv then 1 else 0) + (if x.prot then 2 else 0) + x.keyslot * 4)
  | .sctr => x.sctr
  | .xinv => s.reg (offXinv x.ten)
  | .rfq => x.rfq

def privWide : PrivReg → Bool
  | .ctxid | .ctxattr => false
  | .sctr | .xinv | .rfq => true

/-- MOVP (R322). -/
def execMovp (h : Hdr) (d : RegNo) (r : PrivReg) (s : State) : Out :=
  .next (privUnit h (fun _ f s => s.updFibre f.key fun g =>
    if privWide r then g.setPair d (s.privReg f.key r) else g.setReg d ((s.privReg f.key r).extractLsb' 0 32)) s)

/-- MOVPW (R322): one to %xinv completes only when the invalidation has. (DEDUCED, log 41) -/
def execMovpw (h : Hdr) (d : RegNo) (r : WPrivReg) (s : State) : Out :=
  .next (privUnit h (fun c f s =>
    match r with
    | .rfq => s.updCtx (s.ctxOf f.key) fun x => { x with rfq := f.pair d &&& 0xFFFFFFFFFFFFFF01#64 }
    | .xinv =>
      let t := s.tenOf f.key
      let s := s.writeXinv t (f.pair d)
      if (s.reg (offXinv t)).getLsbD 0 then
        s.updFibre f.key fun g => g.await c.seq c.uaddr .xinv
      else s) s)

/-! ### SAVE (R317, R321) -/

/-- A target that R321 allows: a context of the issuer's tenancy, other than the issuer. -/
def State.target? (s : State) (op : EngineOp) : Option Ctx :=
  match s.ctxs.get? op.arg with
  | some x => if x.ten = (s.ctx op.ctx).ten ∧ op.arg ≠ op.ctx then some x else none
  | none => none

/-- Every page of a region is writable mode-00 device memory. -/
def State.regionOk (s : State) (k : FKey) (n : Nat) : Nat → Nat → Bool
  | 0, va => decide (n ≤ va)
  | fuel + 1, va =>
    decide (n ≤ va) ||
    match s.translate (s.tenOf k) va with
    | .ok l => decide (l.mode = 0) && !l.ro && isDram (l.pa + va % 2 ^ l.sizeBits) && (!l.pr || (s.ctx (s.ctxOf k)).prot)
        && s.regionOk k n fuel ((va / 2 ^ l.sizeBits + 1) * 2 ^ l.sizeBits)
    | .fail _ => false
    | .poison => false

def State.keyOf (s : State) (slot : Nat) : Option (List Byte) := (s.keys.getD slot ⟨none, 0⟩).key

/-- Operations of a saved context that stay with the device: a stopped TMM, a copy whose follow-on has not issued, and units that wait for a tile. -/
def EngineOp.stays (e : EngineOp) : Bool :=
  match e.kind with
  | .tmm => !e.ended
  | .cpy => e.landed && e.free && e.partner.isNone && !e.ended
  | .mzero => e.accepted.isNone
  | .mscl => e.accepted.isNone
  | _ => false

/-- Step 1 of R317 has ended. A frame that is being read at a peer is waited for (DESIGN CHOICE, log 94). -/
def State.quiet (s : State) (c : Nat) : Bool :=
  !(s.fibres.any fun f => decide (s.ctxOf f.key = c) && !f.wb.isEmpty)
  && !(s.eops.any fun e => decide (e.ctx = c) && !e.stays)
  && !(s.reqs.any fun r => decide (r.kind = .frame ∧ s.ctxOf r.key = c))

/-- Step 1 of R317: the target stops issuing, and its writes and carts leave. -/
def State.quiesce (s : State) (c : Nat) : State :=
  let s : State := { s.updCtx c (fun x => { x with st := 2 }) with flocks := s.flocks.filter fun g => !decide ((s.share g.sh).ctx = c) }
  let s := (s.fibres.filter fun f => decide (s.ctxOf f.key = c)).foldl (fun (s : State) f => s.drain f.key) s
  s.departCarts fun _ y => decide (y.ctx = c)

/-- The escorts of a context that are not decided yet are, before its image is taken: those of requests that ordering still holds in their clusters too (R163) (DESIGN CHOICE, log 98). -/
def State.decideAll (s : State) (c : Nat) : State :=
  (sortBy (fun (a b : Req) => decide (a.key.l ≤ b.key.l)) (s.reqs.filter fun r => decide (s.ctxOf r.key = c) && r.asks && !r.decided)).foldl
    (fun (s : State) r => s.decideOne r) s

/-- Steps 2 to 4 of R317 once the image stands in memory: the device keeps the fibres' records and releases the shares. -/
def State.switchOut (s : State) (c : Nat) : State :=
  let shs := s.ctxShares c
  let away := (s.fibres.filter fun f => decide (s.ctxOf f.key = c)).map fun f => (⟨f, (s.share f.key.share).pid, (s.share f.key.share).hid, none⟩ : Away)
  let hs := shs.map fun sh => (sh, s.share sh)
  let s := s.updCtx c fun x => { x with st := 3, away := away, kept := hs }
  let s : State := { s with
    saved := hs.foldl (fun t e => t.set e.1 { e.2 with lend := none, borrowed := none }) s.saved
    eops := (s.eops.map fun e => if e.ctx = c then { e with accepted := none, bulk := none, rows := none } else e) }
  s.releaseShares shs

/-- The image is written: the header with its tag last, the rest before it (R320). -/
def State.writeImage (s : State) (op : EngineOp) (x : Ctx) (head body : List Byte) : State × View × Option (Nat × Piece) :=
  let key := (s.keyOf x.keyslot).getD []
  let iv := (head.drop 0x18).take 12
  let text := if x.prot then gcmStream key iv body else body
  let tag := if x.prot then gcmTag key iv head text else List.replicate 16 0#8
  match s.threadWriteAll op op.view false op.va (head ++ leBytes 80 0 ++ text) [] with
  | (s1, v1, some p, _) => (s1, v1, some p)
  | (s1, v1, none, _) =>
    match s1.threadWriteAll op v1 false (op.va + 0x30) tag [] with
    | (s2, v2, p, _) => (s2, v2, p.map fun x => (0x30 + x.1, x.2))

/-- SAVE after its first checks: it waits for step 1, then takes steps 2 to 4, once every write of the image can be applied. -/
def State.saveOn (s : State) (op : EngineOp) : Option State :=
  let v := op.view
  match s.target? op with
  | none => some (s.reportEnd op v 1)
  | some x =>
    if x.st ≠ 2 then some (s.reportEnd op v 1)
    else if !s.quiet op.arg then none
    else
      let s := s.decideAll op.arg
      let body := s.imageBody op.arg
      let size := 0x80 + body.length
      if 4096 * op.lines < size then some ((s.updCtx op.arg fun y => { y with st := 1 }).reportEnd op v 4)
      else
        let x := { x with sctr := x.sctr + 1#64, rstd := false }
        let s := s.updCtx op.arg fun y => { y with sctr := x.sctr, rstd := false }
        let s : State := if x.prot && decide ((s.hwm.getD x.keyslot 0#64).toNat < x.sctr.toNat) then { s with hwm := s.hwm.set x.keyslot x.sctr } else s
        match s.writeImage op x (imageHead op.arg x size) body with
        | (s1, v1, some (o, p)) => (s1.updCtx op.arg fun y => { y with st := 1 }).unitPiece op v1 (op.va + o) p
        | (s1, v1, none) => if s1.threadApplied op.id then some ((s1.switchOut op.arg).reportEnd op v1 0) else none

def saveFin : Finish := fun s op _ =>
  let v := op.view
  if op.step = 1 then s.saveOn op
  else match s.target? op with
  | none => some (s.reportEnd op v 1)
  | some x =>
    if x.st ≠ 1 then some (s.reportEnd op v 1)
    else if !s.regionOk op.key (op.va + 4096 * op.lines) (op.lines / 16 + 2) op.va then some (s.reportEnd op v 3)
    else if x.prot && (s.keyOf x.keyslot).isNone then some (s.reportEnd op v 5)
    else
      let s1 := (s.quiesce op.arg).updEop op.id fun e => { e with step := 1 }
      some ((s1.saveOn { op with step := 1 }).getD s1)

/-- SAVE (R321). -/
def execSave (h : Hdr) (d a b : RegNo) (s : State) : Out :=
  .next (privUnit h (fun c f s =>
    let v := (f.pair a).toNat
    let n := (f.reg b).toNat
    if v % 4096 ≠ 0 then s.fatal f.key 0x29 c.uaddr
    else match s.access f.key v 1 false with
    | .ok _ _ =>
      if 512 ≤ n then s.fatal f.key 0x2A c.uaddr
      else
        let s := s.walkVa f.key v
        s.waitUnit { newOp s c f .save with va := v, arg := n, lines := (f.regI b 1).toNat, dst := d }
    | x => s.accessFault c f.key [] v x) s)

/-! ### REST (R321) -/

/-- The header fields that must be as R318 has them for the target. -/
def headOk (b : List Byte) (c : Nat) (x : Ctx) : Bool :=
  let size := recField b 0x10 8
  decide (recField b 0 4 = 1) && decide (recField b 4 2 = imageCtx c x.ten) && decide (recField b 6 1 = if x.prot then 1 else 0)
  && decide (recField b 7 1 = x.keyslot) && decide (bits (recField b 0x18 12) 83 64 = 0) && decide (recField b 0x24 12 = 0)
  && decide (recField b 0x40 64 = 0) && (x.prot || decide (recField b 0x30 16 = 0)) && decide (0x4500 ≤ size) && decide (size % 16 = 0)

/-- Places the parishes of an image, tiles included: the state with its shares, and the shares in the order of the sections. -/
def State.placeImage (s : State) (c : Nat) (x : Ctx) (xs : List Sect) : Option (State × List Nat) :=
  (List.range (xs.length / x.lrec.hh)).foldl (fun (acc : Option (State × List Nat)) i =>
    acc.bind fun a =>
      let ss := (xs.drop (i * x.lrec.hh)).take x.lrec.hh
      let pid := (ss.head?.map fun y => y.pid).getD 0
      let dies := (pid % 4) :: (List.range 4).filter fun d => d ≠ pid % 4
      let ask (cl j : Nat) : Option (Nat × Nat) :=
        if (sectTiles ((ss[j]?.map fun y => y.tiles).getD 0)).all fun t => (a.1.tile cl t).holder.isNone then a.1.offer cl (demand x.lrec) else none
      (dies.findSome? fun d => a.1.findPlace x.ten d x.lrec.hh ask).map fun p =>
        (p.2.zip ss).zipIdx.foldl (fun (b : State × List Nat) o =>
          let cl := p.1 + o.2
          let k := o.1.1.1
          let s1 := b.1.putShare cl k (newHousehold x c pid o.2 p.1 o.1.1.2 none)
          ((sectTiles o.1.2.tiles).foldl (fun (s : State) t => s.takeTile ⟨cl, k, 0, 0⟩ t) s1, b.2 ++ [4 * cl + k])) a) (some (s, []))

/-- What a late reply has brought for a fibre whose window was in the image comes into its window, and the landing entry is free (R172, R181). -/
def State.takeLate (s : State) (c : Nat) (k : FKey) (i : Nat) : State :=
  match s.landRead c i 0 (16 + s.gOf k) with
  | none => s
  | some bs =>
    let s := s.updFibre k fun g => (match g.res with
      | .resident _ => { g with regs := entryWords bs g.regs }
      | .lodged _ | .landed _ | .abroad | .returning | .stubOnly | .ended => g.withRecord fun e => { e with vals := entryWords bs e.vals })
    (s.landSnoop c i (16 + s.gOf k)).landOrFault k c i 4 (leBytes 4 0)

/-- Puts a restored fibre where its image shows it: resident fibres take windows and lodged ones lodge windows in the order of the image; others are where the device kept them. -/
def State.putBack (s : State) (f : Fibre) (res : Nat) : State :=
  let m := windowMask (s.winOf f.key)
  let e : EscRec := { (f.rcd.getD ⟨m, f.regs, 2, 0#5, 0, 0, 0#32, 0, 0, s.awayUnit f⟩) with mask := m, vals := maskRegs m f.regs }
  let add (g : Fibre) : State := { s with fibres := s.fibres ++ [g] }
  let gone : Vector Word 32 := Vector.replicate 32 0#32
  if res = 1 then
    match s.freeWindow? f.key with
    | some w => add { f with res := .resident w, rcd := if f.join?.isSome then f.rcd else none, retFrom := none }
    | none => add { f with res := .returning, retFrom := some s.serial, rcd := some e, regs := gone }
  else if res = 2 then
    match s.freeLodge? f.key with
    | some w => add { f with res := .lodged w, rcd := some e, regs := gone }
    | none => add { f with res := .returning, retFrom := some s.serial, rcd := some e, regs := gone }
  else
    add { f with regs := gone, retFrom := (match f.parkedAt with
      | some p => if s.hotPeer f.key.die p then f.retFrom else some s.serial
      | none => f.retFrom) }

/-- A key of a share that has moved: lane and stub stay (R321). -/
def movedKey (ms : List (Nat × Nat)) (k : FKey) : FKey :=
  match ms.find? fun m => decide (m.1 = k.share) with
  | some m => { k with c := m.2 / 4, k := m.2 % 4 }
  | none => k

def Req.moved (ms : List (Nat × Nat)) (r : Req) : Req := { r with key := movedKey ms r.key, also := r.also.map fun m => (movedKey ms m.1, m.2) }
def EngineOp.moved (ms : List (Nat × Nat)) (c : Nat) (e : EngineOp) : EngineOp := if e.ctx = c then { e with key := movedKey ms e.key } else e

/-- Requests and operations that stayed with the device follow their fibres to the new shares; `ms` names old and new ones. -/
def State.moveShares (s : State) (c : Nat) (ms : List (Nat × Nat)) : State :=
  let mine (r : Req) : Bool := (s.ctx c).away.any fun a => decide (a.f.key = r.key) || r.serves a.f.key
  { s with
    reqs := s.reqs.map fun r => if mine r then r.moved ms else r
    eops := s.eops.map (EngineOp.moved ms c) }

/-- What a restored fibre is charged goes from its old quarter to its new one and to its household (R166). -/
def State.moveCharge (s : State) (old : FKey) (f : Fibre) : State :=
  let rcd := if f.ownRecord then (f.rcd.map fun e => e.charge).getD 0 else 0
  let n := rcd + (if f.res = .abroad then 0 else ((s.reqs.filter fun r => decide (r.key = f.key)).map fun r => r.charge).sum)
  let s := s.updQuarter old.quarter fun q => { q with charge := q.charge - n }
  (s.updQuarter f.key.quarter fun q => { q with charge := q.charge + n }).updShare f.key.share fun h => { h with charge := h.charge + n }

/-- Restores one household into share `sh`. -/
def State.restoreHousehold (s : State) (sh : Nat) (b : List Byte) (x : Ctx) (y : Sect) : State :=
  let win := x.lrec.win
  let spad := x.lrec.spad
  let kept := (x.kept.find? fun e => decide (e.2.pid = y.pid ∧ e.2.hid = y.hid)).map Prod.snd
  let s := s.updShare sh fun h => { h with
    exited := decide (y.nf = 0), escq := (kept.map fun e => e.escq).getD h.escq, rfSeen := (kept.map fun e => e.rfSeen).getD h.rfSeen
    partials := (Vector.ofFn fun i => partialFrom (recField b (y.off + 64 + 16 * i.val) 16)) }
  let s : State := { s with
    mem := s.mem.writeBytes (spadLoc sh 0) ((b.drop (y.spad win)).take spad)
    full := s.full ++ ((List.range (spad / 16)).filter fun g => (b.getD (y.full win spad + g / 8) 0#8).getLsbD (g % 8)).map fun g => spadLoc sh (16 * g) / 16 }
  let s := (sectTiles y.tiles).zipIdx.foldl (fun (s : State) t => s.updTile (sh / 4) t.1 (tileFrom b (y.tile win spad t.2))) s
  (List.range y.nf).foldl (fun (s : State) i =>
    let off := y.fibres + i * fibreSize win
    let new := fibreFrom b off (sh / 4) (sh % 4) win s.now none
    let w := x.away.find? fun a => decide (a.pid = y.pid ∧ a.hid = y.hid ∧ a.f.key.l = new.key.l ∧ a.f.key.s = new.key.s)
    let old := w.map fun a => a.f
    let s := s.bump.putBack (fibreFrom b off (sh / 4) (sh % 4) win s.now old) (recField b (off + 40) 1)
    let s := match w.bind fun a => a.late with
      | some (i, _) => s.takeLate (s.ctxOf new.key) new.key i
      | none => s
    match old, s.fibre? new.key with
    | some o, some g => s.moveCharge o.key g
    | _, _ => s) s

/-- A TMM that an image carries goes on (R215): the device's own operation with the image's state, or a new one. -/
def State.restoreTmm (s : State) (c sh : Nat) (b : List Byte) (x : Ctx) (y : Sect) (t i : Nat) : State :=
  let o := y.tile x.lrec.win x.lrec.spad i + 278528
  let cl := sh / 4
  if recField b (o + 0xC6) 1 % 2 = 0 then
    { s with eops := s.eops.filter fun e => !decide (e.kind = EKind.tmm ∧ e.ctx = c ∧ e.key.share = sh ∧ e.tile = t) }
  else
    let parm : BitVec 17 := BitVec.ofNat 17 (recField b (o + 0xC0) 4)
    let va := recField b (o + 0xC8) 8
    let img (j : Nat) : BitVec 512 := BitVec.ofNat 512 (recField b (o + 64 * j) 64)
    let set (e : EngineOp) : EngineOp := { e with
      descs := [img 0, img 1, img 2, s.descOf c (tmmSd parm + 1)], parm := parm, step := recField b (o + 0xC4) 2, va := va, accepted := none, rows := none
      obj := if cpyCe parm then s.packageLoc? x.ten va else none }
    match s.eops.find? fun e => decide (e.kind = EKind.tmm ∧ e.ctx = c ∧ e.key.share = sh ∧ e.tile = t) with
    | some e => s.updEop e.id set
    | none =>
      let k : FKey := ⟨cl, sh % 4, 0, 0⟩
      let f := newFibre k 0#64 0 .abroad s.now
      { s.bump with eops := s.eops ++ [set { newOp s ⟨0, 0#64, 0#64, 0#64, [], [], s.serial⟩ f .tmm with ctx := c, tile := t }] }

/-- The slot images and last checks of the monitor slots that the context still has bound (R293). -/
def State.restoreMonitors (s : State) (c : Nat) (b : List Byte) (order : Nat) : State :=
  (List.range 8).foldl (fun (s : State) i =>
    match s.monitors.get? i with
    | none => s
    | some m =>
      if m.ctx ≠ c ∨ m.order ≠ order then s else
      let o := 0x4100 + 128 * i
      let fl := recField b (o + 64 + 12) 4
      { s with monitors := s.monitors.set i { m with
          image := BitVec.ofNat 512 (recField b o 64)
          total := ⟨signedOf 96 (recField b (o + 64) 12), fl.testBit 0, fl.testBit 1, fl.testBit 2, fl.testBit 3⟩
          breached := fl.testBit 4, hidx := bits fl 10 8, checks := recField b (o + 64 + 16) 8, breaches := recField b (o + 64 + 24) 8 } }) s

/-- The end of a REST whose checks have all passed. -/
def State.restore (s : State) (c : Nat) (b : List Byte) (x : Ctx) (xs : List Sect) (shs : List Nat) : State :=
  let ms := (xs.zip shs).filterMap fun p => (x.kept.find? fun e => decide (e.2.pid = p.1.pid ∧ e.2.hid = p.1.hid)).map fun e => (e.1, p.2)
  let s := (s.moveShares c ms).updCtx c fun y => { y with
    st := 1, rstd := true, away := [], kept := []
    desc := (List.range 256).map fun i => (i, BitVec.ofNat 512 (recField b (0x100 + 64 * i) 64)) }
  let s := (xs.zip shs).foldl (fun (s : State) p => s.restoreHousehold p.2 b x p.1) s
  let s := (xs.zip shs).foldl (fun (s : State) p => (sectTiles p.1.tiles).zipIdx.foldl (fun (s : State) t => s.restoreTmm c p.2 b x p.1 t.1 t.2) s) s
  let s := s.restoreMonitors c b x.order
  let s : State := { s with saved := s.saved.filter fun e => e.2.ctx ≠ c }
  shs.foldl (fun (s : State) sh => (s.grantTile (sh / 4) 0).grantTile (sh / 4) 1) s

/-- The target of a REST is as it was before: saved, or poisoned where `free` says so. -/
def State.restOver (s : State) (op : EngineOp) : State := s.updCtx op.arg fun y => { y with st := if op.free then 5 else 3 }

/-- The image of a protected context is not genuine: the target is poisoned, and the issuer takes INTEGRITY (R321). -/
def State.restForged (s : State) (op : EngineOp) (v : View) (ctr : Nat) : State :=
  (s.updCtx op.arg fun y => { y with st := 5 }).unitFault op v 8 0 op.va (ctr % 2 ^ 32)

/-- The whole image in the clear, as a pass of decryption gives it; none where its tag fails. -/
def State.openImage (s : State) (x : Ctx) (hd body : List Byte) : Option (List Byte) :=
  let key := (s.keyOf x.keyslot).getD []
  let iv := (hd.drop 0x18).take 12
  if !x.prot then some (hd ++ body)
  else if gcmTag key iv (hd.take 0x30) body = (hd.drop 0x30).take 16 then some (hd ++ gcmStream key iv body) else none

/-- The sections of an image, where they are as R319 has them. -/
def imageSects (b : List Byte) (x : Ctx) (size : Nat) : Option (List Sect) :=
  (parseSects b x.lrec.win x.lrec.spad size (size / 192 + 1) 0x4500).filter fun xs => sectsOk b x.lrec xs

/-- REST from the body of the image on. A protected image is decrypted a second time as it is written to the shares that have been placed (step 2): where that pass's tag fails, they are released again with nothing in them. -/
def State.restBody (s : State) (op : EngineOp) (v : View) (x : Ctx) (hd : List Byte) (ans : List LineAnswer) : Option State :=
  let ctr := recField hd 8 8
  let size := recField hd 0x10 8
  if s.landHeld op.arg then none else
  match s.threadReadAll op.key v false (op.va + 128) (size - 128) ans with
  | (.error (o, p), v, _) => (if p.stops then s else s.restOver op).unitPiece op v (op.va + 128 + o) p
  | (.ok body, v, _) =>
    let s := (List.range (size / 65536 + 2)).foldl (fun (s : State) i => s.walkVa op.key (min (op.va + 65536 * i) (op.va + size - 1))) s
    let fin (n : Nat) : Option State := some ((s.restOver op).reportEnd op v n)
    match s.openImage x hd body with
    | none => some (((if op.step = 2 then s.releaseShares op.descNos else s)).restForged op v ctr)
    | some b =>
      match imageSects b x size with
      | none => if op.step = 2 then some ((s.releaseShares op.descNos).restForged op v ctr) else fin 1
      | some xs =>
        if op.step = 2 then some ((s.restore op.arg b x xs op.descNos).reportEnd op v 0)
        else match s.placeImage op.arg x xs with
        | none => fin 4
        | some (s1, shs) =>
          if x.prot then
            let op2 : EngineOp := { op with step := 2, descNos := shs, view := v, bulk := none }
            some ((s1.updEop op.id fun _ => op2).sendsOf op2)
          else some ((s1.restore op.arg b x xs shs).reportEnd op v 0)

/-- REST once it has the header: its checks, and then the body, which it asks peers for where it lies there. The target is in STATE 4 from then on (R304). -/
def State.restHead (s : State) (op : EngineOp) (v : View) (hd : List Byte) (ans : List LineAnswer) : Option State :=
  let fin (n : Nat) : Option State := some (s.reportEnd op v n)
  match s.target? op with
  | none => fin 1
  | some x =>
    let ctr := recField hd 8 8
    if op.step ≠ 0 then (if x.st = 4 then s.restBody op v x hd ans else fin 1)
    else if !decide (x.st = 3 ∨ x.st = 5) || !headOk hd op.arg x then fin 1
    else if ctr < x.sctr.toNat ∨ (ctr = x.sctr.toNat ∧ x.rstd) then some (s.unitFault op v 7 0 op.va (ctr % 2 ^ 32))
    else if x.sctr.toNat < ctr then fin 2
    else if x.prot && (s.keyOf x.keyslot).isNone then fin 5
    else
      let op1 : EngineOp := { op with step := 1, descs := [imgOf (hd.take 64), imgOf (hd.drop 64)], free := decide (x.st = 5), view := v, bulk := none }
      let s1 := ((s.updCtx op.arg fun y => { y with st := 4 }).updEop op.id fun _ => op1).sendsOf op1
      some (if s1.bulkOut op.id then s1 else (s1.restBody ((s1.eop? op.id).getD op1) v x hd ans).getD s1)

def restFin : Finish := fun s op ans =>
  if op.step ≠ 0 then s.restHead op op.view (imgBytes (op.descs.headD 0#512) ++ imgBytes (op.descs.getD 1 0#512)) ans
  else match s.threadReadAll op.key op.view false op.va 128 ans with
  | (.error (o, p), v, _) => s.unitPiece op v (op.va + o) p
  | (.ok hd, v, t) => s.restHead op v hd t

/-- REST (R321). -/
def execRest (h : Hdr) (d a b : RegNo) (s : State) : Out :=
  .next (privUnit h (fun c f s =>
    let v := (f.pair a).toNat
    let n := (f.reg b).toNat
    if v % 4096 ≠ 0 then s.fatal f.key 0x29 c.uaddr
    else match s.access f.key v 1 false with
    | .ok _ _ =>
      if 512 ≤ n then s.fatal f.key 0x2A c.uaddr
      else
        let s := s.walkVa f.key v
        s.waitUnit { newOp s c f .rest with va := v, arg := n, dst := d }
    | x => s.accessFault c f.key [] v x) s)

/-! ### KEYLD (R321) -/

def keyldFin : Finish := fun s op ans =>
  let t := s.tenOf op.key
  let s := s.threadWalk op.key false op.va 48 true
  match s.threadReadAll op.key op.view false op.va 48 ans with
  | (.error (o, p), v, _) => s.unitPiece op v (op.va + o) p
  | (.ok b, v, _) =>
    let slot := s.keys.getD op.arg ⟨none, 0⟩
    if (b.drop 40).any fun x => x ≠ 0#8 then some (s.reportEnd op v 6)
    else match s.keks.get? t with
    | none => some (s.reportEnd op v 3)
    | some kek =>
      if (s.ctxs.any fun e => e.2.prot && decide (e.2.keyslot = op.arg)) || (slot.key.isSome && decide (slot.ten ≠ t)) then some (s.reportEnd op v 2)
      else match keyUnwrap kek (b.take 40) with
      | none => some (s.reportEnd op v 1)
      | some key => some ({ s with keys := s.keys.set op.arg ⟨some key, t⟩ }.reportEnd op v 0)

/-- KEYLD (R321). (DEDUCED, log 46) -/
def execKeyld (h : Hdr) (d a b : RegNo) (s : State) : Out :=
  .next (privUnit h (fun c f s =>
    let v := (f.pair a).toNat
    let n := (f.reg b).toNat
    if v % 16 ≠ 0 then s.fatal f.key 0x29 c.uaddr
    else match s.access f.key v 1 false with
    | .ok _ _ =>
      if 64 ≤ n then s.fatal f.key 0x2A c.uaddr
      else
        let s := s.walkVa f.key v
        s.waitUnit { newOp s c f .keyld with va := v, arg := n, dst := d }
    | x => s.accessFault c f.key [] v x) s)

/-! ### EVICT (R321) -/

/-- Every resident fibre of a context that is not ready and has nothing pending goes as a record of KIND 2; how many windows that frees. -/
def State.evict (s : State) (c : Nat) : State × Nat :=
  (s.fibres.filter fun f => decide (s.ctxOf f.key = c) && isResident f && !s.ready f && s.idle f.key && !s.midChain f.key).foldl
    (fun (acc : State × Nat) f =>
      match acc.1.fibre? f.key with
      | some g => (match acc.1.putAway g 2 true with
          | some s1 => (s1, acc.2 + 1)
          | none => acc)
      | none => acc) (s, 0)

def evictFin : Finish := fun s op _ =>
  let v := op.view
  match s.target? op with
  | none => some (s.reportEnd op v 1)
  | some x =>
    if x.st ≠ 1 then some (s.reportEnd op v 0xFFFFFFFF)
    else if op.free then some ((s.halt op.arg ⟨16, 0x28, 0#64, none, 0⟩).reportEnd op v 0)
    else
      let (s1, n) := s.evict op.arg
      some (s1.reportEnd op v n)

/-- EVICT (R321): bits [8:0] of gb name the target, bit 9 is KILL. -/
def execEvict (h : Hdr) (d b : RegNo) (s : State) : Out :=
  .next (privUnit h (fun c f s =>
    let n := (f.reg b).toNat
    if 1024 ≤ n then s.fatal f.key 0x2A c.uaddr
    else s.waitUnit { newOp s c f .evict with arg := n % 512, free := n.testBit 9, dst := d }) s)

/-! ### Replies for a context that is switched out (R176, R181, R317) -/

/-- The fibre of a switched-out context that a request belongs to, with the context. -/
def State.awayOf (s : State) (k : FKey) : Option (Nat × Away) :=
  s.ctxs.findSome? fun e => (e.2.away.find? fun a => decide (a.f.key = k)).map fun a => (e.1, a)

def State.setAway (s : State) (c : Nat) (k : FKey) (g : Away → Away) : State :=
  s.updCtx c fun x => { x with away := x.away.map fun a => if a.f.key = k then g a else a }

/-- What stays of a request once its leader's record has landed: the results of the other members of its unit (R84). -/
def State.leaderDone (s : State) (r : Req) : State :=
  match r.also with
  | [] => s.dropReq r.id
  | (k, n) :: t => s.updReq r.id fun q => { q with key := k, also := t, left := n, esc := none, asks := false, decided := true, granted := false, charge := 0 }

/-- A record of no word: that of a fibre whose window is in the image. -/
def EscRec.blank : EscRec := ⟨0#32, Vector.replicate 32 0#32, 1, 0#5, 0, 0, 0#32, 0, 0, 0#64⟩

/-- The record into which a late reply of a saved fibre is folded: its own, in the cluster or in its landing entry, or one of the late words alone. -/
def Away.record (a : Away) : EscRec :=
  match a.late, a.f.res with
  | some (_, e), _ => e
  | none, .abroad | none, .landed _ => a.f.rcd.getD EscRec.blank
  | none, .resident _ | none, .lodged _ | none, .returning | none, .stubOnly | none, .ended => EscRec.blank

/-- The landing entry that a saved fibre has: at most one (R176). -/
def Away.entry (a : Away) : Option Nat :=
  match a.late, a.f.res with
  | some (i, _), _ => some i
  | none, .landed i => some i
  | none, .abroad | none, .resident _ | none, .lodged _ | none, .returning | none, .stubOnly | none, .ended => none

/-- A record goes into entry `i`, or where there is none into a free one. -/
def State.landLate (s : State) (c : Nat) (k : FKey) (entry : Option Nat) (e : EscRec) : Except Unit (Option (State × Nat)) :=
  match entry with
  | none => s.landRecord k e
  | some i =>
    if s.landHeld c then .ok none
    else match s.landWrite c i 0 (recordBytes k (s.sgen.getD k.share 0) e) with
    | some t => .ok (some (t, i))
    | none => .error ()

/-- The result or the fault of a late reply folded into a record (R176, R308). -/
def Req.foldLate (r : Req) (e : EscRec) : EscRec :=
  match r.fail with
  | some (cls, code) => { e with kind := 1, fc := cls * 16 + code, unit := r.unitAddr }
  | none => { r.writeRecord (r.ans.getD 0) e with kind := 1, dw := 0, unit := r.unitAddr }

/-- A saved fibre after a late reply, whose record `e` stands in entry `i`. -/
def Away.landed (a : Away) (r : Req) (e : EscRec) (i now serial : Nat) : Away :=
  let f := a.f
  let g : Fibre := { ((match r.ans with
      | some v => r.writePred v f
      | none => f).waitOver r.id now) with
    view := f.view.join r.ansView, rfaults := f.rfaults ++ (r.fail.map fun x => r.faultRec x.1 x.2 e.mask).toList }
  match f.res with
  | .abroad => { a with f := { g with res := .landed i, rcd := some { e with charge := 0 }, retFrom := some serial } }
  | .landed _ => { a with f := { g with rcd := some e } }
  | .resident _ | .lodged _ | .returning | .stubOnly | .ended => { a with f := g, late := some (i, e) }

/-- The record of a saved fibre, with the result or the fault of its request folded in, goes to the landing area as KIND 1 (R176, R308). Where no entry is free it waits; where the area cannot be written, the context halts (R175). A VALSET writes no register, and its predicate waits with the device. -/
def State.landReply (s : State) (c : Nat) (a : Away) (r : Req) : State :=
  match r.kind with
  | .valset .. => s
  | _ =>
    let e := r.foldLate a.record
    match s.landLate c r.key a.entry e with
    | .ok (some (s1, i)) => ((s1.bump.releaseCharge r.key r.charge).leaderDone r).setAway c r.key fun w => w.landed r e i s1.now s1.serial
    | .ok none => s
    | .error () => s.fatal r.key 0x19 0#64

/-- A reply has come for a switched-out fibre: its record lands, or one wait is counted (R176). -/
def State.landNow (s : State) (c : Nat) (a : Away) (id : Nat) (first : Bool) : State :=
  match s.req? id with
  | none => s
  | some r =>
    if r.ans.isNone && r.fail.isNone then s else
    let t := s.landReply c a r
    if first && (t.req? id).any fun q => decide (q.key = r.key) then t.count r.key.die 3 else t

/-- Takes the step of a local request of a switched-out fibre, when it is allowed; and the fibre after it. -/
def State.performAway (s : State) (f : Fibre) (r : Req) : State × Fibre :=
  let s1 : State := { s with fibres := s.fibres ++ [f] }
  let s1 := if r.rel then s1.release f.key r.seq else s1
  let s2 := if !s1.performOk f r then s1.beginWait f r
    else if s1.eatsPoison f r then s1.poisonReq r
    else s1.perform f r
  let g := (s2.fibre? f.key).getD f
  ({ s2 with fibres := s2.fibres.filter fun x => x.key ≠ f.key }, g)

/-- LATE_REPLY_LANDING (R176): the package's own answer, or a peer's; and again, where it found no entry. -/
def State.lateReply (s : State) (id : Nat) (a : Answer) : State :=
  match s.req? id with
  | none => s
  | some r =>
    match s.awayOf r.key with
    | none => s
    | some (c, w) =>
      if r.ans.isSome || r.fail.isSome then s.landNow c w id false else
      match r.dest with
      | .home _ =>
        if a ≠ .own then s else
        let (s1, g) := s.performAway w.f r
        (s1.setAway c r.key fun x => { x with f := g }).landNow c { w with f := g } id true
      | .peer .. => (s.peerAnswer r a).landNow c w id true

/-- LATE_REPLY_LANDING (R176, R181). -/
def execLateReplyLanding (r : Nat) (a : Answer) (s : State) : Out := .next (s.lateReply r a)

/-- LATE_KIND1_REINSTATE (R317): a fibre whose KIND 1 record has landed is reinstated where it is now. -/
def execLateKind1Reinstate (k : FKey) (s : State) : Out :=
  .next (match s.fibre? k with
    | some f => (match f.res, f.rcd with
        | .landed _, some e => if e.kind = 1 then s.turnIn k else s
        | _, _ => s)
    | none => s)

end Sys2Proof.Machine
end

