-- ==== Sys2Proof/Machine/Debug.lean ====
section
/-! DEFINITION. Debug (R331 to R341, R345): the handler entry, DBRK and stepping, comparators, precise stops with their dumps, and stall samples. -/

namespace Sys2Proof.Machine

/-! ### Dumps (R341) -/

/-- LOC of a KIND 2 record. -/
def locNo : Loc → Nat
  | .reg r => r
  | .pred p => 32 + p
  | .esc => 48
  | .fs => 49
  | .cont => 50
  | .fault => 51

/-- The locations pending for a fibre: with the address of their producer and the cycle in which it issued, the fibre's last one for the unit that it waits at. -/
def State.pendingSince (s : State) (k : FKey) : List (Loc × DWord × Nat) :=
  (s.pendingOf k).map fun p =>
    (p.1, p.2, ((((s.reqs.find? fun r => decide (r.unitAddr = p.2) && r.serves k).map fun r => r.born).orElse fun _ =>
      (s.eops.find? fun e => decide (e.key = k ∧ e.unitAddr = p.2)).map fun e => e.born).orElse fun _ => (s.fibre? k).map fun f => f.lastIssue).getD s.now)

/-- PLACE and SUB of a KIND 3 record, and the unit whose escort it is: none where no record is abroad. -/
def State.escortAt (s : State) (f : Fibre) : Option (Nat × Nat × DWord) :=
  match f.res, f.rcd with
  | .abroad, some e =>
    (match s.reqs.find? fun r => decide (r.key = f.key) && r.granted with
      | some r => (match s.placeOf r with
          | .cluster _ => some (1, 0, e.unit)
          | .transit => some (2, 0, e.unit)
          | .slice sl => some (3, sl % 64, e.unit)
          | .controller _ ch => some (4, ch, e.unit)
          | .fabric _ => some (5, 0, e.unit))
      | none => some (1, 0, e.unit))
  | .returning, some e => some (1, 0, e.unit)
  | .landed _, some e => some (6, 0, e.unit)
  | _, _ => none

/-- The records of one fibre of a dump. (DEDUCED, log 56) -/
def State.dumpFibre (s : State) (f : Fibre) : List (List Byte) :=
  let c := s.ctxOf f.key
  let head (kind : Nat) : List Byte := leBytes 1 kind ++ leBytes 1 f.key.k ++ leBytes 1 f.key.l ++ leBytes 1 f.key.s
  let wsz := if isResident f then s.winOf f.key else 0
  let k1 := head 1 ++ leBytes 1 (resCode f) ++ leBytes 3 0 ++ leBytes 16 (stubImage f) ++ leBytes 2 (kinWord f) ++ leBytes 2 wsz
    ++ leBytes 2 (imageCtx c (s.ctx c).ten) ++ leBytes 2 0 ++ (f.regs.toList.take wsz).flatMap fun w => leBytes 4 w.toNat
  let k2 := (s.pendingSince f.key).map fun p =>
    head 2 ++ leBytes 1 (locNo p.1) ++ leBytes 3 0 ++ leBytes 8 p.2.1.toNat ++ leBytes 8 (s.now - p.2.2) ++ leBytes 8 0
  let k3 := match s.escortAt f, f.rcd with
    | some (pl, sub, ua), some e =>
      [head 3 ++ leBytes 1 pl ++ leBytes 1 sub ++ leBytes 2 e.tag ++ leBytes 4 e.mask.toNat ++ leBytes 1 e.dst.toNat
        ++ leBytes 1 (if e.dw = 4 then 3 else e.dw) ++ leBytes 2 0 ++ leBytes 8 ua.toNat ++ leBytes 4 e.depc.toNat ++ leBytes 4 0]
    | _, _ => []
  k1 :: (k2 ++ k3)

/-- Records up to the size of the buffer: their bytes, their number, and whether all of them fitted. -/
def fitRecords : Nat → List (List Byte) → List Byte × Nat × Bool
  | _, [] => ([], 0, true)
  | room, r :: t =>
    if room < r.length then ([], 0, false)
    else
      let (b, n, ok) := fitRecords (room - r.length) t
      (r ++ b, n + 1, ok)

def offDqctl (q : Nat) : Nat := 0x300000 + 0x20 * q

/-- The dump of a quarter: fibres in ascending lane, slot and stub. -/
def State.dump (s : State) (q why num : Nat) : State :=
  let b := (s.quarter q).dqdbuf.toNat
  if bits b 0 0 = 0 then s else
  let d := q / 256
  let fs := sortBy (fun x y => decide (x.key.l * 128 + x.key.k * 32 + x.key.s ≤ y.key.l * 128 + y.key.k * 32 + y.key.s))
    (s.fibres.filter fun f => decide (f.key.quarter = q ∧ f.res ≠ .ended))
  let (body, n, ok) := fitRecords (4096 * 2 ^ (min 8 (bits b 11 8)) - 32) (fs.flatMap s.dumpFibre)
  s.deviceWrite (hostLoc (bits b 63 12 * 4096))
    (leBytes 1 d ++ leBytes 1 (q / 4 % 64) ++ leBytes 1 (q % 4) ++ leBytes 1 why ++ leBytes 4 n ++ leBytes 8 (s.cycOf d).toNat
      ++ leBytes 4 num ++ leBytes 4 (if ok then 0 else 1) ++ leBytes 8 0 ++ body)

/-! ### Precise stops (R339, R340) -/

/-- A flock of the quarter that is in the middle of its chain ends: no further unit issues, and what has issued runs on (R339). -/
def State.cutChain (s : State) (q : Nat) : State := { s with flocks := s.flocks.filter fun g => !(decide (g.q = q) && g.mid) }

/-- A precise stop: the model takes the cycle of the trigger as the stop cycle. (DEDUCED, log 55) -/
def State.preciseStop (s : State) (q why num : Nat) : State :=
  if (s.quarter q).stopped then s else
  ((((s.cutChain q).dump q why num).updQuarter q fun x => { x with stopped := true })).trace (q / 256) 4 (q / 4 % 64) (q % 4) 0 0 why 0

/-- QUARTER_STOP (R339). -/
def execQuarterStop (q : Nat) (s : State) : Out := .next (if q < 1024 then s.preciseStop q 1 0 else s)

/-- What a release does to a fibre of the quarter: STL, and no comparator for its next unit (R339). -/
def Fibre.release (f : Fibre) (stl : Word) : Fibre :=
  let g : Fibre := { f with cmpFrom := 12 }
  if isResident f then g.setFs fsST (stl.getLsbD (f.key.l % 32)) else g

def State.quarterRelease (s : State) (q : Nat) (stl : Word) : State :=
  let x := s.quarter q
  if !x.stopped then s else
  let s := s.updQuarter q fun y => { y with stopped := false, dqctl := stl ++ y.dqctl.extractLsb' 0 32 }
  { s with fibres := s.fibres.map fun f => if f.key.quarter = q then f.release stl else f }

/-- QUARTER_RELEASE (R339). -/
def execQuarterRelease (q : Nat) (stl : Word) (s : State) : Out := .next (s.quarterRelease q stl)

/-! ### The handler (R336, R337) -/

/-- Where the frame of a fibre lies. -/
def State.handlerFrame (s : State) (k : FKey) : Nat :=
  (s.reg (offDhframe (s.tenOf k))).toNat / 65536 * 65536 + 192 * (4096 * (4 * k.c + k.k) + 32 * k.l + k.s)

/-- A tenancy's handler is enabled (R336). -/
def State.handlerOn (s : State) (k : FKey) : Bool := (s.reg (offDhip (s.tenOf k))).getLsbD 0

/-- WHY of the stop that takes the place of an entry, and its number (R341): STEP, DBRK with its code, or a comparator. -/
def FaultRec.why (r : FaultRec) : Nat × Nat :=
  if r.cls = 5 then (4, 0) else if r.code < 0x20000 then (4, r.code) else (if r.code - 0x20000 < 8 then 2 else 3, r.code - 0x20000)

/-- The fibre enters the debug handler now, or its quarter stops while DHIP.EN = 0 (R337). (DEDUCED, log 54) -/
def State.trapNow (s : State) (k : FKey) (r : FaultRec) : State :=
  match s.fibre? k with
  | none => s
  | some f =>
    if f.wait = .halted then s
    else if !s.handlerOn k then (s.updFibre k fun g => { g with stepDue := false }).preciseStop k.quarter r.why.1 r.why.2
    else
      let v := s.handlerFrame k
      if !s.frameOk k v then s.halt (s.ctxOf k) ⟨15, 0x27, r.unit, some k, 1⟩
      else
        let s1 := s.bump.frameWrites k s.serial v 12 (frameBytes f (s.share k.share) r)
        let s2 := s1.updFibre k fun g => { ((g.setPair 0#5 (BitVec.ofNat 64 v)).cutAt r.rip) with
          ip := BitVec.ofNat 64 ((s.reg (offDhip (s.tenOf k))).toNat / 65536 * 65536), stepDue := false }
        s2.leaveFlock k

/-- A member traps to the debug handler at unit `seq`: at once, or where units before it of its chain wait, once they have committed (R69, R335). -/
def State.enterHandler (s : State) (k : FKey) (cls code : Nat) (rip : DWord) (faddr : Nat) (unit : DWord) (seq : Nat) : State :=
  let r : FaultRec := ⟨cls, 0, 0, rip, faddr, code, windowMask (s.winOf k), unit, seq⟩
  let s := s.cancelAfter k seq
  match s.fibre? k with
  | none => s
  | some f =>
    if f.takesFault || !s.handlerOn k then s.trapNow k r
    else (s.updFibre k fun g => { g with rfaults := g.rfaults ++ [r] }).leaveFlock k

/-- A trap that waited is taken once its fibre can take it. -/
def State.trapNext (s : State) (k : FKey) : State :=
  match s.fibre? k with
  | none => s
  | some f =>
    match f.rfaults with
    | [] => s
    | r :: t => if r.traps && ({ f with rfaults := [] } : Fibre).takesFault then ((s.updFibre k fun g => { g with rfaults := t }).trapNow k r).deliverNext k else s

/-- Every trap that waits and can be taken is. -/
def State.settleTraps (s : State) : State :=
  ((s.fibres.filter fun f => f.rfaults.any FaultRec.traps).map fun f => f.key).foldl (fun (s : State) k => s.trapNext k) s

/-- DBRK (R335): BREAK with CODE imm17, and the unit after it as resume address. In the handler region it has no effect. -/
def execDbrk (h : Hdr) (imm : BitVec 17) (s : State) : Out :=
  .next (memberUnit h (fun c f s =>
    if s.inHandler f.key c.uaddr then s else s.enterHandler f.key 6 imm.toNat c.nxt 0 c.uaddr c.seq) s)

/-- A stepped fibre, which has left its flock (R335), may enter the handler: nothing of it is pending. -/
def State.stepReady (s : State) (f : Fibre) : Bool :=
  f.stepDue && isResident f && decide (f.wait = .none) && !s.anyPending f.key && !s.midChain f.key && !(s.quarter f.key.quarter).stopped

/-- STEP_TRAP (R335): STEP, CODE 0. -/
def execStepTrap (k : FKey) (s : State) : Out :=
  .next (match s.fibre? k with
    | some f => if s.stepReady f then s.enterHandler k 5 0 f.ip 0 f.ip s.serial else s
    | none => s)

/-! ### Comparators (R332 to R334) -/

def offDcmpa (c i : Nat) : Nat := 0x310000 + 0x100 * c + 0x10 * i
def offDcmpc (c i : Nat) : Nat := 0x310008 + 0x100 * c + 0x10 * i

/-- Comparator `i` of a cluster is enabled and watches a quarter and a share slot. -/
def State.watches (s : State) (c i j k : Nat) : Bool :=
  let r := s.reg (offDcmpc c i)
  r.getLsbD 0 && r.getLsbD (16 + j) && r.getLsbD (12 + k)

/-- HITS rises by `n`, and stays at its largest value. -/
def State.addHits (s : State) (c i n : Nat) : State :=
  let r := (s.reg (offDcmpc c i)).toNat
  s.setReg (offDcmpc c i) (BitVec.ofNat 64 (min 0xFFFFFFFF (r / 2 ^ 32 + n) * 2 ^ 32 + r % 2 ^ 32))

/-- The unit that a flock issues next, while none of its words has been read. -/
def State.nextUnit (s : State) (fl : Flock) : Option ChainUnit :=
  match fl.members with
  | [] => none
  | k :: _ => if !fl.imxs.isEmpty then none else (s.unitAt k fl.addr).toOption.map fun u => ⟨fl.addr, u.1, u.2.2, 0#32, u.2.1⟩

/-- The units that a flock issues in this cycle: what is left of its chain, of which the next unit alone is asked for, or all of the next chain. -/
def State.unitsAhead (s : State) (fl : Flock) : List ChainUnit :=
  if fl.mid then (s.nextUnit fl).toList
  else match s.chainCheck fl with
    | .error _ => []
    | .ok us => firstPart (s.snapOf fl) us

/-- What the members of a flock see of a unit that has not issued. -/
def State.preview (s : State) (fl : Flock) (u : ChainUnit) : Option UnitCtx :=
  u.i.hdr?.map fun h => unitCtx h { fl with addr := u.at_, imxs := u.imxs, unitAddr := u.addr } s

/-- The members of a flock that comparator `i` may meet at a unit: in a watched slot, outside the handler region, and not past the comparator (R333, R336, R338, R339). -/
def State.candidates (s : State) (fl : Flock) (u : ChainUnit) (i : Nat) : List Fibre :=
  (s.snapOf fl).filter fun f =>
    s.watches (fl.q / 4) i (fl.q % 4) f.key.k && !s.inHandler f.key u.addr
    && (s.fibre? f.key).any fun g => decide ((u.addr = fl.addr → g.cmpFrom ≤ i) ∧ g.cmpPast ≠ some u.addr)

/-- ACT of a comparator. -/
def State.actOf (s : State) (c i : Nat) : Nat := bits (s.reg (offDcmpc c i)).toNat 9 8

/-- A hit of comparator `i` stops the quarter of a flock: no unit of the chain issues then (R333, R337, R339). -/
def State.hitStops (s : State) (fl : Flock) (i : Nat) : Bool :=
  s.actOf (fl.q / 4) i == 1 || (s.actOf (fl.q / 4) i == 0 && !(fl.members.any fun k => s.handlerOn k))

/-- The unit at which comparator `i` meets the flock of a quarter: the next one, or for a comparator that stops the quarter any unit of the chain. `hits` finds what it hits there. -/
def State.hitUnit? {α : Type} (s : State) (q i : Nat) (hits : Flock → ChainUnit → List α) : Option (Flock × ChainUnit × List α) :=
  match s.flockOf? q with
  | none => none
  | some fl =>
    if (s.quarter q).stopped then none else
    (s.unitsAhead fl).findSome? fun u =>
      if u.addr = fl.addr || s.hitStops fl i then
        (match hits fl u with
          | [] => none
          | h :: t => some (fl, u, h :: t))
      else none

/-- The members that comparator `i` has met at a unit do not meet it again there; where it stops the quarter, none meets them there (R339). -/
def State.passed (s : State) (fs : List Fibre) (i : Nat) (stop : Option DWord) : State :=
  { s with fibres := s.fibres.map fun g =>
      if fs.any fun f => decide (f.key = g.key) then
        (match stop with
          | some a => { g with cmpPast := some a }
          | none => { g with cmpFrom := i + 1 })
      else g }

/-- What a hit does (R333, R334): the active members it applies to trap, the quarter stops, or a record is traced. `fa` gives FADDR. -/
def State.hitActs (s : State) (fl : Flock) (i why : Nat) (ua : DWord) (met act : List Fibre) (fa : FKey → Nat) : State :=
  let q := fl.q
  let c := q / 4
  let stop := s.hitStops fl i
  let s := s.passed met i (if stop then some ua else none)
  if stop then s.preciseStop q why i else
  match s.actOf c i with
  | 0 => act.foldl (fun (s : State) f => if s.live f.key then s.enterHandler f.key 6 (0x20000 + i) ua (fa f.key) ua s.serial else s) s
  | _ =>
    if i < 8 then s.trace (c / 64) 3 (c % 64) (q % 4 + 4 * (((met.head?).map fun f => f.key.k).getD 0)) 0 0 ua.toNat i
    else act.foldl (fun (s : State) f => s.trace (c / 64) 3 (c % 64) (q % 4 + 4 * f.key.k) f.key.l 0 ua.toNat i) s

/-- The members of `fs` that are active in a unit. -/
def State.activeOf (s : State) (fl : Flock) (u : ChainUnit) (fs : List Fibre) : List Fibre :=
  fs.filter fun f => (s.preview fl u).any fun c => c.act.any fun g => decide (g.key = f.key)

/-- The unit at which code comparator `i` meets the flock of a quarter, and the members that it meets, active or not (R333). -/
def State.codeHit? (s : State) (q i : Nat) : Option (Flock × ChainUnit × List Fibre) :=
  if 8 ≤ i then none else
  s.hitUnit? q i fun fl u => if u.addr.toNat / 4 = (s.reg (offDcmpa (q / 4) i)).toNat / 4 then s.candidates fl u i else []

/-- CODE_COMPARATOR_HIT (R333): before the unit issues, for every active member. -/
def State.codeComparatorHit (s : State) (q i : Nat) : State :=
  match s.codeHit? q i with
  | none => s
  | some (fl, u, met) => (s.addHits (q / 4) i 1).hitActs fl i 2 u.addr met (s.activeOf fl u met) fun _ => 0

def execCodeComparatorHit (q i : Nat) (s : State) : Out := .next (s.codeComparatorHit q i)

/-- The accesses of a member's unit that data comparators watch: address, length, read, write (R334). -/
def State.watched (s : State) (i : Instr) (c : UnitCtx) (f : Fibre) : List (Nat × Nat × Bool × Bool) :=
  let rd (b : RegNo) (n : Nat) : List (Nat × Nat × Bool × Bool) := [(c.ea f b, n, true, false)]
  let wr (b : RegNo) (n : Nat) : List (Nat × Nat × Bool × Bool) := [(c.ea f b, n, false, true)]
  let rw (b : RegNo) (n : Nat) : List (Nat × Nat × Bool × Bool) := [(c.ea f b, n, true, true)]
  match i with
  | .ld _ _ b _ _ sz => rd b (sz3Bytes sz)
  | .ldNarrow _ _ b _ _ t => rd b (nldBytes t)
  | .st _ _ b sz => wr b (sz3Bytes sz)
  | .stNarrow _ _ b t => wr b (nstBytes t)
  | .lds _ _ b _ sz => rd b (sz3Bytes sz)
  | .ldsNarrow _ _ b _ t => rd b (nldBytes t)
  | .sts _ _ b sz => wr b (sz3Bytes sz)
  | .stsNarrow _ _ b t => wr b (nstBytes t)
  | .ldf _ _ b _ _ sz => rd b (sz3Bytes sz)
  | .stf _ _ b sz => wr b (sz3Bytes sz)
  | .ldAcq _ _ b _ _ sz => rd b (sz2Bytes sz)
  | .stRel _ _ b sz => wr b (sz2Bytes sz)
  | .ldv _ _ b _ _ _ => [(c.ea f b / 256 * 256, 256, true, false)]
  | .casv _ _ b _ _ sz => rw b (sz2Bytes sz)
  | .atomAdd _ _ b _ _ t | .atomAnd _ _ b _ _ t | .atomOr _ _ b _ _ t | .atomXor _ _ b _ _ t => rw b (tyBytes t)
  | .atomMin _ _ b _ _ t | .atomMax _ _ b _ _ t | .atomExch _ _ b _ _ t | .atomCas _ _ b _ _ t => rw b (tyBytes t)
  | .atomFadd _ _ b _ _ => rw b 4
  | .atomOrdAdd _ _ b _ _ t | .atomOrdAnd _ _ b _ _ t | .atomOrdOr _ _ b _ _ t | .atomOrdXor _ _ b _ _ t => rw b (tyBytes t)
  | .atomOrdMin _ _ b _ _ t | .atomOrdMax _ _ b _ _ t | .atomOrdExch _ _ b _ _ t | .atomOrdCas _ _ b _ _ t => rw b (tyBytes t)
  | .atomOrdFadd _ _ b _ _ => rw b 4
  | .redAdd _ _ b t | .redAnd _ _ b t | .redOr _ _ b t | .redXor _ _ b t | .redMin _ _ b t | .redMax _ _ b t => rw b (tyBytes t)
  | .redFadd _ _ b => rw b 4
  | .rwl _ _ b _ _ _ => rw b 4
  | .waitcSigned _ _ a _ _ => [((f.pair a).toNat, 4, true, false)]
  | .waitcUnsigned _ _ a _ _ => [((f.pair a).toNat, 4, true, false)]
  | .twait _ _ a _ => [((f.pair a).toNat, 8, true, false)]
  | .resume _ a => [((f.pair a).toNat, 192, true, false), ((f.pair a).toNat, 4, false, true)]
  | .valset _ _ a _ st =>
    let v := (f.pair a).toNat
    (match s.valList f v st with
      | .ok pairs sa => [(v, 16 + 16 * pairs.length, true, st)] ++ pairs.map (fun p => (p.1 / 256 * 256, 256, true, st)) ++ (if st then [(sa, 4, true, true)] else [])
      | .fatal _ => [(v, 16, true, st)])
  | _ => []

/-- The region of a data comparator: first address and length. -/
def State.dataRegion (s : State) (c i : Nat) : Nat × Nat :=
  let lg := max 2 (min 6 (bits (s.reg (offDcmpc c i)).toNat 5 3))
  ((s.reg (offDcmpa c i)).toNat / 4 * 4 / 2 ^ lg * 2 ^ lg, 2 ^ lg)

/-- The access of a member that a data comparator hits. (DEDUCED, log 53) -/
def State.dataAccess (s : State) (c i : Nat) (as : List (Nat × Nat × Bool × Bool)) : Option Nat :=
  let r := s.dataRegion c i
  let m := bits (s.reg (offDcmpc c i)).toNat 7 6
  (as.find? fun a => overlap a.1 a.2.1 r.1 r.2 && ((a.2.2.1 && m.testBit 0) || (a.2.2.2 && m.testBit 1))).map fun a => a.1

/-- The members that data comparator `i` hits at a unit, each with its access address. A U = 1 load is the access of every active member. -/
def State.dataHits (s : State) (fl : Flock) (u : ChainUnit) (i : Nat) : List (Fibre × Nat) :=
  match s.preview fl u with
  | none => []
  | some c =>
    let uni := (u.i.hdr?.map fun h => h.u).getD false
    (s.activeOf fl u (s.candidates fl u i)).filterMap fun f =>
      (s.dataAccess (fl.q / 4) i (s.watched u.i c (if uni then c.act.headD f else f))).map fun a => (f, a)

/-- The unit at which data comparator `i` hits members of the flock of a quarter. -/
def State.dataHit? (s : State) (q i : Nat) : Option (Flock × ChainUnit × List (Fibre × Nat)) :=
  if i < 8 ∨ 12 ≤ i then none else s.hitUnit? q i fun fl u => s.dataHits fl u i

/-- DATA_WATCHPOINT_HIT (R334): before any access of the members it hits. -/
def State.dataWatchpointHit (s : State) (q i : Nat) : State :=
  match s.dataHit? q i with
  | none => s
  | some (fl, u, hits) =>
    (s.addHits (q / 4) i hits.length).hitActs fl i 3 u.addr (hits.map Prod.fst) (hits.map Prod.fst) fun k => ((hits.find? fun h => decide (h.1.key = k)).map Prod.snd).getD 0

def execDataWatchpointHit (q i : Nat) (s : State) : Out := .next (s.dataWatchpointHit q i)

/-! ### What holds a unit besides the scoreboard (R67) -/

/-- The tile whose acceptance queue a unit needs room in (R198): a follow-on MMA and the MMAs of a TMM are handed over later. -/
def queueTile? (xs : List (BitVec 17)) : Instr → Option Nat
  | .mscl _ _ _ t | .mzero _ _ t | .mdrn _ _ _ _ t => some (if t then 1 else 0)
  | .mma _ _ _ t => if mmaFol (xs.getLast?.getD 0#17) then none else some (if t then 1 else 0)
  | _ => none

/-- Operations accepted on a tile of a cluster and not ended (R198). -/
def State.queueLength (s : State) (c t : Nat) : Nat :=
  (s.eops.filter fun e => e.accepted.isSome && !e.ended && decide (e.key.c = c ∧ e.tile = t)).length

/-- Operations that the copy engine of a cluster holds (R211). -/
def State.copiesHeld (s : State) (c : Nat) : Nat := (s.eops.filter fun e => decide (e.kind = EKind.cpy ∧ e.key.c = c)).length

/-- A request of kind `kind` to a global address leaves the L1 and the scratchpad of its cluster: neither the fibre's own store nor its own L1 serves it (R171). -/
def State.goesOut (s : State) (c : UnitCtx) (f : Fibre) (va n : Nat) (kind : ReqKind) : Bool :=
  if va ≥ 2 ^ 63 then false else
  match s.translate (s.tenOf f.key) va with
  | .ok l =>
    let r := s.paged (some l) (mkReq s c f va n (s.destOf l va) kind false false 0#5 0 0 false 0#32)
    s.leavesCluster r && !(s.localLoad f r).any fun x => !x.2
  | .fail _ => false
  | .poison => false

/-- The member's request takes an entry of the outstanding transaction table at its issue (R171). -/
def State.takesEntry (s : State) (c : UnitCtx) (f : Fibre) (i : Instr) : Bool :=
  let out (kind : Nat → ReqKind) : Bool := (s.watched i c f).any fun a => s.goesOut c f a.1 a.2.1 (kind a.2.1)
  match i with
  | .ld .. | .ldNarrow .. | .ldAcq .. => out fun n => .load n false
  | .atomAdd .. | .atomAnd .. | .atomOr .. | .atomXor .. | .atomMin .. | .atomMax .. | .atomExch .. | .atomCas .. | .atomFadd .. | .rwl .. =>
    out fun _ => .rwl .rd false
  | .atomOrdAdd .. | .atomOrdAnd .. | .atomOrdOr .. | .atomOrdXor .. | .atomOrdMin .. | .atomOrdMax .. | .atomOrdExch .. | .atomOrdCas ..
  | .atomOrdFadd .. => out fun _ => .rwl .rd false
  | .ldv .. | .casv .. => out fun _ => .ldv false
  | .valset .. | .waitcSigned .. | .waitcUnsigned .. | .twait .. => true
  | _ => false

/-- The members that issue for their unit: the leader alone where U = 1 (R84). -/
def UnitCtx.issuers (c : UnitCtx) (i : Instr) : List Fibre := if (i.hdr?.map fun h => h.u).getD false then c.act.take 1 else c.act

/-! ### Stall samples (R345) -/

/-- A unit that is not held on a register, as its member alone meets it: the transaction table is full, or its engine's queue. -/
def State.fullFor (s : State) (f : Fibre) : Nat :=
  match s.unitAt f.key f.ip with
  | .error _ => 13
  | .ok (xs, i, a) =>
    let k := f.key
    if s.takesEntry ⟨k.quarter, f.ip, a, nextWord a, xs, [f], s.serial⟩ f i && decide (2048 ≤ s.entriesUsed k.c) then 3
    else if (queueTile? xs i).any fun t => decide (16 ≤ s.queueLength k.c t) then 4
    else if (match i with
      | .cpy .. => decide (64 ≤ s.copiesHeld k.c)
      | _ => false) then 4
    else 13

/-- REASON, A and B of a fibre that has not issued. A wait for which R345 has no row is given as the scoreboard's, with the unit that waits as producer (DESIGN CHOICE, log 111). -/
def State.stallReason (s : State) (f : Fibre) : Nat × Nat × Nat :=
  let here := f.ip.toNat
  let on (w : Waiting) : Nat × Nat × Nat :=
    let u := w.unit.toNat
    match w.wait with
    | .request r => (match s.req? r with
        | some x => (match x.kind with
            | .waitc .. => (5, u, 0)
            | .twait _ => (6, u, 0)
            | _ => (1, here, u))
        | none => (1, here, u))
    | .join _ => (7, u, 0)
    | .bar .. => (8, u, 0)
    | .fence .. => (9, u, 0)
    | .sleep _ => (10, u, 0)
    | .none | .engine _ | .tile _ | .fork .. | .quit .. | .pset .. | .unborn | .resume _ | .xinv | .halted => (1, here, u)
  if (s.quarter f.key.quarter).stopped then (14, here, 0)
  else if !isResident f then (12, (f.rcd.map fun e => e.unit.toNat).getD (prevWord f.ip).toNat, 0)
  else match f.waits.head? with
  | some w => on w
  | none =>
    match s.heldOn f with
    | some p => if s.reqs.any fun r => decide (r.unitAddr = p ∧ r.key = f.key) && (match r.kind with
        | .ldf _ => r.ans.isNone
        | _ => false) then (11, p.toNat, 0) else (1, here, p.toNat)
    | none =>
      match s.reqs.find? fun r => r.short f.key (s.nextChain f).length || (r.escorting && decide (r.key = f.key) && s.escortEnds f r) with
      | some r => (2, here, r.unitAddr.toNat)
      | none => (s.fullFor f, here, 0)

/-- The fibre of a quarter that has gone longest without issuing. -/
def State.longest (s : State) (q : Nat) : Option Fibre :=
  (s.fibres.filter fun f => decide (f.key.quarter = q ∧ f.res ≠ .ended)).foldl (fun (b : Option Fibre) f => match b with
    | none => some f
    | some g => if f.lastIssue < g.lastIssue ∨ (f.lastIssue = g.lastIssue ∧ (f.key.l < g.key.l ∨ (f.key.l = g.key.l ∧ f.key.k * 32 + f.key.s < g.key.k * 32 + g.key.s)))
        then some f else b) none

/-- The period of stall samples on a die. -/
def State.samplePeriod (s : State) (d : Nat) : Nat := 2 ^ (max 10 (min 24 (bits (s.reg (offTrbuf d)).toNat 7 3)))

/-- A sample of a quarter is due in this cycle: its number is a multiple of the period, or one of the cycles that the step stands for is (log 4), and it has not been written. -/
def State.sampleDue (s : State) (q : Nat) : Bool :=
  let d := q / 256
  let p := s.samplePeriod d
  let c := (s.cycOf d).toNat
  (s.quarter q).dqctl.getLsbD 3 && (s.reg (offTrbuf d)).getLsbD 0 && decide (c ≤ (c + max 1 s.pace - 1) / p * p) && decide (s.stallOut.get? q ≠ some (s.cycOf d))

/-- STALL_SAMPLE (R345): what the quarter has issued in this cycle, or why its fibre that waits longest does not. -/
def State.stallSample (s : State) (q : Nat) : State :=
  if !s.sampleDue q then s else
  let d := q / 256
  let s1 : State := { s with stallOut := s.stallOut.set q (s.cycOf d) }
  let rec1 (k l reason a b : Nat) : State := s1.trace d 1 (q / 4 % 64) (q % 4 + 4 * k) l reason a b
  match (s.lastUnit.get? q).filter fun u => decide (u.1 = s.now) with
  | some (_, ua, n) => rec1 (((s.flockOf? q).map fun fl => fl.sh % 4).getD 0) 0 0 ua.toNat n
  | none =>
    match s.longest q with
    | some f => rec1 f.key.k f.key.l (s.stallReason f).1 (s.stallReason f).2.1 (s.stallReason f).2.2
    | none => rec1 0 0 15 0 0

def execStallSample (q : Nat) (s : State) : Out := .next (s.stallSample q)

/-- Every sample that is due in this cycle is written in it. -/
def State.samples (s : State) : State :=
  ((s.quarters.filter fun e => s.sampleDue e.1).map Prod.fst).foldl (fun (s : State) q => s.stallSample q) s

end Sys2Proof.Machine
end

