-- ==== Sys2Proof/Machine/IssueEvents.lean ====
section
/-! DEFINITION. Events of issue and of escorts: flocks (R51, R80 to R82), waking (R93), escort decisions and credit (R163 to R170), replies (R165, R172 to R179), and polls (R155, R255, R256). -/

namespace Sys2Proof.Machine

/-! ### Flocks (R51, R80 to R82) -/

/-- Ready fibres of a quarter. -/
def State.readyIn (s : State) (q : Nat) : List Fibre := s.fibres.filter fun f => decide (f.key.quarter = q) && s.ready f

/-- The weight of a priority (R51). -/
def weight (prio : Nat) : Nat := 2 ^ prio

/-- Greater age first, then the lower instruction address, lane and stub (R80). -/
def State.before (s : State) (a b : Fibre) : Bool :=
  let x := s.age a
  let y := s.age b
  decide (y < x) || (decide (x = y) && (decide (a.ip.toNat < b.ip.toNat) || (decide (a.ip = b.ip) &&
    (decide (a.key.l < b.key.l) || (decide (a.key.l = b.key.l) && decide (a.key.s < b.key.s))))))

def State.first (s : State) (l : List Fibre) : Option Fibre :=
  l.foldl (fun (b : Option Fibre) f => match b with
    | none => some f
    | some g => if s.before f g then some f else b) none

/-- R51: the share chosen by weighted round robin, and the quarter's counters afterwards. -/
def State.roundRobin (s : State) (q : Nat) (el : List Nat) : Option (Nat × Vector Int 4) :=
  let w (k : Nat) : Int := (weight (s.share (q / 4 * 4 + k)).prio : Nat)
  let rr := (s.quarter q).rr
  let up : Vector Int 4 := Vector.ofFn fun (i : Fin 4) => if el.contains i.val then rr[i] + w i.val else rr[i]
  let at4 (v : Vector Int 4) (k : Nat) : Int := v.toList.getD k 0
  ((sortNat el).foldl (fun (b : Option Nat) k => match b with
    | none => some k
    | some j => if at4 up j < at4 up k then some k else b) none).map fun k =>
      (k, Vector.ofFn fun (i : Fin 4) => if i.val = k then up[i] - (el.map w).sum else up[i])

/-- The share from which the next flock comes (R80 step 1), with the counters. -/
def State.chooseShare (s : State) (q : Nat) (rs : List Fibre) : Option (Nat × Vector Int 4) :=
  match s.first (rs.filter fun f => s.urgent f) with
  | some f => some (f.key.k, (s.quarter q).rr)
  | none => s.roundRobin q (rs.map fun f => f.key.k).eraseDups

/-- A fibre that has yielded stands back while another ready fibre of its share on its lane has not (R93). (DEDUCED, log 57) -/
def standsBack (rs : List Fibre) (f : Fibre) : Bool :=
  f.yielded && rs.any fun g => decide (g.key.l = f.key.l ∧ g.key ≠ f.key) && !g.yielded

/-- Members of the flock at an address: on each lane the fibre of greatest age (R80 step 3). -/
def State.gather (s : State) (rs : List Fibre) (a : DWord) : List FKey :=
  let at_ := rs.filter fun f => decide (f.ip = a)
  (sortNat (at_.map fun f => f.key.l).eraseDups).filterMap fun l => (s.first (at_.filter fun f => decide (f.key.l = l))).map fun f => f.key

/-- FLOCK_FORM (R80). The quarter becomes the one that issues. -/
def State.flockForm (s : State) (q : Nat) : State :=
  if (s.flockOf? q).isSome || (s.quarter q).stopped then s else
  match s.chooseShare q (s.readyIn q) with
  | none => s
  | some (k, rr) =>
    let all := (s.readyIn q).filter fun f => decide (f.key.k = k)
    let rs := all.filter fun f => !standsBack all f
    match s.first rs with
    | none => s
    | some f =>
      let fl : Flock := ⟨q, f.key.share, f.ip, s.gather rs f.ip, 0, [], f.ip, [], [], false, none⟩
      let s1 := (s.updQuarter q fun x => { x with rr := rr }).setFlock fl
      { s1 with
        cur := q
        fibres := s1.fibres.map fun g => if g.key.quarter = q then { g with yielded := false } else g }

def execFlockForm (q : Nat) (s : State) : Out := .next (s.flockForm q)

/-- URGENT_FIBRE (R82): a flock that the fibre is no member of ends after its next unit. -/
def execUrgentFibre (k : FKey) (s : State) : Out :=
  .next (match s.fibre? k with
    | some f => if s.urgent f && !(s.flocks.any fun g => g.members.contains k) then s.endAfter k.quarter else s
    | none => s)

/-! ### Waking (R93) -/

/-- A SLEEP is over. -/
def Wait.sleptOut (w : Wait) (now : Nat) : Bool :=
  match w with
  | .sleep t => decide (t ≤ now)
  | _ => false

/-- SLEEP_EXPIRY (R93). (DESIGN CHOICE, log 34) -/
def execSleepExpiry (k : FKey) (s : State) : Out :=
  .next (match s.fibre? k with
    | some f => if f.waitsFor (fun w => w.sleptOut s.now) then (s.updFibre k fun g => g.unwait fun w => w.sleptOut s.now).deliverNext k else s
    | none => s)

/-! ### Escorts (R163, R164, R167, R170) -/

/-- ESCORT_DECISION (R163, R167). -/
def execEscortDecision (r : Nat) (s : State) : Out :=
  .next (match s.req? r with
    | some q => if s.midChain q.key then s else s.decideReq q
    | none => s)

/-- DEPARTURE (R164, R87, R92). -/
def State.depart (s : State) (k : FKey) : State :=
  if s.midChain k then s else
  match s.departReq? k with
  | some r => s.departFor r
  | none => s.departJoin k

def execDeparture (k : FKey) (s : State) : Out := .next (s.depart k)

/-- Bytes of records in the store of a die (R170). -/
def State.storeUsed (s : State) (die : Nat) : Nat :=
  ((s.reqs.filter fun r => decide (r.share / 256 = die) && r.granted && r.offPackage).map fun r => r.charge).sum

/-- Credit that the quarters of a die hold unused: 8 KiB for each one that the table does not list. -/
def State.creditHeld (s : State) (die : Nat) : Nat :=
  let qs := s.quarters.filter fun e => decide (e.1 / 256 = die)
  (qs.map fun e => e.2.credit).sum + (256 - qs.length) * 8192

/-- ESCORT_CREDIT_REFILL (R170): standing requests of a die, in ascending quarter order. -/
def State.creditRefill (s : State) (die : Nat) : State :=
  let qs := sortNat ((s.quarters.filter fun e => decide (e.1 / 256 = die) && e.2.refill).map Prod.fst)
  (qs.foldl (fun (acc : State × Nat) q =>
    let x := acc.1.quarter q
    let n := min acc.2 (32768 - x.credit)
    (acc.1.updQuarter q fun y => { y with credit := y.credit + n, refill := decide (y.credit + n < 32768) }, acc.2 - n))
    (s, 2 ^ 22 - s.storeUsed die - s.creditHeld die)).1

def execEscortCreditRefill (die : Nat) (s : State) : Out := .next (s.creditRefill die)

/-! ### Replies (R165, R172 to R179, R274) -/

/-- An answer that has come is taken. -/
def State.bring (s : State) (id : Nat) : State :=
  match s.req? id with
  | some r => if r.ans.isSome || r.fail.isSome then s.tryReq id else s
  | none => s

/-- The fabric interface counts one more late reply in entry `i` of a tenancy's stop ring, while system software has not taken it (R180, R313) (DESIGN CHOICE, log 97). -/
def State.countLate (s : State) (t i : Nat) : State :=
  let q := (s.reg (offStopq t)).toNat
  let ix := (s.reg (offStopix t)).toNat
  let n := 2 ^ ringLgn (bits q 11 8)
  let head := bits ix 15 0
  let loc := hostLoc (bits q 63 12 * 4096 + 64 * i + 0x30)
  if (i + n - head) % n < (bits ix 31 16 + n - head) % n then s.deviceWrite loc (leBytes 8 (s.mem.read loc 8 + 1)) else s

/-- A reply for a context that has halted is discarded and counted, and frees the entry that was left open for it (R180). -/
def State.closeTag (s : State) (id : Nat) : State :=
  match s.openTags.find? fun o => o.id = id with
  | none => s
  | some o =>
    let s := ({ s with openTags := s.openTags.filter fun o => o.id ≠ id } : State).heardFrom o.peer (256 * o.plane) 1
    match o.ring with
    | some (t, i) => s.countLate t i
    | none => s

/-- A member that the reply serves has its record in a landing area that no access touches now (R238). -/
def State.entryHeld (s : State) (r : Req) : Bool := r.members.any fun k => (s.fibre? k).any fun f => s.landWaits f

/-- REPLY_ARRIVAL (R165): the package's own answer, or a peer's. WAITC at a peer ends by WAITC_POLL. -/
def State.replyArrival (s : State) (id : Nat) (a : Answer) : State :=
  match s.req? id with
  | none => s.closeTag id
  | some r0 =>
    if s.midChain r0.key || (s.awayOf r0.key).isSome || s.entryHeld r0 then s else
    let s := s.decideReq r0
    let r := (s.req? id).getD r0
    match r.dest, r.kind, a with
    | .home _, _, .own => s.tryReq id
    | .home _, _, _ => s
    | .peer .., .waitc .., .value _ _ => s
    | .peer .., _, .own => s.bring id
    | .peer .., _, _ => (s.peerAnswer r a).bring id

def execReplyArrival (r : Nat) (a : Answer) (s : State) : Out := .next (s.replyArrival r a)

/-! ### Reinstatement (R172 to R174) -/

/-- REINSTATEMENT (R172 to R174). -/
def execReinstatement (k : FKey) (s : State) : Out :=
  .next (match s.fibre? k with
    | some f =>
      if !s.turn f then s
      else if f.retFrom.isSome then s.reinstate k
      else if f.parkedAt.isSome then s
      else s.reinstateDisplaced k
    | none => s)

/-- DISPLACED_TIMEOUT (R174): after 32,768 cycles without a mark, none of them of a stop of its quarter (R340), the fibre becomes a returning one. -/
def State.displacedTimeout (s : State) (k : FKey) : State :=
  match s.fibre? k with
  | none => s
  | some f =>
    match f.res with
    | .lodged _ | .landed _ =>
      if f.retFrom.isSome || f.parkedAt.isSome || f.heldAway || (s.quarter k.quarter).stopped || s.reqs.any (fun r => r.serves k) || decide (s.now < f.since + 32768) then s
      else (s.updFibre k fun g => { g with retFrom := some s.serial }).bump
    | _ => s

def execDisplacedTimeout (k : FKey) (s : State) : Out := .next (s.displacedTimeout k)

/-! ### Polls and write-backs (R155, R255, R256) -/

/-- LDF_RETEST (R155): an LDF that its bank's list did not take tests its granule again. -/
def execLdfRetest (r : Nat) (s : State) : Out :=
  .next (match s.req? r with
    | some q => (match q.kind with
        | .ldf _ => if s.midChain q.key || (s.awayOf q.key).isSome then s else (s.decideReq q).tryReq r
        | _ => s)
    | none => s)

/-- WAITC_POLL (R255): one acquire read of the word; the member ends its wait at a value that satisfies it. (DEDUCED, log 29) -/
def State.waitcPoll (s : State) (id : Nat) (a : Answer) : State :=
  match s.req? id with
  | none => s
  | some r0 =>
    if s.midChain r0.key || (s.awayOf r0.key).isSome then s else
    let s := s.decideReq r0
    let r := (s.req? id).getD r0
    match r.kind, r.dest with
    | .waitc .., .home _ | .twait _, .home _ => if a = .own then s.tryReq id else s
    | .waitc .., .peer .. => (s.peerAnswer r a).bring id
    | _, _ => s

def execWaitcPoll (r : Nat) (a : Answer) (s : State) : Out := .next (s.waitcPoll r a)

/-- L1_WRITEBACK (R132, R256): the share's L1 writes back the dirty words of its unowned lines. -/
def execL1Writeback (share : Nat) (s : State) : Out := .next (s.writeBack share)

end Sys2Proof.Machine
end

