-- ==== Sys2Proof/Machine/FabricEvents.lean ====
section
/-! DEFINITION. Events of the ordering machine and of the fabric (R221, R223, R232 to R236, R265 to R287), and of the engines. -/

namespace Sys2Proof.Machine

/-! ### Write buffers, apply queues, carts (R221, R223, R277) -/

/-- WRITE_BUFFER_LEAVE (R221): the oldest write of a fibre that may leave, with the other dirty words of its line where an L1 holds them (R132); a release that may not makes its L1 write back and its older carts depart (R135, R233). -/
def State.leaveOne (s : State) (k : FKey) : State :=
  match s.fibre? k with
  | none => s
  | some f =>
    match f.wb.find? fun w => s.leaveOk f w with
    | some w => (match s.lineOf? k.share w with
        | some l => s.writeBackLine k.share l
        | none => s.leave f w 0)
    | none => (match f.wb.find? fun w => w.rel with
        | some w => s.release k w.seq
        | none => s)

def execWriteBufferLeave (k : FKey) (s : State) : Out := .next (s.leaveOne k)

/-- APPLY (R223): write number `i` of the apply queue of a die. -/
def execApplyWrite (die i : Nat) (s : State) : Out :=
  .next (match (s.aq.filter fun w => decide (w.die = die))[i]? with
    | some w => s.applyAq w.wid
    | none => s)

/-- The age limit of a context's carts in cycles: 64 ns, 89.6 cycles of the arithmetic clock, for each unit of CAGE (R269). -/
def State.cartAge (s : State) (ctx : Nat) : Nat := max 1 (min 64 ((s.reg (offCage (s.ctx ctx).ten)).toNat % 128)) * 896 / 10

/-- CART_AGE_EXPIRY (R277). -/
def execCartAgeExpiry (die cart : Nat) (s : State) : Out :=
  .next (match s.carts.get? (die * 256 + cart) with
    | some c => if c.born + s.cartAge c.ctx ≤ s.now ∧ !s.planeStalled c.plane then s.departCart (die * 256 + cart) else s
    | none => s)

/-! ### Ports and links (R265, R266) -/

/-- A plane carries traffic: its port is up and not held (R266, R268). -/
def State.planeUp (s : State) (plane n : Nat) : Bool :=
  let x := s.port (s.planePort plane)
  x.up && !x.held && decide (x.unacked + n ≤ 4095)

/-- Replies and acknowledgements that their planes can carry leave, in the order of each plane (R267). -/
def State.flushOut (s : State) : State :=
  s.outbox.foldl (fun (s : State) o =>
    let n := match o.2 with
      | .reply _ _ bs _ => 1 + bs.length / 64
      | _ => 1
    if s.outbox.any (fun x => decide (x.1 = o.1)) || !s.planeUp o.1 n then { s with outbox := s.outbox ++ [o] }
    else (s.sendFlits (s.planePort o.1) n).emit o.2) { s with outbox := [] }

/-- An answer to a peer goes out on the plane of its line. -/
def State.sendOut (s : State) (va : Nat) (o : Output) : State := ({ s with outbox := s.outbox ++ [(bits va 11 8, o)] }).flushOut

/-- A flit has entered a port's receive buffer: past three quarters of it, the other side is told to hold (R266). -/
def State.rxEnter (s : State) (p : Nat) : State :=
  let s := s.updPort p fun x => { x with rxFill := x.rxFill + 1 }
  if !(s.port p).rxHold && decide (3 * Config.rxFlits < 4 * (s.port p).rxFill) then (s.updPort p fun x => { x with rxHold := true }).emit (.flit p 3) else s

/-- Everything up to flit `a` has been received by the other side. -/
def Port.acked (x : Port) (a : BitVec 12) : Port :=
  let u := (x.txSeq - a).toNat
  if u < x.unacked then { x with unacked := u, replays := 0 } else x

/-- The switch reports a peer unreachable on the plane of a port (R286). -/
def State.reportLost (s : State) (port : Nat) (p : Option Nat) : State :=
  match p with
  | some p => if s.lostOn.contains (p, port) then s else { s with lostOn := (p, port) :: s.lostOn }
  | none => s

/-- FLIT_RECEIVE (R266): the expected flit is acknowledged, any other one is answered with a replay request. -/
def execFlitReceive (port : Nat) (f : Flit) (s : State) : Out :=
  .next (
    let x := s.port port
    if !x.up then s
    else if !f.crcOk then (s.updPort port fun y => { y with lastFlit := s.now }).emit (.flit port 1)
    else
      let take (y : Port) : Port := match f.ack with
        | some a => y.acked a
        | none => y
      if f.seq = x.rxSeq then (((s.reportLost port f.lost).updPort port fun y => { (take y) with rxSeq := y.rxSeq + 1#12, lastFlit := s.now }).emit (.flit port 0)).rxEnter port
      else (s.updPort port fun y => { (take y) with lastFlit := s.now }).emit (.flit port 1))

/-- A peer cools on a die: its parked fibres return, in the order in which they were parked (R178). -/
def State.coolOn (s : State) (p : Nat) : State :=
  let due := sortBy (fun a b => decide (a.putAt ≤ b.putAt)) (s.fibres.filter fun f => decide (f.parkedAt = some p) && f.retFrom.isNone && !s.hotPeer f.key.die p)
  due.foldl (fun (s : State) f => (s.updFibre f.key fun g => { g with retFrom := some s.serial }).bump) s

/-- A port leaves the hot sets of the peers that satisfy `q` (R283). -/
def State.unhint (s : State) (port : Nat) (q : Nat → Bool) : State :=
  let gone := s.hot.filter fun h => decide (h.2.2.1 = port) && q h.2.1
  let s1 : State := { s with hot := s.hot.filter fun h => !(decide (h.2.2.1 = port) && q h.2.1) }
  ((gone.map fun h => h.2.1).eraseDups).foldl (fun (s : State) p => s.coolOn p) s1

/-- A port declares its link down: its plane is dead (R266, R283). -/
def State.linkDown (s : State) (port : Nat) : State :=
  ({ s with lostOn := s.lostOn.filter fun e => e.2 ≠ port } : State).updPort port (fun x => { x with up := false, down := true, held := false }) |>.unhint port fun _ => true

/-- REPLAY_REQUEST (R266): flits from `seq` on are sent again; the sixteenth replay of one flit declares the link down. -/
def execReplayRequest (port : Nat) (seq : BitVec 12) (s : State) : Out :=
  .next (
    let x := s.port port
    let u := (x.txSeq - seq).toNat
    if !x.up ∨ u = 0 ∨ x.unacked < u then s
    else
      let r := if u < x.unacked then 1 else x.replays + 1
      if 16 ≤ r then s.linkDown port
      else (s.updPort port fun y => { y with unacked := u, replays := r, lastFlit := s.now }).emit (.flit port 2))

/-- A control flit has come on a port: its link is not silent (R266). -/
def State.heard (s : State) (port : Nat) : State := s.updPort port fun x => { x with lastFlit := s.now }

/-- BUFFER_HOLD (R266). -/
def execBufferHold (port : Nat) (s : State) : Out := .next (if (s.port port).up then (s.heard port).updPort port fun x => { x with held := true } else s)
/-- BUFFER_RELEASE (R266). -/
def execBufferRelease (port : Nat) (s : State) : Out := .next (if (s.port port).up then (s.heard port).updPort port fun x => { x with held := false } else s)
/-- LINK_DOWN (R266). -/
def execLinkDown (port : Nat) (s : State) : Out := .next (if (s.port port).up then s.linkDown port else s)
/-- LINK_SILENCE_TIMEOUT (R266): 10 microseconds, 14,000 cycles, without a flit. (DESIGN CHOICE, log 69) -/
def execLinkSilenceTimeout (port : Nat) (s : State) : Out :=
  .next (if (s.port port).up && decide ((s.port port).lastFlit + 14000 ≤ s.now) then s.linkDown port else s)
/-- LINK_TRAINED (R265): the port carries flits, numbered anew. -/
def execLinkTrained (port : Nat) (s : State) : Out :=
  .next (if port < 18 then { s with ports := s.ports.set port ⟨true, false, 0#12, 0#12, 0, 0, false, s.now, 0, false⟩ } else s)

/-! ### Hold hints (R283) -/

/-- HOLD_HINT_ON: every die adds the port to the peer's set. -/
def execHoldHintOn (port peer : Nat) (s : State) : Out :=
  .next (if (s.port port).up then
    { s.heard port with hot := (s.hot.filter fun h => !decide (h.2.1 = peer ∧ h.2.2.1 = port)) ++ (List.range 4).map fun d => (d, peer, port, s.now) } else s)
/-- HOLD_HINT_OFF. -/
def execHoldHintOff (port peer : Nat) (s : State) : Out := .next ((if (s.port port).up then s.heard port else s).unhint port fun p => decide (p = peer))
/-- HOLD_HINT_EXPIRY: 20 microseconds, 28,000 cycles, after the last hint. -/
def execHoldHintExpiry (port peer : Nat) (s : State) : Out :=
  .next (if s.hot.any fun h => decide (h.2.1 = peer ∧ h.2.2.1 = port ∧ h.2.2.2 + 28000 ≤ s.now) then s.unhint port fun p => decide (p = peer) else s)

/-! ### The exporter (R273) -/

/-- The checks of an access of `n` bytes by importer `peer` of tenancy `iten`: the location, or the refusal code. `kind` is 0 for a read, 1 for a write, 2 for an atomic. (DEDUCED, log 63) -/
def State.exportCheck (s : State) (peer iten win gen va n kind : Nat) : Except Nat Nat :=
  let e := s.window win
  if 4095 < win ∨ !e.v then .error 1
  else if gen ≠ e.gen.toNat then .error 2
  else if peer < winField e.image 0x10 2 ∨ winField e.image 0x12 2 < peer ∨ iten ≠ winField e.image 0x15 1 then .error 3
  else if va < winField e.image 0 8 ∨ winField e.image 0 8 + winField e.image 8 8 < va + n then .error 4
  else if !(winField e.image 0x14 1).testBit kind then .error 5
  else match s.translate e.ten va with
  | .fail _ => .error 6
  | .poison => .error 6
  | .ok l =>
    let loc := l.pa + va % 2 ^ l.sizeBits
    if l.mode ≠ 0 ∨ !isDram loc then .error 6
    else if l.pr ∨ (l.ro ∧ kind ≠ 0) ∨ s.onWindow (loc / 65536 * 65536) 65536 then .error 7
    else .ok loc

/-- An access that reaches the walk meets its leaf (R145, R146). -/
def State.exportWalk (s : State) (win va : Nat) : Except Nat Nat → State
  | .ok _ => s.meetVa none (s.window win).ten va
  | .error c => if c = 6 ∨ c = 7 then s.meetVa none (s.window win).ten va else s

/-- The operation of a cart element and whether it is signed (R275). -/
def elemOp (op : Nat) : AOp × Bool :=
  match op with
  | 1 => (.add, false) | 2 => (.and, false) | 3 => (.or, false) | 4 => (.xor, false)
  | 5 => (.min, true) | 6 => (.max, true) | 7 => (.min, false) | 8 => (.max, false) | _ => (.fadd, true)

/-- Bytes of SZ (R275). -/
def elemSize (sz : Nat) : Nat := if sz ≤ 4 then 2 ^ sz else 16

/-- The die that a port is on (R265). -/
def portDie (p : Nat) : Nat := if p < 5 then 0 else if p < 10 then 1 else if p < 14 then 2 else 3

/-- The exporter's leaf of an address has SA = 1 (R125, R240). -/
def State.exportSa (s : State) (win va : Nat) : Bool :=
  match s.translate (s.window win).ten va with
  | .ok l => l.sa
  | .fail _ => false
  | .poison => false

/-- A peer's write enters the apply queue of its home die, with a number of the die whose fabric interface it comes by (R224, R265). One that is a release carries the view of every write applied so far: the package cannot tell what its writer had seen, nor which write is one (DESIGN CHOICE, log 90). -/
def State.enterImport (s : State) (loc peer plane wid n : Nat) (kind : WKind) (sa : Bool) (grp : Nat) : State :=
  (s.askHost loc n).enterAq (portDie (s.planePort plane)) (.chan peer plane) wid loc n kind
    (if Config.peerRelease wid then some ⟨s.hist.length, []⟩ else none) sa grp false

/-- One access of an incoming packet: its elements, with the index of the first. It enters the apply queue of its home die, or fails (R273). -/
def State.importAccess (s : State) (h : CartHdr) (es : List CartElem) (i : Nat) : State × List Nat × List (Nat × Nat) :=
  match es with
  | [] => (s, [], [])
  | e :: _ =>
    let n := elemSize e.sz.toNat
    let data := leNat (es.flatMap fun x => leBytes 4 x.data.toNat)
    let op := e.op.toNat
    let r := s.exportCheck h.srcPeer h.srcTen e.win.toNat e.gen.toNat e.va.toNat n (if op = 0 then 1 else 2)
    let s := s.exportWalk e.win.toNat e.va.toNat r
    match r with
    | .error c => (s, [], [(i, c)])
    | .ok loc =>
      let (o, sg) := elemOp op
      let kind : WKind := if op = 0 then .store (leBytes n data) else .red o sg n (BitVec.ofNat 64 (data % 2 ^ (8 * n)))
      (s.bump.enterImport loc h.srcPeer h.plane s.serial n kind (s.exportSa e.win.toNat e.va.toNat) 0, [s.serial], [])

/-- Splits the elements of a packet into accesses, each with the index of its first element. -/
def packetAccesses (es : List CartElem) : List (Nat × List CartElem) :=
  (es.zipIdx.foldl (fun (acc : List (Nat × List CartElem)) e =>
    match acc with
    | (i, x) :: t => if e.1.op = 15#4 then (i, x ++ [e.1]) :: t else (e.2, [e.1]) :: acc
    | [] => [(e.2, [e.1])]) []).reverse

/-- Acknowledgements to peers whose writes have all been applied are due. (DEDUCED, log 62) -/
def State.sendAcks (s : State) : State :=
  let (due, rest) := s.acks.partition fun a => !(s.aq.any fun w => a.wids.contains w.wid)
  ({ s with acks := rest, outbox := s.outbox ++ due.map fun (a : AckDue) => (a.plane, Output.ack a.peer a.plane a.seq a.fails) }).flushOut

/-- A packet arrives (R273, R278): one that comes again is discarded (R268), one from a lost peer too (R286). Each channel numbers its own packets: that to this package, and those to its groups (R218, R276). -/
def State.importPacket (s : State) (h : CartHdr) (es : List CartElem) : State :=
  let key := (((h.srcPeer * 4 + h.srcDie) * 16 + h.plane) * 2 + (if h.group then 1 else 0)) * 4096 + (if h.group then h.dest % 4096 else 0)
  if !(s.port (s.planePort h.plane)).up then s else
  let s := s.rxLeave (s.planePort h.plane) 4
  if s.ownPeer.isNone || s.lost h.srcPeer then s else
  let s := s.answers h.srcPeer
  let old := match s.recvSeq.get? key with
    | some q => decide ((h.seq - q).toNat ≥ 32768 ∨ h.seq = q)
    | none => false
  if old then s else
  let s : State := { s with recvSeq := s.recvSeq.set key h.seq }
  let (s, ws, fs) : State × List Nat × List (Nat × Nat) := (packetAccesses es).foldl (fun (acc : State × List Nat × List (Nat × Nat)) a =>
    let (s1, w, f) := acc.1.importAccess h a.2 a.1
    (s1, acc.2.1 ++ w, acc.2.2 ++ f)) (s, [], [])
  ({ s with acks := s.acks ++ [AckDue.mk h.srcPeer h.plane h.seq ws fs] }).sendAcks

/-- The bytes that a peer's request accesses. -/
def inSize : InKind → Nat
  | .load n => n
  | .ldv => 4
  | .atom _ _ wide _ _ | .casv wide _ _ => if wide then 8 else 4
  | .rwl _ _ => 4

/-- The request is a read, as PERM has it (R273). -/
def inReads : InKind → Bool
  | .load _ | .ldv => true
  | .atom .. | .rwl .. | .casv .. => false

/-- Every write that has come before in the same channel and overlaps the bytes has been applied (R220, R223, R234). -/
def State.chanApplied (s : State) (peer va loc n : Nat) : Bool := !(s.aq.any fun w => decide (w.src = .chan peer (bits va 11 8)) && overlap w.loc w.n loc n)

/-- A peer's request that its home slice may perform now takes its step, and is answered. `m` is the word that it reads. -/
def State.importStep (s : State) (peer va loc m : Nat) (k : InKind) : State :=
  let n := (inSize k)
  let put (s : State) (b : Bool) (v : Nat) : State :=
    if b then s.bump.applyFrom none true (s.stampOf (portDie (s.planePort (bits va 11 8)))) s.serial loc (leBytes n v) (some ⟨s.hist.length, []⟩) else s
  let whole (s : State) (keep : Bool) : State := ((s.fillLine (loc / 256)).recall (loc / 256) keep).readLine loc n none keep
  let reply (s : State) (bs : List Byte) : State := s.sendOut va (.reply peer 0 bs [])
  match k with
  | .load _ => reply (s.readLine loc n none true) (s.mem.readBytes loc n)
  | .ldv =>
    let s := whole s true
    reply s (leBytes 8 (s.line loc).version ++ leBytes 4 m)
  | .atom op sg wide v e =>
    let (m', wr) := atomNew (match op with
      | 1 => .and | 2 => .or | 3 => .xor | 4 => .min | 5 => .max | 6 => .exch | 7 => .cas | 8 => .fadd | _ => .add) sg wide m v.toNat e.toNat
    reply (put (s.readLine loc n none false) wr m') (leBytes n m)
  | .rwl op counted =>
    let m' := rwlNew op counted m
    reply (put (s.readLine loc n none false) (m' ≠ m) m') (leBytes 4 m)
  | .casv _ expected new =>
    let s := whole s false
    let ok := decide ((s.line loc).version = expected.toNat)
    let s1 := put s ok new.toNat
    reply s1 (leBytes 8 ((s1.line loc).version + (if ok then 2 ^ 63 else 0)) ++ leBytes n m)

/-- The step of a peer's atomic on a page in host bias that has been read and not written (R242). It is known by what it asks (DESIGN CHOICE, log 96). -/
def State.import? (s : State) (peer win gen va : Nat) (k : InKind) : Option Import :=
  s.imports.find? fun i => decide (i.peer = peer ∧ i.win = win ∧ i.gen = gen ∧ i.va = va ∧ i.k = k)

/-- A peer's request is performed at its home slice, as an access of the fabric interface (R273, R274); on a page in host bias an atomic is a read and a write, each with its snoop, where SA = 0 (R240, R242). (DEDUCED, log 65) -/
def State.importRequest (s : State) (peer ten win gen va : Nat) (k : InKind) : State :=
  let n := (inSize k)
  let r := s.exportCheck peer ten win gen va n (if (inReads k) then 0 else 2)
  let s := s.exportWalk win va r
  match r with
  | .error c => s.sendOut va (.reply peer c [] [])
  | .ok loc =>
    let old := s.import? peer win gen va k
    let id := (old.map fun i => i.id).getD 0
    let span := if k = .ldv then (loc / 256 * 256, 256) else (loc, n)
    if s.pageHeld loc || s.lineHeld loc id || !s.chanApplied peer va span.1 span.2 then s
    else if !s.hostAnswered loc n then s.askHost loc n
    else if s.poisoned loc n then s.sendOut va (.reply peer 12 [] [])
    else if !(inReads k) && s.twoSteps loc (s.exportSa win va) && old.isNone then
      { ((s.useAnswer loc n).askHost loc n).bump.bump with imports := s.imports ++ [⟨s.serial + 1, peer, win, gen, va, k, loc, s.mem.read loc n⟩] }
    else
      let m := (old.map fun i => i.rd).getD (s.mem.read loc n)
      (({ s with imports := s.imports.filter fun i => i.id ≠ id } : State).snoop loc |>.useAnswer loc n).importStep peer va loc m k

/-- The elements of a bulk transfer that pass, and those that fail, by offset and code (R273). -/
def State.bulkCheck (s : State) (peer ten win gen va elem n kind : Nat) : List (Nat × Nat) × List (Nat × Nat) :=
  (List.range (n / max elem 1)).foldl (fun (acc : List (Nat × Nat) × List (Nat × Nat)) i =>
    match s.exportCheck peer ten win gen (va + i * elem) elem kind with
    | .ok loc => (acc.1 ++ [(i * elem, loc)], acc.2)
    | .error c => (acc.1, acc.2 ++ [(i * elem, c)])) ([], [])

/-- A peer's bulk write of one line: the elements that pass enter the apply queue, as one write event. (DESIGN CHOICE, log 64) -/
def State.importBulk (s : State) (peer ten win gen va elem : Nat) (bs : List Byte) : State :=
  let (good, bad) := s.bulkCheck peer ten win gen va elem bs.length 1
  let s := s.exportWalk win va (s.exportCheck peer ten win gen va elem 1)
  let plane := bits va 11 8
  let grp := s.serial
  let (s, ws) : State × List Nat := good.foldl (fun (acc : State × List Nat) g =>
    (acc.1.bump.enterImport g.2 peer plane acc.1.serial elem (.store ((bs.drop g.1).take elem)) false grp, acc.2 ++ [acc.1.serial])) (s.bump, [])
  ({ s with acks := s.acks ++ [AckDue.mk peer plane 0#16 ws bad] }).sendAcks

/-- A peer's bulk read of one line: bytes of refused elements read as zero in the answer. -/
def State.importBulkRead (s : State) (peer ten win gen va elem n : Nat) : State :=
  let (good, bad) := s.bulkCheck peer ten win gen va elem n 0
  let s := s.exportWalk win va (s.exportCheck peer ten win gen va elem 0)
  if good.any fun g => s.pageHeld g.2 || s.lineHeld g.2 0 || !s.chanApplied peer (va + g.1) g.2 elem then s
  else if good.any fun g => !s.hostAnswered g.2 elem then good.foldl (fun (s : State) g => if s.hostAnswered g.2 elem then s else s.askHost g.2 elem) s
  else if good.any fun g => s.poisoned g.2 elem then s.sendOut va (.reply peer 12 [] bad)
  else
    let bytes := (List.range (n / max elem 1)).flatMap fun i => match good.find? fun g => decide (g.1 = i * elem) with
      | some g => s.mem.readBytes g.2 elem
      | none => leBytes elem 0
    let s1 := good.foldl (fun (s : State) g => s.useAnswer g.2 elem) s
    ((good.head?.map fun g => (s1.snoop g.2).readLine g.2 n none true).getD s1).sendOut va (.reply peer 0 bytes bad)

/-! ### Plane channels and acknowledgements (R234, R278, R285) -/

def State.markDelivered (s : State) (die : Nat) (group : Bool) (peer plane : Nat) (seq : BitVec 16) : State :=
  let mark (u : Unacked) : Unacked := if u.die = die ∧ u.group = group ∧ u.peer = peer ∧ u.plane = plane ∧ u.seq = seq then { u with delivered := true } else u
  { s with unacked := s.unacked.map mark }

/-- Flits that an item of a channel takes. -/
def ChanItem.flits : ChanItem → Nat
  | .packet _ _ => 4
  | .request _ => 1
  | .bulk _ _ _ _ _ _ _ bs => 1 + bs.length / 64

/-- The item may still have to be sent again: its packet is not acknowledged, or its request or operation not answered. -/
def State.unanswered (s : State) (c : Chan) : ChanItem → Bool
  | .packet h _ => s.unacked.any fun u => decide (u.die = c.die ∧ u.group = c.group ∧ u.peer = c.peer ∧ u.plane = c.plane ∧ u.seq = h.seq)
  | .request r => (s.req? r).any fun q => q.ans.isNone && q.fail.isNone
  | .bulk o .. => (s.eop? o).any fun e => !e.landed && !e.ended && e.bulk.isSome

/-- The head of a channel has been delivered. -/
def State.popHead (s : State) (c : Chan) (i : ChanItem) (t : List ChanItem) : State :=
  { s with chans := s.chans.map fun x =>
      if x.die = c.die ∧ x.group = c.group ∧ x.peer = c.peer ∧ x.plane = c.plane then { x with items := t, flight := (x.flight.filter (s.unanswered c)) ++ [i] } else x }

/-- What a direct request asks of its peer (R274). -/
def Req.inKind (r : Req) : InKind :=
  match r.kind with
  | .ldv _ => .ldv
  | .atom op sg wide v e => .atom (match op with
      | .add => 0 | .and => 1 | .or => 2 | .xor => 3 | .min => 4 | .max => 5 | .exch => 6 | .cas => 7 | .fadd => 8) sg wide v e
  | .rwl op counted => .rwl op counted
  | .casv wide e v => .casv wide e v
  | .load .. | .ldf _ | .waitc .. | .twait _ | .valset .. | .frame | .pref => .load r.asked.2

/-- A direct request as the fabric carries it, from tenancy `t` (R273, R274). -/
def Req.carried (r : Req) (t : Nat) : Output :=
  match r.dest with
  | .peer _ p win gen _ => .request p t win gen r.unitAddr r.asked.1 r.inKind
  | .home _ => .request 0 t 0 0 r.unitAddr r.asked.1 r.inKind

/-- The head of an own channel is delivered to its peer. -/
def State.deliverHead (s : State) (die : Nat) (group : Bool) (peer plane : Nat) : State :=
  match s.chan? die group peer plane with
  | none => s
  | some c =>
    match c.items with
    | [] => s
    | i :: t =>
      if !s.planeUp plane i.flits || s.planeStalled plane || (!group && s.lost peer) then s else
      let s := (s.sendFlits (s.planePort plane) i.flits).popHead c i t
      match i with
      | .packet h es =>
        (s.markDelivered die group peer plane h.seq).emit (.packet h (es.map SentElem.elem))
      | .request r => (match s.req? r with
          | some q => (s.updReq r fun x => { x with delivered := true }).emit (q.carried (s.tenOf q.key))
          | none => s)
      | .bulk o write win gen va elem n bs => s.emit (.bulk peer group write (((s.eop? o).map fun e => (s.ctx e.ctx).ten).getD 0) win gen va elem n bs)

/-- What comes from a peer on the plane of an address: nothing while the plane's port is down; discarded while this package has no number or the peer is lost (R267, R269, R286). -/
def State.fromPeer (s : State) (peer va n : Nat) (act : State → State) : State :=
  let p := s.planePort (bits va 11 8)
  if !(s.port p).up then s else
  let s := s.rxLeave p n
  if s.ownPeer.isNone || s.lost peer then s else act (s.answers peer)

/-- CHANNEL_DELIVER (R234): of an own channel, or of a peer's at this package. -/
def execChannelDeliver (d : Delivery) (s : State) : Out :=
  .next (match d with
    | .out die group peer plane => s.deliverHead die group peer plane
    | .packet h es => s.importPacket h es
    | .request peer ten win gen va k => s.fromPeer peer va 1 fun s => s.importRequest peer ten win gen va k
    | .bulkWrite peer ten win gen va elem bytes => s.fromPeer peer va (1 + bytes.length / 64) fun s => s.importBulk peer ten win gen va elem bytes
    | .bulkRead peer ten win gen va elem n => s.fromPeer peer va 1 fun s => s.importBulkRead peer ten win gen va elem n)

/-- Splits the elements of a departed packet into accesses, each with the indexes it takes. -/
def indexAccesses (es : List SentElem) : List (List Nat × List SentElem) :=
  ((accesses es).foldl (fun (acc : Nat × List (List Nat × List SentElem)) a =>
    (acc.1 + a.length, acc.2 ++ [((List.range a.length).map fun i => acc.1 + i, a)])) (0, [])).2

/-- PACKET_ACKNOWLEDGE (R278, R285): the oldest delivered packet of a channel leaves K(c, d), with an entry for each failed access and, in a group, each member that failed it. -/
def State.acknowledge (s : State) (die : Nat) (group : Bool) (peer plane : Nat) (fails : List AckFail) : State :=
  let mine (u : Unacked) : Bool := decide (u.die = die ∧ u.group = group ∧ u.peer = peer ∧ u.plane = plane) && u.delivered
  match s.unacked.find? mine with
  | none => s
  | some u =>
    let s := (if group then s else s.answers peer).rxLeave (s.planePort plane) 1
    let s : State := { s with unacked := s.unacked.filter fun x => !(mine x && decide (x.seq = u.seq)) }
    (indexAccesses u.es).foldl (fun (s : State) a =>
      let fs := fails.filter fun f => a.1.contains f.elem
      let ps := (fs.map fun f => f.peer).eraseDups
      ps.foldl (fun (s : State) p =>
        match fs.find? fun f => decide (f.peer = p) with
        | some f => s.failAccess a.2 f.code (if group then p else peer) group
        | none => s) s) s

def execPacketAcknowledge (die : Nat) (group : Bool) (peer plane : Nat) (fails : List AckFail) (s : State) : Out :=
  .next (s.acknowledge die group peer plane fails)

/-! ### Planes and peers (R268, R269, R286) -/

/-- Packets, requests and bulk transfers that were sent on a plane and have no answer yet. -/
def State.planeBusy (s : State) (plane : Nat) : Bool := s.chans.any fun c => decide (c.plane = plane) && c.flight.any (s.unanswered c)

/-- What a dead link left unanswered is sent again, in its original order. -/
def State.resend (s : State) (plane : Nat) : State :=
  let again (c : Chan) : List ChanItem := c.flight.filter (s.unanswered c)
  let back (r : Nat) : Bool := s.chans.any fun c => decide (c.plane = plane) && (again c).contains (.request r)
  { s with
    reqs := s.reqs.map fun r => if back r.id then { r with delivered := false } else r
    chans := s.chans.map fun c => if c.plane = plane then { c with items := again c ++ c.items, flight := [] } else c
    unacked := s.unacked.map fun u => if u.plane = plane then { u with delivered := false } else u }

/-- PMAP takes the plane's new port and PGEN rises (R268 step 3). -/
def State.writePmap (s : State) (plane port : Nat) : State :=
  let put (v : DWord) (lo : Nat) : DWord := BitVec.ofNat 64 (v.toNat - bits v.toNat (lo + 4) lo * 2 ^ lo + port * 2 ^ lo)
  let s1 := if plane < 12 then s.setReg offPmapa (put (s.reg offPmapa) (5 * plane)) else s.setReg offPmapb (put (s.reg offPmapb) (5 * (plane - 12)))
  let b := (s1.reg offPmapb).toNat
  s1.setReg offPmapb (BitVec.ofNat 64 (b - bits b 27 20 * 2 ^ 20 + (bits b 27 20 + 1) % 256 * 2 ^ 20))

/-- Steps 2 to 5 of R268, once the plane has drained or its link is down. -/
def State.finishRemap (s : State) (plane port : Nat) : State :=
  let dead := !(s.port (s.planePort plane)).up
  if !dead && s.planeBusy plane then s else
  let s1 := ({ s with remaps := s.remaps.del plane }).writePmap plane port
  if dead then s1.resend plane else s1

/-- Every remap that can go on. -/
def State.finishRemaps (s : State) : State := s.remaps.foldl (fun (s : State) e => s.finishRemap e.1 e.2) s

/-- PLANE_REMAP (R268): accesses to the plane's lines stall until it has its new port. -/
def State.planeRemap (s : State) (plane port : Nat) : State :=
  if 16 ≤ plane ∨ 18 ≤ port then s else ({ s with remaps := s.remaps.set plane port }).finishRemap plane port

def execPlaneRemap (plane port : Nat) (s : State) : Out := .next (s.planeRemap plane port)

/-- What this package has sent to a peer has had no acknowledgement or answer for 80 microseconds, 112,000 cycles (R286). -/
def State.silent (s : State) (peer : Nat) : Bool :=
  s.unacked.any (fun u => decide (!u.group ∧ u.peer = peer ∧ u.born + 112000 ≤ s.now))
  || s.reqs.any (fun r => r.ans.isNone && r.fail.isNone && decide (r.born + 112000 ≤ s.now) && (match r.dest with
    | .peer _ p _ _ _ => decide (p = peer)
    | .home _ => false))
  || s.chans.any fun c => decide (!c.group ∧ c.peer = peer) && (c.items ++ c.flight).any fun i => match i with
    | .bulk o .. => (s.eop? o).any fun e => !e.landed && !e.ended && decide (e.born + 112000 ≤ s.now)
    | .packet .. | .request _ => false

/-- The peers that owe this package an answer. -/
def State.peersOwing (s : State) : List Nat :=
  ((s.unacked.filter fun u => !u.group).map (fun u => u.peer) ++ (s.reqs.filterMap fun r => match r.dest with
      | .peer g p _ _ _ => if g then none else some p
      | .home _ => none)
    ++ ((s.chans.filter fun c => !c.group && !(c.items ++ c.flight).isEmpty).map fun c => c.peer)).eraseDups

/-- The planes whose ports are up. -/
def State.activePlanes (s : State) : List Nat := (List.range 16).filter fun i => (s.port (s.planePort i)).up

/-- PEER_PROBE (R286): a silent peer is probed, once, on every active plane. -/
def State.peerProbe (s : State) (peer : Nat) : State :=
  if !s.silent peer || s.lost peer || (s.probes.get? peer).isSome then s else
  s.activePlanes.foldl (fun (s : State) i => (s.sendFlits (s.planePort i) 1).emit (.probe peer i)) { s with probes := s.probes.set peer s.now }

def execPeerProbe (peer : Nat) (s : State) : Out := .next (s.peerProbe peer)

/-- A probe of a peer has gone unanswered for 20 microseconds, 28,000 cycles (R286). -/
def State.probeFailed (s : State) (peer : Nat) : Bool := (s.probes.get? peer).any fun t => decide (t + 28000 ≤ s.now)

/-- A peer is declared lost (R286). -/
def State.peerLost (s : State) (p : Nat) : State :=
  if 1024 ≤ p ∨ s.lost p then s else
  let s := s.setReg (offLost (p / 64)) (s.reg (offLost (p / 64)) ||| (1#64 <<< (p % 64)))
  let toP (r : Req) : Bool := match r.dest with
    | .peer g q _ _ _ => !g && decide (q = p)
    | .home _ => false
  let s : State := { s with
    chans := s.chans.map fun c => if !c.group ∧ c.peer = p then { c with items := [], flight := [] } else c
    imports := s.imports.filter fun i => i.peer ≠ p
    probes := s.probes.del p
    lostOn := s.lostOn.filter fun e => e.1 ≠ p }
  let s := (s.reqs.filter toP).foldl (fun (s : State) r =>
    let s := s.updReq r.id fun q => { q with fail := if q.ans.isSome then q.fail else some (2, 8) }
    if (s.awayOf r.key).isSome then s.lateReply r.id .own else s.bring r.id) s
  let parked := sortBy (fun a b => decide (a.putAt ≤ b.putAt)) (s.fibres.filter fun f => decide (f.parkedAt = some p) && f.retFrom.isNone)
  let s := parked.foldl (fun (s : State) f => (s.updFibre f.key fun g => { g with retFrom := some s.serial }).bump) s
  let cs := s.carts.filter fun e => decide (!e.2.group ∧ e.2.peer = p)
  let s : State := { s with carts := s.carts.filter fun e => !decide (!e.2.group ∧ e.2.peer = p) }
  let s := cs.foldl (fun (s : State) e => (accesses e.2.elems).foldl (fun (s : State) a => s.failAccess a 8 p false) s) s
  let us := s.unacked.filter fun u => decide (!u.group ∧ u.peer = p)
  let s : State := { s with unacked := s.unacked.filter fun u => !decide (!u.group ∧ u.peer = p) }
  us.foldl (fun (s : State) u => (accesses u.es).foldl (fun (s : State) a => s.failAccess a 8 p false) s) s

/-- The switch has reported a peer unreachable on every active plane (R286). -/
def State.unreachable (s : State) (peer : Nat) : Bool :=
  !s.activePlanes.isEmpty && s.activePlanes.all fun i => s.lostOn.contains (peer, s.planePort i)

/-- PEER_LOST (R286): the switch has reported the peer unreachable on every active plane, or a probe of it has gone unanswered. -/
def execPeerLost (peer : Nat) (s : State) : Out := .next (if s.unreachable peer || s.probeFailed peer then s.peerLost peer else s)

/-- PEER_READMIT (R286): the steward clears the bit; the peer, newly reset, numbers its packets anew. (DEDUCED, log 66) -/
def execPeerReadmit (peer : Nat) (s : State) : Out :=
  .next (if peer < 1024 then
    { s.setReg (offLost (peer / 64)) (s.reg (offLost (peer / 64)) &&& ~~~(1#64 <<< (peer % 64))) with
      recvSeq := s.recvSeq.filter fun e => e.1 / 524288 ≠ peer } else s)

/-- PEER_NUMBER_ASSIGN (R269). -/
def execPeerNumberAssign (n : Nat) (s : State) : Out :=
  .next (if n < 1024 then s.setReg offFabid (BitVec.ofNat 64 (1024 + n)) else s)

/-! ### Engines (R205, R207, R210 to R215, R232) -/

/-- ENGINE_THREAD_COMPLETE (R232). -/
def execEngineThreadComplete (op : Nat) (s : State) : Out := .next (s.completeOp op)

/-- The next `n` answers to the bulk transfers of an operation, in the order of their addresses, have come and are taken: their flits leave the receive buffers of their planes' ports, and their peers are not silent (R266, R274, R286). -/
def State.answered (s : State) (op n : Nat) : State :=
  let mine (c : Chan) : List (Chan × ChanItem × Nat × Nat) := c.flight.filterMap fun i => match i with
    | .bulk o w _ _ va _ m _ => if o = op then some (c, i, va, if w then 1 else 1 + m / 64) else none
    | .packet .. | .request _ => none
  ((sortBy (fun a b => decide (a.2.2.1 ≤ b.2.2.1)) (s.chans.flatMap mine)).take n).foldl (fun (s : State) x =>
    let t := ({ s with chans := s.chans.map fun c => if c.die = x.1.die ∧ c.group = x.1.group ∧ c.peer = x.1.peer ∧ c.plane = x.1.plane then { c with flight := c.flight.erase x.2.1 } else c } : State).rxLeave (s.planePort x.1.plane) x.2.2.2
    if x.1.group then t else t.answers x.1.peer) s

/-- The state after a move of an operation that was given `n` answers in state `s`: they are taken where it has moved. -/
def State.tookAnswers (t s : State) (op n : Nat) : State := if n = 0 ∨ t.eop? op = s.eop? op then t else t.answered op n

/-- What ends the unit that waits for an operation. -/
def finishOf (op : EngineOp) : Finish :=
  match op.kind with
  | .tdset => tdsetFin
  | .tdget | .monrd => writeFin
  | .tdinv => tdinvFin
  | .mscl => msclFin
  | .monset => monsetFin
  | .wopen => wopenFin
  | .wrevoke => wrevokeFin
  | .save => saveFin
  | .rest => restFin
  | .keyld => keyldFin
  | .evict => evictFin
  | .mzero | .mma | .mdrn | .cpy | .tmm => fun s op _ => some (s.unitEnds op op.view)

/-- An operation whose unit waits makes its next move: nothing before its thread has forked and its bulk transfers are delivered. -/
def State.waitMove (s : State) (op : EngineOp) (remote : List LineAnswer) : State :=
  if !op.forked then s else
  let s := s.sendsOf op
  match s.mover? op.id with
  | some e => (finishOf e s e remote).getD s
  | none => s

/-- WAITING_UNIT_END (R232): the fibre's unit ends when its thread may fork and its rule allows it. A tile it waits for is granted first (R196). -/
def State.waitingUnitEnd (s : State) (k : FKey) (remote : List LineAnswer) : State :=
  if s.midChain k then s else
  match s.fibre? k with
  | none => s
  | some f =>
    match f.waits.findSome? fun w => w.wait.engine? with
    | some o =>
      (match s.eop? o with
        | none => s.updFibre k fun g => g.unwait fun w => decide (w = .engine o)
        | some op =>
          if op.ended then s.unitEnds op op.view
          else (s.waitMove op remote).tookAnswers s o remote.length)
    | none => s

def execWaitingUnitEnd (k : FKey) (remote : List LineAnswer) (s : State) : Out := .next (s.waitingUnitEnd k remote)

/-- MZERO_APPLY (R205). -/
def execMzeroApply (c t : Nat) (s : State) : Out := .next (s.mzeroApply c t)
/-- MMA_APPLY (R207). -/
def execMmaApply (c t : Nat) (s : State) : Out := .next (s.mmaApply c t)
/-- MDRN_APPLY (R210). -/
def execMdrnApply (c t : Nat) (remote : List LineAnswer) (s : State) : Out :=
  .next ((s.mdrnApply c t remote).tookAnswers s (((s.tileNext? c t).map fun e => e.id).getD 0) remote.length)
/-- COPY_LANDED (R212). -/
def execCopyLanded (op : Nat) (remote : List LineAnswer) (s : State) : Out := .next ((s.copyLanded op remote).tookAnswers s op remote.length)
/-- TMM_CHUNK (R214). -/
def execTmmChunk (op : Nat) (remote : List LineAnswer) (s : State) : Out := .next ((s.tmmChunk op remote).tookAnswers s op remote.length)

end Sys2Proof.Machine
end

