-- ==== Sys2Proof/Machine/HostEvents.lean ====
section
/-! DEFINITION. What the host does to the package: its accesses (R143 to R146, R237, R238), and writes of the dispatch registers (R27, R42, R124, R304, R364). -/

namespace Sys2Proof.Machine

/-! ### Host accesses (R237) -/

/-- Bytes that the host may reach: the HDM range (R25), once the steward has enabled it (R366), or its own memory at 2^51. (DEDUCED, log 81) -/
def State.hostReach (s : State) (a n : Nat) : Bool := (s.booted && decide (a + n ≤ hdmLimit)) || (decide (hostBase ≤ a) && decide (a + n ≤ 2 ^ 52))

/-- Splits `n` bytes at an address where 64 KiB pages end: (offset, length) pairs. -/
def hostPieces (a : Nat) : Nat → Nat → Nat → List (Nat × Nat)
  | 0, _, _ => []
  | fuel + 1, off, n =>
    if n = 0 then [] else
    let m := min n (65536 - (a + off) % 65536)
    (off, m) :: hostPieces a fuel (off + m) (n - m)
def pageParts (a n : Nat) : List (Nat × Nat) := hostPieces a (n / 65536 + 2) 0 n

/-- An access of the host to a busy slot waits until its commit line has been re-read (R22, R31): the lines are read, in ascending order, before the access is made. -/
def State.readBusy (s : State) (a n : Nat) : State :=
  if (List.range (lineCount a n)).any fun i => s.slotBusy (a + 256 * i) then (sortNat s.staleSlots).foldl (fun (s : State) k => s.rereadLine k) s else s

/-- The host's writes that have entered, as the view of its next one (R237). -/
def State.hostView (s : State) : View := ⟨0, s.hostWids⟩

/-- A host write within one page: dropped in the attribute table (R143) and in protected pages (R146); held while the page flips (R145); applied at once in host bias, where the host may hold the line from then on, and in host memory; otherwise it enters the apply queue of its home die (R237). -/
def State.hostPut (s : State) (a : Nat) (bs : List Byte) : State :=
  if !isHost a && (decide (dramLimit < a + bs.length) || (s.page a).prot) then s
  else if !isHost a && (s.page a).flipping then { s with hostHeld := s.hostHeld ++ [⟨a, bs.length, some bs⟩] }
  else
    let v := s.hostView
    let s := s.bump
    let s : State := { s with hostWids := (s.serial - 1) :: s.hostWids }
    if isHost a then s.applyBytes (s.serial - 1) a bs (some v)
    else if s.hostBias a then
      let s1 := (s.useAnswer a bs.length).applyBytes (s.serial - 1) a bs (some v)
      { s1 with hostCommits := s1.hostCommits ++ s.committed a bs.length }
    else s.enterAq 0 .host (s.serial - 1) a bs.length (.store bs) (some v) false 0 false

/-- A host write, page by page. -/
def State.hostStore (s : State) (a : Nat) (bs : List Byte) : State :=
  (pageParts a bs.length).foldl (fun (s : State) p => s.hostPut (a + p.1) ((bs.drop p.1).take p.2)) (s.readBusy a bs.length)

/-- HOST_WRITE (R237). -/
def execHostWrite (addr : Nat) (bytes : List Byte) (s : State) : Out :=
  if s.hostReach addr bytes.length then .next (s.hostStore addr bytes) else .fault .outsideHdmRange

/-- A host read within one page: zero in the attribute table (R143), all-ones marked poisoned in a protected page (R146), held while the page flips (R145), else mo-last of the bytes (R237). -/
def State.hostGet (s : State) (a n : Nat) : State :=
  if isHost a then s.emit (.hostData a (s.mem.readBytes a n) false)
  else if dramLimit < a + n then s.emit (.hostData a (List.replicate n 0#8) false)
  else if (s.page a).prot then s.emit (.hostData a (List.replicate n 0xFF#8) true)
  else if (s.page a).flipping then { s with hostHeld := s.hostHeld ++ [⟨a, n, none⟩] }
  else (if s.hostBias a then s.useAnswer a n else s.hostTouch a true (lineCount a n)).emit (.hostData a (s.mem.readBytes a n) (s.poisoned a n))

/-- A host read, page by page. -/
def State.hostLoad (s : State) (a n : Nat) : State :=
  (pageParts a n).foldl (fun (s : State) p => s.hostGet (a + p.1) p.2) (s.readBusy a n)

/-- HOST_READ (R237). -/
def execHostRead (addr n : Nat) (s : State) : Out :=
  if s.hostReach addr n then .next (s.hostLoad addr n) else .fault .outsideHdmRange

/-! ### Bias flips (R144, R145, R238) -/

/-- Writes to a page that have not been applied. -/
def State.pageWrites (s : State) (page : Nat) (hostOnly : Bool) : Bool :=
  s.aq.any (fun w => decide (w.loc / 65536 = page) && (!hostOnly || decide (w.src = .host)))
  || (!hostOnly && s.fibres.any fun f => f.wb.any fun w => match w.dest with
      | .home l => decide (l / 65536 = page)
      | .peer .. => false)

/-- The host accesses that a flip of the page has stalled go on, in their order (R145). -/
def State.hostResume (s : State) (page : Nat) : State :=
  (s.hostHeld.filter fun h => h.addr / 65536 = page).foldl (fun (s : State) h => match h.data with
    | some bs => s.hostPut h.addr bs
    | none => s.hostGet h.addr h.n) { s with hostHeld := s.hostHeld.filter fun h => h.addr / 65536 ≠ page }

/-- FLIP_END (R145, R238). Either way the lines of the page leave slices and L1s. Where the latest walk has asked for the other bias meanwhile, the page flips back. -/
def State.flipEnd (s : State) (page : Nat) : State :=
  let a := s.pages.getD page PageAttr.init
  if !a.flipping || a.waitHost || s.pageWrites page a.hostBias then s
  else
    let s := s.leavePage page
    let s : State := { s with
      pages := s.pages.set page { a with hostBias := !a.hostBias, flipping := false, asked := [], answered := [] }
      hbits := if a.hostBias then s.hbits.filter fun l => l / 256 ≠ page else s.hbits }
    if a.want = a.hostBias && !s.inWindow (page * 65536) 65536 then s.flipStart page else s.hostResume page

def execFlipEnd (page : Nat) (s : State) : Out := .next (s.flipEnd page)

/-- The host has answered the snoops of a page: every line that it was asked for is answered. -/
def PageAttr.reply (a : PageAttr) : PageAttr := { a with waitHost := false, asked := [], answered := a.answered ++ a.asked.filter fun x => !a.answered.contains x }

/-- SNOOP_RESPONSE (R144): the host has answered the back-invalidate snoops of a page. -/
def execSnoopResponse (page : Nat) (s : State) : Out :=
  .next { s with pages := s.pages.map fun e => if e.1 = page then (e.1, e.2.reply) else e }

/-- HOST_SNOOP (R34): the device gives up its copy of a line of host memory, and watched dependence words in it are read again. -/
def State.hostSnoop (s : State) (addr : Nat) : State :=
  let hits (t : Nat) (v : DWord) : Bool := v ≠ 0#64 && (match s.packageLoc? t v.toNat with
    | some l => decide (l / 64 = addr / 64)
    | none => false)
  s.pending.foldl (fun (s : State) p =>
    let s := if hits p.lrec.ten p.lrec.dep0 then s.testDep p.order false else s
    if hits p.lrec.ten p.lrec.dep1 then s.testDep p.order true else s) s

def execHostSnoop (addr : Nat) (s : State) : Out := .next (s.hostSnoop addr)

/-! ### Registers with behaviour (R42, R124, R304, R364) -/

/-- XINV (R124). -/
def execXinv (t : Nat) (v : DWord) (s : State) : Out := .next (if t < 8 then s.writeXinv t v else s)

/-- INVALIDATION_COMPLETE (R128). -/
def execInvalidationComplete (t : Nat) (s : State) : Out := .next (if t < 8 then s.invalidationComplete t else s)

/-- A write of TROWS (R42): ignored as a whole where it would give one row to two tenancies. -/
def State.writeTrows (s : State) (t : Nat) (v : DWord) : State :=
  let rows := v.toNat % 2 ^ 32
  if 8 ≤ t ∨ ((List.range 8).any fun u => decide (u ≠ t ∧ (s.reg (offTrows u)).toNat % 2 ^ 32 &&& rows ≠ 0)) then s
  else s.setReg (offTrows t) (BitVec.ofNat 64 rows)

def execTrows (t : Nat) (v : DWord) (s : State) : Out := .next (s.writeTrows t v)

/-- A write of CTXKILL (R304): a running context halts with cause 0x28. (DEDUCED, log 61) -/
def State.writeCtxkill (s : State) (v : DWord) : State :=
  let n := v.toNat % 512
  if (s.ctx n).st = 1 ∨ (s.ctx n).st = 2 then s.halt n ⟨16, 0x28, 0#64, none, 0⟩ else s

def execCtxkill (v : DWord) (s : State) : Out := .next (s.writeCtxkill v)

/-- Contexts of a tenancy that run, save or halt. -/
def State.busyCtxs (s : State) (t : Nat) : List Nat := (s.ctxs.filter fun e => decide (e.2.ten = t ∧ (e.2.st = 1 ∨ e.2.st = 2 ∨ e.2.st = 6))).map Prod.fst

/-- TRST (R364): GO rises, and the running contexts of the tenancy halt. -/
def State.startReset (s : State) (t : Nat) : State :=
  if 8 ≤ t ∨ (s.reg (offTrst t)).getLsbD 0 then s
  else
    let s := s.setReg (offTrst t) 1#64
    (s.busyCtxs t).foldl (fun (s : State) n => s.halt n ⟨16, 0x28, 0#64, none, 0⟩) s

def execTrst (t : Nat) (s : State) : Out := .next (s.startReset t)

/-- Steps 3 and 4 of R364: pending launches are discarded, windows close, keys are erased and translations are invalidated. -/
def State.resetSteps (s : State) (t : Nat) : State :=
  let mine := s.pending.filter fun p => decide (p.lrec.ten = t)
  let s : State := { s with
    pending := s.pending.filter fun p => decide (p.lrec.ten ≠ t)
    stolen := s.stolen.filter fun x => !mine.any fun p => decide (p.order = x.1) }
  let s := mine.foldl (fun (s : State) p =>
    (s.cancelLoans fun l => decide (l.order = p.order)).report t p.lrec.tag.toNat 4 0 p.slot 0 p.lrec.vec) s
  let s := ((s.wins.filter fun e => e.2.v && decide (e.2.ten = t)).map Prod.fst).foldl (fun (s : State) w => s.closeWindow w) s
  let s : State := { s with keys := s.keys.map fun e => if e.2.ten = t then (e.1, ⟨none, e.2.ten⟩) else e }
  s.startFlips t 0 (2 ^ 52)

/-- TENANCY_RESET_DONE (R364): once the tenancy's contexts have halted, the rest of the steps; GO clears when the windows have closed and the invalidation is complete (R128). -/
def State.finishReset (s : State) (t : Nat) : State :=
  if !(s.reg (offTrst t)).getLsbD 0 || !(s.busyCtxs t).isEmpty then s
  else
    let s := (s.resetSteps t).drainTenancy t
    if s.importsApplied && s.invalidated t (0, 2 ^ 52) then (s.dropEntries t (0, 2 ^ 52)).setReg (offTrst t) 0#64 else s

def execTenancyResetDone (t : Nat) (s : State) : Out := .next (if t < 8 then s.finishReset t else s)

/-! ### Register writes (R27) -/

/-- What a register offset of the dispatch block is. -/
inductive RegKind where
  /-- the writable bits -/
  | plain (mask : Nat)
  /-- the writable bits, and bits that a written 1 clears -/
  | clears (mask w1c : Nat)
  | mcstat | lwin | trows (t : Nat) | xinv (t : Nat) | ctxkill | trst (t : Nat) | dqctl (q : Nat) | dqdbuf (q : Nat)
  /-- read-only, or no register -/
  | none
  deriving DecidableEq, Repr

/-- Bits [hi:lo] as a mask. -/
def field (hi lo : Nat) : Nat := 2 ^ (hi + 1) - 2 ^ lo

/-- The register at an offset. -/
def regKind (off : Nat) : RegKind :=
  if off = offLwin then .lwin
  else if 0x9000 ≤ off ∧ off < 0x9200 then
    (match off % 0x40 with
      | 0x00 => .plain (field 63 0)
      | 0x08 => .plain (field 15 8)
      | 0x10 => .plain (field 63 12)
      | 0x18 => .plain (field 15 12 + 1)
      | 0x20 => .plain (field 63 0)
      | 0x30 => .clears 0 1
      | 0x38 => .trows ((off - 0x9000) / 0x40)
      | _ => .none)
  else if 0xA000 ≤ off ∧ off < 0xA100 then
    (match off % 0x20 with
      | 0x00 => .plain (field 40 16 + 1)
      | 0x08 => .xinv ((off - 0xA000) / 0x20)
      | 0x10 => .plain (field 63 8 + 1)
      | 0x18 => .clears (field 41 32 + field 15 0) (2 ^ 63)
      | _ => .none)
  else if 0xB000 ≤ off ∧ off < 0xB100 then
    (match off % 0x20 with
      | 0x00 => .plain (field 63 8 + 1)
      | 0x08 => .plain (field 6 0)
      | 0x10 => .plain (field 63 16 + 1)
      | 0x18 => .plain (field 63 16)
      | _ => .none)
  else if 0xD000 ≤ off ∧ off < 0xD200 ∧ off % 8 = 0 then .plain (field 8 3 + 3)
  else if 0xD800 ≤ off ∧ off < 0xD880 then
    (if off % 0x10 = 0 then .plain (field 63 8 + 1) else if off % 0x10 = 8 then .clears (field 15 0) (2 ^ 63) else .none)
  else if off = 0xE800 then .ctxkill
  else if 0xF000 ≤ off ∧ off < 0xF040 ∧ off % 8 = 0 then .trst ((off - 0xF000) / 8)
  else if off = offMcstat then .mcstat
  else if off = 0xF100 then .plain (field 47 32)
  else if 0x300000 ≤ off ∧ off < 0x308000 then
    (if off % 0x20 = 0 then .dqctl ((off - 0x300000) / 0x20) else if off % 0x20 = 8 then .dqdbuf ((off - 0x300000) / 0x20) else .none)
  else if 0x310000 ≤ off ∧ off < 0x320000 then
    (if 0xC0 ≤ off % 0x100 then .none
     else if off % 0x10 = 0 then .plain (field 63 2)
     else if off % 0x10 = 8 then .plain (field 63 32 + field 19 12 + field 9 3 + 1)
     else .none)
  else if 0x320000 ≤ off ∧ off < 0x320080 then
    (if off % 0x20 = 0 then .plain (field 63 2 + 1) else if off % 0x20 = 8 then .clears (field 23 0) (2 ^ 63) else .none)
  else .none

/-- A host write of 64 bits to a register (R27). (DESIGN CHOICE, log 68) -/
def State.writeReg (s : State) (off : Nat) (v : DWord) : State :=
  let old := (s.reg off).toNat
  let merge (mask : Nat) : Nat := (old &&& (2 ^ 64 - 1 - mask)) ||| (v.toNat &&& mask)
  match regKind off with
  | .plain mask => s.setReg off (BitVec.ofNat 64 (merge mask))
  | .clears mask w => s.setReg off (BitVec.ofNat 64 (merge mask &&& (2 ^ 64 - 1 - (v.toNat &&& w))))
  | .mcstat => if v.toNat % 4 = 0 then s else s.setReg off (BitVec.ofNat 64 (old / 4 * 4))
  | .lwin => s.writeLwin v
  | .trows t => s.writeTrows t v
  | .xinv t => s.writeXinv t v
  | .ctxkill => s.writeCtxkill v
  | .trst t => if v.getLsbD 0 then s.startReset t else s
  | .dqctl q =>
    let s := s.updQuarter q fun x => { x with dqctl := BitVec.ofNat 64 (v.toNat &&& (field 63 32 + 8)) }
    let s := if v.getLsbD 2 && (s.quarter q).stopped then s.quarterRelease q (v.extractLsb' 32 32)
      else if v.getLsbD 1 then s.preciseStop q 1 0 else s
    s
  | .dqdbuf q => s.updQuarter q fun x => { x with dqdbuf := BitVec.ofNat 64 (v.toNat &&& (field 63 8 + 1)) }
  | .none => s

/-- REGISTER_WRITE (R27). -/
def execRegisterWrite (off : Nat) (v : DWord) (s : State) : Out := .next (s.writeReg off v)

/-! ### Register values -/

/-- The aligned word at an offset of the dispatch block. Once a share is released, every field of its registers reads 0 (DESIGN CHOICE, log 93). -/
def State.regWord (s : State) (off : Nat) : DWord :=
  if 0x10000 ≤ off ∧ off < 0x12000 then
    let n := (off - 0x10000) / 16
    let x := s.ctx n
    if off % 16 = 0 then BitVec.ofNat 64 (x.st * 2 ^ 56 + x.ten * 2 ^ 53 + (if x.prot then 2 ^ 52 else 0) + x.keyslot * 2 ^ 46 + (if x.rstd then 2 ^ 45 else 0)
      + (if x.priv then 2 ^ 44 else 0) + x.lrec.tag.toNat)
    else if off % 16 = 8 then x.sctr else 0#64
  else if 0x9000 ≤ off ∧ off < 0x9200 ∧ off % 0x40 = 8 then
    BitVec.ofNat 64 ((s.reg off).toNat + s.pendingOfTen ((off - 0x9000) / 0x40) % 512 * 2 ^ 16)
  else if off = 0xC018 then
    BitVec.ofNat 64 ((List.range 18).foldl (fun a i => a + (if (s.port i).up then 2 ^ i else 0) + (if (s.port i).down then 2 ^ (32 + i) else 0)) 0)
  else if 0xC0C0 ≤ off ∧ off < 0xC140 then
    BitVec.ofNat 64 ((List.range 64).foldl (fun a j => a + if s.hot.any fun h => decide (h.2.1 = 64 * ((off - 0xC0C0) / 8) + j) then 2 ^ j else 0) 0)
  else if 0x100000 ≤ off ∧ off < 0x110000 then
    let sh := (off - 0x100000) / 0x100 * 4 + off % 0x100 / 0x10
    let h := s.shares.getD sh blankHousehold
    if 0x40 ≤ off % 0x100 then 0#64
    else if off % 0x10 = 0 then
      BitVec.ofNat 64 ((if (s.shares.get? sh).isSome then 2 ^ 31 else 0) + h.ten * 2 ^ 28 + h.prio * 2 ^ 26 + h.lim * 2 ^ 16 + h.base + h.bnda * 2 ^ 32)
    else BitVec.ofNat 64 (h.bndb + h.bndc * 2 ^ 32)
  else if 0x110000 ≤ off ∧ off < 0x120000 ∧ off % 0x100 < 0x20 then
    (match (s.shares.getD ((off - 0x110000) / 0x100 * 4 + off % 0x100 / 8) blankHousehold).lend with
      | some (b1, n, b) => BitVec.ofNat 64 (b1 * 2 ^ 32 + n * 2 ^ 16 + b)
      | none => 0#64)
  else if 0x200000 ≤ off ∧ off < 0x200400 then
    let d := (off - 0x200000) / 0x100
    let i := off % 0x100
    if i < 0x40 then BitVec.ofNat 64 (leNat (((s.smapOf d).drop (i / 8 * 8)).take 8 |>.map fun x => BitVec.ofNat 8 x))
    else if i = 0x40 then BitVec.ofNat 64 (s.smapGen.getD d 0) else 0#64
  else if 0x300000 ≤ off ∧ off < 0x308000 then
    let q := (off - 0x300000) / 0x20
    if off % 0x20 = 0 then BitVec.ofNat 64 ((s.quarter q).dqctl.toNat + if (s.quarter q).stopped then 1 else 0)
    else if off % 0x20 = 8 then (s.quarter q).dqdbuf else 0#64
  else s.reg off

/-- What the 64 bits at any offset of the dispatch block hold, as the host reads them and as curfew shows them (R27, R45, R347). -/
def State.readReg (s : State) (off : Nat) : DWord :=
  if off % 8 = 0 then s.regWord off
  else ((s.regWord (off / 8 * 8 + 8) ++ s.regWord (off / 8 * 8)) >>> (8 * (off % 8))).extractLsb' 0 64

end Sys2Proof.Machine
end

