-- ==== Sys2Proof/Machine/DeviceEvents.lean ====
section
/-! DEFINITION. The package as a device: the test access port (R346, R347), resets and secure boot (R363, R366), the DOE mailbox (R367 to R369), clocks (R370, R371), slice retirement (R142), ECC (R140) and the steward's keys (R320). -/

namespace Sys2Proof.Machine

/-! ### Reset (R363) -/

/-- What a package reset leaves: the reset state, but for what lies outside the package, what is non-volatile (R320), and the model's own fields. Device memory is undefined afterwards (DESIGN CHOICE, log 1). -/
def State.packageReset (s : State) : State :=
  { State.reset with
    mem := s.mem.filter fun c => isHost c.1
    peerCode := s.peerCode
    hwm := s.hwm
    boots := s.boots
    out := s.out
    agenda := s.agenda
    leaving := s.leaving
    pace := s.pace
    lag := s.lag
    serial := s.serial
    now := s.now }

/-- PACKAGE_RESET (R363). -/
def execPackageReset (s : State) : Out := .next s.packageReset

/-! ### Secure boot (R366, R367) -/

def zeroMeas : List Byte := List.replicate 48 0#8
def State.measOf (s : State) (i : Nat) : List Byte := s.meas.getD i zeroMeas
/-- An extension of a measurement register (R367). (DEDUCED, log 58) -/
def State.extendMeas (s : State) (i : Nat) (x : List Byte) : State := { s with meas := s.meas.set i (sha384 (s.measOf i ++ x)) }

/-- RESET_END (R363, R366): the steward's image is checked against the vendor root key; only a good one runs. -/
def execResetEnd (image sig pub config dispatcher : List Byte) (s : State) : Out :=
  .next (
    if s.booted || s.bootFailed then s
    else if sha384 pub = Config.rootKeyDigest ∧ ecdsaVerify pub (sha384 image) sig then
      { ((s.extendMeas 0 (sha384 image)).extendMeas 1 (sha384 config)).extendMeas 2 (sha384 dispatcher) with booted := true, boots := s.boots + 1 }
    else { s with bootFailed := true })

/-! ### The DOE mailbox (R367 to R369) -/

/-- The device public key of this boot. -/
def State.devicePub (s : State) : List Byte := ecBytes (ecMul (Config.deviceKey s.boots) ecBase 384)

/-- The signed part of a report: bytes 0x000 to 0x20B. -/
def State.reportBody (s : State) (nonce : List Byte) : List Byte :=
  leBytes 4 1 ++ leBytes 4 (s.reportSeq + 1) ++ (nonce ++ leBytes 32 0).take 32 ++ ((List.range 8).flatMap fun i => s.measOf i) ++ s.devicePub ++ leBytes 3 0

/-- DOE_ATTESTATION (R369). -/
def execDoeAttestation (nonce : List Byte) (s : State) : Out :=
  .next (
    if !s.booted then s
    else
      let b := s.reportBody nonce
      let sig := ecdsaSign (Config.deviceKey s.boots) (Config.signNonce (s.boots * 2 ^ 32 + s.reportSeq)) (sha384 b)
      { s with reportSeq := s.reportSeq + 1 }.emit (.doe (b ++ sig)))

/-- DOE_CERT_CHAIN (R368). -/
def execDoeCertChain (s : State) : Out := .next (if s.booted then s.emit (.doe Config.certChain) else s)

/-- DOE_EXTEND (R367, R368). (DESIGN CHOICE, log 59) -/
def execDoeExtend (i : Nat) (digest : List Byte) (s : State) : Out :=
  .next (
    if !s.booted then s
    else if 3 ≤ i ∧ i ≤ 7 then (s.extendMeas i digest).emit (.doe [0#8])
    else s.emit (.doe [1#8]))

/-- The key-encryption key that a type 4 request carries, none when its tag fails (R368). -/
def State.openKek (s : State) (pub iv wrapped tag : List Byte) : Option (List Byte) :=
  match ecMul (Config.deviceKey s.boots) (ecOfBytes pub) 384 with
  | none => none
  | some p =>
    let key := hkdf32 (beBytes 48 p.1)
    if gcmTag key iv [] wrapped = tag then some (gcmStream key iv wrapped) else none

/-- DOE_KEK_INSTALL (R368). -/
def execDoeKekInstall (t : Nat) (pub iv wrapped tag : List Byte) (s : State) : Out :=
  .next (
    if !s.booted then s
    else match (if t < 8 then s.openKek pub iv wrapped tag else none) with
      | some k => { s with keks := s.keks.set t k }.emit (.doe [0#8])
      | none => s.emit (.doe [1#8]))

/-- DOE_UNKNOWN (R368): an empty object. -/
def execDoeUnknown (_ty : Nat) (s : State) : Out := .next (if s.booted then s.emit (.doe []) else s)

/-- STEWARD_KEY_INSTALL (R320): the steward is part of the package, and runs once it has booted. -/
def execStewardKeyInstall (slot ten : Nat) (key : List Byte) (s : State) : Out :=
  .next (if s.booted && decide (slot < 64 ∧ ten < 8 ∧ key.length = 32) then { s with keys := s.keys.set slot ⟨some key, ten⟩ } else s)

/-! ### Clocks and cooling (R370, R371) -/

def offPwr : Nat := 0xF100

/-- PWR with new CLK and TMAX. -/
def State.setPwr (s : State) (clk tmax : Nat) : State :=
  let p := (s.reg offPwr).toNat
  s.setReg offPwr (BitVec.ofNat 64 (bits p 47 32 * 2 ^ 32 + tmax % 256 * 2 ^ 24 + clk * 2 ^ 8))

/-- What the steward does with `power` in W averaged over the last millisecond, and the die sensors in degrees (R370). (DESIGN CHOICE, log 67) -/
def State.clockEvaluation (s : State) (power : Nat) (sensors : List Nat) : State :=
    let p := (s.reg offPwr).toNat
    let lim := max 600 (min 2400 (bits p 47 32))
    let clk := bits p 15 8
    let clk' :=
      if lim < power || sensors.any fun t => decide (95 ≤ t) then max 14 (clk - 1)
      else if decide (100 * power < 95 * lim) && sensors.all fun t => decide (t < 90) then min 28 (clk + 1)
      else clk
    s.setPwr clk' (sensors.foldl max 0)

/-- A word of main memory stands in a slice or an L1: in a valid sector, or written (R131, R137). -/
def State.wordHeld (s : State) (a : Nat) : Bool :=
  let w := a % 256 / 4
  let has (valid : BitVec 4) (mask : BitVec 64) : Bool := valid.getLsbD (w / 16) || mask.getLsbD w
  ((s.lines.get? (a / 256)).any fun l => has l.valid l.mask) || s.l1.any fun e => decide (e.line = a / 256) && has e.valid e.mask

/-- Every clock stops (R346): refresh of main memory stops with them, and what no slice and no L1 holds is lost. -/
def State.stopClocks (s : State) : State := { s with curfew := true, mem := s.mem.filter fun c => !isDram c.1 || s.wordHeld c.1 }

/-- The thermal trip (R371): every clock stops, and the pin is asserted. -/
def State.trip (s : State) (hottest : Nat) : State := ((s.setPwr (bits (s.reg offPwr).toNat 15 8) hottest).stopClocks).emit .thermalPin

/-- THERMAL_TRIP (R371): a sensor reads 110 degrees or more. -/
def execThermalTrip (sensor : Nat) (s : State) : Out := .next (if 110 ≤ sensor then s.trip sensor else s)

/-- CLOCK_EVALUATION (R370): the steward's, which runs once it has booted (R366); a sensor at the trip point trips the package whether it runs or not (R371). -/
def execClockEvaluation (power : Nat) (sensors : List Nat) (s : State) : Out :=
  .next (if sensors.any fun t => decide (110 ≤ t) then s.trip (sensors.foldl max 0)
    else if s.booted then s.clockEvaluation power sensors else s)

/-! ### Slices and ECC (R140, R142) -/

/-- The new map moves every entry of the slice, and only those, to other slices (R142). -/
def mapOk (old new : List Nat) (slice : Nat) : Bool :=
  decide (new.length = 64) && new.all (fun x => decide (x < 64 ∧ x ≠ slice))
  && (List.range 64).all fun h => decide (old.getD h 0 = slice) || decide (old.getD h 0 = new.getD h 0)

/-- SLICE_RETIRE (R142). -/
def State.sliceRetire (s : State) (d slice : Nat) (new : List Nat) : State :=
  if 4 ≤ d ∨ 64 ≤ slice ∨ !mapOk (s.smapOf d) new slice ∨ s.grace.any (fun g => decide (g.1 = d)) then s
  else
    let sl := d * 64 + slice
    let ls := (s.lines.filter fun e => decide (s.homeSlice (e.1 * 256) = sl)).map Prod.fst
    let s := ls.foldl (fun (s : State) l => s.dropLine l) s
    let heirs := ((List.range 64).filter fun h => decide ((s.smapOf d).getD h 0 = slice)).map fun h => d * 64 + new.getD h 0
    let s : State := { s with floors := heirs.eraseDups.foldl (fun t x => t.set x (max (s.floor x) (s.floor sl))) s.floors }
    { s with smap := s.smap.set d new, smapGen := s.smapGen.set d ((s.smapGen.getD d 0 + 1) % 256), grace := (d, s.now) :: s.grace }

def execSliceRetire (die slice : Nat) (newMap : List Nat) (s : State) : Out := .next (s.sliceRetire die slice newMap)

/-- GRACE_WINDOW_END (R142): 100 microseconds, 140,000 cycles, after the change. -/
def execGraceWindowEnd (die : Nat) (s : State) : Out :=
  .next { s with grace := s.grace.filter fun g => !decide (g.1 = die ∧ g.2 + 140000 ≤ s.now) }

/-- A location that an uncorrectable error can strike (R140): main memory, or a line of host memory in a slice or an L1. -/
def State.strikable (s : State) (loc : Nat) : Bool :=
  if isDram loc then decide (loc < hdmLimit) else isHost loc && ((s.lines.get? (loc / 256)).isSome || s.l1.any fun e => decide (e.line = loc / 256))

/-- UNCORRECTABLE_ERROR (R140): the 16 bytes are poisoned. -/
def execUncorrectableError (loc : Nat) (s : State) : Out :=
  .next (if s.strikable loc && !s.poison.contains (loc / 16) then { s with poison := (loc / 16) :: s.poison } else s)

/-! ### The test access port (R346, R347) -/

/-- Fibres of a lane by their place in the lane's stub store: slot * 32 + stub. -/
def State.stubAt (s : State) (c l n : Nat) : Option Fibre := s.fibre? ⟨c, n / 32, l, n % 32⟩

/-- Pending bits of space 3: g0 to g31, p0 to p11, %esc, %fs, %cont, %fault. -/
def State.pendBits (s : State) (k : FKey) : Nat :=
  let ls := (s.pendingOf k).map fun p => match p.1 with
    | .reg r => r
    | .pred p => 32 + p
    | .esc => 44
    | .fs => 45
    | .cont => 46
    | .fault => 47
  (ls.eraseDups.map fun i => 2 ^ i).sum

/-- Base of a share's register region in 16-byte units: in the lender's range while it borrows one (R46, R316). -/
def Household.regBase (h : Household) : Nat :=
  match h.borrowed with
  | some (_, _, b) => b
  | none => h.base

/-- The residence word of space 3. -/
def State.residence (s : State) (f : Fibre) : Nat :=
  s.pendBits f.key + (match f.res with
    | .resident w => ((s.share f.key.share).regBase + w * s.gOf f.key / 16) % 1024 * 2 ^ 48 + 2 ^ 58
    | _ => 0)

/-- First bank byte of the window that a fibre holds in its lane's bank: its own, or a lodge window (R46). -/
def State.bankWindow? (s : State) (f : Fibre) : Option Nat :=
  let h := s.share f.key.share
  match f.res with
  | .resident w => some (16 * h.regBase + w * s.gOf f.key)
  | .lodged w => some (16 * h.bndc + w * s.gOf f.key)
  | .abroad | .returning | .landed _ | .stubOnly | .ended => none

/-- Byte `x` of a line in an L1 (R131): a dirty word of it stands in a write buffer, its other words are memory's. -/
def State.l1Byte (s : State) (e : L1Line) (x : Nat) : Option Byte :=
  let w := x / 4
  if 2 ^ 60 ≤ e.line then (if e.valid.getLsbD (w / 16) then some (e.bytes.get ((256 * (e.line - 2 ^ 60) + x) % 2 ^ 52)) else none)
  else
    let ws := (s.fibres.filter fun f => f.key.share = e.share).flatMap fun f => f.wb.filter fun o => o.dirtyIn e.line
    let base := s.mem.get (256 * e.line + x)
    let b := ws.foldl (fun (b : Byte) o => match o.dest with
      | .home l => (layOver (256 * e.line + x) [b] l o.kind).headD b
      | .peer .. => b) base
    if e.valid.getLsbD (w / 16) || (s.l1Dirty e).getLsbD w then some b else none

/-- Byte `off` of bank `b` in an L1's region (R46): its lines stand in the order in which they were filled (DESIGN CHOICE, log 84). -/
def State.l1Pool (s : State) (sh : Nat) (h : Household) (b off : Nat) : Option Byte :=
  let o := 2048 * ((off - 16 * h.bndb) / 16) + 16 * b + off % 16
  ((s.l1.filter fun e => e.share = sh)[o / 256]?).bind fun e => s.l1Byte e (o % 256)

/-- Byte `off` of lane `b`'s bank in a window, or a window of the lodge, whose fibre has ended (R349). -/
def State.remainByte (s : State) (sh : Nat) (h : Household) (b off : Nat) : Option Byte :=
  let g := 4 * (s.ctx h.ctx).lrec.win
  let k : FKey := ⟨sh / 4, sh % 4, b, 0⟩
  let at? (lodge : Bool) (lo n : Nat) : Option Byte :=
    if off < lo ∨ lo + n * g ≤ off then none else
    (s.remains.get? (windowKey k lodge ((off - lo) / g))).map fun ws =>
      let i := (off - lo) % g
      BitVec.ofNat 8 ((ws.toList.getD (i / 4) 0#32).toNat / 2 ^ (8 * (i % 4)))
  (at? false (16 * h.regBase) h.windows).orElse fun _ => at? true (16 * h.bndc) (16 * (h.lim - h.bndc) / g)

/-- A pool bank byte of space 4 (R46): a window's register, scratchpad, or an L1's line; bank `b` belongs to lane `b`. What nothing of the model holds is a free value (DESIGN CHOICE, log 21). -/
def State.poolByte (s : State) (c b off : Nat) : Byte :=
  match s.fibres.find? fun f => decide (f.key.c = c ∧ f.key.l = b) && (match s.bankWindow? f with
      | some a => decide (a ≤ off) && decide (off < a + s.gOf f.key)
      | none => false) with
  | some f =>
    let i := off - (s.bankWindow? f).getD 0
    let ws := match f.res with
      | .resident _ => f.regs
      | .abroad | .returning | .lodged _ | .landed _ | .stubOnly | .ended => s.recordWords f
    BitVec.ofNat 8 ((ws.toList.getD (i / 4) 0#32).toNat / 2 ^ (8 * (i % 4)))
  | none =>
    let free := ((s.sharesOf c).findSome? fun e => s.remainByte e.1 e.2 b off).getD (Config.arrayByte s.now (2 ^ 20 * c + 2 ^ 13 * b + off))
    match (s.sharesOf c).find? fun e => decide (16 * e.2.bnda ≤ off ∧ off < 16 * e.2.bndc) with
    | some e =>
      if off < 16 * e.2.bndb then s.mem.get (spadLoc e.1 (2048 * ((off - 16 * e.2.bnda) / 16) + 16 * b + off % 16))
      else (s.l1Pool e.1 e.2 b off).getD free
    | none => free

/-- A byte of space 5 (R137, R347): a slice's lines stand in the order in which they were filled (DESIGN CHOICE, log 84); what a line does not hold is a free value. -/
def State.sliceByte (s : State) (d o : Nat) : Byte :=
  let ls := s.sliceLines (64 * d + o / 2 ^ 22 % 64)
  let i := o % 2 ^ 22
  let free := Config.arrayByte s.now (2 ^ 62 * d + 5 * 2 ^ 56 + o)
  if i < 2 ^ 21 then
    (match ls[i / 256]? with
      | some (n, l) => if l.valid.getLsbD (i % 256 / 64) || l.mask.getLsbD (i % 256 / 4) then s.mem.get (256 * n + i % 256) else free
      | none => free)
  else
    let j := i - 2 ^ 21
    if 8192 ≤ j / 16 then 0#8 else
    match ls[j / 16]? with
    | some (_, l) => BitVec.ofNat 8 ((l.version % 2 ^ 48 + l.valid.toNat * 2 ^ 48 + l.dirty.toNat * 2 ^ 52 + l.mask.toNat * 2 ^ 64) / 2 ^ (8 * (j % 16)))
    | none => 0#8

/-- The escort store of a die's fabric interface (R170): its records, in the layout of R161, one behind the other (DESIGN CHOICE, log 21). -/
def State.storeBytes (s : State) (d : Nat) : List Byte :=
  (s.ctxs.flatMap fun x => (s.escortsOf x.1).filter fun e => decide (e.1 = .fabric d)).flatMap fun e => recordBytes e.2.1 (s.sgen.getD e.2.1.share 0) { e.2.2 with kind := 0 }

/-- Byte `o` of space `sp` of die `d` (R347). -/
def State.spaceByte (s : State) (d sp o : Nat) : Byte :=
  let c (x : Nat) : Nat := 64 * d + x
  let part (n i : Nat) : Byte := BitVec.ofNat 8 (n / 2 ^ (8 * i))
  match sp with
  | 1 => ((s.stubAt (c (bits o 23 18)) (bits o 17 11) (bits o 10 4)).map fun f => part (stubImage f) (o % 16)).getD 0#8
  | 2 => ((s.stubAt (c (bits o 20 15)) (bits o 14 8) (bits o 7 1)).map fun f => part (kinWord f) (o % 2)).getD 0#8
  | 3 => ((s.stubAt (c (bits o 23 18)) (bits o 17 11) (bits o 10 4)).map fun f => part (s.residence f) (o % 16)).getD 0#8
  | 4 => s.poolByte (c (bits o 25 20)) (bits o 19 13) (bits o 12 0)
  | 5 => s.sliceByte d o
  | 6 => if 2 ^ 22 ≤ o then 0#8 else (s.storeBytes d).getD o (Config.arrayByte s.now (2 ^ 62 * d + 6 * 2 ^ 56 + o))
  | _ => 0#8

/-- The 8 bytes at a read-out address (R347). -/
def State.readOut (s : State) (v : DWord) : DWord :=
  let d := bits v.toNat 63 62
  let sp := bits v.toNat 61 56
  let o := bits v.toNat 55 0
  if sp = 0 then (if d = 0 then s.readReg o else 0#64)
  else BitVec.ofNat 64 (leNat ((List.range 8).map fun i => s.spaceByte d sp (o + i)))

/-- IDCODE (R346). -/
def execIdcode (s : State) : Out := .next ({ s with tapIr := 0x01#8 }.emit (.tap 0x1A7C0D23#64))
/-- SAMPLE/PRELOAD (R346): the pins are captured, and the boundary register takes what is shifted in. -/
def execSamplePreload (pins : DWord) (s : State) : Out :=
  .next ({ s.bump with tapIr := 0x02#8, boundary := pins }.emit (.tap (Config.pinSample s.serial)))
/-- EXTEST (R346): the boundary register drives the pins; a scan captures them, and what it shifts in then drives them. -/
def execExtest (s : State) : Out :=
  let pins := Config.scanIn s.serial
  .next (((({ s.bump with tapIr := 0x03#8, boundary := pins }.emit (.pins s.boundary)).emit (.tap (Config.pinSample s.serial))).emit (.pins pins)))
/-- CURFEW (R346). -/
def execCurfew (bit : Bool) (s : State) : Out :=
  .next (if bit then { s.stopClocks with tapIr := 0x40#8 } else { s with tapIr := 0x40#8 })
/-- SADDR (R346). -/
def execSaddr (v : DWord) (s : State) : Out := .next { s with tapIr := 0x41#8, saddr := v }
/-- SDATA (R346): the 8 bytes at SADDR under curfew, otherwise 0; SADDR rises by 8. (DEDUCED, log 60) -/
def execSdata (s : State) : Out :=
  .next ({ s with tapIr := 0x42#8, saddr := s.saddr + 8#64 }.emit (.tap (if s.curfew then s.readOut s.saddr else 0#64)))
/-- BYPASS (R346): one bit, captured as 0. -/
def execBypass (code : Byte) (s : State) : Out := .next ({ s with tapIr := code }.emit (.tap 0#64))

end Sys2Proof.Machine
end

