-- ==== Sys2Proof/Machine/Chain.lean ====
section
/-! DEFINITION. What stands between a flock and the issue of its next chain: the checks of a chain (R61 to R66, R73, R74), its split (R68), and its holds (R67, R81, R85, R86, R90, R171, R178, R198, R211, R232). -/

namespace Sys2Proof.Machine

/-! ### Holds (R67) -/

/-- A fibre could write `n` free landing entries of a context, of those from `i` on (R175): how many, `want` at most; none where the area cannot be written. -/
def State.landingRoom (s : State) (c : Nat) : Nat → Nat → Nat → Option Nat
  | 0, _, _ => some 0
  | _ + 1, _, 0 => some 0
  | n + 1, i, want + 1 =>
    match s.landRead c i 0 (16 + 4 * (s.ctx c).lrec.win) with
    | none => none
    | some bs => if (bs.getD 4 0#8).toNat % 2 = 0 then (s.landingRoom c n (i + 1) want).map (· + 1) else s.landingRoom c n (i + 1) (want + 1)

/-- A FORK of the member would put the child into the landing area (R90). -/
def State.forkLands (s : State) (k : FKey) : Bool :=
  (s.freeStub? k).isSome && (s.claimed k || (s.freeWindow? k).isNone) && (s.freeLodge? k).isNone

/-- The unit would send a direct request to a hot peer (R178). -/
def State.meetsHot (s : State) (c : UnitCtx) (f : Fibre) (i : Instr) : Bool :=
  !s.hot.isEmpty && s.takesEntry c f i && (s.watched i c f).any fun a => match s.translate (s.tenOf f.key) a.1 with
    | .ok l => (match s.destOf l a.1 with
        | .peer false p _ _ _ => s.hotPeer f.key.die p
        | .peer true .. => false
        | .home _ => false)
    | .fail _ => false
    | .poison => false

/-- The unit puts a record into the landing area as it issues. -/
def State.landsRecord (s : State) (c : UnitCtx) (f : Fibre) (i : Instr) : Bool :=
  (match i with
    | .fork .. => s.forkLands f.key
    | _ => false) || s.meetsHot c f i

/-- The unit's walks, or the frame it takes, read a page that no access may touch now (R145, R238). -/
def State.pagesHeld (s : State) (c : UnitCtx) (f : Fibre) (i : Instr) : Bool :=
  let t := s.tenOf f.key
  (match i with
    | .resume _ a =>
      let v := (f.pair a).toNat
      [v, v + 176].any fun va => s.walkHeld t va || (match s.translate t va with
        | .ok l => (match s.destOf l va with
            | .home loc => s.pageHeld loc
            | .peer .. => false)
        | .fail _ => false
        | .poison => false)
    | _ => false) || (s.watched i c f).any fun a => decide (a.1 < 2 ^ 63) && s.walkHeld t a.1

/-- The code page of a flock's next chain is held (R145, R238). -/
def State.codeHeld (s : State) (fl : Flock) : Bool :=
  (fl.members.head?.map fun k =>
    let t := s.tenOf k
    let va := fl.addr.toNat
    s.walkHeld t va || (match s.translate t va with
      | .ok l => (match s.destOf l va with
          | .home loc => s.pageHeld loc
          | .peer .. => false)
      | .fail _ => false
      | .poison => false)).getD false

/-- The members of a chain, in the order in which they ask for something, with no more of it left than `room`: those that find none. -/
def turnedAway (room : Nat) (asks : List FKey) : List FKey := asks.drop room

/-- Members that the scoreboard holds for unit `u`, active or not (R85). -/
def State.heldBy (s : State) (ms : List Fibre) (u : ChainUnit) : List FKey := (ms.filter fun f => s.unitHeld f u.imxs u.i).map fun f => f.key

/-- Active members that find a table, a queue, the landing area or a page closed to their unit (R67). -/
def State.closedTo (s : State) (fl : Flock) (us : List ChainUnit) : List FKey :=
  let c := fl.q / 4
  let ps := us.filterMap fun u => (s.preview fl u).map fun x => (u, x)
  let act (p : ChainUnit → UnitCtx → Fibre → Bool) : List FKey := ps.flatMap fun x => (x.2.act.filter fun f => p x.1 x.2 f).map fun f => f.key
  let one (p : ChainUnit → UnitCtx → Fibre → Bool) : List FKey := ps.flatMap fun x => ((x.2.issuers x.1.i).filter fun f => p x.1 x.2 f).map fun f => f.key
  let ctx := (fl.members.head?.map s.ctxOf).getD 0
  let land := act fun u x f => s.landsRecord x f u.i
  act (fun u x f => s.pagesHeld x f u.i)
  ++ turnedAway (2048 - s.entriesUsed c) (one fun u x f => s.takesEntry x f u.i)
  ++ turnedAway (16 - s.queueLength c 0) (act fun u _ _ => decide (queueTile? u.imxs u.i = some 0))
  ++ turnedAway (16 - s.queueLength c 1) (act fun u _ _ => decide (queueTile? u.imxs u.i = some 1))
  ++ turnedAway (64 - s.copiesHeld c) (act fun u _ _ => match u.i with
    | .cpy .. => true
    | _ => false)
  ++ (match if s.landHeld ctx then some 0 else s.landingRoom ctx (s.landEntries ctx) 0 land.length with
    | some n => turnedAway n land
    | none => [])

/-- The members of a flock that hold its next chain, or the part of it that issues in one cycle (R67, R68, R81). (DESIGN CHOICE, log 73) -/
def State.heldMembers (s : State) (fl : Flock) : List FKey :=
  if s.codeHeld fl then fl.members else
  match s.chainCheck fl with
  | .error _ => []
  | .ok us =>
    let ms := s.snapOf fl
    let us := firstPart ms us
    (((ms.filter fun f => s.windowSpent f).map fun f => f.key) ++ us.flatMap fun u => s.heldBy ms u) ++ s.closedTo fl us

/-- The cycles for which a member of a flock has been held. -/
def Flock.heldFor (fl : Flock) (k : FKey) : Nat := ((fl.held.find? fun h => decide (h.1 = k)).map Prod.snd).getD 0

/-- SCOREBOARD_HOLD_EXPIRY (R81): a member has been held for 8 cycles: the held members leave the flock. Where every member is held the flock ends, once that is so of each. -/
def State.holdExpiry (s : State) (q : Nat) : State :=
  match s.flockOf? q with
  | none => s
  | some fl =>
    if fl.mid then s else
    let hs := s.heldMembers fl
    let rest := fl.members.filter fun k => !hs.contains k
    let late := fl.members.filter fun k => hs.contains k && decide (8 ≤ fl.heldFor k)
    if late.isEmpty then s
    else if !rest.isEmpty then s.setFlock { fl with members := rest, held := [] }
    else if fl.members.all fun k => decide (8 ≤ fl.heldFor k) then s.endFlock q
    else s

def execScoreboardHoldExpiry (q : Nat) (s : State) : Out := .next (s.holdExpiry q)

end Sys2Proof.Machine
end

