-- ==== Sys2Proof/Machine/Approx.lean ====
section
/-! DEFINITION. The approximate functions of R117. The TH7's own value is a free value of `Config`: it stands wherever it is within the manual's bound, and the nearest FP32 value of a fixed-point evaluation replaces it elsewhere (DESIGN CHOICE, log 7). Special points are exact. -/

namespace Sys2Proof.Machine

/-- Bits of the fixed-point evaluation below the binary point. -/
def fxBits : Nat := 200
def fxOne : Int := 2 ^ fxBits

/-- A value as the integer `y * 2^sc`, exact to far below any bound of R117. -/
structure Fx where
  y : Int
  sc : Int
  deriving DecidableEq, Repr

/-- The value of FP32 bits as `y * 2^sc`; none for NaN and infinity. -/
def fxOf (w : Nat) : Option Fx :=
  match fmt32.decode w with
  | .fin neg m e => some ⟨if neg then -(m : Int) else m, e⟩
  | .inf _ => none
  | .nan => none

/-- The exponent e of the ULP of R117: max(floor(log2 |y|), -126). -/
def Fx.expo (x : Fx) : Int := max ((Nat.log2 x.y.natAbs : Int) + x.sc) (-126)

/-- |v - y| is at most `k` times 2^t. -/
def Fx.near (v y : Fx) (k : Nat) (t : Int) : Bool :=
  let lo := min (min v.sc y.sc) t
  let at' (x : Fx) : Int := x.y * 2 ^ (x.sc - lo).toNat
  decide ((at' v - at' y).natAbs ≤ k * 2 ^ (t - lo).toNat)

/-- The FP32 value nearest to `y`. -/
def Fx.round (y : Fx) : Nat := fmt32.pack .rn (.fin (decide (y.y < 0)) y.y.natAbs y.sc)

/-- The free value `w` where it is within `k` ULP of `y`, or within 2^t where `abs` gives t; else the rounded `y`. -/
def Fx.choose (y : Fx) (w : Word) (k : Nat) (abs : Option Int) : Nat :=
  match fxOf w.toNat with
  | some v =>
    if v.near y k (y.expo - 23) || (match abs with
        | some t => v.near y 1 t
        | none => false)
    then w.toNat else y.round
  | none => y.round

/-- The integer square root, `n` bits at a time from above. -/
def isqrtAux (x : Nat) : Nat → Nat → Nat
  | 0, r => r
  | n + 1, r =>
    let c := r + 2 ^ n
    isqrtAux x n (if c * c ≤ x then c else r)

/-- exp(z) for a fixed-point z in [0, 1): the Taylor series, from term `n`. -/
def expTerms (z : Int) : Nat → Int → Int → Int
  | 0, _, sum => sum
  | n + 1, term, sum =>
    let k : Int := (60 - n : Nat)
    let t := term * z / (fxOne * k)
    expTerms z n t (sum + t)

/-- ln 2 to 200 bits. -/
def fxLn2 : Int := 0xb17217f7d1cf79abc9e3b39803f2f6af40f343267298b62d8a
/-- pi to 200 bits. -/
def fxPi : Int := 0x3243f6a8885a308d313198a2e03707344a4093822299f31d008

/-- The binary digits of log2 of a fixed-point number in [1, 2), by squaring. -/
def log2Digits : Nat → Int → Int → Int
  | 0, _, acc => acc
  | n + 1, z, acc =>
    let z2 := z * z / fxOne
    if 2 * fxOne ≤ z2 then log2Digits n (z2 / 2) (2 * acc + 1) else log2Digits n z2 (2 * acc)

/-- The alternating series of sine and cosine: term(k+1) = -term(k) * z^2 / ((i+1)(i+2)). -/
def trigTerms (z2 : Int) : Nat → Nat → Int → Int → Int
  | 0, _, _, sum => sum
  | n + 1, i, term, sum =>
    let t := -(term * z2 / (fxOne * ((i + 1) * (i + 2) : Nat)))
    trigTerms z2 n (i + 2) t (sum + t)

/-- sin (or cos) of an FP32 value with |x| at most 100 pi: reduced modulo 2 pi, then the series. -/
def fxTrig (cos : Bool) (x : Fx) : Fx :=
  let v := x.y * 2 ^ (x.sc + 176).toNat * 2 ^ 24
  let r0 := v % (2 * fxPi)
  let r := if r0 > fxPi then r0 - 2 * fxPi else r0
  let r2 := r * r / fxOne
  ⟨if cos then trigTerms r2 40 0 fxOne fxOne else trigTerms r2 40 1 r r, -200⟩

/-- |x| is a power of two: the exponent. -/
def pow2? (m : Nat) (e : Int) : Option Int :=
  if m = 2 ^ Nat.log2 m then some ((Nat.log2 m : Int) + e) else none

def neg32 (neg : Bool) (mag : Nat) : Nat := fmt32.signBit neg + mag
def inf32 : Nat := 0x7F800000

/-- FRCP (R117). -/
def frcpValue (a : Word) : Nat :=
  match fmt32.decode a.toNat with
  | .nan => fmt32.nan
  | .inf neg => neg32 neg 0
  | .fin neg m e =>
    if m = 0 then neg32 neg inf32 else
    let y : Fx := ⟨(if neg then -1 else 1) * ((2 ^ 260 / m : Nat) : Int), -260 - e⟩
    -- the exact reciprocal rounded once; the bit below the 260th keeps inexact quotients off ties
    let once := fmt32.pack .rn (.fin neg (2 * (2 ^ 260 / m) + (if 2 ^ 260 % m = 0 then 0 else 1)) (-261 - e))
    if (pow2? m e).isSome then once
    else if m * 2 ^ (e + 149).toNat > 2 ^ 275 then once
    else if once % 2 ^ 31 = inf32 then once
    else y.choose (Config.frcp a) 1 none

/-- FRSQ (R117). -/
def frsqValue (a : Word) : Nat :=
  match fmt32.decode a.toNat with
  | .nan => fmt32.nan
  | .inf neg => if neg then fmt32.nan else 0
  | .fin neg m e =>
    if m = 0 then neg32 neg inf32
    else if neg then fmt32.nan
    else
      let e2 := e % 2
      let k := (e - e2) / 2
      let q := isqrtAux (2 ^ 400 / (m * 2 ^ e2.toNat)) 201 0
      let y : Fx := ⟨q, -200 - k⟩
      if (match pow2? m e with
          | some p => p % 2 == 0
          | none => false) then y.round
      else y.choose (Config.frsq a) 2 none

/-- FEX2 (R117). -/
def fex2Value (a : Word) : Nat :=
  match fmt32.decode a.toNat with
  | .nan => fmt32.nan
  | .inf neg => if neg then 0 else inf32
  | .fin neg m e =>
    if m = 0 then 0x3F800000 else
    -- x times 2^149 is an integer
    let x := alignTo (-149) neg m e
    if 128 * 2 ^ 149 ≤ x then inf32
    else if x ≤ -150 * 2 ^ 149 then 0
    else
      let n := x / 2 ^ 149
      let f := x % 2 ^ 149
      let y : Fx := ⟨expTerms (f * fxLn2 / 2 ^ 149) 60 fxOne fxOne, n - 200⟩
      if f = 0 then fmt32.pack .rn (.fin false 1 n)
      else y.choose (Config.fex2 a) 2 none

/-- FLG2 (R117). -/
def flg2Value (a : Word) : Nat :=
  match fmt32.decode a.toNat with
  | .nan => fmt32.nan
  | .inf neg => if neg then fmt32.nan else inf32
  | .fin neg m e =>
    if m = 0 then neg32 true inf32
    else if neg then fmt32.nan
    else
      let n : Int := (Nat.log2 m : Int) + e
      let y : Fx := ⟨n * 2 ^ 150 + log2Digits 150 ((m : Int) * fxOne / 2 ^ Nat.log2 m) 0, -150⟩
      match pow2? m e with
      | some p => if p = 0 then 0 else fmt32.pack .rn (.fin (decide (p < 0)) p.natAbs 0)
      | none =>
        -- x in [0.5, 2]
        let mid := decide (n = -1) || decide (n = 0)
        y.choose (Config.flg2 a) 2 (if mid then some (-22) else none)

/-- |x| compared with 100 pi. -/
def beyond100pi (m : Nat) (e : Int) : Bool :=
  decide ((100 * fxPi) < (m : Int) * 2 ^ (e + 200).toNat)

/-- A free value of [-1, 1]; +0 where it is outside. -/
def unitValue (w : Word) : Nat :=
  if w.toNat % 2 ^ 31 ≤ 0x3F800000 then w.toNat else 0

/-- FSIN (R117). -/
def fsinValue (a : Word) : Nat :=
  match fmt32.decode a.toNat with
  | .nan => fmt32.nan
  | .inf _ => fmt32.nan
  | .fin neg m e =>
    if m = 0 ∨ (m : Int) * 2 ^ (e + 149).toNat < 2 ^ 137 then a.toNat
    else if beyond100pi m e then unitValue (Config.fsin a)
    else
      let y := fxTrig false ⟨if neg then -(m : Int) else m, e⟩
      if y.y.natAbs ≥ 2 ^ 180 then y.choose (Config.fsin a) 2 none
      else (match fxOf (Config.fsin a).toNat with
        | some v => if v.near y 1 (-42) then (Config.fsin a).toNat else y.round
        | none => y.round)

/-- FCOS (R117). -/
def fcosValue (a : Word) : Nat :=
  match fmt32.decode a.toNat with
  | .nan => fmt32.nan
  | .inf _ => fmt32.nan
  | .fin neg m e =>
    if m = 0 then 0x3F800000
    else if beyond100pi m e then unitValue (Config.fcos a)
    else
      let y := fxTrig true ⟨if neg then -(m : Int) else m, e⟩
      if y.y.natAbs ≥ 2 ^ 180 then y.choose (Config.fcos a) 2 none
      else (match fxOf (Config.fcos a).toNat with
        | some v => if v.near y 1 (-42) then (Config.fcos a).toNat else y.round
        | none => y.round)

end Sys2Proof.Machine
end

