-- ==== Sys2Proof/Machine/Float.lean ====
section
/-! DEFINITION. The floating-point units, opcodes 0x40 to 0x6F (R113 to R122). -/

namespace Sys2Proof.Machine

/-- The result of a floating unit written to its destination: a register, or a pair for .f64 (R101). -/
def fpResult (n : Nat) (d : RegNo) (v : Nat) (g : Fibre) : Fibre :=
  if n = 2 then g.setPair d (BitVec.ofNat 64 v) else g.setReg d (BitVec.ofNat 32 v)

/-- FADD (R113, R114). -/
def execFadd (h : Hdr) (d a b : RegNo) (t : FTy) (r : Rnd) (s : State) : Out :=
  .next (resultUnit h (fun _ o g => fpResult t.n d (fty2 t (fun f => fpAdd f r) (o.opd a t.n) (o.opd b t.n)) g) s)

/-- FSUB (R113, R114). -/
def execFsub (h : Hdr) (d a b : RegNo) (t : FTy) (r : Rnd) (s : State) : Out :=
  .next (resultUnit h (fun _ o g => fpResult t.n d (fty2 t (fun f => fpSub f r) (o.opd a t.n) (o.opd b t.n)) g) s)

/-- FMUL (R113, R114). -/
def execFmul (h : Hdr) (d a b : RegNo) (t : FTy) (r : Rnd) (s : State) : Out :=
  .next (resultUnit h (fun _ o g => fpResult t.n d (fty2 t (fun f => fpMul f r) (o.opd a t.n) (o.opd b t.n)) g) s)

/-- FMA (R113, R114): gd is read and written, one rounding. -/
def execFma (h : Hdr) (d a b : RegNo) (t : FTy) (r : Rnd) (s : State) : Out :=
  .next (resultUnit h (fun _ o g => fpResult t.n d (fty3 t (fun f => fpFma f r) (o.opd a t.n) (o.opd b t.n) (o.opd d t.n)) g) s)

/-- FMIN (R115). -/
def execFmin (h : Hdr) (d a b : RegNo) (t : FTy) (s : State) : Out :=
  .next (resultUnit h (fun _ o g => fpResult t.n d (fty2 t (fun f => fpPick f true) (o.opd a t.n) (o.opd b t.n)) g) s)

/-- FMAX (R115). -/
def execFmax (h : Hdr) (d a b : RegNo) (t : FTy) (s : State) : Out :=
  .next (resultUnit h (fun _ o g => fpResult t.n d (fty2 t (fun f => fpPick f false) (o.opd a t.n) (o.opd b t.n)) g) s)

/-- FABS (R116). -/
def execFabs (h : Hdr) (d a : RegNo) (t : FTy) (s : State) : Out :=
  .next (resultUnit h (fun _ o g => fpResult t.n d (fty1 t fpAbs (o.opd a t.n)) g) s)

/-- FNEG (R116). -/
def execFneg (h : Hdr) (d a : RegNo) (t : FTy) (s : State) : Out :=
  .next (resultUnit h (fun _ o g => fpResult t.n d (fty1 t fpNeg (o.opd a t.n)) g) s)

/-- FRCP (R117). -/
def execFrcp (h : Hdr) (d a : RegNo) (s : State) : Out :=
  .next (resultUnit h (fun _ o g => g.setReg d (BitVec.ofNat 32 (frcpValue (o.reg a)))) s)

/-- FRSQ (R117). -/
def execFrsq (h : Hdr) (d a : RegNo) (s : State) : Out :=
  .next (resultUnit h (fun _ o g => g.setReg d (BitVec.ofNat 32 (frsqValue (o.reg a)))) s)

/-- FEX2 (R117). -/
def execFex2 (h : Hdr) (d a : RegNo) (s : State) : Out :=
  .next (resultUnit h (fun _ o g => g.setReg d (BitVec.ofNat 32 (fex2Value (o.reg a)))) s)

/-- FLG2 (R117). -/
def execFlg2 (h : Hdr) (d a : RegNo) (s : State) : Out :=
  .next (resultUnit h (fun _ o g => g.setReg d (BitVec.ofNat 32 (flg2Value (o.reg a)))) s)

/-- FSIN (R117). -/
def execFsin (h : Hdr) (d a : RegNo) (s : State) : Out :=
  .next (resultUnit h (fun _ o g => g.setReg d (BitVec.ofNat 32 (fsinValue (o.reg a)))) s)

/-- FCOS (R117). -/
def execFcos (h : Hdr) (d a : RegNo) (s : State) : Out :=
  .next (resultUnit h (fun _ o g => g.setReg d (BitVec.ofNat 32 (fcosValue (o.reg a)))) s)

/-- CVT (R118 to R122). -/
def execCvt (h : Hdr) (d a : RegNo) (src dst : CvtTy) (sat : Bool) (r : Rnd) (s : State) : Out :=
  .next (resultUnit h (fun _ o g => fpResult dst.n d (cvtValue src dst sat r (o.opd a src.n)) g) s)

end Sys2Proof.Machine
end

