-- ==== Sys2Proof/Machine/Integer.lean ====
section
/-! DEFINITION. The integer, address and immediate units, opcodes 0x00 to 0x2A (R103 to R109). -/

namespace Sys2Proof.Machine

/-- IADD (R103). -/
def execIadd (h : Hdr) (d a b : RegNo) (t : IntTy) (s : State) : Out :=
  .next (resultUnit h (fun _ o g => rrr vIadd t d a b o g) s)

/-- ISUB (R103). -/
def execIsub (h : Hdr) (d a b : RegNo) (t : IntTy) (s : State) : Out :=
  .next (resultUnit h (fun _ o g => rrr vIsub t d a b o g) s)

/-- IMUL (R103). -/
def execImul (h : Hdr) (d a b : RegNo) (t : IntTy) (s : State) : Out :=
  .next (resultUnit h (fun _ o g => rrr vImul t d a b o g) s)

/-- IMULH (R103). -/
def execImulh (h : Hdr) (d a b : RegNo) (t : IntTy) (s : State) : Out :=
  .next (resultUnit h (fun _ o g => rrr vImulh t d a b o g) s)

/-- IMAD (R103: gd is read and written). -/
def execImad (h : Hdr) (d a b : RegNo) (t : IntTy) (s : State) : Out :=
  .next (resultUnit h (fun _ o g => rrr vImad t d a b o g) s)

/-- IADDS (R103). -/
def execIadds (h : Hdr) (d a b : RegNo) (t : IntTy) (s : State) : Out :=
  .next (resultUnit h (fun _ o g => rrr vIadds t d a b o g) s)

/-- ISUBS (R103). -/
def execIsubs (h : Hdr) (d a b : RegNo) (t : IntTy) (s : State) : Out :=
  .next (resultUnit h (fun _ o g => rrr vIsubs t d a b o g) s)

/-- IDIV (R104). -/
def execIdiv (h : Hdr) (d a b : RegNo) (t : IntTy) (s : State) : Out :=
  .next (resultUnit h (fun _ o g => rrr vIdiv t d a b o g) s)

/-- IREM (R104). -/
def execIrem (h : Hdr) (d a b : RegNo) (t : IntTy) (s : State) : Out :=
  .next (resultUnit h (fun _ o g => rrr vIrem t d a b o g) s)

/-- IMIN (R103). -/
def execImin (h : Hdr) (d a b : RegNo) (t : IntTy) (s : State) : Out :=
  .next (resultUnit h (fun _ o g => rrr vImin t d a b o g) s)

/-- IMAX (R103). -/
def execImax (h : Hdr) (d a b : RegNo) (t : IntTy) (s : State) : Out :=
  .next (resultUnit h (fun _ o g => rrr vImax t d a b o g) s)

/-- AND (R103). -/
def execAnd (h : Hdr) (d a b : RegNo) (t : IntTy) (s : State) : Out :=
  .next (resultUnit h (fun _ o g => rrr vAnd t d a b o g) s)

/-- OR (R103). -/
def execOr (h : Hdr) (d a b : RegNo) (t : IntTy) (s : State) : Out :=
  .next (resultUnit h (fun _ o g => rrr vOr t d a b o g) s)

/-- XOR (R103). -/
def execXor (h : Hdr) (d a b : RegNo) (t : IntTy) (s : State) : Out :=
  .next (resultUnit h (fun _ o g => rrr vXor t d a b o g) s)

/-- IABS (R103). -/
def execIabs (h : Hdr) (d a : RegNo) (t : IntTy) (s : State) : Out :=
  .next (resultUnit h (fun _ o g => rr1 vIabs t d a o g) s)

/-- INEG (R103). -/
def execIneg (h : Hdr) (d a : RegNo) (t : IntTy) (s : State) : Out :=
  .next (resultUnit h (fun _ o g => rr1 vIneg t d a o g) s)

/-- NOT (R103). -/
def execNot (h : Hdr) (d a : RegNo) (t : IntTy) (s : State) : Out :=
  .next (resultUnit h (fun _ o g => rr1 vNot t d a o g) s)

/-- POPC (R103). -/
def execPopc (h : Hdr) (d a : RegNo) (t : IntTy) (s : State) : Out :=
  .next (resultUnit h (fun _ o g => rr1 vPopc t d a o g) s)

/-- CLZ (R103). -/
def execClz (h : Hdr) (d a : RegNo) (t : IntTy) (s : State) : Out :=
  .next (resultUnit h (fun _ o g => rr1 vClz t d a o g) s)

/-- BREV (R103). -/
def execBrev (h : Hdr) (d a : RegNo) (t : IntTy) (s : State) : Out :=
  .next (resultUnit h (fun _ o g => rr1 vBrev t d a o g) s)

/-- SHL (R105). -/
def execShl (h : Hdr) (d a b : RegNo) (t : IntTy) (s : State) : Out :=
  .next (resultUnit h (fun _ o g => rrs vShl t d a b o g) s)

/-- SHR (R105). -/
def execShr (h : Hdr) (d a b : RegNo) (t : IntTy) (s : State) : Out :=
  .next (resultUnit h (fun _ o g => rrs vShr t d a b o g) s)

/-- SAR (R105). -/
def execSar (h : Hdr) (d a b : RegNo) (t : IntTy) (s : State) : Out :=
  .next (resultUnit h (fun _ o g => rrs vSar t d a b o g) s)

/-- ROT (R105). -/
def execRot (h : Hdr) (d a b : RegNo) (t : IntTy) (s : State) : Out :=
  .next (resultUnit h (fun _ o g => rrs vRot t d a b o g) s)

/-- BFE (R106). -/
def execBfe (h : Hdr) (d a b : RegNo) (t : IntTy) (s : State) : Out :=
  .next (resultUnit h (fun _ o g => rrs vBfe t d a b o g) s)

/-- BFI (R106: gd is read and written). -/
def execBfi (h : Hdr) (d a b : RegNo) (t : IntTy) (s : State) : Out :=
  .next (resultUnit h (fun _ o g => rrs vBfi t d a b o g) s)

/-- ADDP (R107). -/
def execAddp (h : Hdr) (d a b : RegNo) (sh : BitVec 2) (s : State) : Out :=
  .next (resultUnit h (fun _ o g => g.setPair d (vAddp (o.pair a) (o.reg b) sh)) s)

/-- SUBP (R107). -/
def execSubp (h : Hdr) (d a b : RegNo) (s : State) : Out :=
  .next (resultUnit h (fun _ o g => g.setPair d (o.pair a - o.pair b)) s)

/-- IADDI (R108). -/
def execIaddi (h : Hdr) (d a : RegNo) (imm : BitVec 7) (s : State) : Out :=
  .next (resultUnit h (fun c o g => g.setReg d (o.reg a + c.imm7 imm)) s)

/-- ANDI (R108). -/
def execAndi (h : Hdr) (d a : RegNo) (imm : BitVec 7) (s : State) : Out :=
  .next (resultUnit h (fun c o g => g.setReg d (o.reg a &&& c.imm7 imm)) s)

/-- ORI (R108). -/
def execOri (h : Hdr) (d a : RegNo) (imm : BitVec 7) (s : State) : Out :=
  .next (resultUnit h (fun c o g => g.setReg d (o.reg a ||| c.imm7 imm)) s)

/-- XORI (R108). -/
def execXori (h : Hdr) (d a : RegNo) (imm : BitVec 7) (s : State) : Out :=
  .next (resultUnit h (fun c o g => g.setReg d (o.reg a ^^^ c.imm7 imm)) s)

/-- SHLI (R108). -/
def execShli (h : Hdr) (d a : RegNo) (imm : BitVec 7) (s : State) : Out :=
  .next (resultUnit h (fun c o g => g.setReg d (o.reg a <<< immCount (c.imm7 imm))) s)

/-- SHRI (R108). -/
def execShri (h : Hdr) (d a : RegNo) (imm : BitVec 7) (s : State) : Out :=
  .next (resultUnit h (fun c o g => g.setReg d (o.reg a >>> immCount (c.imm7 imm))) s)

/-- SARI (R108). -/
def execSari (h : Hdr) (d a : RegNo) (imm : BitVec 7) (s : State) : Out :=
  .next (resultUnit h (fun c o g => g.setReg d ((o.reg a).sshiftRight (immCount (c.imm7 imm)))) s)

/-- IMULI (R108). -/
def execImuli (h : Hdr) (d a : RegNo) (imm : BitVec 7) (s : State) : Out :=
  .next (resultUnit h (fun c o g => g.setReg d (o.reg a * c.imm7 imm)) s)

/-- MOVI (R109). -/
def execMovi (h : Hdr) (d : RegNo) (imm : BitVec 12) (s : State) : Out :=
  .next (resultUnit h (fun c _ g => g.setReg d (c.imm12 imm)) s)

/-- MOVH (R109). -/
def execMovh (h : Hdr) (d : RegNo) (imm : BitVec 12) (s : State) : Out :=
  .next (resultUnit h (fun c o g => g.setReg d ((c.uimm12 imm).extractLsb' 0 16 ++ (o.reg d).extractLsb' 0 16)) s)

/-- ADDPI (R107). -/
def execAddpi (h : Hdr) (d a : RegNo) (imm : BitVec 7) (s : State) : Out :=
  .next (resultUnit h (fun c o g => g.setPair d (o.pair a + (c.imm7 imm).signExtend 64)) s)

end Sys2Proof.Machine
end

