-- ==== Sys2Proof/Machine/Predicate.lean ====
section
/-! DEFINITION. Predicate units, opcodes 0x90 to 0x9D (R94 to R96). -/

namespace Sys2Proof.Machine

/-- PAND (R94). -/
def execPand (h : Hdr) (d a b : PredNo) (na nb : Bool) (s : State) : Out :=
  .next (resultUnit h (fun _ o g => g.setPred d ((o.pred a != na) && (o.pred b != nb))) s)

/-- POR (R94). -/
def execPor (h : Hdr) (d a b : PredNo) (na nb : Bool) (s : State) : Out :=
  .next (resultUnit h (fun _ o g => g.setPred d ((o.pred a != na) || (o.pred b != nb))) s)

/-- PXOR (R94). -/
def execPxor (h : Hdr) (d a b : PredNo) (na nb : Bool) (s : State) : Out :=
  .next (resultUnit h (fun _ o g => g.setPred d ((o.pred a != na) != (o.pred b != nb))) s)

/-- PNOT (R94). -/
def execPnot (h : Hdr) (d a : PredNo) (s : State) : Out :=
  .next (resultUnit h (fun _ o g => g.setPred d (!o.pred a)) s)

/-- PMOV (R94). -/
def execPmov (h : Hdr) (d a : PredNo) (na : Bool) (s : State) : Out :=
  .next (resultUnit h (fun _ o g => g.setPred d (o.pred a != na)) s)

/-- The decisions that a fibre's %fs waits for are made (R95, R163). -/
def State.settleFs (s : State) (k : FKey) : State :=
  (s.reqs.filter fun r => decide (r.key = k) && r.asks && !r.decided).foldl (fun (s : State) r => match s.req? r.id with
    | some q => s.decideReq q
    | none => s) s

/-- PSET of one member: it reads %fs as every earlier unit of the fibre has set it, those of its own chain too; `o` is the member it reads from. Behind a FENCE that has not completed, or a request that has not left its cluster, it waits for that (R95). -/
def State.psetOne (s : State) (c : UnitCtx) (o k : FKey) (d : PredNo) (bit : Nat) : State :=
  let s := s.settleFs o
  if s.fsKnown o c.seq then s.updFibre k fun g => g.setPred d (((s.fibre? o).map fun x => x.fsBit bit).getD false)
  else s.updFibre k fun g => g.await c.seq c.uaddr (.pset d bit o)

/-- PSET (R95). -/
def execPset (h : Hdr) (d : PredNo) (bit : FsBit) (s : State) : Out :=
  .next (runUnit h (fun c s => c.act.foldl (fun (s : State) f =>
    s.psetOne c (((c.source h.u f.key).map fun x => x.key).getD f.key) f.key d (fsBitNo bit)) s) s)

/-- CMP (R96). -/
def execCmp (h : Hdr) (d : PredNo) (a b : RegNo) (t : CmpTy) (cc : CC) (s : State) : Out :=
  .next (resultUnit h (fun _ o g => g.setPred d (cmpValue t cc a b o)) s)

end Sys2Proof.Machine
end

