-- ==== Sys2Proof/Machine/Dispatch.lean ====
section
/-! DEFINITION. The one dispatch: each instruction or event to its meaning. -/

namespace Sys2Proof.Machine

def exec (i : Instr) (s : State) : Host.Outcome State Fault Refusal :=
  match i with
  | .iadd h d a b t => Sys2Proof.Machine.execIadd h d a b t s
  | .isub h d a b t => Sys2Proof.Machine.execIsub h d a b t s
  | .imul h d a b t => Sys2Proof.Machine.execImul h d a b t s
  | .imulh h d a b t => Sys2Proof.Machine.execImulh h d a b t s
  | .imad h d a b t => Sys2Proof.Machine.execImad h d a b t s
  | .iadds h d a b t => Sys2Proof.Machine.execIadds h d a b t s
  | .isubs h d a b t => Sys2Proof.Machine.execIsubs h d a b t s
  | .idiv h d a b t => Sys2Proof.Machine.execIdiv h d a b t s
  | .irem h d a b t => Sys2Proof.Machine.execIrem h d a b t s
  | .imin h d a b t => Sys2Proof.Machine.execImin h d a b t s
  | .imax h d a b t => Sys2Proof.Machine.execImax h d a b t s
  | .iabs h d a t => Sys2Proof.Machine.execIabs h d a t s
  | .ineg h d a t => Sys2Proof.Machine.execIneg h d a t s
  | .and h d a b t => Sys2Proof.Machine.execAnd h d a b t s
  | .or h d a b t => Sys2Proof.Machine.execOr h d a b t s
  | .xor h d a b t => Sys2Proof.Machine.execXor h d a b t s
  | .not h d a t => Sys2Proof.Machine.execNot h d a t s
  | .shl h d a b t => Sys2Proof.Machine.execShl h d a b t s
  | .shr h d a b t => Sys2Proof.Machine.execShr h d a b t s
  | .sar h d a b t => Sys2Proof.Machine.execSar h d a b t s
  | .rot h d a b t => Sys2Proof.Machine.execRot h d a b t s
  | .popc h d a t => Sys2Proof.Machine.execPopc h d a t s
  | .clz h d a t => Sys2Proof.Machine.execClz h d a t s
  | .brev h d a t => Sys2Proof.Machine.execBrev h d a t s
  | .bfe h d a b t => Sys2Proof.Machine.execBfe h d a b t s
  | .bfi h d a b t => Sys2Proof.Machine.execBfi h d a b t s
  | .addp h d a b sh => Sys2Proof.Machine.execAddp h d a b sh s
  | .subp h d a b => Sys2Proof.Machine.execSubp h d a b s
  | .iaddi h d a imm => Sys2Proof.Machine.execIaddi h d a imm s
  | .andi h d a imm => Sys2Proof.Machine.execAndi h d a imm s
  | .ori h d a imm => Sys2Proof.Machine.execOri h d a imm s
  | .xori h d a imm => Sys2Proof.Machine.execXori h d a imm s
  | .shli h d a imm => Sys2Proof.Machine.execShli h d a imm s
  | .shri h d a imm => Sys2Proof.Machine.execShri h d a imm s
  | .sari h d a imm => Sys2Proof.Machine.execSari h d a imm s
  | .imuli h d a imm => Sys2Proof.Machine.execImuli h d a imm s
  | .movi h d imm => Sys2Proof.Machine.execMovi h d imm s
  | .movh h d imm => Sys2Proof.Machine.execMovh h d imm s
  | .addpi h d a imm => Sys2Proof.Machine.execAddpi h d a imm s
  | .fadd h d a b t r => Sys2Proof.Machine.execFadd h d a b t r s
  | .fsub h d a b t r => Sys2Proof.Machine.execFsub h d a b t r s
  | .fmul h d a b t r => Sys2Proof.Machine.execFmul h d a b t r s
  | .fma h d a b t r => Sys2Proof.Machine.execFma h d a b t r s
  | .fmin h d a b t => Sys2Proof.Machine.execFmin h d a b t s
  | .fmax h d a b t => Sys2Proof.Machine.execFmax h d a b t s
  | .fabs h d a t => Sys2Proof.Machine.execFabs h d a t s
  | .fneg h d a t => Sys2Proof.Machine.execFneg h d a t s
  | .frcp h d a => Sys2Proof.Machine.execFrcp h d a s
  | .frsq h d a => Sys2Proof.Machine.execFrsq h d a s
  | .fex2 h d a => Sys2Proof.Machine.execFex2 h d a s
  | .flg2 h d a => Sys2Proof.Machine.execFlg2 h d a s
  | .fsin h d a => Sys2Proof.Machine.execFsin h d a s
  | .fcos h d a => Sys2Proof.Machine.execFcos h d a s
  | .cvt h d a src dst sat r => Sys2Proof.Machine.execCvt h d a src dst sat r s
  | .bra h off => Sys2Proof.Machine.execBra h off s
  | .call h off => Sys2Proof.Machine.execCall h off s
  | .brx h a => Sys2Proof.Machine.execBrx h a s
  | .callx h a => Sys2Proof.Machine.execCallx h a s
  | .ret h => Sys2Proof.Machine.execRet h s
  | .fork h off => Sys2Proof.Machine.execFork h off s
  | .join h d => Sys2Proof.Machine.execJoin h d s
  | .quit h imm => Sys2Proof.Machine.execQuit h imm s
  | .yield h => Sys2Proof.Machine.execYield h s
  | .nop h => Sys2Proof.Machine.execNop h s
  | .sleep h imm => Sys2Proof.Machine.execSleep h imm s
  | .cont h off => Sys2Proof.Machine.execCont h off s
  | .resume h a => Sys2Proof.Machine.execResume h a s
  | .trap h imm => Sys2Proof.Machine.execTrap h imm s
  | .movs h d r => Sys2Proof.Machine.execMovs h d r s
  | .movsw h d r => Sys2Proof.Machine.execMovsw h d r s
  | .pand h d a b na nb => Sys2Proof.Machine.execPand h d a b na nb s
  | .por h d a b na nb => Sys2Proof.Machine.execPor h d a b na nb s
  | .pxor h d a b na nb => Sys2Proof.Machine.execPxor h d a b na nb s
  | .pnot h d a => Sys2Proof.Machine.execPnot h d a s
  | .pmov h d a na => Sys2Proof.Machine.execPmov h d a na s
  | .pset h d bit => Sys2Proof.Machine.execPset h d bit s
  | .cmp h d a b t cc => Sys2Proof.Machine.execCmp h d a b t cc s
  | .ld h d base la esc sz => Sys2Proof.Machine.execLd h d base la esc sz s
  | .ldNarrow h d base la esc t => Sys2Proof.Machine.execLdNarrow h d base la esc t s
  | .st h x base sz => Sys2Proof.Machine.execSt h x base sz s
  | .stNarrow h x base t => Sys2Proof.Machine.execStNarrow h x base t s
  | .lds h d base la sz => Sys2Proof.Machine.execLds h d base la sz s
  | .ldsNarrow h d base la t => Sys2Proof.Machine.execLdsNarrow h d base la t s
  | .sts h x base sz => Sys2Proof.Machine.execSts h x base sz s
  | .stsNarrow h x base t => Sys2Proof.Machine.execStsNarrow h x base t s
  | .ldf h d base la esc sz => Sys2Proof.Machine.execLdf h d base la esc sz s
  | .stf h x base sz => Sys2Proof.Machine.execStf h x base sz s
  | .pref h base lv => Sys2Proof.Machine.execPref h base lv s
  | .escm h imm => Sys2Proof.Machine.execEscm h imm s
  | .ldAcq h d base la esc sz => Sys2Proof.Machine.execLdAcq h d base la esc sz s
  | .stRel h x base sz => Sys2Proof.Machine.execStRel h x base sz s
  | .ldv h d base la esc w => Sys2Proof.Machine.execLdv h d base la esc w s
  | .casv h d base la esc sz => Sys2Proof.Machine.execCasv h d base la esc sz s
  | .atomAdd h d base la esc t => Sys2Proof.Machine.execAtomAdd h d base la esc t s
  | .atomAnd h d base la esc t => Sys2Proof.Machine.execAtomAnd h d base la esc t s
  | .atomOr h d base la esc t => Sys2Proof.Machine.execAtomOr h d base la esc t s
  | .atomXor h d base la esc t => Sys2Proof.Machine.execAtomXor h d base la esc t s
  | .atomMin h d base la esc t => Sys2Proof.Machine.execAtomMin h d base la esc t s
  | .atomMax h d base la esc t => Sys2Proof.Machine.execAtomMax h d base la esc t s
  | .atomExch h d base la esc t => Sys2Proof.Machine.execAtomExch h d base la esc t s
  | .atomCas h d base la esc t => Sys2Proof.Machine.execAtomCas h d base la esc t s
  | .atomFadd h d base la esc => Sys2Proof.Machine.execAtomFadd h d base la esc s
  | .rwl h d base la esc op => Sys2Proof.Machine.execRwl h d base la esc op s
  | .valset h d a b st => Sys2Proof.Machine.execValset h d a b st s
  | .waitcSigned h d a b cc => Sys2Proof.Machine.execWaitcSigned h d a b cc s
  | .fence h => Sys2Proof.Machine.execFence h s
  | .bar h lv mchk => Sys2Proof.Machine.execBar h lv mchk s
  | .waitcUnsigned h d a b ge => Sys2Proof.Machine.execWaitcUnsigned h d a b ge s
  | .atomOrdAdd h d base la esc t => Sys2Proof.Machine.execAtomOrdAdd h d base la esc t s
  | .atomOrdAnd h d base la esc t => Sys2Proof.Machine.execAtomOrdAnd h d base la esc t s
  | .atomOrdOr h d base la esc t => Sys2Proof.Machine.execAtomOrdOr h d base la esc t s
  | .atomOrdXor h d base la esc t => Sys2Proof.Machine.execAtomOrdXor h d base la esc t s
  | .atomOrdMin h d base la esc t => Sys2Proof.Machine.execAtomOrdMin h d base la esc t s
  | .atomOrdMax h d base la esc t => Sys2Proof.Machine.execAtomOrdMax h d base la esc t s
  | .atomOrdExch h d base la esc t => Sys2Proof.Machine.execAtomOrdExch h d base la esc t s
  | .atomOrdCas h d base la esc t => Sys2Proof.Machine.execAtomOrdCas h d base la esc t s
  | .atomOrdFadd h d base la esc => Sys2Proof.Machine.execAtomOrdFadd h d base la esc s
  | .redAdd h x base t => Sys2Proof.Machine.execRedAdd h x base t s
  | .redAnd h x base t => Sys2Proof.Machine.execRedAnd h x base t s
  | .redOr h x base t => Sys2Proof.Machine.execRedOr h x base t s
  | .redXor h x base t => Sys2Proof.Machine.execRedXor h x base t s
  | .redMin h x base t => Sys2Proof.Machine.execRedMin h x base t s
  | .redMax h x base t => Sys2Proof.Machine.execRedMax h x base t s
  | .redFadd h x base => Sys2Proof.Machine.execRedFadd h x base s
  | .tdset h x g spad => Sys2Proof.Machine.execTdset h x g spad s
  | .tdget h x g spad => Sys2Proof.Machine.execTdget h x g spad s
  | .tdinv h x => Sys2Proof.Machine.execTdinv h x s
  | .mscl h x g tile => Sys2Proof.Machine.execMscl h x g tile s
  | .mzero h x tile => Sys2Proof.Machine.execMzero h x tile s
  | .mma h x y tile => Sys2Proof.Machine.execMma h x y tile s
  | .mdrn h x free p tile => Sys2Proof.Machine.execMdrn h x free p tile s
  | .cpy h x y => Sys2Proof.Machine.execCpy h x y s
  | .tmm h x y tile => Sys2Proof.Machine.execTmm h x y tile s
  | .twait h d a imm => Sys2Proof.Machine.execTwait h d a imm s
  | .flushc h t => Sys2Proof.Machine.execFlushc h t s
  | .wopen h d a b => Sys2Proof.Machine.execWopen h d a b s
  | .wrevoke h d b => Sys2Proof.Machine.execWrevoke h d b s
  | .monset h a b => Sys2Proof.Machine.execMonset h a b s
  | .monrd h a b => Sys2Proof.Machine.execMonrd h a b s
  | .save h d a b => Sys2Proof.Machine.execSave h d a b s
  | .rest h d a b => Sys2Proof.Machine.execRest h d a b s
  | .keyld h d a b => Sys2Proof.Machine.execKeyld h d a b s
  | .evict h d b => Sys2Proof.Machine.execEvict h d b s
  | .movp h d r => Sys2Proof.Machine.execMovp h d r s
  | .movpw h d r => Sys2Proof.Machine.execMovpw h d r s
  | .dbrk h imm => Sys2Proof.Machine.execDbrk h imm s
  | .imx x => Sys2Proof.Machine.execImx x s
  | .flockForm q => Sys2Proof.Machine.execFlockForm q s
  | .urgentFibre k => Sys2Proof.Machine.execUrgentFibre k s
  | .scoreboardHoldExpiry q => Sys2Proof.Machine.execScoreboardHoldExpiry q s
  | .sleepExpiry k => Sys2Proof.Machine.execSleepExpiry k s
  | .escortDecision r => Sys2Proof.Machine.execEscortDecision r s
  | .departure k => Sys2Proof.Machine.execDeparture k s
  | .escortCreditRefill die => Sys2Proof.Machine.execEscortCreditRefill die s
  | .replyArrival r a => Sys2Proof.Machine.execReplyArrival r a s
  | .reinstatement k => Sys2Proof.Machine.execReinstatement k s
  | .displacedTimeout k => Sys2Proof.Machine.execDisplacedTimeout k s
  | .lateReplyLanding r a => Sys2Proof.Machine.execLateReplyLanding r a s
  | .ldfRetest r => Sys2Proof.Machine.execLdfRetest r s
  | .waitcPoll r a => Sys2Proof.Machine.execWaitcPoll r a s
  | .l1Writeback share => Sys2Proof.Machine.execL1Writeback share s
  | .stepTrap k => Sys2Proof.Machine.execStepTrap k s
  | .codeComparatorHit q n => Sys2Proof.Machine.execCodeComparatorHit q n s
  | .dataWatchpointHit q n => Sys2Proof.Machine.execDataWatchpointHit q n s
  | .writeBufferLeave k => Sys2Proof.Machine.execWriteBufferLeave k s
  | .applyWrite die n => Sys2Proof.Machine.execApplyWrite die n s
  | .cartAgeExpiry die cart => Sys2Proof.Machine.execCartAgeExpiry die cart s
  | .channelDeliver d => Sys2Proof.Machine.execChannelDeliver d s
  | .packetAcknowledge die group peer plane fails => Sys2Proof.Machine.execPacketAcknowledge die group peer plane fails s
  | .engineThreadComplete op => Sys2Proof.Machine.execEngineThreadComplete op s
  | .waitingUnitEnd k remote => Sys2Proof.Machine.execWaitingUnitEnd k remote s
  | .mzeroApply c t => Sys2Proof.Machine.execMzeroApply c t s
  | .mmaApply c t => Sys2Proof.Machine.execMmaApply c t s
  | .mdrnApply c t remote => Sys2Proof.Machine.execMdrnApply c t remote s
  | .copyLanded op remote => Sys2Proof.Machine.execCopyLanded op remote s
  | .tmmChunk op remote => Sys2Proof.Machine.execTmmChunk op remote s
  | .flipEnd page => Sys2Proof.Machine.execFlipEnd page s
  | .snoopResponse page => Sys2Proof.Machine.execSnoopResponse page s
  | .hostWrite addr bytes => Sys2Proof.Machine.execHostWrite addr bytes s
  | .hostRead addr n => Sys2Proof.Machine.execHostRead addr n s
  | .commitLineInvalidate slot => Sys2Proof.Machine.execCommitLineInvalidate slot s
  | .commitLineSweep => Sys2Proof.Machine.execCommitLineSweep s
  | .lwinEnable v => Sys2Proof.Machine.execLwinEnable v s
  | .dependenceSatisfied order which => Sys2Proof.Machine.execDependenceSatisfied order which s
  | .dependencePoll order which => Sys2Proof.Machine.execDependencePoll order which s
  | .parishPlacement die => Sys2Proof.Machine.execParishPlacement die s
  | .forcedDeparture k => Sys2Proof.Machine.execForcedDeparture k s
  | .stealRequest thief => Sys2Proof.Machine.execStealRequest thief s
  | .stealAnswer thief => Sys2Proof.Machine.execStealAnswer thief s
  | .parishRetire ctx pid => Sys2Proof.Machine.execParishRetire ctx pid s
  | .launchCompletion ctx => Sys2Proof.Machine.execLaunchCompletion ctx s
  | .contextHalt ctx h => Sys2Proof.Machine.execContextHalt ctx h s
  | .haltComplete ctx => Sys2Proof.Machine.execHaltComplete ctx s
  | .lateKind1Reinstate k => Sys2Proof.Machine.execLateKind1Reinstate k s
  | .xinv t v => Sys2Proof.Machine.execXinv t v s
  | .invalidationComplete t => Sys2Proof.Machine.execInvalidationComplete t s
  | .trows t v => Sys2Proof.Machine.execTrows t v s
  | .ctxkill v => Sys2Proof.Machine.execCtxkill v s
  | .trst t => Sys2Proof.Machine.execTrst t s
  | .tenancyResetDone t => Sys2Proof.Machine.execTenancyResetDone t s
  | .registerWrite off v => Sys2Proof.Machine.execRegisterWrite off v s
  | .quarterStop q => Sys2Proof.Machine.execQuarterStop q s
  | .quarterRelease q stl => Sys2Proof.Machine.execQuarterRelease q stl s
  | .stallSample q => Sys2Proof.Machine.execStallSample q s
  | .idcode => Sys2Proof.Machine.execIdcode s
  | .samplePreload pins => Sys2Proof.Machine.execSamplePreload pins s
  | .extest => Sys2Proof.Machine.execExtest s
  | .curfew bit => Sys2Proof.Machine.execCurfew bit s
  | .saddr v => Sys2Proof.Machine.execSaddr v s
  | .sdata => Sys2Proof.Machine.execSdata s
  | .bypass code => Sys2Proof.Machine.execBypass code s
  | .packageReset => Sys2Proof.Machine.execPackageReset s
  | .doeAttestation nonce => Sys2Proof.Machine.execDoeAttestation nonce s
  | .doeCertChain => Sys2Proof.Machine.execDoeCertChain s
  | .doeExtend n digest => Sys2Proof.Machine.execDoeExtend n digest s
  | .doeKekInstall t pub iv wrapped tag => Sys2Proof.Machine.execDoeKekInstall t pub iv wrapped tag s
  | .doeUnknown ty => Sys2Proof.Machine.execDoeUnknown ty s
  | .clockEvaluation power sensors => Sys2Proof.Machine.execClockEvaluation power sensors s
  | .thermalTrip sensor => Sys2Proof.Machine.execThermalTrip sensor s
  | .sliceRetire die slice newMap => Sys2Proof.Machine.execSliceRetire die slice newMap s
  | .graceWindowEnd die => Sys2Proof.Machine.execGraceWindowEnd die s
  | .planeRemap plane port => Sys2Proof.Machine.execPlaneRemap plane port s
  | .flitReceive port f => Sys2Proof.Machine.execFlitReceive port f s
  | .replayRequest port seq => Sys2Proof.Machine.execReplayRequest port seq s
  | .bufferHold port => Sys2Proof.Machine.execBufferHold port s
  | .bufferRelease port => Sys2Proof.Machine.execBufferRelease port s
  | .linkDown port => Sys2Proof.Machine.execLinkDown port s
  | .linkSilenceTimeout port => Sys2Proof.Machine.execLinkSilenceTimeout port s
  | .holdHintOn port peer => Sys2Proof.Machine.execHoldHintOn port peer s
  | .holdHintOff port peer => Sys2Proof.Machine.execHoldHintOff port peer s
  | .holdHintExpiry port peer => Sys2Proof.Machine.execHoldHintExpiry port peer s
  | .peerProbe peer => Sys2Proof.Machine.execPeerProbe peer s
  | .peerLost peer => Sys2Proof.Machine.execPeerLost peer s
  | .peerReadmit peer => Sys2Proof.Machine.execPeerReadmit peer s
  | .hostSnoop addr => Sys2Proof.Machine.execHostSnoop addr s
  | .uncorrectableError loc => Sys2Proof.Machine.execUncorrectableError loc s
  | .linkTrained port => Sys2Proof.Machine.execLinkTrained port s
  | .peerNumberAssign n => Sys2Proof.Machine.execPeerNumberAssign n s
  | .resetEnd image sig pub config dispatcher => Sys2Proof.Machine.execResetEnd image sig pub config dispatcher s
  | .stewardKeyInstall slot ten key => Sys2Proof.Machine.execStewardKeyInstall slot ten key s

end Sys2Proof.Machine
end

