-- ==== Sys2Proof/Machine/Sched.lean ====
section
/-! DEFINITION. Which instruction or event a step runs (DESIGN CHOICE, log 3), what the passing of a step does, and the units that a flock issues (R66 to R68, R74, R81). -/

namespace Sys2Proof.Machine

/-! ### The machine's own events -/

/-- A returning fibre finds a window, or a victim that has somewhere to go (R173). -/
def State.mayReturn (s : State) (f : Fibre) : Bool :=
  if f.retFrom.isSome then (s.freeWindow? f.key).isSome || ((s.victim? f.key).bind fun v => s.putAway v 2 true).isSome
  else f.parkedAt.isNone

/-- Events that one fibre may be due for. -/
def State.fibreEvents (s : State) (f : Fibre) : List Instr :=
  (if s.stepReady f then [.stepTrap f.key] else [])
  ++ (if f.wb.isEmpty then [] else [.writeBufferLeave f.key])
  ++ (f.waits.flatMap fun w => match w.wait with
      | .sleep t => if t ≤ s.now then [.sleepExpiry f.key] else []
      | .engine _ => [.waitingUnitEnd f.key []]
      | .none | .join _ | .quit .. | .bar .. | .fence .. | .pset .. | .fork .. | .unborn | .resume _ | .request _ | .tile _ | .xinv | .halted => [])
  ++ (match f.res with
      | .resident _ => if (s.departReq? f.key).isSome then [.departure f.key] else []
      | .lodged _ | .landed _ | .returning => (if s.mayReturn f then [.reinstatement f.key] else []) ++ [.displacedTimeout f.key]
      | .abroad | .stubOnly | .ended => [])
  ++ (if s.urgent f && !(s.flocks.any fun g => g.members.contains f.key) && s.flocks.any (fun g => decide (g.q = f.key.quarter) && !g.ending) then
      [.urgentFibre f.key] else [])

/-- Events that an outstanding request may be due for: at home its own step, and from a peer the answer that has come. -/
def State.reqEvents (s : State) (r : Req) : List Instr :=
  let due := !r.dest.offPackage || r.ans.isSome || r.fail.isSome
  if !due then [] else
  match s.awayOf r.key with
  | some _ => [.lateReplyLanding r.id .own]
  | none => [.replyArrival r.id .own]

/-- Events that an engine operation may be due for. -/
def engineEvents (e : EngineOp) : List Instr :=
  if e.ended then [.engineThreadComplete e.id] else
  match e.kind with
  | .mzero => [.mzeroApply e.key.c e.tile]
  | .mma => [.mmaApply e.key.c e.tile]
  | .mdrn => [.mdrnApply e.key.c e.tile []]
  | .cpy => if e.landed then [] else [.copyLanded e.id []]
  | .tmm => [.tmmChunk e.id []]
  | .tdset | .tdget | .tdinv | .mscl | .wopen | .wrevoke | .monset | .monrd | .save | .rest | .keyld | .evict => []

/-- Writes of the apply queues, by die and place. -/
def State.applyEvents (s : State) : List Instr :=
  (List.range 4).flatMap fun d => (List.range (s.aq.filter fun w => decide (w.die = d)).length).map fun i => .applyWrite d i

/-- Events of launching, placing and retiring. -/
def State.launchEvents (s : State) : List Instr :=
  (s.staleSlots.map fun k => .commitLineInvalidate k)
  ++ (s.pending.flatMap fun p => (if p.sat0 then [] else [.dependenceSatisfied p.order false]) ++ (if p.sat1 then [] else [.dependenceSatisfied p.order true]))
  ++ (if s.pending.isEmpty && s.ctxs.all (fun e => e.2.unplaced.isEmpty) then [] else
      ((List.range 4).map fun d => .parishPlacement d) ++ (s.steal.map fun p => .stealAnswer p.1) ++ (List.range 4).map fun d => .stealRequest d)
  ++ ((s.shares.filter fun e => e.2.lend.isSome).flatMap fun e => (s.lentInUse e.1).map fun f => .forcedDeparture f.key)
  ++ ((s.shares.filter fun e => e.2.exited).map fun e => .parishRetire e.2.ctx e.2.pid)
  ++ s.ctxs.flatMap fun e =>
      if e.2.halting.isSome then [.haltComplete e.1]
      else if e.2.unplaced.isEmpty && decide (e.2.retired = e.2.lrec.parishes) then [.launchCompletion e.1] else []

/-- Events of the fabric, of pages and of registers. -/
def State.deviceEvents (s : State) : List Instr :=
  (s.carts.map fun e => .cartAgeExpiry (e.1 / 256) (e.1 % 256))
  ++ ((s.chans.filter fun c => !c.items.isEmpty).map fun c => .channelDeliver (.out c.die c.group c.peer c.plane))
  ++ ((s.peersOwing.filter fun p => !s.lost p).flatMap fun p =>
      if s.unreachable p || s.probeFailed p then [.peerLost p] else if s.silent p && (s.probes.get? p).isNone then [.peerProbe p] else [])
  ++ (s.hot.map fun h => .holdHintExpiry h.2.2.1 h.2.1)
  ++ ((s.pages.filter fun e => e.2.flipping).map fun e => .flipEnd e.1)
  ++ (s.grace.map fun g => .graceWindowEnd g.1)
  ++ ((s.quarters.filter fun e => e.2.refill).map fun e => .escortCreditRefill (e.1 / 256))
  ++ ((s.quarters.filter fun e => s.sampleDue e.1).map fun e => .stallSample e.1)
  ++ ((List.range 8).flatMap fun t =>
      (if (s.reg (offXinv t)).getLsbD 0 then [.invalidationComplete t] else [])
      ++ (if (s.reg (offTrst t)).getLsbD 0 then [.tenancyResetDone t] else []))

/-- Every event the machine may be due for by itself, in the order in which the model takes them (DESIGN CHOICE, log 3). (DESIGN CHOICE, log 36) (DESIGN CHOICE, log 77) -/
def State.autoEvents (s : State) : List Instr :=
  ((s.pages.filter fun e => e.2.waitHost).map fun e => .snoopResponse e.1)
  ++ s.applyEvents
  ++ ((s.reqs.filter fun r => r.asks && !r.decided).map fun r => .escortDecision r.id)
  ++ (s.reqs.flatMap fun r => s.reqEvents r)
  ++ (s.fibres.flatMap fun f => s.fibreEvents f)
  ++ (s.eops.flatMap fun e => engineEvents e)
  ++ s.launchEvents
  ++ s.deviceEvents
  ++ ((s.flocks.filter fun g => g.held.any fun h => decide (8 ≤ h.2)).map fun g => .scoreboardHoldExpiry g.q)

/-- The event would change the machine: it is enabled. -/
def State.changes (s : State) (i : Instr) : Bool :=
  match exec i s with
  | .next t => decide (t ≠ s)
  | .fault _ => false
  | .refused _ => false

/-- The first of its own events that is enabled. -/
def State.event? (s : State) : Option Instr := s.autoEvents.find? fun i => s.changes i

/-! ### Issue -/

/-- What a step does: the state it starts from, and the instruction or event that it runs there, none where nothing is left to run. -/
structure Plan where
  st : State
  run : Option Instr
  deriving DecidableEq, Repr

/-- A comparator that the flock's next unit hits (R333, R334). (DEDUCED, log 76) -/
def State.comparator? (s : State) (q : Nat) : Option Instr :=
  ((List.range 12).find? fun i => (s.reg (offDcmpc (q / 4) i)).getLsbD 0 && (if i < 8 then (s.codeHit? q i).isSome else (s.dataHit? q i).isSome)).map fun i =>
    if i < 8 then .codeComparatorHit q i else .dataWatchpointHit q i

/-- The word at the flock's address is fetched, decoded and run. -/
def State.runWord (s : State) (fl : Flock) (k : FKey) : Plan :=
  match s.fetch (s.tenOf k) (s.ctx (s.ctxOf k)).prot fl.addr with
  | .error c => ⟨(s.walkVa k fl.addr.toNat).fatal k c fl.uaddr, none⟩
  | .ok w =>
    match decode w with
    | .error c => ⟨s.fatal k c fl.uaddr, none⟩
    | .ok i => ⟨s.walkVa k fl.addr.toNat, some i⟩

/-- The next unit of a flock: a comparator first, then its word. -/
def State.runUnitAt (s : State) (fl : Flock) (k : FKey) : Plan :=
  match (if fl.imxs.isEmpty then s.comparator? fl.q else none) with
  | some i => ⟨s, some i⟩
  | none => s.runWord fl k

/-- A chain splits here (R68): what has issued stands as a chain of its own, and the rest follows in a later cycle, and may split again. Members that a unit before the split moves go there when the rest has issued: the chain is one unit of control (R56, R66). -/
def State.splitChain (s : State) (fl : Flock) : Plan := ⟨(s.count (fl.q / 256) 0).closeFlock false fl.q, none⟩

/-- The next word of a chain that has begun to issue. -/
def State.continueChain (s : State) (fl : Flock) (k : FKey) : Plan :=
  let s := { s with cur := fl.q }
  if fl.imxs.isEmpty && decide (fl.split = some fl.addr) then s.splitChain fl else s.runUnitAt fl k

/-- The first word of a flock's next chain, after the checks of R74; none while a member is held (R67). -/
def State.beginChain (s : State) (fl : Flock) (k : FKey) : Option Plan :=
  if s.codeHeld fl then none else
  match s.chainCheck fl with
  | .error (c, ua) => some ⟨(s.walkVa k fl.addr.toNat).fatal k c ua, none⟩
  | .ok us =>
    if !(s.heldMembers fl).isEmpty then none
    else
      let fl' : Flock := { fl with split := splitAt (s.snapOf fl) [] us }
      some (({ s with cur := fl.q }.setFlock fl').runUnitAt fl' k)

/-- The flock that is in the middle of a chain, with a member of it, unless its quarter is stopped (R339). -/
def State.midFlock? (s : State) : Option (Flock × FKey) :=
  s.flocks.findSome? fun fl => if fl.mid && !(s.quarter fl.q).stopped then fl.members.head?.map fun k => (fl, k) else none

/-- The next chain of a flock, where it can begin. -/
def State.flockIssue? (s : State) (fl : Flock) : Option Plan :=
  if fl.mid || (s.quarter fl.q).stopped then none else fl.members.head?.bind fun k => s.beginChain fl k

/-- The first flock, the one that has waited longest first, whose next chain can begin. -/
def State.issue? (s : State) : Option Plan := s.flocks.reverse.findSome? s.flockIssue?

/-- The next chain of a quarter's flock. -/
def State.issueOf? (s : State) (q : Nat) : Option Plan := (s.flockOf? q).bind s.flockIssue?

/-- A quarter that has no flock and holds ready fibres (R80). -/
def State.formable? (s : State) : Option Nat :=
  (s.fibres.map fun f => f.key.quarter).find? fun q => (s.flockOf? q).isNone && !(s.quarter q).stopped && !(s.readyIn q).isEmpty

/-! ### The step's choice (DESIGN CHOICE, log 3) -/

/-- What still acts while every clock is stopped (R346, R363, R371). -/
def actsStopped : Instr → Bool
  | .idcode | .samplePreload _ | .extest | .curfew _ | .saddr _ | .sdata | .bypass _ | .packageReset => true
  | _ => false

/-- The head of the agenda runs: an event, or a quarter's next chain. An instruction word is no event, and is dropped. -/
def State.runAgenda (s : State) (p : Pick) (t : List Pick) : Plan :=
  let s := { s with agenda := t }
  match p with
  | .event i => ⟨s, if i.isWord || (s.curfew && !actsStopped i) then none else some i⟩
  | .issue q => if s.curfew then ⟨s, none⟩ else (s.issueOf? q).getD ⟨s, none⟩

/-- Without an outside event: an event of its own, a new flock, the next chain, or nothing. -/
def State.planOwn (s : State) : Plan :=
  match s.event? with
  | some i => ⟨s, some i⟩
  | none =>
    match s.formable? with
    | some q => ⟨s, some (.flockForm q)⟩
    | none => s.issue?.getD ⟨s, none⟩

/-- What the next step does. -/
def State.plan (s : State) : Plan :=
  match (if s.curfew then none else s.midFlock?) with
  | some (fl, k) => s.continueChain fl k
  | none =>
    match s.agenda with
    | p :: t => s.runAgenda p t
    | [] => if s.curfew then ⟨s, none⟩ else s.planOwn

/-! ### What the passing of a step does -/

/-- Lines leave their slices (DESIGN CHOICE, log 18). -/
def State.dropLines (s : State) : State :=
  match s.leaving with
  | [] => s
  | l :: t => l.foldl (fun (s : State) x => s.dropLine x) { s with leaving := t }

/-- A fibre's age goes on or starts anew (R79). -/
def Fibre.aged (f : Fibre) (ready : Bool) (now : Nat) : Fibre :=
  { f with readyFrom := if ready then f.readyFrom.orElse fun _ => some now else none }

/-- The cycles for which each held member of a flock has been held (R81). -/
def State.heldFor (s : State) (fl : Flock) : Flock :=
  if fl.mid || (s.quarter fl.q).stopped then fl else { fl with held := (s.heldMembers fl).eraseDups.map fun k => (k, fl.heldFor k + s.pace) }

/-- The cycles of a stop count to no bound and no age of the fibres that stand in it (R340). -/
def Fibre.stand (f : Fibre) (n : Nat) : Fibre :=
  { f with since := f.since + n, lastIssue := f.lastIssue + n, readyFrom := f.readyFrom.map fun t => t + n }

/-- The clocks move by `pace` cycles (DESIGN CHOICE, log 4). (DESIGN CHOICE, log 20) -/
def State.elapse (s : State) : State :=
  let t : State := { s with
    now := s.now + s.pace
    cyc := s.cyc.map fun c => c + BitVec.ofNat 64 s.pace
    fibres := if s.quarters.any fun e => e.2.stopped then s.fibres.map fun f => if (s.quarter f.key.quarter).stopped then f.stand s.pace else f else s.fibres }
  { t with
    fibres := t.fibres.map fun f => f.aged (t.ready f) t.now
    flocks := t.flocks.map fun fl => t.heldFor fl }

/-- What goes on by itself as soon as it may: requests and bulk transfers enter their channels (R234), threads fork (R232), planes are remapped (R268), copies hand over and tiles are granted (R196, R212), fetches of B are shared (R209), queue entries that a flip held are written (R238), and answers that waited for their plane leave (R267). -/
def State.settleUnits (s : State) : State :=
  let s := s.trySends.forks.bulkSends.finishRemaps.shareFetches
  let s := (s.eops.filter fun e => decide (e.kind = .cpy) && e.landed && !e.ended).foldl (fun (s : State) e => s.copySettle e.id) s
  let s := ((s.eops.filter fun e => e.accepted.isNone && decide (e.kind = .mzero ∨ e.kind = .mscl)).map fun e => (e.key.c, e.tile)).eraseDups.foldl
    (fun (s : State) t => s.grantTile t.1 t.2) s
  s.rfqFlush.flushOut

/-- After each step: lines leave, waits that can end do, what may go on goes on, acknowledgements go out, and time passes unless a chain is still issuing. -/
def State.tick (s : State) : State :=
  if s.curfew then s
  else
    let s := s.dropLines.acquireAnswers.settle.settleTraps.settleUnits.forgetEnded.sendAcks.countStalls
    if s.midFlock?.isSome then s else s.samples.elapse

end Sys2Proof.Machine
end

