-- ==== Sys2Proof/Machine/Step.lean ====
section
/-! DEFINITION. One step of the package, and the state in which an instruction word stands to be fetched next. -/

namespace Sys2Proof.Machine

/-- One step (DESIGN CHOICE, log 3): what `State.plan` says runs, and then what the passing of a step does. -/
def step (s : State) : Host.Outcome State Fault Refusal :=
  match s.plan.run with
  | none => .next s.plan.st.tick
  | some i =>
    match exec i s.plan.st with
    | .next t => .next t.tick
    | .fault f => .fault f
    | .refused r => .refused r

/-! ### A program in place (DESIGN CHOICE, log 15)

`withFetchWord` stands for the launch of a program: a context, a household with one fibre, a page table with one leaf of read-only code, the current flock, and the word at its address. -/

/-- Where the code stands: its virtual address, and where the leaf puts it. -/
def fetchVa : Nat := 0x10000
def fetchLoc : Nat := 0x40010000

/-- The context of the placed program: context 0 of tenancy 0, with context privilege. -/
def fetchCtx : Ctx := { blankCtx with st := 1, priv := true, lrec := { blankLaunchRec with entry := BitVec.ofNat 64 fetchVa } }

/-- Its fibre. -/
def fetchFibre (now : Nat) : Fibre := newFibre ⟨0, 0, 0, 0⟩ (BitVec.ofNat 64 fetchVa) 0 (.resident 0) now

/-- Its flock. -/
def fetchFlock : Flock := ⟨0, 0, BitVec.ofNat 64 fetchVa, [⟨0, 0, 0, 0⟩], 0, [], BitVec.ofNat 64 fetchVa, [], [], false, none⟩

/-- What completes the chain that a word with C = 1 opens: MOVI behind an IMX word, PREF behind a word of pipe X, else NOP. -/
def chainMate (w : Word) : List Byte :=
  let h : Hdr := ⟨false, false, .always⟩
  let i : Instr := if isImxWord w then .movi h 0#5 0#12 else if pipeOf (fieldOp w).toNat = 2 then .pref h 0#5 .l2 else .nop h
  if fieldC w then ((encode i).map fun x => leBytes 4 x.toNat).getD [] else []

/-- `s` with the instruction whose bits are `w` standing where `step` fetches its next instruction. -/
def State.withFetchWord (s : State) (_nbits w : Nat) : State :=
  let x := BitVec.ofNat 32 w
  { s with
    mem := ((s.mem.writeBytes 0x10000 (leBytes 8 0x20001)).writeBytes 0x20000 (leBytes 8 0x40000007)).writeBytes fetchLoc (leBytes 4 x.toNat ++ chainMate x)
    poison := []
    regs := s.regs.set (offAsroot 0) 0x10001#64
    ctxs := [(0, fetchCtx)]
    shares := [(0, newHousehold fetchCtx 0 0 0 0 0 none)]
    quarters := []
    fibres := [fetchFibre s.now]
    flocks := [fetchFlock]
    reqs := []
    eops := []
    aq := []
    pages := []
    pending := []
    staleSlots := []
    agenda := []
    curfew := false }

end Sys2Proof.Machine
end

