-- ==== Sys2Proof/Laws/Encoding.lean ====
section
/-! SUPPORT. The fields of an encoded word (R57, R59): what each field reads after `encWord` has put the parts together, and that the codes of modifiers and registers read back. -/

namespace Sys2Proof

/-! ### Header and payload -/


@[simp] theorem fieldC_encWord (h : Hdr) (op : BitVec 8) (x : BitVec 17) : fieldC (encWord h op x) = h.c := by
  simp only [fieldC, encWord, BitVec.getLsbD_append]; simp

@[simp] theorem fieldU_encWord (h : Hdr) (op : BitVec 8) (x : BitVec 17) : fieldU (encWord h op x) = h.u := by
  simp only [fieldU, encWord, BitVec.getLsbD_append]; simp

@[simp] theorem fieldG_encWord (h : Hdr) (op : BitVec 8) (x : BitVec 17) : fieldG (encWord h op x) = h.guard.code := by
  ext i hi
  simp only [fieldG, encWord, BitVec.getElem_extractLsb', BitVec.getLsbD_append]
  interval_cases i <;> simp

@[simp] theorem fieldS_encWord (h : Hdr) (op : BitVec 8) (x : BitVec 17) : fieldS (encWord h op x) = h.guard.sense := by
  simp only [fieldS, encWord, BitVec.getLsbD_append]; simp

@[simp] theorem fieldOp_encWord (h : Hdr) (op : BitVec 8) (x : BitVec 17) : fieldOp (encWord h op x) = op := by
  ext i hi
  simp only [fieldOp, encWord, BitVec.getElem_extractLsb', BitVec.getLsbD_append]
  interval_cases i <;> simp

@[simp] theorem field17_encWord (h : Hdr) (op : BitVec 8) (x : BitVec 17) : field17 (encWord h op x) = x := by
  ext i hi
  simp only [field17, encWord, BitVec.getElem_extractLsb', BitVec.getLsbD_append]
  interval_cases i <;> simp

/-! ### The formats of R59 -/

@[simp] theorem fieldD_encRRR (h : Hdr) (op : BitVec 8) (d a b : BitVec 5) (f : BitVec 2) : fieldD (encWord h op (encRRR d a b f)) = d := by
  ext i hi
  simp only [fieldD, encWord, encRRR, BitVec.getElem_extractLsb', BitVec.getLsbD_append]
  interval_cases i <;> simp

@[simp] theorem fieldA_encRRR (h : Hdr) (op : BitVec 8) (d a b : BitVec 5) (f : BitVec 2) : fieldA (encWord h op (encRRR d a b f)) = a := by
  ext i hi
  simp only [fieldA, encWord, encRRR, BitVec.getElem_extractLsb', BitVec.getLsbD_append]
  interval_cases i <;> simp

@[simp] theorem fieldB_encRRR (h : Hdr) (op : BitVec 8) (d a b : BitVec 5) (f : BitVec 2) : fieldB (encWord h op (encRRR d a b f)) = b := by
  ext i hi
  simp only [fieldB, encWord, encRRR, BitVec.getElem_extractLsb', BitVec.getLsbD_append]
  interval_cases i <;> simp

@[simp] theorem fieldF_encRRR (h : Hdr) (op : BitVec 8) (d a b : BitVec 5) (f : BitVec 2) : fieldF (encWord h op (encRRR d a b f)) = f := by
  ext i hi
  simp only [fieldF, encWord, encRRR, BitVec.getElem_extractLsb', BitVec.getLsbD_append]
  interval_cases i <;> simp

@[simp] theorem fieldD_encRRI (h : Hdr) (op : BitVec 8) (d a : BitVec 5) (imm : BitVec 7) : fieldD (encWord h op (encRRI d a imm)) = d := by
  ext i hi
  simp only [fieldD, encWord, encRRI, BitVec.getElem_extractLsb', BitVec.getLsbD_append]
  interval_cases i <;> simp

@[simp] theorem fieldA_encRRI (h : Hdr) (op : BitVec 8) (d a : BitVec 5) (imm : BitVec 7) : fieldA (encWord h op (encRRI d a imm)) = a := by
  ext i hi
  simp only [fieldA, encWord, encRRI, BitVec.getElem_extractLsb', BitVec.getLsbD_append]
  interval_cases i <;> simp

@[simp] theorem fieldImm7_encRRI (h : Hdr) (op : BitVec 8) (d a : BitVec 5) (imm : BitVec 7) : fieldImm7 (encWord h op (encRRI d a imm)) = imm := by
  ext i hi
  simp only [fieldImm7, encWord, encRRI, BitVec.getElem_extractLsb', BitVec.getLsbD_append]
  interval_cases i <;> simp

@[simp] theorem fieldD_encRI (h : Hdr) (op : BitVec 8) (d : BitVec 5) (imm : BitVec 12) : fieldD (encWord h op (encRI d imm)) = d := by
  ext i hi
  simp only [fieldD, encWord, encRI, BitVec.getElem_extractLsb', BitVec.getLsbD_append]
  interval_cases i <;> simp

@[simp] theorem fieldImm12_encRI (h : Hdr) (op : BitVec 8) (d : BitVec 5) (imm : BitVec 12) : fieldImm12 (encWord h op (encRI d imm)) = imm := by
  ext i hi
  simp only [fieldImm12, encWord, encRI, BitVec.getElem_extractLsb', BitVec.getLsbD_append]
  interval_cases i <;> simp

@[simp] theorem fieldD_encMEM (h : Hdr) (op : BitVec 8) (d b : BitVec 5) (l : BitVec 4) (e : Bool) (z : BitVec 2) : fieldD (encWord h op (encMEM d b l e z)) = d := by
  ext i hi
  simp only [fieldD, encWord, encMEM, BitVec.getElem_extractLsb', BitVec.getLsbD_append]
  interval_cases i <;> simp

@[simp] theorem fieldA_encMEM (h : Hdr) (op : BitVec 8) (d b : BitVec 5) (l : BitVec 4) (e : Bool) (z : BitVec 2) : fieldA (encWord h op (encMEM d b l e z)) = b := by
  ext i hi
  simp only [fieldA, encWord, encMEM, BitVec.getElem_extractLsb', BitVec.getLsbD_append]
  interval_cases i <;> simp

@[simp] theorem fieldL_encMEM (h : Hdr) (op : BitVec 8) (d b : BitVec 5) (l : BitVec 4) (e : Bool) (z : BitVec 2) : fieldL (encWord h op (encMEM d b l e z)) = l := by
  ext i hi
  simp only [fieldL, encWord, encMEM, BitVec.getElem_extractLsb', BitVec.getLsbD_append]
  interval_cases i <;> simp

@[simp] theorem fieldE_encMEM (h : Hdr) (op : BitVec 8) (d b : BitVec 5) (l : BitVec 4) (e : Bool) (z : BitVec 2) : fieldE (encWord h op (encMEM d b l e z)) = e := by
  simp only [fieldE, encWord, encMEM, BitVec.getLsbD_append]; simp

@[simp] theorem fieldF_encMEM (h : Hdr) (op : BitVec 8) (d b : BitVec 5) (l : BitVec 4) (e : Bool) (z : BitVec 2) : fieldF (encWord h op (encMEM d b l e z)) = z := by
  ext i hi
  simp only [fieldF, encWord, encMEM, BitVec.getElem_extractLsb', BitVec.getLsbD_append]
  interval_cases i <;> simp

@[simp] theorem fieldTx_encENG (h : Hdr) (op : BitVec 8) (y z : BitVec 8) (k : Bool) : fieldTx (encWord h op (encENG y z k)) = y := by
  ext i hi
  simp only [fieldTx, encWord, encENG, BitVec.getElem_extractLsb', BitVec.getLsbD_append]
  interval_cases i <;> simp

@[simp] theorem fieldTy_encENG (h : Hdr) (op : BitVec 8) (y z : BitVec 8) (k : Bool) : fieldTy (encWord h op (encENG y z k)) = z := by
  ext i hi
  simp only [fieldTy, encWord, encENG, BitVec.getElem_extractLsb', BitVec.getLsbD_append]
  interval_cases i <;> simp

@[simp] theorem fieldK_encENG (h : Hdr) (op : BitVec 8) (y z : BitVec 8) (k : Bool) : fieldK (encWord h op (encENG y z k)) = k := by
  simp only [fieldK, encWord, encENG, BitVec.getLsbD_append]; simp

@[simp] theorem fieldTx_encENR (h : Hdr) (op : BitVec 8) (y : BitVec 8) (g : BitVec 5) (k : Bool) : fieldTx (encWord h op (encENR y g k)) = y := by
  ext i hi
  simp only [fieldTx, encWord, encENR, BitVec.getElem_extractLsb', BitVec.getLsbD_append]
  interval_cases i <;> simp

@[simp] theorem fieldEg_encENR (h : Hdr) (op : BitVec 8) (y : BitVec 8) (g : BitVec 5) (k : Bool) : fieldEg (encWord h op (encENR y g k)) = g := by
  ext i hi
  simp only [fieldEg, encWord, encENR, BitVec.getElem_extractLsb', BitVec.getLsbD_append]
  interval_cases i <;> simp

@[simp] theorem fieldEz_encENR (h : Hdr) (op : BitVec 8) (y : BitVec 8) (g : BitVec 5) (k : Bool) : fieldEz (encWord h op (encENR y g k)) = 0#3 := by
  ext i hi
  simp only [fieldEz, encWord, encENR, BitVec.getElem_extractLsb', BitVec.getLsbD_append]
  interval_cases i <;> simp

@[simp] theorem fieldK_encENR (h : Hdr) (op : BitVec 8) (y : BitVec 8) (g : BitVec 5) (k : Bool) : fieldK (encWord h op (encENR y g k)) = k := by
  simp only [fieldK, encWord, encENR, BitVec.getLsbD_append]; simp

/-! ### Codes read back -/

@[simp] theorem IntTy.ofBits_code (x : IntTy) : IntTy.ofBits x.code = x := by cases x <;> rfl

@[simp] theorem FTy.ofBits_code (x : FTy) : FTy.ofBits x.code = x := by cases x <;> rfl

@[simp] theorem Rnd.ofBits_code (x : Rnd) : Rnd.ofBits x.code = x := by cases x <;> rfl

@[simp] theorem CvtTy.ofBits_code (x : CvtTy) : CvtTy.ofBits x.code = x := by cases x <;> rfl

@[simp] theorem CC.ofBits_code (x : CC) : CC.ofBits x.code = x := by cases x <;> rfl

@[simp] theorem NLd.ofBits_code (x : NLd) : NLd.ofBits x.code = x := by cases x <;> rfl

@[simp] theorem Sz3.ofBits_code (x : Sz3) : Sz3.ofBits x.code = some x := by cases x <;> rfl

@[simp] theorem Sz2.ofBits_code (x : Sz2) : Sz2.ofBits x.code = some x := by cases x <;> rfl

@[simp] theorem NSt.ofBits_code (x : NSt) : NSt.ofBits x.code = some x := by cases x <;> rfl

@[simp] theorem RwlOp.ofBits_code (x : RwlOp) : RwlOp.ofBits x.code = some x := by cases x <;> rfl

@[simp] theorem PrefLevel.ofBits_code (x : PrefLevel) : PrefLevel.ofBits x.code = some x := by cases x <;> rfl

@[simp] theorem BarLevel.ofBits_code (x : BarLevel) : BarLevel.ofBits x.code = some x := by cases x <;> rfl

@[simp] theorem FsBit.ofBits_code (x : FsBit) : FsBit.ofBits x.code = some x := by cases x <;> rfl

@[simp] theorem SpecReg.ofBits_code (x : SpecReg) : SpecReg.ofBits x.code = some x := by cases x <;> rfl

@[simp] theorem WSpecReg.ofBits_code (x : WSpecReg) : WSpecReg.ofBits x.code = some x := by cases x <;> rfl

@[simp] theorem PrivReg.ofBits_code (x : PrivReg) : PrivReg.ofBits x.code = some x := by cases x <;> rfl

@[simp] theorem WPrivReg.ofBits_code (x : WPrivReg) : WPrivReg.ofBits x.code = some x := by cases x <;> rfl

@[simp] theorem predOf_predCode (p : PredNo) : predOf (predCode p) = some p := by
  revert p; decide

@[simp] theorem predOf_zero : predOf 0#5 = some 0 := rfl

@[simp] theorem Guard.ofBits_code (g : Guard) : Guard.ofBits g.code g.sense = some g := by
  cases g with
  | always => rfl
  | on p s => revert p s; decide

@[simp] theorem FlushTgt.ofBits_code (t : FlushTgt) : FlushTgt.ofBits t.code = some t := by
  cases t with
  | all => rfl
  | peer p =>
    have h1 : ((0#7 ++ p : BitVec 17)).getLsbD 16 = false := by simp only [BitVec.getLsbD_append]; simp
    have h2 : ((0#7 ++ p : BitVec 17)).getLsbD 15 = false := by simp only [BitVec.getLsbD_append]; simp
    have h3 : ((0#7 ++ p : BitVec 17)).extractLsb' 12 3 = 0#3 := by
      ext i hi; simp only [BitVec.getElem_extractLsb', BitVec.getLsbD_append]; interval_cases i <;> simp
    have h4 : ((0#7 ++ p : BitVec 17)).extractLsb' 10 2 = 0#2 := by
      ext i hi; simp only [BitVec.getElem_extractLsb', BitVec.getLsbD_append]; interval_cases i <;> simp
    have h5 : ((0#7 ++ p : BitVec 17)).extractLsb' 0 10 = p := by
      ext i hi; simp only [BitVec.getElem_extractLsb', BitVec.getLsbD_append]; interval_cases i <;> simp
    simp only [FlushTgt.ofBits, FlushTgt.code, h1, h2, h3, h4, h5]
    simp
  | grp g =>
    have h1 : ((1#2 ++ 0#3 ++ g : BitVec 17)).getLsbD 16 = false := by simp only [BitVec.getLsbD_append]; simp
    have h2 : ((1#2 ++ 0#3 ++ g : BitVec 17)).getLsbD 15 = true := by simp only [BitVec.getLsbD_append]; simp
    have h3 : ((1#2 ++ 0#3 ++ g : BitVec 17)).extractLsb' 12 3 = 0#3 := by
      ext i hi; simp only [BitVec.getElem_extractLsb', BitVec.getLsbD_append]; interval_cases i <;> simp
    have h5 : ((1#2 ++ 0#3 ++ g : BitVec 17)).extractLsb' 0 12 = g := by
      ext i hi; simp only [BitVec.getElem_extractLsb', BitVec.getLsbD_append]; interval_cases i <;> simp
    simp only [FlushTgt.ofBits, FlushTgt.code, h1, h2, h3, h5]
    simp

/-! ### Small modifier fields -/

@[simp] theorem two_low (a b : Bool) : (BitVec.ofBool b ++ BitVec.ofBool a)[0] = a := by cases a <;> cases b <;> rfl
@[simp] theorem two_high (a b : Bool) : (BitVec.ofBool b ++ BitVec.ofBool a)[1] = b := by cases a <;> cases b <;> rfl
@[simp] theorem one_low (a : Bool) : (0#1 ++ BitVec.ofBool a)[0] = a := by cases a <;> rfl
@[simp] theorem one_high (a : Bool) : (0#1 ++ BitVec.ofBool a)[1] = false := by cases a <;> rfl
@[simp] theorem cvtB_dst (t : CvtTy) (sat : Bool) : (t.code ++ BitVec.ofBool sat ++ 0#1).extractLsb' 2 3 = t.code := by
  cases t <;> cases sat <;> rfl
@[simp] theorem cvtB_sat (t : CvtTy) (sat : Bool) : (t.code ++ BitVec.ofBool sat ++ 0#1)[1] = sat := by
  cases t <;> cases sat <;> rfl
@[simp] theorem cvtB_zero (t : CvtTy) (sat : Bool) : (t.code ++ BitVec.ofBool sat ++ 0#1)[0] = false := by
  cases t <;> cases sat <;> rfl
@[simp] theorem bar_lv (lv : BarLevel) (m : Bool) : (lv.code ++ BitVec.ofBool m ++ 0#14).extractLsb' 15 2 = lv.code := by
  cases lv <;> cases m <;> rfl
@[simp] theorem bar_mchk (lv : BarLevel) (m : Bool) : (lv.code ++ BitVec.ofBool m ++ 0#14)[14] = m := by
  cases lv <;> cases m <;> rfl
@[simp] theorem bar_zero (lv : BarLevel) (m : Bool) : (lv.code ++ BitVec.ofBool m ++ 0#14).extractLsb' 0 14 = 0#14 := by
  cases lv <;> cases m <;> rfl
@[simp] theorem mdrn_zero (fr : Bool) (p : PredNo) : (0#3 ++ BitVec.ofBool fr ++ BitVec.ofNat 4 p.val).extractLsb' 5 3 = 0#3 := by
  revert fr p; decide
@[simp] theorem mdrn_free (fr : Bool) (p : PredNo) : (0#3 ++ BitVec.ofBool fr ++ BitVec.ofNat 4 p.val)[4] = fr := by
  revert fr p; decide
@[simp] theorem mdrn_pred (fr : Bool) (p : PredNo) :
    predOf (0#1 ++ (0#3 ++ BitVec.ofBool fr ++ BitVec.ofNat 4 p.val).extractLsb' 0 4) = some p := by
  revert fr p; decide

/-! ### The decoder on an encoded word -/

/-- A word whose form passes its checks under a header decodes to what the form builds. -/
theorem decode_encWord (h : Hdr) (op : BitVec 8) (x : BitVec 17) (f : Form) (i : Instr) (hop : op ≠ 0xFE#8)
    (hf : opForm op (encWord h op x) = some f) (h2 : f.ok02 = true) (h3 : f.ok03 = true) (hA : f.ok0A = true)
    (hu : h.u = true → ∃ j, f.build ⟨false, true, .always⟩ = some j ∧ j.uniformOk = true)
    (hb : f.build h = some i) (ha : i.opds.all Opd.aligned = true) : decode (encWord h op x) = .ok i := by
  have hub : f.uniformBad (encWord h op x) = false := by
    simp only [Form.uniformBad, fieldU_encWord]
    cases hh : h.u with
    | false => rfl
    | true =>
      obtain ⟨j, hj, hk⟩ := hu hh
      simp [hj, hk]
  have hh : decodeHdr (encWord h op x) = some h := by
    simp only [decodeHdr, fieldG_encWord, fieldS_encWord, fieldC_encWord, fieldU_encWord, Guard.ofBits_code]
    rfl
  simp only [decode, fieldOp_encWord, hop, if_false, hf, h2, h3, hub, hh]
  simp [Form.finish, hb, ha, hA]

/-- An IMX word decodes to its payload (R61). -/
theorem decode_imx (x : BitVec 17) : decode (0b101111011111110#15 ++ x) = .ok (.imx x) := by
  have h1 : fieldOp (0b101111011111110#15 ++ x) = 0xFE#8 := by
    ext i hi
    simp only [fieldOp, BitVec.getElem_extractLsb', BitVec.getLsbD_append]
    interval_cases i <;> simp
  have h2 : imxHdrOk (0b101111011111110#15 ++ x) = true := by
    have hg : fieldG (0b101111011111110#15 ++ x) = 15#4 := by
      ext i hi
      simp only [fieldG, BitVec.getElem_extractLsb', BitVec.getLsbD_append]
      interval_cases i <;> simp
    simp only [imxHdrOk, fieldC, fieldU, fieldS, hg, BitVec.getLsbD_append]
    simp
  have h3 : field17 (0b101111011111110#15 ++ x) = x := by
    ext i hi
    simp only [field17, BitVec.getElem_extractLsb', BitVec.getLsbD_append]
    interval_cases i <;> simp
  simp [decode, h1, h2, h3]

end Sys2Proof
end

