-- ==== Sys2Proof/Laws/PerInstr.lean ====
section
/-! SUPPORT. Decoding what is encoded, one lemma for each constructor of `Instr` (family RoundTrip of LAWS.json). -/

namespace Sys2Proof.Laws.RoundTrip

set_option Elab.async false

/-- A well-formed instruction word has an encoding, and the encoding decodes to it. -/
def Statement (i : Instr) : Prop := i.isWord = true → i.wf = true → ∃ w, encode i = some w ∧ decode w = .ok i

/-- The statement for a word with a header, from what its form builds. -/
theorem ofForm (i : Instr) (h : Hdr) (op : BitVec 8) (x : BitVec 17) (f : Form) (hi : i.hdr? = some h)
    (he : encode i = some (encWord h op x)) (hop : op ≠ 0xFE#8) (hf : opForm op (encWord h op x) = some f)
    (h2 : i.wf = true → f.ok02 = true) (h3 : i.wf = true → f.ok03 = true) (hA : f.ok0A = true)
    (hu : i.uniformOk = true → ∃ j, f.build ⟨false, true, .always⟩ = some j ∧ j.uniformOk = true)
    (hb : f.build h = some i) : Statement i := by
  intro _ hw
  have hal : i.opds.all Opd.aligned = true := by
    simp only [Instr.wf, Bool.and_eq_true] at hw
    exact hw.1.1.1
  have hun : h.u = true → i.uniformOk = true := by
    intro hh
    simp only [Instr.wf, Bool.and_eq_true, hi, hh] at hw
    simpa using hw.1.1.2
  exact ⟨_, he, decode_encWord h op x f i hop hf (h2 hw) (h3 hw) hA (fun hh => hu (hun hh)) hb hal⟩

theorem iadd : ∀ h d a b t, Statement (.iadd h d a b t) := by
  intro h d a b t
  exact ofForm _ h _ _ _ rfl rfl (by decide) rfl (fun hw => by first | rfl | simp_all [Form.plain, Form.chk, Form.sel, Form.pred, pred3]) (fun hw => by first | rfl | simp_all [Form.plain, Form.chk, Form.sel, Form.pred, pred3]) (by first | rfl | simp [Form.plain, Form.chk, Form.sel, Form.pred, pred3])
    (fun hu => by first | exact ⟨_, rfl, rfl⟩ | exact absurd hu Bool.false_ne_true | exact ⟨_, rfl, hu⟩ | simp_all [Form.plain, Form.chk, Form.sel, Form.pred, pred3, Instr.uniformOk]) (by simp [Form.plain, Form.chk, Form.sel, Form.pred, pred3])

theorem isub : ∀ h d a b t, Statement (.isub h d a b t) := by
  intro h d a b t
  exact ofForm _ h _ _ _ rfl rfl (by decide) rfl (fun hw => by first | rfl | simp_all [Form.plain, Form.chk, Form.sel, Form.pred, pred3]) (fun hw => by first | rfl | simp_all [Form.plain, Form.chk, Form.sel, Form.pred, pred3]) (by first | rfl | simp [Form.plain, Form.chk, Form.sel, Form.pred, pred3])
    (fun hu => by first | exact ⟨_, rfl, rfl⟩ | exact absurd hu Bool.false_ne_true | exact ⟨_, rfl, hu⟩ | simp_all [Form.plain, Form.chk, Form.sel, Form.pred, pred3, Instr.uniformOk]) (by simp [Form.plain, Form.chk, Form.sel, Form.pred, pred3])

theorem imul : ∀ h d a b t, Statement (.imul h d a b t) := by
  intro h d a b t
  exact ofForm _ h _ _ _ rfl rfl (by decide) rfl (fun hw => by first | rfl | simp_all [Form.plain, Form.chk, Form.sel, Form.pred, pred3]) (fun hw => by first | rfl | simp_all [Form.plain, Form.chk, Form.sel, Form.pred, pred3]) (by first | rfl | simp [Form.plain, Form.chk, Form.sel, Form.pred, pred3])
    (fun hu => by first | exact ⟨_, rfl, rfl⟩ | exact absurd hu Bool.false_ne_true | exact ⟨_, rfl, hu⟩ | simp_all [Form.plain, Form.chk, Form.sel, Form.pred, pred3, Instr.uniformOk]) (by simp [Form.plain, Form.chk, Form.sel, Form.pred, pred3])

theorem imulh : ∀ h d a b t, Statement (.imulh h d a b t) := by
  intro h d a b t
  exact ofForm _ h _ _ _ rfl rfl (by decide) rfl (fun hw => by first | rfl | simp_all [Form.plain, Form.chk, Form.sel, Form.pred, pred3]) (fun hw => by first | rfl | simp_all [Form.plain, Form.chk, Form.sel, Form.pred, pred3]) (by first | rfl | simp [Form.plain, Form.chk, Form.sel, Form.pred, pred3])
    (fun hu => by first | exact ⟨_, rfl, rfl⟩ | exact absurd hu Bool.false_ne_true | exact ⟨_, rfl, hu⟩ | simp_all [Form.plain, Form.chk, Form.sel, Form.pred, pred3, Instr.uniformOk]) (by simp [Form.plain, Form.chk, Form.sel, Form.pred, pred3])

theorem imad : ∀ h d a b t, Statement (.imad h d a b t) := by
  intro h d a b t
  exact ofForm _ h _ _ _ rfl rfl (by decide) rfl (fun hw => by first | rfl | simp_all [Form.plain, Form.chk, Form.sel, Form.pred, pred3]) (fun hw => by first | rfl | simp_all [Form.plain, Form.chk, Form.sel, Form.pred, pred3]) (by first | rfl | simp [Form.plain, Form.chk, Form.sel, Form.pred, pred3])
    (fun hu => by first | exact ⟨_, rfl, rfl⟩ | exact absurd hu Bool.false_ne_true | exact ⟨_, rfl, hu⟩ | simp_all [Form.plain, Form.chk, Form.sel, Form.pred, pred3, Instr.uniformOk]) (by simp [Form.plain, Form.chk, Form.sel, Form.pred, pred3])

theorem iadds : ∀ h d a b t, Statement (.iadds h d a b t) := by
  intro h d a b t
  exact ofForm _ h _ _ _ rfl rfl (by decide) rfl (fun hw => by first | rfl | simp_all [Form.plain, Form.chk, Form.sel, Form.pred, pred3]) (fun hw => by first | rfl | simp_all [Form.plain, Form.chk, Form.sel, Form.pred, pred3]) (by first | rfl | simp [Form.plain, Form.chk, Form.sel, Form.pred, pred3])
    (fun hu => by first | exact ⟨_, rfl, rfl⟩ | exact absurd hu Bool.false_ne_true | exact ⟨_, rfl, hu⟩ | simp_all [Form.plain, Form.chk, Form.sel, Form.pred, pred3, Instr.uniformOk]) (by simp [Form.plain, Form.chk, Form.sel, Form.pred, pred3])

theorem isubs : ∀ h d a b t, Statement (.isubs h d a b t) := by
  intro h d a b t
  exact ofForm _ h _ _ _ rfl rfl (by decide) rfl (fun hw => by first | rfl | simp_all [Form.plain, Form.chk, Form.sel, Form.pred, pred3]) (fun hw => by first | rfl | simp_all [Form.plain, Form.chk, Form.sel, Form.pred, pred3]) (by first | rfl | simp [Form.plain, Form.chk, Form.sel, Form.pred, pred3])
    (fun hu => by first | exact ⟨_, rfl, rfl⟩ | exact absurd hu Bool.false_ne_true | exact ⟨_, rfl, hu⟩ | simp_all [Form.plain, Form.chk, Form.sel, Form.pred, pred3, Instr.uniformOk]) (by simp [Form.plain, Form.chk, Form.sel, Form.pred, pred3])

theorem idiv : ∀ h d a b t, Statement (.idiv h d a b t) := by
  intro h d a b t
  exact ofForm _ h _ _ _ rfl rfl (by decide) rfl (fun hw => by first | rfl | simp_all [Form.plain, Form.chk, Form.sel, Form.pred, pred3]) (fun hw => by first | rfl | simp_all [Form.plain, Form.chk, Form.sel, Form.pred, pred3]) (by first | rfl | simp [Form.plain, Form.chk, Form.sel, Form.pred, pred3])
    (fun hu => by first | exact ⟨_, rfl, rfl⟩ | exact absurd hu Bool.false_ne_true | exact ⟨_, rfl, hu⟩ | simp_all [Form.plain, Form.chk, Form.sel, Form.pred, pred3, Instr.uniformOk]) (by simp [Form.plain, Form.chk, Form.sel, Form.pred, pred3])

theorem irem : ∀ h d a b t, Statement (.irem h d a b t) := by
  intro h d a b t
  exact ofForm _ h _ _ _ rfl rfl (by decide) rfl (fun hw => by first | rfl | simp_all [Form.plain, Form.chk, Form.sel, Form.pred, pred3]) (fun hw => by first | rfl | simp_all [Form.plain, Form.chk, Form.sel, Form.pred, pred3]) (by first | rfl | simp [Form.plain, Form.chk, Form.sel, Form.pred, pred3])
    (fun hu => by first | exact ⟨_, rfl, rfl⟩ | exact absurd hu Bool.false_ne_true | exact ⟨_, rfl, hu⟩ | simp_all [Form.plain, Form.chk, Form.sel, Form.pred, pred3, Instr.uniformOk]) (by simp [Form.plain, Form.chk, Form.sel, Form.pred, pred3])

theorem imin : ∀ h d a b t, Statement (.imin h d a b t) := by
  intro h d a b t
  exact ofForm _ h _ _ _ rfl rfl (by decide) rfl (fun hw => by first | rfl | simp_all [Form.plain, Form.chk, Form.sel, Form.pred, pred3]) (fun hw => by first | rfl | simp_all [Form.plain, Form.chk, Form.sel, Form.pred, pred3]) (by first | rfl | simp [Form.plain, Form.chk, Form.sel, Form.pred, pred3])
    (fun hu => by first | exact ⟨_, rfl, rfl⟩ | exact absurd hu Bool.false_ne_true | exact ⟨_, rfl, hu⟩ | simp_all [Form.plain, Form.chk, Form.sel, Form.pred, pred3, Instr.uniformOk]) (by simp [Form.plain, Form.chk, Form.sel, Form.pred, pred3])

theorem imax : ∀ h d a b t, Statement (.imax h d a b t) := by
  intro h d a b t
  exact ofForm _ h _ _ _ rfl rfl (by decide) rfl (fun hw => by first | rfl | simp_all [Form.plain, Form.chk, Form.sel, Form.pred, pred3]) (fun hw => by first | rfl | simp_all [Form.plain, Form.chk, Form.sel, Form.pred, pred3]) (by first | rfl | simp [Form.plain, Form.chk, Form.sel, Form.pred, pred3])
    (fun hu => by first | exact ⟨_, rfl, rfl⟩ | exact absurd hu Bool.false_ne_true | exact ⟨_, rfl, hu⟩ | simp_all [Form.plain, Form.chk, Form.sel, Form.pred, pred3, Instr.uniformOk]) (by simp [Form.plain, Form.chk, Form.sel, Form.pred, pred3])

theorem iabs : ∀ h d a t, Statement (.iabs h d a t) := by
  intro h d a t
  exact ofForm _ h _ _ _ rfl rfl (by decide) rfl (fun hw => by first | rfl | simp_all [Form.plain, Form.chk, Form.sel, Form.pred, pred3]) (fun hw => by first | rfl | simp_all [Form.plain, Form.chk, Form.sel, Form.pred, pred3]) (by first | rfl | simp [Form.plain, Form.chk, Form.sel, Form.pred, pred3])
    (fun hu => by first | exact ⟨_, rfl, rfl⟩ | exact absurd hu Bool.false_ne_true | exact ⟨_, rfl, hu⟩ | simp_all [Form.plain, Form.chk, Form.sel, Form.pred, pred3, Instr.uniformOk]) (by simp [Form.plain, Form.chk, Form.sel, Form.pred, pred3])

theorem ineg : ∀ h d a t, Statement (.ineg h d a t) := by
  intro h d a t
  exact ofForm _ h _ _ _ rfl rfl (by decide) rfl (fun hw => by first | rfl | simp_all [Form.plain, Form.chk, Form.sel, Form.pred, pred3]) (fun hw => by first | rfl | simp_all [Form.plain, Form.chk, Form.sel, Form.pred, pred3]) (by first | rfl | simp [Form.plain, Form.chk, Form.sel, Form.pred, pred3])
    (fun hu => by first | exact ⟨_, rfl, rfl⟩ | exact absurd hu Bool.false_ne_true | exact ⟨_, rfl, hu⟩ | simp_all [Form.plain, Form.chk, Form.sel, Form.pred, pred3, Instr.uniformOk]) (by simp [Form.plain, Form.chk, Form.sel, Form.pred, pred3])

theorem and : ∀ h d a b t, Statement (.and h d a b t) := by
  intro h d a b t
  exact ofForm _ h _ _ _ rfl rfl (by decide) rfl (fun hw => by first | rfl | simp_all [Form.plain, Form.chk, Form.sel, Form.pred, pred3]) (fun hw => by first | rfl | simp_all [Form.plain, Form.chk, Form.sel, Form.pred, pred3]) (by first | rfl | simp [Form.plain, Form.chk, Form.sel, Form.pred, pred3])
    (fun hu => by first | exact ⟨_, rfl, rfl⟩ | exact absurd hu Bool.false_ne_true | exact ⟨_, rfl, hu⟩ | simp_all [Form.plain, Form.chk, Form.sel, Form.pred, pred3, Instr.uniformOk]) (by simp [Form.plain, Form.chk, Form.sel, Form.pred, pred3])

theorem or : ∀ h d a b t, Statement (.or h d a b t) := by
  intro h d a b t
  exact ofForm _ h _ _ _ rfl rfl (by decide) rfl (fun hw => by first | rfl | simp_all [Form.plain, Form.chk, Form.sel, Form.pred, pred3]) (fun hw => by first | rfl | simp_all [Form.plain, Form.chk, Form.sel, Form.pred, pred3]) (by first | rfl | simp [Form.plain, Form.chk, Form.sel, Form.pred, pred3])
    (fun hu => by first | exact ⟨_, rfl, rfl⟩ | exact absurd hu Bool.false_ne_true | exact ⟨_, rfl, hu⟩ | simp_all [Form.plain, Form.chk, Form.sel, Form.pred, pred3, Instr.uniformOk]) (by simp [Form.plain, Form.chk, Form.sel, Form.pred, pred3])

theorem xor : ∀ h d a b t, Statement (.xor h d a b t) := by
  intro h d a b t
  exact ofForm _ h _ _ _ rfl rfl (by decide) rfl (fun hw => by first | rfl | simp_all [Form.plain, Form.chk, Form.sel, Form.pred, pred3]) (fun hw => by first | rfl | simp_all [Form.plain, Form.chk, Form.sel, Form.pred, pred3]) (by first | rfl | simp [Form.plain, Form.chk, Form.sel, Form.pred, pred3])
    (fun hu => by first | exact ⟨_, rfl, rfl⟩ | exact absurd hu Bool.false_ne_true | exact ⟨_, rfl, hu⟩ | simp_all [Form.plain, Form.chk, Form.sel, Form.pred, pred3, Instr.uniformOk]) (by simp [Form.plain, Form.chk, Form.sel, Form.pred, pred3])

theorem not : ∀ h d a t, Statement (.not h d a t) := by
  intro h d a t
  exact ofForm _ h _ _ _ rfl rfl (by decide) rfl (fun hw => by first | rfl | simp_all [Form.plain, Form.chk, Form.sel, Form.pred, pred3]) (fun hw => by first | rfl | simp_all [Form.plain, Form.chk, Form.sel, Form.pred, pred3]) (by first | rfl | simp [Form.plain, Form.chk, Form.sel, Form.pred, pred3])
    (fun hu => by first | exact ⟨_, rfl, rfl⟩ | exact absurd hu Bool.false_ne_true | exact ⟨_, rfl, hu⟩ | simp_all [Form.plain, Form.chk, Form.sel, Form.pred, pred3, Instr.uniformOk]) (by simp [Form.plain, Form.chk, Form.sel, Form.pred, pred3])

theorem shl : ∀ h d a b t, Statement (.shl h d a b t) := by
  intro h d a b t
  exact ofForm _ h _ _ _ rfl rfl (by decide) rfl (fun hw => by first | rfl | simp_all [Form.plain, Form.chk, Form.sel, Form.pred, pred3]) (fun hw => by first | rfl | simp_all [Form.plain, Form.chk, Form.sel, Form.pred, pred3]) (by first | rfl | simp [Form.plain, Form.chk, Form.sel, Form.pred, pred3])
    (fun hu => by first | exact ⟨_, rfl, rfl⟩ | exact absurd hu Bool.false_ne_true | exact ⟨_, rfl, hu⟩ | simp_all [Form.plain, Form.chk, Form.sel, Form.pred, pred3, Instr.uniformOk]) (by simp [Form.plain, Form.chk, Form.sel, Form.pred, pred3])

theorem shr : ∀ h d a b t, Statement (.shr h d a b t) := by
  intro h d a b t
  exact ofForm _ h _ _ _ rfl rfl (by decide) rfl (fun hw => by first | rfl | simp_all [Form.plain, Form.chk, Form.sel, Form.pred, pred3]) (fun hw => by first | rfl | simp_all [Form.plain, Form.chk, Form.sel, Form.pred, pred3]) (by first | rfl | simp [Form.plain, Form.chk, Form.sel, Form.pred, pred3])
    (fun hu => by first | exact ⟨_, rfl, rfl⟩ | exact absurd hu Bool.false_ne_true | exact ⟨_, rfl, hu⟩ | simp_all [Form.plain, Form.chk, Form.sel, Form.pred, pred3, Instr.uniformOk]) (by simp [Form.plain, Form.chk, Form.sel, Form.pred, pred3])

theorem sar : ∀ h d a b t, Statement (.sar h d a b t) := by
  intro h d a b t
  exact ofForm _ h _ _ _ rfl rfl (by decide) rfl (fun hw => by first | rfl | simp_all [Form.plain, Form.chk, Form.sel, Form.pred, pred3]) (fun hw => by first | rfl | simp_all [Form.plain, Form.chk, Form.sel, Form.pred, pred3]) (by first | rfl | simp [Form.plain, Form.chk, Form.sel, Form.pred, pred3])
    (fun hu => by first | exact ⟨_, rfl, rfl⟩ | exact absurd hu Bool.false_ne_true | exact ⟨_, rfl, hu⟩ | simp_all [Form.plain, Form.chk, Form.sel, Form.pred, pred3, Instr.uniformOk]) (by simp [Form.plain, Form.chk, Form.sel, Form.pred, pred3])

theorem rot : ∀ h d a b t, Statement (.rot h d a b t) := by
  intro h d a b t
  exact ofForm _ h _ _ _ rfl rfl (by decide) rfl (fun hw => by first | rfl | simp_all [Form.plain, Form.chk, Form.sel, Form.pred, pred3]) (fun hw => by first | rfl | simp_all [Form.plain, Form.chk, Form.sel, Form.pred, pred3]) (by first | rfl | simp [Form.plain, Form.chk, Form.sel, Form.pred, pred3])
    (fun hu => by first | exact ⟨_, rfl, rfl⟩ | exact absurd hu Bool.false_ne_true | exact ⟨_, rfl, hu⟩ | simp_all [Form.plain, Form.chk, Form.sel, Form.pred, pred3, Instr.uniformOk]) (by simp [Form.plain, Form.chk, Form.sel, Form.pred, pred3])

theorem popc : ∀ h d a t, Statement (.popc h d a t) := by
  intro h d a t
  exact ofForm _ h _ _ _ rfl rfl (by decide) rfl (fun hw => by first | rfl | simp_all [Form.plain, Form.chk, Form.sel, Form.pred, pred3]) (fun hw => by first | rfl | simp_all [Form.plain, Form.chk, Form.sel, Form.pred, pred3]) (by first | rfl | simp [Form.plain, Form.chk, Form.sel, Form.pred, pred3])
    (fun hu => by first | exact ⟨_, rfl, rfl⟩ | exact absurd hu Bool.false_ne_true | exact ⟨_, rfl, hu⟩ | simp_all [Form.plain, Form.chk, Form.sel, Form.pred, pred3, Instr.uniformOk]) (by simp [Form.plain, Form.chk, Form.sel, Form.pred, pred3])

theorem clz : ∀ h d a t, Statement (.clz h d a t) := by
  intro h d a t
  exact ofForm _ h _ _ _ rfl rfl (by decide) rfl (fun hw => by first | rfl | simp_all [Form.plain, Form.chk, Form.sel, Form.pred, pred3]) (fun hw => by first | rfl | simp_all [Form.plain, Form.chk, Form.sel, Form.pred, pred3]) (by first | rfl | simp [Form.plain, Form.chk, Form.sel, Form.pred, pred3])
    (fun hu => by first | exact ⟨_, rfl, rfl⟩ | exact absurd hu Bool.false_ne_true | exact ⟨_, rfl, hu⟩ | simp_all [Form.plain, Form.chk, Form.sel, Form.pred, pred3, Instr.uniformOk]) (by simp [Form.plain, Form.chk, Form.sel, Form.pred, pred3])

theorem brev : ∀ h d a t, Statement (.brev h d a t) := by
  intro h d a t
  exact ofForm _ h _ _ _ rfl rfl (by decide) rfl (fun hw => by first | rfl | simp_all [Form.plain, Form.chk, Form.sel, Form.pred, pred3]) (fun hw => by first | rfl | simp_all [Form.plain, Form.chk, Form.sel, Form.pred, pred3]) (by first | rfl | simp [Form.plain, Form.chk, Form.sel, Form.pred, pred3])
    (fun hu => by first | exact ⟨_, rfl, rfl⟩ | exact absurd hu Bool.false_ne_true | exact ⟨_, rfl, hu⟩ | simp_all [Form.plain, Form.chk, Form.sel, Form.pred, pred3, Instr.uniformOk]) (by simp [Form.plain, Form.chk, Form.sel, Form.pred, pred3])

theorem bfe : ∀ h d a b t, Statement (.bfe h d a b t) := by
  intro h d a b t
  exact ofForm _ h _ _ _ rfl rfl (by decide) rfl (fun hw => by first | rfl | simp_all [Form.plain, Form.chk, Form.sel, Form.pred, pred3]) (fun hw => by first | rfl | simp_all [Form.plain, Form.chk, Form.sel, Form.pred, pred3]) (by first | rfl | simp [Form.plain, Form.chk, Form.sel, Form.pred, pred3])
    (fun hu => by first | exact ⟨_, rfl, rfl⟩ | exact absurd hu Bool.false_ne_true | exact ⟨_, rfl, hu⟩ | simp_all [Form.plain, Form.chk, Form.sel, Form.pred, pred3, Instr.uniformOk]) (by simp [Form.plain, Form.chk, Form.sel, Form.pred, pred3])

theorem bfi : ∀ h d a b t, Statement (.bfi h d a b t) := by
  intro h d a b t
  exact ofForm _ h _ _ _ rfl rfl (by decide) rfl (fun hw => by first | rfl | simp_all [Form.plain, Form.chk, Form.sel, Form.pred, pred3]) (fun hw => by first | rfl | simp_all [Form.plain, Form.chk, Form.sel, Form.pred, pred3]) (by first | rfl | simp [Form.plain, Form.chk, Form.sel, Form.pred, pred3])
    (fun hu => by first | exact ⟨_, rfl, rfl⟩ | exact absurd hu Bool.false_ne_true | exact ⟨_, rfl, hu⟩ | simp_all [Form.plain, Form.chk, Form.sel, Form.pred, pred3, Instr.uniformOk]) (by simp [Form.plain, Form.chk, Form.sel, Form.pred, pred3])

theorem addp : ∀ h d a b sh, Statement (.addp h d a b sh) := by
  intro h d a b sh
  exact ofForm _ h _ _ _ rfl rfl (by decide) rfl (fun hw => by first | rfl | simp_all [Form.plain, Form.chk, Form.sel, Form.pred, pred3]) (fun hw => by first | rfl | simp_all [Form.plain, Form.chk, Form.sel, Form.pred, pred3]) (by first | rfl | simp [Form.plain, Form.chk, Form.sel, Form.pred, pred3])
    (fun hu => by first | exact ⟨_, rfl, rfl⟩ | exact absurd hu Bool.false_ne_true | exact ⟨_, rfl, hu⟩ | simp_all [Form.plain, Form.chk, Form.sel, Form.pred, pred3, Instr.uniformOk]) (by simp [Form.plain, Form.chk, Form.sel, Form.pred, pred3])

theorem subp : ∀ h d a b, Statement (.subp h d a b) := by
  intro h d a b
  exact ofForm _ h _ _ _ rfl rfl (by decide) rfl (fun hw => by first | rfl | simp_all [Form.plain, Form.chk, Form.sel, Form.pred, pred3]) (fun hw => by first | rfl | simp_all [Form.plain, Form.chk, Form.sel, Form.pred, pred3]) (by first | rfl | simp [Form.plain, Form.chk, Form.sel, Form.pred, pred3])
    (fun hu => by first | exact ⟨_, rfl, rfl⟩ | exact absurd hu Bool.false_ne_true | exact ⟨_, rfl, hu⟩ | simp_all [Form.plain, Form.chk, Form.sel, Form.pred, pred3, Instr.uniformOk]) (by simp [Form.plain, Form.chk, Form.sel, Form.pred, pred3])

theorem iaddi : ∀ h d a imm, Statement (.iaddi h d a imm) := by
  intro h d a imm
  exact ofForm _ h _ _ _ rfl rfl (by decide) rfl (fun hw => by first | rfl | simp_all [Form.plain, Form.chk, Form.sel, Form.pred, pred3]) (fun hw => by first | rfl | simp_all [Form.plain, Form.chk, Form.sel, Form.pred, pred3]) (by first | rfl | simp [Form.plain, Form.chk, Form.sel, Form.pred, pred3])
    (fun hu => by first | exact ⟨_, rfl, rfl⟩ | exact absurd hu Bool.false_ne_true | exact ⟨_, rfl, hu⟩ | simp_all [Form.plain, Form.chk, Form.sel, Form.pred, pred3, Instr.uniformOk]) (by simp [Form.plain, Form.chk, Form.sel, Form.pred, pred3])

theorem andi : ∀ h d a imm, Statement (.andi h d a imm) := by
  intro h d a imm
  exact ofForm _ h _ _ _ rfl rfl (by decide) rfl (fun hw => by first | rfl | simp_all [Form.plain, Form.chk, Form.sel, Form.pred, pred3]) (fun hw => by first | rfl | simp_all [Form.plain, Form.chk, Form.sel, Form.pred, pred3]) (by first | rfl | simp [Form.plain, Form.chk, Form.sel, Form.pred, pred3])
    (fun hu => by first | exact ⟨_, rfl, rfl⟩ | exact absurd hu Bool.false_ne_true | exact ⟨_, rfl, hu⟩ | simp_all [Form.plain, Form.chk, Form.sel, Form.pred, pred3, Instr.uniformOk]) (by simp [Form.plain, Form.chk, Form.sel, Form.pred, pred3])

theorem ori : ∀ h d a imm, Statement (.ori h d a imm) := by
  intro h d a imm
  exact ofForm _ h _ _ _ rfl rfl (by decide) rfl (fun hw => by first | rfl | simp_all [Form.plain, Form.chk, Form.sel, Form.pred, pred3]) (fun hw => by first | rfl | simp_all [Form.plain, Form.chk, Form.sel, Form.pred, pred3]) (by first | rfl | simp [Form.plain, Form.chk, Form.sel, Form.pred, pred3])
    (fun hu => by first | exact ⟨_, rfl, rfl⟩ | exact absurd hu Bool.false_ne_true | exact ⟨_, rfl, hu⟩ | simp_all [Form.plain, Form.chk, Form.sel, Form.pred, pred3, Instr.uniformOk]) (by simp [Form.plain, Form.chk, Form.sel, Form.pred, pred3])

theorem xori : ∀ h d a imm, Statement (.xori h d a imm) := by
  intro h d a imm
  exact ofForm _ h _ _ _ rfl rfl (by decide) rfl (fun hw => by first | rfl | simp_all [Form.plain, Form.chk, Form.sel, Form.pred, pred3]) (fun hw => by first | rfl | simp_all [Form.plain, Form.chk, Form.sel, Form.pred, pred3]) (by first | rfl | simp [Form.plain, Form.chk, Form.sel, Form.pred, pred3])
    (fun hu => by first | exact ⟨_, rfl, rfl⟩ | exact absurd hu Bool.false_ne_true | exact ⟨_, rfl, hu⟩ | simp_all [Form.plain, Form.chk, Form.sel, Form.pred, pred3, Instr.uniformOk]) (by simp [Form.plain, Form.chk, Form.sel, Form.pred, pred3])

theorem shli : ∀ h d a imm, Statement (.shli h d a imm) := by
  intro h d a imm
  exact ofForm _ h _ _ _ rfl rfl (by decide) rfl (fun hw => by first | rfl | simp_all [Form.plain, Form.chk, Form.sel, Form.pred, pred3]) (fun hw => by first | rfl | simp_all [Form.plain, Form.chk, Form.sel, Form.pred, pred3]) (by first | rfl | simp [Form.plain, Form.chk, Form.sel, Form.pred, pred3])
    (fun hu => by first | exact ⟨_, rfl, rfl⟩ | exact absurd hu Bool.false_ne_true | exact ⟨_, rfl, hu⟩ | simp_all [Form.plain, Form.chk, Form.sel, Form.pred, pred3, Instr.uniformOk]) (by simp [Form.plain, Form.chk, Form.sel, Form.pred, pred3])

theorem shri : ∀ h d a imm, Statement (.shri h d a imm) := by
  intro h d a imm
  exact ofForm _ h _ _ _ rfl rfl (by decide) rfl (fun hw => by first | rfl | simp_all [Form.plain, Form.chk, Form.sel, Form.pred, pred3]) (fun hw => by first | rfl | simp_all [Form.plain, Form.chk, Form.sel, Form.pred, pred3]) (by first | rfl | simp [Form.plain, Form.chk, Form.sel, Form.pred, pred3])
    (fun hu => by first | exact ⟨_, rfl, rfl⟩ | exact absurd hu Bool.false_ne_true | exact ⟨_, rfl, hu⟩ | simp_all [Form.plain, Form.chk, Form.sel, Form.pred, pred3, Instr.uniformOk]) (by simp [Form.plain, Form.chk, Form.sel, Form.pred, pred3])

theorem sari : ∀ h d a imm, Statement (.sari h d a imm) := by
  intro h d a imm
  exact ofForm _ h _ _ _ rfl rfl (by decide) rfl (fun hw => by first | rfl | simp_all [Form.plain, Form.chk, Form.sel, Form.pred, pred3]) (fun hw => by first | rfl | simp_all [Form.plain, Form.chk, Form.sel, Form.pred, pred3]) (by first | rfl | simp [Form.plain, Form.chk, Form.sel, Form.pred, pred3])
    (fun hu => by first | exact ⟨_, rfl, rfl⟩ | exact absurd hu Bool.false_ne_true | exact ⟨_, rfl, hu⟩ | simp_all [Form.plain, Form.chk, Form.sel, Form.pred, pred3, Instr.uniformOk]) (by simp [Form.plain, Form.chk, Form.sel, Form.pred, pred3])

theorem imuli : ∀ h d a imm, Statement (.imuli h d a imm) := by
  intro h d a imm
  exact ofForm _ h _ _ _ rfl rfl (by decide) rfl (fun hw => by first | rfl | simp_all [Form.plain, Form.chk, Form.sel, Form.pred, pred3]) (fun hw => by first | rfl | simp_all [Form.plain, Form.chk, Form.sel, Form.pred, pred3]) (by first | rfl | simp [Form.plain, Form.chk, Form.sel, Form.pred, pred3])
    (fun hu => by first | exact ⟨_, rfl, rfl⟩ | exact absurd hu Bool.false_ne_true | exact ⟨_, rfl, hu⟩ | simp_all [Form.plain, Form.chk, Form.sel, Form.pred, pred3, Instr.uniformOk]) (by simp [Form.plain, Form.chk, Form.sel, Form.pred, pred3])

theorem movi : ∀ h d imm, Statement (.movi h d imm) := by
  intro h d imm
  exact ofForm _ h _ _ _ rfl rfl (by decide) rfl (fun hw => by first | rfl | simp_all [Form.plain, Form.chk, Form.sel, Form.pred, pred3]) (fun hw => by first | rfl | simp_all [Form.plain, Form.chk, Form.sel, Form.pred, pred3]) (by first | rfl | simp [Form.plain, Form.chk, Form.sel, Form.pred, pred3])
    (fun hu => by first | exact ⟨_, rfl, rfl⟩ | exact absurd hu Bool.false_ne_true | exact ⟨_, rfl, hu⟩ | simp_all [Form.plain, Form.chk, Form.sel, Form.pred, pred3, Instr.uniformOk]) (by simp [Form.plain, Form.chk, Form.sel, Form.pred, pred3])

theorem movh : ∀ h d imm, Statement (.movh h d imm) := by
  intro h d imm
  exact ofForm _ h _ _ _ rfl rfl (by decide) rfl (fun hw => by first | rfl | simp_all [Form.plain, Form.chk, Form.sel, Form.pred, pred3]) (fun hw => by first | rfl | simp_all [Form.plain, Form.chk, Form.sel, Form.pred, pred3]) (by first | rfl | simp [Form.plain, Form.chk, Form.sel, Form.pred, pred3])
    (fun hu => by first | exact ⟨_, rfl, rfl⟩ | exact absurd hu Bool.false_ne_true | exact ⟨_, rfl, hu⟩ | simp_all [Form.plain, Form.chk, Form.sel, Form.pred, pred3, Instr.uniformOk]) (by simp [Form.plain, Form.chk, Form.sel, Form.pred, pred3])

theorem addpi : ∀ h d a imm, Statement (.addpi h d a imm) := by
  intro h d a imm
  exact ofForm _ h _ _ _ rfl rfl (by decide) rfl (fun hw => by first | rfl | simp_all [Form.plain, Form.chk, Form.sel, Form.pred, pred3]) (fun hw => by first | rfl | simp_all [Form.plain, Form.chk, Form.sel, Form.pred, pred3]) (by first | rfl | simp [Form.plain, Form.chk, Form.sel, Form.pred, pred3])
    (fun hu => by first | exact ⟨_, rfl, rfl⟩ | exact absurd hu Bool.false_ne_true | exact ⟨_, rfl, hu⟩ | simp_all [Form.plain, Form.chk, Form.sel, Form.pred, pred3, Instr.uniformOk]) (by simp [Form.plain, Form.chk, Form.sel, Form.pred, pred3])

theorem fadd : ∀ h d a b t r, Statement (.fadd h d a b t r) := by
  intro h d a b t r
  cases t <;> exact ofForm _ h _ _ _ rfl rfl (by decide) rfl (fun hw => by first | rfl | simp_all [Form.plain, Form.chk, Form.sel, Form.pred, pred3]) (fun hw => by first | rfl | simp_all [Form.plain, Form.chk, Form.sel, Form.pred, pred3]) (by first | rfl | simp [Form.plain, Form.chk, Form.sel, Form.pred, pred3])
    (fun hu => by first | exact ⟨_, rfl, rfl⟩ | exact absurd hu Bool.false_ne_true | exact ⟨_, rfl, hu⟩ | simp_all [Form.plain, Form.chk, Form.sel, Form.pred, pred3, Instr.uniformOk]) (by simp [Form.plain, Form.chk, Form.sel, Form.pred, pred3])

theorem fsub : ∀ h d a b t r, Statement (.fsub h d a b t r) := by
  intro h d a b t r
  cases t <;> exact ofForm _ h _ _ _ rfl rfl (by decide) rfl (fun hw => by first | rfl | simp_all [Form.plain, Form.chk, Form.sel, Form.pred, pred3]) (fun hw => by first | rfl | simp_all [Form.plain, Form.chk, Form.sel, Form.pred, pred3]) (by first | rfl | simp [Form.plain, Form.chk, Form.sel, Form.pred, pred3])
    (fun hu => by first | exact ⟨_, rfl, rfl⟩ | exact absurd hu Bool.false_ne_true | exact ⟨_, rfl, hu⟩ | simp_all [Form.plain, Form.chk, Form.sel, Form.pred, pred3, Instr.uniformOk]) (by simp [Form.plain, Form.chk, Form.sel, Form.pred, pred3])

theorem fmul : ∀ h d a b t r, Statement (.fmul h d a b t r) := by
  intro h d a b t r
  cases t <;> exact ofForm _ h _ _ _ rfl rfl (by decide) rfl (fun hw => by first | rfl | simp_all [Form.plain, Form.chk, Form.sel, Form.pred, pred3]) (fun hw => by first | rfl | simp_all [Form.plain, Form.chk, Form.sel, Form.pred, pred3]) (by first | rfl | simp [Form.plain, Form.chk, Form.sel, Form.pred, pred3])
    (fun hu => by first | exact ⟨_, rfl, rfl⟩ | exact absurd hu Bool.false_ne_true | exact ⟨_, rfl, hu⟩ | simp_all [Form.plain, Form.chk, Form.sel, Form.pred, pred3, Instr.uniformOk]) (by simp [Form.plain, Form.chk, Form.sel, Form.pred, pred3])

theorem fma : ∀ h d a b t r, Statement (.fma h d a b t r) := by
  intro h d a b t r
  cases t <;> exact ofForm _ h _ _ _ rfl rfl (by decide) rfl (fun hw => by first | rfl | simp_all [Form.plain, Form.chk, Form.sel, Form.pred, pred3]) (fun hw => by first | rfl | simp_all [Form.plain, Form.chk, Form.sel, Form.pred, pred3]) (by first | rfl | simp [Form.plain, Form.chk, Form.sel, Form.pred, pred3])
    (fun hu => by first | exact ⟨_, rfl, rfl⟩ | exact absurd hu Bool.false_ne_true | exact ⟨_, rfl, hu⟩ | simp_all [Form.plain, Form.chk, Form.sel, Form.pred, pred3, Instr.uniformOk]) (by simp [Form.plain, Form.chk, Form.sel, Form.pred, pred3])

theorem fmin : ∀ h d a b t, Statement (.fmin h d a b t) := by
  intro h d a b t
  cases t <;> exact ofForm _ h _ _ _ rfl rfl (by decide) rfl (fun hw => by first | rfl | simp_all [Form.plain, Form.chk, Form.sel, Form.pred, pred3]) (fun hw => by first | rfl | simp_all [Form.plain, Form.chk, Form.sel, Form.pred, pred3]) (by first | rfl | simp [Form.plain, Form.chk, Form.sel, Form.pred, pred3])
    (fun hu => by first | exact ⟨_, rfl, rfl⟩ | exact absurd hu Bool.false_ne_true | exact ⟨_, rfl, hu⟩ | simp_all [Form.plain, Form.chk, Form.sel, Form.pred, pred3, Instr.uniformOk]) (by simp [Form.plain, Form.chk, Form.sel, Form.pred, pred3])

theorem fmax : ∀ h d a b t, Statement (.fmax h d a b t) := by
  intro h d a b t
  cases t <;> exact ofForm _ h _ _ _ rfl rfl (by decide) rfl (fun hw => by first | rfl | simp_all [Form.plain, Form.chk, Form.sel, Form.pred, pred3]) (fun hw => by first | rfl | simp_all [Form.plain, Form.chk, Form.sel, Form.pred, pred3]) (by first | rfl | simp [Form.plain, Form.chk, Form.sel, Form.pred, pred3])
    (fun hu => by first | exact ⟨_, rfl, rfl⟩ | exact absurd hu Bool.false_ne_true | exact ⟨_, rfl, hu⟩ | simp_all [Form.plain, Form.chk, Form.sel, Form.pred, pred3, Instr.uniformOk]) (by simp [Form.plain, Form.chk, Form.sel, Form.pred, pred3])

theorem fabs : ∀ h d a t, Statement (.fabs h d a t) := by
  intro h d a t
  cases t <;> exact ofForm _ h _ _ _ rfl rfl (by decide) rfl (fun hw => by first | rfl | simp_all [Form.plain, Form.chk, Form.sel, Form.pred, pred3]) (fun hw => by first | rfl | simp_all [Form.plain, Form.chk, Form.sel, Form.pred, pred3]) (by first | rfl | simp [Form.plain, Form.chk, Form.sel, Form.pred, pred3])
    (fun hu => by first | exact ⟨_, rfl, rfl⟩ | exact absurd hu Bool.false_ne_true | exact ⟨_, rfl, hu⟩ | simp_all [Form.plain, Form.chk, Form.sel, Form.pred, pred3, Instr.uniformOk]) (by simp [Form.plain, Form.chk, Form.sel, Form.pred, pred3])

theorem fneg : ∀ h d a t, Statement (.fneg h d a t) := by
  intro h d a t
  cases t <;> exact ofForm _ h _ _ _ rfl rfl (by decide) rfl (fun hw => by first | rfl | simp_all [Form.plain, Form.chk, Form.sel, Form.pred, pred3]) (fun hw => by first | rfl | simp_all [Form.plain, Form.chk, Form.sel, Form.pred, pred3]) (by first | rfl | simp [Form.plain, Form.chk, Form.sel, Form.pred, pred3])
    (fun hu => by first | exact ⟨_, rfl, rfl⟩ | exact absurd hu Bool.false_ne_true | exact ⟨_, rfl, hu⟩ | simp_all [Form.plain, Form.chk, Form.sel, Form.pred, pred3, Instr.uniformOk]) (by simp [Form.plain, Form.chk, Form.sel, Form.pred, pred3])

theorem frcp : ∀ h d a, Statement (.frcp h d a) := by
  intro h d a
  exact ofForm _ h _ _ _ rfl rfl (by decide) rfl (fun hw => by first | rfl | simp_all [Form.plain, Form.chk, Form.sel, Form.pred, pred3]) (fun hw => by first | rfl | simp_all [Form.plain, Form.chk, Form.sel, Form.pred, pred3]) (by first | rfl | simp [Form.plain, Form.chk, Form.sel, Form.pred, pred3])
    (fun hu => by first | exact ⟨_, rfl, rfl⟩ | exact absurd hu Bool.false_ne_true | exact ⟨_, rfl, hu⟩ | simp_all [Form.plain, Form.chk, Form.sel, Form.pred, pred3, Instr.uniformOk]) (by simp [Form.plain, Form.chk, Form.sel, Form.pred, pred3])

theorem frsq : ∀ h d a, Statement (.frsq h d a) := by
  intro h d a
  exact ofForm _ h _ _ _ rfl rfl (by decide) rfl (fun hw => by first | rfl | simp_all [Form.plain, Form.chk, Form.sel, Form.pred, pred3]) (fun hw => by first | rfl | simp_all [Form.plain, Form.chk, Form.sel, Form.pred, pred3]) (by first | rfl | simp [Form.plain, Form.chk, Form.sel, Form.pred, pred3])
    (fun hu => by first | exact ⟨_, rfl, rfl⟩ | exact absurd hu Bool.false_ne_true | exact ⟨_, rfl, hu⟩ | simp_all [Form.plain, Form.chk, Form.sel, Form.pred, pred3, Instr.uniformOk]) (by simp [Form.plain, Form.chk, Form.sel, Form.pred, pred3])

theorem fex2 : ∀ h d a, Statement (.fex2 h d a) := by
  intro h d a
  exact ofForm _ h _ _ _ rfl rfl (by decide) rfl (fun hw => by first | rfl | simp_all [Form.plain, Form.chk, Form.sel, Form.pred, pred3]) (fun hw => by first | rfl | simp_all [Form.plain, Form.chk, Form.sel, Form.pred, pred3]) (by first | rfl | simp [Form.plain, Form.chk, Form.sel, Form.pred, pred3])
    (fun hu => by first | exact ⟨_, rfl, rfl⟩ | exact absurd hu Bool.false_ne_true | exact ⟨_, rfl, hu⟩ | simp_all [Form.plain, Form.chk, Form.sel, Form.pred, pred3, Instr.uniformOk]) (by simp [Form.plain, Form.chk, Form.sel, Form.pred, pred3])

theorem flg2 : ∀ h d a, Statement (.flg2 h d a) := by
  intro h d a
  exact ofForm _ h _ _ _ rfl rfl (by decide) rfl (fun hw => by first | rfl | simp_all [Form.plain, Form.chk, Form.sel, Form.pred, pred3]) (fun hw => by first | rfl | simp_all [Form.plain, Form.chk, Form.sel, Form.pred, pred3]) (by first | rfl | simp [Form.plain, Form.chk, Form.sel, Form.pred, pred3])
    (fun hu => by first | exact ⟨_, rfl, rfl⟩ | exact absurd hu Bool.false_ne_true | exact ⟨_, rfl, hu⟩ | simp_all [Form.plain, Form.chk, Form.sel, Form.pred, pred3, Instr.uniformOk]) (by simp [Form.plain, Form.chk, Form.sel, Form.pred, pred3])

theorem fsin : ∀ h d a, Statement (.fsin h d a) := by
  intro h d a
  exact ofForm _ h _ _ _ rfl rfl (by decide) rfl (fun hw => by first | rfl | simp_all [Form.plain, Form.chk, Form.sel, Form.pred, pred3]) (fun hw => by first | rfl | simp_all [Form.plain, Form.chk, Form.sel, Form.pred, pred3]) (by first | rfl | simp [Form.plain, Form.chk, Form.sel, Form.pred, pred3])
    (fun hu => by first | exact ⟨_, rfl, rfl⟩ | exact absurd hu Bool.false_ne_true | exact ⟨_, rfl, hu⟩ | simp_all [Form.plain, Form.chk, Form.sel, Form.pred, pred3, Instr.uniformOk]) (by simp [Form.plain, Form.chk, Form.sel, Form.pred, pred3])

theorem fcos : ∀ h d a, Statement (.fcos h d a) := by
  intro h d a
  exact ofForm _ h _ _ _ rfl rfl (by decide) rfl (fun hw => by first | rfl | simp_all [Form.plain, Form.chk, Form.sel, Form.pred, pred3]) (fun hw => by first | rfl | simp_all [Form.plain, Form.chk, Form.sel, Form.pred, pred3]) (by first | rfl | simp [Form.plain, Form.chk, Form.sel, Form.pred, pred3])
    (fun hu => by first | exact ⟨_, rfl, rfl⟩ | exact absurd hu Bool.false_ne_true | exact ⟨_, rfl, hu⟩ | simp_all [Form.plain, Form.chk, Form.sel, Form.pred, pred3, Instr.uniformOk]) (by simp [Form.plain, Form.chk, Form.sel, Form.pred, pred3])

theorem cvt : ∀ h d a src dst sat r, Statement (.cvt h d a src dst sat r) := by
  intro h d a src dst sat r
  cases src <;> exact ofForm _ h _ _ _ rfl rfl (by decide) rfl (fun hw => by first | rfl | simp_all [Form.plain, Form.chk, Form.sel, Form.pred, pred3, formCvt, Instr.wf]) (fun hw => by first | rfl | simp_all [Form.plain, Form.chk, Form.sel, Form.pred, pred3, formCvt, Instr.wf]) (by first | rfl | simp [Form.plain, Form.chk, Form.sel, Form.pred, pred3, formCvt, Instr.wf])
    (fun hu => by first | exact ⟨_, rfl, rfl⟩ | exact absurd hu Bool.false_ne_true | exact ⟨_, rfl, hu⟩ | simp_all [Form.plain, Form.chk, Form.sel, Form.pred, pred3, formCvt, Instr.wf, Instr.uniformOk]) (by simp [Form.plain, Form.chk, Form.sel, Form.pred, pred3, formCvt, Instr.wf])

theorem bra : ∀ h off, Statement (.bra h off) := by
  intro h off
  exact ofForm _ h _ _ _ rfl rfl (by decide) rfl (fun hw => by first | rfl | simp_all [Form.plain, Form.chk, Form.sel, Form.pred, pred3]) (fun hw => by first | rfl | simp_all [Form.plain, Form.chk, Form.sel, Form.pred, pred3]) (by first | rfl | simp [Form.plain, Form.chk, Form.sel, Form.pred, pred3])
    (fun hu => by first | exact ⟨_, rfl, rfl⟩ | exact absurd hu Bool.false_ne_true | exact ⟨_, rfl, hu⟩ | simp_all [Form.plain, Form.chk, Form.sel, Form.pred, pred3, Instr.uniformOk]) (by simp [Form.plain, Form.chk, Form.sel, Form.pred, pred3])

theorem call : ∀ h off, Statement (.call h off) := by
  intro h off
  exact ofForm _ h _ _ _ rfl rfl (by decide) rfl (fun hw => by first | rfl | simp_all [Form.plain, Form.chk, Form.sel, Form.pred, pred3]) (fun hw => by first | rfl | simp_all [Form.plain, Form.chk, Form.sel, Form.pred, pred3]) (by first | rfl | simp [Form.plain, Form.chk, Form.sel, Form.pred, pred3])
    (fun hu => by first | exact ⟨_, rfl, rfl⟩ | exact absurd hu Bool.false_ne_true | exact ⟨_, rfl, hu⟩ | simp_all [Form.plain, Form.chk, Form.sel, Form.pred, pred3, Instr.uniformOk]) (by simp [Form.plain, Form.chk, Form.sel, Form.pred, pred3])

theorem brx : ∀ h a, Statement (.brx h a) := by
  intro h a
  exact ofForm _ h _ _ _ rfl rfl (by decide) rfl (fun hw => by first | rfl | simp_all [Form.plain, Form.chk, Form.sel, Form.pred, pred3]) (fun hw => by first | rfl | simp_all [Form.plain, Form.chk, Form.sel, Form.pred, pred3]) (by first | rfl | simp [Form.plain, Form.chk, Form.sel, Form.pred, pred3])
    (fun hu => by first | exact ⟨_, rfl, rfl⟩ | exact absurd hu Bool.false_ne_true | exact ⟨_, rfl, hu⟩ | simp_all [Form.plain, Form.chk, Form.sel, Form.pred, pred3, Instr.uniformOk]) (by simp [Form.plain, Form.chk, Form.sel, Form.pred, pred3])

theorem callx : ∀ h a, Statement (.callx h a) := by
  intro h a
  exact ofForm _ h _ _ _ rfl rfl (by decide) rfl (fun hw => by first | rfl | simp_all [Form.plain, Form.chk, Form.sel, Form.pred, pred3]) (fun hw => by first | rfl | simp_all [Form.plain, Form.chk, Form.sel, Form.pred, pred3]) (by first | rfl | simp [Form.plain, Form.chk, Form.sel, Form.pred, pred3])
    (fun hu => by first | exact ⟨_, rfl, rfl⟩ | exact absurd hu Bool.false_ne_true | exact ⟨_, rfl, hu⟩ | simp_all [Form.plain, Form.chk, Form.sel, Form.pred, pred3, Instr.uniformOk]) (by simp [Form.plain, Form.chk, Form.sel, Form.pred, pred3])

theorem ret : ∀ h, Statement (.ret h) := by
  intro h
  exact ofForm _ h _ _ _ rfl rfl (by decide) rfl (fun hw => by first | rfl | simp_all [Form.plain, Form.chk, Form.sel, Form.pred, pred3]) (fun hw => by first | rfl | simp_all [Form.plain, Form.chk, Form.sel, Form.pred, pred3]) (by first | rfl | simp [Form.plain, Form.chk, Form.sel, Form.pred, pred3])
    (fun hu => by first | exact ⟨_, rfl, rfl⟩ | exact absurd hu Bool.false_ne_true | exact ⟨_, rfl, hu⟩ | simp_all [Form.plain, Form.chk, Form.sel, Form.pred, pred3, Instr.uniformOk]) (by simp [Form.plain, Form.chk, Form.sel, Form.pred, pred3])

theorem fork : ∀ h off, Statement (.fork h off) := by
  intro h off
  exact ofForm _ h _ _ _ rfl rfl (by decide) rfl (fun hw => by first | rfl | simp_all [Form.plain, Form.chk, Form.sel, Form.pred, pred3]) (fun hw => by first | rfl | simp_all [Form.plain, Form.chk, Form.sel, Form.pred, pred3]) (by first | rfl | simp [Form.plain, Form.chk, Form.sel, Form.pred, pred3])
    (fun hu => by first | exact ⟨_, rfl, rfl⟩ | exact absurd hu Bool.false_ne_true | exact ⟨_, rfl, hu⟩ | simp_all [Form.plain, Form.chk, Form.sel, Form.pred, pred3, Instr.uniformOk]) (by simp [Form.plain, Form.chk, Form.sel, Form.pred, pred3])

theorem join : ∀ h d, Statement (.join h d) := by
  intro h d
  exact ofForm _ h _ _ _ rfl rfl (by decide) rfl (fun hw => by first | rfl | simp_all [Form.plain, Form.chk, Form.sel, Form.pred, pred3]) (fun hw => by first | rfl | simp_all [Form.plain, Form.chk, Form.sel, Form.pred, pred3]) (by first | rfl | simp [Form.plain, Form.chk, Form.sel, Form.pred, pred3])
    (fun hu => by first | exact ⟨_, rfl, rfl⟩ | exact absurd hu Bool.false_ne_true | exact ⟨_, rfl, hu⟩ | simp_all [Form.plain, Form.chk, Form.sel, Form.pred, pred3, Instr.uniformOk]) (by simp [Form.plain, Form.chk, Form.sel, Form.pred, pred3])

theorem quit : ∀ h imm, Statement (.quit h imm) := by
  intro h imm
  exact ofForm _ h _ _ _ rfl rfl (by decide) rfl (fun hw => by first | rfl | simp_all [Form.plain, Form.chk, Form.sel, Form.pred, pred3]) (fun hw => by first | rfl | simp_all [Form.plain, Form.chk, Form.sel, Form.pred, pred3]) (by first | rfl | simp [Form.plain, Form.chk, Form.sel, Form.pred, pred3])
    (fun hu => by first | exact ⟨_, rfl, rfl⟩ | exact absurd hu Bool.false_ne_true | exact ⟨_, rfl, hu⟩ | simp_all [Form.plain, Form.chk, Form.sel, Form.pred, pred3, Instr.uniformOk]) (by simp [Form.plain, Form.chk, Form.sel, Form.pred, pred3])

theorem yield : ∀ h, Statement (.yield h) := by
  intro h
  exact ofForm _ h _ _ _ rfl rfl (by decide) rfl (fun hw => by first | rfl | simp_all [Form.plain, Form.chk, Form.sel, Form.pred, pred3]) (fun hw => by first | rfl | simp_all [Form.plain, Form.chk, Form.sel, Form.pred, pred3]) (by first | rfl | simp [Form.plain, Form.chk, Form.sel, Form.pred, pred3])
    (fun hu => by first | exact ⟨_, rfl, rfl⟩ | exact absurd hu Bool.false_ne_true | exact ⟨_, rfl, hu⟩ | simp_all [Form.plain, Form.chk, Form.sel, Form.pred, pred3, Instr.uniformOk]) (by simp [Form.plain, Form.chk, Form.sel, Form.pred, pred3])

theorem nop : ∀ h, Statement (.nop h) := by
  intro h
  exact ofForm _ h _ _ _ rfl rfl (by decide) rfl (fun hw => by first | rfl | simp_all [Form.plain, Form.chk, Form.sel, Form.pred, pred3]) (fun hw => by first | rfl | simp_all [Form.plain, Form.chk, Form.sel, Form.pred, pred3]) (by first | rfl | simp [Form.plain, Form.chk, Form.sel, Form.pred, pred3])
    (fun hu => by first | exact ⟨_, rfl, rfl⟩ | exact absurd hu Bool.false_ne_true | exact ⟨_, rfl, hu⟩ | simp_all [Form.plain, Form.chk, Form.sel, Form.pred, pred3, Instr.uniformOk]) (by simp [Form.plain, Form.chk, Form.sel, Form.pred, pred3])

theorem sleep : ∀ h imm, Statement (.sleep h imm) := by
  intro h imm
  exact ofForm _ h _ _ _ rfl rfl (by decide) rfl (fun hw => by first | rfl | simp_all [Form.plain, Form.chk, Form.sel, Form.pred, pred3]) (fun hw => by first | rfl | simp_all [Form.plain, Form.chk, Form.sel, Form.pred, pred3]) (by first | rfl | simp [Form.plain, Form.chk, Form.sel, Form.pred, pred3])
    (fun hu => by first | exact ⟨_, rfl, rfl⟩ | exact absurd hu Bool.false_ne_true | exact ⟨_, rfl, hu⟩ | simp_all [Form.plain, Form.chk, Form.sel, Form.pred, pred3, Instr.uniformOk]) (by simp [Form.plain, Form.chk, Form.sel, Form.pred, pred3])

theorem cont : ∀ h off, Statement (.cont h off) := by
  intro h off
  exact ofForm _ h _ _ _ rfl rfl (by decide) rfl (fun hw => by first | rfl | simp_all [Form.plain, Form.chk, Form.sel, Form.pred, pred3]) (fun hw => by first | rfl | simp_all [Form.plain, Form.chk, Form.sel, Form.pred, pred3]) (by first | rfl | simp [Form.plain, Form.chk, Form.sel, Form.pred, pred3])
    (fun hu => by first | exact ⟨_, rfl, rfl⟩ | exact absurd hu Bool.false_ne_true | exact ⟨_, rfl, hu⟩ | simp_all [Form.plain, Form.chk, Form.sel, Form.pred, pred3, Instr.uniformOk]) (by simp [Form.plain, Form.chk, Form.sel, Form.pred, pred3])

theorem resume : ∀ h a, Statement (.resume h a) := by
  intro h a
  exact ofForm _ h _ _ _ rfl rfl (by decide) rfl (fun hw => by first | rfl | simp_all [Form.plain, Form.chk, Form.sel, Form.pred, pred3]) (fun hw => by first | rfl | simp_all [Form.plain, Form.chk, Form.sel, Form.pred, pred3]) (by first | rfl | simp [Form.plain, Form.chk, Form.sel, Form.pred, pred3])
    (fun hu => by first | exact ⟨_, rfl, rfl⟩ | exact absurd hu Bool.false_ne_true | exact ⟨_, rfl, hu⟩ | simp_all [Form.plain, Form.chk, Form.sel, Form.pred, pred3, Instr.uniformOk]) (by simp [Form.plain, Form.chk, Form.sel, Form.pred, pred3])

theorem trap : ∀ h imm, Statement (.trap h imm) := by
  intro h imm
  exact ofForm _ h _ _ _ rfl rfl (by decide) rfl (fun hw => by first | rfl | simp_all [Form.plain, Form.chk, Form.sel, Form.pred, pred3]) (fun hw => by first | rfl | simp_all [Form.plain, Form.chk, Form.sel, Form.pred, pred3]) (by first | rfl | simp [Form.plain, Form.chk, Form.sel, Form.pred, pred3])
    (fun hu => by first | exact ⟨_, rfl, rfl⟩ | exact absurd hu Bool.false_ne_true | exact ⟨_, rfl, hu⟩ | simp_all [Form.plain, Form.chk, Form.sel, Form.pred, pred3, Instr.uniformOk]) (by simp [Form.plain, Form.chk, Form.sel, Form.pred, pred3])

theorem movs : ∀ h d r, Statement (.movs h d r) := by
  intro h d r
  exact ofForm _ h _ _ _ rfl rfl (by decide) rfl (fun hw => by first | rfl | simp_all [Form.plain, Form.chk, Form.sel, Form.pred, pred3]) (fun hw => by first | rfl | simp_all [Form.plain, Form.chk, Form.sel, Form.pred, pred3]) (by first | rfl | simp [Form.plain, Form.chk, Form.sel, Form.pred, pred3])
    (fun hu => by first | exact ⟨_, rfl, rfl⟩ | exact absurd hu Bool.false_ne_true | exact ⟨_, rfl, hu⟩ | simp_all [Form.plain, Form.chk, Form.sel, Form.pred, pred3, Instr.uniformOk]) (by simp [Form.plain, Form.chk, Form.sel, Form.pred, pred3])

theorem movsw : ∀ h d r, Statement (.movsw h d r) := by
  intro h d r
  exact ofForm _ h _ _ _ rfl rfl (by decide) rfl (fun hw => by first | rfl | simp_all [Form.plain, Form.chk, Form.sel, Form.pred, pred3]) (fun hw => by first | rfl | simp_all [Form.plain, Form.chk, Form.sel, Form.pred, pred3]) (by first | rfl | simp [Form.plain, Form.chk, Form.sel, Form.pred, pred3])
    (fun hu => by first | exact ⟨_, rfl, rfl⟩ | exact absurd hu Bool.false_ne_true | exact ⟨_, rfl, hu⟩ | simp_all [Form.plain, Form.chk, Form.sel, Form.pred, pred3, Instr.uniformOk]) (by simp [Form.plain, Form.chk, Form.sel, Form.pred, pred3])

theorem pand : ∀ h d a b na nb, Statement (.pand h d a b na nb) := by
  intro h d a b na nb
  exact ofForm _ h _ _ _ rfl rfl (by decide) rfl (fun hw => by first | rfl | simp_all [Form.plain, Form.chk, Form.sel, Form.pred, pred3]) (fun hw => by first | rfl | simp_all [Form.plain, Form.chk, Form.sel, Form.pred, pred3]) (by first | rfl | simp [Form.plain, Form.chk, Form.sel, Form.pred, pred3])
    (fun hu => by first | exact ⟨_, rfl, rfl⟩ | exact absurd hu Bool.false_ne_true | exact ⟨_, rfl, hu⟩ | simp_all [Form.plain, Form.chk, Form.sel, Form.pred, pred3, Instr.uniformOk]) (by simp [Form.plain, Form.chk, Form.sel, Form.pred, pred3])

theorem por : ∀ h d a b na nb, Statement (.por h d a b na nb) := by
  intro h d a b na nb
  exact ofForm _ h _ _ _ rfl rfl (by decide) rfl (fun hw => by first | rfl | simp_all [Form.plain, Form.chk, Form.sel, Form.pred, pred3]) (fun hw => by first | rfl | simp_all [Form.plain, Form.chk, Form.sel, Form.pred, pred3]) (by first | rfl | simp [Form.plain, Form.chk, Form.sel, Form.pred, pred3])
    (fun hu => by first | exact ⟨_, rfl, rfl⟩ | exact absurd hu Bool.false_ne_true | exact ⟨_, rfl, hu⟩ | simp_all [Form.plain, Form.chk, Form.sel, Form.pred, pred3, Instr.uniformOk]) (by simp [Form.plain, Form.chk, Form.sel, Form.pred, pred3])

theorem pxor : ∀ h d a b na nb, Statement (.pxor h d a b na nb) := by
  intro h d a b na nb
  exact ofForm _ h _ _ _ rfl rfl (by decide) rfl (fun hw => by first | rfl | simp_all [Form.plain, Form.chk, Form.sel, Form.pred, pred3]) (fun hw => by first | rfl | simp_all [Form.plain, Form.chk, Form.sel, Form.pred, pred3]) (by first | rfl | simp [Form.plain, Form.chk, Form.sel, Form.pred, pred3])
    (fun hu => by first | exact ⟨_, rfl, rfl⟩ | exact absurd hu Bool.false_ne_true | exact ⟨_, rfl, hu⟩ | simp_all [Form.plain, Form.chk, Form.sel, Form.pred, pred3, Instr.uniformOk]) (by simp [Form.plain, Form.chk, Form.sel, Form.pred, pred3])

theorem pnot : ∀ h d a, Statement (.pnot h d a) := by
  intro h d a
  exact ofForm _ h _ _ _ rfl rfl (by decide) rfl (fun hw => by first | rfl | simp_all [Form.plain, Form.chk, Form.sel, Form.pred, pred3]) (fun hw => by first | rfl | simp_all [Form.plain, Form.chk, Form.sel, Form.pred, pred3]) (by first | rfl | simp [Form.plain, Form.chk, Form.sel, Form.pred, pred3])
    (fun hu => by first | exact ⟨_, rfl, rfl⟩ | exact absurd hu Bool.false_ne_true | exact ⟨_, rfl, hu⟩ | simp_all [Form.plain, Form.chk, Form.sel, Form.pred, pred3, Instr.uniformOk]) (by simp [Form.plain, Form.chk, Form.sel, Form.pred, pred3])

theorem pmov : ∀ h d a na, Statement (.pmov h d a na) := by
  intro h d a na
  exact ofForm _ h _ _ _ rfl rfl (by decide) rfl (fun hw => by first | rfl | simp_all [Form.plain, Form.chk, Form.sel, Form.pred, pred3]) (fun hw => by first | rfl | simp_all [Form.plain, Form.chk, Form.sel, Form.pred, pred3]) (by first | rfl | simp [Form.plain, Form.chk, Form.sel, Form.pred, pred3])
    (fun hu => by first | exact ⟨_, rfl, rfl⟩ | exact absurd hu Bool.false_ne_true | exact ⟨_, rfl, hu⟩ | simp_all [Form.plain, Form.chk, Form.sel, Form.pred, pred3, Instr.uniformOk]) (by simp [Form.plain, Form.chk, Form.sel, Form.pred, pred3])

theorem pset : ∀ h d bit, Statement (.pset h d bit) := by
  intro h d bit
  exact ofForm _ h _ _ _ rfl rfl (by decide) rfl (fun hw => by first | rfl | simp_all [Form.plain, Form.chk, Form.sel, Form.pred, pred3, formPset]) (fun hw => by first | rfl | simp_all [Form.plain, Form.chk, Form.sel, Form.pred, pred3, formPset]) (by first | rfl | simp [Form.plain, Form.chk, Form.sel, Form.pred, pred3, formPset])
    (fun hu => by first | exact ⟨_, rfl, rfl⟩ | exact absurd hu Bool.false_ne_true | exact ⟨_, rfl, hu⟩ | simp_all [Form.plain, Form.chk, Form.sel, Form.pred, pred3, formPset, Instr.uniformOk]) (by simp [Form.plain, Form.chk, Form.sel, Form.pred, pred3, formPset])

theorem cmp : ∀ h d a b t cc, Statement (.cmp h d a b t cc) := by
  intro h d a b t cc
  cases t <;> exact ofForm _ h _ _ _ rfl rfl (by decide) rfl (fun hw => by first | rfl | simp_all [Form.plain, Form.chk, Form.sel, Form.pred, pred3]) (fun hw => by first | rfl | simp_all [Form.plain, Form.chk, Form.sel, Form.pred, pred3]) (by first | rfl | simp [Form.plain, Form.chk, Form.sel, Form.pred, pred3])
    (fun hu => by first | exact ⟨_, rfl, rfl⟩ | exact absurd hu Bool.false_ne_true | exact ⟨_, rfl, hu⟩ | simp_all [Form.plain, Form.chk, Form.sel, Form.pred, pred3, Instr.uniformOk]) (by simp [Form.plain, Form.chk, Form.sel, Form.pred, pred3])

theorem ld : ∀ h d base la esc sz, Statement (.ld h d base la esc sz) := by
  intro h d base la esc sz
  exact ofForm _ h _ _ _ rfl rfl (by decide) rfl (fun hw => by first | rfl | simp_all [Form.plain, Form.chk, Form.sel, Form.pred, pred3]) (fun hw => by first | rfl | simp_all [Form.plain, Form.chk, Form.sel, Form.pred, pred3]) (by first | rfl | simp [Form.plain, Form.chk, Form.sel, Form.pred, pred3])
    (fun hu => by first | exact ⟨_, rfl, rfl⟩ | exact absurd hu Bool.false_ne_true | exact ⟨_, rfl, hu⟩ | simp_all [Form.plain, Form.chk, Form.sel, Form.pred, pred3, Instr.uniformOk]) (by simp [Form.plain, Form.chk, Form.sel, Form.pred, pred3])

theorem ldNarrow : ∀ h d base la esc t, Statement (.ldNarrow h d base la esc t) := by
  intro h d base la esc t
  exact ofForm _ h _ _ _ rfl rfl (by decide) rfl (fun hw => by first | rfl | simp_all [Form.plain, Form.chk, Form.sel, Form.pred, pred3]) (fun hw => by first | rfl | simp_all [Form.plain, Form.chk, Form.sel, Form.pred, pred3]) (by first | rfl | simp [Form.plain, Form.chk, Form.sel, Form.pred, pred3])
    (fun hu => by first | exact ⟨_, rfl, rfl⟩ | exact absurd hu Bool.false_ne_true | exact ⟨_, rfl, hu⟩ | simp_all [Form.plain, Form.chk, Form.sel, Form.pred, pred3, Instr.uniformOk]) (by simp [Form.plain, Form.chk, Form.sel, Form.pred, pred3])

theorem st : ∀ h s base sz, Statement (.st h s base sz) := by
  intro h s base sz
  exact ofForm _ h _ _ _ rfl rfl (by decide) rfl (fun hw => by first | rfl | simp_all [Form.plain, Form.chk, Form.sel, Form.pred, pred3]) (fun hw => by first | rfl | simp_all [Form.plain, Form.chk, Form.sel, Form.pred, pred3]) (by first | rfl | simp [Form.plain, Form.chk, Form.sel, Form.pred, pred3])
    (fun hu => by first | exact ⟨_, rfl, rfl⟩ | exact absurd hu Bool.false_ne_true | exact ⟨_, rfl, hu⟩ | simp_all [Form.plain, Form.chk, Form.sel, Form.pred, pred3, Instr.uniformOk]) (by simp [Form.plain, Form.chk, Form.sel, Form.pred, pred3])

theorem stNarrow : ∀ h s base t, Statement (.stNarrow h s base t) := by
  intro h s base t
  exact ofForm _ h _ _ _ rfl rfl (by decide) rfl (fun hw => by first | rfl | simp_all [Form.plain, Form.chk, Form.sel, Form.pred, pred3]) (fun hw => by first | rfl | simp_all [Form.plain, Form.chk, Form.sel, Form.pred, pred3]) (by first | rfl | simp [Form.plain, Form.chk, Form.sel, Form.pred, pred3])
    (fun hu => by first | exact ⟨_, rfl, rfl⟩ | exact absurd hu Bool.false_ne_true | exact ⟨_, rfl, hu⟩ | simp_all [Form.plain, Form.chk, Form.sel, Form.pred, pred3, Instr.uniformOk]) (by simp [Form.plain, Form.chk, Form.sel, Form.pred, pred3])

theorem lds : ∀ h d base la sz, Statement (.lds h d base la sz) := by
  intro h d base la sz
  exact ofForm _ h _ _ _ rfl rfl (by decide) rfl (fun hw => by first | rfl | simp_all [Form.plain, Form.chk, Form.sel, Form.pred, pred3]) (fun hw => by first | rfl | simp_all [Form.plain, Form.chk, Form.sel, Form.pred, pred3]) (by first | rfl | simp [Form.plain, Form.chk, Form.sel, Form.pred, pred3])
    (fun hu => by first | exact ⟨_, rfl, rfl⟩ | exact absurd hu Bool.false_ne_true | exact ⟨_, rfl, hu⟩ | simp_all [Form.plain, Form.chk, Form.sel, Form.pred, pred3, Instr.uniformOk]) (by simp [Form.plain, Form.chk, Form.sel, Form.pred, pred3])

theorem ldsNarrow : ∀ h d base la t, Statement (.ldsNarrow h d base la t) := by
  intro h d base la t
  exact ofForm _ h _ _ _ rfl rfl (by decide) rfl (fun hw => by first | rfl | simp_all [Form.plain, Form.chk, Form.sel, Form.pred, pred3]) (fun hw => by first | rfl | simp_all [Form.plain, Form.chk, Form.sel, Form.pred, pred3]) (by first | rfl | simp [Form.plain, Form.chk, Form.sel, Form.pred, pred3])
    (fun hu => by first | exact ⟨_, rfl, rfl⟩ | exact absurd hu Bool.false_ne_true | exact ⟨_, rfl, hu⟩ | simp_all [Form.plain, Form.chk, Form.sel, Form.pred, pred3, Instr.uniformOk]) (by simp [Form.plain, Form.chk, Form.sel, Form.pred, pred3])

theorem sts : ∀ h s base sz, Statement (.sts h s base sz) := by
  intro h s base sz
  exact ofForm _ h _ _ _ rfl rfl (by decide) rfl (fun hw => by first | rfl | simp_all [Form.plain, Form.chk, Form.sel, Form.pred, pred3]) (fun hw => by first | rfl | simp_all [Form.plain, Form.chk, Form.sel, Form.pred, pred3]) (by first | rfl | simp [Form.plain, Form.chk, Form.sel, Form.pred, pred3])
    (fun hu => by first | exact ⟨_, rfl, rfl⟩ | exact absurd hu Bool.false_ne_true | exact ⟨_, rfl, hu⟩ | simp_all [Form.plain, Form.chk, Form.sel, Form.pred, pred3, Instr.uniformOk]) (by simp [Form.plain, Form.chk, Form.sel, Form.pred, pred3])

theorem stsNarrow : ∀ h s base t, Statement (.stsNarrow h s base t) := by
  intro h s base t
  exact ofForm _ h _ _ _ rfl rfl (by decide) rfl (fun hw => by first | rfl | simp_all [Form.plain, Form.chk, Form.sel, Form.pred, pred3]) (fun hw => by first | rfl | simp_all [Form.plain, Form.chk, Form.sel, Form.pred, pred3]) (by first | rfl | simp [Form.plain, Form.chk, Form.sel, Form.pred, pred3])
    (fun hu => by first | exact ⟨_, rfl, rfl⟩ | exact absurd hu Bool.false_ne_true | exact ⟨_, rfl, hu⟩ | simp_all [Form.plain, Form.chk, Form.sel, Form.pred, pred3, Instr.uniformOk]) (by simp [Form.plain, Form.chk, Form.sel, Form.pred, pred3])

theorem ldf : ∀ h d base la esc sz, Statement (.ldf h d base la esc sz) := by
  intro h d base la esc sz
  exact ofForm _ h _ _ _ rfl rfl (by decide) rfl (fun hw => by first | rfl | simp_all [Form.plain, Form.chk, Form.sel, Form.pred, pred3]) (fun hw => by first | rfl | simp_all [Form.plain, Form.chk, Form.sel, Form.pred, pred3]) (by first | rfl | simp [Form.plain, Form.chk, Form.sel, Form.pred, pred3])
    (fun hu => by first | exact ⟨_, rfl, rfl⟩ | exact absurd hu Bool.false_ne_true | exact ⟨_, rfl, hu⟩ | simp_all [Form.plain, Form.chk, Form.sel, Form.pred, pred3, Instr.uniformOk]) (by simp [Form.plain, Form.chk, Form.sel, Form.pred, pred3])

theorem stf : ∀ h s base sz, Statement (.stf h s base sz) := by
  intro h s base sz
  exact ofForm _ h _ _ _ rfl rfl (by decide) rfl (fun hw => by first | rfl | simp_all [Form.plain, Form.chk, Form.sel, Form.pred, pred3]) (fun hw => by first | rfl | simp_all [Form.plain, Form.chk, Form.sel, Form.pred, pred3]) (by first | rfl | simp [Form.plain, Form.chk, Form.sel, Form.pred, pred3])
    (fun hu => by first | exact ⟨_, rfl, rfl⟩ | exact absurd hu Bool.false_ne_true | exact ⟨_, rfl, hu⟩ | simp_all [Form.plain, Form.chk, Form.sel, Form.pred, pred3, Instr.uniformOk]) (by simp [Form.plain, Form.chk, Form.sel, Form.pred, pred3])

theorem pref : ∀ h base lv, Statement (.pref h base lv) := by
  intro h base lv
  exact ofForm _ h _ _ _ rfl rfl (by decide) rfl (fun hw => by first | rfl | simp_all [Form.plain, Form.chk, Form.sel, Form.pred, pred3]) (fun hw => by first | rfl | simp_all [Form.plain, Form.chk, Form.sel, Form.pred, pred3]) (by first | rfl | simp [Form.plain, Form.chk, Form.sel, Form.pred, pred3])
    (fun hu => by first | exact ⟨_, rfl, rfl⟩ | exact absurd hu Bool.false_ne_true | exact ⟨_, rfl, hu⟩ | simp_all [Form.plain, Form.chk, Form.sel, Form.pred, pred3, Instr.uniformOk]) (by simp [Form.plain, Form.chk, Form.sel, Form.pred, pred3])

theorem escm : ∀ h imm, Statement (.escm h imm) := by
  intro h imm
  exact ofForm _ h _ _ _ rfl rfl (by decide) rfl (fun hw => by first | rfl | simp_all [Form.plain, Form.chk, Form.sel, Form.pred, pred3]) (fun hw => by first | rfl | simp_all [Form.plain, Form.chk, Form.sel, Form.pred, pred3]) (by first | rfl | simp [Form.plain, Form.chk, Form.sel, Form.pred, pred3])
    (fun hu => by first | exact ⟨_, rfl, rfl⟩ | exact absurd hu Bool.false_ne_true | exact ⟨_, rfl, hu⟩ | simp_all [Form.plain, Form.chk, Form.sel, Form.pred, pred3, Instr.uniformOk]) (by simp [Form.plain, Form.chk, Form.sel, Form.pred, pred3])

theorem ldAcq : ∀ h d base la esc sz, Statement (.ldAcq h d base la esc sz) := by
  intro h d base la esc sz
  exact ofForm _ h _ _ _ rfl rfl (by decide) rfl (fun hw => by first | rfl | simp_all [Form.plain, Form.chk, Form.sel, Form.pred, pred3]) (fun hw => by first | rfl | simp_all [Form.plain, Form.chk, Form.sel, Form.pred, pred3]) (by first | rfl | simp [Form.plain, Form.chk, Form.sel, Form.pred, pred3])
    (fun hu => by first | exact ⟨_, rfl, rfl⟩ | exact absurd hu Bool.false_ne_true | exact ⟨_, rfl, hu⟩ | simp_all [Form.plain, Form.chk, Form.sel, Form.pred, pred3, Instr.uniformOk]) (by simp [Form.plain, Form.chk, Form.sel, Form.pred, pred3])

theorem stRel : ∀ h s base sz, Statement (.stRel h s base sz) := by
  intro h s base sz
  exact ofForm _ h _ _ _ rfl rfl (by decide) rfl (fun hw => by first | rfl | simp_all [Form.plain, Form.chk, Form.sel, Form.pred, pred3]) (fun hw => by first | rfl | simp_all [Form.plain, Form.chk, Form.sel, Form.pred, pred3]) (by first | rfl | simp [Form.plain, Form.chk, Form.sel, Form.pred, pred3])
    (fun hu => by first | exact ⟨_, rfl, rfl⟩ | exact absurd hu Bool.false_ne_true | exact ⟨_, rfl, hu⟩ | simp_all [Form.plain, Form.chk, Form.sel, Form.pred, pred3, Instr.uniformOk]) (by simp [Form.plain, Form.chk, Form.sel, Form.pred, pred3])

theorem ldv : ∀ h d base la esc w, Statement (.ldv h d base la esc w) := by
  intro h d base la esc w
  exact ofForm _ h _ _ _ rfl rfl (by decide) rfl (fun hw => by first | rfl | simp_all [Form.plain, Form.chk, Form.sel, Form.pred, pred3]) (fun hw => by first | rfl | simp_all [Form.plain, Form.chk, Form.sel, Form.pred, pred3]) (by first | rfl | simp [Form.plain, Form.chk, Form.sel, Form.pred, pred3])
    (fun hu => by first | exact ⟨_, rfl, rfl⟩ | exact absurd hu Bool.false_ne_true | exact ⟨_, rfl, hu⟩ | simp_all [Form.plain, Form.chk, Form.sel, Form.pred, pred3, Instr.uniformOk]) (by simp [Form.plain, Form.chk, Form.sel, Form.pred, pred3])

theorem casv : ∀ h d base la esc sz, Statement (.casv h d base la esc sz) := by
  intro h d base la esc sz
  exact ofForm _ h _ _ _ rfl rfl (by decide) rfl (fun hw => by first | rfl | simp_all [Form.plain, Form.chk, Form.sel, Form.pred, pred3]) (fun hw => by first | rfl | simp_all [Form.plain, Form.chk, Form.sel, Form.pred, pred3]) (by first | rfl | simp [Form.plain, Form.chk, Form.sel, Form.pred, pred3])
    (fun hu => by first | exact ⟨_, rfl, rfl⟩ | exact absurd hu Bool.false_ne_true | exact ⟨_, rfl, hu⟩ | simp_all [Form.plain, Form.chk, Form.sel, Form.pred, pred3, Instr.uniformOk]) (by simp [Form.plain, Form.chk, Form.sel, Form.pred, pred3])

theorem atomAdd : ∀ h d base la esc t, Statement (.atomAdd h d base la esc t) := by
  intro h d base la esc t
  exact ofForm _ h _ _ _ rfl rfl (by decide) rfl (fun hw => by first | rfl | simp_all [Form.plain, Form.chk, Form.sel, Form.pred, pred3]) (fun hw => by first | rfl | simp_all [Form.plain, Form.chk, Form.sel, Form.pred, pred3]) (by first | rfl | simp [Form.plain, Form.chk, Form.sel, Form.pred, pred3])
    (fun hu => by first | exact ⟨_, rfl, rfl⟩ | exact absurd hu Bool.false_ne_true | exact ⟨_, rfl, hu⟩ | simp_all [Form.plain, Form.chk, Form.sel, Form.pred, pred3, Instr.uniformOk]) (by simp [Form.plain, Form.chk, Form.sel, Form.pred, pred3])

theorem atomAnd : ∀ h d base la esc t, Statement (.atomAnd h d base la esc t) := by
  intro h d base la esc t
  exact ofForm _ h _ _ _ rfl rfl (by decide) rfl (fun hw => by first | rfl | simp_all [Form.plain, Form.chk, Form.sel, Form.pred, pred3]) (fun hw => by first | rfl | simp_all [Form.plain, Form.chk, Form.sel, Form.pred, pred3]) (by first | rfl | simp [Form.plain, Form.chk, Form.sel, Form.pred, pred3])
    (fun hu => by first | exact ⟨_, rfl, rfl⟩ | exact absurd hu Bool.false_ne_true | exact ⟨_, rfl, hu⟩ | simp_all [Form.plain, Form.chk, Form.sel, Form.pred, pred3, Instr.uniformOk]) (by simp [Form.plain, Form.chk, Form.sel, Form.pred, pred3])

theorem atomOr : ∀ h d base la esc t, Statement (.atomOr h d base la esc t) := by
  intro h d base la esc t
  exact ofForm _ h _ _ _ rfl rfl (by decide) rfl (fun hw => by first | rfl | simp_all [Form.plain, Form.chk, Form.sel, Form.pred, pred3]) (fun hw => by first | rfl | simp_all [Form.plain, Form.chk, Form.sel, Form.pred, pred3]) (by first | rfl | simp [Form.plain, Form.chk, Form.sel, Form.pred, pred3])
    (fun hu => by first | exact ⟨_, rfl, rfl⟩ | exact absurd hu Bool.false_ne_true | exact ⟨_, rfl, hu⟩ | simp_all [Form.plain, Form.chk, Form.sel, Form.pred, pred3, Instr.uniformOk]) (by simp [Form.plain, Form.chk, Form.sel, Form.pred, pred3])

theorem atomXor : ∀ h d base la esc t, Statement (.atomXor h d base la esc t) := by
  intro h d base la esc t
  exact ofForm _ h _ _ _ rfl rfl (by decide) rfl (fun hw => by first | rfl | simp_all [Form.plain, Form.chk, Form.sel, Form.pred, pred3]) (fun hw => by first | rfl | simp_all [Form.plain, Form.chk, Form.sel, Form.pred, pred3]) (by first | rfl | simp [Form.plain, Form.chk, Form.sel, Form.pred, pred3])
    (fun hu => by first | exact ⟨_, rfl, rfl⟩ | exact absurd hu Bool.false_ne_true | exact ⟨_, rfl, hu⟩ | simp_all [Form.plain, Form.chk, Form.sel, Form.pred, pred3, Instr.uniformOk]) (by simp [Form.plain, Form.chk, Form.sel, Form.pred, pred3])

theorem atomMin : ∀ h d base la esc t, Statement (.atomMin h d base la esc t) := by
  intro h d base la esc t
  exact ofForm _ h _ _ _ rfl rfl (by decide) rfl (fun hw => by first | rfl | simp_all [Form.plain, Form.chk, Form.sel, Form.pred, pred3]) (fun hw => by first | rfl | simp_all [Form.plain, Form.chk, Form.sel, Form.pred, pred3]) (by first | rfl | simp [Form.plain, Form.chk, Form.sel, Form.pred, pred3])
    (fun hu => by first | exact ⟨_, rfl, rfl⟩ | exact absurd hu Bool.false_ne_true | exact ⟨_, rfl, hu⟩ | simp_all [Form.plain, Form.chk, Form.sel, Form.pred, pred3, Instr.uniformOk]) (by simp [Form.plain, Form.chk, Form.sel, Form.pred, pred3])

theorem atomMax : ∀ h d base la esc t, Statement (.atomMax h d base la esc t) := by
  intro h d base la esc t
  exact ofForm _ h _ _ _ rfl rfl (by decide) rfl (fun hw => by first | rfl | simp_all [Form.plain, Form.chk, Form.sel, Form.pred, pred3]) (fun hw => by first | rfl | simp_all [Form.plain, Form.chk, Form.sel, Form.pred, pred3]) (by first | rfl | simp [Form.plain, Form.chk, Form.sel, Form.pred, pred3])
    (fun hu => by first | exact ⟨_, rfl, rfl⟩ | exact absurd hu Bool.false_ne_true | exact ⟨_, rfl, hu⟩ | simp_all [Form.plain, Form.chk, Form.sel, Form.pred, pred3, Instr.uniformOk]) (by simp [Form.plain, Form.chk, Form.sel, Form.pred, pred3])

theorem atomExch : ∀ h d base la esc t, Statement (.atomExch h d base la esc t) := by
  intro h d base la esc t
  exact ofForm _ h _ _ _ rfl rfl (by decide) rfl (fun hw => by first | rfl | simp_all [Form.plain, Form.chk, Form.sel, Form.pred, pred3]) (fun hw => by first | rfl | simp_all [Form.plain, Form.chk, Form.sel, Form.pred, pred3]) (by first | rfl | simp [Form.plain, Form.chk, Form.sel, Form.pred, pred3])
    (fun hu => by first | exact ⟨_, rfl, rfl⟩ | exact absurd hu Bool.false_ne_true | exact ⟨_, rfl, hu⟩ | simp_all [Form.plain, Form.chk, Form.sel, Form.pred, pred3, Instr.uniformOk]) (by simp [Form.plain, Form.chk, Form.sel, Form.pred, pred3])

theorem atomCas : ∀ h d base la esc t, Statement (.atomCas h d base la esc t) := by
  intro h d base la esc t
  exact ofForm _ h _ _ _ rfl rfl (by decide) rfl (fun hw => by first | rfl | simp_all [Form.plain, Form.chk, Form.sel, Form.pred, pred3]) (fun hw => by first | rfl | simp_all [Form.plain, Form.chk, Form.sel, Form.pred, pred3]) (by first | rfl | simp [Form.plain, Form.chk, Form.sel, Form.pred, pred3])
    (fun hu => by first | exact ⟨_, rfl, rfl⟩ | exact absurd hu Bool.false_ne_true | exact ⟨_, rfl, hu⟩ | simp_all [Form.plain, Form.chk, Form.sel, Form.pred, pred3, Instr.uniformOk]) (by simp [Form.plain, Form.chk, Form.sel, Form.pred, pred3])

theorem atomFadd : ∀ h d base la esc, Statement (.atomFadd h d base la esc) := by
  intro h d base la esc
  exact ofForm _ h _ _ _ rfl rfl (by decide) rfl (fun hw => by first | rfl | simp_all [Form.plain, Form.chk, Form.sel, Form.pred, pred3]) (fun hw => by first | rfl | simp_all [Form.plain, Form.chk, Form.sel, Form.pred, pred3]) (by first | rfl | simp [Form.plain, Form.chk, Form.sel, Form.pred, pred3])
    (fun hu => by first | exact ⟨_, rfl, rfl⟩ | exact absurd hu Bool.false_ne_true | exact ⟨_, rfl, hu⟩ | simp_all [Form.plain, Form.chk, Form.sel, Form.pred, pred3, Instr.uniformOk]) (by simp [Form.plain, Form.chk, Form.sel, Form.pred, pred3])

theorem rwl : ∀ h d base la esc op, Statement (.rwl h d base la esc op) := by
  intro h d base la esc op
  exact ofForm _ h _ _ _ rfl rfl (by decide) rfl (fun hw => by first | rfl | simp_all [Form.plain, Form.chk, Form.sel, Form.pred, pred3]) (fun hw => by first | rfl | simp_all [Form.plain, Form.chk, Form.sel, Form.pred, pred3]) (by first | rfl | simp [Form.plain, Form.chk, Form.sel, Form.pred, pred3])
    (fun hu => by first | exact ⟨_, rfl, rfl⟩ | exact absurd hu Bool.false_ne_true | exact ⟨_, rfl, hu⟩ | simp_all [Form.plain, Form.chk, Form.sel, Form.pred, pred3, Instr.uniformOk]) (by simp [Form.plain, Form.chk, Form.sel, Form.pred, pred3])

theorem valset : ∀ h d a b st, Statement (.valset h d a b st) := by
  intro h d a b st
  exact ofForm _ h _ _ _ rfl rfl (by decide) rfl (fun hw => by first | rfl | simp_all [Form.plain, Form.chk, Form.sel, Form.pred, pred3, formValset, Instr.wf]) (fun hw => by first | rfl | simp_all [Form.plain, Form.chk, Form.sel, Form.pred, pred3, formValset, Instr.wf]) (by first | rfl | simp [Form.plain, Form.chk, Form.sel, Form.pred, pred3, formValset, Instr.wf])
    (fun hu => by first | exact ⟨_, rfl, rfl⟩ | exact absurd hu Bool.false_ne_true | exact ⟨_, rfl, hu⟩ | simp_all [Form.plain, Form.chk, Form.sel, Form.pred, pred3, formValset, Instr.wf, Instr.uniformOk]) (by simp [Form.plain, Form.chk, Form.sel, Form.pred, pred3, formValset, Instr.wf])

theorem waitcSigned : ∀ h d a b cc, Statement (.waitcSigned h d a b cc) := by
  intro h d a b cc
  exact ofForm _ h _ _ _ rfl rfl (by decide) rfl (fun hw => by first | rfl | simp_all [Form.plain, Form.chk, Form.sel, Form.pred, pred3]) (fun hw => by first | rfl | simp_all [Form.plain, Form.chk, Form.sel, Form.pred, pred3]) (by first | rfl | simp [Form.plain, Form.chk, Form.sel, Form.pred, pred3])
    (fun hu => by first | exact ⟨_, rfl, rfl⟩ | exact absurd hu Bool.false_ne_true | exact ⟨_, rfl, hu⟩ | simp_all [Form.plain, Form.chk, Form.sel, Form.pred, pred3, Instr.uniformOk]) (by simp [Form.plain, Form.chk, Form.sel, Form.pred, pred3])

theorem fence : ∀ h, Statement (.fence h) := by
  intro h
  exact ofForm _ h _ _ _ rfl rfl (by decide) rfl (fun hw => by first | rfl | simp_all [Form.plain, Form.chk, Form.sel, Form.pred, pred3]) (fun hw => by first | rfl | simp_all [Form.plain, Form.chk, Form.sel, Form.pred, pred3]) (by first | rfl | simp [Form.plain, Form.chk, Form.sel, Form.pred, pred3])
    (fun hu => by first | exact ⟨_, rfl, rfl⟩ | exact absurd hu Bool.false_ne_true | exact ⟨_, rfl, hu⟩ | simp_all [Form.plain, Form.chk, Form.sel, Form.pred, pred3, Instr.uniformOk]) (by simp [Form.plain, Form.chk, Form.sel, Form.pred, pred3])

theorem bar : ∀ h lv mchk, Statement (.bar h lv mchk) := by
  intro h lv mchk
  exact ofForm _ h _ _ _ rfl rfl (by decide) rfl (fun hw => by first | rfl | simp_all [Form.plain, Form.chk, Form.sel, Form.pred, pred3]) (fun hw => by first | rfl | simp_all [Form.plain, Form.chk, Form.sel, Form.pred, pred3]) (by first | rfl | simp [Form.plain, Form.chk, Form.sel, Form.pred, pred3])
    (fun hu => by first | exact ⟨_, rfl, rfl⟩ | exact absurd hu Bool.false_ne_true | exact ⟨_, rfl, hu⟩ | simp_all [Form.plain, Form.chk, Form.sel, Form.pred, pred3, Instr.uniformOk]) (by simp [Form.plain, Form.chk, Form.sel, Form.pred, pred3])

theorem waitcUnsigned : ∀ h d a b ge, Statement (.waitcUnsigned h d a b ge) := by
  intro h d a b ge
  exact ofForm _ h _ _ _ rfl rfl (by decide) rfl (fun hw => by first | rfl | simp_all [Form.plain, Form.chk, Form.sel, Form.pred, pred3]) (fun hw => by first | rfl | simp_all [Form.plain, Form.chk, Form.sel, Form.pred, pred3]) (by first | rfl | simp [Form.plain, Form.chk, Form.sel, Form.pred, pred3])
    (fun hu => by first | exact ⟨_, rfl, rfl⟩ | exact absurd hu Bool.false_ne_true | exact ⟨_, rfl, hu⟩ | simp_all [Form.plain, Form.chk, Form.sel, Form.pred, pred3, Instr.uniformOk]) (by simp [Form.plain, Form.chk, Form.sel, Form.pred, pred3])

theorem atomOrdAdd : ∀ h d base la esc t, Statement (.atomOrdAdd h d base la esc t) := by
  intro h d base la esc t
  exact ofForm _ h _ _ _ rfl rfl (by decide) rfl (fun hw => by first | rfl | simp_all [Form.plain, Form.chk, Form.sel, Form.pred, pred3]) (fun hw => by first | rfl | simp_all [Form.plain, Form.chk, Form.sel, Form.pred, pred3]) (by first | rfl | simp [Form.plain, Form.chk, Form.sel, Form.pred, pred3])
    (fun hu => by first | exact ⟨_, rfl, rfl⟩ | exact absurd hu Bool.false_ne_true | exact ⟨_, rfl, hu⟩ | simp_all [Form.plain, Form.chk, Form.sel, Form.pred, pred3, Instr.uniformOk]) (by simp [Form.plain, Form.chk, Form.sel, Form.pred, pred3])

theorem atomOrdAnd : ∀ h d base la esc t, Statement (.atomOrdAnd h d base la esc t) := by
  intro h d base la esc t
  exact ofForm _ h _ _ _ rfl rfl (by decide) rfl (fun hw => by first | rfl | simp_all [Form.plain, Form.chk, Form.sel, Form.pred, pred3]) (fun hw => by first | rfl | simp_all [Form.plain, Form.chk, Form.sel, Form.pred, pred3]) (by first | rfl | simp [Form.plain, Form.chk, Form.sel, Form.pred, pred3])
    (fun hu => by first | exact ⟨_, rfl, rfl⟩ | exact absurd hu Bool.false_ne_true | exact ⟨_, rfl, hu⟩ | simp_all [Form.plain, Form.chk, Form.sel, Form.pred, pred3, Instr.uniformOk]) (by simp [Form.plain, Form.chk, Form.sel, Form.pred, pred3])

theorem atomOrdOr : ∀ h d base la esc t, Statement (.atomOrdOr h d base la esc t) := by
  intro h d base la esc t
  exact ofForm _ h _ _ _ rfl rfl (by decide) rfl (fun hw => by first | rfl | simp_all [Form.plain, Form.chk, Form.sel, Form.pred, pred3]) (fun hw => by first | rfl | simp_all [Form.plain, Form.chk, Form.sel, Form.pred, pred3]) (by first | rfl | simp [Form.plain, Form.chk, Form.sel, Form.pred, pred3])
    (fun hu => by first | exact ⟨_, rfl, rfl⟩ | exact absurd hu Bool.false_ne_true | exact ⟨_, rfl, hu⟩ | simp_all [Form.plain, Form.chk, Form.sel, Form.pred, pred3, Instr.uniformOk]) (by simp [Form.plain, Form.chk, Form.sel, Form.pred, pred3])

theorem atomOrdXor : ∀ h d base la esc t, Statement (.atomOrdXor h d base la esc t) := by
  intro h d base la esc t
  exact ofForm _ h _ _ _ rfl rfl (by decide) rfl (fun hw => by first | rfl | simp_all [Form.plain, Form.chk, Form.sel, Form.pred, pred3]) (fun hw => by first | rfl | simp_all [Form.plain, Form.chk, Form.sel, Form.pred, pred3]) (by first | rfl | simp [Form.plain, Form.chk, Form.sel, Form.pred, pred3])
    (fun hu => by first | exact ⟨_, rfl, rfl⟩ | exact absurd hu Bool.false_ne_true | exact ⟨_, rfl, hu⟩ | simp_all [Form.plain, Form.chk, Form.sel, Form.pred, pred3, Instr.uniformOk]) (by simp [Form.plain, Form.chk, Form.sel, Form.pred, pred3])

theorem atomOrdMin : ∀ h d base la esc t, Statement (.atomOrdMin h d base la esc t) := by
  intro h d base la esc t
  exact ofForm _ h _ _ _ rfl rfl (by decide) rfl (fun hw => by first | rfl | simp_all [Form.plain, Form.chk, Form.sel, Form.pred, pred3]) (fun hw => by first | rfl | simp_all [Form.plain, Form.chk, Form.sel, Form.pred, pred3]) (by first | rfl | simp [Form.plain, Form.chk, Form.sel, Form.pred, pred3])
    (fun hu => by first | exact ⟨_, rfl, rfl⟩ | exact absurd hu Bool.false_ne_true | exact ⟨_, rfl, hu⟩ | simp_all [Form.plain, Form.chk, Form.sel, Form.pred, pred3, Instr.uniformOk]) (by simp [Form.plain, Form.chk, Form.sel, Form.pred, pred3])

theorem atomOrdMax : ∀ h d base la esc t, Statement (.atomOrdMax h d base la esc t) := by
  intro h d base la esc t
  exact ofForm _ h _ _ _ rfl rfl (by decide) rfl (fun hw => by first | rfl | simp_all [Form.plain, Form.chk, Form.sel, Form.pred, pred3]) (fun hw => by first | rfl | simp_all [Form.plain, Form.chk, Form.sel, Form.pred, pred3]) (by first | rfl | simp [Form.plain, Form.chk, Form.sel, Form.pred, pred3])
    (fun hu => by first | exact ⟨_, rfl, rfl⟩ | exact absurd hu Bool.false_ne_true | exact ⟨_, rfl, hu⟩ | simp_all [Form.plain, Form.chk, Form.sel, Form.pred, pred3, Instr.uniformOk]) (by simp [Form.plain, Form.chk, Form.sel, Form.pred, pred3])

theorem atomOrdExch : ∀ h d base la esc t, Statement (.atomOrdExch h d base la esc t) := by
  intro h d base la esc t
  exact ofForm _ h _ _ _ rfl rfl (by decide) rfl (fun hw => by first | rfl | simp_all [Form.plain, Form.chk, Form.sel, Form.pred, pred3]) (fun hw => by first | rfl | simp_all [Form.plain, Form.chk, Form.sel, Form.pred, pred3]) (by first | rfl | simp [Form.plain, Form.chk, Form.sel, Form.pred, pred3])
    (fun hu => by first | exact ⟨_, rfl, rfl⟩ | exact absurd hu Bool.false_ne_true | exact ⟨_, rfl, hu⟩ | simp_all [Form.plain, Form.chk, Form.sel, Form.pred, pred3, Instr.uniformOk]) (by simp [Form.plain, Form.chk, Form.sel, Form.pred, pred3])

theorem atomOrdCas : ∀ h d base la esc t, Statement (.atomOrdCas h d base la esc t) := by
  intro h d base la esc t
  exact ofForm _ h _ _ _ rfl rfl (by decide) rfl (fun hw => by first | rfl | simp_all [Form.plain, Form.chk, Form.sel, Form.pred, pred3]) (fun hw => by first | rfl | simp_all [Form.plain, Form.chk, Form.sel, Form.pred, pred3]) (by first | rfl | simp [Form.plain, Form.chk, Form.sel, Form.pred, pred3])
    (fun hu => by first | exact ⟨_, rfl, rfl⟩ | exact absurd hu Bool.false_ne_true | exact ⟨_, rfl, hu⟩ | simp_all [Form.plain, Form.chk, Form.sel, Form.pred, pred3, Instr.uniformOk]) (by simp [Form.plain, Form.chk, Form.sel, Form.pred, pred3])

theorem atomOrdFadd : ∀ h d base la esc, Statement (.atomOrdFadd h d base la esc) := by
  intro h d base la esc
  exact ofForm _ h _ _ _ rfl rfl (by decide) rfl (fun hw => by first | rfl | simp_all [Form.plain, Form.chk, Form.sel, Form.pred, pred3]) (fun hw => by first | rfl | simp_all [Form.plain, Form.chk, Form.sel, Form.pred, pred3]) (by first | rfl | simp [Form.plain, Form.chk, Form.sel, Form.pred, pred3])
    (fun hu => by first | exact ⟨_, rfl, rfl⟩ | exact absurd hu Bool.false_ne_true | exact ⟨_, rfl, hu⟩ | simp_all [Form.plain, Form.chk, Form.sel, Form.pred, pred3, Instr.uniformOk]) (by simp [Form.plain, Form.chk, Form.sel, Form.pred, pred3])

theorem redAdd : ∀ h s base t, Statement (.redAdd h s base t) := by
  intro h s base t
  exact ofForm _ h _ _ _ rfl rfl (by decide) rfl (fun hw => by first | rfl | simp_all [Form.plain, Form.chk, Form.sel, Form.pred, pred3]) (fun hw => by first | rfl | simp_all [Form.plain, Form.chk, Form.sel, Form.pred, pred3]) (by first | rfl | simp [Form.plain, Form.chk, Form.sel, Form.pred, pred3])
    (fun hu => by first | exact ⟨_, rfl, rfl⟩ | exact absurd hu Bool.false_ne_true | exact ⟨_, rfl, hu⟩ | simp_all [Form.plain, Form.chk, Form.sel, Form.pred, pred3, Instr.uniformOk]) (by simp [Form.plain, Form.chk, Form.sel, Form.pred, pred3])

theorem redAnd : ∀ h s base t, Statement (.redAnd h s base t) := by
  intro h s base t
  exact ofForm _ h _ _ _ rfl rfl (by decide) rfl (fun hw => by first | rfl | simp_all [Form.plain, Form.chk, Form.sel, Form.pred, pred3]) (fun hw => by first | rfl | simp_all [Form.plain, Form.chk, Form.sel, Form.pred, pred3]) (by first | rfl | simp [Form.plain, Form.chk, Form.sel, Form.pred, pred3])
    (fun hu => by first | exact ⟨_, rfl, rfl⟩ | exact absurd hu Bool.false_ne_true | exact ⟨_, rfl, hu⟩ | simp_all [Form.plain, Form.chk, Form.sel, Form.pred, pred3, Instr.uniformOk]) (by simp [Form.plain, Form.chk, Form.sel, Form.pred, pred3])

theorem redOr : ∀ h s base t, Statement (.redOr h s base t) := by
  intro h s base t
  exact ofForm _ h _ _ _ rfl rfl (by decide) rfl (fun hw => by first | rfl | simp_all [Form.plain, Form.chk, Form.sel, Form.pred, pred3]) (fun hw => by first | rfl | simp_all [Form.plain, Form.chk, Form.sel, Form.pred, pred3]) (by first | rfl | simp [Form.plain, Form.chk, Form.sel, Form.pred, pred3])
    (fun hu => by first | exact ⟨_, rfl, rfl⟩ | exact absurd hu Bool.false_ne_true | exact ⟨_, rfl, hu⟩ | simp_all [Form.plain, Form.chk, Form.sel, Form.pred, pred3, Instr.uniformOk]) (by simp [Form.plain, Form.chk, Form.sel, Form.pred, pred3])

theorem redXor : ∀ h s base t, Statement (.redXor h s base t) := by
  intro h s base t
  exact ofForm _ h _ _ _ rfl rfl (by decide) rfl (fun hw => by first | rfl | simp_all [Form.plain, Form.chk, Form.sel, Form.pred, pred3]) (fun hw => by first | rfl | simp_all [Form.plain, Form.chk, Form.sel, Form.pred, pred3]) (by first | rfl | simp [Form.plain, Form.chk, Form.sel, Form.pred, pred3])
    (fun hu => by first | exact ⟨_, rfl, rfl⟩ | exact absurd hu Bool.false_ne_true | exact ⟨_, rfl, hu⟩ | simp_all [Form.plain, Form.chk, Form.sel, Form.pred, pred3, Instr.uniformOk]) (by simp [Form.plain, Form.chk, Form.sel, Form.pred, pred3])

theorem redMin : ∀ h s base t, Statement (.redMin h s base t) := by
  intro h s base t
  exact ofForm _ h _ _ _ rfl rfl (by decide) rfl (fun hw => by first | rfl | simp_all [Form.plain, Form.chk, Form.sel, Form.pred, pred3]) (fun hw => by first | rfl | simp_all [Form.plain, Form.chk, Form.sel, Form.pred, pred3]) (by first | rfl | simp [Form.plain, Form.chk, Form.sel, Form.pred, pred3])
    (fun hu => by first | exact ⟨_, rfl, rfl⟩ | exact absurd hu Bool.false_ne_true | exact ⟨_, rfl, hu⟩ | simp_all [Form.plain, Form.chk, Form.sel, Form.pred, pred3, Instr.uniformOk]) (by simp [Form.plain, Form.chk, Form.sel, Form.pred, pred3])

theorem redMax : ∀ h s base t, Statement (.redMax h s base t) := by
  intro h s base t
  exact ofForm _ h _ _ _ rfl rfl (by decide) rfl (fun hw => by first | rfl | simp_all [Form.plain, Form.chk, Form.sel, Form.pred, pred3]) (fun hw => by first | rfl | simp_all [Form.plain, Form.chk, Form.sel, Form.pred, pred3]) (by first | rfl | simp [Form.plain, Form.chk, Form.sel, Form.pred, pred3])
    (fun hu => by first | exact ⟨_, rfl, rfl⟩ | exact absurd hu Bool.false_ne_true | exact ⟨_, rfl, hu⟩ | simp_all [Form.plain, Form.chk, Form.sel, Form.pred, pred3, Instr.uniformOk]) (by simp [Form.plain, Form.chk, Form.sel, Form.pred, pred3])

theorem redFadd : ∀ h s base, Statement (.redFadd h s base) := by
  intro h s base
  exact ofForm _ h _ _ _ rfl rfl (by decide) rfl (fun hw => by first | rfl | simp_all [Form.plain, Form.chk, Form.sel, Form.pred, pred3]) (fun hw => by first | rfl | simp_all [Form.plain, Form.chk, Form.sel, Form.pred, pred3]) (by first | rfl | simp [Form.plain, Form.chk, Form.sel, Form.pred, pred3])
    (fun hu => by first | exact ⟨_, rfl, rfl⟩ | exact absurd hu Bool.false_ne_true | exact ⟨_, rfl, hu⟩ | simp_all [Form.plain, Form.chk, Form.sel, Form.pred, pred3, Instr.uniformOk]) (by simp [Form.plain, Form.chk, Form.sel, Form.pred, pred3])

theorem tdset : ∀ h x g spad, Statement (.tdset h x g spad) := by
  intro h x g spad
  exact ofForm _ h _ _ _ rfl rfl (by decide) rfl (fun hw => by first | rfl | simp_all [Form.plain, Form.chk, Form.sel, Form.pred, pred3]) (fun hw => by first | rfl | simp_all [Form.plain, Form.chk, Form.sel, Form.pred, pred3]) (by first | rfl | simp [Form.plain, Form.chk, Form.sel, Form.pred, pred3])
    (fun hu => by first | exact ⟨_, rfl, rfl⟩ | exact absurd hu Bool.false_ne_true | exact ⟨_, rfl, hu⟩ | simp_all [Form.plain, Form.chk, Form.sel, Form.pred, pred3, Instr.uniformOk]) (by simp [Form.plain, Form.chk, Form.sel, Form.pred, pred3])

theorem tdget : ∀ h x g spad, Statement (.tdget h x g spad) := by
  intro h x g spad
  exact ofForm _ h _ _ _ rfl rfl (by decide) rfl (fun hw => by first | rfl | simp_all [Form.plain, Form.chk, Form.sel, Form.pred, pred3]) (fun hw => by first | rfl | simp_all [Form.plain, Form.chk, Form.sel, Form.pred, pred3]) (by first | rfl | simp [Form.plain, Form.chk, Form.sel, Form.pred, pred3])
    (fun hu => by first | exact ⟨_, rfl, rfl⟩ | exact absurd hu Bool.false_ne_true | exact ⟨_, rfl, hu⟩ | simp_all [Form.plain, Form.chk, Form.sel, Form.pred, pred3, Instr.uniformOk]) (by simp [Form.plain, Form.chk, Form.sel, Form.pred, pred3])

theorem tdinv : ∀ h x, Statement (.tdinv h x) := by
  intro h x
  exact ofForm _ h _ _ _ rfl rfl (by decide) rfl (fun hw => by first | rfl | simp_all [Form.plain, Form.chk, Form.sel, Form.pred, pred3]) (fun hw => by first | rfl | simp_all [Form.plain, Form.chk, Form.sel, Form.pred, pred3]) (by first | rfl | simp [Form.plain, Form.chk, Form.sel, Form.pred, pred3])
    (fun hu => by first | exact ⟨_, rfl, rfl⟩ | exact absurd hu Bool.false_ne_true | exact ⟨_, rfl, hu⟩ | simp_all [Form.plain, Form.chk, Form.sel, Form.pred, pred3, Instr.uniformOk]) (by simp [Form.plain, Form.chk, Form.sel, Form.pred, pred3])

theorem mscl : ∀ h x g tile, Statement (.mscl h x g tile) := by
  intro h x g tile
  exact ofForm _ h _ _ _ rfl rfl (by decide) rfl (fun hw => by first | rfl | simp_all [Form.plain, Form.chk, Form.sel, Form.pred, pred3]) (fun hw => by first | rfl | simp_all [Form.plain, Form.chk, Form.sel, Form.pred, pred3]) (by first | rfl | simp [Form.plain, Form.chk, Form.sel, Form.pred, pred3])
    (fun hu => by first | exact ⟨_, rfl, rfl⟩ | exact absurd hu Bool.false_ne_true | exact ⟨_, rfl, hu⟩ | simp_all [Form.plain, Form.chk, Form.sel, Form.pred, pred3, Instr.uniformOk]) (by simp [Form.plain, Form.chk, Form.sel, Form.pred, pred3])

theorem mzero : ∀ h x tile, Statement (.mzero h x tile) := by
  intro h x tile
  exact ofForm _ h _ _ _ rfl rfl (by decide) rfl (fun hw => by first | rfl | simp_all [Form.plain, Form.chk, Form.sel, Form.pred, pred3]) (fun hw => by first | rfl | simp_all [Form.plain, Form.chk, Form.sel, Form.pred, pred3]) (by first | rfl | simp [Form.plain, Form.chk, Form.sel, Form.pred, pred3])
    (fun hu => by first | exact ⟨_, rfl, rfl⟩ | exact absurd hu Bool.false_ne_true | exact ⟨_, rfl, hu⟩ | simp_all [Form.plain, Form.chk, Form.sel, Form.pred, pred3, Instr.uniformOk]) (by simp [Form.plain, Form.chk, Form.sel, Form.pred, pred3])

theorem mma : ∀ h x y tile, Statement (.mma h x y tile) := by
  intro h x y tile
  exact ofForm _ h _ _ _ rfl rfl (by decide) rfl (fun hw => by first | rfl | simp_all [Form.plain, Form.chk, Form.sel, Form.pred, pred3]) (fun hw => by first | rfl | simp_all [Form.plain, Form.chk, Form.sel, Form.pred, pred3]) (by first | rfl | simp [Form.plain, Form.chk, Form.sel, Form.pred, pred3])
    (fun hu => by first | exact ⟨_, rfl, rfl⟩ | exact absurd hu Bool.false_ne_true | exact ⟨_, rfl, hu⟩ | simp_all [Form.plain, Form.chk, Form.sel, Form.pred, pred3, Instr.uniformOk]) (by simp [Form.plain, Form.chk, Form.sel, Form.pred, pred3])

theorem mdrn : ∀ h x free p tile, Statement (.mdrn h x free p tile) := by
  intro h x free p tile
  exact ofForm _ h _ _ _ rfl rfl (by decide) rfl (fun hw => by first | rfl | simp_all [Form.plain, Form.chk, Form.sel, Form.pred, pred3]) (fun hw => by first | rfl | simp_all [Form.plain, Form.chk, Form.sel, Form.pred, pred3]) (by first | rfl | simp [Form.plain, Form.chk, Form.sel, Form.pred, pred3])
    (fun hu => by first | exact ⟨_, rfl, rfl⟩ | exact absurd hu Bool.false_ne_true | exact ⟨_, rfl, hu⟩ | simp_all [Form.plain, Form.chk, Form.sel, Form.pred, pred3, Instr.uniformOk]) (by simp [Form.plain, Form.chk, Form.sel, Form.pred, pred3])

theorem cpy : ∀ h x y, Statement (.cpy h x y) := by
  intro h x y
  exact ofForm _ h _ _ _ rfl rfl (by decide) rfl (fun hw => by first | rfl | simp_all [Form.plain, Form.chk, Form.sel, Form.pred, pred3]) (fun hw => by first | rfl | simp_all [Form.plain, Form.chk, Form.sel, Form.pred, pred3]) (by first | rfl | simp [Form.plain, Form.chk, Form.sel, Form.pred, pred3])
    (fun hu => by first | exact ⟨_, rfl, rfl⟩ | exact absurd hu Bool.false_ne_true | exact ⟨_, rfl, hu⟩ | simp_all [Form.plain, Form.chk, Form.sel, Form.pred, pred3, Instr.uniformOk]) (by simp [Form.plain, Form.chk, Form.sel, Form.pred, pred3])

theorem tmm : ∀ h x y tile, Statement (.tmm h x y tile) := by
  intro h x y tile
  exact ofForm _ h _ _ _ rfl rfl (by decide) rfl (fun hw => by first | rfl | simp_all [Form.plain, Form.chk, Form.sel, Form.pred, pred3]) (fun hw => by first | rfl | simp_all [Form.plain, Form.chk, Form.sel, Form.pred, pred3]) (by first | rfl | simp [Form.plain, Form.chk, Form.sel, Form.pred, pred3])
    (fun hu => by first | exact ⟨_, rfl, rfl⟩ | exact absurd hu Bool.false_ne_true | exact ⟨_, rfl, hu⟩ | simp_all [Form.plain, Form.chk, Form.sel, Form.pred, pred3, Instr.uniformOk]) (by simp [Form.plain, Form.chk, Form.sel, Form.pred, pred3])

theorem twait : ∀ h d a imm, Statement (.twait h d a imm) := by
  intro h d a imm
  exact ofForm _ h _ _ _ rfl rfl (by decide) rfl (fun hw => by first | rfl | simp_all [Form.plain, Form.chk, Form.sel, Form.pred, pred3]) (fun hw => by first | rfl | simp_all [Form.plain, Form.chk, Form.sel, Form.pred, pred3]) (by first | rfl | simp [Form.plain, Form.chk, Form.sel, Form.pred, pred3])
    (fun hu => by first | exact ⟨_, rfl, rfl⟩ | exact absurd hu Bool.false_ne_true | exact ⟨_, rfl, hu⟩ | simp_all [Form.plain, Form.chk, Form.sel, Form.pred, pred3, Instr.uniformOk]) (by simp [Form.plain, Form.chk, Form.sel, Form.pred, pred3])

theorem flushc : ∀ h t, Statement (.flushc h t) := by
  intro h t
  exact ofForm _ h _ _ _ rfl rfl (by decide) rfl (fun hw => by first | rfl | simp_all [Form.plain, Form.chk, Form.sel, Form.pred, pred3, formFlushc]) (fun hw => by first | rfl | simp_all [Form.plain, Form.chk, Form.sel, Form.pred, pred3, formFlushc]) (by first | rfl | simp [Form.plain, Form.chk, Form.sel, Form.pred, pred3, formFlushc])
    (fun hu => by first | exact ⟨_, rfl, rfl⟩ | exact absurd hu Bool.false_ne_true | exact ⟨_, rfl, hu⟩ | simp_all [Form.plain, Form.chk, Form.sel, Form.pred, pred3, formFlushc, Instr.uniformOk]) (by simp [Form.plain, Form.chk, Form.sel, Form.pred, pred3, formFlushc])

theorem wopen : ∀ h d a b, Statement (.wopen h d a b) := by
  intro h d a b
  exact ofForm _ h _ _ _ rfl rfl (by decide) rfl (fun hw => by first | rfl | simp_all [Form.plain, Form.chk, Form.sel, Form.pred, pred3]) (fun hw => by first | rfl | simp_all [Form.plain, Form.chk, Form.sel, Form.pred, pred3]) (by first | rfl | simp [Form.plain, Form.chk, Form.sel, Form.pred, pred3])
    (fun hu => by first | exact ⟨_, rfl, rfl⟩ | exact absurd hu Bool.false_ne_true | exact ⟨_, rfl, hu⟩ | simp_all [Form.plain, Form.chk, Form.sel, Form.pred, pred3, Instr.uniformOk]) (by simp [Form.plain, Form.chk, Form.sel, Form.pred, pred3])

theorem wrevoke : ∀ h d b, Statement (.wrevoke h d b) := by
  intro h d b
  exact ofForm _ h _ _ _ rfl rfl (by decide) rfl (fun hw => by first | rfl | simp_all [Form.plain, Form.chk, Form.sel, Form.pred, pred3]) (fun hw => by first | rfl | simp_all [Form.plain, Form.chk, Form.sel, Form.pred, pred3]) (by first | rfl | simp [Form.plain, Form.chk, Form.sel, Form.pred, pred3])
    (fun hu => by first | exact ⟨_, rfl, rfl⟩ | exact absurd hu Bool.false_ne_true | exact ⟨_, rfl, hu⟩ | simp_all [Form.plain, Form.chk, Form.sel, Form.pred, pred3, Instr.uniformOk]) (by simp [Form.plain, Form.chk, Form.sel, Form.pred, pred3])

theorem monset : ∀ h a b, Statement (.monset h a b) := by
  intro h a b
  exact ofForm _ h _ _ _ rfl rfl (by decide) rfl (fun hw => by first | rfl | simp_all [Form.plain, Form.chk, Form.sel, Form.pred, pred3]) (fun hw => by first | rfl | simp_all [Form.plain, Form.chk, Form.sel, Form.pred, pred3]) (by first | rfl | simp [Form.plain, Form.chk, Form.sel, Form.pred, pred3])
    (fun hu => by first | exact ⟨_, rfl, rfl⟩ | exact absurd hu Bool.false_ne_true | exact ⟨_, rfl, hu⟩ | simp_all [Form.plain, Form.chk, Form.sel, Form.pred, pred3, Instr.uniformOk]) (by simp [Form.plain, Form.chk, Form.sel, Form.pred, pred3])

theorem monrd : ∀ h a b, Statement (.monrd h a b) := by
  intro h a b
  exact ofForm _ h _ _ _ rfl rfl (by decide) rfl (fun hw => by first | rfl | simp_all [Form.plain, Form.chk, Form.sel, Form.pred, pred3]) (fun hw => by first | rfl | simp_all [Form.plain, Form.chk, Form.sel, Form.pred, pred3]) (by first | rfl | simp [Form.plain, Form.chk, Form.sel, Form.pred, pred3])
    (fun hu => by first | exact ⟨_, rfl, rfl⟩ | exact absurd hu Bool.false_ne_true | exact ⟨_, rfl, hu⟩ | simp_all [Form.plain, Form.chk, Form.sel, Form.pred, pred3, Instr.uniformOk]) (by simp [Form.plain, Form.chk, Form.sel, Form.pred, pred3])

theorem save : ∀ h d a b, Statement (.save h d a b) := by
  intro h d a b
  exact ofForm _ h _ _ _ rfl rfl (by decide) rfl (fun hw => by first | rfl | simp_all [Form.plain, Form.chk, Form.sel, Form.pred, pred3]) (fun hw => by first | rfl | simp_all [Form.plain, Form.chk, Form.sel, Form.pred, pred3]) (by first | rfl | simp [Form.plain, Form.chk, Form.sel, Form.pred, pred3])
    (fun hu => by first | exact ⟨_, rfl, rfl⟩ | exact absurd hu Bool.false_ne_true | exact ⟨_, rfl, hu⟩ | simp_all [Form.plain, Form.chk, Form.sel, Form.pred, pred3, Instr.uniformOk]) (by simp [Form.plain, Form.chk, Form.sel, Form.pred, pred3])

theorem rest : ∀ h d a b, Statement (.rest h d a b) := by
  intro h d a b
  exact ofForm _ h _ _ _ rfl rfl (by decide) rfl (fun hw => by first | rfl | simp_all [Form.plain, Form.chk, Form.sel, Form.pred, pred3]) (fun hw => by first | rfl | simp_all [Form.plain, Form.chk, Form.sel, Form.pred, pred3]) (by first | rfl | simp [Form.plain, Form.chk, Form.sel, Form.pred, pred3])
    (fun hu => by first | exact ⟨_, rfl, rfl⟩ | exact absurd hu Bool.false_ne_true | exact ⟨_, rfl, hu⟩ | simp_all [Form.plain, Form.chk, Form.sel, Form.pred, pred3, Instr.uniformOk]) (by simp [Form.plain, Form.chk, Form.sel, Form.pred, pred3])

theorem keyld : ∀ h d a b, Statement (.keyld h d a b) := by
  intro h d a b
  exact ofForm _ h _ _ _ rfl rfl (by decide) rfl (fun hw => by first | rfl | simp_all [Form.plain, Form.chk, Form.sel, Form.pred, pred3]) (fun hw => by first | rfl | simp_all [Form.plain, Form.chk, Form.sel, Form.pred, pred3]) (by first | rfl | simp [Form.plain, Form.chk, Form.sel, Form.pred, pred3])
    (fun hu => by first | exact ⟨_, rfl, rfl⟩ | exact absurd hu Bool.false_ne_true | exact ⟨_, rfl, hu⟩ | simp_all [Form.plain, Form.chk, Form.sel, Form.pred, pred3, Instr.uniformOk]) (by simp [Form.plain, Form.chk, Form.sel, Form.pred, pred3])

theorem evict : ∀ h d b, Statement (.evict h d b) := by
  intro h d b
  exact ofForm _ h _ _ _ rfl rfl (by decide) rfl (fun hw => by first | rfl | simp_all [Form.plain, Form.chk, Form.sel, Form.pred, pred3]) (fun hw => by first | rfl | simp_all [Form.plain, Form.chk, Form.sel, Form.pred, pred3]) (by first | rfl | simp [Form.plain, Form.chk, Form.sel, Form.pred, pred3])
    (fun hu => by first | exact ⟨_, rfl, rfl⟩ | exact absurd hu Bool.false_ne_true | exact ⟨_, rfl, hu⟩ | simp_all [Form.plain, Form.chk, Form.sel, Form.pred, pred3, Instr.uniformOk]) (by simp [Form.plain, Form.chk, Form.sel, Form.pred, pred3])

theorem movp : ∀ h d r, Statement (.movp h d r) := by
  intro h d r
  exact ofForm _ h _ _ _ rfl rfl (by decide) rfl (fun hw => by first | rfl | simp_all [Form.plain, Form.chk, Form.sel, Form.pred, pred3]) (fun hw => by first | rfl | simp_all [Form.plain, Form.chk, Form.sel, Form.pred, pred3]) (by first | rfl | simp [Form.plain, Form.chk, Form.sel, Form.pred, pred3])
    (fun hu => by first | exact ⟨_, rfl, rfl⟩ | exact absurd hu Bool.false_ne_true | exact ⟨_, rfl, hu⟩ | simp_all [Form.plain, Form.chk, Form.sel, Form.pred, pred3, Instr.uniformOk]) (by simp [Form.plain, Form.chk, Form.sel, Form.pred, pred3])

theorem movpw : ∀ h d r, Statement (.movpw h d r) := by
  intro h d r
  exact ofForm _ h _ _ _ rfl rfl (by decide) rfl (fun hw => by first | rfl | simp_all [Form.plain, Form.chk, Form.sel, Form.pred, pred3]) (fun hw => by first | rfl | simp_all [Form.plain, Form.chk, Form.sel, Form.pred, pred3]) (by first | rfl | simp [Form.plain, Form.chk, Form.sel, Form.pred, pred3])
    (fun hu => by first | exact ⟨_, rfl, rfl⟩ | exact absurd hu Bool.false_ne_true | exact ⟨_, rfl, hu⟩ | simp_all [Form.plain, Form.chk, Form.sel, Form.pred, pred3, Instr.uniformOk]) (by simp [Form.plain, Form.chk, Form.sel, Form.pred, pred3])

theorem dbrk : ∀ h imm, Statement (.dbrk h imm) := by
  intro h imm
  exact ofForm _ h _ _ _ rfl rfl (by decide) rfl (fun hw => by first | rfl | simp_all [Form.plain, Form.chk, Form.sel, Form.pred, pred3]) (fun hw => by first | rfl | simp_all [Form.plain, Form.chk, Form.sel, Form.pred, pred3]) (by first | rfl | simp [Form.plain, Form.chk, Form.sel, Form.pred, pred3])
    (fun hu => by first | exact ⟨_, rfl, rfl⟩ | exact absurd hu Bool.false_ne_true | exact ⟨_, rfl, hu⟩ | simp_all [Form.plain, Form.chk, Form.sel, Form.pred, pred3, Instr.uniformOk]) (by simp [Form.plain, Form.chk, Form.sel, Form.pred, pred3])

theorem imx (x : BitVec 17) : Statement (.imx x) := by
  intro _ _
  exact ⟨_, rfl, decode_imx x⟩

theorem flockForm : ∀ q, Statement (.flockForm q) := by
  intro _ hw
  cases hw

theorem urgentFibre : ∀ k, Statement (.urgentFibre k) := by
  intro _ hw
  cases hw

theorem scoreboardHoldExpiry : ∀ q, Statement (.scoreboardHoldExpiry q) := by
  intro _ hw
  cases hw

theorem sleepExpiry : ∀ k, Statement (.sleepExpiry k) := by
  intro _ hw
  cases hw

theorem escortDecision : ∀ r, Statement (.escortDecision r) := by
  intro _ hw
  cases hw

theorem departure : ∀ k, Statement (.departure k) := by
  intro _ hw
  cases hw

theorem escortCreditRefill : ∀ die, Statement (.escortCreditRefill die) := by
  intro _ hw
  cases hw

theorem replyArrival : ∀ r a, Statement (.replyArrival r a) := by
  intro _ _ hw
  cases hw

theorem reinstatement : ∀ k, Statement (.reinstatement k) := by
  intro _ hw
  cases hw

theorem displacedTimeout : ∀ k, Statement (.displacedTimeout k) := by
  intro _ hw
  cases hw

theorem lateReplyLanding : ∀ r a, Statement (.lateReplyLanding r a) := by
  intro _ _ hw
  cases hw

theorem ldfRetest : ∀ r, Statement (.ldfRetest r) := by
  intro _ hw
  cases hw

theorem waitcPoll : ∀ r a, Statement (.waitcPoll r a) := by
  intro _ _ hw
  cases hw

theorem l1Writeback : ∀ share, Statement (.l1Writeback share) := by
  intro _ hw
  cases hw

theorem stepTrap : ∀ k, Statement (.stepTrap k) := by
  intro _ hw
  cases hw

theorem codeComparatorHit : ∀ q i, Statement (.codeComparatorHit q i) := by
  intro _ _ hw
  cases hw

theorem dataWatchpointHit : ∀ q i, Statement (.dataWatchpointHit q i) := by
  intro _ _ hw
  cases hw

theorem writeBufferLeave : ∀ k, Statement (.writeBufferLeave k) := by
  intro _ hw
  cases hw

theorem applyWrite : ∀ die i, Statement (.applyWrite die i) := by
  intro _ _ hw
  cases hw

theorem cartAgeExpiry : ∀ die cart, Statement (.cartAgeExpiry die cart) := by
  intro _ _ hw
  cases hw

theorem channelDeliver : ∀ d, Statement (.channelDeliver d) := by
  intro _ hw
  cases hw

theorem packetAcknowledge : ∀ die group peer plane fails, Statement (.packetAcknowledge die group peer plane fails) := by
  intro _ _ _ _ _ hw
  cases hw

theorem engineThreadComplete : ∀ op, Statement (.engineThreadComplete op) := by
  intro _ hw
  cases hw

theorem waitingUnitEnd : ∀ k remote, Statement (.waitingUnitEnd k remote) := by
  intro _ _ hw
  cases hw

theorem mzeroApply : ∀ c t, Statement (.mzeroApply c t) := by
  intro _ _ hw
  cases hw

theorem mmaApply : ∀ c t, Statement (.mmaApply c t) := by
  intro _ _ hw
  cases hw

theorem mdrnApply : ∀ c t remote, Statement (.mdrnApply c t remote) := by
  intro _ _ _ hw
  cases hw

theorem copyLanded : ∀ op remote, Statement (.copyLanded op remote) := by
  intro _ _ hw
  cases hw

theorem tmmChunk : ∀ op remote, Statement (.tmmChunk op remote) := by
  intro _ _ hw
  cases hw

theorem flipEnd : ∀ page, Statement (.flipEnd page) := by
  intro _ hw
  cases hw

theorem snoopResponse : ∀ page, Statement (.snoopResponse page) := by
  intro _ hw
  cases hw

theorem hostWrite : ∀ addr bytes, Statement (.hostWrite addr bytes) := by
  intro _ _ hw
  cases hw

theorem hostRead : ∀ addr n, Statement (.hostRead addr n) := by
  intro _ _ hw
  cases hw

theorem commitLineInvalidate : ∀ slot, Statement (.commitLineInvalidate slot) := by
  intro _ hw
  cases hw

theorem commitLineSweep : Statement (.commitLineSweep) := by
  intro hw
  cases hw

theorem lwinEnable : ∀ v, Statement (.lwinEnable v) := by
  intro _ hw
  cases hw

theorem dependenceSatisfied : ∀ order which, Statement (.dependenceSatisfied order which) := by
  intro _ _ hw
  cases hw

theorem dependencePoll : ∀ order which, Statement (.dependencePoll order which) := by
  intro _ _ hw
  cases hw

theorem parishPlacement : ∀ die, Statement (.parishPlacement die) := by
  intro _ hw
  cases hw

theorem forcedDeparture : ∀ k, Statement (.forcedDeparture k) := by
  intro _ hw
  cases hw

theorem stealRequest : ∀ thief, Statement (.stealRequest thief) := by
  intro _ hw
  cases hw

theorem stealAnswer : ∀ thief, Statement (.stealAnswer thief) := by
  intro _ hw
  cases hw

theorem parishRetire : ∀ ctx pid, Statement (.parishRetire ctx pid) := by
  intro _ _ hw
  cases hw

theorem launchCompletion : ∀ ctx, Statement (.launchCompletion ctx) := by
  intro _ hw
  cases hw

theorem contextHalt : ∀ ctx i, Statement (.contextHalt ctx i) := by
  intro _ _ hw
  cases hw

theorem haltComplete : ∀ ctx, Statement (.haltComplete ctx) := by
  intro _ hw
  cases hw

theorem lateKind1Reinstate : ∀ k, Statement (.lateKind1Reinstate k) := by
  intro _ hw
  cases hw

theorem xinv : ∀ t v, Statement (.xinv t v) := by
  intro _ _ hw
  cases hw

theorem invalidationComplete : ∀ t, Statement (.invalidationComplete t) := by
  intro _ hw
  cases hw

theorem trows : ∀ t v, Statement (.trows t v) := by
  intro _ _ hw
  cases hw

theorem ctxkill : ∀ v, Statement (.ctxkill v) := by
  intro _ hw
  cases hw

theorem trst : ∀ t, Statement (.trst t) := by
  intro _ hw
  cases hw

theorem tenancyResetDone : ∀ t, Statement (.tenancyResetDone t) := by
  intro _ hw
  cases hw

theorem registerWrite : ∀ off v, Statement (.registerWrite off v) := by
  intro _ _ hw
  cases hw

theorem quarterStop : ∀ q, Statement (.quarterStop q) := by
  intro _ hw
  cases hw

theorem quarterRelease : ∀ q stl, Statement (.quarterRelease q stl) := by
  intro _ _ hw
  cases hw

theorem stallSample : ∀ q, Statement (.stallSample q) := by
  intro _ hw
  cases hw

theorem idcode : Statement (.idcode) := by
  intro hw
  cases hw

theorem samplePreload : ∀ pins, Statement (.samplePreload pins) := by
  intro _ hw
  cases hw

theorem extest : Statement (.extest) := by
  intro hw
  cases hw

theorem curfew : ∀ bit, Statement (.curfew bit) := by
  intro _ hw
  cases hw

theorem saddr : ∀ v, Statement (.saddr v) := by
  intro _ hw
  cases hw

theorem sdata : Statement (.sdata) := by
  intro hw
  cases hw

theorem bypass : ∀ code, Statement (.bypass code) := by
  intro _ hw
  cases hw

theorem packageReset : Statement (.packageReset) := by
  intro hw
  cases hw

theorem doeAttestation : ∀ nonce, Statement (.doeAttestation nonce) := by
  intro _ hw
  cases hw

theorem doeCertChain : Statement (.doeCertChain) := by
  intro hw
  cases hw

theorem doeExtend : ∀ i digest, Statement (.doeExtend i digest) := by
  intro _ _ hw
  cases hw

theorem doeKekInstall : ∀ t pub iv wrapped tag, Statement (.doeKekInstall t pub iv wrapped tag) := by
  intro _ _ _ _ _ hw
  cases hw

theorem doeUnknown : ∀ ty, Statement (.doeUnknown ty) := by
  intro _ hw
  cases hw

theorem clockEvaluation : ∀ power sensors, Statement (.clockEvaluation power sensors) := by
  intro _ _ hw
  cases hw

theorem thermalTrip : ∀ sensor, Statement (.thermalTrip sensor) := by
  intro _ hw
  cases hw

theorem sliceRetire : ∀ die slice newMap, Statement (.sliceRetire die slice newMap) := by
  intro _ _ _ hw
  cases hw

theorem graceWindowEnd : ∀ die, Statement (.graceWindowEnd die) := by
  intro _ hw
  cases hw

theorem planeRemap : ∀ plane port, Statement (.planeRemap plane port) := by
  intro _ _ hw
  cases hw

theorem flitReceive : ∀ port f, Statement (.flitReceive port f) := by
  intro _ _ hw
  cases hw

theorem replayRequest : ∀ port seq, Statement (.replayRequest port seq) := by
  intro _ _ hw
  cases hw

theorem bufferHold : ∀ port, Statement (.bufferHold port) := by
  intro _ hw
  cases hw

theorem bufferRelease : ∀ port, Statement (.bufferRelease port) := by
  intro _ hw
  cases hw

theorem linkDown : ∀ port, Statement (.linkDown port) := by
  intro _ hw
  cases hw

theorem linkSilenceTimeout : ∀ port, Statement (.linkSilenceTimeout port) := by
  intro _ hw
  cases hw

theorem holdHintOn : ∀ port peer, Statement (.holdHintOn port peer) := by
  intro _ _ hw
  cases hw

theorem holdHintOff : ∀ port peer, Statement (.holdHintOff port peer) := by
  intro _ _ hw
  cases hw

theorem holdHintExpiry : ∀ port peer, Statement (.holdHintExpiry port peer) := by
  intro _ _ hw
  cases hw

theorem peerProbe : ∀ peer, Statement (.peerProbe peer) := by
  intro _ hw
  cases hw

theorem peerLost : ∀ peer, Statement (.peerLost peer) := by
  intro _ hw
  cases hw

theorem peerReadmit : ∀ peer, Statement (.peerReadmit peer) := by
  intro _ hw
  cases hw

theorem hostSnoop : ∀ addr, Statement (.hostSnoop addr) := by
  intro _ hw
  cases hw

theorem uncorrectableError : ∀ loc, Statement (.uncorrectableError loc) := by
  intro _ hw
  cases hw

theorem linkTrained : ∀ port, Statement (.linkTrained port) := by
  intro _ hw
  cases hw

theorem peerNumberAssign : ∀ n, Statement (.peerNumberAssign n) := by
  intro _ hw
  cases hw

theorem resetEnd : ∀ image sig pub config dispatcher, Statement (.resetEnd image sig pub config dispatcher) := by
  intro _ _ _ _ _ hw
  cases hw

theorem stewardKeyInstall : ∀ slot ten key, Statement (.stewardKeyInstall slot ten key) := by
  intro _ _ _ hw
  cases hw

end Sys2Proof.Laws.RoundTrip
end

