-- ==== Sys2Proof/Safety.lean ====
section
/-! DEFINITION. What claims are stated in: when a step goes on, the conditions that every step keeps, and what it is for a unit to issue and to change only what it should. -/

namespace Sys2Proof.Safety

open Sys2Proof.Machine

/-! ### Whole steps -/

/-- The step from a state answers a next state. -/
def GoesOn (s : State) : Prop := ∃ t, step s = .next t

/-- Memory is in its canonical form: addresses strictly rise and no listed byte is the blank one. -/
def MemCanonical (s : State) : Prop := s.mem.wf = true

/-- A fibre that has ended stays only while writes of it have not left its write buffer (R91). -/
def NoIdleEnded (s : State) : Prop := ∀ f ∈ s.fibres, f.res = .ended → f.wb ≠ []

/-- An answer owed to a peer waits only for writes that are still in an apply queue (R278). -/
def NoOverdueAck (s : State) : Prop := ∀ a ∈ s.acks, ∃ w ∈ s.aq, a.wids.contains w.wid = true

/-- The outside event at the head of the agenda is an access of the host outside the HDM range (R25, R237). -/
def StrayHostAccess (s : State) : Prop :=
  match s.agenda with
  | .event (.hostRead a n) :: _ => s.hostReach a n = false
  | .event (.hostWrite a bs) :: _ => s.hostReach a bs.length = false
  | _ => False

/-! ### Units

A unit issues for the flock of the current quarter. `s.beginUnit fl` is the state in which every member has advanced past the unit (R83); what a unit does is said relative to it. -/

/-- Flock `fl` is the one that issues, and no active member owes a follow-on MMA to its CPY (R212). -/
structure Issues (h : Hdr) (fl : Flock) (s : State) : Prop where
  flock : s.flockOf? s.cur = some fl
  free : ∀ f ∈ (unitCtx h fl s).act, ∀ g, s.fibre? f.key = some g → g.foln = none

/-- What the end of a unit of flock `fl` makes of a fibre: where the chain ends, a member that it has moved goes where it leads (R56). -/
def landed (h : Hdr) (fl : Flock) (g : Fibre) : Fibre := if h.c = false ∧ fl.members.contains g.key then g.land else g

/-- `x` after the end of the unit, but for flocks. -/
def ends (h : Hdr) (fl : Flock) (x : State) : State := { x with fibres := x.fibres.map (landed h fl) }

/-- The state once the members have passed the unit of flock `fl`; where their chain ends with it, each has gone where the chain leads. -/
def passed (h : Hdr) (fl : Flock) (s : State) : State := ends h fl (s.beginUnit fl)

/-- The unit left everything as it stood once the members had advanced, but for fibres and flocks; and each fibre is `w o` of what it was where it has a source `o` (itself, or the leader with U = 1, as they stood before the chain: R67, R84), else what it was; at the end of a chain the members that it has moved go where it leads. -/
structure Writes (h : Hdr) (fl : Flock) (s t : State) (w : Fibre → Fibre → Fibre) : Prop where
  rest : t = { s.beginUnit fl with fibres := t.fibres, flocks := t.flocks }
  fibre : ∀ k, t.fibre? k = ((s.beginUnit fl).fibre? k).map fun g => landed h fl (
    match (unitCtx h fl s).source h.u k with
    | some o => w o g
    | none => g)

/-- An instruction completes on every flock that issues it, and writes `w` and nothing else. -/
def Gives (h : Hdr) (i : Instr) (w : UnitCtx → Fibre → Fibre → Fibre) : Prop :=
  ∀ fl s, Issues h fl s → ∃ t, exec i s = .next t ∧ Writes h fl s t (w (unitCtx h fl s))

/-- Flock `fl` issues a unit in which one member is active: `f` as it stood before the chain, `g` as it stands now. -/
structure Solo (h : Hdr) (fl : Flock) (f g : Fibre) (s : State) : Prop where
  flock : s.flockOf? s.cur = some fl
  act : (unitCtx h fl s).act = [f]
  member : f.key ∈ fl.members
  here : s.fibre? f.key = some g
  free : g.foln = none
  live : g.wait ≠ .halted

/-- A load whose unit may be uniform: with U = 1 the leader alone reads (R84). -/
def isLoad : Instr → Bool
  | .ld .. | .ldNarrow .. | .ldAcq .. | .lds .. | .ldsNarrow .. | .ldv .. => true
  | _ => false

/-- The units that act for one active member after another: control, memory, atomics, synchronising, engine, fabric and privileged units. The others write each active member's registers from its snapshot, or move all members or none (R75, R88). -/
def actsInTurn : Instr → Bool
  | .bra .. | .call .. | .fork .. | .join .. | .quit .. | .yield .. | .sleep .. | .resume .. | .trap .. | .movsw .. => true
  | .ld .. | .ldNarrow .. | .st .. | .stNarrow .. | .lds .. | .ldsNarrow .. | .sts .. | .stsNarrow .. | .ldf .. | .stf .. | .pref .. | .escm .. | .ldAcq .. | .stRel .. => true
  | .ldv .. | .casv .. | .rwl .. | .valset .. | .waitcSigned .. | .waitcUnsigned .. | .fence .. | .bar .. => true
  | .atomAdd .. | .atomAnd .. | .atomOr .. | .atomXor .. | .atomMin .. | .atomMax .. | .atomExch .. | .atomCas .. | .atomFadd .. => true
  | .atomOrdAdd .. | .atomOrdAnd .. | .atomOrdOr .. | .atomOrdXor .. | .atomOrdMin .. | .atomOrdMax .. | .atomOrdExch .. | .atomOrdCas .. | .atomOrdFadd .. => true
  | .redAdd .. | .redAnd .. | .redOr .. | .redXor .. | .redMin .. | .redMax .. | .redFadd .. => true
  | .tdset .. | .tdget .. | .tdinv .. | .mscl .. | .mzero .. | .mma .. | .mdrn .. | .cpy .. | .tmm .. | .twait .. => true
  | .flushc .. | .wopen .. | .wrevoke .. | .monset .. | .monrd .. | .save .. | .rest .. | .keyld .. | .evict .. | .movp .. | .movpw .. | .dbrk .. => true
  | _ => false

/-- The members in `who` act one after the other: each does, from the state in which the one before it left the machine, what it would do as the only active member; and then the unit ends. -/
def InTurn (h : Hdr) (i : Instr) (who : List Fibre → List Fibre) : Prop := ∃ part : UnitCtx → Fibre → State → State, ∀ fl s, Issues h fl s →
  let c := unitCtx h fl s
  exec i s = .next (((who c.act).foldl (fun x f => part { c with act := [f] } f x) (s.beginUnit fl)).closeUnit h.c fl)

/-! ### Numbers (R101, R103) -/

/-- The width W of an integer type. -/
def width (t : IntTy) : Nat := 32 * t.n
/-- An operand of an integer type as a number, read as signed or not. -/
def num (signed : Bool) (t : IntTy) (r : RegNo) (o : Fibre) : Int :=
  if t.n = 1 then (if signed then (o.reg r).toInt else (o.reg r).toNat)
  else (if signed then (o.pair r).toInt else (o.pair r).toNat)
/-- A number mod 2^W written to a destination. -/
def put (t : IntTy) (d : RegNo) (v : Int) (g : Fibre) : Fibre :=
  if t.n = 1 then g.setReg d (BitVec.ofInt 32 v) else g.setPair d (BitVec.ofInt 64 v)
/-- A number held within the range of its type. -/
def sat (t : IntTy) (v : Int) : Int :=
  if t.signed then max (-2 ^ (width t - 1)) (min (2 ^ (width t - 1) - 1) v) else max 0 (min (2 ^ width t - 1) v)

/-- The immediate of a unit: the field itself, or x17 above it behind an IMX; signed (R62). -/
def imm {n : Nat} (c : UnitCtx) (i : BitVec n) : Int :=
  match c.imxs.getLast? with
  | none => i.toInt
  | some x => x.toInt * 2 ^ n + i.toNat

/-- The exact value of a finite number (R110). -/
def rational : FV → Option ℚ
  | .fin neg m e => some ((if neg then -1 else 1) * (m : ℚ) * (2 : ℚ) ^ e)
  | .inf _ | .nan => none

/-- The sign of a value that is no NaN. -/
def negative : FV → Bool
  | .fin neg _ _ | .inf neg => neg
  | .nan => false

/-- `v` is the exact number `w`, not zero, rounded once to a format (R112). -/
def RoundsTo (f : Fmt) (r : Rnd) (w : ℚ) (v : Nat) : Prop := ∀ neg m e, rational (.fin neg m e) = some w → v = f.pack r (.fin neg m e)

/-- `v` is what the table of R114 gives for the sum of `x` and `y`. -/
structure IsSum (f : Fmt) (r : Rnd) (x y : FV) (v : Nat) : Prop where
  nan : x = .nan ∨ y = .nan → v = f.nan
  both : ∀ n p, x = .inf n → y = .inf p → v = if n = p then f.signBit n + f.inf.getD 0 else f.nan
  left : ∀ n k, x = .inf n → rational y = some k → v = f.signBit n + f.inf.getD 0
  right : ∀ n k, y = .inf n → rational x = some k → v = f.signBit n + f.inf.getD 0
  zero : ∀ p q, rational x = some p → rational y = some q → p + q = 0 →
    v = f.signBit (if p = 0 ∧ negative x = negative y then negative x else decide (r = .rd))
  finite : ∀ p q, rational x = some p → rational y = some q → p + q ≠ 0 → RoundsTo f r (p + q) v

/-- `t` is the exact product of `x` and `y`, by the table of R114. -/
structure IsProduct (x y t : FV) : Prop where
  nan : x = .nan ∨ y = .nan → t = .nan
  invalid : (∃ n, x = .inf n ∧ rational y = some 0) ∨ (∃ n, y = .inf n ∧ rational x = some 0) → t = .nan
  infinite : ∀ n, x = .inf n ∧ y ≠ .nan ∧ rational y ≠ some 0 ∨ y = .inf n ∧ x ≠ .nan ∧ rational x ≠ some 0 → t = .inf (negative x != negative y)
  finite : ∀ p q, rational x = some p → rational y = some q → rational t = some (p * q) ∧ negative t = (negative x != negative y)

/-- `v` is a value rounded once: a NaN, an infinity or a zero as it is. -/
structure IsRounded (f : Fmt) (r : Rnd) (t : FV) (v : Nat) : Prop where
  nan : t = .nan → v = f.nan
  infinite : ∀ n, t = .inf n → v = f.signBit n + f.inf.getD 0
  zero : rational t = some 0 → v = f.signBit (negative t)
  finite : ∀ p, rational t = some p → p ≠ 0 → RoundsTo f r p v

/-! ### What one fibre becomes -/

/-- What advancing past a unit of flock `fl` makes of a fibre (R83). -/
def advanced (s : State) (fl : Flock) (f : Fibre) : Fibre :=
  if fl.members.contains f.key then
    { f with
      after := if s.begins fl f then (f.takeUp fl.uaddr).after else f.after
      owed := if s.begins fl f then (f.takeUp fl.uaddr).owed else f.owed
      ip := if f.ip = fl.uaddr then nextWord fl.addr else f.ip
      lastIssue := s.now
      readyFrom := none
      cmpFrom := 0
      cmpPast := if f.cmpPast = some fl.uaddr then none else f.cmpPast
      stepDue := f.fsBit fsST && !s.inHandler f.key fl.uaddr }
  else f

/-- A member of the flock once it has passed the unit. -/
def past (h : Hdr) (fl : Flock) (s : State) (f : Fibre) : Fibre := landed h fl (advanced s fl f)

/-- `t` is `x` but for flocks and for the fibre of key `k`, which is `g`. -/
structure Becomes (x t : State) (k : FKey) (g : Fibre) : Prop where
  rest : t = { x with fibres := t.fibres, flocks := t.flocks }
  fibre : ∀ j, t.fibre? j = if j = k then some g else x.fibre? j

/-- Every active member lives, and no two are one fibre. -/
structure ActiveLive (h : Hdr) (fl : Flock) (s : State) : Prop where
  live : ∀ f ∈ (unitCtx h fl s).act, ∃ g, s.fibre? f.key = some g ∧ g.wait ≠ .halted
  apart : ((unitCtx h fl s).act.map fun f => f.key).Nodup

/-- The unit wrote `w` to each active member, and moved no other fibre. The lookahead window of each of their escorting units is over (R86). -/
structure Moves (h : Hdr) (fl : Flock) (s t : State) (w : Fibre → Fibre → Fibre) : Prop where
  rest : t = { s.beginUnit fl with fibres := t.fibres, flocks := t.flocks, reqs := t.reqs }
  reqs : t.reqs = (s.beginUnit fl).reqs.map fun r =>
    if r.asks = true ∧ ∃ f ∈ (unitCtx h fl s).act, f.key = r.key then { r with left := 0 } else r
  fibre : ∀ k, t.fibre? k = ((s.beginUnit fl).fibre? k).map fun g => landed h fl (
    match (unitCtx h fl s).source false k with
    | some o => w o g
    | none => g)

/-! ### Requests, buffered writes, operations -/

/-- `t` is `x` after fibre `k` has met a leaf: pages and contexts may be marked, the host may be asked, and the fibre's view may have grown (R127, R146). -/
structure Meets (x t : State) (k : FKey) : Prop where
  rest : t = { x with ctxs := t.ctxs, pages := t.pages, out := t.out, kn := t.kn, fibres := t.fibres }
  fibre : ∃ v : Fibre → View, ∀ j, t.fibre? j = (x.fibre? j).map fun g => if j = k then { g with view := v g } else g

/-- No leaf of mode 11, whose accesses are counted (R129), maps the 192 bytes of a frame at `va`. -/
def UncountedFrame (s : State) (k : FKey) (va : Nat) : Prop := ∀ i < 12, ∀ l, s.translate (s.tenOf k) (va + 16 * i) = .ok l → l.mode ≠ 3

/-- Fibre `k` of `s`, which stands as `g`, can take a recoverable fault: it is resident with nothing of its chain waiting, %fault is set, FP is clear, and the frame may be written (R69, R307). -/
structure CanTake (s : State) (k : FKey) (g : Fibre) : Prop where
  alone : g.takesFault = true ∧ g.wait ≠ .halted
  armed : g.fault ≠ 0#64 ∧ g.fsBit fsFP = false
  frame : s.frameOk k g.fault.toNat = true ∧ UncountedFrame s k g.fault.toNat

/-- `t` is what `x` becomes when fibre `k`, which stands as `o`, takes recoverable fault `r`: twelve plain writes of 16 bytes, the frame of R306, enter its write buffer in address order from %fault on; FP rises; it goes on at %cont, outside its flock, with its registers and predicates as they were (R307). -/
structure TakesFault (x t : State) (k : FKey) (o : Fibre) (r : FaultRec) : Prop where
  mem : t.mem = x.mem
  others : ∀ j, j ≠ k → t.fibre? j = x.fibre? j
  outside : ∀ y ∈ t.flocks, k ∉ y.members
  fibre : ∃ g ws, t.fibre? k = some g ∧ g.ip = o.cont &&& ~~~3#64 ∧ g.fsBit fsFP = true ∧ g.waits = [] ∧ g.regs = o.regs ∧ g.preds = o.preds
    ∧ g.cont = o.cont ∧ g.fault = o.fault ∧ g.esc = o.esc
    ∧ g.wb = o.wb ++ ws ∧ ws.length = 12 ∧ (∀ w ∈ ws, w.n = 16 ∧ w.rel = false)
    ∧ ws.map (fun w => w.pva) = (List.range 12).map (fun j => o.fault.toNat + 16 * j)
    ∧ ws.flatMap (fun w => match w.kind with
        | .store bs => bs
        | _ => []) = frameBytes o (x.share k.share) r

/-- `t` is `x` with one more outstanding request `r`; the host may have been asked for its line (R144). -/
structure Asks (x t : State) (r : Req) : Prop where
  rest : t = { x with reqs := x.reqs ++ [r], serial := x.serial + 1, pages := t.pages, out := t.out, flocks := t.flocks }

/-- What a request of member `f` for `n` bytes holds as it issues: what it reads, where it goes, the registers that wait for it, the budget, and with `esc` the mask of its escort with the words as they stand (R86, R162). -/
structure IsRequest (c : UnitCtx) (f : Fibre) (va n : Nat) (d0 : Dest) (kind : ReqKind) (acq rel : Bool) (d : RegNo) (dw left : Nat) (esc : Option Word) (r : Req) : Prop where
  whose : r.key = f.key ∧ r.unitAddr = c.uaddr ∧ r.seq = c.seq ∧ r.also = []
  place : r.va = va ∧ r.n = n ∧ r.dest = d0 ∧ r.kind = kind
  order : r.acq = acq ∧ r.rel = rel
  result : r.dst = d ∧ r.dw = dw ∧ r.left = left
  escort : r.esc = esc.map (fun m => (m, maskRegs m f.regs)) ∧ r.asks = esc.isSome ∧ r.decided = !esc.isSome ∧ r.granted = false
  fresh : r.ans = none ∧ r.bell = false

/-- `t` is `x` with write `w` at the tail of the write buffer of fibre `k`, whose view names it. The L1 of its share may take the line, and give up another (R132). -/
structure Buffers (x t : State) (k : FKey) (w : BufWrite) : Prop where
  rest : t = { x with fibres := t.fibres, serial := x.serial + 1, shares := t.shares, flocks := t.flocks, l1 := t.l1, lines := t.lines }
  fibre : ∀ j, t.fibre? j = if j = k then (x.fibre? k).map fun g => { g with wb := g.wb ++ [w], view := g.view.name w.wid } else x.fibre? j

/-- `t` is `x` with one more engine operation, and fibre `k` waits for it as its unit asks. -/
structure Waits (x t : State) (k : FKey) (op : EngineOp) (wt : Wait) : Prop where
  rest : t = { x with fibres := t.fibres, eops := x.eops ++ [op], serial := x.serial + 1, flocks := t.flocks }
  fibre : ∀ j, t.fibre? j = if j = k then (x.fibre? k).map (Fibre.await op.seq op.unitAddr wt) else x.fibre? j

/-- No slice is full: a line that is filled into one evicts none (R138). -/
def Roomy (s : State) : Prop := ∀ sl, (s.sliceLines sl).length < 8192

/-- The L1 of a share holds no dirty word that it does not own: there is nothing that it writes back (R132). -/
def Undirtied (s : State) (sh : Nat) : Prop := ∀ f ∈ s.fibres, f.key.share = sh → ∀ w ∈ f.wb, w.cached = false

/-- An operation as member `f` of a unit starts it. -/
structure IsOp (c : UnitCtx) (f : Fibre) (s : State) (kind : EKind) (op : EngineOp) : Prop where
  whose : op.key = f.key ∧ op.ctx = s.ctxOf f.key ∧ op.unitAddr = c.uaddr ∧ op.seq = c.seq
  what : op.kind = kind
  fresh : op.accepted = none ∧ op.landed = false ∧ op.flt = none ∧ op.ended = false ∧ op.step = 0

/-! ### Events -/

/-- `exec` answers a next state, of which `p` holds. -/
def Runs (i : Instr) (s : State) (p : State → Prop) : Prop := ∃ t, exec i s = .next t ∧ p t

/-- `t` is `x` but for flocks, contexts and fibres, and context `c` of it halts: it holds the reports `is`, and each fibre of it is frozen (R311). -/
structure Halts (x t : State) (c : Nat) (i : HaltInfo) : Prop where
  rest : t = { x with fibres := t.fibres, flocks := t.flocks, ctxs := t.ctxs }
  report : ∃ y h, t.ctxs.get? c = some y ∧ y.halting = some h ∧ i ∈ h.infos
  others : ∀ j, j ≠ c → t.ctxs.get? j = x.ctxs.get? j

/-- Instruction `i`, issued for the one active member `f` of flock `fl`, which stands as `g`, raises recoverable fault `r` (R69, R307). -/
structure Raises (h : Hdr) (fl : Flock) (f g : Fibre) (s : State) (i : Instr) (r : FaultRec) : Prop where
  /-- it takes the fault where it can -/
  taken : CanTake s f.key g → ∃ t, exec i s = .next t ∧ TakesFault (passed h fl s) t f.key (advanced s fl g) r
  /-- it waits outside its flock, the fault behind the older units of its chain that still wait -/
  waits : g.takesFault = false → (∀ w ∈ g.waits, w.seq ≤ s.serial) →
    ∃ t, exec i s = .next t ∧ Becomes (passed h fl s) t f.key { (advanced s fl g).cutAt r.rip with rfaults := g.rfaults ++ [r] } ∧ ∀ x ∈ t.flocks, f.key ∉ x.members
  /-- it cannot be delivered, and the context halts with class FRAME: without %fault, with a frame armed, or with a frame that cannot be written -/
  halts : ∀ x, s.ctxs.get? (s.ctxOf f.key) = some x → x.halting = none → g.takesFault = true →
    let stops (cause : Nat) : Prop := ∃ t, exec i s = .next t ∧ Halts (passed h fl s) t (s.ctxOf f.key) ⟨15, cause, r.unit, some f.key, 1⟩
      ∧ ∀ y ∈ t.fibres, s.ctxOf y.key = s.ctxOf f.key → y.wait = .halted
    (g.fault = 0#64 → stops 0x25) ∧ (g.fault ≠ 0#64 → g.fsBit fsFP = true → stops 0x26)
    ∧ (g.fault ≠ 0#64 → g.fsBit fsFP = false → s.frameOk f.key g.fault.toNat = false → stops 0x27)

end Sys2Proof.Safety
end

