-- ==== Sys2Proof/Certificates/Slice0/Obligations.lean ====
section
/-! DEFINITION. The statements for the provers. They come from the numbered rules of the manual, file by file; each names the rules it states. -/


section

open Sys2Proof Sys2Proof.Machine Sys2Proof.Safety

/-! ### Integer, address and immediate units (R103 to R109) -/

/-- R103, its arithmetic rows: IADD, ISUB, IMUL, IMAD, IMULH, IADDS, ISUBS, IMIN, IMAX, IABS and INEG write their number mod 2^W to the destination of every active member, and change nothing else. R104: so do IDIV and IREM with the quotient and the remainder, and with the cases that replace the ordinary rule. Neither faults. -/
def Obligations.IntegerArithmeticWrites : Prop := ∀ (h : Hdr) (d a b : RegNo) (t : IntTy),
  Gives h (.iadd h d a b t) (fun _ o g => put t d (num false t a o + num false t b o) g)
  ∧ Gives h (.isub h d a b t) (fun _ o g => put t d (num false t a o - num false t b o) g)
  ∧ Gives h (.imul h d a b t) (fun _ o g => put t d (num false t a o * num false t b o) g)
  ∧ Gives h (.imad h d a b t) (fun _ o g => put t d (num false t a o * num false t b o + num false t d o) g)
  ∧ Gives h (.imulh h d a b t) (fun _ o g => put t d (num t.signed t a o * num t.signed t b o / 2 ^ width t) g)
  ∧ Gives h (.iadds h d a b t) (fun _ o g => put t d (sat t (num t.signed t a o + num t.signed t b o)) g)
  ∧ Gives h (.isubs h d a b t) (fun _ o g => put t d (sat t (num t.signed t a o - num t.signed t b o)) g)
  ∧ Gives h (.imin h d a b t) (fun _ o g => put t d (min (num t.signed t a o) (num t.signed t b o)) g)
  ∧ Gives h (.imax h d a b t) (fun _ o g => put t d (max (num t.signed t a o) (num t.signed t b o)) g)
  ∧ Gives h (.iabs h d a t) (fun _ o g => put t d (if t.signed then min |num true t a o| (2 ^ (width t - 1) - 1) else |num true t a o|) g)
  ∧ Gives h (.ineg h d a t) (fun _ o g => put t d (if t.signed then min (-num true t a o) (2 ^ (width t - 1) - 1) else -num true t a o) g)
  ∧ let top : Int := 2 ^ (width t - 1)
  Gives h (.idiv h d a b t) (fun _ o g =>
    let x := num t.signed t a o
    let y := num t.signed t b o
    put t d (if y = 0 then (if t.signed then (if 0 ≤ x then top - 1 else -top) else 2 ^ width t - 1)
      else if t.signed ∧ x = -top ∧ y = -1 then -top else Int.tdiv x y) g)
  ∧ Gives h (.irem h d a b t) (fun _ o g =>
    let x := num t.signed t a o
    let y := num t.signed t b o
    put t d (if y = 0 then x else if t.signed ∧ x = -top ∧ y = -1 then 0 else x - y * Int.tdiv x y) g)

/-- R103, its bitwise and counting rows: AND, OR, XOR, NOT and BREV by bits, POPC and CLZ as counts. R105, R106: SHL, SHR, SAR and ROT by the low 8 bits of gb, which is one register in both widths (a count of W or more shifts everything out); BFE takes the field of p and n bits out of ga, and BFI puts the low n bits of ga there in gd. -/
def Obligations.BitwiseAndShiftsWrite : Prop :=
  (∀ (h : Hdr) (d a b : RegNo) (t : IntTy),
    let both (x : Word) (y : DWord) (g : Fibre) : Fibre := if t.n = 1 then g.setReg d x else g.setPair d y
    Gives h (.and h d a b t) (fun _ o => both (o.reg a &&& o.reg b) (o.pair a &&& o.pair b))
    ∧ Gives h (.or h d a b t) (fun _ o => both (o.reg a ||| o.reg b) (o.pair a ||| o.pair b))
    ∧ Gives h (.xor h d a b t) (fun _ o => both (o.reg a ^^^ o.reg b) (o.pair a ^^^ o.pair b))
    ∧ Gives h (.not h d a t) (fun _ o => both (~~~o.reg a) (~~~o.pair a))
    ∧ Gives h (.brev h d a t) (fun _ o => both (BitVec.ofFnLE fun i => (o.reg a).getLsbD (31 - i.val)) (BitVec.ofFnLE fun i => (o.pair a).getLsbD (63 - i.val)))
    ∧ Gives h (.popc h d a t) (fun _ o g => put t d (((List.range (width t)).countP fun i => (num false t a o).toNat.testBit i : Nat) : Int) g)
    ∧ Gives h (.clz h d a t) (fun _ o g => put t d (((List.range (width t)).countP fun i => decide (num false t a o < 2 ^ i) : Nat) : Int) g))
  ∧ (∀ (h : Hdr) (d a b : RegNo) (t : IntTy),
    let count (o : Fibre) : Nat := (o.reg b).toNat % 256
    let p (o : Fibre) : Nat := min ((o.reg b).toNat % 256) (width t)
    let n (o : Fibre) : Nat := min ((o.reg b).toNat / 256 % 256) (width t - p o)
    Gives h (.shl h d a b t) (fun _ o g => put t d (if count o < width t then num false t a o * 2 ^ count o else 0) g)
    ∧ Gives h (.shr h d a b t) (fun _ o g => put t d (if count o < width t then num false t a o / 2 ^ count o else 0) g)
    ∧ Gives h (.sar h d a b t) (fun _ o g =>
        put t d (if count o < width t then num true t a o / 2 ^ count o else if 0 ≤ num true t a o then 0 else -1) g)
    ∧ Gives h (.rot h d a b t) (fun _ o g =>
        put t d (num false t a o * 2 ^ (count o % width t) + num false t a o / 2 ^ (width t - count o % width t)) g)
    ∧ Gives h (.bfe h d a b t) (fun _ o g =>
      let v := num false t a o / 2 ^ p o % 2 ^ n o
      put t d (if n o = 0 then 0 else if t.signed ∧ 2 ^ (n o - 1) ≤ v then v - 2 ^ n o else v) g)
    ∧ Gives h (.bfi h d a b t) (fun _ o g =>
      let x := num false t d o
      put t d (x - x / 2 ^ p o % 2 ^ n o * 2 ^ p o + num false t a o % 2 ^ n o * 2 ^ p o) g))

/-- R107 to R109: ADDP, SUBP and ADDPI on 64-bit pairs; the 32-bit immediate forms, with imm7 or x17 : imm7 behind an IMX, sign-extended (a shift count is 0 to 31: decoding sees to that, R72); MOVI, and MOVH, which puts the low 16 bits of its unsigned immediate above the low half of gd. -/
def Obligations.AddressAndImmediateFormsWrite : Prop := ∀ (h : Hdr) (d a b : RegNo) (sh : BitVec 2) (i : BitVec 7) (j : BitVec 12),
  let v (c : UnitCtx) : Word := BitVec.ofInt 32 (imm c i)
  Gives h (.addp h d a b sh) (fun _ o g => g.setPair d (BitVec.ofInt 64 ((o.pair a).toInt + (o.reg b).toInt * 2 ^ sh.toNat)))
  ∧ Gives h (.subp h d a b) (fun _ o g => g.setPair d (BitVec.ofInt 64 ((o.pair a).toInt - (o.pair b).toInt)))
  ∧ Gives h (.addpi h d a i) (fun c o g => g.setPair d (BitVec.ofInt 64 ((o.pair a).toInt + imm c i)))
  ∧ Gives h (.iaddi h d a i) (fun c o g => g.setReg d (o.reg a + v c))
  ∧ Gives h (.andi h d a i) (fun c o g => g.setReg d (o.reg a &&& v c))
  ∧ Gives h (.ori h d a i) (fun c o g => g.setReg d (o.reg a ||| v c))
  ∧ Gives h (.xori h d a i) (fun c o g => g.setReg d (o.reg a ^^^ v c))
  ∧ Gives h (.imuli h d a i) (fun c o g => g.setReg d (o.reg a * v c))
  ∧ Gives h (.shli h d a i) (fun c o g => put .b32 d (num false .b32 a o * 2 ^ (imm c i % 32).toNat) g)
  ∧ Gives h (.shri h d a i) (fun c o g => put .b32 d (num false .b32 a o / 2 ^ (imm c i % 32).toNat) g)
  ∧ Gives h (.sari h d a i) (fun c o g => put .b32 d (num true .b32 a o / 2 ^ (imm c i % 32).toNat) g)
  ∧ Gives h (.movi h d j) (fun c _ g => put .b32 d (imm c j) g)
  ∧ Gives h (.movh h d j) (fun c o g =>
    let x : Int := match c.imxs.getLast? with
      | none => j.toNat
      | some y => y.toNat * 2 ^ 12 + j.toNat
    put .b32 d (x * 2 ^ 16 + (o.reg d).toNat % 2 ^ 16) g)

/-! ### Predicates (R94 to R96) -/

/-- R94 to R96: PAND, POR, PXOR, PNOT and PMOV on predicates, each source inverted where its flag says so; PSET copies the bit of %fs that it names, as it stands when the PSET issues (the leader's with U = 1), and leaves %fs as it is, where no escort decision, FENCE or BAR of a member is still to set a bit; a member whose own FENCE or BAR comes first in its chain waits for it, with the fibre that it reads from; CMP of integers, signed for .i types, under the four conditions. -/
def Obligations.PredicatesWrite : Prop := ∀ (h : Hdr) (d a b : PredNo) (na nb : Bool) (x y : RegNo) (cc : CC),
  let rel (x y : Int) : Bool := match cc with
    | .eq => decide (x = y)
    | .ne => decide (x ≠ y)
    | .lt => decide (x < y)
    | .ge => decide (x ≥ y)
  let bit (n : Nat) (e : FsBit) : Prop := ∀ fl s, Issues h fl s →
    (∀ f ∈ (unitCtx h fl s).act, ∀ r ∈ s.reqs, r.key = f.key → r.asks = true → r.decided = true) →
    ((∀ f ∈ (unitCtx h fl s).act, ∀ y, s.fibre? f.key = some y → y.fencedAt s.serial = false) →
      ∃ t, exec (.pset h d e) s = .next t ∧ Writes h fl s t fun o y => y.setPred d (((s.fibre? o.key).map fun z => z.fs.getLsbD n).getD false))
    ∧ (ActiveLive h fl s → (∀ f ∈ (unitCtx h fl s).act, ∃ y, s.fibre? f.key = some y ∧ y.fencedAt s.serial = true) →
      ∃ t, exec (.pset h d e) s = .next t ∧ Writes h fl s t fun o y => y.await s.serial fl.uaddr (.pset d n o.key))
  let compares (t : IntTy) (signed : Bool) (i : Instr) : Prop := Gives h i fun _ o g => g.setPred d (rel (num signed t x o) (num signed t y o))
  Gives h (.pand h d a b na nb) (fun _ o g => g.setPred d (xor (o.pred a) na && xor (o.pred b) nb))
  ∧ Gives h (.por h d a b na nb) (fun _ o g => g.setPred d (xor (o.pred a) na || xor (o.pred b) nb))
  ∧ Gives h (.pxor h d a b na nb) (fun _ o g => g.setPred d (xor (xor (o.pred a) na) (xor (o.pred b) nb)))
  ∧ Gives h (.pnot h d a) (fun _ o g => g.setPred d (!o.pred a))
  ∧ Gives h (.pmov h d a na) (fun _ o g => g.setPred d (xor (o.pred a) na))
  ∧ bit 0 .er ∧ bit 1 .st ∧ bit 3 .fp ∧ bit 4 .rf ∧ bit 5 .fr
  ∧ compares .i32 true (.cmp h d x y .i32 cc) ∧ compares .b32 false (.cmp h d x y .b32 cc)
  ∧ compares .i64 true (.cmp h d x y .i64 cc) ∧ compares .b64 false (.cmp h d x y .b64 cc)

/-! ### Floating-point units (R96, R110 to R122) -/

/-- The floating units complete on every flock and write one value, from the operands' bits in the unit's type, to their destination: the exact value rounded once for FADD, FSUB, FMUL and FMA (R113, R114), a chosen operand for FMIN and FMAX (R115), the operand with its sign changed for FABS and FNEG (R116), an approximation for FRCP to FCOS (R117), and a conversion for CVT (R118); what those values are is stated beside this statement. R96: CMP of .f32 and .f64 writes its predicate: a NaN makes .eq, .lt and .ge 0 and .ne 1; finite values compare exactly, and -0 equals +0. -/
def Obligations.FloatUnitsWrite : Prop :=
  (∀ (h : Hdr) (d a b : RegNo) (t : FTy) (r : Rnd),
    let x (o : Fibre) : Nat := o.opd a t.n
    let y (o : Fibre) : Nat := o.opd b t.n
    let z (o : Fibre) : Nat := o.opd d t.n
    let one (v : Word → Nat) : UnitCtx → Fibre → Fibre → Fibre := fun _ o g => g.setReg d (BitVec.ofNat 32 (v (o.reg a)))
    Gives h (.fadd h d a b t r) (fun _ o => fpResult t.n d (fty2 t (fun f => fpAdd f r) (x o) (y o)))
    ∧ Gives h (.fsub h d a b t r) (fun _ o => fpResult t.n d (fty2 t (fun f => fpSub f r) (x o) (y o)))
    ∧ Gives h (.fmul h d a b t r) (fun _ o => fpResult t.n d (fty2 t (fun f => fpMul f r) (x o) (y o)))
    ∧ Gives h (.fma h d a b t r) (fun _ o => fpResult t.n d (fty3 t (fun f => fpFma f r) (x o) (y o) (z o)))
    ∧ Gives h (.fmin h d a b t) (fun _ o => fpResult t.n d (fty2 t (fun f => fpPick f true) (x o) (y o)))
    ∧ Gives h (.fmax h d a b t) (fun _ o => fpResult t.n d (fty2 t (fun f => fpPick f false) (x o) (y o)))
    ∧ Gives h (.fabs h d a t) (fun _ o => fpResult t.n d (fty1 t fpAbs (x o)))
    ∧ Gives h (.fneg h d a t) (fun _ o => fpResult t.n d (fty1 t fpNeg (x o)))
    ∧ Gives h (.frcp h d a) (one frcpValue) ∧ Gives h (.frsq h d a) (one frsqValue) ∧ Gives h (.fex2 h d a) (one fex2Value)
    ∧ Gives h (.flg2 h d a) (one flg2Value) ∧ Gives h (.fsin h d a) (one fsinValue) ∧ Gives h (.fcos h d a) (one fcosValue)
    ∧ ∀ src dst sat, Gives h (.cvt h d a src dst sat r) (fun _ o => fpResult dst.n d (cvtValue src dst sat r (o.opd a src.n))))
  ∧ (∀ (h : Hdr) (d : PredNo) (a b : RegNo) (cc : CC),
    let rel (x y : FV) : Bool → Prop := fun c =>
      (x = .nan ∨ y = .nan → c = decide (cc = .ne))
      ∧ ∀ p q, rational x = some p → rational y = some q →
          c = match cc with
            | .eq => decide (p = q)
            | .ne => decide (p ≠ q)
            | .lt => decide (p < q)
            | .ge => decide (p ≥ q)
    (∃ v : Fibre → Bool, Gives h (.cmp h d a b .f32 cc) (fun _ o g => g.setPred d (v o))
        ∧ ∀ o, rel (fmt32.decode (o.reg a).toNat) (fmt32.decode (o.reg b).toNat) (v o))
    ∧ (∃ v : Fibre → Bool, Gives h (.cmp h d a b .f64 cc) (fun _ o g => g.setPred d (v o))
        ∧ ∀ o, rel (fmt64.decode (o.pair a).toNat) (fmt64.decode (o.pair b).toNat) (v o)))

/-- R112 with the last rows of R114: where the rounded magnitude does not exceed the largest finite one, a finite value rounded to a format is the format's nearest value (ties to the even one), or the nearest one on the side that the mode names; a value beyond the largest finite one gives that one or an infinity as the mode says. -/
def Obligations.RoundingFollowsIeee : Prop :=
  (∀ f ∈ [fmt64, fmt32, fmt16, fmtB16, fmtE4M3, fmtE5M2], ∀ (r : Rnd) (neg : Bool) (m : Nat) (e : Int) (x : ℚ),
    rational (.fin neg m e) = some x → f.roundMag r neg m e ≤ f.maxBits →
    ∃ v, rational (f.decode (f.pack r (.fin neg m e))) = some v ∧ ∀ u y, u < 2 ^ f.width → rational (f.decode u) = some y →
      match r with
      | .rn => |v - x| ≤ |y - x| ∧ (|v - x| = |y - x| → y ≠ v → f.pack r (.fin neg m e) % 2 = 0)
      | .rz => |v| ≤ |x| ∧ 0 ≤ v * x ∧ (|y| ≤ |x| → |y| ≤ |v|)
      | .ru => x ≤ v ∧ (x ≤ y → v ≤ y)
      | .rd => v ≤ x ∧ (y ≤ x → y ≤ v))
  ∧ ∀ f ∈ [fmt64, fmt32, fmt16, fmtB16], ∀ (r : Rnd) (neg : Bool) (m : Nat) (e : Int) (x : ℚ), rational (.fin neg m e) = some x →
    let top : ℚ := (2 - 2 ^ (-(f.mb : Int))) * 2 ^ f.bias
    let tie : ℚ := (2 - 2 ^ (-(f.mb : Int) - 1)) * 2 ^ f.bias
    let largest : Nat := f.signBit neg + f.maxBits
    let infinity : Nat := f.signBit neg + f.inf.getD 0
    (|x| ≤ top → f.roundMag r neg m e ≤ f.maxBits)
    ∧ (top < |x| → f.pack r (.fin neg m e) = match r with
        | .rn => if tie ≤ |x| then infinity else largest
        | .rz => largest
        | .ru => if neg then largest else infinity
        | .rd => if neg then infinity else largest)

/-- R111, R114: FADD, FSUB, FMUL and FMA by the table of R114, row by row and for every operand: an FSUB adds the second operand with its sign changed, and an FMA adds the exact product. R115, R116: FMIN and FMAX deliver the smaller and the larger operand unchanged, the other one where one is a NaN, and -0 below +0; FABS clears the sign bit and FNEG inverts it; NaNs give the canonical one. -/
def Obligations.FloatSpecialValues : Prop :=
  (∀ f ∈ [fmt64, fmt32, fmt16, fmtB16], ∀ (r : Rnd) (a b c : Nat),
    let x := f.decode a
    let y := f.decode b
    let z := f.decode c
    let opposite : FV := match y with
      | .nan => .nan
      | .inf n => .inf !n
      | .fin n m e => .fin (!n) m e
    IsSum f r x y (fpAdd f r a b) ∧ IsSum f r x opposite (fpSub f r a b)
    ∧ (∃ t, IsProduct x y t ∧ IsRounded f r t (fpMul f r a b))
    ∧ ∃ t, IsProduct x y t ∧ IsSum f r t z (fpFma f r a b c))
  ∧ (∀ f ∈ [fmt64, fmt32, fmt16, fmtB16], ∀ (a b : Nat), a < 2 ^ f.width → b < 2 ^ f.width →
    let top : Nat := 2 ^ (f.width - 1)
    let x := f.decode a
    let y := f.decode b
    (x = .nan → y = .nan → fpPick f true a b = f.nan ∧ fpPick f false a b = f.nan)
    ∧ (x = .nan → y ≠ .nan → fpPick f true a b = b ∧ fpPick f false a b = b)
    ∧ (x ≠ .nan → y = .nan → fpPick f true a b = a ∧ fpPick f false a b = a)
    ∧ (∀ n, x = .inf n → y ≠ .nan → fpPick f true a b = (if n then a else b) ∧ fpPick f false a b = if n then b else a)
    ∧ (∀ n, y = .inf n → x ≠ .nan → fpPick f true a b = (if n then b else a) ∧ fpPick f false a b = if n then a else b)
    ∧ (∀ p q, rational x = some p → rational y = some q →
        (p < q → fpPick f true a b = a ∧ fpPick f false a b = b) ∧ (q < p → fpPick f true a b = b ∧ fpPick f false a b = a))
    ∧ (a = top → b = 0 → fpPick f true a b = a ∧ fpPick f true b a = a ∧ fpPick f false a b = b ∧ fpPick f false b a = b)
    ∧ (x = .nan → fpAbs f a = f.nan ∧ fpNeg f a = f.nan)
    ∧ (x ≠ .nan → fpAbs f a = a % top ∧ fpNeg f a = a ^^^ top))

/-- R117: FRCP and FRSQ lie within 1 and 2 ULP of the exact value, one ULP being 2^(e - 23) with e = max(floor(log2 |y|), -126); the special points of FRCP, FRSQ, FEX2, FLG2, FSIN and FCOS are delivered exactly, and beyond 100 pi FSIN and FCOS stay within [-1, 1]. Elsewhere the results of the last four lie within 2 ULP, or within their absolute bound, of the fixed-point evaluation that stands for the exact value (log 7). -/
def Obligations.ApproximationsFollowR117 : Prop :=
  (let pz : Word := 0x00000000#32
    let nz : Word := 0x80000000#32
    let pi : Word := 0x7F800000#32
    let ni : Word := 0xFF800000#32
    let nan : Nat := 0x7FC00000
    ([pz, nz, pi, ni].map frcpValue = [0x7F800000, 0xFF800000, 0, 0x80000000])
    ∧ ([pz, nz, pi, ni].map frsqValue = [0x7F800000, 0xFF800000, 0, nan])
    ∧ ([pz, nz, pi, ni].map fex2Value = [0x3F800000, 0x3F800000, 0x7F800000, 0])
    ∧ ([pz, nz, pi, ni].map flg2Value = [0xFF800000, 0xFF800000, 0x7F800000, nan])
    ∧ ([pz, nz, pi, ni].map fsinValue = [0, 0x80000000, nan, nan])
    ∧ ([pz, nz, pi, ni].map fcosValue = [0x3F800000, 0x3F800000, nan, nan])
    ∧ ∀ w : Word, fmt32.decode w.toNat = .nan →
        frcpValue w = nan ∧ frsqValue w = nan ∧ fex2Value w = nan ∧ flg2Value w = nan ∧ fsinValue w = nan ∧ fcosValue w = nan)
  ∧ ∀ (w : Word) (x : ℚ), rational (fmt32.decode w.toNat) = some x → x ≠ 0 →
    let value (v : Nat) (p : ℚ → Prop) : Prop := v < 2 ^ 32 ∧ ∃ y, rational (fmt32.decode v) = some y ∧ p y
    let ulp (y : ℝ) : ℝ := 2 ^ (max (Int.log 2 |y|) (-126) - 23)
    let near (v : Nat) (y : Fx) (abs : Option Int) : Prop := ∃ f, fxOf v = some f ∧ (f.near y 2 (y.expo - 23) = true ∨ ∃ t, abs = some t ∧ f.near y 1 t = true)
    ((2 - 2 ^ (-24 : Int)) * 2 ^ 127 ≤ |x⁻¹| → frcpValue w = if x < 0 then 0xFF800000 else 0x7F800000)
    ∧ (|x⁻¹| < (2 - 2 ^ (-24 : Int)) * 2 ^ 127 → value (frcpValue w) fun y => |(y : ℝ) - (x : ℝ)⁻¹| ≤ ulp (x : ℝ)⁻¹ ∧ (∀ n : Int, |x| = 2 ^ n → y = x⁻¹)
        ∧ (2 ^ 126 < |x| → y ≠ 0 ∧ ∀ u z, u < 2 ^ 32 → rational (fmt32.decode u) = some z → |y - x⁻¹| ≤ |z - x⁻¹|))
    ∧ (x < 0 → frsqValue w = 0x7FC00000 ∧ flg2Value w = 0x7FC00000)
    ∧ (0 < x → value (frsqValue w) fun y => |(y : ℝ) - (Real.sqrt x)⁻¹| ≤ 2 * ulp (Real.sqrt x)⁻¹ ∧ ∀ n : Int, x = 4 ^ n → y = 2 ^ (-n))
    ∧ (128 ≤ x → fex2Value w = 0x7F800000) ∧ (x ≤ -150 → fex2Value w = 0)
    ∧ (∀ n : Int, x = n → -149 ≤ n → n ≤ 127 → value (fex2Value w) fun y => y = 2 ^ n)
    ∧ (∀ n : Int, x = 2 ^ n → value (flg2Value w) fun y => y = n) ∧ (x = 1 → flg2Value w = 0)
    ∧ (|x| < 2 ^ (-12 : Int) → fsinValue w = w.toNat)
    ∧ (100 * Real.pi < |(x : ℝ)| → value (fsinValue w) (fun y => |y| ≤ 1) ∧ value (fcosValue w) fun y => |y| ≤ 1)
    ∧ ∀ neg m e, fmt32.decode w.toNat = .fin neg m e →
      let v : Fx := ⟨if neg then -(m : Int) else m, e⟩
      let lg : Fx := ⟨((Nat.log2 m : Int) + e) * 2 ^ 150 + log2Digits 150 ((m : Int) * fxOne / 2 ^ Nat.log2 m) 0, -150⟩
      (-150 < x → x < 128 → (∀ n : Int, x ≠ n) → near (fex2Value w)
        ⟨expTerms (alignTo (-149) neg m e % 2 ^ 149 * fxLn2 / 2 ^ 149) 60 fxOne fxOne, alignTo (-149) neg m e / 2 ^ 149 - 200⟩ none)
      ∧ (0 < x → (∀ n : Int, x ≠ 2 ^ n) → near (flg2Value w) lg (if 1 / 2 ≤ x ∧ x ≤ 2 then some (-22) else none))
      ∧ (2 ^ (-12 : Int) ≤ |x| → |(x : ℝ)| ≤ 100 * Real.pi →
        near (fsinValue w) (fxTrig false v) (if 2 ^ 180 ≤ (fxTrig false v).y.natAbs then none else some (-42)))
      ∧ (|(x : ℝ)| ≤ 100 * Real.pi → near (fcosValue w) (fxTrig true v) (if 2 ^ 180 ≤ (fxTrig true v).y.natAbs then none else some (-42)))

/-- R119, R120, R122: CVT to a floating format gives the source value, of a floating format or an integer, rounded once; NaN, infinities and zeros keep their kind and sign; every conversion to a format that holds all values of the source's is exact; E4M3 and E5M2 round to the nearest and treat an infinity and a value beyond their range as .sat says; .i32 and .b32 keep each other's bits, within the range with .sat. R121: a floating value that CVT rounds to an integer is delivered where it is in range; else, and for NaN, the value that .sat or its absence names. -/
def Obligations.ConversionsFollowR119 : Prop :=
  (∀ src dst f g, cvtFmt src = some f → cvtFmt dst = some g → dst ≠ .e4m3 → dst ≠ .e5m2 → ∀ (sat : Bool) (r : Rnd) (a : Nat),
    IsRounded g r (f.decode a) (cvtValue src dst sat r a)
    ∧ (dst = .f64 ∨ dst = .f32 ∧ src ≠ .f64 ∨ src = .e4m3 ∨ src = .e5m2 ∨ src = dst → ∀ p, rational (f.decode a) = some p →
        rational (g.decode (cvtValue src dst sat r a)) = some p))
  ∧ (∀ src dst f, cvtFmt src = some f → ∀ (r : Rnd) (a : Nat),
    let v := cvtValue src dst false r a
    let w := cvtValue src dst true r a
    let beyond (p : ℚ) : Prop := if dst = .e4m3 then 464 < |p| else 61440 ≤ |p|
    (dst = .e4m3 → f.decode a = .nan → v = 0x7F ∧ w = 0x7F)
    ∧ (dst = .e5m2 → f.decode a = .nan → v = 0x7E ∧ w = 0x7E)
    ∧ (dst = .e4m3 → ((∃ n, f.decode a = .inf n) ∨ ∃ p, rational (f.decode a) = some p ∧ beyond p) → v = 0x7F ∧ w = if negative (f.decode a) then 0xFE else 0x7E)
    ∧ (dst = .e5m2 → ((∃ n, f.decode a = .inf n) ∨ ∃ p, rational (f.decode a) = some p ∧ beyond p) →
        v = (if negative (f.decode a) then 0xFC else 0x7C) ∧ w = if negative (f.decode a) then 0xFB else 0x7B)
    ∧ ∀ g p, (dst = .e4m3 ∧ g = fmtE4M3 ∨ dst = .e5m2 ∧ g = fmtE5M2) → rational (f.decode a) = some p → ¬ beyond p →
        v = w ∧ (p = 0 → v = g.signBit (negative (f.decode a))) ∧ (p ≠ 0 → RoundsTo g .rn p v))
  ∧ (∀ src ∈ [CvtTy.i32, .b32], ∀ dst g, cvtFmt dst = some g → ∀ (sat : Bool) (r : Rnd) (a : Word),
    let n : Int := if src = .i32 then a.toInt else a.toNat
    let v := cvtValue src dst sat r a.toNat
    (n = 0 → v = 0)
    ∧ (n ≠ 0 → dst ≠ .e4m3 → dst ≠ .e5m2 → RoundsTo g r n v)
    ∧ (n ≠ 0 → dst = .e4m3 → (|n| ≤ 464 → RoundsTo g .rn n v) ∧ (464 < |n| → v = if sat then (if n < 0 then 0xFE else 0x7E) else 0x7F))
    ∧ (n ≠ 0 → dst = .e5m2 → (|n| < 61440 → RoundsTo g .rn n v)
        ∧ (61440 ≤ |n| → v = (if n < 0 then 0x80 else 0) + if sat then 0x7B else 0x7C)))
  ∧ (∀ (r : Rnd) (a : Word), cvtValue .i32 .b32 false r a.toNat = a.toNat ∧ cvtValue .b32 .i32 false r a.toNat = a.toNat
    ∧ cvtValue .i32 .b32 true r a.toNat = (if a.toInt < 0 then 0 else a.toNat) ∧ cvtValue .b32 .i32 true r a.toNat = min a.toNat 0x7FFFFFFF)
  ∧ ∀ (signed sat : Bool) (r : Rnd),
  let lo : Int := if signed then -2 ^ 31 else 0
  let hi : Int := if signed then 2 ^ 31 - 1 else 2 ^ 32 - 1
  let word (v : Int) : Nat := (BitVec.ofInt 32 v).toNat
  let bad : Nat := if signed then 0x80000000 else 0xFFFFFFFF
  cvtToInt signed sat r .nan = (if sat then 0 else bad)
  ∧ (∀ neg, cvtToInt signed sat r (.inf neg) = if sat then word (if neg then lo else hi) else bad)
  ∧ ∀ neg m e x, rational (.fin neg m e) = some x → ∀ v : Int,
      (match r with
        | .rz => v = if 0 ≤ x then ⌊x⌋ else ⌈x⌉
        | .ru => v = ⌈x⌉
        | .rd => v = ⌊x⌋
        | .rn => |(v : ℚ) - x| < 1 / 2 ∨ (|(v : ℚ) - x| = 1 / 2 ∧ v % 2 = 0)) →
      cvtToInt signed sat r (.fin neg m e) =
        if lo ≤ v ∧ v ≤ hi then word v else if sat then word (if v < lo then lo else hi) else bad
/-! ### Issue, control and pacing (R53, R54, R81, R83, R88 to R93) -/

/-- R83, R86, R53: when a unit issues, every member of the flock that stands at the unit moves to the word after it, active or not, and its lookahead budgets fall by one, those of U = 1 loads too; no register, predicate, special register, window or wait of any fibre changes, and neither does anything else of the state but what counts the issue. A member that an earlier unit of its chain has moved goes where that unit leads once the chain ends (R56). NOP does no more (R93). -/
def Obligations.MembersAdvance : Prop := (∀ (h : Hdr), Gives h (.nop h) (fun _ _ g => g))
  ∧ ∀ (fl : Flock) (s : State),
  let t := s.beginUnit fl
  t = { s with fibres := t.fibres, flocks := t.flocks, serial := s.serial + 1, reqs := t.reqs, lastUnit := t.lastUnit }
  ∧ t.lastUnit = s.lastUnit.set fl.q (s.now, fl.uaddr, fl.members.length)
  ∧ (∀ k, t.fibre? k = (s.fibre? k).map (advanced s fl))
  ∧ t.reqs = s.reqs.map (fun r => { r with
      left := if fl.members.contains r.key then r.left - 1 else r.left
      also := r.also.map fun m => if fl.members.contains m.1 then (m.1, m.2 - 1) else m })
  ∧ (∀ f : Fibre, f.land = { f with ip := (f.after.map Prod.fst).getD f.ip, cmpFrom := (f.after.map Prod.snd).getD f.cmpFrom, after := none })
  ∧ ∀ v : DWord, v.toNat % 65536 < 65520 → v.toNat % 4 = 0 →
      nextWord v = if v.toNat % 65536 = 65516 then v + 20#64 else v + 4#64

/-- R88, R89: BRA and CALL move every active member to the packet `off` packets away, CALL with the next packet's address in g2:g3, and the inactive members go on with the next unit; BRX, CALLX and RET move every active member to the address in its pair, as it stood before the chain (R67), where each of them is a packet start (R55); behind C = 1 they go there once the rest of the chain has issued (R56); CONT sets %cont to the packet `off` packets away. -/
def Obligations.BranchesMoveActiveMembers : Prop := ∀ (h : Hdr) (off : BitVec 17) (a : RegNo) (fl : Flock) (s : State), Issues h fl s → ActiveLive h fl s →
  let c := unitCtx h fl s
  let target := packetAddr (packetIndex c.addr + off.signExtend 64)
  let link := packetAddr (packetIndex c.addr + 1#64)
  let good (p : RegNo) : Prop := ∀ f ∈ c.act, isPacketStart (f.pair p) = true
  let moves (i : Instr) (w : Fibre → Fibre → Fibre) : Prop := ∃ t, exec i s = .next t ∧ Moves h fl s t w
  let goes (v : DWord) (g : Fibre) : Fibre := if h.c then { g with after := some (v, 0) } else { g with ip := v }
  moves (.bra h off) (fun _ g => goes target g)
  ∧ moves (.call h off) (fun _ g => goes target (g.setPair 2#5 link))
  ∧ (good a → moves (.brx h a) fun o g => goes (o.pair a) g)
  ∧ (good a → moves (.callx h a) fun o g => goes (o.pair a) (g.setPair 2#5 link))
  ∧ (good 2#5 → moves (.ret h) fun o g => goes (o.pair 2#5) g)
  ∧ ∃ t, exec (.cont h off) s = .next t ∧ Writes h fl s t fun _ g => { g with cont := target }

/-- R90, R230: where its release step is allowed, FORK gives the active member a child on its lane with the registers of the mask, the predicates and the continuation of the parent, the lowest free stub and the lowest free %fid; with a free window that no returning fibre waits for, the child is resident. Without a free stub FR rises and nothing else happens. Where an older access of the parent is still under way the child has its place already and the parent waits for the step; with no place for the child the parent stands at the FORK still, outside its flock; a mask beyond the window halts with cause 0x0B. -/
def Obligations.ForkMakesAChild : Prop := ∀ (h : Hdr) (off : BitVec 17) (fl : Flock) (f g : Fibre) (s : State), Solo h fl f g s →
  let c := unitCtx h fl s
  let x := passed h fl s
  let g1 := past h fl s g
  let inside := c.forkMask &&& ~~~(windowMask (s.winOf f.key)) = 0#32
  let may := (s.beginUnit fl).drained (advanced s fl g) s.serial
  let goal := packetAddr (packetIndex c.addr + off.signExtend 64)
  (∀ n w, inside → s.freeStub? f.key = some n → s.claimed { f.key with s := n } = false → s.freeWindow? { f.key with s := n } = some w →
    ∃ t child, exec (.fork h off) s = .next t
      ∧ t = { x with fibres := t.fibres, flocks := t.flocks }
      ∧ t.fibre? f.key = some (if may then { (g1.setFs fsFR false) with nch := g1.nch + 1 } else g1.await s.serial c.uaddr (.fork (some { f.key with s := n }) s.serial))
      ∧ t.fibre? { f.key with s := n } = some child
      ∧ (∀ j, j ≠ f.key → j ≠ { f.key with s := n } → t.fibre? j = x.fibre? j)
      ∧ child.ip = goal ∧ child.preds = f.preds ∧ child.cont = g.cont ∧ (may = true → child.view = g.view)
      ∧ (∀ r : RegNo, child.reg r = if c.forkMask.getLsbD r.toNat then f.reg r else 0#32)
      ∧ child.fs = 0#32 ∧ child.esc = 0#32 ∧ child.fault = 0#64 ∧ child.nch = 0 ∧ child.pv = true ∧ child.par = f.key.s
      ∧ child.res = .resident w ∧ child.wait = (if may then .none else .unborn) ∧ child.fid = s.freeFid f.key.share)
  ∧ (inside → s.freeStub? f.key = none →
      ∃ t, exec (.fork h off) s = .next t ∧ Becomes x t f.key (if may then g1.setFs fsFR true else g1.await s.serial c.uaddr (.fork none s.serial)))
  ∧ (∀ n, inside → s.freeStub? f.key = some n → (s.beginUnit fl).placeChild f.key n (maskRegs c.forkMask f.regs) f.preds goal = none →
      ∃ t, exec (.fork h off) s = .next t ∧ t = { x with fibres := t.fibres, flocks := t.flocks } ∧ (∀ j, j ≠ f.key → t.fibre? j = x.fibre? j)
        ∧ (t.fibre? f.key).map (fun y => (y.ip, y.regs, y.preds, y.nch, y.wait)) = some (c.uaddr, g.regs, g.preds, g.nch, g.wait)
        ∧ ∀ v, t.flockOf? fl.q = some v → f.key ∉ v.members)
  ∧ (∀ y, ¬ inside → s.ctxs.get? (s.ctxOf f.key) = some y → y.halting = none →
      ∃ t, exec (.fork h off) s = .next t ∧ Halts x t (s.ctxOf f.key) ⟨12, 0x0B, c.uaddr, some f.key, 1⟩)

/-- R92: JOIN of a fibre without live children writes JEC to gd, clears JEC and does not wait, where its share's L1 holds nothing to write back (R135); with live children the fibre waits. R91: QUIT takes its effect as the last unit of its chain, where no older unit of it waits and its share's L1 holds nothing to write back: a fibre without children, pending locations or buffered writes frees its stub, its parent's NCH falls by one, and JEC rises up to 511 where the status is not zero; with live children the quitting fibre gives up its window and waits. A QUIT with C = 1 puts the member into that wait and its chain goes on (R66). -/
def Obligations.JoinAndQuit : Prop :=
  (∀ (h : Hdr) (d : RegNo) (fl : Flock) (f g : Fibre) (s : State), Solo h fl f g s → (∃ w, g.res = .resident w) → g.rcd = none →
    (g.nch = 0 → s.dirtyLines f.key.share = [] → ∃ t g', exec (.join h d) s = .next t ∧ t.fibre? f.key = some g' ∧ g'.reg d = BitVec.ofNat 32 g.jec ∧ g'.jec = 0
        ∧ (g.waits = [] → g'.waits = []) ∧ (∀ r, r ≠ d → g'.reg r = g.reg r) ∧ g'.preds = g.preds ∧ g'.fsBit fsER = g.fsBit fsER ∧ t.mem = s.mem
        ∧ ∀ j, j ≠ f.key → t.fibre? j = (passed h fl s).fibre? j)
    ∧ (g.nch ≠ 0 → ∃ t g', exec (.join h d) s = .next t ∧ t.fibre? f.key = some g' ∧ ⟨s.serial, (unitCtx h fl s).uaddr, .join d⟩ ∈ g'.waits ∧ g'.nch = g.nch ∧ t.mem = s.mem
        ∧ ∀ j, j ≠ f.key → t.fibre? j = (passed h fl s).fibre? j))
  ∧ (∀ (h : Hdr) (i : BitVec 12) (fl : Flock) (f g : Fibre) (s : State), Solo h fl f g s →
    let status : Word := BitVec.ofInt 32 (imm (unitCtx h fl s) i)
    (h.c = true → ∃ t, exec (.quit h i) s = .next t ∧ Becomes (passed h fl s) t f.key ((past h fl s g).await s.serial (unitCtx h fl s).uaddr (.quit status s.serial)))
    ∧ (h.c = false → g.waits = [] → s.dirtyLines f.key.share = [] →
      (g.nch = 0 → s.anyPending f.key = false → g.wb = [] → g.pv = false →
        ∃ t, exec (.quit h i) s = .next t ∧ t.fibre? f.key = none ∧ t.mem = s.mem ∧ ∀ j, j ≠ f.key → t.fibre? j = (passed h fl s).fibre? j)
      ∧ (∀ p, g.nch = 0 → s.anyPending f.key = false → g.wb = [] → g.pv = true → g.par ≠ f.key.s → s.fibre? { f.key with s := g.par } = some p →
        1 < p.nch →
        ∃ t p', exec (.quit h i) s = .next t ∧ t.fibre? f.key = none ∧ t.fibre? { f.key with s := g.par } = some p' ∧ p'.nch = p.nch - 1
          ∧ p'.jec = (if status = 0#32 then p.jec else min (p.jec + 1) 511) ∧ p'.regs = p.regs ∧ t.mem = s.mem)
      ∧ (∀ w, g.nch ≠ 0 → g.res = .resident w →
        ∃ t g', exec (.quit h i) s = .next t ∧ t.fibre? f.key = some g' ∧ g'.res = .stubOnly ∧ g'.wait = .quit status s.serial ∧ t.mem = s.mem)))

/-! ### Special registers and exceptions (R73, R78, R95, R97 to R99, R305 to R311, R335) -/

/-- R99, R78, R12: MOVS of each special register that names itself writes that value to gd: 32 bits, or a pair for %cont, %fault, %ver and %cyc; AB of %fs reads 0. %hcoord and %pcoord hold the household's and the parish's place in their grids (R13, R14), and %ver the greatest floor of the die's slices (R249). -/
def Obligations.SpecialRegistersRead : Prop := ∀ (h : Hdr) (d : RegNo) (fl : Flock) (s : State), Issues h fl s →
  let home (o : Fibre) : Household := s.share o.key.share
  let l (o : Fibre) : LaunchRec := (s.ctx (home o).ctx).lrec
  let low (r : SpecReg) (v : Fibre → Nat) : Prop :=
    ∃ t, exec (.movs h d r) s = .next t ∧ Writes h fl s t fun o g => g.setReg d (BitVec.ofNat 32 (v o))
  let wide (r : SpecReg) (v : Fibre → DWord) : Prop :=
    ∃ t, exec (.movs h d r) s = .next t ∧ Writes h fl s t fun o g => g.setPair d (v o)
  low .fid (fun o => o.fid) ∧ low .lane (fun o => o.key.l) ∧ low .hid (fun o => (home o).hid) ∧ low .pid (fun o => (home o).pid)
  ∧ low .stage (fun o => (home o).hid / max (l o).w 1)
  ∧ low .hcoord (fun o => (home o).hid % max (l o).w 1 + 8 * ((home o).hid / max (l o).w 1) + 64 * ((l o).w - 1) + 512 * ((l o).s - 1))
  ∧ low .pcoord (fun o => (home o).pid % max (l o).gx 1 + 2 ^ 12 * ((home o).pid / max (l o).gx 1 % max (l o).gy 1)
      + 2 ^ 24 * ((home o).pid / (max (l o).gx 1 * max (l o).gy 1)))
  ∧ low .fs (fun o => (o.fs &&& ~~~4#32).toNat) ∧ low .esc (fun o => o.esc.toNat) ∧ low .escq (fun o => (home o).escq)
  ∧ wide .cont (fun o => o.cont) ∧ wide .fault (fun o => o.fault)
  ∧ wide .cyc (fun o => s.cyc[o.key.die % 4]'(Nat.mod_lt _ (by decide)))
  ∧ ∃ v : Fibre → Nat, wide .ver (fun o => BitVec.ofNat 64 (v o))
      ∧ ∀ o, (∀ i < 64, s.floor (o.key.die * 64 + i) ≤ v o) ∧ ∃ i < 64, v o = s.floor (o.key.die * 64 + i)

/-- R99, R78: what MOVSW writes: it clears the ER, FP, RF and FR bits that its value names and no other bit of %fs, sets %esc within the window, lowers %escq of the household and never raises it, and sets %cont and %fault to aligned values; a value that may not stand there halts the context with cause 0x0B, 0x0C or 0x10. -/
def Obligations.MovswWrites : Prop := ∀ (h : Hdr) (d : RegNo) (fl : Flock) (f g : Fibre) (s : State), Solo h fl f g s →
  let g1 := past h fl s g
  let sets (r : WSpecReg) (v : Fibre) : Prop := ∃ t, exec (.movsw h d r) s = .next t ∧ Becomes (passed h fl s) t f.key v
  let stops (r : WSpecReg) (cls cause : Nat) : Prop := ∀ x, s.ctxs.get? (s.ctxOf f.key) = some x → x.halting = none →
    ∃ t, exec (.movsw h d r) s = .next t ∧ Halts (passed h fl s) t (s.ctxOf f.key) ⟨cls, cause, (unitCtx h fl s).uaddr, some f.key, 1⟩
  sets .fs { g1 with fs := g.fs &&& ~~~(f.reg d &&& 0x39#32) }
  ∧ (f.reg d &&& ~~~(windowMask (s.winOf f.key)) = 0#32 → sets .esc { g1 with esc := f.reg d })
  ∧ (f.reg d &&& ~~~(windowMask (s.winOf f.key)) ≠ 0#32 → stops .esc 12 0x0B)
  ∧ (isPacketStart (f.pair d) = true → sets .cont { g1 with cont := f.pair d })
  ∧ (isPacketStart (f.pair d) = false → stops .cont 11 0x0C)
  ∧ ((f.pair d).toNat % 64 = 0 → sets .fault { g1 with fault := f.pair d })
  ∧ ((f.pair d).toNat % 64 ≠ 0 → stops .fault 11 0x10)
  ∧ ∀ x, s.shares.get? f.key.share = some x → ∃ t, exec (.movsw h d .escq) s = .next t
      ∧ t = { passed h fl s with shares := t.shares, flocks := t.flocks }
      ∧ t.shares.get? f.key.share = some { x with escq := min x.escq (f.reg d).toNat }
      ∧ ∀ j, j ≠ f.key.share → t.shares.get? j = s.shares.get? j

/-- R97, R306, R307: TRAP takes the exception of a resident fibre. With %fault set, FP clear and the frame writable, twelve 16-byte writes of the frame enter the fibre's write buffer, in address order from %fault on, FP rises, and the fibre goes on at %cont outside its flock; its registers and predicates stay. Where an older unit of its chain waits, or an older fault, the fault waits behind it (R69), outside the flock. R307, R311: where it cannot be delivered (no %fault, an armed frame, a frame that cannot be written) the context halts with class FRAME and cause 0x25, 0x26 or 0x27, and every fibre of it is frozen. -/
def Obligations.TrapTakesTheException : Prop := ∀ (h : Hdr) (i : BitVec 17) (fl : Flock) (f g : Fibre) (s : State), Solo h fl f g s →
  let c := unitCtx h fl s
  Raises h fl f g s (.trap h i) ⟨4, 0, 0, c.nxt, 0, i.toNat, windowMask (s.winOf f.key), c.uaddr, s.serial⟩

/-- R127, R147, R179, R305, R307: recoverable faults of units that reach memory. An access that the tables do not translate raises TRANSLATE, with the reason, the address accessed and the unit's own address to resume at: global loads and stores, atomics, reductions, locks, WAITC, TWAIT, and the images and tags that TDSET, TDGET and WOPEN name. A unit that would go to a peer which is lost, or while the package has no number, raises REMOTE with code 8, and one to a group TRANSLATE with code 9, as it issues. A reply that refuses a request raises the fault of its code at the fibre that asked, whose unit is resumed. -/
def Obligations.RecoverableFaultsAreTaken : Prop :=
  (∀ (h : Hdr) (d a b : RegNo) (la : BitVec 4) (esc : Bool) (fl : Flock) (f g : Fibre) (s : State), Solo h fl f g s →
    let c := unitCtx h fl s
    let va := c.ea f b
    let x := s.beginUnit fl
    let rcd (cls reason a code : Nat) : FaultRec := ⟨cls, 0, reason, c.uaddr, a, code, windowMask (s.winOf f.key), c.uaddr, s.serial⟩
    let raises (i : Instr) (at_ : Nat) (acc : Acc) : Prop := ∀ reason, acc = .trans reason → Raises h fl f g s i (rcd 1 reason at_ 0)
    let reads (i : Instr) (n : Nat) : Prop := raises i va (x.access f.key va n false)
    let writes (i : Instr) (n : Nat) : Prop := raises i va (x.access f.key va n true)
    let both (i : Instr) (n : Nat) : Prop := raises i va (x.atomAccess f.key va n)
    (∀ z, reads (.ld h d b la esc z) (sz3Bytes z)) ∧ (∀ z, reads (.ldNarrow h d b la esc z) (nldBytes z)) ∧ (∀ z, reads (.ldAcq h d b la esc z) (sz2Bytes z))
    ∧ (∀ z, writes (.st h d b z) (sz3Bytes z)) ∧ (∀ z, writes (.stNarrow h d b z) (nstBytes z)) ∧ (∀ z, writes (.stRel h d b z) (sz2Bytes z))
    ∧ (∀ w, reads (.ldv h d b la esc w) 4) ∧ (∀ z, writes (.casv h d b la esc z) (sz2Bytes z)) ∧ (∀ op, both (.rwl h d b la esc op) 4)
    ∧ (∀ t : IntTy, let n := 4 * t.n
      both (.atomAdd h d b la esc t) n ∧ both (.atomAnd h d b la esc t) n ∧ both (.atomOr h d b la esc t) n ∧ both (.atomXor h d b la esc t) n
      ∧ both (.atomMin h d b la esc t) n ∧ both (.atomMax h d b la esc t) n ∧ both (.atomExch h d b la esc t) n ∧ both (.atomCas h d b la esc t) n
      ∧ both (.atomOrdAdd h d b la esc t) n ∧ both (.atomOrdAnd h d b la esc t) n ∧ both (.atomOrdOr h d b la esc t) n ∧ both (.atomOrdXor h d b la esc t) n
      ∧ both (.atomOrdMin h d b la esc t) n ∧ both (.atomOrdMax h d b la esc t) n ∧ both (.atomOrdExch h d b la esc t) n ∧ both (.atomOrdCas h d b la esc t) n
      ∧ both (.redAdd h d b t) n ∧ both (.redAnd h d b t) n ∧ both (.redOr h d b t) n ∧ both (.redXor h d b t) n ∧ both (.redMin h d b t) n ∧ both (.redMax h d b t) n)
    ∧ both (.atomFadd h d b la esc) 4 ∧ both (.atomOrdFadd h d b la esc) 4 ∧ both (.redFadd h d b) 4
    ∧ (let p := (f.pair a).toNat
      (∀ cc, raises (.waitcSigned h d a b cc) p (x.access f.key p 4 false)) ∧ (∀ ge, raises (.waitcUnsigned h d a b ge) p (x.access f.key p 4 false))
      ∧ (∀ i, raises (.twait h d a i) p (x.complAccess f.key p))
      ∧ (∀ y, raises (.tdset h y a false) p (x.imageAccess f.key false p false)) ∧ (∀ y, raises (.tdget h y a false) p (x.imageAccess f.key false p true))
      ∧ (p % 32 = 0 → (s.ctx (s.ctxOf f.key)).priv = true → raises (.wopen h d a b) p (x.access f.key p 1 false)))
    ∧ ∀ gr p w gen pa l, CanTake s f.key g → g.wb = [] → l.mode = 1 →
      let fails (i : Instr) : Prop := ∃ t, exec i s = .next t ∧ TakesFault (ends h fl (x.touched f.key (some l) va)) t f.key (advanced s fl g)
        (if gr then rcd 1 4 va 9 else rcd 2 8 va 0)
      (gr = false → s.ownPeer = none ∨ s.lost p = true) →
      (∀ z, x.access f.key va (sz3Bytes z) false = .ok (.peer gr p w gen pa) (some l) → fails (.ld h d b la esc z))
      ∧ (∀ t : IntTy, x.atomAccess f.key va (4 * t.n) = .ok (.peer gr p w gen pa) (some l) → fails (.atomAdd h d b la esc t) ∧ fails (.atomCas h d b la esc t)))
  ∧ ∀ (s : State) (r : Req) (f : Fibre) (gr : Bool) (p w gen pa code : Nat), s.req? r.id = some r → s.fibre? r.key = some f → CanTake s r.key f → s.midChain r.key = false → s.awayOf r.key = none →
      r.dest = .peer gr p w gen pa → r.delivered = true → r.decided = true → r.also = [] → (∀ sg cc v, r.kind ≠ .waitc sg cc v) → r.kind ≠ .frame → r.kind ≠ .pref →
      let away := code = 8 ∨ code = 11
      Runs (.replyArrival r.id (.refused code)) s fun t => t.req? r.id = none
        ∧ TakesFault s t r.key f ⟨if away then 2 else 1, 0, if away then 8 else 4, r.unitAddr, r.va, if away then 0 else code, windowMask (s.winOf r.key), r.unitAddr, r.seq⟩

/-- R98, R308: RESUME of an armed frame of the fibre in the package's own memory gives back the registers of its mask, the predicates, %esc and the recorded ER and FR, clears FP, moves to the recorded address (behind C = 1 once the rest of its chain has issued, R56) and writes the frame's state as consumed; registers that the frame does not record stay. Behind a FENCE or BAR of its chain it waits (R222). `frame` is what the fibre reads there. What RESUME does not accept halts the context: an address that is no multiple of 64 (cause 0x11), a frame that is not armed or not the fibre's (0x12), a resume address in the last 16 bytes of a region (0x11), a frame that cannot be read (0x2B, 0x18). -/
def Obligations.ResumeRestoresTheFrame : Prop :=
  (∀ (h : Hdr) (a : RegNo) (fl : Flock) (f g : Fibre) (s : State) (frame : List Byte) (loc : Nat), Solo h fl f g s →
    let v := (f.pair a).toNat
    let s1 := (s.beginUnit fl).frameAccess f.key v
    let at' (o n : Nat) : Nat := leNat ((frame.drop o).take n)
    let x := s.share f.key.share
    g.fencedAt s.serial = false → (advanced s fl g).after = none → UncountedFrame s f.key v → v % 64 = 0 → (s.beginUnit fl).frameFar? f.key v = none → s1.frameRead (advanced s fl g) v [] 12 = .ok frame → s1.frameLoc f.key v = .ok (.home loc) →
    at' 0 4 = 1 → at' 0x1C 2 = g.fid → at' 0x1E 1 = x.hid → at' 0x20 4 = x.pid → at' 0x24 2 = x.ctx + 512 * x.ten →
    at' 8 8 % 65536 < 65520 → at' 4 1 ≠ 5 → at' 4 1 ≠ 6 →
    ∃ t g' w, exec (.resume h a) s = .next t ∧ t.fibre? f.key = some g'
      ∧ (∀ r : RegNo, g'.reg r = if (at' 0x28 4).testBit r.toNat then BitVec.ofNat 32 (at' (0x40 + 4 * r.toNat) 4) else g.reg r)
      ∧ (∀ p : PredNo, g'.pred p = (at' 0x30 2).testBit p.val) ∧ g'.esc = BitVec.ofNat 32 (at' 0x2C 4)
      ∧ (if h.c then g'.after = some (BitVec.ofNat 64 (at' 8 8) &&& ~~~3#64, 0) else g'.ip = BitVec.ofNat 64 (at' 8 8) &&& ~~~3#64)
      ∧ g'.fsBit fsFP = false ∧ g'.fsBit fsER = (at' 0x26 2).testBit 0 ∧ g'.fsBit fsFR = (at' 0x26 2).testBit 5 ∧ g'.fsBit fsRF = g.fsBit fsRF
      ∧ g'.jec = g.jec ∧ g'.cont = g.cont ∧ g'.fault = g.fault
      ∧ g'.wb = g.wb ++ [w] ∧ w.dest = .home loc ∧ w.n = 4 ∧ w.kind = .store [2#8, 0#8, 0#8, 0#8]
      ∧ t.mem = s.mem ∧ ∀ j, j ≠ f.key → t.fibre? j = (passed h fl s).fibre? j)
  ∧ (∀ (h : Hdr) (a : RegNo) (fl : Flock) (f g : Fibre) (s : State), Solo h fl f g s → g.fencedAt s.serial = true →
    ∃ t, exec (.resume h a) s = .next t ∧ Becomes (passed h fl s) t f.key ((past h fl s g).await s.serial (unitCtx h fl s).uaddr (.resume (f.pair a))))
  ∧ (∀ (h : Hdr) (a : RegNo) (fl : Flock) (f g : Fibre) (s : State) (y : Ctx), Solo h fl f g s →
    s.ctxs.get? (s.ctxOf f.key) = some y → y.halting = none →
    let v := (f.pair a).toNat
    let s1 := (s.beginUnit fl).frameAccess f.key v
    g.fencedAt s.serial = false → UncountedFrame s f.key v →
    let x := s.share f.key.share
    let stops (cause : Nat) : Prop := ∃ t z hl, exec (.resume h a) s = .next t ∧ t.ctxs.get? (s.ctxOf f.key) = some z ∧ z.halting = some hl
      ∧ ⟨haltClass cause, cause, (unitCtx h fl s).uaddr, some f.key, 1⟩ ∈ hl.infos ∧ t.mem = s.mem
    (v % 64 ≠ 0 → stops 0x11)
    ∧ ((s.beginUnit fl).frameFar? f.key v = none → v % 64 = 0 →
      (∀ cause, s1.frameRead (advanced s fl g) v [] 12 = .error cause → stops cause)
      ∧ ∀ frame loc, s1.frameRead (advanced s fl g) v [] 12 = .ok frame → s1.frameLoc f.key v = .ok (.home loc) →
        let at' (o n : Nat) : Nat := leNat ((frame.drop o).take n)
        (at' 0 4 ≠ 1 ∨ at' 0x1C 2 ≠ g.fid ∨ at' 0x1E 1 ≠ x.hid ∨ at' 0x20 4 ≠ x.pid → stops 0x12)
        ∧ (at' 0 4 = 1 → at' 0x1C 2 = g.fid → at' 0x1E 1 = x.hid → at' 0x20 4 = x.pid → at' 0x24 2 = x.ctx + 512 * x.ten → 65520 ≤ at' 8 8 % 65536 → stops 0x11)))

/-- R335 to R337: DBRK enters the debug handler: the frame of class 6 with its code goes to the fibre's place at DHFRAME, g0:g1 hold that address, and the fibre goes on at DHIP. While the handler is not enabled the quarter stops; a frame that cannot be written halts the context with cause 0x27. In the handler region it has no effect; where an older unit of the fibre's chain waits, the entry waits behind it (R69). -/
def Obligations.DbrkEntersTheHandler : Prop := ∀ (h : Hdr) (i : BitVec 17) (fl : Flock) (f g : Fibre) (s : State), Solo h fl f g s →
  let c := unitCtx h fl s
  let hip := (s.reg (0xB010 + 0x20 * s.tenOf f.key)).toNat
  let v := (s.reg (0xB018 + 0x20 * s.tenOf f.key)).toNat / 65536 * 65536 + 192 * (4096 * f.key.share + 32 * f.key.l + f.key.s)
  let r : FaultRec := ⟨6, 0, 0, c.nxt, 0, i.toNat, windowMask (s.winOf f.key), c.uaddr, s.serial⟩
  (s.inHandler f.key c.uaddr = false → g.takesFault = true → hip % 2 = 1 → s.frameOk f.key v = true → UncountedFrame s f.key v →
    ∃ t g', exec (.dbrk h i) s = .next t ∧ t.fibre? f.key = some g' ∧ g'.pair 0#5 = BitVec.ofNat 64 v ∧ g'.ip = BitVec.ofNat 64 (hip / 65536 * 65536)
      ∧ (∀ r : RegNo, r ≠ 0#5 → r ≠ 1#5 → g'.reg r = g.reg r) ∧ g'.preds = g.preds ∧ g'.fs = g.fs
      ∧ (∃ ws, g'.wb = g.wb ++ ws ∧ ws.map (fun w => w.pva) = (List.range 12).map (fun j => v + 16 * j)
          ∧ ws.flatMap (fun w => match w.kind with
              | .store bs => bs
              | _ => []) = frameBytes (advanced s fl g) (s.share f.key.share) r)
      ∧ t.mem = s.mem ∧ ∀ j, j ≠ f.key → t.fibre? j = (passed h fl s).fibre? j)
  ∧ (s.inHandler f.key c.uaddr = false → g.takesFault = false → (∀ w ∈ g.waits, w.seq ≤ s.serial) → hip % 2 = 1 →
    ∃ t, exec (.dbrk h i) s = .next t ∧ (t.fibre? f.key).map (fun y => (y.rfaults, y.waits, y.regs, y.preds)) = some (g.rfaults ++ [r], g.waits, g.regs, g.preds)
      ∧ (∀ x ∈ t.flocks, f.key ∉ x.members) ∧ t.mem = s.mem ∧ ∀ j, j ≠ f.key → t.fibre? j = (passed h fl s).fibre? j)
  ∧ (s.inHandler f.key c.uaddr = false → hip % 2 = 0 → ∃ t, exec (.dbrk h i) s = .next t ∧ (t.quarter f.key.quarter).stopped = true)
  ∧ (∀ x, s.inHandler f.key c.uaddr = false → g.takesFault = true → hip % 2 = 1 → s.frameOk f.key v = false → s.ctxs.get? (s.ctxOf f.key) = some x → x.halting = none →
    ∃ t, exec (.dbrk h i) s = .next t ∧ Halts (passed h fl s) t (s.ctxOf f.key) ⟨15, 0x27, c.uaddr, some f.key, 1⟩)
  ∧ (s.inHandler f.key c.uaddr = true → ∃ t, exec (.dbrk h i) s = .next t ∧ Becomes (passed h fl s) t f.key (past h fl s g))

/-! ### Several members (R84, R167, R198) -/

/-- R198, R167, R84: a memory, atomic, synchronising, control, engine, fabric or privileged unit acts for its active members one after the other, in ascending lane order, each as it would alone; a load with U = 1 acts once, for its leader, with one request that brings its value to every active member. -/
def Obligations.MembersActInTurn : Prop := ∀ (h : Hdr),
  (∀ fl s, fl.snap = [] → (unitCtx h fl s).act.Pairwise fun a b => a.key.l ≤ b.key.l)
  ∧ (∀ i, i.hdr? = some h → actsInTurn i = true → (isLoad i = true → h.u = false) → InTurn h i fun act => act)
  ∧ ∀ (d base : RegNo) (la : BitVec 4) (esc : Bool) fl (s : State) f fs, Issues h fl s → h.u = true → (unitCtx h fl s).act = f :: fs →
    let c := unitCtx h fl s
    let va := c.ea f base
    let x := s.beginUnit fl
    let once (i : Instr) (acc : Acc) (n : Nat) (kind : ReqKind) (acq e : Bool) (dw : Nat) : Prop :=
      ∀ loc l, acc = .ok (.home loc) l →
        ∃ t r, exec i s = .next t ∧ Asks (ends h fl (x.touched f.key l va)) t r ∧ r.also = fs.map (fun g => (g.key, la.toNat))
          ∧ IsRequest c f va n (.home loc) kind acq false d dw la.toNat (if e then some f.esc else none) { r with also := [] }
    let global (i : Instr) (n : Nat) (signed acq : Bool) : Prop := once i (x.access f.key va n false) n (.load n signed) acq esc (max 1 (n / 4))
    let local' (i : Instr) (n : Nat) (signed : Bool) : Prop := once i (x.spadAccess f.key va n n false) n (.load n signed) false false (max 1 (n / 4))
    global (.ld h d base la esc .b32) 4 false false ∧ global (.ld h d base la esc .b64) 8 false false ∧ global (.ld h d base la esc .b128) 16 false false
    ∧ global (.ldNarrow h d base la esc .b8) 1 false false ∧ global (.ldNarrow h d base la esc .i8) 1 true false
    ∧ global (.ldNarrow h d base la esc .b16) 2 false false ∧ global (.ldNarrow h d base la esc .i16) 2 true false
    ∧ global (.ldAcq h d base la esc .b32) 4 false true ∧ global (.ldAcq h d base la esc .b64) 8 false true
    ∧ local' (.lds h d base la .b32) 4 false ∧ local' (.lds h d base la .b64) 8 false ∧ local' (.lds h d base la .b128) 16 false
    ∧ local' (.ldsNarrow h d base la .b8) 1 false ∧ local' (.ldsNarrow h d base la .i8) 1 true
    ∧ local' (.ldsNarrow h d base la .b16) 2 false ∧ local' (.ldsNarrow h d base la .i16) 2 true
    ∧ ∀ w, once (.ldv h d base la esc w) (x.access f.key va 4 false) 4 (.ldv w) true esc (if w then 4 else 2)

/-! ### Memory units (R148 to R155, R221, R240 to R250) -/

/-- R148 to R155, R62, R86, R227: a load completes its issue wherever the access is allowed: its request, of the unit's width at base + offset, is outstanding for the destination, with the lookahead budget L, and with E = 1 asks for an escort with the registers of %esc as they stand. LD.acq and LDF are acquires; the scratchpad loads go to the household's own scratchpad, and LDF also needs a granule that its household may use. -/
def Obligations.LoadsRequest : Prop := ∀ (h : Hdr) (d base : RegNo) (la : BitVec 4) (esc : Bool) (fl : Flock) (f g : Fibre) (s : State), Solo h fl f g s →
  let c := unitCtx h fl s
  let va := c.ea f base
  let x := s.beginUnit fl
  let global (i : Instr) (n : Nat) (signed acq : Bool) : Prop :=
    ∀ loc l, x.access f.key va n false = .ok (.home loc) l →
      ∃ t r, exec i s = .next t ∧ Asks (ends h fl (x.touched f.key l va)) t r
        ∧ IsRequest c f va n (.home loc) (.load n signed) acq false d (max 1 (n / 4)) la.toNat (if esc then some f.esc else none) r
  let local' (i : Instr) (n : Nat) (fe : Bool) (kind : ReqKind) (acq e : Bool) : Prop :=
    ∀ loc, x.spadAccess f.key va n n fe = .ok (.home loc) none →
      ∃ t r, exec i s = .next t ∧ Asks (passed h fl s) t r
        ∧ IsRequest c f va n (.home loc) kind acq false d (max 1 (n / 4)) la.toNat (if e then some f.esc else none) r
  global (.ld h d base la esc .b32) 4 false false ∧ global (.ld h d base la esc .b64) 8 false false ∧ global (.ld h d base la esc .b128) 16 false false
  ∧ global (.ldNarrow h d base la esc .b8) 1 false false ∧ global (.ldNarrow h d base la esc .i8) 1 true false
  ∧ global (.ldNarrow h d base la esc .b16) 2 false false ∧ global (.ldNarrow h d base la esc .i16) 2 true false
  ∧ global (.ldAcq h d base la esc .b32) 4 false true ∧ global (.ldAcq h d base la esc .b64) 8 false true
  ∧ local' (.lds h d base la .b32) 4 false (.load 4 false) false false ∧ local' (.lds h d base la .b64) 8 false (.load 8 false) false false
  ∧ local' (.lds h d base la .b128) 16 false (.load 16 false) false false
  ∧ local' (.ldsNarrow h d base la .b8) 1 false (.load 1 false) false false ∧ local' (.ldsNarrow h d base la .i8) 1 false (.load 1 true) false false
  ∧ local' (.ldsNarrow h d base la .b16) 2 false (.load 2 false) false false ∧ local' (.ldsNarrow h d base la .i16) 2 false (.load 2 true) false false
  ∧ local' (.ldf h d base la esc .b32) 4 true (.ldf 4) true esc ∧ local' (.ldf h d base la esc .b64) 8 true (.ldf 8) true esc
  ∧ local' (.ldf h d base la esc .b128) 16 true (.ldf 16) true esc

/-- R241, R243, R244: each atomic requests one read-modify-write of its word, global or in the scratchpad, with its operand from gd (the new value of .cas; what .cas expects follows it), and brings the old value back to gd; the .ord forms are acquire and release. R247, R248, R250: RWL, LDV and CASV request their operation on the word and the line they name. -/
def Obligations.AtomicsAndLocksRequest : Prop :=
  (∀ (h : Hdr) (d base : RegNo) (la : BitVec 4) (esc : Bool) (t : IntTy) (fl : Flock) (f g : Fibre) (s : State), Solo h fl f g s →
    let c := unitCtx h fl s
    let va := c.ea f base
    let x := s.beginUnit fl
    let asks (i : Instr) (op : AOp) (ty : IntTy) (ord : Bool) : Prop :=
      ∀ loc l, x.atomAccess f.key va (4 * ty.n) = .ok (.home loc) l →
        ∃ u r, exec i s = .next u ∧ Asks (ends h fl (x.touched f.key l va)) u r
          ∧ IsRequest c f va (4 * ty.n) (.home loc)
              (if op = .cas then .atom op ty.signed (decide (ty.n = 2)) (BitVec.ofNat 64 (f.opd (d + BitVec.ofNat 5 ty.n) ty.n)) (BitVec.ofNat 64 (f.opd d ty.n))
                else .atom op ty.signed (decide (ty.n = 2)) (BitVec.ofNat 64 (f.opd d ty.n)) 0#64)
              ord ord d (if op = .cas then 2 * ty.n else ty.n) la.toNat (if esc then some f.esc else none) r
    asks (.atomAdd h d base la esc t) .add t false ∧ asks (.atomAnd h d base la esc t) .and t false ∧ asks (.atomOr h d base la esc t) .or t false
    ∧ asks (.atomXor h d base la esc t) .xor t false ∧ asks (.atomMin h d base la esc t) .min t false ∧ asks (.atomMax h d base la esc t) .max t false
    ∧ asks (.atomExch h d base la esc t) .exch t false ∧ asks (.atomCas h d base la esc t) .cas t false ∧ asks (.atomFadd h d base la esc) .fadd .b32 false
    ∧ asks (.atomOrdAdd h d base la esc t) .add t true ∧ asks (.atomOrdAnd h d base la esc t) .and t true ∧ asks (.atomOrdOr h d base la esc t) .or t true
    ∧ asks (.atomOrdXor h d base la esc t) .xor t true ∧ asks (.atomOrdMin h d base la esc t) .min t true ∧ asks (.atomOrdMax h d base la esc t) .max t true
    ∧ asks (.atomOrdExch h d base la esc t) .exch t true ∧ asks (.atomOrdCas h d base la esc t) .cas t true ∧ asks (.atomOrdFadd h d base la esc) .fadd .b32 true)
  ∧ (∀ (h : Hdr) (d base : RegNo) (la : BitVec 4) (esc : Bool) (fl : Flock) (f g : Fibre) (s : State), Solo h fl f g s →
    let c := unitCtx h fl s
    let va := c.ea f base
    let x := s.beginUnit fl
    let asks (i : Instr) (acc : Acc) (n : Nat) (kind : ReqKind) (acq rel : Bool) (dw : Nat) : Prop :=
      ∀ loc l, acc = .ok (.home loc) l →
        ∃ t r, exec i s = .next t ∧ Asks (ends h fl (x.touched f.key l va)) t r
          ∧ IsRequest c f va n (.home loc) kind acq rel d dw la.toNat (if esc then some f.esc else none) r
    (∀ op, asks (.rwl h d base la esc op) (x.atomAccess f.key va 4) 4 (.rwl op ((f.reg d).getLsbD 0)) (decide (op ≠ .rel)) (decide (op = .rel)) 1)
    ∧ asks (.ldv h d base la esc false) (x.access f.key va 4 false) 4 (.ldv false) true false 2
    ∧ asks (.ldv h d base la esc true) (x.access f.key va 4 false) 4 (.ldv true) true false 4
    ∧ asks (.casv h d base la esc .b32) (x.casvAccess f.key va 4) 4 (.casv false ((f.regI d 1).extractLsb' 0 16 ++ f.reg d) ((f.regI d 2).zeroExtend 64)) true true 4
    ∧ asks (.casv h d base la esc .b64) (x.casvAccess f.key va 8) 8 (.casv true ((f.regI d 1).extractLsb' 0 16 ++ f.reg d) (f.regI d 3 ++ f.regI d 2)) true true 4)

/-- R148, R149, R151, R154, R221, R245: a store or reduction completes its issue wherever the access is allowed: its write, at base + offset, enters the fibre's write buffer at the tail with its bytes little-endian, and nothing has reached memory; ST.rel and STF are releases, STF fills its granule. A store is counted by the monitors of its launch (R295, R297, R298): each INT32 field that it covers whole is added to the partial of its household, a field that it covers in part sets PW; another slot stands, and a reduction is counted nowhere. Meeting a leaf of modes 00, 01 or 10 on the way reaches no memory, and of the fibres only its own view (R127, R129). -/
def Obligations.StoresEnterTheWriteBuffer : Prop := ∀ (h : Hdr) (sr base : RegNo) (ty : IntTy) (fl : Flock) (f g : Fibre) (s : State), Solo h fl f g s →
  let va := (unitCtx h fl s).ea f base
  let x := s.beginUnit fl
  let bytes (n : Nat) : List Byte := leBytes n (f.opd sr (max 1 (n / 4)))
  let counted (spad : Bool) (n : Nat) (j : Fin 8) (o y : MonSum) : Prop :=
    let a := if spad then va % 2 ^ 20 else va
    let slot (m : MonSlot) : Prop := s.monitors.get? j.val = some m ∧ m.ctx = s.ctxOf f.key ∧ m.order = (s.ctx m.ctx).order ∧ monLoc m.image = spad
    ((¬ ∃ m, slot m) → y = o)
    ∧ ∀ m, slot m → monType m.image = 0 → monEbm m.image = 0 → o.sat = false → -2 ^ 94 < o.a → o.a < 2 ^ 94 →
      let isField (p : Nat) : Prop := monBase m.image ≤ p ∧ p + 4 ≤ monBase m.image + monSize m.image ∧ (p - monBase m.image) % monStride m.image = monOff m.image
      (∃ v : Nat → Int, y.a = o.a + ((List.range n).map v).sum
        ∧ ∀ k, (k + 4 ≤ n ∧ isField (a + k) → v k = (BitVec.ofNat 32 (leNat (((bytes n).drop k).take 4))).toInt) ∧ (¬ (k + 4 ≤ n ∧ isField (a + k)) → v k = 0))
      ∧ (y.pw = true ↔ o.pw = true ∨ ∃ p, isField p ∧ p < a + n ∧ a < p + 4 ∧ ¬ (a ≤ p ∧ p + 4 ≤ a + n)) ∧ y.nan = o.nan ∧ y.sat = false ∧ y.inx = o.inx
  let enters (i : Instr) (acc : Acc) (n : Nat) (kind : WKind) (rel : Bool) (count : Fin 8 → MonSum → MonSum → Prop) : Prop :=
    ∀ d l, acc = .ok d l → ∃ t w, exec i s = .next t ∧ Buffers (ends h fl (x.touched f.key l va)) t f.key w
      ∧ w.dest = d ∧ w.n = n ∧ w.kind = kind ∧ w.rel = rel ∧ w.pva = va ∧ w.seq = s.serial
      ∧ ∀ o, s.shares.get? f.key.share = some o → ∃ y, t.shares.get? f.key.share = some y ∧ ∀ j : Fin 8, count j o.partials[j] y.partials[j]
  let st (i : Instr) (n : Nat) (rel : Bool) : Prop := enters i (x.access f.key va n true) n (.store (bytes n)) rel (counted false n)
  let sts (i : Instr) (n : Nat) : Prop := enters i (x.spadAccess f.key va n n false) n (.store (bytes n)) false (counted true n)
  let stf (i : Instr) (n : Nat) : Prop := enters i (x.spadAccess f.key va n n true) n (.fill (bytes n)) true (counted true n)
  let red (i : Instr) (op : AOp) (t : IntTy) : Prop :=
    enters i (x.atomAccess f.key va (4 * t.n)) (4 * t.n) (.red op t.signed (4 * t.n) (BitVec.ofNat 64 (f.opd sr t.n))) false fun _ o y => y = o
  st (.st h sr base .b32) 4 false ∧ st (.st h sr base .b64) 8 false ∧ st (.st h sr base .b128) 16 false
  ∧ st (.stNarrow h sr base .b8) 1 false ∧ st (.stNarrow h sr base .b16) 2 false
  ∧ st (.stRel h sr base .b32) 4 true ∧ st (.stRel h sr base .b64) 8 true
  ∧ sts (.sts h sr base .b32) 4 ∧ sts (.sts h sr base .b64) 8 ∧ sts (.sts h sr base .b128) 16
  ∧ sts (.stsNarrow h sr base .b8) 1 ∧ sts (.stsNarrow h sr base .b16) 2
  ∧ stf (.stf h sr base .b32) 4 ∧ stf (.stf h sr base .b64) 8 ∧ stf (.stf h sr base .b128) 16
  ∧ red (.redAdd h sr base ty) .add ty ∧ red (.redAnd h sr base ty) .and ty ∧ red (.redOr h sr base ty) .or ty ∧ red (.redXor h sr base ty) .xor ty
  ∧ red (.redMin h sr base ty) .min ty ∧ red (.redMax h sr base ty) .max ty ∧ red (.redFadd h sr base) .fadd .b32
  ∧ ∀ (k : FKey) (l : Option Leaf) (v : Nat) (y : State), (∀ z, l = some z → z.mode ≠ 3) → Meets y (y.touched k l v) k

/-- R220, R149, R165: the reply of a load that nothing holds back brings the bytes of memory, little-endian and extended as the unit says, to its destination; where the fibre's newest older buffered store covers the bytes they come from there. The request is over, and memory, the apply queues and every other fibre are as they were, where no slice is full and, for LD.acq, the share's L1 has nothing to write back (R135). -/
def Obligations.LoadRepliesDeliver : Prop := ∀ (s : State) (r : Req) (f : Fibre) (n w : Nat) (signed : Bool) (loc : Nat),
  s.req? r.id = some r → s.fibre? r.key = some f → f.res = .resident w → f.wait = .none → s.midChain r.key = false → s.awayOf r.key = none →
  r.decided = true → r.ans = none → r.fail = none → r.rel = false → r.also = [] → r.kind = .load n signed → r.dest = .home loc →
  s.performOk f r = true → s.eatsPoison f r = false → Roomy s → (r.acq = true → Undirtied s r.key.share) →
  let delivers (v : Nat) : Prop :=
    let x : Nat := if signed then (BitVec.ofInt 32 (signedOf (8 * n) v)).toNat else v
    ∃ t g, exec (.replyArrival r.id .own) s = .next t ∧ t.fibre? r.key = some g
      ∧ g.regs = (if r.dw = 0 then f else f.setOpd r.dst r.dw x).regs ∧ g.preds = f.preds ∧ g.ip = f.ip ∧ g.fs = f.fs
      ∧ t.reqs = s.reqs.filter (fun q => q.id ≠ r.id) ∧ t.mem = s.mem ∧ t.aq = s.aq ∧ t.hist = s.hist
      ∧ ∀ j, j ≠ r.key → t.fibre? j = s.fibre? j
  (f.newest r.seq r.dest n = none → s.lag = 0 → delivers (leNat (s.mem.readBytes loc n)))
  ∧ ∀ b a bs, f.newest r.seq r.dest n = some b → b.dest = .home a → b.kind = .store bs → delivers (leNat ((bs.drop (loc - a)).take n))

/-- R221, R223, R132, R138: a plain write at the head of a write buffer that may leave moves to the apply queue of its home die, or, as a dirty word of a line of its L1, leaves with that line's write-back; APPLY_WRITE stores exactly a write's bytes, at exactly its place, and removes it from the queue, and the version of its line, where it is one write event, rises by 1; the writes of one write-back are applied together, once each of them may be. -/
def Obligations.WritesLeaveAndApply : Prop :=
  (∀ (s : State) (k : FKey) (f : Fibre) (w : BufWrite) (ws : List BufWrite) (loc : Nat),
    s.fibre? k = some f → f.wb = w :: ws → (∀ x ∈ ws, x.wid ≠ w.wid) → w.rel = false → s.leaveOk f w = true → w.dest = .home loc →
    (s.lineOf? k.share w = none →
      ∃ t g q, exec (.writeBufferLeave k) s = .next t ∧ t.fibre? k = some g ∧ g.wb = ws ∧ g.regs = f.regs ∧ t.mem = s.mem
        ∧ t.aq = s.aq ++ [q] ∧ q.die = homeDie loc ∧ q.src = .fibre k ∧ q.wid = w.wid ∧ q.loc = loc ∧ q.n = w.n ∧ q.kind = w.kind ∧ q.view = none
        ∧ q.sdie = k.die ∧ q.num = s.knOf k.die k.die + 1 ∧ (∀ o, t.req? o = s.req? o))
    ∧ ∀ l, s.lineOf? k.share w = some l → ∃ t g, exec (.writeBufferLeave k) s = .next t ∧ t.fibre? k = some g ∧ w ∉ g.wb ∧ g.regs = f.regs)
  ∧ ∀ (s : State) (die i : Nat) (w : AqWrite) (bs : List Byte),
    (s.aq.filter fun x => decide (x.die = die))[i]? = some w → (∀ x ∈ s.aq, x.wid = w.wid → x = w) → s.applyOk w = true → w.kind = .store bs → w.src ≠ .host →
    (w.grp ≠ 0 → (∀ o ∈ s.aq, o.grp = w.grp → s.applyOk o = true) → (∀ x ∈ s.aq, ∀ y ∈ s.aq, x.wid = y.wid → x = y) →
      ∃ t, exec (.applyWrite die i) s = .next t ∧ t.aq = s.aq.filter fun x => x.grp ≠ w.grp)
    ∧ (w.grp ≠ 0 → (∃ o ∈ s.aq, o.grp = w.grp ∧ s.applyOk o = false) → exec (.applyWrite die i) s = .next s)
    ∧ (w.grp = 0 → (List.range (lineCount w.loc bs.length)).all (fun j => !s.sliceStops (w.loc + 256 * j)) = true →
    ∃ t, exec (.applyWrite die i) s = .next t ∧ t.mem = s.mem.writeBytes w.loc bs
      ∧ t.aq = s.aq.filter (fun x => x.wid ≠ w.wid)
      ∧ (s.mem.wf = true → ∀ a, t.mem.get a = if w.loc ≤ a ∧ a < w.loc + bs.length then bs.getD (a - w.loc) 0#8 else s.mem.get a)
      ∧ (Roomy s → lineCount w.loc bs.length = 1 → t.fibres = s.fibres
        ∧ (isSpad w.loc = false → w.merged = false → ∀ a, w.loc ≤ a → a < w.loc + bs.length → (t.line a).version = (s.line a).version + 1)))

/-- R244: an atomic that is performed in one step reads the old word into its destination and leaves in memory, at its own bytes and nowhere else, what its operation makes of it. R247: the lock word after one attempt of RWL: a reader enters an unlocked word that no writer is preferred in, a writer an empty one, and a release takes the writer or one reader away. -/
def Obligations.AtomicsModifyTheirWord : Prop :=
  (∀ (s : State) (r : Req) (f : Fibre) (op : AOp) (signed wide : Bool) (v e : DWord) (loc w : Nat),
    s.req? r.id = some r → s.fibre? r.key = some f → f.res = .resident w → f.wait = .none → s.midChain r.key = false → s.awayOf r.key = none →
    r.decided = true → r.ans = none → r.fail = none → r.rd = none → r.also = [] → r.kind = .atom op signed wide v e → r.dest = .home loc →
    s.performOk f r = true → s.eatsPoison f r = false → s.twoSteps loc r.sa = false → s.mem.wf = true →
    Roomy s → Undirtied s r.key.share → (r.rel = true → s.release r.key r.seq = s) →
    let n := if wide then 8 else 4
    loc % n = 0 → s.sliceStops loc = false →
    let m := s.mem.read loc n
    let x := v.toNat % 256 ^ n
    let num (y : Nat) : Int := if signed then signedOf (8 * n) y else y
    let new : Nat := match op with
      | .add => (m + x) % 256 ^ n
      | .and => m &&& x
      | .or => m ||| x
      | .xor => m ^^^ x
      | .min => if num m < num x then m else x
      | .max => if num m < num x then x else m
      | .exch => x
      | .cas => if m = e.toNat % 256 ^ n then x else m
      | .fadd => fpAdd fmt32 .rn (m % 2 ^ 32) (x % 2 ^ 32)
    (op = .fadd → wide = false) →
    ∃ t g, exec (.replyArrival r.id .own) s = .next t ∧ t.fibre? r.key = some g
      ∧ (op ≠ .cas → r.dw ≠ 0 → g.regs = (f.setOpd r.dst r.dw m).regs)
      ∧ t.mem.read loc n = new ∧ (∀ a, a < loc ∨ loc + n ≤ a → t.mem.get a = s.mem.get a)
      ∧ t.reqs.all (fun q => decide (q.id ≠ r.id)) = true)
  ∧ (∀ (m : Nat) (counted : Bool), m < 2 ^ 32 →
    let writer := m / 2 ^ 31
    let readers := m % 2 ^ 16
    let waiting := m / 2 ^ 16 % 2 ^ 14
    let pref := m / 2 ^ 30 % 2
    (rwlNew .rd counted m = if writer = 0 ∧ readers < 65535 ∧ ¬ (pref = 1 ∧ 0 < waiting) then m + 1 else m)
    ∧ (writer = 0 → readers = 0 → rwlNew .wr counted m = m + 2 ^ 31 - (if counted = true ∧ 0 < waiting then 2 ^ 16 else 0))
    ∧ (writer = 1 ∨ readers ≠ 0 → rwlNew .wr counted m = if counted = false ∧ waiting < 16383 then m + 2 ^ 16 else m)
    ∧ (rwlNew .rel counted m = if writer = 1 then m - 2 ^ 31 else if 0 < readers then m - 1 else m)
    ∧ ∀ op, rwlNew op counted m < 2 ^ 32)

/-! ### Fatal faults (R73, R75, R88, R149, R151, R244) -/

/-- What a unit may not do halts the context, and nothing of the unit happens: a branch to an address that is no packet start (cause 0x0C; no member transfers, R75, R88), in every load, store, atomic, reduction, lock and WAITC an address that is no multiple of the access's size (ALIGN, cause 0x13; R149, R151, R244, R253), an image, object or monitor that is not aligned as R200, R201, R296 and R321 ask (causes 0x1B and 0x29), and a privileged instruction in a context without PRIV (PROTECTION, cause 0x0D; R73). -/
def Obligations.FatalFaultsHalt : Prop := ∀ (h : Hdr) (d a base : RegNo) (la : BitVec 4) (esc : Bool) (fl : Flock) (s : State) (f : Fibre) (x : Ctx),
  s.ctxs.get? (s.ctxOf f.key) = some x → x.halting = none →
  let c := unitCtx h fl s
  let stops (i : Instr) (cls cause : Nat) : Prop :=
    ∃ t, exec i s = .next t ∧ Halts (passed h fl s) t (s.ctxOf f.key) ⟨cls, cause, c.uaddr, some f.key, 1⟩
      ∧ ∀ k, (t.fibre? k).map (fun y => (y.ip, y.regs, y.preds)) = ((passed h fl s).fibre? k).map fun y => (y.ip, y.regs, y.preds)
  (Issues h fl s → c.act.find? (fun y => !isPacketStart (y.pair a)) = some f →
    stops (.brx h a) 11 0x0C ∧ stops (.callx h a) 11 0x0C ∧ (a = 2#5 → stops (.ret h) 11 0x0C))
  ∧ ∀ g, Solo h fl f g s →
    let byN (n : Nat) (i : Instr) : Prop := c.ea f base % n ≠ 0 → stops i 11 0x13
    let n3 : Sz3 → Nat := fun z => match z with
      | .b32 => 4
      | .b64 => 8
      | .b128 => 16
    let n2 : Sz2 → Nat := fun z => match z with
      | .b32 => 4
      | .b64 => 8
    let word (n cause : Nat) (i : Instr) : Prop := (f.pair a).toNat % n ≠ 0 → stops i 11 cause
    (∀ z, byN (n3 z) (.ld h d base la esc z) ∧ byN (n3 z) (.lds h d base la z) ∧ byN (n3 z) (.ldf h d base la esc z)
      ∧ byN (n3 z) (.st h d base z) ∧ byN (n3 z) (.sts h d base z) ∧ byN (n3 z) (.stf h d base z))
    ∧ (∀ z, byN (n2 z) (.ldAcq h d base la esc z) ∧ byN (n2 z) (.stRel h d base z) ∧ byN (n2 z) (.casv h d base la esc z))
    ∧ (∀ z ∈ [NLd.b16, .i16], byN 2 (.ldNarrow h d base la esc z) ∧ byN 2 (.ldsNarrow h d base la z))
    ∧ byN 2 (.stNarrow h d base .b16) ∧ byN 2 (.stsNarrow h d base .b16)
    ∧ (∀ w, byN 4 (.ldv h d base la esc w)) ∧ (∀ o, byN 4 (.rwl h d base la esc o))
    ∧ (∀ ty : IntTy, ∀ i ∈ [Instr.atomAdd h d base la esc ty, .atomAnd h d base la esc ty, .atomOr h d base la esc ty, .atomXor h d base la esc ty,
        .atomMin h d base la esc ty, .atomMax h d base la esc ty, .atomExch h d base la esc ty, .atomCas h d base la esc ty,
        .atomOrdAdd h d base la esc ty, .atomOrdAnd h d base la esc ty, .atomOrdOr h d base la esc ty, .atomOrdXor h d base la esc ty,
        .atomOrdMin h d base la esc ty, .atomOrdMax h d base la esc ty, .atomOrdExch h d base la esc ty, .atomOrdCas h d base la esc ty,
        .redAdd h d base ty, .redAnd h d base ty, .redOr h d base ty, .redXor h d base ty, .redMin h d base ty, .redMax h d base ty], byN (4 * ty.n) i)
    ∧ (∀ i ∈ [Instr.atomFadd h d base la esc, .atomOrdFadd h d base la esc, .redFadd h d base], byN 4 i)
    ∧ (∀ cc ge, word 4 0x13 (.waitcSigned h d a base cc) ∧ word 4 0x13 (.waitcUnsigned h d a base ge))
    ∧ (∀ i, word 32 0x1B (.twait h d a i)) ∧ (∀ n sp, word 64 0x1B (.tdset h n a sp) ∧ word 64 0x1B (.tdget h n a sp))
    ∧ word 64 0x1B (.monset h a base) ∧ word 64 0x1B (.monrd h a base)
    ∧ (x.priv = true → word 32 0x1B (.wopen h d a base) ∧ word 4096 0x29 (.save h d a base) ∧ word 4096 0x29 (.rest h d a base) ∧ word 16 0x29 (.keyld h d a base))
    ∧ (x.priv = false → ∀ i ∈ [Instr.wopen h d a base, .wrevoke h d base, .save h d a base, .rest h d a base, .keyld h d a base, .evict h d base,
        .movp h d .ctxid, .movp h d .ctxattr, .movp h d .sctr, .movp h d .xinv, .movp h d .rfq, .movpw h d .xinv, .movpw h d .rfq], stops i 10 0x0D)

/-! ### Hints, masks and extensions (R61, R157, R159, R282) -/

/-- PREF leaves every register and all of memory as they are, and where no slice is full changes nothing but what the package keeps of the page and the line, and what it asks a peer for, which no fibre waits for (R157); ESCM sets %esc to its immediate, with x17 above it behind an IMX, where it lies within the window, and else halts with cause 0x0B (R159); IMX joins the unit that follows and moves no member (R61); FLUSHC makes the context's carts that it names depart, and those only (R282). YIELD, and SLEEP 0, end the flock and mark the fibre; SLEEP n puts it to sleep for n cycles, outside its flock, and SLEEP_EXPIRY wakes it once they are over and not before (R93). -/
def Obligations.HintsMasksAndPacing : Prop := ∀ (h : Hdr) (n : BitVec 17) (fl : Flock) (f g : Fibre) (s : State), Solo h fl f g s →
  let c := unitCtx h fl s
  (∀ base lv, ∃ t, exec (.pref h base lv) s = .next t ∧ t.mem = s.mem ∧ t.aq = s.aq
      ∧ (∀ k, (t.fibre? k).map (fun y => (y.ip, y.regs, y.preds, y.fs, y.wb)) = ((passed h fl s).fibre? k).map fun y => (y.ip, y.regs, y.preds, y.fs, y.wb))
      ∧ (Roomy s → t = { passed h fl s with ctxs := t.ctxs, pages := t.pages, out := t.out, lines := t.lines, l1 := t.l1, flocks := t.flocks, reqs := t.reqs, chans := t.chans, serial := t.serial }
        ∧ ∃ rs, t.reqs = (passed h fl s).reqs ++ rs ∧ rs.length ≤ 1 ∧ ∀ r ∈ rs, r.kind = .pref ∧ r.key = f.key))
  ∧ (∀ i,
    let v : Word := match c.imxs.getLast? with
      | none => i.zeroExtend 32
      | some x => x.extractLsb' 0 15 ++ i
    (v &&& ~~~(windowMask (s.winOf f.key)) = 0#32 → ∃ t, exec (.escm h i) s = .next t ∧ Becomes (passed h fl s) t f.key { past h fl s g with esc := v })
    ∧ ∀ x, v &&& ~~~(windowMask (s.winOf f.key)) ≠ 0#32 → s.ctxs.get? (s.ctxOf f.key) = some x → x.halting = none →
        ∃ t, exec (.escm h i) s = .next t ∧ Halts (passed h fl s) t (s.ctxOf f.key) ⟨12, 0x0B, c.uaddr, some f.key, 1⟩)
  ∧ (∀ x, ∃ t, exec (.imx x) s = .next t ∧ t = { s with flocks := t.flocks }
      ∧ t.flockOf? s.cur = some { fl with imxs := fl.imxs ++ [x], unitAddr := fl.uaddr, snap := s.snapOf fl, addr := nextWord fl.addr })
  ∧ (∀ tgt, (s.carts.map Prod.fst).Nodup →
    let named (e : Nat × Cart) : Bool := decide (e.1 / 256 = f.key.die ∧ e.2.ctx = s.ctxOf f.key) && (match tgt with
      | .all => true
      | .peer p => decide (e.2.group = false ∧ e.2.peer = p.toNat)
      | .grp p => decide (e.2.group = true ∧ e.2.peer = p.toNat))
    ∃ t, exec (.flushc h tgt) s = .next t ∧ t = { passed h fl s with carts := t.carts, chans := t.chans, unacked := t.unacked, flocks := t.flocks }
      ∧ t.carts = s.carts.filter (fun e => !named e) ∧ t.unacked.length = s.unacked.length + (s.carts.filter named).length)
  ∧ (∀ x ∈ [Instr.yield h, Instr.sleep h 0#17], ∃ t, exec x s = .next t ∧ Becomes (passed h fl s) t f.key { past h fl s g with yielded := true }
      ∧ (h.c = false → t.flockOf? fl.q = none))
  ∧ (n ≠ 0#17 → ∃ t, exec (.sleep h n) s = .next t ∧ Becomes (passed h fl s) t f.key ((past h fl s g).await s.serial (unitCtx h fl s).uaddr (.sleep (s.now + n.toNat)))
      ∧ (h.c = false → ∀ v, t.flockOf? fl.q = some v → f.key ∉ v.members))
  ∧ ∀ (k : FKey) (e : Fibre) (w : Nat) (u : State), u.fibre? k = some e → e.wait = .sleep w → e.more = [] → e.rfaults = [] →
      (u.now < w → exec (.sleepExpiry k) u = .next u)
      ∧ (w ≤ u.now → ∃ t, exec (.sleepExpiry k) u = .next t ∧ t = { u with fibres := t.fibres } ∧ t.fibre? k = some { e with wait := .none })

/-! ### Waiting on memory and on other fibres (R202, R229, R230, R251 to R259) -/

/-- R257 to R259, R253, R202, R251: FENCE and BAR put the member into their wait; WAITC, TWAIT and VALSET request the word or the lines they name and wait for that request, WAITC and TWAIT with the whole window as their escort (R162). -/
def Obligations.SynchronisationWaits : Prop := ∀ (h : Hdr) (d a b : RegNo) (fl : Flock) (f g : Fibre) (s : State), Solo h fl f g s →
  let c := unitCtx h fl s
  let x := s.beginUnit fl
  let va := (f.pair a).toNat
  let p := passed h fl s
  let asleep (y t : State) (id : Nat) : Prop := ∀ j, t.fibre? j = (y.fibre? j).map fun z => if j = f.key then z.await c.seq c.uaddr (.request id) else z
  let waits (i : Instr) (acc : Acc) (n : Nat) (kind : ReqKind) (dw : Nat) : Prop :=
    ∀ loc l, acc = .ok (.home loc) l →
      let y := ends h fl (x.touched f.key l va)
      ∃ t r, exec i s = .next t ∧ Asks { y with fibres := t.fibres } t r
        ∧ IsRequest c f va n (.home loc) kind true false d dw 0 (some (windowMask (s.winOf f.key))) r ∧ asleep y t r.id
  (∃ t, exec (.fence h) s = .next t ∧ Becomes p t f.key ((past h fl s g).await c.seq c.uaddr (.fence c.seq)))
  ∧ (∀ lv m,
    let g1 := (past h fl s g).await c.seq c.uaddr (.bar lv m c.seq c.nxt)
    ∃ t g2, exec (.bar h lv m) s = .next t ∧ t.fibre? f.key = some g2 ∧ g2.regs = g1.regs ∧ g2.ip = g1.ip ∧ (g2.waits = g1.waits ∨ g2.wait = .halted)
      ∧ (Undirtied s f.key.share → t = { p with fibres := t.fibres, flocks := t.flocks, carts := t.carts, chans := t.chans, unacked := t.unacked }
        ∧ ∀ j, t.fibre? j = if j = f.key then some g1 else p.fibre? j))
  ∧ (∀ cc, waits (.waitcSigned h d a b cc) (x.access f.key va 4 false) 4 (.waitc true cc (f.reg b)) 1)
  ∧ (∀ ge, waits (.waitcUnsigned h d a b ge) (x.access f.key va 4 false) 4 (.waitc false (if ge then .ge else .lt) (f.reg b)) 1)
  ∧ (∀ i : BitVec 7, waits (.twait h d a i) (x.complAccess f.key va) 8 (.twait (BitVec.ofInt 32 (imm c i)).toInt) (if d = 0#5 then 0 else 1))
  ∧ ∀ st q0 pairs sa locs, x.valList f va st = .ok pairs sa →
      let q := pairs.map (fun q => (q.1, false)) ++ if st then [(sa, true)] else []
      let y : State := ends h fl (q.foldl (fun (s : State) e => s.walkVa f.key e.1) x)
      x.valLines f.key q = (none, locs.map some) → locs ≠ [] →
      locs.length = pairs.length + (if st then 1 else 0) → (∀ l ∈ locs, homeDie l = homeDie (locs.headD 0)) →
      let lines := (locs.take pairs.length).map fun l => l / 256
      (st = true → locs.getLastD 0 / 256 ∈ lines) →
      ∃ t r, exec (.valset h q0 a b st) s = .next t ∧ Asks { y with fibres := t.fibres } t r
        ∧ r.key = f.key ∧ r.dest = .home (locs.headD 0) ∧ r.kind = .valset (lines.zip (pairs.map Prod.snd)) (if st then some (locs.getLastD 0, f.reg b) else none) q0 ∧ asleep y t r.id

/-- R229, R257: a FENCE ends once no older read, buffered write, queued write or cart element of its fibre is left, and then its fibre's view names every write applied so far, RF tells of entries that the remote-fault queue has taken, and the L1 of its share holds no unowned line but those of pages with RO = 1 (R135); until then the L1 writes back, older carts depart, and it waits. R95: a PSET behind it reads the %fs that it leaves. R259: a BAR without a monitor check ends for all of its group at once, when every live fibre of the group has arrived, and until then for none. -/
def Obligations.FencesAndBarriersEnd : Prop :=
  (∀ (u : State) (k : FKey) (e : Fibre) (n : Nat) (a : DWord), u.fibre? k = some e → u.midChain k = false → e.rfaults = [] →
    (∀ q, e.waits = [⟨n, a, .fence q⟩] →
      let v := u.release k q
      let x := v.shareAcquire k.share
      ∀ e1, v.fibre? k = some e1 → e1.waits = e.waits →
      (v.fenceOk e1 q = false → u.settleOne k = v)
      ∧ (v.fenceOk e1 q = true → ∀ e2, x.fibre? k = some e2 → e2.waits = e.waits →
          ∃ e', (u.settleOne k).fibre? k = some e' ∧ e'.waits = [] ∧ e'.view.upTo = max e2.view.upTo x.hist.length
            ∧ e'.regs = e.regs ∧ e'.ip = e.ip ∧ e'.preds = e.preds
            ∧ (e'.fsBit fsRF = if (x.share k.share).rfSeen < (x.ctx (x.ctxOf k)).fails then true else e.fsBit fsRF)
            ∧ ∀ l ∈ (u.settleOne k).l1, l.share = k.share → l.owned = true ∨ l.ro = true))
    ∧ ∀ lv q m, e.waits = [⟨n, a, .bar lv false q m⟩] → e.res ≠ .ended →
      let v := u.release k q
      let gs := v.barGroup k lv
      let t := u.settleOne k
      ((∃ y ∈ gs, v.arrived y lv = false) → ∀ e1, v.fibre? k = some e1 → e1.waits = e.waits → t = v)
      ∧ ((∀ y ∈ gs, v.arrived y lv = true) → (∀ y ∈ gs, ∃ n' a' q' m', y.waits = [⟨n', a', .bar lv false q' m'⟩]) → (lv = .lch → (v.ctx (v.ctxOf k)).unplaced = []) →
          (v.fibres.map fun y => y.key).Nodup → (∀ y ∈ v.fibres, ∀ w ∈ y.wb, w.cached = false) → (∃ e1, v.fibre? k = some e1 ∧ e1.waits = e.waits ∧ e1.rfaults = []) →
          t = { v with fibres := t.fibres, l1 := t.l1 }
          ∧ (∀ y ∈ gs, ∃ z, t.fibre? y.key = some z ∧ z.waits = [] ∧ ∀ x ∈ gs, x.view.upTo ≤ z.view.upTo ∧ ∀ i ∈ x.view.wids, i ∈ z.view.wids)
          ∧ (∀ y ∈ gs, ∀ l ∈ t.l1, l.share = y.key.share → l.owned = true ∨ l.ro = true)
          ∧ ∀ j, (∀ y ∈ gs, y.key ≠ j) → t.fibre? j = v.fibre? j))
  ∧ ∀ (u : State) (e : Fibre) (n : Nat) (a : DWord) (p : PredNo) (bit : Nat) (src : FKey) (z : Fibre), e.waits = [⟨n, a, .pset p bit src⟩] → u.fibre? src = some z →
    (u.fsKnown src n = true → (u.psetDone e).waits = [] ∧ (u.psetDone e).preds = (e.setPred p (z.fsBit bit)).preds ∧ (u.psetDone e).regs = e.regs)
    ∧ (u.fsKnown src n = false → u.psetDone e = e)

/-! ### Privileged registers (R322) -/

/-- R322: in a context with PRIV, MOVP writes the value of the register that it names to gd; MOVPW to %rfq sets its base and enable for the context, and MOVPW to %xinv, while no invalidation is under way, writes the register, and with GO = 1 waits until INVALIDATION_COMPLETE. -/
def Obligations.PrivilegedRegistersMove : Prop := ∀ (h : Hdr) (d : RegNo) (fl : Flock) (f g : Fibre) (s : State) (x : Ctx), Solo h fl f g s →
  let n := s.ctxOf f.key
  let t := s.tenOf f.key
  s.ctxs.get? n = some x → x.priv = true →
  let g1 := past h fl s g
  let gives (r : PrivReg) (y : Fibre) : Prop := ∃ t, exec (.movp h d r) s = .next t ∧ Becomes (passed h fl s) t f.key y
  gives .ctxid (g1.setReg d (BitVec.ofNat 32 (n + 512 * x.ten)))
  ∧ gives .ctxattr (g1.setReg d (BitVec.ofNat 32 (1 + (if x.prot then 2 else 0) + 4 * x.keyslot)))
  ∧ gives .sctr (g1.setPair d x.sctr) ∧ gives .xinv (g1.setPair d (s.reg (0xA008 + 0x20 * x.ten))) ∧ gives .rfq (g1.setPair d x.rfq)
  ∧ (∃ u, exec (.movpw h d .rfq) s = .next u ∧ u = { passed h fl s with ctxs := u.ctxs, flocks := u.flocks }
      ∧ u.ctxs.get? n = some { x with rfq := f.pair d &&& 0xFFFFFFFFFFFFFF01#64 } ∧ ∀ j, j ≠ n → u.ctxs.get? j = s.ctxs.get? j)
  ∧ ((s.reg (0xA008 + 0x20 * t)).getLsbD 0 = false →
      ∃ u, exec (.movpw h d .xinv) s = .next u ∧ u = { passed h fl s with fibres := u.fibres, regs := u.regs, pages := u.pages, out := u.out, flocks := u.flocks }
        ∧ u.reg (0xA008 + 0x20 * t) = f.pair d &&& 0xFFFFFFFFFFFF0007#64 ∧ (∀ o, o ≠ 0xA008 + 0x20 * t → u.reg o = s.reg o)
        ∧ ∀ j, u.fibre? j = if j = f.key then some (if (f.pair d).getLsbD 0 then g1.await s.serial (unitCtx h fl s).uaddr .xinv else g1) else (passed h fl s).fibre? j)

/-! ### Engine units (R200 to R215, R232, R271, R272, R296, R301, R321) -/

/-- R200, R271, R272, R296, R301, R321, R232: the units that wait for their engine thread start it with their operands and put the member into that wait. -/
def Obligations.EngineUnitsWait : Prop := ∀ (h : Hdr) (d a b : RegNo) (x : TdNo) (spad : Bool) (fl : Flock) (f g : Fibre) (s : State), Solo h fl f g s →
  let c := unitCtx h fl s
  let y := s.beginUnit fl
  let va := (f.pair a).toNat
  let n := (f.reg b).toNat
  let waits (i : Instr) (z : State) (kind : EKind) (va : Nat) (sp : Bool) (arg : Nat) (dst : RegNo) : Prop :=
    ∃ t op, exec i s = .next t ∧ Waits (ends h fl z) t f.key op (.engine op.id) ∧ IsOp c f s kind op ∧ op.va = va ∧ op.spad = sp ∧ op.arg = arg ∧ op.dst = dst
  let priv : Prop := (s.ctx (s.ctxOf f.key)).priv = true
  let walked : State := y.walkVa f.key va
  (∀ q l, y.imageAccess f.key spad va false = .ok q l → waits (.tdset h x a spad) (if spad then y else walked) .tdset va spad x.toNat 0#5)
  ∧ (∀ q l, y.imageAccess f.key spad va true = .ok q l → waits (.tdget h x a spad) (if spad then y else walked) .tdget va spad x.toNat 0#5)
  ∧ waits (.tdinv h x) y .tdinv 0 false x.toNat 0#5
  ∧ (va % 64 = 0 → waits (.monset h a b) y .monset va false n 0#5)
  ∧ (va % 64 = 0 → n ≤ 7 → y.monTaken (s.ctxOf f.key) n = false → waits (.monrd h a b) y .monrd va false n 0#5)
  ∧ (priv → ∀ q l, va % 32 = 0 → y.access f.key va 1 false = .ok q l → waits (.wopen h d a b) walked .wopen va false n d)
  ∧ (priv → waits (.wrevoke h d b) y .wrevoke 0 false n d)
  ∧ (priv → ∀ q l, va % 4096 = 0 → y.access f.key va 1 false = .ok q l → n < 512 →
      waits (.save h d a b) walked .save va false n d ∧ waits (.rest h d a b) walked .rest va false n d)
  ∧ (priv → ∀ q l, va % 16 = 0 → y.access f.key va 1 false = .ok q l → n < 64 → waits (.keyld h d a b) walked .keyld va false n d)
  ∧ (priv → n < 1024 → waits (.evict h d b) y .evict 0 false (n % 512) d)

/-- WAITING_UNIT_END (R232) of those units, once the thread has forked and what it moves to and from peers is under way: TDSET enters an accepted image as valid and TDINV makes the entry invalid (R200), TDGET and MONRD have written the image that they took as they issued, 16 bytes at a time, and end once it is applied (R200, R301), WOPEN opens a free window with the next generation and WREVOKE closes one (R271, R272), MONSET binds its slot (R296), MSCL has loaded the scales of its rows (R204), KEYLD unwraps a key into its slot, EVICT.KILL halts its target, SAVE and REST report 1 for a context that is no target or not in the STATE they need. SAVE reports 3 for a region that it may not write and 5 without a key; else the target is quiesced in STATE 2, and once it is quiet SAVE reports 4 and lets it run on where the region is too small, and else writes the image, releases the shares and leaves the target in STATE 3 with the next save counter (R317, R321). REST raises STALE for an older image, or for the current one once restored, reports 2 for a newer one and 5 without a key; of the body, a tag that fails poisons the target and raises INTEGRITY, sections that do not add up report 1 and a want of places 4, with the target as it was, and else the target runs again (R321). -/
def Obligations.WaitingUnitsEnd : Prop := ∀ (u s : State) (k : FKey) (f : Fibre) (n0 : Nat) (a0 : DWord) (op0 op : EngineOp) (d : BitVec 512) (bs : List Byte) (as : List LineAnswer),
  u.fibre? k = some f → f.waits = [⟨n0, a0, .engine op0.id⟩] → u.eop? op0.id = some op0 → op0.ended = false → op0.forked = true → u.midChain k = false →
  s = u.sendsOf op0 → s.mover? op0.id = some op → op.key = k → op.id = op0.id →
  let n := op.ctx
  let reads (len : Nat) (z : State) : Prop := z = s.threadWalk k op.spad op.va len true ∧ (∀ g, z.fibre? k = some g → g.waits = f.waits)
    ∧ (z.threadReadAll k op.view op.spad op.va len as).1 = .ok bs
  let ends (t : State) : Prop := t.eop? op.id = none ∧ ∃ g, t.fibre? k = some g ∧ g.waits = []
  let result (t : State) (v : Nat) : Prop := ∃ g, t.fibre? k = some g ∧ g.reg op.dst = BitVec.ofNat 32 v ∧ ∀ r, r ≠ op.dst → g.reg r = f.reg r
  let run (p : State → Prop) : Prop := ∃ t, exec (.waitingUnitEnd k as) u = .next t ∧ p t
  (op.kind = .tdset → ∀ z, reads 64 z → (z.ctxs.get? n).isSome → imgOf bs = d →
    descOk d ((z.ctx n).lrec.s * (z.ctx n).lrec.w) (z.ctx n).lrec.spad = true →
    run fun t => ends t ∧ (∀ x, t.descOf n x = if x = op.arg then dSetV d true else s.descOf n x) ∧ t.mem = z.mem)
  ∧ (op.kind = .tdinv → (s.ctxs.get? n).isSome →
    run fun t => ends t ∧ (∀ x, t.descOf n x = if x = op.arg then dSetV (s.descOf n x) false else s.descOf n x) ∧ t.mem = u.mem)
  ∧ (op.kind = .tdget ∨ op.kind = .monrd →
    (op.landed = false → ∀ s1 v1 rest g, s.threadWriteAll op op.view op.spad op.va (imgBytes (op.descs.headD 0#512)) as = (s1, v1, none, rest) →
      s1.fibre? k = some g → g.waits = f.waits →
      run fun t => t.mem = s1.mem ∧ (s1.threadApplied op.id = true → ends t)
        ∧ (s1.threadApplied op.id = false → ∀ o, s1.eop? op.id = some o → t.eop? op.id = some { o with landed := true, view := v1 } ∧ t.fibre? k = some g))
    ∧ (op.landed = true → s.threadApplied op.id = true → run fun t => ends t ∧ t.mem = u.mem))
  ∧ (op.kind = .wopen → op.spad = false → ∀ z, reads 32 z → op.arg ≤ 4095 → winOk (BitVec.ofNat 256 (leNat bs)) = true →
    (z.window op.arg).v = false → z.mapsWindow (z.tenOf k) (leNat bs % 2 ^ 64) (leNat bs % 2 ^ 64 + leNat bs / 2 ^ 64 % 2 ^ 64) = false →
    let e := (s.window op.arg).gen
    let e' : BitVec 16 := if e = 0xFFFF#16 then 1#16 else e + 1#16
    run fun t => ends t ∧ t.window op.arg = ⟨BitVec.ofNat 256 (leNat bs), true, e', s.tenOf k⟩ ∧ result t e'.toNat)
  ∧ (op.kind = .wrevoke → op.landed = false → op.arg ≤ 4095 → (s.window op.arg).v = true → (s.window op.arg).ten = s.tenOf k → s.importsApplied = true →
    let e := (s.window op.arg).gen
    let e' : BitVec 16 := if e = 0xFFFF#16 then 1#16 else e + 1#16
    run fun t => ends t ∧ (t.window op.arg).v = false ∧ (t.window op.arg).gen = e' ∧ result t e'.toNat)
  ∧ (op.kind = .monset → op.spad = false → ∀ z, reads 64 z → imgOf bs = d → op.arg ≤ 7 → monOk d = true → z.monTaken n op.arg = false →
    monEn d = true → run fun t => ends t ∧ t.monitors.get? op.arg = some ⟨n, (z.ctx n).order, d, MonSum.zero, false, 0, 0, 0⟩ ∧ t.mem = z.mem)
  ∧ (op.kind = .mscl → ∀ s1 v1 rest g, s.tileNext? op.key.c op.tile = some op →
    Scales.rows (s, op.view, none, as) k op.tile (op.descs.headD 0#512) (op.arg / 64 % 2) (op.arg % 64) 0 (dN (op.descs.headD 0#512) 0 / 32) = (s1, v1, none, rest) →
    s1.fibre? k = some g → g.waits = f.waits → run fun t => ends t ∧ t.mem = s1.mem ∧ (t.tile op.key.c op.tile).scales = (s1.tile op.key.c op.tile).scales)
  ∧ (op.kind = .keyld → op.spad = false → ∀ kek key z, reads 48 z → (∀ x ∈ bs.drop 40, x = 0#8) → s.keks.get? (s.tenOf k) = some kek →
    (∀ e ∈ z.ctxs, e.2.prot = true → e.2.keyslot ≠ op.arg) → ((s.keys.getD op.arg ⟨none, 0⟩).key = none ∨ (s.keys.getD op.arg ⟨none, 0⟩).ten = s.tenOf k) →
    keyUnwrap kek (bs.take 40) = some key →
    run fun t => ends t ∧ result t 0 ∧ t.keys.get? op.arg = some ⟨some key, s.tenOf k⟩ ∧ ∀ j, j ≠ op.arg → t.keys.get? j = s.keys.get? j)
  ∧ (op.kind = .save → op.step = 0 →
    let reports (v : Nat) : Prop := run fun t => ends t ∧ result t v ∧ t.mem = u.mem ∧ ∀ c, c ≠ n → t.ctxs.get? c = s.ctxs.get? c
    (s.target? op = none → reports 1)
    ∧ ∀ x, s.target? op = some x →
      let writable := s.regionOk k (op.va + 4096 * op.lines) (op.lines / 16 + 2) op.va
      (x.st ≠ 1 → reports 1) ∧ (x.st = 1 → writable = false → reports 3)
      ∧ (x.st = 1 → writable = true → x.prot = true → s.keyOf x.keyslot = none → reports 5)
      ∧ (x.st = 1 → writable = true → (x.prot = true → s.keyOf x.keyslot ≠ none) → (∃ e ∈ s.eops, e.ctx = op.arg ∧ e.kind = .mma) →
        run fun t => (∃ o, t.eop? op.id = some o ∧ o.step = 1) ∧ (∃ y, t.ctxs.get? op.arg = some y ∧ y.st = 2) ∧ ∀ y ∈ t.flocks, (t.share y.sh).ctx ≠ op.arg))
  ∧ (op.kind = .save → op.step = 1 → s.ctxOf k = n → ∀ x, s.target? op = some x → x.st = 2 → s.quiet op.arg = true →
    let y := s.decideAll op.arg
    let size := 0x80 + (y.imageBody op.arg).length
    let x' : Ctx := { x with sctr := x.sctr + 1#64, rstd := false }
    let z : State := { y.updCtx op.arg fun c => { c with sctr := x.sctr + 1#64, rstd := false } with
      hwm := if x.prot && decide ((y.hwm.getD x.keyslot 0#64).toNat < (x.sctr + 1#64).toNat) then y.hwm.set x.keyslot (x.sctr + 1#64) else y.hwm }
    (4096 * op.lines < size → run fun t => ends t ∧ result t 4 ∧ t.mem = y.mem ∧ ∃ c, t.ctxs.get? op.arg = some c ∧ c.st = 1 ∧ c.sctr = x.sctr)
    ∧ ∀ s1 v1, size ≤ 4096 * op.lines → z.writeImage op x' (imageHead op.arg x' size) (y.imageBody op.arg) = (s1, v1, none) → s1.threadApplied op.id = true →
      (∃ g, s1.fibre? k = some g ∧ g.regs = f.regs ∧ g.waits = f.waits) → run fun t => ends t ∧ result t 0 ∧ (∀ a, isDram a → t.mem.get a = s1.mem.get a) ∧ (∀ e ∈ t.shares, e.2.ctx ≠ op.arg)
        ∧ ∃ c, t.ctxs.get? op.arg = some c ∧ c.st = 3 ∧ c.sctr = x.sctr + 1#64 ∧ c.rstd = false)
  ∧ (op.kind = .rest → op.step = 0 → (s.threadReadAll k op.view false op.va 128 as).1 = .ok bs →
    let reports (v : Nat) : Prop := run fun t => ends t ∧ result t v ∧ t.mem = u.mem ∧ ∀ c, c ≠ n → t.ctxs.get? c = s.ctxs.get? c
    let ctr := recField bs 8 8
    (s.target? op = none → reports 1)
    ∧ ∀ x, s.target? op = some x → (((x.st ≠ 3 ∧ x.st ≠ 5) ∨ headOk bs op.arg x = false) → reports 1)
      ∧ ((x.st = 3 ∨ x.st = 5) → headOk bs op.arg x = true →
        (ctr < x.sctr.toNat ∨ (ctr = x.sctr.toNat ∧ x.rstd = true) → f.rfaults = [] → (∃ w, f.res = .resident w) → f.fault ≠ 0#64 → f.fsBit fsFP = false →
          s.frameOk k f.fault.toNat = true → UncountedFrame s k f.fault.toNat →
          run fun t => TakesFault s t k f ⟨7, 0, 0, op.unitAddr, op.va, ctr % 2 ^ 32, windowMask (s.winOf k), op.unitAddr, op.seq⟩ ∧ ∀ c, c ≠ n → t.ctxs.get? c = s.ctxs.get? c)
        ∧ (x.sctr.toNat < ctr → reports 2)
        ∧ (ctr = x.sctr.toNat → x.rstd = false → x.prot = true → s.keyOf x.keyslot = none → reports 5)))
  ∧ (op.kind = .rest → op.step = 1 → s.landHeld op.arg = false →
    let hd := imgBytes (op.descs.headD 0#512) ++ imgBytes (op.descs.getD 1 0#512)
    let size := recField hd 0x10 8
    ∀ x, s.target? op = some x → x.st = 4 → (s.threadReadAll k op.view false (op.va + 128) (size - 128) as).1 = .ok bs →
    let z := (List.range (size / 65536 + 2)).foldl (fun (s : State) i => s.walkVa k (min (op.va + 65536 * i) (op.va + size - 1))) s
    let back (v : Nat) : Prop := run fun t => ends t ∧ result t v ∧ t.mem = z.mem ∧ ∃ c, t.ctxs.get? op.arg = some c ∧ c.st = if op.free then 5 else 3
    (s.openImage x hd bs = none → f.rfaults = [] → (∃ w, f.res = .resident w) → f.fault ≠ 0#64 → f.fsBit fsFP = false → s.frameOk k f.fault.toNat = true → UncountedFrame s k f.fault.toNat →
      run fun t => TakesFault z t k f ⟨8, 0, 0, op.unitAddr, op.va, recField hd 8 8 % 2 ^ 32, windowMask (s.winOf k), op.unitAddr, op.seq⟩
        ∧ ∃ c, t.ctxs.get? op.arg = some c ∧ c.st = 5)
    ∧ ∀ b, s.openImage x hd bs = some b → (imageSects b x size = none → back 1)
      ∧ ∀ xs, imageSects b x size = some xs → (z.placeImage op.arg x xs = none → back 4)
        ∧ ∀ s1 shs, z.placeImage op.arg x xs = some (s1, shs) → x.prot = false → (∀ a ∈ x.away, a.late = none) → (∃ g, (s1.restore op.arg b x xs shs).fibre? k = some g ∧ g.regs = f.regs ∧ g.waits = f.waits) →
          run fun t => ends t ∧ result t 0 ∧ t.mem = (s1.restore op.arg b x xs shs).mem
            ∧ (∃ c, t.ctxs.get? op.arg = some c ∧ c.st = 1 ∧ c.rstd = true) ∧ ∀ sh ∈ shs, ∃ e, t.shares.get? sh = some e ∧ e.ctx = op.arg)
  ∧ (op.kind = .evict → op.free = true → ∀ x, s.target? op = some x → x.st = 1 → x.halting = none →
    run fun t => t.eop? op.id = none ∧ result t 0 ∧ ∃ y hl, t.ctxs.get? op.arg = some y ∧ y.st = 6 ∧ y.halting = some hl
      ∧ ⟨16, 0x28, 0#64, none, 0⟩ ∈ hl.infos)
/-! ### Matrix numbers (R185 to R193, R298) -/

/-- R188, R190, R298: the block integer of two blocks of at most 32 eight-bit elements is their exact dot product, whatever the residue channels; `scaleRound` gives P * 2^n, to the nearest integer and to the even one on a tie where n < 0, and says whether that was exact; a sum adds exactly within 96 bits, stops at the bound it would pass with SAT set, and stays there; a scale of 255 sets NAN and adds nothing. -/
def Obligations.MatrixNumbersFollowR190 : Prop :=
  (∀ xs ys : List Int, xs.length ≤ 32 → ys.length = xs.length → (∀ x ∈ xs, -128 ≤ x ∧ x ≤ 127) → (∀ y ∈ ys, -128 ≤ y ∧ y ≤ 127) →
    blockProduct xs ys = ((xs.zip ys).map fun p => p.1 * p.2).sum)
  ∧ (∀ (p : Int) (n : Nat), scaleRound p n = (p * 2 ^ n, true)
      ∧ 2 * |2 ^ n * (scaleRound p (-n)).1 - p| ≤ 2 ^ n
      ∧ (2 * |2 ^ n * (scaleRound p (-n)).1 - p| = 2 ^ n → (scaleRound p (-n)).1 % 2 = 0)
      ∧ ((scaleRound p (-n)).2 = true ↔ (2 : Int) ^ n * (scaleRound p (-n)).1 = p))
  ∧ (∀ (x : MonSum) (v : Int), (x.sat = true → x.add v = x)
      ∧ (x.sat = false → x.add v = if 2 ^ 95 - 1 < x.a + v then { x with a := 2 ^ 95 - 1, sat := true }
          else if x.a + v < -2 ^ 95 then { x with a := -2 ^ 95, sat := true } else { x with a := x.a + v }))
  ∧ ∀ (x : MonSum) (p eb : Int) (sa sb : Nat),
      (sa = 255 ∨ sb = 255 → accumulate x p sa sb eb = ({ x with nan := true }, false))
      ∧ (sa ≠ 255 → sb ≠ 255 → accumulate x p sa sb eb = (x.add (scaleRound p (sa + sb - 254 - eb)).1, !(scaleRound p (sa + sb - 254 - eb)).2))

/-! ### Tile and copy units (R196 to R214) -/

/-- MSCL and MZERO take their tile when it is free or their household's, else the fibre waits for it (R196); MMA, MDRN, CPY and TMM start their operation when their checks pass, and the fibre goes on; an MMA or MDRN whose household does not hold the tile halts with cause 0x1D (R207, R210). -/
def Obligations.TileAndCopyUnitsStart : Prop := ∀ (h : Hdr) (x y : TdNo) (a : RegNo) (tl fr : Bool) (p : PredNo) (fl : Flock) (f g : Fibre) (s : State), Solo h fl f g s →
  let c := unitCtx h fl s
  let z := s.beginUnit fl
  let T := if tl then 1 else 0
  let n := s.ctxOf f.key
  let holder := (s.tile f.key.c T).holder
  let d := s.descOf n x.toNat
  let e := s.descOf n y.toNat
  let g1 := past h fl s g
  let awaits (wt : Nat → Wait) (op : EngineOp) (v : Fibre) : Fibre := v.await c.seq c.uaddr (wt op.id)
  let starts (i : Instr) (kind : EKind) (taken : Bool) (becomes : EngineOp → Fibre → Fibre) (more : EngineOp → Prop) : Prop :=
    Runs i s fun t => ∃ op ∈ t.eops, op.kind = kind ∧ op.key = f.key ∧ op.ctx = n ∧ op.unitAddr = c.uaddr ∧ op.ended = false ∧ op.accepted.isSome = taken ∧ more op
      ∧ t.mem = s.mem ∧ t.fibre? f.key = some { becomes op g1 with foln := if kind = .cpy ∧ op.free = true then some op.id else none }
      ∧ ∀ j, j ≠ f.key → t.fibre? j = (passed h fl s).fibre? j
  let same (_ : EngineOp) (v : Fibre) : Fibre := v
  (holder = none ∨ holder = some f.key.k → mxEntry d = true → dN d 1 ≤ 128 → (f.reg a).toNat < 128 → (f.reg a).toNat % 64 + dN d 0 / 32 ≤ 64 →
    starts (.mscl h x a tl) .mscl true (awaits Wait.engine) fun op => op.tile = T ∧ op.arg = (f.reg a).toNat ∧ op.descs = [d])
  ∧ (holder = none ∨ holder = some f.key.k → dV d = true → dFmt d = 0x30 →
    starts (.mzero h x tl) .mzero true same fun op => op.tile = T ∧ op.descs = [d])
  ∧ (∀ k, holder = some k → k ≠ f.key.k →
    starts (.mscl h x a tl) .mscl false (awaits Wait.tile) (fun op => op.tile = T) ∧ starts (.mzero h x tl) .mzero false (awaits Wait.tile) fun op => op.tile = T)
  ∧ (mmaFol c.x17 = false → z.mmaCause f.key T d e c.x17 = none →
    starts (.mma h x y tl) .mma true same fun op => op.tile = T ∧ op.descs = [d, e] ∧ op.parm = c.x17)
  ∧ (holder = some f.key.k → dV d = true → dFmt d = 0x10 ∨ dFmt d = 0x11 → dNdm1 d = 1 → dN d 0 = 128 → dN d 1 = 128 →
    starts (.mdrn h x fr p tl) .mdrn true same fun op => op.tile = T ∧ op.descs = [d] ∧ op.pred = p ∧ op.free = fr)
  ∧ (∀ obj, z.cpyCause f.key d e = none → z.parmObj f c.x17 = .ok obj →
    starts (.cpy h x y) .cpy false same fun op => op.descs = [d, e] ∧ op.obj = obj ∧ op.free = cpyFoln c.x17 ∧ op.landed = false)
  ∧ (∀ obj, let sd := tmmSd c.x17
    z.tmmCause f.key T d e (s.descOf n sd) (s.descOf n (sd + 1)) sd = none → z.parmObj f c.x17 = .ok obj →
    starts (.tmm h x y tl) .tmm false same fun op => op.tile = T ∧ op.descs = [d, e, s.descOf n sd, s.descOf n (sd + 1)] ∧ op.obj = obj ∧ op.step = 0)
  ∧ ∀ u, s.ctxs.get? n = some u → u.halting = none →
    (mmaFol c.x17 = true → Runs (.mma h x y tl) s fun t => Halts (passed h fl s) t n ⟨12, 0x1E, c.uaddr, some f.key, 1⟩)
    ∧ (holder ≠ some f.key.k → (mmaFol c.x17 = false → Runs (.mma h x y tl) s fun t => Halts (passed h fl s) t n ⟨12, 0x1D, c.uaddr, some f.key, 1⟩)
    ∧ Runs (.mdrn h x fr p tl) s fun t => Halts (passed h fl s) t n ⟨12, 0x1D, c.uaddr, some f.key, 1⟩)

/-- R212: after a CPY with FOLN = 1 the member's next unit is its follow-on MMA, which takes its place with the CPY as its partner; it is accepted once the copy has landed, every write of it has been applied and the tile's queue has room, at once where that is so already, and discarded where the copy ended with a fault, whose end is the copy's. Every other unit halts the context with cause 0x1E. -/
def Obligations.FollowOnsPair : Prop := (∀ (h : Hdr) (x y : TdNo) (tl : Bool) (fl : Flock) (f g : Fibre) (s : State) (cp : Nat) (e : EngineOp),
  s.flockOf? s.cur = some fl → (unitCtx h fl s).act = [f] → f.key ∈ fl.members → s.fibre? f.key = some g → g.wait ≠ .halted →
  g.foln = some cp → s.eop? cp = some e →
  let c := unitCtx h fl s
  let z := s.beginUnit fl
  let T := if tl then 1 else 0
  let n := s.ctxOf f.key
  let d := s.descOf n x.toNat
  let b := s.descOf n y.toNat
  (mmaFol c.x17 = true → (z.updFibre f.key fun v => { v with foln := none }).mmaCause f.key T d b c.x17 = none → Runs (.mma h x y tl) s fun t =>
    (e.landed = false →
      ∃ op ∈ t.eops, op.kind = .mma ∧ op.key = f.key ∧ op.tile = T ∧ op.descs = [d, b] ∧ op.parm = c.x17 ∧ op.partner = some cp ∧ op.accepted = none
        ∧ (t.eop? cp).map (fun v => v.partner) = some (some op.id))
    ∧ (e.landed = true → e.free = true → s.threadApplied cp = true → e.flt = none → s.queueRoom f.key.c T = true → (∀ o ∈ s.eops, o.id < s.serial) →
      ∃ op ∈ t.eops, op.kind = .mma ∧ op.key = f.key ∧ op.tile = T ∧ op.descs = [d, b] ∧ op.parm = c.x17 ∧ op.partner = some cp ∧ op.accepted.isSome)
    ∧ t.mem = s.mem ∧ t.fibre? f.key = some { past h fl s g with foln := none } ∧ ∀ j, j ≠ f.key → t.fibre? j = (passed h fl s).fibre? j)
  ∧ ∀ u i, s.ctxs.get? n = some u → u.halting = none → i.hdr? = some h → (∀ v w r, i = .mma h v w r → mmaFol c.x17 = false) → Runs i s fun t =>
    Halts (passed h fl s) t n ⟨12, 0x1E, c.uaddr, some f.key, 1⟩)
  ∧ ∀ (s : State) (cp m : Nat) (e y : EngineOp), s.eop? cp = some e → e.landed = true → e.free = true → e.partner = some m → s.eop? m = some y → m ≠ cp →
    (s.threadApplied cp = false → s.copySettle cp = s)
    ∧ (s.threadApplied cp = true → e.flt = none → y.accepted = none →
      (s.queueRoom y.key.c y.tile = true → (s.copySettle cp).eop? m = some { y with accepted := some s.serial })
      ∧ (s.queueRoom y.key.c y.tile = false → s.copySettle cp = s))
    ∧ (s.threadApplied cp = true → e.flt.isSome → (s.copySettle cp).eop? m = none ∧ (s.copySettle cp).eop? cp = some { e with ended := true })

/-- What the engines do with an operation whose turn has come. MZERO_APPLY clears every element and sets EB (R205). MMA_APPLY adds the products of the next K-block of the operands' rows, which its first event has fetched, to each element, with the tile's scales (R191, R207); after the last one the MMA is over, with the copy that it follows (R212). MDRN_APPLY ends its operation with INX as the drain saw it (R210). COPY_LANDED copies the next row (R211); after the last one the copy has landed, and with its writes applied a copy without a follow-on ends. A TMM chunk that is staged joins the tile's queue, one that the tile takes has its scales loaded and its blocks applied one by one, and the operation moves on to its next chunk, or ends (R214). That one event is one K-block or one row is the model's choice (log 27). -/
def Obligations.EnginesApply : Prop := ∀ (u : State) (c T : Nat) (op0 op : EngineOp),
  let a := op.descs.headD 0#512
  let b := op.descs.getD 1 0#512
  let tile (t : State) : Tile := t.tile c T
  let added (y t : State) (a b : BitVec 512) (ra rb : List (List Byte)) (q col : Nat) : Prop :=
    (tile t).ebOf = (tile y).ebOf ∧ (tile t).scales = (tile y).scales
    ∧ ∀ i < ra.length, ∀ j < rb.length, rb.length = 128 → (tile t).elem (128 * i + j) =
        (accumulate ((tile y).elem (128 * i + j)) (blockProduct (rowBlock a (ra.getD i []) q) (rowBlock b (rb.getD j []) q))
          ((tile y).scale 0 i col) ((tile y).scale 1 j col) (tile y).ebOf).1
  (u.tileNext? c T = some op → op.kind = .mzero →
    Runs (.mzeroApply c T) u fun t => (∀ i, (tile t).elem i = MonSum.zero) ∧ (tile t).ebOf = dEb a ∧ (tile t).inxOf = false
      ∧ (tile t).holder = (tile u).holder ∧ (tile t).scales = (tile u).scales ∧ t.eops = u.eops.filter (fun e => e.id ≠ op.id) ∧ t.mem = u.mem)
  ∧ (∀ ra rb v,
    let z := u.mmaWalk op
    u.tileNext? c T = some op → op.kind = .mma → op.flt = none → z.mmaRows op = .ok ((ra, rb), v) →
    Runs (.mmaApply c T) u fun t => t.mem = z.mem ∧ added z t a b ra rb op.step (mmaC op.parm + op.step)
      ∧ (op.step + 1 < mmaKb op.parm → u.eop? op.id = some op →
        ∃ o, t.eop? op.id = some o ∧ o.step = op.step + 1 ∧ o.rows = some (ra, rb) ∧ o.view = v ∧ o.kind = .mma ∧ o.accepted = op.accepted ∧ o.ended = op.ended)
      ∧ (mmaKb op.parm ≤ op.step + 1 → (∀ e ∈ t.eops, e.id ≠ op.id)
        ∧ (op.partner = none → mmaBc op.parm = 0 → t.eops = u.eops.filter fun e => e.id ≠ op.id)
        ∧ ∀ cp x, op.partner = some cp → cp ≠ op.id → u.eop? cp = some x → ∃ y, t.eop? cp = some y ∧ y.ended = true))
  ∧ ∀ (s : State) (as : List LineAnswer), s = u.sendsOf op0 → s.mover? op0.id = some op →
    (let m := s.drainRows op a (tile s) as;
      u.tileNext? c T = some op0 → op0.kind = .mdrn → op.kind = .mdrn → m.stop = none →
      Runs (.mdrnApply c T as) u fun t => t.mem = m.st.mem
        ∧ (op.free = false → ∀ o, m.st.eop? op.id = some o →
          t.eop? op.id = some { o with ended := true, snapInx := some (tile s).inxOf, view := m.view, flt := m.flt.map (moveFault 0xD6 (op.descNos.headD 0)) })
        ∧ (op.free = true → (∀ e ∈ m.st.eops, e.kind ≠ .mzero ∧ e.kind ≠ .mscl) → (tile t).holder = none))
    ∧ (∀ r, (copyRows a b)[op.step]? = some r →
      let m := (Move.start s op.view as).row op (dLoc b) r.1 (dLoc a) r.2 (elemBytes a) (dRowBytes a);
      u.thread? op0.id = some op0 → op0.kind = .cpy → op0.landed = false → (u.ctx op0.ctx).st ≠ 6 → m.stop = none → m.ans = [] →
      Runs (.copyLanded op0.id as) u fun t => t.mem = m.st.mem ∧ ∀ o, m.st.eop? op0.id = some o →
        let o1 : EngineOp := { o with
          step := o.step + 1, began := true, view := m.view
          flt := o.flt.orElse fun _ => m.flt.map (moveFault 0xD7 (op.descNos.getD (if dLoc a then 1 else 0) 0)) }
        (op.step + 1 < (copyRows a b).length → t.eop? op0.id = some { o1 with landed := false })
        ∧ ((copyRows a b).length = op.step + 1 → o.free = false → t.eop? op0.id = some { o1 with landed := true, ended := m.st.threadApplied op0.id || o.ended }))
    ∧ (u.thread? op0.id = some op0 → op0.kind = .tmm → op0.ended = false → (u.ctx op0.ctx).st = 1 → op.id = op0.id → op.key.c = c → op.tile = T →
      let b0 := 16 * (op.step / 16)
      let kq := min 16 (dN a 0 / 32 - b0)
      let q := op.step - b0
      let d2 := op.descs.getD 2 0#512
      let d3 := op.descs.getD 3 0#512
      let block (y t : State) (ra rb : List (List Byte)) (v : View) : Prop :=
        t.mem = y.mem ∧ added y t d2 d3 ra rb q q
        ∧ ∀ o, y.eop? op.id = some o → t.eop? op.id = some { o with
            step := o.step + 1, view := v, rows := if kq ≤ q + 1 then none else some (ra, rb), accepted := if kq ≤ q + 1 then none else o.accepted
            bulk := if kq ≤ q + 1 then none else o.bulk, ended := decide (dN a 0 / 32 ≤ op.step + 1) };
      (let m1 := (Move.start s op.view as).stage op a d2 b0 kq
        let m2 := m1.stage op b d3 b0 kq;
        op.accepted = none → s.queueRoom op.key.c op.tile = true → m1.flt = none → m2.stop = none → m2.flt = none →
        Runs (.tmmChunk op0.id as) u fun t => t.mem = m2.st.mem
          ∧ ∀ o, m2.st.eop? op.id = some o → t.eop? op.id = some { o with view := m2.view, bulk := none, accepted := some m2.st.serial })
      ∧ (op.accepted.isSome → (s.tileNext? op.key.c op.tile).map (fun e => e.id) = some op0.id →
        (∀ r, op.rows = some r → Runs (.tmmChunk op0.id as) u fun t => block s t r.1 r.2 op.view)
        ∧ ∀ ra rb v1 v2, let x := Scales.rows (s, op.view, none, as) op.key op.tile a 0 0 b0 kq
          let z := x.rows op.key op.tile b 1 0 b0 kq;
          op.rows = none → x.2.2.1 = none → z.2.2.1 = none →
          z.1.operandRows op.key z.2.1 d2 0 kq = (.ok ra, v1) → z.1.operandRows op.key v1 d3 0 kq = (.ok rb, v2) →
          Runs (.tmmChunk op0.id as) u fun t => block z.1 t ra rb v2))

/-- ENGINE_THREAD_COMPLETE (R201, R203, R210, R223, R232): an operation that has ended, and whose writes have been applied, leaves the engine; without a fault and with a completion object its count rises by one, in place, once every write that its view names has been applied, unless a flip holds the object's page (R238); an MDRN writes its predicate with the snapshot's INX. -/
def Obligations.EngineThreadsComplete : Prop := ∀ (s : State) (e : EngineOp), s.eop? e.id = some e →
  (e.ended = false ∨ s.threadApplied e.id = false ∨ (∃ loc, e.obj = some loc ∧ (s.pageHeld loc = true ∨ s.viewApplied e.view = false)) →
    exec (.engineThreadComplete e.id) s = .next s)
  ∧ (e.ended = true → s.threadApplied e.id = true → e.flt = none →
    (e.obj = none → e.kind ≠ .mdrn → Runs (.engineThreadComplete e.id) s fun t =>
      t = { s with eops := s.eops.filter (fun x => x.id ≠ e.id), ctxs := t.ctxs })
    ∧ (∀ loc, e.obj = some loc → s.pageHeld loc = false → s.viewApplied e.view = true → s.poisoned loc 8 = false → e.kind ≠ .mdrn → s.mem.wf = true → s.mem.read loc 8 % 2 ^ 48 ≠ 2 ^ 48 - 1 →
      loc % 8 = 0 → s.sliceStops loc = false →
      Runs (.engineThreadComplete e.id) s fun t => t.mem.read loc 8 = s.mem.read loc 8 + 1 ∧ (∀ x, x < loc ∨ loc + 8 ≤ x → t.mem.get x = s.mem.get x)
        ∧ t.eops = s.eops.filter (fun x => x.id ≠ e.id) ∧ (Roomy s → t.fibres = s.fibres))
    ∧ ∀ f, e.obj = none → e.kind = .mdrn → s.fibre? e.key = some f → Runs (.engineThreadComplete e.id) s fun t =>
      (∃ g, t.fibre? e.key = some g ∧ g.preds = (f.setPred e.pred (e.snapInx.getD false)).preds ∧ g.regs = f.regs ∧ g.ip = f.ip)
        ∧ t.eops = s.eops.filter (fun x => x.id ≠ e.id) ∧ t.mem = s.mem)

/-- The bytes that three engine moves leave at an address. R193, R210: an MDRN to the scratchpad stores the value of element (i, j), little-endian in the format's bytes, at row i and column j of its destination, and nothing else. R211: a row of a copy whose elements all succeed leaves in each byte of the destination's row the byte of the source's row, between memory and a scratchpad, and no other byte is changed; where the destination is memory this is said of a row in one line. R204, R196: MSCL loads scale block x of row i from SBASE + SST1 * i + x into column C + x of its side, and keeps the other scales. Reads take the present instant (the machine's lag is 0: log 5). -/
def Obligations.EngineBytes : Prop := ∀ (u s : State) (op0 op : EngineOp) (as : List LineAnswer),
  s = u.sendsOf op0 → s.mover? op0.id = some op → (∀ w ∈ s.aq, w.wid < s.serial) → u.mem.wf = true →
  let a := op.descs.headD 0#512
  let b := op.descs.getD 1 0#512
  let k := op.key
  (∀ (c T : Nat) (loc : Nat → Nat → Nat),
    let w := if dFmt a = 0x10 then 4 else 2
    let f := if dFmt a = 0x10 then fmt32 else fmtB16
    let m := s.drainRows op a (s.tile c T) as
    u.tileNext? c T = some op0 → op0.kind = .mdrn → m.stop = none → m.st.threadApplied op.id = true → dLoc a = true →
    (∀ i < 128, ∀ x < 128 * w, s.threadAcc k true (rowVa a 0 i + x) 1 true = .ok (.home (loc i x)) none) →
    (∀ i < 128, ∀ x < 128 * w, ∀ j < 128, ∀ y < 128 * w, loc i x = loc j y → i = j ∧ x = y) →
    Runs (.mdrnApply c T as) u fun t =>
      (∀ i < 128, ∀ j < 128, ∀ x < w,
        t.mem.get (loc i (w * j + x)) = (leBytes w (drainValue f ((s.tile c T).elem (128 * i + j)) (s.tile c T).ebOf)).getD x 0#8)
      ∧ ∀ y, (∀ i < 128, ∀ x < 128 * w, y ≠ loc i x) → t.mem.get y = u.mem.get y)
  ∧ (∀ (r : Nat × Nat) (ls ld : Nat → Nat),
    let n := dRowBytes a
    let m := (Move.start s op.view as).row op (dLoc b) r.1 (dLoc a) r.2 (elemBytes a) n
    (copyRows a b)[op.step]? = some r → u.thread? op0.id = some op0 → op0.kind = .cpy → op0.landed = false → (u.ctx op0.ctx).st ≠ 6 →
    m.stop = none → m.flt = none → m.ans = [] → m.st.threadApplied op0.id = true → s.lag = 0 → dLoc a ≠ dLoc b →
    (∀ i < n, (∃ l, s.threadAcc k (dLoc b) (r.1 + i) 1 false = .ok (.home (ls i)) l) ∧ ∃ l, s.threadAcc k (dLoc a) (r.2 + i) 1 true = .ok (.home (ld i)) l) →
    (dLoc a = false → r.2 % 256 + n ≤ 256 ∧ ∀ i < n, s.sliceStops (ld i) = false) →
    Runs (.copyLanded op0.id as) u fun t =>
      (∀ i < n, t.mem.get (ld i) = u.mem.get (ls i)) ∧ ∀ y, (∀ i < n, y ≠ ld i) → t.mem.get y = u.mem.get y)
  ∧ ∀ (f : Fibre) (n0 : Nat) (a0 : DWord) (loc : Nat → Nat → Nat),
    let n := dN a 0 / 32
    let side := op.arg / 64 % 2
    let col := op.arg % 64
    u.fibre? k = some f → f.waits = [⟨n0, a0, .engine op0.id⟩] → u.eop? op0.id = some op0 → op0.ended = false → op0.forked = true → u.midChain k = false →
    op.id = op0.id → op.kind = .mscl → s.tileNext? k.c op.tile = some op → s.lag = 0 → col + n ≤ 64 → dN a 1 ≤ 128 →
    (Scales.rows (s, op.view, none, as) k op.tile a side col 0 n).2.2.1 = none →
    (∀ i < dN a 1, ∀ x < n, ∃ l, s.threadAcc k (dSloc a) (scaleVa a i 0 + x) 1 false = .ok (.home (loc i x)) l) →
    Runs (.waitingUnitEnd k as) u fun t =>
      (∀ i < dN a 1, ∀ x < n, (t.tile k.c op.tile).scale side i (col + x) = (u.mem.get (loc i x)).toNat)
      ∧ ∀ y, (∀ i < dN a 1, ∀ x < n, y ≠ scaleKey side i (col + x)) → (t.tile k.c op.tile).scales.get? y = (u.tile k.c op.tile).scales.get? y
/-! ### Events of issue and of escorts (R51, R80 to R82, R163 to R179) -/

/-- R80, R51: FLOCK_FORM, in a quarter that has no flock, holds a ready fibre and is not stopped, takes the share of the oldest urgent fibre, or else the share that the weighted round robin of R51 chooses, whose counters it moves; the ready fibre of greatest age of that share (ties to the lower address, lane and stub) fixes the address, and every ready fibre of the share there joins, on each lane the one of greatest age (a fibre that has yielded stands back behind one of its lane that has not: log 57); in any other state it changes nothing. R81, R82: URGENT_FIBRE ends the flock of a quarter after its next unit; SCOREBOARD_HOLD_EXPIRY, once a member has been held for 8 cycles, lets the held members leave, and ends a flock of which every member has been held as long. -/
def Obligations.FlocksFormAndEnd : Prop := ∀ (s : State) (q : Nat),
  let comes (f g : Fibre) : Prop := s.age g < s.age f ∨ s.age f = s.age g ∧ (f.ip.toNat < g.ip.toNat
    ∨ f.ip = g.ip ∧ (f.key.l < g.key.l ∨ f.key.l = g.key.l ∧ f.key.s ≤ g.key.s))
  let ready := s.readyIn q
  let slots := (ready.map fun f => f.key.k).eraseDups
  let weightOf (k : Nat) : Int := 2 ^ (s.share (q / 4 * 4 + k)).prio
  let old (k : Nat) : Int := (s.quarter q).rr.toList.getD k 0
  (s.flockOf? q = none → (s.quarter q).stopped = false → ready ≠ [] → (∀ f ∈ ready, f.key.k < 4) →
    Runs (.flockForm q) s fun t => t = { s with cur := q, fibres := t.fibres, flocks := t.flocks, quarters := t.quarters }
      ∧ t.fibres = s.fibres.map (fun g => if g.key.quarter = q then { g with yielded := false } else g)
      ∧ ∃ fl, ∃ f ∈ ready, t.flockOf? q = some fl ∧ fl.snap = [] ∧ fl.imxs = [] ∧ fl.issued = 0 ∧ fl.sh = f.key.share ∧ fl.addr = f.ip
        ∧ ((∃ u ∈ ready, s.urgent u = true) → (t.quarter q).rr = (s.quarter q).rr
          ∧ ∃ u ∈ ready, s.urgent u = true ∧ u.key.k = f.key.k ∧ ∀ g ∈ ready, s.urgent g = true → comes u g)
        ∧ ((∀ u ∈ ready, s.urgent u = false) →
          (∀ j ∈ slots, old j + weightOf j < old f.key.k + weightOf f.key.k ∨ old j + weightOf j = old f.key.k + weightOf f.key.k ∧ f.key.k ≤ j)
          ∧ ∀ j < 4, (t.quarter q).rr.toList.getD j 0 =
              if j = f.key.k then old j + weightOf j - (slots.map weightOf).sum else if j ∈ slots then old j + weightOf j else old j)
        ∧ let all := ready.filter fun g => decide (g.key.k = f.key.k)
          let joins (g : Fibre) : Prop := g ∈ all ∧ standsBack all g = false
          joins f ∧ (∀ g, joins g → comes f g)
          ∧ (∀ k ∈ fl.members, ∃ g, joins g ∧ g.key = k ∧ g.ip = f.ip) ∧ (fl.members.map fun k => k.l).Nodup
          ∧ ∀ g, joins g → g.ip = f.ip → ∃ m, joins m ∧ m.key ∈ fl.members ∧ m.ip = f.ip ∧ m.key.l = g.key.l ∧ comes m g)
  ∧ ((s.flockOf? q).isSome ∨ (s.quarter q).stopped = true ∨ ready = [] → exec (.flockForm q) s = .next s)
  ∧ (∀ k, (s.fibre? k = none ∨ ∃ x ∈ s.flocks, k ∈ x.members) → exec (.urgentFibre k) s = .next s)
  ∧ (s.flockOf? q = none → exec (.scoreboardHoldExpiry q) s = .next s)
  ∧ (∀ f, s.fibre? f.key = some f → s.urgent f = true → (∀ x ∈ s.flocks, f.key ∉ x.members) →
    Runs (.urgentFibre f.key) s fun t => t = { s with flocks := t.flocks } ∧ t.flocks = s.flocks.map fun x => if x.q = f.key.quarter then { x with ending := true } else x)
  ∧ (∀ f, s.fibre? f.key = some f → s.urgent f = false → exec (.urgentFibre f.key) s = .next s)
  ∧ ∀ fl, s.flockOf? q = some fl →
    let held (k : FKey) : Prop := k ∈ s.heldMembers fl
    (fl.mid = true ∨ (∀ k ∈ fl.members, held k → fl.heldFor k < 8) → exec (.scoreboardHoldExpiry q) s = .next s)
    ∧ (fl.mid = false → (∃ k ∈ fl.members, held k ∧ 8 ≤ fl.heldFor k) →
      ((∃ k ∈ fl.members, ¬ held k) → Runs (.scoreboardHoldExpiry q) s fun t => t = { s with flocks := t.flocks }
        ∧ t.flockOf? q = some { fl with members := fl.members.filter (fun k => !(s.heldMembers fl).contains k), held := [] })
      ∧ ((∀ k ∈ fl.members, held k) → (∀ k ∈ fl.members, 8 ≤ fl.heldFor k) → Runs (.scoreboardHoldExpiry q) s fun t =>
        t = { s with flocks := t.flocks } ∧ t.flockOf? q = none)
      ∧ ((∀ k ∈ fl.members, held k) → (∃ k ∈ fl.members, fl.heldFor k < 8) → exec (.scoreboardHoldExpiry q) s = .next s))

/-- R163 to R170: ESCORT_DECISION of a request that has left its cluster or has its answer grants an escort that the quarter's 131,072 bytes and the household's %escq can hold, and, where the request leaves the package, the quarter's credit as well, charging them and clearing ER, and refuses another one, setting ER and charging nothing; credit below 8,192 bytes, or too small, asks for a refill; of two members of a unit the one of the lower lane is decided first (R167); DEPARTURE of a granted request leaves the stub abroad with the masked words as its record and no window; ESCORT_CREDIT_REFILL raises the credit of the quarters that ask for it, to 32,768 bytes where the die's store has as much, and of no other. -/
def Obligations.EscortsAreDecided : Prop := ∀ (s : State) (r : Req) (m : Word) (v : Vector Word 32) (f : Fibre) (y : Household),
  s.fibre? r.key = some f → s.shares.get? r.key.share = some y →
  let size := 16 + 4 * popMask m
  let x := s.quarter r.key.quarter
  let undecided : List Req := s.reqs.filter fun o => decide (o.seq = r.seq ∧ o.key.quarter = r.key.quarter) && o.asks && !o.decided && o.out
  let off : Prop := r.offPackage = true
  (s.req? r.id = some r → r.asks = false ∨ r.decided = true ∨ r.out = false → exec (.escortDecision r.id) s = .next s)
  ∧ (s.req? r.id = some r → s.midChain r.key = false → undecided = [r] → r.esc = some (m, v) →
    (x.charge + size ≤ 131072 ∧ y.charge + size ≤ y.escq ∧ (off → size ≤ x.credit) → Runs (.escortDecision r.id) s fun t =>
      let left := if r.offPackage then x.credit - size else x.credit
      t.req? r.id = some { r with decided := true, granted := true, charge := size }
        ∧ (t.quarter r.key.quarter).charge = x.charge + size ∧ (t.share r.key.share).charge = y.charge + size
        ∧ (t.quarter r.key.quarter).credit = left ∧ (t.quarter r.key.quarter).refill = (x.refill || decide (left < 8192))
        ∧ t.fibre? r.key = some (f.setFs fsER false) ∧ ∀ j, j ≠ r.key → t.fibre? j = s.fibre? j)
    ∧ (131072 < x.charge + size ∨ y.escq < y.charge + size ∨ (off ∧ x.credit < size) → Runs (.escortDecision r.id) s fun t =>
      t.req? r.id = some { r with decided := true, granted := false, charge := 0 }
        ∧ (t.quarter r.key.quarter).charge = x.charge ∧ (t.share r.key.share).charge = y.charge ∧ (t.quarter r.key.quarter).credit = x.credit
        ∧ (off → x.credit < size → (t.quarter r.key.quarter).refill = true)
        ∧ t.fibre? r.key = some (f.setFs fsER true) ∧ ∀ j, j ≠ r.key → t.fibre? j = s.fibre? j))
  ∧ (∀ a b, s.req? r.id = some r → s.midChain r.key = false → r.asks = true → r.decided = false → r.out = true → a.key.l < b.key.l →
      undecided = [a, b] ∨ undecided = [b, a] → exec (.escortDecision r.id) s = .next ((s.decideOne a).decideOne b))
  ∧ (s.midChain r.key = false → s.departReq? r.key = some r → r.esc = some (m, v) → Runs (.departure r.key) s fun t =>
      t = { s with fibres := t.fibres, flocks := t.flocks }
        ∧ ∃ g e, t.fibre? r.key = some g ∧ g.res = .abroad ∧ g.rcd = some e ∧ e.mask = m ∧ e.vals = maskRegs m v ∧ e.charge = r.charge ∧ e.tag = r.tag.getD 0
          ∧ g.regs = Vector.replicate 32 0#32 ∧ g.preds = f.preds ∧ g.ip = f.ip ∧ ∀ j, j ≠ r.key → t.fibre? j = s.fibre? j)
  ∧ ∀ die, (s.quarters.map Prod.fst).Nodup → Runs (.escortCreditRefill die) s fun t =>
      t = { s with quarters := t.quarters }
        ∧ ∀ q, ((q / 256 ≠ die ∨ (s.quarter q).refill = false) → t.quarter q = s.quarter q)
          ∧ (s.quarter q).credit ≤ (t.quarter q).credit ∧ (t.quarter q).credit ≤ max (s.quarter q).credit 32768
          ∧ (q / 256 = die → (s.quarter q).refill = true → s.storeUsed die + s.creditHeld die + 32768 * s.quarters.length ≤ 2 ^ 22 →
              (t.quarter q).credit = max (s.quarter q).credit 32768)

/-- R172 to R176, R316, R317: a returning fibre in turn enters a free window of its lane with the words of its record and no AB; DISPLACED_TIMEOUT makes a displaced fibre a returning one after 32,768 cycles and not before, nor while its quarter is stopped (R340); FORCED_DEPARTURE moves a fibre out of a lent window, with its whole window as its record; LATE_REPLY_LANDING writes what a reply brings to a switched-out fibre into a landing entry of KIND 1, its own one or a free one, wherever its window was saved; LATE_KIND1_REINSTATE brings one back with the words that the entry holds for its mask (R161), zero elsewhere. -/
def Obligations.FibresReturn : Prop := ∀ (s : State) (f : Fibre) (e : EscRec) (w : Nat), s.fibre? f.key = some f → f.rfaults = [] →
  let k := f.key
  let enters (i : Instr) (words : Vector Word 32 → Prop) : Prop := Runs i s fun t =>
    ∃ g, t.fibre? k = some g ∧ g.res = .resident w ∧ words g.regs ∧ g.retFrom = none ∧ g.rcd = none ∧ g.preds = f.preds ∧ g.ip = f.ip ∧ g.fsBit fsAB = false
  (f.res = .returning → f.rcd = some e → f.retFrom.isSome → s.turn f = true → (s.quarter k.quarter).stopped = false → s.freeWindow? k = some w →
    enters (.reinstatement k) fun v => v = maskRegs e.mask e.vals)
  ∧ (∀ i, f.res = .landed i → f.rcd = some e → e.kind = 1 → f.retFrom.isSome → s.turn f = true → (s.quarter k.quarter).stopped = false → s.freeWindow? k = some w →
    s.landHeld (s.ctxOf k) = false → ∀ bs, s.landRead (s.ctxOf k) i 0 (16 + s.gOf k) = some bs →
    enters (.lateKind1Reinstate k) fun v => ∀ r : Fin 32,
      let mask := BitVec.ofNat 32 (leNat ((bs.drop 12).take 4))
      v[r] = if mask.getLsbD r then BitVec.ofNat 32 (leNat ((bs.drop (16 + 4 * popMask (mask &&& BitVec.ofNat 32 (2 ^ r.val - 1)))).take 4)) else 0#32)
  ∧ (f.res = .lodged w → f.retFrom = none → f.parkedAt = none → f.heldAway = false → (∀ r ∈ s.reqs, r.serves k = false) →
    (s.now < f.since + 32768 ∨ (s.quarter k.quarter).stopped = true → exec (.displacedTimeout k) s = .next s)
    ∧ (f.since + 32768 ≤ s.now → (s.quarter k.quarter).stopped = false → Runs (.displacedTimeout k) s fun t => t = { s with serial := s.serial + 1, fibres := t.fibres }
        ∧ t.fibre? k = some { f with retFrom := some s.serial } ∧ ∀ j, j ≠ k → t.fibre? j = s.fibre? j))
  ∧ ((∃ g ∈ s.lentInUse k.share, g.key = k) → s.idle k = true → s.midChain k = false → s.freeLodge? k = some w →
    Runs (.forcedDeparture k) s fun t => t = { s with fibres := t.fibres, flocks := t.flocks, serial := s.serial + 1, quarters := t.quarters, shares := t.shares }
      ∧ ∃ g x, t.fibre? k = some g ∧ g.res = .lodged w ∧ g.rcd = some x ∧ x.kind = 2 ∧ x.mask = windowMask (s.winOf k)
        ∧ x.vals = maskRegs (windowMask (s.winOf k)) f.regs ∧ g.preds = f.preds ∧ g.ip = f.ip ∧ ∀ j, j ≠ k → t.fibre? j = s.fibre? j)
  ∧ ∀ (r : Req) (c : Nat) (x : Ctx) (a : Away) (v i : Nat) (s1 : State),
      s.req? r.id = some r → s.awayOf r.key = some (c, a) → s.ctxs.get? c = some x → a ∈ x.away → r.ans = some v → r.also = [] → (∀ p q b, r.kind ≠ .valset p q b) →
      let e1 : EscRec := match r.fail with
        | none => { r.writeRecord v a.record with kind := 1, dw := 0, unit := r.unitAddr }
        | some (cls, code) => { a.record with kind := 1, fc := cls * 16 + code, unit := r.unitAddr }
      s.landLate c r.key a.entry e1 = .ok (some (s1, i)) →
      Runs (.lateReplyLanding r.id .own) s fun t => t.req? r.id = none ∧ t.mem = s1.mem
        ∧ ∃ y b, t.ctxs.get? c = some y ∧ b ∈ y.away ∧ b.f.key = r.key ∧ (∀ o ∈ b.f.waits, o.wait ≠ .request r.id)
          ∧ (a.f.res = .abroad → b.f.res = .landed i ∧ b.f.rcd = some { e1 with charge := 0 })
          ∧ (∀ n, a.f.res = .resident n ∨ a.f.res = .lodged n → b.f.res = a.f.res ∧ b.late = some (i, e1))

/-- R150, R171, R234, R274, R178, R162: loads and atomics of a peer, parking, and answers to fibres that are away. A load or atomic whose leaf names a peer that is neither lost nor hot leaves as one direct request at the tail of the channel of its die, peer and plane; the packet that carries it names the peer, the tenancy, the window, the unit, the address and the operation; the answer brings its value to the registers. While the peer is hot the unit is not issued: the fibre is put away in the lowest free landing entry as a record of KIND 3 of its whole window, to issue the unit again when it returns. A value that comes to a fibre in the lodge goes to its record, and one that has departed with its escort returns with it. -/
def Obligations.RemoteUnitsAndAnswers : Prop :=
  (∀ (h : Hdr) (d b : RegNo) (la : BitVec 4) (esc : Bool) (fl : Flock) (f g : Fibre) (s : State) (p w gen pa : Nat) (l : Leaf), Solo h fl f g s →
    s.ownPeer.isSome = true → s.lost p = false → l.mode = 1 → g.wb = [] →
    let c := unitCtx h fl s
    let va := c.ea f b
    let x := s.beginUnit fl
    let y := ends h fl (x.touched f.key (some l) va)
    let abroad : Acc := .ok (.peer false p w gen pa) (some l)
    let plane := va / 256 % 16
    let sends (i : Instr) (n dw : Nat) (kind : ReqKind) : Prop :=
      s.hotPeer f.key.die p = false → (∀ q ∈ s.reqs, q.key ≠ f.key ∧ q.id ≤ s.serial) → s.planeStalled plane = false → g.fencedAt s.serial = false →
      ∃ t r ch, exec i s = .next t ∧ t.mem = s.mem ∧ t.fibre? f.key = y.fibre? f.key ∧ t.reqs = y.reqs ++ [r] ∧ r.sent = true ∧ r.delivered = false
        ∧ IsRequest c f va n (.peer false p w gen pa) kind false false d dw la.toNat (if esc then some f.esc else none) r
        ∧ t.chan? f.key.die false p plane = some ch ∧ ch.items.getLast? = some (.request r.id)
    let parks (i : Instr) : Prop := ∀ e,
      s.hotPeer f.key.die p = true → (∃ v, g.res = .resident v) → s.landHeld (s.ctxOf f.key) = false → e < s.landEntries (s.ctxOf f.key) →
      (∀ j ≤ e, ∃ bs, s.landRead (s.ctxOf f.key) j 0 (16 + 4 * (s.ctx (s.ctxOf f.key)).lrec.win) = some bs ∧ ((bs.getD 4 0#8).getLsbD 0 = false ↔ j = e)) →
      ∃ t k er, exec i s = .next t ∧ t.fibre? f.key = some k ∧ t.reqs = y.reqs ∧ k.res = .landed e ∧ k.parkedAt = some p ∧ k.ip = c.uaddr ∧ k.rcd = some er
        ∧ er.kind = 3 ∧ er.mask = windowMask (s.winOf f.key) ∧ er.vals = maskRegs er.mask g.regs ∧ k.preds = g.preds ∧ ∀ o ∈ t.flocks, f.key ∉ o.members
    (∀ z, let n := sz3Bytes z
      x.access f.key va n false = abroad → sends (.ld h d b la esc z) n (n / 4) (.load n false) ∧ parks (.ld h d b la esc z))
    ∧ (∀ (z : IntTy), let n := 4 * z.n
      x.atomAccess f.key va n = abroad →
        let kind (op : AOp) : ReqKind := .atom op z.signed (decide (z.n = 2)) (BitVec.ofNat 64 (f.opd d z.n)) 0#64
        (sends (.atomAdd h d b la esc z) n z.n (kind .add) ∧ parks (.atomAdd h d b la esc z)) ∧ (sends (.atomAnd h d b la esc z) n z.n (kind .and) ∧ parks (.atomAnd h d b la esc z))
        ∧ (sends (.atomOr h d b la esc z) n z.n (kind .or) ∧ parks (.atomOr h d b la esc z)) ∧ (sends (.atomXor h d b la esc z) n z.n (kind .xor) ∧ parks (.atomXor h d b la esc z))
        ∧ (sends (.atomMin h d b la esc z) n z.n (kind .min) ∧ parks (.atomMin h d b la esc z)) ∧ (sends (.atomMax h d b la esc z) n z.n (kind .max) ∧ parks (.atomMax h d b la esc z))
        ∧ (sends (.atomExch h d b la esc z) n z.n (kind .exch) ∧ parks (.atomExch h d b la esc z))))
  ∧ ∀ (s : State) (r : Req) (f : Fibre) (p w gen pa : Nat), s.req? r.id = some r → s.fibre? r.key = some f →
    (∀ ch t, s.chan? f.key.die false p (r.va / 256 % 16) = some ch → ch.items = .request r.id :: t → s.planeUp (r.va / 256 % 16) (ChanItem.request r.id).flits = true →
      s.planeStalled (r.va / 256 % 16) = false → s.lost p = false → r.dest = .peer false p w gen pa → r.cache = none →
      ∃ k, Runs (.channelDeliver (.out f.key.die false p (r.va / 256 % 16))) s (fun u => u.out = .request p (s.tenOf r.key) w gen r.unitAddr r.va k :: s.out
        ∧ (∃ q, u.req? r.id = some q ∧ q.delivered = true) ∧ u.mem = s.mem) ∧ (∀ n sg, r.kind = .load n sg → k = .load r.n)
        ∧ ∀ op sg wide v e, r.kind = .atom op sg wide v e → ∃ o < 9, k = .atom o sg wide v e)
    ∧ (s.midChain r.key = false → s.awayOf r.key = none → s.entryHeld r = false → r.decided = true → r.also = [] → r.fail = none → r.dw ≤ 4 →
      let set (x : Nat) (words : Vector Word 32) (j : Fin 32) : Word :=
        let i := (j.val + 32 - r.dst.toNat) % 32
        if i < r.dw then BitVec.ofNat 32 (x / 2 ^ (32 * i)) else words[j]
      (∀ v ver a, r.dest = .peer false p w gen pa → r.cache = none → r.delivered = true → r.acq = false → f.res = .resident a → f.wait ≠ .halted → r.dw ≠ 0 →
        let brings (x : Nat) : Prop := Runs (.replyArrival r.id (.value v ver)) s fun t => t.req? r.id = none ∧ t.mem = s.mem
          ∧ ∃ g, t.fibre? r.key = some g ∧ g.ip = f.ip ∧ g.preds = f.preds ∧ ∀ j : Fin 32, g.regs[j] = set x f.regs j
        (∀ n sg, r.kind = .load n sg → brings (extendLoad n sg (v % 2 ^ (8 * n)))) ∧ ∀ op sg wide u e, op ≠ .cas → r.kind = .atom op sg wide u e → brings v)
      ∧ ∀ v e, r.ans = some v → f.wait ≠ .halted → f.rcd = some e → (∀ x, r.kind ≠ .twait x) → (∀ x y z, r.kind ≠ .valset x y z) → r.kind ≠ .frame →
        (∀ n, f.res = .lodged n → Runs (.replyArrival r.id .own) s fun t => t.req? r.id = none ∧ ∃ g x, t.fibre? r.key = some g ∧ g.res = f.res ∧ g.rcd = some x ∧ g.ip = f.ip
          ∧ (∀ q ∈ g.waits, q.wait ≠ .request r.id) ∧ x.kind = e.kind ∧ ∀ j : Fin 32, (maskRegs x.mask x.vals)[j] = set v (maskRegs e.mask e.vals) j)
        ∧ ∀ n, f.res = .abroad → s.freeWindow? r.key = some n → (s.quarter r.key.quarter).stopped = false → f.rfaults = [] →
          (∀ o ∈ s.fibres, o.key.share = r.key.share → o.key.l = r.key.l → o.key ≠ r.key → o.retFrom = none) →
          Runs (.replyArrival r.id .own) s fun t => t.req? r.id = none ∧ ∃ g, t.fibre? r.key = some g ∧ g.res = .resident n ∧ g.rcd = none ∧ g.ip = f.ip ∧ g.preds = f.preds
            ∧ (∀ q ∈ g.waits, q.wait ≠ .request r.id) ∧ ∀ j : Fin 32, g.regs[j] = set v (maskRegs e.mask e.vals) j)

/-- R155, R253 to R256, R132: LDF_RETEST serves an LDF whose granule has become full, and empties the granule; WAITC_POLL ends a WAITC on a word that satisfies it, with the word in gd, and leaves it waiting on another; L1_WRITEBACK changes nothing where the share's L1 holds no dirty word of its own, and takes a dirty word that may leave out of its write buffer. -/
def Obligations.PollsEndWaits : Prop := ∀ (s : State) (r : Req) (f : Fibre) (w loc : Nat),
  (∀ sh, Undirtied s sh → exec (.l1Writeback sh) s = .next s)
  ∧ (∀ k g b l, s.fibre? k = some g → b ∈ g.wb → s.leaveOk g b = true → s.lineOf? k.share b = some l → s.dirtyLines k.share = [l] →
    (∀ x ∈ g.wb, x ≠ b → x.wid ≠ b.wid) → Runs (.l1Writeback k.share) s fun t => ∃ h, t.fibre? k = some h ∧ b ∉ h.wb ∧ h.regs = g.regs)
  ∧ (s.req? r.id = some r → s.fibre? r.key = some f → f.res = .resident w → s.midChain r.key = false → s.awayOf r.key = none →
    r.decided = true → r.ans = none → r.fail = none → r.rel = false → r.also = [] → r.dest = .home loc → r.dw ≠ 0 →
    s.performOk f r = true → s.eatsPoison f r = false → Roomy s → (r.acq = true → Undirtied s r.key.share) →
    (∀ n, r.kind = .ldf n → f.wait = .none → Runs (.ldfRetest r.id) s fun t =>
      (∃ g, t.fibre? r.key = some g ∧ g.regs = (f.setOpd r.dst r.dw (leNat (s.mem.readBytes loc n))).regs ∧ g.ip = f.ip)
        ∧ t.full = s.full.filter (fun x => x ≠ loc / 16) ∧ t.mem = s.mem ∧ t.req? r.id = none)
    ∧ ∀ sg cc v n a, r.kind = .waitc sg cc v → f.waits = [⟨n, a, .request r.id⟩] →
      let u := s.mem.read loc 4
      (waitcCond sg cc u v.toNat = true → Runs (.waitcPoll r.id .own) s fun t =>
        (∃ g, t.fibre? r.key = some g ∧ g.waits = [] ∧ g.regs = (f.setOpd r.dst r.dw u).regs ∧ g.ip = f.ip) ∧ t.mem = s.mem ∧ t.req? r.id = none)
      ∧ (waitcCond sg cc u v.toNat = false → Runs (.waitcPoll r.id .own) s fun t =>
        t.fibre? r.key = some f ∧ t.mem = s.mem ∧ (t.req? r.id).isSome))

/-! ### Debug (R333 to R340, R345) -/

/-- R333 to R340, R345: a step trap, with a handler, writes the frame of class STEP and enters it; a comparator hit whose ACT stops counts its hits and stops the quarter, and QUARTER_STOP stops it: no further unit of a chain under way issues, and what has issued runs on; QUARTER_RELEASE lets it go on, each resident fibre with the ST bit of its lane; a stall sample is taken when it is due and not before. -/
def Obligations.DebugEventsAct : Prop := ∀ (s : State) (q : Nat), q < 1024 →
  let stops (t : State) : Prop := (t.quarter q).stopped = true ∧ ∀ fl ∈ t.flocks, fl.q = q → fl.mid = false
  let hits (t : State) (i n : Nat) : Prop :=
    (t.reg (0x310008 + 0x100 * (q / 4) + 0x10 * i)).toNat / 2 ^ 32 = min 0xFFFFFFFF ((s.reg (0x310008 + 0x100 * (q / 4) + 0x10 * i)).toNat / 2 ^ 32 + n)
  (∀ f, s.fibre? f.key = some f → s.stepReady f = false → exec (.stepTrap f.key) s = .next s)
  ∧ (∀ f, s.fibre? f.key = some f → s.stepReady f = true →
      let hip := (s.reg (0xB010 + 0x20 * s.tenOf f.key)).toNat
      let v := s.handlerFrame f.key
      hip % 2 = 1 → f.rfaults = [] → s.frameOk f.key v = true → UncountedFrame s f.key v → Runs (.stepTrap f.key) s fun t => ∃ g ws, t.fibre? f.key = some g
        ∧ g.pair 0#5 = BitVec.ofNat 64 v ∧ g.ip = BitVec.ofNat 64 (hip / 65536 * 65536) ∧ g.stepDue = false ∧ (∀ r : RegNo, r ≠ 0#5 → r ≠ 1#5 → g.reg r = f.reg r)
        ∧ g.wb = f.wb ++ ws ∧ ws.map (fun w => w.pva) = (List.range 12).map (fun j => v + 16 * j)
        ∧ ws.flatMap (fun w => match w.kind with
            | .store bs => bs
            | _ => []) = frameBytes f (s.share f.key.share) ⟨5, 0, 0, f.ip, 0, 0, windowMask (s.winOf f.key), f.ip, s.serial⟩
        ∧ ∀ j, j ≠ f.key → t.fibre? j = s.fibre? j)
  ∧ (∀ i, s.actOf (q / 4) i = 1 →
      (∀ fl u met, s.codeHit? q i = some (fl, u, met) → Runs (.codeComparatorHit q i) s fun t => stops t ∧ hits t i 1)
      ∧ ∀ fl u met, s.dataHit? q i = some (fl, u, met) → Runs (.dataWatchpointHit q i) s fun t => stops t ∧ hits t i met.length)
  ∧ (∀ i, (s.codeHit? q i = none → exec (.codeComparatorHit q i) s = .next s) ∧ (s.dataHit? q i = none → exec (.dataWatchpointHit q i) s = .next s))
  ∧ ((s.quarter q).stopped = false → Runs (.quarterStop q) s stops) ∧ ((s.quarter q).stopped = true → exec (.quarterStop q) s = .next s)
  ∧ (∀ stl, ((s.quarter q).stopped = false → exec (.quarterRelease q stl) s = .next s)
      ∧ ((s.quarter q).stopped = true → Runs (.quarterRelease q stl) s fun t => t = { s with quarters := t.quarters, fibres := t.fibres }
        ∧ (t.quarter q).stopped = false
        ∧ ∀ k f, s.fibre? k = some f → ∃ g, t.fibre? k = some g ∧ g.regs = f.regs ∧ g.ip = f.ip
          ∧ (k.quarter = q → (∃ w, f.res = .resident w) → g.fsBit fsST = stl.getLsbD (k.l % 32)) ∧ (k.quarter ≠ q → g = f)))
  ∧ (s.sampleDue q = false → exec (.stallSample q) s = .next s)
  ∧ (s.sampleDue q = true → Runs (.stallSample q) s fun t => t.stallOut.getD q 0#64 = s.cycOf (q / 256)
      ∧ t.traceSeq.getD (q / 256) 0 = s.traceSeq.getD (q / 256) 0 + 1)

/-! ### The fabric (R233, R234, R273, R277, R278) -/

/-- R233, R234, R277, R278: CART_AGE_EXPIRY makes a cart depart, once it is as old as its tenancy's limit, with its elements unacknowledged; CHANNEL_DELIVER sends the packet at the head of a channel whose plane is up and not being remapped; an acknowledgement without failures ends the oldest delivered packet and nothing else. At the exporter (R273, R274) a store that passes the checks enters the apply queue of its home die, with a number of the die whose fabric interface it comes by (R224), a read is answered with the bytes of memory once the writes before it in its channel have been applied, and a request that fails a check with its code; whether a peer's write is a release, and so carries a view, is a free value (log 90); an answer leaves when its plane can carry it (R267). -/
def Obligations.PacketsTravel : Prop := ∀ (s : State) (die : Nat) (group : Bool) (peer plane : Nat),
  (∀ n c, s.carts.get? (die * 256 + n) = some c →
    (s.now < c.born + s.cartAge c.ctx → exec (.cartAgeExpiry die n) s = .next s)
    ∧ (s.planeStalled c.plane = true → exec (.cartAgeExpiry die n) s = .next s)
    ∧ (c.born + s.cartAge c.ctx ≤ s.now → s.planeStalled c.plane = false → n < 256 → Runs (.cartAgeExpiry die n) s fun t =>
        t = { s with carts := s.carts.filter (fun e => e.1 ≠ die * 256 + n), chans := t.chans, unacked := t.unacked }
          ∧ ∃ u, t.unacked = s.unacked ++ [u] ∧ u.es = c.elems ∧ u.peer = c.peer ∧ u.delivered = false ∧ u.born = s.now))
  ∧ (∀ c h es rest, s.chan? die group peer plane = some c → c.items = .packet h es :: rest → s.planeUp plane 4 = true → s.planeStalled plane = false → (group = true ∨ s.lost peer = false) →
    Runs (.channelDeliver (.out die group peer plane)) s fun t => t.out = .packet h (es.map SentElem.elem) :: s.out ∧ t.mem = s.mem ∧ t.fibres = s.fibres
      ∧ t.chan? die group peer plane = some { c with items := rest, flight := c.flight.filter (s.unanswered c) ++ [.packet h es] })
  ∧ (∀ u, s.unacked.find? (fun x => decide (x.die = die ∧ x.group = group ∧ x.peer = peer ∧ x.plane = plane) && x.delivered) = some u →
    Runs (.packetAcknowledge die group peer plane []) s fun t => t = { s with unacked := t.unacked, ports := t.ports, out := t.out, probes := t.probes, lostOn := t.lostOn } ∧ u ∉ t.unacked
      ∧ t.unacked.length < s.unacked.length ∧ ∀ x ∈ s.unacked, x ∉ t.unacked → x.seq = u.seq)
  ∧ (s.ownPeer.isSome → s.lost peer = false →
    (∀ (h : CartHdr) (e : CartElem) loc, h.srcPeer = peer → (s.port (s.planePort h.plane)).up = true →
      s.recvSeq.get? ((((peer * 4 + h.srcDie) * 16 + h.plane) * 2 + (if h.group then 1 else 0)) * 4096 + (if h.group then h.dest % 4096 else 0)) = none → e.op = 0#4 → e.sz.toNat ≤ 2 →
      s.exportCheck peer h.srcTen e.win.toNat e.gen.toNat e.va.toNat (2 ^ e.sz.toNat) 1 = .ok loc →
      Runs (.channelDeliver (.packet h [e])) s fun t => t.mem = s.mem ∧ t.fibres = s.fibres
        ∧ ∃ q, t.aq = s.aq ++ [q] ∧ q.die = homeDie loc ∧ q.src = .chan peer h.plane ∧ q.wid = s.serial ∧ q.loc = loc ∧ q.n = 2 ^ e.sz.toNat
          ∧ q.kind = .store (leBytes (2 ^ e.sz.toNat) e.data.toNat) ∧ q.sdie = portDie (s.planePort h.plane)
          ∧ q.view = if Config.peerRelease s.serial then some ⟨s.hist.length, []⟩ else none)
    ∧ ∀ ten win gen va n,
      let pl := bits va 11 8
      let answers (t : State) (o : Output) (k : Nat) : Prop := (s.outbox = [] → s.planeUp pl k = true → t.outbox = [] ∧ t.out.head? = some o)
        ∧ (s.outbox = [] → s.planeUp pl k = false → t.outbox = [(pl, o)])
      (s.port (s.planePort pl)).up = true →
      (∀ code, s.exportCheck peer ten win gen va n 0 = .error code →
        Runs (.channelDeliver (.request peer ten win gen va (.load n))) s fun t => answers t (.reply peer code [] []) 1 ∧ t.mem = s.mem ∧ t.aq = s.aq)
      ∧ ∀ loc, s.exportCheck peer ten win gen va n 0 = .ok loc →
        let w := s.exportWalk win va (.ok loc)
        w.pageHeld loc = false → w.lineHeld loc 0 = false → w.chanApplied peer va loc n = true → w.hostAnswered loc n = true → w.poisoned loc n = false →
        Runs (.channelDeliver (.request peer ten win gen va (.load n))) s fun t => answers t (.reply peer 0 (s.mem.readBytes loc n) []) (1 + n / 64) ∧ t.mem = s.mem)

/-! ### The host and pages (R138 to R146, R237, R238) -/

/-- R25, R237, R144 to R146, R140: an access of the host is made page by page, each part on its own; a part of HOST_WRITE stores in host memory and in a page in host bias, enters an apply queue for a page in device bias, and is dropped in a protected page or the attribute table; a part of HOST_READ answers the bytes, all-ones marked poisoned in a protected page, and zero in the attribute table; a part for a page in flip has no effect in that step: it is held, and made when the flip is over (R145, R238); outside the HDM range, and before the steward has enabled it (R366), both stop (an access that the manual gives no effect). FLIP_END turns the bias of a page once its snoops are answered and its writes applied, turns it back where the latest walk has asked for that, and else lets the held accesses go on; SNOOP_RESPONSE answers snoops; UNCORRECTABLE_ERROR poisons its 16 bytes; HOST_SNOOP reads the watched words of its line again: a dependence is satisfied from then on exactly if it was, or its word has reached its threshold (R34). -/
def Obligations.HostAccesses : Prop := ∀ (s : State) (a n : Nat) (bs : List Byte),
  (s.hostReach a n = false → exec (.hostRead a n) s = .fault .outsideHdmRange)
  ∧ (s.hostReach a bs.length = false → exec (.hostWrite a bs) s = .fault .outsideHdmRange)
  ∧ (s.hostReach a bs.length = true → (∀ i < lineCount a bs.length, s.slotBusy (a + 256 * i) = false) →
    exec (.hostWrite a bs) s = .next ((pageParts a bs.length).foldl (fun (t : State) p => t.hostPut (a + p.1) ((bs.drop p.1).take p.2)) s))
  ∧ (s.hostReach a n = true → (∀ i < lineCount a n, s.slotBusy (a + 256 * i) = false) →
    exec (.hostRead a n) s = .next ((pageParts a n).foldl (fun (t : State) p => t.hostGet (a + p.1) p.2) s))
  ∧ ((pageParts a n).flatMap (fun p => (List.range p.2).map fun i => p.1 + i) = List.range n ∧ ∀ p ∈ pageParts a n, 0 < p.2 ∧ (a + p.1) % 65536 + p.2 ≤ 65536)
  ∧ (let t := s.hostPut a bs
    let gone : Prop := isHost a = false ∧ (dramLimit < a + bs.length ∨ (s.page a).prot = true)
    let held : Prop := ¬ gone ∧ isHost a = false ∧ (s.page a).flipping = true
    let closed : Prop := gone ∨ held
    (gone → t = s) ∧ (held → t = { s with hostHeld := s.hostHeld ++ [⟨a, bs.length, some bs⟩] })
    ∧ (¬ closed → (isHost a = true ∨ s.hostBias a = true) → (List.range (lineCount a bs.length)).all (fun j => !s.sliceStops (a + 256 * j)) = true →
      (s.mem.wf = true → ∀ x, t.mem.get x = if a ≤ x ∧ x < a + bs.length then bs.getD (x - a) 0#8 else s.mem.get x)
      ∧ (Roomy s → lineCount a bs.length = 1 → t.fibres = s.fibres))
    ∧ (¬ closed → isHost a = false → s.hostBias a = false → t = { s with serial := s.serial + 1, aq := t.aq, kn := t.kn, hostWids := s.serial :: s.hostWids }
      ∧ ∃ w, t.aq = s.aq ++ [w] ∧ w.die = homeDie a ∧ w.src = .host ∧ w.loc = a ∧ w.n = bs.length ∧ w.kind = .store bs ∧ w.view = some ⟨0, s.hostWids⟩))
  ∧ (let t := s.hostGet a n
    let answers (bytes : List Byte) (poison : Bool) : Prop := t.out.head? = some (.hostData a bytes poison)
    t.mem = s.mem ∧ t.aq = s.aq ∧ t.reqs = s.reqs
    ∧ (isHost a = true → answers (s.mem.readBytes a n) false)
    ∧ (isHost a = false → dramLimit < a + n → answers (List.replicate n 0#8) false)
    ∧ (isHost a = false → a + n ≤ dramLimit → (s.page a).prot = true → answers (List.replicate n 0xFF#8) true)
    ∧ (isHost a = false → a + n ≤ dramLimit → (s.page a).prot = false → (s.page a).flipping = true →
        t = { s with hostHeld := s.hostHeld ++ [⟨a, n, none⟩] })
    ∧ (isHost a = false → a + n ≤ dramLimit → (s.page a).prot = false → (s.page a).flipping = false → answers (s.mem.readBytes a n) (s.poisoned a n)))
  ∧ (∀ p,
    let x := s.pages.getD p PageAttr.init
    (x.flipping = true → x.waitHost = false → s.pageWrites p x.hostBias = false → Runs (.flipEnd p) s fun t =>
      let back : Prop := x.want = x.hostBias ∧ s.inWindow (p * 65536) 65536 = false
      (∀ q, q ≠ p → t.pages.getD q PageAttr.init = s.pages.getD q PageAttr.init)
        ∧ (back → (t.pages.getD p PageAttr.init).flipping = true ∧ (t.pages.getD p PageAttr.init).hostBias = !x.hostBias ∧ t.mem = s.mem ∧ t.hostHeld = s.hostHeld)
        ∧ (¬ back → (t.pages.getD p PageAttr.init).flipping = false ∧ (t.pages.getD p PageAttr.init).hostBias = !x.hostBias ∧ (∀ h ∈ t.hostHeld, h.addr / 65536 ≠ p))
        ∧ (¬ back → (∀ h ∈ s.hostHeld, h.addr / 65536 ≠ p) → t.mem = s.mem
          ∧ t.pages.getD p PageAttr.init = { x with hostBias := !x.hostBias, flipping := false, asked := [], answered := [] }))
    ∧ (x.flipping = false ∨ x.waitHost = true ∨ s.pageWrites p x.hostBias = true → exec (.flipEnd p) s = .next s)
    ∧ Runs (.snoopResponse p) s fun t => t = { s with pages := t.pages }
        ∧ t.pages.getD p PageAttr.init = (if (s.pages.get? p).isSome then { x with waitHost := false, asked := [], answered := x.answered ++ x.asked.filter fun i => !x.answered.contains i } else x)
        ∧ ∀ q, q ≠ p → t.pages.getD q PageAttr.init = s.pages.getD q PageAttr.init)
  ∧ (s.strikable a = true → Runs (.uncorrectableError a) s fun t => t = { s with poison := t.poison } ∧ a / 16 ∈ t.poison ∧ ∀ g, g ≠ a / 16 → (g ∈ t.poison ↔ g ∈ s.poison))
  ∧ (s.strikable a = false → exec (.uncorrectableError a) s = .next s)
  ∧ ((s.pending.map fun p => p.order).Nodup → Runs (.hostSnoop a) s fun t => t = { s with pending := t.pending, out := t.out, hbits := t.hbits }
      ∧ t.pending.length = s.pending.length ∧ ∀ (j : Nat) p, s.pending[j]? = some p → ∃ p', t.pending[j]? = some p' ∧ p'.lrec = p.lrec ∧ p'.order = p.order ∧ ∀ which : Bool,
        let dep := if which then p.lrec.dep1 else p.lrec.dep0
        let thr := (if which then p.lrec.thr1 else p.lrec.thr0).toNat
        let sat (q : Pending) : Bool := if which then q.sat1 else q.sat0
        (sat p' = true ↔ sat p = true ∨ dep ≠ 0#64 ∧ (∃ l, s.packageLoc? p.lrec.ten dep.toNat = some l ∧ l / 64 = a / 64)
          ∧ ∃ loc v w, s.depRead p.lrec.ten dep.toNat = some (loc, v, w) ∧ thr ≤ v))

/-! ### Launching (R22 to R24, R28 to R37, R47 to R50, R303, R350 to R352) -/

/-- R22, R28, R30 to R37, R47 to R50: a re-read of a commit line whose COMMIT is 1 takes the launch into the pending table when no rule refuses it, and not otherwise, and waits while a page of the descriptors that it preloads is in flip (R238); COMMIT_LINE_SWEEP asks the host for the lines it owns; LWIN is written unless locked, and EN from 0 to 1 makes every slot due; a dependence whose word has reached its threshold is satisfied; PARISH_PLACEMENT starts a pending launch as the lowest free context (R303), and gives each household of the next parish its fibres with the state of R24; a thief asks the die with the most unplaced parishes and is given that die's highest, of a launch that runs or is pending. -/
def Obligations.LaunchesStart : Prop := ∀ (s : State) (slot d : Nat) (v : DWord),
  let line := slotAddr s slot
  let raw := s.mem.readBytes line 128
  let l := launchRecOf raw
  (s.staleSlots.contains slot = true → (∀ k ∈ s.staleSlots, slot ≤ k) →
    ((s.reg 0x8000).getLsbD 0 = false ∨ s.mem.get (line + 127) ≠ 1#8 →
      Runs (.commitLineInvalidate slot) s fun t => t = { s with staleSlots := s.staleSlots.filter (fun k => k ≠ slot) })
    ∧ ((s.reg 0x8000).getLsbD 0 = true → s.mem.get (line + 127) = 1#8 →
      (s.slotReset slot = true → Runs (.commitLineInvalidate slot) s fun t => t.pending = s.pending)
      ∧ (∀ r, s.refusal slot raw = some r → Runs (.commitLineInvalidate slot) s fun t => t.pending = s.pending)
      ∧ (s.slotReset slot = false → (s.preloadLines l).any s.inFlip = true → exec (.commitLineInvalidate slot) s = .next s)
      ∧ (s.slotReset slot = false → (s.preloadLines l).any s.inFlip = false → s.refusal slot raw = none → Runs (.commitLineInvalidate slot) s fun t =>
          ∃ p, t.pending = s.pending ++ [p] ∧ p.slot = slot ∧ p.lrec = l ∧ p.raw = raw ∧ p.sat0 = decide (l.dep0 = 0#64) ∧ p.sat1 = decide (l.dep1 = 0#64)
            ∧ p.attr = if s.hostCommits.contains slot then s.reg (0xD000 + 8 * slot) else 0#64)))
  ∧ ((s.reg 0x8000).getLsbD 0 = true → exec .commitLineSweep s = .next { s with out := .sweep :: s.out })
  ∧ ((s.reg 0x8000).getLsbD 0 = false → exec .commitLineSweep s = .next s)
  ∧ ((s.reg 0x8000).getLsbD 1 = true → exec (.lwinEnable v) s = .next s)
  ∧ ((s.reg 0x8000).getLsbD 1 = false → Runs (.lwinEnable v) s fun t => t.reg 0x8000 = v &&& 0xFFFFFFFFFFFFE003#64
      ∧ t.staleSlots = (if (s.reg 0x8000).getLsbD 0 = false ∧ v.getLsbD 0 = true then List.range 64 else s.staleSlots) ∧ t.mem = s.mem)
  ∧ (∀ order which, ∀ i ∈ [Instr.dependenceSatisfied order which, .dependencePoll order which], Runs i s fun t => t = { s with pending := t.pending, out := t.out, hbits := t.hbits }
      ∧ ∀ (j : Nat) p, s.pending[j]? = some p → ∃ p', t.pending[j]? = some p' ∧ p'.lrec = p.lrec ∧ (p.order ≠ order → p' = p)
        ∧ ∀ loc x w, (s.pending.map fun p => p.order).Nodup → p.order = order → s.depRead p.lrec.ten (if which then p.lrec.dep1 else p.lrec.dep0).toNat = some (loc, x, w) →
          (if which then p'.sat1 else p'.sat0) = ((if which then p.sat1 else p.sat0) || decide ((if which then p.lrec.thr1 else p.lrec.thr0).toNat ≤ x)))
  ∧ (s.frozen ≠ [] → exec (.parishPlacement d) s = .next s ∧ exec (.stealRequest d) s = .next s)
  ∧ (∀ (t : Nat) (l : LaunchRec) (u : List (Nat × Nat)) (order : Nat), t < 8 → s.current t = some (l, u, order) →
    (∀ pid c0 os, s.frozen = [] → s.loans = [] → (∀ e < t, s.placeFor d e = none) → nextParish u d = some pid →
      s.findPlace l.ten d l.hh (fun c _ => s.offer c (demand l)) = some (c0, os) →
      let fibresOf (t : State) (cont : DWord) : Prop := ∃ new, t.fibres = s.fibres ++ new ∧ new.length = os.length * l.nfib
        ∧ ∀ (i : Nat) o (j : Nat), os[i]? = some o → j < l.nfib → ∃ g, new[i * l.nfib + j]? = some g
          ∧ g.key = ⟨c0 + i, o.1, 32 * (j % 4) + j / 4 % 32, j / 128⟩ ∧ g.ip = l.entry ∧ g.pair 0#5 = l.args ∧ g.reg 2#5 = BitVec.ofNat 32 j
          ∧ (∀ r : RegNo, 2 < r.toNat → g.reg r = 0#32) ∧ g.cont = cont ∧ g.fs = 0#32 ∧ g.esc = 0#32 ∧ g.fault = 0#64 ∧ g.fid = j
          ∧ g.preds = Vector.replicate 12 false ∧ g.res = .resident (j / 128) ∧ g.wait = .none
      (∀ pr n x, s.headLaunch t = some (pr, order, some n) → s.ctxs.get? n = some x → Runs (.parishPlacement d) s fun t => fibresOf t l.cont
        ∧ t.ctxs.get? n = some { x with unplaced := x.unplaced.filter fun p => p.1 ≠ pid })
      ∧ ∀ pr m p, s.headLaunch t = some (pr, order, none) → s.freeCtx = some m → s.pending.find? (fun p => decide (p.order = order)) = some p →
        Runs (.parishPlacement d) s fun t => fibresOf t l.cont ∧ t.pending = s.pending.filter (fun q => q.order ≠ order)
          ∧ ∃ y, t.ctxs.get? m = some y ∧ y.st = 1 ∧ y.order = order ∧ y.ten = l.ten ∧ y.lrec = l ∧ y.priv = p.attr.getLsbD 0 ∧ y.prot = p.attr.getLsbD 1
            ∧ y.keyslot = bits p.attr.toNat 8 3 ∧ y.unplaced = u.filter fun q => q.1 ≠ pid)
    ∧ (∀ w, (∀ p ∈ s.steal, p.1 ≠ d) → (∀ e < t, s.current e = none) → s.frozen = [] → s.numbered t = true → s.thiefFor d l u = true → mostUnplaced u = some w →
      exec (.stealRequest d) s = .next { s with steal := (d, w, order) :: s.steal }))
  ∧ ∀ w order, s.steal.find? (fun p => decide (p.1 = d)) = some (d, w, order) →
    let given (u : List (Nat × Nat)) (pid : Nat) : Prop := (pid, w) ∈ u ∧ ∀ p ∈ u, p.2 = w → (∀ l ∈ s.loans, ¬ (l.order = order ∧ l.pid = p.1)) → p.1 ≤ pid
    (∀ n x pid, s.ctxs.find? (fun e => decide (e.2.order = order ∧ e.2.st = 1)) = some (n, x) → s.ctxs.get? n = some x → s.givenUp w order x.unplaced = some pid →
      Runs (.stealAnswer d) s fun t => (∀ p ∈ t.steal, p.1 ≠ d) ∧ given x.unplaced pid
        ∧ t.ctxs.get? n = some { x with unplaced := x.unplaced.map fun p => if p.1 = pid then (pid, d) else p })
    ∧ ∀ q pid, s.ctxs.find? (fun e => decide (e.2.order = order ∧ e.2.st = 1)) = none → s.pending.find? (fun p => decide (p.order = order)) = some q →
      s.givenUp w order (s.owners q) = some pid → (s.owners q).map Prod.fst = List.range q.lrec.parishes →
      Runs (.stealAnswer d) s fun t => (∀ p ∈ t.steal, p.1 ≠ d) ∧ given (s.owners q) pid ∧ t.owners q = (s.owners q).map fun p => if p.1 = pid then (pid, d) else p

/-- R350 to R352, R37, R311: a parish whose fibres have ended with nothing outstanding retires and gives its shares back; a launch with every parish retired and nothing in flight, its remote-fault entries counted, raises the word of DONE by one and frees its context number (whatever RO and PR of DONE's leaf are: log 110); CONTEXT_HALT freezes every fibre of a running context, and HALT_COMPLETE gives back its shares and its context number. -/
def Obligations.LaunchesEnd : Prop := ∀ (s : State) (c pid : Nat),
  (s.retireOk c pid = false → exec (.parishRetire c pid) s = .next s)
  ∧ (s.retireOk c pid = true → Runs (.parishRetire c pid) s fun t => (∀ sh ∈ s.parishShares c pid, t.shares.get? sh = none ∧ ∀ f ∈ t.fibres, f.key.share ≠ sh)
      ∧ (t.ctx c).retired = (s.ctx c).retired + 1)
  ∧ (∀ x, s.ctxs.get? c = some x → (x.st = 6 ∨ x.unplaced ≠ [] ∨ x.retired ≠ x.lrec.parishes) → exec (.launchCompletion c) s = .next s)
  ∧ (∀ x, s.ctxs.get? c = some x → x.st ≠ 6 → x.unplaced = [] → x.retired = x.lrec.parishes → (∀ e ∈ s.carts, e.2.ctx ≠ c) →
      let done : Prop := (∀ u ∈ s.unacked, ∀ e ∈ u.es, e.ctx ≠ c) ∧ (∀ e ∈ s.rfqWait, e.1 ≠ c) ∧ ∀ w ∈ s.aq, x.doneView.wids.contains w.wid = false
      (¬ done → exec (.launchCompletion c) s = .next s)
      ∧ (done → (x.lrec.done = 0#64 → Runs (.launchCompletion c) s fun t => t.ctxs.get? c = none)
        ∧ ∀ loc, x.lrec.done ≠ 0#64 → s.packageLoc? x.ten x.lrec.done.toNat = some loc →
          (s.pageHeld loc = true → exec (.launchCompletion c) s = .next s)
          ∧ (s.pageHeld loc = false → s.mem.wf = true → s.sliceStops loc = false → loc % 8 = 0 → (s.reg (0x9018 + 0x40 * x.ten)).getLsbD 0 = false →
            (∀ d < 4, (s.reg (0x320000 + 0x20 * d)).getLsbD 0 = false) →
            Runs (.launchCompletion c) s fun t => t.ctxs.get? c = none ∧ t.mem.read loc 8 = (s.mem.read loc 8 + 1) % 2 ^ 64
              ∧ ∀ a, a < loc ∨ loc + 8 ≤ a → t.mem.get a = s.mem.get a)))
  ∧ (∀ i x, s.ctxs.get? c = some x → x.halting = none →
      (x.st = 1 ∨ x.st = 2 ∨ x.st = 6 → Runs (.contextHalt c i) s fun t => t = { s with ctxs := t.ctxs, fibres := t.fibres, flocks := t.flocks }
        ∧ (∃ y h, t.ctxs.get? c = some y ∧ y.st = 6 ∧ y.halting = some h ∧ h.infos = [i]) ∧ (∀ f ∈ t.fibres, s.ctxOf f.key = c → f.wait = .halted)
        ∧ ∀ g ∈ t.flocks, (s.share g.sh).ctx ≠ c)
      ∧ (x.st ≠ 1 → x.st ≠ 2 → x.st ≠ 6 → exec (.contextHalt c i) s = .next s))
  ∧ ((s.ctx c).halting = none → exec (.haltComplete c) s = .next s)
  ∧ ∀ h, (s.ctx c).halting = some h → h.infos ≠ [] → s.landHeld c = false → Runs (.haltComplete c) s fun t => t.ctxs.get? c = none ∧ ∀ sh y, t.shares.get? sh = some y → y.ctx ≠ c

/-! ### Registers (R27, R42, R124, R128, R304, R364) -/

/-- R27, R42, R124, R128, R304, R364: XINV starts an invalidation unless one is under way, and INVALIDATION_COMPLETE clears GO and ends the waits for it; TROWS takes rows that no other tenancy has; CTXKILL and TRST halt running contexts; TENANCY_RESET_DONE discards what the tenancy had pending, closes its windows and erases its keys; REGISTER_WRITE changes the writable bits of each register and no others, clears the bits that a written 1 clears, does what the registers with an effect of their own do, and leaves read-only registers alone. -/
def Obligations.RegistersAct : Prop := ∀ (s : State) (t : Nat) (v : DWord), t < 8 →
  let xinv := s.reg (0xA008 + 0x20 * t)
  let rows (u : Nat) : Nat := (s.reg (0x9038 + 0x40 * u)).toNat % 2 ^ 32
  (xinv.getLsbD 0 = true → exec (.xinv t v) s = .next s)
  ∧ (xinv.getLsbD 0 = false → Runs (.xinv t v) s fun u => u = { s with regs := u.regs, pages := u.pages, out := u.out } ∧ u.reg (0xA008 + 0x20 * t) = v &&& 0xFFFFFFFFFFFF0007#64)
  ∧ (xinv.getLsbD 0 = false → exec (.invalidationComplete t) s = .next s)
  ∧ (let z := s.drainTenancy t
    let r := xinvRange (z.reg (0xA008 + 0x20 * t)).toNat
    xinv.getLsbD 0 = true → z.reg (0xA008 + 0x20 * t) = xinv →
    (z.invalidated t r = false → exec (.invalidationComplete t) s = .next z)
    ∧ (z.invalidated t r = true → Runs (.invalidationComplete t) s fun u => u = { z with regs := u.regs, fibres := u.fibres, lines := u.lines, l1 := u.l1, leafCnt := u.leafCnt }
      ∧ u.reg (0xA008 + 0x20 * t) = z.reg (0xA008 + 0x20 * t) &&& ~~~1#64 ∧ (∀ e ∈ u.l1, ∀ h, s.shares.get? e.share = some h → h.ten ≠ t)
      ∧ u.fibres = z.fibres.map fun f => if z.tenOf f.key = t then f.unwait (fun w => decide (w = .xinv)) else f))
  ∧ ((∀ u < 8, u ≠ t → rows u &&& v.toNat % 2 ^ 32 = 0) → Runs (.trows t v) s fun u => u = { s with regs := u.regs }
      ∧ u.reg (0x9038 + 0x40 * t) = BitVec.ofNat 64 (v.toNat % 2 ^ 32))
  ∧ ((∃ u < 8, u ≠ t ∧ rows u &&& v.toNat % 2 ^ 32 ≠ 0) → exec (.trows t v) s = .next s)
  ∧ (let n := v.toNat % 512
    (((s.ctx n).st ≠ 1 ∧ (s.ctx n).st ≠ 2) → exec (.ctxkill v) s = .next s)
    ∧ (((s.ctx n).st = 1 ∨ (s.ctx n).st = 2) → (s.ctx n).halting = none → Runs (.ctxkill v) s fun u => (u.ctx n).st = 6
        ∧ (∃ h, (u.ctx n).halting = some h ∧ h.infos = [⟨16, 0x28, 0#64, none, 0⟩]) ∧ u.mem = s.mem))
  ∧ ((s.reg (0xF000 + 8 * t)).getLsbD 0 = true → exec (.trst t) s = .next s)
  ∧ ((s.reg (0xF000 + 8 * t)).getLsbD 0 = false → Runs (.trst t) s fun u => u.reg (0xF000 + 8 * t) = 1#64 ∧ u.mem = s.mem
      ∧ ∀ n x, s.ctxs.get? n = some x → x.ten = t → (x.st = 1 ∨ x.st = 2) → x.halting = none → (u.ctx n).st = 6)
  ∧ ((s.reg (0xF000 + 8 * t)).getLsbD 0 = false ∨ s.busyCtxs t ≠ [] → exec (.tenancyResetDone t) s = .next s)
  ∧ ((s.reg (0xF000 + 8 * t)).getLsbD 0 = true → s.busyCtxs t = [] → Runs (.tenancyResetDone t) s fun u => (∀ p ∈ u.pending, p.lrec.ten ≠ t)
      ∧ (∀ w, (u.window w).v = true → (u.window w).ten ≠ t) ∧ (∀ k, (u.keys.getD k ⟨none, 0⟩).ten = t → (u.keys.getD k ⟨none, 0⟩).key = none)
      ∧ let y := (s.resetSteps t).drainTenancy t
        ((y.importsApplied && y.invalidated t (0, 2 ^ 52)) = true → u.reg (0xF000 + 8 * t) = 0#64)
        ∧ ((y.importsApplied && y.invalidated t (0, 2 ^ 52)) = false → u = y))
  ∧ (∀ off, regKind off = .none → exec (.registerWrite off v) s = .next s)
  ∧ (∀ n, let c := 0x310000 + 0x100 * (n % 256) + 0x10 * (n / 256 % 12)
      ∀ p ∈ [(0x9000 + 0x40 * t, 0xFFFFFFFFFFFFFFFF#64), (0x9008 + 0x40 * t, 0xFF00#64), (0x9010 + 0x40 * t, 0xFFFFFFFFFFFFF000#64), (0x9018 + 0x40 * t, 0xF001#64),
        (0x9020 + 0x40 * t, 0xFFFFFFFFFFFFFFFF#64), (0xA000 + 0x20 * t, 0x000001FFFFFF0001#64), (0xA010 + 0x20 * t, 0xFFFFFFFFFFFFFF01#64),
        (0xB000 + 0x20 * t, 0xFFFFFFFFFFFFFF01#64), (0xB008 + 0x20 * t, 0x7F#64), (0xB010 + 0x20 * t, 0xFFFFFFFFFFFF0001#64), (0xB018 + 0x20 * t, 0xFFFFFFFFFFFF0000#64),
        (0xD000 + 8 * (n % 64), 0x1FB#64), (0xD800 + 0x10 * t, 0xFFFFFFFFFFFFFF01#64), (0xF100, 0x0000FFFF00000000#64),
        (c, 0xFFFFFFFFFFFFFFFC#64), (c + 8, 0xFFFFFFFF000FF3F9#64), (0x320000 + 0x20 * (n % 4), 0xFFFFFFFFFFFFFFFD#64)],
      Runs (.registerWrite p.1 v) s fun u => u = { s with regs := u.regs } ∧ u.reg p.1 = (s.reg p.1 &&& ~~~p.2) ||| (v &&& p.2) ∧ ∀ o, o ≠ p.1 → u.reg o = s.reg o)
  ∧ (∀ n, ∀ p ∈ [(0x9030 + 0x40 * t, 0#64, 1#64), (0xA018 + 0x20 * t, 0x000003FF0000FFFF#64, 0x8000000000000000#64), (0xD808 + 0x10 * t, 0xFFFF#64, 0x8000000000000000#64),
        (0x320008 + 0x20 * (n % 4), 0xFFFFFF#64, 0x8000000000000000#64)],
      Runs (.registerWrite p.1 v) s fun u => u = { s with regs := u.regs }
        ∧ u.reg p.1 = ((s.reg p.1 &&& ~~~p.2.1) ||| (v &&& p.2.1)) &&& ~~~(v &&& p.2.2) ∧ ∀ o, o ≠ p.1 → u.reg o = s.reg o)
  ∧ exec (.registerWrite 0x8000 v) s = exec (.lwinEnable v) s
  ∧ exec (.registerWrite (0x9038 + 0x40 * t) v) s = exec (.trows t v) s ∧ exec (.registerWrite (0xA008 + 0x20 * t) v) s = exec (.xinv t v) s
  ∧ exec (.registerWrite 0xE800 v) s = exec (.ctxkill v) s ∧ exec (.registerWrite (0xF000 + 8 * t) v) s = (if v.getLsbD 0 then exec (.trst t) s else .next s)
  ∧ Runs (.registerWrite 0xF080 v) s (fun u => u = { s with regs := u.regs } ∧ u.reg 0xF080 = if v.toNat % 4 = 0 then s.reg 0xF080 else s.reg 0xF080 &&& ~~~3#64)
  ∧ (∀ q < 1024, Runs (.registerWrite (0x300008 + 0x20 * q) v) s (fun u => u = { s with quarters := u.quarters } ∧ (u.quarter q).dqdbuf = v &&& 0xFFFFFFFFFFFFFF01#64)
    ∧ Runs (.registerWrite (0x300000 + 0x20 * q) v) s fun u => (u.quarter q).dqctl = v &&& 0xFFFFFFFF00000008#64
      ∧ (u.quarter q).stopped = if v.getLsbD 2 ∧ (s.quarter q).stopped = true then false else (v.getLsbD 1 || (s.quarter q).stopped))
  ∧ ∀ off, (off % 8 ≠ 0 ∨ 0x9000 ≤ off ∧ off < 0x9200 ∧ off % 0x40 = 0x28 ∨ 0xC000 ≤ off ∧ off < 0xD000 ∨ 0x10000 ≤ off ∧ off < 0x12000
      ∨ 0x100000 ≤ off ∧ off < 0x120000 ∨ 0x200000 ≤ off ∧ off < 0x210000) → exec (.registerWrite off v) s = .next s
/-! ### The package as a device (R142, R320, R346, R347, R363 to R371) -/

/-- R346, R347, R370, R371, R142: the test access port: IDCODE, SAMPLE/PRELOAD, EXTEST (the boundary register drives the pins, and after the scan what was shifted in drives them), SADDR, BYPASS; SDATA gives the 8 bytes at its address under curfew and 0 otherwise, and its address rises by 8; CURFEW stops every clock and device memory loses what no slice and no L1 holds, and from then on a step without a request of the port or a reset changes nothing. CLOCK_EVALUATION of a booted package steps the compute clock down, not below 14, when power exceeds its limit or a sensor reads 95 degrees, up, not above 28, when power is below 95% of it and all read less than 90, and else not; a sensor at 110 degrees, in an evaluation or at a THERMAL_TRIP, stops every clock and drives the pin, and one below does nothing; SLICE_RETIRE takes a map that moves the slice's entries and those only, drops the lines of the slice, and raises the floors of the slices that inherit; GRACE_WINDOW_END ends its grace after 140,000 cycles. -/
def Obligations.PortClocksAndSlices : Prop := ∀ (s : State) (v : DWord) (b : Byte) (power sensor d slice : Nat) (sensors new : List Nat),
  let pwr := (s.reg 0xF100).toNat
  let clk := pwr / 2 ^ 8 % 2 ^ 8
  let lim := max 600 (min 2400 (pwr / 2 ^ 32 % 2 ^ 16))
  let tripped (t : State) : Prop := t.curfew = true ∧ t.out = .thermalPin :: s.out ∧ t.fibres = s.fibres ∧ (∀ off, off ≠ 0xF100 → t.reg off = s.reg off)
    ∧ ∀ a, t.mem.get a = if isDram a && !s.wordHeld a then 0#8 else s.mem.get a
  exec .idcode s = .next { s with tapIr := 0x01#8, out := .tap 0x1A7C0D23#64 :: s.out }
  ∧ (Runs (.samplePreload v) s fun t => t = { s with serial := s.serial + 1, tapIr := 0x02#8, boundary := v, out := t.out } ∧ ∃ x, t.out = .tap x :: s.out)
  ∧ (Runs .extest s fun t => t = { s with serial := s.serial + 1, tapIr := 0x03#8, boundary := t.boundary, out := t.out }
      ∧ ∃ x, t.out = .pins t.boundary :: .tap x :: .pins s.boundary :: s.out)
  ∧ exec (.saddr v) s = .next { s with tapIr := 0x41#8, saddr := v }
  ∧ exec (.bypass b) s = .next { s with tapIr := b, out := .tap 0#64 :: s.out }
  ∧ exec .sdata s = .next { s with tapIr := 0x42#8, saddr := s.saddr + 8#64, out := .tap (if s.curfew then s.readOut s.saddr else 0#64) :: s.out }
  ∧ exec (.curfew false) s = .next { s with tapIr := 0x40#8 }
  ∧ (Runs (.curfew true) s fun t => t = { s with tapIr := 0x40#8, curfew := true, mem := t.mem } ∧ ∀ a, t.mem.get a = if isDram a && !s.wordHeld a then 0#8 else s.mem.get a)
  ∧ (s.curfew = true → s.agenda = [] → step s = .next s)
  ∧ (∀ i q, actsStopped i = false → s.curfew = true → s.agenda = .event i :: q → step s = .next { s with agenda := q })
  ∧ (s.booted = true → (∀ x ∈ sensors, x < 110) → Runs (.clockEvaluation power sensors) s fun t => t = { s with regs := t.regs } ∧ (∀ off, off ≠ 0xF100 → t.reg off = s.reg off)
    ∧ (lim < power ∨ (∃ x ∈ sensors, 95 ≤ x) → (t.reg 0xF100).toNat / 2 ^ 8 % 2 ^ 8 = max 14 (clk - 1))
    ∧ (power ≤ lim → 100 * power < 95 * lim → (∀ x ∈ sensors, x < 90) → (t.reg 0xF100).toNat / 2 ^ 8 % 2 ^ 8 = min 28 (clk + 1))
    ∧ (power ≤ lim → (∀ x ∈ sensors, x < 95) → (95 * lim ≤ 100 * power ∨ ∃ x ∈ sensors, 90 ≤ x) → (t.reg 0xF100).toNat / 2 ^ 8 % 2 ^ 8 = clk)
    ∧ (t.reg 0xF100).toNat / 2 ^ 32 % 2 ^ 16 = pwr / 2 ^ 32 % 2 ^ 16)
  ∧ (s.booted = false → (∀ x ∈ sensors, x < 110) → exec (.clockEvaluation power sensors) s = .next s)
  ∧ ((∃ x ∈ sensors, 110 ≤ x) → Runs (.clockEvaluation power sensors) s tripped)
  ∧ (sensor < 110 → exec (.thermalTrip sensor) s = .next s)
  ∧ (110 ≤ sensor → Runs (.thermalTrip sensor) s tripped)
  ∧ (d < 4 → slice < 64 → (∀ g ∈ s.grace, g.1 ≠ d) →
    (mapOk (s.smapOf d) new slice = false → exec (.sliceRetire d slice new) s = .next s)
    ∧ (mapOk (s.smapOf d) new slice = true → Runs (.sliceRetire d slice new) s fun t => t.smapOf d = new ∧ t.smapGen.getD d 0 = (s.smapGen.getD d 0 + 1) % 256
        ∧ t.mem = s.mem ∧ (d, s.now) ∈ t.grace ∧ ((∀ e ∈ s.lines, e.2.version + 1 < 2 ^ 48) → s.floor (d * 64 + slice) < 2 ^ 48 →
          (∀ e ∈ s.lines, s.homeSlice (e.1 * 256) = d * 64 + slice → t.lines.get? e.1 = none)
          ∧ ∀ h < 64, (s.smapOf d).getD h 0 = slice → s.floor (d * 64 + slice) ≤ t.floor (d * 64 + new.getD h 0))))
  ∧ ∃ t, exec (.graceWindowEnd d) s = .next t ∧ t = { s with grace := t.grace } ∧ ∀ g, g ∈ t.grace ↔ g ∈ s.grace ∧ ¬ (g.1 = d ∧ g.2 + 140000 ≤ s.now)

/-- R363, R366 to R369, R320: PACKAGE_RESET leaves every table empty, every register at its reset value and host memory, the high-water marks and nothing else of memory; the steward boots on a signed image only, and extends three measurement registers; the DOE requests answer once it has booted, DOE_EXTEND for registers 3 to 7 only, and DOE_KEK_INSTALL for a tenancy below 8 whose key opens. -/
def Obligations.ResetAndAttestation : Prop := ∀ (s : State) (x sig pub cfg dsp nonce iv wrapped tag : List Byte) (i ty ten : Nat),
  (Runs .packageReset s fun t => t.fibres = [] ∧ t.flocks = [] ∧ t.ctxs = [] ∧ t.shares = [] ∧ t.reqs = [] ∧ t.aq = [] ∧ t.eops = [] ∧ t.pending = [] ∧ t.wins = [] ∧ t.lines = [] ∧ t.l1 = []
    ∧ t.keys = [] ∧ t.monitors = [] ∧ t.poison = [] ∧ t.booted = false ∧ t.curfew = false ∧ t.hwm = s.hwm ∧ (∀ off, t.reg off = regReset off)
    ∧ ∀ a, t.mem.get a = if isHost a then s.mem.get a else 0#8)
  ∧ (s.booted = false → s.bootFailed = false →
    (sha384 pub = Config.rootKeyDigest → ecdsaVerify pub (sha384 x) sig = true → Runs (.resetEnd x sig pub cfg dsp) s fun t =>
      t = { s with booted := true, boots := s.boots + 1, meas := t.meas }
        ∧ t.measOf 0 = sha384 (s.measOf 0 ++ sha384 x) ∧ t.measOf 1 = sha384 (s.measOf 1 ++ sha384 cfg) ∧ t.measOf 2 = sha384 (s.measOf 2 ++ sha384 dsp)
        ∧ ∀ j, 3 ≤ j → t.measOf j = s.measOf j)
    ∧ (sha384 pub ≠ Config.rootKeyDigest ∨ ecdsaVerify pub (sha384 x) sig = false → exec (.resetEnd x sig pub cfg dsp) s = .next { s with bootFailed := true }))
  ∧ (s.booted = false → ∀ e ∈ [Instr.doeAttestation nonce, .doeCertChain, .doeExtend i x, .doeKekInstall ten pub iv wrapped tag, .doeUnknown ty, .stewardKeyInstall i ten x],
      exec e s = .next s)
  ∧ (s.booted = true →
    (Runs (.doeAttestation nonce) s fun t => t = { s with reportSeq := s.reportSeq + 1, out := t.out } ∧ ∃ g, t.out = .doe (s.reportBody nonce ++ g) :: s.out)
    ∧ exec .doeCertChain s = .next { s with out := .doe Config.certChain :: s.out }
    ∧ exec (.doeUnknown ty) s = .next { s with out := .doe [] :: s.out }
    ∧ (3 ≤ i → i ≤ 7 → Runs (.doeExtend i x) s fun t => t = { s with meas := t.meas, out := .doe [0#8] :: s.out }
        ∧ t.measOf i = sha384 (s.measOf i ++ x) ∧ ∀ j, j ≠ i → t.measOf j = s.measOf j)
    ∧ (i < 3 ∨ 7 < i → exec (.doeExtend i x) s = .next { s with out := .doe [1#8] :: s.out })
    ∧ (8 ≤ ten ∨ s.openKek pub iv wrapped tag = none → exec (.doeKekInstall ten pub iv wrapped tag) s = .next { s with out := .doe [1#8] :: s.out })
    ∧ (∀ k, ten < 8 → s.openKek pub iv wrapped tag = some k → Runs (.doeKekInstall ten pub iv wrapped tag) s fun t =>
        t = { s with keks := t.keks, out := .doe [0#8] :: s.out } ∧ t.keks.get? ten = some k ∧ ∀ j, j ≠ ten → t.keks.get? j = s.keks.get? j)
    ∧ (i < 64 → ten < 8 → x.length = 32 → Runs (.stewardKeyInstall i ten x) s fun t => t = { s with keys := t.keys } ∧ t.keys.get? i = some ⟨some x, ten⟩
        ∧ ∀ j, j ≠ i → t.keys.get? j = s.keys.get? j))

/-- R265, R266, R268, R283: the link layer. A flit that is expected is acknowledged, with a hold where it fills the receive buffer past three quarters, and what it acknowledges and reports is taken; any other one is answered with a replay request; flits asked for again are sent again, and the sixteenth replay of one flit takes the link down, as LINK_DOWN and 14,000 silent cycles do; holds and hints count as flits heard; holds stop and release a port; a trained link numbers anew; hold hints make a peer hot on every die until the port takes them back, or for 28,000 cycles. -/
def Obligations.LinksFollowR266 : Prop := ∀ (s : State) (p peer : Nat) (fl : Flit) (seq : BitVec 12),
  let x := s.port p
  let full := decide (3 * Config.rxFlits < 4 * (x.rxFill + 1))
  let acks (k : Nat) : Prop := k = match fl.ack with
    | none => x.unacked
    | some a => min x.unacked (x.txSeq - a).toNat
  let same (t : State) : Prop := t.mem = s.mem ∧ t.fibres.map (fun f => (f.key, f.regs, f.ip)) = s.fibres.map (fun f => (f.key, f.regs, f.ip))
  let down (i : Instr) : Prop := Runs i s fun t => (t.port p).up = false ∧ (t.port p).down = true ∧ same t ∧ (∀ h ∈ t.hot, h.2.2.1 ≠ p) ∧ ∀ e ∈ t.lostOn, e.2 ≠ p
  (x.up = true →
    (fl.crcOk = true → fl.seq = x.rxSeq → Runs (.flitReceive p fl) s fun t => (t.port p).rxSeq = x.rxSeq + 1#12 ∧ (t.port p).lastFlit = s.now
      ∧ (t.port p).rxFill = x.rxFill + 1 ∧ (t.port p).rxHold = (x.rxHold || full) ∧ acks (t.port p).unacked
      ∧ (∀ e, e ∈ t.lostOn ↔ e ∈ s.lostOn ∨ fl.lost = some e.1 ∧ e.2 = p)
      ∧ t.out = (if !x.rxHold && full then [.flit p 3, .flit p 0] else [.flit p 0]) ++ s.out ∧ same t)
    ∧ (fl.crcOk = false ∨ fl.seq ≠ x.rxSeq → Runs (.flitReceive p fl) s fun t => (t.port p).rxSeq = x.rxSeq ∧ (t.port p).lastFlit = s.now
      ∧ (fl.crcOk = true → acks (t.port p).unacked) ∧ t.lostOn = s.lostOn ∧ t.out = .flit p 1 :: s.out ∧ same t)
    ∧ (let u := (x.txSeq - seq).toNat
      0 < u → u ≤ x.unacked →
        ((u < x.unacked ∨ x.replays < 15) → Runs (.replayRequest p seq) s fun t => (t.port p).unacked = u
          ∧ (t.port p).replays = (if u < x.unacked then 1 else x.replays + 1) ∧ (t.port p).lastFlit = s.now ∧ t.out = .flit p 2 :: s.out ∧ same t)
        ∧ (u = x.unacked → 15 ≤ x.replays → down (.replayRequest p seq)))
    ∧ (Runs (.bufferHold p) s fun t => t.port p = { x with held := true, lastFlit := s.now } ∧ t = { s with ports := t.ports })
    ∧ (Runs (.bufferRelease p) s fun t => t.port p = { x with held := false, lastFlit := s.now } ∧ t = { s with ports := t.ports })
    ∧ down (.linkDown p)
    ∧ (x.lastFlit + 14000 ≤ s.now → down (.linkSilenceTimeout p)) ∧ (s.now < x.lastFlit + 14000 → exec (.linkSilenceTimeout p) s = .next s)
    ∧ (Runs (.holdHintOn p peer) s fun t => t = { s with hot := t.hot, ports := t.ports } ∧ t.port p = { x with lastFlit := s.now } ∧ ∀ d < 4, (d, peer, p, s.now) ∈ t.hot))
  ∧ (x.up = false → ∀ i ∈ [Instr.flitReceive p fl, .replayRequest p seq, .bufferHold p, .bufferRelease p, .linkDown p, .linkSilenceTimeout p, .holdHintOn p peer],
      exec i s = .next s)
  ∧ (p < 18 → Runs (.linkTrained p) s fun t => t = { s with ports := t.ports } ∧ t.port p = ⟨true, false, 0#12, 0#12, 0, 0, false, s.now, 0, false⟩
      ∧ ∀ j, j ≠ p → t.port j = s.port j)
  ∧ (Runs (.holdHintOff p peer) s fun t => (∀ h, h ∈ t.hot ↔ h ∈ s.hot ∧ ¬ (h.2.1 = peer ∧ h.2.2.1 = p)) ∧ same t)
  ∧ ((∃ h ∈ s.hot, h.2.1 = peer ∧ h.2.2.1 = p ∧ h.2.2.2 + 28000 ≤ s.now) → Runs (.holdHintExpiry p peer) s fun t =>
      (∀ h, h ∈ t.hot ↔ h ∈ s.hot ∧ ¬ (h.2.1 = peer ∧ h.2.2.1 = p)) ∧ same t)
  ∧ ((∀ h ∈ s.hot, h.2.1 = peer → h.2.2.1 = p → s.now < h.2.2.2 + 28000) → exec (.holdHintExpiry p peer) s = .next s)

/-- R268, R269, R286: PLANE_REMAP gives an idle plane, or one whose link is down, a port and changes no other plane, sends again what a dead link left unanswered, and lets the plane's accesses wait while a live plane has answers to come; PEER_PROBE probes, by one flit on every active plane, a peer that has owed an answer for 112,000 cycles; PEER_LOST marks a peer that is unreachable on every active plane, or whose probe is 28,000 cycles old, and drops its channels, carts and packets, and no other peer; PEER_READMIT takes the mark back; PEER_NUMBER_ASSIGN sets the package's number. -/
def Obligations.PlanesAndPeers : Prop := ∀ (s : State) (plane port peer n : Nat),
  (plane < 16 → port < 18 → (s.planeBusy plane = false ∨ (s.port (s.planePort plane)).up = false) → Runs (.planeRemap plane port) s fun t =>
      t.planePort plane = port ∧ t.planeStalled plane = false
      ∧ (∀ q < 16, q ≠ plane → t.planePort q = s.planePort q ∧ t.planeStalled q = s.planeStalled q) ∧ t.mem = s.mem ∧ t.fibres = s.fibres
      ∧ ((s.port (s.planePort plane)).up = false → ∀ c ∈ s.chans, c.plane = plane →
          { c with items := c.flight.filter (s.unanswered c) ++ c.items, flight := [] } ∈ t.chans))
  ∧ (16 ≤ plane ∨ 18 ≤ port → exec (.planeRemap plane port) s = .next s)
  ∧ (s.planeBusy plane = true → (s.port (s.planePort plane)).up = true → plane < 16 → port < 18 → Runs (.planeRemap plane port) s fun t =>
      t = { s with remaps := t.remaps } ∧ t.planeStalled plane = true ∧ ∀ q, q ≠ plane → t.planeStalled q = s.planeStalled q)
  ∧ (s.lost peer = false → s.probes.get? peer = none →
      ((∃ u ∈ s.unacked, u.group = false ∧ u.peer = peer ∧ u.born + 112000 ≤ s.now)
        ∨ ∃ r ∈ s.reqs, r.ans = none ∧ r.fail = none ∧ r.born + 112000 ≤ s.now ∧ ∃ g w y v, r.dest = .peer g peer w y v) →
      let live := (List.range 16).filter fun i => (s.port (s.planePort i)).up
      Runs (.peerProbe peer) s fun t => t = { s with out := (live.map (Output.probe peer)).reverse ++ s.out, probes := t.probes, ports := t.ports }
        ∧ t.probes.get? peer = some s.now ∧ (∀ q, q ≠ peer → t.probes.get? q = s.probes.get? q)
        ∧ ∀ p, (t.port p).unacked = (s.port p).unacked + (live.filter fun i => decide (s.planePort i = p)).length)
  ∧ (s.lost peer = true ∨ s.probes.get? peer ≠ none → exec (.peerProbe peer) s = .next s)
  ∧ ((∀ u ∈ s.unacked, u.peer = peer → s.now < u.born + 112000) → (∀ r ∈ s.reqs, s.now < r.born + 112000) → (∀ e ∈ s.eops, s.now < e.born + 112000) → exec (.peerProbe peer) s = .next s)
  ∧ (peer < 1024 → s.lost peer = false →
      ((∃ i < 16, (s.port (s.planePort i)).up = true) ∧ (∀ i < 16, (s.port (s.planePort i)).up = true → (peer, s.planePort i) ∈ s.lostOn)
        ∨ ∃ b, s.probes.get? peer = some b ∧ b + 28000 ≤ s.now) → (∀ r ∈ s.reqs, ∀ g w y v, r.dest ≠ .peer g peer w y v) → (∀ f ∈ s.fibres, f.parkedAt ≠ some peer) → Runs (.peerLost peer) s fun t =>
      t.lost peer = true ∧ (∀ c ∈ t.chans, c.group = false → c.peer = peer → c.items = [] ∧ c.flight = []) ∧ (∀ e ∈ t.carts, e.2.group = false → e.2.peer ≠ peer)
        ∧ ∀ u ∈ t.unacked, u.group = false → u.peer ≠ peer)
  ∧ (s.lost peer = true ∨ 1024 ≤ peer
      ∨ ((∀ i < 16, (s.port (s.planePort i)).up = false) ∨ ∃ i < 16, (s.port (s.planePort i)).up = true ∧ (peer, s.planePort i) ∉ s.lostOn)
        ∧ (∀ b, s.probes.get? peer = some b → s.now < b + 28000) → exec (.peerLost peer) s = .next s)
  ∧ (peer < 1024 → Runs (.peerReadmit peer) s fun t => t = { s with regs := t.regs, recvSeq := t.recvSeq } ∧ t.lost peer = false
      ∧ (∀ e, e ∈ t.recvSeq ↔ e ∈ s.recvSeq ∧ e.1 / 524288 ≠ peer)
      ∧ ∀ q < 1024, q ≠ peer → t.lost q = s.lost q)
  ∧ (n < 1024 → Runs (.peerNumberAssign n) s fun t => t = { s with regs := t.regs } ∧ t.ownPeer = some n)

/-! ### The whole machine -/

/-- R57 to R65, R69 to R72: decoding and encoding agree. Decoding an encoded instruction word gives the instruction back, with every operand at every value that its encoding admits; and decoding takes nothing for an instruction that is not well-formed, and drops no bit of a word: encoding what a word decodes to gives that word. -/
def Obligations.DecodingAndEncodingAgree : Prop :=
  (∀ i : Instr, Laws.RoundTrip.Statement i) ∧ ∀ (w : Word) (i : Instr), decode w = .ok i → i.isWord = true ∧ i.wf = true ∧ encode i = some w

/-- R57 to R72: words put together from the encoding tables decode to the instructions that they stand for, one or more of each family. -/
def Obligations.DecodeWords : Prop :=
  ∀ p ∈ ([(0x3C00531C, .iadd ⟨false, false, .always⟩ 5 6 7 .b32),
      (0xCE00531C, .iadd ⟨true, true, .on 3 true⟩ 5 6 7 .b32),
      (0x3C224322, .or ⟨false, false, .always⟩ 4 6 8 .b64),
      (0x3C405340, .iaddi ⟨false, false, .always⟩ 5 6 0x40),
      (0x3C505678, .movi ⟨false, false, .always⟩ 5 0x678),
      (0x3C8A4321, .fsub ⟨false, false, .always⟩ 4 6 8 .f64 .rz),
      (0x3CD25369, .cvt ⟨false, false, .always⟩ 5 6 .f64 .i32 true .rz),
      (0x3D01FFFF, .bra ⟨false, false, .always⟩ 0x1FFFF),
      (0x3D1E6014, .movsw ⟨false, false, .always⟩ 6 .fault),
      (0x3D20110D, .pand ⟨false, false, .always⟩ 1 2 3 true false),
      (0x3D3A1323, .cmp ⟨false, false, .always⟩ 1 6 8 .f64 .ge),
      (0x3D40837E, .ld ⟨false, false, .always⟩ 8 6 15 true .b128),
      (0x3D448301, .st ⟨false, false, .always⟩ 8 6 .b64),
      (0x3D8E8300, .atomOrdCas ⟨false, false, .always⟩ 8 6 0 false .b32),
      (0x3D7AC000, .bar ⟨false, false, .always⟩ .par true),
      (0x3DA19061, .tdset ⟨false, false, .always⟩ 200 6 true),
      (0x3DAA0205, .mma ⟨false, false, .always⟩ 1 2 true),
      (0x3DD86011, .movp ⟨false, false, .always⟩ 6 .rfq),
      (0xBDFDFFFF, .imx 0x1FFFF)] : List (Nat × Instr)),
    decodeTableWord 32 p.1 = some p.2

/-- R363: after a package reset no fibre, context, request or queued write exists, memory lists nothing, and the dispatch registers read as R27 says. Memory that nothing has written reads as zero, and the clocks start at 0: both are the model's choice (logs 1 and 2). -/
def Obligations.ResetState : Prop :=
  let s := State.reset
  s.fibres = [] ∧ s.ctxs = [] ∧ s.shares = [] ∧ s.reqs = [] ∧ s.aq = [] ∧ s.eops = [] ∧ s.pending = [] ∧ s.mem = [] ∧ (∀ a, s.mem.get a = 0#8)
  ∧ MemCanonical s ∧ NoIdleEnded s ∧ NoOverdueAck s
  ∧ s.reg 0x8000 = 0#64 ∧ s.reg 0x9008 = 0x4000#64 ∧ s.reg 0x9038 = 0xFFFFFFFF#64 ∧ s.reg 0x9078 = 0#64 ∧ s.reg 0xA018 = 0x3FF00000000#64 ∧ s.reg 0xC000 = 0#64

/-- A step runs the decoded word: where a flock stands at a word in the middle of its chain, with no comparator on it and no split before it, step is exec of the instruction that the bytes at its address decode to, after the leaf of the fetch has been met (R146), with what the passing of a step does after it. A step begins a chain where nothing else is due: with no chain under way, an empty agenda, no event of the machine's own and no flock to form, the only flock issues its next word; and outside events run one at a time, in the order of the agenda, unless it is an instruction word or the clocks have stopped (the agenda and the order are the model's choice, log 3). -/
def Obligations.StepRunsWordsAndEvents : Prop :=
  (∀ (s : State) (fl : Flock) (k : FKey) (w : Word) (i : Instr), s.curfew = false → s.midFlock? = some (fl, k) →
    let x := { s with cur := fl.q }
    (fl.imxs = [] → fl.split ≠ some fl.addr ∧ x.comparator? fl.q = none) →
    x.fetch (s.tenOf k) (s.ctx (s.ctxOf k)).prot fl.addr = .ok w → decode w = .ok i →
    step s = match exec i (x.walkVa k fl.addr.toNat) with
      | .next t => .next t.tick
      | .fault e => .fault e
      | .refused r => .refused r)
  ∧ (∀ (s : State), s.curfew = false → s.midFlock? = none →
    (∀ i q, s.agenda = .event i :: q → i.isWord = false →
      step s = match exec i { s with agenda := q } with
        | .next t => .next t.tick
        | .fault e => .fault e
        | .refused r => .refused r)
    ∧ (∀ i q, s.agenda = .event i :: q → i.isWord = true → step s = .next ({ s with agenda := q } : State).tick)
    ∧ (∀ i, s.agenda = [] → s.event? = some i → step s = match exec i s with
        | .next t => .next t.tick
        | .fault e => .fault e
        | .refused r => .refused r)
    ∧ (∀ q, s.agenda = [] → s.event? = none → s.formable? = some q → step s = .next (s.flockForm q).tick)
    ∧ (s.agenda = [] → s.event? = none → s.formable? = none → s.issue? = none → step s = .next s.tick)
    ∧ ∀ (fl : Flock) (k : FKey) (ks : List FKey) us w i, s.agenda = [] → s.event? = none → s.formable? = none → s.flocks = [fl] → fl.members = k :: ks →
        fl.snap = [] → fl.imxs = [] → (s.quarter fl.q).stopped = false → s.codeHeld fl = false → s.chainCheck fl = .ok us → s.heldMembers fl = [] →
        let x := { s with cur := fl.q }.setFlock { fl with split := splitAt (s.snapOf fl) [] us }
        x.comparator? fl.q = none → x.fetch (s.tenOf k) (s.ctx (s.ctxOf k)).prot fl.addr = .ok w → decode w = .ok i →
        step s = match exec i (x.walkVa k fl.addr.toNat) with
          | .next t => .next t.tick
          | .fault e => .fault e
          | .refused r => .refused r)

/-- The machine goes on from every state, whatever runs, but for an access of the host outside the HDM range: every program error stays inside the state, as a frame, a halt or a record (R304 to R311). -/
def Obligations.StepGoesOn : Prop := ∀ s : State, ¬ StrayHostAccess s → GoesOn s

/-- Every step keeps memory in its canonical form: addresses strictly rise, and no listed byte is the one that an unlisted address reads as. And every step leaves no ended fibre without a write on its way (R91) and no answer to a peer that is due (R278); with the clocks stopped it leaves them as they were. -/
def Obligations.StepsKeepInvariants : Prop := ∀ s t : State, step s = .next t →
  (MemCanonical s → MemCanonical t) ∧ (NoIdleEnded s → NoOverdueAck s → NoIdleEnded t ∧ NoOverdueAck t)

end
end

