-- ==== Sys2Proof/Laws/Memory.lean ====
section
/-! SUPPORT. What every operation on memory does: it keeps the canonical form, a read after a write to the same place gives what was written, and a write leaves every other place alone. -/

namespace Sys2Proof.Machine

/-! ### The canonical form -/

theorem wfFrom_mono {m : Memory} {a b : Nat} (h : a ≤ b) (hm : Memory.wfFrom b m = true) : Memory.wfFrom a m = true := by
  cases m with
  | nil => rfl
  | cons e t =>
    obtain ⟨x, v⟩ := e
    simp only [Memory.wfFrom, Bool.and_eq_true, decide_eq_true_eq] at hm ⊢
    exact ⟨⟨by omega, hm.1.2⟩, hm.2⟩

theorem wfFrom_set {m : Memory} {lo a : Nat} {b : Byte} (hlo : lo ≤ a) (hm : Memory.wfFrom lo m = true) :
    Memory.wfFrom lo (m.set a b) = true := by
  induction m generalizing lo with
  | nil =>
    unfold Memory.set
    split <;> simp_all [Memory.wfFrom]
  | cons e t ih =>
    obtain ⟨x, v⟩ := e
    simp only [Memory.wfFrom, Bool.and_eq_true, decide_eq_true_eq] at hm
    obtain ⟨⟨h1, h2⟩, h3⟩ := hm
    unfold Memory.set
    split
    · split
      · simp only [Memory.wfFrom, Bool.and_eq_true, decide_eq_true_eq]; exact ⟨⟨h1, h2⟩, h3⟩
      · simp only [Memory.wfFrom, Bool.and_eq_true, decide_eq_true_eq]; exact ⟨⟨hlo, ‹_›⟩, ⟨⟨by omega, h2⟩, h3⟩⟩
    · split
      · split
        · exact wfFrom_mono (by omega) h3
        · simp only [Memory.wfFrom, Bool.and_eq_true, decide_eq_true_eq]; exact ⟨⟨hlo, ‹_›⟩, wfFrom_mono (by omega) h3⟩
      · simp only [Memory.wfFrom, Bool.and_eq_true, decide_eq_true_eq]; exact ⟨⟨h1, h2⟩, ih (by omega) h3⟩

theorem wf_set {m : Memory} (a : Nat) (b : Byte) (hm : m.wf = true) : (m.set a b).wf = true :=
  wfFrom_set (Nat.zero_le a) hm

theorem wf_writeBytes {m : Memory} (a : Nat) (bs : List Byte) (hm : m.wf = true) : (m.writeBytes a bs).wf = true := by
  induction bs generalizing m a with
  | nil => exact hm
  | cons b t ih => exact ih (a + 1) (wf_set a b hm)

theorem wf_filter {m : Memory} (p : Host.Cell → Bool) (hm : m.wf = true) : Memory.wf (m.filter p) = true := by
  unfold Memory.wf at *
  suffices h : ∀ lo, Memory.wfFrom lo m = true → Memory.wfFrom lo (m.filter p) = true from h 0 hm
  clear hm
  induction m with
  | nil => intro lo _; rfl
  | cons e t ih =>
    obtain ⟨x, v⟩ := e
    intro lo h
    simp only [Memory.wfFrom, Bool.and_eq_true, decide_eq_true_eq] at h
    rw [List.filter_cons]
    split
    · simp only [Memory.wfFrom, Bool.and_eq_true, decide_eq_true_eq]; exact ⟨h.1, ih _ h.2⟩
    · exact ih _ (wfFrom_mono (by omega) h.2)

/-! ### Reading what was written -/

/-- Below the first listed address everything is blank. -/
theorem get_below {m : Memory} {lo a : Nat} (hm : Memory.wfFrom lo m = true) (ha : a < lo) : m.get a = Memory.blank := by
  induction m generalizing lo with
  | nil => rfl
  | cons e t ih =>
    obtain ⟨x, v⟩ := e
    simp only [Memory.wfFrom, Bool.and_eq_true, decide_eq_true_eq] at hm
    unfold Memory.get
    rw [if_neg (by omega)]
    exact ih hm.2 (by omega)

theorem get_set_from {m : Memory} {lo : Nat} (a c : Nat) (b : Byte) (hm : Memory.wfFrom lo m = true) :
    (m.set a b).get c = if c = a then b else m.get c := by
  induction m generalizing lo with
  | nil =>
    unfold Memory.set
    by_cases hc : c = a
    · subst hc; split <;> simp [Memory.get, *]
    · split <;> simp [Memory.get, Ne.symm hc]
  | cons e t ih =>
    obtain ⟨x, v⟩ := e
    simp only [Memory.wfFrom, Bool.and_eq_true, decide_eq_true_eq] at hm
    obtain ⟨⟨h1, h2⟩, h3⟩ := hm
    have hx : Memory.get t x = Memory.blank := get_below h3 (by omega)
    unfold Memory.set
    split
    · split
      · by_cases hc : c = a
        · subst hc
          simp only [Memory.get, if_true, if_neg (show ¬ x = c by omega), *]
          exact get_below h3 (by omega)
        · simp [hc]
      · by_cases hc : c = a
        · subst hc; simp [Memory.get]
        · simp [Memory.get, hc, Ne.symm hc]
    · split
      · subst ‹a = x›
        split
        · by_cases hc : c = a
          · subst hc; simp [hx, ‹b = Memory.blank›]
          · simp [Memory.get, hc, Ne.symm hc]
        · by_cases hc : c = a
          · subst hc; simp [Memory.get]
          · simp [Memory.get, hc, Ne.symm hc]
      · by_cases hc : c = x
        · subst hc; simp [Memory.get, Ne.symm ‹¬ a = c›]
        · simp [Memory.get, Ne.symm hc, ih h3]

/-- A byte of memory after a byte of it was written. -/
theorem get_set {m : Memory} (a c : Nat) (b : Byte) (hm : m.wf = true) : (m.set a b).get c = if c = a then b else m.get c :=
  get_set_from a c b hm

/-- A byte of memory after several bytes were written. -/
theorem get_writeBytes {m : Memory} (a c : Nat) (bs : List Byte) (hm : m.wf = true) :
    (m.writeBytes a bs).get c = if a ≤ c ∧ c < a + bs.length then bs.getD (c - a) Memory.blank else m.get c := by
  induction bs generalizing m a with
  | nil => simp [Memory.writeBytes] <;> omega
  | cons b t ih =>
    rw [Memory.writeBytes, ih (a + 1) (wf_set a b hm), get_set _ _ _ hm, List.length_cons]
    by_cases h1 : c = a
    · subst h1; rw [if_neg (by omega), if_pos rfl, if_pos (by omega)]; simp
    · by_cases h2 : a + 1 ≤ c ∧ c < a + 1 + t.length
      · rw [if_pos h2, if_pos (by omega), show c - a = (c - (a + 1)) + 1 by omega]; simp
      · rw [if_neg h2, if_neg h1, if_neg (by omega)]

theorem readBytes_eq_map (m : Memory) (a n : Nat) : m.readBytes a n = (List.range n).map fun i => m.get (a + i) := by
  induction n generalizing a with
  | zero => rfl
  | succ n ih =>
    rw [Memory.readBytes, ih, List.range_succ_eq_map]
    simp only [List.map_cons, List.map_map, Nat.add_zero]
    congr 1
    exact List.map_congr_left fun i _ => by simp [Nat.add_comm, Nat.add_left_comm]

/-- Reading where one has just written gives the bytes written. -/
theorem readBytes_writeBytes {m : Memory} (a : Nat) (bs : List Byte) (hm : m.wf = true) :
    (m.writeBytes a bs).readBytes a bs.length = bs := by
  rw [readBytes_eq_map]
  refine List.ext_getElem (by simp) fun i h1 h2 => ?_
  rw [List.getElem_map, List.getElem_range, get_writeBytes _ _ _ hm, if_pos ⟨by omega, by omega⟩]
  simp [List.getD, h2]

/-- A read that no written byte reaches is unchanged. -/
theorem readBytes_writeBytes_of_disjoint {m : Memory} (a c n : Nat) (bs : List Byte) (hm : m.wf = true)
    (h : c + n ≤ a ∨ a + bs.length ≤ c) : (m.writeBytes a bs).readBytes c n = m.readBytes c n := by
  rw [readBytes_eq_map, readBytes_eq_map]
  refine List.map_congr_left fun i hi => ?_
  rw [get_writeBytes _ _ _ hm, if_neg]
  have := List.mem_range.mp hi
  omega

/-! ### Byte order -/

theorem length_leBytes (n v : Nat) : (leBytes n v).length = n := by
  induction n generalizing v with
  | zero => rfl
  | succ n ih => simp [leBytes, ih]

theorem length_readBytes (m : Memory) (a n : Nat) : (m.readBytes a n).length = n := by
  simp [readBytes_eq_map]

theorem leNat_leBytes (n v : Nat) : leNat (leBytes n v) = v % 256 ^ n := by
  induction n generalizing v with
  | zero => simp [leBytes, leNat, Nat.mod_one]
  | succ n ih =>
    rw [leBytes, leNat, ih, BitVec.toNat_ofNat, show 256 ^ (n + 1) = 256 * 256 ^ n from by rw [Nat.pow_succ, Nat.mul_comm], Nat.mod_mul]

/-- A number written little-endian reads back as itself, where it fits. -/
theorem read_writeBytes_leBytes {m : Memory} (a n v : Nat) (hm : m.wf = true) (hv : v < 256 ^ n) :
    (m.writeBytes a (leBytes n v)).read a n = v := by
  have h := readBytes_writeBytes a (leBytes n v) hm
  rw [length_leBytes] at h
  rw [Memory.read, h, leNat_leBytes, Nat.mod_eq_of_lt hv]

/-! ### Tables -/

theorem tab_get_set {α : Type} (t : Tab α) (k j : Nat) (x : α) : (t.set k x).get? j = if j = k then some x else t.get? j := by
  induction t with
  | nil => simp [Tab.set, Tab.get?, eq_comm]
  | cons e t ih =>
    obtain ⟨i, y⟩ := e
    unfold Tab.set
    split
    · subst ‹i = k›
      simp only [Tab.get?]
      by_cases h : i = j
      · simp [h]
      · simp [h, Ne.symm h]
    · simp only [Tab.get?, ih]
      by_cases h : i = j
      · subst h; simp [*]
      · simp [h]

end Sys2Proof.Machine
end

