-- ==== Sys2Proof/Laws/State.lean ====
section
/-! SUPPORT. What each update of the state leaves in each field. -/

namespace Sys2Proof.Machine

/-! ### updFibre -/

@[simp] theorem State.updFibre_mem (s : State) (k : FKey) (g : Fibre → Fibre) : (s.updFibre k g).mem = s.mem := rfl
@[simp] theorem State.updFibre_full (s : State) (k : FKey) (g : Fibre → Fibre) : (s.updFibre k g).full = s.full := rfl
@[simp] theorem State.updFibre_poison (s : State) (k : FKey) (g : Fibre → Fibre) : (s.updFibre k g).poison = s.poison := rfl
@[simp] theorem State.updFibre_peerCode (s : State) (k : FKey) (g : Fibre → Fibre) : (s.updFibre k g).peerCode = s.peerCode := rfl
@[simp] theorem State.updFibre_fibres (s : State) (k : FKey) (g : Fibre → Fibre) : (s.updFibre k g).fibres = s.fibres.map fun f => if f.key = k then g f else f := rfl
@[simp] theorem State.updFibre_flocks (s : State) (k : FKey) (g : Fibre → Fibre) : (s.updFibre k g).flocks = s.flocks := rfl
@[simp] theorem State.updFibre_reqs (s : State) (k : FKey) (g : Fibre → Fibre) : (s.updFibre k g).reqs = s.reqs := rfl
@[simp] theorem State.updFibre_aq (s : State) (k : FKey) (g : Fibre → Fibre) : (s.updFibre k g).aq = s.aq := rfl
@[simp] theorem State.updFibre_hist (s : State) (k : FKey) (g : Fibre → Fibre) : (s.updFibre k g).hist = s.hist := rfl
@[simp] theorem State.updFibre_kn (s : State) (k : FKey) (g : Fibre → Fibre) : (s.updFibre k g).kn = s.kn := rfl
@[simp] theorem State.updFibre_shares (s : State) (k : FKey) (g : Fibre → Fibre) : (s.updFibre k g).shares = s.shares := rfl
@[simp] theorem State.updFibre_sgen (s : State) (k : FKey) (g : Fibre → Fibre) : (s.updFibre k g).sgen = s.sgen := rfl
@[simp] theorem State.updFibre_saved (s : State) (k : FKey) (g : Fibre → Fibre) : (s.updFibre k g).saved = s.saved := rfl
@[simp] theorem State.updFibre_remains (s : State) (k : FKey) (g : Fibre → Fibre) : (s.updFibre k g).remains = s.remains := rfl
@[simp] theorem State.updFibre_loans (s : State) (k : FKey) (g : Fibre → Fibre) : (s.updFibre k g).loans = s.loans := rfl
@[simp] theorem State.updFibre_quarters (s : State) (k : FKey) (g : Fibre → Fibre) : (s.updFibre k g).quarters = s.quarters := rfl
@[simp] theorem State.updFibre_tiles (s : State) (k : FKey) (g : Fibre → Fibre) : (s.updFibre k g).tiles = s.tiles := rfl
@[simp] theorem State.updFibre_eops (s : State) (k : FKey) (g : Fibre → Fibre) : (s.updFibre k g).eops = s.eops := rfl
@[simp] theorem State.updFibre_fetches (s : State) (k : FKey) (g : Fibre → Fibre) : (s.updFibre k g).fetches = s.fetches := rfl
@[simp] theorem State.updFibre_lines (s : State) (k : FKey) (g : Fibre → Fibre) : (s.updFibre k g).lines = s.lines := rfl
@[simp] theorem State.updFibre_hbits (s : State) (k : FKey) (g : Fibre → Fibre) : (s.updFibre k g).hbits = s.hbits := rfl
@[simp] theorem State.updFibre_l1 (s : State) (k : FKey) (g : Fibre → Fibre) : (s.updFibre k g).l1 = s.l1 := rfl
@[simp] theorem State.updFibre_predict (s : State) (k : FKey) (g : Fibre → Fibre) : (s.updFibre k g).predict = s.predict := rfl
@[simp] theorem State.updFibre_floors (s : State) (k : FKey) (g : Fibre → Fibre) : (s.updFibre k g).floors = s.floors := rfl
@[simp] theorem State.updFibre_pages (s : State) (k : FKey) (g : Fibre → Fibre) : (s.updFibre k g).pages = s.pages := rfl
@[simp] theorem State.updFibre_smap (s : State) (k : FKey) (g : Fibre → Fibre) : (s.updFibre k g).smap = s.smap := rfl
@[simp] theorem State.updFibre_smapGen (s : State) (k : FKey) (g : Fibre → Fibre) : (s.updFibre k g).smapGen = s.smapGen := rfl
@[simp] theorem State.updFibre_grace (s : State) (k : FKey) (g : Fibre → Fibre) : (s.updFibre k g).grace = s.grace := rfl
@[simp] theorem State.updFibre_frozen (s : State) (k : FKey) (g : Fibre → Fibre) : (s.updFibre k g).frozen = s.frozen := rfl
@[simp] theorem State.updFibre_leafCnt (s : State) (k : FKey) (g : Fibre → Fibre) : (s.updFibre k g).leafCnt = s.leafCnt := rfl
@[simp] theorem State.updFibre_staleSlots (s : State) (k : FKey) (g : Fibre → Fibre) : (s.updFibre k g).staleSlots = s.staleSlots := rfl
@[simp] theorem State.updFibre_hostCommits (s : State) (k : FKey) (g : Fibre → Fibre) : (s.updFibre k g).hostCommits = s.hostCommits := rfl
@[simp] theorem State.updFibre_pending (s : State) (k : FKey) (g : Fibre → Fibre) : (s.updFibre k g).pending = s.pending := rfl
@[simp] theorem State.updFibre_ctxs (s : State) (k : FKey) (g : Fibre → Fibre) : (s.updFibre k g).ctxs = s.ctxs := rfl
@[simp] theorem State.updFibre_steal (s : State) (k : FKey) (g : Fibre → Fibre) : (s.updFibre k g).steal = s.steal := rfl
@[simp] theorem State.updFibre_stolen (s : State) (k : FKey) (g : Fibre → Fibre) : (s.updFibre k g).stolen = s.stolen := rfl
@[simp] theorem State.updFibre_regs (s : State) (k : FKey) (g : Fibre → Fibre) : (s.updFibre k g).regs = s.regs := rfl
@[simp] theorem State.updFibre_wins (s : State) (k : FKey) (g : Fibre → Fibre) : (s.updFibre k g).wins = s.wins := rfl
@[simp] theorem State.updFibre_carts (s : State) (k : FKey) (g : Fibre → Fibre) : (s.updFibre k g).carts = s.carts := rfl
@[simp] theorem State.updFibre_chans (s : State) (k : FKey) (g : Fibre → Fibre) : (s.updFibre k g).chans = s.chans := rfl
@[simp] theorem State.updFibre_unacked (s : State) (k : FKey) (g : Fibre → Fibre) : (s.updFibre k g).unacked = s.unacked := rfl
@[simp] theorem State.updFibre_rfqWait (s : State) (k : FKey) (g : Fibre → Fibre) : (s.updFibre k g).rfqWait = s.rfqWait := rfl
@[simp] theorem State.updFibre_hostWids (s : State) (k : FKey) (g : Fibre → Fibre) : (s.updFibre k g).hostWids = s.hostWids := rfl
@[simp] theorem State.updFibre_hostHeld (s : State) (k : FKey) (g : Fibre → Fibre) : (s.updFibre k g).hostHeld = s.hostHeld := rfl
@[simp] theorem State.updFibre_acks (s : State) (k : FKey) (g : Fibre → Fibre) : (s.updFibre k g).acks = s.acks := rfl
@[simp] theorem State.updFibre_outbox (s : State) (k : FKey) (g : Fibre → Fibre) : (s.updFibre k g).outbox = s.outbox := rfl
@[simp] theorem State.updFibre_remaps (s : State) (k : FKey) (g : Fibre → Fibre) : (s.updFibre k g).remaps = s.remaps := rfl
@[simp] theorem State.updFibre_openTags (s : State) (k : FKey) (g : Fibre → Fibre) : (s.updFibre k g).openTags = s.openTags := rfl
@[simp] theorem State.updFibre_imports (s : State) (k : FKey) (g : Fibre → Fibre) : (s.updFibre k g).imports = s.imports := rfl
@[simp] theorem State.updFibre_probes (s : State) (k : FKey) (g : Fibre → Fibre) : (s.updFibre k g).probes = s.probes := rfl
@[simp] theorem State.updFibre_lostOn (s : State) (k : FKey) (g : Fibre → Fibre) : (s.updFibre k g).lostOn = s.lostOn := rfl
@[simp] theorem State.updFibre_ports (s : State) (k : FKey) (g : Fibre → Fibre) : (s.updFibre k g).ports = s.ports := rfl
@[simp] theorem State.updFibre_hot (s : State) (k : FKey) (g : Fibre → Fibre) : (s.updFibre k g).hot = s.hot := rfl
@[simp] theorem State.updFibre_recvSeq (s : State) (k : FKey) (g : Fibre → Fibre) : (s.updFibre k g).recvSeq = s.recvSeq := rfl
@[simp] theorem State.updFibre_monitors (s : State) (k : FKey) (g : Fibre → Fibre) : (s.updFibre k g).monitors = s.monitors := rfl
@[simp] theorem State.updFibre_stopSeq (s : State) (k : FKey) (g : Fibre → Fibre) : (s.updFibre k g).stopSeq = s.stopSeq := rfl
@[simp] theorem State.updFibre_traceSeq (s : State) (k : FKey) (g : Fibre → Fibre) : (s.updFibre k g).traceSeq = s.traceSeq := rfl
@[simp] theorem State.updFibre_dbgCount (s : State) (k : FKey) (g : Fibre → Fibre) : (s.updFibre k g).dbgCount = s.dbgCount := rfl
@[simp] theorem State.updFibre_stallOut (s : State) (k : FKey) (g : Fibre → Fibre) : (s.updFibre k g).stallOut = s.stallOut := rfl
@[simp] theorem State.updFibre_lastUnit (s : State) (k : FKey) (g : Fibre → Fibre) : (s.updFibre k g).lastUnit = s.lastUnit := rfl
@[simp] theorem State.updFibre_keys (s : State) (k : FKey) (g : Fibre → Fibre) : (s.updFibre k g).keys = s.keys := rfl
@[simp] theorem State.updFibre_hwm (s : State) (k : FKey) (g : Fibre → Fibre) : (s.updFibre k g).hwm = s.hwm := rfl
@[simp] theorem State.updFibre_keks (s : State) (k : FKey) (g : Fibre → Fibre) : (s.updFibre k g).keks = s.keks := rfl
@[simp] theorem State.updFibre_meas (s : State) (k : FKey) (g : Fibre → Fibre) : (s.updFibre k g).meas = s.meas := rfl
@[simp] theorem State.updFibre_reportSeq (s : State) (k : FKey) (g : Fibre → Fibre) : (s.updFibre k g).reportSeq = s.reportSeq := rfl
@[simp] theorem State.updFibre_boots (s : State) (k : FKey) (g : Fibre → Fibre) : (s.updFibre k g).boots = s.boots := rfl
@[simp] theorem State.updFibre_booted (s : State) (k : FKey) (g : Fibre → Fibre) : (s.updFibre k g).booted = s.booted := rfl
@[simp] theorem State.updFibre_bootFailed (s : State) (k : FKey) (g : Fibre → Fibre) : (s.updFibre k g).bootFailed = s.bootFailed := rfl
@[simp] theorem State.updFibre_curfew (s : State) (k : FKey) (g : Fibre → Fibre) : (s.updFibre k g).curfew = s.curfew := rfl
@[simp] theorem State.updFibre_tapIr (s : State) (k : FKey) (g : Fibre → Fibre) : (s.updFibre k g).tapIr = s.tapIr := rfl
@[simp] theorem State.updFibre_saddr (s : State) (k : FKey) (g : Fibre → Fibre) : (s.updFibre k g).saddr = s.saddr := rfl
@[simp] theorem State.updFibre_boundary (s : State) (k : FKey) (g : Fibre → Fibre) : (s.updFibre k g).boundary = s.boundary := rfl
@[simp] theorem State.updFibre_now (s : State) (k : FKey) (g : Fibre → Fibre) : (s.updFibre k g).now = s.now := rfl
@[simp] theorem State.updFibre_cyc (s : State) (k : FKey) (g : Fibre → Fibre) : (s.updFibre k g).cyc = s.cyc := rfl
@[simp] theorem State.updFibre_out (s : State) (k : FKey) (g : Fibre → Fibre) : (s.updFibre k g).out = s.out := rfl
@[simp] theorem State.updFibre_agenda (s : State) (k : FKey) (g : Fibre → Fibre) : (s.updFibre k g).agenda = s.agenda := rfl
@[simp] theorem State.updFibre_leaving (s : State) (k : FKey) (g : Fibre → Fibre) : (s.updFibre k g).leaving = s.leaving := rfl
@[simp] theorem State.updFibre_cur (s : State) (k : FKey) (g : Fibre → Fibre) : (s.updFibre k g).cur = s.cur := rfl
@[simp] theorem State.updFibre_pace (s : State) (k : FKey) (g : Fibre → Fibre) : (s.updFibre k g).pace = s.pace := rfl
@[simp] theorem State.updFibre_lag (s : State) (k : FKey) (g : Fibre → Fibre) : (s.updFibre k g).lag = s.lag := rfl
@[simp] theorem State.updFibre_serial (s : State) (k : FKey) (g : Fibre → Fibre) : (s.updFibre k g).serial = s.serial := rfl

/-! ### dropFibre -/

@[simp] theorem State.dropFibre_mem (s : State) (k : FKey) : (s.dropFibre k).mem = s.mem := rfl
@[simp] theorem State.dropFibre_full (s : State) (k : FKey) : (s.dropFibre k).full = s.full := rfl
@[simp] theorem State.dropFibre_poison (s : State) (k : FKey) : (s.dropFibre k).poison = s.poison := rfl
@[simp] theorem State.dropFibre_peerCode (s : State) (k : FKey) : (s.dropFibre k).peerCode = s.peerCode := rfl
@[simp] theorem State.dropFibre_fibres (s : State) (k : FKey) : (s.dropFibre k).fibres = s.fibres.filter fun f => f.key ≠ k := rfl
@[simp] theorem State.dropFibre_flocks (s : State) (k : FKey) : (s.dropFibre k).flocks = s.flocks := rfl
@[simp] theorem State.dropFibre_reqs (s : State) (k : FKey) : (s.dropFibre k).reqs = s.reqs := rfl
@[simp] theorem State.dropFibre_aq (s : State) (k : FKey) : (s.dropFibre k).aq = s.aq := rfl
@[simp] theorem State.dropFibre_hist (s : State) (k : FKey) : (s.dropFibre k).hist = s.hist := rfl
@[simp] theorem State.dropFibre_kn (s : State) (k : FKey) : (s.dropFibre k).kn = s.kn := rfl
@[simp] theorem State.dropFibre_shares (s : State) (k : FKey) : (s.dropFibre k).shares = s.shares := rfl
@[simp] theorem State.dropFibre_sgen (s : State) (k : FKey) : (s.dropFibre k).sgen = s.sgen := rfl
@[simp] theorem State.dropFibre_saved (s : State) (k : FKey) : (s.dropFibre k).saved = s.saved := rfl
@[simp] theorem State.dropFibre_remains (s : State) (k : FKey) : (s.dropFibre k).remains = s.remains := rfl
@[simp] theorem State.dropFibre_loans (s : State) (k : FKey) : (s.dropFibre k).loans = s.loans := rfl
@[simp] theorem State.dropFibre_quarters (s : State) (k : FKey) : (s.dropFibre k).quarters = s.quarters := rfl
@[simp] theorem State.dropFibre_tiles (s : State) (k : FKey) : (s.dropFibre k).tiles = s.tiles := rfl
@[simp] theorem State.dropFibre_eops (s : State) (k : FKey) : (s.dropFibre k).eops = s.eops := rfl
@[simp] theorem State.dropFibre_fetches (s : State) (k : FKey) : (s.dropFibre k).fetches = s.fetches := rfl
@[simp] theorem State.dropFibre_lines (s : State) (k : FKey) : (s.dropFibre k).lines = s.lines := rfl
@[simp] theorem State.dropFibre_hbits (s : State) (k : FKey) : (s.dropFibre k).hbits = s.hbits := rfl
@[simp] theorem State.dropFibre_l1 (s : State) (k : FKey) : (s.dropFibre k).l1 = s.l1 := rfl
@[simp] theorem State.dropFibre_predict (s : State) (k : FKey) : (s.dropFibre k).predict = s.predict := rfl
@[simp] theorem State.dropFibre_floors (s : State) (k : FKey) : (s.dropFibre k).floors = s.floors := rfl
@[simp] theorem State.dropFibre_pages (s : State) (k : FKey) : (s.dropFibre k).pages = s.pages := rfl
@[simp] theorem State.dropFibre_smap (s : State) (k : FKey) : (s.dropFibre k).smap = s.smap := rfl
@[simp] theorem State.dropFibre_smapGen (s : State) (k : FKey) : (s.dropFibre k).smapGen = s.smapGen := rfl
@[simp] theorem State.dropFibre_grace (s : State) (k : FKey) : (s.dropFibre k).grace = s.grace := rfl
@[simp] theorem State.dropFibre_frozen (s : State) (k : FKey) : (s.dropFibre k).frozen = s.frozen := rfl
@[simp] theorem State.dropFibre_leafCnt (s : State) (k : FKey) : (s.dropFibre k).leafCnt = s.leafCnt := rfl
@[simp] theorem State.dropFibre_staleSlots (s : State) (k : FKey) : (s.dropFibre k).staleSlots = s.staleSlots := rfl
@[simp] theorem State.dropFibre_hostCommits (s : State) (k : FKey) : (s.dropFibre k).hostCommits = s.hostCommits := rfl
@[simp] theorem State.dropFibre_pending (s : State) (k : FKey) : (s.dropFibre k).pending = s.pending := rfl
@[simp] theorem State.dropFibre_ctxs (s : State) (k : FKey) : (s.dropFibre k).ctxs = s.ctxs := rfl
@[simp] theorem State.dropFibre_steal (s : State) (k : FKey) : (s.dropFibre k).steal = s.steal := rfl
@[simp] theorem State.dropFibre_stolen (s : State) (k : FKey) : (s.dropFibre k).stolen = s.stolen := rfl
@[simp] theorem State.dropFibre_regs (s : State) (k : FKey) : (s.dropFibre k).regs = s.regs := rfl
@[simp] theorem State.dropFibre_wins (s : State) (k : FKey) : (s.dropFibre k).wins = s.wins := rfl
@[simp] theorem State.dropFibre_carts (s : State) (k : FKey) : (s.dropFibre k).carts = s.carts := rfl
@[simp] theorem State.dropFibre_chans (s : State) (k : FKey) : (s.dropFibre k).chans = s.chans := rfl
@[simp] theorem State.dropFibre_unacked (s : State) (k : FKey) : (s.dropFibre k).unacked = s.unacked := rfl
@[simp] theorem State.dropFibre_rfqWait (s : State) (k : FKey) : (s.dropFibre k).rfqWait = s.rfqWait := rfl
@[simp] theorem State.dropFibre_hostWids (s : State) (k : FKey) : (s.dropFibre k).hostWids = s.hostWids := rfl
@[simp] theorem State.dropFibre_hostHeld (s : State) (k : FKey) : (s.dropFibre k).hostHeld = s.hostHeld := rfl
@[simp] theorem State.dropFibre_acks (s : State) (k : FKey) : (s.dropFibre k).acks = s.acks := rfl
@[simp] theorem State.dropFibre_outbox (s : State) (k : FKey) : (s.dropFibre k).outbox = s.outbox := rfl
@[simp] theorem State.dropFibre_remaps (s : State) (k : FKey) : (s.dropFibre k).remaps = s.remaps := rfl
@[simp] theorem State.dropFibre_openTags (s : State) (k : FKey) : (s.dropFibre k).openTags = s.openTags := rfl
@[simp] theorem State.dropFibre_imports (s : State) (k : FKey) : (s.dropFibre k).imports = s.imports := rfl
@[simp] theorem State.dropFibre_probes (s : State) (k : FKey) : (s.dropFibre k).probes = s.probes := rfl
@[simp] theorem State.dropFibre_lostOn (s : State) (k : FKey) : (s.dropFibre k).lostOn = s.lostOn := rfl
@[simp] theorem State.dropFibre_ports (s : State) (k : FKey) : (s.dropFibre k).ports = s.ports := rfl
@[simp] theorem State.dropFibre_hot (s : State) (k : FKey) : (s.dropFibre k).hot = s.hot := rfl
@[simp] theorem State.dropFibre_recvSeq (s : State) (k : FKey) : (s.dropFibre k).recvSeq = s.recvSeq := rfl
@[simp] theorem State.dropFibre_monitors (s : State) (k : FKey) : (s.dropFibre k).monitors = s.monitors := rfl
@[simp] theorem State.dropFibre_stopSeq (s : State) (k : FKey) : (s.dropFibre k).stopSeq = s.stopSeq := rfl
@[simp] theorem State.dropFibre_traceSeq (s : State) (k : FKey) : (s.dropFibre k).traceSeq = s.traceSeq := rfl
@[simp] theorem State.dropFibre_dbgCount (s : State) (k : FKey) : (s.dropFibre k).dbgCount = s.dbgCount := rfl
@[simp] theorem State.dropFibre_stallOut (s : State) (k : FKey) : (s.dropFibre k).stallOut = s.stallOut := rfl
@[simp] theorem State.dropFibre_lastUnit (s : State) (k : FKey) : (s.dropFibre k).lastUnit = s.lastUnit := rfl
@[simp] theorem State.dropFibre_keys (s : State) (k : FKey) : (s.dropFibre k).keys = s.keys := rfl
@[simp] theorem State.dropFibre_hwm (s : State) (k : FKey) : (s.dropFibre k).hwm = s.hwm := rfl
@[simp] theorem State.dropFibre_keks (s : State) (k : FKey) : (s.dropFibre k).keks = s.keks := rfl
@[simp] theorem State.dropFibre_meas (s : State) (k : FKey) : (s.dropFibre k).meas = s.meas := rfl
@[simp] theorem State.dropFibre_reportSeq (s : State) (k : FKey) : (s.dropFibre k).reportSeq = s.reportSeq := rfl
@[simp] theorem State.dropFibre_boots (s : State) (k : FKey) : (s.dropFibre k).boots = s.boots := rfl
@[simp] theorem State.dropFibre_booted (s : State) (k : FKey) : (s.dropFibre k).booted = s.booted := rfl
@[simp] theorem State.dropFibre_bootFailed (s : State) (k : FKey) : (s.dropFibre k).bootFailed = s.bootFailed := rfl
@[simp] theorem State.dropFibre_curfew (s : State) (k : FKey) : (s.dropFibre k).curfew = s.curfew := rfl
@[simp] theorem State.dropFibre_tapIr (s : State) (k : FKey) : (s.dropFibre k).tapIr = s.tapIr := rfl
@[simp] theorem State.dropFibre_saddr (s : State) (k : FKey) : (s.dropFibre k).saddr = s.saddr := rfl
@[simp] theorem State.dropFibre_boundary (s : State) (k : FKey) : (s.dropFibre k).boundary = s.boundary := rfl
@[simp] theorem State.dropFibre_now (s : State) (k : FKey) : (s.dropFibre k).now = s.now := rfl
@[simp] theorem State.dropFibre_cyc (s : State) (k : FKey) : (s.dropFibre k).cyc = s.cyc := rfl
@[simp] theorem State.dropFibre_out (s : State) (k : FKey) : (s.dropFibre k).out = s.out := rfl
@[simp] theorem State.dropFibre_agenda (s : State) (k : FKey) : (s.dropFibre k).agenda = s.agenda := rfl
@[simp] theorem State.dropFibre_leaving (s : State) (k : FKey) : (s.dropFibre k).leaving = s.leaving := rfl
@[simp] theorem State.dropFibre_cur (s : State) (k : FKey) : (s.dropFibre k).cur = s.cur := rfl
@[simp] theorem State.dropFibre_pace (s : State) (k : FKey) : (s.dropFibre k).pace = s.pace := rfl
@[simp] theorem State.dropFibre_lag (s : State) (k : FKey) : (s.dropFibre k).lag = s.lag := rfl
@[simp] theorem State.dropFibre_serial (s : State) (k : FKey) : (s.dropFibre k).serial = s.serial := rfl

/-! ### updReq -/

@[simp] theorem State.updReq_mem (s : State) (r : Nat) (g : Req → Req) : (s.updReq r g).mem = s.mem := rfl
@[simp] theorem State.updReq_full (s : State) (r : Nat) (g : Req → Req) : (s.updReq r g).full = s.full := rfl
@[simp] theorem State.updReq_poison (s : State) (r : Nat) (g : Req → Req) : (s.updReq r g).poison = s.poison := rfl
@[simp] theorem State.updReq_peerCode (s : State) (r : Nat) (g : Req → Req) : (s.updReq r g).peerCode = s.peerCode := rfl
@[simp] theorem State.updReq_fibres (s : State) (r : Nat) (g : Req → Req) : (s.updReq r g).fibres = s.fibres := rfl
@[simp] theorem State.updReq_flocks (s : State) (r : Nat) (g : Req → Req) : (s.updReq r g).flocks = s.flocks := rfl
@[simp] theorem State.updReq_reqs (s : State) (r : Nat) (g : Req → Req) : (s.updReq r g).reqs = s.reqs.map fun q => if q.id = r then g q else q := rfl
@[simp] theorem State.updReq_aq (s : State) (r : Nat) (g : Req → Req) : (s.updReq r g).aq = s.aq := rfl
@[simp] theorem State.updReq_hist (s : State) (r : Nat) (g : Req → Req) : (s.updReq r g).hist = s.hist := rfl
@[simp] theorem State.updReq_kn (s : State) (r : Nat) (g : Req → Req) : (s.updReq r g).kn = s.kn := rfl
@[simp] theorem State.updReq_shares (s : State) (r : Nat) (g : Req → Req) : (s.updReq r g).shares = s.shares := rfl
@[simp] theorem State.updReq_sgen (s : State) (r : Nat) (g : Req → Req) : (s.updReq r g).sgen = s.sgen := rfl
@[simp] theorem State.updReq_saved (s : State) (r : Nat) (g : Req → Req) : (s.updReq r g).saved = s.saved := rfl
@[simp] theorem State.updReq_remains (s : State) (r : Nat) (g : Req → Req) : (s.updReq r g).remains = s.remains := rfl
@[simp] theorem State.updReq_loans (s : State) (r : Nat) (g : Req → Req) : (s.updReq r g).loans = s.loans := rfl
@[simp] theorem State.updReq_quarters (s : State) (r : Nat) (g : Req → Req) : (s.updReq r g).quarters = s.quarters := rfl
@[simp] theorem State.updReq_tiles (s : State) (r : Nat) (g : Req → Req) : (s.updReq r g).tiles = s.tiles := rfl
@[simp] theorem State.updReq_eops (s : State) (r : Nat) (g : Req → Req) : (s.updReq r g).eops = s.eops := rfl
@[simp] theorem State.updReq_fetches (s : State) (r : Nat) (g : Req → Req) : (s.updReq r g).fetches = s.fetches := rfl
@[simp] theorem State.updReq_lines (s : State) (r : Nat) (g : Req → Req) : (s.updReq r g).lines = s.lines := rfl
@[simp] theorem State.updReq_hbits (s : State) (r : Nat) (g : Req → Req) : (s.updReq r g).hbits = s.hbits := rfl
@[simp] theorem State.updReq_l1 (s : State) (r : Nat) (g : Req → Req) : (s.updReq r g).l1 = s.l1 := rfl
@[simp] theorem State.updReq_predict (s : State) (r : Nat) (g : Req → Req) : (s.updReq r g).predict = s.predict := rfl
@[simp] theorem State.updReq_floors (s : State) (r : Nat) (g : Req → Req) : (s.updReq r g).floors = s.floors := rfl
@[simp] theorem State.updReq_pages (s : State) (r : Nat) (g : Req → Req) : (s.updReq r g).pages = s.pages := rfl
@[simp] theorem State.updReq_smap (s : State) (r : Nat) (g : Req → Req) : (s.updReq r g).smap = s.smap := rfl
@[simp] theorem State.updReq_smapGen (s : State) (r : Nat) (g : Req → Req) : (s.updReq r g).smapGen = s.smapGen := rfl
@[simp] theorem State.updReq_grace (s : State) (r : Nat) (g : Req → Req) : (s.updReq r g).grace = s.grace := rfl
@[simp] theorem State.updReq_frozen (s : State) (r : Nat) (g : Req → Req) : (s.updReq r g).frozen = s.frozen := rfl
@[simp] theorem State.updReq_leafCnt (s : State) (r : Nat) (g : Req → Req) : (s.updReq r g).leafCnt = s.leafCnt := rfl
@[simp] theorem State.updReq_staleSlots (s : State) (r : Nat) (g : Req → Req) : (s.updReq r g).staleSlots = s.staleSlots := rfl
@[simp] theorem State.updReq_hostCommits (s : State) (r : Nat) (g : Req → Req) : (s.updReq r g).hostCommits = s.hostCommits := rfl
@[simp] theorem State.updReq_pending (s : State) (r : Nat) (g : Req → Req) : (s.updReq r g).pending = s.pending := rfl
@[simp] theorem State.updReq_ctxs (s : State) (r : Nat) (g : Req → Req) : (s.updReq r g).ctxs = s.ctxs := rfl
@[simp] theorem State.updReq_steal (s : State) (r : Nat) (g : Req → Req) : (s.updReq r g).steal = s.steal := rfl
@[simp] theorem State.updReq_stolen (s : State) (r : Nat) (g : Req → Req) : (s.updReq r g).stolen = s.stolen := rfl
@[simp] theorem State.updReq_regs (s : State) (r : Nat) (g : Req → Req) : (s.updReq r g).regs = s.regs := rfl
@[simp] theorem State.updReq_wins (s : State) (r : Nat) (g : Req → Req) : (s.updReq r g).wins = s.wins := rfl
@[simp] theorem State.updReq_carts (s : State) (r : Nat) (g : Req → Req) : (s.updReq r g).carts = s.carts := rfl
@[simp] theorem State.updReq_chans (s : State) (r : Nat) (g : Req → Req) : (s.updReq r g).chans = s.chans := rfl
@[simp] theorem State.updReq_unacked (s : State) (r : Nat) (g : Req → Req) : (s.updReq r g).unacked = s.unacked := rfl
@[simp] theorem State.updReq_rfqWait (s : State) (r : Nat) (g : Req → Req) : (s.updReq r g).rfqWait = s.rfqWait := rfl
@[simp] theorem State.updReq_hostWids (s : State) (r : Nat) (g : Req → Req) : (s.updReq r g).hostWids = s.hostWids := rfl
@[simp] theorem State.updReq_hostHeld (s : State) (r : Nat) (g : Req → Req) : (s.updReq r g).hostHeld = s.hostHeld := rfl
@[simp] theorem State.updReq_acks (s : State) (r : Nat) (g : Req → Req) : (s.updReq r g).acks = s.acks := rfl
@[simp] theorem State.updReq_outbox (s : State) (r : Nat) (g : Req → Req) : (s.updReq r g).outbox = s.outbox := rfl
@[simp] theorem State.updReq_remaps (s : State) (r : Nat) (g : Req → Req) : (s.updReq r g).remaps = s.remaps := rfl
@[simp] theorem State.updReq_openTags (s : State) (r : Nat) (g : Req → Req) : (s.updReq r g).openTags = s.openTags := rfl
@[simp] theorem State.updReq_imports (s : State) (r : Nat) (g : Req → Req) : (s.updReq r g).imports = s.imports := rfl
@[simp] theorem State.updReq_probes (s : State) (r : Nat) (g : Req → Req) : (s.updReq r g).probes = s.probes := rfl
@[simp] theorem State.updReq_lostOn (s : State) (r : Nat) (g : Req → Req) : (s.updReq r g).lostOn = s.lostOn := rfl
@[simp] theorem State.updReq_ports (s : State) (r : Nat) (g : Req → Req) : (s.updReq r g).ports = s.ports := rfl
@[simp] theorem State.updReq_hot (s : State) (r : Nat) (g : Req → Req) : (s.updReq r g).hot = s.hot := rfl
@[simp] theorem State.updReq_recvSeq (s : State) (r : Nat) (g : Req → Req) : (s.updReq r g).recvSeq = s.recvSeq := rfl
@[simp] theorem State.updReq_monitors (s : State) (r : Nat) (g : Req → Req) : (s.updReq r g).monitors = s.monitors := rfl
@[simp] theorem State.updReq_stopSeq (s : State) (r : Nat) (g : Req → Req) : (s.updReq r g).stopSeq = s.stopSeq := rfl
@[simp] theorem State.updReq_traceSeq (s : State) (r : Nat) (g : Req → Req) : (s.updReq r g).traceSeq = s.traceSeq := rfl
@[simp] theorem State.updReq_dbgCount (s : State) (r : Nat) (g : Req → Req) : (s.updReq r g).dbgCount = s.dbgCount := rfl
@[simp] theorem State.updReq_stallOut (s : State) (r : Nat) (g : Req → Req) : (s.updReq r g).stallOut = s.stallOut := rfl
@[simp] theorem State.updReq_lastUnit (s : State) (r : Nat) (g : Req → Req) : (s.updReq r g).lastUnit = s.lastUnit := rfl
@[simp] theorem State.updReq_keys (s : State) (r : Nat) (g : Req → Req) : (s.updReq r g).keys = s.keys := rfl
@[simp] theorem State.updReq_hwm (s : State) (r : Nat) (g : Req → Req) : (s.updReq r g).hwm = s.hwm := rfl
@[simp] theorem State.updReq_keks (s : State) (r : Nat) (g : Req → Req) : (s.updReq r g).keks = s.keks := rfl
@[simp] theorem State.updReq_meas (s : State) (r : Nat) (g : Req → Req) : (s.updReq r g).meas = s.meas := rfl
@[simp] theorem State.updReq_reportSeq (s : State) (r : Nat) (g : Req → Req) : (s.updReq r g).reportSeq = s.reportSeq := rfl
@[simp] theorem State.updReq_boots (s : State) (r : Nat) (g : Req → Req) : (s.updReq r g).boots = s.boots := rfl
@[simp] theorem State.updReq_booted (s : State) (r : Nat) (g : Req → Req) : (s.updReq r g).booted = s.booted := rfl
@[simp] theorem State.updReq_bootFailed (s : State) (r : Nat) (g : Req → Req) : (s.updReq r g).bootFailed = s.bootFailed := rfl
@[simp] theorem State.updReq_curfew (s : State) (r : Nat) (g : Req → Req) : (s.updReq r g).curfew = s.curfew := rfl
@[simp] theorem State.updReq_tapIr (s : State) (r : Nat) (g : Req → Req) : (s.updReq r g).tapIr = s.tapIr := rfl
@[simp] theorem State.updReq_saddr (s : State) (r : Nat) (g : Req → Req) : (s.updReq r g).saddr = s.saddr := rfl
@[simp] theorem State.updReq_boundary (s : State) (r : Nat) (g : Req → Req) : (s.updReq r g).boundary = s.boundary := rfl
@[simp] theorem State.updReq_now (s : State) (r : Nat) (g : Req → Req) : (s.updReq r g).now = s.now := rfl
@[simp] theorem State.updReq_cyc (s : State) (r : Nat) (g : Req → Req) : (s.updReq r g).cyc = s.cyc := rfl
@[simp] theorem State.updReq_out (s : State) (r : Nat) (g : Req → Req) : (s.updReq r g).out = s.out := rfl
@[simp] theorem State.updReq_agenda (s : State) (r : Nat) (g : Req → Req) : (s.updReq r g).agenda = s.agenda := rfl
@[simp] theorem State.updReq_leaving (s : State) (r : Nat) (g : Req → Req) : (s.updReq r g).leaving = s.leaving := rfl
@[simp] theorem State.updReq_cur (s : State) (r : Nat) (g : Req → Req) : (s.updReq r g).cur = s.cur := rfl
@[simp] theorem State.updReq_pace (s : State) (r : Nat) (g : Req → Req) : (s.updReq r g).pace = s.pace := rfl
@[simp] theorem State.updReq_lag (s : State) (r : Nat) (g : Req → Req) : (s.updReq r g).lag = s.lag := rfl
@[simp] theorem State.updReq_serial (s : State) (r : Nat) (g : Req → Req) : (s.updReq r g).serial = s.serial := rfl

/-! ### dropReq -/

@[simp] theorem State.dropReq_mem (s : State) (r : Nat) : (s.dropReq r).mem = s.mem := rfl
@[simp] theorem State.dropReq_full (s : State) (r : Nat) : (s.dropReq r).full = s.full := rfl
@[simp] theorem State.dropReq_poison (s : State) (r : Nat) : (s.dropReq r).poison = s.poison := rfl
@[simp] theorem State.dropReq_peerCode (s : State) (r : Nat) : (s.dropReq r).peerCode = s.peerCode := rfl
@[simp] theorem State.dropReq_fibres (s : State) (r : Nat) : (s.dropReq r).fibres = s.fibres := rfl
@[simp] theorem State.dropReq_flocks (s : State) (r : Nat) : (s.dropReq r).flocks = s.flocks := rfl
@[simp] theorem State.dropReq_reqs (s : State) (r : Nat) : (s.dropReq r).reqs = s.reqs.filter fun q => q.id ≠ r := rfl
@[simp] theorem State.dropReq_aq (s : State) (r : Nat) : (s.dropReq r).aq = s.aq := rfl
@[simp] theorem State.dropReq_hist (s : State) (r : Nat) : (s.dropReq r).hist = s.hist := rfl
@[simp] theorem State.dropReq_kn (s : State) (r : Nat) : (s.dropReq r).kn = s.kn := rfl
@[simp] theorem State.dropReq_shares (s : State) (r : Nat) : (s.dropReq r).shares = s.shares := rfl
@[simp] theorem State.dropReq_sgen (s : State) (r : Nat) : (s.dropReq r).sgen = s.sgen := rfl
@[simp] theorem State.dropReq_saved (s : State) (r : Nat) : (s.dropReq r).saved = s.saved := rfl
@[simp] theorem State.dropReq_remains (s : State) (r : Nat) : (s.dropReq r).remains = s.remains := rfl
@[simp] theorem State.dropReq_loans (s : State) (r : Nat) : (s.dropReq r).loans = s.loans := rfl
@[simp] theorem State.dropReq_quarters (s : State) (r : Nat) : (s.dropReq r).quarters = s.quarters := rfl
@[simp] theorem State.dropReq_tiles (s : State) (r : Nat) : (s.dropReq r).tiles = s.tiles := rfl
@[simp] theorem State.dropReq_eops (s : State) (r : Nat) : (s.dropReq r).eops = s.eops := rfl
@[simp] theorem State.dropReq_fetches (s : State) (r : Nat) : (s.dropReq r).fetches = s.fetches := rfl
@[simp] theorem State.dropReq_lines (s : State) (r : Nat) : (s.dropReq r).lines = s.lines := rfl
@[simp] theorem State.dropReq_hbits (s : State) (r : Nat) : (s.dropReq r).hbits = s.hbits := rfl
@[simp] theorem State.dropReq_l1 (s : State) (r : Nat) : (s.dropReq r).l1 = s.l1 := rfl
@[simp] theorem State.dropReq_predict (s : State) (r : Nat) : (s.dropReq r).predict = s.predict := rfl
@[simp] theorem State.dropReq_floors (s : State) (r : Nat) : (s.dropReq r).floors = s.floors := rfl
@[simp] theorem State.dropReq_pages (s : State) (r : Nat) : (s.dropReq r).pages = s.pages := rfl
@[simp] theorem State.dropReq_smap (s : State) (r : Nat) : (s.dropReq r).smap = s.smap := rfl
@[simp] theorem State.dropReq_smapGen (s : State) (r : Nat) : (s.dropReq r).smapGen = s.smapGen := rfl
@[simp] theorem State.dropReq_grace (s : State) (r : Nat) : (s.dropReq r).grace = s.grace := rfl
@[simp] theorem State.dropReq_frozen (s : State) (r : Nat) : (s.dropReq r).frozen = s.frozen := rfl
@[simp] theorem State.dropReq_leafCnt (s : State) (r : Nat) : (s.dropReq r).leafCnt = s.leafCnt := rfl
@[simp] theorem State.dropReq_staleSlots (s : State) (r : Nat) : (s.dropReq r).staleSlots = s.staleSlots := rfl
@[simp] theorem State.dropReq_hostCommits (s : State) (r : Nat) : (s.dropReq r).hostCommits = s.hostCommits := rfl
@[simp] theorem State.dropReq_pending (s : State) (r : Nat) : (s.dropReq r).pending = s.pending := rfl
@[simp] theorem State.dropReq_ctxs (s : State) (r : Nat) : (s.dropReq r).ctxs = s.ctxs := rfl
@[simp] theorem State.dropReq_steal (s : State) (r : Nat) : (s.dropReq r).steal = s.steal := rfl
@[simp] theorem State.dropReq_stolen (s : State) (r : Nat) : (s.dropReq r).stolen = s.stolen := rfl
@[simp] theorem State.dropReq_regs (s : State) (r : Nat) : (s.dropReq r).regs = s.regs := rfl
@[simp] theorem State.dropReq_wins (s : State) (r : Nat) : (s.dropReq r).wins = s.wins := rfl
@[simp] theorem State.dropReq_carts (s : State) (r : Nat) : (s.dropReq r).carts = s.carts := rfl
@[simp] theorem State.dropReq_chans (s : State) (r : Nat) : (s.dropReq r).chans = s.chans := rfl
@[simp] theorem State.dropReq_unacked (s : State) (r : Nat) : (s.dropReq r).unacked = s.unacked := rfl
@[simp] theorem State.dropReq_rfqWait (s : State) (r : Nat) : (s.dropReq r).rfqWait = s.rfqWait := rfl
@[simp] theorem State.dropReq_hostWids (s : State) (r : Nat) : (s.dropReq r).hostWids = s.hostWids := rfl
@[simp] theorem State.dropReq_hostHeld (s : State) (r : Nat) : (s.dropReq r).hostHeld = s.hostHeld := rfl
@[simp] theorem State.dropReq_acks (s : State) (r : Nat) : (s.dropReq r).acks = s.acks := rfl
@[simp] theorem State.dropReq_outbox (s : State) (r : Nat) : (s.dropReq r).outbox = s.outbox := rfl
@[simp] theorem State.dropReq_remaps (s : State) (r : Nat) : (s.dropReq r).remaps = s.remaps := rfl
@[simp] theorem State.dropReq_openTags (s : State) (r : Nat) : (s.dropReq r).openTags = s.openTags := rfl
@[simp] theorem State.dropReq_imports (s : State) (r : Nat) : (s.dropReq r).imports = s.imports := rfl
@[simp] theorem State.dropReq_probes (s : State) (r : Nat) : (s.dropReq r).probes = s.probes := rfl
@[simp] theorem State.dropReq_lostOn (s : State) (r : Nat) : (s.dropReq r).lostOn = s.lostOn := rfl
@[simp] theorem State.dropReq_ports (s : State) (r : Nat) : (s.dropReq r).ports = s.ports := rfl
@[simp] theorem State.dropReq_hot (s : State) (r : Nat) : (s.dropReq r).hot = s.hot := rfl
@[simp] theorem State.dropReq_recvSeq (s : State) (r : Nat) : (s.dropReq r).recvSeq = s.recvSeq := rfl
@[simp] theorem State.dropReq_monitors (s : State) (r : Nat) : (s.dropReq r).monitors = s.monitors := rfl
@[simp] theorem State.dropReq_stopSeq (s : State) (r : Nat) : (s.dropReq r).stopSeq = s.stopSeq := rfl
@[simp] theorem State.dropReq_traceSeq (s : State) (r : Nat) : (s.dropReq r).traceSeq = s.traceSeq := rfl
@[simp] theorem State.dropReq_dbgCount (s : State) (r : Nat) : (s.dropReq r).dbgCount = s.dbgCount := rfl
@[simp] theorem State.dropReq_stallOut (s : State) (r : Nat) : (s.dropReq r).stallOut = s.stallOut := rfl
@[simp] theorem State.dropReq_lastUnit (s : State) (r : Nat) : (s.dropReq r).lastUnit = s.lastUnit := rfl
@[simp] theorem State.dropReq_keys (s : State) (r : Nat) : (s.dropReq r).keys = s.keys := rfl
@[simp] theorem State.dropReq_hwm (s : State) (r : Nat) : (s.dropReq r).hwm = s.hwm := rfl
@[simp] theorem State.dropReq_keks (s : State) (r : Nat) : (s.dropReq r).keks = s.keks := rfl
@[simp] theorem State.dropReq_meas (s : State) (r : Nat) : (s.dropReq r).meas = s.meas := rfl
@[simp] theorem State.dropReq_reportSeq (s : State) (r : Nat) : (s.dropReq r).reportSeq = s.reportSeq := rfl
@[simp] theorem State.dropReq_boots (s : State) (r : Nat) : (s.dropReq r).boots = s.boots := rfl
@[simp] theorem State.dropReq_booted (s : State) (r : Nat) : (s.dropReq r).booted = s.booted := rfl
@[simp] theorem State.dropReq_bootFailed (s : State) (r : Nat) : (s.dropReq r).bootFailed = s.bootFailed := rfl
@[simp] theorem State.dropReq_curfew (s : State) (r : Nat) : (s.dropReq r).curfew = s.curfew := rfl
@[simp] theorem State.dropReq_tapIr (s : State) (r : Nat) : (s.dropReq r).tapIr = s.tapIr := rfl
@[simp] theorem State.dropReq_saddr (s : State) (r : Nat) : (s.dropReq r).saddr = s.saddr := rfl
@[simp] theorem State.dropReq_boundary (s : State) (r : Nat) : (s.dropReq r).boundary = s.boundary := rfl
@[simp] theorem State.dropReq_now (s : State) (r : Nat) : (s.dropReq r).now = s.now := rfl
@[simp] theorem State.dropReq_cyc (s : State) (r : Nat) : (s.dropReq r).cyc = s.cyc := rfl
@[simp] theorem State.dropReq_out (s : State) (r : Nat) : (s.dropReq r).out = s.out := rfl
@[simp] theorem State.dropReq_agenda (s : State) (r : Nat) : (s.dropReq r).agenda = s.agenda := rfl
@[simp] theorem State.dropReq_leaving (s : State) (r : Nat) : (s.dropReq r).leaving = s.leaving := rfl
@[simp] theorem State.dropReq_cur (s : State) (r : Nat) : (s.dropReq r).cur = s.cur := rfl
@[simp] theorem State.dropReq_pace (s : State) (r : Nat) : (s.dropReq r).pace = s.pace := rfl
@[simp] theorem State.dropReq_lag (s : State) (r : Nat) : (s.dropReq r).lag = s.lag := rfl
@[simp] theorem State.dropReq_serial (s : State) (r : Nat) : (s.dropReq r).serial = s.serial := rfl

/-! ### updEop -/

@[simp] theorem State.updEop_mem (s : State) (o : Nat) (g : EngineOp → EngineOp) : (s.updEop o g).mem = s.mem := rfl
@[simp] theorem State.updEop_full (s : State) (o : Nat) (g : EngineOp → EngineOp) : (s.updEop o g).full = s.full := rfl
@[simp] theorem State.updEop_poison (s : State) (o : Nat) (g : EngineOp → EngineOp) : (s.updEop o g).poison = s.poison := rfl
@[simp] theorem State.updEop_peerCode (s : State) (o : Nat) (g : EngineOp → EngineOp) : (s.updEop o g).peerCode = s.peerCode := rfl
@[simp] theorem State.updEop_fibres (s : State) (o : Nat) (g : EngineOp → EngineOp) : (s.updEop o g).fibres = s.fibres := rfl
@[simp] theorem State.updEop_flocks (s : State) (o : Nat) (g : EngineOp → EngineOp) : (s.updEop o g).flocks = s.flocks := rfl
@[simp] theorem State.updEop_reqs (s : State) (o : Nat) (g : EngineOp → EngineOp) : (s.updEop o g).reqs = s.reqs := rfl
@[simp] theorem State.updEop_aq (s : State) (o : Nat) (g : EngineOp → EngineOp) : (s.updEop o g).aq = s.aq := rfl
@[simp] theorem State.updEop_hist (s : State) (o : Nat) (g : EngineOp → EngineOp) : (s.updEop o g).hist = s.hist := rfl
@[simp] theorem State.updEop_kn (s : State) (o : Nat) (g : EngineOp → EngineOp) : (s.updEop o g).kn = s.kn := rfl
@[simp] theorem State.updEop_shares (s : State) (o : Nat) (g : EngineOp → EngineOp) : (s.updEop o g).shares = s.shares := rfl
@[simp] theorem State.updEop_sgen (s : State) (o : Nat) (g : EngineOp → EngineOp) : (s.updEop o g).sgen = s.sgen := rfl
@[simp] theorem State.updEop_saved (s : State) (o : Nat) (g : EngineOp → EngineOp) : (s.updEop o g).saved = s.saved := rfl
@[simp] theorem State.updEop_remains (s : State) (o : Nat) (g : EngineOp → EngineOp) : (s.updEop o g).remains = s.remains := rfl
@[simp] theorem State.updEop_loans (s : State) (o : Nat) (g : EngineOp → EngineOp) : (s.updEop o g).loans = s.loans := rfl
@[simp] theorem State.updEop_quarters (s : State) (o : Nat) (g : EngineOp → EngineOp) : (s.updEop o g).quarters = s.quarters := rfl
@[simp] theorem State.updEop_tiles (s : State) (o : Nat) (g : EngineOp → EngineOp) : (s.updEop o g).tiles = s.tiles := rfl
@[simp] theorem State.updEop_eops (s : State) (o : Nat) (g : EngineOp → EngineOp) : (s.updEop o g).eops = s.eops.map fun e => if e.id = o then g e else e := rfl
@[simp] theorem State.updEop_fetches (s : State) (o : Nat) (g : EngineOp → EngineOp) : (s.updEop o g).fetches = s.fetches := rfl
@[simp] theorem State.updEop_lines (s : State) (o : Nat) (g : EngineOp → EngineOp) : (s.updEop o g).lines = s.lines := rfl
@[simp] theorem State.updEop_hbits (s : State) (o : Nat) (g : EngineOp → EngineOp) : (s.updEop o g).hbits = s.hbits := rfl
@[simp] theorem State.updEop_l1 (s : State) (o : Nat) (g : EngineOp → EngineOp) : (s.updEop o g).l1 = s.l1 := rfl
@[simp] theorem State.updEop_predict (s : State) (o : Nat) (g : EngineOp → EngineOp) : (s.updEop o g).predict = s.predict := rfl
@[simp] theorem State.updEop_floors (s : State) (o : Nat) (g : EngineOp → EngineOp) : (s.updEop o g).floors = s.floors := rfl
@[simp] theorem State.updEop_pages (s : State) (o : Nat) (g : EngineOp → EngineOp) : (s.updEop o g).pages = s.pages := rfl
@[simp] theorem State.updEop_smap (s : State) (o : Nat) (g : EngineOp → EngineOp) : (s.updEop o g).smap = s.smap := rfl
@[simp] theorem State.updEop_smapGen (s : State) (o : Nat) (g : EngineOp → EngineOp) : (s.updEop o g).smapGen = s.smapGen := rfl
@[simp] theorem State.updEop_grace (s : State) (o : Nat) (g : EngineOp → EngineOp) : (s.updEop o g).grace = s.grace := rfl
@[simp] theorem State.updEop_frozen (s : State) (o : Nat) (g : EngineOp → EngineOp) : (s.updEop o g).frozen = s.frozen := rfl
@[simp] theorem State.updEop_leafCnt (s : State) (o : Nat) (g : EngineOp → EngineOp) : (s.updEop o g).leafCnt = s.leafCnt := rfl
@[simp] theorem State.updEop_staleSlots (s : State) (o : Nat) (g : EngineOp → EngineOp) : (s.updEop o g).staleSlots = s.staleSlots := rfl
@[simp] theorem State.updEop_hostCommits (s : State) (o : Nat) (g : EngineOp → EngineOp) : (s.updEop o g).hostCommits = s.hostCommits := rfl
@[simp] theorem State.updEop_pending (s : State) (o : Nat) (g : EngineOp → EngineOp) : (s.updEop o g).pending = s.pending := rfl
@[simp] theorem State.updEop_ctxs (s : State) (o : Nat) (g : EngineOp → EngineOp) : (s.updEop o g).ctxs = s.ctxs := rfl
@[simp] theorem State.updEop_steal (s : State) (o : Nat) (g : EngineOp → EngineOp) : (s.updEop o g).steal = s.steal := rfl
@[simp] theorem State.updEop_stolen (s : State) (o : Nat) (g : EngineOp → EngineOp) : (s.updEop o g).stolen = s.stolen := rfl
@[simp] theorem State.updEop_regs (s : State) (o : Nat) (g : EngineOp → EngineOp) : (s.updEop o g).regs = s.regs := rfl
@[simp] theorem State.updEop_wins (s : State) (o : Nat) (g : EngineOp → EngineOp) : (s.updEop o g).wins = s.wins := rfl
@[simp] theorem State.updEop_carts (s : State) (o : Nat) (g : EngineOp → EngineOp) : (s.updEop o g).carts = s.carts := rfl
@[simp] theorem State.updEop_chans (s : State) (o : Nat) (g : EngineOp → EngineOp) : (s.updEop o g).chans = s.chans := rfl
@[simp] theorem State.updEop_unacked (s : State) (o : Nat) (g : EngineOp → EngineOp) : (s.updEop o g).unacked = s.unacked := rfl
@[simp] theorem State.updEop_rfqWait (s : State) (o : Nat) (g : EngineOp → EngineOp) : (s.updEop o g).rfqWait = s.rfqWait := rfl
@[simp] theorem State.updEop_hostWids (s : State) (o : Nat) (g : EngineOp → EngineOp) : (s.updEop o g).hostWids = s.hostWids := rfl
@[simp] theorem State.updEop_hostHeld (s : State) (o : Nat) (g : EngineOp → EngineOp) : (s.updEop o g).hostHeld = s.hostHeld := rfl
@[simp] theorem State.updEop_acks (s : State) (o : Nat) (g : EngineOp → EngineOp) : (s.updEop o g).acks = s.acks := rfl
@[simp] theorem State.updEop_outbox (s : State) (o : Nat) (g : EngineOp → EngineOp) : (s.updEop o g).outbox = s.outbox := rfl
@[simp] theorem State.updEop_remaps (s : State) (o : Nat) (g : EngineOp → EngineOp) : (s.updEop o g).remaps = s.remaps := rfl
@[simp] theorem State.updEop_openTags (s : State) (o : Nat) (g : EngineOp → EngineOp) : (s.updEop o g).openTags = s.openTags := rfl
@[simp] theorem State.updEop_imports (s : State) (o : Nat) (g : EngineOp → EngineOp) : (s.updEop o g).imports = s.imports := rfl
@[simp] theorem State.updEop_probes (s : State) (o : Nat) (g : EngineOp → EngineOp) : (s.updEop o g).probes = s.probes := rfl
@[simp] theorem State.updEop_lostOn (s : State) (o : Nat) (g : EngineOp → EngineOp) : (s.updEop o g).lostOn = s.lostOn := rfl
@[simp] theorem State.updEop_ports (s : State) (o : Nat) (g : EngineOp → EngineOp) : (s.updEop o g).ports = s.ports := rfl
@[simp] theorem State.updEop_hot (s : State) (o : Nat) (g : EngineOp → EngineOp) : (s.updEop o g).hot = s.hot := rfl
@[simp] theorem State.updEop_recvSeq (s : State) (o : Nat) (g : EngineOp → EngineOp) : (s.updEop o g).recvSeq = s.recvSeq := rfl
@[simp] theorem State.updEop_monitors (s : State) (o : Nat) (g : EngineOp → EngineOp) : (s.updEop o g).monitors = s.monitors := rfl
@[simp] theorem State.updEop_stopSeq (s : State) (o : Nat) (g : EngineOp → EngineOp) : (s.updEop o g).stopSeq = s.stopSeq := rfl
@[simp] theorem State.updEop_traceSeq (s : State) (o : Nat) (g : EngineOp → EngineOp) : (s.updEop o g).traceSeq = s.traceSeq := rfl
@[simp] theorem State.updEop_dbgCount (s : State) (o : Nat) (g : EngineOp → EngineOp) : (s.updEop o g).dbgCount = s.dbgCount := rfl
@[simp] theorem State.updEop_stallOut (s : State) (o : Nat) (g : EngineOp → EngineOp) : (s.updEop o g).stallOut = s.stallOut := rfl
@[simp] theorem State.updEop_lastUnit (s : State) (o : Nat) (g : EngineOp → EngineOp) : (s.updEop o g).lastUnit = s.lastUnit := rfl
@[simp] theorem State.updEop_keys (s : State) (o : Nat) (g : EngineOp → EngineOp) : (s.updEop o g).keys = s.keys := rfl
@[simp] theorem State.updEop_hwm (s : State) (o : Nat) (g : EngineOp → EngineOp) : (s.updEop o g).hwm = s.hwm := rfl
@[simp] theorem State.updEop_keks (s : State) (o : Nat) (g : EngineOp → EngineOp) : (s.updEop o g).keks = s.keks := rfl
@[simp] theorem State.updEop_meas (s : State) (o : Nat) (g : EngineOp → EngineOp) : (s.updEop o g).meas = s.meas := rfl
@[simp] theorem State.updEop_reportSeq (s : State) (o : Nat) (g : EngineOp → EngineOp) : (s.updEop o g).reportSeq = s.reportSeq := rfl
@[simp] theorem State.updEop_boots (s : State) (o : Nat) (g : EngineOp → EngineOp) : (s.updEop o g).boots = s.boots := rfl
@[simp] theorem State.updEop_booted (s : State) (o : Nat) (g : EngineOp → EngineOp) : (s.updEop o g).booted = s.booted := rfl
@[simp] theorem State.updEop_bootFailed (s : State) (o : Nat) (g : EngineOp → EngineOp) : (s.updEop o g).bootFailed = s.bootFailed := rfl
@[simp] theorem State.updEop_curfew (s : State) (o : Nat) (g : EngineOp → EngineOp) : (s.updEop o g).curfew = s.curfew := rfl
@[simp] theorem State.updEop_tapIr (s : State) (o : Nat) (g : EngineOp → EngineOp) : (s.updEop o g).tapIr = s.tapIr := rfl
@[simp] theorem State.updEop_saddr (s : State) (o : Nat) (g : EngineOp → EngineOp) : (s.updEop o g).saddr = s.saddr := rfl
@[simp] theorem State.updEop_boundary (s : State) (o : Nat) (g : EngineOp → EngineOp) : (s.updEop o g).boundary = s.boundary := rfl
@[simp] theorem State.updEop_now (s : State) (o : Nat) (g : EngineOp → EngineOp) : (s.updEop o g).now = s.now := rfl
@[simp] theorem State.updEop_cyc (s : State) (o : Nat) (g : EngineOp → EngineOp) : (s.updEop o g).cyc = s.cyc := rfl
@[simp] theorem State.updEop_out (s : State) (o : Nat) (g : EngineOp → EngineOp) : (s.updEop o g).out = s.out := rfl
@[simp] theorem State.updEop_agenda (s : State) (o : Nat) (g : EngineOp → EngineOp) : (s.updEop o g).agenda = s.agenda := rfl
@[simp] theorem State.updEop_leaving (s : State) (o : Nat) (g : EngineOp → EngineOp) : (s.updEop o g).leaving = s.leaving := rfl
@[simp] theorem State.updEop_cur (s : State) (o : Nat) (g : EngineOp → EngineOp) : (s.updEop o g).cur = s.cur := rfl
@[simp] theorem State.updEop_pace (s : State) (o : Nat) (g : EngineOp → EngineOp) : (s.updEop o g).pace = s.pace := rfl
@[simp] theorem State.updEop_lag (s : State) (o : Nat) (g : EngineOp → EngineOp) : (s.updEop o g).lag = s.lag := rfl
@[simp] theorem State.updEop_serial (s : State) (o : Nat) (g : EngineOp → EngineOp) : (s.updEop o g).serial = s.serial := rfl

/-! ### dropEop -/

@[simp] theorem State.dropEop_mem (s : State) (o : Nat) : (s.dropEop o).mem = s.mem := rfl
@[simp] theorem State.dropEop_full (s : State) (o : Nat) : (s.dropEop o).full = s.full := rfl
@[simp] theorem State.dropEop_poison (s : State) (o : Nat) : (s.dropEop o).poison = s.poison := rfl
@[simp] theorem State.dropEop_peerCode (s : State) (o : Nat) : (s.dropEop o).peerCode = s.peerCode := rfl
@[simp] theorem State.dropEop_fibres (s : State) (o : Nat) : (s.dropEop o).fibres = s.fibres := rfl
@[simp] theorem State.dropEop_flocks (s : State) (o : Nat) : (s.dropEop o).flocks = s.flocks := rfl
@[simp] theorem State.dropEop_reqs (s : State) (o : Nat) : (s.dropEop o).reqs = s.reqs := rfl
@[simp] theorem State.dropEop_aq (s : State) (o : Nat) : (s.dropEop o).aq = s.aq := rfl
@[simp] theorem State.dropEop_hist (s : State) (o : Nat) : (s.dropEop o).hist = s.hist := rfl
@[simp] theorem State.dropEop_kn (s : State) (o : Nat) : (s.dropEop o).kn = s.kn := rfl
@[simp] theorem State.dropEop_shares (s : State) (o : Nat) : (s.dropEop o).shares = s.shares := rfl
@[simp] theorem State.dropEop_sgen (s : State) (o : Nat) : (s.dropEop o).sgen = s.sgen := rfl
@[simp] theorem State.dropEop_saved (s : State) (o : Nat) : (s.dropEop o).saved = s.saved := rfl
@[simp] theorem State.dropEop_remains (s : State) (o : Nat) : (s.dropEop o).remains = s.remains := rfl
@[simp] theorem State.dropEop_loans (s : State) (o : Nat) : (s.dropEop o).loans = s.loans := rfl
@[simp] theorem State.dropEop_quarters (s : State) (o : Nat) : (s.dropEop o).quarters = s.quarters := rfl
@[simp] theorem State.dropEop_tiles (s : State) (o : Nat) : (s.dropEop o).tiles = s.tiles := rfl
@[simp] theorem State.dropEop_eops (s : State) (o : Nat) : (s.dropEop o).eops = s.eops.filter fun e => e.id ≠ o := rfl
@[simp] theorem State.dropEop_fetches (s : State) (o : Nat) : (s.dropEop o).fetches = s.fetches := rfl
@[simp] theorem State.dropEop_lines (s : State) (o : Nat) : (s.dropEop o).lines = s.lines := rfl
@[simp] theorem State.dropEop_hbits (s : State) (o : Nat) : (s.dropEop o).hbits = s.hbits := rfl
@[simp] theorem State.dropEop_l1 (s : State) (o : Nat) : (s.dropEop o).l1 = s.l1 := rfl
@[simp] theorem State.dropEop_predict (s : State) (o : Nat) : (s.dropEop o).predict = s.predict := rfl
@[simp] theorem State.dropEop_floors (s : State) (o : Nat) : (s.dropEop o).floors = s.floors := rfl
@[simp] theorem State.dropEop_pages (s : State) (o : Nat) : (s.dropEop o).pages = s.pages := rfl
@[simp] theorem State.dropEop_smap (s : State) (o : Nat) : (s.dropEop o).smap = s.smap := rfl
@[simp] theorem State.dropEop_smapGen (s : State) (o : Nat) : (s.dropEop o).smapGen = s.smapGen := rfl
@[simp] theorem State.dropEop_grace (s : State) (o : Nat) : (s.dropEop o).grace = s.grace := rfl
@[simp] theorem State.dropEop_frozen (s : State) (o : Nat) : (s.dropEop o).frozen = s.frozen := rfl
@[simp] theorem State.dropEop_leafCnt (s : State) (o : Nat) : (s.dropEop o).leafCnt = s.leafCnt := rfl
@[simp] theorem State.dropEop_staleSlots (s : State) (o : Nat) : (s.dropEop o).staleSlots = s.staleSlots := rfl
@[simp] theorem State.dropEop_hostCommits (s : State) (o : Nat) : (s.dropEop o).hostCommits = s.hostCommits := rfl
@[simp] theorem State.dropEop_pending (s : State) (o : Nat) : (s.dropEop o).pending = s.pending := rfl
@[simp] theorem State.dropEop_ctxs (s : State) (o : Nat) : (s.dropEop o).ctxs = s.ctxs := rfl
@[simp] theorem State.dropEop_steal (s : State) (o : Nat) : (s.dropEop o).steal = s.steal := rfl
@[simp] theorem State.dropEop_stolen (s : State) (o : Nat) : (s.dropEop o).stolen = s.stolen := rfl
@[simp] theorem State.dropEop_regs (s : State) (o : Nat) : (s.dropEop o).regs = s.regs := rfl
@[simp] theorem State.dropEop_wins (s : State) (o : Nat) : (s.dropEop o).wins = s.wins := rfl
@[simp] theorem State.dropEop_carts (s : State) (o : Nat) : (s.dropEop o).carts = s.carts := rfl
@[simp] theorem State.dropEop_chans (s : State) (o : Nat) : (s.dropEop o).chans = s.chans := rfl
@[simp] theorem State.dropEop_unacked (s : State) (o : Nat) : (s.dropEop o).unacked = s.unacked := rfl
@[simp] theorem State.dropEop_rfqWait (s : State) (o : Nat) : (s.dropEop o).rfqWait = s.rfqWait := rfl
@[simp] theorem State.dropEop_hostWids (s : State) (o : Nat) : (s.dropEop o).hostWids = s.hostWids := rfl
@[simp] theorem State.dropEop_hostHeld (s : State) (o : Nat) : (s.dropEop o).hostHeld = s.hostHeld := rfl
@[simp] theorem State.dropEop_acks (s : State) (o : Nat) : (s.dropEop o).acks = s.acks := rfl
@[simp] theorem State.dropEop_outbox (s : State) (o : Nat) : (s.dropEop o).outbox = s.outbox := rfl
@[simp] theorem State.dropEop_remaps (s : State) (o : Nat) : (s.dropEop o).remaps = s.remaps := rfl
@[simp] theorem State.dropEop_openTags (s : State) (o : Nat) : (s.dropEop o).openTags = s.openTags := rfl
@[simp] theorem State.dropEop_imports (s : State) (o : Nat) : (s.dropEop o).imports = s.imports := rfl
@[simp] theorem State.dropEop_probes (s : State) (o : Nat) : (s.dropEop o).probes = s.probes := rfl
@[simp] theorem State.dropEop_lostOn (s : State) (o : Nat) : (s.dropEop o).lostOn = s.lostOn := rfl
@[simp] theorem State.dropEop_ports (s : State) (o : Nat) : (s.dropEop o).ports = s.ports := rfl
@[simp] theorem State.dropEop_hot (s : State) (o : Nat) : (s.dropEop o).hot = s.hot := rfl
@[simp] theorem State.dropEop_recvSeq (s : State) (o : Nat) : (s.dropEop o).recvSeq = s.recvSeq := rfl
@[simp] theorem State.dropEop_monitors (s : State) (o : Nat) : (s.dropEop o).monitors = s.monitors := rfl
@[simp] theorem State.dropEop_stopSeq (s : State) (o : Nat) : (s.dropEop o).stopSeq = s.stopSeq := rfl
@[simp] theorem State.dropEop_traceSeq (s : State) (o : Nat) : (s.dropEop o).traceSeq = s.traceSeq := rfl
@[simp] theorem State.dropEop_dbgCount (s : State) (o : Nat) : (s.dropEop o).dbgCount = s.dbgCount := rfl
@[simp] theorem State.dropEop_stallOut (s : State) (o : Nat) : (s.dropEop o).stallOut = s.stallOut := rfl
@[simp] theorem State.dropEop_lastUnit (s : State) (o : Nat) : (s.dropEop o).lastUnit = s.lastUnit := rfl
@[simp] theorem State.dropEop_keys (s : State) (o : Nat) : (s.dropEop o).keys = s.keys := rfl
@[simp] theorem State.dropEop_hwm (s : State) (o : Nat) : (s.dropEop o).hwm = s.hwm := rfl
@[simp] theorem State.dropEop_keks (s : State) (o : Nat) : (s.dropEop o).keks = s.keks := rfl
@[simp] theorem State.dropEop_meas (s : State) (o : Nat) : (s.dropEop o).meas = s.meas := rfl
@[simp] theorem State.dropEop_reportSeq (s : State) (o : Nat) : (s.dropEop o).reportSeq = s.reportSeq := rfl
@[simp] theorem State.dropEop_boots (s : State) (o : Nat) : (s.dropEop o).boots = s.boots := rfl
@[simp] theorem State.dropEop_booted (s : State) (o : Nat) : (s.dropEop o).booted = s.booted := rfl
@[simp] theorem State.dropEop_bootFailed (s : State) (o : Nat) : (s.dropEop o).bootFailed = s.bootFailed := rfl
@[simp] theorem State.dropEop_curfew (s : State) (o : Nat) : (s.dropEop o).curfew = s.curfew := rfl
@[simp] theorem State.dropEop_tapIr (s : State) (o : Nat) : (s.dropEop o).tapIr = s.tapIr := rfl
@[simp] theorem State.dropEop_saddr (s : State) (o : Nat) : (s.dropEop o).saddr = s.saddr := rfl
@[simp] theorem State.dropEop_boundary (s : State) (o : Nat) : (s.dropEop o).boundary = s.boundary := rfl
@[simp] theorem State.dropEop_now (s : State) (o : Nat) : (s.dropEop o).now = s.now := rfl
@[simp] theorem State.dropEop_cyc (s : State) (o : Nat) : (s.dropEop o).cyc = s.cyc := rfl
@[simp] theorem State.dropEop_out (s : State) (o : Nat) : (s.dropEop o).out = s.out := rfl
@[simp] theorem State.dropEop_agenda (s : State) (o : Nat) : (s.dropEop o).agenda = s.agenda := rfl
@[simp] theorem State.dropEop_leaving (s : State) (o : Nat) : (s.dropEop o).leaving = s.leaving := rfl
@[simp] theorem State.dropEop_cur (s : State) (o : Nat) : (s.dropEop o).cur = s.cur := rfl
@[simp] theorem State.dropEop_pace (s : State) (o : Nat) : (s.dropEop o).pace = s.pace := rfl
@[simp] theorem State.dropEop_lag (s : State) (o : Nat) : (s.dropEop o).lag = s.lag := rfl
@[simp] theorem State.dropEop_serial (s : State) (o : Nat) : (s.dropEop o).serial = s.serial := rfl

/-! ### setFlock -/

@[simp] theorem State.setFlock_mem (s : State) (f : Flock) : (s.setFlock f).mem = s.mem := rfl
@[simp] theorem State.setFlock_full (s : State) (f : Flock) : (s.setFlock f).full = s.full := rfl
@[simp] theorem State.setFlock_poison (s : State) (f : Flock) : (s.setFlock f).poison = s.poison := rfl
@[simp] theorem State.setFlock_peerCode (s : State) (f : Flock) : (s.setFlock f).peerCode = s.peerCode := rfl
@[simp] theorem State.setFlock_fibres (s : State) (f : Flock) : (s.setFlock f).fibres = s.fibres := rfl
@[simp] theorem State.setFlock_flocks (s : State) (f : Flock) : (s.setFlock f).flocks = f :: s.flocks.filter fun g => g.q ≠ f.q := rfl
@[simp] theorem State.setFlock_reqs (s : State) (f : Flock) : (s.setFlock f).reqs = s.reqs := rfl
@[simp] theorem State.setFlock_aq (s : State) (f : Flock) : (s.setFlock f).aq = s.aq := rfl
@[simp] theorem State.setFlock_hist (s : State) (f : Flock) : (s.setFlock f).hist = s.hist := rfl
@[simp] theorem State.setFlock_kn (s : State) (f : Flock) : (s.setFlock f).kn = s.kn := rfl
@[simp] theorem State.setFlock_shares (s : State) (f : Flock) : (s.setFlock f).shares = s.shares := rfl
@[simp] theorem State.setFlock_sgen (s : State) (f : Flock) : (s.setFlock f).sgen = s.sgen := rfl
@[simp] theorem State.setFlock_saved (s : State) (f : Flock) : (s.setFlock f).saved = s.saved := rfl
@[simp] theorem State.setFlock_remains (s : State) (f : Flock) : (s.setFlock f).remains = s.remains := rfl
@[simp] theorem State.setFlock_loans (s : State) (f : Flock) : (s.setFlock f).loans = s.loans := rfl
@[simp] theorem State.setFlock_quarters (s : State) (f : Flock) : (s.setFlock f).quarters = s.quarters := rfl
@[simp] theorem State.setFlock_tiles (s : State) (f : Flock) : (s.setFlock f).tiles = s.tiles := rfl
@[simp] theorem State.setFlock_eops (s : State) (f : Flock) : (s.setFlock f).eops = s.eops := rfl
@[simp] theorem State.setFlock_fetches (s : State) (f : Flock) : (s.setFlock f).fetches = s.fetches := rfl
@[simp] theorem State.setFlock_lines (s : State) (f : Flock) : (s.setFlock f).lines = s.lines := rfl
@[simp] theorem State.setFlock_hbits (s : State) (f : Flock) : (s.setFlock f).hbits = s.hbits := rfl
@[simp] theorem State.setFlock_l1 (s : State) (f : Flock) : (s.setFlock f).l1 = s.l1 := rfl
@[simp] theorem State.setFlock_predict (s : State) (f : Flock) : (s.setFlock f).predict = s.predict := rfl
@[simp] theorem State.setFlock_floors (s : State) (f : Flock) : (s.setFlock f).floors = s.floors := rfl
@[simp] theorem State.setFlock_pages (s : State) (f : Flock) : (s.setFlock f).pages = s.pages := rfl
@[simp] theorem State.setFlock_smap (s : State) (f : Flock) : (s.setFlock f).smap = s.smap := rfl
@[simp] theorem State.setFlock_smapGen (s : State) (f : Flock) : (s.setFlock f).smapGen = s.smapGen := rfl
@[simp] theorem State.setFlock_grace (s : State) (f : Flock) : (s.setFlock f).grace = s.grace := rfl
@[simp] theorem State.setFlock_frozen (s : State) (f : Flock) : (s.setFlock f).frozen = s.frozen := rfl
@[simp] theorem State.setFlock_leafCnt (s : State) (f : Flock) : (s.setFlock f).leafCnt = s.leafCnt := rfl
@[simp] theorem State.setFlock_staleSlots (s : State) (f : Flock) : (s.setFlock f).staleSlots = s.staleSlots := rfl
@[simp] theorem State.setFlock_hostCommits (s : State) (f : Flock) : (s.setFlock f).hostCommits = s.hostCommits := rfl
@[simp] theorem State.setFlock_pending (s : State) (f : Flock) : (s.setFlock f).pending = s.pending := rfl
@[simp] theorem State.setFlock_ctxs (s : State) (f : Flock) : (s.setFlock f).ctxs = s.ctxs := rfl
@[simp] theorem State.setFlock_steal (s : State) (f : Flock) : (s.setFlock f).steal = s.steal := rfl
@[simp] theorem State.setFlock_stolen (s : State) (f : Flock) : (s.setFlock f).stolen = s.stolen := rfl
@[simp] theorem State.setFlock_regs (s : State) (f : Flock) : (s.setFlock f).regs = s.regs := rfl
@[simp] theorem State.setFlock_wins (s : State) (f : Flock) : (s.setFlock f).wins = s.wins := rfl
@[simp] theorem State.setFlock_carts (s : State) (f : Flock) : (s.setFlock f).carts = s.carts := rfl
@[simp] theorem State.setFlock_chans (s : State) (f : Flock) : (s.setFlock f).chans = s.chans := rfl
@[simp] theorem State.setFlock_unacked (s : State) (f : Flock) : (s.setFlock f).unacked = s.unacked := rfl
@[simp] theorem State.setFlock_rfqWait (s : State) (f : Flock) : (s.setFlock f).rfqWait = s.rfqWait := rfl
@[simp] theorem State.setFlock_hostWids (s : State) (f : Flock) : (s.setFlock f).hostWids = s.hostWids := rfl
@[simp] theorem State.setFlock_hostHeld (s : State) (f : Flock) : (s.setFlock f).hostHeld = s.hostHeld := rfl
@[simp] theorem State.setFlock_acks (s : State) (f : Flock) : (s.setFlock f).acks = s.acks := rfl
@[simp] theorem State.setFlock_outbox (s : State) (f : Flock) : (s.setFlock f).outbox = s.outbox := rfl
@[simp] theorem State.setFlock_remaps (s : State) (f : Flock) : (s.setFlock f).remaps = s.remaps := rfl
@[simp] theorem State.setFlock_openTags (s : State) (f : Flock) : (s.setFlock f).openTags = s.openTags := rfl
@[simp] theorem State.setFlock_imports (s : State) (f : Flock) : (s.setFlock f).imports = s.imports := rfl
@[simp] theorem State.setFlock_probes (s : State) (f : Flock) : (s.setFlock f).probes = s.probes := rfl
@[simp] theorem State.setFlock_lostOn (s : State) (f : Flock) : (s.setFlock f).lostOn = s.lostOn := rfl
@[simp] theorem State.setFlock_ports (s : State) (f : Flock) : (s.setFlock f).ports = s.ports := rfl
@[simp] theorem State.setFlock_hot (s : State) (f : Flock) : (s.setFlock f).hot = s.hot := rfl
@[simp] theorem State.setFlock_recvSeq (s : State) (f : Flock) : (s.setFlock f).recvSeq = s.recvSeq := rfl
@[simp] theorem State.setFlock_monitors (s : State) (f : Flock) : (s.setFlock f).monitors = s.monitors := rfl
@[simp] theorem State.setFlock_stopSeq (s : State) (f : Flock) : (s.setFlock f).stopSeq = s.stopSeq := rfl
@[simp] theorem State.setFlock_traceSeq (s : State) (f : Flock) : (s.setFlock f).traceSeq = s.traceSeq := rfl
@[simp] theorem State.setFlock_dbgCount (s : State) (f : Flock) : (s.setFlock f).dbgCount = s.dbgCount := rfl
@[simp] theorem State.setFlock_stallOut (s : State) (f : Flock) : (s.setFlock f).stallOut = s.stallOut := rfl
@[simp] theorem State.setFlock_lastUnit (s : State) (f : Flock) : (s.setFlock f).lastUnit = s.lastUnit := rfl
@[simp] theorem State.setFlock_keys (s : State) (f : Flock) : (s.setFlock f).keys = s.keys := rfl
@[simp] theorem State.setFlock_hwm (s : State) (f : Flock) : (s.setFlock f).hwm = s.hwm := rfl
@[simp] theorem State.setFlock_keks (s : State) (f : Flock) : (s.setFlock f).keks = s.keks := rfl
@[simp] theorem State.setFlock_meas (s : State) (f : Flock) : (s.setFlock f).meas = s.meas := rfl
@[simp] theorem State.setFlock_reportSeq (s : State) (f : Flock) : (s.setFlock f).reportSeq = s.reportSeq := rfl
@[simp] theorem State.setFlock_boots (s : State) (f : Flock) : (s.setFlock f).boots = s.boots := rfl
@[simp] theorem State.setFlock_booted (s : State) (f : Flock) : (s.setFlock f).booted = s.booted := rfl
@[simp] theorem State.setFlock_bootFailed (s : State) (f : Flock) : (s.setFlock f).bootFailed = s.bootFailed := rfl
@[simp] theorem State.setFlock_curfew (s : State) (f : Flock) : (s.setFlock f).curfew = s.curfew := rfl
@[simp] theorem State.setFlock_tapIr (s : State) (f : Flock) : (s.setFlock f).tapIr = s.tapIr := rfl
@[simp] theorem State.setFlock_saddr (s : State) (f : Flock) : (s.setFlock f).saddr = s.saddr := rfl
@[simp] theorem State.setFlock_boundary (s : State) (f : Flock) : (s.setFlock f).boundary = s.boundary := rfl
@[simp] theorem State.setFlock_now (s : State) (f : Flock) : (s.setFlock f).now = s.now := rfl
@[simp] theorem State.setFlock_cyc (s : State) (f : Flock) : (s.setFlock f).cyc = s.cyc := rfl
@[simp] theorem State.setFlock_out (s : State) (f : Flock) : (s.setFlock f).out = s.out := rfl
@[simp] theorem State.setFlock_agenda (s : State) (f : Flock) : (s.setFlock f).agenda = s.agenda := rfl
@[simp] theorem State.setFlock_leaving (s : State) (f : Flock) : (s.setFlock f).leaving = s.leaving := rfl
@[simp] theorem State.setFlock_cur (s : State) (f : Flock) : (s.setFlock f).cur = s.cur := rfl
@[simp] theorem State.setFlock_pace (s : State) (f : Flock) : (s.setFlock f).pace = s.pace := rfl
@[simp] theorem State.setFlock_lag (s : State) (f : Flock) : (s.setFlock f).lag = s.lag := rfl
@[simp] theorem State.setFlock_serial (s : State) (f : Flock) : (s.setFlock f).serial = s.serial := rfl

/-! ### endFlock -/

@[simp] theorem State.endFlock_mem (s : State) (q : Nat) : (s.endFlock q).mem = s.mem := rfl
@[simp] theorem State.endFlock_full (s : State) (q : Nat) : (s.endFlock q).full = s.full := rfl
@[simp] theorem State.endFlock_poison (s : State) (q : Nat) : (s.endFlock q).poison = s.poison := rfl
@[simp] theorem State.endFlock_peerCode (s : State) (q : Nat) : (s.endFlock q).peerCode = s.peerCode := rfl
@[simp] theorem State.endFlock_fibres (s : State) (q : Nat) : (s.endFlock q).fibres = s.fibres := rfl
@[simp] theorem State.endFlock_flocks (s : State) (q : Nat) : (s.endFlock q).flocks = s.flocks.filter fun g => g.q ≠ q := rfl
@[simp] theorem State.endFlock_reqs (s : State) (q : Nat) : (s.endFlock q).reqs = s.reqs := rfl
@[simp] theorem State.endFlock_aq (s : State) (q : Nat) : (s.endFlock q).aq = s.aq := rfl
@[simp] theorem State.endFlock_hist (s : State) (q : Nat) : (s.endFlock q).hist = s.hist := rfl
@[simp] theorem State.endFlock_kn (s : State) (q : Nat) : (s.endFlock q).kn = s.kn := rfl
@[simp] theorem State.endFlock_shares (s : State) (q : Nat) : (s.endFlock q).shares = s.shares := rfl
@[simp] theorem State.endFlock_sgen (s : State) (q : Nat) : (s.endFlock q).sgen = s.sgen := rfl
@[simp] theorem State.endFlock_saved (s : State) (q : Nat) : (s.endFlock q).saved = s.saved := rfl
@[simp] theorem State.endFlock_remains (s : State) (q : Nat) : (s.endFlock q).remains = s.remains := rfl
@[simp] theorem State.endFlock_loans (s : State) (q : Nat) : (s.endFlock q).loans = s.loans := rfl
@[simp] theorem State.endFlock_quarters (s : State) (q : Nat) : (s.endFlock q).quarters = s.quarters := rfl
@[simp] theorem State.endFlock_tiles (s : State) (q : Nat) : (s.endFlock q).tiles = s.tiles := rfl
@[simp] theorem State.endFlock_eops (s : State) (q : Nat) : (s.endFlock q).eops = s.eops := rfl
@[simp] theorem State.endFlock_fetches (s : State) (q : Nat) : (s.endFlock q).fetches = s.fetches := rfl
@[simp] theorem State.endFlock_lines (s : State) (q : Nat) : (s.endFlock q).lines = s.lines := rfl
@[simp] theorem State.endFlock_hbits (s : State) (q : Nat) : (s.endFlock q).hbits = s.hbits := rfl
@[simp] theorem State.endFlock_l1 (s : State) (q : Nat) : (s.endFlock q).l1 = s.l1 := rfl
@[simp] theorem State.endFlock_predict (s : State) (q : Nat) : (s.endFlock q).predict = s.predict := rfl
@[simp] theorem State.endFlock_floors (s : State) (q : Nat) : (s.endFlock q).floors = s.floors := rfl
@[simp] theorem State.endFlock_pages (s : State) (q : Nat) : (s.endFlock q).pages = s.pages := rfl
@[simp] theorem State.endFlock_smap (s : State) (q : Nat) : (s.endFlock q).smap = s.smap := rfl
@[simp] theorem State.endFlock_smapGen (s : State) (q : Nat) : (s.endFlock q).smapGen = s.smapGen := rfl
@[simp] theorem State.endFlock_grace (s : State) (q : Nat) : (s.endFlock q).grace = s.grace := rfl
@[simp] theorem State.endFlock_frozen (s : State) (q : Nat) : (s.endFlock q).frozen = s.frozen := rfl
@[simp] theorem State.endFlock_leafCnt (s : State) (q : Nat) : (s.endFlock q).leafCnt = s.leafCnt := rfl
@[simp] theorem State.endFlock_staleSlots (s : State) (q : Nat) : (s.endFlock q).staleSlots = s.staleSlots := rfl
@[simp] theorem State.endFlock_hostCommits (s : State) (q : Nat) : (s.endFlock q).hostCommits = s.hostCommits := rfl
@[simp] theorem State.endFlock_pending (s : State) (q : Nat) : (s.endFlock q).pending = s.pending := rfl
@[simp] theorem State.endFlock_ctxs (s : State) (q : Nat) : (s.endFlock q).ctxs = s.ctxs := rfl
@[simp] theorem State.endFlock_steal (s : State) (q : Nat) : (s.endFlock q).steal = s.steal := rfl
@[simp] theorem State.endFlock_stolen (s : State) (q : Nat) : (s.endFlock q).stolen = s.stolen := rfl
@[simp] theorem State.endFlock_regs (s : State) (q : Nat) : (s.endFlock q).regs = s.regs := rfl
@[simp] theorem State.endFlock_wins (s : State) (q : Nat) : (s.endFlock q).wins = s.wins := rfl
@[simp] theorem State.endFlock_carts (s : State) (q : Nat) : (s.endFlock q).carts = s.carts := rfl
@[simp] theorem State.endFlock_chans (s : State) (q : Nat) : (s.endFlock q).chans = s.chans := rfl
@[simp] theorem State.endFlock_unacked (s : State) (q : Nat) : (s.endFlock q).unacked = s.unacked := rfl
@[simp] theorem State.endFlock_rfqWait (s : State) (q : Nat) : (s.endFlock q).rfqWait = s.rfqWait := rfl
@[simp] theorem State.endFlock_hostWids (s : State) (q : Nat) : (s.endFlock q).hostWids = s.hostWids := rfl
@[simp] theorem State.endFlock_hostHeld (s : State) (q : Nat) : (s.endFlock q).hostHeld = s.hostHeld := rfl
@[simp] theorem State.endFlock_acks (s : State) (q : Nat) : (s.endFlock q).acks = s.acks := rfl
@[simp] theorem State.endFlock_outbox (s : State) (q : Nat) : (s.endFlock q).outbox = s.outbox := rfl
@[simp] theorem State.endFlock_remaps (s : State) (q : Nat) : (s.endFlock q).remaps = s.remaps := rfl
@[simp] theorem State.endFlock_openTags (s : State) (q : Nat) : (s.endFlock q).openTags = s.openTags := rfl
@[simp] theorem State.endFlock_imports (s : State) (q : Nat) : (s.endFlock q).imports = s.imports := rfl
@[simp] theorem State.endFlock_probes (s : State) (q : Nat) : (s.endFlock q).probes = s.probes := rfl
@[simp] theorem State.endFlock_lostOn (s : State) (q : Nat) : (s.endFlock q).lostOn = s.lostOn := rfl
@[simp] theorem State.endFlock_ports (s : State) (q : Nat) : (s.endFlock q).ports = s.ports := rfl
@[simp] theorem State.endFlock_hot (s : State) (q : Nat) : (s.endFlock q).hot = s.hot := rfl
@[simp] theorem State.endFlock_recvSeq (s : State) (q : Nat) : (s.endFlock q).recvSeq = s.recvSeq := rfl
@[simp] theorem State.endFlock_monitors (s : State) (q : Nat) : (s.endFlock q).monitors = s.monitors := rfl
@[simp] theorem State.endFlock_stopSeq (s : State) (q : Nat) : (s.endFlock q).stopSeq = s.stopSeq := rfl
@[simp] theorem State.endFlock_traceSeq (s : State) (q : Nat) : (s.endFlock q).traceSeq = s.traceSeq := rfl
@[simp] theorem State.endFlock_dbgCount (s : State) (q : Nat) : (s.endFlock q).dbgCount = s.dbgCount := rfl
@[simp] theorem State.endFlock_stallOut (s : State) (q : Nat) : (s.endFlock q).stallOut = s.stallOut := rfl
@[simp] theorem State.endFlock_lastUnit (s : State) (q : Nat) : (s.endFlock q).lastUnit = s.lastUnit := rfl
@[simp] theorem State.endFlock_keys (s : State) (q : Nat) : (s.endFlock q).keys = s.keys := rfl
@[simp] theorem State.endFlock_hwm (s : State) (q : Nat) : (s.endFlock q).hwm = s.hwm := rfl
@[simp] theorem State.endFlock_keks (s : State) (q : Nat) : (s.endFlock q).keks = s.keks := rfl
@[simp] theorem State.endFlock_meas (s : State) (q : Nat) : (s.endFlock q).meas = s.meas := rfl
@[simp] theorem State.endFlock_reportSeq (s : State) (q : Nat) : (s.endFlock q).reportSeq = s.reportSeq := rfl
@[simp] theorem State.endFlock_boots (s : State) (q : Nat) : (s.endFlock q).boots = s.boots := rfl
@[simp] theorem State.endFlock_booted (s : State) (q : Nat) : (s.endFlock q).booted = s.booted := rfl
@[simp] theorem State.endFlock_bootFailed (s : State) (q : Nat) : (s.endFlock q).bootFailed = s.bootFailed := rfl
@[simp] theorem State.endFlock_curfew (s : State) (q : Nat) : (s.endFlock q).curfew = s.curfew := rfl
@[simp] theorem State.endFlock_tapIr (s : State) (q : Nat) : (s.endFlock q).tapIr = s.tapIr := rfl
@[simp] theorem State.endFlock_saddr (s : State) (q : Nat) : (s.endFlock q).saddr = s.saddr := rfl
@[simp] theorem State.endFlock_boundary (s : State) (q : Nat) : (s.endFlock q).boundary = s.boundary := rfl
@[simp] theorem State.endFlock_now (s : State) (q : Nat) : (s.endFlock q).now = s.now := rfl
@[simp] theorem State.endFlock_cyc (s : State) (q : Nat) : (s.endFlock q).cyc = s.cyc := rfl
@[simp] theorem State.endFlock_out (s : State) (q : Nat) : (s.endFlock q).out = s.out := rfl
@[simp] theorem State.endFlock_agenda (s : State) (q : Nat) : (s.endFlock q).agenda = s.agenda := rfl
@[simp] theorem State.endFlock_leaving (s : State) (q : Nat) : (s.endFlock q).leaving = s.leaving := rfl
@[simp] theorem State.endFlock_cur (s : State) (q : Nat) : (s.endFlock q).cur = s.cur := rfl
@[simp] theorem State.endFlock_pace (s : State) (q : Nat) : (s.endFlock q).pace = s.pace := rfl
@[simp] theorem State.endFlock_lag (s : State) (q : Nat) : (s.endFlock q).lag = s.lag := rfl
@[simp] theorem State.endFlock_serial (s : State) (q : Nat) : (s.endFlock q).serial = s.serial := rfl

/-! ### updQuarter -/

@[simp] theorem State.updQuarter_mem (s : State) (q : Nat) (g : Quarter → Quarter) : (s.updQuarter q g).mem = s.mem := rfl
@[simp] theorem State.updQuarter_full (s : State) (q : Nat) (g : Quarter → Quarter) : (s.updQuarter q g).full = s.full := rfl
@[simp] theorem State.updQuarter_poison (s : State) (q : Nat) (g : Quarter → Quarter) : (s.updQuarter q g).poison = s.poison := rfl
@[simp] theorem State.updQuarter_peerCode (s : State) (q : Nat) (g : Quarter → Quarter) : (s.updQuarter q g).peerCode = s.peerCode := rfl
@[simp] theorem State.updQuarter_fibres (s : State) (q : Nat) (g : Quarter → Quarter) : (s.updQuarter q g).fibres = s.fibres := rfl
@[simp] theorem State.updQuarter_flocks (s : State) (q : Nat) (g : Quarter → Quarter) : (s.updQuarter q g).flocks = s.flocks := rfl
@[simp] theorem State.updQuarter_reqs (s : State) (q : Nat) (g : Quarter → Quarter) : (s.updQuarter q g).reqs = s.reqs := rfl
@[simp] theorem State.updQuarter_aq (s : State) (q : Nat) (g : Quarter → Quarter) : (s.updQuarter q g).aq = s.aq := rfl
@[simp] theorem State.updQuarter_hist (s : State) (q : Nat) (g : Quarter → Quarter) : (s.updQuarter q g).hist = s.hist := rfl
@[simp] theorem State.updQuarter_kn (s : State) (q : Nat) (g : Quarter → Quarter) : (s.updQuarter q g).kn = s.kn := rfl
@[simp] theorem State.updQuarter_shares (s : State) (q : Nat) (g : Quarter → Quarter) : (s.updQuarter q g).shares = s.shares := rfl
@[simp] theorem State.updQuarter_sgen (s : State) (q : Nat) (g : Quarter → Quarter) : (s.updQuarter q g).sgen = s.sgen := rfl
@[simp] theorem State.updQuarter_saved (s : State) (q : Nat) (g : Quarter → Quarter) : (s.updQuarter q g).saved = s.saved := rfl
@[simp] theorem State.updQuarter_remains (s : State) (q : Nat) (g : Quarter → Quarter) : (s.updQuarter q g).remains = s.remains := rfl
@[simp] theorem State.updQuarter_loans (s : State) (q : Nat) (g : Quarter → Quarter) : (s.updQuarter q g).loans = s.loans := rfl
@[simp] theorem State.updQuarter_quarters (s : State) (q : Nat) (g : Quarter → Quarter) : (s.updQuarter q g).quarters = s.quarters.upd q Quarter.init g := rfl
@[simp] theorem State.updQuarter_tiles (s : State) (q : Nat) (g : Quarter → Quarter) : (s.updQuarter q g).tiles = s.tiles := rfl
@[simp] theorem State.updQuarter_eops (s : State) (q : Nat) (g : Quarter → Quarter) : (s.updQuarter q g).eops = s.eops := rfl
@[simp] theorem State.updQuarter_fetches (s : State) (q : Nat) (g : Quarter → Quarter) : (s.updQuarter q g).fetches = s.fetches := rfl
@[simp] theorem State.updQuarter_lines (s : State) (q : Nat) (g : Quarter → Quarter) : (s.updQuarter q g).lines = s.lines := rfl
@[simp] theorem State.updQuarter_hbits (s : State) (q : Nat) (g : Quarter → Quarter) : (s.updQuarter q g).hbits = s.hbits := rfl
@[simp] theorem State.updQuarter_l1 (s : State) (q : Nat) (g : Quarter → Quarter) : (s.updQuarter q g).l1 = s.l1 := rfl
@[simp] theorem State.updQuarter_predict (s : State) (q : Nat) (g : Quarter → Quarter) : (s.updQuarter q g).predict = s.predict := rfl
@[simp] theorem State.updQuarter_floors (s : State) (q : Nat) (g : Quarter → Quarter) : (s.updQuarter q g).floors = s.floors := rfl
@[simp] theorem State.updQuarter_pages (s : State) (q : Nat) (g : Quarter → Quarter) : (s.updQuarter q g).pages = s.pages := rfl
@[simp] theorem State.updQuarter_smap (s : State) (q : Nat) (g : Quarter → Quarter) : (s.updQuarter q g).smap = s.smap := rfl
@[simp] theorem State.updQuarter_smapGen (s : State) (q : Nat) (g : Quarter → Quarter) : (s.updQuarter q g).smapGen = s.smapGen := rfl
@[simp] theorem State.updQuarter_grace (s : State) (q : Nat) (g : Quarter → Quarter) : (s.updQuarter q g).grace = s.grace := rfl
@[simp] theorem State.updQuarter_frozen (s : State) (q : Nat) (g : Quarter → Quarter) : (s.updQuarter q g).frozen = s.frozen := rfl
@[simp] theorem State.updQuarter_leafCnt (s : State) (q : Nat) (g : Quarter → Quarter) : (s.updQuarter q g).leafCnt = s.leafCnt := rfl
@[simp] theorem State.updQuarter_staleSlots (s : State) (q : Nat) (g : Quarter → Quarter) : (s.updQuarter q g).staleSlots = s.staleSlots := rfl
@[simp] theorem State.updQuarter_hostCommits (s : State) (q : Nat) (g : Quarter → Quarter) : (s.updQuarter q g).hostCommits = s.hostCommits := rfl
@[simp] theorem State.updQuarter_pending (s : State) (q : Nat) (g : Quarter → Quarter) : (s.updQuarter q g).pending = s.pending := rfl
@[simp] theorem State.updQuarter_ctxs (s : State) (q : Nat) (g : Quarter → Quarter) : (s.updQuarter q g).ctxs = s.ctxs := rfl
@[simp] theorem State.updQuarter_steal (s : State) (q : Nat) (g : Quarter → Quarter) : (s.updQuarter q g).steal = s.steal := rfl
@[simp] theorem State.updQuarter_stolen (s : State) (q : Nat) (g : Quarter → Quarter) : (s.updQuarter q g).stolen = s.stolen := rfl
@[simp] theorem State.updQuarter_regs (s : State) (q : Nat) (g : Quarter → Quarter) : (s.updQuarter q g).regs = s.regs := rfl
@[simp] theorem State.updQuarter_wins (s : State) (q : Nat) (g : Quarter → Quarter) : (s.updQuarter q g).wins = s.wins := rfl
@[simp] theorem State.updQuarter_carts (s : State) (q : Nat) (g : Quarter → Quarter) : (s.updQuarter q g).carts = s.carts := rfl
@[simp] theorem State.updQuarter_chans (s : State) (q : Nat) (g : Quarter → Quarter) : (s.updQuarter q g).chans = s.chans := rfl
@[simp] theorem State.updQuarter_unacked (s : State) (q : Nat) (g : Quarter → Quarter) : (s.updQuarter q g).unacked = s.unacked := rfl
@[simp] theorem State.updQuarter_rfqWait (s : State) (q : Nat) (g : Quarter → Quarter) : (s.updQuarter q g).rfqWait = s.rfqWait := rfl
@[simp] theorem State.updQuarter_hostWids (s : State) (q : Nat) (g : Quarter → Quarter) : (s.updQuarter q g).hostWids = s.hostWids := rfl
@[simp] theorem State.updQuarter_hostHeld (s : State) (q : Nat) (g : Quarter → Quarter) : (s.updQuarter q g).hostHeld = s.hostHeld := rfl
@[simp] theorem State.updQuarter_acks (s : State) (q : Nat) (g : Quarter → Quarter) : (s.updQuarter q g).acks = s.acks := rfl
@[simp] theorem State.updQuarter_outbox (s : State) (q : Nat) (g : Quarter → Quarter) : (s.updQuarter q g).outbox = s.outbox := rfl
@[simp] theorem State.updQuarter_remaps (s : State) (q : Nat) (g : Quarter → Quarter) : (s.updQuarter q g).remaps = s.remaps := rfl
@[simp] theorem State.updQuarter_openTags (s : State) (q : Nat) (g : Quarter → Quarter) : (s.updQuarter q g).openTags = s.openTags := rfl
@[simp] theorem State.updQuarter_imports (s : State) (q : Nat) (g : Quarter → Quarter) : (s.updQuarter q g).imports = s.imports := rfl
@[simp] theorem State.updQuarter_probes (s : State) (q : Nat) (g : Quarter → Quarter) : (s.updQuarter q g).probes = s.probes := rfl
@[simp] theorem State.updQuarter_lostOn (s : State) (q : Nat) (g : Quarter → Quarter) : (s.updQuarter q g).lostOn = s.lostOn := rfl
@[simp] theorem State.updQuarter_ports (s : State) (q : Nat) (g : Quarter → Quarter) : (s.updQuarter q g).ports = s.ports := rfl
@[simp] theorem State.updQuarter_hot (s : State) (q : Nat) (g : Quarter → Quarter) : (s.updQuarter q g).hot = s.hot := rfl
@[simp] theorem State.updQuarter_recvSeq (s : State) (q : Nat) (g : Quarter → Quarter) : (s.updQuarter q g).recvSeq = s.recvSeq := rfl
@[simp] theorem State.updQuarter_monitors (s : State) (q : Nat) (g : Quarter → Quarter) : (s.updQuarter q g).monitors = s.monitors := rfl
@[simp] theorem State.updQuarter_stopSeq (s : State) (q : Nat) (g : Quarter → Quarter) : (s.updQuarter q g).stopSeq = s.stopSeq := rfl
@[simp] theorem State.updQuarter_traceSeq (s : State) (q : Nat) (g : Quarter → Quarter) : (s.updQuarter q g).traceSeq = s.traceSeq := rfl
@[simp] theorem State.updQuarter_dbgCount (s : State) (q : Nat) (g : Quarter → Quarter) : (s.updQuarter q g).dbgCount = s.dbgCount := rfl
@[simp] theorem State.updQuarter_stallOut (s : State) (q : Nat) (g : Quarter → Quarter) : (s.updQuarter q g).stallOut = s.stallOut := rfl
@[simp] theorem State.updQuarter_lastUnit (s : State) (q : Nat) (g : Quarter → Quarter) : (s.updQuarter q g).lastUnit = s.lastUnit := rfl
@[simp] theorem State.updQuarter_keys (s : State) (q : Nat) (g : Quarter → Quarter) : (s.updQuarter q g).keys = s.keys := rfl
@[simp] theorem State.updQuarter_hwm (s : State) (q : Nat) (g : Quarter → Quarter) : (s.updQuarter q g).hwm = s.hwm := rfl
@[simp] theorem State.updQuarter_keks (s : State) (q : Nat) (g : Quarter → Quarter) : (s.updQuarter q g).keks = s.keks := rfl
@[simp] theorem State.updQuarter_meas (s : State) (q : Nat) (g : Quarter → Quarter) : (s.updQuarter q g).meas = s.meas := rfl
@[simp] theorem State.updQuarter_reportSeq (s : State) (q : Nat) (g : Quarter → Quarter) : (s.updQuarter q g).reportSeq = s.reportSeq := rfl
@[simp] theorem State.updQuarter_boots (s : State) (q : Nat) (g : Quarter → Quarter) : (s.updQuarter q g).boots = s.boots := rfl
@[simp] theorem State.updQuarter_booted (s : State) (q : Nat) (g : Quarter → Quarter) : (s.updQuarter q g).booted = s.booted := rfl
@[simp] theorem State.updQuarter_bootFailed (s : State) (q : Nat) (g : Quarter → Quarter) : (s.updQuarter q g).bootFailed = s.bootFailed := rfl
@[simp] theorem State.updQuarter_curfew (s : State) (q : Nat) (g : Quarter → Quarter) : (s.updQuarter q g).curfew = s.curfew := rfl
@[simp] theorem State.updQuarter_tapIr (s : State) (q : Nat) (g : Quarter → Quarter) : (s.updQuarter q g).tapIr = s.tapIr := rfl
@[simp] theorem State.updQuarter_saddr (s : State) (q : Nat) (g : Quarter → Quarter) : (s.updQuarter q g).saddr = s.saddr := rfl
@[simp] theorem State.updQuarter_boundary (s : State) (q : Nat) (g : Quarter → Quarter) : (s.updQuarter q g).boundary = s.boundary := rfl
@[simp] theorem State.updQuarter_now (s : State) (q : Nat) (g : Quarter → Quarter) : (s.updQuarter q g).now = s.now := rfl
@[simp] theorem State.updQuarter_cyc (s : State) (q : Nat) (g : Quarter → Quarter) : (s.updQuarter q g).cyc = s.cyc := rfl
@[simp] theorem State.updQuarter_out (s : State) (q : Nat) (g : Quarter → Quarter) : (s.updQuarter q g).out = s.out := rfl
@[simp] theorem State.updQuarter_agenda (s : State) (q : Nat) (g : Quarter → Quarter) : (s.updQuarter q g).agenda = s.agenda := rfl
@[simp] theorem State.updQuarter_leaving (s : State) (q : Nat) (g : Quarter → Quarter) : (s.updQuarter q g).leaving = s.leaving := rfl
@[simp] theorem State.updQuarter_cur (s : State) (q : Nat) (g : Quarter → Quarter) : (s.updQuarter q g).cur = s.cur := rfl
@[simp] theorem State.updQuarter_pace (s : State) (q : Nat) (g : Quarter → Quarter) : (s.updQuarter q g).pace = s.pace := rfl
@[simp] theorem State.updQuarter_lag (s : State) (q : Nat) (g : Quarter → Quarter) : (s.updQuarter q g).lag = s.lag := rfl
@[simp] theorem State.updQuarter_serial (s : State) (q : Nat) (g : Quarter → Quarter) : (s.updQuarter q g).serial = s.serial := rfl

/-! ### setReg -/

@[simp] theorem State.setReg_mem (s : State) (o : Nat) (v : DWord) : (s.setReg o v).mem = s.mem := rfl
@[simp] theorem State.setReg_full (s : State) (o : Nat) (v : DWord) : (s.setReg o v).full = s.full := rfl
@[simp] theorem State.setReg_poison (s : State) (o : Nat) (v : DWord) : (s.setReg o v).poison = s.poison := rfl
@[simp] theorem State.setReg_peerCode (s : State) (o : Nat) (v : DWord) : (s.setReg o v).peerCode = s.peerCode := rfl
@[simp] theorem State.setReg_fibres (s : State) (o : Nat) (v : DWord) : (s.setReg o v).fibres = s.fibres := rfl
@[simp] theorem State.setReg_flocks (s : State) (o : Nat) (v : DWord) : (s.setReg o v).flocks = s.flocks := rfl
@[simp] theorem State.setReg_reqs (s : State) (o : Nat) (v : DWord) : (s.setReg o v).reqs = s.reqs := rfl
@[simp] theorem State.setReg_aq (s : State) (o : Nat) (v : DWord) : (s.setReg o v).aq = s.aq := rfl
@[simp] theorem State.setReg_hist (s : State) (o : Nat) (v : DWord) : (s.setReg o v).hist = s.hist := rfl
@[simp] theorem State.setReg_kn (s : State) (o : Nat) (v : DWord) : (s.setReg o v).kn = s.kn := rfl
@[simp] theorem State.setReg_shares (s : State) (o : Nat) (v : DWord) : (s.setReg o v).shares = s.shares := rfl
@[simp] theorem State.setReg_sgen (s : State) (o : Nat) (v : DWord) : (s.setReg o v).sgen = s.sgen := rfl
@[simp] theorem State.setReg_saved (s : State) (o : Nat) (v : DWord) : (s.setReg o v).saved = s.saved := rfl
@[simp] theorem State.setReg_remains (s : State) (o : Nat) (v : DWord) : (s.setReg o v).remains = s.remains := rfl
@[simp] theorem State.setReg_loans (s : State) (o : Nat) (v : DWord) : (s.setReg o v).loans = s.loans := rfl
@[simp] theorem State.setReg_quarters (s : State) (o : Nat) (v : DWord) : (s.setReg o v).quarters = s.quarters := rfl
@[simp] theorem State.setReg_tiles (s : State) (o : Nat) (v : DWord) : (s.setReg o v).tiles = s.tiles := rfl
@[simp] theorem State.setReg_eops (s : State) (o : Nat) (v : DWord) : (s.setReg o v).eops = s.eops := rfl
@[simp] theorem State.setReg_fetches (s : State) (o : Nat) (v : DWord) : (s.setReg o v).fetches = s.fetches := rfl
@[simp] theorem State.setReg_lines (s : State) (o : Nat) (v : DWord) : (s.setReg o v).lines = s.lines := rfl
@[simp] theorem State.setReg_hbits (s : State) (o : Nat) (v : DWord) : (s.setReg o v).hbits = s.hbits := rfl
@[simp] theorem State.setReg_l1 (s : State) (o : Nat) (v : DWord) : (s.setReg o v).l1 = s.l1 := rfl
@[simp] theorem State.setReg_predict (s : State) (o : Nat) (v : DWord) : (s.setReg o v).predict = s.predict := rfl
@[simp] theorem State.setReg_floors (s : State) (o : Nat) (v : DWord) : (s.setReg o v).floors = s.floors := rfl
@[simp] theorem State.setReg_pages (s : State) (o : Nat) (v : DWord) : (s.setReg o v).pages = s.pages := rfl
@[simp] theorem State.setReg_smap (s : State) (o : Nat) (v : DWord) : (s.setReg o v).smap = s.smap := rfl
@[simp] theorem State.setReg_smapGen (s : State) (o : Nat) (v : DWord) : (s.setReg o v).smapGen = s.smapGen := rfl
@[simp] theorem State.setReg_grace (s : State) (o : Nat) (v : DWord) : (s.setReg o v).grace = s.grace := rfl
@[simp] theorem State.setReg_frozen (s : State) (o : Nat) (v : DWord) : (s.setReg o v).frozen = s.frozen := rfl
@[simp] theorem State.setReg_leafCnt (s : State) (o : Nat) (v : DWord) : (s.setReg o v).leafCnt = s.leafCnt := rfl
@[simp] theorem State.setReg_staleSlots (s : State) (o : Nat) (v : DWord) : (s.setReg o v).staleSlots = s.staleSlots := rfl
@[simp] theorem State.setReg_hostCommits (s : State) (o : Nat) (v : DWord) : (s.setReg o v).hostCommits = s.hostCommits := rfl
@[simp] theorem State.setReg_pending (s : State) (o : Nat) (v : DWord) : (s.setReg o v).pending = s.pending := rfl
@[simp] theorem State.setReg_ctxs (s : State) (o : Nat) (v : DWord) : (s.setReg o v).ctxs = s.ctxs := rfl
@[simp] theorem State.setReg_steal (s : State) (o : Nat) (v : DWord) : (s.setReg o v).steal = s.steal := rfl
@[simp] theorem State.setReg_stolen (s : State) (o : Nat) (v : DWord) : (s.setReg o v).stolen = s.stolen := rfl
@[simp] theorem State.setReg_regs (s : State) (o : Nat) (v : DWord) : (s.setReg o v).regs = s.regs.set o v := rfl
@[simp] theorem State.setReg_wins (s : State) (o : Nat) (v : DWord) : (s.setReg o v).wins = s.wins := rfl
@[simp] theorem State.setReg_carts (s : State) (o : Nat) (v : DWord) : (s.setReg o v).carts = s.carts := rfl
@[simp] theorem State.setReg_chans (s : State) (o : Nat) (v : DWord) : (s.setReg o v).chans = s.chans := rfl
@[simp] theorem State.setReg_unacked (s : State) (o : Nat) (v : DWord) : (s.setReg o v).unacked = s.unacked := rfl
@[simp] theorem State.setReg_rfqWait (s : State) (o : Nat) (v : DWord) : (s.setReg o v).rfqWait = s.rfqWait := rfl
@[simp] theorem State.setReg_hostWids (s : State) (o : Nat) (v : DWord) : (s.setReg o v).hostWids = s.hostWids := rfl
@[simp] theorem State.setReg_hostHeld (s : State) (o : Nat) (v : DWord) : (s.setReg o v).hostHeld = s.hostHeld := rfl
@[simp] theorem State.setReg_acks (s : State) (o : Nat) (v : DWord) : (s.setReg o v).acks = s.acks := rfl
@[simp] theorem State.setReg_outbox (s : State) (o : Nat) (v : DWord) : (s.setReg o v).outbox = s.outbox := rfl
@[simp] theorem State.setReg_remaps (s : State) (o : Nat) (v : DWord) : (s.setReg o v).remaps = s.remaps := rfl
@[simp] theorem State.setReg_openTags (s : State) (o : Nat) (v : DWord) : (s.setReg o v).openTags = s.openTags := rfl
@[simp] theorem State.setReg_imports (s : State) (o : Nat) (v : DWord) : (s.setReg o v).imports = s.imports := rfl
@[simp] theorem State.setReg_probes (s : State) (o : Nat) (v : DWord) : (s.setReg o v).probes = s.probes := rfl
@[simp] theorem State.setReg_lostOn (s : State) (o : Nat) (v : DWord) : (s.setReg o v).lostOn = s.lostOn := rfl
@[simp] theorem State.setReg_ports (s : State) (o : Nat) (v : DWord) : (s.setReg o v).ports = s.ports := rfl
@[simp] theorem State.setReg_hot (s : State) (o : Nat) (v : DWord) : (s.setReg o v).hot = s.hot := rfl
@[simp] theorem State.setReg_recvSeq (s : State) (o : Nat) (v : DWord) : (s.setReg o v).recvSeq = s.recvSeq := rfl
@[simp] theorem State.setReg_monitors (s : State) (o : Nat) (v : DWord) : (s.setReg o v).monitors = s.monitors := rfl
@[simp] theorem State.setReg_stopSeq (s : State) (o : Nat) (v : DWord) : (s.setReg o v).stopSeq = s.stopSeq := rfl
@[simp] theorem State.setReg_traceSeq (s : State) (o : Nat) (v : DWord) : (s.setReg o v).traceSeq = s.traceSeq := rfl
@[simp] theorem State.setReg_dbgCount (s : State) (o : Nat) (v : DWord) : (s.setReg o v).dbgCount = s.dbgCount := rfl
@[simp] theorem State.setReg_stallOut (s : State) (o : Nat) (v : DWord) : (s.setReg o v).stallOut = s.stallOut := rfl
@[simp] theorem State.setReg_lastUnit (s : State) (o : Nat) (v : DWord) : (s.setReg o v).lastUnit = s.lastUnit := rfl
@[simp] theorem State.setReg_keys (s : State) (o : Nat) (v : DWord) : (s.setReg o v).keys = s.keys := rfl
@[simp] theorem State.setReg_hwm (s : State) (o : Nat) (v : DWord) : (s.setReg o v).hwm = s.hwm := rfl
@[simp] theorem State.setReg_keks (s : State) (o : Nat) (v : DWord) : (s.setReg o v).keks = s.keks := rfl
@[simp] theorem State.setReg_meas (s : State) (o : Nat) (v : DWord) : (s.setReg o v).meas = s.meas := rfl
@[simp] theorem State.setReg_reportSeq (s : State) (o : Nat) (v : DWord) : (s.setReg o v).reportSeq = s.reportSeq := rfl
@[simp] theorem State.setReg_boots (s : State) (o : Nat) (v : DWord) : (s.setReg o v).boots = s.boots := rfl
@[simp] theorem State.setReg_booted (s : State) (o : Nat) (v : DWord) : (s.setReg o v).booted = s.booted := rfl
@[simp] theorem State.setReg_bootFailed (s : State) (o : Nat) (v : DWord) : (s.setReg o v).bootFailed = s.bootFailed := rfl
@[simp] theorem State.setReg_curfew (s : State) (o : Nat) (v : DWord) : (s.setReg o v).curfew = s.curfew := rfl
@[simp] theorem State.setReg_tapIr (s : State) (o : Nat) (v : DWord) : (s.setReg o v).tapIr = s.tapIr := rfl
@[simp] theorem State.setReg_saddr (s : State) (o : Nat) (v : DWord) : (s.setReg o v).saddr = s.saddr := rfl
@[simp] theorem State.setReg_boundary (s : State) (o : Nat) (v : DWord) : (s.setReg o v).boundary = s.boundary := rfl
@[simp] theorem State.setReg_now (s : State) (o : Nat) (v : DWord) : (s.setReg o v).now = s.now := rfl
@[simp] theorem State.setReg_cyc (s : State) (o : Nat) (v : DWord) : (s.setReg o v).cyc = s.cyc := rfl
@[simp] theorem State.setReg_out (s : State) (o : Nat) (v : DWord) : (s.setReg o v).out = s.out := rfl
@[simp] theorem State.setReg_agenda (s : State) (o : Nat) (v : DWord) : (s.setReg o v).agenda = s.agenda := rfl
@[simp] theorem State.setReg_leaving (s : State) (o : Nat) (v : DWord) : (s.setReg o v).leaving = s.leaving := rfl
@[simp] theorem State.setReg_cur (s : State) (o : Nat) (v : DWord) : (s.setReg o v).cur = s.cur := rfl
@[simp] theorem State.setReg_pace (s : State) (o : Nat) (v : DWord) : (s.setReg o v).pace = s.pace := rfl
@[simp] theorem State.setReg_lag (s : State) (o : Nat) (v : DWord) : (s.setReg o v).lag = s.lag := rfl
@[simp] theorem State.setReg_serial (s : State) (o : Nat) (v : DWord) : (s.setReg o v).serial = s.serial := rfl

/-! ### count -/

@[simp] theorem State.count_mem (s : State) (d e : Nat) : (s.count d e).mem = s.mem := rfl
@[simp] theorem State.count_full (s : State) (d e : Nat) : (s.count d e).full = s.full := rfl
@[simp] theorem State.count_poison (s : State) (d e : Nat) : (s.count d e).poison = s.poison := rfl
@[simp] theorem State.count_peerCode (s : State) (d e : Nat) : (s.count d e).peerCode = s.peerCode := rfl
@[simp] theorem State.count_fibres (s : State) (d e : Nat) : (s.count d e).fibres = s.fibres := rfl
@[simp] theorem State.count_flocks (s : State) (d e : Nat) : (s.count d e).flocks = s.flocks := rfl
@[simp] theorem State.count_reqs (s : State) (d e : Nat) : (s.count d e).reqs = s.reqs := rfl
@[simp] theorem State.count_aq (s : State) (d e : Nat) : (s.count d e).aq = s.aq := rfl
@[simp] theorem State.count_hist (s : State) (d e : Nat) : (s.count d e).hist = s.hist := rfl
@[simp] theorem State.count_kn (s : State) (d e : Nat) : (s.count d e).kn = s.kn := rfl
@[simp] theorem State.count_shares (s : State) (d e : Nat) : (s.count d e).shares = s.shares := rfl
@[simp] theorem State.count_sgen (s : State) (d e : Nat) : (s.count d e).sgen = s.sgen := rfl
@[simp] theorem State.count_saved (s : State) (d e : Nat) : (s.count d e).saved = s.saved := rfl
@[simp] theorem State.count_remains (s : State) (d e : Nat) : (s.count d e).remains = s.remains := rfl
@[simp] theorem State.count_loans (s : State) (d e : Nat) : (s.count d e).loans = s.loans := rfl
@[simp] theorem State.count_quarters (s : State) (d e : Nat) : (s.count d e).quarters = s.quarters := rfl
@[simp] theorem State.count_tiles (s : State) (d e : Nat) : (s.count d e).tiles = s.tiles := rfl
@[simp] theorem State.count_eops (s : State) (d e : Nat) : (s.count d e).eops = s.eops := rfl
@[simp] theorem State.count_fetches (s : State) (d e : Nat) : (s.count d e).fetches = s.fetches := rfl
@[simp] theorem State.count_lines (s : State) (d e : Nat) : (s.count d e).lines = s.lines := rfl
@[simp] theorem State.count_hbits (s : State) (d e : Nat) : (s.count d e).hbits = s.hbits := rfl
@[simp] theorem State.count_l1 (s : State) (d e : Nat) : (s.count d e).l1 = s.l1 := rfl
@[simp] theorem State.count_predict (s : State) (d e : Nat) : (s.count d e).predict = s.predict := rfl
@[simp] theorem State.count_floors (s : State) (d e : Nat) : (s.count d e).floors = s.floors := rfl
@[simp] theorem State.count_pages (s : State) (d e : Nat) : (s.count d e).pages = s.pages := rfl
@[simp] theorem State.count_smap (s : State) (d e : Nat) : (s.count d e).smap = s.smap := rfl
@[simp] theorem State.count_smapGen (s : State) (d e : Nat) : (s.count d e).smapGen = s.smapGen := rfl
@[simp] theorem State.count_grace (s : State) (d e : Nat) : (s.count d e).grace = s.grace := rfl
@[simp] theorem State.count_frozen (s : State) (d e : Nat) : (s.count d e).frozen = s.frozen := rfl
@[simp] theorem State.count_leafCnt (s : State) (d e : Nat) : (s.count d e).leafCnt = s.leafCnt := rfl
@[simp] theorem State.count_staleSlots (s : State) (d e : Nat) : (s.count d e).staleSlots = s.staleSlots := rfl
@[simp] theorem State.count_hostCommits (s : State) (d e : Nat) : (s.count d e).hostCommits = s.hostCommits := rfl
@[simp] theorem State.count_pending (s : State) (d e : Nat) : (s.count d e).pending = s.pending := rfl
@[simp] theorem State.count_ctxs (s : State) (d e : Nat) : (s.count d e).ctxs = s.ctxs := rfl
@[simp] theorem State.count_steal (s : State) (d e : Nat) : (s.count d e).steal = s.steal := rfl
@[simp] theorem State.count_stolen (s : State) (d e : Nat) : (s.count d e).stolen = s.stolen := rfl
@[simp] theorem State.count_regs (s : State) (d e : Nat) : (s.count d e).regs = s.regs := rfl
@[simp] theorem State.count_wins (s : State) (d e : Nat) : (s.count d e).wins = s.wins := rfl
@[simp] theorem State.count_carts (s : State) (d e : Nat) : (s.count d e).carts = s.carts := rfl
@[simp] theorem State.count_chans (s : State) (d e : Nat) : (s.count d e).chans = s.chans := rfl
@[simp] theorem State.count_unacked (s : State) (d e : Nat) : (s.count d e).unacked = s.unacked := rfl
@[simp] theorem State.count_rfqWait (s : State) (d e : Nat) : (s.count d e).rfqWait = s.rfqWait := rfl
@[simp] theorem State.count_hostWids (s : State) (d e : Nat) : (s.count d e).hostWids = s.hostWids := rfl
@[simp] theorem State.count_hostHeld (s : State) (d e : Nat) : (s.count d e).hostHeld = s.hostHeld := rfl
@[simp] theorem State.count_acks (s : State) (d e : Nat) : (s.count d e).acks = s.acks := rfl
@[simp] theorem State.count_outbox (s : State) (d e : Nat) : (s.count d e).outbox = s.outbox := rfl
@[simp] theorem State.count_remaps (s : State) (d e : Nat) : (s.count d e).remaps = s.remaps := rfl
@[simp] theorem State.count_openTags (s : State) (d e : Nat) : (s.count d e).openTags = s.openTags := rfl
@[simp] theorem State.count_imports (s : State) (d e : Nat) : (s.count d e).imports = s.imports := rfl
@[simp] theorem State.count_probes (s : State) (d e : Nat) : (s.count d e).probes = s.probes := rfl
@[simp] theorem State.count_lostOn (s : State) (d e : Nat) : (s.count d e).lostOn = s.lostOn := rfl
@[simp] theorem State.count_ports (s : State) (d e : Nat) : (s.count d e).ports = s.ports := rfl
@[simp] theorem State.count_hot (s : State) (d e : Nat) : (s.count d e).hot = s.hot := rfl
@[simp] theorem State.count_recvSeq (s : State) (d e : Nat) : (s.count d e).recvSeq = s.recvSeq := rfl
@[simp] theorem State.count_monitors (s : State) (d e : Nat) : (s.count d e).monitors = s.monitors := rfl
@[simp] theorem State.count_stopSeq (s : State) (d e : Nat) : (s.count d e).stopSeq = s.stopSeq := rfl
@[simp] theorem State.count_traceSeq (s : State) (d e : Nat) : (s.count d e).traceSeq = s.traceSeq := rfl
@[simp] theorem State.count_dbgCount (s : State) (d e : Nat) : (s.count d e).dbgCount = s.dbgCount.upd (d * 8 + e) 0 (· + 1) := rfl
@[simp] theorem State.count_stallOut (s : State) (d e : Nat) : (s.count d e).stallOut = s.stallOut := rfl
@[simp] theorem State.count_lastUnit (s : State) (d e : Nat) : (s.count d e).lastUnit = s.lastUnit := rfl
@[simp] theorem State.count_keys (s : State) (d e : Nat) : (s.count d e).keys = s.keys := rfl
@[simp] theorem State.count_hwm (s : State) (d e : Nat) : (s.count d e).hwm = s.hwm := rfl
@[simp] theorem State.count_keks (s : State) (d e : Nat) : (s.count d e).keks = s.keks := rfl
@[simp] theorem State.count_meas (s : State) (d e : Nat) : (s.count d e).meas = s.meas := rfl
@[simp] theorem State.count_reportSeq (s : State) (d e : Nat) : (s.count d e).reportSeq = s.reportSeq := rfl
@[simp] theorem State.count_boots (s : State) (d e : Nat) : (s.count d e).boots = s.boots := rfl
@[simp] theorem State.count_booted (s : State) (d e : Nat) : (s.count d e).booted = s.booted := rfl
@[simp] theorem State.count_bootFailed (s : State) (d e : Nat) : (s.count d e).bootFailed = s.bootFailed := rfl
@[simp] theorem State.count_curfew (s : State) (d e : Nat) : (s.count d e).curfew = s.curfew := rfl
@[simp] theorem State.count_tapIr (s : State) (d e : Nat) : (s.count d e).tapIr = s.tapIr := rfl
@[simp] theorem State.count_saddr (s : State) (d e : Nat) : (s.count d e).saddr = s.saddr := rfl
@[simp] theorem State.count_boundary (s : State) (d e : Nat) : (s.count d e).boundary = s.boundary := rfl
@[simp] theorem State.count_now (s : State) (d e : Nat) : (s.count d e).now = s.now := rfl
@[simp] theorem State.count_cyc (s : State) (d e : Nat) : (s.count d e).cyc = s.cyc := rfl
@[simp] theorem State.count_out (s : State) (d e : Nat) : (s.count d e).out = s.out := rfl
@[simp] theorem State.count_agenda (s : State) (d e : Nat) : (s.count d e).agenda = s.agenda := rfl
@[simp] theorem State.count_leaving (s : State) (d e : Nat) : (s.count d e).leaving = s.leaving := rfl
@[simp] theorem State.count_cur (s : State) (d e : Nat) : (s.count d e).cur = s.cur := rfl
@[simp] theorem State.count_pace (s : State) (d e : Nat) : (s.count d e).pace = s.pace := rfl
@[simp] theorem State.count_lag (s : State) (d e : Nat) : (s.count d e).lag = s.lag := rfl
@[simp] theorem State.count_serial (s : State) (d e : Nat) : (s.count d e).serial = s.serial := rfl

/-! ### emit -/

@[simp] theorem State.emit_mem (s : State) (o : Output) : (s.emit o).mem = s.mem := rfl
@[simp] theorem State.emit_full (s : State) (o : Output) : (s.emit o).full = s.full := rfl
@[simp] theorem State.emit_poison (s : State) (o : Output) : (s.emit o).poison = s.poison := rfl
@[simp] theorem State.emit_peerCode (s : State) (o : Output) : (s.emit o).peerCode = s.peerCode := rfl
@[simp] theorem State.emit_fibres (s : State) (o : Output) : (s.emit o).fibres = s.fibres := rfl
@[simp] theorem State.emit_flocks (s : State) (o : Output) : (s.emit o).flocks = s.flocks := rfl
@[simp] theorem State.emit_reqs (s : State) (o : Output) : (s.emit o).reqs = s.reqs := rfl
@[simp] theorem State.emit_aq (s : State) (o : Output) : (s.emit o).aq = s.aq := rfl
@[simp] theorem State.emit_hist (s : State) (o : Output) : (s.emit o).hist = s.hist := rfl
@[simp] theorem State.emit_kn (s : State) (o : Output) : (s.emit o).kn = s.kn := rfl
@[simp] theorem State.emit_shares (s : State) (o : Output) : (s.emit o).shares = s.shares := rfl
@[simp] theorem State.emit_sgen (s : State) (o : Output) : (s.emit o).sgen = s.sgen := rfl
@[simp] theorem State.emit_saved (s : State) (o : Output) : (s.emit o).saved = s.saved := rfl
@[simp] theorem State.emit_remains (s : State) (o : Output) : (s.emit o).remains = s.remains := rfl
@[simp] theorem State.emit_loans (s : State) (o : Output) : (s.emit o).loans = s.loans := rfl
@[simp] theorem State.emit_quarters (s : State) (o : Output) : (s.emit o).quarters = s.quarters := rfl
@[simp] theorem State.emit_tiles (s : State) (o : Output) : (s.emit o).tiles = s.tiles := rfl
@[simp] theorem State.emit_eops (s : State) (o : Output) : (s.emit o).eops = s.eops := rfl
@[simp] theorem State.emit_fetches (s : State) (o : Output) : (s.emit o).fetches = s.fetches := rfl
@[simp] theorem State.emit_lines (s : State) (o : Output) : (s.emit o).lines = s.lines := rfl
@[simp] theorem State.emit_hbits (s : State) (o : Output) : (s.emit o).hbits = s.hbits := rfl
@[simp] theorem State.emit_l1 (s : State) (o : Output) : (s.emit o).l1 = s.l1 := rfl
@[simp] theorem State.emit_predict (s : State) (o : Output) : (s.emit o).predict = s.predict := rfl
@[simp] theorem State.emit_floors (s : State) (o : Output) : (s.emit o).floors = s.floors := rfl
@[simp] theorem State.emit_pages (s : State) (o : Output) : (s.emit o).pages = s.pages := rfl
@[simp] theorem State.emit_smap (s : State) (o : Output) : (s.emit o).smap = s.smap := rfl
@[simp] theorem State.emit_smapGen (s : State) (o : Output) : (s.emit o).smapGen = s.smapGen := rfl
@[simp] theorem State.emit_grace (s : State) (o : Output) : (s.emit o).grace = s.grace := rfl
@[simp] theorem State.emit_frozen (s : State) (o : Output) : (s.emit o).frozen = s.frozen := rfl
@[simp] theorem State.emit_leafCnt (s : State) (o : Output) : (s.emit o).leafCnt = s.leafCnt := rfl
@[simp] theorem State.emit_staleSlots (s : State) (o : Output) : (s.emit o).staleSlots = s.staleSlots := rfl
@[simp] theorem State.emit_hostCommits (s : State) (o : Output) : (s.emit o).hostCommits = s.hostCommits := rfl
@[simp] theorem State.emit_pending (s : State) (o : Output) : (s.emit o).pending = s.pending := rfl
@[simp] theorem State.emit_ctxs (s : State) (o : Output) : (s.emit o).ctxs = s.ctxs := rfl
@[simp] theorem State.emit_steal (s : State) (o : Output) : (s.emit o).steal = s.steal := rfl
@[simp] theorem State.emit_stolen (s : State) (o : Output) : (s.emit o).stolen = s.stolen := rfl
@[simp] theorem State.emit_regs (s : State) (o : Output) : (s.emit o).regs = s.regs := rfl
@[simp] theorem State.emit_wins (s : State) (o : Output) : (s.emit o).wins = s.wins := rfl
@[simp] theorem State.emit_carts (s : State) (o : Output) : (s.emit o).carts = s.carts := rfl
@[simp] theorem State.emit_chans (s : State) (o : Output) : (s.emit o).chans = s.chans := rfl
@[simp] theorem State.emit_unacked (s : State) (o : Output) : (s.emit o).unacked = s.unacked := rfl
@[simp] theorem State.emit_rfqWait (s : State) (o : Output) : (s.emit o).rfqWait = s.rfqWait := rfl
@[simp] theorem State.emit_hostWids (s : State) (o : Output) : (s.emit o).hostWids = s.hostWids := rfl
@[simp] theorem State.emit_hostHeld (s : State) (o : Output) : (s.emit o).hostHeld = s.hostHeld := rfl
@[simp] theorem State.emit_acks (s : State) (o : Output) : (s.emit o).acks = s.acks := rfl
@[simp] theorem State.emit_outbox (s : State) (o : Output) : (s.emit o).outbox = s.outbox := rfl
@[simp] theorem State.emit_remaps (s : State) (o : Output) : (s.emit o).remaps = s.remaps := rfl
@[simp] theorem State.emit_openTags (s : State) (o : Output) : (s.emit o).openTags = s.openTags := rfl
@[simp] theorem State.emit_imports (s : State) (o : Output) : (s.emit o).imports = s.imports := rfl
@[simp] theorem State.emit_probes (s : State) (o : Output) : (s.emit o).probes = s.probes := rfl
@[simp] theorem State.emit_lostOn (s : State) (o : Output) : (s.emit o).lostOn = s.lostOn := rfl
@[simp] theorem State.emit_ports (s : State) (o : Output) : (s.emit o).ports = s.ports := rfl
@[simp] theorem State.emit_hot (s : State) (o : Output) : (s.emit o).hot = s.hot := rfl
@[simp] theorem State.emit_recvSeq (s : State) (o : Output) : (s.emit o).recvSeq = s.recvSeq := rfl
@[simp] theorem State.emit_monitors (s : State) (o : Output) : (s.emit o).monitors = s.monitors := rfl
@[simp] theorem State.emit_stopSeq (s : State) (o : Output) : (s.emit o).stopSeq = s.stopSeq := rfl
@[simp] theorem State.emit_traceSeq (s : State) (o : Output) : (s.emit o).traceSeq = s.traceSeq := rfl
@[simp] theorem State.emit_dbgCount (s : State) (o : Output) : (s.emit o).dbgCount = s.dbgCount := rfl
@[simp] theorem State.emit_stallOut (s : State) (o : Output) : (s.emit o).stallOut = s.stallOut := rfl
@[simp] theorem State.emit_lastUnit (s : State) (o : Output) : (s.emit o).lastUnit = s.lastUnit := rfl
@[simp] theorem State.emit_keys (s : State) (o : Output) : (s.emit o).keys = s.keys := rfl
@[simp] theorem State.emit_hwm (s : State) (o : Output) : (s.emit o).hwm = s.hwm := rfl
@[simp] theorem State.emit_keks (s : State) (o : Output) : (s.emit o).keks = s.keks := rfl
@[simp] theorem State.emit_meas (s : State) (o : Output) : (s.emit o).meas = s.meas := rfl
@[simp] theorem State.emit_reportSeq (s : State) (o : Output) : (s.emit o).reportSeq = s.reportSeq := rfl
@[simp] theorem State.emit_boots (s : State) (o : Output) : (s.emit o).boots = s.boots := rfl
@[simp] theorem State.emit_booted (s : State) (o : Output) : (s.emit o).booted = s.booted := rfl
@[simp] theorem State.emit_bootFailed (s : State) (o : Output) : (s.emit o).bootFailed = s.bootFailed := rfl
@[simp] theorem State.emit_curfew (s : State) (o : Output) : (s.emit o).curfew = s.curfew := rfl
@[simp] theorem State.emit_tapIr (s : State) (o : Output) : (s.emit o).tapIr = s.tapIr := rfl
@[simp] theorem State.emit_saddr (s : State) (o : Output) : (s.emit o).saddr = s.saddr := rfl
@[simp] theorem State.emit_boundary (s : State) (o : Output) : (s.emit o).boundary = s.boundary := rfl
@[simp] theorem State.emit_now (s : State) (o : Output) : (s.emit o).now = s.now := rfl
@[simp] theorem State.emit_cyc (s : State) (o : Output) : (s.emit o).cyc = s.cyc := rfl
@[simp] theorem State.emit_out (s : State) (o : Output) : (s.emit o).out = o :: s.out := rfl
@[simp] theorem State.emit_agenda (s : State) (o : Output) : (s.emit o).agenda = s.agenda := rfl
@[simp] theorem State.emit_leaving (s : State) (o : Output) : (s.emit o).leaving = s.leaving := rfl
@[simp] theorem State.emit_cur (s : State) (o : Output) : (s.emit o).cur = s.cur := rfl
@[simp] theorem State.emit_pace (s : State) (o : Output) : (s.emit o).pace = s.pace := rfl
@[simp] theorem State.emit_lag (s : State) (o : Output) : (s.emit o).lag = s.lag := rfl
@[simp] theorem State.emit_serial (s : State) (o : Output) : (s.emit o).serial = s.serial := rfl

/-! ### bump -/

@[simp] theorem State.bump_mem (s : State) : (s.bump).mem = s.mem := rfl
@[simp] theorem State.bump_full (s : State) : (s.bump).full = s.full := rfl
@[simp] theorem State.bump_poison (s : State) : (s.bump).poison = s.poison := rfl
@[simp] theorem State.bump_peerCode (s : State) : (s.bump).peerCode = s.peerCode := rfl
@[simp] theorem State.bump_fibres (s : State) : (s.bump).fibres = s.fibres := rfl
@[simp] theorem State.bump_flocks (s : State) : (s.bump).flocks = s.flocks := rfl
@[simp] theorem State.bump_reqs (s : State) : (s.bump).reqs = s.reqs := rfl
@[simp] theorem State.bump_aq (s : State) : (s.bump).aq = s.aq := rfl
@[simp] theorem State.bump_hist (s : State) : (s.bump).hist = s.hist := rfl
@[simp] theorem State.bump_kn (s : State) : (s.bump).kn = s.kn := rfl
@[simp] theorem State.bump_shares (s : State) : (s.bump).shares = s.shares := rfl
@[simp] theorem State.bump_sgen (s : State) : (s.bump).sgen = s.sgen := rfl
@[simp] theorem State.bump_saved (s : State) : (s.bump).saved = s.saved := rfl
@[simp] theorem State.bump_remains (s : State) : (s.bump).remains = s.remains := rfl
@[simp] theorem State.bump_loans (s : State) : (s.bump).loans = s.loans := rfl
@[simp] theorem State.bump_quarters (s : State) : (s.bump).quarters = s.quarters := rfl
@[simp] theorem State.bump_tiles (s : State) : (s.bump).tiles = s.tiles := rfl
@[simp] theorem State.bump_eops (s : State) : (s.bump).eops = s.eops := rfl
@[simp] theorem State.bump_fetches (s : State) : (s.bump).fetches = s.fetches := rfl
@[simp] theorem State.bump_lines (s : State) : (s.bump).lines = s.lines := rfl
@[simp] theorem State.bump_hbits (s : State) : (s.bump).hbits = s.hbits := rfl
@[simp] theorem State.bump_l1 (s : State) : (s.bump).l1 = s.l1 := rfl
@[simp] theorem State.bump_predict (s : State) : (s.bump).predict = s.predict := rfl
@[simp] theorem State.bump_floors (s : State) : (s.bump).floors = s.floors := rfl
@[simp] theorem State.bump_pages (s : State) : (s.bump).pages = s.pages := rfl
@[simp] theorem State.bump_smap (s : State) : (s.bump).smap = s.smap := rfl
@[simp] theorem State.bump_smapGen (s : State) : (s.bump).smapGen = s.smapGen := rfl
@[simp] theorem State.bump_grace (s : State) : (s.bump).grace = s.grace := rfl
@[simp] theorem State.bump_frozen (s : State) : (s.bump).frozen = s.frozen := rfl
@[simp] theorem State.bump_leafCnt (s : State) : (s.bump).leafCnt = s.leafCnt := rfl
@[simp] theorem State.bump_staleSlots (s : State) : (s.bump).staleSlots = s.staleSlots := rfl
@[simp] theorem State.bump_hostCommits (s : State) : (s.bump).hostCommits = s.hostCommits := rfl
@[simp] theorem State.bump_pending (s : State) : (s.bump).pending = s.pending := rfl
@[simp] theorem State.bump_ctxs (s : State) : (s.bump).ctxs = s.ctxs := rfl
@[simp] theorem State.bump_steal (s : State) : (s.bump).steal = s.steal := rfl
@[simp] theorem State.bump_stolen (s : State) : (s.bump).stolen = s.stolen := rfl
@[simp] theorem State.bump_regs (s : State) : (s.bump).regs = s.regs := rfl
@[simp] theorem State.bump_wins (s : State) : (s.bump).wins = s.wins := rfl
@[simp] theorem State.bump_carts (s : State) : (s.bump).carts = s.carts := rfl
@[simp] theorem State.bump_chans (s : State) : (s.bump).chans = s.chans := rfl
@[simp] theorem State.bump_unacked (s : State) : (s.bump).unacked = s.unacked := rfl
@[simp] theorem State.bump_rfqWait (s : State) : (s.bump).rfqWait = s.rfqWait := rfl
@[simp] theorem State.bump_hostWids (s : State) : (s.bump).hostWids = s.hostWids := rfl
@[simp] theorem State.bump_hostHeld (s : State) : (s.bump).hostHeld = s.hostHeld := rfl
@[simp] theorem State.bump_acks (s : State) : (s.bump).acks = s.acks := rfl
@[simp] theorem State.bump_outbox (s : State) : (s.bump).outbox = s.outbox := rfl
@[simp] theorem State.bump_remaps (s : State) : (s.bump).remaps = s.remaps := rfl
@[simp] theorem State.bump_openTags (s : State) : (s.bump).openTags = s.openTags := rfl
@[simp] theorem State.bump_imports (s : State) : (s.bump).imports = s.imports := rfl
@[simp] theorem State.bump_probes (s : State) : (s.bump).probes = s.probes := rfl
@[simp] theorem State.bump_lostOn (s : State) : (s.bump).lostOn = s.lostOn := rfl
@[simp] theorem State.bump_ports (s : State) : (s.bump).ports = s.ports := rfl
@[simp] theorem State.bump_hot (s : State) : (s.bump).hot = s.hot := rfl
@[simp] theorem State.bump_recvSeq (s : State) : (s.bump).recvSeq = s.recvSeq := rfl
@[simp] theorem State.bump_monitors (s : State) : (s.bump).monitors = s.monitors := rfl
@[simp] theorem State.bump_stopSeq (s : State) : (s.bump).stopSeq = s.stopSeq := rfl
@[simp] theorem State.bump_traceSeq (s : State) : (s.bump).traceSeq = s.traceSeq := rfl
@[simp] theorem State.bump_dbgCount (s : State) : (s.bump).dbgCount = s.dbgCount := rfl
@[simp] theorem State.bump_stallOut (s : State) : (s.bump).stallOut = s.stallOut := rfl
@[simp] theorem State.bump_lastUnit (s : State) : (s.bump).lastUnit = s.lastUnit := rfl
@[simp] theorem State.bump_keys (s : State) : (s.bump).keys = s.keys := rfl
@[simp] theorem State.bump_hwm (s : State) : (s.bump).hwm = s.hwm := rfl
@[simp] theorem State.bump_keks (s : State) : (s.bump).keks = s.keks := rfl
@[simp] theorem State.bump_meas (s : State) : (s.bump).meas = s.meas := rfl
@[simp] theorem State.bump_reportSeq (s : State) : (s.bump).reportSeq = s.reportSeq := rfl
@[simp] theorem State.bump_boots (s : State) : (s.bump).boots = s.boots := rfl
@[simp] theorem State.bump_booted (s : State) : (s.bump).booted = s.booted := rfl
@[simp] theorem State.bump_bootFailed (s : State) : (s.bump).bootFailed = s.bootFailed := rfl
@[simp] theorem State.bump_curfew (s : State) : (s.bump).curfew = s.curfew := rfl
@[simp] theorem State.bump_tapIr (s : State) : (s.bump).tapIr = s.tapIr := rfl
@[simp] theorem State.bump_saddr (s : State) : (s.bump).saddr = s.saddr := rfl
@[simp] theorem State.bump_boundary (s : State) : (s.bump).boundary = s.boundary := rfl
@[simp] theorem State.bump_now (s : State) : (s.bump).now = s.now := rfl
@[simp] theorem State.bump_cyc (s : State) : (s.bump).cyc = s.cyc := rfl
@[simp] theorem State.bump_out (s : State) : (s.bump).out = s.out := rfl
@[simp] theorem State.bump_agenda (s : State) : (s.bump).agenda = s.agenda := rfl
@[simp] theorem State.bump_leaving (s : State) : (s.bump).leaving = s.leaving := rfl
@[simp] theorem State.bump_cur (s : State) : (s.bump).cur = s.cur := rfl
@[simp] theorem State.bump_pace (s : State) : (s.bump).pace = s.pace := rfl
@[simp] theorem State.bump_lag (s : State) : (s.bump).lag = s.lag := rfl
@[simp] theorem State.bump_serial (s : State) : (s.bump).serial = s.serial + 1 := rfl

/-! ### updShare -/

@[simp] theorem State.updShare_mem (s : State) (k : Nat) (g : Household → Household) : (s.updShare k g).mem = s.mem := by unfold State.updShare; split <;> rfl
@[simp] theorem State.updShare_full (s : State) (k : Nat) (g : Household → Household) : (s.updShare k g).full = s.full := by unfold State.updShare; split <;> rfl
@[simp] theorem State.updShare_poison (s : State) (k : Nat) (g : Household → Household) : (s.updShare k g).poison = s.poison := by unfold State.updShare; split <;> rfl
@[simp] theorem State.updShare_peerCode (s : State) (k : Nat) (g : Household → Household) : (s.updShare k g).peerCode = s.peerCode := by unfold State.updShare; split <;> rfl
@[simp] theorem State.updShare_fibres (s : State) (k : Nat) (g : Household → Household) : (s.updShare k g).fibres = s.fibres := by unfold State.updShare; split <;> rfl
@[simp] theorem State.updShare_flocks (s : State) (k : Nat) (g : Household → Household) : (s.updShare k g).flocks = s.flocks := by unfold State.updShare; split <;> rfl
@[simp] theorem State.updShare_reqs (s : State) (k : Nat) (g : Household → Household) : (s.updShare k g).reqs = s.reqs := by unfold State.updShare; split <;> rfl
@[simp] theorem State.updShare_aq (s : State) (k : Nat) (g : Household → Household) : (s.updShare k g).aq = s.aq := by unfold State.updShare; split <;> rfl
@[simp] theorem State.updShare_hist (s : State) (k : Nat) (g : Household → Household) : (s.updShare k g).hist = s.hist := by unfold State.updShare; split <;> rfl
@[simp] theorem State.updShare_kn (s : State) (k : Nat) (g : Household → Household) : (s.updShare k g).kn = s.kn := by unfold State.updShare; split <;> rfl
@[simp] theorem State.updShare_sgen (s : State) (k : Nat) (g : Household → Household) : (s.updShare k g).sgen = s.sgen := by unfold State.updShare; split <;> rfl
@[simp] theorem State.updShare_saved (s : State) (k : Nat) (g : Household → Household) : (s.updShare k g).saved = s.saved := by unfold State.updShare; split <;> rfl
@[simp] theorem State.updShare_remains (s : State) (k : Nat) (g : Household → Household) : (s.updShare k g).remains = s.remains := by unfold State.updShare; split <;> rfl
@[simp] theorem State.updShare_loans (s : State) (k : Nat) (g : Household → Household) : (s.updShare k g).loans = s.loans := by unfold State.updShare; split <;> rfl
@[simp] theorem State.updShare_quarters (s : State) (k : Nat) (g : Household → Household) : (s.updShare k g).quarters = s.quarters := by unfold State.updShare; split <;> rfl
@[simp] theorem State.updShare_tiles (s : State) (k : Nat) (g : Household → Household) : (s.updShare k g).tiles = s.tiles := by unfold State.updShare; split <;> rfl
@[simp] theorem State.updShare_eops (s : State) (k : Nat) (g : Household → Household) : (s.updShare k g).eops = s.eops := by unfold State.updShare; split <;> rfl
@[simp] theorem State.updShare_fetches (s : State) (k : Nat) (g : Household → Household) : (s.updShare k g).fetches = s.fetches := by unfold State.updShare; split <;> rfl
@[simp] theorem State.updShare_lines (s : State) (k : Nat) (g : Household → Household) : (s.updShare k g).lines = s.lines := by unfold State.updShare; split <;> rfl
@[simp] theorem State.updShare_hbits (s : State) (k : Nat) (g : Household → Household) : (s.updShare k g).hbits = s.hbits := by unfold State.updShare; split <;> rfl
@[simp] theorem State.updShare_l1 (s : State) (k : Nat) (g : Household → Household) : (s.updShare k g).l1 = s.l1 := by unfold State.updShare; split <;> rfl
@[simp] theorem State.updShare_predict (s : State) (k : Nat) (g : Household → Household) : (s.updShare k g).predict = s.predict := by unfold State.updShare; split <;> rfl
@[simp] theorem State.updShare_floors (s : State) (k : Nat) (g : Household → Household) : (s.updShare k g).floors = s.floors := by unfold State.updShare; split <;> rfl
@[simp] theorem State.updShare_pages (s : State) (k : Nat) (g : Household → Household) : (s.updShare k g).pages = s.pages := by unfold State.updShare; split <;> rfl
@[simp] theorem State.updShare_smap (s : State) (k : Nat) (g : Household → Household) : (s.updShare k g).smap = s.smap := by unfold State.updShare; split <;> rfl
@[simp] theorem State.updShare_smapGen (s : State) (k : Nat) (g : Household → Household) : (s.updShare k g).smapGen = s.smapGen := by unfold State.updShare; split <;> rfl
@[simp] theorem State.updShare_grace (s : State) (k : Nat) (g : Household → Household) : (s.updShare k g).grace = s.grace := by unfold State.updShare; split <;> rfl
@[simp] theorem State.updShare_frozen (s : State) (k : Nat) (g : Household → Household) : (s.updShare k g).frozen = s.frozen := by unfold State.updShare; split <;> rfl
@[simp] theorem State.updShare_leafCnt (s : State) (k : Nat) (g : Household → Household) : (s.updShare k g).leafCnt = s.leafCnt := by unfold State.updShare; split <;> rfl
@[simp] theorem State.updShare_staleSlots (s : State) (k : Nat) (g : Household → Household) : (s.updShare k g).staleSlots = s.staleSlots := by unfold State.updShare; split <;> rfl
@[simp] theorem State.updShare_hostCommits (s : State) (k : Nat) (g : Household → Household) : (s.updShare k g).hostCommits = s.hostCommits := by unfold State.updShare; split <;> rfl
@[simp] theorem State.updShare_pending (s : State) (k : Nat) (g : Household → Household) : (s.updShare k g).pending = s.pending := by unfold State.updShare; split <;> rfl
@[simp] theorem State.updShare_ctxs (s : State) (k : Nat) (g : Household → Household) : (s.updShare k g).ctxs = s.ctxs := by unfold State.updShare; split <;> rfl
@[simp] theorem State.updShare_steal (s : State) (k : Nat) (g : Household → Household) : (s.updShare k g).steal = s.steal := by unfold State.updShare; split <;> rfl
@[simp] theorem State.updShare_stolen (s : State) (k : Nat) (g : Household → Household) : (s.updShare k g).stolen = s.stolen := by unfold State.updShare; split <;> rfl
@[simp] theorem State.updShare_regs (s : State) (k : Nat) (g : Household → Household) : (s.updShare k g).regs = s.regs := by unfold State.updShare; split <;> rfl
@[simp] theorem State.updShare_wins (s : State) (k : Nat) (g : Household → Household) : (s.updShare k g).wins = s.wins := by unfold State.updShare; split <;> rfl
@[simp] theorem State.updShare_carts (s : State) (k : Nat) (g : Household → Household) : (s.updShare k g).carts = s.carts := by unfold State.updShare; split <;> rfl
@[simp] theorem State.updShare_chans (s : State) (k : Nat) (g : Household → Household) : (s.updShare k g).chans = s.chans := by unfold State.updShare; split <;> rfl
@[simp] theorem State.updShare_unacked (s : State) (k : Nat) (g : Household → Household) : (s.updShare k g).unacked = s.unacked := by unfold State.updShare; split <;> rfl
@[simp] theorem State.updShare_rfqWait (s : State) (k : Nat) (g : Household → Household) : (s.updShare k g).rfqWait = s.rfqWait := by unfold State.updShare; split <;> rfl
@[simp] theorem State.updShare_hostWids (s : State) (k : Nat) (g : Household → Household) : (s.updShare k g).hostWids = s.hostWids := by unfold State.updShare; split <;> rfl
@[simp] theorem State.updShare_hostHeld (s : State) (k : Nat) (g : Household → Household) : (s.updShare k g).hostHeld = s.hostHeld := by unfold State.updShare; split <;> rfl
@[simp] theorem State.updShare_acks (s : State) (k : Nat) (g : Household → Household) : (s.updShare k g).acks = s.acks := by unfold State.updShare; split <;> rfl
@[simp] theorem State.updShare_outbox (s : State) (k : Nat) (g : Household → Household) : (s.updShare k g).outbox = s.outbox := by unfold State.updShare; split <;> rfl
@[simp] theorem State.updShare_remaps (s : State) (k : Nat) (g : Household → Household) : (s.updShare k g).remaps = s.remaps := by unfold State.updShare; split <;> rfl
@[simp] theorem State.updShare_openTags (s : State) (k : Nat) (g : Household → Household) : (s.updShare k g).openTags = s.openTags := by unfold State.updShare; split <;> rfl
@[simp] theorem State.updShare_imports (s : State) (k : Nat) (g : Household → Household) : (s.updShare k g).imports = s.imports := by unfold State.updShare; split <;> rfl
@[simp] theorem State.updShare_probes (s : State) (k : Nat) (g : Household → Household) : (s.updShare k g).probes = s.probes := by unfold State.updShare; split <;> rfl
@[simp] theorem State.updShare_lostOn (s : State) (k : Nat) (g : Household → Household) : (s.updShare k g).lostOn = s.lostOn := by unfold State.updShare; split <;> rfl
@[simp] theorem State.updShare_ports (s : State) (k : Nat) (g : Household → Household) : (s.updShare k g).ports = s.ports := by unfold State.updShare; split <;> rfl
@[simp] theorem State.updShare_hot (s : State) (k : Nat) (g : Household → Household) : (s.updShare k g).hot = s.hot := by unfold State.updShare; split <;> rfl
@[simp] theorem State.updShare_recvSeq (s : State) (k : Nat) (g : Household → Household) : (s.updShare k g).recvSeq = s.recvSeq := by unfold State.updShare; split <;> rfl
@[simp] theorem State.updShare_monitors (s : State) (k : Nat) (g : Household → Household) : (s.updShare k g).monitors = s.monitors := by unfold State.updShare; split <;> rfl
@[simp] theorem State.updShare_stopSeq (s : State) (k : Nat) (g : Household → Household) : (s.updShare k g).stopSeq = s.stopSeq := by unfold State.updShare; split <;> rfl
@[simp] theorem State.updShare_traceSeq (s : State) (k : Nat) (g : Household → Household) : (s.updShare k g).traceSeq = s.traceSeq := by unfold State.updShare; split <;> rfl
@[simp] theorem State.updShare_dbgCount (s : State) (k : Nat) (g : Household → Household) : (s.updShare k g).dbgCount = s.dbgCount := by unfold State.updShare; split <;> rfl
@[simp] theorem State.updShare_stallOut (s : State) (k : Nat) (g : Household → Household) : (s.updShare k g).stallOut = s.stallOut := by unfold State.updShare; split <;> rfl
@[simp] theorem State.updShare_lastUnit (s : State) (k : Nat) (g : Household → Household) : (s.updShare k g).lastUnit = s.lastUnit := by unfold State.updShare; split <;> rfl
@[simp] theorem State.updShare_keys (s : State) (k : Nat) (g : Household → Household) : (s.updShare k g).keys = s.keys := by unfold State.updShare; split <;> rfl
@[simp] theorem State.updShare_hwm (s : State) (k : Nat) (g : Household → Household) : (s.updShare k g).hwm = s.hwm := by unfold State.updShare; split <;> rfl
@[simp] theorem State.updShare_keks (s : State) (k : Nat) (g : Household → Household) : (s.updShare k g).keks = s.keks := by unfold State.updShare; split <;> rfl
@[simp] theorem State.updShare_meas (s : State) (k : Nat) (g : Household → Household) : (s.updShare k g).meas = s.meas := by unfold State.updShare; split <;> rfl
@[simp] theorem State.updShare_reportSeq (s : State) (k : Nat) (g : Household → Household) : (s.updShare k g).reportSeq = s.reportSeq := by unfold State.updShare; split <;> rfl
@[simp] theorem State.updShare_boots (s : State) (k : Nat) (g : Household → Household) : (s.updShare k g).boots = s.boots := by unfold State.updShare; split <;> rfl
@[simp] theorem State.updShare_booted (s : State) (k : Nat) (g : Household → Household) : (s.updShare k g).booted = s.booted := by unfold State.updShare; split <;> rfl
@[simp] theorem State.updShare_bootFailed (s : State) (k : Nat) (g : Household → Household) : (s.updShare k g).bootFailed = s.bootFailed := by unfold State.updShare; split <;> rfl
@[simp] theorem State.updShare_curfew (s : State) (k : Nat) (g : Household → Household) : (s.updShare k g).curfew = s.curfew := by unfold State.updShare; split <;> rfl
@[simp] theorem State.updShare_tapIr (s : State) (k : Nat) (g : Household → Household) : (s.updShare k g).tapIr = s.tapIr := by unfold State.updShare; split <;> rfl
@[simp] theorem State.updShare_saddr (s : State) (k : Nat) (g : Household → Household) : (s.updShare k g).saddr = s.saddr := by unfold State.updShare; split <;> rfl
@[simp] theorem State.updShare_boundary (s : State) (k : Nat) (g : Household → Household) : (s.updShare k g).boundary = s.boundary := by unfold State.updShare; split <;> rfl
@[simp] theorem State.updShare_now (s : State) (k : Nat) (g : Household → Household) : (s.updShare k g).now = s.now := by unfold State.updShare; split <;> rfl
@[simp] theorem State.updShare_cyc (s : State) (k : Nat) (g : Household → Household) : (s.updShare k g).cyc = s.cyc := by unfold State.updShare; split <;> rfl
@[simp] theorem State.updShare_out (s : State) (k : Nat) (g : Household → Household) : (s.updShare k g).out = s.out := by unfold State.updShare; split <;> rfl
@[simp] theorem State.updShare_agenda (s : State) (k : Nat) (g : Household → Household) : (s.updShare k g).agenda = s.agenda := by unfold State.updShare; split <;> rfl
@[simp] theorem State.updShare_leaving (s : State) (k : Nat) (g : Household → Household) : (s.updShare k g).leaving = s.leaving := by unfold State.updShare; split <;> rfl
@[simp] theorem State.updShare_cur (s : State) (k : Nat) (g : Household → Household) : (s.updShare k g).cur = s.cur := by unfold State.updShare; split <;> rfl
@[simp] theorem State.updShare_pace (s : State) (k : Nat) (g : Household → Household) : (s.updShare k g).pace = s.pace := by unfold State.updShare; split <;> rfl
@[simp] theorem State.updShare_lag (s : State) (k : Nat) (g : Household → Household) : (s.updShare k g).lag = s.lag := by unfold State.updShare; split <;> rfl
@[simp] theorem State.updShare_serial (s : State) (k : Nat) (g : Household → Household) : (s.updShare k g).serial = s.serial := by unfold State.updShare; split <;> rfl

/-! ### updCtx -/

@[simp] theorem State.updCtx_mem (s : State) (k : Nat) (g : Ctx → Ctx) : (s.updCtx k g).mem = s.mem := by unfold State.updCtx; split <;> rfl
@[simp] theorem State.updCtx_full (s : State) (k : Nat) (g : Ctx → Ctx) : (s.updCtx k g).full = s.full := by unfold State.updCtx; split <;> rfl
@[simp] theorem State.updCtx_poison (s : State) (k : Nat) (g : Ctx → Ctx) : (s.updCtx k g).poison = s.poison := by unfold State.updCtx; split <;> rfl
@[simp] theorem State.updCtx_peerCode (s : State) (k : Nat) (g : Ctx → Ctx) : (s.updCtx k g).peerCode = s.peerCode := by unfold State.updCtx; split <;> rfl
@[simp] theorem State.updCtx_fibres (s : State) (k : Nat) (g : Ctx → Ctx) : (s.updCtx k g).fibres = s.fibres := by unfold State.updCtx; split <;> rfl
@[simp] theorem State.updCtx_flocks (s : State) (k : Nat) (g : Ctx → Ctx) : (s.updCtx k g).flocks = s.flocks := by unfold State.updCtx; split <;> rfl
@[simp] theorem State.updCtx_reqs (s : State) (k : Nat) (g : Ctx → Ctx) : (s.updCtx k g).reqs = s.reqs := by unfold State.updCtx; split <;> rfl
@[simp] theorem State.updCtx_aq (s : State) (k : Nat) (g : Ctx → Ctx) : (s.updCtx k g).aq = s.aq := by unfold State.updCtx; split <;> rfl
@[simp] theorem State.updCtx_hist (s : State) (k : Nat) (g : Ctx → Ctx) : (s.updCtx k g).hist = s.hist := by unfold State.updCtx; split <;> rfl
@[simp] theorem State.updCtx_kn (s : State) (k : Nat) (g : Ctx → Ctx) : (s.updCtx k g).kn = s.kn := by unfold State.updCtx; split <;> rfl
@[simp] theorem State.updCtx_shares (s : State) (k : Nat) (g : Ctx → Ctx) : (s.updCtx k g).shares = s.shares := by unfold State.updCtx; split <;> rfl
@[simp] theorem State.updCtx_sgen (s : State) (k : Nat) (g : Ctx → Ctx) : (s.updCtx k g).sgen = s.sgen := by unfold State.updCtx; split <;> rfl
@[simp] theorem State.updCtx_saved (s : State) (k : Nat) (g : Ctx → Ctx) : (s.updCtx k g).saved = s.saved := by unfold State.updCtx; split <;> rfl
@[simp] theorem State.updCtx_remains (s : State) (k : Nat) (g : Ctx → Ctx) : (s.updCtx k g).remains = s.remains := by unfold State.updCtx; split <;> rfl
@[simp] theorem State.updCtx_loans (s : State) (k : Nat) (g : Ctx → Ctx) : (s.updCtx k g).loans = s.loans := by unfold State.updCtx; split <;> rfl
@[simp] theorem State.updCtx_quarters (s : State) (k : Nat) (g : Ctx → Ctx) : (s.updCtx k g).quarters = s.quarters := by unfold State.updCtx; split <;> rfl
@[simp] theorem State.updCtx_tiles (s : State) (k : Nat) (g : Ctx → Ctx) : (s.updCtx k g).tiles = s.tiles := by unfold State.updCtx; split <;> rfl
@[simp] theorem State.updCtx_eops (s : State) (k : Nat) (g : Ctx → Ctx) : (s.updCtx k g).eops = s.eops := by unfold State.updCtx; split <;> rfl
@[simp] theorem State.updCtx_fetches (s : State) (k : Nat) (g : Ctx → Ctx) : (s.updCtx k g).fetches = s.fetches := by unfold State.updCtx; split <;> rfl
@[simp] theorem State.updCtx_lines (s : State) (k : Nat) (g : Ctx → Ctx) : (s.updCtx k g).lines = s.lines := by unfold State.updCtx; split <;> rfl
@[simp] theorem State.updCtx_hbits (s : State) (k : Nat) (g : Ctx → Ctx) : (s.updCtx k g).hbits = s.hbits := by unfold State.updCtx; split <;> rfl
@[simp] theorem State.updCtx_l1 (s : State) (k : Nat) (g : Ctx → Ctx) : (s.updCtx k g).l1 = s.l1 := by unfold State.updCtx; split <;> rfl
@[simp] theorem State.updCtx_predict (s : State) (k : Nat) (g : Ctx → Ctx) : (s.updCtx k g).predict = s.predict := by unfold State.updCtx; split <;> rfl
@[simp] theorem State.updCtx_floors (s : State) (k : Nat) (g : Ctx → Ctx) : (s.updCtx k g).floors = s.floors := by unfold State.updCtx; split <;> rfl
@[simp] theorem State.updCtx_pages (s : State) (k : Nat) (g : Ctx → Ctx) : (s.updCtx k g).pages = s.pages := by unfold State.updCtx; split <;> rfl
@[simp] theorem State.updCtx_smap (s : State) (k : Nat) (g : Ctx → Ctx) : (s.updCtx k g).smap = s.smap := by unfold State.updCtx; split <;> rfl
@[simp] theorem State.updCtx_smapGen (s : State) (k : Nat) (g : Ctx → Ctx) : (s.updCtx k g).smapGen = s.smapGen := by unfold State.updCtx; split <;> rfl
@[simp] theorem State.updCtx_grace (s : State) (k : Nat) (g : Ctx → Ctx) : (s.updCtx k g).grace = s.grace := by unfold State.updCtx; split <;> rfl
@[simp] theorem State.updCtx_frozen (s : State) (k : Nat) (g : Ctx → Ctx) : (s.updCtx k g).frozen = s.frozen := by unfold State.updCtx; split <;> rfl
@[simp] theorem State.updCtx_leafCnt (s : State) (k : Nat) (g : Ctx → Ctx) : (s.updCtx k g).leafCnt = s.leafCnt := by unfold State.updCtx; split <;> rfl
@[simp] theorem State.updCtx_staleSlots (s : State) (k : Nat) (g : Ctx → Ctx) : (s.updCtx k g).staleSlots = s.staleSlots := by unfold State.updCtx; split <;> rfl
@[simp] theorem State.updCtx_hostCommits (s : State) (k : Nat) (g : Ctx → Ctx) : (s.updCtx k g).hostCommits = s.hostCommits := by unfold State.updCtx; split <;> rfl
@[simp] theorem State.updCtx_pending (s : State) (k : Nat) (g : Ctx → Ctx) : (s.updCtx k g).pending = s.pending := by unfold State.updCtx; split <;> rfl
@[simp] theorem State.updCtx_steal (s : State) (k : Nat) (g : Ctx → Ctx) : (s.updCtx k g).steal = s.steal := by unfold State.updCtx; split <;> rfl
@[simp] theorem State.updCtx_stolen (s : State) (k : Nat) (g : Ctx → Ctx) : (s.updCtx k g).stolen = s.stolen := by unfold State.updCtx; split <;> rfl
@[simp] theorem State.updCtx_regs (s : State) (k : Nat) (g : Ctx → Ctx) : (s.updCtx k g).regs = s.regs := by unfold State.updCtx; split <;> rfl
@[simp] theorem State.updCtx_wins (s : State) (k : Nat) (g : Ctx → Ctx) : (s.updCtx k g).wins = s.wins := by unfold State.updCtx; split <;> rfl
@[simp] theorem State.updCtx_carts (s : State) (k : Nat) (g : Ctx → Ctx) : (s.updCtx k g).carts = s.carts := by unfold State.updCtx; split <;> rfl
@[simp] theorem State.updCtx_chans (s : State) (k : Nat) (g : Ctx → Ctx) : (s.updCtx k g).chans = s.chans := by unfold State.updCtx; split <;> rfl
@[simp] theorem State.updCtx_unacked (s : State) (k : Nat) (g : Ctx → Ctx) : (s.updCtx k g).unacked = s.unacked := by unfold State.updCtx; split <;> rfl
@[simp] theorem State.updCtx_rfqWait (s : State) (k : Nat) (g : Ctx → Ctx) : (s.updCtx k g).rfqWait = s.rfqWait := by unfold State.updCtx; split <;> rfl
@[simp] theorem State.updCtx_hostWids (s : State) (k : Nat) (g : Ctx → Ctx) : (s.updCtx k g).hostWids = s.hostWids := by unfold State.updCtx; split <;> rfl
@[simp] theorem State.updCtx_hostHeld (s : State) (k : Nat) (g : Ctx → Ctx) : (s.updCtx k g).hostHeld = s.hostHeld := by unfold State.updCtx; split <;> rfl
@[simp] theorem State.updCtx_acks (s : State) (k : Nat) (g : Ctx → Ctx) : (s.updCtx k g).acks = s.acks := by unfold State.updCtx; split <;> rfl
@[simp] theorem State.updCtx_outbox (s : State) (k : Nat) (g : Ctx → Ctx) : (s.updCtx k g).outbox = s.outbox := by unfold State.updCtx; split <;> rfl
@[simp] theorem State.updCtx_remaps (s : State) (k : Nat) (g : Ctx → Ctx) : (s.updCtx k g).remaps = s.remaps := by unfold State.updCtx; split <;> rfl
@[simp] theorem State.updCtx_openTags (s : State) (k : Nat) (g : Ctx → Ctx) : (s.updCtx k g).openTags = s.openTags := by unfold State.updCtx; split <;> rfl
@[simp] theorem State.updCtx_imports (s : State) (k : Nat) (g : Ctx → Ctx) : (s.updCtx k g).imports = s.imports := by unfold State.updCtx; split <;> rfl
@[simp] theorem State.updCtx_probes (s : State) (k : Nat) (g : Ctx → Ctx) : (s.updCtx k g).probes = s.probes := by unfold State.updCtx; split <;> rfl
@[simp] theorem State.updCtx_lostOn (s : State) (k : Nat) (g : Ctx → Ctx) : (s.updCtx k g).lostOn = s.lostOn := by unfold State.updCtx; split <;> rfl
@[simp] theorem State.updCtx_ports (s : State) (k : Nat) (g : Ctx → Ctx) : (s.updCtx k g).ports = s.ports := by unfold State.updCtx; split <;> rfl
@[simp] theorem State.updCtx_hot (s : State) (k : Nat) (g : Ctx → Ctx) : (s.updCtx k g).hot = s.hot := by unfold State.updCtx; split <;> rfl
@[simp] theorem State.updCtx_recvSeq (s : State) (k : Nat) (g : Ctx → Ctx) : (s.updCtx k g).recvSeq = s.recvSeq := by unfold State.updCtx; split <;> rfl
@[simp] theorem State.updCtx_monitors (s : State) (k : Nat) (g : Ctx → Ctx) : (s.updCtx k g).monitors = s.monitors := by unfold State.updCtx; split <;> rfl
@[simp] theorem State.updCtx_stopSeq (s : State) (k : Nat) (g : Ctx → Ctx) : (s.updCtx k g).stopSeq = s.stopSeq := by unfold State.updCtx; split <;> rfl
@[simp] theorem State.updCtx_traceSeq (s : State) (k : Nat) (g : Ctx → Ctx) : (s.updCtx k g).traceSeq = s.traceSeq := by unfold State.updCtx; split <;> rfl
@[simp] theorem State.updCtx_dbgCount (s : State) (k : Nat) (g : Ctx → Ctx) : (s.updCtx k g).dbgCount = s.dbgCount := by unfold State.updCtx; split <;> rfl
@[simp] theorem State.updCtx_stallOut (s : State) (k : Nat) (g : Ctx → Ctx) : (s.updCtx k g).stallOut = s.stallOut := by unfold State.updCtx; split <;> rfl
@[simp] theorem State.updCtx_lastUnit (s : State) (k : Nat) (g : Ctx → Ctx) : (s.updCtx k g).lastUnit = s.lastUnit := by unfold State.updCtx; split <;> rfl
@[simp] theorem State.updCtx_keys (s : State) (k : Nat) (g : Ctx → Ctx) : (s.updCtx k g).keys = s.keys := by unfold State.updCtx; split <;> rfl
@[simp] theorem State.updCtx_hwm (s : State) (k : Nat) (g : Ctx → Ctx) : (s.updCtx k g).hwm = s.hwm := by unfold State.updCtx; split <;> rfl
@[simp] theorem State.updCtx_keks (s : State) (k : Nat) (g : Ctx → Ctx) : (s.updCtx k g).keks = s.keks := by unfold State.updCtx; split <;> rfl
@[simp] theorem State.updCtx_meas (s : State) (k : Nat) (g : Ctx → Ctx) : (s.updCtx k g).meas = s.meas := by unfold State.updCtx; split <;> rfl
@[simp] theorem State.updCtx_reportSeq (s : State) (k : Nat) (g : Ctx → Ctx) : (s.updCtx k g).reportSeq = s.reportSeq := by unfold State.updCtx; split <;> rfl
@[simp] theorem State.updCtx_boots (s : State) (k : Nat) (g : Ctx → Ctx) : (s.updCtx k g).boots = s.boots := by unfold State.updCtx; split <;> rfl
@[simp] theorem State.updCtx_booted (s : State) (k : Nat) (g : Ctx → Ctx) : (s.updCtx k g).booted = s.booted := by unfold State.updCtx; split <;> rfl
@[simp] theorem State.updCtx_bootFailed (s : State) (k : Nat) (g : Ctx → Ctx) : (s.updCtx k g).bootFailed = s.bootFailed := by unfold State.updCtx; split <;> rfl
@[simp] theorem State.updCtx_curfew (s : State) (k : Nat) (g : Ctx → Ctx) : (s.updCtx k g).curfew = s.curfew := by unfold State.updCtx; split <;> rfl
@[simp] theorem State.updCtx_tapIr (s : State) (k : Nat) (g : Ctx → Ctx) : (s.updCtx k g).tapIr = s.tapIr := by unfold State.updCtx; split <;> rfl
@[simp] theorem State.updCtx_saddr (s : State) (k : Nat) (g : Ctx → Ctx) : (s.updCtx k g).saddr = s.saddr := by unfold State.updCtx; split <;> rfl
@[simp] theorem State.updCtx_boundary (s : State) (k : Nat) (g : Ctx → Ctx) : (s.updCtx k g).boundary = s.boundary := by unfold State.updCtx; split <;> rfl
@[simp] theorem State.updCtx_now (s : State) (k : Nat) (g : Ctx → Ctx) : (s.updCtx k g).now = s.now := by unfold State.updCtx; split <;> rfl
@[simp] theorem State.updCtx_cyc (s : State) (k : Nat) (g : Ctx → Ctx) : (s.updCtx k g).cyc = s.cyc := by unfold State.updCtx; split <;> rfl
@[simp] theorem State.updCtx_out (s : State) (k : Nat) (g : Ctx → Ctx) : (s.updCtx k g).out = s.out := by unfold State.updCtx; split <;> rfl
@[simp] theorem State.updCtx_agenda (s : State) (k : Nat) (g : Ctx → Ctx) : (s.updCtx k g).agenda = s.agenda := by unfold State.updCtx; split <;> rfl
@[simp] theorem State.updCtx_leaving (s : State) (k : Nat) (g : Ctx → Ctx) : (s.updCtx k g).leaving = s.leaving := by unfold State.updCtx; split <;> rfl
@[simp] theorem State.updCtx_cur (s : State) (k : Nat) (g : Ctx → Ctx) : (s.updCtx k g).cur = s.cur := by unfold State.updCtx; split <;> rfl
@[simp] theorem State.updCtx_pace (s : State) (k : Nat) (g : Ctx → Ctx) : (s.updCtx k g).pace = s.pace := by unfold State.updCtx; split <;> rfl
@[simp] theorem State.updCtx_lag (s : State) (k : Nat) (g : Ctx → Ctx) : (s.updCtx k g).lag = s.lag := by unfold State.updCtx; split <;> rfl
@[simp] theorem State.updCtx_serial (s : State) (k : Nat) (g : Ctx → Ctx) : (s.updCtx k g).serial = s.serial := by unfold State.updCtx; split <;> rfl

/-! ### leaveFlock -/

@[simp] theorem State.leaveFlock_mem (s : State) (k : FKey) : (s.leaveFlock k).mem = s.mem := rfl
@[simp] theorem State.leaveFlock_full (s : State) (k : FKey) : (s.leaveFlock k).full = s.full := rfl
@[simp] theorem State.leaveFlock_poison (s : State) (k : FKey) : (s.leaveFlock k).poison = s.poison := rfl
@[simp] theorem State.leaveFlock_peerCode (s : State) (k : FKey) : (s.leaveFlock k).peerCode = s.peerCode := rfl
@[simp] theorem State.leaveFlock_fibres (s : State) (k : FKey) : (s.leaveFlock k).fibres = s.fibres := rfl
@[simp] theorem State.leaveFlock_reqs (s : State) (k : FKey) : (s.leaveFlock k).reqs = s.reqs := rfl
@[simp] theorem State.leaveFlock_aq (s : State) (k : FKey) : (s.leaveFlock k).aq = s.aq := rfl
@[simp] theorem State.leaveFlock_hist (s : State) (k : FKey) : (s.leaveFlock k).hist = s.hist := rfl
@[simp] theorem State.leaveFlock_kn (s : State) (k : FKey) : (s.leaveFlock k).kn = s.kn := rfl
@[simp] theorem State.leaveFlock_shares (s : State) (k : FKey) : (s.leaveFlock k).shares = s.shares := rfl
@[simp] theorem State.leaveFlock_sgen (s : State) (k : FKey) : (s.leaveFlock k).sgen = s.sgen := rfl
@[simp] theorem State.leaveFlock_saved (s : State) (k : FKey) : (s.leaveFlock k).saved = s.saved := rfl
@[simp] theorem State.leaveFlock_remains (s : State) (k : FKey) : (s.leaveFlock k).remains = s.remains := rfl
@[simp] theorem State.leaveFlock_loans (s : State) (k : FKey) : (s.leaveFlock k).loans = s.loans := rfl
@[simp] theorem State.leaveFlock_quarters (s : State) (k : FKey) : (s.leaveFlock k).quarters = s.quarters := rfl
@[simp] theorem State.leaveFlock_tiles (s : State) (k : FKey) : (s.leaveFlock k).tiles = s.tiles := rfl
@[simp] theorem State.leaveFlock_eops (s : State) (k : FKey) : (s.leaveFlock k).eops = s.eops := rfl
@[simp] theorem State.leaveFlock_fetches (s : State) (k : FKey) : (s.leaveFlock k).fetches = s.fetches := rfl
@[simp] theorem State.leaveFlock_lines (s : State) (k : FKey) : (s.leaveFlock k).lines = s.lines := rfl
@[simp] theorem State.leaveFlock_hbits (s : State) (k : FKey) : (s.leaveFlock k).hbits = s.hbits := rfl
@[simp] theorem State.leaveFlock_l1 (s : State) (k : FKey) : (s.leaveFlock k).l1 = s.l1 := rfl
@[simp] theorem State.leaveFlock_predict (s : State) (k : FKey) : (s.leaveFlock k).predict = s.predict := rfl
@[simp] theorem State.leaveFlock_floors (s : State) (k : FKey) : (s.leaveFlock k).floors = s.floors := rfl
@[simp] theorem State.leaveFlock_pages (s : State) (k : FKey) : (s.leaveFlock k).pages = s.pages := rfl
@[simp] theorem State.leaveFlock_smap (s : State) (k : FKey) : (s.leaveFlock k).smap = s.smap := rfl
@[simp] theorem State.leaveFlock_smapGen (s : State) (k : FKey) : (s.leaveFlock k).smapGen = s.smapGen := rfl
@[simp] theorem State.leaveFlock_grace (s : State) (k : FKey) : (s.leaveFlock k).grace = s.grace := rfl
@[simp] theorem State.leaveFlock_frozen (s : State) (k : FKey) : (s.leaveFlock k).frozen = s.frozen := rfl
@[simp] theorem State.leaveFlock_leafCnt (s : State) (k : FKey) : (s.leaveFlock k).leafCnt = s.leafCnt := rfl
@[simp] theorem State.leaveFlock_staleSlots (s : State) (k : FKey) : (s.leaveFlock k).staleSlots = s.staleSlots := rfl
@[simp] theorem State.leaveFlock_hostCommits (s : State) (k : FKey) : (s.leaveFlock k).hostCommits = s.hostCommits := rfl
@[simp] theorem State.leaveFlock_pending (s : State) (k : FKey) : (s.leaveFlock k).pending = s.pending := rfl
@[simp] theorem State.leaveFlock_ctxs (s : State) (k : FKey) : (s.leaveFlock k).ctxs = s.ctxs := rfl
@[simp] theorem State.leaveFlock_steal (s : State) (k : FKey) : (s.leaveFlock k).steal = s.steal := rfl
@[simp] theorem State.leaveFlock_stolen (s : State) (k : FKey) : (s.leaveFlock k).stolen = s.stolen := rfl
@[simp] theorem State.leaveFlock_regs (s : State) (k : FKey) : (s.leaveFlock k).regs = s.regs := rfl
@[simp] theorem State.leaveFlock_wins (s : State) (k : FKey) : (s.leaveFlock k).wins = s.wins := rfl
@[simp] theorem State.leaveFlock_carts (s : State) (k : FKey) : (s.leaveFlock k).carts = s.carts := rfl
@[simp] theorem State.leaveFlock_chans (s : State) (k : FKey) : (s.leaveFlock k).chans = s.chans := rfl
@[simp] theorem State.leaveFlock_unacked (s : State) (k : FKey) : (s.leaveFlock k).unacked = s.unacked := rfl
@[simp] theorem State.leaveFlock_rfqWait (s : State) (k : FKey) : (s.leaveFlock k).rfqWait = s.rfqWait := rfl
@[simp] theorem State.leaveFlock_hostWids (s : State) (k : FKey) : (s.leaveFlock k).hostWids = s.hostWids := rfl
@[simp] theorem State.leaveFlock_hostHeld (s : State) (k : FKey) : (s.leaveFlock k).hostHeld = s.hostHeld := rfl
@[simp] theorem State.leaveFlock_acks (s : State) (k : FKey) : (s.leaveFlock k).acks = s.acks := rfl
@[simp] theorem State.leaveFlock_outbox (s : State) (k : FKey) : (s.leaveFlock k).outbox = s.outbox := rfl
@[simp] theorem State.leaveFlock_remaps (s : State) (k : FKey) : (s.leaveFlock k).remaps = s.remaps := rfl
@[simp] theorem State.leaveFlock_openTags (s : State) (k : FKey) : (s.leaveFlock k).openTags = s.openTags := rfl
@[simp] theorem State.leaveFlock_imports (s : State) (k : FKey) : (s.leaveFlock k).imports = s.imports := rfl
@[simp] theorem State.leaveFlock_probes (s : State) (k : FKey) : (s.leaveFlock k).probes = s.probes := rfl
@[simp] theorem State.leaveFlock_lostOn (s : State) (k : FKey) : (s.leaveFlock k).lostOn = s.lostOn := rfl
@[simp] theorem State.leaveFlock_ports (s : State) (k : FKey) : (s.leaveFlock k).ports = s.ports := rfl
@[simp] theorem State.leaveFlock_hot (s : State) (k : FKey) : (s.leaveFlock k).hot = s.hot := rfl
@[simp] theorem State.leaveFlock_recvSeq (s : State) (k : FKey) : (s.leaveFlock k).recvSeq = s.recvSeq := rfl
@[simp] theorem State.leaveFlock_monitors (s : State) (k : FKey) : (s.leaveFlock k).monitors = s.monitors := rfl
@[simp] theorem State.leaveFlock_stopSeq (s : State) (k : FKey) : (s.leaveFlock k).stopSeq = s.stopSeq := rfl
@[simp] theorem State.leaveFlock_traceSeq (s : State) (k : FKey) : (s.leaveFlock k).traceSeq = s.traceSeq := rfl
@[simp] theorem State.leaveFlock_dbgCount (s : State) (k : FKey) : (s.leaveFlock k).dbgCount = s.dbgCount := rfl
@[simp] theorem State.leaveFlock_stallOut (s : State) (k : FKey) : (s.leaveFlock k).stallOut = s.stallOut := rfl
@[simp] theorem State.leaveFlock_lastUnit (s : State) (k : FKey) : (s.leaveFlock k).lastUnit = s.lastUnit := rfl
@[simp] theorem State.leaveFlock_keys (s : State) (k : FKey) : (s.leaveFlock k).keys = s.keys := rfl
@[simp] theorem State.leaveFlock_hwm (s : State) (k : FKey) : (s.leaveFlock k).hwm = s.hwm := rfl
@[simp] theorem State.leaveFlock_keks (s : State) (k : FKey) : (s.leaveFlock k).keks = s.keks := rfl
@[simp] theorem State.leaveFlock_meas (s : State) (k : FKey) : (s.leaveFlock k).meas = s.meas := rfl
@[simp] theorem State.leaveFlock_reportSeq (s : State) (k : FKey) : (s.leaveFlock k).reportSeq = s.reportSeq := rfl
@[simp] theorem State.leaveFlock_boots (s : State) (k : FKey) : (s.leaveFlock k).boots = s.boots := rfl
@[simp] theorem State.leaveFlock_booted (s : State) (k : FKey) : (s.leaveFlock k).booted = s.booted := rfl
@[simp] theorem State.leaveFlock_bootFailed (s : State) (k : FKey) : (s.leaveFlock k).bootFailed = s.bootFailed := rfl
@[simp] theorem State.leaveFlock_curfew (s : State) (k : FKey) : (s.leaveFlock k).curfew = s.curfew := rfl
@[simp] theorem State.leaveFlock_tapIr (s : State) (k : FKey) : (s.leaveFlock k).tapIr = s.tapIr := rfl
@[simp] theorem State.leaveFlock_saddr (s : State) (k : FKey) : (s.leaveFlock k).saddr = s.saddr := rfl
@[simp] theorem State.leaveFlock_boundary (s : State) (k : FKey) : (s.leaveFlock k).boundary = s.boundary := rfl
@[simp] theorem State.leaveFlock_now (s : State) (k : FKey) : (s.leaveFlock k).now = s.now := rfl
@[simp] theorem State.leaveFlock_cyc (s : State) (k : FKey) : (s.leaveFlock k).cyc = s.cyc := rfl
@[simp] theorem State.leaveFlock_out (s : State) (k : FKey) : (s.leaveFlock k).out = s.out := rfl
@[simp] theorem State.leaveFlock_agenda (s : State) (k : FKey) : (s.leaveFlock k).agenda = s.agenda := rfl
@[simp] theorem State.leaveFlock_leaving (s : State) (k : FKey) : (s.leaveFlock k).leaving = s.leaving := rfl
@[simp] theorem State.leaveFlock_cur (s : State) (k : FKey) : (s.leaveFlock k).cur = s.cur := rfl
@[simp] theorem State.leaveFlock_pace (s : State) (k : FKey) : (s.leaveFlock k).pace = s.pace := rfl
@[simp] theorem State.leaveFlock_lag (s : State) (k : FKey) : (s.leaveFlock k).lag = s.lag := rfl
@[simp] theorem State.leaveFlock_serial (s : State) (k : FKey) : (s.leaveFlock k).serial = s.serial := rfl

/-! ### beginUnit -/

@[simp] theorem State.beginUnit_mem (s : State) (fl : Flock) : (s.beginUnit fl).mem = s.mem := rfl
@[simp] theorem State.beginUnit_full (s : State) (fl : Flock) : (s.beginUnit fl).full = s.full := rfl
@[simp] theorem State.beginUnit_poison (s : State) (fl : Flock) : (s.beginUnit fl).poison = s.poison := rfl
@[simp] theorem State.beginUnit_peerCode (s : State) (fl : Flock) : (s.beginUnit fl).peerCode = s.peerCode := rfl
@[simp] theorem State.beginUnit_aq (s : State) (fl : Flock) : (s.beginUnit fl).aq = s.aq := rfl
@[simp] theorem State.beginUnit_hist (s : State) (fl : Flock) : (s.beginUnit fl).hist = s.hist := rfl
@[simp] theorem State.beginUnit_kn (s : State) (fl : Flock) : (s.beginUnit fl).kn = s.kn := rfl
@[simp] theorem State.beginUnit_shares (s : State) (fl : Flock) : (s.beginUnit fl).shares = s.shares := rfl
@[simp] theorem State.beginUnit_sgen (s : State) (fl : Flock) : (s.beginUnit fl).sgen = s.sgen := rfl
@[simp] theorem State.beginUnit_saved (s : State) (fl : Flock) : (s.beginUnit fl).saved = s.saved := rfl
@[simp] theorem State.beginUnit_remains (s : State) (fl : Flock) : (s.beginUnit fl).remains = s.remains := rfl
@[simp] theorem State.beginUnit_loans (s : State) (fl : Flock) : (s.beginUnit fl).loans = s.loans := rfl
@[simp] theorem State.beginUnit_quarters (s : State) (fl : Flock) : (s.beginUnit fl).quarters = s.quarters := rfl
@[simp] theorem State.beginUnit_tiles (s : State) (fl : Flock) : (s.beginUnit fl).tiles = s.tiles := rfl
@[simp] theorem State.beginUnit_eops (s : State) (fl : Flock) : (s.beginUnit fl).eops = s.eops := rfl
@[simp] theorem State.beginUnit_fetches (s : State) (fl : Flock) : (s.beginUnit fl).fetches = s.fetches := rfl
@[simp] theorem State.beginUnit_lines (s : State) (fl : Flock) : (s.beginUnit fl).lines = s.lines := rfl
@[simp] theorem State.beginUnit_hbits (s : State) (fl : Flock) : (s.beginUnit fl).hbits = s.hbits := rfl
@[simp] theorem State.beginUnit_l1 (s : State) (fl : Flock) : (s.beginUnit fl).l1 = s.l1 := rfl
@[simp] theorem State.beginUnit_predict (s : State) (fl : Flock) : (s.beginUnit fl).predict = s.predict := rfl
@[simp] theorem State.beginUnit_floors (s : State) (fl : Flock) : (s.beginUnit fl).floors = s.floors := rfl
@[simp] theorem State.beginUnit_pages (s : State) (fl : Flock) : (s.beginUnit fl).pages = s.pages := rfl
@[simp] theorem State.beginUnit_smap (s : State) (fl : Flock) : (s.beginUnit fl).smap = s.smap := rfl
@[simp] theorem State.beginUnit_smapGen (s : State) (fl : Flock) : (s.beginUnit fl).smapGen = s.smapGen := rfl
@[simp] theorem State.beginUnit_grace (s : State) (fl : Flock) : (s.beginUnit fl).grace = s.grace := rfl
@[simp] theorem State.beginUnit_frozen (s : State) (fl : Flock) : (s.beginUnit fl).frozen = s.frozen := rfl
@[simp] theorem State.beginUnit_leafCnt (s : State) (fl : Flock) : (s.beginUnit fl).leafCnt = s.leafCnt := rfl
@[simp] theorem State.beginUnit_staleSlots (s : State) (fl : Flock) : (s.beginUnit fl).staleSlots = s.staleSlots := rfl
@[simp] theorem State.beginUnit_hostCommits (s : State) (fl : Flock) : (s.beginUnit fl).hostCommits = s.hostCommits := rfl
@[simp] theorem State.beginUnit_pending (s : State) (fl : Flock) : (s.beginUnit fl).pending = s.pending := rfl
@[simp] theorem State.beginUnit_ctxs (s : State) (fl : Flock) : (s.beginUnit fl).ctxs = s.ctxs := rfl
@[simp] theorem State.beginUnit_steal (s : State) (fl : Flock) : (s.beginUnit fl).steal = s.steal := rfl
@[simp] theorem State.beginUnit_stolen (s : State) (fl : Flock) : (s.beginUnit fl).stolen = s.stolen := rfl
@[simp] theorem State.beginUnit_regs (s : State) (fl : Flock) : (s.beginUnit fl).regs = s.regs := rfl
@[simp] theorem State.beginUnit_wins (s : State) (fl : Flock) : (s.beginUnit fl).wins = s.wins := rfl
@[simp] theorem State.beginUnit_carts (s : State) (fl : Flock) : (s.beginUnit fl).carts = s.carts := rfl
@[simp] theorem State.beginUnit_chans (s : State) (fl : Flock) : (s.beginUnit fl).chans = s.chans := rfl
@[simp] theorem State.beginUnit_unacked (s : State) (fl : Flock) : (s.beginUnit fl).unacked = s.unacked := rfl
@[simp] theorem State.beginUnit_rfqWait (s : State) (fl : Flock) : (s.beginUnit fl).rfqWait = s.rfqWait := rfl
@[simp] theorem State.beginUnit_hostWids (s : State) (fl : Flock) : (s.beginUnit fl).hostWids = s.hostWids := rfl
@[simp] theorem State.beginUnit_hostHeld (s : State) (fl : Flock) : (s.beginUnit fl).hostHeld = s.hostHeld := rfl
@[simp] theorem State.beginUnit_acks (s : State) (fl : Flock) : (s.beginUnit fl).acks = s.acks := rfl
@[simp] theorem State.beginUnit_outbox (s : State) (fl : Flock) : (s.beginUnit fl).outbox = s.outbox := rfl
@[simp] theorem State.beginUnit_remaps (s : State) (fl : Flock) : (s.beginUnit fl).remaps = s.remaps := rfl
@[simp] theorem State.beginUnit_openTags (s : State) (fl : Flock) : (s.beginUnit fl).openTags = s.openTags := rfl
@[simp] theorem State.beginUnit_imports (s : State) (fl : Flock) : (s.beginUnit fl).imports = s.imports := rfl
@[simp] theorem State.beginUnit_probes (s : State) (fl : Flock) : (s.beginUnit fl).probes = s.probes := rfl
@[simp] theorem State.beginUnit_lostOn (s : State) (fl : Flock) : (s.beginUnit fl).lostOn = s.lostOn := rfl
@[simp] theorem State.beginUnit_ports (s : State) (fl : Flock) : (s.beginUnit fl).ports = s.ports := rfl
@[simp] theorem State.beginUnit_hot (s : State) (fl : Flock) : (s.beginUnit fl).hot = s.hot := rfl
@[simp] theorem State.beginUnit_recvSeq (s : State) (fl : Flock) : (s.beginUnit fl).recvSeq = s.recvSeq := rfl
@[simp] theorem State.beginUnit_monitors (s : State) (fl : Flock) : (s.beginUnit fl).monitors = s.monitors := rfl
@[simp] theorem State.beginUnit_stopSeq (s : State) (fl : Flock) : (s.beginUnit fl).stopSeq = s.stopSeq := rfl
@[simp] theorem State.beginUnit_traceSeq (s : State) (fl : Flock) : (s.beginUnit fl).traceSeq = s.traceSeq := rfl
@[simp] theorem State.beginUnit_dbgCount (s : State) (fl : Flock) : (s.beginUnit fl).dbgCount = s.dbgCount := rfl
@[simp] theorem State.beginUnit_stallOut (s : State) (fl : Flock) : (s.beginUnit fl).stallOut = s.stallOut := rfl
@[simp] theorem State.beginUnit_keys (s : State) (fl : Flock) : (s.beginUnit fl).keys = s.keys := rfl
@[simp] theorem State.beginUnit_hwm (s : State) (fl : Flock) : (s.beginUnit fl).hwm = s.hwm := rfl
@[simp] theorem State.beginUnit_keks (s : State) (fl : Flock) : (s.beginUnit fl).keks = s.keks := rfl
@[simp] theorem State.beginUnit_meas (s : State) (fl : Flock) : (s.beginUnit fl).meas = s.meas := rfl
@[simp] theorem State.beginUnit_reportSeq (s : State) (fl : Flock) : (s.beginUnit fl).reportSeq = s.reportSeq := rfl
@[simp] theorem State.beginUnit_boots (s : State) (fl : Flock) : (s.beginUnit fl).boots = s.boots := rfl
@[simp] theorem State.beginUnit_booted (s : State) (fl : Flock) : (s.beginUnit fl).booted = s.booted := rfl
@[simp] theorem State.beginUnit_bootFailed (s : State) (fl : Flock) : (s.beginUnit fl).bootFailed = s.bootFailed := rfl
@[simp] theorem State.beginUnit_curfew (s : State) (fl : Flock) : (s.beginUnit fl).curfew = s.curfew := rfl
@[simp] theorem State.beginUnit_tapIr (s : State) (fl : Flock) : (s.beginUnit fl).tapIr = s.tapIr := rfl
@[simp] theorem State.beginUnit_saddr (s : State) (fl : Flock) : (s.beginUnit fl).saddr = s.saddr := rfl
@[simp] theorem State.beginUnit_boundary (s : State) (fl : Flock) : (s.beginUnit fl).boundary = s.boundary := rfl
@[simp] theorem State.beginUnit_now (s : State) (fl : Flock) : (s.beginUnit fl).now = s.now := rfl
@[simp] theorem State.beginUnit_cyc (s : State) (fl : Flock) : (s.beginUnit fl).cyc = s.cyc := rfl
@[simp] theorem State.beginUnit_out (s : State) (fl : Flock) : (s.beginUnit fl).out = s.out := rfl
@[simp] theorem State.beginUnit_agenda (s : State) (fl : Flock) : (s.beginUnit fl).agenda = s.agenda := rfl
@[simp] theorem State.beginUnit_leaving (s : State) (fl : Flock) : (s.beginUnit fl).leaving = s.leaving := rfl
@[simp] theorem State.beginUnit_cur (s : State) (fl : Flock) : (s.beginUnit fl).cur = s.cur := rfl
@[simp] theorem State.beginUnit_pace (s : State) (fl : Flock) : (s.beginUnit fl).pace = s.pace := rfl
@[simp] theorem State.beginUnit_lag (s : State) (fl : Flock) : (s.beginUnit fl).lag = s.lag := rfl

/-! ### closeFlock -/

@[simp] theorem State.closeFlock_mem (s : State) (c : Bool) (q : Nat) : (s.closeFlock c q).mem = s.mem := by unfold State.closeFlock; repeat (first | rfl | split | dsimp only)
@[simp] theorem State.closeFlock_full (s : State) (c : Bool) (q : Nat) : (s.closeFlock c q).full = s.full := by unfold State.closeFlock; repeat (first | rfl | split | dsimp only)
@[simp] theorem State.closeFlock_poison (s : State) (c : Bool) (q : Nat) : (s.closeFlock c q).poison = s.poison := by unfold State.closeFlock; repeat (first | rfl | split | dsimp only)
@[simp] theorem State.closeFlock_peerCode (s : State) (c : Bool) (q : Nat) : (s.closeFlock c q).peerCode = s.peerCode := by unfold State.closeFlock; repeat (first | rfl | split | dsimp only)
@[simp] theorem State.closeFlock_fibres (s : State) (c : Bool) (q : Nat) : (s.closeFlock c q).fibres = s.fibres := by unfold State.closeFlock; repeat (first | rfl | split | dsimp only)
@[simp] theorem State.closeFlock_reqs (s : State) (c : Bool) (q : Nat) : (s.closeFlock c q).reqs = s.reqs := by unfold State.closeFlock; repeat (first | rfl | split | dsimp only)
@[simp] theorem State.closeFlock_aq (s : State) (c : Bool) (q : Nat) : (s.closeFlock c q).aq = s.aq := by unfold State.closeFlock; repeat (first | rfl | split | dsimp only)
@[simp] theorem State.closeFlock_hist (s : State) (c : Bool) (q : Nat) : (s.closeFlock c q).hist = s.hist := by unfold State.closeFlock; repeat (first | rfl | split | dsimp only)
@[simp] theorem State.closeFlock_kn (s : State) (c : Bool) (q : Nat) : (s.closeFlock c q).kn = s.kn := by unfold State.closeFlock; repeat (first | rfl | split | dsimp only)
@[simp] theorem State.closeFlock_shares (s : State) (c : Bool) (q : Nat) : (s.closeFlock c q).shares = s.shares := by unfold State.closeFlock; repeat (first | rfl | split | dsimp only)
@[simp] theorem State.closeFlock_sgen (s : State) (c : Bool) (q : Nat) : (s.closeFlock c q).sgen = s.sgen := by unfold State.closeFlock; repeat (first | rfl | split | dsimp only)
@[simp] theorem State.closeFlock_saved (s : State) (c : Bool) (q : Nat) : (s.closeFlock c q).saved = s.saved := by unfold State.closeFlock; repeat (first | rfl | split | dsimp only)
@[simp] theorem State.closeFlock_remains (s : State) (c : Bool) (q : Nat) : (s.closeFlock c q).remains = s.remains := by unfold State.closeFlock; repeat (first | rfl | split | dsimp only)
@[simp] theorem State.closeFlock_loans (s : State) (c : Bool) (q : Nat) : (s.closeFlock c q).loans = s.loans := by unfold State.closeFlock; repeat (first | rfl | split | dsimp only)
@[simp] theorem State.closeFlock_quarters (s : State) (c : Bool) (q : Nat) : (s.closeFlock c q).quarters = s.quarters := by unfold State.closeFlock; repeat (first | rfl | split | dsimp only)
@[simp] theorem State.closeFlock_tiles (s : State) (c : Bool) (q : Nat) : (s.closeFlock c q).tiles = s.tiles := by unfold State.closeFlock; repeat (first | rfl | split | dsimp only)
@[simp] theorem State.closeFlock_eops (s : State) (c : Bool) (q : Nat) : (s.closeFlock c q).eops = s.eops := by unfold State.closeFlock; repeat (first | rfl | split | dsimp only)
@[simp] theorem State.closeFlock_fetches (s : State) (c : Bool) (q : Nat) : (s.closeFlock c q).fetches = s.fetches := by unfold State.closeFlock; repeat (first | rfl | split | dsimp only)
@[simp] theorem State.closeFlock_lines (s : State) (c : Bool) (q : Nat) : (s.closeFlock c q).lines = s.lines := by unfold State.closeFlock; repeat (first | rfl | split | dsimp only)
@[simp] theorem State.closeFlock_hbits (s : State) (c : Bool) (q : Nat) : (s.closeFlock c q).hbits = s.hbits := by unfold State.closeFlock; repeat (first | rfl | split | dsimp only)
@[simp] theorem State.closeFlock_l1 (s : State) (c : Bool) (q : Nat) : (s.closeFlock c q).l1 = s.l1 := by unfold State.closeFlock; repeat (first | rfl | split | dsimp only)
@[simp] theorem State.closeFlock_predict (s : State) (c : Bool) (q : Nat) : (s.closeFlock c q).predict = s.predict := by unfold State.closeFlock; repeat (first | rfl | split | dsimp only)
@[simp] theorem State.closeFlock_floors (s : State) (c : Bool) (q : Nat) : (s.closeFlock c q).floors = s.floors := by unfold State.closeFlock; repeat (first | rfl | split | dsimp only)
@[simp] theorem State.closeFlock_pages (s : State) (c : Bool) (q : Nat) : (s.closeFlock c q).pages = s.pages := by unfold State.closeFlock; repeat (first | rfl | split | dsimp only)
@[simp] theorem State.closeFlock_smap (s : State) (c : Bool) (q : Nat) : (s.closeFlock c q).smap = s.smap := by unfold State.closeFlock; repeat (first | rfl | split | dsimp only)
@[simp] theorem State.closeFlock_smapGen (s : State) (c : Bool) (q : Nat) : (s.closeFlock c q).smapGen = s.smapGen := by unfold State.closeFlock; repeat (first | rfl | split | dsimp only)
@[simp] theorem State.closeFlock_grace (s : State) (c : Bool) (q : Nat) : (s.closeFlock c q).grace = s.grace := by unfold State.closeFlock; repeat (first | rfl | split | dsimp only)
@[simp] theorem State.closeFlock_frozen (s : State) (c : Bool) (q : Nat) : (s.closeFlock c q).frozen = s.frozen := by unfold State.closeFlock; repeat (first | rfl | split | dsimp only)
@[simp] theorem State.closeFlock_leafCnt (s : State) (c : Bool) (q : Nat) : (s.closeFlock c q).leafCnt = s.leafCnt := by unfold State.closeFlock; repeat (first | rfl | split | dsimp only)
@[simp] theorem State.closeFlock_staleSlots (s : State) (c : Bool) (q : Nat) : (s.closeFlock c q).staleSlots = s.staleSlots := by unfold State.closeFlock; repeat (first | rfl | split | dsimp only)
@[simp] theorem State.closeFlock_hostCommits (s : State) (c : Bool) (q : Nat) : (s.closeFlock c q).hostCommits = s.hostCommits := by unfold State.closeFlock; repeat (first | rfl | split | dsimp only)
@[simp] theorem State.closeFlock_pending (s : State) (c : Bool) (q : Nat) : (s.closeFlock c q).pending = s.pending := by unfold State.closeFlock; repeat (first | rfl | split | dsimp only)
@[simp] theorem State.closeFlock_ctxs (s : State) (c : Bool) (q : Nat) : (s.closeFlock c q).ctxs = s.ctxs := by unfold State.closeFlock; repeat (first | rfl | split | dsimp only)
@[simp] theorem State.closeFlock_steal (s : State) (c : Bool) (q : Nat) : (s.closeFlock c q).steal = s.steal := by unfold State.closeFlock; repeat (first | rfl | split | dsimp only)
@[simp] theorem State.closeFlock_stolen (s : State) (c : Bool) (q : Nat) : (s.closeFlock c q).stolen = s.stolen := by unfold State.closeFlock; repeat (first | rfl | split | dsimp only)
@[simp] theorem State.closeFlock_regs (s : State) (c : Bool) (q : Nat) : (s.closeFlock c q).regs = s.regs := by unfold State.closeFlock; repeat (first | rfl | split | dsimp only)
@[simp] theorem State.closeFlock_wins (s : State) (c : Bool) (q : Nat) : (s.closeFlock c q).wins = s.wins := by unfold State.closeFlock; repeat (first | rfl | split | dsimp only)
@[simp] theorem State.closeFlock_carts (s : State) (c : Bool) (q : Nat) : (s.closeFlock c q).carts = s.carts := by unfold State.closeFlock; repeat (first | rfl | split | dsimp only)
@[simp] theorem State.closeFlock_chans (s : State) (c : Bool) (q : Nat) : (s.closeFlock c q).chans = s.chans := by unfold State.closeFlock; repeat (first | rfl | split | dsimp only)
@[simp] theorem State.closeFlock_unacked (s : State) (c : Bool) (q : Nat) : (s.closeFlock c q).unacked = s.unacked := by unfold State.closeFlock; repeat (first | rfl | split | dsimp only)
@[simp] theorem State.closeFlock_rfqWait (s : State) (c : Bool) (q : Nat) : (s.closeFlock c q).rfqWait = s.rfqWait := by unfold State.closeFlock; repeat (first | rfl | split | dsimp only)
@[simp] theorem State.closeFlock_hostWids (s : State) (c : Bool) (q : Nat) : (s.closeFlock c q).hostWids = s.hostWids := by unfold State.closeFlock; repeat (first | rfl | split | dsimp only)
@[simp] theorem State.closeFlock_hostHeld (s : State) (c : Bool) (q : Nat) : (s.closeFlock c q).hostHeld = s.hostHeld := by unfold State.closeFlock; repeat (first | rfl | split | dsimp only)
@[simp] theorem State.closeFlock_acks (s : State) (c : Bool) (q : Nat) : (s.closeFlock c q).acks = s.acks := by unfold State.closeFlock; repeat (first | rfl | split | dsimp only)
@[simp] theorem State.closeFlock_outbox (s : State) (c : Bool) (q : Nat) : (s.closeFlock c q).outbox = s.outbox := by unfold State.closeFlock; repeat (first | rfl | split | dsimp only)
@[simp] theorem State.closeFlock_remaps (s : State) (c : Bool) (q : Nat) : (s.closeFlock c q).remaps = s.remaps := by unfold State.closeFlock; repeat (first | rfl | split | dsimp only)
@[simp] theorem State.closeFlock_openTags (s : State) (c : Bool) (q : Nat) : (s.closeFlock c q).openTags = s.openTags := by unfold State.closeFlock; repeat (first | rfl | split | dsimp only)
@[simp] theorem State.closeFlock_imports (s : State) (c : Bool) (q : Nat) : (s.closeFlock c q).imports = s.imports := by unfold State.closeFlock; repeat (first | rfl | split | dsimp only)
@[simp] theorem State.closeFlock_probes (s : State) (c : Bool) (q : Nat) : (s.closeFlock c q).probes = s.probes := by unfold State.closeFlock; repeat (first | rfl | split | dsimp only)
@[simp] theorem State.closeFlock_lostOn (s : State) (c : Bool) (q : Nat) : (s.closeFlock c q).lostOn = s.lostOn := by unfold State.closeFlock; repeat (first | rfl | split | dsimp only)
@[simp] theorem State.closeFlock_ports (s : State) (c : Bool) (q : Nat) : (s.closeFlock c q).ports = s.ports := by unfold State.closeFlock; repeat (first | rfl | split | dsimp only)
@[simp] theorem State.closeFlock_hot (s : State) (c : Bool) (q : Nat) : (s.closeFlock c q).hot = s.hot := by unfold State.closeFlock; repeat (first | rfl | split | dsimp only)
@[simp] theorem State.closeFlock_recvSeq (s : State) (c : Bool) (q : Nat) : (s.closeFlock c q).recvSeq = s.recvSeq := by unfold State.closeFlock; repeat (first | rfl | split | dsimp only)
@[simp] theorem State.closeFlock_monitors (s : State) (c : Bool) (q : Nat) : (s.closeFlock c q).monitors = s.monitors := by unfold State.closeFlock; repeat (first | rfl | split | dsimp only)
@[simp] theorem State.closeFlock_stopSeq (s : State) (c : Bool) (q : Nat) : (s.closeFlock c q).stopSeq = s.stopSeq := by unfold State.closeFlock; repeat (first | rfl | split | dsimp only)
@[simp] theorem State.closeFlock_traceSeq (s : State) (c : Bool) (q : Nat) : (s.closeFlock c q).traceSeq = s.traceSeq := by unfold State.closeFlock; repeat (first | rfl | split | dsimp only)
@[simp] theorem State.closeFlock_dbgCount (s : State) (c : Bool) (q : Nat) : (s.closeFlock c q).dbgCount = s.dbgCount := by unfold State.closeFlock; repeat (first | rfl | split | dsimp only)
@[simp] theorem State.closeFlock_stallOut (s : State) (c : Bool) (q : Nat) : (s.closeFlock c q).stallOut = s.stallOut := by unfold State.closeFlock; repeat (first | rfl | split | dsimp only)
@[simp] theorem State.closeFlock_lastUnit (s : State) (c : Bool) (q : Nat) : (s.closeFlock c q).lastUnit = s.lastUnit := by unfold State.closeFlock; repeat (first | rfl | split | dsimp only)
@[simp] theorem State.closeFlock_keys (s : State) (c : Bool) (q : Nat) : (s.closeFlock c q).keys = s.keys := by unfold State.closeFlock; repeat (first | rfl | split | dsimp only)
@[simp] theorem State.closeFlock_hwm (s : State) (c : Bool) (q : Nat) : (s.closeFlock c q).hwm = s.hwm := by unfold State.closeFlock; repeat (first | rfl | split | dsimp only)
@[simp] theorem State.closeFlock_keks (s : State) (c : Bool) (q : Nat) : (s.closeFlock c q).keks = s.keks := by unfold State.closeFlock; repeat (first | rfl | split | dsimp only)
@[simp] theorem State.closeFlock_meas (s : State) (c : Bool) (q : Nat) : (s.closeFlock c q).meas = s.meas := by unfold State.closeFlock; repeat (first | rfl | split | dsimp only)
@[simp] theorem State.closeFlock_reportSeq (s : State) (c : Bool) (q : Nat) : (s.closeFlock c q).reportSeq = s.reportSeq := by unfold State.closeFlock; repeat (first | rfl | split | dsimp only)
@[simp] theorem State.closeFlock_boots (s : State) (c : Bool) (q : Nat) : (s.closeFlock c q).boots = s.boots := by unfold State.closeFlock; repeat (first | rfl | split | dsimp only)
@[simp] theorem State.closeFlock_booted (s : State) (c : Bool) (q : Nat) : (s.closeFlock c q).booted = s.booted := by unfold State.closeFlock; repeat (first | rfl | split | dsimp only)
@[simp] theorem State.closeFlock_bootFailed (s : State) (c : Bool) (q : Nat) : (s.closeFlock c q).bootFailed = s.bootFailed := by unfold State.closeFlock; repeat (first | rfl | split | dsimp only)
@[simp] theorem State.closeFlock_curfew (s : State) (c : Bool) (q : Nat) : (s.closeFlock c q).curfew = s.curfew := by unfold State.closeFlock; repeat (first | rfl | split | dsimp only)
@[simp] theorem State.closeFlock_tapIr (s : State) (c : Bool) (q : Nat) : (s.closeFlock c q).tapIr = s.tapIr := by unfold State.closeFlock; repeat (first | rfl | split | dsimp only)
@[simp] theorem State.closeFlock_saddr (s : State) (c : Bool) (q : Nat) : (s.closeFlock c q).saddr = s.saddr := by unfold State.closeFlock; repeat (first | rfl | split | dsimp only)
@[simp] theorem State.closeFlock_boundary (s : State) (c : Bool) (q : Nat) : (s.closeFlock c q).boundary = s.boundary := by unfold State.closeFlock; repeat (first | rfl | split | dsimp only)
@[simp] theorem State.closeFlock_now (s : State) (c : Bool) (q : Nat) : (s.closeFlock c q).now = s.now := by unfold State.closeFlock; repeat (first | rfl | split | dsimp only)
@[simp] theorem State.closeFlock_cyc (s : State) (c : Bool) (q : Nat) : (s.closeFlock c q).cyc = s.cyc := by unfold State.closeFlock; repeat (first | rfl | split | dsimp only)
@[simp] theorem State.closeFlock_out (s : State) (c : Bool) (q : Nat) : (s.closeFlock c q).out = s.out := by unfold State.closeFlock; repeat (first | rfl | split | dsimp only)
@[simp] theorem State.closeFlock_agenda (s : State) (c : Bool) (q : Nat) : (s.closeFlock c q).agenda = s.agenda := by unfold State.closeFlock; repeat (first | rfl | split | dsimp only)
@[simp] theorem State.closeFlock_leaving (s : State) (c : Bool) (q : Nat) : (s.closeFlock c q).leaving = s.leaving := by unfold State.closeFlock; repeat (first | rfl | split | dsimp only)
@[simp] theorem State.closeFlock_cur (s : State) (c : Bool) (q : Nat) : (s.closeFlock c q).cur = s.cur := by unfold State.closeFlock; repeat (first | rfl | split | dsimp only)
@[simp] theorem State.closeFlock_pace (s : State) (c : Bool) (q : Nat) : (s.closeFlock c q).pace = s.pace := by unfold State.closeFlock; repeat (first | rfl | split | dsimp only)
@[simp] theorem State.closeFlock_lag (s : State) (c : Bool) (q : Nat) : (s.closeFlock c q).lag = s.lag := by unfold State.closeFlock; repeat (first | rfl | split | dsimp only)
@[simp] theorem State.closeFlock_serial (s : State) (c : Bool) (q : Nat) : (s.closeFlock c q).serial = s.serial := by unfold State.closeFlock; repeat (first | rfl | split | dsimp only)

/-! ### landMembers -/

@[simp] theorem State.landMembers_mem (s : State) (fl : Flock) : (s.landMembers fl).mem = s.mem := rfl
@[simp] theorem State.landMembers_full (s : State) (fl : Flock) : (s.landMembers fl).full = s.full := rfl
@[simp] theorem State.landMembers_poison (s : State) (fl : Flock) : (s.landMembers fl).poison = s.poison := rfl
@[simp] theorem State.landMembers_peerCode (s : State) (fl : Flock) : (s.landMembers fl).peerCode = s.peerCode := rfl
@[simp] theorem State.landMembers_flocks (s : State) (fl : Flock) : (s.landMembers fl).flocks = s.flocks := rfl
@[simp] theorem State.landMembers_reqs (s : State) (fl : Flock) : (s.landMembers fl).reqs = s.reqs := rfl
@[simp] theorem State.landMembers_aq (s : State) (fl : Flock) : (s.landMembers fl).aq = s.aq := rfl
@[simp] theorem State.landMembers_hist (s : State) (fl : Flock) : (s.landMembers fl).hist = s.hist := rfl
@[simp] theorem State.landMembers_kn (s : State) (fl : Flock) : (s.landMembers fl).kn = s.kn := rfl
@[simp] theorem State.landMembers_shares (s : State) (fl : Flock) : (s.landMembers fl).shares = s.shares := rfl
@[simp] theorem State.landMembers_sgen (s : State) (fl : Flock) : (s.landMembers fl).sgen = s.sgen := rfl
@[simp] theorem State.landMembers_saved (s : State) (fl : Flock) : (s.landMembers fl).saved = s.saved := rfl
@[simp] theorem State.landMembers_remains (s : State) (fl : Flock) : (s.landMembers fl).remains = s.remains := rfl
@[simp] theorem State.landMembers_loans (s : State) (fl : Flock) : (s.landMembers fl).loans = s.loans := rfl
@[simp] theorem State.landMembers_quarters (s : State) (fl : Flock) : (s.landMembers fl).quarters = s.quarters := rfl
@[simp] theorem State.landMembers_tiles (s : State) (fl : Flock) : (s.landMembers fl).tiles = s.tiles := rfl
@[simp] theorem State.landMembers_eops (s : State) (fl : Flock) : (s.landMembers fl).eops = s.eops := rfl
@[simp] theorem State.landMembers_fetches (s : State) (fl : Flock) : (s.landMembers fl).fetches = s.fetches := rfl
@[simp] theorem State.landMembers_lines (s : State) (fl : Flock) : (s.landMembers fl).lines = s.lines := rfl
@[simp] theorem State.landMembers_hbits (s : State) (fl : Flock) : (s.landMembers fl).hbits = s.hbits := rfl
@[simp] theorem State.landMembers_l1 (s : State) (fl : Flock) : (s.landMembers fl).l1 = s.l1 := rfl
@[simp] theorem State.landMembers_predict (s : State) (fl : Flock) : (s.landMembers fl).predict = s.predict := rfl
@[simp] theorem State.landMembers_floors (s : State) (fl : Flock) : (s.landMembers fl).floors = s.floors := rfl
@[simp] theorem State.landMembers_pages (s : State) (fl : Flock) : (s.landMembers fl).pages = s.pages := rfl
@[simp] theorem State.landMembers_smap (s : State) (fl : Flock) : (s.landMembers fl).smap = s.smap := rfl
@[simp] theorem State.landMembers_smapGen (s : State) (fl : Flock) : (s.landMembers fl).smapGen = s.smapGen := rfl
@[simp] theorem State.landMembers_grace (s : State) (fl : Flock) : (s.landMembers fl).grace = s.grace := rfl
@[simp] theorem State.landMembers_frozen (s : State) (fl : Flock) : (s.landMembers fl).frozen = s.frozen := rfl
@[simp] theorem State.landMembers_leafCnt (s : State) (fl : Flock) : (s.landMembers fl).leafCnt = s.leafCnt := rfl
@[simp] theorem State.landMembers_staleSlots (s : State) (fl : Flock) : (s.landMembers fl).staleSlots = s.staleSlots := rfl
@[simp] theorem State.landMembers_hostCommits (s : State) (fl : Flock) : (s.landMembers fl).hostCommits = s.hostCommits := rfl
@[simp] theorem State.landMembers_pending (s : State) (fl : Flock) : (s.landMembers fl).pending = s.pending := rfl
@[simp] theorem State.landMembers_ctxs (s : State) (fl : Flock) : (s.landMembers fl).ctxs = s.ctxs := rfl
@[simp] theorem State.landMembers_steal (s : State) (fl : Flock) : (s.landMembers fl).steal = s.steal := rfl
@[simp] theorem State.landMembers_stolen (s : State) (fl : Flock) : (s.landMembers fl).stolen = s.stolen := rfl
@[simp] theorem State.landMembers_regs (s : State) (fl : Flock) : (s.landMembers fl).regs = s.regs := rfl
@[simp] theorem State.landMembers_wins (s : State) (fl : Flock) : (s.landMembers fl).wins = s.wins := rfl
@[simp] theorem State.landMembers_carts (s : State) (fl : Flock) : (s.landMembers fl).carts = s.carts := rfl
@[simp] theorem State.landMembers_chans (s : State) (fl : Flock) : (s.landMembers fl).chans = s.chans := rfl
@[simp] theorem State.landMembers_unacked (s : State) (fl : Flock) : (s.landMembers fl).unacked = s.unacked := rfl
@[simp] theorem State.landMembers_rfqWait (s : State) (fl : Flock) : (s.landMembers fl).rfqWait = s.rfqWait := rfl
@[simp] theorem State.landMembers_hostWids (s : State) (fl : Flock) : (s.landMembers fl).hostWids = s.hostWids := rfl
@[simp] theorem State.landMembers_hostHeld (s : State) (fl : Flock) : (s.landMembers fl).hostHeld = s.hostHeld := rfl
@[simp] theorem State.landMembers_acks (s : State) (fl : Flock) : (s.landMembers fl).acks = s.acks := rfl
@[simp] theorem State.landMembers_outbox (s : State) (fl : Flock) : (s.landMembers fl).outbox = s.outbox := rfl
@[simp] theorem State.landMembers_remaps (s : State) (fl : Flock) : (s.landMembers fl).remaps = s.remaps := rfl
@[simp] theorem State.landMembers_openTags (s : State) (fl : Flock) : (s.landMembers fl).openTags = s.openTags := rfl
@[simp] theorem State.landMembers_imports (s : State) (fl : Flock) : (s.landMembers fl).imports = s.imports := rfl
@[simp] theorem State.landMembers_probes (s : State) (fl : Flock) : (s.landMembers fl).probes = s.probes := rfl
@[simp] theorem State.landMembers_lostOn (s : State) (fl : Flock) : (s.landMembers fl).lostOn = s.lostOn := rfl
@[simp] theorem State.landMembers_ports (s : State) (fl : Flock) : (s.landMembers fl).ports = s.ports := rfl
@[simp] theorem State.landMembers_hot (s : State) (fl : Flock) : (s.landMembers fl).hot = s.hot := rfl
@[simp] theorem State.landMembers_recvSeq (s : State) (fl : Flock) : (s.landMembers fl).recvSeq = s.recvSeq := rfl
@[simp] theorem State.landMembers_monitors (s : State) (fl : Flock) : (s.landMembers fl).monitors = s.monitors := rfl
@[simp] theorem State.landMembers_stopSeq (s : State) (fl : Flock) : (s.landMembers fl).stopSeq = s.stopSeq := rfl
@[simp] theorem State.landMembers_traceSeq (s : State) (fl : Flock) : (s.landMembers fl).traceSeq = s.traceSeq := rfl
@[simp] theorem State.landMembers_dbgCount (s : State) (fl : Flock) : (s.landMembers fl).dbgCount = s.dbgCount := rfl
@[simp] theorem State.landMembers_stallOut (s : State) (fl : Flock) : (s.landMembers fl).stallOut = s.stallOut := rfl
@[simp] theorem State.landMembers_lastUnit (s : State) (fl : Flock) : (s.landMembers fl).lastUnit = s.lastUnit := rfl
@[simp] theorem State.landMembers_keys (s : State) (fl : Flock) : (s.landMembers fl).keys = s.keys := rfl
@[simp] theorem State.landMembers_hwm (s : State) (fl : Flock) : (s.landMembers fl).hwm = s.hwm := rfl
@[simp] theorem State.landMembers_keks (s : State) (fl : Flock) : (s.landMembers fl).keks = s.keks := rfl
@[simp] theorem State.landMembers_meas (s : State) (fl : Flock) : (s.landMembers fl).meas = s.meas := rfl
@[simp] theorem State.landMembers_reportSeq (s : State) (fl : Flock) : (s.landMembers fl).reportSeq = s.reportSeq := rfl
@[simp] theorem State.landMembers_boots (s : State) (fl : Flock) : (s.landMembers fl).boots = s.boots := rfl
@[simp] theorem State.landMembers_booted (s : State) (fl : Flock) : (s.landMembers fl).booted = s.booted := rfl
@[simp] theorem State.landMembers_bootFailed (s : State) (fl : Flock) : (s.landMembers fl).bootFailed = s.bootFailed := rfl
@[simp] theorem State.landMembers_curfew (s : State) (fl : Flock) : (s.landMembers fl).curfew = s.curfew := rfl
@[simp] theorem State.landMembers_tapIr (s : State) (fl : Flock) : (s.landMembers fl).tapIr = s.tapIr := rfl
@[simp] theorem State.landMembers_saddr (s : State) (fl : Flock) : (s.landMembers fl).saddr = s.saddr := rfl
@[simp] theorem State.landMembers_boundary (s : State) (fl : Flock) : (s.landMembers fl).boundary = s.boundary := rfl
@[simp] theorem State.landMembers_now (s : State) (fl : Flock) : (s.landMembers fl).now = s.now := rfl
@[simp] theorem State.landMembers_cyc (s : State) (fl : Flock) : (s.landMembers fl).cyc = s.cyc := rfl
@[simp] theorem State.landMembers_out (s : State) (fl : Flock) : (s.landMembers fl).out = s.out := rfl
@[simp] theorem State.landMembers_agenda (s : State) (fl : Flock) : (s.landMembers fl).agenda = s.agenda := rfl
@[simp] theorem State.landMembers_leaving (s : State) (fl : Flock) : (s.landMembers fl).leaving = s.leaving := rfl
@[simp] theorem State.landMembers_cur (s : State) (fl : Flock) : (s.landMembers fl).cur = s.cur := rfl
@[simp] theorem State.landMembers_pace (s : State) (fl : Flock) : (s.landMembers fl).pace = s.pace := rfl
@[simp] theorem State.landMembers_lag (s : State) (fl : Flock) : (s.landMembers fl).lag = s.lag := rfl
@[simp] theorem State.landMembers_serial (s : State) (fl : Flock) : (s.landMembers fl).serial = s.serial := rfl

/-! ### closeUnit -/

@[simp] theorem State.closeUnit_mem (s : State) (c : Bool) (fl : Flock) : (s.closeUnit c fl).mem = s.mem := by unfold State.closeUnit; split <;> simp
@[simp] theorem State.closeUnit_full (s : State) (c : Bool) (fl : Flock) : (s.closeUnit c fl).full = s.full := by unfold State.closeUnit; split <;> simp
@[simp] theorem State.closeUnit_poison (s : State) (c : Bool) (fl : Flock) : (s.closeUnit c fl).poison = s.poison := by unfold State.closeUnit; split <;> simp
@[simp] theorem State.closeUnit_peerCode (s : State) (c : Bool) (fl : Flock) : (s.closeUnit c fl).peerCode = s.peerCode := by unfold State.closeUnit; split <;> simp
@[simp] theorem State.closeUnit_reqs (s : State) (c : Bool) (fl : Flock) : (s.closeUnit c fl).reqs = s.reqs := by unfold State.closeUnit; split <;> simp
@[simp] theorem State.closeUnit_aq (s : State) (c : Bool) (fl : Flock) : (s.closeUnit c fl).aq = s.aq := by unfold State.closeUnit; split <;> simp
@[simp] theorem State.closeUnit_hist (s : State) (c : Bool) (fl : Flock) : (s.closeUnit c fl).hist = s.hist := by unfold State.closeUnit; split <;> simp
@[simp] theorem State.closeUnit_kn (s : State) (c : Bool) (fl : Flock) : (s.closeUnit c fl).kn = s.kn := by unfold State.closeUnit; split <;> simp
@[simp] theorem State.closeUnit_shares (s : State) (c : Bool) (fl : Flock) : (s.closeUnit c fl).shares = s.shares := by unfold State.closeUnit; split <;> simp
@[simp] theorem State.closeUnit_sgen (s : State) (c : Bool) (fl : Flock) : (s.closeUnit c fl).sgen = s.sgen := by unfold State.closeUnit; split <;> simp
@[simp] theorem State.closeUnit_saved (s : State) (c : Bool) (fl : Flock) : (s.closeUnit c fl).saved = s.saved := by unfold State.closeUnit; split <;> simp
@[simp] theorem State.closeUnit_remains (s : State) (c : Bool) (fl : Flock) : (s.closeUnit c fl).remains = s.remains := by unfold State.closeUnit; split <;> simp
@[simp] theorem State.closeUnit_loans (s : State) (c : Bool) (fl : Flock) : (s.closeUnit c fl).loans = s.loans := by unfold State.closeUnit; split <;> simp
@[simp] theorem State.closeUnit_quarters (s : State) (c : Bool) (fl : Flock) : (s.closeUnit c fl).quarters = s.quarters := by unfold State.closeUnit; split <;> simp
@[simp] theorem State.closeUnit_tiles (s : State) (c : Bool) (fl : Flock) : (s.closeUnit c fl).tiles = s.tiles := by unfold State.closeUnit; split <;> simp
@[simp] theorem State.closeUnit_eops (s : State) (c : Bool) (fl : Flock) : (s.closeUnit c fl).eops = s.eops := by unfold State.closeUnit; split <;> simp
@[simp] theorem State.closeUnit_fetches (s : State) (c : Bool) (fl : Flock) : (s.closeUnit c fl).fetches = s.fetches := by unfold State.closeUnit; split <;> simp
@[simp] theorem State.closeUnit_lines (s : State) (c : Bool) (fl : Flock) : (s.closeUnit c fl).lines = s.lines := by unfold State.closeUnit; split <;> simp
@[simp] theorem State.closeUnit_hbits (s : State) (c : Bool) (fl : Flock) : (s.closeUnit c fl).hbits = s.hbits := by unfold State.closeUnit; split <;> simp
@[simp] theorem State.closeUnit_l1 (s : State) (c : Bool) (fl : Flock) : (s.closeUnit c fl).l1 = s.l1 := by unfold State.closeUnit; split <;> simp
@[simp] theorem State.closeUnit_predict (s : State) (c : Bool) (fl : Flock) : (s.closeUnit c fl).predict = s.predict := by unfold State.closeUnit; split <;> simp
@[simp] theorem State.closeUnit_floors (s : State) (c : Bool) (fl : Flock) : (s.closeUnit c fl).floors = s.floors := by unfold State.closeUnit; split <;> simp
@[simp] theorem State.closeUnit_pages (s : State) (c : Bool) (fl : Flock) : (s.closeUnit c fl).pages = s.pages := by unfold State.closeUnit; split <;> simp
@[simp] theorem State.closeUnit_smap (s : State) (c : Bool) (fl : Flock) : (s.closeUnit c fl).smap = s.smap := by unfold State.closeUnit; split <;> simp
@[simp] theorem State.closeUnit_smapGen (s : State) (c : Bool) (fl : Flock) : (s.closeUnit c fl).smapGen = s.smapGen := by unfold State.closeUnit; split <;> simp
@[simp] theorem State.closeUnit_grace (s : State) (c : Bool) (fl : Flock) : (s.closeUnit c fl).grace = s.grace := by unfold State.closeUnit; split <;> simp
@[simp] theorem State.closeUnit_frozen (s : State) (c : Bool) (fl : Flock) : (s.closeUnit c fl).frozen = s.frozen := by unfold State.closeUnit; split <;> simp
@[simp] theorem State.closeUnit_leafCnt (s : State) (c : Bool) (fl : Flock) : (s.closeUnit c fl).leafCnt = s.leafCnt := by unfold State.closeUnit; split <;> simp
@[simp] theorem State.closeUnit_staleSlots (s : State) (c : Bool) (fl : Flock) : (s.closeUnit c fl).staleSlots = s.staleSlots := by unfold State.closeUnit; split <;> simp
@[simp] theorem State.closeUnit_hostCommits (s : State) (c : Bool) (fl : Flock) : (s.closeUnit c fl).hostCommits = s.hostCommits := by unfold State.closeUnit; split <;> simp
@[simp] theorem State.closeUnit_pending (s : State) (c : Bool) (fl : Flock) : (s.closeUnit c fl).pending = s.pending := by unfold State.closeUnit; split <;> simp
@[simp] theorem State.closeUnit_ctxs (s : State) (c : Bool) (fl : Flock) : (s.closeUnit c fl).ctxs = s.ctxs := by unfold State.closeUnit; split <;> simp
@[simp] theorem State.closeUnit_steal (s : State) (c : Bool) (fl : Flock) : (s.closeUnit c fl).steal = s.steal := by unfold State.closeUnit; split <;> simp
@[simp] theorem State.closeUnit_stolen (s : State) (c : Bool) (fl : Flock) : (s.closeUnit c fl).stolen = s.stolen := by unfold State.closeUnit; split <;> simp
@[simp] theorem State.closeUnit_regs (s : State) (c : Bool) (fl : Flock) : (s.closeUnit c fl).regs = s.regs := by unfold State.closeUnit; split <;> simp
@[simp] theorem State.closeUnit_wins (s : State) (c : Bool) (fl : Flock) : (s.closeUnit c fl).wins = s.wins := by unfold State.closeUnit; split <;> simp
@[simp] theorem State.closeUnit_carts (s : State) (c : Bool) (fl : Flock) : (s.closeUnit c fl).carts = s.carts := by unfold State.closeUnit; split <;> simp
@[simp] theorem State.closeUnit_chans (s : State) (c : Bool) (fl : Flock) : (s.closeUnit c fl).chans = s.chans := by unfold State.closeUnit; split <;> simp
@[simp] theorem State.closeUnit_unacked (s : State) (c : Bool) (fl : Flock) : (s.closeUnit c fl).unacked = s.unacked := by unfold State.closeUnit; split <;> simp
@[simp] theorem State.closeUnit_rfqWait (s : State) (c : Bool) (fl : Flock) : (s.closeUnit c fl).rfqWait = s.rfqWait := by unfold State.closeUnit; split <;> simp
@[simp] theorem State.closeUnit_hostWids (s : State) (c : Bool) (fl : Flock) : (s.closeUnit c fl).hostWids = s.hostWids := by unfold State.closeUnit; split <;> simp
@[simp] theorem State.closeUnit_hostHeld (s : State) (c : Bool) (fl : Flock) : (s.closeUnit c fl).hostHeld = s.hostHeld := by unfold State.closeUnit; split <;> simp
@[simp] theorem State.closeUnit_acks (s : State) (c : Bool) (fl : Flock) : (s.closeUnit c fl).acks = s.acks := by unfold State.closeUnit; split <;> simp
@[simp] theorem State.closeUnit_outbox (s : State) (c : Bool) (fl : Flock) : (s.closeUnit c fl).outbox = s.outbox := by unfold State.closeUnit; split <;> simp
@[simp] theorem State.closeUnit_remaps (s : State) (c : Bool) (fl : Flock) : (s.closeUnit c fl).remaps = s.remaps := by unfold State.closeUnit; split <;> simp
@[simp] theorem State.closeUnit_openTags (s : State) (c : Bool) (fl : Flock) : (s.closeUnit c fl).openTags = s.openTags := by unfold State.closeUnit; split <;> simp
@[simp] theorem State.closeUnit_imports (s : State) (c : Bool) (fl : Flock) : (s.closeUnit c fl).imports = s.imports := by unfold State.closeUnit; split <;> simp
@[simp] theorem State.closeUnit_probes (s : State) (c : Bool) (fl : Flock) : (s.closeUnit c fl).probes = s.probes := by unfold State.closeUnit; split <;> simp
@[simp] theorem State.closeUnit_lostOn (s : State) (c : Bool) (fl : Flock) : (s.closeUnit c fl).lostOn = s.lostOn := by unfold State.closeUnit; split <;> simp
@[simp] theorem State.closeUnit_ports (s : State) (c : Bool) (fl : Flock) : (s.closeUnit c fl).ports = s.ports := by unfold State.closeUnit; split <;> simp
@[simp] theorem State.closeUnit_hot (s : State) (c : Bool) (fl : Flock) : (s.closeUnit c fl).hot = s.hot := by unfold State.closeUnit; split <;> simp
@[simp] theorem State.closeUnit_recvSeq (s : State) (c : Bool) (fl : Flock) : (s.closeUnit c fl).recvSeq = s.recvSeq := by unfold State.closeUnit; split <;> simp
@[simp] theorem State.closeUnit_monitors (s : State) (c : Bool) (fl : Flock) : (s.closeUnit c fl).monitors = s.monitors := by unfold State.closeUnit; split <;> simp
@[simp] theorem State.closeUnit_stopSeq (s : State) (c : Bool) (fl : Flock) : (s.closeUnit c fl).stopSeq = s.stopSeq := by unfold State.closeUnit; split <;> simp
@[simp] theorem State.closeUnit_traceSeq (s : State) (c : Bool) (fl : Flock) : (s.closeUnit c fl).traceSeq = s.traceSeq := by unfold State.closeUnit; split <;> simp
@[simp] theorem State.closeUnit_dbgCount (s : State) (c : Bool) (fl : Flock) : (s.closeUnit c fl).dbgCount = s.dbgCount := by unfold State.closeUnit; split <;> simp
@[simp] theorem State.closeUnit_stallOut (s : State) (c : Bool) (fl : Flock) : (s.closeUnit c fl).stallOut = s.stallOut := by unfold State.closeUnit; split <;> simp
@[simp] theorem State.closeUnit_lastUnit (s : State) (c : Bool) (fl : Flock) : (s.closeUnit c fl).lastUnit = s.lastUnit := by unfold State.closeUnit; split <;> simp
@[simp] theorem State.closeUnit_keys (s : State) (c : Bool) (fl : Flock) : (s.closeUnit c fl).keys = s.keys := by unfold State.closeUnit; split <;> simp
@[simp] theorem State.closeUnit_hwm (s : State) (c : Bool) (fl : Flock) : (s.closeUnit c fl).hwm = s.hwm := by unfold State.closeUnit; split <;> simp
@[simp] theorem State.closeUnit_keks (s : State) (c : Bool) (fl : Flock) : (s.closeUnit c fl).keks = s.keks := by unfold State.closeUnit; split <;> simp
@[simp] theorem State.closeUnit_meas (s : State) (c : Bool) (fl : Flock) : (s.closeUnit c fl).meas = s.meas := by unfold State.closeUnit; split <;> simp
@[simp] theorem State.closeUnit_reportSeq (s : State) (c : Bool) (fl : Flock) : (s.closeUnit c fl).reportSeq = s.reportSeq := by unfold State.closeUnit; split <;> simp
@[simp] theorem State.closeUnit_boots (s : State) (c : Bool) (fl : Flock) : (s.closeUnit c fl).boots = s.boots := by unfold State.closeUnit; split <;> simp
@[simp] theorem State.closeUnit_booted (s : State) (c : Bool) (fl : Flock) : (s.closeUnit c fl).booted = s.booted := by unfold State.closeUnit; split <;> simp
@[simp] theorem State.closeUnit_bootFailed (s : State) (c : Bool) (fl : Flock) : (s.closeUnit c fl).bootFailed = s.bootFailed := by unfold State.closeUnit; split <;> simp
@[simp] theorem State.closeUnit_curfew (s : State) (c : Bool) (fl : Flock) : (s.closeUnit c fl).curfew = s.curfew := by unfold State.closeUnit; split <;> simp
@[simp] theorem State.closeUnit_tapIr (s : State) (c : Bool) (fl : Flock) : (s.closeUnit c fl).tapIr = s.tapIr := by unfold State.closeUnit; split <;> simp
@[simp] theorem State.closeUnit_saddr (s : State) (c : Bool) (fl : Flock) : (s.closeUnit c fl).saddr = s.saddr := by unfold State.closeUnit; split <;> simp
@[simp] theorem State.closeUnit_boundary (s : State) (c : Bool) (fl : Flock) : (s.closeUnit c fl).boundary = s.boundary := by unfold State.closeUnit; split <;> simp
@[simp] theorem State.closeUnit_now (s : State) (c : Bool) (fl : Flock) : (s.closeUnit c fl).now = s.now := by unfold State.closeUnit; split <;> simp
@[simp] theorem State.closeUnit_cyc (s : State) (c : Bool) (fl : Flock) : (s.closeUnit c fl).cyc = s.cyc := by unfold State.closeUnit; split <;> simp
@[simp] theorem State.closeUnit_out (s : State) (c : Bool) (fl : Flock) : (s.closeUnit c fl).out = s.out := by unfold State.closeUnit; split <;> simp
@[simp] theorem State.closeUnit_agenda (s : State) (c : Bool) (fl : Flock) : (s.closeUnit c fl).agenda = s.agenda := by unfold State.closeUnit; split <;> simp
@[simp] theorem State.closeUnit_leaving (s : State) (c : Bool) (fl : Flock) : (s.closeUnit c fl).leaving = s.leaving := by unfold State.closeUnit; split <;> simp
@[simp] theorem State.closeUnit_cur (s : State) (c : Bool) (fl : Flock) : (s.closeUnit c fl).cur = s.cur := by unfold State.closeUnit; split <;> simp
@[simp] theorem State.closeUnit_pace (s : State) (c : Bool) (fl : Flock) : (s.closeUnit c fl).pace = s.pace := by unfold State.closeUnit; split <;> simp
@[simp] theorem State.closeUnit_lag (s : State) (c : Bool) (fl : Flock) : (s.closeUnit c fl).lag = s.lag := by unfold State.closeUnit; split <;> simp
@[simp] theorem State.closeUnit_serial (s : State) (c : Bool) (fl : Flock) : (s.closeUnit c fl).serial = s.serial := by unfold State.closeUnit; split <;> simp

/-! ### bufferWrite -/

@[simp] theorem State.bufferWrite_mem (s : State) (k : FKey) (seq : Nat) (d : Dest) (n : Nat) (kind : WKind) (rel : Bool) (va : Nat) : (s.bufferWrite k seq d n kind rel va).mem = s.mem := rfl
@[simp] theorem State.bufferWrite_full (s : State) (k : FKey) (seq : Nat) (d : Dest) (n : Nat) (kind : WKind) (rel : Bool) (va : Nat) : (s.bufferWrite k seq d n kind rel va).full = s.full := rfl
@[simp] theorem State.bufferWrite_poison (s : State) (k : FKey) (seq : Nat) (d : Dest) (n : Nat) (kind : WKind) (rel : Bool) (va : Nat) : (s.bufferWrite k seq d n kind rel va).poison = s.poison := rfl
@[simp] theorem State.bufferWrite_peerCode (s : State) (k : FKey) (seq : Nat) (d : Dest) (n : Nat) (kind : WKind) (rel : Bool) (va : Nat) : (s.bufferWrite k seq d n kind rel va).peerCode = s.peerCode := rfl
@[simp] theorem State.bufferWrite_flocks (s : State) (k : FKey) (seq : Nat) (d : Dest) (n : Nat) (kind : WKind) (rel : Bool) (va : Nat) : (s.bufferWrite k seq d n kind rel va).flocks = s.flocks := rfl
@[simp] theorem State.bufferWrite_reqs (s : State) (k : FKey) (seq : Nat) (d : Dest) (n : Nat) (kind : WKind) (rel : Bool) (va : Nat) : (s.bufferWrite k seq d n kind rel va).reqs = s.reqs := rfl
@[simp] theorem State.bufferWrite_aq (s : State) (k : FKey) (seq : Nat) (d : Dest) (n : Nat) (kind : WKind) (rel : Bool) (va : Nat) : (s.bufferWrite k seq d n kind rel va).aq = s.aq := rfl
@[simp] theorem State.bufferWrite_hist (s : State) (k : FKey) (seq : Nat) (d : Dest) (n : Nat) (kind : WKind) (rel : Bool) (va : Nat) : (s.bufferWrite k seq d n kind rel va).hist = s.hist := rfl
@[simp] theorem State.bufferWrite_kn (s : State) (k : FKey) (seq : Nat) (d : Dest) (n : Nat) (kind : WKind) (rel : Bool) (va : Nat) : (s.bufferWrite k seq d n kind rel va).kn = s.kn := rfl
@[simp] theorem State.bufferWrite_shares (s : State) (k : FKey) (seq : Nat) (d : Dest) (n : Nat) (kind : WKind) (rel : Bool) (va : Nat) : (s.bufferWrite k seq d n kind rel va).shares = s.shares := rfl
@[simp] theorem State.bufferWrite_sgen (s : State) (k : FKey) (seq : Nat) (d : Dest) (n : Nat) (kind : WKind) (rel : Bool) (va : Nat) : (s.bufferWrite k seq d n kind rel va).sgen = s.sgen := rfl
@[simp] theorem State.bufferWrite_saved (s : State) (k : FKey) (seq : Nat) (d : Dest) (n : Nat) (kind : WKind) (rel : Bool) (va : Nat) : (s.bufferWrite k seq d n kind rel va).saved = s.saved := rfl
@[simp] theorem State.bufferWrite_remains (s : State) (k : FKey) (seq : Nat) (d : Dest) (n : Nat) (kind : WKind) (rel : Bool) (va : Nat) : (s.bufferWrite k seq d n kind rel va).remains = s.remains := rfl
@[simp] theorem State.bufferWrite_loans (s : State) (k : FKey) (seq : Nat) (d : Dest) (n : Nat) (kind : WKind) (rel : Bool) (va : Nat) : (s.bufferWrite k seq d n kind rel va).loans = s.loans := rfl
@[simp] theorem State.bufferWrite_quarters (s : State) (k : FKey) (seq : Nat) (d : Dest) (n : Nat) (kind : WKind) (rel : Bool) (va : Nat) : (s.bufferWrite k seq d n kind rel va).quarters = s.quarters := rfl
@[simp] theorem State.bufferWrite_tiles (s : State) (k : FKey) (seq : Nat) (d : Dest) (n : Nat) (kind : WKind) (rel : Bool) (va : Nat) : (s.bufferWrite k seq d n kind rel va).tiles = s.tiles := rfl
@[simp] theorem State.bufferWrite_eops (s : State) (k : FKey) (seq : Nat) (d : Dest) (n : Nat) (kind : WKind) (rel : Bool) (va : Nat) : (s.bufferWrite k seq d n kind rel va).eops = s.eops := rfl
@[simp] theorem State.bufferWrite_fetches (s : State) (k : FKey) (seq : Nat) (d : Dest) (n : Nat) (kind : WKind) (rel : Bool) (va : Nat) : (s.bufferWrite k seq d n kind rel va).fetches = s.fetches := rfl
@[simp] theorem State.bufferWrite_lines (s : State) (k : FKey) (seq : Nat) (d : Dest) (n : Nat) (kind : WKind) (rel : Bool) (va : Nat) : (s.bufferWrite k seq d n kind rel va).lines = s.lines := rfl
@[simp] theorem State.bufferWrite_hbits (s : State) (k : FKey) (seq : Nat) (d : Dest) (n : Nat) (kind : WKind) (rel : Bool) (va : Nat) : (s.bufferWrite k seq d n kind rel va).hbits = s.hbits := rfl
@[simp] theorem State.bufferWrite_l1 (s : State) (k : FKey) (seq : Nat) (d : Dest) (n : Nat) (kind : WKind) (rel : Bool) (va : Nat) : (s.bufferWrite k seq d n kind rel va).l1 = s.l1 := rfl
@[simp] theorem State.bufferWrite_predict (s : State) (k : FKey) (seq : Nat) (d : Dest) (n : Nat) (kind : WKind) (rel : Bool) (va : Nat) : (s.bufferWrite k seq d n kind rel va).predict = s.predict := rfl
@[simp] theorem State.bufferWrite_floors (s : State) (k : FKey) (seq : Nat) (d : Dest) (n : Nat) (kind : WKind) (rel : Bool) (va : Nat) : (s.bufferWrite k seq d n kind rel va).floors = s.floors := rfl
@[simp] theorem State.bufferWrite_pages (s : State) (k : FKey) (seq : Nat) (d : Dest) (n : Nat) (kind : WKind) (rel : Bool) (va : Nat) : (s.bufferWrite k seq d n kind rel va).pages = s.pages := rfl
@[simp] theorem State.bufferWrite_smap (s : State) (k : FKey) (seq : Nat) (d : Dest) (n : Nat) (kind : WKind) (rel : Bool) (va : Nat) : (s.bufferWrite k seq d n kind rel va).smap = s.smap := rfl
@[simp] theorem State.bufferWrite_smapGen (s : State) (k : FKey) (seq : Nat) (d : Dest) (n : Nat) (kind : WKind) (rel : Bool) (va : Nat) : (s.bufferWrite k seq d n kind rel va).smapGen = s.smapGen := rfl
@[simp] theorem State.bufferWrite_grace (s : State) (k : FKey) (seq : Nat) (d : Dest) (n : Nat) (kind : WKind) (rel : Bool) (va : Nat) : (s.bufferWrite k seq d n kind rel va).grace = s.grace := rfl
@[simp] theorem State.bufferWrite_frozen (s : State) (k : FKey) (seq : Nat) (d : Dest) (n : Nat) (kind : WKind) (rel : Bool) (va : Nat) : (s.bufferWrite k seq d n kind rel va).frozen = s.frozen := rfl
@[simp] theorem State.bufferWrite_leafCnt (s : State) (k : FKey) (seq : Nat) (d : Dest) (n : Nat) (kind : WKind) (rel : Bool) (va : Nat) : (s.bufferWrite k seq d n kind rel va).leafCnt = s.leafCnt := rfl
@[simp] theorem State.bufferWrite_staleSlots (s : State) (k : FKey) (seq : Nat) (d : Dest) (n : Nat) (kind : WKind) (rel : Bool) (va : Nat) : (s.bufferWrite k seq d n kind rel va).staleSlots = s.staleSlots := rfl
@[simp] theorem State.bufferWrite_hostCommits (s : State) (k : FKey) (seq : Nat) (d : Dest) (n : Nat) (kind : WKind) (rel : Bool) (va : Nat) : (s.bufferWrite k seq d n kind rel va).hostCommits = s.hostCommits := rfl
@[simp] theorem State.bufferWrite_pending (s : State) (k : FKey) (seq : Nat) (d : Dest) (n : Nat) (kind : WKind) (rel : Bool) (va : Nat) : (s.bufferWrite k seq d n kind rel va).pending = s.pending := rfl
@[simp] theorem State.bufferWrite_ctxs (s : State) (k : FKey) (seq : Nat) (d : Dest) (n : Nat) (kind : WKind) (rel : Bool) (va : Nat) : (s.bufferWrite k seq d n kind rel va).ctxs = s.ctxs := rfl
@[simp] theorem State.bufferWrite_steal (s : State) (k : FKey) (seq : Nat) (d : Dest) (n : Nat) (kind : WKind) (rel : Bool) (va : Nat) : (s.bufferWrite k seq d n kind rel va).steal = s.steal := rfl
@[simp] theorem State.bufferWrite_stolen (s : State) (k : FKey) (seq : Nat) (d : Dest) (n : Nat) (kind : WKind) (rel : Bool) (va : Nat) : (s.bufferWrite k seq d n kind rel va).stolen = s.stolen := rfl
@[simp] theorem State.bufferWrite_regs (s : State) (k : FKey) (seq : Nat) (d : Dest) (n : Nat) (kind : WKind) (rel : Bool) (va : Nat) : (s.bufferWrite k seq d n kind rel va).regs = s.regs := rfl
@[simp] theorem State.bufferWrite_wins (s : State) (k : FKey) (seq : Nat) (d : Dest) (n : Nat) (kind : WKind) (rel : Bool) (va : Nat) : (s.bufferWrite k seq d n kind rel va).wins = s.wins := rfl
@[simp] theorem State.bufferWrite_carts (s : State) (k : FKey) (seq : Nat) (d : Dest) (n : Nat) (kind : WKind) (rel : Bool) (va : Nat) : (s.bufferWrite k seq d n kind rel va).carts = s.carts := rfl
@[simp] theorem State.bufferWrite_chans (s : State) (k : FKey) (seq : Nat) (d : Dest) (n : Nat) (kind : WKind) (rel : Bool) (va : Nat) : (s.bufferWrite k seq d n kind rel va).chans = s.chans := rfl
@[simp] theorem State.bufferWrite_unacked (s : State) (k : FKey) (seq : Nat) (d : Dest) (n : Nat) (kind : WKind) (rel : Bool) (va : Nat) : (s.bufferWrite k seq d n kind rel va).unacked = s.unacked := rfl
@[simp] theorem State.bufferWrite_rfqWait (s : State) (k : FKey) (seq : Nat) (d : Dest) (n : Nat) (kind : WKind) (rel : Bool) (va : Nat) : (s.bufferWrite k seq d n kind rel va).rfqWait = s.rfqWait := rfl
@[simp] theorem State.bufferWrite_hostWids (s : State) (k : FKey) (seq : Nat) (d : Dest) (n : Nat) (kind : WKind) (rel : Bool) (va : Nat) : (s.bufferWrite k seq d n kind rel va).hostWids = s.hostWids := rfl
@[simp] theorem State.bufferWrite_hostHeld (s : State) (k : FKey) (seq : Nat) (d : Dest) (n : Nat) (kind : WKind) (rel : Bool) (va : Nat) : (s.bufferWrite k seq d n kind rel va).hostHeld = s.hostHeld := rfl
@[simp] theorem State.bufferWrite_acks (s : State) (k : FKey) (seq : Nat) (d : Dest) (n : Nat) (kind : WKind) (rel : Bool) (va : Nat) : (s.bufferWrite k seq d n kind rel va).acks = s.acks := rfl
@[simp] theorem State.bufferWrite_outbox (s : State) (k : FKey) (seq : Nat) (d : Dest) (n : Nat) (kind : WKind) (rel : Bool) (va : Nat) : (s.bufferWrite k seq d n kind rel va).outbox = s.outbox := rfl
@[simp] theorem State.bufferWrite_remaps (s : State) (k : FKey) (seq : Nat) (d : Dest) (n : Nat) (kind : WKind) (rel : Bool) (va : Nat) : (s.bufferWrite k seq d n kind rel va).remaps = s.remaps := rfl
@[simp] theorem State.bufferWrite_openTags (s : State) (k : FKey) (seq : Nat) (d : Dest) (n : Nat) (kind : WKind) (rel : Bool) (va : Nat) : (s.bufferWrite k seq d n kind rel va).openTags = s.openTags := rfl
@[simp] theorem State.bufferWrite_imports (s : State) (k : FKey) (seq : Nat) (d : Dest) (n : Nat) (kind : WKind) (rel : Bool) (va : Nat) : (s.bufferWrite k seq d n kind rel va).imports = s.imports := rfl
@[simp] theorem State.bufferWrite_probes (s : State) (k : FKey) (seq : Nat) (d : Dest) (n : Nat) (kind : WKind) (rel : Bool) (va : Nat) : (s.bufferWrite k seq d n kind rel va).probes = s.probes := rfl
@[simp] theorem State.bufferWrite_lostOn (s : State) (k : FKey) (seq : Nat) (d : Dest) (n : Nat) (kind : WKind) (rel : Bool) (va : Nat) : (s.bufferWrite k seq d n kind rel va).lostOn = s.lostOn := rfl
@[simp] theorem State.bufferWrite_ports (s : State) (k : FKey) (seq : Nat) (d : Dest) (n : Nat) (kind : WKind) (rel : Bool) (va : Nat) : (s.bufferWrite k seq d n kind rel va).ports = s.ports := rfl
@[simp] theorem State.bufferWrite_hot (s : State) (k : FKey) (seq : Nat) (d : Dest) (n : Nat) (kind : WKind) (rel : Bool) (va : Nat) : (s.bufferWrite k seq d n kind rel va).hot = s.hot := rfl
@[simp] theorem State.bufferWrite_recvSeq (s : State) (k : FKey) (seq : Nat) (d : Dest) (n : Nat) (kind : WKind) (rel : Bool) (va : Nat) : (s.bufferWrite k seq d n kind rel va).recvSeq = s.recvSeq := rfl
@[simp] theorem State.bufferWrite_monitors (s : State) (k : FKey) (seq : Nat) (d : Dest) (n : Nat) (kind : WKind) (rel : Bool) (va : Nat) : (s.bufferWrite k seq d n kind rel va).monitors = s.monitors := rfl
@[simp] theorem State.bufferWrite_stopSeq (s : State) (k : FKey) (seq : Nat) (d : Dest) (n : Nat) (kind : WKind) (rel : Bool) (va : Nat) : (s.bufferWrite k seq d n kind rel va).stopSeq = s.stopSeq := rfl
@[simp] theorem State.bufferWrite_traceSeq (s : State) (k : FKey) (seq : Nat) (d : Dest) (n : Nat) (kind : WKind) (rel : Bool) (va : Nat) : (s.bufferWrite k seq d n kind rel va).traceSeq = s.traceSeq := rfl
@[simp] theorem State.bufferWrite_dbgCount (s : State) (k : FKey) (seq : Nat) (d : Dest) (n : Nat) (kind : WKind) (rel : Bool) (va : Nat) : (s.bufferWrite k seq d n kind rel va).dbgCount = s.dbgCount := rfl
@[simp] theorem State.bufferWrite_stallOut (s : State) (k : FKey) (seq : Nat) (d : Dest) (n : Nat) (kind : WKind) (rel : Bool) (va : Nat) : (s.bufferWrite k seq d n kind rel va).stallOut = s.stallOut := rfl
@[simp] theorem State.bufferWrite_lastUnit (s : State) (k : FKey) (seq : Nat) (d : Dest) (n : Nat) (kind : WKind) (rel : Bool) (va : Nat) : (s.bufferWrite k seq d n kind rel va).lastUnit = s.lastUnit := rfl
@[simp] theorem State.bufferWrite_keys (s : State) (k : FKey) (seq : Nat) (d : Dest) (n : Nat) (kind : WKind) (rel : Bool) (va : Nat) : (s.bufferWrite k seq d n kind rel va).keys = s.keys := rfl
@[simp] theorem State.bufferWrite_hwm (s : State) (k : FKey) (seq : Nat) (d : Dest) (n : Nat) (kind : WKind) (rel : Bool) (va : Nat) : (s.bufferWrite k seq d n kind rel va).hwm = s.hwm := rfl
@[simp] theorem State.bufferWrite_keks (s : State) (k : FKey) (seq : Nat) (d : Dest) (n : Nat) (kind : WKind) (rel : Bool) (va : Nat) : (s.bufferWrite k seq d n kind rel va).keks = s.keks := rfl
@[simp] theorem State.bufferWrite_meas (s : State) (k : FKey) (seq : Nat) (d : Dest) (n : Nat) (kind : WKind) (rel : Bool) (va : Nat) : (s.bufferWrite k seq d n kind rel va).meas = s.meas := rfl
@[simp] theorem State.bufferWrite_reportSeq (s : State) (k : FKey) (seq : Nat) (d : Dest) (n : Nat) (kind : WKind) (rel : Bool) (va : Nat) : (s.bufferWrite k seq d n kind rel va).reportSeq = s.reportSeq := rfl
@[simp] theorem State.bufferWrite_boots (s : State) (k : FKey) (seq : Nat) (d : Dest) (n : Nat) (kind : WKind) (rel : Bool) (va : Nat) : (s.bufferWrite k seq d n kind rel va).boots = s.boots := rfl
@[simp] theorem State.bufferWrite_booted (s : State) (k : FKey) (seq : Nat) (d : Dest) (n : Nat) (kind : WKind) (rel : Bool) (va : Nat) : (s.bufferWrite k seq d n kind rel va).booted = s.booted := rfl
@[simp] theorem State.bufferWrite_bootFailed (s : State) (k : FKey) (seq : Nat) (d : Dest) (n : Nat) (kind : WKind) (rel : Bool) (va : Nat) : (s.bufferWrite k seq d n kind rel va).bootFailed = s.bootFailed := rfl
@[simp] theorem State.bufferWrite_curfew (s : State) (k : FKey) (seq : Nat) (d : Dest) (n : Nat) (kind : WKind) (rel : Bool) (va : Nat) : (s.bufferWrite k seq d n kind rel va).curfew = s.curfew := rfl
@[simp] theorem State.bufferWrite_tapIr (s : State) (k : FKey) (seq : Nat) (d : Dest) (n : Nat) (kind : WKind) (rel : Bool) (va : Nat) : (s.bufferWrite k seq d n kind rel va).tapIr = s.tapIr := rfl
@[simp] theorem State.bufferWrite_saddr (s : State) (k : FKey) (seq : Nat) (d : Dest) (n : Nat) (kind : WKind) (rel : Bool) (va : Nat) : (s.bufferWrite k seq d n kind rel va).saddr = s.saddr := rfl
@[simp] theorem State.bufferWrite_boundary (s : State) (k : FKey) (seq : Nat) (d : Dest) (n : Nat) (kind : WKind) (rel : Bool) (va : Nat) : (s.bufferWrite k seq d n kind rel va).boundary = s.boundary := rfl
@[simp] theorem State.bufferWrite_now (s : State) (k : FKey) (seq : Nat) (d : Dest) (n : Nat) (kind : WKind) (rel : Bool) (va : Nat) : (s.bufferWrite k seq d n kind rel va).now = s.now := rfl
@[simp] theorem State.bufferWrite_cyc (s : State) (k : FKey) (seq : Nat) (d : Dest) (n : Nat) (kind : WKind) (rel : Bool) (va : Nat) : (s.bufferWrite k seq d n kind rel va).cyc = s.cyc := rfl
@[simp] theorem State.bufferWrite_out (s : State) (k : FKey) (seq : Nat) (d : Dest) (n : Nat) (kind : WKind) (rel : Bool) (va : Nat) : (s.bufferWrite k seq d n kind rel va).out = s.out := rfl
@[simp] theorem State.bufferWrite_agenda (s : State) (k : FKey) (seq : Nat) (d : Dest) (n : Nat) (kind : WKind) (rel : Bool) (va : Nat) : (s.bufferWrite k seq d n kind rel va).agenda = s.agenda := rfl
@[simp] theorem State.bufferWrite_leaving (s : State) (k : FKey) (seq : Nat) (d : Dest) (n : Nat) (kind : WKind) (rel : Bool) (va : Nat) : (s.bufferWrite k seq d n kind rel va).leaving = s.leaving := rfl
@[simp] theorem State.bufferWrite_cur (s : State) (k : FKey) (seq : Nat) (d : Dest) (n : Nat) (kind : WKind) (rel : Bool) (va : Nat) : (s.bufferWrite k seq d n kind rel va).cur = s.cur := rfl
@[simp] theorem State.bufferWrite_pace (s : State) (k : FKey) (seq : Nat) (d : Dest) (n : Nat) (kind : WKind) (rel : Bool) (va : Nat) : (s.bufferWrite k seq d n kind rel va).pace = s.pace := rfl
@[simp] theorem State.bufferWrite_lag (s : State) (k : FKey) (seq : Nat) (d : Dest) (n : Nat) (kind : WKind) (rel : Bool) (va : Nat) : (s.bufferWrite k seq d n kind rel va).lag = s.lag := rfl

/-! ### halt -/

@[simp] theorem State.halt_mem (s : State) (c : Nat) (i : HaltInfo) : (s.halt c i).mem = s.mem := by unfold State.halt; repeat (first | rfl | split)
@[simp] theorem State.halt_full (s : State) (c : Nat) (i : HaltInfo) : (s.halt c i).full = s.full := by unfold State.halt; repeat (first | rfl | split)
@[simp] theorem State.halt_poison (s : State) (c : Nat) (i : HaltInfo) : (s.halt c i).poison = s.poison := by unfold State.halt; repeat (first | rfl | split)
@[simp] theorem State.halt_peerCode (s : State) (c : Nat) (i : HaltInfo) : (s.halt c i).peerCode = s.peerCode := by unfold State.halt; repeat (first | rfl | split)
@[simp] theorem State.halt_reqs (s : State) (c : Nat) (i : HaltInfo) : (s.halt c i).reqs = s.reqs := by unfold State.halt; repeat (first | rfl | split)
@[simp] theorem State.halt_aq (s : State) (c : Nat) (i : HaltInfo) : (s.halt c i).aq = s.aq := by unfold State.halt; repeat (first | rfl | split)
@[simp] theorem State.halt_hist (s : State) (c : Nat) (i : HaltInfo) : (s.halt c i).hist = s.hist := by unfold State.halt; repeat (first | rfl | split)
@[simp] theorem State.halt_kn (s : State) (c : Nat) (i : HaltInfo) : (s.halt c i).kn = s.kn := by unfold State.halt; repeat (first | rfl | split)
@[simp] theorem State.halt_shares (s : State) (c : Nat) (i : HaltInfo) : (s.halt c i).shares = s.shares := by unfold State.halt; repeat (first | rfl | split)
@[simp] theorem State.halt_sgen (s : State) (c : Nat) (i : HaltInfo) : (s.halt c i).sgen = s.sgen := by unfold State.halt; repeat (first | rfl | split)
@[simp] theorem State.halt_saved (s : State) (c : Nat) (i : HaltInfo) : (s.halt c i).saved = s.saved := by unfold State.halt; repeat (first | rfl | split)
@[simp] theorem State.halt_remains (s : State) (c : Nat) (i : HaltInfo) : (s.halt c i).remains = s.remains := by unfold State.halt; repeat (first | rfl | split)
@[simp] theorem State.halt_loans (s : State) (c : Nat) (i : HaltInfo) : (s.halt c i).loans = s.loans := by unfold State.halt; repeat (first | rfl | split)
@[simp] theorem State.halt_quarters (s : State) (c : Nat) (i : HaltInfo) : (s.halt c i).quarters = s.quarters := by unfold State.halt; repeat (first | rfl | split)
@[simp] theorem State.halt_tiles (s : State) (c : Nat) (i : HaltInfo) : (s.halt c i).tiles = s.tiles := by unfold State.halt; repeat (first | rfl | split)
@[simp] theorem State.halt_eops (s : State) (c : Nat) (i : HaltInfo) : (s.halt c i).eops = s.eops := by unfold State.halt; repeat (first | rfl | split)
@[simp] theorem State.halt_fetches (s : State) (c : Nat) (i : HaltInfo) : (s.halt c i).fetches = s.fetches := by unfold State.halt; repeat (first | rfl | split)
@[simp] theorem State.halt_lines (s : State) (c : Nat) (i : HaltInfo) : (s.halt c i).lines = s.lines := by unfold State.halt; repeat (first | rfl | split)
@[simp] theorem State.halt_hbits (s : State) (c : Nat) (i : HaltInfo) : (s.halt c i).hbits = s.hbits := by unfold State.halt; repeat (first | rfl | split)
@[simp] theorem State.halt_l1 (s : State) (c : Nat) (i : HaltInfo) : (s.halt c i).l1 = s.l1 := by unfold State.halt; repeat (first | rfl | split)
@[simp] theorem State.halt_predict (s : State) (c : Nat) (i : HaltInfo) : (s.halt c i).predict = s.predict := by unfold State.halt; repeat (first | rfl | split)
@[simp] theorem State.halt_floors (s : State) (c : Nat) (i : HaltInfo) : (s.halt c i).floors = s.floors := by unfold State.halt; repeat (first | rfl | split)
@[simp] theorem State.halt_pages (s : State) (c : Nat) (i : HaltInfo) : (s.halt c i).pages = s.pages := by unfold State.halt; repeat (first | rfl | split)
@[simp] theorem State.halt_smap (s : State) (c : Nat) (i : HaltInfo) : (s.halt c i).smap = s.smap := by unfold State.halt; repeat (first | rfl | split)
@[simp] theorem State.halt_smapGen (s : State) (c : Nat) (i : HaltInfo) : (s.halt c i).smapGen = s.smapGen := by unfold State.halt; repeat (first | rfl | split)
@[simp] theorem State.halt_grace (s : State) (c : Nat) (i : HaltInfo) : (s.halt c i).grace = s.grace := by unfold State.halt; repeat (first | rfl | split)
@[simp] theorem State.halt_frozen (s : State) (c : Nat) (i : HaltInfo) : (s.halt c i).frozen = s.frozen := by unfold State.halt; repeat (first | rfl | split)
@[simp] theorem State.halt_leafCnt (s : State) (c : Nat) (i : HaltInfo) : (s.halt c i).leafCnt = s.leafCnt := by unfold State.halt; repeat (first | rfl | split)
@[simp] theorem State.halt_staleSlots (s : State) (c : Nat) (i : HaltInfo) : (s.halt c i).staleSlots = s.staleSlots := by unfold State.halt; repeat (first | rfl | split)
@[simp] theorem State.halt_hostCommits (s : State) (c : Nat) (i : HaltInfo) : (s.halt c i).hostCommits = s.hostCommits := by unfold State.halt; repeat (first | rfl | split)
@[simp] theorem State.halt_pending (s : State) (c : Nat) (i : HaltInfo) : (s.halt c i).pending = s.pending := by unfold State.halt; repeat (first | rfl | split)
@[simp] theorem State.halt_steal (s : State) (c : Nat) (i : HaltInfo) : (s.halt c i).steal = s.steal := by unfold State.halt; repeat (first | rfl | split)
@[simp] theorem State.halt_stolen (s : State) (c : Nat) (i : HaltInfo) : (s.halt c i).stolen = s.stolen := by unfold State.halt; repeat (first | rfl | split)
@[simp] theorem State.halt_regs (s : State) (c : Nat) (i : HaltInfo) : (s.halt c i).regs = s.regs := by unfold State.halt; repeat (first | rfl | split)
@[simp] theorem State.halt_wins (s : State) (c : Nat) (i : HaltInfo) : (s.halt c i).wins = s.wins := by unfold State.halt; repeat (first | rfl | split)
@[simp] theorem State.halt_carts (s : State) (c : Nat) (i : HaltInfo) : (s.halt c i).carts = s.carts := by unfold State.halt; repeat (first | rfl | split)
@[simp] theorem State.halt_chans (s : State) (c : Nat) (i : HaltInfo) : (s.halt c i).chans = s.chans := by unfold State.halt; repeat (first | rfl | split)
@[simp] theorem State.halt_unacked (s : State) (c : Nat) (i : HaltInfo) : (s.halt c i).unacked = s.unacked := by unfold State.halt; repeat (first | rfl | split)
@[simp] theorem State.halt_rfqWait (s : State) (c : Nat) (i : HaltInfo) : (s.halt c i).rfqWait = s.rfqWait := by unfold State.halt; repeat (first | rfl | split)
@[simp] theorem State.halt_hostWids (s : State) (c : Nat) (i : HaltInfo) : (s.halt c i).hostWids = s.hostWids := by unfold State.halt; repeat (first | rfl | split)
@[simp] theorem State.halt_hostHeld (s : State) (c : Nat) (i : HaltInfo) : (s.halt c i).hostHeld = s.hostHeld := by unfold State.halt; repeat (first | rfl | split)
@[simp] theorem State.halt_acks (s : State) (c : Nat) (i : HaltInfo) : (s.halt c i).acks = s.acks := by unfold State.halt; repeat (first | rfl | split)
@[simp] theorem State.halt_outbox (s : State) (c : Nat) (i : HaltInfo) : (s.halt c i).outbox = s.outbox := by unfold State.halt; repeat (first | rfl | split)
@[simp] theorem State.halt_remaps (s : State) (c : Nat) (i : HaltInfo) : (s.halt c i).remaps = s.remaps := by unfold State.halt; repeat (first | rfl | split)
@[simp] theorem State.halt_openTags (s : State) (c : Nat) (i : HaltInfo) : (s.halt c i).openTags = s.openTags := by unfold State.halt; repeat (first | rfl | split)
@[simp] theorem State.halt_imports (s : State) (c : Nat) (i : HaltInfo) : (s.halt c i).imports = s.imports := by unfold State.halt; repeat (first | rfl | split)
@[simp] theorem State.halt_probes (s : State) (c : Nat) (i : HaltInfo) : (s.halt c i).probes = s.probes := by unfold State.halt; repeat (first | rfl | split)
@[simp] theorem State.halt_lostOn (s : State) (c : Nat) (i : HaltInfo) : (s.halt c i).lostOn = s.lostOn := by unfold State.halt; repeat (first | rfl | split)
@[simp] theorem State.halt_ports (s : State) (c : Nat) (i : HaltInfo) : (s.halt c i).ports = s.ports := by unfold State.halt; repeat (first | rfl | split)
@[simp] theorem State.halt_hot (s : State) (c : Nat) (i : HaltInfo) : (s.halt c i).hot = s.hot := by unfold State.halt; repeat (first | rfl | split)
@[simp] theorem State.halt_recvSeq (s : State) (c : Nat) (i : HaltInfo) : (s.halt c i).recvSeq = s.recvSeq := by unfold State.halt; repeat (first | rfl | split)
@[simp] theorem State.halt_monitors (s : State) (c : Nat) (i : HaltInfo) : (s.halt c i).monitors = s.monitors := by unfold State.halt; repeat (first | rfl | split)
@[simp] theorem State.halt_stopSeq (s : State) (c : Nat) (i : HaltInfo) : (s.halt c i).stopSeq = s.stopSeq := by unfold State.halt; repeat (first | rfl | split)
@[simp] theorem State.halt_traceSeq (s : State) (c : Nat) (i : HaltInfo) : (s.halt c i).traceSeq = s.traceSeq := by unfold State.halt; repeat (first | rfl | split)
@[simp] theorem State.halt_dbgCount (s : State) (c : Nat) (i : HaltInfo) : (s.halt c i).dbgCount = s.dbgCount := by unfold State.halt; repeat (first | rfl | split)
@[simp] theorem State.halt_stallOut (s : State) (c : Nat) (i : HaltInfo) : (s.halt c i).stallOut = s.stallOut := by unfold State.halt; repeat (first | rfl | split)
@[simp] theorem State.halt_lastUnit (s : State) (c : Nat) (i : HaltInfo) : (s.halt c i).lastUnit = s.lastUnit := by unfold State.halt; repeat (first | rfl | split)
@[simp] theorem State.halt_keys (s : State) (c : Nat) (i : HaltInfo) : (s.halt c i).keys = s.keys := by unfold State.halt; repeat (first | rfl | split)
@[simp] theorem State.halt_hwm (s : State) (c : Nat) (i : HaltInfo) : (s.halt c i).hwm = s.hwm := by unfold State.halt; repeat (first | rfl | split)
@[simp] theorem State.halt_keks (s : State) (c : Nat) (i : HaltInfo) : (s.halt c i).keks = s.keks := by unfold State.halt; repeat (first | rfl | split)
@[simp] theorem State.halt_meas (s : State) (c : Nat) (i : HaltInfo) : (s.halt c i).meas = s.meas := by unfold State.halt; repeat (first | rfl | split)
@[simp] theorem State.halt_reportSeq (s : State) (c : Nat) (i : HaltInfo) : (s.halt c i).reportSeq = s.reportSeq := by unfold State.halt; repeat (first | rfl | split)
@[simp] theorem State.halt_boots (s : State) (c : Nat) (i : HaltInfo) : (s.halt c i).boots = s.boots := by unfold State.halt; repeat (first | rfl | split)
@[simp] theorem State.halt_booted (s : State) (c : Nat) (i : HaltInfo) : (s.halt c i).booted = s.booted := by unfold State.halt; repeat (first | rfl | split)
@[simp] theorem State.halt_bootFailed (s : State) (c : Nat) (i : HaltInfo) : (s.halt c i).bootFailed = s.bootFailed := by unfold State.halt; repeat (first | rfl | split)
@[simp] theorem State.halt_curfew (s : State) (c : Nat) (i : HaltInfo) : (s.halt c i).curfew = s.curfew := by unfold State.halt; repeat (first | rfl | split)
@[simp] theorem State.halt_tapIr (s : State) (c : Nat) (i : HaltInfo) : (s.halt c i).tapIr = s.tapIr := by unfold State.halt; repeat (first | rfl | split)
@[simp] theorem State.halt_saddr (s : State) (c : Nat) (i : HaltInfo) : (s.halt c i).saddr = s.saddr := by unfold State.halt; repeat (first | rfl | split)
@[simp] theorem State.halt_boundary (s : State) (c : Nat) (i : HaltInfo) : (s.halt c i).boundary = s.boundary := by unfold State.halt; repeat (first | rfl | split)
@[simp] theorem State.halt_now (s : State) (c : Nat) (i : HaltInfo) : (s.halt c i).now = s.now := by unfold State.halt; repeat (first | rfl | split)
@[simp] theorem State.halt_cyc (s : State) (c : Nat) (i : HaltInfo) : (s.halt c i).cyc = s.cyc := by unfold State.halt; repeat (first | rfl | split)
@[simp] theorem State.halt_out (s : State) (c : Nat) (i : HaltInfo) : (s.halt c i).out = s.out := by unfold State.halt; repeat (first | rfl | split)
@[simp] theorem State.halt_agenda (s : State) (c : Nat) (i : HaltInfo) : (s.halt c i).agenda = s.agenda := by unfold State.halt; repeat (first | rfl | split)
@[simp] theorem State.halt_leaving (s : State) (c : Nat) (i : HaltInfo) : (s.halt c i).leaving = s.leaving := by unfold State.halt; repeat (first | rfl | split)
@[simp] theorem State.halt_cur (s : State) (c : Nat) (i : HaltInfo) : (s.halt c i).cur = s.cur := by unfold State.halt; repeat (first | rfl | split)
@[simp] theorem State.halt_pace (s : State) (c : Nat) (i : HaltInfo) : (s.halt c i).pace = s.pace := by unfold State.halt; repeat (first | rfl | split)
@[simp] theorem State.halt_lag (s : State) (c : Nat) (i : HaltInfo) : (s.halt c i).lag = s.lag := by unfold State.halt; repeat (first | rfl | split)
@[simp] theorem State.halt_serial (s : State) (c : Nat) (i : HaltInfo) : (s.halt c i).serial = s.serial := by unfold State.halt; repeat (first | rfl | split)

/-! ### fatal -/

@[simp] theorem State.fatal_mem (s : State) (k : FKey) (cause : Nat) (ua : DWord) : (s.fatal k cause ua).mem = s.mem := State.halt_mem _ _ _
@[simp] theorem State.fatal_full (s : State) (k : FKey) (cause : Nat) (ua : DWord) : (s.fatal k cause ua).full = s.full := State.halt_full _ _ _
@[simp] theorem State.fatal_poison (s : State) (k : FKey) (cause : Nat) (ua : DWord) : (s.fatal k cause ua).poison = s.poison := State.halt_poison _ _ _
@[simp] theorem State.fatal_peerCode (s : State) (k : FKey) (cause : Nat) (ua : DWord) : (s.fatal k cause ua).peerCode = s.peerCode := State.halt_peerCode _ _ _
@[simp] theorem State.fatal_reqs (s : State) (k : FKey) (cause : Nat) (ua : DWord) : (s.fatal k cause ua).reqs = s.reqs := State.halt_reqs _ _ _
@[simp] theorem State.fatal_aq (s : State) (k : FKey) (cause : Nat) (ua : DWord) : (s.fatal k cause ua).aq = s.aq := State.halt_aq _ _ _
@[simp] theorem State.fatal_hist (s : State) (k : FKey) (cause : Nat) (ua : DWord) : (s.fatal k cause ua).hist = s.hist := State.halt_hist _ _ _
@[simp] theorem State.fatal_kn (s : State) (k : FKey) (cause : Nat) (ua : DWord) : (s.fatal k cause ua).kn = s.kn := State.halt_kn _ _ _
@[simp] theorem State.fatal_shares (s : State) (k : FKey) (cause : Nat) (ua : DWord) : (s.fatal k cause ua).shares = s.shares := State.halt_shares _ _ _
@[simp] theorem State.fatal_sgen (s : State) (k : FKey) (cause : Nat) (ua : DWord) : (s.fatal k cause ua).sgen = s.sgen := State.halt_sgen _ _ _
@[simp] theorem State.fatal_saved (s : State) (k : FKey) (cause : Nat) (ua : DWord) : (s.fatal k cause ua).saved = s.saved := State.halt_saved _ _ _
@[simp] theorem State.fatal_remains (s : State) (k : FKey) (cause : Nat) (ua : DWord) : (s.fatal k cause ua).remains = s.remains := State.halt_remains _ _ _
@[simp] theorem State.fatal_loans (s : State) (k : FKey) (cause : Nat) (ua : DWord) : (s.fatal k cause ua).loans = s.loans := State.halt_loans _ _ _
@[simp] theorem State.fatal_quarters (s : State) (k : FKey) (cause : Nat) (ua : DWord) : (s.fatal k cause ua).quarters = s.quarters := State.halt_quarters _ _ _
@[simp] theorem State.fatal_tiles (s : State) (k : FKey) (cause : Nat) (ua : DWord) : (s.fatal k cause ua).tiles = s.tiles := State.halt_tiles _ _ _
@[simp] theorem State.fatal_eops (s : State) (k : FKey) (cause : Nat) (ua : DWord) : (s.fatal k cause ua).eops = s.eops := State.halt_eops _ _ _
@[simp] theorem State.fatal_fetches (s : State) (k : FKey) (cause : Nat) (ua : DWord) : (s.fatal k cause ua).fetches = s.fetches := State.halt_fetches _ _ _
@[simp] theorem State.fatal_lines (s : State) (k : FKey) (cause : Nat) (ua : DWord) : (s.fatal k cause ua).lines = s.lines := State.halt_lines _ _ _
@[simp] theorem State.fatal_hbits (s : State) (k : FKey) (cause : Nat) (ua : DWord) : (s.fatal k cause ua).hbits = s.hbits := State.halt_hbits _ _ _
@[simp] theorem State.fatal_l1 (s : State) (k : FKey) (cause : Nat) (ua : DWord) : (s.fatal k cause ua).l1 = s.l1 := State.halt_l1 _ _ _
@[simp] theorem State.fatal_predict (s : State) (k : FKey) (cause : Nat) (ua : DWord) : (s.fatal k cause ua).predict = s.predict := State.halt_predict _ _ _
@[simp] theorem State.fatal_floors (s : State) (k : FKey) (cause : Nat) (ua : DWord) : (s.fatal k cause ua).floors = s.floors := State.halt_floors _ _ _
@[simp] theorem State.fatal_pages (s : State) (k : FKey) (cause : Nat) (ua : DWord) : (s.fatal k cause ua).pages = s.pages := State.halt_pages _ _ _
@[simp] theorem State.fatal_smap (s : State) (k : FKey) (cause : Nat) (ua : DWord) : (s.fatal k cause ua).smap = s.smap := State.halt_smap _ _ _
@[simp] theorem State.fatal_smapGen (s : State) (k : FKey) (cause : Nat) (ua : DWord) : (s.fatal k cause ua).smapGen = s.smapGen := State.halt_smapGen _ _ _
@[simp] theorem State.fatal_grace (s : State) (k : FKey) (cause : Nat) (ua : DWord) : (s.fatal k cause ua).grace = s.grace := State.halt_grace _ _ _
@[simp] theorem State.fatal_frozen (s : State) (k : FKey) (cause : Nat) (ua : DWord) : (s.fatal k cause ua).frozen = s.frozen := State.halt_frozen _ _ _
@[simp] theorem State.fatal_leafCnt (s : State) (k : FKey) (cause : Nat) (ua : DWord) : (s.fatal k cause ua).leafCnt = s.leafCnt := State.halt_leafCnt _ _ _
@[simp] theorem State.fatal_staleSlots (s : State) (k : FKey) (cause : Nat) (ua : DWord) : (s.fatal k cause ua).staleSlots = s.staleSlots := State.halt_staleSlots _ _ _
@[simp] theorem State.fatal_hostCommits (s : State) (k : FKey) (cause : Nat) (ua : DWord) : (s.fatal k cause ua).hostCommits = s.hostCommits := State.halt_hostCommits _ _ _
@[simp] theorem State.fatal_pending (s : State) (k : FKey) (cause : Nat) (ua : DWord) : (s.fatal k cause ua).pending = s.pending := State.halt_pending _ _ _
@[simp] theorem State.fatal_steal (s : State) (k : FKey) (cause : Nat) (ua : DWord) : (s.fatal k cause ua).steal = s.steal := State.halt_steal _ _ _
@[simp] theorem State.fatal_stolen (s : State) (k : FKey) (cause : Nat) (ua : DWord) : (s.fatal k cause ua).stolen = s.stolen := State.halt_stolen _ _ _
@[simp] theorem State.fatal_regs (s : State) (k : FKey) (cause : Nat) (ua : DWord) : (s.fatal k cause ua).regs = s.regs := State.halt_regs _ _ _
@[simp] theorem State.fatal_wins (s : State) (k : FKey) (cause : Nat) (ua : DWord) : (s.fatal k cause ua).wins = s.wins := State.halt_wins _ _ _
@[simp] theorem State.fatal_carts (s : State) (k : FKey) (cause : Nat) (ua : DWord) : (s.fatal k cause ua).carts = s.carts := State.halt_carts _ _ _
@[simp] theorem State.fatal_chans (s : State) (k : FKey) (cause : Nat) (ua : DWord) : (s.fatal k cause ua).chans = s.chans := State.halt_chans _ _ _
@[simp] theorem State.fatal_unacked (s : State) (k : FKey) (cause : Nat) (ua : DWord) : (s.fatal k cause ua).unacked = s.unacked := State.halt_unacked _ _ _
@[simp] theorem State.fatal_rfqWait (s : State) (k : FKey) (cause : Nat) (ua : DWord) : (s.fatal k cause ua).rfqWait = s.rfqWait := State.halt_rfqWait _ _ _
@[simp] theorem State.fatal_hostWids (s : State) (k : FKey) (cause : Nat) (ua : DWord) : (s.fatal k cause ua).hostWids = s.hostWids := State.halt_hostWids _ _ _
@[simp] theorem State.fatal_hostHeld (s : State) (k : FKey) (cause : Nat) (ua : DWord) : (s.fatal k cause ua).hostHeld = s.hostHeld := State.halt_hostHeld _ _ _
@[simp] theorem State.fatal_acks (s : State) (k : FKey) (cause : Nat) (ua : DWord) : (s.fatal k cause ua).acks = s.acks := State.halt_acks _ _ _
@[simp] theorem State.fatal_outbox (s : State) (k : FKey) (cause : Nat) (ua : DWord) : (s.fatal k cause ua).outbox = s.outbox := State.halt_outbox _ _ _
@[simp] theorem State.fatal_remaps (s : State) (k : FKey) (cause : Nat) (ua : DWord) : (s.fatal k cause ua).remaps = s.remaps := State.halt_remaps _ _ _
@[simp] theorem State.fatal_openTags (s : State) (k : FKey) (cause : Nat) (ua : DWord) : (s.fatal k cause ua).openTags = s.openTags := State.halt_openTags _ _ _
@[simp] theorem State.fatal_imports (s : State) (k : FKey) (cause : Nat) (ua : DWord) : (s.fatal k cause ua).imports = s.imports := State.halt_imports _ _ _
@[simp] theorem State.fatal_probes (s : State) (k : FKey) (cause : Nat) (ua : DWord) : (s.fatal k cause ua).probes = s.probes := State.halt_probes _ _ _
@[simp] theorem State.fatal_lostOn (s : State) (k : FKey) (cause : Nat) (ua : DWord) : (s.fatal k cause ua).lostOn = s.lostOn := State.halt_lostOn _ _ _
@[simp] theorem State.fatal_ports (s : State) (k : FKey) (cause : Nat) (ua : DWord) : (s.fatal k cause ua).ports = s.ports := State.halt_ports _ _ _
@[simp] theorem State.fatal_hot (s : State) (k : FKey) (cause : Nat) (ua : DWord) : (s.fatal k cause ua).hot = s.hot := State.halt_hot _ _ _
@[simp] theorem State.fatal_recvSeq (s : State) (k : FKey) (cause : Nat) (ua : DWord) : (s.fatal k cause ua).recvSeq = s.recvSeq := State.halt_recvSeq _ _ _
@[simp] theorem State.fatal_monitors (s : State) (k : FKey) (cause : Nat) (ua : DWord) : (s.fatal k cause ua).monitors = s.monitors := State.halt_monitors _ _ _
@[simp] theorem State.fatal_stopSeq (s : State) (k : FKey) (cause : Nat) (ua : DWord) : (s.fatal k cause ua).stopSeq = s.stopSeq := State.halt_stopSeq _ _ _
@[simp] theorem State.fatal_traceSeq (s : State) (k : FKey) (cause : Nat) (ua : DWord) : (s.fatal k cause ua).traceSeq = s.traceSeq := State.halt_traceSeq _ _ _
@[simp] theorem State.fatal_dbgCount (s : State) (k : FKey) (cause : Nat) (ua : DWord) : (s.fatal k cause ua).dbgCount = s.dbgCount := State.halt_dbgCount _ _ _
@[simp] theorem State.fatal_stallOut (s : State) (k : FKey) (cause : Nat) (ua : DWord) : (s.fatal k cause ua).stallOut = s.stallOut := State.halt_stallOut _ _ _
@[simp] theorem State.fatal_lastUnit (s : State) (k : FKey) (cause : Nat) (ua : DWord) : (s.fatal k cause ua).lastUnit = s.lastUnit := State.halt_lastUnit _ _ _
@[simp] theorem State.fatal_keys (s : State) (k : FKey) (cause : Nat) (ua : DWord) : (s.fatal k cause ua).keys = s.keys := State.halt_keys _ _ _
@[simp] theorem State.fatal_hwm (s : State) (k : FKey) (cause : Nat) (ua : DWord) : (s.fatal k cause ua).hwm = s.hwm := State.halt_hwm _ _ _
@[simp] theorem State.fatal_keks (s : State) (k : FKey) (cause : Nat) (ua : DWord) : (s.fatal k cause ua).keks = s.keks := State.halt_keks _ _ _
@[simp] theorem State.fatal_meas (s : State) (k : FKey) (cause : Nat) (ua : DWord) : (s.fatal k cause ua).meas = s.meas := State.halt_meas _ _ _
@[simp] theorem State.fatal_reportSeq (s : State) (k : FKey) (cause : Nat) (ua : DWord) : (s.fatal k cause ua).reportSeq = s.reportSeq := State.halt_reportSeq _ _ _
@[simp] theorem State.fatal_boots (s : State) (k : FKey) (cause : Nat) (ua : DWord) : (s.fatal k cause ua).boots = s.boots := State.halt_boots _ _ _
@[simp] theorem State.fatal_booted (s : State) (k : FKey) (cause : Nat) (ua : DWord) : (s.fatal k cause ua).booted = s.booted := State.halt_booted _ _ _
@[simp] theorem State.fatal_bootFailed (s : State) (k : FKey) (cause : Nat) (ua : DWord) : (s.fatal k cause ua).bootFailed = s.bootFailed := State.halt_bootFailed _ _ _
@[simp] theorem State.fatal_curfew (s : State) (k : FKey) (cause : Nat) (ua : DWord) : (s.fatal k cause ua).curfew = s.curfew := State.halt_curfew _ _ _
@[simp] theorem State.fatal_tapIr (s : State) (k : FKey) (cause : Nat) (ua : DWord) : (s.fatal k cause ua).tapIr = s.tapIr := State.halt_tapIr _ _ _
@[simp] theorem State.fatal_saddr (s : State) (k : FKey) (cause : Nat) (ua : DWord) : (s.fatal k cause ua).saddr = s.saddr := State.halt_saddr _ _ _
@[simp] theorem State.fatal_boundary (s : State) (k : FKey) (cause : Nat) (ua : DWord) : (s.fatal k cause ua).boundary = s.boundary := State.halt_boundary _ _ _
@[simp] theorem State.fatal_now (s : State) (k : FKey) (cause : Nat) (ua : DWord) : (s.fatal k cause ua).now = s.now := State.halt_now _ _ _
@[simp] theorem State.fatal_cyc (s : State) (k : FKey) (cause : Nat) (ua : DWord) : (s.fatal k cause ua).cyc = s.cyc := State.halt_cyc _ _ _
@[simp] theorem State.fatal_out (s : State) (k : FKey) (cause : Nat) (ua : DWord) : (s.fatal k cause ua).out = s.out := State.halt_out _ _ _
@[simp] theorem State.fatal_agenda (s : State) (k : FKey) (cause : Nat) (ua : DWord) : (s.fatal k cause ua).agenda = s.agenda := State.halt_agenda _ _ _
@[simp] theorem State.fatal_leaving (s : State) (k : FKey) (cause : Nat) (ua : DWord) : (s.fatal k cause ua).leaving = s.leaving := State.halt_leaving _ _ _
@[simp] theorem State.fatal_cur (s : State) (k : FKey) (cause : Nat) (ua : DWord) : (s.fatal k cause ua).cur = s.cur := State.halt_cur _ _ _
@[simp] theorem State.fatal_pace (s : State) (k : FKey) (cause : Nat) (ua : DWord) : (s.fatal k cause ua).pace = s.pace := State.halt_pace _ _ _
@[simp] theorem State.fatal_lag (s : State) (k : FKey) (cause : Nat) (ua : DWord) : (s.fatal k cause ua).lag = s.lag := State.halt_lag _ _ _
@[simp] theorem State.fatal_serial (s : State) (k : FKey) (cause : Nat) (ua : DWord) : (s.fatal k cause ua).serial = s.serial := State.halt_serial _ _ _

end Sys2Proof.Machine
end

