-- ==== Sys2Proof/Laws/Units.lean ====
section
/-! SUPPORT. What the frame of a unit does, said once: a unit that writes results, and a unit in which one member is active. -/

namespace Sys2Proof.Machine

open Sys2Proof.Safety

/-! ### Finding fibres -/

theorem fibre?_map (s : State) (g : Fibre → Fibre) (hg : ∀ f, (g f).key = f.key) (j : FKey) :
    ({ s with fibres := s.fibres.map g } : State).fibre? j = (s.fibre? j).map g := by
  simp only [State.fibre?]
  generalize s.fibres = l
  induction l with
  | nil => rfl
  | cons f t ih =>
    simp only [List.map_cons, List.find?_cons, hg f]
    split
    · rfl
    · exact ih

theorem fibre?_updFibre (s : State) (k j : FKey) (g : Fibre → Fibre) (hg : ∀ f, (g f).key = f.key) :
    (s.updFibre k g).fibre? j = if j = k then (s.fibre? k).map g else s.fibre? j := by
  have h := fibre?_map s (fun f => if f.key = k then g f else f) (fun f => by split <;> simp [hg]) j
  rw [State.updFibre, h]
  split
  · subst ‹j = k›
    rcases hf : s.fibre? j with _ | f
    · rfl
    · have : f.key = j := by simpa using List.find?_some hf
      simp [this]
  · rcases hf : s.fibre? j with _ | f
    · rfl
    · have : f.key = j := by simpa using List.find?_some hf
      simp [*]

/-- The fibres of a unit advance and keep their keys. -/
theorem fibre?_beginUnit_key {s : State} {fl : Flock} {k : FKey} {g : Fibre} (h : (s.beginUnit fl).fibre? k = some g) : g.key = k := by
  simpa using List.find?_some h

theorem fibre?_key {s : State} {k : FKey} {g : Fibre} (h : s.fibre? k = some g) : g.key = k := by
  simpa using List.find?_some h

theorem fibre?_beginUnit (s : State) (fl : Flock) (k : FKey) :
    (s.beginUnit fl).fibre? k = (s.fibre? k).map fun f => advanced s fl f := by
  have h := fibre?_map s (fun f => advanced s fl f) (fun f => by unfold advanced; split <;> rfl) k
  exact h

theorem advanced_key (f : Fibre) (s : State) (fl : Flock) : (advanced s fl f).key = f.key := by
  unfold advanced; split <;> rfl

theorem advanced_foln (f : Fibre) (s : State) (fl : Flock) : (advanced s fl f).foln = f.foln := by
  unfold advanced; split <;> rfl

theorem advanced_wait (f : Fibre) (s : State) (fl : Flock) : (advanced s fl f).wait = f.wait := by
  unfold advanced; split <;> rfl

theorem land_key (f : Fibre) : f.land.key = f.key := rfl

@[simp] theorem landed_regs (h : Hdr) (fl : Flock) (f : Fibre) : (landed h fl f).regs = f.regs := by unfold landed; split <;> rfl
@[simp] theorem landed_preds (h : Hdr) (fl : Flock) (f : Fibre) : (landed h fl f).preds = f.preds := by unfold landed; split <;> rfl
@[simp] theorem landed_wait (h : Hdr) (fl : Flock) (f : Fibre) : (landed h fl f).wait = f.wait := by unfold landed; split <;> rfl
@[simp] theorem landed_view (h : Hdr) (fl : Flock) (f : Fibre) : (landed h fl f).view = f.view := by unfold landed; split <;> rfl
@[simp] theorem landed_wb (h : Hdr) (fl : Flock) (f : Fibre) : (landed h fl f).wb = f.wb := by unfold landed; split <;> rfl
@[simp] theorem landed_res (h : Hdr) (fl : Flock) (f : Fibre) : (landed h fl f).res = f.res := by unfold landed; split <;> rfl

theorem landed_freeze (h : Hdr) (fl : Flock) (f : Fibre) : landed h fl f.freeze = (landed h fl f).freeze := by
  show (if h.c = false ∧ fl.members.contains f.key then f.freeze.land else f.freeze) = (if h.c = false ∧ fl.members.contains f.key then f.land else f).freeze
  split <;> rfl

/-- A fibre that its chain has not moved stays where it is. -/
theorem land_unmoved (f : Fibre) (h : f.after = none) : f.land = f := by
  cases f; subst h; rfl

/-- The end of a unit moves no fibre that its chain has not moved. -/
theorem landed_unmoved (h : Hdr) (fl : Flock) (f : Fibre) (ha : f.after = none) : landed h fl f = f := by
  unfold landed; split
  · exact land_unmoved f ha
  · rfl

theorem landed_key (h : Hdr) (fl : Flock) (f : Fibre) : (landed h fl f).key = f.key := by
  unfold landed; split <;> simp [land_key]

/-! ### The end of a unit -/

theorem fibre?_ends (h : Hdr) (fl : Flock) (s : State) (k : FKey) : (ends h fl s).fibre? k = (s.fibre? k).map (landed h fl) :=
  fibre?_map s (landed h fl) (landed_key h fl) k

theorem closeFlock_rest (s : State) (c : Bool) (q : Nat) : s.closeFlock c q = { s with flocks := (s.closeFlock c q).flocks } := by
  unfold State.closeFlock
  repeat (first | rfl | split | dsimp only)

/-- The end of a unit changes flocks, and lands the members that its chain has moved. -/
theorem closeUnit_rest (s : State) (h : Hdr) (fl : Flock) : s.closeUnit h.c fl = { ends h fl s with flocks := (s.closeUnit h.c fl).flocks } := by
  unfold State.closeUnit
  rw [closeFlock_rest]
  cases hc : h.c
  · have : landed h fl = fun f => if fl.members.contains f.key then f.land else f := by
      funext f; simp [landed, hc]
    simp only [Bool.false_eq_true, if_false, ends, State.landMembers, this]
  · have : landed h fl = id := by funext f; simp [landed, hc]
    simp only [if_true, ends, this, List.map_id]

theorem fibre?_closeUnit (s : State) (h : Hdr) (fl : Flock) (k : FKey) : (s.closeUnit h.c fl).fibre? k = (s.fibre? k).map (landed h fl) := by
  rw [← fibre?_ends, closeUnit_rest]
  rfl

/-! ### Units -/

/-- No active member owes a follow-on: the unit runs its body. -/
theorem followed_free {body : UnitCtx → State → State} {c : UnitCtx} {s : State}
    (h : ∀ f ∈ c.act, ∀ g, s.fibre? f.key = some g → g.foln = none) : followed body c s = body c s := by
  unfold followed
  have : c.act.find? (fun f => (s.fibre? f.key).any fun g => g.foln.isSome) = none := by
    rw [List.find?_eq_none]
    intro f hf
    rcases hg : s.fibre? f.key with _ | g
    · simp
    · simp [h f hf g hg]
  rw [this]

theorem runUnit_issues {h : Hdr} {fl : Flock} {s : State} (body : UnitCtx → State → State) (hi : Issues h fl s) :
    runUnit h body s = (body (unitCtx h fl s) (s.beginUnit fl)).closeUnit h.c fl := by
  unfold runUnit runUnitAny
  rw [hi.flock]
  simp only
  rw [followed_free]
  intro f hf g hg
  rw [fibre?_beginUnit] at hg
  rcases hx : s.fibre? f.key with _ | x
  · simp [hx] at hg
  · simp only [hx, Option.map_some, Option.some.injEq] at hg
    rw [← hg, advanced_foln]
    exact hi.free f hf x hx

/-- A unit that writes results writes them and nothing else. -/
theorem resultUnit_writes {h : Hdr} {fl : Flock} {s : State} {w : UnitCtx → Fibre → Fibre → Fibre} (hi : Issues h fl s)
    (hw : ∀ o g, (w (unitCtx h fl s) o g).key = g.key) : Writes h fl s (resultUnit h w s) (w (unitCtx h fl s)) := by
  rw [resultUnit, runUnit_issues _ hi]
  refine ⟨?_, fun k => ?_⟩
  · rw [closeUnit_rest]; rfl
  · rw [fibre?_closeUnit, fibre?_map]
    · rcases hg : (s.beginUnit fl).fibre? k with _ | g
      · rfl
      · have : g.key = k := fibre?_key hg
        subst this
        simp only [Option.map_some, UnitCtx.write] <;> rfl
    · intro f
      unfold UnitCtx.write
      split <;> simp [hw]

theorem gives_of_resultUnit {h : Hdr} {i : Instr} {w v : UnitCtx → Fibre → Fibre → Fibre}
    (he : ∀ s, exec i s = .next (resultUnit h w s)) (hw : ∀ c o g, (w c o g).key = g.key) (hv : ∀ c o g, w c o g = v c o g) : Gives h i v := by
  intro fl s hi
  obtain rfl : w = v := by funext c o g; exact hv c o g
  exact ⟨_, he s, resultUnit_writes hi (hw _)⟩

/-- A unit with one active member runs that member's part. -/
theorem memberUnit_solo {h : Hdr} {fl : Flock} {f g : Fibre} {s : State} (act : UnitCtx → Fibre → State → State) (hs : Solo h fl f g s) :
    memberUnit h act s = (act (unitCtx h fl s) f (s.beginUnit fl)).closeUnit h.c fl := by
  have hi : Issues h fl s := ⟨hs.flock, fun x hx y hy => by
    rw [hs.act, List.mem_singleton] at hx
    subst hx
    rw [hs.here] at hy
    obtain rfl := Option.some.inj hy
    exact hs.free⟩
  rw [memberUnit, runUnit_issues _ hi, hs.act]
  have hl : (s.beginUnit fl).live f.key = true := by
    simp [State.live, fibre?_beginUnit, hs.here, advanced_wait, hs.live]
  simp [hl]

end Sys2Proof.Machine
end

