-- ==== Sys2Proof/Laws/Operations.lean ====
section
/-! SUPPORT. What the shared operations do, each said once: stores and requests of a member, the meeting of a leaf, a halt, and the folds over the active members of a unit. -/

namespace Sys2Proof.Machine

open Sys2Proof.Safety

/-! ### Fibres at the start of a unit -/

theorem fibre?_of_map {s t : State} (g : Fibre → Fibre) (hg : ∀ f, (g f).key = f.key) (h : t.fibres = s.fibres.map g) (j : FKey) : t.fibre? j = (s.fibre? j).map g := by
  have := fibre?_map s g hg j
  simpa [State.fibre?, h] using this

/-- Where a new fibre is found: its key, unless an older one has it. -/
theorem fibre?_append (s : State) (c : Fibre) (j : FKey) : ({ s with fibres := s.fibres ++ [c] } : State).fibre? j = (s.fibre? j).or (if c.key = j then some c else none) := by
  simp only [State.fibre?, List.find?_append, List.find?_singleton]
  by_cases h : c.key = j <;> simp [h]

/-- The only active member as the unit begins: past the unit's words. -/
theorem solo_here {h : Hdr} {fl : Flock} {f g : Fibre} {s : State} (hs : Solo h fl f g s) : (s.beginUnit fl).fibre? f.key = some (advanced s fl g) := by
  rw [fibre?_beginUnit, hs.here]; rfl

theorem advanced_res (f : Fibre) (s : State) (fl : Flock) : (advanced s fl f).res = f.res := by unfold advanced; split <;> rfl

theorem advanced_fid (f : Fibre) (s : State) (fl : Flock) : (advanced s fl f).fid = f.fid := by unfold advanced; split <;> rfl

theorem advanced_cont (f : Fibre) (s : State) (fl : Flock) : (advanced s fl f).cont = f.cont := by unfold advanced; split <;> rfl

theorem beginUnit_winOf (s : State) (fl : Flock) (k : FKey) : (s.beginUnit fl).winOf k = s.winOf k := rfl

theorem any_beginUnit (s : State) (fl : Flock) (p : Fibre → Bool) (hp : ∀ f, p (advanced s fl f) = p f) : (s.beginUnit fl).fibres.any p = s.fibres.any p := by
  show (s.fibres.map (advanced s fl)).any p = _
  rw [List.any_map]; congr 1; funext f; exact hp f

theorem freeStub_beginUnit (s : State) (fl : Flock) (k : FKey) : (s.beginUnit fl).freeStub? k = s.freeStub? k := by
  unfold State.freeStub?
  congr 1; funext n
  rw [fibre?_beginUnit]; simp

theorem freeWindow_beginUnit (s : State) (fl : Flock) (k : FKey) : (s.beginUnit fl).freeWindow? k = s.freeWindow? k := by
  unfold State.freeWindow?
  show (List.range (s.share k.share).windows).find? _ = _
  congr 1; funext n
  rw [any_beginUnit]
  intro f; rw [advanced_key, advanced_res]

theorem freeFid_beginUnit (s : State) (fl : Flock) (sh : Nat) : (s.beginUnit fl).freeFid sh = s.freeFid sh := by
  unfold State.freeFid State.liveOf
  congr 2; funext n
  rw [List.any_filter, List.any_filter, any_beginUnit]
  intro f; rw [advanced_key, advanced_res, advanced_fid]

/-! ### Active members -/

theorem live_of_eq {s t : State} {k : FKey} (h : ∀ g, s.fibre? k = some g → g.wait ≠ .halted → ∃ g', t.fibre? k = some g' ∧ g'.wait ≠ .halted) (hl : s.live k = true) : t.live k = true := by
  unfold State.live at *
  rcases hs : s.fibre? k with _ | g
  · simp [hs] at hl
  · simp only [hs, decide_eq_true_eq] at hl
    obtain ⟨g', h1, h2⟩ := h g hs hl
    simp [h1, h2]

/-- Where every active member lives throughout, a unit runs its part for each. -/
theorem foldl_live (step : State → Fibre → State)
    (hl : ∀ s f k, s.live k = true → (step s f).live k = true) : ∀ (act : List Fibre) (s : State), (∀ f ∈ act, s.live f.key = true) →
    act.foldl (fun s f => if s.live f.key then step s f else s) s = act.foldl step s := by
  intro act
  induction act with
  | nil => intros; rfl
  | cons f t ih =>
    intro s h
    simp only [List.foldl_cons, h f (List.mem_cons_self ..), if_true]
    exact ih _ fun x hx => hl _ _ _ (h x (List.mem_cons_of_mem _ hx))

/-- A fold over active members with keys apart, each step of which writes its own member: every member is written once. -/
theorem fibre?_foldl_members (step : State → Fibre → State) (w : Fibre → Fibre → Fibre)
    (hf : ∀ s f j, (step s f).fibre? j = if j = f.key then (s.fibre? j).map (w f) else s.fibre? j) (k : FKey) :
    ∀ (act : List Fibre) (s : State), (act.map fun f => f.key).Nodup →
    (act.foldl step s).fibre? k = (s.fibre? k).map fun g => match act.find? (fun f => decide (f.key = k)) with
      | some o => w o g
      | none => g := by
  intro act
  induction act with
  | nil => intro s _; simp
  | cons f t ih =>
    intro s hn
    simp only [List.map_cons, List.nodup_cons] at hn
    rw [List.foldl_cons, ih _ hn.2, hf]
    by_cases hk : k = f.key
    · subst hk
      have : t.find? (fun x => decide (x.key = f.key)) = none := by
        rw [List.find?_eq_none]; intro x hx hxk
        exact hn.1 (List.mem_map.2 ⟨x, hx, by simpa using hxk⟩)
      simp [this]; rfl
    · have : ¬ f.key = k := fun h => hk h.symm
      simp [hk, this]

theorem source_false (c : UnitCtx) (k : FKey) : c.source false k = c.act.find? (fun f => decide (f.key = k)) := by
  unfold UnitCtx.source
  cases c.act.find? (fun f => decide (f.key = k)) <;> rfl

/-- A unit that accesses memory, with one active member: its access, and then the end of the unit. -/
theorem accessUnit_solo {h : Hdr} {fl : Flock} {f g : Fibre} {s : State} (act : UnitCtx → Fibre → List FKey → State → State) (hs : Solo h fl f g s) :
    accessUnit h act s = (act (unitCtx h fl s) f [] (s.beginUnit fl)).closeUnit h.c fl := by
  have hi : Issues h fl s := ⟨hs.flock, fun x hx y hy => by
    rw [hs.act, List.mem_singleton] at hx
    subst hx
    rw [hs.here] at hy
    obtain rfl := Option.some.inj hy
    exact hs.free⟩
  rw [accessUnit, runUnit_issues _ hi, hs.act]
  simp

/-! ### Stores -/

theorem updShare_only (s : State) (k : Nat) (g : Household → Household) : s.updShare k g = { s with shares := (s.updShare k g).shares } := by
  unfold State.updShare; split <;> rfl

theorem foldl_shares_only {α : Type} (l : List α) (F : State → α → State) (hF : ∀ s a, F s a = { s with shares := (F s a).shares }) (s : State) :
    l.foldl F s = { s with shares := (l.foldl F s).shares } := by
  induction l generalizing s with
  | nil => rfl
  | cons a l ih => simp only [List.foldl_cons]; rw [ih, hF]

/-- Counting a store in the household's partials changes households only (R296). -/
theorem countStore_only (s : State) (k : FKey) (sp : Bool) (va n v : Nat) : s.countStore k sp va n v = { s with shares := (s.countStore k sp va n v).shares } := by
  unfold State.countStore
  apply foldl_shares_only
  intro s i
  split
  · rfl
  · split
    · exact updShare_only _ _ _
    · rfl

/-- An owner gives a line up: lines change, in its slice and in its L1. -/
theorem recall_only (s : State) (line : Nat) (keep : Bool) : s.recall line keep = { s with l1 := (s.recall line keep).l1, lines := (s.recall line keep).lines } := by
  unfold State.recall
  split
  · rfl
  · split
    · rfl
    · split
      · rfl
      · split
        · simp only [State.l1Set]; split <;> rfl
        · rfl

theorem l1Set_only (s : State) (e : L1Line) : s.l1Set e = { s with l1 := (s.l1Set e).l1 } := by
  unfold State.l1Set; split <;> rfl

theorem l1Room_only (s : State) (sh : Nat) : s.l1Room sh = { s with l1 := (s.l1Room sh).l1, lines := (s.l1Room sh).lines } := by
  unfold State.l1Room
  dsimp only
  split
  · rfl
  · split
    · simp only [State.l1Drop]
      split
      · rw [recall_only]
      · rfl
    · rfl

/-- Sectors that become valid in an L1 change lines only. -/
theorem l1Fill_only (s : State) (sh line : Nat) (v : BitVec 4) (ro : Bool) : s.l1Fill sh line v ro = { s with l1 := (s.l1Fill sh line v ro).l1, lines := (s.l1Fill sh line v ro).lines } := by
  unfold State.l1Fill
  split
  · rfl
  · split
    · rw [l1Set_only]
    · split
      · obtain ⟨A, B, e⟩ : ∃ A B, s.l1Room sh = { s with l1 := A, lines := B } := ⟨_, _, l1Room_only s sh⟩
        rw [l1Set_only, e]
      · rfl

theorem storeL1_only (s : State) (k : FKey) (d : Dest) (l : Option Leaf) (n : Nat) : s.storeL1 k d l n = { s with l1 := (s.storeL1 k d l n).l1, lines := (s.storeL1 k d l n).lines } := by
  unfold State.storeL1
  split
  · split
    · exact l1Fill_only _ _ _ _ _
    · rfl
  · rfl
  · rfl

/-- A store that its access allows meets the leaf, enters the write buffer, may take a line of its L1 and may count in a partial; it does nothing else. -/
theorem storeOne_only (s : State) (c : UnitCtx) (o : Fibre) (d : Dest) (l : Option Leaf) (va n : Nat) (kind : WKind) (rel : Bool) :
    ∃ b sa, s.storeOne c o (.ok d l) va n kind rel = { (s.touched o.key l va).bufferPage o.key c.seq d n kind rel va b sa with
      shares := (s.storeOne c o (.ok d l) va n kind rel).shares
      l1 := (s.storeOne c o (.ok d l) va n kind rel).l1
      lines := (s.storeOne c o (.ok d l) va n kind rel).lines } := by
  simp only [State.storeOne]
  generalize s.touched o.key l va = y
  obtain ⟨A, B, e⟩ : ∃ A B, y.storeL1 o.key d l n = { y with l1 := A, lines := B } := ⟨_, _, storeL1_only _ _ _ _ _⟩
  refine ⟨y.cachedPage d l, l.any fun x => x.sa, ?_⟩
  have hc : ({ y with l1 := A, lines := B } : State).cachedPage d l = y.cachedPage d l := rfl
  cases kind
  · simp only [WKind.isRed, Bool.false_eq_true, if_false, e, hc]
    rw [countStore_only]; rfl
  · simp only [WKind.isRed, Bool.false_eq_true, if_false, e, hc]
    rw [countStore_only]; rfl
  · rfl

/-- A write enters a buffer and a view alike before and after a fibre lands. -/
theorem landed_buffers (h : Hdr) (fl : Flock) (g : Fibre) (w : BufWrite) :
    landed h fl { g with wb := g.wb ++ [w], view := g.view.name w.wid } = { landed h fl g with wb := (landed h fl g).wb ++ [w], view := (landed h fl g).view.name w.wid } := by
  simp only [landed]
  split <;> rfl

/-- A write at the tail of a member's buffer moves no other fibre. -/
theorem fibre?_bufferPage (s : State) (k j : FKey) (seq : Nat) (d : Dest) (n : Nat) (kind : WKind) (rel : Bool) (va : Nat) (b sa : Bool) :
    (s.bufferPage k seq d n kind rel va b sa).fibre? j =
      if j = k then (s.fibre? k).map fun g => { g with wb := g.wb ++ [⟨s.serial, seq, d, n, kind, rel, va, b, sa⟩], view := g.view.name s.serial } else s.fibre? j :=
  fibre?_updFibre s.bump k j _ fun _ => rfl

/-- What a store of one member comes to: one entry at the end of its write buffer, with the place, the size, the bytes and the address of the access. -/
theorem storeOne_buffers (h : Hdr) (fl : Flock) (f : Fibre) (s : State) (acc : Acc) (n : Nat) (kind : WKind) (rel : Bool) (va : Nat)
   (d : Dest) (l : Option Leaf) (ha : acc = .ok d l) :
   ∃ w, Buffers (ends h fl ((s.beginUnit fl).touched f.key l va)) (((s.beginUnit fl).storeOne (unitCtx h fl s) f acc va n kind rel).closeUnit h.c fl) f.key w
      ∧ w.dest = d ∧ w.n = n ∧ w.kind = kind ∧ w.rel = rel ∧ w.pva = va ∧ w.seq = s.serial := by
  subst ha
  obtain ⟨b, sa, e⟩ := storeOne_only (s.beginUnit fl) (unitCtx h fl s) f d l va n kind rel
  refine ⟨⟨((s.beginUnit fl).touched f.key l va).serial, s.serial, d, n, kind, rel, va, b, sa⟩, ⟨?_, ?_⟩, rfl, rfl, rfl, rfl, rfl, rfl⟩
  · rw [closeUnit_rest, e]
    rfl
  · intro j
    rw [fibre?_closeUnit, e, fibre?_ends, fibre?_ends]
    refine (congrArg (Option.map _) (fibre?_bufferPage _ _ j _ _ _ _ _ _ _ _)).trans ?_
    split
    · rw [Option.map_map, Option.map_map]
      congr 1; funext g
      exact landed_buffers h fl g ⟨((s.beginUnit fl).touched f.key l va).serial, s.serial, d, n, kind, rel, va, b, sa⟩
    · rfl

/-! ### Leaves and requests -/

theorem markLeaf_only (s : State) (c : Option Nat) (l : Leaf) (loc : Nat) : s.markLeaf c l loc = { s with ctxs := (s.markLeaf c l loc).ctxs, pages := (s.markLeaf c l loc).pages } := by
  unfold State.markLeaf
  cases c <;> simp only <;> split <;> simp only [State.updCtx] <;> try rfl
  split <;> rfl

theorem flipStart_only (s : State) (pg : Nat) : s.flipStart pg = { s with pages := (s.flipStart pg).pages, out := (s.flipStart pg).out } := by
  unfold State.flipStart; dsimp only; split <;> rfl

theorem askBias_only (s : State) (pg : Nat) (hb : Bool) : s.askBias pg hb = { s with pages := (s.askBias pg hb).pages, out := (s.askBias pg hb).out } := by
  unfold State.askBias
  dsimp only
  split
  · rfl
  · split
    · split <;> rfl
    · split
      · exact flipStart_only _ _
      · rfl

/-- A leaf that is met may mark the context and the page, and have the host's lines asked back; it does nothing else (R145, R146). -/
theorem meetLeaf_only (s : State) (c : Option Nat) (l : Leaf) (va : Nat) :
    s.meetLeaf c l va = { s with ctxs := (s.meetLeaf c l va).ctxs, pages := (s.meetLeaf c l va).pages, out := (s.meetLeaf c l va).out } := by
  unfold State.meetLeaf
  dsimp only
  split
  · rfl
  · split
    · rw [markLeaf_only, askBias_only]
    · obtain ⟨A, B, e⟩ : ∃ A B, s.askBias ((l.pa + va % 2 ^ l.sizeBits) / 65536) l.hb = { s with pages := A, out := B } := ⟨_, _, askBias_only _ _ _⟩
      rw [e]

theorem foldl_kn_only {α : Type} (l : List α) (F : State → α → State) (hF : ∀ s a, F s a = { s with kn := (F s a).kn }) (s : State) :
    l.foldl F s = { s with kn := (l.foldl F s).kn } := by
  induction l generalizing s with
  | nil => rfl
  | cons a l ih => simp only [List.foldl_cons]; rw [ih, hF]

/-- What a die learns changes what it knows, and nothing else (R224). -/
theorem learnRead_only (s : State) (d p loc n : Nat) : s.learnRead d p loc n = { s with kn := (s.learnRead d p loc n).kn } :=
  foldl_kn_only _ _ (fun _ _ => rfl) s

/-- A walk's reads join the fibre's view, and what its die knows (R127). -/
theorem meets_joinWalk (s : State) (k : FKey) (va : Nat) : Meets s (s.joinWalk k va) k := by
  unfold State.joinWalk
  dsimp only
  split
  · exact ⟨rfl, fun g => g.view, fun j => by cases s.fibre? j <;> simp⟩
  · have e : s.learnWalk k.die (s.tenOf k) va = { s with kn := (s.learnWalk k.die (s.tenOf k) va).kn } :=
      foldl_kn_only _ (fun (s : State) e => s.learnRead k.die _ e 8) (fun s e => learnRead_only _ _ _ _ _) s
    rw [e]
    refine ⟨rfl, fun g => s.walkView (s.tenOf k) va g.view, fun j => ?_⟩
    rw [fibre?_updFibre]
    · by_cases h : j = k
      · subst h; simp only [if_true]; rfl
      · simp only [if_neg h, Option.map_id']; rfl
    · exact fun _ => rfl

/-- An access that is not of mode 11 counts no touch: it meets its leaf and does nothing else. -/
theorem touched_meets (k : FKey) (l : Option Leaf) (v : Nat) (y : State) (hm : ∀ z, l = some z → z.mode ≠ 3) : Meets y (y.touched k l v) k := by
  cases l with
  | none => exact ⟨rfl, fun g => g.view, fun j => by simp only [State.touched]; cases y.fibre? j <;> simp⟩
  | some z =>
    have := hm z rfl
    simp only [State.touched, State.touchLeaf, State.countLeaf, if_pos this]
    obtain ⟨h1, w, h2⟩ := meets_joinWalk y k v
    rw [meetLeaf_only]
    exact ⟨by rw [h1], w, h2⟩

theorem emit_foldl_only (F : Nat → Output) (l : List Nat) (s : State) : l.foldl (fun (s : State) i => s.emit (F i)) s =
    { s with out := (l.foldl (fun (s : State) i => s.emit (F i)) s).out } := by
  induction l generalizing s with
  | nil => rfl
  | cons a l ih => simp only [List.foldl_cons]; rw [ih]; rfl

theorem useAnswer_only (s : State) (loc n : Nat) : s.useAnswer loc n = { s with pages := (s.useAnswer loc n).pages } := by
  unfold State.useAnswer; split <;> rfl

/-- The host is asked for its lines: the page waits for it. -/
theorem askHost_only (s : State) (loc n : Nat) : s.askHost loc n = { s with pages := (s.askHost loc n).pages, out := (s.askHost loc n).out } := by
  unfold State.askHost
  split
  · rfl
  · dsimp only; rw [emit_foldl_only, useAnswer_only]

theorem snoopLines_only (s : State) (ls : List Nat) : s.snoopLines ls = { s with pages := (s.snoopLines ls).pages } := by
  unfold State.snoopLines; dsimp only; split <;> rfl

/-- A request within the package stands in the list; pages may wait for the host, which is asked for its lines (R144). -/
theorem issueReq_home (s : State) (r : Req) {loc : Nat} (h : r.dest = .home loc) : ∃ tag, s.issueReq r =
    { s with reqs := s.reqs ++ [{ r with tag := tag }], pages := (s.issueReq r).pages, out := (s.issueReq r).out } := by
  unfold State.issueReq
  simp only [h]
  rw [askHost_only, snoopLines_only]; apply Exists.intro; rfl

theorem paged_home (s : State) (l : Option Leaf) (r : Req) {loc : Nat} (h : r.dest = .home loc) : ∃ sa c, s.paged l r = { r with sa := sa, cache := c } := by
  unfold State.paged
  cases l
  · exact ⟨_, _, rfl⟩
  · simp only [h]; exact ⟨_, _, rfl⟩

/-- What a read request of one member comes to: one request at the end of the list, with the fields of the access. -/
theorem requestOne_asks (h : Hdr) (fl : Flock) (x : State) (c : UnitCtx) (f : Fibre) (loc : Nat) (l : Option Leaf) (va n : Nat) (kind : ReqKind) (acq rel : Bool) (d : RegNo) (dw left : Nat) (esc : Bool) (acc : Acc) (ha : acc = .ok (.home loc) l) :
    ∃ r, Asks (ends h fl (x.touched f.key l va)) ((x.requestOne c f [] acc va n kind acq rel d dw left esc).closeUnit h.c fl) r
      ∧ IsRequest c f va n (.home loc) kind acq rel d dw left (if esc then some f.esc else none) r := by
  subst ha
  simp only [State.requestOne]
  generalize x.touched f.key l va = y
  obtain ⟨sa, ca, e1⟩ := paged_home y l { mkReq y c f va n (.home loc) kind acq rel d dw left esc f.esc with also := [].map fun m => (m, left) } (loc := loc) rfl
  rw [e1]
  obtain ⟨tag, e2⟩ := issueReq_home y.bump { { mkReq y c f va n (.home loc) kind acq rel d dw left esc f.esc with also := [].map fun m => (m, left) } with sa := sa, cache := ca } (loc := loc) rfl
  refine ⟨?r, ⟨?_⟩, ?_⟩
  case r => exact { mkReq y c f va n (.home loc) kind acq rel d dw left esc f.esc with also := [].map fun m => (m, left), sa := sa, cache := ca, tag := tag }
  · rw [closeUnit_rest, e2]; rfl
  · cases esc <;> constructor <;> simp [mkReq]

/-! ### Halts -/

/-- A fatal cause in a context that is not halting halts it, with this cause as its first. -/
theorem halts_fatal {x : State} {h : Hdr} {fl : Flock} {k : FKey} {cause : Nat} {ua : DWord} {y : Ctx} (hc : x.ctxs.get? (x.ctxOf k) = some y) (hh : y.halting = none) :
   Halts x ((x.fatal k cause ua).closeUnit h.c fl) (x.ctxOf k) ⟨haltClass cause, cause, ua, some k, 1⟩ := by
  refine ⟨?_, ?_, ?_⟩
  · rw [closeUnit_rest]; simp only [State.fatal, State.halt, hc, hh]; rfl
  · rw [closeUnit_rest]; simp only [State.fatal, State.halt, hc, hh]
    exact ⟨_, _, (tab_get_set _ _ _ _).trans (if_pos rfl), rfl, List.mem_singleton.2 rfl⟩
  · intro j hj
    rw [closeUnit_rest]; simp only [State.fatal, State.halt, hc, hh]
    exact (tab_get_set _ _ _ _).trans (if_neg hj)

/-- A fatal cause leaves every fibre's registers, predicates and address as the end of the unit leaves them. -/
theorem fatal_same (x : State) (h : Hdr) (fl : Flock) (k0 : FKey) (cause : Nat) (ua : DWord) (k : FKey) :
   ((((x.fatal k0 cause ua).closeUnit h.c fl).fibre? k).map (fun y => (y.ip, y.regs, y.preds))) = (x.fibre? k).map fun y => ((landed h fl y).ip, y.regs, y.preds) := by
  rw [fibre?_closeUnit, Option.map_map]
  have e : (fun y : Fibre => (y.ip, y.regs, y.preds)) ∘ landed h fl = fun y => ((landed h fl y).ip, y.regs, y.preds) := by funext y; simp
  rw [e]
  unfold State.fatal State.halt
  split
  · rfl
  · split
    · rfl
    · rw [fibre?_of_map (s := x) (fun f => if x.ctxOf f.key = x.ctxOf k0 then f.freeze else f) (fun f => by split <;> rfl) rfl]
      rw [Option.map_map]; congr 1; funext y
      simp only [Function.comp]
      split
      · simp only [landed_freeze]; rfl
      · rfl

end Sys2Proof.Machine
end

