-- ==== Sys2Proof/Laws/Stores.lean ====
section
/-! SUPPORT. The operations over the machine's memory: what each leaves in memory, and that each keeps the canonical form. -/

namespace Sys2Proof.Machine

/-! ### Applying a write (R218, R138) -/

theorem mem_recall (s : State) (line : Nat) (keep : Bool) : (s.recall line keep).mem = s.mem := by rw [recall_only]

/-- A fold whose steps leave memory alone leaves it alone. -/
theorem mem_foldl {α : Type} (l : List α) (F : State → α → State) (hF : ∀ s a, (F s a).mem = s.mem) (s : State) : (l.foldl F s).mem = s.mem := by
  induction l generalizing s with
  | nil => rfl
  | cons a l ih => rw [List.foldl_cons, ih, hF]

theorem mem_halt (s : State) (n : Nat) (i : HaltInfo) : (s.halt n i).mem = s.mem := by
  unfold State.halt
  split
  · rfl
  · split <;> rfl

theorem mem_machineCheck (s : State) (kind die slice c : Nat) : (s.machineCheck kind die slice c).mem = s.mem := by
  unfold State.machineCheck
  simp only
  split
  · rw [mem_foldl, mem_foldl]
    · rfl
    · exact fun s e => mem_halt _ _ _
    · intro s t; split <;> rfl
  · exact mem_halt _ _ _

theorem mem_dropLine (s : State) (line : Nat) : (s.dropLine line).mem = s.mem := by
  unfold State.dropLine
  split
  · rfl
  · dsimp only
    split
    · rw [mem_machineCheck, mem_recall]
    · exact mem_recall _ _ _

theorem mem_fillLine (s : State) (line : Nat) : (s.fillLine line).mem = s.mem := by
  unfold State.fillLine
  split
  · rfl
  · dsimp only
    split
    · split
      · exact mem_dropLine _ _
      · rfl
    · rfl

/-- What a write does to a line leaves the bytes to the write itself. -/
theorem mem_writeLine (s : State) (line loc n : Nat) (own : Option Nat) (c : Bool) : (s.writeLine line loc n own c).mem = s.mem := by
  unfold State.writeLine
  dsimp only
  split
  · split
    · exact mem_fillLine _ _
    · exact (mem_recall _ _ _).trans (mem_fillLine _ _)
  · split <;> exact mem_fillLine _ _

theorem mem_writeLines (s : State) (line loc n : Nat) (own : Option Nat) (c : Bool) (i : Nat) : (s.writeLines line loc n own c i).mem = s.mem := by
  induction i generalizing s line with
  | zero => rfl
  | succ i ih => unfold State.writeLines; rw [ih, mem_writeLine]

theorem mem_ring (s : State) (loc n : Nat) : (s.ring loc n).mem = s.mem := by
  unfold State.ring
  dsimp only
  rw [mem_foldl]
  intro s r
  split
  · rw [learnRead_only]
  · rfl

/-- A write that no slice stops stores its bytes; one that a slice stops stores none of them. -/
theorem mem_applyFrom (s : State) (own : Option Nat) (c : Bool) (st : List Nat) (wid loc : Nat) (bs : List Byte) (v : Option View) :
    (s.applyFrom own c st wid loc bs v).mem =
    if (List.range (lineCount loc bs.length)).all (fun i => !s.sliceStops (loc + 256 * i)) then s.mem.writeBytes loc bs else s.mem := by
  unfold State.applyFrom
  split
  · next i hi =>
    have h : (List.range (lineCount loc bs.length)).all (fun i => !s.sliceStops (loc + 256 * i)) = false := by
      rw [List.all_eq_false]
      exact ⟨i, List.mem_of_find?_eq_some hi, by simpa using List.find?_some hi⟩
    simp only [h]
    split
    · rfl
    · exact mem_machineCheck _ _ _ _ _
  · next hn =>
    have h : (List.range (lineCount loc bs.length)).all (fun i => !s.sliceStops (loc + 256 * i)) = true := by
      rw [List.all_eq_true]
      intro i hi
      simpa using List.find?_eq_none.1 hn i hi
    simp only [h, if_true, mem_ring]
    split
    · rfl
    · rw [mem_writeLines]

theorem wf_applyFrom {s : State} (own : Option Nat) (c : Bool) (st : List Nat) (wid loc : Nat) (bs : List Byte) (v : Option View) (hm : s.mem.wf = true) :
    (s.applyFrom own c st wid loc bs v).mem.wf = true := by
  rw [mem_applyFrom]
  split
  · exact wf_writeBytes _ _ hm
  · exact hm

/-! ### Placement, resets and the placed program -/

/-- A share that is placed has an empty scratchpad; the rest of memory stays. -/
theorem mem_putShare (s : State) (c k : Nat) (h : Household) : (s.putShare c k h).mem =
    s.mem.filter fun e => !(decide (spadLoc (4 * c + k) 0 ≤ e.1) && decide (e.1 < spadLoc (4 * c + k) 0 + 2 ^ 20)) := by
  unfold State.putShare
  dsimp only
  rw [mem_foldl, mem_foldl]
  · exact fun s j => rfl
  · intro s t; split <;> rfl

theorem wf_putShare {s : State} (c k : Nat) (h : Household) (hm : s.mem.wf = true) : (s.putShare c k h).mem.wf = true := by
  rw [mem_putShare]
  exact wf_filter _ hm

theorem wf_packageReset {s : State} (hm : s.mem.wf = true) : s.packageReset.mem.wf = true := by unfold State.packageReset; exact wf_filter _ hm
theorem wf_stopClocks {s : State} (hm : s.mem.wf = true) : s.stopClocks.mem.wf = true := by unfold State.stopClocks; exact wf_filter _ hm
theorem wf_withFetchWord {s : State} (nbits w : Nat) (hm : s.mem.wf = true) : (s.withFetchWord nbits w).mem.wf = true := by
  unfold State.withFetchWord
  dsimp only
  generalize leBytes 4 _ ++ _ = c
  generalize leBytes 8 0x20001 = a
  generalize leBytes 8 0x40000007 = b
  exact wf_writeBytes _ _ (wf_writeBytes _ _ (wf_writeBytes _ _ hm))
theorem wf_reset : State.reset.mem.wf = true := rfl

end Sys2Proof.Machine
end

