-- ==== Sys2Proof/Tests/Slice0.lean ====
section
/-! SUPPORT. The model's own tests: words written out from the encoding tables (R57 to R72) and what they decode to, ill-formed instructions, single steps with results that the spec's tables give, and for every obligation with hypotheses a state that meets them. -/

namespace Sys2Proof.Tests

-- One theorem after another: with all of them in flight at once, their threads take too much memory.
set_option Elab.async false

open Sys2Proof Sys2Proof.Machine Sys2Proof.Safety

/-! ### Words

Every word is put together from the fields of R57 and R59: C, U, G, S, then OP, then the operand fields. -/

/-- An unguarded word: C = 0, U = 0, G = 1111, S = 0. -/
def word (op : BitVec 8) (fields : BitVec 17) : Nat := (0#1 ++ 0#1 ++ 0b1111#4 ++ 0#1 ++ op ++ fields).toNat
/-- The header that the fields of `word` stand for. -/
def h0 : Hdr := ⟨false, false, .always⟩
/-- Each pair of opcode and operand fields decodes to its instruction. -/
def decode_all (xs : List (BitVec 8 × BitVec 17 × Instr)) : Bool :=
  xs.all fun x => decide (decodeTableWord 32 (word x.1 x.2.1) = some x.2.2)

def rrr (d a b : BitVec 5) (f : BitVec 2) : BitVec 17 := d ++ a ++ b ++ f
def rri (d a : BitVec 5) (i : BitVec 7) : BitVec 17 := d ++ a ++ i
def ri (d : BitVec 5) (i : BitVec 12) : BitVec 17 := d ++ i
def mem (d base : BitVec 5) (l : BitVec 4) (e : BitVec 1) (sz : BitVec 2) : BitVec 17 := d ++ base ++ l ++ e ++ sz
def eng (x y : BitVec 8) (k : BitVec 1) : BitVec 17 := x ++ y ++ k
def enr (x : BitVec 8) (g : BitVec 5) (k : BitVec 1) : BitVec 17 := x ++ g ++ 0#3 ++ k

/-- R103, R71: 0x00 to 0x0C; f: 00 .b32, 01 .i32, 10 .b64, 11 .i64. -/
theorem test_decode_integer : decode_all [
    (0x00, rrr 5 6 7 0, .iadd h0 5 6 7 .b32), (0x01, rrr 4 6 8 2, .isub h0 4 6 8 .b64), (0x02, rrr 5 6 7 1, .imul h0 5 6 7 .i32),
    (0x03, rrr 4 6 8 3, .imulh h0 4 6 8 .i64), (0x04, rrr 31 30 29 0, .imad h0 31 30 29 .b32), (0x05, rrr 1 2 3 1, .iadds h0 1 2 3 .i32),
    (0x06, rrr 1 2 3 0, .isubs h0 1 2 3 .b32), (0x07, rrr 9 8 7 1, .idiv h0 9 8 7 .i32), (0x08, rrr 10 8 6 2, .irem h0 10 8 6 .b64),
    (0x09, rrr 1 2 3 1, .imin h0 1 2 3 .i32), (0x0A, rrr 1 2 3 0, .imax h0 1 2 3 .b32), (0x0B, rrr 1 2 0 1, .iabs h0 1 2 .i32),
    (0x0C, rrr 16 18 0 3, .ineg h0 16 18 .i64)] = true := by decide

/-- R103, R105 to R107: 0x10 to 0x1E. -/
theorem test_decode_bits : decode_all [
    (0x10, rrr 5 6 7 0, .and h0 5 6 7 .b32), (0x11, rrr 4 6 8 2, .or h0 4 6 8 .b64), (0x12, rrr 5 6 7 0, .xor h0 5 6 7 .b32),
    (0x13, rrr 5 6 0 0, .not h0 5 6 .b32), (0x14, rrr 5 6 7 0, .shl h0 5 6 7 .b32), (0x15, rrr 4 6 7 2, .shr h0 4 6 7 .b64),
    (0x16, rrr 5 6 7 1, .sar h0 5 6 7 .i32), (0x17, rrr 5 6 7 0, .rot h0 5 6 7 .b32), (0x18, rrr 5 6 0 0, .popc h0 5 6 .b32),
    (0x19, rrr 5 6 0 0, .clz h0 5 6 .b32), (0x1A, rrr 4 6 0 2, .brev h0 4 6 .b64), (0x1B, rrr 5 6 7 1, .bfe h0 5 6 7 .i32),
    (0x1C, rrr 5 6 7 0, .bfi h0 5 6 7 .b32), (0x1D, rrr 4 6 7 3, .addp h0 4 6 7 3), (0x1E, rrr 4 6 8 0, .subp h0 4 6 8)] = true := by decide

/-- R108, R109: 0x20 to 0x2A, immediates at both ends of their range. -/
theorem test_decode_immediates : decode_all [
    (0x20, rri 5 6 0x40, .iaddi h0 5 6 0x40), (0x21, rri 5 6 0x7F, .andi h0 5 6 0x7F), (0x22, rri 5 6 0x3F, .ori h0 5 6 0x3F),
    (0x23, rri 5 6 1, .xori h0 5 6 1), (0x24, rri 5 6 31, .shli h0 5 6 31), (0x25, rri 5 6 0, .shri h0 5 6 0), (0x26, rri 5 6 31, .sari h0 5 6 31),
    (0x27, rri 5 6 0x41, .imuli h0 5 6 0x41), (0x28, ri 5 0x678, .movi h0 5 0x678), (0x29, ri 5 0xFFF, .movh h0 5 0xFFF),
    (0x2A, rri 4 6 0x7F, .addpi h0 4 6 0x7F)] = true := by decide

/-- R110 to R118, R71, R72: OP[1:0] is the type, f the rounding; a CVT has its source type in OP[2:0] and its destination type in b[4:2]. -/
theorem test_decode_float : decode_all [
    (0x40, rrr 5 6 7 0, .fadd h0 5 6 7 .f32 .rn), (0x45, rrr 4 6 8 1, .fsub h0 4 6 8 .f64 .rz), (0x4A, rrr 5 6 7 2, .fmul h0 5 6 7 .f16 .ru),
    (0x4F, rrr 5 6 7 3, .fma h0 5 6 7 .bf16 .rd), (0x50, rrr 5 6 7 0, .fmin h0 5 6 7 .f32), (0x55, rrr 4 6 8 0, .fmax h0 4 6 8 .f64),
    (0x5A, rrr 5 6 0 0, .fabs h0 5 6 .f16), (0x5F, rrr 5 6 0 0, .fneg h0 5 6 .bf16), (0x60, rrr 5 6 0 0, .frcp h0 5 6), (0x61, rrr 5 6 0 0, .frsq h0 5 6),
    (0x62, rrr 5 6 0 0, .fex2 h0 5 6), (0x63, rrr 5 6 0 0, .flg2 h0 5 6), (0x64, rrr 5 6 0 0, .fsin h0 5 6), (0x65, rrr 5 6 0 0, .fcos h0 5 6),
    (0x68, rrr 4 6 0b00100 1, .cvt h0 4 6 .f32 .f64 false .rz), (0x69, rrr 5 6 0b11010 1, .cvt h0 5 6 .f64 .i32 true .rz),
    (0x6C, rrr 5 6 0b00000 0, .cvt h0 5 6 .e4m3 .f32 false .rn), (0x6F, rrr 5 6 0b01000 3, .cvt h0 5 6 .b32 .f16 false .rd)] = true := by decide

/-- R88 to R99: 0x80 to 0x9D. -/
theorem test_decode_control : decode_all [
    (0x80, 0x1FFFF, .bra h0 0x1FFFF), (0x81, 0x00010, .call h0 0x10), (0x82, rrr 0 6 0 0, .brx h0 6), (0x83, rrr 0 8 0 0, .callx h0 8), (0x84, 0, .ret h0),
    (0x85, 0x00004, .fork h0 4), (0x86, rrr 7 0 0 0, .join h0 7), (0x87, ri 0 0x801, .quit h0 0x801), (0x88, 0, .yield h0), (0x89, 0, .nop h0),
    (0x8A, 0x1FFFF, .sleep h0 0x1FFFF), (0x8B, 0x00002, .cont h0 2), (0x8C, rrr 0 6 0 0, .resume h0 6), (0x8D, 0x12345, .trap h0 0x12345),
    (0x8E, ri 5 0x012, .movs h0 5 .escq), (0x8E, ri 6 0x020, .movs h0 6 .cyc), (0x8F, ri 6 0x014, .movsw h0 6 .fault)] = true := by decide

/-- R94 to R96: f[0] inverts a, f[1] inverts b. -/
theorem test_decode_predicates : decode_all [
    (0x90, rrr 1 2 3 1, .pand h0 1 2 3 true false), (0x91, rrr 11 0 3 2, .por h0 11 0 3 false true), (0x92, rrr 1 2 3 3, .pxor h0 1 2 3 true true),
    (0x93, rrr 1 2 0 0, .pnot h0 1 2), (0x94, rrr 1 2 0 1, .pmov h0 1 2 true), (0x95, ri 1 5, .pset h0 1 .fr),
    (0x98, rrr 1 6 7 2, .cmp h0 1 6 7 .i32 .lt), (0x9B, rrr 1 6 8 1, .cmp h0 1 6 8 .b64 .ne), (0x9D, rrr 1 6 8 3, .cmp h0 1 6 8 .f64 .ge)] = true := by decide

/-- R148 to R159, R221, R249, R250: MEM has d, the base pair, L, E and sz. -/
theorem test_decode_memory : decode_all [
    (0xA0, mem 8 6 15 1 2, .ld h0 8 6 15 true .b128), (0xA1, mem 7 6 3 0 3, .ldNarrow h0 7 6 3 false .i16), (0xA2, mem 8 6 0 0 1, .st h0 8 6 .b64),
    (0xA3, mem 7 6 0 0 1, .stNarrow h0 7 6 .b16), (0xA4, mem 8 6 9 0 2, .lds h0 8 6 9 .b128), (0xA5, mem 7 6 9 0 2, .ldsNarrow h0 7 6 9 .i8),
    (0xA6, mem 7 6 0 0 0, .sts h0 7 6 .b32), (0xA7, mem 7 6 0 0 0, .stsNarrow h0 7 6 .b8), (0xA8, mem 8 6 1 1 0, .ldf h0 8 6 1 true .b32),
    (0xA9, mem 8 6 0 0 2, .stf h0 8 6 .b128), (0xAA, mem 0 6 0 0 1, .pref h0 6 .l2), (0xAB, 0x000FF, .escm h0 0xFF), (0xAC, mem 8 6 2 0 1, .ldAcq h0 8 6 2 false .b64),
    (0xAD, mem 7 6 0 0 0, .stRel h0 7 6 .b32), (0xAE, mem 8 6 0 0 1, .ldv h0 8 6 0 false true), (0xAF, mem 8 6 0 1 1, .casv h0 8 6 0 true .b64)] = true := by decide

/-- R241 to R261: 0xB0 to 0xCF; OP[3:0] is the operation. -/
theorem test_decode_atomics : decode_all [
    (0xB0, mem 7 6 1 1 0, .atomAdd h0 7 6 1 true .b32), (0xB1, mem 8 6 0 0 2, .atomAnd h0 8 6 0 false .b64), (0xB2, mem 7 6 0 0 0, .atomOr h0 7 6 0 false .b32),
    (0xB3, mem 7 6 0 0 0, .atomXor h0 7 6 0 false .b32), (0xB4, mem 7 6 0 0 1, .atomMin h0 7 6 0 false .i32), (0xB5, mem 8 6 0 0 3, .atomMax h0 8 6 0 false .i64),
    (0xB6, mem 7 6 0 0 0, .atomExch h0 7 6 0 false .b32), (0xB7, mem 8 6 0 0 0, .atomCas h0 8 6 0 false .b32), (0xB8, mem 7 6 0 0 0, .atomFadd h0 7 6 0 false),
    (0xC0, mem 7 6 1 1 0, .atomOrdAdd h0 7 6 1 true .b32), (0xC1, mem 7 6 0 0 0, .atomOrdAnd h0 7 6 0 false .b32), (0xC2, mem 7 6 0 0 0, .atomOrdOr h0 7 6 0 false .b32),
    (0xC3, mem 7 6 0 0 0, .atomOrdXor h0 7 6 0 false .b32), (0xC4, mem 7 6 0 0 0, .atomOrdMin h0 7 6 0 false .b32), (0xC5, mem 7 6 0 0 0, .atomOrdMax h0 7 6 0 false .b32),
    (0xC6, mem 7 6 0 0 0, .atomOrdExch h0 7 6 0 false .b32), (0xC7, mem 8 6 0 0 0, .atomOrdCas h0 8 6 0 false .b32), (0xC8, mem 7 6 0 0 0, .atomOrdFadd h0 7 6 0 false),
    (0xC9, mem 7 6 0 0 0, .redAdd h0 7 6 .b32), (0xCA, mem 7 6 0 0 0, .redAnd h0 7 6 .b32), (0xCB, mem 7 6 0 0 0, .redOr h0 7 6 .b32), (0xCC, mem 7 6 0 0 0, .redXor h0 7 6 .b32),
    (0xCD, mem 7 6 0 0 1, .redMin h0 7 6 .i32), (0xCE, mem 8 6 0 0 2, .redMax h0 8 6 .b64), (0xCF, mem 7 6 0 0 0, .redFadd h0 7 6)] = true := by decide

/-- R247, R251 to R259: the units that synchronise. -/
theorem test_decode_synchronising : decode_all [
    (0xB9, mem 7 6 0 1 2, .rwl h0 7 6 0 true .rel), (0xBA, rrr 2 6 7 1, .valset h0 2 6 7 true), (0xBB, rrr 5 6 7 3, .waitcSigned h0 5 6 7 .ge), (0xBC, 0, .fence h0),
    (0xBD, 0b01#2 ++ 1#1 ++ 0#14, .bar h0 .par true), (0xBE, rrr 5 6 7 1, .waitcUnsigned h0 5 6 7 true)] = true := by decide

/-- R200 to R214, R271, R272, R282, R296, R301: ENG has x, y and k; ENR has x, g and k. -/
theorem test_decode_engines : decode_all [
    (0xD0, enr 200 6 1, .tdset h0 200 6 true), (0xD1, enr 3 8 0, .tdget h0 3 8 false), (0xD2, eng 255 0 0, .tdinv h0 255), (0xD3, enr 4 7 1, .mscl h0 4 7 true),
    (0xD4, eng 9 0 1, .mzero h0 9 true), (0xD5, eng 1 2 1, .mma h0 1 2 true), (0xD6, 7#8 ++ 0#3 ++ 1#1 ++ 11#4 ++ 0#1, .mdrn h0 7 true 11 false),
    (0xD7, eng 1 2 0, .cpy h0 1 2), (0xD8, eng 1 2 1, .tmm h0 1 2 true), (0xD9, rri 5 6 0x7F, .twait h0 5 6 0x7F), (0xDA, 0x10000, .flushc h0 .all),
    (0xDA, 0x003FF, .flushc h0 (.peer 0x3FF)), (0xDA, 0x08FFF, .flushc h0 (.grp 0xFFF)), (0xDB, rrr 5 6 7 0, .wopen h0 5 6 7), (0xDC, rrr 5 0 7 0, .wrevoke h0 5 7),
    (0xDD, rrr 0 6 7 0, .monset h0 6 7), (0xDE, rrr 0 6 7 0, .monrd h0 6 7)] = true := by decide

/-- R321, R322, R335: the system's units. -/
theorem test_decode_system : decode_all [
    (0xE8, rrr 5 6 8 0, .save h0 5 6 8), (0xE9, rrr 5 6 7 0, .rest h0 5 6 7), (0xEA, rrr 5 6 7 0, .keyld h0 5 6 7), (0xEB, rrr 5 0 7 0, .evict h0 5 7),
    (0xEC, ri 5 0x000, .movp h0 5 .ctxid), (0xEC, ri 6 0x011, .movp h0 6 .rfq), (0xED, ri 6 0x010, .movpw h0 6 .xinv), (0xEE, 0x00007, .dbrk h0 7)] = true := by decide

/-- R57, R61: C, U, G and S of a header, and an IMX word. -/
theorem test_decode_headers :
    decodeTableWord 32 (1#1 ++ 1#1 ++ 3#4 ++ 1#1 ++ 0x00#8 ++ rrr 5 6 7 0).toNat = some (.iadd ⟨true, true, .on 3 true⟩ 5 6 7 .b32)
    ∧ decodeTableWord 32 (1#1 ++ 0#1 ++ 15#4 ++ 0#1 ++ 0xFE#8 ++ 0x1FFFF#17).toNat = some (.imx 0x1FFFF) := by decide

/-- R58, R60, R61, R64, R72, R73: words that no instruction has: G = 12, G = 15 with S = 1, an odd pair, L on a store, a CVT to its own type, a field that must be zero, an opcode that is not assigned, an IMX with U = 1. -/
theorem test_decode_refuses : ([0#1 ++ 0#1 ++ 12#4 ++ 0#1 ++ 0x89#8 ++ 0#17, 0#1 ++ 0#1 ++ 15#4 ++ 1#1 ++ 0x89#8 ++ 0#17,
    0#1 ++ 0#1 ++ 15#4 ++ 0#1 ++ 0x00#8 ++ rrr 5 6 8 2, 0#1 ++ 0#1 ++ 15#4 ++ 0#1 ++ 0xA2#8 ++ mem 8 6 1 0 0, 0#1 ++ 0#1 ++ 15#4 ++ 0#1 ++ 0x68#8 ++ rrr 5 6 0 0,
    0#1 ++ 0#1 ++ 15#4 ++ 0#1 ++ 0x89#8 ++ 1#17, 0#1 ++ 0#1 ++ 15#4 ++ 0#1 ++ 0x0D#8 ++ 0#17, 1#1 ++ 1#1 ++ 15#4 ++ 0#1 ++ 0xFE#8 ++ 0#17] : List (BitVec 32)).all
    (fun w => decide (decodeTableWord 32 w.toNat = none)) = true := by decide

/-- R60, R72, R84, R118, R251: each check of WellFormed refuses an instruction: pairs and quads, U, the reserved conversions, VALSET's unused field, and the ranges of events. -/
theorem test_ill_formed : ([.iadd h0 5 6 8 .b64, .iadd h0 4 7 8 .b64, .iadd h0 4 6 9 .b64, .ld h0 6 6 0 false .b128, .ld h0 5 7 0 false .b32, .brx h0 7,
    .atomCas h0 7 6 0 false .b32, .fence ⟨false, true, .always⟩, .ld ⟨false, true, .always⟩ 5 6 0 true .b32, .cvt h0 5 6 .f32 .f32 false .rn,
    .cvt h0 5 6 .f32 .f16 true .rn, .cvt h0 5 6 .f32 .e4m3 false .rz, .valset h0 1 6 7 false, .flockForm 1024, .urgentFibre ⟨256, 0, 0, 0⟩, .l1Writeback 1024,
    .codeComparatorHit 0 8, .dataWatchpointHit 0 7, .applyWrite 4 0, .trst 8, .peerLost 1024, .linkDown 18, .contextHalt 512 ⟨16, 0x28, 0, none, 0⟩,
    .sliceRetire 0 0 [], .stewardKeyInstall 0 0 [], .planeRemap 16 0, .commitLineInvalidate 64, .mzeroApply 0 2, .cartAgeExpiry 0 256] : List Instr).all
      (fun i => !i.wf) = true
    ∧ (Instr.iadd h0 4 6 8 .b64).wf = true := by decide

/-! ### Single steps

Each entry places one word as the next instruction, sets registers, makes one step, and looks at one or two fields of what follows. The numbers come from the tables of the rules named. -/

def k0 : FKey := ⟨0, 0, 0, 0⟩
/-- A page table entry more: the gigabyte at virtual address 0x40000000 is writable device memory at 0x80000000 (R125). -/
def withData (s : State) : State := { s with mem := s.mem.writeBytes 0x20008 (leBytes 8 0x80000003) }
/-- A context with 64 KiB of scratchpad (R21). -/
def withSpad (s : State) : State := s.updCtx 0 fun x => { x with lrec := { x.lrec with spad := 0x10000 } }
/-- The word is the next instruction of a fibre whose registers hold `rs`. -/
def placed (op : BitVec 8) (fields : BitVec 17) (rs : List (BitVec 5 × Word)) : State :=
  (withSpad (withData (State.reset.withFetchWord 32 (word op fields)))).updFibre k0 fun f => rs.foldl (fun (f : Fibre) p => f.setReg p.1 p.2) f
/-- One step is made, and `p` holds of the state after it. -/
def steps (s : State) (p : State → Bool) : Bool :=
  match step s with
  | .next t => p t
  | _ => false
def fibreIs (p : Fibre → Bool) (s : State) : Bool := (s.fibre? k0).any p
/-- After one step the register holds the value. -/
def writes (xs : List (BitVec 8 × BitVec 17 × List (BitVec 5 × Word) × BitVec 5 × Word)) : Bool :=
  xs.all fun x => steps (placed x.1 x.2.1 x.2.2.1) (fibreIs fun f => decide (f.reg x.2.2.2.1 = x.2.2.2.2))
/-- After one step the pair holds the value. -/
def writesPair (xs : List (BitVec 8 × BitVec 17 × List (BitVec 5 × Word) × BitVec 5 × DWord)) : Bool :=
  xs.all fun x => steps (placed x.1 x.2.1 x.2.2.1) (fibreIs fun f => decide (f.pair x.2.2.2.1 = x.2.2.2.2))

/-- R103, R104: wrap, saturation, signs, the division corners. -/
theorem test_integer : writes [
    (0x00, rrr 5 6 7 0, [(6, 0xFFFFFFFF), (7, 2)], 5, 1), (0x01, rrr 5 6 7 0, [(6, 1), (7, 2)], 5, 0xFFFFFFFF), (0x02, rrr 5 6 7 1, [(6, 0x10000), (7, 0x10001)], 5, 0x10000),
    (0x03, rrr 5 6 7 1, [(6, 0xFFFFFFFF), (7, 2)], 5, 0xFFFFFFFF), (0x03, rrr 5 6 7 0, [(6, 0xFFFFFFFF), (7, 2)], 5, 1), (0x04, rrr 5 6 7 0, [(5, 3), (6, 4), (7, 5)], 5, 23),
    (0x05, rrr 5 6 7 1, [(6, 0x7FFFFFFF), (7, 1)], 5, 0x7FFFFFFF), (0x06, rrr 5 6 7 0, [(6, 1), (7, 2)], 5, 0), (0x07, rrr 5 6 7 1, [(6, 0xFFFFFFF9), (7, 2)], 5, 0xFFFFFFFD),
    (0x07, rrr 5 6 7 1, [(6, 0x80000000), (7, 0)], 5, 0x80000000), (0x08, rrr 5 6 7 1, [(6, 0xFFFFFFF9), (7, 2)], 5, 0xFFFFFFFF)] = true := by decide

/-- R103, R104: what is left of an unsigned division by 0, and the signed and unsigned orders. -/
theorem test_integer_orders : writes [
    (0x08, rrr 5 6 7 0, [(6, 9), (7, 0)], 5, 9),
    (0x09, rrr 5 6 7 1, [(6, 0xFFFFFFFF), (7, 1)], 5, 0xFFFFFFFF), (0x0A, rrr 5 6 7 0, [(6, 0xFFFFFFFF), (7, 1)], 5, 0xFFFFFFFF)] = true := by decide

/-- R103: IABS and INEG of the most negative number. -/
theorem test_negation : writes [
    (0x0B, rrr 5 6 0 1, [(6, 0x80000000)], 5, 0x7FFFFFFF), (0x0C, rrr 5 6 0 1, [(6, 0x80000000)], 5, 0x7FFFFFFF)] = true := by decide

set_option maxRecDepth 4000 in
/-- R103, R105, R106: bits, counts of the width and more, fields. -/
theorem test_bits : writes [
    (0x10, rrr 5 6 7 0, [(6, 0xFF00FF00), (7, 0x0FF00FF0)], 5, 0x0F000F00), (0x11, rrr 5 6 7 0, [(6, 0xFF00FF00), (7, 0x0FF00FF0)], 5, 0xFFF0FFF0),
    (0x12, rrr 5 6 7 0, [(6, 0xFF00FF00), (7, 0x0FF00FF0)], 5, 0xF0F0F0F0), (0x13, rrr 5 6 0 0, [(6, 0xFF00FF00)], 5, 0x00FF00FF), (0x14, rrr 5 6 7 0, [(6, 1), (7, 32)], 5, 0),
    (0x15, rrr 5 6 7 0, [(6, 0x80000000), (7, 31)], 5, 1), (0x16, rrr 5 6 7 1, [(6, 0x80000000), (7, 40)], 5, 0xFFFFFFFF), (0x17, rrr 5 6 7 0, [(6, 0x80000001), (7, 33)], 5, 3),
    (0x18, rrr 5 6 0 0, [(6, 0xF0F00001)], 5, 9), (0x19, rrr 5 6 0 0, [(6, 0)], 5, 32), (0x1A, rrr 5 6 0 0, [(6, 1)], 5, 0x80000000),
    (0x1B, rrr 5 6 7 1, [(6, 0x0000ABCD), (7, 0x0804)], 5, 0xFFFFFFBC), (0x1C, rrr 5 6 7 0, [(5, 0xFFFFFFFF), (6, 0), (7, 0x0804)], 5, 0xFFFFF00F)] = true := by decide

/-- R107 to R109: sign extension of indexes and immediates. -/
theorem test_immediates : writes [
    (0x20, rri 5 6 0x40, [(6, 10)], 5, 0xFFFFFFCA), (0x21, rri 5 6 0x7F, [(6, 0x12345678)], 5, 0x12345678), (0x22, rri 5 6 0x40, [(6, 1)], 5, 0xFFFFFFC1),
    (0x23, rri 5 6 0x7F, [(6, 0xF)], 5, 0xFFFFFFF0), (0x24, rri 5 6 31, [(6, 3)], 5, 0x80000000), (0x25, rri 5 6 31, [(6, 0x80000000)], 5, 1),
    (0x26, rri 5 6 31, [(6, 0x80000000)], 5, 0xFFFFFFFF), (0x27, rri 5 6 0x7F, [(6, 7)], 5, 0xFFFFFFF9), (0x28, ri 5 0x800, [], 5, 0xFFFFF800),
    (0x29, ri 5 0xFFF, [(5, 0x12345678)], 5, 0x0FFF5678)] = true
  ∧ writesPair [(0x1D, rrr 4 6 8 3, [(6, 0), (7, 1), (8, 0xFFFFFFFF)], 4, 0xFFFFFFF8), (0x1E, rrr 4 6 8 0, [(6, 0), (7, 0), (8, 1), (9, 0)], 4, 0xFFFFFFFFFFFFFFFF),
    (0x2A, rri 4 6 0x7F, [(6, 0), (7, 1)], 4, 0xFFFFFFFF)] = true := by decide

/-- R113 to R117: sums, signed zeros, NaNs, the special points. -/
theorem test_float : writes [
    (0x40, rrr 5 6 7 0, [(6, 0x3F800000), (7, 0x40000000)], 5, 0x40400000), (0x44, rrr 5 6 7 3, [(6, 0x3F800000), (7, 0x3F800000)], 5, 0x80000000),
    (0x48, rrr 5 6 7 0, [(6, 0x7F800000), (7, 0)], 5, 0x7FC00000), (0x4C, rrr 5 6 7 0, [(5, 0x3F800000), (6, 0x40000000), (7, 0x40400000)], 5, 0x40E00000),
    (0x50, rrr 5 6 7 0, [(6, 0x7FC00001), (7, 0x3F800000)], 5, 0x3F800000), (0x54, rrr 5 6 7 0, [(6, 0x80000000), (7, 0)], 5, 0),
    (0x58, rrr 5 6 0 0, [(6, 0xBF800000)], 5, 0x3F800000), (0x5C, rrr 5 6 0 0, [(6, 0x7FC00001)], 5, 0x7FC00000), (0x60, rrr 5 6 0 0, [(6, 0x80000000)], 5, 0xFF800000),
    (0x61, rrr 5 6 0 0, [(6, 0xFF800000)], 5, 0x7FC00000), (0x62, rrr 5 6 0 0, [(6, 0xFF800000)], 5, 0), (0x63, rrr 5 6 0 0, [(6, 0)], 5, 0xFF800000),
    (0x64, rrr 5 6 0 0, [(6, 0x80000000)], 5, 0x80000000), (0x65, rrr 5 6 0 0, [(6, 0)], 5, 0x3F800000)] = true := by decide

/-- R118 to R121: a float to integers, saturated and not, an integer to a float, and narrowing. -/
theorem test_convert : writes [
    (0x68, rrr 5 6 0b11010 1, [(6, 0x4F800000)], 5, 0x7FFFFFFF), (0x68, rrr 5 6 0b11000 1, [(6, 0x4F800000)], 5, 0x80000000), (0x68, rrr 5 6 0b11000 1, [(6, 0xBFC00000)], 5, 0xFFFFFFFF),
    (0x6E, rrr 5 6 0b00000 0, [(6, 0xFFFFFFFF)], 5, 0xBF800000), (0x68, rrr 5 6 0b01000 0, [(6, 0x3F800000)], 5, 0x00003C00)] = true := by decide

/-- R88 to R93: control. A packet offset of -1 from the first packet of a region leads to the last packet of the one before it (R55, R56). -/
theorem test_control :
    steps (placed 0x80 0x1FFFF []) (fibreIs fun f => decide (f.ip = 0xFFE4)) = true
    ∧ steps (placed 0x81 2 []) (fibreIs fun f => decide (f.ip = 0x10018 ∧ f.pair 2 = 0x1000C)) = true
    ∧ steps (placed 0x82 (rrr 0 6 0 0) [(6, 0x1000C)]) (fibreIs fun f => decide (f.ip = 0x1000C)) = true
    ∧ steps (placed 0x82 (rrr 0 6 0 0) [(6, 0x10004)]) (fun s => decide ((s.ctx 0).st = 6)) = true
    ∧ steps (placed 0x83 (rrr 0 6 0 0) [(6, 0x1000C)]) (fibreIs fun f => decide (f.ip = 0x1000C ∧ f.pair 2 = 0x1000C)) = true
    ∧ steps (placed 0x84 0 [(2, 0x10018)]) (fibreIs fun f => decide (f.ip = 0x10018)) = true
    ∧ steps (placed 0x85 1 []) (fun s => fibreIs (fun f => decide (f.nch = 1)) s && (s.fibre? ⟨0, 0, 0, 1⟩).any fun f => decide (f.ip = 0x1000C ∧ f.pv = true)) = true
    ∧ steps (placed 0x86 (rrr 5 0 0 0) [(5, 9)]) (fibreIs fun f => decide (f.reg 5 = 0 ∧ f.wait = .none)) = true
    ∧ steps (placed 0x87 0 []) (fun s => decide (s.fibre? k0 = none)) = true
    ∧ steps (placed 0x88 0 []) (fibreIs fun f => f.yielded) = true
    ∧ steps (placed 0x89 0 [(5, 9)]) (fibreIs fun f => decide (f.reg 5 = 9 ∧ f.ip = 0x10004)) = true
    ∧ steps (placed 0x8A 7 []) (fibreIs fun f => decide (f.wait = .sleep 7)) = true
    ∧ steps (placed 0x8B 1 []) (fibreIs fun f => decide (f.cont = 0x1000C)) = true := by decide

/-- R97 to R99, R335: exceptions without a frame address halt; special registers. -/
theorem test_special :
    steps (placed 0x8C (rrr 0 6 0 0) [(6, 8)]) (fun s => decide ((s.ctx 0).st = 6)) = true
    ∧ steps (placed 0x8D 1 []) (fun s => (s.ctx 0).halting.any fun h => h.infos.any fun i => decide (i.cls = 15 ∧ i.cause = 0x25 ∧ i.fip = 0x10000)) = true
    ∧ steps (placed 0x8E (ri 5 0x010) []) (fibreIs fun f => decide (f.reg 5 = 0)) = true
    ∧ steps (placed 0x8F (ri 5 0x011) [(5, 0xFFFF)]) (fibreIs fun f => decide (f.esc = 0xFFFF)) = true
    ∧ steps (placed 0xEE 1 []) (fun s => (s.quarter 0).stopped) = true := by decide

/-- R94 to R96. -/
theorem test_predicates :
    [(0x90, rrr 1 2 3 1, true), (0x91, rrr 1 2 3 0, true), (0x92, rrr 1 2 3 3, true), (0x93, rrr 1 2 0 0, true), (0x94, rrr 1 3 0 0, true), (0x95, ri 1 0, false),
      (0x98, rrr 1 6 7 2, true), (0x99, rrr 1 6 7 2, false), (0x9C, rrr 1 6 7 1, true)].all (fun (x : BitVec 8 × BitVec 17 × Bool) =>
        steps ((placed x.1 x.2.1 [(6, 0xFFFFFFFF), (7, 1)]).updFibre k0 fun f => f.setPred 3 true) (fibreIs fun f => decide (f.pred 1 = x.2.2))) = true := by decide

/-- The base pair of the tests below: virtual address 0x40000010, location 0x80000010. -/
def base6 : List (BitVec 5 × Word) := [(6, 0x40000010), (7, 0), (8, 0x11223344), (9, 0x55667788)]

/-- R148, R155, R227, R247, R249, R250: reads and atomics ask for their bytes. -/
theorem test_requests : [(0xA0, mem 8 6 15 0 2, 16, false), (0xA1, mem 8 6 0 0 3, 2, false), (0xAC, mem 8 6 0 0 1, 8, true), (0xAE, mem 8 6 0 0 0, 4, true), (0xAF, mem 8 6 0 0 0, 4, true),
      (0xB0, mem 8 6 0 0 0, 4, false), (0xB7, mem 8 6 0 0 0, 4, false), (0xB8, mem 8 6 0 0 0, 4, false), (0xC6, mem 8 6 0 0 2, 8, true), (0xB9, mem 8 6 0 0 0, 4, true)].all
      (fun (x : BitVec 8 × BitVec 17 × Nat × Bool) => steps (placed x.1 x.2.1 base6) fun s =>
        decide (s.reqs.map (fun r => (r.dest, r.n, r.acq, r.dst, r.left)) = [(.home 0x80000010, x.2.2.1, x.2.2.2, 8, if x.1 = 0xA0 then 15 else 0)])) = true
    ∧ steps (placed 0xA0 (mem 8 6 0 0 0) [(6, 0x40000012)]) (fun s => decide ((s.ctx 0).st = 6)) = true := by decide

/-- R151, R154, R221, R245: stores and reductions enter the write buffer; memory does not change. -/
theorem test_stores : [(0xA2, mem 8 6 0 0 1, 8), (0xA3, mem 8 6 0 0 0, 1), (0xAD, mem 8 6 0 0 0, 4), (0xC9, mem 8 6 0 0 0, 4), (0xCF, mem 8 6 0 0 0, 4)].all
      (fun (x : BitVec 8 × BitVec 17 × Nat) => steps (placed x.1 x.2.1 base6) fun s =>
        fibreIs (fun f => decide (f.wb.map (fun w => (w.dest, w.n)) = [(.home 0x80000010, x.2.2)])) s && decide (s.mem.get 0x80000010 = 0)) = true
    ∧ steps (placed 0xA2 (mem 8 6 0 0 0) base6) (fibreIs fun f => decide (f.wb.map (fun w => w.kind) = [.store [0x44, 0x33, 0x22, 0x11]])) = true
    ∧ steps (placed 0xA2 (mem 8 6 0 0 0) [(6, 0x10000)]) (fun s => decide (s.fibre? k0 ≠ none ∧ (s.ctx 0).st = 6)) = true := by decide

/-- R152 to R155: the household's own scratchpad, and its end. -/
theorem test_scratchpad : [(0xA4, mem 8 6 0 0 2, 16), (0xA5, mem 8 6 0 0 0, 1), (0xA8, mem 8 6 0 0 1, 8)].all (fun (x : BitVec 8 × BitVec 17 × Nat) =>
      steps (placed x.1 x.2.1 [(6, 0x20)]) fun s => decide (s.reqs.map (fun r => (r.dest, r.n)) = [(.home (spadLoc 0 0x20), x.2.2)])) = true
    ∧ [(0xA6, mem 8 6 0 0 2, 16), (0xA7, mem 8 6 0 0 0, 1), (0xA9, mem 8 6 0 0 1, 8)].all (fun (x : BitVec 8 × BitVec 17 × Nat) =>
      steps (placed x.1 x.2.1 [(6, 0x20)]) (fibreIs fun f => decide (f.wb.map (fun w => (w.dest, w.n)) = [(.home (spadLoc 0 0x20), x.2.2)]))) = true
    ∧ steps (placed 0xA4 (mem 8 6 0 0 0) [(6, 0x10000)]) (fun s => decide ((s.ctx 0).st = 6)) = true := by decide

/-- R157, R159, R251 to R259: units that wait, and those that do not. -/
theorem test_synchronising :
    steps (placed 0xAA (mem 0 6 0 0 0) base6) (fibreIs fun f => decide (f.wait = .none ∧ f.ip = 0x10004)) = true
    ∧ steps (placed 0xAB 0xFF []) (fibreIs fun f => decide (f.esc = 0xFF)) = true
    ∧ steps (placed 0xBC 0 []) (fibreIs fun f => decide (f.ip = 0x10004)) = true
    ∧ steps (placed 0xBD 0 []) (fibreIs fun f => decide (f.ip = 0x10004)) = true
    ∧ [(0xBB, rrr 5 6 8 0), (0xBE, rrr 5 6 8 0)].all (fun (x : BitVec 8 × BitVec 17) =>
        steps (placed x.1 x.2 base6) fun s => decide (s.reqs.map (fun r => r.dest) = [.home 0x80000010]) && fibreIs (fun f => decide (f.wait ≠ .none)) s) = true := by decide

/-- R202: TWAIT waits for the completion object, a multiple of 32, under the whole window. -/
theorem test_twait : steps (placed 0xD9 (rri 0 6 1) [(6, 0x40000020)]) (fun s =>
    decide (s.reqs.map (fun r => (r.dest, r.n, r.esc.map Prod.fst)) = [(.home 0x80000020, 8, some 0xFFFFFFFF)]) && fibreIs (fun f => decide (f.wait ≠ .none)) s) = true := by decide

/-- R200, R271, R272, R296, R301, R321: units that wait for their engine thread start it. -/
theorem test_waiting_units : [(0xD0, enr 3 6 0, .tdset), (0xD1, enr 3 6 0, .tdget), (0xD2, eng 3 0 0, .tdinv), (0xDB, rrr 5 6 7 0, .wopen), (0xDC, rrr 5 0 7 0, .wrevoke),
      (0xDD, rrr 0 6 7 0, .monset), (0xDE, rrr 0 6 7 0, .monrd), (0xE8, rrr 5 6 8 0, .save), (0xE9, rrr 5 6 8 0, .rest), (0xEA, rrr 5 6 7 0, .keyld), (0xEB, rrr 5 0 8 0, .evict)].all
      (fun (x : BitVec 8 × BitVec 17 × EKind) => steps (placed x.1 x.2.1 [(6, 0x40000000), (7, 0), (8, 1), (9, 1)]) fun s =>
        decide (s.eops.map (fun e => e.kind) = [x.2.2]) && fibreIs (fun f => decide (f.wait ≠ .none ∧ f.wait ≠ .halted)) s) = true := by decide +kernel

/-- R196, R205, R207, R210, R211, R214: without a valid descriptor or a tile the context halts. -/
theorem test_engine_checks : [(0xD3, enr 3 6 0), (0xD4, eng 3 0 0), (0xD5, eng 3 4 0), (0xD6, eng 3 0 0), (0xD7, eng 3 4 0), (0xD8, eng 3 4 0)].all
      (fun (x : BitVec 8 × BitVec 17) => steps (placed x.1 x.2 []) fun s => decide ((s.ctx 0).st = 6)) = true := by decide +kernel

/-- R61, R282, R322: IMX moves nobody; FLUSHC goes on; MOVP gives the context's number, MOVPW writes EN of %rfq. -/
theorem test_system :
    steps (State.reset.withFetchWord 32 (1#1 ++ 0#1 ++ 15#4 ++ 0#1 ++ 0xFE#8 ++ 0x1FFFF#17).toNat) (fun s =>
      fibreIs (fun f => decide (f.ip = 0x10000)) s && (s.flockOf? 0).any fun fl => decide (fl.imxs = [0x1FFFF])) = true
    ∧ steps (placed 0xDA 0x10000 []) (fibreIs fun f => decide (f.ip = 0x10004)) = true
    ∧ steps (placed 0xEC (ri 5 0x000) [(5, 9)]) (fibreIs fun f => decide (f.reg 5 = 0)) = true
    ∧ steps (placed 0xED (ri 6 0x011) [(6, 0x40000001), (7, 0)]) (fun s => decide ((s.ctx 0).rfq = 0x40000001)) = true
    ∧ steps ((placed 0xEC (ri 5 0x000) [(5, 9)]).updCtx 0 fun x => { x with priv := false }) (fun s => decide ((s.ctx 0).st = 6)) = true := by decide

/-! ### Witnesses

For every obligation with hypotheses a state and operands that meet them, clause by clause. -/

/-- The fibre of the placed program. -/
def here (s : State) : Fibre := (s.fibre? k0).getD (fetchFibre 0)
/-- A unit is next, after a few others; g6:g7 hold an address of the data page, g8:g9 another one. -/
def s1 : State := { placed 0x89 0 [(6, 0x40000000), (8, 0x40000100)] with serial := 8 }
/-- The next unit's flock has two members, on lanes 0 and 1. -/
def s2 : State :=
  { s1 with
    fibres := s1.fibres ++ [{ here s1 with key := ⟨0, 0, 1, 0⟩, fid := 4 }]
    flocks := s1.flocks.map fun fl => { fl with members := [k0, ⟨0, 0, 1, 0⟩] } }
def flock2 : Flock := { fetchFlock with members := [k0, ⟨0, 0, 1, 0⟩] }
/-- The fibre is changed. -/
def s1With (g : Fibre → Fibre) : State := s1.updFibre k0 g

theorem solo_of {h : Hdr} {fl : Flock} {f : Fibre} {s : State}
    (x : s.flockOf? s.cur = some fl ∧ (unitCtx h fl s).act = [f] ∧ f.key ∈ fl.members ∧ s.fibre? f.key = some f ∧ f.foln = none ∧ f.wait ≠ .halted) :
    Solo h fl f f s := ⟨x.1, x.2.1, x.2.2.1, x.2.2.2.1, x.2.2.2.2.1, x.2.2.2.2.2⟩

theorem issues_of {h : Hdr} {fl : Flock} {s : State}
    (x : s.flockOf? s.cur = some fl ∧ ∀ f ∈ (unitCtx h fl s).act, (s.fibre? f.key).all (fun g => decide (g.foln = none)) = true) : Issues h fl s :=
  ⟨x.1, fun f hf g hg => by simpa [hg] using x.2 f hf⟩

/-- A flock of one member, and one of two that computes from its leader (U = 1). -/
theorem witness_issues : Issues h0 fetchFlock s1 ∧ Issues ⟨false, true, .always⟩ flock2 s2 :=
  ⟨issues_of (by decide +kernel), issues_of (by decide +kernel)⟩
theorem witness_IntegerArithmeticWrites : Issues h0 fetchFlock s1 ∧ Issues ⟨false, true, .always⟩ flock2 s2 := witness_issues
theorem witness_BitwiseAndShiftsWrite : Issues h0 fetchFlock s1 ∧ Issues ⟨false, true, .always⟩ flock2 s2 := witness_issues
theorem witness_AddressAndImmediateFormsWrite : Issues h0 fetchFlock s1 ∧ Issues ⟨false, true, .always⟩ flock2 s2 := witness_issues
theorem witness_SpecialRegistersRead : Issues h0 fetchFlock s1 ∧ Issues ⟨false, true, .always⟩ flock2 s2 := witness_issues

theorem live_of {h : Hdr} {fl : Flock} {s : State} (x : ∀ f ∈ (unitCtx h fl s).act, (s.fibre? f.key).any (fun g => decide (g.wait ≠ .halted)) = true)
    (y : ((unitCtx h fl s).act.map fun f => f.key).Nodup) : ActiveLive h fl s := ⟨fun f hf => by
  have := x f hf
  cases hg : s.fibre? f.key with
  | none => simp [hg] at this
  | some g => exact ⟨g, rfl, by simpa [hg] using this⟩, y⟩

/-- No FENCE or BAR stands before the unit; a FENCE of its chain does. -/
def sFenced : State := s1With fun f => f.await 5 0#64 (.fence 5)
theorem witness_PredicatesWrite : Issues h0 fetchFlock s1 ∧ s1.reqs = [] ∧ (here s1).fencedAt s1.serial = false ∧ (unitCtx h0 fetchFlock s1).act = [here s1]
    ∧ Issues h0 fetchFlock sFenced ∧ ActiveLive h0 fetchFlock sFenced ∧ sFenced.reqs = [] ∧ (unitCtx h0 fetchFlock sFenced).act = [here sFenced]
    ∧ sFenced.fibre? k0 = some (here sFenced) ∧ (here sFenced).fencedAt sFenced.serial = true :=
  by and_intros <;> first | decide +kernel | exact witness_issues.1 | exact issues_of (by decide +kernel) | exact live_of (by decide +kernel) (by decide +kernel)

/-- CMP of a NaN, and of -0 with +0. -/
theorem witness_FloatUnitsWrite : Issues h0 fetchFlock s1 ∧ fmt32.decode 0x7FC00000 = .nan ∧ rational (fmt32.decode 0x80000000) = some 0 ∧ rational (fmt64.decode 0) = some 0 :=
  ⟨witness_issues.1, by decide, by simp [rational, show fmt32.decode 0x80000000 = .fin true 0 (-149) by decide],
    by simp [rational, show fmt64.decode 0 = .fin false 0 (-1074) by decide]⟩

/-- The largest finite value of E4M3, and its bits. -/
theorem witness_RoundingFollowsIeee : fmtE4M3 ∈ [fmt64, fmt32, fmt16, fmtB16, fmtE4M3, fmtE5M2] ∧ rational (.fin false 448 0) = some 448
    ∧ fmtE4M3.roundMag .rn false 448 0 ≤ fmtE4M3.maxBits ∧ 0x7E < 2 ^ fmtE4M3.width ∧ rational (fmtE4M3.decode 0x7E) = some 448 :=
  ⟨by decide, by simp [rational], by decide, by decide, by
    rw [show fmtE4M3.decode 0x7E = .fin false 14 5 by decide]; norm_num [rational]⟩

/-- A NaN, infinities of both signs, finite values with a zero sum, and zeros of both signs. -/
theorem witness_FloatSpecialValues : fmt32 ∈ [fmt64, fmt32, fmt16, fmtB16] ∧ fmt32.decode 0x7FC00000 = .nan ∧ fmt32.decode 0x7F800000 = .inf false
    ∧ fmt32.decode 0xFF800000 = .inf true ∧ rational (fmt32.decode 0x3F800000) = some 1 ∧ rational (fmt32.decode 0xBF800000) = some (-1)
    ∧ rational (fmt32.decode 0) = some 0 ∧ 0xFFFFFFFF < 2 ^ fmt32.width ∧ 0x80000000 = 2 ^ (fmt32.width - 1) := by
  refine ⟨?_, ?_, ?_, ?_, ?_, ?_, ?_, ?_, ?_⟩
  · decide
  · decide
  · decide
  · decide
  · rw [show fmt32.decode 0x3F800000 = .fin false (2 ^ 23) (-23) by decide]; norm_num [rational]
  · rw [show fmt32.decode 0xBF800000 = .fin true (2 ^ 23) (-23) by decide]; norm_num [rational]
  · simp [rational, show fmt32.decode 0 = .fin false 0 (-149) by decide]
  · decide
  · decide

/-- Values for each point and interval of R117: a NaN; 2, a power of two and of four's double, past 1 and below 128; its negative; 128 and -150; 2^-13, below 2^-12; and 315, past 100 pi. -/
theorem witness_ApproximationsFollowR117 : fmt32.decode (0x7FC00000#32).toNat = .nan ∧ fmt32.decode (0x40000000#32).toNat = .fin false (2 ^ 23) (-22)
    ∧ rational (.fin false (2 ^ 23) (-22)) = some 2 ∧ (2 : ℚ) ≠ 0 ∧ |(2 : ℚ)⁻¹| < (2 - 2 ^ (-24 : Int)) * 2 ^ 127 ∧ |(2 : ℚ)| = 2 ^ (1 : Int) ∧ (-2 : ℚ) < 0 ∧ (0 : ℚ) < 4 ∧ (4 : ℚ) = 4 ^ (1 : Int)
    ∧ (128 : ℚ) ≤ 128 ∧ (-150 : ℚ) ≤ -150 ∧ (-149 : Int) ≤ 127 ∧ |(1 / 8192 : ℚ)| < 2 ^ (-12 : Int) ∧ (2 : ℚ) ^ 126 < |(2 : ℚ) ^ 127|
    ∧ (-150 < (5 / 2 : ℚ) ∧ (5 / 2 : ℚ) < 128) ∧ (1 / 2 ≤ (3 / 2 : ℚ) ∧ (3 / 2 : ℚ) ≤ 2) ∧ (2 - 2 ^ (-24 : Int)) * 2 ^ 127 ≤ |((1 / 2 ^ 149 : ℚ))⁻¹| ∧ 100 * Real.pi < |((315 : ℚ) : ℝ)|
    ∧ |((2 : ℚ) : ℝ)| ≤ 100 * Real.pi := by
  have h3 := Real.pi_gt_three
  have h2 := Real.pi_lt_d2
  and_intros
  all_goals first
    | decide
    | (norm_num [rational]; done)
    | (norm_num; linarith)

/-- 5/2 under each rounding; 2 is the even one of its neighbours. A source of each kind, and values at the ends of the small formats' range. -/
theorem witness_ConversionsFollowR119 : cvtFmt .f32 = some fmt32 ∧ cvtFmt .e4m3 = some fmtE4M3 ∧ cvtFmt .e5m2 = some fmtE5M2 ∧ CvtTy.f16 ≠ .e4m3 ∧ CvtTy.f16 ≠ .e5m2
    ∧ fmt32.decode 0x7FC00000 = .nan ∧ fmt32.decode 0x7F800000 = .inf false ∧ 464 < |(465 : ℚ)| ∧ 61440 ≤ |(61440 : ℚ)| ∧ ¬ 464 < |(464 : ℚ)|
    ∧ (|(464 : Int)| ≤ 464 ∧ 464 < |(-465 : Int)| ∧ |(61439 : Int)| < 61440 ∧ 61440 ≤ |(-61440 : Int)|)
    ∧ rational (.fin false 5 (-1)) = some (5 / 2) ∧ (2 : Int) = (if (0 : ℚ) ≤ 5 / 2 then ⌊(5 / 2 : ℚ)⌋ else ⌈(5 / 2 : ℚ)⌉)
    ∧ (3 : Int) = ⌈(5 / 2 : ℚ)⌉ ∧ (2 : Int) = ⌊(5 / 2 : ℚ)⌋ ∧ |((2 : Int) : ℚ) - 5 / 2| = 1 / 2 ∧ (2 : Int) % 2 = 0 := by
  and_intros <;> first | decide | norm_num [rational]

/-- The words before and at the end of a region. -/
theorem witness_MembersAdvance : Issues h0 fetchFlock s1 ∧ (65512#64).toNat % 65536 < 65520 ∧ (65512#64).toNat % 4 = 0 ∧ (65516#64).toNat % 65536 < 65520 ∧ (65516#64).toNat % 4 = 0 :=
  ⟨witness_issues.1, by decide⟩

/-- g6:g7, and g2:g3, hold a packet's start for both members. -/
theorem witness_BranchesMoveActiveMembers : Issues h0 flock2 s2 ∧ ActiveLive h0 flock2 s2 ∧ (∀ f ∈ (unitCtx h0 flock2 s2).act, isPacketStart (f.pair 6) = true)
    ∧ ∀ f ∈ (unitCtx h0 flock2 s2).act, isPacketStart (f.pair 2) = true := by
  exact ⟨issues_of (by decide +kernel), live_of (by decide +kernel) (by decide +kernel), by decide +kernel, by decide +kernel⟩

def begun (s : State) : State := s.beginUnit fetchFlock
theorem witness_solo : Solo h0 fetchFlock (here s1) (here s1) s1 := solo_of (by decide +kernel)

/-- A store of one word, issued before every unit of the tests. -/
def oldStore : BufWrite := ⟨0, 0, .home 0x80000000, 4, .store [1, 2, 3, 4], false, 0x40000000, false, false⟩
/-- A lane whose 32 stubs are taken. -/
def sFull : State := { s1 with fibres := s1.fibres ++ ((List.range 31).map fun n => newFibre ⟨0, 0, 0, n + 1⟩ 0#64 0 .abroad 0) }
/-- Windows of 16 registers. -/
def narrow (s : State) : State := s.updCtx 0 fun x => { x with lrec := { x.lrec with win := 16 } }
/-- An IMX before the unit: the mask of FORK, its x17, takes in a register past the window. -/
def sImx : State := { narrow s1 with flocks := [{ fetchFlock with imxs := [0x10000] }] }
/-- A household with a second window; a parent whose older store stands in its write buffer. -/
def sWin : State := s1.updShare 0 fun h => { h with windows := 2 }
def sBusy : State := s1With fun f => { f with wb := [oldStore] }
/-- A household whose only window the parent holds, without lodge windows and without a landing area: a child has no place. -/
def sNoPlace : State := s1.updShare 0 fun h => { h with windows := 1, bndc := 0, lim := 0 }
/-- The release step of a FORK is allowed. -/
def drainedNow (s : State) : Bool := (s.beginUnit fetchFlock).drained (advanced s fetchFlock (here s)) s.serial
theorem witness_ForkMakesAChild :
    (Solo h0 fetchFlock (here sWin) (here sWin) sWin ∧ (unitCtx h0 fetchFlock sWin).forkMask &&& ~~~(windowMask (sWin.winOf k0)) = 0#32 ∧ drainedNow sWin = true
      ∧ sWin.freeStub? k0 = some 1 ∧ sWin.claimed ⟨0, 0, 0, 1⟩ = false ∧ sWin.freeWindow? ⟨0, 0, 0, 1⟩ = some 1)
    ∧ (Solo h0 fetchFlock (here sFull) (here sFull) sFull ∧ (unitCtx h0 fetchFlock sFull).forkMask &&& ~~~(windowMask (sFull.winOf k0)) = 0#32 ∧ drainedNow sFull = true
      ∧ sFull.freeStub? k0 = none)
    ∧ (Solo h0 fetchFlock (here sBusy) (here sBusy) sBusy ∧ (unitCtx h0 fetchFlock sBusy).forkMask &&& ~~~(windowMask (sBusy.winOf k0)) = 0#32 ∧ drainedNow sBusy = false)
    ∧ (Solo h0 fetchFlock (here sNoPlace) (here sNoPlace) sNoPlace ∧ sNoPlace.freeStub? k0 = some 1
      ∧ (begun sNoPlace).placeChild k0 1 (maskRegs (unitCtx h0 fetchFlock sNoPlace).forkMask (here sNoPlace).regs) (here sNoPlace).preds (packetAddr (packetIndex fetchFlock.addr)) = none)
    ∧ Solo h0 { fetchFlock with imxs := [0x10000] } (here sImx) (here sImx) sImx
      ∧ (unitCtx h0 { fetchFlock with imxs := [0x10000] } sImx).forkMask &&& ~~~(windowMask (sImx.winOf k0)) ≠ 0#32
      ∧ (sImx.ctxs.get? 0).any (fun x => decide (x.halting = none)) = true :=
  ⟨⟨solo_of (by decide +kernel), by decide +kernel⟩, ⟨solo_of (by decide +kernel), by decide +kernel⟩, ⟨solo_of (by decide +kernel), by decide +kernel⟩,
    ⟨solo_of (by decide +kernel), by decide +kernel⟩, solo_of (by decide +kernel), by decide +kernel⟩

/-- Without and with a child; as the child of a parent with two. -/
def sChild : State := s1With fun f => { f with nch := 1 }
def sKin : State :=
  { s1With (fun f => { f with pv := true, par := 5 }) with
    fibres := (s1With (fun f => { f with pv := true, par := 5 })).fibres ++ [{ newFibre ⟨0, 0, 0, 5⟩ 0#64 1 (.resident 1) 0 with nch := 2 }] }
theorem witness_JoinAndQuit :
    (Solo h0 fetchFlock (here s1) (here s1) s1 ∧ (here s1).res = .resident 0 ∧ (here s1).rcd = none ∧ (here s1).nch = 0 ∧ (here s1).waits = [] ∧ s1.anyPending k0 = false ∧ (here s1).wb = []
      ∧ (here s1).pv = false ∧ h0.c = false ∧ s1.dirtyLines 0 = [])
    ∧ (Solo h0 fetchFlock (here sChild) (here sChild) sChild ∧ (here sChild).res = .resident 0 ∧ (here sChild).rcd = none ∧ (here sChild).nch ≠ 0 ∧ (here sChild).waits = [] ∧ sChild.dirtyLines 0 = [])
    ∧ Solo ⟨true, false, .always⟩ fetchFlock (here s1) (here s1) s1
    ∧ Solo h0 fetchFlock (here sKin) (here sKin) sKin ∧ (here sKin).nch = 0 ∧ (here sKin).waits = [] ∧ sKin.anyPending k0 = false ∧ (here sKin).wb = [] ∧ (here sKin).pv = true ∧ (here sKin).par ≠ k0.s
      ∧ sKin.dirtyLines 0 = [] ∧ (sKin.fibre? { k0 with s := (here sKin).par }).any (fun p => decide (p.wait = .none ∧ 1 < p.nch)) = true :=
  ⟨⟨witness_solo, by decide +kernel⟩, ⟨solo_of (by decide +kernel), by decide +kernel⟩, solo_of (by decide +kernel), solo_of (by decide +kernel), by decide +kernel⟩

/-- A sleeper. -/
def sSleep : State := s1With fun f => { f with wait := .sleep 7 }

/-- A value within the window and one past it, a packet's start and none, a multiple of 64 and none. -/
def sNarrow : State := narrow s1
theorem witness_MovswWrites : Solo h0 fetchFlock (here sNarrow) (here sNarrow) sNarrow
    ∧ (here sNarrow).reg 8 &&& ~~~(windowMask (sNarrow.winOf k0)) ≠ 0#32 ∧ (here sNarrow).reg 10 &&& ~~~(windowMask (sNarrow.winOf k0)) = 0#32
    ∧ isPacketStart ((here sNarrow).pair 6) = true ∧ isPacketStart ((here sNarrow).pair 8) = false ∧ ((here sNarrow).pair 6).toNat % 64 = 0
    ∧ ((here (s1With fun f => f.setReg 8 32)).pair 8).toNat % 64 ≠ 0 ∧ (sNarrow.ctxs.get? 0).any (fun x => decide (x.halting = none)) = true
    ∧ (sNarrow.shares.get? 0).isSome = true := ⟨solo_of (by decide +kernel), by decide +kernel⟩

/-- No leaf of mode 11 maps a frame of the fibre at `v`. -/
def uncounted (s : State) (v : Nat) : Bool := (List.range 12).all fun i => match s.translate (s.tenOf k0) (v + 16 * i) with
  | .ok l => decide (l.mode ≠ 3)
  | _ => true
theorem uncounted_of {s : State} {v : Nat} (h : uncounted s v = true) : UncountedFrame s k0 v := by
  intro i hi l hl
  have := List.all_eq_true.1 h i (List.mem_range.2 hi)
  simpa [hl] using this

/-- %fault names a place that can be written, nothing, and a place that cannot; FP is set; an older unit of the fibre's chain waits. -/
def sFrame : State := s1With fun f => { f with fault := 0x40000040 }
def canTake (s : State) : Bool :=
  decide (s.fibre? k0 = some (here s) ∧ (here s).takesFault = true ∧ (here s).wait ≠ .halted ∧ (here s).fault ≠ 0#64 ∧ (here s).fsBit fsFP = false) && s.frameOk k0 (here s).fault.toNat
    && uncounted s (here s).fault.toNat
theorem canTake_of {s : State} (h : canTake s = true) : s.fibre? k0 = some (here s) ∧ CanTake s k0 (here s) := by
  simp only [canTake, Bool.and_eq_true, decide_eq_true_eq] at h
  exact ⟨h.1.1.1, ⟨h.1.1.2.1, h.1.1.2.2.1⟩, ⟨h.1.1.2.2.2.1, h.1.1.2.2.2.2⟩, h.1.2, uncounted_of h.2⟩
/-- Every case of a recoverable fault: it is taken, it waits, and it cannot be delivered. -/
theorem raising : (Solo h0 fetchFlock (here sFrame) (here sFrame) sFrame ∧ CanTake sFrame k0 (here sFrame))
    ∧ (Solo h0 fetchFlock (here sFenced) (here sFenced) sFenced ∧ (here sFenced).takesFault = false ∧ ∀ w ∈ (here sFenced).waits, w.seq ≤ sFenced.serial)
    ∧ (sFrame.ctxs.get? 0).any (fun x => decide (x.halting = none)) = true ∧ ((here s1).fault = 0#64 ∧ (here s1).takesFault = true)
    ∧ ((here (sFrame.updFibre k0 fun f => f.setFs fsFP true)).fsBit fsFP = true ∧ (here (sFrame.updFibre k0 fun f => f.setFs fsFP true)).fault ≠ 0#64)
    ∧ sFrame.frameOk k0 0x10000 = false :=
  ⟨⟨solo_of (by decide +kernel), (canTake_of (by decide +kernel)).2⟩, ⟨solo_of (by decide +kernel), by decide +kernel⟩, by and_intros <;> decide +kernel⟩
theorem witness_TrapTakesTheException : Solo h0 fetchFlock (here sFrame) (here sFrame) sFrame ∧ CanTake sFrame k0 (here sFrame) := raising.1


/-- The state after one unit or event. -/
def after (i : Instr) (s : State) : State :=
  match exec i s with
  | .next t => t
  | _ => s
/-- The access is allowed, to device memory or the scratchpad of this package. -/
def atHome : Acc → Bool
  | .ok (.home _) _ => true
  | _ => false
/-- A leaf that is met is not of mode 11. -/
def plainLeaf : Acc → Bool
  | .ok _ (some l) => decide (l.mode ≠ 3)
  | _ => true
/-- The context has not been halted. -/
def unhalted (s : State) : Bool := (s.ctxs.get? 0).any fun x => decide (x.halting = none)

/-- An armed frame of the fibre stands at 0x40000040, which g6:g7 hold. -/
def sArmed : State :=
  let s : State := { s1 with mem := s1.mem.writeBytes 0x80000040 [1, 0, 0, 0, 4] }
  s.updFibre k0 fun f => f.setReg 6 0x40000040
/-- What a fibre reads of its frame. -/
def met (s : State) : State := (begun s).frameAccess k0 ((here s).pair 6).toNat
def frameOf (s : State) : Except Nat (List Byte) := (met s).frameRead (advanced s fetchFlock (here s)) ((here s).pair 6).toNat [] 12
/-- The frame lies in the package's own memory. -/
def frameHere (s : State) : Bool :=
  decide ((begun s).frameFar? k0 ((here s).pair 6).toNat = none) && (match (met s).frameLoc k0 ((here s).pair 6).toNat with
    | .ok (.home _) => true
    | _ => false)
def part (s : State) (o n : Nat) : Nat :=
  match frameOf s with
  | .ok b => leNat ((b.drop o).take n)
  | .error _ => 0
def isOk {α β : Type} : Except α β → Bool
  | .ok _ => true
  | .error _ => false
def sUnmapped : State := sArmed.updFibre k0 fun f => f.setReg 7 1
/-- A frame that RESUME takes; one that is consumed, an address that is no multiple of 64, one that maps to nothing, a resume address past the last packet of its region, and a RESUME behind a FENCE. -/
theorem witness_ResumeRestoresTheFrame :
    (Solo h0 fetchFlock (here sArmed) (here sArmed) sArmed ∧ UncountedFrame sArmed k0 ((here sArmed).pair 6).toNat ∧ ((here sArmed).fencedAt sArmed.serial = false ∧ (advanced sArmed fetchFlock (here sArmed)).after = none
      ∧ ((here sArmed).pair 6).toNat % 64 = 0 ∧ isOk (frameOf sArmed) = true ∧ frameHere sArmed = true
      ∧ part sArmed 0 4 = 1 ∧ part sArmed 0x1C 2 = (here sArmed).fid ∧ part sArmed 0x1E 1 = (sArmed.share 0).hid ∧ part sArmed 0x20 4 = (sArmed.share 0).pid
      ∧ part sArmed 0x24 2 = (sArmed.share 0).ctx + 512 * (sArmed.share 0).ten ∧ part sArmed 8 8 % 65536 < 65520 ∧ part sArmed 4 1 ≠ 5 ∧ part sArmed 4 1 ≠ 6))
    ∧ (Solo h0 fetchFlock (here sFenced) (here sFenced) sFenced ∧ (here sFenced).fencedAt sFenced.serial = true)
    ∧ (unhalted sArmed = true ∧ ((here (sArmed.updFibre k0 fun f => f.setReg 6 0x40000041)).pair 6).toNat % 64 ≠ 0
      ∧ isOk (frameOf sUnmapped) = false ∧ (begun sUnmapped).frameFar? k0 ((here sUnmapped).pair 6).toNat = none
      ∧ part { sArmed with mem := sArmed.mem.writeBytes 0x80000040 [2] } 0 4 = 2
      ∧ part { sArmed with mem := sArmed.mem.writeBytes 0x80000048 [0xF0, 0xFF] } 8 8 % 65536 = 65520) :=
  ⟨⟨solo_of (by decide +kernel), uncounted_of (by decide +kernel), by decide +kernel⟩, ⟨solo_of (by decide +kernel), by decide +kernel⟩, by and_intros <;> decide +kernel⟩

/-- The handler is enabled with a place for frames, enabled without one, off, and stands at the unit. -/
def sHandler (dhip frames : DWord) : State := (s1.setReg 0xB010 dhip).setReg 0xB018 frames
def sHandlerFenced : State := (sHandler 0x50001 0x40000000).updFibre k0 fun f => f.await 5 0#64 (.fence 5)
theorem witness_DbrkEntersTheHandler :
    Solo h0 fetchFlock (here (sHandler 0x50001 0x40000000)) (here (sHandler 0x50001 0x40000000)) (sHandler 0x50001 0x40000000)
    ∧ ((here (sHandler 0x50001 0x40000000)).takesFault = true ∧ (here (sHandler 0x50001 0)).takesFault = true)
    ∧ (Solo h0 fetchFlock (here sHandlerFenced) (here sHandlerFenced) sHandlerFenced ∧ sHandlerFenced.inHandler k0 fetchFlock.uaddr = false ∧ (here sHandlerFenced).takesFault = false
      ∧ (∀ w ∈ (here sHandlerFenced).waits, w.seq ≤ sHandlerFenced.serial) ∧ (sHandlerFenced.reg 0xB010).toNat % 2 = 1)
    ∧ ((sHandler 0x50001 0x40000000).inHandler k0 fetchFlock.uaddr = false ∧ (sHandler 0x50001 0x40000000).frameOk k0 0x40000000 = true
      ∧ UncountedFrame (sHandler 0x50001 0x40000000) k0 0x40000000)
    ∧ ((sHandler 0x50001 0).inHandler k0 fetchFlock.uaddr = false ∧ (sHandler 0x50001 0).frameOk k0 0 = false ∧ unhalted (sHandler 0x50001 0) = true)
    ∧ s1.inHandler k0 fetchFlock.uaddr = false ∧ (s1.reg 0xB010).toNat % 2 = 0 ∧ (sHandler 0x10001 0).inHandler k0 fetchFlock.uaddr = true :=
  by and_intros <;> first | decide +kernel | exact solo_of (by decide +kernel) | exact uncounted_of (by decide +kernel)

/-- Two members issue a load, each for itself, or its leader for both. -/
theorem witness_MembersActInTurn : (fetchFlock.snap = [] ∧ actsInTurn (.bra h0 1) = true ∧ (Instr.bra h0 1).hdr? = some h0 ∧ actsInTurn (.ld h0 8 6 0 false .b32) = true ∧ h0.u = false)
    ∧ Issues h0 flock2 s2 ∧ Issues ⟨false, true, .always⟩ flock2 s2 ∧ (unitCtx ⟨false, true, .always⟩ flock2 s2).act = [here s2, { here s2 with key := ⟨0, 0, 1, 0⟩, fid := 4 }]
    ∧ atHome ((s2.beginUnit flock2).access k0 0x40000000 4 false) = true ∧ atHome ((s2.beginUnit flock2).spadAccess k0 0 4 4 false) = true :=
  by and_intros <;> first | decide +kernel | exact issues_of (by decide +kernel)

/-- g6:g7, and g6:g7 + 0, lie where nothing is mapped: 2^40 in the address space of the fibre with %fault. -/
def sHole : State := sFrame.updFibre k0 fun f => f.setReg 7 0x100
def misses : Acc → Bool
  | .trans _ => true
  | _ => false
/-- The gigabyte behind the data page is window 1 of peer 5, of mode 01; with `group` the package is that peer, and the window a group. -/
def sFar (group : Bool) : State :=
  (({ sFrame with mem := sFrame.mem.writeBytes 0x20010 (leBytes 8 (0x43 + 5 * 2 ^ 16 + 2 ^ 26 + 2 ^ 38)) }).setReg 0xC000 (if group then 0x405 else 0)).updFibre k0 fun f => f.setReg 6 0x80000000
def goesTo (a : Acc) (group : Bool) : Bool :=
  match a with
  | .ok (.peer gr _ _ _ _) (some l) => decide (gr = group ∧ l.mode = 1)
  | _ => false
def blankReq : Req := ⟨0, k0, 0, 0#64, 0, [], .home 0, 0, .load 0 false, false, false, 0#5, 0, [], 0, none, false, false, false, false, 0, false, 0, none, View.init, none, false, false, false, false,
  none, false, none, none, 0, 0⟩
/-- A load of a peer has left, and the peer refuses it. -/
def farReq : Req := { blankReq with id := 7, key := k0, seq := 3, unitAddr := 0x10000, va := 0x2000, dest := .peer false 5 1 1 0x2000, n := 4, kind := .load 4 false, dst := 8, dw := 1, decided := true, sent := true, delivered := true }
def sRefused : State := { sFrame with reqs := [farReq] }
theorem witness_RecoverableFaultsAreTaken :
    (Solo h0 fetchFlock (here sHole) (here sHole) sHole ∧ CanTake sHole k0 (here sHole) ∧ (unitCtx h0 fetchFlock sHole).ea (here sHole) 6 = ((here sHole).pair 6).toNat
      ∧ ((here sHole).pair 6).toNat % 4096 = 0 ∧ (sHole.ctx 0).priv = true ∧ (misses ((begun sHole).access k0 ((here sHole).pair 6).toNat 16 false) && misses ((begun sHole).access k0 ((here sHole).pair 6).toNat 16 true)
        && misses ((begun sHole).atomAccess k0 ((here sHole).pair 6).toNat 8) && misses ((begun sHole).complAccess k0 ((here sHole).pair 6).toNat)
        && misses ((begun sHole).imageAccess k0 false ((here sHole).pair 6).toNat false)) = true)
    ∧ (([false, true].all fun q => canTake (sFar q) && decide ((here (sFar q)).wb = [] ∧ (unitCtx h0 fetchFlock (sFar q)).act = [here (sFar q)]) && ([4, 8].all fun n =>
        goesTo ((begun (sFar q)).access k0 0x80000000 n false) q && goesTo ((begun (sFar q)).atomAccess k0 0x80000000 n) q)) = true ∧ ((sFar false).ownPeer = none ∨ (sFar false).lost 5 = true))
    ∧ ((Solo h0 fetchFlock (here sFenced) (here sFenced) sFenced ∧ (here sFenced).takesFault = false ∧ ∀ w ∈ (here sFenced).waits, w.seq ≤ sFenced.serial)
      ∧ (here s1).fault = 0#64 ∧ (here s1).takesFault = true)
    ∧ sRefused.req? 7 = some farReq ∧ sRefused.fibre? k0 = some (here sRefused) ∧ CanTake sRefused k0 (here sRefused) ∧ sRefused.midChain k0 = false ∧ sRefused.awayOf k0 = none :=
  ⟨⟨solo_of (by decide +kernel), (canTake_of (by decide +kernel)).2, by and_intros <;> decide +kernel⟩, by decide +kernel, ⟨raising.2.1, raising.2.2.2.1⟩, by decide +kernel, by decide +kernel,
    (canTake_of (by decide +kernel)).2, by decide +kernel, by decide +kernel⟩

/-- Every width at the start of the data page and of the scratchpad; the pair g10:g11 holds 0. -/
theorem witness_LoadsRequest : Solo h0 fetchFlock (here s1) (here s1) s1 ∧ (unitCtx h0 fetchFlock s1).ea (here s1) 6 = 0x40000000 ∧ (unitCtx h0 fetchFlock s1).ea (here s1) 10 = 0
    ∧ ([1, 2, 4, 8, 16].all fun n => atHome ((begun s1).access k0 0x40000000 n false)) = true
    ∧ (begun s1).spadAccess k0 0 16 16 false = .ok (.home (spadLoc 0 0)) none ∧ (begun s1).spadAccess k0 0 8 8 false = .ok (.home (spadLoc 0 0)) none
    ∧ (begun s1).spadAccess k0 0 2 2 false = .ok (.home (spadLoc 0 0)) none ∧ (begun s1).spadAccess k0 0 4 4 true = .ok (.home (spadLoc 0 0)) none
    ∧ (begun s1).spadAccess k0 0 16 16 true = .ok (.home (spadLoc 0 0)) none := ⟨witness_solo, by decide +kernel⟩

theorem witness_AtomicsAndLocksRequest : Solo h0 fetchFlock (here s1) (here s1) s1
    ∧ (([4, 8].all fun n => atHome ((begun s1).atomAccess k0 0x40000000 n) && atHome ((begun s1).atomAccess k0 (2 ^ 63) n) && atHome ((begun s1).casvAccess k0 0x40000000 n))
      && atHome ((begun s1).access k0 0x40000000 4 false)) = true := ⟨witness_solo, by decide +kernel⟩

/-- Slot 7 counts INT32 fields of the data page. -/
def slot7 : MonSlot := ⟨0, (s1.ctx 0).order, BitVec.ofNat 512 (0x40000000 + 0x10000 * 2 ^ 64 + 4 * 2 ^ 128 + 2 ^ 304), MonSum.zero, false, 0, 0, 0⟩
def sSlot : State := { s1 with monitors := [(7, slot7)] }
theorem witness_StoresEnterTheWriteBuffer : Solo h0 fetchFlock (here s1) (here s1) s1
    ∧ (sSlot.monitors.get? 7 = some slot7 ∧ slot7.ctx = sSlot.ctxOf k0 ∧ slot7.order = (sSlot.ctx slot7.ctx).order ∧ monLoc slot7.image = false ∧ monType slot7.image = 0 ∧ monEbm slot7.image = 0)
    ∧ (Solo h0 fetchFlock (here sSlot) (here sSlot) sSlot ∧ (sSlot.shares.get? 0).any (fun o => decide (o.partials[7] = MonSum.zero)) = true)
    ∧ ([1, 2, 4, 8, 16].all fun n => atHome ((begun s1).access k0 0x40000000 n true) && plainLeaf ((begun s1).access k0 0x40000000 n true)
      && atHome ((begun s1).spadAccess k0 0 n n false) && atHome ((begun s1).spadAccess k0 0 16 16 true)) = true
    ∧ ([4, 8].all fun n => atHome ((begun s1).atomAccess k0 0x40000000 n)) = true := ⟨witness_solo, by decide +kernel, ⟨solo_of (by decide +kernel), by decide +kernel⟩, by decide +kernel⟩

/-- A load of one word has issued, and an older store of it stands in the write buffer. -/
def sLoad : State := after (.ld h0 8 6 15 false .b32) s1
def sFwd : State := sLoad.updFibre k0 fun f => { f with wb := [oldStore] }
def req (s : State) : Req := s.reqs.headD blankReq
/-- What the events of a reply ask of a request and its fibre. -/
def answerable (s : State) : Bool :=
  decide (s.req? (req s).id = some (req s) ∧ s.fibre? k0 = some (here s) ∧ (req s).key = k0 ∧ (here s).res = .resident 0 ∧ s.midChain k0 = false ∧ s.awayOf k0 = none
    ∧ (req s).decided = true ∧ (req s).ans = none ∧ (req s).fail = none ∧ (req s).rel = false ∧ (req s).also = [] ∧ s.performOk (here s) (req s) = true
    ∧ s.eatsPoison (here s) (req s) = false)
/-- No slice holds a line yet, or few do. -/
theorem roomy_of {s : State} (h : s.lines.length < 8192) : Roomy s := fun _ => lt_of_le_of_lt (List.length_filter_le _ _) h
/-- No fibre has a write that an L1 holds. -/
theorem undirtied_of {s : State} {sh : Nat} (h : ∀ f ∈ s.fibres, ∀ w ∈ f.wb, w.cached = false) : Undirtied s sh := fun f hf _ w hw => h f hf w hw
theorem witness_LoadRepliesDeliver :
    (answerable sLoad = true ∧ Roomy sLoad ∧ Undirtied sLoad 0 ∧ (here sLoad).wait = .none ∧ (req sLoad).kind = .load 4 false ∧ (req sLoad).dest = .home 0x80000000
      ∧ (here sLoad).newest (req sLoad).seq (req sLoad).dest 4 = none ∧ sLoad.lag = 0)
    ∧ answerable sFwd = true ∧ Roomy sFwd ∧ Undirtied sFwd 0 ∧ (here sFwd).newest (req sFwd).seq (req sFwd).dest 4 = some oldStore :=
  ⟨⟨by decide +kernel, roomy_of (by decide +kernel), undirtied_of (by decide +kernel), by decide +kernel⟩, by decide +kernel, roomy_of (by decide +kernel),
    undirtied_of (by decide +kernel), by decide +kernel⟩

/-- A store to the scratchpad and one to the data page stand in the write buffer; then one to the data page in the apply queue. -/
def sStored : State := after (.st h0 8 6 .b32) s1
def sSpadStored : State := after (.sts h0 8 10 .b32) s1
def sQueued : State := after (.writeBufferLeave k0) (s1With fun f => { f with wb := [oldStore] })
/-- Two words of one write-back in a queue, alone and behind an older write to the bytes of the first. -/
def backed (wid loc grp : Nat) : AqWrite := ⟨homeDie 0x80000000, .fibre k0, wid, loc, 4, .store [1, 2, 3, 4], none, 0, wid, [], false, none, grp, false⟩
def sBack : State := { s1 with aq := [backed 1 0x80000000 1, backed 2 0x80000004 1] }
def sBackHeld : State := { s1 with aq := [backed 2 0x80000004 1, backed 3 0x80000000 0, backed 4 0x80000000 1] }
theorem witness_WritesLeaveAndApply :
    ((sBack.aq.all fun w => sBack.applyOk w && decide (w.grp ≠ 0)) = true ∧ (∀ x ∈ sBack.aq, ∀ y ∈ sBack.aq, x.wid = y.wid → x = y)
      ∧ sBackHeld.applyOk (backed 2 0x80000004 1) = true ∧ sBackHeld.applyOk (backed 4 0x80000000 1) = false) ∧
    ((here sSpadStored).wb.length = 1 ∧ ((here sSpadStored).wb.all fun w => decide (w.rel = false ∧ w.dest = .home (spadLoc 0 0)) && sSpadStored.leaveOk (here sSpadStored) w
      && (sSpadStored.lineOf? 0 w).isNone) = true)
    ∧ ((here sStored).wb.length = 1 ∧ ((here sStored).wb.all fun w => decide (w.rel = false ∧ w.dest = .home 0x80000000) && sStored.leaveOk (here sStored) w
      && (sStored.lineOf? 0 w).isSome) = true)
    ∧ sQueued.aq.length = 1 ∧ (sQueued.aq.all fun w => decide (w.die = homeDie 0x80000000 ∧ w.kind = .store [1, 2, 3, 4] ∧ w.src ≠ .host ∧ w.merged = false ∧ isSpad w.loc = false)
      && sQueued.applyOk w && decide (lineCount w.loc 4 = 1) && (List.range (lineCount w.loc 4)).all (fun j => !sQueued.sliceStops (w.loc + 256 * j))) = true ∧ Roomy sQueued :=
  by and_intros <;> first | decide +kernel | exact roomy_of (by decide +kernel)

def sAtom : State := after (.atomAdd h0 8 6 0 false .b32) s1
theorem witness_AtomicsModifyTheirWord : answerable sAtom = true ∧ (here sAtom).wait = .none ∧ (req sAtom).kind = .atom .add false false 0x40000100 0 ∧ (req sAtom).dest = .home 0x80000000
    ∧ sAtom.mem.wf = true ∧ (req sAtom).rd = none ∧ sAtom.twoSteps 0x80000000 (req sAtom).sa = false ∧ sAtom.sliceStops 0x80000000 = false ∧ Roomy sAtom ∧ Undirtied sAtom 0
    ∧ sAtom.release k0 (req sAtom).seq = sAtom ∧ 2 ^ 32 - 1 < 2 ^ 32 :=
  by and_intros <;> first | decide +kernel | exact roomy_of (by decide +kernel) | exact undirtied_of (by decide +kernel)

/-- g8:g9 hold no packet's start; an odd address; a context without PRIV. -/
def sOdd : State := s1With fun f => f.setReg 6 0x40000001
def sPlain : State := s1.updCtx 0 fun x => { x with priv := false }
theorem witness_FatalFaultsHalt :
    (Issues h0 fetchFlock s1 ∧ (unitCtx h0 fetchFlock s1).act.find? (fun y => !isPacketStart (y.pair 8)) = some (here s1) ∧ unhalted s1 = true
      ∧ (unitCtx h0 fetchFlock (s1With fun f => f.setReg 2 4)).act.find? (fun y => !isPacketStart (y.pair 2)) = some (here (s1With fun f => f.setReg 2 4)))
    ∧ (Solo h0 fetchFlock (here sOdd) (here sOdd) sOdd ∧ (∀ n ∈ [2, 4, 8, 16], (unitCtx h0 fetchFlock sOdd).ea (here sOdd) 6 % n ≠ 0) ∧ (∀ n ∈ [4, 16, 32, 64, 4096], ((here sOdd).pair 6).toNat % n ≠ 0)
      ∧ (sOdd.ctxs.get? 0).any (fun x => decide (x.priv = true ∧ x.halting = none)) = true)
    ∧ Solo h0 fetchFlock (here sPlain) (here sPlain) sPlain ∧ (sPlain.ctxs.get? 0).any (fun x => decide (x.priv = false ∧ x.halting = none)) = true :=
  ⟨⟨witness_issues.1, by decide +kernel⟩, ⟨solo_of (by decide +kernel), by decide +kernel⟩, solo_of (by decide +kernel), by decide +kernel⟩

/-- ESCM within the window and past it; a sleeper before and at the end of its sleep. -/
theorem witness_HintsMasksAndPacing : Roomy sNarrow ∧ Solo h0 fetchFlock (here sNarrow) (here sNarrow) sNarrow ∧ ((0xFFFF#17).zeroExtend 32 &&& ~~~(windowMask (sNarrow.winOf k0)) = 0#32
    ∧ (0x10000#17).zeroExtend 32 &&& ~~~(windowMask (sNarrow.winOf k0)) ≠ 0#32 ∧ unhalted sNarrow = true ∧ (sNarrow.carts.map Prod.fst).Nodup)
    ∧ sSleep.fibre? k0 = some (here sSleep) ∧ (here sSleep).wait = .sleep 7 ∧ (here sSleep).more = [] ∧ (here sSleep).rfaults = [] ∧ sSleep.now < 7 ∧ 7 ≤ ({ sSleep with now := 7 } : State).now :=
  ⟨roomy_of (by decide +kernel), solo_of (by decide +kernel), by decide +kernel, by and_intros <;> decide +kernel⟩

/-- A list of one line for VALSET stands at the start of the scratchpad, with a store to that line. -/
def sList : State := { s1 with mem := s1.mem.writeBytes (spadLoc 0 0) (leBytes 8 1 ++ leBytes 8 0x40000004 ++ leBytes 8 0x40000000 ++ leBytes 8 7) }
theorem witness_SynchronisationWaits : Undirtied sList 0 ∧ Solo h0 fetchFlock (here sList) (here sList) sList
    ∧ (atHome ((begun sList).access k0 0x40000000 4 false) && plainLeaf ((begun sList).access k0 0x40000000 4 false)
      && atHome ((begun sList).complAccess k0 0x40000000) && plainLeaf ((begun sList).complAccess k0 0x40000000)) = true
    ∧ (begun sList).valList (here sList) 0 true = .ok [(0x40000000, 7)] 0x40000004
    ∧ (begun sList).valLines k0 [(0x40000000, false), (0x40000004, true)] = (none, [some 0x80000000, some 0x80000004])
    ∧ homeDie 0x80000004 = homeDie 0x80000000 ∧ 0x80000004 / 256 ∈ [0x80000000 / 256] :=
  ⟨undirtied_of (by decide +kernel), solo_of (by decide +kernel), by decide +kernel⟩

/-- A FENCE behind a store that has not left, and one with nothing before it; a BAR that all have reached, and one that a fibre has not. A PSET waits for the %fs of a fibre whose FENCE has ended, and of one whose has not. -/
def sFence : State := after (.fence h0) s1
def sFenceHeld : State := sFence.updFibre k0 fun f => { f with wb := [oldStore] }
def sBar : State := after (.bar h0 .hh false) s1
def sBarHeld : State := { sBar with fibres := sBar.fibres ++ [newFibre ⟨0, 0, 1, 0⟩ 0#64 4 (.resident 0) 0] }
/-- What a fence's or a barrier's fibre finds once its release has begun. -/
def fenced (s : State) (ok : Bool) : Bool :=
  match (here s).waits with
  | [⟨_, _, .fence q⟩] =>
    let v := s.release k0 q
    let x := v.shareAcquire 0
    decide (s.fibre? k0 = some (here s) ∧ s.midChain k0 = false ∧ (here s).rfaults = [] ∧ v.fibre? k0 = some (here v) ∧ (here v).waits = (here s).waits ∧ v.fenceOk (here v) q = ok
      ∧ x.fibre? k0 = some (here x) ∧ (here x).waits = (here s).waits)
  | _ => false
def barred (s : State) (ok : Bool) : Bool :=
  match (here s).waits with
  | [⟨_, _, .bar .hh false q _⟩] =>
    let v := s.release k0 q
    decide (s.fibre? k0 = some (here s) ∧ s.midChain k0 = false ∧ (here s).rfaults = [] ∧ (here s).res ≠ .ended ∧ v.fibre? k0 = some (here v) ∧ (here v).waits = (here s).waits ∧ (here v).rfaults = []
        ∧ (v.fibres.map fun y => y.key).Nodup)
      && ((v.barGroup k0 .hh).all (fun y => v.arrived y .hh) == ok)
      && (v.fibres.all fun y => y.wb.all fun w => !w.cached)
      && (!ok || (v.barGroup k0 .hh).all fun y => match y.waits with
        | [⟨_, _, .bar .hh false _ _⟩] => true
        | _ => false)
  | _ => false
def psetter : Fibre := (here s1).await 4 0#64 (.pset 1 fsRF k0)
theorem witness_FencesAndBarriersEnd : (fenced sFence true = true ∧ fenced sFenceHeld false = true) ∧ (barred sBar true = true ∧ barred sBarHeld false = true)
    ∧ psetter.waits = [⟨4, 0#64, .pset 1 fsRF k0⟩] ∧ (s1.fibre? k0 = some (here s1) ∧ s1.fsKnown k0 4 = true) ∧ sFence.fibre? k0 = some (here sFence) ∧ sFence.fsKnown k0 9 = false := by
  and_intros <;> decide +kernel

theorem witness_PrivilegedRegistersMove : Solo h0 fetchFlock (here s1) (here s1) s1 ∧ (s1.ctxs.get? 0).any (fun x => x.priv) = true
    ∧ (s1.reg (0xA008 + 0x20 * s1.tenOf k0)).getLsbD 0 = false := ⟨witness_solo, by decide +kernel⟩

/-- The last slot of a monitor, a context, a key and an eviction. -/
theorem witness_EngineUnitsWait : Solo h0 fetchFlock (here s1) (here s1) s1
    ∧ (atHome ((begun s1).imageAccess k0 false 0x40000000 false) && atHome ((begun s1).imageAccess k0 false 0x40000000 true) && atHome ((begun s1).imageAccess k0 true 0 false)
      && atHome ((begun s1).access k0 0x40000000 1 false)) = true
    ∧ ((here s1).pair 6).toNat % 4096 = 0 ∧ (begun s1).monTaken 0 7 = false ∧ (s1.ctx (s1.ctxOf k0)).priv = true
    ∧ ((here (s1With fun f => f.setReg 8 7)).reg 8).toNat ≤ 7 ∧ ((here (s1With fun f => f.setReg 8 511)).reg 8).toNat < 512
    ∧ ((here (s1With fun f => f.setReg 8 63)).reg 8).toNat < 64 ∧ ((here (s1With fun f => f.setReg 8 1023)).reg 8).toNat < 1024 := ⟨witness_solo, by decide +kernel⟩

/-! Descriptors (R15 to R20): the accumulator's, and a row-major operand of 128 rows of `n` MXINT8 elements at `base`. -/
def accDesc : BitVec 512 := BitVec.ofNat 512 (128 * 2 ^ 128 + 128 * 2 ^ 160 + 2 ^ 192 + 2 ^ 224 + 0x130 * 2 ^ 448)
def mxDesc (base n stride : Nat) : BitVec 512 := BitVec.ofNat 512 (base + n * 2 ^ 128 + 128 * 2 ^ 160 + 2 ^ 192 + 2 ^ 224 + stride * 2 ^ 256 + 0x101 * 2 ^ 448)
/-- Bytes stand at the start of the data page, g8 holds `n`, and a unit that waits for its engine thread has issued. -/
def sUnit (bytes : List Byte) (n : Word) (i : Instr) : State :=
  (after i (({ s1 with mem := s1.mem.writeBytes 0x80000000 bytes } : State).updFibre k0 fun f => f.setReg 8 n)).forks
def blankOp : EngineOp := newOp State.reset ⟨0, 0#64, 0#64, 0#64, [], [], 0⟩ (fetchFibre 0) .tdset
def op (s : State) : EngineOp := s.eops.headD blankOp
/-- The state in which an operation moves, and the operation there. -/
def sent (s : State) : State := s.sendsOf (op s)
def mover (s : State) : EngineOp := ((sent s).mover? (op s).id).getD blankOp
/-- What WAITING_UNIT_END asks of an operation. -/
def endable (s : State) (kind : EKind) : Bool :=
  decide (s.fibre? k0 = some (here s) ∧ (here s).waits = [⟨(op s).seq, (op s).unitAddr, .engine (op s).id⟩] ∧ s.eop? (op s).id = some (op s) ∧ (op s).ended = false ∧ (op s).forked = true ∧ s.midChain k0 = false
    ∧ (sent s).mover? (op s).id = some (mover s) ∧ (mover s).key = k0 ∧ (mover s).id = (op s).id ∧ (mover s).kind = kind)
def walkedBy (s : State) (n : Nat) : State := (sent s).threadWalk k0 (mover s).spad (mover s).va n true
def readOf (s : State) (n : Nat) : Except (Nat × Piece) (List Byte) := ((walkedBy s n).threadReadAll k0 (mover s).view (mover s).spad (mover s).va n []).1
def bytesOf (s : State) (n : Nat) : List Byte :=
  match readOf s n with
  | .ok bs => bs
  | .error _ => []
/-- A thread's bytes can be read, and its fibre goes on. -/
def reads (s : State) (n : Nat) : Bool :=
  (match readOf s n with
    | .ok _ => true
    | .error _ => false) && (((walkedBy s n).fibre? k0).all fun g => decide (g.waits = (here s).waits))
/-- A thread's 64 bytes are written, at once or into an apply queue. -/
def writesOk (s : State) (now : Bool) : Bool :=
  match (sent s).threadWriteAll (mover s) (mover s).view (mover s).spad (mover s).va (imgBytes ((mover s).descs.headD 0)) [] with
  | (s1, _, none, _) => ((s1.fibre? k0).any fun g => decide (g.waits = (here s).waits)) && decide (s1.threadApplied (op s).id = now) && (s1.eop? (op s).id).isSome
  | _ => false
/-- A window of one 64 KiB page for peers 0 to 1023 with every right, and the image of a slot that counts the stores of a page. -/
def winImage : List Byte := leBytes 8 0 ++ leBytes 8 0x10000 ++ leBytes 2 0 ++ leBytes 2 1023 ++ leBytes 1 7 ++ leBytes 1 7 ++ leBytes 10 0
def monImage64 : List Byte := leBytes 8 0x40000000 ++ leBytes 8 0x10000 ++ leBytes 4 4 ++ leBytes 4 0 ++ leBytes 14 0 ++ leBytes 2 1 ++ leBytes 24 0
def sTdset : State := sUnit (imgBytes accDesc) 0 (.tdset h0 3 6 false)
def sWopen : State := sUnit winImage 4095 (.wopen h0 5 6 8)
def sRevoke : State := { sUnit [] 4095 (.wrevoke h0 5 8) with wins := [(4095, ⟨0, true, 1, 0⟩)] }
def sMonset : State := sUnit monImage64 7 (.monset h0 6 8)
def sOwnTile : State := { s1 with tiles := [(0, { blankTile with holder := some 0, elems := some [] })] }
def sMscl : State := (after (.mscl h0 3 10 false) (sOwnTile.updCtx 0 fun x => { x with desc := [(3, dSetV (mxDesc 0x40000000 32 32 + (0x40001000#512 <<< 64)) true)] })).forks
def sTarget (free : Bool) : State := sUnit [] (if free then 513 else 1) (.evict h0 5 8) |> fun s => { s with ctxs := s.ctxs ++ [(1, { fetchCtx with priv := false })] }

def sGet : State := sUnit [] 0 (.tdget h0 3 6 false)
/-- An earlier write of the thread is still in an apply queue; then the image has been written, and all of it applied. -/
def sGetPending : State := { sGet with aq := [⟨0, .engine (op sGet).id, 3, 0x80001000, 4, .store [0, 0, 0, 0], none, 0, 1, [], false, none, 0, false⟩] }
def sGetDone : State := { after (.waitingUnitEnd k0 []) sGetPending with aq := [] }
def sGetSpad : State := sUnit [] 0 (.tdget h0 3 10 true)
def sMonrd : State := sUnit [] 7 (.monrd h0 6 8)
theorem witness_WaitingUnitsEnd :
    (endable sTdset .tdset = true ∧ reads sTdset 64 = true ∧ imgOf (bytesOf sTdset 64) = accDesc
      ∧ descOk accDesc ((sTdset.ctx 0).lrec.s * (sTdset.ctx 0).lrec.w) (sTdset.ctx 0).lrec.spad = true ∧ ((walkedBy sTdset 64).ctxs.get? 0).isSome = true)
    ∧ endable (sUnit [] 0 (.tdinv h0 3)) .tdinv = true
    ∧ (endable sGet .tdget && writesOk sGet true && endable sGetPending .tdget && writesOk sGetPending false && endable sGetSpad .tdget && writesOk sGetSpad true && endable sMonrd .monrd && writesOk sMonrd true) = true
    ∧ (endable sGetDone .tdget = true ∧ (mover sGetDone).landed = true ∧ (sent sGetDone).threadApplied (op sGet).id = true)
    ∧ (endable sWopen .wopen = true ∧ reads sWopen 32 = true ∧ (mover sWopen).arg = 4095 ∧ (mover sWopen).spad = false ∧ winOk (BitVec.ofNat 256 (leNat (bytesOf sWopen 32))) = true
      ∧ ((walkedBy sWopen 32).window 4095).v = false ∧ (walkedBy sWopen 32).mapsWindow 0 0 0x10000 = false)
    ∧ (endable sRevoke .wrevoke = true ∧ (mover sRevoke).landed = false ∧ (mover sRevoke).arg = 4095 ∧ (sRevoke.window 4095).v = true
      ∧ (sRevoke.window 4095).ten = sRevoke.tenOf k0 ∧ (sent sRevoke).importsApplied = true)
    ∧ (endable sMonset .monset = true ∧ reads sMonset 64 = true ∧ (mover sMonset).arg = 7 ∧ (mover sMonset).spad = false ∧ monOk (imgOf (bytesOf sMonset 64)) = true
      ∧ (walkedBy sMonset 64).monTaken 0 7 = false ∧ monEn (imgOf (bytesOf sMonset 64)) = true) :=
  by and_intros <;> decide +kernel
theorem witness_WaitingUnitsEnd_others :
    (endable sMscl .mscl = true ∧ (sent sMscl).tileNext? 0 0 = some (mover sMscl)
      ∧ (match Scales.rows (sent sMscl, (mover sMscl).view, none, []) k0 0 ((mover sMscl).descs.headD 0) 0 0 0 (dN ((mover sMscl).descs.headD 0) 0 / 32) with
        | (s1, _, none, _) => (s1.fibre? k0).any fun g => decide (g.waits = (here sMscl).waits)
        | _ => false) = true)
    ∧ endable (sTarget true) .evict = true ∧ (mover (sTarget true)).free = true
      ∧ ((sent (sTarget true)).target? (mover (sTarget true))).any (fun x => decide (x.st = 1 ∧ x.halting = none)) = true := by and_intros <;> decide +kernel

/-- Context 1 is as given, `bytes` stand at the start of the data page, and context 0, whose fibre can take a fault, has issued SAVE or REST for it. -/
def sMove (bytes : List Byte) (x : Ctx) (pages : Word) (i : Instr) : State :=
  (after i (({ sFrame with mem := sFrame.mem.writeBytes 0x80000000 bytes, ctxs := sFrame.ctxs ++ [(1, x)] } : State).updFibre k0 fun f => (f.setReg 8 1).setReg 9 pages)).forks
def sSave (x : Ctx) (pages : Word) : State := sMove [] x pages (.save h0 5 6 8)
/-- A context that runs, under key slot 0 or unprotected. -/
def other (st : Nat) (prot : Bool) : Ctx := { fetchCtx with st := st, sctr := 5, prot := prot, keyslot := 0 }
def targetIs (s : State) (x : Ctx) : Bool := decide ((sent s).target? (mover s) = some x)
def region (s : State) : Bool := (sent s).regionOk k0 ((mover s).va + 4096 * (mover s).lines) ((mover s).lines / 16 + 2) (mover s).va
/-- SAVE has its target in STATE 2, with a region of so many pages. -/
def sSaving (pages : Word) : State := (sSave (other 2 false) pages).updEop (op (sSave (other 2 false) pages)).id fun e => { e with step := 1 }
def decidedAll (s : State) : State := (sent s).decideAll 1
def imageLen (s : State) : Nat := 0x80 + ((decidedAll s).imageBody 1).length
/-- The issuer's own context; a context that is saved; 256 GiB, where 1 GiB is mapped, and no key; a key; a context with an MMA; and a region too small. (That the 1,104 writes of an image succeed is not decided here: the kernel runs out of memory over them.) -/
theorem witness_WaitingUnitsEnd_save :
    (endable (sUnit [] 0 (.save h0 5 6 8)) .save = true ∧ (sent (sUnit [] 0 (.save h0 5 6 8))).target? (mover (sUnit [] 0 (.save h0 5 6 8))) = none)
    ∧ (endable (sSave (other 3 false) 5) .save = true ∧ targetIs (sSave (other 3 false) 5) (other 3 false) = true)
    ∧ (endable (sSave (other 1 false) 0x4000000) .save = true ∧ targetIs (sSave (other 1 false) 0x4000000) (other 1 false) = true ∧ region (sSave (other 1 false) 0x4000000) = false)
    ∧ (endable (sSave (other 1 true) 5) .save = true ∧ targetIs (sSave (other 1 true) 5) (other 1 true) = true ∧ region (sSave (other 1 true) 5) = true ∧ (sent (sSave (other 1 true) 5)).keyOf 0 = none)
    ∧ (let s : State := { sSave (other 1 false) 5 with eops := (sSave (other 1 false) 5).eops ++ [{ blankOp with id := 99, ctx := 1, kind := .mma }] }
      endable s .save = true ∧ targetIs s (other 1 false) = true ∧ region s = true ∧ ∃ e ∈ (sent s).eops, e.ctx = 1 ∧ e.kind = .mma)
    ∧ ((endable (sSaving 4) .save && endable (sSaving 5) .save && targetIs (sSaving 4) (other 2 false) && targetIs (sSaving 5) (other 2 false) && (sent (sSaving 4)).quiet 1 && (sent (sSaving 5)).quiet 1) = true
      ∧ (sent (sSaving 5)).ctxOf k0 = (mover (sSaving 5)).ctx ∧ 4096 * (mover (sSaving 4)).lines < imageLen (sSaving 4) ∧ imageLen (sSaving 5) ≤ 4096 * (mover (sSaving 5)).lines) := by
  and_intros <;> decide +kernel

/-- The first 128 bytes of an image of context 1 with this save counter and size, and with a tag. -/
def headOf (x : Ctx) (ctr size tag : Nat) : List Byte := imageHead 1 { x with sctr := BitVec.ofNat 64 ctr } size ++ leBytes 16 tag ++ leBytes 64 0
def sRest (x : Ctx) (ctr : Nat) : State := sMove (headOf x ctr 0x45C0 0) x 0 (.rest h0 5 6 8)
def headReads (s : State) (x : Ctx) : Bool :=
  match ((sent s).threadReadAll k0 (mover s).view false (mover s).va 128 []).1 with
  | .ok bs => headOk bs 1 x && targetIs s x && endable s .rest
  | .error _ => false
/-- The issuer's own context, a context that runs, a header of another context; an older image, a newer one, the same one without a key, and once restored. -/
theorem witness_WaitingUnitsEnd_rest :
    (endable (sUnit [] 0 (.rest h0 5 6 8)) .rest = true ∧ (sent (sUnit [] 0 (.rest h0 5 6 8))).target? (mover (sUnit [] 0 (.rest h0 5 6 8))) = none)
    ∧ (endable (sRest (other 1 false) 5) .rest = true ∧ targetIs (sRest (other 1 false) 5) (other 1 false) = true)
    ∧ headReads (sRest (other 3 true) 5) (other 3 false) = false
    ∧ ([4, 5, 6].all fun n => headReads (sRest (other 3 false) n) (other 3 false)) = true ∧ (headReads (sRest (other 5 true) 5) (other 5 true) = true ∧ (sent (sRest (other 5 true) 5)).keyOf 0 = none)
    ∧ headReads (sRest { other 3 false with rstd := true } 5) { other 3 false with rstd := true } = true
    ∧ (∀ s ∈ [sRest (other 3 false) 4, sRest { other 3 false with rstd := true } 5], (here s).rfaults = [] ∧ (here s).res = .resident 0 ∧ (here s).fault ≠ 0#64 ∧ (here s).fsBit fsFP = false
      ∧ (sent s).frameOk k0 (here s).fault.toNat = true ∧ uncounted (sent s) (here s).fault.toNat = true) := by
  and_intros <;> decide +kernel

/-- REST has its header, with a size and a tag; the tenancy has rows to place a parish in, or none. -/
def sBody (prot : Bool) (size tag : Nat) (room : Bool) : State :=
  let s := sMove (headOf (other 4 prot) 5 size tag) (other 4 prot) 0 (.rest h0 5 6 8)
  let s := s.updEop (op s).id fun e => { e with step := 1, descs := [imgOf ((headOf (other 4 prot) 5 size tag).take 64), imgOf ((headOf (other 4 prot) 5 size tag).drop 64)] }
  s.setReg (offTrows 0) (if room then 0xFFFFFFFF else 0)
def headIn (s : State) : List Byte := imgBytes ((mover s).descs.headD 0#512) ++ imgBytes ((mover s).descs.getD 1 0#512)
def bodyOf (s : State) : List Byte :=
  match ((sent s).threadReadAll k0 (mover s).view false ((mover s).va + 128) (recField (headIn s) 0x10 8 - 128) []).1 with
  | .ok b => b
  | .error _ => []
def bodyReads (s : State) (x : Ctx) : Bool :=
  (match ((sent s).threadReadAll k0 (mover s).view false ((mover s).va + 128) (recField (headIn s) 0x10 8 - 128) []).1 with
    | .ok _ => true
    | .error _ => false) && endable s .rest && targetIs s x && !(sent s).landHeld 1
def passes (s : State) : State := let n := recField (headIn s) 0x10 8
  (List.range (n / 65536 + 2)).foldl (fun (t : State) i => t.walkVa k0 (min ((mover s).va + 65536 * i) ((mover s).va + n - 1))) (sent s)
/-- Without a key no image is genuine. -/
theorem forged_of {s : State} {x : Ctx} {hd b : List Byte} (hp : x.prot = true) (hk : s.keyOf x.keyslot = none) (ht : (hd.drop 0x30).take 16 ≠ []) : s.openImage x hd b = none := by
  have e (c : List Byte) : aesEncrypt [] c = [] := by
    have h : (aesKeys []).getD 14 [] = [] := by decide
    simp only [aesEncrypt, aesRounds, h]
    simp [xorBytes]
  have g (iv aad c : List Byte) : gcmTag [] iv aad c = [] := by simp [gcmTag, e, xorBytes]
  simp [State.openImage, hp, hk, g, ht.symm]
def noSect (b : List Byte) : Bool := decide ((b.drop 0x4500).take 64 = List.replicate 64 0#8)
theorem field_of {b : List Byte} (h : noSect b = true) {o n : Nat} (hn : o + n ≤ 64) : recField b (0x4500 + o) n = leNat (List.replicate n 0#8) := by
  have e := congrArg (fun l => (l.drop o).take n) (of_decide_eq_true h)
  simp only [List.drop_take, List.drop_drop, List.take_take, List.drop_replicate, List.take_replicate, show min n (64 - o) = n by omega] at e
  simp only [recField, e]
/-- An image with one section of zeros. -/
theorem oneSect_of {b : List Byte} (hb : noSect b = true) : imageSects b (other 4 false) 0x45C0 = some [⟨0, 0, 0, 0, 0x4500⟩] := by
  have h : recField b 0x4500 4 = 0 ∧ recField b (0x4500 + 4) 1 = 0 ∧ recField b (0x4500 + 5) 1 = 0 ∧ recField b (0x4500 + 6) 2 = 0 ∧ recField b (0x4500 + 8) 56 = 0 :=
    ⟨field_of hb (o := 0) (by decide), field_of hb (by decide), field_of hb (by decide), field_of hb (by decide), (field_of hb (by decide)).trans (by decide)⟩
  have e : parseSects b (other 4 false).lrec.win (other 4 false).lrec.spad 0x45C0 (92 + 2) 0x4500 = some [⟨0, 0, 0, 0, 0x4500⟩] := by
    have hs : Sect.size ⟨0, 0, 0, 0, 0x4500⟩ (other 4 false).lrec.win (other 4 false).lrec.spad = 192 := rfl
    rw [parseSects, if_neg (by decide), if_neg (by decide)]
    simp only [h, hs]
    rw [parseSects, if_pos rfl]
    rfl
  show (parseSects b (other 4 false).lrec.win (other 4 false).lrec.spad 0x45C0 (92 + 2) 0x4500).filter _ = _
  rw [e]
  rfl
/-- The bytes of the pieces that lie in the package's own memory. -/
def piecesOf (s : State) (va : Nat) (ps : List (Nat × Nat)) : List Byte :=
  ps.flatMap fun p => match s.threadAcc k0 false (va + p.1) p.2 false with
    | .ok (.home loc) _ => s.mem.readBytes loc p.2
    | .ok (.peer ..) _ | .fatal _ | .trans _ => []
def homePieces (s : State) (va : Nat) (ps : List (Nat × Nat)) : Bool :=
  ps.all fun p => match s.threadAcc k0 false (va + p.1) p.2 false with
    | .ok (.home _) _ => true
    | .ok (.peer ..) _ | .fatal _ | .trans _ => false
theorem threadRead_home {s : State} {v : View} {va n loc : Nat} {l : Option Leaf} (hh : s.hist = []) (h : s.threadAcc k0 false va n false = .ok (.home loc) l) :
    (s.threadRead k0 v false va n []).1 = .ok (s.mem.readBytes loc n) [] ∧ (s.threadRead k0 v false va n []).2.2 = []
    ∨ ∀ b fs, (s.threadRead k0 v false va n []).1 ≠ .ok b fs := by
  simp only [State.threadRead, h]
  cases hb : s.threadBlock (s.threadView k0 false va v) loc n with
  | some b =>
    right
    intro c fs e
    simp only [State.threadBlock] at hb
    split at hb
    · cases hb; cases e
    · split at hb <;> cases hb
      cases e
  | none =>
    by_cases hp : s.poisoned loc n
    · simp [hp]
    · left
      simp [hp, State.bytesAt, State.instant, hh]
/-- What a thread reads in order, where nothing has been applied since the start: the bytes of memory. -/
theorem readAll_pieces {s : State} (hh : s.hist = []) {va n : Nat} {v w : View} {t : List LineAnswer} {b : List Byte}
    (hp : homePieces s va (linePieces va (n / 256 + 2) 0 n) = true) (h : s.threadReadAll k0 v false va n [] = (.ok b, w, t)) :
    b = piecesOf s va (linePieces va (n / 256 + 2) 0 n) := by
  simp only [State.threadReadAll] at h
  generalize linePieces va (n / 256 + 2) 0 n = ps at hp h
  have stay : ∀ (ps : List (Nat × Nat)) (f : (Except (Nat × Piece) (List Byte)) × View × List LineAnswer → Nat × Nat → (Except (Nat × Piece) (List Byte)) × View × List LineAnswer) e x,
      (∀ a p, f (.error e, a) p = (.error e, a)) → (ps.foldl f (.error e, x)).1 = .error e := by
    intro ps f e x hf
    induction ps with
    | nil => rfl
    | cons p ps ih => rw [List.foldl_cons, hf, ih]
  have go : ∀ (ps : List (Nat × Nat)) bs v, homePieces s va ps = true → ps.foldl (fun (acc : (Except (Nat × Piece) (List Byte)) × View × List LineAnswer) p =>
      match acc.1 with
      | .error _ => acc
      | .ok bs =>
        match s.threadRead k0 acc.2.1 false (va + p.1) p.2 acc.2.2 with
        | (.ok b [], w, t) => (.ok (bs ++ b), w, t)
        | (.ok _ (f :: _), w, t) => (.error (p.1, .fault 1 4 f.2 (s.peerAt k0 false (va + p.1))), w, t)
        | (r, w, t) => (.error (p.1, r), w, t)) (.ok bs, v, []) = (.ok b, w, t) → b = bs ++ piecesOf s va ps := by
    intro ps
    induction ps with
    | nil =>
      intro bs v _ h
      cases h
      simp [piecesOf]
    | cons p ps ih =>
      intro bs v hp h
      simp only [homePieces, List.all_cons, Bool.and_eq_true] at hp
      obtain ⟨h1, h2⟩ := hp
      split at h1
      · rename_i loc l ha
        rw [List.foldl_cons] at h
        rcases hr : s.threadRead k0 v false (va + p.1) p.2 [] with ⟨r, w', t'⟩
        rcases threadRead_home (v := v) hh ha with ⟨e1, e2⟩ | hn
        · rw [hr] at e1 e2
          cases e1; cases e2
          simp only [hr] at h
          rw [ih _ _ h2 h]
          simp [piecesOf, ha]
        · rw [hr] at hn
          simp only [hr] at h
          cases r with
          | ok b fs => exact absurd rfl (hn b fs)
          | _ =>
            have := congrArg Prod.fst h
            rw [stay _ _ _ _ (fun _ _ => rfl)] at this
            cases this
      all_goals cases h1
  simpa using go ps [] v hp h
theorem noSect_full : noSect (headIn (sBody false 0x45C0 0 false) ++ bodyOf (sBody false 0x45C0 0 false)) = true := by
  let s := sBody false 0x45C0 0 false
  have hn : recField (headIn s) 0x10 8 - 128 = 0x4540 := by decide +kernel
  have hb : bodyOf s = piecesOf (sent s) ((mover s).va + 128) (linePieces ((mover s).va + 128) (0x4540 / 256 + 2) 0 0x4540) := by
    have hr : bodyReads s (other 4 false) = true := by decide +kernel
    simp only [bodyReads, Bool.and_eq_true] at hr
    have hr := hr.1.1.1
    unfold bodyOf
    rw [hn] at hr ⊢
    rcases e : (sent s).threadReadAll k0 (mover s).view false ((mover s).va + 128) 0x4540 [] with ⟨r, w, t⟩
    rw [e] at hr
    cases r with
    | error x => cases hr
    | ok b => exact readAll_pieces (by decide +kernel) (by decide +kernel) e
  show noSect (headIn s ++ bodyOf s) = true
  rw [hb]
  decide +kernel
theorem witness_WaitingUnitsEnd_body :
    (let s := sBody true 0x4500 1 true;
      bodyReads s (other 4 true) = true ∧ (sent s).openImage (other 4 true) (headIn s) (bodyOf s) = none ∧ (here s).rfaults = [] ∧ (here s).res = .resident 0 ∧ (here s).fault ≠ 0#64 ∧ (here s).fsBit fsFP = false
        ∧ (sent s).frameOk k0 (here s).fault.toNat = true ∧ uncounted (sent s) (here s).fault.toNat = true)
    ∧ (bodyReads (sBody false 0x4510 0 true) (other 4 false) = true ∧ imageSects (headIn (sBody false 0x4510 0 true) ++ bodyOf (sBody false 0x4510 0 true)) (other 4 false) 0x4510 = none)
    ∧ (bodyReads (sBody false 0x45C0 0 false) (other 4 false) = true ∧ imageSects (headIn (sBody false 0x45C0 0 false) ++ bodyOf (sBody false 0x45C0 0 false)) (other 4 false) 0x45C0 = some [⟨0, 0, 0, 0, 0x4500⟩]
      ∧ (passes (sBody false 0x45C0 0 false)).placeImage 1 (other 4 false) [⟨0, 0, 0, 0, 0x4500⟩] = none)
    ∧ (bodyReads (sBody false 0x4500 0 true) (other 4 false) = true ∧ imageSects (headIn (sBody false 0x4500 0 true) ++ bodyOf (sBody false 0x4500 0 true)) (other 4 false) 0x4500 = some []
      ∧ (((passes (sBody false 0x4500 0 true)).placeImage 1 (other 4 false) []).any fun p =>
        ((p.1.restore 1 (headIn (sBody false 0x4500 0 true) ++ bodyOf (sBody false 0x4500 0 true)) (other 4 false) [] p.2).fibre? k0).any fun g =>
          decide (g.regs = (here (sBody false 0x4500 0 true)).regs)) = true)
    ∧ (other 4 false).away = [] :=
  ⟨⟨by decide +kernel, forged_of rfl (by decide +kernel) (by decide +kernel), by and_intros <;> decide +kernel⟩, by decide +kernel, ⟨by decide +kernel, oneSect_of noSect_full, by decide +kernel⟩,
    by decide +kernel, by decide⟩

/-- The wrapped key of RFC 3394, section 4.6, under its key-encryption key. (That it opens, by 24 decryptions, is not decided here: the kernel takes minutes for them.) -/
def kekTest : List Byte := (List.range 32).map fun i => BitVec.ofNat 8 i
def wrappedTest : List Byte := (leBytes 40 0x28C9F404C4B810F4CBCCB35CFB87F8263F5786E2D80ED326CBC7F0E71A99F43BFB988B9B7A02DD21).reverse
def sKeyld : State := { sUnit wrappedTest 63 (.keyld h0 5 6 8) with keks := [(0, kekTest)] }
theorem witness_WaitingUnitsEnd_keyld : endable sKeyld .keyld = true ∧ reads sKeyld 48 = true ∧ (bytesOf sKeyld 48).take 40 = wrappedTest ∧ (∀ x ∈ (bytesOf sKeyld 48).drop 40, x = 0#8)
    ∧ sKeyld.keks.get? (sKeyld.tenOf k0) = some kekTest ∧ (∀ e ∈ sKeyld.ctxs, e.2.prot = true → e.2.keyslot ≠ (mover sKeyld).arg)
    ∧ (sKeyld.keys.getD (mover sKeyld).arg ⟨none, 0⟩).key = none := by
  decide +kernel

/-- R188, R190: the longest blocks of the least element, and a saturated sum. -/
theorem witness_MatrixNumbersFollowR190 : (List.replicate 32 (-128 : Int)).length ≤ 32 ∧ (∀ x ∈ List.replicate 32 (-128 : Int), -128 ≤ x ∧ x ≤ 127)
    ∧ (⟨2 ^ 95 - 1, false, true, false, false⟩ : MonSum).sat = true ∧ MonSum.zero.sat = false ∧ (255 = 255 ∨ 254 = 255) ∧ 254 ≠ 255 := by decide

/-- A descriptor of two dimensions as the table holds it. -/
def desc (base n0 n1 stride ctl : Nat) : BitVec 512 :=
  BitVec.ofNat 512 (base + n0 * 2 ^ 128 + n1 * 2 ^ 160 + 2 ^ 192 + 2 ^ 224 + stride * 2 ^ 256 + (ctl + 0x8100) * 2 ^ 448)
/-- Operands 2 and 3 with their staging pair 0 and 1, the accumulator, a drain of FP32, and both sides of a copy of one row of four. -/
def table : Tab (BitVec 512) :=
  [(0, desc 0 32 128 32 0x401), (1, desc 0x1000 32 128 32 0x401), (2, desc 0x40000000 32 128 32 1), (3, desc 0x40002000 32 128 32 1), (4, desc 0 128 128 0 0x30),
    (5, desc 0x40010000 128 128 0 0x11), (6, desc 0x8000 4 1 16 0x410), (7, desc 0x40020000 4 1 16 0x10)]
def holding (h : Option Nat) (s : State) : State :=
  { s.updCtx 0 (fun x => { x with desc := table }) with tiles := [(0, { blankTile with holder := h, elems := some [], serial := 1 })] }
def sTile (h : Option Nat) : State := holding h (s1With fun f => f.setReg 10 127)
def dsc (n : Nat) : BitVec 512 := (sTile none).descOf 0 n
theorem witness_TileAndCopyUnitsStart :
    (Solo h0 fetchFlock (here (sTile none)) (here (sTile none)) (sTile none) ∧ ((sTile none).tile 0 0).holder = none ∧ ((sTile (some 3)).tile 0 0).holder = some 3 ∧ 3 ≠ k0.k)
    ∧ (mxEntry (dsc 2) = true ∧ dN (dsc 2) 1 ≤ 128 ∧ ((here (sTile none)).reg 10).toNat < 128 ∧ ((here (sTile none)).reg 10).toNat % 64 + dN (dsc 2) 0 / 32 ≤ 64)
    ∧ (dV (dsc 4) = true ∧ dFmt (dsc 4) = 0x30)
    ∧ (Solo h0 fetchFlock (here (sTile (some 0))) (here (sTile (some 0))) (sTile (some 0)) ∧ ((sTile (some 0)).tile 0 0).holder = some k0.k
      ∧ mmaFol (unitCtx h0 fetchFlock (sTile (some 0))).x17 = false ∧ (begun (sTile (some 0))).mmaCause k0 0 (dsc 2) (dsc 3) 0 = none)
    ∧ (dV (dsc 5) = true ∧ dFmt (dsc 5) = 0x11 ∧ dNdm1 (dsc 5) = 1 ∧ dN (dsc 5) 0 = 128 ∧ dN (dsc 5) 1 = 128)
    ∧ ((begun (sTile none)).cpyCause k0 (dsc 6) (dsc 7) = none ∧ isOk ((begun (sTile none)).parmObj (here (sTile none)) 0) = true)
    ∧ (begun (sTile (some 0))).tmmCause k0 0 (dsc 2) (dsc 3) (dsc 0) (dsc 1) 0 = none
    ∧ unhalted (sTile none) = true ∧ mmaFol 0x1000 = true :=
  ⟨⟨solo_of (by decide +kernel), by decide +kernel⟩, by decide +kernel, by decide +kernel, ⟨solo_of (by decide +kernel), by decide +kernel⟩, by decide +kernel⟩

/-- A CPY with FOLN = 1 has issued (its IMX gives x17 = 0x40), and the next unit's IMX gives x17 = 0x1000. -/
def sFollow : State :=
  let s : State := after (.cpy h0 6 7) { sTile (some 0) with flocks := [{ fetchFlock with imxs := [0x40] }] }
  { s with flocks := [{ fetchFlock with imxs := [0x1000] }] }
def flockF : Flock := { fetchFlock with imxs := [0x1000] }
/-- That copy has landed. -/
def sFollowLanded : State := { sFollow with eops := sFollow.eops.map fun e => { e with landed := true, free := true } }
/-- What FollowOnsPair asks, with a follow-on next. -/
def pairs (s : State) : Bool :=
  decide (s.flockOf? s.cur = some flockF ∧ (unitCtx h0 flockF s).act = [here s] ∧ k0 ∈ flockF.members
    ∧ s.fibre? k0 = some (here s) ∧ (here s).wait ≠ .halted ∧ (here s).foln = some (op s).id
    ∧ s.eop? (op s).id = some (op s) ∧ mmaFol (unitCtx h0 flockF s).x17 = true
    ∧ ((s.beginUnit flockF).updFibre k0 fun v => { v with foln := none }).mmaCause k0 0 (dsc 2) (dsc 3) 0x1000 = none) && unhalted s
/-- A copy, whose writes may still stand in an apply queue, and its follow-on, with room in its tile's queue or without. -/
def sHand (pending full : Bool) (flt : Option (Nat × Nat × Nat)) : State :=
  { s1 with
    aq := if pending then [⟨0, .engine 5, 3, 0x80001000, 4, .store [0, 0, 0, 0], none, 0, 1, [], false, none, 0, false⟩] else []
    eops := [{ blankOp with id := 5, kind := .cpy, landed := true, free := true, partner := some 6, flt := flt }, { blankOp with id := 6, kind := .mma, partner := some 5 }]
      ++ if full then (List.range 16).map fun i => { blankOp with id := 10 + i, accepted := some i } else [] }
def hands (s : State) (applied room flt : Bool) : Bool :=
  match s.eop? 5, s.eop? 6 with
  | some e, some y => decide (e.landed = true ∧ e.free = true ∧ e.partner = some 6 ∧ y.accepted = none ∧ e.flt.isSome = flt) && s.threadApplied 5 == applied && s.queueRoom y.key.c y.tile == room
  | _, _ => false
theorem witness_FollowOnsPair : (pairs sFollow = true ∧ (op sFollow).landed = false) ∧ Instr.hdr? (.nop h0) = some h0
    ∧ (pairs sFollowLanded = true ∧ (op sFollowLanded).landed = true ∧ (op sFollowLanded).free = true ∧ sFollowLanded.threadApplied (op sFollowLanded).id = true ∧ (op sFollowLanded).flt = none
      ∧ sFollowLanded.queueRoom 0 0 = true ∧ ∀ o ∈ sFollowLanded.eops, o.id < sFollowLanded.serial)
    ∧ hands (sHand true false none) false true false = true ∧ hands (sHand false false none) true true false = true ∧ hands (sHand false true none) true false false = true
    ∧ hands (sHand false false (some (0, 0, 0))) true true true = true := by
  and_intros <;> decide +kernel

def sMzero : State := (after (.mzero h0 4 false) (sTile (some 0))).forks
def sMma : State := (after (.mma h0 0 1 false) (sTile (some 0))).forks
/-- An MMA that a copy, which has landed, has handed over. -/
def sPaired : State := { sMma with eops := (sMma.eops.map fun e => { e with partner := some 99 }) ++ [{ blankOp with id := 99, kind := .cpy, landed := true, partner := some (op sMma).id }] }
def sMdrn : State := (after (.mdrn h0 5 false 1 false) (sTile (some 0))).forks
def sCpy : State := (after (.cpy h0 6 7) (sTile none)).forks
/-- The same copy with two rows. -/
def sCpy2 : State := (after (.cpy h0 6 7) ((sTile none).updCtx 0 fun x => { x with desc := (x.desc.set 6 (desc 0x8000 4 2 16 0x410)).set 7 (desc 0x40020000 4 2 16 0x10) })).forks
/-- A TMM of one block, past it: its next chunk is empty, and then the tile has accepted it. -/
def sTmm : State :=
  let s : State := (after (.tmm h0 2 3 false) (sTile (some 0))).forks
  { s with eops := s.eops.map fun e => { e with step := 16 } }
def sTaken : State := after (.tmmChunk (op sTmm).id []) sTmm
/-- Both operands lie in the scratchpad. -/
def rowsOk (s : State) : Bool := isOk ((s.mmaWalk (op s)).mmaRows (op s))
/-- An MMA of two K-blocks, whose rows have been fetched. -/
def sTwoBlocks : State := { sMma with eops := sMma.eops.map fun e => { e with parm := 1, rows := some (List.replicate 128 (List.replicate 64 1#8), List.replicate 128 (List.replicate 64 1#8)) } }
/-- What the copy, and both stages of the TMM's chunk, come to. -/
def copyMove (s : State) : Move :=
  match (copyRows ((mover s).descs.headD 0) ((mover s).descs.getD 1 0))[(mover s).step]? with
  | some r => (Move.start (sent s) (mover s).view []).row (mover s) (dLoc ((mover s).descs.getD 1 0)) r.1 (dLoc ((mover s).descs.headD 0)) r.2 (elemBytes ((mover s).descs.headD 0)) (dRowBytes ((mover s).descs.headD 0))
  | none => Move.start (sent s) (mover s).view []
def copies (s : State) (rows : Nat) : Bool :=
  decide (s.thread? (op s).id = some (op s) ∧ (op s).kind = .cpy ∧ (op s).landed = false ∧ (s.ctx 0).st ≠ 6 ∧ (sent s).mover? (op s).id = some (mover s)
    ∧ (copyRows ((mover s).descs.headD 0) ((mover s).descs.getD 1 0)).length = rows ∧ (mover s).step = 0)
  && (copyMove s).stop.isNone && (copyMove s).ans.isEmpty && ((copyMove s).st.eop? (op s).id).any fun o => !o.free
def stage1 : Move := (Move.start (sent sTmm) (mover sTmm).view []).stage (mover sTmm) (dsc 2) (dsc 0) 16 0
def stage2 : Move := stage1.stage (mover sTmm) (dsc 3) (dsc 1) 16 0
theorem witness_EnginesApply : (sMzero.tileNext? 0 0 = some (op sMzero) ∧ (op sMzero).kind = .mzero)
    ∧ ((sent sTmm).mover? (op sTmm).id = some (mover sTmm) ∧ sTmm.thread? (op sTmm).id = some (op sTmm) ∧ (op sTmm).kind = .tmm ∧ (op sTmm).ended = false ∧ (mover sTmm).accepted = none
      ∧ (sTmm.ctx 0).st = 1 ∧ (mover sTmm).descs = [dsc 2, dsc 3, dsc 0, dsc 1] ∧ (mover sTmm).step / 16 = 1 ∧ min 16 (dN (dsc 2) 0 / 32 - 16 * 1) = 0
      ∧ (sent sTmm).queueRoom 0 0 = true ∧ stage1.flt = none ∧ stage2.stop = none ∧ stage2.flt = none ∧ (stage2.st.eop? (op sTmm).id).isSome = true) := by decide +kernel
/-- The empty chunk needs no scale and no operand. -/
theorem witness_EnginesApply_block : (op { sTaken with eops := sTaken.eops.map fun e => { e with rows := some ([], []) } }).rows = some ([], []) ∧ (op sTaken).rows = none := by decide +kernel
theorem witness_EnginesApply_chunk : sTaken.thread? (op sTmm).id = some (op sTaken) ∧ (op sTaken).kind = .tmm ∧ (op sTaken).ended = false ∧ (sTaken.ctx 0).st = 1
    ∧ (sent sTaken).mover? (op sTaken).id = some (mover sTaken) ∧ (mover sTaken).accepted.isSome = true ∧ ((sent sTaken).tileNext? 0 0).map (fun e => e.id) = some (op sTaken).id
    ∧ (match Scales.rows (sent sTaken, (mover sTaken).view, none, []) k0 0 (dsc 2) 0 0 16 0 with
      | x => match Scales.rows x k0 0 (dsc 3) 1 0 16 0 with
        | (z, v, none, _) => x.2.2.1.isNone && (z.eop? (op sTaken).id).isSome && (match z.operandRows k0 v (dsc 0) 0 0 with
          | (.ok _, w) => isOk (z.operandRows k0 w (dsc 1) 0 0).1
          | _ => false)
        | _ => false) = true := by decide +kernel
def mmas (s : State) (q kb : Nat) : Bool :=
  decide (s.tileNext? 0 0 = some (op s) ∧ (op s).kind = .mma ∧ (op s).flt = none ∧ mmaBc (op s).parm = 0 ∧ mmaKb (op s).parm = kb ∧ (op s).step = q ∧ s.eop? (op s).id = some (op s)) && rowsOk s
theorem witness_EnginesApply_mma : mmas sMma 0 1 = true ∧ (op sMma).partner = none ∧ mmas sTwoBlocks 0 2 = true ∧ (op sTwoBlocks).step + 1 < mmaKb (op sTwoBlocks).parm
    ∧ mmas sPaired 0 1 = true ∧ (op sPaired).partner = some 99 ∧ 99 ≠ (op sPaired).id ∧ (sPaired.eop? 99).isSome = true := by
  and_intros <;> decide +kernel
theorem witness_EnginesApply_copy : copies sCpy 1 = true ∧ copies sCpy2 2 = true := by and_intros <;> decide +kernel

/-- Drains of zeros in BF16, with and without FREE: the first row is written, and the second does not translate, a fault that the drain keeps for its end. -/
def sDrain (free : Bool) : State := (after (.mdrn h0 5 free 1 false) ((sTile (some 0)).updCtx 0 fun x => { x with desc := [(5, desc 0x40010000 128 128 0x1000000000 0x11)] })).forks
def drained (s : State) : Bool :=
  decide (s.tileNext? 0 0 = some (op s) ∧ (op s).kind = .mdrn ∧ (sent s).mover? (op s).id = some (mover s) ∧ (mover s).kind = .mdrn)
  && (let m := (sent s).drainRows (mover s) ((mover s).descs.headD 0) ((sent s).tile 0 0) []
    m.stop.isNone && m.flt.isSome && decide ((sent s).hist.length < m.st.hist.length) && (m.st.eop? (op s).id).isSome && m.st.eops.all fun e => decide (e.kind ≠ .mzero ∧ e.kind ≠ .mscl))
theorem witness_EnginesApply_drain : drained (sDrain false) = true ∧ (mover (sDrain false)).free = false ∧ drained (sDrain true) = true ∧ (mover (sDrain true)).free = true :=
  by and_intros <;> decide +kernel

/-- An operation that runs, and ended ones without an object, with one, and of an MDRN; one whose write is still in an apply queue, one whose object's page turns, and one whose view names a write that is not applied. -/
def sEnded (e : EngineOp) : State := { s1 with eops := [{ e with ended := true }] }
def objOp : EngineOp := { blankOp with obj := some 0x80000000 }
def queued (src : Src) : AqWrite := ⟨0, src, 3, 0x80001000, 4, .store [0, 0, 0, 0], none, 0, 1, [], false, none, 0, false⟩
theorem witness_EngineThreadsComplete : (({ s1 with eops := [blankOp] } : State).eop? blankOp.id = some blankOp ∧ blankOp.ended = false)
    ∧ ((sEnded blankOp).eop? blankOp.id = some (op (sEnded blankOp)) ∧ (op (sEnded blankOp)).flt = none ∧ (op (sEnded blankOp)).obj = none ∧ (op (sEnded blankOp)).kind ≠ .mdrn
      ∧ (sEnded blankOp).threadApplied blankOp.id = true)
    ∧ ({ sEnded blankOp with aq := [queued (.engine blankOp.id)] } : State).threadApplied blankOp.id = false
    ∧ ({ sEnded objOp with aq := [queued (.fibre k0)] } : State).viewApplied (View.init.name 3) = false
    ∧ ((op (sEnded objOp)).obj = some 0x80000000 ∧ (sEnded objOp).pageHeld 0x80000000 = false ∧ (sEnded objOp).viewApplied (op (sEnded objOp)).view = true ∧ (sEnded objOp).poisoned 0x80000000 8 = false ∧ s1.mem.wf = true
      ∧ s1.mem.read 0x80000000 8 % 2 ^ 48 ≠ 2 ^ 48 - 1 ∧ 0x80000000 % 8 = 0 ∧ (sEnded objOp).sliceStops 0x80000000 = false ∧ (sEnded objOp).lines.length < 8192)
    ∧ ({ sEnded objOp with pages := [(0x8000, ⟨false, false, true, false, false, [], []⟩)] } : State).pageHeld 0x80000000 = true
    ∧ (op (sEnded { blankOp with kind := .mdrn })).kind = .mdrn ∧ (s1.fibre? blankOp.key).isSome = true := by
  and_intros <;> decide +kernel

/-- A drain of zeros in BF16 to the first 32 KiB of the scratchpad; copies of a row of four in both directions; and 128 scales. -/
def sDrainSpad : State := (after (.mdrn h0 5 false 1 false) ((sTile (some 0)).updCtx 0 fun x => { x with desc := [(5, desc 0 128 128 256 0x411)] })).forks
def sCpyOut : State := (after (.cpy h0 7 6) (sTile none)).forks
/-- Where a byte of a thread lies, and whether it may be reached. -/
def placeAt (s : State) (spad write : Bool) (va : Nat) : Nat :=
  match (sent s).threadAcc k0 spad va 1 write with
  | .ok (.home loc) _ => loc
  | _ => 0
def reaches (s : State) (spad write : Bool) (va : Nat) : Bool :=
  match (sent s).threadAcc k0 spad va 1 write with
  | .ok (.home _) _ => true
  | _ => false
theorem place_of {s : State} {spad write : Bool} {va : Nat} (h : reaches s spad write va = true) : ∃ l, (sent s).threadAcc k0 spad va 1 write = .ok (.home (placeAt s spad write va)) l := by
  unfold reaches at h
  unfold placeAt
  split at h
  · next a l e => exact ⟨l, by rw [e]⟩
  · simp at h
def moves (s : State) : Bool :=
  decide ((sent s).mover? (op s).id = some (mover s) ∧ (∀ w ∈ (sent s).aq, w.wid < (sent s).serial) ∧ (sent s).lag = 0) && s.mem.wf
/-- A copy of one row, all of whose bytes can be read and written. -/
def copiesBytes (s : State) (out : Bool) : Bool :=
  copies s 1 && moves s && (copyMove s).flt.isNone && (copyMove s).st.threadApplied (op s).id && decide (dLoc ((mover s).descs.headD 0) = !out ∧ dLoc ((mover s).descs.getD 1 0) = out)
    && (copyRows ((mover s).descs.headD 0) ((mover s).descs.getD 1 0)).all fun r => decide (r.2 % 256 + dRowBytes ((mover s).descs.headD 0) ≤ 256)
      && (List.range (dRowBytes ((mover s).descs.headD 0))).all fun i => reaches s out false (r.1 + i) && reaches s (!out) true (r.2 + i) && !(sent s).sliceStops (placeAt s (!out) true (r.2 + i))
theorem witness_EngineBytes_copy : copiesBytes sCpy false = true ∧ copiesBytes sCpyOut true = true := by and_intros <;> decide +kernel
theorem witness_EngineBytes_scales : (moves sMscl && endable sMscl .mscl && decide ((sent sMscl).tileNext? 0 0 = some (mover sMscl) ∧ (mover sMscl).arg = 0 ∧ dN ((mover sMscl).descs.headD 0) 1 = 128 ∧ dN ((mover sMscl).descs.headD 0) 0 / 32 = 1)
    && (List.range 128).all fun i => reaches sMscl (dSloc ((mover sMscl).descs.headD 0)) false (scaleVa ((mover sMscl).descs.headD 0) i 0)) = true := by decide +kernel

theorem drainRow_zero {d : BitVec 512} {t : Tile} (i : Nat) (he : t.elems = some []) (hf : dFmt d = 0x11) : drainRow d t i = List.replicate 256 0#8 := by
  have hv (eb : Int) : drainValue fmtB16 MonSum.zero eb = 0 := rfl
  simp only [drainRow, Tile.elem, he, List.getD_nil, hf, if_neg (show ¬(0x11 = 0x10) by decide), hv]
  decide +kernel
theorem drainRows_zero {s : State} {e : EngineOp} {d : BitVec 512} {t : Tile} (he : t.elems = some []) (hf : dFmt d = 0x11) :
    s.drainRows e d t [] = (List.range 128).foldl (fun (m : Move) (i : Nat) => if m.stop.isSome || m.flt.isSome then m else
      (linePieces (rowVa d 0 i) 5 0 (List.replicate 256 0#8).length).foldl (fun (m : Move) p =>
        if m.flt.isSome then m else m.write e (dLoc d) (rowVa d 0 i) p.1 (((List.replicate 256 0#8).drop p.1).take p.2) [] false) m) (Move.start s e.view []) := by
  simp only [State.drainRows, drainRow_zero _ he hf]
theorem witness_EngineBytes_drain : (moves sDrainSpad = true ∧ sDrainSpad.tileNext? 0 0 = some (op sDrainSpad) ∧ (op sDrainSpad).kind = .mdrn ∧ dLoc ((mover sDrainSpad).descs.headD 0) = true)
    ∧ (let m := (sent sDrainSpad).drainRows (mover sDrainSpad) ((mover sDrainSpad).descs.headD 0) ((sent sDrainSpad).tile 0 0) []
      m.stop.isNone && m.st.threadApplied (mover sDrainSpad).id) = true := by
  refine ⟨by and_intros <;> decide +kernel, ?_⟩
  rw [drainRows_zero (by decide +kernel) (by decide +kernel)]
  decide +kernel
/-- Byte `x` of row `i` of that drain lies at 256 i + x in the scratchpad: no two of them share a place. -/
theorem witness_EngineBytes_places : (∀ i < 128, ∀ x < 256,
      (sent sDrainSpad).threadAcc k0 true (rowVa ((mover sDrainSpad).descs.headD 0) 0 i + x) 1 true = .ok (.home (spadLoc 0 (256 * i + x))) none)
    ∧ ∀ i < 128, ∀ x < 256, ∀ j < 128, ∀ y < 256, spadLoc 0 (256 * i + x) = spadLoc 0 (256 * j + y) → i = j ∧ x = y := by
  have hr : ∀ i < 128, rowVa ((mover sDrainSpad).descs.headD 0) 0 i = 256 * i := by decide +kernel
  have hs : ∀ a, a < 2 ^ 15 → (sent sDrainSpad).threadAcc k0 true a 1 true = .ok (.home (spadLoc 0 a)) none := by
    intro a ha
    have hc : ((sent sDrainSpad).share 0).c0 = 0 ∧ 0 < ((sent sDrainSpad).ctx ((sent sDrainSpad).share 0).ctx).lrec.s * ((sent sDrainSpad).ctx ((sent sDrainSpad).share 0).ctx).lrec.w
        ∧ ((sent sDrainSpad).ctx ((sent sDrainSpad).share 0).ctx).lrec.spad = 2 ^ 16
        ∧ ((sent sDrainSpad).shares.find? fun e => e.1 / 4 == 0 && e.2.ctx == ((sent sDrainSpad).share 0).ctx && e.2.pid == ((sent sDrainSpad).share 0).pid).map Prod.fst = some 0 := by
      decide +kernel
    obtain ⟨h0, h1, h2, h3⟩ := hc
    obtain ⟨e, he, he0⟩ := Option.map_eq_some_iff.1 h3
    have hb : bits a 22 20 = 0 := by simp only [bits]; omega
    have hk : k0.share = 0 := rfl
    simp only [State.threadAcc, State.spadAccess, State.spadDest, if_true, hk, h0, hb, h2, he, he0, Nat.mod_one, Nat.add_zero, show a % 2 ^ 20 = a by omega]
    rw [if_neg (by simp), if_neg (by omega)]
    rfl
  refine ⟨fun i hi x hx => ?_, fun i hi x hx j hj y hy h => ?_⟩
  · rw [hr i hi]
    exact hs _ (by omega)
  · simp only [spadLoc] at h
    omega

/-- A quarter with ready fibres on two lanes and no flock, one whose fibre has been ready for 2,048 cycles, and a flock held for 8 cycles: all its members wait for a load, or one of them does. -/
def sReady : State := { s2 with flocks := [] }
def sOld : State := { (sReady.updFibre k0 fun f => { f with readyFrom := some 0 }) with now := 2048 }
def k1 : FKey := ⟨0, 0, 1, 0⟩
def heldFlock (ks : List FKey) (h : List (FKey × Nat)) : Flock := { fetchFlock with members := ks, held := h }
def sHeld (h : List (FKey × Nat)) : State := { after (.ld h0 8 6 0 false .b32) s1 with flocks := [heldFlock [k0] h] }
def sHalfHeld : State := { sHeld [] with fibres := s2.fibres, flocks := [heldFlock [k0, k1] [(k0, 8)]] }
def sBothHeld (n : Nat) : State :=
  { sHalfHeld with reqs := sHalfHeld.reqs.map fun r => { r with also := [(k1, 0)] }, flocks := [heldFlock [k0, k1] [(k0, 8), (k1, n)]] }
theorem witness_FlocksFormAndEnd :
    ((∀ s ∈ [sReady, sOld], s.flockOf? 0 = none ∧ (s.quarter 0).stopped = false ∧ s.readyIn 0 ≠ [] ∧ ∀ f ∈ s.readyIn 0, f.key.k < 4)
      ∧ (∀ u ∈ sReady.readyIn 0, sReady.urgent u = false) ∧ ∃ u ∈ sOld.readyIn 0, sOld.urgent u = true)
    ∧ ((s1.flockOf? 0).isSome = true ∧ ((s1.updQuarter 0 fun q => { q with stopped := true }).quarter 0).stopped = true ∧ State.reset.readyIn 0 = [])
    ∧ (s1.fibre? k1 = none ∧ ∃ x ∈ s1.flocks, k0 ∈ x.members)
    ∧ (sOld.fibre? k0 = some (here sOld) ∧ sOld.urgent (here sOld) = true ∧ ∀ x ∈ sOld.flocks, k0 ∉ x.members)
    ∧ (s1.urgent (here s1) = false ∧ s1.fibre? (here s1).key = some (here s1))
    ∧ ((sHeld [(k0, 7)]).flockOf? 0 = some (heldFlock [k0] [(k0, 7)]) ∧ (sHeld [(k0, 7)]).heldMembers (heldFlock [k0] [(k0, 7)]) = [k0]
      ∧ (heldFlock [k0] [(k0, 7)]).mid = false ∧ (heldFlock [k0] [(k0, 7)]).heldFor k0 = 7 ∧ (s1.flockOf? 0).map (fun fl => ({ fl with snap := [here s1] } : Flock).mid) = some true)
    ∧ ((sHeld [(k0, 8)]).flockOf? 0 = some (heldFlock [k0] [(k0, 8)]) ∧ (sHeld [(k0, 8)]).heldMembers (heldFlock [k0] [(k0, 8)]) = [k0] ∧ (heldFlock [k0] [(k0, 8)]).heldFor k0 = 8)
    ∧ (sHalfHeld.flockOf? 0 = some (heldFlock [k0, k1] [(k0, 8)]) ∧ sHalfHeld.heldMembers (heldFlock [k0, k1] [(k0, 8)]) = [k0])
    ∧ (∀ n ∈ [7, 8], (sBothHeld n).flockOf? 0 = some (heldFlock [k0, k1] [(k0, 8), (k1, n)])
      ∧ (∀ k ∈ [k0, k1], k ∈ (sBothHeld n).heldMembers (heldFlock [k0, k1] [(k0, 8), (k1, n)]))) := by and_intros <;> decide +kernel

/-- A load has asked for an escort of one register, 20 bytes, of which the household may hold 20, or 19; the quarter may hold them, or not. -/
def sAsk (escq : Nat) : State := (after (.ld h0 8 6 15 true .b32) (s1With fun f => { f with esc := 0x100 })).updShare 0 fun h => { h with escq := escq }
def sAskFull : State := (sAsk 20).updQuarter 0 fun q => { q with charge := 131072 - 19 }
/-- Lanes 0 and 1 have asked in one unit. -/
def sTwo : State := { sAsk 40 with fibres := (sAsk 40).fibres ++ [{ here s1 with key := k1, fid := 4 }], reqs := (sAsk 40).reqs ++ (sAsk 40).reqs.map fun r => { r with id := 99, key := k1 } }
def undecided (s : State) : List Req := s.reqs.filter fun o => decide (o.seq = (req s).seq ∧ o.key.quarter = (req s).key.quarter) && o.asks && !o.decided && o.out
/-- The load goes to a peer, and the quarter has so much credit. -/
def sAskFar (credit : Nat) : State :=
  ({ sAsk 20 with reqs := (sAsk 20).reqs.map fun r => { r with dest := .peer false 5 1 1 0x2000, sent := true, delivered := true } } : State).updQuarter 0 fun q => { q with credit := credit }
def sRefill : State := s1.updQuarter 0 fun q => { q with refill := true, credit := 0 }
/-- The request is granted, and no unit is left to it. -/
def sGone : State := let s := after (.escortDecision (req (sAsk 20)).id) (sAsk 20); { s with reqs := s.reqs.map fun r => { r with left := 0 } }
def asking (s : State) : Bool :=
  decide (s.fibre? k0 = some (here s) ∧ (s.shares.get? 0).isSome ∧ s.req? (req s).id = some (req s) ∧ (req s).key = k0 ∧ s.midChain k0 = false ∧ (req s).decided = false
    ∧ (req s).asks = true ∧ (req s).out = true ∧ undecided s = [req s]) && (req s).esc.any (fun e => decide (16 + 4 * popMask e.1 = 20))
theorem witness_EscortsAreDecided :
    (asking (sAsk 20) = true ∧ (req (sAsk 20)).offPackage = false ∧ (sAsk 20).quarter 0 = Quarter.init ∧ ((sAsk 20).share 0).charge = 0 ∧ ((sAsk 20).share 0).escq = 20)
    ∧ (asking (sAsk 19) = true ∧ ((sAsk 19).share 0).escq = 19) ∧ (asking sAskFull = true ∧ 131072 < (sAskFull.quarter 0).charge + 20)
    ∧ (∀ n ∈ [19, 20], asking (sAskFar n) = true ∧ (req (sAskFar n)).offPackage = true ∧ ((sAskFar n).quarter 0).credit = n ∧ ((sAskFar n).quarter 0).charge = 0 ∧ ((sAskFar n).share 0).escq = 20)
    ∧ (sGone.req? (req sGone).id = some (req sGone) ∧ (req sGone).decided = true)
    ∧ (sGone.midChain k0 = false ∧ sGone.departReq? k0 = some (req sGone) ∧ (req sGone).esc.isSome = true ∧ (sGone.shares.get? 0).isSome = true)
    ∧ (sTwo.req? (req sTwo).id = some (req sTwo) ∧ sTwo.fibre? (req sTwo).key = some (here sTwo) ∧ sTwo.midChain k0 = false ∧ (req sTwo).asks = true ∧ (req sTwo).decided = false ∧ (req sTwo).out = true
      ∧ (undecided sTwo).map (fun r => (r.key.l, decide (r.id = (req sTwo).id))) = [(0, true), (1, false)])
    ∧ ((sRefill.quarters.map Prod.fst).Nodup ∧ (sRefill.quarter 0).refill = true ∧ sRefill.storeUsed 0 + sRefill.creditHeld 0 + 32768 * sRefill.quarters.length ≤ 2 ^ 22) := by
  and_intros <;> decide +kernel

/-- Records of both kinds, and the household with a lodge window. -/
def rcd0 (kind : Nat) : EscRec := ⟨0x100, Vector.replicate 32 7, kind, 0, 0, 0, 0, 0, 0, 0⟩
def sRet : State := s1With fun f => { f with res := .returning, rcd := some (rcd0 1), retFrom := some 3 }
/-- A landing area stands at the data page; its first entry holds a record of g8. -/
def landing (s : State) : State :=
  (s.updCtx 0 fun x => { x with lrec := { x.lrec with land := 0x40000000, lsize := 4096 } }) |> fun s => { s with mem := s.mem.writeBytes 0x80000000 (recordBytes k0 0 (rcd0 1)) }
def sLand : State := landing (s1With fun f => { f with res := .landed 0, rcd := some (rcd0 1), retFrom := some 3 })
def sLodge (now : Nat) : State := { s1With (fun f => { f with res := .lodged 0, rcd := some (rcd0 2) }) with now := now }
def sLent : State := s1.updShare 0 fun h => { h with windows := 0, bndc := 0, lim := 64 }
/-- A fibre of a saved context with a request that has been answered, or refused. -/
def sLate (res : Res) (fail : Option (Nat × Nat)) : State :=
  let s := after (.ld h0 8 6 15 false .b32) s1
  { landing (s.updCtx 0 fun x => { x with away := [⟨{ here s with res := res, rcd := some (rcd0 1) }, 0, 0, none⟩] }) with
    fibres := [{ here s with key := k1 }], reqs := s.reqs.map fun r => { r with ans := some 5, fail := fail } }
def lands (s : State) : Bool :=
  match s.awayOf k0 with
  | none => false
  | some (c, a) =>
    let r := req s
    let e1 : EscRec := match r.fail with
      | none => { r.writeRecord 5 a.record with kind := 1, dw := 0, unit := r.unitAddr }
      | some (cls, code) => { a.record with kind := 1, fc := cls * 16 + code, unit := r.unitAddr }
    decide (s.req? r.id = some r ∧ r.key = k0 ∧ r.ans = some 5 ∧ r.also = []) && (s.ctxs.get? c).any (fun x => x.away.contains a) && (match s.landLate c k0 a.entry e1 with
      | .ok (some _) => true
      | _ => false)
theorem witness_FibresReturn :
    (sRet.fibre? k0 = some (here sRet) ∧ (here sRet).rfaults = [] ∧ (here sRet).retFrom.isSome = true ∧ sRet.turn (here sRet) = true ∧ (sRet.quarter 0).stopped = false
      ∧ sRet.freeWindow? k0 = some 0)
    ∧ (sLand.fibre? k0 = some (here sLand) ∧ (here sLand).rfaults = [] ∧ (here sLand).res = .landed 0 ∧ sLand.turn (here sLand) = true ∧ (sLand.quarter 0).stopped = false
      ∧ sLand.freeWindow? k0 = some 0 ∧ sLand.landHeld 0 = false ∧ (sLand.landRead 0 0 0 (16 + sLand.gOf k0)).isSome = true)
    ∧ ((sLodge 32767).fibre? k0 = some (here (sLodge 32767)) ∧ (here (sLodge 32767)).since = 0 ∧ (here (sLodge 32767)).retFrom = none ∧ (here (sLodge 32767)).parkedAt = none
      ∧ (here (sLodge 32767)).heldAway = false ∧ (∀ r ∈ (sLodge 32767).reqs, r.serves k0 = false) ∧ ((sLodge 32767).quarter 0).stopped = false ∧ (here (sLodge 32767)).rfaults = []
      ∧ 0 + 32768 ≤ (sLodge 32768).now)
    ∧ (sLent.fibre? k0 = some (here sLent) ∧ here sLent ∈ sLent.lentInUse 0 ∧ sLent.idle k0 = true ∧ sLent.midChain k0 = false ∧ sLent.freeLodge? k0 = some 0)
    ∧ ([Res.abroad, .resident 0, .lodged 0].all fun x => [none, some (1, 4)].all fun e => lands (sLate x e)) = true := by
  and_intros <;> decide +kernel

/-- The package is peer 3, the gigabyte behind the data page is a window of peer 5, which may be hot, and the household has a landing area whose first entry holds a record. -/
def sPeer (hot : Bool) : State :=
  let s := landing ((sFar true).setReg 0xC000 0x403)
  { s with hot := if hot then [(0, 5, 0, 0)] else [] }
/-- A load of that window has issued. -/
def sCalled : State := after (.ld h0 8 6 15 false .b32) (sPeer false)
/-- Its answer has come; its fibre is lodged, or abroad. -/
def sAnswered (res : Res) : State :=
  (({ sCalled with reqs := sCalled.reqs.map fun r => { r with sent := true, delivered := true, ans := some 5 } } : State).updFibre k0 fun f => { f with res := res, rcd := some (rcd0 2) })
def sOut : State := { sCalled with reqs := sCalled.reqs.map fun r => { r with sent := true, delivered := true } }
def answers (s : State) : Bool := decide (s.req? (req s).id = some (req s) ∧ (req s).key = k0 ∧ s.fibre? k0 = some (here s) ∧ s.midChain k0 = false ∧ s.awayOf k0 = none ∧ s.entryHeld (req s) = false ∧ (req s).decided = true ∧ (req s).also = []
  ∧ (req s).fail = none ∧ (req s).dw ≤ 4 ∧ (here s).wait ≠ .halted ∧ (req s).kind = .load 4 false ∧ (req s).dw ≠ 0 ∧ (req s).cache = none ∧ (req s).acq = false)
theorem witness_RemoteUnitsAndAnswers :
    (∀ hot, Solo h0 fetchFlock (here (sPeer hot)) (here (sPeer hot)) (sPeer hot))
    ∧ (∀ hot, (sPeer hot).ownPeer.isSome = true ∧ (sPeer hot).lost 5 = false ∧ (here (sPeer hot)).wb = [] ∧ (unitCtx h0 fetchFlock (sPeer hot)).ea (here (sPeer hot)) 6 = 0x80000000
      ∧ ([4, 8].all fun n => goesTo ((begun (sPeer hot)).access k0 0x80000000 n false) false && goesTo ((begun (sPeer hot)).atomAccess k0 0x80000000 n) false) = true
      ∧ (sPeer hot).hotPeer 0 5 = hot ∧ (∀ q ∈ (sPeer hot).reqs, q.key ≠ k0 ∧ q.id ≤ (sPeer hot).serial) ∧ (sPeer hot).planeStalled 0 = false ∧ (here (sPeer hot)).fencedAt (sPeer hot).serial = false)
    ∧ ((here (sPeer true)).res = .resident 0 ∧ (sPeer true).landHeld 0 = false ∧ 1 < (sPeer true).landEntries 0
      ∧ (∀ j ≤ 1, ((sPeer true).landRead 0 j 0 (16 + 4 * ((sPeer true).ctx 0).lrec.win)).any (fun bs => decide ((bs.getD 4 0#8).getLsbD 0 = false ↔ j = 1)) = true))
    ∧ (sCalled.req? (req sCalled).id = some (req sCalled) ∧ sCalled.fibre? k0 = some (here sCalled) ∧ (req sCalled).va / 256 % 16 = 0
      ∧ (sCalled.chan? 0 false 5 0).any (fun ch => decide (ch.items = [.request (req sCalled).id])) = true ∧ sCalled.planeStalled 0 = false
      ∧ sCalled.lost 5 = false ∧ (req sCalled).cache = none ∧ (req sCalled).dest = .peer false 5 1 1 0x80000000)
    ∧ ({ sCalled with ports := [(sCalled.planePort 0, ⟨true, false, 0, 0, 0, 0, false, 0, 0, false⟩)] } : State).planeUp 0 (ChanItem.request (req sCalled).id).flits = true
    ∧ (answers sOut = true ∧ (here sOut).res = .resident 0 ∧ (req sOut).delivered = true)
    ∧ (∀ r ∈ [Res.lodged 0, .abroad], answers (sAnswered r) = true ∧ (here (sAnswered r)).res = r ∧ (req (sAnswered r)).ans = some 5 ∧ (here (sAnswered r)).rcd = some (rcd0 2))
    ∧ ((sAnswered .abroad).freeWindow? k0 = some 0 ∧ ((sAnswered .abroad).quarter 0).stopped = false ∧ (here (sAnswered .abroad)).rfaults = []
      ∧ ∀ o ∈ (sAnswered .abroad).fibres, o.key.share = 0 → o.key.l = 0 → o.key ≠ k0 → o.retFrom = none) := by
  refine ⟨fun hot => by cases hot <;> exact solo_of (by decide +kernel), ?_⟩
  and_intros <;> decide +kernel

/-- An LDF of the scratchpad whose granule is full, and a WAITC that waits on a word of 0: GE does not hold of 0 and 1, and holds of 5 and 1. -/
def sLdf : State := { after (.ldf h0 8 10 15 false .b32) s1 with full := [spadLoc 0 0 / 16] }
def sWaitc (w : Word) : State :=
  let s := after (.waitcUnsigned h0 8 6 9 true) ((s1With fun f => f.setReg 9 1) |> fun s => { s with mem := s.mem.writeBytes 0x80000000 (leBytes 4 w.toNat) })
  after (.escortDecision (req s).id) s
theorem witness_PollsEndWaits :
    (∀ sh, Undirtied s1 sh)
    ∧ ((here sStored).wb.length = 1 ∧ ((here sStored).wb.all fun b => sStored.leaveOk (here sStored) b && (sStored.lineOf? 0 b == some (0x80000000 / 256))) = true
      ∧ sStored.dirtyLines 0 = [0x80000000 / 256])
    ∧ (answerable sLdf = true ∧ Roomy sLdf ∧ Undirtied sLdf 0 ∧ (req sLdf).kind = .ldf 4 ∧ (req sLdf).dest = .home (spadLoc 0 0) ∧ (req sLdf).dw ≠ 0 ∧ (here sLdf).wait = .none)
    ∧ (answerable (sWaitc 5) = true ∧ Roomy (sWaitc 5) ∧ Undirtied (sWaitc 5) 0 ∧ (req (sWaitc 5)).kind = .waitc false .ge 1 ∧ (here (sWaitc 5)).waits.map (fun w => w.wait) = [.request (req (sWaitc 5)).id]
      ∧ (req (sWaitc 5)).dw ≠ 0 ∧ waitcCond false .ge ((sWaitc 5).mem.read 0x80000000 4) 1 = true)
    ∧ answerable (sWaitc 0) = true ∧ Roomy (sWaitc 0) ∧ Undirtied (sWaitc 0) 0 ∧ (here (sWaitc 0)).waits.map (fun w => w.wait) = [.request (req (sWaitc 0)).id] ∧ waitcCond false .ge ((sWaitc 0).mem.read 0x80000000 4) 1 = false :=
  ⟨fun _ => undirtied_of (by decide +kernel), by decide +kernel,
    ⟨by decide +kernel, roomy_of (by decide +kernel), undirtied_of (by decide +kernel), by decide +kernel⟩,
    ⟨by decide +kernel, roomy_of (by decide +kernel), undirtied_of (by decide +kernel), by decide +kernel⟩,
    by decide +kernel, roomy_of (by decide +kernel), undirtied_of (by decide +kernel), by decide +kernel⟩

/-- A stepped fibre with a handler; comparators 7 and 11 watch the next unit, a load of the data page; a quarter that is stopped; a sample of quarter 0 that is due. -/
def sStep : State := (sHandler 0x50001 0x40000000).updFibre k0 fun f => { f with stepDue := true }
def sWatched : State :=
  (((((({ placed 0xA0 (mem 8 6 15 0 0) [(6, 0x40000000)] with serial := 8 } : State).setReg 0x310070 0x10000).setReg 0x310078 0x11101).setReg 0x310068 0x100).setReg 0x3100A8 0x100).setReg 0x3100B0 0x40000000).setReg 0x3100B8 0x11151
def sStop : State := s1.updQuarter 0 fun q => { q with stopped := true }
def sSample (cyc : DWord) : State := { (s1.updQuarter 0 fun q => { q with dqctl := 8 }).setReg 0x320000 1 with cyc := Vector.replicate 4 cyc }
theorem witness_DebugEventsAct :
    (s1.fibre? k0 = some (here s1) ∧ s1.stepReady (here s1) = false)
    ∧ (UncountedFrame sStep k0 0x40000000 ∧ sStep.fibre? k0 = some (here sStep) ∧ sStep.stepReady (here sStep) = true ∧ (sStep.reg 0xB010).toNat % 2 = 1 ∧ sStep.handlerFrame k0 = 0x40000000
      ∧ (here sStep).rfaults = [] ∧ sStep.frameOk k0 0x40000000 = true)
    ∧ ((sWatched.quarter 0).stopped = false ∧ sWatched.actOf 0 7 = 1 ∧ (sWatched.codeHit? 0 7).isSome = true ∧ sWatched.actOf 0 6 = 1 ∧ (sWatched.codeHit? 0 6).isNone = true
      ∧ sWatched.actOf 0 11 = 1 ∧ (sWatched.dataHit? 0 11).isSome = true ∧ sWatched.actOf 0 10 = 1 ∧ (sWatched.dataHit? 0 10).isNone = true)
    ∧ ((sStop.quarter 0).stopped = true ∧ (s1.quarter 0).stopped = false)
    ∧ (sSample 1024).sampleDue 0 = true ∧ (sSample 1023).sampleDue 0 = false := by
  refine ⟨by decide +kernel, ⟨uncounted_of (by decide +kernel), ?_⟩, ?_⟩ <;> and_intros <;> decide +kernel

/-- Peer 0 of the fabric, whose ports are up, exports the data page through window 4095 to peers 0 to 1023; a cart of number 255, a channel with a packet, and a packet that has been delivered. A port may be held, or a plane under way to another port. -/
def winPage : BitVec 256 := BitVec.ofNat 256 (leNat (leBytes 8 0x40000000 ++ leBytes 8 0x10000 ++ leBytes 2 0 ++ leBytes 2 1023 ++ leBytes 1 7))
def elem0 : CartElem := ⟨7, 1, 4095, 0, 2, 0x40000000⟩
def hdr0 : CartHdr := ⟨0, false, 3, 0, 1023, 0, 0, 0⟩
def cart0 : Cart := ⟨0, false, 5, 3, 0, [⟨elem0, k0, 0, 0, 0, 0⟩]⟩
def chan0 : Chan := ⟨0, false, 5, 3, 0, [.packet hdr0 [⟨elem0, k0, 0, 0, 0, 0⟩]], []⟩
def unacked0 : Unacked := ⟨0, false, 5, 3, 0, true, [], 0⟩
def sFabric (now : Nat) (held : Bool) : State :=
  { (s1.setReg 0xC000 0x400).setReg 0x9038 1 with
    now := now, wins := [(4095, ⟨winPage, true, 1, 0⟩)], ports := (List.range 18).map fun p => (p, ⟨true, false, 0, 0, 0, 0, held, 0, 0, false⟩)
    carts := [(255, cart0)], chans := [chan0], unacked := [unacked0] }
def sHostPage (waits : Bool) : State := { sFabric 0 false with pages := [(0x8000, ⟨true, false, false, false, false, [], if waits then [] else [0x80000000 / 64]⟩)] }
theorem witness_PacketsTravel :
    ((sFabric 0 false).carts.get? (0 * 256 + 255) = some cart0 ∧ 0 < (sFabric 0 false).cartAge 0)
    ∧ ({ sFabric 0 false with remaps := [(3, 4)] } : State).planeStalled 3 = true
    ∧ (sFabric ((sFabric 0 false).cartAge 0) false).now = (sFabric ((sFabric 0 false).cartAge 0) false).cartAge 0
    ∧ ((sFabric 0 false).chan? 0 false 5 3 = some chan0 ∧ (sFabric 0 false).planeUp 3 4 = true ∧ (sFabric 0 false).planeStalled 3 = false ∧ (sFabric 0 false).lost 5 = false)
    ∧ (sFabric 0 false).unacked.find? (fun x => decide (x.die = 0 ∧ x.group = false ∧ x.peer = 5 ∧ x.plane = 3) && x.delivered) = some unacked0
    ∧ ((sFabric 0 false).ownPeer = some 0 ∧ (sFabric 0 false).lost 1023 = false ∧ ((sFabric 0 false).port ((sFabric 0 false).planePort 3)).up = true
      ∧ (sFabric 0 false).recvSeq.get? (((((1023 * 4 + 0) * 16 + 3) * 2) + 0) * 4096 + 0) = none ∧ elem0.op = 0#4 ∧ elem0.sz.toNat ≤ 2
      ∧ (match (sFabric 0 false).exportCheck 1023 0 4095 1 0x40000000 4 1 with
        | .ok loc => decide (loc = 0x80000000)
        | .error _ => false) = true)
    ∧ ((sFabric 0 false).outbox = [] ∧ (sFabric 0 false).planeUp (bits 0x4000FFFC 11 8) 1 = true ∧ (sFabric 0 true).planeUp (bits 0x4000FFFC 11 8) 1 = false)
    ∧ (match (sFabric 0 false).exportCheck 1023 0 4095 1 0x4000FFFC 4 0, (sFabric 0 false).exportCheck 1023 0 4095 2 0x40000000 4 0, (sFabric 0 false).exportCheck 1023 0 4095 1 0x4000FFFD 4 0 with
      | .ok loc, .error 2, .error 4 => decide (loc = 0x8000FFFC) && (let w := (sFabric 0 false).exportWalk 4095 0x4000FFFC (.ok loc)
          !w.pageHeld loc && !w.lineHeld loc 0 && w.chanApplied 1023 0x4000FFFC loc 4 && w.hostAnswered loc 4 && !w.poisoned loc 4)
      | _, _, _ => false) = true
    ∧ (sHostPage true).hostAnswered 0x80000000 4 = false ∧ (sHostPage false).hostAnswered 0x80000000 4 = true := by and_intros <;> decide +kernel

/-- The steward has enabled the HDM range: a page in device bias, a protected one, one that turns to host bias, one that the host has not answered for, one in host bias, and one that turns back at once. -/
def sPages : State :=
  { s1 with booted := true, pages := [(1, ⟨false, false, false, false, false, [], []⟩), (2, ⟨false, true, false, false, false, [], []⟩), (3, ⟨false, false, true, true, false, [], []⟩),
    (4, ⟨false, false, true, true, true, [0x1000], []⟩), (5, ⟨true, false, false, false, false, [], []⟩), (6, ⟨false, false, true, false, false, [], []⟩)] }
/-- A write to a page in device bias stands in an apply queue, and a host access to page 3 is held. -/
def sPagesBusy : State :=
  { sPages with aq := [⟨homeDie 0x30000, .host, 3, 0x30000, 4, .store [1, 2, 3, 4], none, 0, 1, [], false, none, 0, false⟩], hostHeld := [⟨0x30000, 4, some [1, 2, 3, 4]⟩] }
theorem witness_HostAccesses : (s1.hostReach 0x10000 4 = false ∧ sPages.hostReach (hdmLimit - 3) 4 = false ∧ sPages.hostReach (hdmLimit - 4) 4 = true)
    ∧ (∀ i < lineCount 0x10000 4, s1.slotBusy (0x10000 + 256 * i) = false)
    ∧ (isHost hostBase = true ∧ sPages.hostReach hostBase 4 = true ∧ sPages.mem.wf = true ∧ (List.range (lineCount hostBase 4)).all (fun j => !sPages.sliceStops (hostBase + 256 * j)) = true)
    ∧ (sPages.lines.length < 8192 ∧ lineCount hostBase 4 = 1 ∧ sPages.hostBias 0x50000 = true ∧ (sPages.page 0x50000).prot = false ∧ (sPages.page 0x50000).flipping = false)
    ∧ (isHost (dramLimit - 3) = false ∧ dramLimit < (dramLimit - 3) + 4 ∧ sPages.hostReach (dramLimit - 3) 4 = true)
    ∧ (isHost 0x20000 = false ∧ (sPages.page 0x20000).prot = true ∧ (sPages.page 0x30000).flipping = true ∧ (sPages.page 0x30000).prot = false)
    ∧ (isHost 0x10000 = false ∧ 0x10000 + 4 ≤ dramLimit ∧ (sPages.page 0x10000).prot = false ∧ (sPages.page 0x10000).flipping = false ∧ sPages.hostBias 0x10000 = false)
    ∧ pageParts 0x1FFFE 4 = [(0, 2), (2, 2)]
    ∧ ((sPages.pages.getD 3 PageAttr.init).flipping = true ∧ (sPages.pages.getD 3 PageAttr.init).waitHost = false ∧ sPages.pageWrites 3 false = false
      ∧ (sPages.pages.getD 3 PageAttr.init).want ≠ (sPages.pages.getD 3 PageAttr.init).hostBias ∧ ∀ h ∈ sPages.hostHeld, h.addr / 65536 ≠ 3)
    ∧ ((sPages.pages.getD 6 PageAttr.init).flipping = true ∧ sPages.pageWrites 6 false = false ∧ (sPages.pages.getD 6 PageAttr.init).want = (sPages.pages.getD 6 PageAttr.init).hostBias
      ∧ sPages.inWindow (6 * 65536) 65536 = false)
    ∧ ((sPages.pages.getD 4 PageAttr.init).waitHost = true ∧ (sPages.pages.getD 1 PageAttr.init).flipping = false ∧ sPagesBusy.pageWrites 3 false = true)
    ∧ (s1.strikable (hdmLimit - 1) = true ∧ s1.strikable hdmLimit = false) := by
  and_intros <;> decide +kernel

/-- Slot 63 of the launch window holds a launch of 32 fibres with the smallest landing area, and COMMIT; tenancy 0 owns the slot, or does not, or is being reset. -/
def record63 : List Byte := leBytes 8 0x10000 ++ leBytes 12 0 ++ leBytes 2 32 ++ leBytes 34 0 ++ leBytes 8 1024 ++ leBytes 63 0 ++ [1]
def sCommitted (own : DWord) : State :=
  { (((s1.setReg 0x8000 0x100001).setReg 0x9000 own).setReg 0x9008 0x100).setReg 0x9038 1 with
    staleSlots := [63], mem := s1.mem.writeBytes 0x101F80 record63 }
def launch0 : LaunchRec := { launchRecOf record63 with dep0 := 0x40000000, dep1 := 0x40000000 }
/-- A pending launch, whose dependences hold or not; a context with a parish left to place, or with none; and a thief that asks. -/
def pending0 (sat : Bool) : Pending := ⟨5, 63, 0, launch0, record63, [], sat, sat, View.init⟩
def sPlace (un : List (Nat × Nat)) (sat : Bool) (steal : List (Nat × Nat × Nat)) : State :=
  { (s1.setReg 0x9038 1).updCtx 0 fun x => { x with unplaced := un } with
    steal := steal, pending := [pending0 sat] }
def sToPlace : State := sPlace [(3, 0)] false []
def sToStart : State := sPlace [] true []
def sDry : State := sPlace [(3, 1)] false []
def sAsked : State := sPlace [(3, 1)] false [(0, 1, 0)]
def sAskedPending : State := sPlace [] true [(1, 0, 5)]
/-- A committed slot, and the same whose record preloads one descriptor from the data page, which turns or not. -/
def sCommit : State := sCommitted (1 <<< 63)
def sPreload (turns : Bool) : State :=
  let s : State := { sCommit with mem := (sCommit.mem.writeBytes (0x101F80 + 0x20) (leBytes 8 0x40000000)).writeBytes (0x101F80 + 0x28) [1] }
  { s with pages := if turns then [(0x8000, ⟨false, false, true, true, false, [], []⟩)] else [] }
def recordOf (s : State) : List Byte := s.mem.readBytes 0x101F80 128
theorem witness_LaunchesStart_commit :
    (slotAddr sCommit 63 = 0x101F80 ∧ sCommit.staleSlots = [63] ∧ (sCommit.reg 0x8000).getLsbD 0 = true ∧ sCommit.mem.get (0x101F80 + 127) = 1#8 ∧ sCommit.slotReset 63 = false
      ∧ sCommit.refusal 63 (recordOf sCommit) = none ∧ (sCommit.preloadLines (launchRecOf (recordOf sCommit))).any sCommit.inFlip = false)
    ∧ (∀ b, ((sPreload b).preloadLines (launchRecOf (recordOf (sPreload b)))).any (sPreload b).inFlip = b ∧ (sPreload b).slotReset 63 = false ∧ (sPreload b).mem.get (0x101F80 + 127) = 1#8)
    ∧ (sCommit.setReg 0xF000 1).slotReset 63 = true
    ∧ (sCommitted 0).refusal 63 (recordOf (sCommitted 0)) = some 9 ∧ (s1.reg 0x8000).getLsbD 0 = false ∧ (s1.reg 0x8000).getLsbD 1 = false
    ∧ ((s1.setReg 0x8000 2).reg 0x8000).getLsbD 1 = true
    ∧ ((sPlace [] false []).pending.map fun p => (p.order, p.lrec.dep1)) = [(5, 0x40000000)] ∧ (((sPlace [] false []).depRead 0 0x40000000).map fun y => y.2.1) = some 0
    ∧ ((sPlace [] false []).packageLoc? 0 0x40000000) = some 0x80000000 := by
  and_intros <;> decide +kernel
theorem witness_LaunchesStart :
    ({ s1 with frozen := [0] } : State).frozen ≠ []
    ∧ ((sToPlace.current 0).any (fun x => decide (x.1.ten = 0 ∧ x.1.hh = 1 ∧ x.1.nfib = 32 ∧ x.2 = ([(3, 0)], 0))) = true ∧ sToPlace.headLaunch 0 = some (0, 0, some 0) ∧ sToPlace.frozen = [] ∧ sToPlace.loans = []
      ∧ nextParish [(3, 0)] 0 = some 3 ∧ ((sToPlace.findPlace 0 0 1 fun c _ => sToPlace.offer c (demand (sToPlace.ctx 0).lrec)).map fun p => (p.1, p.2.length)) = some (0, 1))
    ∧ ((sToStart.current 0).any (fun x => decide (x.1.ten = 0 ∧ x.1.hh = 1 ∧ x.1.nfib = 32 ∧ x.2 = ([(0, 0)], 5))) = true ∧ sToStart.headLaunch 0 = some (0, 5, none) ∧ sToStart.freeCtx = some 1
      ∧ sToStart.pending.find? (fun p => decide (p.order = 5)) = some (pending0 true) ∧ nextParish [(0, 0)] 0 = some 0
      ∧ ((sToStart.findPlace 0 0 1 fun c _ => sToStart.offer c (demand launch0)).map fun p => (p.1, p.2.length)) = some (0, 1))
    ∧ ((sDry.current 0).any (fun x => sDry.thiefFor 0 x.1 x.2.1) = true ∧ mostUnplaced [(3, 1)] = some 1 ∧ sDry.numbered 0 = true ∧ sDry.steal = [] ∧ sDry.frozen = [])
    ∧ (sAsked.steal.find? (fun p => decide (p.1 = 0)) = some (0, 1, 0) ∧ (sAsked.ctxs.find? (fun e => decide (e.2.order = 0 ∧ e.2.st = 1))).map Prod.fst = some 0
      ∧ sAsked.givenUp 1 0 [(3, 1)] = some 3)
    ∧ (sAskedPending.steal.find? (fun p => decide (p.1 = 1)) = some (1, 0, 5) ∧ (sAskedPending.ctxs.find? (fun e => decide (e.2.order = 5 ∧ e.2.st = 1))).isNone = true
      ∧ sAskedPending.givenUp 0 5 (sAskedPending.owners (pending0 true)) = some 0 ∧ (sAskedPending.owners (pending0 true)).map Prod.fst = List.range launch0.parishes) := by
  and_intros <;> decide +kernel

/-- A household that has exited, without fibres; a launch with every parish retired, whose DONE names a word or none; a context that halts, and one that is free. -/
def sExited : State := { s1.updShare 0 (fun h => { h with exited := true }) with fibres := [], flocks := [] }
def sDone (done : DWord) : State := { s1.updCtx 0 (fun x => { x with retired := 1, lrec := { x.lrec with done := done } }) with fibres := [], flocks := [], shares := [] }
def sFree (st : Nat) : State := s1.updCtx 0 fun x => { x with st := st }
def sHalting : State := s1.updCtx 0 fun x => { x with st := 6, halting := some ⟨[⟨16, 0x28, 0#64, none, 0⟩], [], []⟩ }
theorem witness_LaunchesEnd : (s1.retireOk 0 0 = false ∧ sExited.retireOk 0 0 = true)
    ∧ (s1.ctxs.get? 0).any (fun x => decide (x.retired ≠ x.lrec.parishes)) = true
    ∧ ([0#64, 0x40000000#64].all fun d => ((sDone d).ctxs.get? 0).any (fun x => decide (x.st ≠ 6 ∧ x.unplaced = [] ∧ x.retired = x.lrec.parishes ∧ x.lrec.done = d)) && (sDone d).carts.isEmpty && (sDone d).unacked.isEmpty
      && (sDone d).aq.isEmpty && (sDone d).rfqWait.isEmpty) = true
    ∧ ({ sDone 0 with rfqWait := [(0, [])] } : State).rfqWait = [(0, [])] := by
  and_intros <;> decide +kernel
theorem witness_LaunchesEnd_done : ((sDone 0x40000000).packageLoc? 0 0x40000000 = some 0x80000000 ∧ (sDone 0x40000000).pageHeld 0x80000000 = false ∧ s1.mem.wf = true ∧ s1.sliceStops 0x80000000 = false ∧ 0x80000000 % 8 = 0
      ∧ (s1.reg (0x9018 + 0x40 * 0)).getLsbD 0 = false ∧ ∀ d < 4, (s1.reg (0x320000 + 0x20 * d)).getLsbD 0 = false)
    ∧ ({ sDone 0x40000000 with pages := [(0x8000, ⟨false, false, true, true, false, [], []⟩)] } : State).pageHeld 0x80000000 = true
    ∧ (∀ n ∈ [0, 1, 2, 6], ((sFree n).ctxs.get? 0).any (fun x => decide (x.st = n ∧ x.halting = none)) = true) ∧ (s1.ctx 0).halting = none
    ∧ (sHalting.ctx 0).halting.any (fun h => decide (h.infos ≠ [])) = true ∧ sHalting.landHeld 0 = false := by
  and_intros <;> decide +kernel

/-- XINV is under way, a TROWS that another tenancy's row stands against, a tenancy that is being reset and has nothing busy; and a write by an address of the range still on its way. -/
def sXinv : State := s1.setReg 0xA008 0x40000001
def sReset : State := { s1.setReg 0xF038 1 with ctxs := [] }
def sBusy0 (s : State) : State := s.updFibre k0 fun f => { f with wb := [oldStore] }
theorem witness_RegistersAct : ((sXinv.reg 0xA008).getLsbD 0 = true ∧ (sXinv.drainTenancy 0).reg 0xA008 = sXinv.reg 0xA008
      ∧ (sXinv.drainTenancy 0).invalidated 0 (xinvRange (sXinv.reg 0xA008).toNat) = true) ∧ (s1.reg 0xA008).getLsbD 0 = false
    ∧ (((sBusy0 sXinv).reg 0xA008).getLsbD 0 = true ∧ ((sBusy0 sXinv).drainTenancy 0).reg 0xA008 = (sBusy0 sXinv).reg 0xA008
      ∧ ((sBusy0 sXinv).drainTenancy 0).invalidated 0 (xinvRange (sXinv.reg 0xA008).toNat) = false)
    ∧ ((∀ u < 8, u ≠ 0 → (s1.reg (0x9038 + 0x40 * u)).toNat % 2 ^ 32 &&& 1 = 0) ∧ ∃ u < 8, u ≠ 7 ∧ (s1.reg (0x9038 + 0x40 * u)).toNat % 2 ^ 32 &&& 1 ≠ 0)
    ∧ ((s1.ctx 511).st = 0 ∧ (s1.ctx 0).st = 1 ∧ (s1.ctx 0).halting = none)
    ∧ ((sReset.reg 0xF038).getLsbD 0 = true ∧ sReset.busyCtxs 7 = [] ∧ (let y := (sReset.resetSteps 7).drainTenancy 7
      y.importsApplied && y.invalidated 7 (0, 2 ^ 52)) = true)
    ∧ ((s1.reg 0xF000).getLsbD 0 = false ∧ s1.busyCtxs 0 ≠ []) ∧ regKind 0x7FF8 = .none := by
  and_intros <;> decide +kernel

/-- The clocks have stopped, without and with an outside event that needs them. -/
def sCurfew (q : List Pick) : State := { s1 with curfew := true, agenda := q }
def sBooted : State := { s1 with booted := true }
/-- Clocks that have stopped; power past the limit, within it, and between; sensors at 109, 110, 95 and below; a map of slice 63. -/
theorem witness_PortClocksAndSlices : ((sCurfew []).curfew = true ∧ (sCurfew []).agenda = [] ∧ actsStopped (.linkTrained 3) = false
      ∧ (sCurfew [.event (.linkTrained 3)]).agenda = [.event (.linkTrained 3)])
    ∧ (sBooted.booted = true ∧ s1.booted = false ∧ (sBooted.reg 0xF100).toNat / 2 ^ 32 % 2 ^ 16 = 2400)
    ∧ ((2400 < 2401 ∧ (∃ x ∈ [94, 95], 95 ≤ x) ∧ ∀ x ∈ [94, 109], x < 110) ∧ (2279 ≤ 2400 ∧ 100 * 2279 < 95 * 2400 ∧ ∀ x ∈ [89], x < 90) ∧ (95 * 2400 ≤ 100 * 2280 ∧ ∀ x ∈ [94], x < 95) ∧ (∃ x ∈ [90], 90 ≤ x)
      ∧ (∃ x ∈ [94, 110], 110 ≤ x) ∧ 109 < 110 ∧ 110 ≤ 110)
    ∧ (∀ g ∈ s1.grace, g.1 ≠ 3) ∧ mapOk (s1.smapOf 3) (List.range 64) 63 = false ∧ mapOk (s1.smapOf 3) (List.range 63 ++ [62]) 63 = true
    ∧ (∀ e ∈ s1.lines, e.2.version + 1 < 2 ^ 48) ∧ s1.floor (3 * 64 + 63) < 2 ^ 48 := by
  and_intros <;> decide +kernel

/-- A steward that has booted and one that has not; an image without the root key's signature. (`Config.rootKeyDigest` and the device's own key are constants without a value in Lean, so that no image or wrapped key can be shown here to be taken: what is asked of them is asked of values that only the device has.) -/
theorem witness_ResetAndAttestation : (s1.booted = false ∧ s1.bootFailed = false) ∧ (sBooted.booted = true ∧ 3 ≤ 7 ∧ 7 < 8 ∧ 2 < 3 ∧ 63 < 64 ∧ (List.replicate 32 (0 : Byte)).length = 32 ∧ 8 ≤ 8)
    ∧ ecdsaVerify [] (sha384 []) [] = false := by decide +kernel

/-- Port 17 expects flit 0xFFF, has sent 5 flits that are not acknowledged and has sent flits again 14 times, or 15 times; a peer has hinted at time 0; and its receive buffer has room, or not. -/
def sLink (replays now : Nat) : State := { s1 with ports := [(17, ⟨true, false, 0xFFF, 2, 5, replays, false, 0, 0, false⟩)], hot := [(3, 9, 17, 0)], now := now }
def flitAt (crc : Bool) : Flit := ⟨0xFFF, crc, some 0, some 9⟩
theorem witness_LinksFollowR266 : (((sLink 14 0).port 17).up = true ∧ ((sLink 14 0).port 17).rxSeq = 0xFFF#12 ∧ (flitAt true).seq = 0xFFF#12 ∧ (flitAt true).crcOk = true ∧ (flitAt false).crcOk = false)
    ∧ (0 < (((sLink 14 0).port 17).txSeq - 0xFFE#12).toNat ∧ (((sLink 14 0).port 17).txSeq - 0xFFE#12).toNat < ((sLink 14 0).port 17).unacked)
    ∧ ((((sLink 14 0).port 17).txSeq - 0xFFD#12).toNat = ((sLink 14 0).port 17).unacked ∧ ((sLink 14 0).port 17).replays < 15 ∧ 15 ≤ ((sLink 15 0).port 17).replays)
    ∧ (((sLink 0 14000).port 17).lastFlit + 14000 ≤ (sLink 0 14000).now ∧ (sLink 0 13999).now < ((sLink 0 13999).port 17).lastFlit + 14000 ∧ (s1.port 17).up = false)
    ∧ (∃ h ∈ (sLink 0 28000).hot, h.2.1 = 9 ∧ h.2.2.1 = 17 ∧ h.2.2.2 + 28000 ≤ (sLink 0 28000).now)
    ∧ (∀ h ∈ (sLink 0 27999).hot, h.2.1 = 9 → h.2.2.1 = 17 → (sLink 0 27999).now < h.2.2.2 + 28000) := by
  and_intros <;> decide +kernel

/-- A packet to peer 5 is not answered; every plane's port is up, and each has reported the peer unreachable, or none has; a probe left at time 0. -/
def sPeers (now : Nat) (reported : Bool) (probe : Option Nat) : State :=
  { s1 with
    chans := [{ chan0 with items := [], flight := chan0.items }], unacked := [unacked0], now := now, ports := (List.range 18).map fun p => (p, ⟨true, false, 0, 0, 0, 0, false, 0, 0, false⟩)
    lostOn := if reported then (List.range 18).map fun p => (5, p) else []
    probes := match probe with
      | some b => [(5, b)]
      | none => [] }
def sLost : State := s1.setReg 0xC0B8 (1 <<< 63)
theorem witness_PlanesAndPeers : ((sPeers 0 false none).planeBusy 15 = false ∧ (sPeers 0 false none).planeBusy 3 = true ∧ ((sPeers 0 false none).port ((sPeers 0 false none).planePort 3)).up = true
      ∧ (({ sPeers 0 false none with ports := [] } : State).port (({ sPeers 0 false none with ports := [] } : State).planePort 3)).up = false)
    ∧ ((sPeers 112000 false none).lost 5 = false ∧ (sPeers 112000 false none).probes.get? 5 = none ∧ ∃ u ∈ (sPeers 112000 false none).unacked, u.group = false ∧ u.peer = 5 ∧ u.born + 112000 ≤ (sPeers 112000 false none).now)
    ∧ (sPeers 0 false (some 0)).probes.get? 5 ≠ none
    ∧ ((∀ u ∈ (sPeers 111999 false none).unacked, u.peer = 5 → (sPeers 111999 false none).now < u.born + 112000) ∧ (sPeers 111999 false none).reqs = [] ∧ (sPeers 111999 false none).eops = [])
    ∧ ((∀ f ∈ (sPeers 0 true none).fibres, f.parkedAt ≠ some 5) ∧ (sPeers 0 true none).lost 5 = false
      ∧ (∃ i < 16, ((sPeers 0 true none).port ((sPeers 0 true none).planePort i)).up = true) ∧ ∀ i < 16, (5, (sPeers 0 true none).planePort i) ∈ (sPeers 0 true none).lostOn)
    ∧ ((sPeers 28000 false (some 0)).probes.get? 5 = some 0 ∧ 0 + 28000 ≤ (sPeers 28000 false (some 0)).now ∧ (sPeers 27999 false (some 0)).now < 0 + 28000
      ∧ ∃ i < 16, ((sPeers 27999 false (some 0)).port ((sPeers 27999 false (some 0)).planePort i)).up = true ∧ (5, (sPeers 27999 false (some 0)).planePort i) ∉ (sPeers 27999 false (some 0)).lostOn)
    ∧ sLost.lost 1023 = true ∧ s1.lost 1023 = false := by
  and_intros <;> decide +kernel

def decodesTo (x : Except DecodeErr Instr) (i : Instr) : Bool :=
  match x with
  | .ok j => decide (j = i)
  | .error _ => false
/-- An IADD with C, U, a guard and four operands, and its word. -/
theorem witness_DecodingAndEncodingAgree : (Instr.iadd ⟨true, true, .on 3 true⟩ 5 6 7 .b32).isWord = true ∧ (Instr.iadd ⟨true, true, .on 3 true⟩ 5 6 7 .b32).wf = true
    ∧ decodesTo (decode 0xCE00531C) (.iadd ⟨true, true, .on 3 true⟩ 5 6 7 .b32) = true := by decide

/-- A flock in the middle of a chain; outside events; an event of the machine's own; a flock to form; nothing at all; and a chain to begin. -/
def sMid : State := { s1 with flocks := [{ fetchFlock with snap := [here s1] }] }
def sAgenda (i : Instr) : State := { s1 with agenda := [.event i] }
def fetched (s : State) : Bool :=
  match s.fetch 0 (s.ctx 0).prot 0x10000 with
  | .ok w => isOk (decode w)
  | .error _ => false
theorem witness_StepRunsWordsAndEvents :
    (sMid.curfew = false ∧ sMid.midFlock? = some ({ fetchFlock with snap := [here s1] }, k0) ∧ ({ sMid with cur := 0 } : State).comparator? 0 = none ∧ fetched { sMid with cur := 0 } = true)
    ∧ (s1.curfew = false ∧ s1.midFlock? = none ∧ (sAgenda (.linkTrained 3)).midFlock? = none ∧ (Instr.linkTrained 3).isWord = false ∧ (Instr.nop h0).isWord = true)
    ∧ (s1.agenda = [] ∧ s1.event? = none ∧ s1.formable? = none ∧ s1.flocks = [fetchFlock] ∧ fetchFlock.members = [k0] ∧ s1.heldMembers fetchFlock = [] ∧ (s1.quarter 0).stopped = false ∧ s1.codeHeld fetchFlock = false
      ∧ (match s1.chainCheck fetchFlock with
        | .ok us =>
          let x := ({ s1 with cur := 0 } : State).setFlock { fetchFlock with split := splitAt (s1.snapOf fetchFlock) [] us }
          decide (x.comparator? 0 = none) && fetched x
        | .error _ => false) = true)
    ∧ sLoad.midFlock? = none ∧ sLoad.agenda = [] ∧ sLoad.event?.isSome = true
    ∧ (sReady.midFlock? = none ∧ sReady.agenda = [] ∧ sReady.event? = none ∧ sReady.formable? = some 0)
    ∧ State.reset.midFlock? = none ∧ State.reset.agenda = [] ∧ State.reset.event? = none ∧ State.reset.formable? = none ∧ State.reset.issue?.isNone = true := by decide +kernel

/-- A state without a stray host access, in canonical form, that steps; it holds an ended fibre with a write on its way, and an answer that is owed. -/
def sOwing : State :=
  { sQueued with
    fibres := sQueued.fibres ++ [{ here sStored with key := ⟨0, 0, 9, 0⟩, res := .ended }]
    acks := [⟨5, 3, 0, sQueued.aq.map fun w => w.wid, []⟩] }
theorem witness_StepGoesOn : ¬ StrayHostAccess sOwing := by
  rintro ⟨⟩
theorem witness_StepsKeepInvariants : MemCanonical sOwing ∧ NoIdleEnded sOwing ∧ NoOverdueAck sOwing ∧ ((sOwing.fibres.any fun f => decide (f.res = .ended)) = true ∧ sOwing.acks ≠ [] ∧ (match step sOwing with
    | .next _ => true
    | _ => false) = true) := by
  unfold MemCanonical NoIdleEnded NoOverdueAck
  and_intros <;> decide +kernel

end Sys2Proof.Tests
end

section
/-! PROOF of O60: every step keeps memory canonical, and leaves no debt.

Two facts go through every operation of the model: memory stays canonical, and none but the four instructions of `movesClocks`
stops or starts the clocks. `Steady s₀ s` says both of the way from `s₀` to `s`. For each operation `f` of the model, `Steady.f`
says that `f` leads from a steady state to a steady state; its proof has the shape of `f`, the operations that it applies one
after the other, and a case for each branch.

What is owed is settled by the tick. While the clocks run, a tick drops the idle ended fibres and sends the answers that are
due, and what it does after that changes neither. While they stand still, neither the tick nor the few instructions that act
then change what is owed. -/

-- One theorem after another: with all of them in flight at once, their threads take too much memory.
set_option Elab.async false

namespace Sys2Proof.Machine
open Sys2Proof.Safety

/-! ### Steady states, and the shapes of the operations -/

/-- From `s₀` to `t` memory stays canonical, and the clocks go on, or stand still, as they did. -/
structure Steady (s₀ t : State) : Prop where
  mem : s₀.mem.wf = true → t.mem.wf = true
  clocks : t.curfew = s₀.curfew

/-- The state that an operation answers, where it answers one, is steady. -/
def SteadyOpt (s₀ : State) (o : Option State) : Prop := ∀ t, o = some t → Steady s₀ t

variable {s₀ s t : State}

theorem Steady.refl (s : State) : Steady s s := ⟨id, rfl⟩

/-- An update of memory that keeps it canonical. -/
theorem Steady.setMem (h : Steady s₀ s) (hm : s.mem.wf = true → t.mem.wf = true) (hc : t.curfew = s.curfew := by rfl) : Steady s₀ t :=
  ⟨fun w => hm (h.mem w), hc.trans h.clocks⟩

/-- An update of any fields but `mem` and `curfew`. It names the constructor's fields so that it unifies with every `{ s with … }`. -/
theorem Steady.upd {full poison peerCode fibres flocks reqs aq hist kn shares sgen saved remains loans quarters tiles eops fetches lines hbits l1 predict floors
    pages smap smapGen grace frozen leafCnt staleSlots hostCommits pending ctxs steal stolen regs wins carts chans unacked rfqWait hostWids hostHeld
    acks outbox remaps openTags imports probes lostOn ports hot recvSeq monitors stopSeq traceSeq dbgCount stallOut lastUnit keys hwm keks meas
    reportSeq boots booted bootFailed tapIr saddr boundary now cyc out agenda leaving cur pace lag serial}
    (h : Steady s₀ s) : Steady s₀ ⟨s.mem, full, poison, peerCode, fibres, flocks, reqs, aq, hist, kn, shares, sgen, saved, remains, loans, quarters, tiles, eops, fetches, lines,
      hbits, l1, predict, floors, pages, smap, smapGen, grace, frozen, leafCnt, staleSlots, hostCommits, pending, ctxs, steal, stolen, regs, wins,
      carts, chans, unacked, rfqWait, hostWids, hostHeld, acks, outbox, remaps, openTags, imports, probes, lostOn, ports, hot, recvSeq, monitors,
      stopSeq, traceSeq, dbgCount, stallOut, lastUnit, keys, hwm, keks, meas, reportSeq, boots, booted, bootFailed, s.curfew, tapIr, saddr, boundary,
      now, cyc, out, agenda, leaving, cur, pace, lag, serial⟩ :=
  ⟨h.mem, h.clocks⟩

theorem Steady.ite {c : Prop} [Decidable c] (hs : Steady s₀ s) (ht : Steady s₀ t) : Steady s₀ (if c then s else t) := by
  split
  · exact hs
  · exact ht

/-- A fold whose accumulator carries a state. -/
theorem Steady.foldlOf {α β : Type} (p : β → State) {F : β → α → β} {l : List α} {b : β} (h : Steady s₀ (p b))
    (hF : ∀ b a, Steady s₀ (p b) → Steady s₀ (p (F b a))) : Steady s₀ (p (l.foldl F b)) := by
  induction l generalizing b with
  | nil => exact h
  | cons a l ih => exact ih (hF b a h)

theorem Steady.foldl {α : Type} {F : State → α → State} {l : List α} (h : Steady s₀ s) (hF : ∀ s a, Steady s₀ s → Steady s₀ (F s a)) :
    Steady s₀ (l.foldl F s) :=
  .foldlOf id h hF

/-- The state of an operation that answers a result as well, once the pair is taken apart. -/
theorem Steady.fst {α : Type} {p : State × α} {a : α} (h : Steady s₀ p.1) (he : p = (t, a)) : Steady s₀ t := by
  rw [he] at h
  exact h

theorem Steady.getD {o : Option State} (ho : SteadyOpt s₀ o) (h : Steady s₀ s) : Steady s₀ (o.getD s) := by
  cases o with
  | none => exact h
  | some t => exact ho t rfl

theorem SteadyOpt.some (h : Steady s₀ s) : SteadyOpt s₀ (Option.some s) := fun _ he => Option.some.inj he ▸ h

theorem SteadyOpt.none : SteadyOpt s₀ Option.none := nofun

theorem SteadyOpt.ite {c : Prop} [Decidable c] {o p : Option State} (ho : SteadyOpt s₀ o) (hp : SteadyOpt s₀ p) : SteadyOpt s₀ (if c then o else p) := by
  split
  · exact ho
  · exact hp

theorem SteadyOpt.map {α : Type} {f : α → State} {o : Option α} (hf : ∀ a, o = Option.some a → Steady s₀ (f a)) : SteadyOpt s₀ (o.map f) := by
  cases o with
  | none => exact .none
  | some a => exact .some (hf a rfl)

theorem SteadyOpt.bind {α : Type} {f : α → Option State} {o : Option α} (hf : ∀ a, SteadyOpt s₀ (f a)) : SteadyOpt s₀ (o.bind f) := by
  cases o with
  | none => exact .none
  | some a => exact hf a

theorem SteadyOpt.findSome? {α : Type} {f : α → Option State} {l : List α} (hf : ∀ a, SteadyOpt s₀ (f a)) : SteadyOpt s₀ (l.findSome? f) := by
  intro t ht
  obtain ⟨a, -, ha⟩ := List.exists_of_findSome?_eq_some ht
  exact hf a t ha

/-! ### Memory and tables -/

theorem Steady.setReg {off v} (h : Steady s₀ s) : Steady s₀ (s.setReg off v) := h.upd

theorem Steady.updFibre {k g} (h : Steady s₀ s) : Steady s₀ (s.updFibre k g) := h.upd

theorem Steady.dropFibre {k} (h : Steady s₀ s) : Steady s₀ (s.dropFibre k) := h.upd

theorem Steady.updReq {r g} (h : Steady s₀ s) : Steady s₀ (s.updReq r g) := h.upd

theorem Steady.dropReq {r} (h : Steady s₀ s) : Steady s₀ (s.dropReq r) := h.upd

theorem Steady.updEop {o g} (h : Steady s₀ s) : Steady s₀ (s.updEop o g) := h.upd

theorem Steady.updShare {sh g} (h : Steady s₀ s) : Steady s₀ (s.updShare sh g) := by
  unfold State.updShare
  split
  · exact h.upd
  · exact h

theorem Steady.updCtx {n g} (h : Steady s₀ s) : Steady s₀ (s.updCtx n g) := by
  unfold State.updCtx
  split
  · exact h.upd
  · exact h

theorem Steady.updQuarter {q g} (h : Steady s₀ s) : Steady s₀ (s.updQuarter q g) := h.upd

theorem Steady.setFlock {f} (h : Steady s₀ s) : Steady s₀ (s.setFlock f) := h.upd

theorem Steady.endFlock {q} (h : Steady s₀ s) : Steady s₀ (s.endFlock q) := h.upd

theorem Steady.bump (h : Steady s₀ s) : Steady s₀ s.bump := h.upd

theorem Steady.count {die ev} (h : Steady s₀ s) : Steady s₀ (s.count die ev) := h.upd

theorem Steady.emit {o} (h : Steady s₀ s) : Steady s₀ (s.emit o) := h.upd

/-! ### Halts, machine checks and lines -/

theorem Steady.halt {c i} (h : Steady s₀ s) : Steady s₀ (s.halt c i) := by
  unfold State.halt
  split
  · exact h
  · split <;> exact h.upd

theorem Steady.machineCheck {kind die slice c} (h : Steady s₀ s) : Steady s₀ (s.machineCheck kind die slice c) :=
  .ite (.foldl (.foldl h.setReg.upd fun _ _ h => h.halt) fun _ _ h => .ite h h.emit) h.setReg.halt.emit

theorem Steady.l1Drop {sh line} (h : Steady s₀ s) : Steady s₀ (s.l1Drop sh line) := h.upd

theorem Steady.l1Set {e} (h : Steady s₀ s) : Steady s₀ (s.l1Set e) := .ite h.upd h.upd

theorem Steady.recall {line keep} (h : Steady s₀ s) : Steady s₀ (s.recall line keep) := by
  unfold State.recall
  split
  · exact h
  · split
    · exact h
    · split
      · exact h.upd
      · exact .ite h.upd.l1Set h.upd.l1Drop

theorem Steady.l1Clear {p} (h : Steady s₀ s) : Steady s₀ (s.l1Clear p) := .upd (.foldl h fun _ _ h => h.recall)

theorem Steady.l1Leave {sh} (h : Steady s₀ s) : Steady s₀ (s.l1Leave sh) := .upd (.foldl h fun _ _ h => h.recall)

theorem Steady.l1Acquire {sh} (h : Steady s₀ s) : Steady s₀ (s.l1Acquire sh) := h.upd

theorem Steady.l1Room {sh} (h : Steady s₀ s) : Steady s₀ (s.l1Room sh) := by
  unfold State.l1Room
  refine .ite h ?_
  dsimp only
  split
  · exact .l1Drop (.ite h.recall h)
  · exact h

theorem Steady.l1Fill {sh line valid ro} (h : Steady s₀ s) : Steady s₀ (s.l1Fill sh line valid ro) := by
  unfold State.l1Fill
  refine .ite h ?_
  split
  · exact h.l1Set
  · exact .ite h.l1Room.l1Set h

theorem Steady.l1Load {sh p va ro bs} (h : Steady s₀ s) : Steady s₀ (s.l1Load sh p va ro bs) := by
  unfold State.l1Load
  dsimp only
  split
  · exact h.l1Fill.l1Set
  · exact h.l1Fill

theorem Steady.predictNext {k va hit} (h : Steady s₀ s) : Steady s₀ (s.predictNext k va hit) := .ite h h.upd

theorem Steady.dropLine {line} (h : Steady s₀ s) : Steady s₀ (s.dropLine line) := by
  unfold State.dropLine
  split
  · exact h
  · exact .ite h.recall.machineCheck h.recall.upd

theorem Steady.fillLine {line} (h : Steady s₀ s) : Steady s₀ (s.fillLine line) := by
  unfold State.fillLine
  refine .ite h (.upd (.ite ?_ h))
  split
  · exact h.dropLine
  · exact h

theorem Steady.writeLine {line loc n own counts} (h : Steady s₀ s) : Steady s₀ (s.writeLine line loc n own counts) := by
  unfold State.writeLine
  dsimp only
  split
  · exact .ite h.fillLine.upd.upd h.fillLine.recall.upd
  · exact .ite h.fillLine.upd h.fillLine.upd

theorem Steady.writeLines {line loc n own counts i} (h : Steady s₀ s) : Steady s₀ (s.writeLines line loc n own counts i) := by
  induction i generalizing s line with
  | zero => exact h
  | succ i ih => exact ih h.writeLine

theorem Steady.readLine {loc n own keep} (h : Steady s₀ s) : Steady s₀ (s.readLine loc n own keep) :=
  .ite h (.ite h.fillLine h.fillLine.recall.upd)

theorem Steady.grantLine {sh line} (h : Steady s₀ s) : Steady s₀ (s.grantLine sh line) := by
  unfold State.grantLine
  refine .ite h (.upd (.bump (.l1Fill (.ite h.fillLine.recall ?_))))
  split
  · exact h.fillLine.recall.recall
  · exact h.fillLine.recall

theorem Steady.leavePage {page} (h : Steady s₀ s) : Steady s₀ (s.leavePage page) := .foldl h.l1Clear fun _ _ h => h.dropLine

/-! ### The ordering machine -/

theorem Steady.learn {d stamp} (h : Steady s₀ s) : Steady s₀ (s.learn d stamp) := h.upd

theorem Steady.enterAq {d src wid loc n kind view sa grp merged} (h : Steady s₀ s) : Steady s₀ (s.enterAq d src wid loc n kind view sa grp merged) :=
  h.upd.upd

theorem Steady.learnRead {d p loc n} (h : Steady s₀ s) : Steady s₀ (s.learnRead d p loc n) := .foldl h fun _ _ h => h.learn

theorem Steady.ring {loc n} (h : Steady s₀ s) : Steady s₀ (s.ring loc n) := by
  unfold State.ring
  refine .foldl h.upd fun _ _ h => ?_
  split
  · exact h.learnRead
  · exact h

theorem Steady.applyFrom {own counts stamp wid loc bs view} (h : Steady s₀ s) : Steady s₀ (s.applyFrom own counts stamp wid loc bs view) := by
  unfold State.applyFrom
  split
  · exact .ite h h.machineCheck
  · have hm : Steady s₀ { s with mem := s.mem.writeBytes loc bs } := h.setMem (wf_writeBytes _ _)
    exact .ring (.ite hm.upd hm.upd.writeLines)

theorem Steady.applyBytes {wid loc bs view} (h : Steady s₀ s) : Steady s₀ (s.applyBytes wid loc bs view) := h.applyFrom

theorem Steady.fillGranule {die loc} (h : Steady s₀ s) : Steady s₀ (s.fillGranule die loc) := by
  unfold State.fillGranule
  dsimp only
  split
  · exact .upd (.updReq (.learnRead (.ite h.count h)))
  · exact .ite (.ite h.count h) (.upd (.ite h.count h))

theorem Steady.hostTouch {a keep n} (h : Steady s₀ s) : Steady s₀ (s.hostTouch a keep n) := by
  induction n generalizing s a with
  | zero => exact h
  | succ n ih => exact ih h.fillLine.recall.upd

theorem Steady.snoop {loc} (h : Steady s₀ s) : Steady s₀ (s.snoop loc) := .ite h.upd.emit h

theorem Steady.useAnswer {loc n} (h : Steady s₀ s) : Steady s₀ (s.useAnswer loc n) := .ite h.upd h

theorem Steady.askHost {loc n} (h : Steady s₀ s) : Steady s₀ (s.askHost loc n) := .ite h (.foldl h.useAnswer.upd fun _ _ h => h.emit)

theorem Steady.snoopNow {loc n} (h : Steady s₀ s) : Steady s₀ (s.snoopNow loc n) :=
  .ite h (.ite (.foldl h fun _ _ h => h.emit) (.foldl h fun _ _ h => h.snoop))

theorem Steady.noteRead {wid v} (h : Steady s₀ s) : Steady s₀ (s.noteRead wid v) := h.upd

theorem Steady.applyOne {w} (h : Steady s₀ s) : Steady s₀ (s.applyOne w) := by
  unfold State.applyOne
  dsimp only
  split
  · exact .applyFrom (.ite h.upd.hostTouch h.upd.snoop.useAnswer)
  · exact .foldl (.applyFrom (.ite h.upd.hostTouch h.upd.snoop.useAnswer)) fun _ _ h => h.fillGranule
  · exact .applyFrom (.ite h.upd.hostTouch h.upd.snoop.useAnswer)

theorem Steady.applyAq {wid} (h : Steady s₀ s) : Steady s₀ (s.applyAq wid) := by
  unfold State.applyAq
  split
  · exact h
  · refine .ite h (.ite h.noteRead.askHost ?_)
    refine .ite ?_ ?_
    · refine .foldl h fun _ _ h => ?_
      split
      · exact h.applyOne
      · exact h
    · refine .foldl ?_ fun _ _ h => h.ring
      refine .upd (.foldl h fun _ _ h => ?_)
      split
      · exact h.applyOne
      · exact h

theorem Steady.markLeaf {c l loc} (h : Steady s₀ s) : Steady s₀ (s.markLeaf c l loc) := by
  unfold State.markLeaf
  refine .ite h (.upd ?_)
  split
  · exact h.updCtx
  · exact h

theorem Steady.flipStart {pg} (h : Steady s₀ s) : Steady s₀ (s.flipStart pg) := .ite h.upd.emit h.upd

theorem Steady.askBias {pg hb} (h : Steady s₀ s) : Steady s₀ (s.askBias pg hb) := .ite h (.ite (.ite h h.upd) (.ite h.flipStart h))

theorem Steady.meetLeaf {c l va} (h : Steady s₀ s) : Steady s₀ (s.meetLeaf c l va) := .ite h (.ite h.askBias.markLeaf h.askBias)

theorem Steady.countLeaf {k l va} (h : Steady s₀ s) : Steady s₀ (s.countLeaf k l va) := by
  unfold State.countLeaf
  refine .ite h ?_
  extract_lets key n s1 e cnt e' w s2 t q ctl g lgn tail head nxt size ph rec16 s3 s4
  have h1 : Steady s₀ s1 := h.upd
  have hw : Steady s₀ w := h1.bump.applyBytes
  have h2 : Steady s₀ s2 := hw.upd
  have h4 : Steady s₀ s4 := h2.bump.applyBytes.setReg
  exact .ite h1 (.ite h1 (.ite h2 (.ite h2.setReg (.ite h4.setReg h4))))

theorem Steady.learnWalk {d t va} (h : Steady s₀ s) : Steady s₀ (s.learnWalk d t va) := .foldl h fun _ _ h => h.learnRead

theorem Steady.joinWalk {k va} (h : Steady s₀ s) : Steady s₀ (s.joinWalk k va) := .ite h h.learnWalk.updFibre

theorem Steady.touchLeaf {k l va} (h : Steady s₀ s) : Steady s₀ (s.touchLeaf k l va) := h.joinWalk.meetLeaf.countLeaf

theorem Steady.touched {k l va} (h : Steady s₀ s) : Steady s₀ (s.touched k l va) := by
  unfold State.touched
  split
  · exact h.touchLeaf
  · exact h

theorem Steady.meetVa {c t va} (h : Steady s₀ s) : Steady s₀ (s.meetVa c t va) := by
  unfold State.meetVa
  split
  · exact h.meetLeaf
  · exact h
  · exact h

theorem Steady.walkVa {k va} (h : Steady s₀ s) : Steady s₀ (s.walkVa k va) := h.joinWalk.meetVa

theorem Steady.accessVa {k va} (h : Steady s₀ s) : Steady s₀ (s.accessVa k va) := by
  unfold State.accessVa
  split
  · exact h.touchLeaf
  · exact h.joinWalk
  · exact h.joinWalk

theorem Steady.rfqPut {c head} (h : Steady s₀ s) : Steady s₀ (s.rfqPut c head) := by
  fun_cases State.rfqPut
  case case1 => exact h
  case case2 => exact h
  case case3 => exact h.meetVa.meetVa.bump.applyBytes.bump.applyBytes
  case case4 => exact h.bump.applyBytes.bump.applyBytes

theorem Steady.rfqEntry {c head} (h : Steady s₀ s) : Steady s₀ (s.rfqEntry c head) := .ite h.updCtx.upd h.updCtx.rfqPut

theorem Steady.rfqFlush (h : Steady s₀ s) : Steady s₀ s.rfqFlush := .ite h (.foldl h.upd fun _ _ h => .ite h.upd h.rfqPut)

theorem Steady.failAccess {es code peer group} (h : Steady s₀ s) : Steady s₀ (s.failAccess es code peer group) := by
  unfold State.failAccess
  split
  · exact h
  · exact .foldl h fun _ _ h => h.rfqEntry

theorem Steady.enqueue {die group peer plane step mk} (h : Steady s₀ s) : Steady s₀ (s.enqueue die group peer plane step mk) := h.upd

theorem Steady.departCart {key} (h : Steady s₀ s) : Steady s₀ (s.departCart key) := by
  unfold State.departCart
  split
  · exact h
  · exact h.upd.enqueue.upd

theorem Steady.departCarts {p} (h : Steady s₀ s) : Steady s₀ (s.departCarts p) := .foldl h fun _ _ h => h.departCart

theorem Steady.full15 {key c} (h : Steady s₀ s) : Steady s₀ (s.full15 key c) := .ite h.upd.departCart h.upd

theorem Steady.freshCart {die ctx es group peer plane} (h : Steady s₀ s) : Steady s₀ (s.freshCart die ctx es group peer plane) := by
  unfold State.freshCart
  dsimp only
  split
  · refine .full15 (.ite ?_ h)
    split
    · exact h.departCart
    · exact h
  · refine .ite ?_ h
    split
    · exact h.departCart
    · exact h

theorem Steady.enterCart {die ctx es group peer} (h : Steady s₀ s) : Steady s₀ (s.enterCart die ctx es group peer) := by
  unfold State.enterCart
  split
  · exact h
  · refine .ite h.failAccess (.ite h.failAccess ?_)
    dsimp only
    split
    · exact .ite h.full15 h.departCart.freshCart
    · exact h.freshCart

theorem Steady.pushCarts {die ctx seq} (h : Steady s₀ s) : Steady s₀ (s.pushCarts die ctx seq) := h.departCarts

theorem Steady.leave {f w grp} (h : Steady s₀ s) : Steady s₀ (s.leave f w grp) := by
  unfold State.leave
  dsimp only
  split
  · exact h.updFibre.askHost.enterAq
  · exact h.updFibre.enterCart

theorem Steady.writeBackLine {sh line} (h : Steady s₀ s) : Steady s₀ (s.writeBackLine sh line) := by
  unfold State.writeBackLine
  refine .foldl ?_ fun _ _ h => h.applyAq
  refine .foldl h.bump fun _ _ h => ?_
  split
  · exact .ite h.leave h
  · exact h

theorem Steady.writeBack {sh} (h : Steady s₀ s) : Steady s₀ (s.writeBack sh) := .foldl h fun _ _ h => h.writeBackLine

theorem Steady.release {k seq} (h : Steady s₀ s) : Steady s₀ (s.release k seq) := h.writeBack.pushCarts

theorem Steady.drainList {k l} (h : Steady s₀ s) : Steady s₀ (s.drainList k l) := by
  induction l generalizing s with
  | nil => exact h
  | cons w l ih =>
    unfold State.drainList
    split
    · exact h
    · refine ih (.ite (.ite h.release h) ?_)
      split
      · exact .writeBackLine (.ite h.release h)
      · exact .applyAq (.leave (.ite h.release h))

theorem Steady.drain {k} (h : Steady s₀ s) : Steady s₀ (s.drain k) := by
  unfold State.drain
  split
  · exact h.drainList
  · exact h

theorem Steady.bufferPage {k seq d n kind rel va cached sa} (h : Steady s₀ s) : Steady s₀ (s.bufferPage k seq d n kind rel va cached sa) :=
  h.bump.updFibre

theorem Steady.bufferWrite {k seq d n kind rel va} (h : Steady s₀ s) : Steady s₀ (s.bufferWrite k seq d n kind rel va) := h.bufferPage

theorem Steady.updPort {p g} (h : Steady s₀ s) : Steady s₀ (s.updPort p g) := h.upd

theorem Steady.sendFlits {p n} (h : Steady s₀ s) : Steady s₀ (s.sendFlits p n) := h.updPort

theorem Steady.rxLeave {p n} (h : Steady s₀ s) : Steady s₀ (s.rxLeave p n) := .ite h.updPort.updPort.emit h.updPort

theorem Steady.answers {peer} (h : Steady s₀ s) : Steady s₀ (s.answers peer) := h.upd

theorem Steady.heardFrom {peer va n} (h : Steady s₀ s) : Steady s₀ (s.heardFrom peer va n) := h.answers.rxLeave

/-! ### Exceptions and the frame of an instruction word -/

theorem Steady.fatal {k cause ua} (h : Steady s₀ s) : Steady s₀ (s.fatal k cause ua) := h.halt

theorem Steady.leaveFlock {k} (h : Steady s₀ s) : Steady s₀ (s.leaveFlock k) := h.upd

theorem Steady.frameWrites {k seq va n bs} (h : Steady s₀ s) : Steady s₀ (s.frameWrites k seq va n bs) := by
  induction n generalizing s va bs with
  | zero => exact h
  | succ n ih =>
    unfold State.frameWrites
    split
    · exact ih h.accessVa.bufferWrite
    · exact h

theorem Steady.deliverNow {k r} (h : Steady s₀ s) : Steady s₀ (s.deliverNow k r) := by
  unfold State.deliverNow
  split
  · exact h
  · exact .ite h (.ite h.halt (.ite h.halt (.ite h.halt h.bump.frameWrites.updFibre.leaveFlock)))

theorem Steady.unfork {w} (h : Steady s₀ s) : Steady s₀ (s.unfork w) := by
  unfold State.unfork
  split
  · exact h.dropFibre
  · exact h

theorem Steady.cancelAfter {k seq} (h : Steady s₀ s) : Steady s₀ (s.cancelAfter k seq) := by
  unfold State.cancelAfter
  split
  · exact h
  · exact .ite h (.foldl h.updFibre fun _ _ h => h.unfork)

theorem Steady.deliver {k r} (h : Steady s₀ s) : Steady s₀ (s.deliver k r) := by
  unfold State.deliver
  dsimp only
  split
  · exact h.cancelAfter
  · exact .ite h.cancelAfter (.ite h.cancelAfter.deliverNow h.cancelAfter.updFibre.leaveFlock)

theorem Steady.deliverNext {k} (h : Steady s₀ s) : Steady s₀ (s.deliverNext k) := by
  unfold State.deliverNext
  split
  · exact h
  · split
    · exact h
    · exact .ite h h.updFibre.deliverNow

theorem Steady.deliverResident {k cls cause reason rip faddr code unit seq} (h : Steady s₀ s) :
    Steady s₀ (s.deliverResident k cls cause reason rip faddr code unit seq) := h.deliver

theorem Steady.translateFault {k reason ua va seq} (h : Steady s₀ s) : Steady s₀ (s.translateFault k reason ua va seq) := h.deliverResident

theorem Steady.frameAccess {k v} (h : Steady s₀ s) : Steady s₀ (s.frameAccess k v) := by
  unfold State.frameAccess
  refine .foldl (.ite h.accessVa h.accessVa.accessVa) fun _ _ h => ?_
  split
  · exact h.snoopNow
  · exact h
  · exact h

theorem Steady.takeFrame {f v d bs ua more} (h : Steady s₀ s) : Steady s₀ (s.takeFrame f v d bs ua more) :=
  .ite h.fatal (.ite h.fatal h.accessVa.bump.bufferWrite.updFibre)

theorem Steady.resumeFrame {k v far ua more} (h : Steady s₀ s) : Steady s₀ (s.resumeFrame k v far ua more) := by
  unfold State.resumeFrame
  split
  · exact h
  · refine .ite h.fatal ?_
    dsimp only
    split
    · exact .fatal (.ite h.frameAccess h)
    · exact .fatal (.ite h.frameAccess h)
    · exact .takeFrame (.ite h.frameAccess h)

theorem Steady.beginUnit {fl} (h : Steady s₀ s) : Steady s₀ (s.beginUnit fl) := h.setFlock.upd

theorem Steady.closeFlock {c q} (h : Steady s₀ s) : Steady s₀ (s.closeFlock c q) := by
  unfold State.closeFlock
  split
  · exact h
  · exact .ite h.endFlock (.ite (.ite h h.setFlock) (.ite h.endFlock h.setFlock))

theorem Steady.landMembers {fl} (h : Steady s₀ s) : Steady s₀ (s.landMembers fl) := h.upd

theorem Steady.closeUnit {c fl} (h : Steady s₀ s) : Steady s₀ (s.closeUnit c fl) := .closeFlock (.ite h h.landMembers)

theorem Steady.runUnitAny {c body} (hb : ∀ c s, Steady s₀ s → Steady s₀ (body c s)) (h : Steady s₀ s) : Steady s₀ (runUnitAny c body s) := by
  unfold Machine.runUnitAny
  split
  · exact h
  · exact (hb _ _ h.beginUnit).closeUnit

theorem Steady.followed {c body} (hb : ∀ c s, Steady s₀ s → Steady s₀ (body c s)) (h : Steady s₀ s) : Steady s₀ (followed body c s) := by
  unfold Machine.followed
  split
  · exact h.fatal
  · exact hb _ _ h

theorem Steady.runUnit {c body} (hb : ∀ c s, Steady s₀ s → Steady s₀ (body c s)) (h : Steady s₀ s) : Steady s₀ (runUnit c body s) :=
  .runUnitAny (fun _ _ h => .followed hb h) h

theorem Steady.resultUnit {c w} (h : Steady s₀ s) : Steady s₀ (resultUnit c w s) := .runUnit (fun _ _ h => h.upd) h

theorem Steady.memberUnit {c act} (ha : ∀ c f s, Steady s₀ s → Steady s₀ (act c f s)) (h : Steady s₀ s) : Steady s₀ (memberUnit c act s) :=
  .runUnit (fun _ _ h => .foldl h fun _ _ h => .ite (ha _ _ _ h) h) h

/-! ### Accesses and requests -/

theorem Steady.grantEscort {k m off} (h : Steady s₀ s) : Steady s₀ (s.grantEscort k m off).1 := by
  unfold State.grantEscort
  dsimp only
  split
  · exact .updFibre (.ite h.updQuarter h)
  · exact h.updQuarter.updShare.updFibre

theorem Steady.releaseCharge {k n} (h : Steady s₀ s) : Steady s₀ (s.releaseCharge k n) := h.updQuarter.updShare

theorem Steady.decideOne {r} (h : Steady s₀ s) : Steady s₀ (s.decideOne r) := by
  unfold State.decideOne
  split
  · exact h.updReq
  · exact h.grantEscort.updReq

theorem Steady.decideReq {r} (h : Steady s₀ s) : Steady s₀ (s.decideReq r) := .ite h (.foldl h fun _ _ h => h.decideOne)

theorem Steady.landWrite {c i off bs} (h : Steady s₀ s) : SteadyOpt s₀ (s.landWrite c i off bs) :=
  .map fun _ _ => .foldl h fun _ _ h => h.meetVa.snoopNow.bump.applyBytes

theorem Steady.landSnoop {c i n} (h : Steady s₀ s) : Steady s₀ (s.landSnoop c i n) := .foldl h fun _ _ h => h.snoopNow

theorem Steady.landOrFault {k c i off bs} (h : Steady s₀ s) : Steady s₀ (s.landOrFault k c i off bs) := .getD h.landWrite h.fatal

theorem Steady.landRecord {k e i} (h : Steady s₀ s) (he : s.landRecord k e = .ok (some (t, i))) : Steady s₀ t := by
  unfold State.landRecord at he
  dsimp only at he
  split at he
  · cases he
  · split at he
    · cases he
    · cases he
    · split at he
      · cases he
        exact Steady.landWrite (.foldl h fun _ _ h => h.landSnoop) _ ‹_›
      · cases he

theorem Steady.putAway {f kind lodge} (h : Steady s₀ s) : SteadyOpt s₀ (s.putAway f kind lodge) := by
  unfold State.putAway
  dsimp only
  split
  · exact .some h.bump.releaseCharge.updFibre.leaveFlock
  · split
    · exact .some h.bump.releaseCharge.fatal
    · exact .none
    · exact .some (h.bump.releaseCharge.landRecord ‹_›).updFibre.leaveFlock

theorem Steady.enterWindow {f w} (h : Steady s₀ s) : Steady s₀ (s.enterWindow f w) := by
  unfold State.enterWindow
  refine .deliverNext (.upd (.updFibre (.releaseCharge ?_)))
  split
  · exact h.landSnoop.landOrFault
  · exact h

theorem Steady.reinstate {k} (h : Steady s₀ s) : Steady s₀ (s.reinstate k) := by
  unfold State.reinstate
  split
  · exact h
  · refine .ite h ?_
    split
    · exact h.enterWindow
    · split
      · exact h.count
      · split
        · exact h.count
        · split
          · exact (h.putAway _ ‹_›).enterWindow
          · exact h.putAway _ ‹_›

theorem Steady.turnIn {k} (h : Steady s₀ s) : Steady s₀ (s.turnIn k) := by
  unfold State.turnIn
  split
  · exact .ite h.reinstate h
  · exact h

theorem Steady.reinstateDisplaced {k} (h : Steady s₀ s) : Steady s₀ (s.reinstateDisplaced k) := by
  unfold State.reinstateDisplaced
  split
  · exact h
  · dsimp only
    split
    · refine .ite h ?_
      split
      · exact h.enterWindow
      · exact h
    · refine .ite h ?_
      split
      · exact h.enterWindow
      · exact h
    · exact h

theorem Steady.departNow {k e} (h : Steady s₀ s) : Steady s₀ (s.departNow k e) := h.updFibre.leaveFlock

theorem Steady.countStalls (h : Steady s₀ s) : Steady s₀ s.countStalls := .foldl h fun _ _ h => h.updReq.count

theorem Steady.departFor {r} (h : Steady s₀ s) : Steady s₀ (s.departFor r) := by
  unfold State.departFor
  split
  · exact h
  · exact h.departNow

theorem Steady.grantRoom {sh} (h : Steady s₀ s) : Steady s₀ (s.grantRoom sh) := by
  unfold State.grantRoom
  refine .ite h ?_
  split
  · exact h.writeBackLine
  · exact h

theorem Steady.placeAtomic {r loc} (h : Steady s₀ s) : Steady s₀ (s.placeAtomic r loc) := .ite h.grantRoom.grantLine h.readLine

theorem Steady.armBell {r loc} (h : Steady s₀ s) : Steady s₀ (s.armBell r loc) := .ite h.readLine.updReq h.updReq

theorem Steady.rmwWrite {f r loc bs view} (h : Steady s₀ s) : Steady s₀ (s.rmwWrite f r loc bs view) := h.bump.applyFrom.updFibre

theorem Steady.answer {r v w} (h : Steady s₀ s) : Steady s₀ (s.answer r v w) := h.updReq.updFibre

theorem Steady.readFirst {r loc} (h : Steady s₀ s) : Steady s₀ (s.readFirst r loc) := h.updReq.askHost

theorem Steady.shareAcquire {sh} (h : Steady s₀ s) : Steady s₀ (s.shareAcquire sh) := h.writeBack.l1Acquire

theorem Steady.acquireL1 {r} (h : Steady s₀ s) : Steady s₀ (s.acquireL1 r) := .ite h.shareAcquire h

theorem Steady.acquireAnswers (h : Steady s₀ s) : Steady s₀ s.acquireAnswers := .foldl h fun _ _ h => h.updReq.acquireL1

theorem Steady.loadLine {r loc n} (h : Steady s₀ s) : Steady s₀ (s.loadLine r loc n) := by
  unfold State.loadLine
  refine .ite h ?_
  split
  · exact h.readLine
  · exact .ite h (.l1Fill (.ite (.ite h.predictNext h) (.readLine (.ite h.predictNext h))))

theorem Steady.perform {f r} (h : Steady s₀ s) : Steady s₀ (s.perform f r) := by
  unfold State.perform
  split
  · exact h
  · extract_lets s1 now v0 die
    have h' : Steady s₀ s1 := h.snoop.useAnswer
    split
    · split
      · exact h'.answer.acquireL1
      · exact h'.answer.learnRead.loadLine.acquireL1
    · exact h'.upd.answer.learnRead.acquireL1
    · exact .acquireL1 (.learnRead (.answer (.ite h'.fillLine.recall.readLine h'.fillLine.recall)))
    · refine .ite h'.readFirst ?_
      split <;> exact .acquireL1 (.answer (.ite h'.placeAtomic.learnRead.rmwWrite h'.placeAtomic.learnRead))
    · exact .ite h'.readFirst (.acquireL1 (.answer (.ite h'.placeAtomic.learnRead.rmwWrite h'.placeAtomic.learnRead)))
    · exact .ite h'.readFirst (.acquireL1 (.answer (.ite h'.fillLine.recall.placeAtomic.learnRead.rmwWrite h'.fillLine.recall.placeAtomic.learnRead)))
    · exact .ite h'.answer.learnRead.acquireL1 h'.armBell
    · exact .ite h'.answer.learnRead.acquireL1 h'.armBell
    · exact h'
    · exact h'
    · refine .answer ?_
      split
      · exact .ite (.rmwWrite (.foldl h' fun _ _ h => h.snoop.fillLine.recall)) (.foldl h' fun _ _ h => h.snoop.fillLine.recall)
      · exact .foldl h' fun _ _ h => h.snoop.fillLine.recall

theorem Steady.giveValue {r v k} (h : Steady s₀ s) : Steady s₀ (s.giveValue r v k) := by
  unfold State.giveValue
  split
  · exact h
  · split
    exacts [.ite h.updFibre.resumeFrame h.updFibre, h, h, h.updFibre, h.updFibre, h.updFibre, .foldl h.updFibre fun _ _ h => h.landOrFault]

theorem Steady.lateFor {r c} (h : Steady s₀ s) : Steady s₀ (s.lateFor r c) := h.updCtx

theorem Steady.arrive {r v} (h : Steady s₀ s) : Steady s₀ (s.arrive r v) := by
  unfold State.arrive
  dsimp only
  split
  · exact .foldl h.dropReq fun _ _ h => h.giveValue
  · refine .ite ?_ ?_
    · refine .lateFor ?_
      split
      · exact h.dropReq
      · exact h.dropReq.releaseCharge
    · split
      · exact .turnIn (.updFibre (.bump (.foldl h.dropReq fun _ _ h => h.giveValue)))
      · exact .foldl h.dropReq.releaseCharge fun _ _ h => h.giveValue

theorem Steady.faultTo {id fr k} (h : Steady s₀ s) : Steady s₀ (s.faultTo id fr k) := by
  unfold State.faultTo
  split
  · exact h
  · refine .ite h.fatal ?_
    split
    · exact h
    · exact h
    · exact h.updFibre.deliver

theorem Steady.arriveFault {r cls code} (h : Steady s₀ s) : Steady s₀ (s.arriveFault r cls code) := by
  unfold State.arriveFault
  dsimp only
  split
  · exact .foldl h.dropReq fun _ _ h => h.faultTo
  · refine .ite ?_ ?_
    · refine .lateFor ?_
      split
      · exact h.dropReq
      · exact h.dropReq.releaseCharge
    · split
      · exact h.dropReq.faultTo.bump.updFibre.updFibre.turnIn
      · exact .foldl h.dropReq.releaseCharge fun _ _ h => h.faultTo

theorem Steady.beginWait {f r} (h : Steady s₀ s) : Steady s₀ (s.beginWait f r) := by
  unfold State.beginWait
  split
  · exact .ite h.bump.updReq h
  · exact h

theorem Steady.poisonReq {r} (h : Steady s₀ s) : Steady s₀ (s.poisonReq r) := h.dropReq.releaseCharge.fatal

theorem Steady.tryReq {id} (h : Steady s₀ s) : Steady s₀ (s.tryReq id) := by
  unfold State.tryReq
  split
  · exact h
  · split
    · exact h
    · split
      · exact h.arriveFault
      · exact h.updFibre.arrive
      · refine .ite (.beginWait (.ite h.release h)) (.ite (.poisonReq (.ite h.release h)) ?_)
        dsimp only
        split
        · split
          · exact .arrive (.perform (.ite h.release h))
          · exact .perform (.ite h.release h)
        · exact .perform (.ite h.release h)

theorem Steady.keepSector {r v} (h : Steady s₀ s) : Steady s₀ (s.keepSector r v) := by
  unfold State.keepSector
  split
  · exact .ite h.l1Load h
  · exact h

theorem Steady.reqHeard {r} (h : Steady s₀ s) : Steady s₀ (Req.heard r s) := by
  unfold Req.heard
  split
  · exact h.heardFrom
  · exact h

theorem Steady.peerAnswer {r a} (h : Steady s₀ s) : Steady s₀ (s.peerAnswer r a) := by
  unfold State.peerAnswer
  refine .ite h ?_
  refine .ite ?_ ?_
  · split
    · exact h.reqHeard
    · exact h.reqHeard.keepSector.dropReq
    · exact h.reqHeard.dropReq
    · exact h.reqHeard.dropReq
  · split
    · exact h.reqHeard
    · exact .ite h.reqHeard.updReq.keepSector.acquireL1 h.reqHeard.updReq
    · exact h.reqHeard.updReq
    · exact h.reqHeard.poisonReq

theorem Steady.sendDirect {k r group p va n} (h : Steady s₀ s) : Steady s₀ (s.sendDirect k r group p va n) := h.departCarts.enqueue.updReq

theorem Steady.forwardLine {r} (h : Steady s₀ s) : Steady s₀ (s.forwardLine r) := by
  unfold State.forwardLine
  split
  · split
    · exact h.l1Load
    · exact h
  · exact h

theorem Steady.park {k p id ua} (h : Steady s₀ s) : Steady s₀ (s.park k p id ua) := by
  unfold State.park
  dsimp only
  split
  · exact h.updFibre
  · split
    · exact (h.updFibre.putAway _ ‹_›).updFibre
    · exact h.updFibre.leaveFlock

theorem Steady.parkAll {r p} (h : Steady s₀ s) : Steady s₀ (s.parkAll r p) := .foldl h fun _ _ h => h.park

theorem Steady.depart1 {r group p va} (h : Steady s₀ s) : Steady s₀ (s.depart1 r group p va) := by
  unfold State.depart1
  refine .ite (.ite h.dropReq.parkAll h) (.sendDirect ?_)
  split
  · exact h.predictNext
  · exact h

theorem Steady.trySend {id} (h : Steady s₀ s) : Steady s₀ (s.trySend id) := by
  unfold State.trySend
  split
  · exact h
  · split
    · refine .ite h (.ite h ?_)
      split
      · exact .updReq (.ite h.forwardLine h)
      · exact .ite (.depart1 (.ite h.release h)) (.ite h.release h)
    · exact h

theorem Steady.trySends (h : Steady s₀ s) : Steady s₀ s.trySends := .foldl h fun _ _ h => h.trySend

theorem Steady.arriveFaultNow {r cls code} (h : Steady s₀ s) : Steady s₀ (s.arriveFaultNow r cls code) :=
  .ite h.fatal (.foldl h.releaseCharge fun _ _ h => h.deliverResident)

theorem Steady.awaits {k r} (h : Steady s₀ s) : Steady s₀ (s.awaits k r) := h.updFibre

theorem Steady.snoopLines {ls} (h : Steady s₀ s) : Steady s₀ (s.snoopLines ls) := .ite h h.upd

theorem Steady.issueReq {r} (h : Steady s₀ s) : Steady s₀ (s.issueReq r) := by
  unfold State.issueReq
  dsimp only
  split
  · refine .ite h.arriveFaultNow (.ite h.upd.trySend ?_)
    refine .ite h.arriveFaultNow (.ite h.parkAll ?_)
    refine .trySend (.upd ?_)
    split
    · exact h
    · exact h
    · exact h.l1Drop
  · exact h.snoopLines.askHost.upd

/-! ### Control units -/

theorem Steady.endWindows {k} (h : Steady s₀ s) : Steady s₀ (s.endWindows k) := h.upd

theorem Steady.transfer {k more t} (h : Steady s₀ s) : Steady s₀ (s.transfer k more t) := h.updFibre.endWindows

theorem Steady.branch {h₀ link off} (h : Steady s₀ s) : Steady s₀ (branch h₀ link off s) :=
  .memberUnit (fun _ _ _ h => .transfer (.ite h.updFibre h)) h

theorem Steady.branchReg {h₀ link a} (h : Steady s₀ s) : Steady s₀ (branchReg h₀ link a s) := by
  unfold Machine.branchReg
  refine .runUnit (fun _ _ h => ?_) h
  split
  · exact h.fatal
  · exact .foldl h fun _ _ h => .transfer (.ite h.updFibre h)

theorem Steady.placeChild {k₀ n vals preds ip} (h : Steady s₀ s) : SteadyOpt s₀ (s.placeChild k₀ n vals preds ip) := by
  unfold State.placeChild
  split
  · exact .none
  · dsimp only
    split
    · exact .some h.upd
    · exact .map fun _ he => (h.upd.putAway _ he).updFibre.bump

theorem Steady.forkStep {k0 child} (h : Steady s₀ s) : Steady s₀ (s.forkStep k0 child) := by
  unfold State.forkStep
  split
  · exact h.updFibre
  · exact h
  · exact h.updFibre.updFibre

theorem Steady.forkChild {o mask ip c} (h : Steady s₀ s) (he : s.forkChild o mask ip = some (t, c)) : Steady s₀ t := by
  unfold State.forkChild at he
  split at he
  · cases he
    exact h
  · obtain ⟨u, hu, he⟩ := Option.map_eq_some_iff.1 he
    cases he
    exact h.placeChild _ hu

theorem Steady.forkOne {o mask ip ua seq} (h : Steady s₀ s) : Steady s₀ (s.forkOne o mask ip ua seq) := by
  unfold State.forkOne
  split
  · exact h
  · split
    · exact h.updFibre.leaveFlock
    · exact .ite (h.forkChild ‹_›).forkStep (h.forkChild ‹_›).updFibre

theorem Steady.forkDone {k child seq} (h : Steady s₀ s) : Steady s₀ (s.forkDone k child seq) := by
  unfold State.forkDone
  dsimp only
  split
  · exact .ite h.release.forkStep.updFibre h.release
  · exact h.release

theorem Steady.joinDone {k d} (h : Steady s₀ s) : Steady s₀ (s.joinDone k d) := by
  unfold State.joinDone
  split
  · exact h
  · have h1 : Steady s₀ (s.shareAcquire k.share) := h.shareAcquire
    dsimp only
    split
    exacts [h1.releaseCharge.updFibre, h1.updFibre.bump, h1.updFibre, h1.updFibre.landOrFault, h1, h1, h1]

theorem Steady.departJoin {k} (h : Steady s₀ s) : Steady s₀ (s.departJoin k) := by
  unfold State.departJoin
  split
  · exact h
  · split
    · exact .ite h h.departNow
    · exact h

theorem Steady.joinOne {c o d more} (h : Steady s₀ s) : Steady s₀ (s.joinOne c o d more) := by
  unfold State.joinOne
  split
  · exact h
  · exact .ite h.joinDone (.ite h.grantEscort.updFibre h.grantEscort.updFibre.departJoin)

theorem Steady.householdExit {sh} (h : Steady s₀ s) : Steady s₀ (s.householdExit sh) := .ite h.updShare h

theorem Steady.leaveWords {f} (h : Steady s₀ s) : Steady s₀ (s.leaveWords f) := by
  unfold State.leaveWords
  split
  exacts [h.upd, h.upd, h, h, h, h, h]

theorem Steady.freeStub {f} (h : Steady s₀ s) : Steady s₀ (s.freeStub f) := .ite h.leaveWords.dropFibre h.leaveWords.bump.upd

theorem Steady.quitDone {k} (h : Steady s₀ s) : Steady s₀ (s.quitDone k) := by
  unfold State.quitDone
  split
  · exact h
  · split
    · refine .ite h (.householdExit (.ite h.updCtx.freeStub.leaveFlock ?_))
      dsimp only
      split
      · refine .ite h.updCtx.freeStub.leaveFlock.updFibre ?_
        split
        · exact h.updCtx.freeStub.leaveFlock.updFibre.joinDone
        · exact h.updCtx.freeStub.leaveFlock.updFibre
      · exact h.updCtx.freeStub.leaveFlock.updFibre
    · exact h

theorem Steady.quitLeave {k} (h : Steady s₀ s) : Steady s₀ (s.quitLeave k) := by
  unfold State.quitLeave
  split
  · exact h
  · split
    · exact .ite h h.leaveWords.updFibre.leaveFlock
    · exact h

theorem Steady.quitUp {n k} (h : Steady s₀ s) : Steady s₀ (s.quitUp n k) := by
  induction n generalizing s k with
  | zero => exact h
  | succ n ih =>
    unfold State.quitUp
    split
    · exact h
    · exact .ite h.quitDone (ih h.quitDone)

theorem Steady.quitStep {k} (h : Steady s₀ s) : Steady s₀ (s.quitStep k) := h.writeBack.quitLeave.quitUp

theorem Steady.endAfter {q} (h : Steady s₀ s) : Steady s₀ (s.endAfter q) := h.upd

theorem Steady.yieldOne {q k} (h : Steady s₀ s) : Steady s₀ (s.yieldOne q k) := h.updFibre.endAfter

theorem Steady.resumeStep {c f v more} (h : Steady s₀ s) : Steady s₀ (s.resumeStep c f v more) := by
  unfold State.resumeStep
  split
  · exact h.frameAccess.bump.awaits.issueReq
  · exact h.resumeFrame

theorem Steady.resumeOne {c f v more} (h : Steady s₀ s) : Steady s₀ (s.resumeOne c f v more) := .ite h.updFibre h.resumeStep

theorem Steady.resumeDone {k w v} (h : Steady s₀ s) : Steady s₀ (s.resumeDone k w v) := by
  unfold State.resumeDone
  split
  · exact .ite h h.updFibre.resumeStep
  · exact h

theorem Steady.writeSpecial {o d r ua} (h : Steady s₀ s) : Steady s₀ (s.writeSpecial o d r ua) := by
  unfold State.writeSpecial
  split
  exacts [h.updFibre, .ite h.fatal h.updFibre, h.updShare, .ite h.updFibre h.fatal, .ite h.updFibre h.fatal]

/-! ### Engine threads -/

theorem Steady.noteLine {op line} (h : Steady s₀ s) : Steady s₀ (s.noteLine op line) := h.updEop

theorem Steady.threadWalk {k spad va n read} (h : Steady s₀ s) : Steady s₀ (s.threadWalk k spad va n read) := by
  unfold State.threadWalk
  refine .ite h ?_
  split
  · exact .ite h.learnWalk.meetLeaf.countLeaf (.ite h.learnWalk.meetLeaf.countLeaf.snoop.readLine h.learnWalk.meetLeaf.countLeaf.snoop)
  · exact h
  · exact h

theorem Steady.threadTook {k spad va n} (h : Steady s₀ s) : Steady s₀ (s.threadTook k spad va n) := by
  unfold State.threadTook
  split
  · exact h.useAnswer
  · exact h
  · exact h
  · exact h

theorem Steady.threadApply {op v loc bs skip fill} (h : Steady s₀ s) : Steady s₀ (s.threadApply op v loc bs skip fill).1 :=
  h.askHost.noteLine.bump.enterAq.applyAq

theorem Steady.threadWrite {op v spad va bs skip fill ans} (h : Steady s₀ s) : Steady s₀ (s.threadWrite op v spad va bs skip fill ans).1 := by
  unfold State.threadWrite
  dsimp only
  split
  · exact h.threadWalk
  · exact h.threadWalk
  · split
    · exact h.threadWalk
    · exact Steady.threadApply h.threadWalk (v := s.threadView op.key spad va v)
  · exact h.threadWalk.noteLine

theorem Steady.threadWriteAll {op v spad va bs ans} (h : Steady s₀ s) : Steady s₀ (s.threadWriteAll op v spad va bs ans).1 := by
  refine .foldlOf Prod.fst h fun acc i h => ?_
  split
  · exact h
  · split <;> exact h.threadWrite.fst ‹_›

theorem Steady.dropEop {o} (h : Steady s₀ s) : Steady s₀ (s.dropEop o) := h.upd

theorem Steady.endThread {op} (h : Steady s₀ s) : Steady s₀ (s.endThread op) := h.updCtx.dropEop

theorem Steady.forks (h : Steady s₀ s) : Steady s₀ s.forks := .upd (.foldl h fun _ _ h => h.writeBack)

theorem Steady.imageTook {op} (h : Steady s₀ s) : Steady s₀ (s.imageTook op) := by
  unfold State.imageTook
  split
  exacts [h.threadTook, h.threadTook, h.threadTook, h.threadTook, h, h, h, h, h, h, h, h, h, h, h, h, h]

theorem Steady.unitEnds {op v} (h : Steady s₀ s) : Steady s₀ (s.unitEnds op v) := h.imageTook.endThread.updFibre

theorem Steady.waitUnit {op} (h : Steady s₀ s) : Steady s₀ (s.waitUnit op) := h.bump.upd.updFibre

theorem Steady.unitFault {op v cls reason va code} (h : Steady s₀ s) : Steady s₀ (s.unitFault op v cls reason va code) :=
  h.unitEnds.deliverResident

theorem Steady.unitPiece {op v va p} (h : Steady s₀ s) : SteadyOpt s₀ (s.unitPiece op v va p) := by
  unfold State.unitPiece
  split
  · exact .some h
  · exact .some h.unitFault
  · exact .some h.unitFault
  · exact .some h.dropEop.fatal
  · exact .some h.askHost
  · exact .none

theorem Steady.countDone {e loc} (h : Steady s₀ s) : Steady s₀ (s.countDone e loc) := by
  unfold State.countDone
  refine .ite h.halt (.ite h.machineCheck (.applyFrom (.bump ?_)))
  split
  · split
    · exact h.bump.applyBytes
    · exact h
  · exact h

theorem Steady.deferFault {e} (h : Steady s₀ s) : Steady s₀ (s.deferFault e) := by
  unfold State.deferFault
  split
  · exact h
  · exact h.rfqEntry

theorem Steady.completeOp {id} (h : Steady s₀ s) : Steady s₀ (s.completeOp id) := by
  unfold State.completeOp
  split
  · exact h
  · refine .ite h (.endThread ?_)
    split
    · refine .updFibre ?_
      split
      · exact h.countDone
      · exact h.deferFault
    · split
      · exact h.countDone
      · exact h.deferFault

/-! ### Conservation monitors -/

theorem Steady.countStore {k spad va n v} (h : Steady s₀ s) : Steady s₀ (s.countStore k spad va n v) := by
  unfold State.countStore
  refine .foldl h fun _ _ h => ?_
  split
  · exact h
  · exact .ite h.updShare h

theorem Steady.clearPartials {c k} (h : Steady s₀ s) : Steady s₀ (s.clearPartials c k) := h.upd

theorem Steady.monsetFin {op ans} (h : Steady s₀ s) : SteadyOpt s₀ (monsetFin s op ans) := by
  unfold Machine.monsetFin
  dsimp only
  split
  · exact h.threadWalk.unitPiece
  · exact .ite (.some h.threadWalk.dropEop.fatal) (.some (.unitEnds (.ite h.threadWalk.clearPartials.upd h.threadWalk.clearPartials.upd)))

theorem Steady.writeFin {op ans} (h : Steady s₀ s) : SteadyOpt s₀ (writeFin s op ans) := by
  unfold Machine.writeFin
  refine .ite (.ite (.some h.unitEnds) .none) ?_
  split
  · exact (h.threadWriteAll.fst ‹_›).unitPiece
  · exact .ite (.some (h.threadWriteAll.fst ‹_›).unitEnds) (.some (h.threadWriteAll.fst ‹_›).updEop)

theorem Steady.checkSlot {i shares hidx} (h : Steady s₀ s) : Steady s₀ (s.checkSlot i shares hidx).1 := by
  unfold State.checkSlot
  split
  · exact h
  · exact .upd (.foldl h fun _ _ h => h.updShare)

theorem Steady.monCheck {c lvl groups} (h : Steady s₀ s) : Steady s₀ (s.monCheck c lvl groups).1 :=
  .foldlOf Prod.fst h fun _ _ h => .foldlOf Prod.fst h fun _ _ h => h.checkSlot

/-! ### Loads, stores and prefetch -/

theorem Steady.eachMember {c act} (ha : ∀ c f s, Steady s₀ s → Steady s₀ (act c f s)) (h : Steady s₀ s) : Steady s₀ (eachMember c act s) :=
  .runUnit (fun _ _ h => .foldl h fun _ _ h => ha _ _ _ h) h

theorem Steady.accessUnit {c act} (ha : ∀ c f also s, Steady s₀ s → Steady s₀ (act c f also s)) (h : Steady s₀ s) : Steady s₀ (accessUnit c act s) := by
  refine .runUnit (fun _ _ h => .ite ?_ (.foldl h fun _ _ h => ha _ _ _ _ h)) h
  split
  · exact h
  · exact ha _ _ _ _ h

theorem Steady.accessFault {c k also va a} (h : Steady s₀ s) : Steady s₀ (s.accessFault c k also va a) := by
  unfold State.accessFault
  split
  · exact .fatal (.ite h h.walkVa)
  · exact .foldl h fun _ _ h => h.translateFault
  · exact h

theorem Steady.requestOne {c o also acc va n kind acq rel dst dw left esc} (h : Steady s₀ s) :
    Steady s₀ (s.requestOne c o also acc va n kind acq rel dst dw left esc) := by
  unfold State.requestOne
  split
  · exact h.touched.bump.issueReq
  · exact h.accessFault

theorem Steady.storeL1 {k d l n} (h : Steady s₀ s) : Steady s₀ (s.storeL1 k d l n) := by
  unfold State.storeL1
  split
  · exact .ite h.l1Fill h
  · exact h.l1Drop
  · exact h

theorem Steady.storeOne {c o acc va n kind rel} (h : Steady s₀ s) : Steady s₀ (s.storeOne c o acc va n kind rel) := by
  unfold State.storeOne
  split
  · dsimp only
    split
    · exact .countStore (.bufferPage (.ite h.touched h.touched.storeL1))
    · exact .countStore (.bufferPage (.ite h.touched h.touched.storeL1))
    · exact .bufferPage (.ite h.touched h.touched.storeL1)
  · exact h.accessFault

theorem Steady.globalLoad {h₀ d base la esc n signed acq} (h : Steady s₀ s) : Steady s₀ (globalLoad h₀ d base la esc n signed acq s) :=
  .accessUnit (fun _ _ _ _ h => h.requestOne) h

theorem Steady.globalStore {h₀ sr base n rel} (h : Steady s₀ s) : Steady s₀ (globalStore h₀ sr base n rel s) :=
  .eachMember (fun _ _ _ h => h.storeOne) h

theorem Steady.spadLoad {h₀ d base la n signed} (h : Steady s₀ s) : Steady s₀ (spadLoad h₀ d base la n signed s) :=
  .accessUnit (fun _ _ _ _ h => h.requestOne) h

theorem Steady.spadStore {h₀ sr base n} (h : Steady s₀ s) : Steady s₀ (spadStore h₀ sr base n s) := .eachMember (fun _ _ _ h => h.storeOne) h

theorem Steady.prefPeer {r p va} (h : Steady s₀ s) : Steady s₀ (s.prefPeer r p va) := by
  unfold State.prefPeer
  refine .ite h ?_
  split
  · exact h.l1Load
  · exact .ite h h.enqueue.upd.bump

theorem Steady.prefOne {c f va lv} (h : Steady s₀ s) : Steady s₀ (s.prefOne c f va lv) := by
  unfold State.prefOne
  dsimp only
  split
  · refine .ite h ?_
    split
    · exact h.meetVa.readLine.l1Fill
    · exact h.meetVa.readLine
  · exact .ite h h.prefPeer
  · exact h
  · exact h
  · exact h

/-! ### Atomics, reductions and locks -/

theorem Steady.atomOne {c f d base la esc op signed wide ord} (h : Steady s₀ s) : Steady s₀ (s.atomOne c f d base la esc op signed wide ord) :=
  h.requestOne

theorem Steady.atomUnit {h₀ d base la esc op t ord} (h : Steady s₀ s) : Steady s₀ (atomUnit h₀ d base la esc op t ord s) :=
  .eachMember (fun _ _ _ h => h.atomOne) h

theorem Steady.redUnit {h₀ sr base op t} (h : Steady s₀ s) : Steady s₀ (redUnit h₀ sr base op t s) := .eachMember (fun _ _ _ h => h.storeOne) h

theorem Steady.valsetOne {c f d a b st} (h : Steady s₀ s) : Steady s₀ (s.valsetOne c f d a b st) := by
  unfold State.valsetOne
  split
  · exact h.fatal
  · dsimp only
    split
    · exact h.accessFault
    · split
      · exact h.fatal
      · exact .ite h.fatal (.issueReq (.awaits (.bump (.foldl h fun _ _ h => h.walkVa))))

/-! ### Waiting on memory and on other fibres -/

theorem Steady.waitOne {c o acc va n kind dst dw} (h : Steady s₀ s) : Steady s₀ (s.waitOne c o acc va n kind dst dw) := by
  unfold State.waitOne
  split
  · exact h.touched.bump.awaits.issueReq
  · exact h.accessFault

theorem Steady.waitcUnit {h₀ d a b signed cc} (h : Steady s₀ s) : Steady s₀ (waitcUnit h₀ d a b signed cc s) :=
  .eachMember (fun _ _ _ h => h.waitOne) h

theorem Steady.fenceDone {k seq} (h : Steady s₀ s) : Steady s₀ (s.fenceDone k seq) := .ite h.release.shareAcquire.updShare.updFibre h.release

theorem Steady.barBreach {c gs bs} (h : Steady s₀ s) : Steady s₀ (s.barBreach c gs bs) := by
  unfold State.barBreach
  refine .ite h (.ite ?_ (.foldl h fun _ _ h => .ite h h.deliverResident))
  refine .foldl h fun _ _ h => ?_
  split
  · exact h.halt
  · exact h

theorem Steady.barDone {k} (h : Steady s₀ s) : Steady s₀ (s.barDone k) := by
  unfold State.barDone
  split
  · exact h
  · split
    · refine .ite (.barBreach (.upd ?_)) h
      cases List.any _ _ with
      | true => exact .monCheck (.foldl h fun _ _ h => h.shareAcquire)
      | false => exact .foldl h fun _ _ h => h.shareAcquire
    · exact h

theorem Steady.settleWait {k w} (h : Steady s₀ s) : Steady s₀ (s.settleWait k w) := by
  unfold State.settleWait
  split
  exacts [h.fenceDone, h.release.barDone, h.quitStep, h.departJoin, h.forkDone, h.resumeDone, h, h, h, h, h, h, h, h, h]

theorem Steady.settleOne {k} (h : Steady s₀ s) : Steady s₀ (s.settleOne k) := by
  unfold State.settleOne
  refine .ite h ?_
  split
  · exact h
  · exact .deliverNext (.foldl h fun _ _ h => .ite h.settleWait h)

theorem Steady.settle (h : Steady s₀ s) : Steady s₀ s.settle :=
  .ite (.upd (.foldl h fun _ _ h => h.settleOne)) (.foldl h fun _ _ h => h.settleOne)

theorem Steady.forgetEnded (h : Steady s₀ s) : Steady s₀ s.forgetEnded := h.upd

/-! ### Tiles and moves -/

theorem Steady.setDesc {c x d} (h : Steady s₀ s) : Steady s₀ (s.setDesc c x d) := h.updCtx

theorem Steady.updTile {c t g} (h : Steady s₀ s) : Steady s₀ (s.updTile c t g) := h.upd

theorem Steady.accept {id} (h : Steady s₀ s) : Steady s₀ (s.accept id) := h.updEop.bump

theorem Steady.tileTaken {op} (h : Steady s₀ s) : Steady s₀ (s.tileTaken op) := by
  unfold State.tileTaken
  dsimp only
  split <;> exact .ite h.updFibre.accept h.dropEop.fatal

theorem Steady.takeTile {k t} (h : Steady s₀ s) : Steady s₀ (s.takeTile k t) := .ite h h.bump.upd

theorem Steady.grantTile {c t} (h : Steady s₀ s) : Steady s₀ (s.grantTile c t) := .foldl h fun _ _ h => .ite h.takeTile.tileTaken h

theorem Steady.freeTile {c t} (h : Steady s₀ s) : Steady s₀ (s.freeTile c t) := h.updTile.grantTile



theorem Steady.moveNote {m : Move} {va reason code cls peer} (h : Steady s₀ m.st) : Steady s₀ (m.note va reason code cls peer).st := h

theorem Steady.moveRead {m : Move} {op spad va esz off n} (h : Steady s₀ m.st) : Steady s₀ (m.read op spad va esz off n).1.st := by
  unfold Move.read
  split
  · exact h
  · dsimp only
    split
    · exact h.threadWalk
    · exact h.threadWalk
    · exact h.threadWalk
    · dsimp only
      split <;> exact h.threadWalk.threadTook

theorem Steady.moveWrite {m : Move} {op spad va off bs skipped fill} (h : Steady s₀ m.st) : Steady s₀ (m.write op spad va off bs skipped fill).st := by
  unfold Move.write
  split
  · exact h
  · split
    · exact h.threadWrite.fst ‹_›
    · exact h.threadWrite.fst ‹_›
    · exact h
    · dsimp only
      split <;> exact h.threadWrite.fst ‹_›

theorem Steady.moveRow {m : Move} {op srcSpad src dstSpad dst esz n} (h : Steady s₀ m.st) : Steady s₀ (m.row op srcSpad src dstSpad dst esz n).st := by
  unfold Move.row
  split
  · exact .foldlOf Move.st h fun _ _ h => h.moveRead.moveWrite
  · refine .foldlOf Move.st (.foldlOf (fun acc : Move × _ => acc.1.st) h fun _ _ h => h.moveRead) fun _ _ h => ?_
    split
    · exact h.moveWrite
    · exact .foldlOf Move.st h fun _ _ h => h.moveWrite

theorem Steady.sendBulk {op d sp} (h : Steady s₀ s) : Steady s₀ (s.sendBulk op d sp) := by
  unfold State.sendBulk
  split
  · exact h
  · exact h.departCarts.enqueue

theorem Steady.sendSpans {op spans} (h : Steady s₀ s) : Steady s₀ (s.sendSpans op spans) :=
  .ite h (.ite h (.updEop (.foldl h fun _ _ h => h.sendBulk)))

theorem Steady.threadFatal {op cause} (h : Steady s₀ s) : Steady s₀ (s.threadFatal op cause) := h.updEop.halt

/-! ### Engine units -/

theorem Steady.tdsetFin {op ans} (h : Steady s₀ s) : SteadyOpt s₀ (tdsetFin s op ans) := by
  unfold Machine.tdsetFin
  dsimp only
  split
  · exact h.threadWalk.unitPiece
  · exact .ite (.some h.threadWalk.setDesc.unitEnds) (.some h.threadWalk.dropEop.fatal)

theorem Steady.tdinvFin {op ans} (h : Steady s₀ s) : SteadyOpt s₀ (tdinvFin s op ans) := by
  unfold Machine.tdinvFin
  exact .some h.setDesc.unitEnds

theorem Steady.scalesRow {acc : Scales} {k tl d side row col b0 n} (h : Steady s₀ acc.1) : Steady s₀ (acc.row k tl d side row col b0 n).1 := by
  refine .foldlOf Prod.fst h fun acc p h => ?_
  dsimp only
  split
  · exact h
  · split
    · exact h.threadWalk.updTile.threadTook
    · exact h.threadWalk.updTile
    · exact h.threadWalk

theorem Steady.scalesRows {acc : Scales} {k tl d side col b0 n} (h : Steady s₀ acc.1) : Steady s₀ (acc.rows k tl d side col b0 n).1 :=
  .foldlOf Prod.fst h fun _ _ h => h.scalesRow

theorem Steady.msclFin {op ans} (h : Steady s₀ s) : SteadyOpt s₀ (msclFin s op ans) := by
  have hs {d side col b0 n} : Steady s₀ (Scales.rows (s, op.view, none, ans) op.key op.tile d side col b0 n).1 := .scalesRows h
  unfold Machine.msclFin
  split
  · exact .none
  · refine .ite .none ?_
    dsimp only
    split
    · exact .some (hs.fst ‹_›).unitEnds
    · exact (hs.fst ‹_›).unitPiece

theorem Steady.needTile {op} (h : Steady s₀ s) : Steady s₀ (s.needTile op) := .ite h.bump.upd.takeTile.tileTaken h.bump.upd.updFibre

theorem Steady.mzeroApply {c t} (h : Steady s₀ s) : Steady s₀ (s.mzeroApply c t) := by
  unfold State.mzeroApply
  split
  · exact .ite h.updTile.endThread h
  · exact h

theorem Steady.operandWalk {k d k0 kb} (h : Steady s₀ s) : Steady s₀ (s.operandWalk k d k0 kb) :=
  .ite h (.foldl h fun _ _ h => .foldl h fun _ _ h => h.threadWalk)

theorem Steady.serveFetch {b o} (h : Steady s₀ s) : Steady s₀ (s.serveFetch b o) := .ite h h.updEop

theorem Steady.shareFetches (h : Steady s₀ s) : Steady s₀ s.shareFetches := .ite h (.foldl h.upd fun _ _ h => .foldl h fun _ _ h => h.serveFetch)

theorem Steady.noteFetch {op rows v} (h : Steady s₀ s) : Steady s₀ (s.noteFetch op rows v) := .ite h h.upd.shareFetches

theorem Steady.partnerEnds {op} (h : Steady s₀ s) : Steady s₀ (s.partnerEnds op) := by
  unfold State.partnerEnds
  split
  · exact h.deferFault
  · exact h.updEop

theorem Steady.mmaFails {op n va p} (h : Steady s₀ s) : Steady s₀ (s.mmaFails op n va p) := by
  unfold State.mmaFails
  split
  · exact h.threadFatal
  · exact h.partnerEnds.endThread
  · exact h
  · exact h

theorem Steady.mmaWalk {op} (h : Steady s₀ s) : Steady s₀ (s.mmaWalk op) := .ite h h.operandWalk.operandWalk

theorem Steady.mmaApply {c t} (h : Steady s₀ s) : Steady s₀ (s.mmaApply c t) := by
  unfold State.mmaApply
  split
  · exact h
  · refine .ite h ?_
    dsimp only
    split
    · exact h.mmaWalk.mmaFails
    · exact .ite (.updEop (.updTile (.ite h.mmaWalk h.mmaWalk.noteFetch))) (.endThread (.partnerEnds (.updTile (.ite h.mmaWalk h.mmaWalk.noteFetch))))

theorem Steady.copySettle {id} (h : Steady s₀ s) : Steady s₀ (s.copySettle id) := by
  unfold State.copySettle
  split
  · exact h
  · refine .ite h (.ite h.updEop ?_)
    split
    · exact h
    · refine .ite (.updEop (.getD (.map fun _ _ => h.endThread) h)) ?_
      split
      · exact .ite h h.accept
      · exact h

theorem Steady.mmaOne {c f x y t} (h : Steady s₀ s) : Steady s₀ (s.mmaOne c f x y t) := by
  unfold State.mmaOne
  refine .ite h.updFibre.fatal ?_
  extract_lets a b
  split
  · exact h.updFibre.fatal
  · split
    · exact h.updFibre.bump.upd.updEop.copySettle
    · exact h.updFibre.bump.upd.accept

theorem Steady.drainRows {op d tl ans} (h : Steady s₀ s) : Steady s₀ (s.drainRows op d tl ans).st := by
  refine .foldlOf Move.st h fun m i h => ?_
  split
  · exact h
  · refine .foldlOf Move.st h fun m p h => ?_
    split
    · exact h
    · exact h.moveWrite

theorem Steady.sendsOf {e} (h : Steady s₀ s) : Steady s₀ (s.sendsOf e) := by
  unfold State.sendsOf
  refine .ite h ?_
  split
  · exact h.sendSpans
  · exact h

theorem Steady.bulkSends (h : Steady s₀ s) : Steady s₀ s.bulkSends := .foldl h fun _ _ h => h.sendsOf

theorem Steady.mdrnApply {c tl ans} (h : Steady s₀ s) : Steady s₀ (s.mdrnApply c tl ans) := by
  unfold State.mdrnApply
  split
  · exact h
  · refine .ite h ?_
    dsimp only
    split
    · exact h.sendsOf
    · split
      · exact h.sendsOf.drainRows.threadFatal
      · exact h.sendsOf
      · exact .ite h.sendsOf.drainRows.updEop.freeTile h.sendsOf.drainRows.updEop

theorem Steady.copyRow {op ans} (h : Steady s₀ s) : Steady s₀ (s.copyRow op ans).1 := by
  have hr {src a dst b esz n} : Steady s₀ ((Move.start s op.view ans).row op src a dst b esz n).st := .moveRow h
  unfold State.copyRow
  dsimp only
  split
  · exact h
  · split
    · exact hr.threadFatal
    · exact h.askHost
    · exact h
    · exact hr.updEop

theorem Steady.copyOn {id n ans} (h : Steady s₀ s) : Steady s₀ (s.copyOn id n ans) := by
  induction n generalizing s ans with
  | zero => exact h
  | succ n ih =>
    unfold State.copyOn
    split
    · exact h
    · split
      · exact ih (h.copyRow.fst ‹_›)
      · exact h.copyRow.fst ‹_›

theorem Steady.copyLanded {id ans} (h : Steady s₀ s) : Steady s₀ (s.copyLanded id ans) := by
  unfold State.copyLanded
  split
  · exact h
  · exact .ite h (.ite h.sendsOf h.sendsOf.copyOn.copySettle)

theorem Steady.moveStage {m : Move} {op src dst b0 n} (h : Steady s₀ m.st) : Steady s₀ (m.stage op src dst b0 n).st :=
  .foldlOf Move.st h fun _ _ h => h.moveRow

theorem Steady.tmmFault {op desc va reason code cls peer} (h : Steady s₀ s) : Steady s₀ (s.tmmFault op desc va reason code cls peer) := h.updEop

theorem Steady.tmmStage {op ans} (h : Steady s₀ s) : Steady s₀ (s.tmmStage op ans) := by
  unfold State.tmmStage
  extract_lets d b0 m1 m
  have hm : Steady s₀ m.st := by
    have h1 : Steady s₀ m1.st := .moveStage h
    unfold m
    split
    · exact h1
    · exact h1.moveStage
  refine .ite h ?_
  split
  · exact hm.threadFatal
  · exact h.askHost
  · exact h
  · exact hm.updEop.tmmFault
  · exact hm.updEop.accept

theorem Steady.tmmBlock {op ra rb v} (h : Steady s₀ s) : Steady s₀ (s.tmmBlock op ra rb v) := h.updTile.updEop

theorem Steady.tmmApply {op ans} (h : Steady s₀ s) : Steady s₀ (s.tmmApply op ans) := by
  unfold State.tmmApply
  extract_lets d b0 kq a z
  have ha : Steady s₀ a.1 := .scalesRows h
  have hz : Steady s₀ z.1 := by
    unfold z
    split
    · exact ha
    · exact ha.scalesRows
  split
  · exact h.tmmBlock
  · split
    · exact hz.tmmFault
    · exact hz.threadFatal
    · exact h.askHost
    · exact h
    · split
      · exact hz.threadFatal
      · exact h
      · split
        · exact hz.threadFatal
        · exact h
        · exact hz.tmmBlock

theorem Steady.tmmChunk {id ans} (h : Steady s₀ s) : Steady s₀ (s.tmmChunk id ans) := by
  unfold State.tmmChunk
  split
  · exact h
  · refine .ite h ?_
    dsimp only
    split
    · exact h.sendsOf
    · exact .ite h.sendsOf.tmmStage (.ite h.sendsOf.tmmApply h.sendsOf)

/-! ### The extension word and the fabric units -/

theorem Steady.extend {x} (h : Steady s₀ s) : Steady s₀ (s.extend x) := by
  unfold State.extend
  split
  · exact h
  · exact h.setFlock

theorem Steady.privUnit {c act} (ha : ∀ c f s, Steady s₀ s → Steady s₀ (act c f s)) (h : Steady s₀ s) : Steady s₀ (privUnit c act s) :=
  .memberUnit (fun _ _ _ h => .ite (ha _ _ _ h) h.fatal) h

theorem Steady.meetRange {c t lo hi} (h : Steady s₀ s) : Steady s₀ (s.meetRange c t lo hi) :=
  .foldl h fun _ _ h => .foldl h fun _ _ h => h.meetLeaf

theorem Steady.reportEnd {op v n} (h : Steady s₀ s) : Steady s₀ (s.reportEnd op v n) := h.unitEnds.updFibre

theorem Steady.wopenFin {op ans} (h : Steady s₀ s) : SteadyOpt s₀ (wopenFin s op ans) := by
  unfold Machine.wopenFin
  dsimp only
  split
  · exact h.threadWalk.unitPiece
  · exact .ite (.some h.threadWalk.dropEop.fatal) (.ite (.some h.threadWalk.meetRange.dropEop.fatal) (.some h.threadWalk.meetRange.upd.reportEnd))

theorem Steady.closeWindow {w} (h : Steady s₀ s) : Steady s₀ (s.closeWindow w) := .ite h.upd h

theorem Steady.wrevokeFin {op ans} (h : Steady s₀ s) : SteadyOpt s₀ (wrevokeFin s op ans) := by
  unfold Machine.wrevokeFin
  refine .ite (.ite (.some h.reportEnd) .none) (.ite (.some h.dropEop.fatal) (.ite (.some h.dropEop.fatal) ?_))
  exact .ite (.some h.closeWindow.reportEnd) (.some h.closeWindow.updEop)

/-! ### Rings and records -/

theorem Steady.deviceWrite {loc bs} (h : Steady s₀ s) : Steady s₀ (s.deviceWrite loc bs) := h.bump.applyBytes

theorem Steady.trace {d kind clu qs lane reason a b} (h : Steady s₀ s) : Steady s₀ (s.trace d kind clu qs lane reason a b) :=
  .ite h (.ite h.upd.setReg h.upd.deviceWrite.setReg)

theorem Steady.traceLaunch {kind a b} (h : Steady s₀ s) : Steady s₀ (s.traceLaunch kind a b) := .ite h.trace h

theorem Steady.report {t tag status reason slot donev vec} (h : Steady s₀ s) : Steady s₀ (s.report t tag status reason slot donev vec) := by
  unfold State.report
  extract_lets ctl bad last n tail nxt ph s1 s2 s3
  have hl {u : State} (hu : Steady s₀ u) : Steady s₀ (last u) := .ite hu.emit hu
  have h3 : Steady s₀ s3 := .ite h.deviceWrite.setReg.setReg h.deviceWrite.setReg
  exact .ite (hl (.ite h.emit h)) (.ite (hl h.setReg.emit) (hl (.ite h3.emit h3)))

/-! ### Placing and releasing shares -/

theorem Steady.putShare {c k hh} (h : Steady s₀ s) : Steady s₀ (s.putShare c k hh) := by
  have hm : Steady s₀ { s with mem := s.mem.filter fun e => !(decide (spadLoc (4 * c + k) 0 ≤ e.1) && decide (e.1 < spadLoc (4 * c + k) 0 + 2 ^ 20)) } :=
    h.setMem (wf_filter _)
  exact .foldl (.foldl hm.upd fun _ _ h => h.updQuarter) fun _ _ h => .ite h h.bump.upd

theorem Steady.placeParish {ctx pid c0 offers} (h : Steady s₀ s) : Steady s₀ (s.placeParish ctx pid c0 offers) :=
  .foldl h.updCtx fun _ _ h => h.putShare.upd

theorem Steady.returnLoan {c l} (h : Steady s₀ s) : Steady s₀ (s.returnLoan c l) := h.updShare

theorem Steady.cancelLoans {p} (h : Steady s₀ s) : Steady s₀ (s.cancelLoans p) := .upd (.foldl h fun _ _ h => h.returnLoan)

theorem Steady.wipeTile {c t} (h : Steady s₀ s) : Steady s₀ (s.wipeTile c t) := h.bump.updTile

theorem Steady.releaseShare {sh} (h : Steady s₀ s) : Steady s₀ (s.releaseShare sh) := by
  unfold State.releaseShare
  refine .foldl ?_ fun _ _ h => .ite h.wipeTile.freeTile h
  refine .upd (.bump (.l1Leave ?_))
  split
  · refine .cancelLoans ?_
    split
    · exact h.returnLoan
    · exact h
  · split
    · exact h.returnLoan
    · exact h

theorem Steady.releaseShares {l} (h : Steady s₀ s) : Steady s₀ (s.releaseShares l) := .foldl h fun _ _ h => h.releaseShare

/-! ### Launching, placing and retiring -/

theorem Steady.rereadLine {slot} (h : Steady s₀ s) : Steady s₀ (s.rereadLine slot) := by
  unfold State.rereadLine
  refine .ite h.upd (.ite h ?_)
  refine .ite h.upd.deviceWrite.upd.report ?_
  split
  · exact h.upd.deviceWrite.upd.report
  · exact .upd (.bump (.foldl (.foldl h.upd.deviceWrite.upd fun _ _ h => .ite h h.meetVa) fun _ _ h => h.snoopNow))

theorem Steady.windowLeaves {page} (h : Steady s₀ s) : Steady s₀ (s.windowLeaves page) := .ite h h.upd

theorem Steady.windowEnters {page} (h : Steady s₀ s) : Steady s₀ (s.windowEnters page) := .ite h (.ite h.leavePage.upd h.leavePage)

theorem Steady.writeLwin {v} (h : Steady s₀ s) : Steady s₀ (s.writeLwin v) := by
  unfold State.writeLwin
  extract_lets old pageOf s1 s2 s3
  have h2 : Steady s₀ s2 := .setReg (.ite h.windowEnters h)
  have h3 : Steady s₀ s3 := .ite h2.windowLeaves h2
  exact .ite h (.ite h3.upd h3)

theorem Steady.testDep {order which} (h : Steady s₀ s) : Steady s₀ (s.testDep order which) := by
  unfold State.testDep
  split
  · exact h
  · split
    · exact h
    · exact .ite h.snoopNow.upd h.snoopNow

theorem Steady.startLoans {order pid l c0 os} (h : Steady s₀ s) : Steady s₀ (s.startLoans order pid l c0 os) :=
  .foldl h fun _ _ h => h.updShare.upd

theorem Steady.placeOne {d order pid l u start} (hs : ∀ s, Steady s₀ s → Steady s₀ (start s).1) (h : Steady s₀ s) :
    SteadyOpt s₀ (s.placeOne d order pid l u start) := by
  unfold State.placeOne
  refine .ite (.map fun _ _ => (hs _ h.upd).placeParish) ?_
  split
  · exact .some (hs _ h).placeParish
  · exact .ite .none (.map fun _ _ => h.startLoans)

theorem Steady.startLaunch {p n} (h : Steady s₀ s) : Steady s₀ (s.startLaunch p n).1 := h.upd.traceLaunch

theorem Steady.placeFor {d tn} (h : Steady s₀ s) : SteadyOpt s₀ (s.placeFor d tn) := by
  refine .bind fun x => .bind fun pid => ?_
  split
  · exact .placeOne (fun _ h => h) h
  · split
    · exact .placeOne (fun _ h => h.startLaunch) h
    · exact .none

theorem Steady.parishPlacement {d} (h : Steady s₀ s) : Steady s₀ (s.parishPlacement d) :=
  .ite h (.getD (.findSome? fun _ => h.placeFor) h)

theorem Steady.forcedDeparture {k} (h : Steady s₀ s) : Steady s₀ (s.forcedDeparture k) := by
  unfold State.forcedDeparture
  split
  · exact h
  · exact .ite (.getD h.putAway h) h

theorem Steady.stealRequest {d} (h : Steady s₀ s) : Steady s₀ (s.stealRequest d) := by
  unfold State.stealRequest
  refine .ite h ?_
  split
  · exact h.upd
  · exact h

theorem Steady.stealAnswer {d} (h : Steady s₀ s) : Steady s₀ (s.stealAnswer d) := by
  unfold State.stealAnswer
  split
  · exact h
  · dsimp only
    split
    · split
      · exact h.upd.updCtx
      · exact h.upd
    · split
      · exact h.upd.upd
      · exact h.upd
    · exact h.upd

theorem Steady.parishRetire {ctx pid} (h : Steady s₀ s) : Steady s₀ (s.parishRetire ctx pid) := .ite h.releaseShares.updCtx h

theorem Steady.unprotect {c} (h : Steady s₀ s) : Steady s₀ (s.unprotect c) := .ite h h.upd

theorem Steady.endLaunch {c status donev} (h : Steady s₀ s) : Steady s₀ (s.endLaunch c status donev) := h.unprotect.upd.report.upd.traceLaunch

theorem Steady.launchCompletion {c} (h : Steady s₀ s) : Steady s₀ (s.launchCompletion c) := by
  unfold State.launchCompletion
  split
  · exact h
  · refine .ite h (.ite h.departCarts ?_)
    refine .ite h.departCarts.endLaunch ?_
    split
    · exact h.departCarts.endLaunch
    · exact .ite h.departCarts h.departCarts.meetVa.bump.applyBytes.endLaunch

/-! ### The halt of a context -/

theorem Steady.stopRecord {c u i orig c0 c1 c2 c3} (h : Steady s₀ s) : Steady s₀ (s.stopRecord c u i orig c0 c1 c2 c3) :=
  .ite h.upd.setReg h.upd.deviceWrite.setReg

theorem Steady.landAll {l} (h : Steady s₀ s) : Steady s₀ (s.landAll l).1 := by
  refine .foldlOf Prod.fst h fun acc e h => ?_
  split
  · exact h.landRecord ‹_›
  · exact h
  · exact h.fatal

theorem Steady.report1 {c h₀ u c0 c1 c2 c3} (h : Steady s₀ s) : Steady s₀ (s.report1 c h₀ u c0 c1 c2 c3) := h.stopRecord

theorem Steady.stopQuarter {c i fs es q} (h : Steady s₀ s) : Steady s₀ (s.stopQuarter c i fs es q) := h.landAll.report1

theorem Steady.stopEngines {c h₀ cl} (h : Steady s₀ s) : Steady s₀ (s.stopEngines c h₀ cl) :=
  .ite (.ite h h.report1) (.report1 (.ite h h.report1))

theorem Steady.stopCarts {c h₀ d} (h : Steady s₀ s) : Steady s₀ (s.stopCarts c h₀ d) :=
  .ite h (.report1 (.foldl h.upd fun _ _ h => h.failAccess))

theorem Steady.stopFabric {c i fences late fs es d} (h : Steady s₀ s) : Steady s₀ (s.stopFabric c i fences late fs es d) :=
  .ite h.landAll.upd h.landAll.upd.report1.upd

theorem Steady.stopQueue {c i es p} (h : Steady s₀ s) : Steady s₀ (s.stopQueue c i es p) := by
  unfold State.stopQueue
  dsimp only
  split
  · exact h.landAll.report1
  · exact h.landAll.report1
  all_goals exact h.landAll

theorem Steady.releaseCharges {c} (h : Steady s₀ s) : Steady s₀ (s.releaseCharges c) :=
  .foldl (.foldl h fun _ _ h => h.releaseCharge) fun _ _ h => h.releaseCharge

theorem Steady.dropSaves {c} (h : Steady s₀ s) : Steady s₀ (s.dropSaves c) := by
  unfold State.dropSaves
  refine .foldl h fun _ _ h => ?_
  split
  · exact .ite h.updCtx h
  · exact .ite h (.updCtx (.ite h.releaseShares h))
  · exact h

theorem Steady.haltComplete {c} (h : Steady s₀ s) : Steady s₀ (s.haltComplete c) := by
  unfold State.haltComplete
  split
  · exact h
  · split
    · exact h
    · refine .ite h (.endLaunch (.releaseShares (.upd (.releaseCharges (.cancelLoans (.dropSaves (.foldl ?_ fun _ _ h => ?_)))))))
      · refine .foldl (.foldl (.foldl ?_ fun _ _ h => h.stopCarts) fun _ _ h => h.stopFabric) fun _ _ h => h.stopQueue
        exact .foldl (.foldl (.foldl h fun _ _ h => h.completeOp) fun _ _ h => h.stopQuarter) fun _ _ h => h.stopEngines
      · split
        · exact h.stopRecord
        · exact h

/-! ### The context instructions -/

theorem Steady.startFlips {t lo hi} (h : Steady s₀ s) : Steady s₀ (s.startFlips t lo hi) := .foldl h fun _ _ h => h.askBias

theorem Steady.writeXinv {t v} (h : Steady s₀ s) : Steady s₀ (s.writeXinv t v) := .ite h (.ite h.setReg h.setReg.startFlips)

theorem Steady.tenantL1s {tn f} (hf : ∀ s sh, Steady s₀ s → Steady s₀ (f s sh)) (h : Steady s₀ s) : Steady s₀ (s.tenantL1s tn f) := .foldl h hf

theorem Steady.drainTenancy {tn} (h : Steady s₀ s) : Steady s₀ (s.drainTenancy tn) := .departCarts (.tenantL1s (fun _ _ h => h.writeBack) h)

theorem Steady.dropEntries {tn r} (h : Steady s₀ s) : Steady s₀ (s.dropEntries tn r) := .upd (.tenantL1s (fun _ _ h => h.l1Leave) h)

theorem Steady.invalidationComplete {t} (h : Steady s₀ s) : Steady s₀ (s.invalidationComplete t) :=
  .ite h (.ite h.drainTenancy h.drainTenancy.setReg.dropEntries.upd)

theorem Steady.quiesce {c} (h : Steady s₀ s) : Steady s₀ (s.quiesce c) := by
  unfold State.quiesce
  exact .departCarts (.foldl h.updCtx.upd fun _ _ h => h.drain)

theorem Steady.decideAll {c} (h : Steady s₀ s) : Steady s₀ (s.decideAll c) := .foldl h fun _ _ h => h.decideOne

theorem Steady.switchOut {c} (h : Steady s₀ s) : Steady s₀ (s.switchOut c) := h.updCtx.upd.releaseShares

theorem Steady.writeImage {op x head body} (h : Steady s₀ s) : Steady s₀ (s.writeImage op x head body).1 := by
  unfold State.writeImage
  dsimp only
  split
  · exact h.threadWriteAll.fst ‹_›
  · exact (h.threadWriteAll.fst ‹_›).threadWriteAll

theorem Steady.saveOn {op} (h : Steady s₀ s) : SteadyOpt s₀ (s.saveOn op) := by
  unfold State.saveOn
  dsimp only
  split
  · exact .some h.reportEnd
  · refine .ite (.some h.reportEnd) (.ite .none (.ite (.some h.decideAll.updCtx.reportEnd) ?_))
    split
    · exact ((Steady.writeImage (.ite h.decideAll.updCtx.upd h.decideAll.updCtx)).fst ‹_›).updCtx.unitPiece
    · exact .ite (.some ((Steady.writeImage (.ite h.decideAll.updCtx.upd h.decideAll.updCtx)).fst ‹_›).switchOut.reportEnd) .none

theorem Steady.saveFin {op ans} (h : Steady s₀ s) : SteadyOpt s₀ (saveFin s op ans) := by
  unfold Machine.saveFin
  refine .ite h.saveOn ?_
  split
  · exact .some h.reportEnd
  · exact .ite (.some h.reportEnd) (.ite (.some h.reportEnd) (.ite (.some h.reportEnd) (.some (.getD h.quiesce.updEop.saveOn h.quiesce.updEop))))

/-- A fold that may fail keeps its state steady where each of its steps does. -/
theorem Steady.foldlBind {l : List Nat} {f : State × List Nat → Nat → Option (State × List Nat)}
    (hf : ∀ a i b, Steady s₀ a.1 → f a i = some b → Steady s₀ b.1) (acc : Option (State × List Nat)) (ha : ∀ a, acc = some a → Steady s₀ a.1)
    (b : State × List Nat) (hb : l.foldl (fun acc i => acc.bind fun a => f a i) acc = some b) : Steady s₀ b.1 := by
  induction l generalizing acc with
  | nil => exact ha b hb
  | cons i l ih =>
    refine ih _ (fun c hc => ?_) hb
    obtain ⟨a, rfl, hac⟩ := Option.bind_eq_some_iff.1 hc
    exact hf a i c (ha a rfl) hac

theorem Steady.placeImage {c x xs shs} (h : Steady s₀ s) (he : s.placeImage c x xs = some (t, shs)) : Steady s₀ t := by
  refine Steady.foldlBind (fun a i b h hb => ?_) (some (s, [])) (fun _ he => Option.some.inj he ▸ h) _ he
  obtain ⟨p, -, rfl⟩ := Option.map_eq_some_iff.1 hb
  exact .foldlOf Prod.fst h fun _ _ h => .foldl h.putShare fun _ _ h => h.takeTile

theorem Steady.takeLate {c k i} (h : Steady s₀ s) : Steady s₀ (s.takeLate c k i) := by
  unfold State.takeLate
  split
  · exact h
  · exact h.updFibre.landSnoop.landOrFault

theorem Steady.putBack {f res} (h : Steady s₀ s) : Steady s₀ (s.putBack f res) := by
  unfold State.putBack
  refine .ite ?_ ?_
  · split <;> exact h.upd
  · refine .ite ?_ h.upd
    split <;> exact h.upd

theorem Steady.moveShares {c ms} (h : Steady s₀ s) : Steady s₀ (s.moveShares c ms) := h.upd

theorem Steady.moveCharge {old f} (h : Steady s₀ s) : Steady s₀ (s.moveCharge old f) := h.updQuarter.updQuarter.updShare

theorem Steady.restoreHousehold {sh b x y} (h : Steady s₀ s) : Steady s₀ (s.restoreHousehold sh b x y) := by
  unfold State.restoreHousehold
  extract_lets win spad kept s1 s2 s3
  have h2 : Steady s₀ s2 := (h.updShare (sh := sh)).setMem (wf_writeBytes _ _)
  have h3 : Steady s₀ s3 := .foldl h2 fun _ _ h => h.updTile
  refine .foldl h3 fun s4 i h => ?_
  extract_lets off new w old s5 s6
  have h6 : Steady s₀ s6 := by
    have h5 : Steady s₀ s5 := h.bump.putBack
    unfold s6
    split
    · exact h5.takeLate
    · exact h5
  split
  · exact h6.moveCharge
  · exact h6

theorem Steady.restoreTmm {c sh b x y t i} (h : Steady s₀ s) : Steady s₀ (s.restoreTmm c sh b x y t i) := by
  unfold State.restoreTmm
  refine .ite h.upd ?_
  dsimp only
  split
  · exact h.updEop
  · exact h.bump.upd

theorem Steady.restoreMonitors {c b order} (h : Steady s₀ s) : Steady s₀ (s.restoreMonitors c b order) := by
  unfold State.restoreMonitors
  refine .foldl h fun _ _ h => ?_
  split
  · exact h
  · exact .ite h h.upd

theorem Steady.restore {c b x xs shs} (h : Steady s₀ s) : Steady s₀ (s.restore c b x xs shs) := by
  refine .foldl (.upd (.restoreMonitors (.foldl (.foldl h.moveShares.updCtx ?_) ?_))) ?_
  · exact fun _ _ h => h.restoreHousehold
  · exact fun _ _ h => .foldl h fun _ _ h => h.restoreTmm
  · exact fun _ _ h => h.grantTile.grantTile

theorem Steady.restOver {op} (h : Steady s₀ s) : Steady s₀ (s.restOver op) := h.updCtx

theorem Steady.restForged {op v ctr} (h : Steady s₀ s) : Steady s₀ (s.restForged op v ctr) := h.updCtx.unitFault

theorem Steady.restBody {op v x hd ans} (h : Steady s₀ s) : SteadyOpt s₀ (s.restBody op v x hd ans) := by
  unfold State.restBody
  refine .ite .none ?_
  split
  · exact Steady.unitPiece (.ite h h.restOver)
  · extract_lets w fin
    have hw : Steady s₀ w := .foldl h fun _ _ h => h.walkVa
    split
    · exact .some (.restForged (.ite hw.releaseShares hw))
    · split
      · exact .ite (.some hw.releaseShares.restForged) (.some hw.restOver.reportEnd)
      · refine .ite (.some hw.restore.reportEnd) ?_
        split
        · exact .some hw.restOver.reportEnd
        · exact .ite (.some (hw.placeImage ‹_›).updEop.sendsOf) (.some (hw.placeImage ‹_›).restore.reportEnd)

theorem Steady.restHead {op v hd ans} (h : Steady s₀ s) : SteadyOpt s₀ (s.restHead op v hd ans) := by
  unfold State.restHead
  dsimp only
  have h1 {g op1} : Steady s₀ (((s.updCtx op.arg g).updEop op.id fun _ => op1).sendsOf op1) := h.updCtx.updEop.sendsOf
  split
  · exact .some h.reportEnd
  · refine .ite (.ite h.restBody (.some h.reportEnd)) (.ite (.some h.reportEnd) (.ite (.some h.unitFault) ?_))
    exact .ite (.some h.reportEnd) (.ite (.some h.reportEnd) (.some (.ite h1 (.getD h1.restBody h1))))

theorem Steady.restFin {op ans} (h : Steady s₀ s) : SteadyOpt s₀ (restFin s op ans) := by
  unfold Machine.restFin
  refine .ite h.restHead ?_
  split
  · exact h.unitPiece
  · exact h.restHead

theorem Steady.keyldFin {op ans} (h : Steady s₀ s) : SteadyOpt s₀ (keyldFin s op ans) := by
  unfold Machine.keyldFin
  dsimp only
  split
  · exact h.threadWalk.unitPiece
  · refine .ite (.some h.threadWalk.reportEnd) ?_
    split
    · exact .some h.threadWalk.reportEnd
    · refine .ite (.some h.threadWalk.reportEnd) ?_
      split
      · exact .some h.threadWalk.reportEnd
      · exact .some h.threadWalk.upd.reportEnd

theorem Steady.evict {c} (h : Steady s₀ s) : Steady s₀ (s.evict c).1 := by
  refine .foldlOf Prod.fst h fun acc f h => ?_
  split
  · split
    · exact h.putAway _ ‹_›
    · exact h
  · exact h

theorem Steady.evictFin {op ans} (h : Steady s₀ s) : SteadyOpt s₀ (evictFin s op ans) := by
  unfold Machine.evictFin
  dsimp only
  split
  · exact .some h.reportEnd
  · exact .ite (.some h.reportEnd) (.ite (.some h.halt.reportEnd) (.some h.evict.reportEnd))

theorem Steady.setAway {c k g} (h : Steady s₀ s) : Steady s₀ (s.setAway c k g) := h.updCtx

theorem Steady.leaderDone {r} (h : Steady s₀ s) : Steady s₀ (s.leaderDone r) := by
  unfold State.leaderDone
  split
  · exact h.dropReq
  · exact h.updReq

theorem Steady.landLate {c k entry e i} (h : Steady s₀ s) (he : s.landLate c k entry e = .ok (some (t, i))) : Steady s₀ t := by
  unfold State.landLate at he
  split at he
  · exact h.landRecord he
  · split at he
    · cases he
    · split at he
      · cases he
        exact h.landWrite _ ‹_›
      · cases he

theorem Steady.landReply {c a r} (h : Steady s₀ s) : Steady s₀ (s.landReply c a r) := by
  unfold State.landReply
  split
  · exact h
  · dsimp only
    split
    · exact (h.landLate ‹_›).bump.releaseCharge.leaderDone.setAway
    · exact h
    · exact h.fatal

theorem Steady.landNow {c a id first} (h : Steady s₀ s) : Steady s₀ (s.landNow c a id first) := by
  unfold State.landNow
  split
  · exact h
  · exact .ite h (.ite h.landReply.count h.landReply)

theorem Steady.performAway {f r} (h : Steady s₀ s) : Steady s₀ (s.performAway f r).1 := by
  unfold State.performAway
  extract_lets s1 s2 s3 g
  have h2 : Steady s₀ s2 := .ite h.upd.release h.upd
  have h3 : Steady s₀ s3 := .ite h2.beginWait (.ite h2.poisonReq h2.perform)
  exact h3.upd

theorem Steady.lateReply {id a} (h : Steady s₀ s) : Steady s₀ (s.lateReply id a) := by
  unfold State.lateReply
  split
  · exact h
  · split
    · exact h
    · refine .ite h.landNow ?_
      split
      · exact .ite h h.performAway.setAway.landNow
      · exact h.peerAnswer.landNow

/-! ### Debug -/

theorem Steady.dump {q why num} (h : Steady s₀ s) : Steady s₀ (s.dump q why num) := by
  unfold State.dump
  refine .ite h ?_
  dsimp only
  split <;> exact h.deviceWrite

theorem Steady.cutChain {q} (h : Steady s₀ s) : Steady s₀ (s.cutChain q) := h.upd

theorem Steady.preciseStop {q why num} (h : Steady s₀ s) : Steady s₀ (s.preciseStop q why num) := .ite h h.cutChain.dump.updQuarter.trace

theorem Steady.quarterRelease {q stl} (h : Steady s₀ s) : Steady s₀ (s.quarterRelease q stl) := .ite h h.updQuarter.upd

theorem Steady.trapNow {k r} (h : Steady s₀ s) : Steady s₀ (s.trapNow k r) := by
  unfold State.trapNow
  split
  · exact h
  · exact .ite h (.ite h.updFibre.preciseStop (.ite h.halt h.bump.frameWrites.updFibre.leaveFlock))

theorem Steady.enterHandler {k cls code rip faddr unit seq} (h : Steady s₀ s) : Steady s₀ (s.enterHandler k cls code rip faddr unit seq) := by
  unfold State.enterHandler
  dsimp only
  split
  · exact h.cancelAfter
  · exact .ite h.cancelAfter.trapNow h.cancelAfter.updFibre.leaveFlock

theorem Steady.trapNext {k} (h : Steady s₀ s) : Steady s₀ (s.trapNext k) := by
  unfold State.trapNext
  split
  · exact h
  · split
    · exact h
    · exact .ite h.updFibre.trapNow.deliverNext h

theorem Steady.settleTraps (h : Steady s₀ s) : Steady s₀ s.settleTraps := .foldl h fun _ _ h => h.trapNext

theorem Steady.addHits {c i n} (h : Steady s₀ s) : Steady s₀ (s.addHits c i n) := h.setReg

theorem Steady.passed {fs i stop} (h : Steady s₀ s) : Steady s₀ (s.passed fs i stop) := h.upd

theorem Steady.hitActs {fl i why ua met act fa} (h : Steady s₀ s) : Steady s₀ (s.hitActs fl i why ua met act fa) := by
  unfold State.hitActs
  refine .ite h.passed.preciseStop ?_
  split
  · exact .foldl h.passed fun _ _ h => .ite h.enterHandler h
  · exact .ite h.passed.trace (.foldl h.passed fun _ _ h => h.trace)

theorem Steady.codeComparatorHit {q i} (h : Steady s₀ s) : Steady s₀ (s.codeComparatorHit q i) := by
  unfold State.codeComparatorHit
  split
  · exact h
  · exact h.addHits.hitActs

theorem Steady.dataWatchpointHit {q i} (h : Steady s₀ s) : Steady s₀ (s.dataWatchpointHit q i) := by
  unfold State.dataWatchpointHit
  split
  · exact h
  · exact h.addHits.hitActs

theorem Steady.stallSample {q} (h : Steady s₀ s) : Steady s₀ (s.stallSample q) := by
  unfold State.stallSample
  refine .ite h ?_
  dsimp only
  split
  · exact h.upd.trace
  · split <;> exact h.upd.trace

theorem Steady.samples (h : Steady s₀ s) : Steady s₀ s.samples := .foldl h fun _ _ h => h.stallSample

/-! ### Events of issue and of escorts -/

theorem Steady.flockForm {q} (h : Steady s₀ s) : Steady s₀ (s.flockForm q) := by
  unfold State.flockForm
  refine .ite h ?_
  split
  · exact h
  · dsimp only
    split
    · exact h
    · exact h.updQuarter.setFlock.upd

theorem Steady.depart {k} (h : Steady s₀ s) : Steady s₀ (s.depart k) := by
  unfold State.depart
  refine .ite h ?_
  split
  · exact h.departFor
  · exact h.departJoin

theorem Steady.creditRefill {die} (h : Steady s₀ s) : Steady s₀ (s.creditRefill die) := .foldlOf Prod.fst h fun _ _ h => h.updQuarter

theorem Steady.bring {id} (h : Steady s₀ s) : Steady s₀ (s.bring id) := by
  unfold State.bring
  split
  · exact .ite h.tryReq h
  · exact h

theorem Steady.countLate {t i} (h : Steady s₀ s) : Steady s₀ (s.countLate t i) := .ite h.deviceWrite h

theorem Steady.closeTag {id} (h : Steady s₀ s) : Steady s₀ (s.closeTag id) := by
  unfold State.closeTag
  split
  · exact h
  · dsimp only
    split
    · exact h.upd.heardFrom.countLate
    · exact h.upd.heardFrom

theorem Steady.replyArrival {id a} (h : Steady s₀ s) : Steady s₀ (s.replyArrival id a) := by
  unfold State.replyArrival
  split
  · exact h.closeTag
  · refine .ite h ?_
    dsimp only
    split
    exacts [h.decideReq.tryReq, h.decideReq, h.decideReq, h.decideReq.bring, h.decideReq.peerAnswer.bring]

theorem Steady.displacedTimeout {k} (h : Steady s₀ s) : Steady s₀ (s.displacedTimeout k) := by
  unfold State.displacedTimeout
  split
  · exact h
  · split
    · exact .ite h h.updFibre.bump
    · exact .ite h h.updFibre.bump
    · exact h

theorem Steady.waitcPoll {id a} (h : Steady s₀ s) : Steady s₀ (s.waitcPoll id a) := by
  unfold State.waitcPoll
  split
  · exact h
  · refine .ite h ?_
    dsimp only
    split
    · exact .ite h.decideReq.tryReq h.decideReq
    · exact .ite h.decideReq.tryReq h.decideReq
    · exact h.decideReq.peerAnswer.bring
    · exact h.decideReq

/-! ### Events of the fabric and of the engines -/

theorem Steady.leaveOne {k} (h : Steady s₀ s) : Steady s₀ (s.leaveOne k) := by
  unfold State.leaveOne
  split
  · exact h
  · split
    · split
      · exact h.writeBackLine
      · exact h.leave
    · split
      · exact h.release
      · exact h

theorem Steady.flushOut (h : Steady s₀ s) : Steady s₀ s.flushOut := .foldl h.upd fun _ _ h => .ite h.upd h.sendFlits.emit

theorem Steady.sendOut {va o} (h : Steady s₀ s) : Steady s₀ (s.sendOut va o) := h.upd.flushOut

theorem Steady.rxEnter {p} (h : Steady s₀ s) : Steady s₀ (s.rxEnter p) := .ite h.updPort.updPort.emit h.updPort

theorem Steady.reportLost {port p} (h : Steady s₀ s) : Steady s₀ (s.reportLost port p) := by
  unfold State.reportLost
  split
  · exact .ite h h.upd
  · exact h

theorem Steady.coolOn {p} (h : Steady s₀ s) : Steady s₀ (s.coolOn p) := .foldl h fun _ _ h => h.updFibre.bump

theorem Steady.unhint {port q} (h : Steady s₀ s) : Steady s₀ (s.unhint port q) := .foldl h.upd fun _ _ h => h.coolOn

theorem Steady.linkDown {port} (h : Steady s₀ s) : Steady s₀ (s.linkDown port) := h.upd.updPort.unhint

theorem Steady.heard {port} (h : Steady s₀ s) : Steady s₀ (s.heard port) := h.updPort

theorem Steady.exportWalk {win va e} (h : Steady s₀ s) : Steady s₀ (s.exportWalk win va e) := by
  unfold State.exportWalk
  split
  · exact h.meetVa
  · exact .ite h.meetVa h

theorem Steady.enterImport {loc peer plane wid n kind sa grp} (h : Steady s₀ s) : Steady s₀ (s.enterImport loc peer plane wid n kind sa grp) :=
  h.askHost.enterAq

theorem Steady.importAccess {hd es i} (h : Steady s₀ s) : Steady s₀ (s.importAccess hd es i).1 := by
  unfold State.importAccess
  split
  · exact h
  · dsimp only
    split
    · exact h.exportWalk
    · exact h.exportWalk.bump.enterImport

theorem Steady.sendAcks (h : Steady s₀ s) : Steady s₀ s.sendAcks := by
  unfold State.sendAcks
  exact h.upd.flushOut

theorem Steady.importPacket {hd es} (h : Steady s₀ s) : Steady s₀ (s.importPacket hd es) :=
  .ite h (.ite h.rxLeave (.ite h.rxLeave.answers (.sendAcks (.upd (.foldlOf Prod.fst h.rxLeave.answers.upd fun _ _ h => h.importAccess)))))

theorem Steady.importStep {peer va loc m k} (h : Steady s₀ s) : Steady s₀ (s.importStep peer va loc m k) := by
  unfold State.importStep
  dsimp only
  split
  · exact h.readLine.sendOut
  · exact h.fillLine.recall.readLine.sendOut
  · split <;> exact .sendOut (.ite h.readLine.bump.applyFrom h.readLine)
  · exact .sendOut (.ite h.readLine.bump.applyFrom h.readLine)
  · exact .sendOut (.ite h.fillLine.recall.readLine.bump.applyFrom h.fillLine.recall.readLine)

theorem Steady.importRequest {peer ten win gen va k} (h : Steady s₀ s) : Steady s₀ (s.importRequest peer ten win gen va k) := by
  unfold State.importRequest
  dsimp only
  split
  · exact h.exportWalk.sendOut
  · refine .ite h.exportWalk (.ite h.exportWalk.askHost (.ite h.exportWalk.sendOut ?_))
    exact .ite h.exportWalk.useAnswer.askHost.bump.bump.upd h.exportWalk.upd.snoop.useAnswer.importStep

theorem Steady.importBulk {peer ten win gen va elem bs} (h : Steady s₀ s) : Steady s₀ (s.importBulk peer ten win gen va elem bs) :=
  .sendAcks (.upd (.foldlOf Prod.fst h.exportWalk.bump fun _ _ h => h.bump.enterImport))

theorem Steady.importBulkRead {peer ten win gen va elem n} (h : Steady s₀ s) : Steady s₀ (s.importBulkRead peer ten win gen va elem n) := by
  unfold State.importBulkRead
  refine .ite h.exportWalk (.ite (.foldl h.exportWalk fun _ _ h => .ite h h.askHost) (.ite h.exportWalk.sendOut (.sendOut ?_)))
  exact .getD (.map fun _ _ => .readLine (.snoop (.foldl h.exportWalk fun _ _ h => h.useAnswer))) (.foldl h.exportWalk fun _ _ h => h.useAnswer)

theorem Steady.markDelivered {die group peer plane seq} (h : Steady s₀ s) : Steady s₀ (s.markDelivered die group peer plane seq) := h.upd

theorem Steady.popHead {c i t} (h : Steady s₀ s) : Steady s₀ (s.popHead c i t) := h.upd

theorem Steady.deliverHead {die group peer plane} (h : Steady s₀ s) : Steady s₀ (s.deliverHead die group peer plane) := by
  unfold State.deliverHead
  split
  · exact h
  · split
    · exact h
    · refine .ite h ?_
      dsimp only
      split
      · exact h.sendFlits.popHead.markDelivered.emit
      · split
        · exact h.sendFlits.popHead.updReq.emit
        · exact h.sendFlits.popHead
      · exact h.sendFlits.popHead.emit

theorem Steady.fromPeer {peer va n act} (ha : ∀ s, Steady s₀ s → Steady s₀ (act s)) (h : Steady s₀ s) : Steady s₀ (s.fromPeer peer va n act) :=
  .ite h (.ite h.rxLeave (ha _ h.rxLeave.answers))

theorem Steady.acknowledge {die group peer plane fails} (h : Steady s₀ s) : Steady s₀ (s.acknowledge die group peer plane fails) := by
  unfold State.acknowledge
  dsimp only
  split
  · exact h
  · refine .foldl (.upd (.rxLeave (.ite h h.answers))) fun _ _ h => ?_
    refine .foldl h fun _ _ h => ?_
    split
    · exact h.failAccess
    · exact h

theorem Steady.resend {plane} (h : Steady s₀ s) : Steady s₀ (s.resend plane) := h.upd

theorem Steady.writePmap {plane port} (h : Steady s₀ s) : Steady s₀ (s.writePmap plane port) := .setReg (.ite h.setReg h.setReg)

theorem Steady.finishRemap {plane port} (h : Steady s₀ s) : Steady s₀ (s.finishRemap plane port) :=
  .ite h (.ite h.upd.writePmap.resend h.upd.writePmap)

theorem Steady.finishRemaps (h : Steady s₀ s) : Steady s₀ s.finishRemaps := .foldl h fun _ _ h => h.finishRemap

theorem Steady.planeRemap {plane port} (h : Steady s₀ s) : Steady s₀ (s.planeRemap plane port) := .ite h h.upd.finishRemap

theorem Steady.peerProbe {peer} (h : Steady s₀ s) : Steady s₀ (s.peerProbe peer) := .ite h (.foldl h.upd fun _ _ h => h.sendFlits.emit)

theorem Steady.peerLost {p} (h : Steady s₀ s) : Steady s₀ (s.peerLost p) := by
  unfold State.peerLost
  refine .ite h (.foldl (.upd (.foldl (.upd (.foldl (.foldl h.setReg.upd ?_) ?_)) ?_)) ?_)
  · exact fun _ _ h => .ite h.updReq.lateReply h.updReq.bring
  · exact fun _ _ h => h.updFibre.bump
  · exact fun _ _ h => .foldl h fun _ _ h => h.failAccess
  · exact fun _ _ h => .foldl h fun _ _ h => h.failAccess

theorem Steady.answered {op n} (h : Steady s₀ s) : Steady s₀ (s.answered op n) := .foldl h fun _ _ h => .ite h.upd.rxLeave h.upd.rxLeave.answers

theorem Steady.tookAnswers {s op n} (h : Steady s₀ t) : Steady s₀ (t.tookAnswers s op n) := .ite h h.answered

theorem Steady.finishOf {o op ans} (h : Steady s₀ s) : SteadyOpt s₀ (finishOf o s op ans) := by
  unfold Machine.finishOf
  cases o.kind with
  | tdset => exact h.tdsetFin
  | tdget | monrd => exact h.writeFin
  | tdinv => exact h.tdinvFin
  | mscl => exact h.msclFin
  | monset => exact h.monsetFin
  | wopen => exact h.wopenFin
  | wrevoke => exact h.wrevokeFin
  | save => exact h.saveFin
  | rest => exact h.restFin
  | keyld => exact h.keyldFin
  | evict => exact h.evictFin
  | mzero | mma | mdrn | cpy | tmm => exact .some h.unitEnds

theorem Steady.waitMove {op remote} (h : Steady s₀ s) : Steady s₀ (s.waitMove op remote) := by
  unfold State.waitMove
  refine .ite h ?_
  dsimp only
  split
  · exact .getD h.sendsOf.finishOf h.sendsOf
  · exact h.sendsOf

theorem Steady.waitingUnitEnd {k remote} (h : Steady s₀ s) : Steady s₀ (s.waitingUnitEnd k remote) := by
  unfold State.waitingUnitEnd
  refine .ite h ?_
  split
  · exact h
  · split
    · split
      · exact h.updFibre
      · exact .ite h.unitEnds h.waitMove.tookAnswers
    · exact h

/-! ### What the host does -/

theorem Steady.readBusy {a n} (h : Steady s₀ s) : Steady s₀ (s.readBusy a n) := .ite (.foldl h fun _ _ h => h.rereadLine) h

theorem Steady.hostPut {a bs} (h : Steady s₀ s) : Steady s₀ (s.hostPut a bs) :=
  .ite h (.ite h.upd (.ite h.bump.upd.applyBytes (.ite h.bump.upd.useAnswer.applyBytes.upd h.bump.upd.enterAq)))

theorem Steady.hostStore {a bs} (h : Steady s₀ s) : Steady s₀ (s.hostStore a bs) := .foldl h.readBusy fun _ _ h => h.hostPut

theorem Steady.hostGet {a n} (h : Steady s₀ s) : Steady s₀ (s.hostGet a n) :=
  .ite h.emit (.ite h.emit (.ite h.emit (.ite h.upd (.emit (.ite h.useAnswer h.hostTouch)))))

theorem Steady.hostLoad {a n} (h : Steady s₀ s) : Steady s₀ (s.hostLoad a n) := .foldl h.readBusy fun _ _ h => h.hostGet

theorem Steady.hostResume {page} (h : Steady s₀ s) : Steady s₀ (s.hostResume page) := by
  unfold State.hostResume
  refine .foldl h.upd fun _ _ h => ?_
  split
  · exact h.hostPut
  · exact h.hostGet

theorem Steady.flipEnd {page} (h : Steady s₀ s) : Steady s₀ (s.flipEnd page) :=
  .ite h (.ite h.leavePage.upd.flipStart h.leavePage.upd.hostResume)

theorem Steady.hostSnoop {addr} (h : Steady s₀ s) : Steady s₀ (s.hostSnoop addr) :=
  .foldl h fun _ _ h => .ite (.testDep (.ite h.testDep h)) (.ite h.testDep h)

theorem Steady.writeTrows {t v} (h : Steady s₀ s) : Steady s₀ (s.writeTrows t v) := .ite h h.setReg

theorem Steady.writeCtxkill {v} (h : Steady s₀ s) : Steady s₀ (s.writeCtxkill v) := .ite h.halt h

theorem Steady.startReset {t} (h : Steady s₀ s) : Steady s₀ (s.startReset t) := .ite h (.foldl h.setReg fun _ _ h => h.halt)

theorem Steady.resetSteps {t} (h : Steady s₀ s) : Steady s₀ (s.resetSteps t) :=
  .startFlips (.upd (.foldl (.foldl h.upd fun _ _ h => h.cancelLoans.report) fun _ _ h => h.closeWindow))

theorem Steady.finishReset {t} (h : Steady s₀ s) : Steady s₀ (s.finishReset t) :=
  .ite h (.ite h.resetSteps.drainTenancy.dropEntries.setReg h.resetSteps.drainTenancy)

theorem Steady.writeReg {off v} (h : Steady s₀ s) : Steady s₀ (s.writeReg off v) := by
  unfold State.writeReg
  dsimp only
  split
  · exact h.setReg
  · exact h.setReg
  · exact .ite h h.setReg
  · exact h.writeLwin
  · exact h.writeTrows
  · exact h.writeXinv
  · exact h.writeCtxkill
  · exact .ite h.startReset h
  · exact .ite h.updQuarter.quarterRelease (.ite h.updQuarter.preciseStop h.updQuarter)
  · exact h.updQuarter
  · exact h

/-! ### The package as a device -/

theorem Steady.extendMeas {i x} (h : Steady s₀ s) : Steady s₀ (s.extendMeas i x) := h.upd

theorem Steady.setPwr {clk tmax} (h : Steady s₀ s) : Steady s₀ (s.setPwr clk tmax) := h.setReg

theorem Steady.clockEvaluation {power sensors} (h : Steady s₀ s) : Steady s₀ (s.clockEvaluation power sensors) := h.setPwr

theorem Steady.sliceRetire {d slice new} (h : Steady s₀ s) : Steady s₀ (s.sliceRetire d slice new) :=
  .ite h (.upd (.upd (.foldl h fun _ _ h => h.dropLine)))

/-! ### Chains -/

theorem Steady.holdExpiry {q} (h : Steady s₀ s) : Steady s₀ (s.holdExpiry q) := by
  unfold State.holdExpiry
  split
  · exact h
  · exact .ite h (.ite h (.ite h.setFlock (.ite h.endFlock h)))

/-! ### Predicate units -/

theorem Steady.settleFs {k} (h : Steady s₀ s) : Steady s₀ (s.settleFs k) := by
  unfold State.settleFs
  refine .foldl h fun _ _ h => ?_
  split
  · exact h.decideReq
  · exact h

theorem Steady.psetOne {c o k d bit} (h : Steady s₀ s) : Steady s₀ (s.psetOne c o k d bit) := .ite h.settleFs.updFibre h.settleFs.updFibre

/-! ### The passing of a step -/

theorem Steady.dropLines (h : Steady s₀ s) : Steady s₀ s.dropLines := by
  unfold State.dropLines
  split
  · exact h
  · exact .foldl h.upd fun _ _ h => h.dropLine

theorem Steady.elapse (h : Steady s₀ s) : Steady s₀ s.elapse := h.upd.upd

theorem Steady.settleUnits (h : Steady s₀ s) : Steady s₀ s.settleUnits :=
  .flushOut (.rfqFlush (.foldl (.foldl h.trySends.forks.bulkSends.finishRemaps.shareFetches fun _ _ h => h.copySettle) fun _ _ h => h.grantTile))


/-! ### Instructions and events -/

/-- The state that an instruction leads to, where it leads to one, is steady. -/
def SteadyOut (s₀ : State) (o : Out) : Prop := ∀ t, o = .next t → Steady s₀ t

theorem SteadyOut.next (h : Steady s₀ s) : SteadyOut s₀ (.next s) := fun _ he => Host.Outcome.next.inj he ▸ h

theorem SteadyOut.fault {c : Fault} : SteadyOut s₀ (.fault c) := nofun

theorem SteadyOut.ite {c : Prop} [Decidable c] {o p : Out} (ho : SteadyOut s₀ o) (hp : SteadyOut s₀ p) : SteadyOut s₀ (if c then o else p) := by
  split
  · exact ho
  · exact hp

/-- The instructions that may stop the clocks, or start them. -/
def movesClocks : Instr → Bool
  | .curfew _ | .packageReset | .clockEvaluation .. | .thermalTrip _ => true
  | _ => false

theorem Steady.execTdset {h₀ x g spad} (h : Steady s₀ s) : SteadyOut s₀ (execTdset h₀ x g spad s) := by
  refine .next (.memberUnit (fun _ _ _ h => ?_) h)
  dsimp only
  split
  · exact .waitUnit (.ite h h.walkVa)
  · exact h.accessFault

theorem Steady.execTdget {h₀ x g spad} (h : Steady s₀ s) : SteadyOut s₀ (execTdget h₀ x g spad s) := by
  refine .next (.memberUnit (fun _ _ _ h => ?_) h)
  dsimp only
  split
  · exact .waitUnit (.ite h h.walkVa)
  · exact h.accessFault

theorem Steady.execCpy {h₀ x y} (h : Steady s₀ s) : SteadyOut s₀ (execCpy h₀ x y s) := by
  refine .next (.memberUnit (fun _ _ _ h => ?_) h)
  dsimp only
  split
  · exact h.fatal
  · exact h.accessFault
  · exact h.bump.upd.updFibre

theorem Steady.execTmm {h₀ x y tile} (h : Steady s₀ s) : SteadyOut s₀ (execTmm h₀ x y tile s) := by
  refine .next (.memberUnit (fun _ _ _ h => ?_) h)
  dsimp only
  split
  · exact h.fatal
  · exact h.accessFault
  · exact h.bump.upd

theorem Steady.execWopen {h₀ d a b} (h : Steady s₀ s) : SteadyOut s₀ (execWopen h₀ d a b s) := by
  refine .next (.privUnit (fun _ _ _ h => .ite h.fatal ?_) h)
  split
  · exact h.walkVa.waitUnit
  · exact h.accessFault

theorem Steady.execSave {h₀ d a b} (h : Steady s₀ s) : SteadyOut s₀ (execSave h₀ d a b s) := by
  refine .next (.privUnit (fun _ _ _ h => .ite h.fatal ?_) h)
  split
  · exact .ite h.fatal h.walkVa.waitUnit
  · exact h.accessFault

theorem Steady.execRest {h₀ d a b} (h : Steady s₀ s) : SteadyOut s₀ (execRest h₀ d a b s) := by
  refine .next (.privUnit (fun _ _ _ h => .ite h.fatal ?_) h)
  split
  · exact .ite h.fatal h.walkVa.waitUnit
  · exact h.accessFault

theorem Steady.execKeyld {h₀ d a b} (h : Steady s₀ s) : SteadyOut s₀ (execKeyld h₀ d a b s) := by
  refine .next (.privUnit (fun _ _ _ h => .ite h.fatal ?_) h)
  split
  · exact .ite h.fatal h.walkVa.waitUnit
  · exact h.accessFault

theorem Steady.execMovpw {h₀ d r} (h : Steady s₀ s) : SteadyOut s₀ (execMovpw h₀ d r s) := by
  refine .next (.privUnit (fun _ _ _ h => ?_) h)
  split
  · exact h.updCtx
  · exact .ite h.writeXinv.updFibre h.writeXinv

theorem Steady.execUrgentFibre {k} (h : Steady s₀ s) : SteadyOut s₀ (execUrgentFibre k s) := by
  refine .next ?_
  split
  · exact .ite h.endAfter h
  · exact h

theorem Steady.execSleepExpiry {k} (h : Steady s₀ s) : SteadyOut s₀ (execSleepExpiry k s) := by
  refine .next ?_
  split
  · exact .ite h.updFibre.deliverNext h
  · exact h

theorem Steady.execEscortDecision {r} (h : Steady s₀ s) : SteadyOut s₀ (execEscortDecision r s) := by
  refine .next ?_
  split
  · exact .ite h h.decideReq
  · exact h

theorem Steady.execReinstatement {k} (h : Steady s₀ s) : SteadyOut s₀ (execReinstatement k s) := by
  refine .next ?_
  split
  · exact .ite h (.ite h.reinstate (.ite h h.reinstateDisplaced))
  · exact h

theorem Steady.execLdfRetest {r} (h : Steady s₀ s) : SteadyOut s₀ (execLdfRetest r s) := by
  refine .next ?_
  split
  · split
    · exact .ite h h.decideReq.tryReq
    · exact h
  · exact h

theorem Steady.execStepTrap {k} (h : Steady s₀ s) : SteadyOut s₀ (execStepTrap k s) := by
  refine .next ?_
  split
  · exact .ite h.enterHandler h
  · exact h

theorem Steady.execApplyWrite {die i} (h : Steady s₀ s) : SteadyOut s₀ (execApplyWrite die i s) := by
  refine .next ?_
  split
  · exact h.applyAq
  · exact h

theorem Steady.execCartAgeExpiry {die cart} (h : Steady s₀ s) : SteadyOut s₀ (execCartAgeExpiry die cart s) := by
  refine .next ?_
  split
  · exact .ite h.departCart h
  · exact h

theorem Steady.execChannelDeliver {d} (h : Steady s₀ s) : SteadyOut s₀ (execChannelDeliver d s) := by
  refine .next ?_
  split
  exacts [h.deliverHead, h.importPacket, .fromPeer (fun _ h => h.importRequest) h, .fromPeer (fun _ h => h.importBulk) h, .fromPeer (fun _ h => h.importBulkRead) h]

theorem Steady.execLateKind1Reinstate {k} (h : Steady s₀ s) : SteadyOut s₀ (execLateKind1Reinstate k s) := by
  refine .next ?_
  split
  · split
    · exact .ite h.turnIn h
    · exact h
  · exact h

theorem Steady.execDoeKekInstall {t pub iv wrapped tag} (h : Steady s₀ s) : SteadyOut s₀ (execDoeKekInstall t pub iv wrapped tag s) := by
  refine .next (.ite h ?_)
  split
  · exact h.upd.emit
  · exact h.emit

/-- Every instruction and event is steady, but for the four that move the clocks. -/
theorem Steady.exec {i : Instr} (hi : movesClocks i = false) (h : Steady s₀ s) : SteadyOut s₀ (exec i s) := by
  cases i with
  | iadd | isub | imul | imulh | imad | iadds | isubs | idiv | irem | imin | imax | iabs | ineg | and | or | xor | not | shl | shr | sar
    | rot | popc | clz | brev | bfe | bfi | addp | subp | iaddi | andi | ori | xori | shli | shri | sari | imuli | movi | movh | addpi
    | fadd | fsub | fmul | fma | fmin | fmax | fabs | fneg | frcp | frsq | fex2 | flg2 | fsin | fcos | cvt | cont | movs | pand | por | pxor
    | pnot | pmov | cmp =>
    exact .next h.resultUnit
  | bra | call => exact .next h.branch
  | brx | callx | ret => exact .next h.branchReg
  | fork => exact .next (.memberUnit (fun _ _ _ h => .ite h.fatal h.forkOne) h)
  | join => exact .next (.memberUnit (fun _ _ _ h => h.joinOne) h)
  | quit => exact .next (.memberUnit (fun _ _ _ h => .ite h.updFibre h.updFibre.quitStep) h)
  | yield => exact .next (.memberUnit (fun _ _ _ h => h.yieldOne) h)
  | nop => exact .next (.runUnit (fun _ _ h => h) h)
  | sleep => exact .next (.memberUnit (fun _ _ _ h => .ite h.yieldOne h.updFibre) h)
  | resume => exact .next (.memberUnit (fun _ _ _ h => h.resumeOne) h)
  | trap => exact .next (.memberUnit (fun _ _ _ h => h.deliverResident) h)
  | movsw => exact .next (.memberUnit (fun _ _ _ h => h.writeSpecial) h)
  | pset => exact .next (.runUnit (fun _ _ h => .foldl h fun _ _ h => h.psetOne) h)
  | ld | ldNarrow | ldAcq => exact .next h.globalLoad
  | st | stNarrow | stRel => exact .next h.globalStore
  | lds | ldsNarrow => exact .next h.spadLoad
  | sts | stsNarrow => exact .next h.spadStore
  | ldf | casv | rwl => exact .next (.eachMember (fun _ _ _ h => h.requestOne) h)
  | stf => exact .next (.eachMember (fun _ _ _ h => h.storeOne) h)
  | pref => exact .next (.memberUnit (fun _ _ _ h => h.prefOne) h)
  | escm => exact .next (.memberUnit (fun _ _ _ h => .ite h.fatal h.updFibre) h)
  | ldv => exact .next (.accessUnit (fun _ _ _ _ h => h.requestOne) h)
  | atomAdd | atomAnd | atomOr | atomXor | atomMin | atomMax | atomExch | atomCas | atomFadd | atomOrdAdd | atomOrdAnd | atomOrdOr
    | atomOrdXor | atomOrdMin | atomOrdMax | atomOrdExch | atomOrdCas | atomOrdFadd =>
    exact .next h.atomUnit
  | valset => exact .next (.eachMember (fun _ _ _ h => h.valsetOne) h)
  | waitcSigned | waitcUnsigned => exact .next h.waitcUnit
  | fence => exact .next (.memberUnit (fun _ _ _ h => h.updFibre) h)
  | bar => exact .next (.memberUnit (fun _ _ _ h => h.updFibre.release) h)
  | redAdd | redAnd | redOr | redXor | redMin | redMax | redFadd => exact .next h.redUnit
  | tdset => exact h.execTdset
  | tdget => exact h.execTdget
  | tdinv => exact .next (.memberUnit (fun _ _ _ h => h.waitUnit) h)
  | mscl | mzero => exact .next (.memberUnit (fun _ _ _ h => h.needTile) h)
  | mma => exact .next (.runUnitAny (fun _ _ h => .foldl h fun _ _ h => .ite h.mmaOne h) h)
  | mdrn => exact .next (.memberUnit (fun _ _ _ h => .ite h.fatal (.ite h.fatal h.bump.upd.accept)) h)
  | cpy => exact h.execCpy
  | tmm => exact h.execTmm
  | twait => exact .next (.eachMember (fun _ _ _ h => h.waitOne) h)
  | flushc => exact .next (.memberUnit (fun _ _ _ h => h.departCarts) h)
  | wopen => exact h.execWopen
  | wrevoke => exact .next (.privUnit (fun _ _ _ h => h.waitUnit) h)
  | monset => exact .next (.memberUnit (fun _ _ _ h => .ite h.fatal h.waitUnit) h)
  | monrd => exact .next (.memberUnit (fun _ _ _ h => .ite h.fatal (.ite h.fatal h.waitUnit)) h)
  | save => exact h.execSave
  | rest => exact h.execRest
  | keyld => exact h.execKeyld
  | evict => exact .next (.privUnit (fun _ _ _ h => .ite h.fatal h.waitUnit) h)
  | movp => exact .next (.privUnit (fun _ _ _ h => h.updFibre) h)
  | movpw => exact h.execMovpw
  | dbrk => exact .next (.memberUnit (fun _ _ _ h => .ite h h.enterHandler) h)
  | imx => exact .next h.extend
  | flockForm => exact .next h.flockForm
  | urgentFibre => exact h.execUrgentFibre
  | scoreboardHoldExpiry => exact .next h.holdExpiry
  | sleepExpiry => exact h.execSleepExpiry
  | escortDecision => exact h.execEscortDecision
  | departure => exact .next h.depart
  | escortCreditRefill => exact .next h.creditRefill
  | replyArrival => exact .next h.replyArrival
  | reinstatement => exact h.execReinstatement
  | displacedTimeout => exact .next h.displacedTimeout
  | lateReplyLanding => exact .next h.lateReply
  | ldfRetest => exact h.execLdfRetest
  | waitcPoll => exact .next h.waitcPoll
  | l1Writeback => exact .next h.writeBack
  | stepTrap => exact h.execStepTrap
  | codeComparatorHit => exact .next h.codeComparatorHit
  | dataWatchpointHit => exact .next h.dataWatchpointHit
  | writeBufferLeave => exact .next h.leaveOne
  | applyWrite => exact h.execApplyWrite
  | cartAgeExpiry => exact h.execCartAgeExpiry
  | channelDeliver => exact h.execChannelDeliver
  | packetAcknowledge => exact .next h.acknowledge
  | engineThreadComplete => exact .next h.completeOp
  | waitingUnitEnd => exact .next h.waitingUnitEnd
  | mzeroApply => exact .next h.mzeroApply
  | mmaApply => exact .next h.mmaApply
  | mdrnApply => exact .next h.mdrnApply.tookAnswers
  | copyLanded => exact .next h.copyLanded.tookAnswers
  | tmmChunk => exact .next h.tmmChunk.tookAnswers
  | flipEnd => exact .next h.flipEnd
  | snoopResponse | saddr | graceWindowEnd => exact .next h.upd
  | hostWrite => exact .ite (.next h.hostStore) .fault
  | hostRead => exact .ite (.next h.hostLoad) .fault
  | commitLineInvalidate => exact .next (.ite h.rereadLine h)
  | commitLineSweep | doeCertChain | doeUnknown => exact .next (.ite h.emit h)
  | lwinEnable => exact .next h.writeLwin
  | dependenceSatisfied | dependencePoll => exact .next h.testDep
  | parishPlacement => exact .next h.parishPlacement
  | forcedDeparture => exact .next h.forcedDeparture
  | stealRequest => exact .next h.stealRequest
  | stealAnswer => exact .next h.stealAnswer
  | parishRetire => exact .next h.parishRetire
  | launchCompletion => exact .next h.launchCompletion
  | contextHalt => exact .next (.ite h.halt h)
  | haltComplete => exact .next h.haltComplete
  | lateKind1Reinstate => exact h.execLateKind1Reinstate
  | xinv => exact .next (.ite h.writeXinv h)
  | invalidationComplete => exact .next (.ite h.invalidationComplete h)
  | trows => exact .next h.writeTrows
  | ctxkill => exact .next h.writeCtxkill
  | trst => exact .next h.startReset
  | tenancyResetDone => exact .next (.ite h.finishReset h)
  | registerWrite => exact .next h.writeReg
  | quarterStop => exact .next (.ite h.preciseStop h)
  | quarterRelease => exact .next h.quarterRelease
  | stallSample => exact .next h.stallSample
  | idcode | sdata | bypass => exact .next h.upd.emit
  | samplePreload => exact .next h.bump.upd.emit
  | extest => exact .next h.bump.upd.emit.emit.emit
  | curfew | packageReset | clockEvaluation | thermalTrip => cases hi
  | doeAttestation => exact .next (.ite h h.upd.emit)
  | doeExtend => exact .next (.ite h (.ite h.extendMeas.emit h.emit))
  | doeKekInstall => exact h.execDoeKekInstall
  | sliceRetire => exact .next h.sliceRetire
  | planeRemap => exact .next h.planeRemap
  | flitReceive => exact .next (.ite h (.ite h.updPort.emit (.ite h.reportLost.updPort.emit.rxEnter h.updPort.emit)))
  | replayRequest => exact .next (.ite h (.ite h.linkDown h.updPort.emit))
  | bufferHold | bufferRelease => exact .next (.ite h.heard.updPort h)
  | linkDown | linkSilenceTimeout => exact .next (.ite h.linkDown h)
  | holdHintOn => exact .next (.ite h.heard.upd h)
  | holdHintOff => exact .next (.unhint (.ite h.heard h))
  | holdHintExpiry => exact .next (.ite h.unhint h)
  | peerProbe => exact .next h.peerProbe
  | peerLost => exact .next (.ite h.peerLost h)
  | peerReadmit => exact .next (.ite h.setReg.upd h)
  | hostSnoop => exact .next h.hostSnoop
  | uncorrectableError | linkTrained | stewardKeyInstall => exact .next (.ite h.upd h)
  | peerNumberAssign => exact .next (.ite h.setReg h)
  | resetEnd => exact .next (.ite h (.ite h.extendMeas.extendMeas.extendMeas.upd h.upd))

/-! ### What is owed -/

/-- What the two invariants on debts read: of each fibre its residence and its writes, the answers owed, and the writes on their way. -/
def State.debts (s : State) : List (Res × List BufWrite) × List AckDue × List AqWrite :=
  (s.fibres.map fun f => (f.res, f.wb), s.acks, s.aq)

theorem noIdleEnded_of_debts (e : t.debts = s.debts) (h : NoIdleEnded s) : NoIdleEnded t := by
  intro f hf
  have hm : (f.res, f.wb) ∈ s.debts.1 := e ▸ List.mem_map_of_mem hf
  obtain ⟨g, hg, hgf⟩ := List.mem_map.1 hm
  obtain ⟨hr, hw⟩ := Prod.mk.inj hgf
  exact hr ▸ hw ▸ h g hg

theorem noOverdueAck_of_debts (e : t.debts = s.debts) (h : NoOverdueAck s) : NoOverdueAck t := by
  have ha : t.acks = s.acks := congrArg (fun d => d.2.1) e
  have hq : t.aq = s.aq := congrArg (fun d => d.2.2) e
  unfold NoOverdueAck
  rw [ha, hq]
  exact h

theorem debts_foldl {α : Type} {F : State → α → State} {l : List α} (hF : ∀ s a, (F s a).debts = s.debts) : (l.foldl F s).debts = s.debts := by
  induction l generalizing s with
  | nil => rfl
  | cons a l ih => exact ih.trans (hF s a)

theorem debts_mapFibres {F : Fibre → Fibre} (hr : ∀ f, (F f).res = f.res) (hw : ∀ f, (F f).wb = f.wb) :
    State.debts { s with fibres := s.fibres.map F } = s.debts := by
  simp [State.debts, hr, hw]

theorem debts_emit {o} : (s.emit o).debts = s.debts := rfl

theorem debts_recall {line keep} : (s.recall line keep).debts = s.debts := by rw [recall_only]; rfl

theorem debts_halt {c i} : (s.halt c i).debts = s.debts := by
  unfold State.halt
  split
  · rfl
  · split
    · rfl
    · refine debts_mapFibres (fun f => ?_) fun f => ?_ <;> split <;> rfl

theorem debts_machineCheck {kind die slice c} : (s.machineCheck kind die slice c).debts = s.debts := by
  unfold State.machineCheck
  dsimp only
  split
  · refine (debts_foldl fun t i => ?_).trans (debts_foldl fun t e => debts_halt)
    split <;> rfl
  · exact debts_halt

theorem debts_dropLine {line} : (s.dropLine line).debts = s.debts := by
  unfold State.dropLine
  split
  · rfl
  · dsimp only
    split
    · exact debts_machineCheck.trans debts_recall
    · exact debts_recall

theorem debts_fillLine {line} : (s.fillLine line).debts = s.debts := by
  unfold State.fillLine
  split
  · rfl
  · dsimp only
    split
    · split
      · exact debts_dropLine
      · rfl
    · rfl

theorem debts_writeLine {line loc n own counts} : (s.writeLine line loc n own counts).debts = s.debts := by
  unfold State.writeLine
  dsimp only
  split
  · split
    · exact debts_fillLine
    · exact debts_recall.trans debts_fillLine
  · split <;> exact debts_fillLine

theorem debts_writeLines {line loc n own counts i} : (s.writeLines line loc n own counts i).debts = s.debts := by
  induction i generalizing s line with
  | zero => rfl
  | succ i ih => exact ih.trans debts_writeLine

theorem debts_learnRead {d p loc n} : (s.learnRead d p loc n).debts = s.debts := by rw [learnRead_only]; rfl

theorem debts_ring {loc n} : (s.ring loc n).debts = s.debts := by
  refine (debts_foldl fun t r => ?_).trans rfl
  split
  · exact debts_learnRead
  · rfl

theorem debts_applyFrom {own counts stamp wid loc bs view} : (s.applyFrom own counts stamp wid loc bs view).debts = s.debts := by
  unfold State.applyFrom
  split
  · dsimp only
    split
    · rfl
    · exact debts_machineCheck
  · refine debts_ring.trans ?_
    split
    · rfl
    · exact debts_writeLines

theorem debts_setReg {off v} : (s.setReg off v).debts = s.debts := rfl

theorem debts_deviceWrite {loc bs} : (s.deviceWrite loc bs).debts = s.debts := debts_applyFrom.trans rfl

theorem debts_trace {d kind clu qs lane reason a b} : (s.trace d kind clu qs lane reason a b).debts = s.debts := by
  unfold State.trace
  extract_lets t x n tail head nxt seq u
  split
  · rfl
  · split
    · rfl
    · exact debts_setReg.trans (debts_deviceWrite.trans rfl)

theorem debts_stallSample {q} : (s.stallSample q).debts = s.debts := by
  unfold State.stallSample
  split
  · rfl
  · dsimp only
    split
    · exact debts_trace
    · split <;> exact debts_trace

theorem debts_flushOut : s.flushOut.debts = s.debts := by
  refine (debts_foldl fun t o => ?_).trans rfl
  extract_lets n
  split <;> rfl

theorem debts_countStalls : s.countStalls.debts = s.debts := debts_foldl fun _ _ => rfl

theorem debts_samples : s.samples.debts = s.debts := debts_foldl fun _ _ => debts_stallSample

theorem debts_elapse : s.elapse.debts = s.debts := by
  unfold State.elapse State.debts
  dsimp only
  split <;> simp [Fibre.aged, Fibre.stand, Function.comp_def, apply_ite]

theorem debts_walkVa {k va} : (s.walkVa k va).debts = s.debts := by
  have hm (s : State) (c : Option Nat) (t va : Nat) : (s.meetVa c t va).debts = s.debts := by
    unfold State.meetVa
    split
    · rw [meetLeaf_only]; rfl
    · rfl
    · rfl
  refine (hm _ _ _ _).trans ?_
  unfold State.joinWalk
  dsimp only
  split
  · rfl
  · refine (debts_mapFibres (fun f => ?_) fun f => ?_).trans (debts_foldl fun _ _ => debts_learnRead) <;> split <;> rfl

/-! ### The passing of a step -/

theorem noIdleEnded_forgetEnded : NoIdleEnded s.forgetEnded := by
  intro f hf he hw
  have := (List.mem_filter.1 hf).2
  simp [he, hw] at this

theorem noOverdueAck_sendAcks : NoOverdueAck s.sendAcks := by
  unfold State.sendAcks
  rw [List.partition_eq_filter_filter]
  refine noOverdueAck_of_debts debts_flushOut fun a ha => ?_
  simpa using (List.mem_filter.1 ha).2

theorem noIdleEnded_sendAcks (h : NoIdleEnded s) : NoIdleEnded s.sendAcks := noIdleEnded_of_debts debts_flushOut h

/-- A tick with the clocks running leaves nothing owed: what follows `sendAcks` in it changes no debt. -/
theorem noDebts_tick (hc : s.curfew = false) : NoIdleEnded s.tick ∧ NoOverdueAck s.tick := by
  have he : s.tick.debts = (s.dropLines.acquireAnswers.settle.settleTraps.settleUnits.forgetEnded.sendAcks).debts := by
    unfold State.tick
    rw [if_neg (by simp [hc])]
    dsimp only
    split
    · exact debts_countStalls
    · exact debts_elapse.trans (debts_samples.trans debts_countStalls)
  exact ⟨noIdleEnded_of_debts he (noIdleEnded_sendAcks noIdleEnded_forgetEnded), noOverdueAck_of_debts he noOverdueAck_sendAcks⟩

theorem Steady.tick {s₀ : State} (h : Steady s₀ s) : Steady s₀ s.tick := by
  have ht := h.dropLines.acquireAnswers.settle.settleTraps.settleUnits.forgetEnded.sendAcks.countStalls
  exact .ite h (.ite ht ht.samples.elapse)

/-! ### The choice of a step -/

/-- A plan whose state is steady, and in which an instruction finds the debts of `s₀`. -/
structure Plan.Follows (s₀ : State) (p : Plan) : Prop where
  steady : Steady s₀ p.st
  debts : p.run ≠ none → p.st.debts = s₀.debts

theorem Plan.Follows.idle (h : Steady s₀ s) : Plan.Follows s₀ ⟨s, none⟩ := ⟨h, nofun⟩

theorem Plan.Follows.run {i : Instr} (h : Steady s₀ s) (e : s.debts = s₀.debts) : Plan.Follows s₀ ⟨s, some i⟩ := ⟨h, fun _ => e⟩

theorem runWord_follows {fl k} (h : Steady s₀ s) (e : s.debts = s₀.debts) : Plan.Follows s₀ (s.runWord fl k) := by
  unfold State.runWord
  split
  · exact .idle h.walkVa.fatal
  · split
    · exact .idle h.fatal
    · exact .run h.walkVa (debts_walkVa.trans e)

theorem runUnitAt_follows {fl k} (h : Steady s₀ s) (e : s.debts = s₀.debts) : Plan.Follows s₀ (s.runUnitAt fl k) := by
  unfold State.runUnitAt
  split
  · exact .run h e
  · exact runWord_follows h e

theorem continueChain_follows {fl k} (h : Steady s₀ s) (e : s.debts = s₀.debts) : Plan.Follows s₀ (s.continueChain fl k) := by
  unfold State.continueChain
  dsimp only
  split
  · exact .idle h.upd.count.closeFlock
  · exact runUnitAt_follows h.upd e

theorem beginChain_follows {fl k p} (he : s.beginChain fl k = some p) : Plan.Follows s p := by
  have h := Steady.refl s
  unfold State.beginChain at he
  split at he
  · cases he
  · split at he
    · cases he
      exact .idle h.walkVa.fatal
    · split at he
      · cases he
      · cases he
        exact runUnitAt_follows h.upd.setFlock rfl

theorem flockIssue_follows {fl p} (he : s.flockIssue? fl = some p) : Plan.Follows s p := by
  unfold State.flockIssue? at he
  split at he
  · cases he
  · obtain ⟨k, -, hk⟩ := Option.bind_eq_some_iff.1 he
    exact beginChain_follows hk

theorem Plan.Follows.getD {o : Option Plan} (ho : ∀ p, o = some p → Plan.Follows s₀ p) (h : Steady s₀ s) : Plan.Follows s₀ (o.getD ⟨s, none⟩) := by
  cases o with
  | none => exact .idle h
  | some p => exact ho p rfl

theorem runAgenda_follows {p l} : Plan.Follows s (s.runAgenda p l) := by
  have h : Steady s { s with agenda := l } := (Steady.refl s).upd
  unfold State.runAgenda
  dsimp only
  split
  · split
    · exact .idle h
    · exact .run h rfl
  · split
    · exact .idle h
    · refine .getD (fun p hp => ?_) h
      obtain ⟨fl, -, hfl⟩ := Option.bind_eq_some_iff.1 hp
      obtain ⟨hs, hd⟩ := flockIssue_follows hfl
      exact ⟨⟨hs.mem, hs.clocks⟩, hd⟩

theorem planOwn_follows : Plan.Follows s s.planOwn := by
  have h := Steady.refl s
  unfold State.planOwn
  split
  · exact .run h rfl
  · split
    · exact .run h rfl
    · refine .getD (fun p hp => ?_) h
      obtain ⟨fl, -, hfl⟩ := List.exists_of_findSome?_eq_some hp
      exact flockIssue_follows hfl

theorem plan_follows : Plan.Follows s s.plan := by
  have h := Steady.refl s
  unfold State.plan
  split
  · exact continueChain_follows h rfl
  · split
    · exact runAgenda_follows
    · split
      · exact .idle h
      · exact planOwn_follows

theorem runAgenda_stopped {p l} (hc : s.curfew = true) :
    (s.runAgenda p l).st.debts = s.debts ∧ ∀ i, (s.runAgenda p l).run = some i → actsStopped i = true := by
  cases p with
  | event i =>
    refine ⟨rfl, fun j hj => ?_⟩
    simp only [State.runAgenda, hc] at hj
    split at hj
    · cases hj
    · next hn =>
      cases hj
      simp only [Bool.true_and, Bool.or_eq_true, Bool.not_eq_true', not_or] at hn
      simpa using hn.2
  | issue q =>
    have e : s.runAgenda (.issue q) l = ⟨{ s with agenda := l }, none⟩ := if_pos hc
    rw [e]
    exact ⟨rfl, fun _ hi => absurd hi.symm (Option.some_ne_none _)⟩

/-- With the clocks stopped the choice changes no debt, and runs only what still acts (R346). -/
theorem plan_stopped (hc : s.curfew = true) : s.plan.st.debts = s.debts ∧ ∀ i, s.plan.run = some i → actsStopped i = true := by
  unfold State.plan
  rw [if_pos hc]
  dsimp only
  split
  · exact runAgenda_stopped hc
  · rw [if_pos hc]
    exact ⟨rfl, fun _ hi => absurd hi.symm (Option.some_ne_none _)⟩

/-! ### One step -/

theorem wf_trip {x} (hm : s.mem.wf = true) : (s.trip x).mem.wf = true := wf_stopClocks (s := s.setPwr _ _) hm

/-- Every instruction keeps memory canonical, and so do those that move the clocks. -/
theorem wf_exec {i : Instr} (he : exec i s = .next t) (hm : s.mem.wf = true) : t.mem.wf = true := by
  cases hi : movesClocks i with
  | false => exact ((Steady.refl s).exec hi t he).mem hm
  | true =>
    cases i with
    | curfew =>
      cases he
      split
      · exact wf_stopClocks hm
      · exact hm
    | packageReset =>
      cases he
      exact wf_packageReset hm
    | clockEvaluation =>
      cases he
      split
      · exact wf_trip hm
      · split <;> exact hm
    | thermalTrip =>
      cases he
      split
      · exact wf_trip hm
      · exact hm
    | _ => cases hi

theorem debts_trip {x} : (s.trip x).debts = s.debts := rfl

theorem exec_debts_of_actsStopped {i : Instr} (hi : actsStopped i = true) (he : exec i s = .next t) (ht : t.curfew = true) : t.debts = s.debts := by
  cases i with
  | idcode | samplePreload | saddr | sdata | bypass =>
    cases he
    rfl
  | extest =>
    cases he
    exact debts_emit.trans (debts_emit.trans (debts_emit.trans rfl))
  | curfew =>
    cases he
    split <;> rfl
  | packageReset =>
    cases he
    cases ht
  | _ => cases hi

/-- An instruction after which the clocks stand still has changed no debt: it has stopped them, or it acts while they are stopped. -/
theorem exec_debts {i : Instr} (he : exec i s = .next t) (hs : s.curfew = true → actsStopped i = true) (ht : t.curfew = true) : t.debts = s.debts := by
  cases hi : movesClocks i with
  | false => exact exec_debts_of_actsStopped (hs (((Steady.refl s).exec hi t he).clocks ▸ ht)) he ht
  | true =>
    cases i with
    | curfew | packageReset => exact exec_debts_of_actsStopped rfl he ht
    | clockEvaluation =>
      cases he
      split
      · exact debts_trip
      · split <;> rfl
    | thermalTrip =>
      cases he
      split
      · exact debts_trip
      · rfl
    | _ => cases hi

/-- Settles O60: memory by what every plan, instruction and tick keeps; the debts by the tick while the clocks run, and by what still acts while they stand. -/
theorem stepsKeepInvariants : Obligations.StepsKeepInvariants := by
  intro s t hst
  obtain ⟨hp, hd⟩ : Plan.Follows s s.plan := plan_follows
  obtain ⟨u, rfl, hwf, hdebts⟩ : ∃ u : State, t = u.tick ∧ (s.mem.wf = true → u.mem.wf = true) ∧ (u.curfew = true → u.debts = s.debts) := by
    unfold step at hst
    split at hst
    · cases hst
      exact ⟨_, rfl, hp.mem, fun hc => (plan_stopped (hp.clocks ▸ hc)).1⟩
    · next i hi =>
      split at hst
      · next u he =>
        cases hst
        refine ⟨u, rfl, fun hm => wf_exec he (hp.mem hm), fun hc => ?_⟩
        refine (exec_debts he (fun h => (plan_stopped (hp.clocks ▸ h)).2 i hi) hc).trans (hd (by simp [hi]))
      · cases hst
      · cases hst
  refine ⟨fun hm => (Steady.refl u).tick.mem (hwf hm), fun hi ho => ?_⟩
  cases hc : u.curfew with
  | false => exact noDebts_tick hc
  | true =>
    rw [State.tick, if_pos hc]
    exact ⟨noIdleEnded_of_debts (hdebts hc) hi, noOverdueAck_of_debts (hdebts hc) ho⟩

end Sys2Proof.Machine
end

section
/-! PROOF that O48 fails: a launch need not run once it is placed.

PARISH_PLACEMENT writes the trace record of a launch (R342, R344) before it places the parish. Where the slice of the trace ring's
line can take no further version, that write raises a machine check of KIND 1 (R365), and the machine check halts every context,
with them the one that the launch has just become: it stands in STATE 6, where the statement has it run. -/

namespace Sys2Proof.Tests
open Sys2Proof.Machine Sys2Proof.Safety

/-- The state `sToStart`, whose pending launch is about to start on die 0, with launch events traced: the ring of die 0 stands at
0x70000000 and is enabled (EN and LEV), and the floor of the slice of its first line is the highest version that a line can have. -/
def sTraceAtLimit : State :=
  { sToStart.setReg (offTrbuf 0) 0x70000005 with floors := [(sToStart.homeSlice 0x70000000, 2 ^ 48 - 1)] }

/-- The next launch of tenancy 0 is the pending one, and die 0 has a place for its parish: what the placement clause assumes. -/
theorem sTraceAtLimit_starts : sTraceAtLimit.current 0 = some (launch0, [(0, 0)], 5) ∧ sTraceAtLimit.headLaunch 0 = some (0, 5, none)
    ∧ sTraceAtLimit.freeCtx = some 1 ∧ sTraceAtLimit.pending.find? (fun p => decide (p.order = 5)) = some (pending0 true)
    ∧ (sTraceAtLimit.findPlace launch0.ten 0 launch0.hh fun c _ => sTraceAtLimit.offer c (demand launch0)) = some (0, [(1, 16)]) := by
  and_intros <;> decide +kernel

/-- The placement halts the context that it starts: the launch becomes context 1, and that is in STATE 6. -/
theorem sTraceAtLimit_halts : ((sTraceAtLimit.parishPlacement 0).ctxs.get? 1).map (fun x => x.st) = some 6 := by decide +kernel

/-- Refutes O48: in `sTraceAtLimit` the trace record of the launch raises a machine check, which halts the context that the launch
becomes, where the placement clause has it run. -/
theorem not_launchesStart : ¬ Obligations.LaunchesStart := by
  unfold Obligations.LaunchesStart
  intro h
  obtain ⟨hcur, hhead, hfree, hpend, hplace⟩ := sTraceAtLimit_starts
  obtain ⟨-, -, -, -, -, -, -, placement, -⟩ := h sTraceAtLimit 0 0 0#64
  obtain ⟨places, -⟩ := placement 0 launch0 [(0, 0)] 5 (by decide) hcur
  obtain ⟨-, starts⟩ := places 0 0 [(1, 16)] rfl rfl (fun e he => absurd he (Nat.not_lt_zero e)) rfl hplace
  obtain ⟨t, hexec, -, -, y, hy, hruns, -⟩ := starts 0 1 (pending0 true) hhead hfree hpend
  have ht : sTraceAtLimit.parishPlacement 0 = t := Host.Outcome.next.inj hexec
  have hhalts := sTraceAtLimit_halts
  rw [ht, hy, Option.map_some, hruns] at hhalts
  exact absurd hhalts (by decide)

end Sys2Proof.Tests
end

section
/-! PROOF of O47: the host's accesses, page flips, errors and snoops.

Three frames carry the proof. `State.besideLines` is the state without what the lines of the slices may change as they move, which
includes the machine check of a slice that has no further version: all that a host access or a flip does to the lines leaves it as
it was. `Served p s t` says of the way from `s` to `t` that accesses of page `p` have been served. `State.besideDeps` is the state
without what the test of a dependence may change. -/

namespace Sys2Proof.Machine
open Sys2Proof.Safety

/-! ### Tables -/

theorem tab_getD_set {α : Type} (t : Tab α) (k j : Nat) (x d : α) : (t.set k x).getD j d = if j = k then x else t.getD j d := by
  rw [Tab.getD, tab_get_set]
  split <;> rfl

/-- What a table holds after a map that leaves every key alone. -/
theorem tab_get_map {α : Type} {g : Nat × α → Nat × α} (f : Nat → α → α) (hg : ∀ e, g e = (e.1, f e.1 e.2)) (t : Tab α) (k : Nat) :
    Tab.get? (t.map g) k = (t.get? k).map (f k) := by
  induction t with
  | nil => rfl
  | cons e t ih =>
    rw [List.map_cons, hg, Tab.get?, Tab.get?, ih]
    by_cases h : e.1 = k
    · rw [if_pos h, if_pos h, h, Option.map_some]
    · rw [if_neg h, if_neg h]

/-! ### What lines leave alone as they move -/

/-- The state without lines, and without what a machine check changes; of the registers LWIN alone is left. -/
def State.besideLines (s : State) : State :=
  { s with
    lines := [], hbits := [], l1 := [], floors := [], frozen := [], ctxs := [], fibres := [], flocks := [], out := []
    regs := [(offLwin, s.reg offLwin)] }

theorem besideLines_setReg (s : State) {off : Nat} (h : off ≠ offLwin) (v : DWord) : (s.setReg off v).besideLines = s.besideLines := by
  have hr : (s.setReg off v).reg offLwin = s.reg offLwin := (tab_getD_set _ _ _ _ _).trans (if_neg h.symm)
  rw [State.besideLines, hr]
  rfl

theorem besideLines_foldl {α : Type} (l : List α) (F : State → α → State) (hF : ∀ s a, (F s a).besideLines = s.besideLines) (s : State) :
    (l.foldl F s).besideLines = s.besideLines := by
  induction l generalizing s with
  | nil => rfl
  | cons a l ih => rw [List.foldl_cons, ih, hF]

theorem besideLines_halt (s : State) (c : Nat) (i : HaltInfo) : (s.halt c i).besideLines = s.besideLines := by
  unfold State.halt
  split
  · rfl
  · split <;> rfl

theorem besideLines_machineCheck (s : State) (kind die slice c : Nat) : (s.machineCheck kind die slice c).besideLines = s.besideLines := by
  unfold State.machineCheck
  dsimp only
  split
  · rw [besideLines_foldl, besideLines_foldl]
    · exact besideLines_setReg s (by decide) _
    · exact fun s e => besideLines_halt s _ _
    · intro s t
      split <;> rfl
  · exact (besideLines_halt _ _ _).trans (besideLines_setReg s (by decide) _)

theorem besideLines_recall (s : State) (line : Nat) (keep : Bool) : (s.recall line keep).besideLines = s.besideLines := by
  rw [recall_only]
  rfl

theorem besideLines_dropLine (s : State) (line : Nat) : (s.dropLine line).besideLines = s.besideLines := by
  unfold State.dropLine
  split
  · rfl
  · dsimp only
    split
    · rw [besideLines_machineCheck, besideLines_recall]
    · exact besideLines_recall s _ _

theorem besideLines_fillLine (s : State) (line : Nat) : (s.fillLine line).besideLines = s.besideLines := by
  unfold State.fillLine
  split
  · rfl
  · dsimp only
    split
    · split
      · exact besideLines_dropLine s _
      · rfl
    · rfl

theorem besideLines_hostTouch (s : State) (a : Nat) (keep : Bool) (n : Nat) : (s.hostTouch a keep n).besideLines = s.besideLines := by
  induction n generalizing s a with
  | zero => rfl
  | succ n ih =>
    rw [State.hostTouch, ih]
    exact (besideLines_recall _ _ _).trans (besideLines_fillLine s _)

theorem besideLines_l1Clear (s : State) (p : Nat → Bool) : (s.l1Clear p).besideLines = s.besideLines :=
  besideLines_foldl _ _ (fun s l => besideLines_recall s l false) s

theorem besideLines_leavePage (s : State) (page : Nat) : (s.leavePage page).besideLines = s.besideLines :=
  (besideLines_foldl _ _ (fun s l => besideLines_dropLine s l) _).trans (besideLines_l1Clear s _)

theorem besideLines_writeLine (s : State) (line loc n : Nat) (own : Option Nat) (c : Bool) : (s.writeLine line loc n own c).besideLines = s.besideLines := by
  unfold State.writeLine
  dsimp only
  split
  · split
    · exact besideLines_fillLine s _
    · exact (besideLines_recall _ _ _).trans (besideLines_fillLine s _)
  · split <;> exact besideLines_fillLine s _

theorem besideLines_writeLines (s : State) (line loc n : Nat) (own : Option Nat) (c : Bool) (i : Nat) :
    (s.writeLines line loc n own c i).besideLines = s.besideLines := by
  induction i generalizing s line with
  | zero => rfl
  | succ i ih => rw [State.writeLines, ih, besideLines_writeLine]

theorem inWindow_of_besideLines {s t : State} (h : t.besideLines = s.besideLines) (loc n : Nat) : t.inWindow loc n = s.inWindow loc n :=
  have hb := congrArg (fun x : State => x.inWindow loc n) h
  hb

/-- The pages, and the accesses of the host that flips hold. -/
def State.hostPages (s : State) : Tab PageAttr × List HostAccess := (s.pages, s.hostHeld)

theorem hostPages_of_besideLines {s t : State} (h : t.besideLines = s.besideLines) : t.hostPages = s.hostPages :=
  have hb := congrArg State.hostPages h
  hb

/-! ### What a write leaves alone -/

/-- The test of the bells changes requests and what dies know, and nothing else (R254). -/
theorem ring_only (s : State) (loc n : Nat) : s.ring loc n = { s with reqs := (s.ring loc n).reqs, kn := (s.ring loc n).kn } := by
  unfold State.ring
  dsimp only
  rw [foldl_kn_only]
  intro s r
  split
  · rw [learnRead_only]
  · rfl

theorem hostPages_ring (s : State) (loc n : Nat) : (s.ring loc n).hostPages = s.hostPages := by
  rw [ring_only]
  rfl

/-- A write changes no page and holds no access of the host. -/
theorem hostPages_applyFrom (s : State) (own : Option Nat) (c : Bool) (st : List Nat) (wid loc : Nat) (bs : List Byte) (v : Option View) :
    (s.applyFrom own c st wid loc bs v).hostPages = s.hostPages := by
  unfold State.applyFrom
  split
  · dsimp only
    split
    · rfl
    · exact hostPages_of_besideLines (besideLines_machineCheck s _ _ _ _)
  · dsimp only
    rw [hostPages_ring]
    split
    · rfl
    · rw [hostPages_of_besideLines (besideLines_writeLines _ _ _ _ _ _ _)]
      rfl

/-- A line that finds room in its slice is filled, and no other line leaves. -/
theorem fillLine_only_of_roomy {s : State} (h : Roomy s) (line : Nat) : s.fillLine line = { s with lines := (s.fillLine line).lines } := by
  have hfull : decide (8192 ≤ (s.sliceLines (s.homeSlice (256 * line))).length) = false := decide_eq_false (Nat.not_le.2 (h _))
  unfold State.fillLine
  split
  · rfl
  · simp only [hfull, Bool.and_false]
    rfl

/-- A write that reaches a line of a slice with room changes lines only. -/
theorem writeLine_only_of_roomy {s : State} (h : Roomy s) (line loc n : Nat) (own : Option Nat) (c : Bool) :
    s.writeLine line loc n own c = { s with lines := (s.writeLine line loc n own c).lines, l1 := (s.writeLine line loc n own c).l1 } := by
  unfold State.writeLine
  dsimp only
  rw [fillLine_only_of_roomy h]
  split
  · split
    · rfl
    · rw [recall_only]
  · split <;> rfl

theorem fibres_writeLine_of_roomy {s : State} (h : Roomy s) (line loc n : Nat) (own : Option Nat) (c : Bool) :
    (s.writeLine line loc n own c).fibres = s.fibres := by
  rw [writeLine_only_of_roomy h]

/-- A write of one line that no slice stops, and that evicts none, moves no fibre. -/
theorem fibres_applyBytes_of_roomy {s : State} (h : Roomy s) {loc : Nat} {bs : List Byte} (hone : lineCount loc bs.length = 1)
    (hgo : (List.range (lineCount loc bs.length)).all (fun i => !s.sliceStops (loc + 256 * i)) = true) (wid : Nat) (v : Option View) :
    (s.applyBytes wid loc bs v).fibres = s.fibres := by
  unfold State.applyBytes State.applyFrom
  split
  · next i hi =>
    have hstops : s.sliceStops (loc + 256 * i) = true := by simpa using List.find?_some hi
    simpa [hstops] using List.all_eq_true.1 hgo i (List.mem_of_find?_eq_some hi)
  · dsimp only
    rw [ring_only]
    split
    · rfl
    · rw [hone, State.writeLines, State.writeLines, fibres_writeLine_of_roomy]
      exact h

/-- A write that no slice stops stores its bytes, byte for byte. -/
theorem get_applyBytes {s : State} {loc : Nat} {bs : List Byte} (hwf : s.mem.wf = true)
    (hgo : (List.range (lineCount loc bs.length)).all (fun i => !s.sliceStops (loc + 256 * i)) = true) (wid : Nat) (v : Option View) (x : Nat) :
    (s.applyBytes wid loc bs v).mem.get x = if loc ≤ x ∧ x < loc + bs.length then bs.getD (x - loc) 0#8 else s.mem.get x := by
  rw [State.applyBytes, mem_applyFrom, if_pos hgo, get_writeBytes loc x bs hwf]
  rfl

/-! ### Answers of the host that are used up (R144) -/

/-- The use of an answer changes what its page has left of answers. -/
theorem useAnswer_page (s : State) (loc n : Nat) : ∃ an, (s.useAnswer loc n).pages.getD (loc / 65536) PageAttr.init
    = { s.pages.getD (loc / 65536) PageAttr.init with answered := an } := by
  unfold State.useAnswer
  split
  · exact ⟨_, (tab_getD_set _ _ _ _ _).trans (if_pos rfl)⟩
  · exact ⟨_, rfl⟩

theorem useAnswer_page_other (s : State) (loc n : Nat) {q : Nat} (h : q ≠ loc / 65536) :
    (s.useAnswer loc n).pages.getD q PageAttr.init = s.pages.getD q PageAttr.init := by
  unfold State.useAnswer
  split
  · exact (tab_getD_set _ _ _ _ _).trans (if_neg h)
  · rfl

theorem hostBias_useAnswer (s : State) (loc n x : Nat) : (s.useAnswer loc n).hostBias x = s.hostBias x := by
  have hpage : ((s.useAnswer loc n).page x).hostBias = (s.page x).hostBias := by
    by_cases h : x / 65536 = loc / 65536
    · obtain ⟨an, e⟩ := useAnswer_page s loc n
      rw [State.page, h, e, State.page, h]
    · rw [State.page, useAnswer_page_other s loc n h, State.page]
  rw [State.hostBias, hpage, useAnswer_only]
  rfl

theorem roomy_useAnswer {s : State} (h : Roomy s) (loc n : Nat) : Roomy (s.useAnswer loc n) := by
  intro sl
  have hlines : (s.useAnswer loc n).sliceLines sl = s.sliceLines sl := by
    unfold State.sliceLines State.inSlice
    simp only [hostBias_useAnswer]
    rw [useAnswer_only]
    rfl
  rw [hlines]
  exact h sl

theorem sliceStops_useAnswer (s : State) (loc n x : Nat) : (s.useAnswer loc n).sliceStops x = s.sliceStops x := by
  rw [useAnswer_only]
  rfl

end Sys2Proof.Machine
end

section
/-! PROOF of O47, continued: the parts of an access, and one part of a write and of a read. -/

namespace Sys2Proof.Machine
open Sys2Proof.Safety

/-! ### The parts of an access (R237) -/

/-- The pieces cover the bytes from `off` on once and in order, none is empty, and none crosses the end of a page, where there is
fuel for every page. -/
theorem hostPieces_cover (a fuel off n : Nat) (hfuel : n = 0 ∨ (a + off) % 65536 + n ≤ 65536 * fuel) :
    (hostPieces a fuel off n).flatMap (fun p => (List.range p.2).map fun i => p.1 + i) = (List.range n).map (fun i => off + i)
      ∧ ∀ p ∈ hostPieces a fuel off n, 0 < p.2 ∧ (a + p.1) % 65536 + p.2 ≤ 65536 := by
  induction fuel generalizing off n with
  | zero =>
    obtain rfl : n = 0 := by omega
    exact ⟨rfl, nofun⟩
  | succ fuel ih =>
    rw [hostPieces]
    split
    · next h0 =>
      subst h0
      exact ⟨rfl, nofun⟩
    · next h0 =>
      have hsplit : ∃ m, m = min n (65536 - (a + off) % 65536) ∧ 0 < m ∧ m ≤ n ∧ (a + off) % 65536 + m ≤ 65536 := ⟨_, rfl, by omega, by omega, by omega⟩
      obtain ⟨m, hm, hpos, hle, hpage⟩ := hsplit
      dsimp only
      rw [← hm]
      obtain ⟨hcover, hparts⟩ := ih (off + m) (n - m) (by omega)
      constructor
      · rw [List.flatMap_cons, hcover, ← Nat.add_sub_of_le hle, List.range_add, List.map_append, List.map_map, Nat.add_sub_cancel_left]
        simp only [Function.comp_def, Nat.add_assoc]
      · rw [List.forall_mem_cons]
        exact ⟨⟨hpos, hpage⟩, hparts⟩

theorem pageParts_cover (a n : Nat) : (pageParts a n).flatMap (fun p => (List.range p.2).map fun i => p.1 + i) = List.range n
    ∧ ∀ p ∈ pageParts a n, 0 < p.2 ∧ (a + p.1) % 65536 + p.2 ≤ 65536 := by
  obtain ⟨hcover, hparts⟩ := hostPieces_cover a (n / 65536 + 2) 0 n (by omega)
  simp only [Nat.zero_add, List.map_id'] at hcover
  exact ⟨hcover, hparts⟩

/-- An access that meets no busy slot re-reads no commit line first (R31). -/
theorem readBusy_of_free {s : State} {a n : Nat} (h : ∀ i < lineCount a n, s.slotBusy (a + 256 * i) = false) : s.readBusy a n = s := by
  have hany : ((List.range (lineCount a n)).any fun i => s.slotBusy (a + 256 * i)) = false :=
    List.any_eq_false.2 fun i hi => by simp [h i (List.mem_range.1 hi)]
  rw [State.readBusy, hany]
  rfl

/-! ### One part of a write (R143 to R146, R237) -/

/-- The write reaches a protected page or what lies past the memory that leaves map. -/
def State.hostDrops (s : State) (a n : Nat) : Prop := isHost a = false ∧ (dramLimit < a + n ∨ (s.page a).prot = true)

/-- A flip holds the write. -/
def State.hostHolds (s : State) (a n : Nat) : Prop := ¬ s.hostDrops a n ∧ isHost a = false ∧ (s.page a).flipping = true

/-- A write of the host has entered, with its number. -/
def State.hostEnters (s : State) : State := { s.bump with hostWids := s.serial :: s.hostWids }

theorem hostPut_of_drops {s : State} {a : Nat} {bs : List Byte} (h : s.hostDrops a bs.length) : s.hostPut a bs = s := by
  obtain ⟨hh, hd⟩ := h
  exact if_pos (by simpa [hh] using hd)

theorem hostPut_of_holds {s : State} {a : Nat} {bs : List Byte} (h : s.hostHolds a bs.length) :
    s.hostPut a bs = { s with hostHeld := s.hostHeld ++ [⟨a, bs.length, some bs⟩] } := by
  obtain ⟨hd, hh, hf⟩ := h
  rw [State.hostDrops] at hd
  exact (if_neg (by simpa [hh] using hd)).trans (if_pos (by simp [hh, hf]))

/-- A write that is neither dropped nor held enters. -/
theorem hostPut_of_enters {s : State} {a : Nat} {bs : List Byte} (hd : ¬ s.hostDrops a bs.length) (hf : isHost a = false → (s.page a).flipping = false) :
    s.hostPut a bs = if isHost a then s.hostEnters.applyBytes s.serial a bs (some s.hostView)
      else if s.hostBias a then
        let s1 := (s.hostEnters.useAnswer a bs.length).applyBytes s.serial a bs (some s.hostView)
        { s1 with hostCommits := s1.hostCommits ++ s.hostEnters.committed a bs.length }
      else s.hostEnters.enterAq 0 .host s.serial a bs.length (.store bs) (some s.hostView) false 0 false := by
  rw [State.hostDrops] at hd
  refine (if_neg ?_).trans ((if_neg ?_).trans rfl)
  · cases hh : isHost a
    · simpa [hh] using hd
    · simp
  · cases hh : isHost a
    · simp [hf hh]
    · simp

/-- The state in which a write that does not go by an apply queue is applied: in host bias the host's answer is used up (R144). -/
def State.hostWrites (s : State) (a n : Nat) : State := if isHost a then s.hostEnters else s.hostEnters.useAnswer a n

theorem hostWrites_only (s : State) (a n : Nat) : s.hostWrites a n = { s.hostEnters with pages := (s.hostWrites a n).pages } := by
  unfold State.hostWrites
  split
  · rfl
  · rw [useAnswer_only]

theorem roomy_hostWrites {s : State} (h : Roomy s) (a n : Nat) : Roomy (s.hostWrites a n) := by
  unfold State.hostWrites
  split
  · exact h
  · exact roomy_useAnswer (s := s.hostEnters) h a n

theorem sliceStops_hostWrites (s : State) (a n x : Nat) : (s.hostWrites a n).sliceStops x = s.sliceStops x := by
  rw [hostWrites_only]
  rfl

/-- A write that enters is applied at once in host memory and in a page in host bias. -/
theorem hostPut_applies {s : State} {a : Nat} {bs : List Byte} (hd : ¬ s.hostDrops a bs.length) (hf : isHost a = false → (s.page a).flipping = false)
    (hb : isHost a = true ∨ s.hostBias a = true) :
    ∃ hc, s.hostPut a bs = { (s.hostWrites a bs.length).applyBytes s.serial a bs (some s.hostView) with hostCommits := hc } := by
  rw [hostPut_of_enters hd hf, State.hostWrites]
  cases hh : isHost a
  · have hbias : s.hostBias a = true := hb.resolve_left (by simp [hh])
    simp only [hbias, if_true]
    exact ⟨_, rfl⟩
  · exact ⟨_, rfl⟩

theorem hostPut_of_device {s : State} {a : Nat} {bs : List Byte} (hd : ¬ s.hostDrops a bs.length) (hf : (s.page a).flipping = false)
    (hh : isHost a = false) (hb : s.hostBias a = false) :
    s.hostPut a bs = s.hostEnters.enterAq 0 .host s.serial a bs.length (.store bs) (some s.hostView) false 0 false := by
  rw [hostPut_of_enters hd fun _ => hf, hh, hb]
  rfl

/-! ### One part of a read (R143 to R146, R237) -/

/-- What a read of a page that is neither protected nor in flip does before its answer: the host's answer is used up, or its lines come to the host (R144). -/
def State.hostReads (s : State) (a n : Nat) : State := if s.hostBias a then s.useAnswer a n else s.hostTouch a true (lineCount a n)

theorem hostGet_of_host {s : State} {a : Nat} (n : Nat) (h : isHost a = true) : s.hostGet a n = s.emit (.hostData a (s.mem.readBytes a n) false) := if_pos h

theorem hostGet_past {s : State} {a n : Nat} (h : isHost a = false) (hp : dramLimit < a + n) : s.hostGet a n = s.emit (.hostData a (List.replicate n 0#8) false) :=
  (if_neg (by simp [h])).trans (if_pos hp)

theorem hostGet_of_prot {s : State} {a n : Nat} (h : isHost a = false) (hp : a + n ≤ dramLimit) (hprot : (s.page a).prot = true) :
    s.hostGet a n = s.emit (.hostData a (List.replicate n 0xFF#8) true) :=
  (if_neg (by simp [h])).trans ((if_neg (Nat.not_lt.2 hp)).trans (if_pos hprot))

theorem hostGet_of_flipping {s : State} {a n : Nat} (h : isHost a = false) (hp : a + n ≤ dramLimit) (hprot : (s.page a).prot = false)
    (hf : (s.page a).flipping = true) : s.hostGet a n = { s with hostHeld := s.hostHeld ++ [⟨a, n, none⟩] } :=
  (if_neg (by simp [h])).trans ((if_neg (Nat.not_lt.2 hp)).trans ((if_neg (by simp [hprot])).trans (if_pos hf)))

theorem hostGet_of_open {s : State} {a n : Nat} (h : isHost a = false) (hp : a + n ≤ dramLimit) (hprot : (s.page a).prot = false)
    (hf : (s.page a).flipping = false) : s.hostGet a n = (s.hostReads a n).emit (.hostData a (s.mem.readBytes a n) (s.poisoned a n)) :=
  (if_neg (by simp [h])).trans ((if_neg (Nat.not_lt.2 hp)).trans ((if_neg (by simp [hprot])).trans (if_neg (by simp [hf]))))

/-- A part of a read finds its place in one of five cases. -/
theorem hostGet_cases (s : State) (a n : Nat) : (∃ bytes poison, s.hostGet a n = s.emit (.hostData a bytes poison))
    ∨ (isHost a = false ∧ (s.page a).flipping = true ∧ s.hostGet a n = { s with hostHeld := s.hostHeld ++ [⟨a, n, none⟩] })
    ∨ s.hostGet a n = (s.hostReads a n).emit (.hostData a (s.mem.readBytes a n) (s.poisoned a n)) := by
  cases h : isHost a
  · by_cases hp : dramLimit < a + n
    · exact .inl ⟨_, _, hostGet_past h hp⟩
    · cases hprot : (s.page a).prot
      · cases hf : (s.page a).flipping
        · exact .inr (.inr (hostGet_of_open h (Nat.not_lt.1 hp) hprot hf))
        · exact .inr (.inl ⟨rfl, rfl, hostGet_of_flipping h (Nat.not_lt.1 hp) hprot hf⟩)
      · exact .inl ⟨_, _, hostGet_of_prot h (Nat.not_lt.1 hp) hprot⟩
  · exact .inl ⟨_, _, hostGet_of_host n h⟩

/-- A read before its answer leaves all but lines and the answers of its page. -/
theorem hostReads_keeps (s : State) (a n : Nat) : (s.hostReads a n).mem = s.mem ∧ (s.hostReads a n).aq = s.aq ∧ (s.hostReads a n).reqs = s.reqs := by
  unfold State.hostReads
  split
  · rw [useAnswer_only]
    exact ⟨rfl, rfl, rfl⟩
  · have h := besideLines_hostTouch s a true (lineCount a n)
    have hm := congrArg State.mem h
    have ha := congrArg State.aq h
    have hr := congrArg State.reqs h
    exact ⟨hm, ha, hr⟩

/-- A read writes nothing and asks for nothing. -/
theorem hostGet_keeps (s : State) (a n : Nat) : (s.hostGet a n).mem = s.mem ∧ (s.hostGet a n).aq = s.aq ∧ (s.hostGet a n).reqs = s.reqs := by
  obtain ⟨_, _, e⟩ | ⟨-, -, e⟩ | e := hostGet_cases s a n
  · rw [e]
    exact ⟨rfl, rfl, rfl⟩
  · rw [e]
    exact ⟨rfl, rfl, rfl⟩
  · rw [e]
    exact hostReads_keeps s a n

end Sys2Proof.Machine
end

section
/-! PROOF of O47, continued: the flips of pages. -/

namespace Sys2Proof.Machine
open Sys2Proof.Safety

/-! ### Accesses that are served (R145) -/

/-- From `s` to `t` accesses of page `p` are made: no other page changes, of that page no more than its answers, and no access is held. -/
structure Served (p : Nat) (s t : State) : Prop where
  others : ∀ q, q ≠ p → t.pages.getD q PageAttr.init = s.pages.getD q PageAttr.init
  page : ∃ an, t.pages.getD p PageAttr.init = { s.pages.getD p PageAttr.init with answered := an }
  held : t.hostHeld = s.hostHeld

theorem Served.of_hostPages {p : Nat} {s t : State} (h : t.hostPages = s.hostPages) : Served p s t := by
  obtain ⟨hp, hh⟩ := Prod.mk.inj h
  exact ⟨fun q _ => by rw [hp], ⟨_, by rw [hp]⟩, hh⟩

theorem Served.trans {p : Nat} {s t u : State} (h : Served p s t) (k : Served p t u) : Served p s u := by
  obtain ⟨an, ha⟩ := h.page
  obtain ⟨bn, hb⟩ := k.page
  exact ⟨fun q hq => (k.others q hq).trans (h.others q hq), ⟨bn, by rw [hb, ha]⟩, k.held.trans h.held⟩

theorem Served.flipping {p : Nat} {s t : State} (h : Served p s t) :
    (t.pages.getD p PageAttr.init).flipping = (s.pages.getD p PageAttr.init).flipping := by
  obtain ⟨an, ha⟩ := h.page
  rw [ha]

theorem Served.hostBias {p : Nat} {s t : State} (h : Served p s t) :
    (t.pages.getD p PageAttr.init).hostBias = (s.pages.getD p PageAttr.init).hostBias := by
  obtain ⟨an, ha⟩ := h.page
  rw [ha]

theorem served_useAnswer (s : State) (a n : Nat) : Served (a / 65536) s (s.useAnswer a n) :=
  ⟨fun _ hq => useAnswer_page_other s a n hq, useAnswer_page s a n, by rw [useAnswer_only]⟩

theorem served_hostReads (s : State) (a n : Nat) : Served (a / 65536) s (s.hostReads a n) := by
  unfold State.hostReads
  split
  · exact served_useAnswer s a n
  · exact .of_hostPages (hostPages_of_besideLines (besideLines_hostTouch s _ _ _))

theorem served_hostWrites (s : State) (a n : Nat) : Served (a / 65536) s (s.hostWrites a n) := by
  unfold State.hostWrites
  split
  · exact .of_hostPages rfl
  · exact .trans (t := s.hostEnters) (.of_hostPages rfl) (served_useAnswer _ a n)

/-- A part of a write is served where its page is not in flip. -/
theorem served_hostPut {s : State} {a : Nat} (hf : (s.page a).flipping = false) (bs : List Byte) : Served (a / 65536) s (s.hostPut a bs) := by
  by_cases hd : s.hostDrops a bs.length
  · rw [hostPut_of_drops hd]
    exact .of_hostPages rfl
  · by_cases hb : isHost a = true ∨ s.hostBias a = true
    · obtain ⟨hc, e⟩ := hostPut_applies hd (fun _ => hf) hb
      rw [e]
      exact (served_hostWrites s a bs.length).trans (.of_hostPages (hostPages_applyFrom _ _ _ _ _ _ _ _))
    · obtain ⟨hh, hbias⟩ := not_or.1 hb
      rw [hostPut_of_device hd hf (by simpa using hh) (by simpa using hbias)]
      exact .of_hostPages rfl

/-- A part of a read is served where its page is not in flip. -/
theorem served_hostGet {s : State} {a : Nat} (hf : (s.page a).flipping = false) (n : Nat) : Served (a / 65536) s (s.hostGet a n) := by
  obtain ⟨_, _, e⟩ | ⟨-, hflip, -⟩ | e := hostGet_cases s a n
  · rw [e]
    exact .of_hostPages rfl
  · exact absurd (hf.symm.trans hflip) (by decide)
  · rw [e]
    exact (served_hostReads s a n).trans (.of_hostPages rfl)

/-- One held access is made. -/
def State.hostAgain (s : State) (h : HostAccess) : State :=
  match h.data with
  | some bs => s.hostPut h.addr bs
  | none => s.hostGet h.addr h.n

theorem served_hostAgain {s : State} {h : HostAccess} (hf : (s.page h.addr).flipping = false) : Served (h.addr / 65536) s (s.hostAgain h) := by
  unfold State.hostAgain
  split
  · exact served_hostPut hf _
  · exact served_hostGet hf _

theorem served_foldl_hostAgain {p : Nat} (l : List HostAccess) (hl : ∀ h ∈ l, h.addr / 65536 = p) (s : State)
    (hf : (s.pages.getD p PageAttr.init).flipping = false) : Served p s (l.foldl State.hostAgain s) := by
  induction l generalizing s with
  | nil => exact .of_hostPages rfl
  | cons h l ih =>
    obtain ⟨hh, hl⟩ := List.forall_mem_cons.1 hl
    subst hh
    have hs := served_hostAgain (s := s) (h := h) hf
    exact hs.trans (ih hl _ (hs.flipping.trans hf))

/-- The state without the held accesses of a page. -/
def State.unheld (s : State) (p : Nat) : State := { s with hostHeld := s.hostHeld.filter fun h => h.addr / 65536 ≠ p }

theorem hostResume_eq (s : State) (p : Nat) : s.hostResume p = (s.hostHeld.filter fun h => h.addr / 65536 = p).foldl State.hostAgain (s.unheld p) := rfl

/-- The held accesses of a page that is no longer in flip are all served. -/
theorem served_hostResume {s : State} {p : Nat} (hf : (s.pages.getD p PageAttr.init).flipping = false) : Served p (s.unheld p) (s.hostResume p) := by
  rw [hostResume_eq]
  exact served_foldl_hostAgain _ (fun h hh => by simpa using (List.mem_filter.1 hh).2) _ hf

theorem hostResume_of_none {s : State} {p : Nat} (h : ∀ x ∈ s.hostHeld, x.addr / 65536 ≠ p) : s.hostResume p = s := by
  have hnone : (s.hostHeld.filter fun x => x.addr / 65536 = p) = [] := List.filter_eq_nil_iff.2 fun x hx => by simpa using h x hx
  have hall : (s.hostHeld.filter fun x => x.addr / 65536 ≠ p) = s.hostHeld := List.filter_eq_self.2 fun x hx => by simpa using h x hx
  rw [hostResume_eq, hnone, List.foldl_nil, State.unheld, hall]

/-! ### The end of a flip (R145, R238) -/

/-- A page has turned: it has left slices and L1s, and has the other bias. -/
def State.turned (s : State) (p : Nat) : State :=
  let x := s.pages.getD p PageAttr.init
  { s.leavePage p with
    pages := (s.leavePage p).pages.set p { x with hostBias := !x.hostBias, flipping := false, asked := [], answered := [] }
    hbits := if x.hostBias then (s.leavePage p).hbits.filter fun l => l / 256 ≠ p else (s.leavePage p).hbits }

theorem turned_page (s : State) (p : Nat) : (s.turned p).pages.getD p PageAttr.init
    = { s.pages.getD p PageAttr.init with hostBias := !(s.pages.getD p PageAttr.init).hostBias, flipping := false, asked := [], answered := [] } :=
  (tab_getD_set _ _ _ _ _).trans (if_pos rfl)

theorem turned_page_other (s : State) {p q : Nat} (h : q ≠ p) : (s.turned p).pages.getD q PageAttr.init = s.pages.getD q PageAttr.init := by
  have hp : (s.leavePage p).pages = s.pages := (Prod.mk.inj (hostPages_of_besideLines (besideLines_leavePage s p))).1
  exact ((tab_getD_set _ _ _ _ _).trans (if_neg h)).trans (by rw [hp])

theorem turned_hostHeld (s : State) (p : Nat) : (s.turned p).hostHeld = s.hostHeld :=
  (Prod.mk.inj (hostPages_of_besideLines (besideLines_leavePage s p))).2

theorem turned_mem (s : State) (p : Nat) : (s.turned p).mem = s.mem :=
  have hm := congrArg State.mem (besideLines_leavePage s p)
  hm

theorem turned_inWindow (s : State) (p loc n : Nat) : (s.turned p).inWindow loc n = s.inWindow loc n :=
  have hw : (s.leavePage p).inWindow loc n = s.inWindow loc n := inWindow_of_besideLines (besideLines_leavePage s p) loc n
  hw

/-- The latest walk has asked for the bias that the page turns from (R145). -/
def State.turnsBack (s : State) (p : Nat) : Prop :=
  (s.pages.getD p PageAttr.init).want = (s.pages.getD p PageAttr.init).hostBias ∧ s.inWindow (p * 65536) 65536 = false

theorem flipEnd_of_waits {s : State} {p : Nat} (h : (s.pages.getD p PageAttr.init).flipping = false ∨ (s.pages.getD p PageAttr.init).waitHost = true
    ∨ s.pageWrites p (s.pages.getD p PageAttr.init).hostBias = true) : s.flipEnd p = s :=
  if_pos (by simpa [or_assoc] using h)

theorem flipEnd_eq {s : State} {p : Nat} (hf : (s.pages.getD p PageAttr.init).flipping = true) (hw : (s.pages.getD p PageAttr.init).waitHost = false)
    (ha : s.pageWrites p (s.pages.getD p PageAttr.init).hostBias = false) :
    s.flipEnd p = if (s.pages.getD p PageAttr.init).want = (s.pages.getD p PageAttr.init).hostBias && !(s.turned p).inWindow (p * 65536) 65536
      then (s.turned p).flipStart p else (s.turned p).hostResume p :=
  if_neg (by simp [hf, hw, ha])

theorem flipEnd_of_turnsBack {s : State} {p : Nat} (hf : (s.pages.getD p PageAttr.init).flipping = true) (hw : (s.pages.getD p PageAttr.init).waitHost = false)
    (ha : s.pageWrites p (s.pages.getD p PageAttr.init).hostBias = false) (hb : s.turnsBack p) : s.flipEnd p = (s.turned p).flipStart p := by
  obtain ⟨hwant, hwin⟩ := hb
  rw [flipEnd_eq hf hw ha, turned_inWindow]
  exact if_pos (by simp [hwant, hwin])

theorem flipEnd_of_not_turnsBack {s : State} {p : Nat} (hf : (s.pages.getD p PageAttr.init).flipping = true) (hw : (s.pages.getD p PageAttr.init).waitHost = false)
    (ha : s.pageWrites p (s.pages.getD p PageAttr.init).hostBias = false) (hb : ¬ s.turnsBack p) : s.flipEnd p = (s.turned p).hostResume p := by
  rw [State.turnsBack] at hb
  rw [flipEnd_eq hf hw ha, turned_inWindow]
  exact if_neg (by simpa using hb)

/-! ### The start of a flip (R145) -/

theorem flipStart_page (s : State) (p : Nat) : ∃ x : PageAttr, (s.flipStart p).pages.getD p PageAttr.init = x
    ∧ x.flipping = true ∧ x.hostBias = (s.pages.getD p PageAttr.init).hostBias := by
  refine ⟨{ s.pages.getD p PageAttr.init with
    flipping := true, want := !(s.pages.getD p PageAttr.init).hostBias, waitHost := (s.pages.getD p PageAttr.init).hostBias }, ?_, rfl, rfl⟩
  unfold State.flipStart
  dsimp only
  split <;> exact (tab_getD_set _ _ _ _ _).trans (if_pos rfl)

theorem flipStart_page_other (s : State) {p q : Nat} (h : q ≠ p) : (s.flipStart p).pages.getD q PageAttr.init = s.pages.getD q PageAttr.init := by
  unfold State.flipStart
  dsimp only
  split <;> exact (tab_getD_set _ _ _ _ _).trans (if_neg h)

/-! ### Answers to snoops (R144) -/

/-- The host has answered the snoops of one page. -/
theorem reply_page (s : State) (p q : Nat) :
    Tab.getD (s.pages.map fun e => if e.1 = p then (e.1, e.2.reply) else e) q PageAttr.init
      = if q = p ∧ (s.pages.get? p).isSome then (s.pages.getD q PageAttr.init).reply else s.pages.getD q PageAttr.init := by
  have hkeys : ∀ e : Nat × PageAttr, (if e.1 = p then (e.1, e.2.reply) else e) = (e.1, if e.1 = p then e.2.reply else e.2) :=
    fun e => by split <;> rfl
  rw [Tab.getD, tab_get_map (fun k x => if k = p then x.reply else x) hkeys, Tab.getD]
  by_cases h : q = p
  · subst h
    cases s.pages.get? q <;> simp
  · simp [h]

end Sys2Proof.Machine
end

section
/-! PROOF of O47, continued: the dependences that HOST_SNOOP reads again, and the statement. -/

namespace Sys2Proof.Machine
open Sys2Proof.Safety

/-! ### The test of a dependence (R34) -/

/-- The address of a dependence, its threshold, and whether it is satisfied. -/
def Pending.dep (p : Pending) (which : Bool) : DWord := if which then p.lrec.dep1 else p.lrec.dep0
def Pending.thr (p : Pending) (which : Bool) : Nat := (if which then p.lrec.thr1 else p.lrec.thr0).toNat
def Pending.sat (p : Pending) (which : Bool) : Bool := if which then p.sat1 else p.sat0

/-- The word of a dependence can be read and has reached its threshold. -/
def State.reached (s : State) (p : Pending) (which : Bool) : Prop :=
  ∃ loc v w, s.depRead p.lrec.ten (p.dep which).toNat = some (loc, v, w) ∧ p.thr which ≤ v

/-- A pending launch after the test of one of its dependences. -/
def State.tested (s : State) (which : Bool) (p : Pending) : Pending :=
  match s.depRead p.lrec.ten (p.dep which).toNat with
  | none => p
  | some (_, v, w) => if p.thr which ≤ v then p.satisfy which w else p

theorem satisfy_keeps (p : Pending) (which : Bool) (w : View) : (p.satisfy which w).lrec = p.lrec ∧ (p.satisfy which w).order = p.order := by
  cases which <;> exact ⟨rfl, rfl⟩

theorem satisfy_sat (p : Pending) (which other : Bool) (w : View) : (p.satisfy which w).sat other = (p.sat other || decide (which = other)) := by
  cases which <;> cases other <;> simp [Pending.satisfy, Pending.sat]

theorem tested_keeps (s : State) (which : Bool) (p : Pending) : (s.tested which p).lrec = p.lrec ∧ (s.tested which p).order = p.order := by
  unfold State.tested
  split
  · exact ⟨rfl, rfl⟩
  · split
    · exact satisfy_keeps p _ _
    · exact ⟨rfl, rfl⟩

theorem tested_sat (s : State) (which other : Bool) (p : Pending) :
    (s.tested which p).sat other = true ↔ p.sat other = true ∨ which = other ∧ s.reached p which := by
  unfold State.tested State.reached
  split
  · next h => simp [h]
  · next v w h =>
    split
    · next hv => simp [h, satisfy_sat, hv]
    · next hv => simp [h, hv]

/-- The state without what the test of a dependence may change. -/
def State.besideDeps (s : State) : State := { s with pending := [], out := [], hbits := [] }

theorem snoop_keeps (s : State) (loc : Nat) : (s.snoop loc).besideDeps = s.besideDeps ∧ (s.snoop loc).pending = s.pending := by
  unfold State.snoop
  split <;> exact ⟨rfl, rfl⟩

theorem foldl_snoop_keeps (F : Nat → Nat) (l : List Nat) (s : State) :
    (l.foldl (fun (s : State) i => s.snoop (F i)) s).besideDeps = s.besideDeps ∧ (l.foldl (fun (s : State) i => s.snoop (F i)) s).pending = s.pending := by
  induction l generalizing s with
  | nil => exact ⟨rfl, rfl⟩
  | cons i l ih =>
    obtain ⟨hb, hp⟩ := ih (s.snoop (F i))
    obtain ⟨hb1, hp1⟩ := snoop_keeps s (F i)
    exact ⟨hb.trans hb1, hp.trans hp1⟩

/-- The snoops of a read of the device change bits H and outputs only (R144). -/
theorem snoopNow_keeps (s : State) (loc n : Nat) : (s.snoopNow loc n).besideDeps = s.besideDeps ∧ (s.snoopNow loc n).pending = s.pending := by
  unfold State.snoopNow
  split
  · exact ⟨rfl, rfl⟩
  · split
    · rw [emit_foldl_only]
      exact ⟨rfl, rfl⟩
    · exact foldl_snoop_keeps _ _ s

theorem tested_of_besideDeps {s t : State} (h : t.besideDeps = s.besideDeps) : t.tested = s.tested :=
  have ht := congrArg State.tested h
  ht

section
variable {s : State} {order : Nat} {which : Bool} {p : Pending}

theorem testDep_unread (hp : s.pending.find? (fun p => decide (p.order = order)) = some p) (hr : s.depRead p.lrec.ten (p.dep which).toNat = none) :
    s.testDep order which = s := by
  rw [Pending.dep] at hr
  rw [State.testDep, hp]
  dsimp only
  rw [hr]

theorem testDep_below (hp : s.pending.find? (fun p => decide (p.order = order)) = some p) {loc v : Nat} {w : View}
    (hr : s.depRead p.lrec.ten (p.dep which).toNat = some (loc, v, w)) (hv : ¬ p.thr which ≤ v) : s.testDep order which = s.snoopNow loc 8 := by
  rw [Pending.dep] at hr
  rw [State.testDep, hp]
  dsimp only
  rw [hr]
  exact if_neg hv

theorem testDep_reached (hp : s.pending.find? (fun p => decide (p.order = order)) = some p) {loc v : Nat} {w : View}
    (hr : s.depRead p.lrec.ten (p.dep which).toNat = some (loc, v, w)) (hv : p.thr which ≤ v) : s.testDep order which =
      { s.snoopNow loc 8 with pending := (s.snoopNow loc 8).pending.map fun o => if o.order = order then o.satisfy which w else o } := by
  rw [Pending.dep] at hr
  rw [State.testDep, hp]
  dsimp only
  rw [hr]
  exact if_pos hv

end

/-- A test changes nothing but pending launches, bits H and outputs. -/
theorem besideDeps_testDep {s : State} {p : Pending} {order : Nat} (hp : s.pending.find? (fun p => decide (p.order = order)) = some p) (which : Bool) :
    (s.testDep order which).besideDeps = s.besideDeps := by
  cases hr : s.depRead p.lrec.ten (p.dep which).toNat with
  | none => rw [testDep_unread hp hr]
  | some x =>
    obtain ⟨loc, v, w⟩ := x
    obtain ⟨hb, -⟩ := snoopNow_keeps s loc 8
    by_cases hv : p.thr which ≤ v
    · rw [testDep_reached hp hr hv]
      exact hb
    · rw [testDep_below hp hr hv]
      exact hb

/-- Of launches whose orders differ, an order finds its own. -/
theorem find_order {front back : List Pending} {p : Pending} (hf : ∀ o ∈ front, o.order ≠ p.order) :
    (front ++ p :: back).find? (fun o => decide (o.order = p.order)) = some p := by
  rw [List.find?_append, List.find?_eq_none.2 (by simpa using hf), Option.none_or]
  exact List.find?_cons_of_pos (by simp)

/-- The launch whose order is named is tested; the others stay. -/
theorem testDep_pending {s : State} {front back : List Pending} {p : Pending} (h : s.pending = front ++ p :: back)
    (hf : ∀ o ∈ front, o.order ≠ p.order) (hb : ∀ o ∈ back, o.order ≠ p.order) (which : Bool) :
    (s.testDep p.order which).pending = front ++ s.tested which p :: back := by
  have hp : s.pending.find? (fun o => decide (o.order = p.order)) = some p := by
    rw [h]
    exact find_order hf
  unfold State.tested
  cases hr : s.depRead p.lrec.ten (p.dep which).toNat with
  | none => rw [testDep_unread hp hr, h]
  | some x =>
    obtain ⟨loc, v, w⟩ := x
    obtain ⟨-, hsame⟩ := snoopNow_keeps s loc 8
    by_cases hv : p.thr which ≤ v
    · have hothers {l : List Pending} (hl : ∀ o ∈ l, o.order ≠ p.order) : (l.map fun o => if o.order = p.order then o.satisfy which w else o) = l :=
        (List.map_congr_left fun o ho => if_neg (hl o ho)).trans (List.map_id' l)
      rw [testDep_reached hp hr hv]
      dsimp only
      rw [hsame, h, List.map_append, List.map_cons, hothers hf, hothers hb, if_pos rfl, if_pos hv]
    · rw [testDep_below hp hr hv, hsame, h]
      dsimp only
      rw [if_neg hv]

/-! ### HOST_SNOOP (R34) -/

/-- A watched word lies in the line that the host takes back. -/
def State.depIn (s : State) (addr t : Nat) (v : DWord) : Bool :=
  v ≠ 0#64 && (match s.packageLoc? t v.toNat with
    | some l => decide (l / 64 = addr / 64)
    | none => false)

theorem depIn_iff (s : State) (addr t : Nat) (v : DWord) :
    s.depIn addr t v = true ↔ v ≠ 0#64 ∧ ∃ l, s.packageLoc? t v.toNat = some l ∧ l / 64 = addr / 64 := by
  unfold State.depIn
  cases s.packageLoc? t v.toNat <;> simp

/-- A pending launch after one of its dependences is read again, if it is watched in the line. -/
def State.reread (s : State) (addr : Nat) (which : Bool) (p : Pending) : Pending :=
  if s.depIn addr p.lrec.ten (p.dep which) then s.tested which p else p

theorem reread_keeps (s : State) (addr : Nat) (which : Bool) (p : Pending) : (s.reread addr which p).lrec = p.lrec ∧ (s.reread addr which p).order = p.order := by
  unfold State.reread
  split
  · exact tested_keeps s which p
  · exact ⟨rfl, rfl⟩

theorem reread_sat (s : State) (addr : Nat) (which other : Bool) (p : Pending) :
    (s.reread addr which p).sat other = true ↔ p.sat other = true ∨ which = other ∧ s.depIn addr p.lrec.ten (p.dep which) = true ∧ s.reached p which := by
  unfold State.reread
  split
  · next h => simp [h, tested_sat]
  · next h => simp [h]

/-- The launch as HOST_SNOOP leaves it. -/
def State.snooped (s : State) (addr : Nat) (p : Pending) : Pending := s.reread addr true (s.reread addr false p)

theorem snooped_keeps (s : State) (addr : Nat) (p : Pending) : (s.snooped addr p).lrec = p.lrec ∧ (s.snooped addr p).order = p.order := by
  obtain ⟨h1, h2⟩ := reread_keeps s addr true (s.reread addr false p)
  obtain ⟨k1, k2⟩ := reread_keeps s addr false p
  exact ⟨h1.trans k1, h2.trans k2⟩

theorem snooped_sat (s : State) (addr : Nat) (which : Bool) (p : Pending) :
    (s.snooped addr p).sat which = true ↔ p.sat which = true ∨ s.depIn addr p.lrec.ten (p.dep which) = true ∧ s.reached p which := by
  have hlrec := (reread_keeps s addr false p).1
  have hdep (b : Bool) : (s.reread addr false p).dep b = p.dep b := by rw [Pending.dep, hlrec, Pending.dep]
  have hreached (b : Bool) : s.reached (s.reread addr false p) b ↔ s.reached p b := by
    rw [State.reached, hdep, Pending.thr, hlrec]
    rfl
  unfold State.snooped
  rw [reread_sat, reread_sat, hlrec, hdep, hreached]
  cases which <;> simp

/-- HOST_SNOOP's turn for one launch: its two dependences. -/
def State.snoopLaunch (s : State) (addr : Nat) (t : State) (p : Pending) : State :=
  let t := if s.depIn addr p.lrec.ten p.lrec.dep0 then t.testDep p.order false else t
  if s.depIn addr p.lrec.ten p.lrec.dep1 then t.testDep p.order true else t

theorem hostSnoop_eq (s : State) (addr : Nat) : s.hostSnoop addr = s.pending.foldl (s.snoopLaunch addr) s := rfl

/-- One dependence of a launch is read again, in a state that tests have led to from `s`. -/
theorem reread_step {s t : State} (hst : t.besideDeps = s.besideDeps) {front back : List Pending} {p : Pending} (h : t.pending = front ++ p :: back)
    (hf : ∀ o ∈ front, o.order ≠ p.order) (hb : ∀ o ∈ back, o.order ≠ p.order) (addr : Nat) (which : Bool) :
    (if s.depIn addr p.lrec.ten (p.dep which) then t.testDep p.order which else t).besideDeps = s.besideDeps
      ∧ (if s.depIn addr p.lrec.ten (p.dep which) then t.testDep p.order which else t).pending = front ++ s.reread addr which p :: back := by
  unfold State.reread
  split
  · have hp : t.pending.find? (fun o => decide (o.order = p.order)) = some p := by
      rw [h]
      exact find_order hf
    exact ⟨(besideDeps_testDep hp _).trans hst, by rw [testDep_pending h hf hb, tested_of_besideDeps hst]⟩
  · exact ⟨hst, h⟩

theorem snoopLaunch_step {s t : State} (hst : t.besideDeps = s.besideDeps) {front back : List Pending} {p : Pending} (h : t.pending = front ++ p :: back)
    (hf : ∀ o ∈ front, o.order ≠ p.order) (hb : ∀ o ∈ back, o.order ≠ p.order) (addr : Nat) :
    (s.snoopLaunch addr t p).besideDeps = s.besideDeps ∧ (s.snoopLaunch addr t p).pending = front ++ s.snooped addr p :: back := by
  obtain ⟨hst1, h1⟩ := reread_step hst h hf hb addr false
  obtain ⟨hlrec, horder⟩ := reread_keeps s addr false p
  have h2 := reread_step hst1 h1 (by rw [horder]; exact hf) (by rw [horder]; exact hb) addr true
  rw [horder, Pending.dep, hlrec] at h2
  exact h2

/-- The launches that have had their turn are as HOST_SNOOP leaves them, and the others as they were. -/
theorem foldl_snoopLaunch {s : State} (addr : Nat) (todo : List Pending) (past : List Pending) (t : State) (hst : t.besideDeps = s.besideDeps)
    (h : t.pending = past.map (s.snooped addr) ++ todo) (hn : ((past ++ todo).map fun p => p.order).Nodup) :
    (todo.foldl (s.snoopLaunch addr) t).besideDeps = s.besideDeps
      ∧ (todo.foldl (s.snoopLaunch addr) t).pending = (past ++ todo).map (s.snooped addr) := by
  induction todo generalizing past t with
  | nil => exact ⟨hst, by simpa using h⟩
  | cons p todo ih =>
    rw [List.map_append, List.map_cons, List.nodup_append, List.nodup_cons] at hn
    have hn' := hn
    obtain ⟨-, ⟨hback, -⟩, hapart⟩ := hn
    have hf : ∀ o ∈ past.map (s.snooped addr), o.order ≠ p.order := by
      intro o ho
      obtain ⟨q, hq, rfl⟩ := List.mem_map.1 ho
      rw [(snooped_keeps s addr q).2]
      exact hapart _ (List.mem_map_of_mem hq) _ (List.mem_cons_self ..)
    have hb : ∀ o ∈ todo, o.order ≠ p.order := fun o ho he => hback (he ▸ List.mem_map_of_mem ho)
    obtain ⟨hst1, h1⟩ := snoopLaunch_step hst h hf hb addr
    have happ : past ++ p :: todo = (past ++ [p]) ++ todo := by simp
    rw [List.foldl_cons, happ]
    refine ih (past ++ [p]) _ hst1 (by simpa using h1) ?_
    rw [← happ, List.map_append, List.map_cons, List.nodup_append, List.nodup_cons]
    exact hn'

theorem hostSnoop_keeps {s : State} (addr : Nat) (hn : (s.pending.map fun p => p.order).Nodup) :
    (s.hostSnoop addr).besideDeps = s.besideDeps ∧ (s.hostSnoop addr).pending = s.pending.map (s.snooped addr) :=
  foldl_snoopLaunch addr s.pending [] s rfl rfl hn

theorem eq_of_besideDeps {s t : State} (h : t.besideDeps = s.besideDeps) : t = { s with pending := t.pending, out := t.out, hbits := t.hbits } :=
  have ht := congrArg (fun x : State => ({ x with pending := t.pending, out := t.out, hbits := t.hbits } : State)) h
  ht

/-! ### The clauses of the statement -/

theorem hostPut_clauses (s : State) (a : Nat) (bs : List Byte) :
    let t := s.hostPut a bs
    let closed : Prop := s.hostDrops a bs.length ∨ s.hostHolds a bs.length
    (s.hostDrops a bs.length → t = s) ∧ (s.hostHolds a bs.length → t = { s with hostHeld := s.hostHeld ++ [⟨a, bs.length, some bs⟩] })
    ∧ (¬ closed → (isHost a = true ∨ s.hostBias a = true) → (List.range (lineCount a bs.length)).all (fun j => !s.sliceStops (a + 256 * j)) = true →
      (s.mem.wf = true → ∀ x, t.mem.get x = if a ≤ x ∧ x < a + bs.length then bs.getD (x - a) 0#8 else s.mem.get x)
      ∧ (Roomy s → lineCount a bs.length = 1 → t.fibres = s.fibres))
    ∧ (¬ closed → isHost a = false → s.hostBias a = false → t = { s with serial := s.serial + 1, aq := t.aq, kn := t.kn, hostWids := s.serial :: s.hostWids }
      ∧ ∃ w, t.aq = s.aq ++ [w] ∧ w.die = homeDie a ∧ w.src = .host ∧ w.loc = a ∧ w.n = bs.length ∧ w.kind = .store bs ∧ w.view = some ⟨0, s.hostWids⟩) := by
  have hopen : ¬ (s.hostDrops a bs.length ∨ s.hostHolds a bs.length) → ¬ s.hostDrops a bs.length ∧ (isHost a = false → (s.page a).flipping = false) :=
    fun hc => ⟨fun hd => hc (.inl hd), fun hh => by
      cases hf : (s.page a).flipping
      · rfl
      · exact absurd (.inr ⟨fun hd => hc (.inl hd), hh, hf⟩) hc⟩
  refine ⟨hostPut_of_drops, hostPut_of_holds, fun hc hb hgo => ?_, fun hc hh hb => ?_⟩
  · obtain ⟨hd, hf⟩ := hopen hc
    obtain ⟨hcommits, e⟩ := hostPut_applies hd hf hb
    rw [e]
    have hgo' : (List.range (lineCount a bs.length)).all (fun j => !(s.hostWrites a bs.length).sliceStops (a + 256 * j)) = true := by
      simpa only [sliceStops_hostWrites] using hgo
    have hmem : (s.hostWrites a bs.length).mem = s.mem := by rw [hostWrites_only]; rfl
    have hfibres : (s.hostWrites a bs.length).fibres = s.fibres := by rw [hostWrites_only]; rfl
    refine ⟨fun hwf x => ?_, fun hroom hone => ?_⟩
    · have hget := get_applyBytes (s := s.hostWrites a bs.length) (by rw [hmem]; exact hwf) hgo' s.serial (some s.hostView) x
      rw [hmem] at hget
      exact hget
    · exact (fibres_applyBytes_of_roomy (roomy_hostWrites hroom a _) hone hgo' _ _).trans hfibres
  · obtain ⟨hd, hf⟩ := hopen hc
    rw [hostPut_of_device hd (hf hh) hh hb]
    exact ⟨rfl, _, rfl, rfl, rfl, rfl, rfl, rfl, rfl⟩

theorem hostGet_clauses (s : State) (a n : Nat) :
    let t := s.hostGet a n
    let answers (bytes : List Byte) (poison : Bool) : Prop := t.out.head? = some (.hostData a bytes poison)
    t.mem = s.mem ∧ t.aq = s.aq ∧ t.reqs = s.reqs
    ∧ (isHost a = true → answers (s.mem.readBytes a n) false)
    ∧ (isHost a = false → dramLimit < a + n → answers (List.replicate n 0#8) false)
    ∧ (isHost a = false → a + n ≤ dramLimit → (s.page a).prot = true → answers (List.replicate n 0xFF#8) true)
    ∧ (isHost a = false → a + n ≤ dramLimit → (s.page a).prot = false → (s.page a).flipping = true →
        t = { s with hostHeld := s.hostHeld ++ [⟨a, n, none⟩] })
    ∧ (isHost a = false → a + n ≤ dramLimit → (s.page a).prot = false → (s.page a).flipping = false → answers (s.mem.readBytes a n) (s.poisoned a n)) := by
  obtain ⟨hmem, haq, hreqs⟩ := hostGet_keeps s a n
  refine ⟨hmem, haq, hreqs, fun h => ?_, fun h hp => ?_, fun h hp hprot => ?_, hostGet_of_flipping, fun h hp hprot hf => ?_⟩
  · rw [hostGet_of_host n h]; rfl
  · rw [hostGet_past h hp]; rfl
  · rw [hostGet_of_prot h hp hprot]; rfl
  · rw [hostGet_of_open h hp hprot hf]; rfl

theorem flipEnd_clauses (s : State) (p : Nat) (hf : (s.pages.getD p PageAttr.init).flipping = true) (hw : (s.pages.getD p PageAttr.init).waitHost = false)
    (ha : s.pageWrites p (s.pages.getD p PageAttr.init).hostBias = false) :
    let x := s.pages.getD p PageAttr.init
    let t := s.flipEnd p
    (∀ q, q ≠ p → t.pages.getD q PageAttr.init = s.pages.getD q PageAttr.init)
      ∧ (s.turnsBack p → (t.pages.getD p PageAttr.init).flipping = true ∧ (t.pages.getD p PageAttr.init).hostBias = !x.hostBias ∧ t.mem = s.mem ∧ t.hostHeld = s.hostHeld)
      ∧ (¬ s.turnsBack p → (t.pages.getD p PageAttr.init).flipping = false ∧ (t.pages.getD p PageAttr.init).hostBias = !x.hostBias ∧ (∀ h ∈ t.hostHeld, h.addr / 65536 ≠ p))
      ∧ (¬ s.turnsBack p → (∀ h ∈ s.hostHeld, h.addr / 65536 ≠ p) → t.mem = s.mem
        ∧ t.pages.getD p PageAttr.init = { x with hostBias := !x.hostBias, flipping := false, asked := [], answered := [] }) := by
  have hturned := turned_page s p
  by_cases hb : s.turnsBack p
  · obtain ⟨y, hy, hyf, hyb⟩ := flipStart_page (s.turned p) p
    dsimp only
    rw [flipEnd_of_turnsBack hf hw ha hb, hy, hyf, hyb, hturned, flipStart_only]
    exact ⟨fun q hq => (flipStart_page_other _ hq).trans (turned_page_other s hq), fun _ => ⟨rfl, rfl, turned_mem s p, turned_hostHeld s p⟩,
      fun h => absurd hb h, fun h => absurd hb h⟩
  · have hserved : Served p ((s.turned p).unheld p) ((s.turned p).hostResume p) := served_hostResume (by rw [hturned])
    dsimp only
    rw [flipEnd_of_not_turnsBack hf hw ha hb]
    refine ⟨fun q hq => (hserved.others q hq).trans (turned_page_other s hq), fun h => absurd h hb, fun _ => ⟨?_, ?_, ?_⟩, fun _ hnone => ?_⟩
    · exact hserved.flipping.trans (congrArg PageAttr.flipping hturned)
    · exact hserved.hostBias.trans (congrArg PageAttr.hostBias hturned)
    · rw [hserved.held]
      exact fun h hh => by simpa using (List.mem_filter.1 hh).2
    · rw [hostResume_of_none (by rw [turned_hostHeld]; exact hnone)]
      exact ⟨turned_mem s p, hturned⟩

theorem snoopResponse_clauses (s : State) (p : Nat) : Runs (.snoopResponse p) s fun t => t = { s with pages := t.pages }
    ∧ t.pages.getD p PageAttr.init = (if (s.pages.get? p).isSome then (s.pages.getD p PageAttr.init).reply else s.pages.getD p PageAttr.init)
    ∧ ∀ q, q ≠ p → t.pages.getD q PageAttr.init = s.pages.getD q PageAttr.init := by
  refine ⟨_, rfl, rfl, ?_, fun q hq => ?_⟩
  · exact (reply_page s p p).trans (by simp)
  · exact (reply_page s p q).trans (if_neg fun h => hq h.1)

/-- An error poisons the 16 bytes that it strikes, once (R140). -/
theorem uncorrectableError_strikes {s : State} {a : Nat} (h : s.strikable a = true) : Runs (.uncorrectableError a) s fun t =>
    t = { s with poison := t.poison } ∧ a / 16 ∈ t.poison ∧ ∀ g, g ≠ a / 16 → (g ∈ t.poison ↔ g ∈ s.poison) := by
  refine ⟨_, rfl, ?_⟩
  rw [h]
  by_cases hc : a / 16 ∈ s.poison
  · simp [hc]
  · simp +contextual [hc]

theorem uncorrectableError_misses {s : State} {a : Nat} (h : s.strikable a = false) : exec (.uncorrectableError a) s = .next s := by
  show Host.Outcome.next (if s.strikable a && !s.poison.contains (a / 16) then _ else s) = _
  rw [h]
  rfl

theorem hostSnoop_clauses (s : State) (a : Nat) (hn : (s.pending.map fun p => p.order).Nodup) : Runs (.hostSnoop a) s fun t =>
    t = { s with pending := t.pending, out := t.out, hbits := t.hbits } ∧ t.pending.length = s.pending.length
    ∧ ∀ (j : Nat) p, s.pending[j]? = some p → ∃ p', t.pending[j]? = some p' ∧ p'.lrec = p.lrec ∧ p'.order = p.order ∧ ∀ which : Bool,
      (p'.sat which = true ↔ p.sat which = true ∨ p.dep which ≠ 0#64 ∧ (∃ l, s.packageLoc? p.lrec.ten (p.dep which).toNat = some l ∧ l / 64 = a / 64)
        ∧ s.reached p which) := by
  obtain ⟨hrest, hpending⟩ := hostSnoop_keeps a hn
  refine ⟨s.hostSnoop a, rfl, eq_of_besideDeps hrest, by rw [hpending, List.length_map], fun j p hj => ?_⟩
  obtain ⟨hlrec, horder⟩ := snooped_keeps s a p
  refine ⟨s.snooped a p, by rw [hpending, List.getElem?_map, hj]; rfl, hlrec, horder, fun which => ?_⟩
  rw [snooped_sat, depIn_iff, and_assoc]

/-- Settles O47, part by part: what one part of a write and of a read does, the accesses that a flip has held served as it ends, and
one turn for each pending launch in HOST_SNOOP. -/
theorem hostAccesses : Obligations.HostAccesses := by
  unfold Obligations.HostAccesses
  intro s a n bs
  refine ⟨fun h => ?_, fun h => ?_, fun h hfree => ?_, fun h hfree => ?_, pageParts_cover a n, hostPut_clauses s a bs, hostGet_clauses s a n,
    fun p => ⟨fun hf hw ha => ⟨s.flipEnd p, rfl, flipEnd_clauses s p hf hw ha⟩, fun hw => congrArg Host.Outcome.next (flipEnd_of_waits hw),
      snoopResponse_clauses s p⟩,
    uncorrectableError_strikes, uncorrectableError_misses, hostSnoop_clauses s a⟩
  · exact if_neg (by simp [h])
  · exact if_neg (by simp [h])
  · exact (if_pos h).trans (congrArg Host.Outcome.next (by rw [State.hostStore, readBusy_of_free hfree]))
  · exact (if_pos h).trans (congrArg Host.Outcome.next (by rw [State.hostLoad, readBusy_of_free hfree]))

end Sys2Proof.Machine
end

section
/-! PROOF that O50 fails: an invalidation ends the fills that PREFs have started.

INVALIDATION_COMPLETE empties every L1 of the tenancy (R128), and a share whose L1 gives up its lines drops with them the requests
of its PREFs that are still on their way (`State.l1Leave`). The statement has the requests stay as they are. A fill of a page that
lies outside the invalidated range does not hold the invalidation up, so that both meet in one step. -/

namespace Sys2Proof.Tests
open Sys2Proof.Machine Sys2Proof.Safety

/-- The package is peer 3, and the gigabyte at virtual address 0x80000000 is a mode-10 window of peer 5, to which g6:g7 points. -/
def sPeerPage : State :=
  (({ s1 with mem := s1.mem.writeBytes 0x20010 (leBytes 8 (0x83 + 5 * 2 ^ 16 + 2 ^ 26 + 2 ^ 38)) }).setReg 0xC000 0x403).updFibre k0
    fun f => f.setReg 6 0x80000000

/-- A PREF of that page has asked peer 5 for its sector, and then the host has written XINV for the data page of tenancy 0. -/
def sPrefetching : State := (after (.pref h0 6 .l1) sPeerPage).setReg (offXinv 0) 0x40000001

/-- The invalidation is under way, and what its tenancy still had to write back does not hold it up: what the statement's clause assumes. -/
theorem sPrefetching_invalidated : (sPrefetching.reg (offXinv 0)).getLsbD 0 = true
    ∧ (sPrefetching.drainTenancy 0).reg (offXinv 0) = sPrefetching.reg (offXinv 0)
    ∧ (sPrefetching.drainTenancy 0).invalidated 0 (xinvRange ((sPrefetching.drainTenancy 0).reg (offXinv 0)).toNat) = true := by
  and_intros <;> decide +kernel

/-- The fill stands among the requests while the invalidation waits, and not after it. -/
theorem sPrefetching_fill : (sPrefetching.drainTenancy 0).reqs.map (fun r => r.kind) = [.pref]
    ∧ (sPrefetching.invalidationComplete 0).reqs = [] := by
  and_intros <;> decide +kernel

/-- INVALIDATION_COMPLETE of a tenancy of the package (R128). -/
theorem exec_invalidationComplete {t : Nat} (ht : t < 8) (s : State) : exec (.invalidationComplete t) s = .next (s.invalidationComplete t) := by
  show Host.Outcome.next (if t < 8 then s.invalidationComplete t else s) = _
  rw [if_pos ht]

/-- Refutes O50: in `sPrefetching` the end of the invalidation drops the fill that a PREF has started, where the statement has the
requests stay as they were. -/
theorem not_registersAct : ¬ Obligations.RegistersAct := by
  unfold Obligations.RegistersAct
  intro h
  obtain ⟨hgo, hsame, hdone⟩ := sPrefetching_invalidated
  obtain ⟨hbefore, hafter⟩ := sPrefetching_fill
  obtain ⟨-, -, -, completes, -⟩ := h sPrefetching 0 0#64 (by decide)
  obtain ⟨-, ends⟩ := completes hgo hsame
  obtain ⟨u, hexec, hu, -⟩ := ends hdone
  rw [exec_invalidationComplete (by decide)] at hexec
  have hend : sPrefetching.invalidationComplete 0 = u := Host.Outcome.next.inj hexec
  have hreqs : u.reqs = (sPrefetching.drainTenancy 0).reqs := by rw [hu]
  rw [← hreqs, ← hend, hafter] at hbefore
  exact absurd hbefore (by decide)

end Sys2Proof.Tests
end

section
/-! PROOF of O55 and O56: decoding and encoding agree.

That a word decodes back from its encoding is proved constructor by constructor in `Laws.RoundTrip`. The other way round, a word is
its header, its opcode and the fields of its payload, and each form of the opcode map is `Faithful`: where its checks pass, it builds
the instruction whose payload is made of the same fields. A field that the instruction does not hold is one that the checks find zero. -/

namespace Sys2Proof

/-! ### The fields of a word, put together again (R57, R59) -/

theorem Guard.code_of_ofBits {g : BitVec 4} {s : Bool} {q : Guard} (h : Guard.ofBits g s = some q) : q.code = g ∧ q.sense = s := by
  unfold Guard.ofBits at h
  split_ifs at h with hp ha <;> obtain rfl := Option.some.inj h
  · exact ⟨by simp [Guard.code], rfl⟩
  · simp only [Bool.and_eq_true, decide_eq_true_eq, Bool.not_eq_true'] at ha
    exact ⟨ha.1.symm, ha.2.symm⟩

/-- Two neighbouring pieces of `w`, put together. -/
theorem join_pieces {n l m s : Nat} {w : BitVec n} {x : BitVec l} {y : BitVec m} (hx : x = w.extractLsb' (s + m) l) (hy : y = w.extractLsb' s m) :
    x ++ y = w.extractLsb' s (l + m) := by
  rw [hx, hy]
  exact BitVec.extractLsb'_append_extractLsb'_eq_extractLsb' rfl

/-- One bit of `w` as a piece of it. -/
theorem bit_piece {n i : Nat} {w : BitVec n} {b : Bool} (hb : b = w.getLsbD i) : BitVec.ofBool b = w.extractLsb' i 1 := by
  subst hb
  refine BitVec.eq_of_getLsbD_eq fun j hj => ?_
  obtain rfl : j = 0 := by omega
  simp

/-- A word is its header, its opcode and its payload. -/
theorem encWord_fields {w : Word} {h : Hdr} (hh : decodeHdr w = some h) : encWord h (fieldOp w) (field17 w) = w := by
  obtain ⟨g, hg, rfl⟩ := Option.map_eq_some_iff.1 hh
  obtain ⟨hcode, hsense⟩ := Guard.code_of_ofBits hg
  have whole : encWord ⟨fieldC w, fieldU w, g⟩ (fieldOp w) (field17 w) = w.extractLsb' 0 32 :=
    join_pieces (join_pieces (join_pieces (join_pieces (join_pieces (bit_piece rfl) (bit_piece rfl)) hcode) (bit_piece hsense)) rfl) rfl
  rw [whole, BitVec.extractLsb'_eq_self]

/-- An IMX word is its fixed header and opcode, and its payload (R61). -/
theorem imx_fields {w : Word} (hop : fieldOp w = 0xFE#8) (hh : imxHdrOk w = true) : 0b101111011111110#15 ++ field17 w = w := by
  have hdr : decodeHdr w = some ⟨true, false, .always⟩ := by
    simp only [imxHdrOk, Bool.and_eq_true, Bool.not_eq_true', beq_iff_eq] at hh
    obtain ⟨⟨⟨hc, hu⟩, hg⟩, hs⟩ := hh
    simp [decodeHdr, hc, hu, hg, hs, Guard.ofBits]
  calc 0b101111011111110#15 ++ field17 w = encWord ⟨true, false, .always⟩ 0xFE#8 (field17 w) := rfl
    _ = w := by rw [← hop]; exact encWord_fields hdr

section
variable {w : Word}

theorem payload_rrr {d a b : BitVec 5} {f : BitVec 2} (hd : d = fieldD w) (ha : a = fieldA w) (hb : b = fieldB w) (hf : f = fieldF w) :
    encRRR d a b f = field17 w :=
  join_pieces (join_pieces (join_pieces hd ha) hb) hf

theorem payload_rri : encRRI (fieldD w) (fieldA w) (fieldImm7 w) = field17 w :=
  join_pieces (join_pieces rfl rfl) rfl

theorem payload_ri {d : BitVec 5} {n : BitVec 12} (hd : d = fieldD w) (hn : n = fieldImm12 w) : encRI d n = field17 w :=
  join_pieces hd hn

theorem payload_mem {d : BitVec 5} {l : BitVec 4} {e : Bool} {z : BitVec 2} (hd : d = fieldD w) (hl : l = fieldL w) (he : e = fieldE w) (hz : z = fieldF w) :
    encMEM d (fieldA w) l e z = field17 w :=
  join_pieces (join_pieces (join_pieces (join_pieces hd rfl) hl) (bit_piece he)) hz

theorem payload_eng {y : BitVec 8} {k : Bool} (hy : y = fieldTy w) (hk : k = fieldK w) : encENG (fieldTx w) y k = field17 w :=
  join_pieces (join_pieces rfl hy) (bit_piece hk)

theorem payload_enr (hz : (fieldEz w == 0#3) = true) : encENR (fieldTx w) (fieldEg w) (fieldK w) = field17 w :=
  join_pieces (join_pieces (join_pieces rfl rfl) (eq_of_beq hz).symm) (bit_piece rfl)

/-! Units that leave fields of their format unused: those fields are zero (R64). -/

theorem zero_field {n : Nat} {x c : BitVec n} (h : (x == c) = true) : c = x := (eq_of_beq h).symm

theorem zero_fields {m n : Nat} {x c : BitVec m} {y e : BitVec n} (h : (x == c && y == e) = true) : c = x ∧ e = y :=
  (Bool.and_eq_true_iff.1 h).imp zero_field zero_field

theorem clear_field : ∀ {b : Bool}, (!b) = true → false = b
  | false, _ => rfl

/-- A store, a reduction or a prefetch has neither lookahead nor escort. -/
theorem payload_store {d : BitVec 5} {z : BitVec 2} (h : (fieldL w == 0#4 && !fieldE w) = true) (hd : d = fieldD w) (hz : z = fieldF w) :
    encMEM d (fieldA w) 0#4 false z = field17 w := by
  obtain ⟨hl, he⟩ := Bool.and_eq_true_iff.1 h
  exact payload_mem hd (zero_field hl) (clear_field he) hz

end

/-! ### The codes of modifiers and registers -/

theorem IntTy.code_ofBits (f : BitVec 2) : (IntTy.ofBits f).code = f := by revert f; decide
theorem Rnd.code_ofBits (f : BitVec 2) : (Rnd.ofBits f).code = f := by revert f; decide
theorem CvtTy.code_ofBits (f : BitVec 3) : (CvtTy.ofBits f).code = f := by revert f; decide
theorem CC.code_ofBits (f : BitVec 2) : (CC.ofBits f).code = f := by revert f; decide
theorem NLd.code_ofBits (f : BitVec 2) : (NLd.ofBits f).code = f := by revert f; decide

/-- What a modifier field `n` selects has `n` as its code. -/
def Coded {α : Type} {k : Nat} (code : α → BitVec k) (n : BitVec k) (o : Option α) : Prop := ∀ x, o = some x → code x = n

theorem Coded.none {α : Type} {k : Nat} {code : α → BitVec k} {n : BitVec k} : Coded code n none := nofun

theorem Coded.ite {α : Type} {k : Nat} {code : α → BitVec k} {n c : BitVec k} {x : α} {o : Option α} (hx : code x = c) (ho : Coded code n o) :
    Coded code n (if n = c then some x else o) := by
  intro y hy
  split at hy
  · obtain rfl := Option.some.inj hy
    exact hx.trans (Eq.symm ‹n = c›)
  · exact ho y hy

theorem Sz3.coded (f : BitVec 2) : Coded Sz3.code f (Sz3.ofBits f) := .ite rfl <| .ite rfl <| .ite rfl .none
theorem Sz2.coded (f : BitVec 2) : Coded Sz2.code f (Sz2.ofBits f) := .ite rfl <| .ite rfl .none
theorem NSt.coded (f : BitVec 2) : Coded NSt.code f (NSt.ofBits f) := .ite rfl <| .ite rfl .none
theorem RwlOp.coded (f : BitVec 2) : Coded RwlOp.code f (RwlOp.ofBits f) := .ite rfl <| .ite rfl <| .ite rfl .none
theorem PrefLevel.coded (f : BitVec 2) : Coded PrefLevel.code f (PrefLevel.ofBits f) := .ite rfl <| .ite rfl .none
theorem BarLevel.coded (f : BitVec 2) : Coded BarLevel.code f (BarLevel.ofBits f) := .ite rfl <| .ite rfl <| .ite rfl .none
theorem FsBit.coded (n : BitVec 12) : Coded FsBit.code n (FsBit.ofBits n) := .ite rfl <| .ite rfl <| .ite rfl <| .ite rfl <| .ite rfl .none
theorem SpecReg.coded (n : BitVec 12) : Coded SpecReg.code n (SpecReg.ofBits n) := by
  iterate 14 refine .ite rfl ?_
  exact .none
theorem WSpecReg.coded (n : BitVec 12) : Coded WSpecReg.code n (WSpecReg.ofBits n) := .ite rfl <| .ite rfl <| .ite rfl <| .ite rfl <| .ite rfl .none
theorem PrivReg.coded (n : BitVec 12) : Coded PrivReg.code n (PrivReg.ofBits n) := .ite rfl <| .ite rfl <| .ite rfl <| .ite rfl <| .ite rfl .none
theorem WPrivReg.coded (n : BitVec 12) : Coded WPrivReg.code n (WPrivReg.ofBits n) := .ite rfl <| .ite rfl .none

/-- The target that a FLUSHC names: each of its shapes leaves the bits above it as they are coded (R282). -/
theorem FlushTgt.coded (x : BitVec 17) : Coded FlushTgt.code x (FlushTgt.ofBits x) := by
  intro t ht
  suffices h : t.code = x.extractLsb' 0 17 by rw [h, BitVec.extractLsb'_eq_self]
  unfold FlushTgt.ofBits at ht
  split_ifs at ht with h16 hlow h12 h15 h10 <;> obtain rfl := Option.some.inj ht
  · exact join_pieces (x := 1#1) (y := 0#16) (bit_piece h16.symm) hlow.symm
  · rw [Bool.not_eq_true] at h16
    rw [not_not] at h12
    have flag : 1#2 = x.extractLsb' 15 2 := join_pieces (x := 0#1) (y := 1#1) (bit_piece h16.symm) (bit_piece h15.symm)
    exact join_pieces (join_pieces flag h12.symm) rfl
  · rw [Bool.not_eq_true] at h16 h15
    rw [not_not] at h12 h10
    have flag : 0#2 = x.extractLsb' 15 2 := join_pieces (x := 0#1) (y := 0#1) (bit_piece h16.symm) (bit_piece h15.symm)
    have high : 0#7 = x.extractLsb' 10 7 := join_pieces (x := 0#5) (y := 0#2) (join_pieces (x := 0#2) (y := 0#3) flag h12.symm) h10.symm
    exact join_pieces high rfl

theorem predCode_of_predOf {r : BitVec 5} {p : PredNo} (h : predOf r = some p) : predCode p = r := by
  unfold predOf at h
  split_ifs at h with hr
  obtain rfl := Option.some.inj h
  simp [predCode]

/-! The small fields that hold more than one modifier. -/

theorem two_bits (f : BitVec 2) : BitVec.ofBool (f.getLsbD 1) ++ BitVec.ofBool (f.getLsbD 0) = f := by revert f; decide
theorem low_bit {f : BitVec 2} (h : (!f.getLsbD 1) = true) : 0#1 ++ BitVec.ofBool (f.getLsbD 0) = f := by revert f; decide

/-- The field b of a CVT (R72): the destination type, .sat and a zero. -/
theorem cvt_field {b : BitVec 5} (h : (!b.getLsbD 0) = true) : (CvtTy.ofBits (b.extractLsb' 2 3)).code ++ BitVec.ofBool (b.getLsbD 1) ++ 0#1 = b := by
  revert b; decide

/-- The payload of a BAR (R258): the level, .mchk and zeros. -/
theorem bar_payload {x : BitVec 17} {lv : BarLevel} (hl : lv.code = x.extractLsb' 15 2) (h0 : (x.extractLsb' 0 14 == 0#14) = true) :
    lv.code ++ BitVec.ofBool (x.getLsbD 14) ++ 0#14 = x := by
  have whole : lv.code ++ BitVec.ofBool (x.getLsbD 14) ++ 0#14 = x.extractLsb' 0 17 := join_pieces (join_pieces hl (bit_piece rfl)) (zero_field h0)
  rw [whole, BitVec.extractLsb'_eq_self]

/-- The second descriptor field of an MDRN (R210): zeros, the free bit and a predicate. -/
theorem mdrn_field {y : BitVec 8} {p : PredNo} (hp : predCode p = 0#1 ++ y.extractLsb' 0 4) (h0 : (y.extractLsb' 5 3 == 0#3) = true) :
    0#3 ++ BitVec.ofBool (y.getLsbD 4) ++ BitVec.ofNat 4 p.val = y := by
  have low : ∀ q : PredNo, BitVec.ofNat 4 q.val = (predCode q).extractLsb' 0 4 := by decide
  have hlow : BitVec.ofNat 4 p.val = y.extractLsb' 0 4 := by
    rw [low, hp]
    exact BitVec.extractLsb'_append_eq_right
  have whole : 0#3 ++ BitVec.ofBool (y.getLsbD 4) ++ BitVec.ofNat 4 p.val = y.extractLsb' 0 8 :=
    join_pieces (join_pieces (zero_field h0) (bit_piece rfl)) hlow
  rw [whole, BitVec.extractLsb'_eq_self]

/-! ### What a form admits -/

/-- What the well-formedness of an instruction word asks besides its operands and U: the reserved conversions and the unused field of VALSET (R72, R251). -/
def Instr.modifiersOk (i : Instr) : Bool :=
  match i with
  | .cvt _ _ _ src dst sat r => cvtOk src dst sat r
  | .valset _ _ _ b strong => strong || b == 0#5
  | _ => true

/-- A word with a header is well-formed when its operands are aligned, U stands where R84 allows it, and its modifiers are not reserved. -/
theorem Instr.wf_of_hdr {i : Instr} {h : Hdr} (hh : i.hdr? = some h) (hal : i.opds.all Opd.aligned = true) (hu : h.u = true → i.uniformOk = true)
    (hm : i.modifiersOk = true) (he : i.eventOk = true) : i.wf = true := by
  have hwf : i.wf = (i.opds.all Opd.aligned && (match i.hdr? with
      | some h => !h.u || i.uniformOk
      | none => true) && i.modifiersOk && i.eventOk) := rfl
  rw [hwf, hal, hh, hm, he]
  cases hb : h.u with
  | false => simp [hb]
  | true => simp [hu hb]

/-- Under every header `mk` makes an instruction word, whose encoding is opcode `op` with payload `x`, and whose modifiers are not reserved. -/
structure Codes (op : BitVec 8) (x : BitVec 17) (mk : Hdr → Instr) : Prop where
  hdr : ∀ h, (mk h).hdr? = some h
  word : ∀ h, encode (mk h) = some (encWord h op x)
  event : ∀ h, (mk h).eventOk = true
  uniform : ∀ h h', (mk h).uniformOk = (mk h').uniformOk
  modifiers : ∀ h, (mk h).modifiersOk = true

/-- What codes a payload `x`, codes a payload that is put together to the same bits. Which constructor it is settles the rest. -/
theorem Codes.of_payload {op : BitVec 8} {x y : BitVec 17} {mk : Hdr → Instr} (hx : x = y) (hm : ∀ h, (mk h).modifiersOk = true := by exact fun _ => rfl)
    (hdr : ∀ h, (mk h).hdr? = some h := by exact fun _ => rfl) (word : ∀ h, encode (mk h) = some (encWord h op x) := by exact fun _ => rfl)
    (event : ∀ h, (mk h).eventOk = true := by exact fun _ => rfl) (uniform : ∀ h h', (mk h).uniformOk = (mk h').uniformOk := by exact fun _ _ => rfl) :
    Codes op y mk := by
  subst hx
  exact ⟨hdr, word, event, uniform, hm⟩

/-- Where the checks of a form for word `w` pass, it builds under every header the instruction that `w` codes, or under every header none. -/
def Form.Faithful (f : Form) (op : BitVec 8) (w : Word) : Prop :=
  f.ok02 = true → f.ok03 = true → f.ok0A = true → (∃ mk, Codes op (field17 w) mk ∧ ∀ h, f.build h = some (mk h)) ∨ ∀ h, f.build h = none

namespace Form.Faithful
variable {op : BitVec 8} {w : Word}

theorem plain {mk : Hdr → Instr} (hc : Codes op (field17 w) mk) : (Form.plain mk).Faithful op w :=
  fun _ _ _ => .inl ⟨mk, hc, fun _ => rfl⟩

theorem chk {m z : Bool} {mk : Hdr → Instr} (hc : m = true → z = true → Codes op (field17 w) mk) : (Form.chk m z mk).Faithful op w :=
  fun hm hz _ => .inl ⟨mk, hc hm hz, fun _ => rfl⟩

theorem sel {α : Type} {k : Nat} {code : α → BitVec k} {n : BitVec k} {o : Option α} {m z : Bool} {mk : Hdr → α → Instr} (ho : Coded code n o)
    (hc : ∀ x, code x = n → m = true → z = true → Codes op (field17 w) fun h => mk h x) : (Form.sel o m z mk).Faithful op w := by
  cases o with
  | none => exact fun _ _ _ => .inr fun _ => rfl
  | some x => exact fun hm hz _ => .inl ⟨_, hc x (ho x rfl) hm hz, fun _ => rfl⟩

/-- A form with one predicate operand. -/
theorem pred1 {r : BitVec 5} {m z : Bool} {mk : Hdr → PredNo → Instr}
    (hc : ∀ p, predCode p = r → m = true → z = true → Codes op (field17 w) fun h => mk h p) :
    (Form.pred m z fun h => (predOf r).map (mk h)).Faithful op w := by
  intro hm hz _
  cases hr : predOf r with
  | none => exact .inr fun _ => rfl
  | some p => exact .inl ⟨_, hc p (predCode_of_predOf hr) hm hz, fun _ => rfl⟩

/-- A form with three predicate operands (R94). -/
theorem pred3 {m z : Bool} {mk : Hdr → PredNo → PredNo → PredNo → Instr}
    (hc : ∀ d a b, predCode d = fieldD w → predCode a = fieldA w → predCode b = fieldB w → m = true → z = true → Codes op (field17 w) fun h => mk h d a b) :
    (Form.pred m z fun h => Sys2Proof.pred3 w (mk h)).Faithful op w := by
  intro hm hz _
  cases hd : predOf (fieldD w) with
  | none => exact .inr fun _ => by simp [Form.pred, Sys2Proof.pred3, hd]
  | some d =>
    cases ha : predOf (fieldA w) with
    | none => exact .inr fun _ => by simp [Form.pred, Sys2Proof.pred3, hd, ha]
    | some a =>
      cases hb : predOf (fieldB w) with
      | none => exact .inr fun _ => by simp [Form.pred, Sys2Proof.pred3, hd, ha, hb]
      | some b =>
        exact .inl ⟨_, hc d a b (predCode_of_predOf hd) (predCode_of_predOf ha) (predCode_of_predOf hb) hm hz, fun _ => by
          simp [Form.pred, Sys2Proof.pred3, hd, ha, hb]⟩

end Form.Faithful

/-! ### The rows of the opcode map (R70)

Each unit of a row, in the order of its opcodes: its kind of form, and the fields that its payload is made of. -/

section
variable {lo : Nat} {w : Word} {f : Form}

theorem formCvt_faithful (src : CvtTy) : (formCvt w src).Faithful (0x0D#5 ++ src.code) w :=
  .chk fun hm _ => by
    obtain ⟨hok, h0⟩ := Bool.and_eq_true_iff.1 hm
    exact .of_payload (payload_rrr rfl rfl (cvt_field h0) (Rnd.code_ofBits _)) (fun _ => hok)

theorem formPset_faithful : (formPset w).Faithful 0x95#8 w := by
  unfold formPset
  cases hb : FsBit.ofBits (fieldImm12 w) with
  | none => exact fun h2 => nomatch h2
  | some bit => exact .pred1 fun p hp _ _ => .of_payload (payload_ri hp (FsBit.coded _ _ hb))

theorem formValset_faithful : (formValset w).Faithful 0xBA#8 w :=
  .pred1 fun p hp hm hz => .of_payload (payload_rrr hp rfl rfl (low_bit hm)) (fun _ => hz)

theorem formFlushc_faithful : (formFlushc w).Faithful 0xDA#8 w := by
  unfold formFlushc
  cases ht : FlushTgt.ofBits (field17 w) with
  | none => exact fun _ _ hA => nomatch hA
  | some t => exact .plain (.of_payload (FlushTgt.coded _ _ ht))

theorem opRow0_faithful (hf : opRow0 lo w = some f) : f.Faithful (BitVec.ofNat 8 (0x00 + lo)) w := by
  unfold opRow0 at hf
  split at hf <;> cases hf
  iterate 11 · exact .plain (.of_payload (payload_rrr rfl rfl rfl (IntTy.code_ofBits _)))
  all_goals exact .chk fun _ hb => .of_payload (payload_rrr rfl rfl (zero_field hb) (IntTy.code_ofBits _))

theorem opRow1_faithful (hf : opRow1 lo w = some f) : f.Faithful (BitVec.ofNat 8 (0x10 + lo)) w := by
  unfold opRow1 at hf
  split at hf <;> cases hf
  iterate 3 · exact .plain (.of_payload (payload_rrr rfl rfl rfl (IntTy.code_ofBits _)))
  · exact .chk fun _ hb => .of_payload (payload_rrr rfl rfl (zero_field hb) (IntTy.code_ofBits _))
  iterate 4 · exact .plain (.of_payload (payload_rrr rfl rfl rfl (IntTy.code_ofBits _)))
  iterate 3 · exact .chk fun _ hb => .of_payload (payload_rrr rfl rfl (zero_field hb) (IntTy.code_ofBits _))
  iterate 2 · exact .plain (.of_payload (payload_rrr rfl rfl rfl (IntTy.code_ofBits _)))
  · exact .plain (.of_payload (payload_rrr rfl rfl rfl rfl))
  · exact .chk fun h0 _ => .of_payload (payload_rrr rfl rfl rfl (zero_field h0))

theorem opRow2_faithful (hf : opRow2 lo w = some f) : f.Faithful (BitVec.ofNat 8 (0x20 + lo)) w := by
  unfold opRow2 at hf
  split at hf <;> cases hf
  iterate 8 · exact .plain (.of_payload payload_rri)
  iterate 2 · exact .plain (.of_payload (payload_ri rfl rfl))
  · exact .plain (.of_payload payload_rri)

theorem opRow4_faithful (hf : opRow4 lo w = some f) : f.Faithful (BitVec.ofNat 8 (0x40 + lo)) w := by
  unfold opRow4 at hf
  split at hf <;> cases hf
  all_goals exact .plain (.of_payload (payload_rrr rfl rfl rfl (Rnd.code_ofBits _)))

theorem opRow5_faithful (hf : opRow5 lo w = some f) : f.Faithful (BitVec.ofNat 8 (0x50 + lo)) w := by
  unfold opRow5 at hf
  split at hf <;> cases hf
  iterate 8 · exact .chk fun h0 _ => .of_payload (payload_rrr rfl rfl rfl (zero_field h0))
  all_goals exact .chk fun h0 hb => .of_payload (payload_rrr rfl rfl (zero_field hb) (zero_field h0))

theorem opRow6_faithful (hf : opRow6 lo w = some f) : f.Faithful (BitVec.ofNat 8 (0x60 + lo)) w := by
  unfold opRow6 at hf
  split at hf <;> cases hf
  iterate 6 · exact .chk fun h0 hb => .of_payload (payload_rrr rfl rfl (zero_field hb) (zero_field h0))
  all_goals exact formCvt_faithful _

theorem opRow8_faithful (hf : opRow8 lo w = some f) : f.Faithful (BitVec.ofNat 8 (0x80 + lo)) w := by
  unfold opRow8 at hf
  split at hf <;> cases hf
  iterate 2 · exact .plain (.of_payload rfl)
  iterate 2 · exact .chk fun h0 hz => .of_payload (payload_rrr (zero_fields hz).1 rfl (zero_fields hz).2 (zero_field h0))
  · exact .chk fun _ hz => .of_payload (zero_field hz)
  · exact .plain (.of_payload rfl)
  · exact .chk fun h0 hz => .of_payload (payload_rrr rfl (zero_fields hz).1 (zero_fields hz).2 (zero_field h0))
  · exact .chk fun _ hd => .of_payload (payload_ri (zero_field hd) rfl)
  iterate 2 · exact .chk fun _ hz => .of_payload (zero_field hz)
  iterate 2 · exact .plain (.of_payload rfl)
  · exact .chk fun h0 hz => .of_payload (payload_rrr (zero_fields hz).1 rfl (zero_fields hz).2 (zero_field h0))
  · exact .plain (.of_payload rfl)
  · exact .sel (SpecReg.coded _) fun r hr _ _ => .of_payload (payload_ri rfl hr)
  · exact .sel (WSpecReg.coded _) fun r hr _ _ => .of_payload (payload_ri rfl hr)

theorem opRow9_faithful (hf : opRow9 lo w = some f) : f.Faithful (BitVec.ofNat 8 (0x90 + lo)) w := by
  unfold opRow9 at hf
  split at hf <;> cases hf
  iterate 3 · exact .pred3 fun d a b hd ha hb _ _ => .of_payload (payload_rrr hd ha hb (two_bits _))
  · exact .pred3 fun d a b hd ha _ h0 hb => .of_payload (payload_rrr hd ha (zero_field hb) (zero_field h0))
  · exact .pred3 fun d a b hd ha _ h1 hb => .of_payload (payload_rrr hd ha (zero_field hb) (low_bit h1))
  · exact formPset_faithful
  all_goals exact .pred1 fun p hp _ _ => .of_payload (payload_rrr hp rfl rfl (CC.code_ofBits _))

theorem opRowA_faithful (hf : opRowA lo w = some f) : f.Faithful (BitVec.ofNat 8 (0xA0 + lo)) w := by
  unfold opRowA at hf
  split at hf <;> cases hf
  · exact .sel (Sz3.coded _) fun z hz _ _ => .of_payload (payload_mem rfl rfl rfl hz)
  · exact .plain (.of_payload (payload_mem rfl rfl rfl (NLd.code_ofBits _)))
  · exact .sel (Sz3.coded _) fun z hz hm _ => .of_payload (payload_store hm rfl hz)
  · exact .sel (NSt.coded _) fun z hz hm _ => .of_payload (payload_store hm rfl hz)
  · exact .sel (Sz3.coded _) fun z hz he _ => .of_payload (payload_mem rfl rfl (clear_field he) hz)
  · exact .chk fun he _ => .of_payload (payload_mem rfl rfl (clear_field he) (NLd.code_ofBits _))
  · exact .sel (Sz3.coded _) fun z hz hm _ => .of_payload (payload_store hm rfl hz)
  · exact .sel (NSt.coded _) fun z hz hm _ => .of_payload (payload_store hm rfl hz)
  · exact .sel (Sz3.coded _) fun z hz _ _ => .of_payload (payload_mem rfl rfl rfl hz)
  · exact .sel (Sz3.coded _) fun z hz hm _ => .of_payload (payload_store hm rfl hz)
  · exact .sel (PrefLevel.coded _) fun z hz hm hd => .of_payload (payload_store hm (zero_field hd) hz)
  · exact .plain (.of_payload rfl)
  · exact .sel (Sz2.coded _) fun z hz _ _ => .of_payload (payload_mem rfl rfl rfl hz)
  · exact .sel (Sz2.coded _) fun z hz hm _ => .of_payload (payload_store hm rfl hz)
  · exact .chk fun h1 _ => .of_payload (payload_mem rfl rfl rfl (low_bit h1))
  · exact .sel (Sz2.coded _) fun z hz _ _ => .of_payload (payload_mem rfl rfl rfl hz)

theorem opRowB_faithful (hf : opRowB lo w = some f) : f.Faithful (BitVec.ofNat 8 (0xB0 + lo)) w := by
  unfold opRowB at hf
  split at hf <;> cases hf
  iterate 8 · exact .plain (.of_payload (payload_mem rfl rfl rfl (IntTy.code_ofBits _)))
  · exact .chk fun h0 _ => .of_payload (payload_mem rfl rfl rfl (zero_field h0))
  · exact .sel (RwlOp.coded _) fun z hz _ _ => .of_payload (payload_mem rfl rfl rfl hz)
  · exact formValset_faithful
  · exact .plain (.of_payload (payload_rrr rfl rfl rfl (CC.code_ofBits _)))
  · exact .chk fun _ hz => .of_payload (zero_field hz)
  · exact .sel (BarLevel.coded _) fun lv hl h0 _ => .of_payload (bar_payload hl h0)
  · exact .chk fun h1 _ => .of_payload (payload_rrr rfl rfl rfl (low_bit h1))

theorem opRowC_faithful (hf : opRowC lo w = some f) : f.Faithful (BitVec.ofNat 8 (0xC0 + lo)) w := by
  unfold opRowC at hf
  split at hf <;> cases hf
  iterate 8 · exact .plain (.of_payload (payload_mem rfl rfl rfl (IntTy.code_ofBits _)))
  · exact .chk fun h0 _ => .of_payload (payload_mem rfl rfl rfl (zero_field h0))
  iterate 6 · exact .chk fun hm _ => .of_payload (payload_store hm rfl (IntTy.code_ofBits _))
  · exact .chk fun hm _ => .of_payload (payload_store (Bool.and_eq_true_iff.1 hm).1 rfl (zero_field (Bool.and_eq_true_iff.1 hm).2))

theorem opRowD_faithful (hf : opRowD lo w = some f) : f.Faithful (BitVec.ofNat 8 (0xD0 + lo)) w := by
  unfold opRowD at hf
  split at hf <;> cases hf
  iterate 2 · exact .chk fun _ hz => .of_payload (payload_enr hz)
  · exact .chk fun _ hz => .of_payload (payload_eng (zero_field (Bool.and_eq_true_iff.1 hz).1) (clear_field (Bool.and_eq_true_iff.1 hz).2))
  · exact .chk fun _ hz => .of_payload (payload_enr hz)
  · exact .chk fun _ hy => .of_payload (payload_eng (zero_field hy) rfl)
  · exact .plain (.of_payload (payload_eng rfl rfl))
  · exact .pred1 fun p hp _ hz => .of_payload (payload_eng (mdrn_field hp hz) rfl)
  · exact .chk fun _ hk => .of_payload (payload_eng rfl (clear_field hk))
  · exact .plain (.of_payload (payload_eng rfl rfl))
  · exact .plain (.of_payload payload_rri)
  · exact formFlushc_faithful
  · exact .chk fun h0 _ => .of_payload (payload_rrr rfl rfl rfl (zero_field h0))
  · exact .chk fun h0 ha => .of_payload (payload_rrr rfl (zero_field ha) rfl (zero_field h0))
  all_goals exact .chk fun h0 hd => .of_payload (payload_rrr (zero_field hd) rfl rfl (zero_field h0))

theorem opRowE_faithful (hf : opRowE lo w = some f) : f.Faithful (BitVec.ofNat 8 (0xE0 + lo)) w := by
  unfold opRowE at hf
  split at hf <;> cases hf
  iterate 3 · exact .chk fun h0 _ => .of_payload (payload_rrr rfl rfl rfl (zero_field h0))
  · exact .chk fun h0 ha => .of_payload (payload_rrr rfl (zero_field ha) rfl (zero_field h0))
  · exact .sel (PrivReg.coded _) fun r hr _ _ => .of_payload (payload_ri rfl hr)
  · exact .sel (WPrivReg.coded _) fun r hr _ _ => .of_payload (payload_ri rfl hr)
  · exact .plain (.of_payload rfl)

/-- Every form of the opcode map builds, for the words of its opcode, the instruction that they code. -/
theorem opForm_faithful {op : BitVec 8} (hf : opForm op w = some f) : f.Faithful op w := by
  have hop : op = BitVec.ofNat 8 (16 * (op.toNat / 16) + op.toNat % 16) := by
    rw [Nat.div_add_mod, BitVec.ofNat_toNat, BitVec.setWidth_eq]
  unfold opForm at hf
  rw [hop]
  generalize op.toNat / 16 = row at hf
  split at hf
  · exact opRow0_faithful hf
  · exact opRow1_faithful hf
  · exact opRow2_faithful hf
  · exact opRow4_faithful hf
  · exact opRow5_faithful hf
  · exact opRow6_faithful hf
  · exact opRow8_faithful hf
  · exact opRow9_faithful hf
  · exact opRowA_faithful hf
  · exact opRowB_faithful hf
  · exact opRowC_faithful hf
  · exact opRowD_faithful hf
  · exact opRowE_faithful hf
  · cases hf

end

/-! ### The decoder -/

/-- What a word that decodes has passed: it is an IMX word with its header, or its form has passed every check and builds the instruction (R73, R74). -/
theorem decode_ok {w : Word} {i : Instr} (h : decode w = .ok i) :
    (fieldOp w = 0xFE#8 ∧ imxHdrOk w = true ∧ i = .imx (field17 w))
    ∨ ∃ f hd, opForm (fieldOp w) w = some f ∧ decodeHdr w = some hd ∧ f.ok02 = true ∧ f.ok03 = true ∧ f.ok0A = true ∧ f.uniformBad w = false
      ∧ f.build hd = some i ∧ i.opds.all Opd.aligned = true := by
  unfold decode at h
  split_ifs at h with hop himx
  · exact .inl ⟨hop, himx, (Except.ok.inj h).symm⟩
  · split at h
    · cases h
    next f hf =>
    split_ifs at h with h2 h3
    split at h
    · cases h
    next hd hhd =>
    unfold Form.finish at h
    split at h
    next j hj =>
      split_ifs at h with hal hA
      obtain rfl := Except.ok.inj h
      exact .inr ⟨f, hd, hf, hhd, by simp_all, by simp_all, hA, by simp_all, hj, hal⟩
    next => split_ifs at h

/-- A word that decodes is the encoding of a well-formed instruction word. -/
theorem encode_decode {w : Word} {i : Instr} (h : decode w = .ok i) : i.isWord = true ∧ i.wf = true ∧ encode i = some w := by
  obtain ⟨hop, himx, rfl⟩ | ⟨f, hd, hf, hhd, h2, h3, hA, hu, hb, hal⟩ := decode_ok h
  · exact ⟨rfl, rfl, congrArg some (imx_fields hop himx)⟩
  obtain ⟨mk, hc, hmk⟩ | hnone := opForm_faithful hf h2 h3 hA
  · obtain rfl := Option.some.inj ((hmk hd).symm.trans hb)
    have hU : hd.u = true → (mk hd).uniformOk = true := by
      obtain ⟨g, -, rfl⟩ := Option.map_eq_some_iff.1 hhd
      intro (hw : fieldU w = true)
      rw [hc.uniform _ ⟨false, true, .always⟩]
      simpa [Form.uniformBad, hw, hmk] using hu
    refine ⟨by simp [Instr.isWord, hc.hdr hd], Instr.wf_of_hdr (hc.hdr hd) hal hU (hc.modifiers hd) (hc.event hd), ?_⟩
    rw [hc.word hd, encWord_fields hhd]
  · cases (hnone hd).symm.trans hb

/-! ### The encoder -/

/-- Every instruction word is decoded back from its encoding, constructor by constructor; an event is no word. -/
theorem decode_encode (i : Instr) : Laws.RoundTrip.Statement i := by
  cases i with
  | iadd => apply Laws.RoundTrip.iadd | isub => apply Laws.RoundTrip.isub | imul => apply Laws.RoundTrip.imul | imulh => apply Laws.RoundTrip.imulh
  | imad => apply Laws.RoundTrip.imad | iadds => apply Laws.RoundTrip.iadds | isubs => apply Laws.RoundTrip.isubs | idiv => apply Laws.RoundTrip.idiv
  | irem => apply Laws.RoundTrip.irem | imin => apply Laws.RoundTrip.imin | imax => apply Laws.RoundTrip.imax | iabs => apply Laws.RoundTrip.iabs
  | ineg => apply Laws.RoundTrip.ineg | and => apply Laws.RoundTrip.and | or => apply Laws.RoundTrip.or | xor => apply Laws.RoundTrip.xor
  | not => apply Laws.RoundTrip.not | shl => apply Laws.RoundTrip.shl | shr => apply Laws.RoundTrip.shr | sar => apply Laws.RoundTrip.sar
  | rot => apply Laws.RoundTrip.rot | popc => apply Laws.RoundTrip.popc | clz => apply Laws.RoundTrip.clz | brev => apply Laws.RoundTrip.brev
  | bfe => apply Laws.RoundTrip.bfe | bfi => apply Laws.RoundTrip.bfi | addp => apply Laws.RoundTrip.addp | subp => apply Laws.RoundTrip.subp
  | iaddi => apply Laws.RoundTrip.iaddi | andi => apply Laws.RoundTrip.andi | ori => apply Laws.RoundTrip.ori | xori => apply Laws.RoundTrip.xori
  | shli => apply Laws.RoundTrip.shli | shri => apply Laws.RoundTrip.shri | sari => apply Laws.RoundTrip.sari | imuli => apply Laws.RoundTrip.imuli
  | movi => apply Laws.RoundTrip.movi | movh => apply Laws.RoundTrip.movh | addpi => apply Laws.RoundTrip.addpi | fadd => apply Laws.RoundTrip.fadd
  | fsub => apply Laws.RoundTrip.fsub | fmul => apply Laws.RoundTrip.fmul | fma => apply Laws.RoundTrip.fma | fmin => apply Laws.RoundTrip.fmin
  | fmax => apply Laws.RoundTrip.fmax | fabs => apply Laws.RoundTrip.fabs | fneg => apply Laws.RoundTrip.fneg | frcp => apply Laws.RoundTrip.frcp
  | frsq => apply Laws.RoundTrip.frsq | fex2 => apply Laws.RoundTrip.fex2 | flg2 => apply Laws.RoundTrip.flg2 | fsin => apply Laws.RoundTrip.fsin
  | fcos => apply Laws.RoundTrip.fcos | cvt => apply Laws.RoundTrip.cvt | bra => apply Laws.RoundTrip.bra | call => apply Laws.RoundTrip.call
  | brx => apply Laws.RoundTrip.brx | callx => apply Laws.RoundTrip.callx | ret => apply Laws.RoundTrip.ret | fork => apply Laws.RoundTrip.fork
  | join => apply Laws.RoundTrip.join | quit => apply Laws.RoundTrip.quit | yield => apply Laws.RoundTrip.yield | nop => apply Laws.RoundTrip.nop
  | sleep => apply Laws.RoundTrip.sleep | cont => apply Laws.RoundTrip.cont | resume => apply Laws.RoundTrip.resume
  | trap => apply Laws.RoundTrip.trap | movs => apply Laws.RoundTrip.movs | movsw => apply Laws.RoundTrip.movsw | pand => apply Laws.RoundTrip.pand
  | por => apply Laws.RoundTrip.por | pxor => apply Laws.RoundTrip.pxor | pnot => apply Laws.RoundTrip.pnot | pmov => apply Laws.RoundTrip.pmov
  | pset => apply Laws.RoundTrip.pset | cmp => apply Laws.RoundTrip.cmp | ld => apply Laws.RoundTrip.ld | ldNarrow => apply Laws.RoundTrip.ldNarrow
  | st => apply Laws.RoundTrip.st | stNarrow => apply Laws.RoundTrip.stNarrow | lds => apply Laws.RoundTrip.lds
  | ldsNarrow => apply Laws.RoundTrip.ldsNarrow | sts => apply Laws.RoundTrip.sts | stsNarrow => apply Laws.RoundTrip.stsNarrow
  | ldf => apply Laws.RoundTrip.ldf | stf => apply Laws.RoundTrip.stf | pref => apply Laws.RoundTrip.pref | escm => apply Laws.RoundTrip.escm
  | ldAcq => apply Laws.RoundTrip.ldAcq | stRel => apply Laws.RoundTrip.stRel | ldv => apply Laws.RoundTrip.ldv | casv => apply Laws.RoundTrip.casv
  | atomAdd => apply Laws.RoundTrip.atomAdd | atomAnd => apply Laws.RoundTrip.atomAnd | atomOr => apply Laws.RoundTrip.atomOr
  | atomXor => apply Laws.RoundTrip.atomXor | atomMin => apply Laws.RoundTrip.atomMin | atomMax => apply Laws.RoundTrip.atomMax
  | atomExch => apply Laws.RoundTrip.atomExch | atomCas => apply Laws.RoundTrip.atomCas | atomFadd => apply Laws.RoundTrip.atomFadd
  | rwl => apply Laws.RoundTrip.rwl | valset => apply Laws.RoundTrip.valset | waitcSigned => apply Laws.RoundTrip.waitcSigned
  | fence => apply Laws.RoundTrip.fence | bar => apply Laws.RoundTrip.bar | waitcUnsigned => apply Laws.RoundTrip.waitcUnsigned
  | atomOrdAdd => apply Laws.RoundTrip.atomOrdAdd | atomOrdAnd => apply Laws.RoundTrip.atomOrdAnd | atomOrdOr => apply Laws.RoundTrip.atomOrdOr
  | atomOrdXor => apply Laws.RoundTrip.atomOrdXor | atomOrdMin => apply Laws.RoundTrip.atomOrdMin | atomOrdMax => apply Laws.RoundTrip.atomOrdMax
  | atomOrdExch => apply Laws.RoundTrip.atomOrdExch | atomOrdCas => apply Laws.RoundTrip.atomOrdCas | atomOrdFadd => apply Laws.RoundTrip.atomOrdFadd
  | redAdd => apply Laws.RoundTrip.redAdd | redAnd => apply Laws.RoundTrip.redAnd | redOr => apply Laws.RoundTrip.redOr
  | redXor => apply Laws.RoundTrip.redXor | redMin => apply Laws.RoundTrip.redMin | redMax => apply Laws.RoundTrip.redMax
  | redFadd => apply Laws.RoundTrip.redFadd | tdset => apply Laws.RoundTrip.tdset | tdget => apply Laws.RoundTrip.tdget
  | tdinv => apply Laws.RoundTrip.tdinv | mscl => apply Laws.RoundTrip.mscl | mzero => apply Laws.RoundTrip.mzero | mma => apply Laws.RoundTrip.mma
  | mdrn => apply Laws.RoundTrip.mdrn | cpy => apply Laws.RoundTrip.cpy | tmm => apply Laws.RoundTrip.tmm | twait => apply Laws.RoundTrip.twait
  | flushc => apply Laws.RoundTrip.flushc | wopen => apply Laws.RoundTrip.wopen | wrevoke => apply Laws.RoundTrip.wrevoke
  | monset => apply Laws.RoundTrip.monset | monrd => apply Laws.RoundTrip.monrd | save => apply Laws.RoundTrip.save
  | rest => apply Laws.RoundTrip.rest | keyld => apply Laws.RoundTrip.keyld | evict => apply Laws.RoundTrip.evict | movp => apply Laws.RoundTrip.movp
  | movpw => apply Laws.RoundTrip.movpw | dbrk => apply Laws.RoundTrip.dbrk | imx => apply Laws.RoundTrip.imx
  | _ => exact fun hword => nomatch hword

/-! ### The statements -/

/-- Settles O55: decoding gives back each instruction word that the encoder has encoded, and the encoder each word that decodes, as the
forms of the opcode map are faithful to the bits of their words. -/
theorem decodingAndEncodingAgree : Obligations.DecodingAndEncodingAgree := by
  unfold Obligations.DecodingAndEncodingAgree
  exact ⟨decode_encode, fun _ _ => encode_decode⟩

/-- The word of a well-formed instruction, numbered as in the opcode table, decodes to it. -/
theorem decodeTableWord_of_encode {n : Nat} {i : Instr} (hword : i.isWord = true) (hwf : i.wf = true) (he : encode i = some (BitVec.ofNat 32 n)) :
    decodeTableWord 32 n = some i := by
  obtain ⟨w, hw, hd⟩ := decode_encode i hword hwf
  obtain rfl := Option.some.inj (hw.symm.trans he)
  rw [decodeTableWord, if_neg (by decide), hd]

/-- Settles O56: the instructions are well-formed, and the words are their encodings. -/
theorem decodeWords : Obligations.DecodeWords := by
  unfold Obligations.DecodeWords
  intro p hp
  refine decodeTableWord_of_encode ?_ ?_ ?_ <;> revert p
  all_goals decide

end Sys2Proof
end

section
/-! PROOF of O27: what a unit may not do halts the context.

The check that each of these units fails is the first that it makes, so that its part comes to `State.fatal` on the state in which
the unit has begun. What a fatal cause does to the machine is said once, in `halts_fatal` and `fatal_same`. -/

namespace Sys2Proof.Machine
open Sys2Proof.Safety

/-! ### A unit that halts its context, and does nothing else -/

/-- The machine once member `k` of flock `fl` has raised a fatal cause in the unit that issues, and the unit has ended. -/
def State.faulted (s : State) (h : Hdr) (fl : Flock) (k : FKey) (cause : Nat) : State :=
  ((s.beginUnit fl).fatal k cause (unitCtx h fl s).uaddr).closeUnit h.c fl

/-- Instruction `i` halts the context of member `f` with this class and cause, and leaves each fibre's address, registers and predicates as the
passing of the unit has them. -/
def Stops (h : Hdr) (fl : Flock) (s : State) (f : Fibre) (i : Instr) (cls cause : Nat) : Prop :=
  ∃ t, exec i s = .next t ∧ Halts (passed h fl s) t (s.ctxOf f.key) ⟨cls, cause, (unitCtx h fl s).uaddr, some f.key, 1⟩
    ∧ ∀ k, (t.fibre? k).map (fun y => (y.ip, y.regs, y.preds)) = ((passed h fl s).fibre? k).map fun y => (y.ip, y.regs, y.preds)

section
variable {h : Hdr} {fl : Flock} {s : State} {f g : Fibre} {x : Ctx}

/-- A fatal cause of a unit halts a context that is not halting yet (R311). -/
theorem stops_of_faulted {i : Instr} {cause : Nat} (hx : s.ctxs.get? (s.ctxOf f.key) = some x) (hh : x.halting = none)
    (he : exec i s = .next (s.faulted h fl f.key cause)) : Stops h fl s f i (haltClass cause) cause := by
  refine ⟨_, he, ?_, fun k => ?_⟩
  · obtain ⟨rest, report, others⟩ := halts_fatal (x := s.beginUnit fl) (h := h) (fl := fl) (cause := cause) (ua := (unitCtx h fl s).uaddr) hx hh
    exact ⟨rest, report, others⟩
  · refine (fatal_same (s.beginUnit fl) h fl f.key cause (unitCtx h fl s).uaddr k).trans ?_
    rw [passed, fibre?_ends, Option.map_map]
    congr 1
    funext y
    simp

/-! ### The shapes of units, with one active member -/

theorem issues_of_solo (hs : Solo h fl f g s) : Issues h fl s := by
  refine ⟨hs.flock, fun y hy z hz => ?_⟩
  rw [hs.act, List.mem_singleton] at hy
  subst hy
  obtain rfl := Option.some.inj (hs.here.symm.trans hz)
  exact hs.free

/-- An indirect branch of which a member's target is no packet start halts for that member (R75). -/
theorem branchReg_faulted {link : Bool} {a : RegNo} (hi : Issues h fl s)
    (hf : (unitCtx h fl s).act.find? (fun y => !isPacketStart (y.pair a)) = some f) : branchReg h link a s = s.faulted h fl f.key 0x0C := by
  rw [branchReg, runUnit_issues _ hi]
  simp only [hf]
  rfl

theorem accessUnit_faulted {act : UnitCtx → Fibre → List FKey → State → State} {cause : Nat} (hs : Solo h fl f g s)
    (ha : act (unitCtx h fl s) f [] (s.beginUnit fl) = (s.beginUnit fl).fatal f.key cause (unitCtx h fl s).uaddr) :
    accessUnit h act s = s.faulted h fl f.key cause := by
  rw [accessUnit_solo _ hs, ha, State.faulted]

theorem eachMember_faulted {act : UnitCtx → Fibre → State → State} {cause : Nat} (hs : Solo h fl f g s)
    (ha : act (unitCtx h fl s) f (s.beginUnit fl) = (s.beginUnit fl).fatal f.key cause (unitCtx h fl s).uaddr) :
    eachMember h act s = s.faulted h fl f.key cause := by
  rw [eachMember, runUnit_issues _ (issues_of_solo hs), hs.act, List.foldl_cons, List.foldl_nil, ha, State.faulted]

theorem memberUnit_faulted {act : UnitCtx → Fibre → State → State} {cause : Nat} (hs : Solo h fl f g s)
    (ha : act (unitCtx h fl s) f (s.beginUnit fl) = (s.beginUnit fl).fatal f.key cause (unitCtx h fl s).uaddr) :
    memberUnit h act s = s.faulted h fl f.key cause := by
  rw [memberUnit_solo _ hs, ha, State.faulted]

theorem ctx_priv (hx : s.ctxs.get? (s.ctxOf f.key) = some x) : ((s.beginUnit fl).ctx ((s.beginUnit fl).ctxOf f.key)).priv = x.priv := by
  show (s.ctxs.getD (s.ctxOf f.key) blankCtx).priv = x.priv
  rw [Tab.getD, hx, Option.getD_some]

/-- A privileged unit in a context with PRIV does its part. -/
theorem privUnit_faulted {act : UnitCtx → Fibre → State → State} {cause : Nat} (hs : Solo h fl f g s)
    (hx : s.ctxs.get? (s.ctxOf f.key) = some x) (hp : x.priv = true)
    (ha : act (unitCtx h fl s) f (s.beginUnit fl) = (s.beginUnit fl).fatal f.key cause (unitCtx h fl s).uaddr) :
    privUnit h act s = s.faulted h fl f.key cause :=
  memberUnit_faulted hs ((if_pos ((ctx_priv hx).trans hp)).trans ha)

/-- A privileged unit in a context without PRIV does nothing of its part (R73). -/
theorem privUnit_refused {act : UnitCtx → Fibre → State → State} (hs : Solo h fl f g s)
    (hx : s.ctxs.get? (s.ctxOf f.key) = some x) (hp : x.priv = false) : privUnit h act s = s.faulted h fl f.key 0x0D :=
  memberUnit_faulted hs (if_neg (by rw [ctx_priv hx, hp]; exact Bool.false_ne_true))

/-! ### Accesses that are not aligned -/

theorem access_misaligned {k : FKey} {va n : Nat} {write : Bool} (hva : va % n ≠ 0) : s.access k va n write = .fatal 0x13 := if_pos hva

theorem spadAccess_misaligned {k : FKey} {va n m : Nat} {fe : Bool} (hva : va % n ≠ 0) : s.spadAccess k va m n fe = .fatal 0x13 := if_pos hva

theorem atomAccess_misaligned {k : FKey} {va n : Nat} (hva : va % n ≠ 0) : s.atomAccess k va n = .fatal 0x13 := if_pos hva

theorem complAccess_misaligned {k : FKey} {va : Nat} (hva : va % 32 ≠ 0) : s.complAccess k va = .fatal 0x1B := if_pos hva

theorem imageAccess_misaligned {k : FKey} {spad write : Bool} {va : Nat} (hva : va % 64 ≠ 0) : s.imageAccess k spad va write = .fatal 0x1B := if_pos hva

/-- A request, a write or a wait whose access is misaligned comes to that fault: the leaf is not met. -/
theorem requestOne_misaligned {c : UnitCtx} {o : Fibre} {also : List FKey} {acc : Acc} {va n dw left : Nat} {kind : ReqKind} {acq rel esc : Bool} {d : RegNo}
    (ha : acc = .fatal 0x13) : s.requestOne c o also acc va n kind acq rel d dw left esc = s.fatal o.key 0x13 c.uaddr := by
  subst ha; rfl

theorem storeOne_misaligned {c : UnitCtx} {o : Fibre} {acc : Acc} {va n : Nat} {kind : WKind} {rel : Bool}
    (ha : acc = .fatal 0x13) : s.storeOne c o acc va n kind rel = s.fatal o.key 0x13 c.uaddr := by
  subst ha; rfl

theorem waitOne_misaligned {c : UnitCtx} {o : Fibre} {acc : Acc} {va n dw cause : Nat} {kind : ReqKind} {d : RegNo} (hc : cause = 0x13 ∨ cause = 0x1B)
    (ha : acc = .fatal cause) : s.waitOne c o acc va n kind d dw = s.fatal o.key cause c.uaddr := by
  subst ha
  obtain rfl | rfl := hc <;> rfl

/-! ### The units that fault -/

theorem globalLoad_misaligned {d base : RegNo} {la : BitVec 4} {esc signed acq : Bool} {n : Nat} (hs : Solo h fl f g s)
    (hva : (unitCtx h fl s).ea f base % n ≠ 0) : globalLoad h d base la esc n signed acq s = s.faulted h fl f.key 0x13 :=
  accessUnit_faulted hs (requestOne_misaligned (access_misaligned hva))

theorem spadLoad_misaligned {d base : RegNo} {la : BitVec 4} {signed : Bool} {n : Nat} (hs : Solo h fl f g s)
    (hva : (unitCtx h fl s).ea f base % n ≠ 0) : spadLoad h d base la n signed s = s.faulted h fl f.key 0x13 :=
  accessUnit_faulted hs (requestOne_misaligned (spadAccess_misaligned hva))

theorem globalStore_misaligned {d base : RegNo} {rel : Bool} {n : Nat} (hs : Solo h fl f g s)
    (hva : (unitCtx h fl s).ea f base % n ≠ 0) : globalStore h d base n rel s = s.faulted h fl f.key 0x13 :=
  eachMember_faulted hs (storeOne_misaligned (access_misaligned hva))

theorem spadStore_misaligned {d base : RegNo} {n : Nat} (hs : Solo h fl f g s)
    (hva : (unitCtx h fl s).ea f base % n ≠ 0) : spadStore h d base n s = s.faulted h fl f.key 0x13 :=
  eachMember_faulted hs (storeOne_misaligned (spadAccess_misaligned hva))

theorem atomUnit_misaligned {d base : RegNo} {la : BitVec 4} {esc ord : Bool} {op : AOp} {ty : IntTy} (hs : Solo h fl f g s)
    (hva : (unitCtx h fl s).ea f base % (4 * ty.n) ≠ 0) : atomUnit h d base la esc op ty ord s = s.faulted h fl f.key 0x13 := by
  have hn : (4 * if decide (ty.n = 2) then 2 else 1) = 4 * ty.n := by cases ty <;> rfl
  exact eachMember_faulted hs (requestOne_misaligned (atomAccess_misaligned (by rwa [hn])))

theorem redUnit_misaligned {d base : RegNo} {op : AOp} {ty : IntTy} (hs : Solo h fl f g s)
    (hva : (unitCtx h fl s).ea f base % (4 * ty.n) ≠ 0) : redUnit h d base op ty s = s.faulted h fl f.key 0x13 :=
  eachMember_faulted hs (storeOne_misaligned (atomAccess_misaligned hva))

theorem waitcUnit_misaligned {d a b : RegNo} {signed : Bool} {cc : CC} (hs : Solo h fl f g s)
    (hva : (f.pair a).toNat % 4 ≠ 0) : waitcUnit h d a b signed cc s = s.faulted h fl f.key 0x13 :=
  eachMember_faulted hs (waitOne_misaligned (.inl rfl) (access_misaligned hva))

theorem exec_ldf_misaligned {d base : RegNo} {la : BitVec 4} {esc : Bool} {z : Sz3} (hs : Solo h fl f g s)
    (hva : (unitCtx h fl s).ea f base % sz3Bytes z ≠ 0) : exec (.ldf h d base la esc z) s = .next (s.faulted h fl f.key 0x13) :=
  congrArg Host.Outcome.next (eachMember_faulted hs (requestOne_misaligned (spadAccess_misaligned hva)))

theorem exec_stf_misaligned {d base : RegNo} {z : Sz3} (hs : Solo h fl f g s)
    (hva : (unitCtx h fl s).ea f base % sz3Bytes z ≠ 0) : exec (.stf h d base z) s = .next (s.faulted h fl f.key 0x13) :=
  congrArg Host.Outcome.next (eachMember_faulted hs (storeOne_misaligned (spadAccess_misaligned hva)))

theorem exec_casv_misaligned {d base : RegNo} {la : BitVec 4} {esc : Bool} {z : Sz2} (hs : Solo h fl f g s)
    (hva : (unitCtx h fl s).ea f base % sz2Bytes z ≠ 0) : exec (.casv h d base la esc z) s = .next (s.faulted h fl f.key 0x13) :=
  congrArg Host.Outcome.next (eachMember_faulted hs (requestOne_misaligned (access_misaligned hva)))

theorem exec_ldv_misaligned {d base : RegNo} {la : BitVec 4} {esc w : Bool} (hs : Solo h fl f g s)
    (hva : (unitCtx h fl s).ea f base % 4 ≠ 0) : exec (.ldv h d base la esc w) s = .next (s.faulted h fl f.key 0x13) :=
  congrArg Host.Outcome.next (accessUnit_faulted hs (requestOne_misaligned (access_misaligned hva)))

theorem exec_rwl_misaligned {d base : RegNo} {la : BitVec 4} {esc : Bool} {o : RwlOp} (hs : Solo h fl f g s)
    (hva : (unitCtx h fl s).ea f base % 4 ≠ 0) : exec (.rwl h d base la esc o) s = .next (s.faulted h fl f.key 0x13) :=
  congrArg Host.Outcome.next (eachMember_faulted hs (requestOne_misaligned (atomAccess_misaligned hva)))

theorem exec_twait_misaligned {d a : RegNo} {i : BitVec 7} (hs : Solo h fl f g s) (hva : (f.pair a).toNat % 32 ≠ 0) :
    exec (.twait h d a i) s = .next (s.faulted h fl f.key 0x1B) :=
  congrArg Host.Outcome.next (eachMember_faulted hs (waitOne_misaligned (.inr rfl) (complAccess_misaligned hva)))

theorem exec_tdset_misaligned {n : TdNo} {a : RegNo} {sp : Bool} (hs : Solo h fl f g s) (hva : (f.pair a).toNat % 64 ≠ 0) :
    exec (.tdset h n a sp) s = .next (s.faulted h fl f.key 0x1B) :=
  congrArg Host.Outcome.next (memberUnit_faulted hs (by dsimp only; rw [imageAccess_misaligned hva]; rfl))

theorem exec_tdget_misaligned {n : TdNo} {a : RegNo} {sp : Bool} (hs : Solo h fl f g s) (hva : (f.pair a).toNat % 64 ≠ 0) :
    exec (.tdget h n a sp) s = .next (s.faulted h fl f.key 0x1B) :=
  congrArg Host.Outcome.next (memberUnit_faulted hs (by dsimp only; rw [imageAccess_misaligned hva]; rfl))

theorem exec_monset_misaligned {a b : RegNo} (hs : Solo h fl f g s) (hva : (f.pair a).toNat % 64 ≠ 0) :
    exec (.monset h a b) s = .next (s.faulted h fl f.key 0x1B) :=
  congrArg Host.Outcome.next (memberUnit_faulted hs (if_pos hva))

theorem exec_monrd_misaligned {a b : RegNo} (hs : Solo h fl f g s) (hva : (f.pair a).toNat % 64 ≠ 0) :
    exec (.monrd h a b) s = .next (s.faulted h fl f.key 0x1B) :=
  congrArg Host.Outcome.next (memberUnit_faulted hs (if_pos hva))

section
variable {d a b : RegNo} (hs : Solo h fl f g s) (hx : s.ctxs.get? (s.ctxOf f.key) = some x) (hp : x.priv = true)
include hs hx hp

theorem exec_wopen_misaligned (hva : (f.pair a).toNat % 32 ≠ 0) : exec (.wopen h d a b) s = .next (s.faulted h fl f.key 0x1B) :=
  congrArg Host.Outcome.next (privUnit_faulted hs hx hp (if_pos hva))

theorem exec_save_misaligned (hva : (f.pair a).toNat % 4096 ≠ 0) : exec (.save h d a b) s = .next (s.faulted h fl f.key 0x29) :=
  congrArg Host.Outcome.next (privUnit_faulted hs hx hp (if_pos hva))

theorem exec_rest_misaligned (hva : (f.pair a).toNat % 4096 ≠ 0) : exec (.rest h d a b) s = .next (s.faulted h fl f.key 0x29) :=
  congrArg Host.Outcome.next (privUnit_faulted hs hx hp (if_pos hva))

theorem exec_keyld_misaligned (hva : (f.pair a).toNat % 16 ≠ 0) : exec (.keyld h d a b) s = .next (s.faulted h fl f.key 0x29) :=
  congrArg Host.Outcome.next (privUnit_faulted hs hx hp (if_pos hva))

end
end

/-- Settles O27: each of these units comes, with its one active member, to the fatal cause of the first check that it makes. -/
theorem fatalFaultsHalt : Obligations.FatalFaultsHalt := by
  unfold Obligations.FatalFaultsHalt
  intro h d a base la esc fl s f x hx hh
  dsimp only
  have stops (cause : Nat) {i : Instr} (he : exec i s = .next (s.faulted h fl f.key cause)) : Stops h fl s f i (haltClass cause) cause :=
    stops_of_faulted hx hh he
  refine ⟨fun hi hf => ?_, fun g hs => ?_⟩
  · have bad (link : Bool) : branchReg h link a s = s.faulted h fl f.key 0x0C := branchReg_faulted hi hf
    refine ⟨stops 0x0C (congrArg _ (bad false)), stops 0x0C (congrArg _ (bad true)), fun ha => ?_⟩
    subst ha
    exact stops 0x0C (congrArg _ (bad false))
  have priv {act : UnitCtx → Fibre → State → State} (hp : x.priv = false) : privUnit h act s = s.faulted h fl f.key 0x0D := privUnit_refused hs hx hp
  refine ⟨?sizes3, ?sizes2, ?narrow, ?_, ?_, ?_, ?_, ?atomics, ?fadd, ?_, ?_, ?_, ?_, ?_, ?withPriv, ?withoutPriv⟩
  case sizes3 =>
    intro z
    cases z
    all_goals
      exact ⟨fun hva => stops 0x13 (congrArg _ (globalLoad_misaligned hs hva)), fun hva => stops 0x13 (congrArg _ (spadLoad_misaligned hs hva)),
        fun hva => stops 0x13 (exec_ldf_misaligned hs hva), fun hva => stops 0x13 (congrArg _ (globalStore_misaligned hs hva)),
        fun hva => stops 0x13 (congrArg _ (spadStore_misaligned hs hva)), fun hva => stops 0x13 (exec_stf_misaligned hs hva)⟩
  case sizes2 =>
    intro z
    cases z
    all_goals
      exact ⟨fun hva => stops 0x13 (congrArg _ (globalLoad_misaligned hs hva)), fun hva => stops 0x13 (congrArg _ (globalStore_misaligned hs hva)),
        fun hva => stops 0x13 (exec_casv_misaligned hs hva)⟩
  case narrow =>
    simp only [List.forall_mem_cons, List.not_mem_nil, false_imp_iff, implies_true, and_true]
    exact ⟨⟨fun hva => stops 0x13 (congrArg _ (globalLoad_misaligned hs hva)), fun hva => stops 0x13 (congrArg _ (spadLoad_misaligned hs hva))⟩,
      fun hva => stops 0x13 (congrArg _ (globalLoad_misaligned hs hva)), fun hva => stops 0x13 (congrArg _ (spadLoad_misaligned hs hva))⟩
  case atomics =>
    intro ty
    simp only [List.forall_mem_cons, List.not_mem_nil, false_imp_iff, implies_true, and_true]
    and_intros
    iterate 16 · exact fun hva => stops 0x13 (congrArg _ (atomUnit_misaligned hs hva))
    all_goals exact fun hva => stops 0x13 (congrArg _ (redUnit_misaligned hs hva))
  case fadd =>
    simp only [List.forall_mem_cons, List.not_mem_nil, false_imp_iff, implies_true, and_true]
    exact ⟨fun hva => stops 0x13 (congrArg _ (atomUnit_misaligned (ty := .b32) hs hva)), fun hva => stops 0x13 (congrArg _ (atomUnit_misaligned (ty := .b32) hs hva)),
      fun hva => stops 0x13 (congrArg _ (redUnit_misaligned (ty := .b32) hs hva))⟩
  case withPriv =>
    exact fun hp => ⟨fun hva => stops 0x1B (exec_wopen_misaligned hs hx hp hva), fun hva => stops 0x29 (exec_save_misaligned hs hx hp hva),
      fun hva => stops 0x29 (exec_rest_misaligned hs hx hp hva), fun hva => stops 0x29 (exec_keyld_misaligned hs hx hp hva)⟩
  case withoutPriv =>
    intro hp
    simp only [List.forall_mem_cons, List.not_mem_nil, false_imp_iff, implies_true, and_true]
    and_intros
    all_goals exact stops 0x0D (congrArg _ (priv hp))
  · exact fun hva => stops 0x13 (congrArg _ (globalStore_misaligned hs hva))
  · exact fun hva => stops 0x13 (congrArg _ (spadStore_misaligned hs hva))
  · exact fun w hva => stops 0x13 (exec_ldv_misaligned hs hva)
  · exact fun o hva => stops 0x13 (exec_rwl_misaligned hs hva)
  · exact fun cc ge => ⟨fun hva => stops 0x13 (congrArg _ (waitcUnit_misaligned hs hva)), fun hva => stops 0x13 (congrArg _ (waitcUnit_misaligned hs hva))⟩
  · exact fun i hva => stops 0x1B (exec_twait_misaligned hs hva)
  · exact fun n sp => ⟨fun hva => stops 0x1B (exec_tdset_misaligned hs hva), fun hva => stops 0x1B (exec_tdget_misaligned hs hva)⟩
  · exact fun hva => stops 0x1B (exec_monset_misaligned hs hva)
  · exact fun hva => stops 0x1B (exec_monrd_misaligned hs hva)

end Sys2Proof.Machine
end

section
/-! SUPPORT. The numbers of a format, counted: the magnitude bits `k` of a format stand for `Fmt.grid k`, which rises with `k`, and
what `Fmt.roundMag` answers is one of the two neighbours on that grid of the exact value (R110, R112). -/

namespace Sys2Proof.Machine
open Sys2Proof.Safety

/-! ### One of two neighbours -/

/-- The place that a rounding mode chooses for `x`, which lies between the number `lo` at place `k` and the number `hi` at the next (R112). -/
def roundPick (r : Rnd) (neg : Bool) (k : Nat) (lo x hi : ℚ) : Nat :=
  if x = lo then k else
  match r with
  | .rz => k
  | .ru => if neg then k else k + 1
  | .rd => if neg then k + 1 else k
  | .rn => if lo + hi < 2 * x then k + 1 else if 2 * x < lo + hi then k else k + k % 2

theorem roundPick_exact (r : Rnd) (neg : Bool) (k : Nat) (lo hi : ℚ) : roundPick r neg k lo lo hi = k := if_pos rfl

theorem roundPick_eq_or (r : Rnd) (neg : Bool) (k : Nat) (lo x hi : ℚ) : roundPick r neg k lo x hi = k ∨ roundPick r neg k lo x hi = k + 1 := by
  unfold roundPick
  cases r <;> cases neg <;> grind

/-- Only the order of the numbers and of their middle counts. -/
theorem roundPick_congr (r : Rnd) (neg : Bool) (k : Nat) {lo x hi lo' x' hi' : ℚ} (h0 : x = lo ↔ x' = lo') (h1 : lo + hi < 2 * x ↔ lo' + hi' < 2 * x')
    (h2 : 2 * x < lo + hi ↔ 2 * x' < lo' + hi') : roundPick r neg k lo x hi = roundPick r neg k lo' x' hi' := by
  unfold roundPick
  simp only [h0, h1, h2]

theorem roundPick_scale (r : Rnd) (neg : Bool) (k : Nat) (lo x hi : ℚ) {c : ℚ} (hc : 0 < c) :
    roundPick r neg k (lo * c) (x * c) (hi * c) = roundPick r neg k lo x hi := by
  apply roundPick_congr
  · exact mul_left_inj' hc.ne'
  · rw [← add_mul, ← mul_assoc, mul_lt_mul_iff_left₀ hc]
  · rw [← add_mul, ← mul_assoc, mul_lt_mul_iff_left₀ hc]

/-- The place may be counted from an even one. -/
theorem add_roundPick (r : Rnd) (neg : Bool) {b : Nat} (k : Nat) (lo x hi : ℚ) (hb : b % 2 = 0) : b + roundPick r neg k lo x hi = roundPick r neg (b + k) lo x hi := by
  have hk : (b + k) % 2 = k % 2 := by omega
  unfold roundPick
  rw [hk]
  cases r <;> cases neg <;> grind

/-- What `roundShift` answers is the integer below or above. -/
theorem roundShift_eq_roundPick (r : Rnd) (neg : Bool) (m sh : Nat) :
    roundShift r neg m sh = roundPick r neg (m / 2 ^ sh) ((m / 2 ^ sh : Nat) : ℚ) ((m : ℚ) / 2 ^ sh) (((m / 2 ^ sh : Nat) : ℚ) + 1) := by
  have hp : (0 : ℚ) < 2 ^ sh := by positivity
  have hm : (m : ℚ) = ((m / 2 ^ sh : Nat) : ℚ) * 2 ^ sh + ((m % 2 ^ sh : Nat) : ℚ) := by exact_mod_cast (Nat.div_add_mod' m (2 ^ sh)).symm
  rw [← roundPick_scale _ _ _ _ _ _ hp, div_mul_cancel₀ _ hp.ne']
  unfold roundShift
  generalize m / 2 ^ sh = q at *
  generalize m % 2 ^ sh = d at *
  have h0 : (m : ℚ) = q * 2 ^ sh ↔ d = 0 := by rw [hm]; simp
  have h1 : (q : ℚ) * 2 ^ sh + (q + 1) * 2 ^ sh < 2 * m ↔ 2 ^ sh < 2 * d := by
    rw [hm, ← Nat.cast_lt (α := ℚ)]; push_cast; constructor <;> intro h <;> linarith
  have h2 : 2 * (m : ℚ) < q * 2 ^ sh + (q + 1) * 2 ^ sh ↔ 2 * d < 2 ^ sh := by
    rw [hm, ← Nat.cast_lt (α := ℚ)]; push_cast; constructor <;> intro h <;> linarith
  simp only [roundPick, h0, h1, h2, gt_iff_lt] <;> rfl

/-! ### The grid of a format -/

/-- The magnitude that the bits `k` stand for, in units of the smallest subnormal one, as if exponents went on (R110). -/
def Fmt.steps (f : Fmt) (k : Nat) : Nat := if k < 2 ^ f.mb then k else (2 ^ f.mb + k % 2 ^ f.mb) * 2 ^ (k / 2 ^ f.mb - 1)

/-- The exponent of the smallest subnormal. -/
def Fmt.unit (f : Fmt) : Int := 1 - (f.bias : Int) - f.mb

/-- The magnitude that the bits `k` stand for. -/
def Fmt.grid (f : Fmt) (k : Nat) : ℚ := f.steps k * 2 ^ f.unit

variable {f : Fmt} {r : Rnd} {neg : Bool} {x : ℚ} {i j k m n g t w : Nat} {e : Int}

/-- Bits are `n` steps of size `2 ^ g`, with a leading bit but in the lowest binade; `n` may be the first of the next binade. -/
theorem Fmt.steps_binade (hn : n ≤ 2 ^ (f.mb + 1)) (hg : g = 0 ∨ 2 ^ f.mb ≤ n) : f.steps (g * 2 ^ f.mb + n) = n * 2 ^ g := by
  have hp : 0 < 2 ^ f.mb := Nat.two_pow_pos _
  rw [pow_succ] at hn
  unfold Fmt.steps
  by_cases hl : n < 2 ^ f.mb
  · obtain rfl : g = 0 := hg.resolve_right (by omega)
    simp [hl]
  · rw [if_neg (by have := Nat.zero_le (g * 2 ^ f.mb); omega)]
    obtain ⟨c, rfl⟩ : ∃ c, n = 2 ^ f.mb + c := ⟨n - 2 ^ f.mb, by omega⟩
    rw [show g * 2 ^ f.mb + (2 ^ f.mb + c) = c + 2 ^ f.mb * (g + 1) by ring, Nat.add_mul_mod_self_left, Nat.add_mul_div_left _ _ hp]
    by_cases hc : c < 2 ^ f.mb
    · rw [Nat.mod_eq_of_lt hc, Nat.div_eq_of_lt hc]; simp
    · obtain rfl : c = 2 ^ f.mb := by omega
      rw [Nat.mod_self, Nat.div_self hp, show 1 + (g + 1) - 1 = g + 1 by omega]
      ring

theorem Fmt.exists_binade (f : Fmt) (k : Nat) : ∃ g n, k = g * 2 ^ f.mb + n ∧ n < 2 ^ (f.mb + 1) ∧ (g = 0 ∨ 2 ^ f.mb ≤ n) := by
  have hp : 0 < 2 ^ f.mb := Nat.two_pow_pos _
  have hk := Nat.div_add_mod' k (2 ^ f.mb)
  have hlt := Nat.mod_lt k hp
  rcases Nat.eq_zero_or_pos (k / 2 ^ f.mb) with h | h
  · exact ⟨0, k, by simp, by rw [h] at hk; rw [pow_succ]; omega, .inl rfl⟩
  · refine ⟨k / 2 ^ f.mb - 1, 2 ^ f.mb + k % 2 ^ f.mb, ?_, by rw [pow_succ]; omega, .inr (by omega)⟩
    obtain ⟨c, hc⟩ : ∃ c, k / 2 ^ f.mb = c + 1 := ⟨_, (Nat.sub_add_cancel h).symm⟩
    rw [hc] at hk ⊢
    rw [Nat.add_sub_cancel, ← add_assoc, ← Nat.succ_mul]
    exact hk.symm

theorem Fmt.steps_lt_succ (f : Fmt) (k : Nat) : f.steps k < f.steps (k + 1) := by
  obtain ⟨g, n, rfl, hn, hg⟩ := f.exists_binade k
  rw [add_assoc, Fmt.steps_binade hn.le hg, Fmt.steps_binade hn (by omega)]
  exact Nat.mul_lt_mul_of_pos_right (Nat.lt_succ_self n) (Nat.two_pow_pos g)

theorem Fmt.grid_strictMono (f : Fmt) : StrictMono f.grid :=
  strictMono_nat_of_lt_succ fun k => by
    unfold Fmt.grid
    have := f.steps_lt_succ k
    gcongr

theorem Fmt.grid_le (f : Fmt) : f.grid i ≤ f.grid j ↔ i ≤ j := f.grid_strictMono.le_iff_le
theorem Fmt.grid_lt (f : Fmt) : f.grid i < f.grid j ↔ i < j := f.grid_strictMono.lt_iff_lt

theorem Fmt.grid_zero (f : Fmt) : f.grid 0 = 0 := by simp [Fmt.grid, Fmt.steps]

theorem Fmt.grid_nonneg (f : Fmt) (k : Nat) : 0 ≤ f.grid k := by unfold Fmt.grid; positivity

theorem Fmt.grid_binade (hn : n ≤ 2 ^ (f.mb + 1)) (hg : g = 0 ∨ 2 ^ f.mb ≤ n) : f.grid (g * 2 ^ f.mb + n) = n * 2 ^ (f.unit + g) := by
  rw [Fmt.grid, Fmt.steps_binade hn hg, zpow_add₀ (by norm_num)]
  push_cast
  rw [zpow_natCast]
  ring

/-! ### Rounding on the grid -/

/-- `k` is the place on the grid of `f` to which `r` rounds the magnitude `x`, of which `neg` is the sign. -/
def Fmt.Rounded (f : Fmt) (r : Rnd) (neg : Bool) (x : ℚ) (k : Nat) : Prop :=
  ∃ j, f.grid j ≤ x ∧ x < f.grid (j + 1) ∧ k = roundPick r neg j (f.grid j) x (f.grid (j + 1))

/-- A number lies above one place only. -/
theorem Fmt.floor_unique {j' : Nat} (h : f.grid j ≤ x) (h' : x < f.grid (j + 1)) (hj : f.grid j' ≤ x) (hj' : x < f.grid (j' + 1)) : j = j' := by
  have h1 := f.grid_lt.1 (h.trans_lt hj')
  have h2 := f.grid_lt.1 (hj.trans_lt h')
  omega

theorem Fmt.Rounded.unique (h : f.Rounded r neg x i) (h' : f.Rounded r neg x j) : i = j := by
  obtain ⟨a, ha, ha', rfl⟩ := h
  obtain ⟨b, hb, hb', rfl⟩ := h'
  obtain rfl := Fmt.floor_unique ha ha' hb hb'
  rfl

theorem Fmt.rounded_grid (f : Fmt) (r : Rnd) (neg : Bool) (k : Nat) : f.Rounded r neg (f.grid k) k :=
  ⟨k, le_rfl, f.grid_lt.2 (Nat.lt_succ_self k), (roundPick_exact ..).symm⟩

/-- The binade and the step of a magnitude, as `roundMag` finds them. -/
theorem Fmt.roundMag_pos (hm : m ≠ 0) : ∃ g : Nat, (f.unit + g = max ((Nat.log2 m : Int) + e - f.mb) f.unit) ∧
    f.roundMag r neg m e = g * 2 ^ f.mb +
      (if f.unit + g ≤ e then m * 2 ^ (e - (f.unit + g)).toNat else roundShift r neg m (f.unit + g - e).toNat) := by
  refine ⟨(max ((Nat.log2 m : Int) + e - f.mb) f.unit - f.unit).toNat, by omega, ?_⟩
  have hu : 1 - (f.bias : Int) - f.mb = f.unit := rfl
  unfold Fmt.roundMag
  rw [if_neg hm]
  simp only [hu]
  have h1 : max ((Nat.log2 m : Int) + e - f.mb) f.unit + f.mb - (1 - (f.bias : Int)) = max ((Nat.log2 m : Int) + e - f.mb) f.unit - f.unit := by
    unfold Fmt.unit; omega
  rw [h1, Int.toNat_of_nonneg (by omega), add_sub_cancel]

/-- What `roundMag` answers is the exact magnitude rounded on the grid. -/
theorem Fmt.roundMag_rounded (hmb : 1 ≤ f.mb) (r : Rnd) (neg : Bool) (m : Nat) (e : Int) : f.Rounded r neg (m * 2 ^ e) (f.roundMag r neg m e) := by
  by_cases hm : m = 0
  · subst hm
    have h := f.rounded_grid r neg 0
    rw [f.grid_zero] at h
    simpa [Fmt.roundMag] using h
  obtain ⟨g, hg, hk⟩ := Fmt.roundMag_pos (f := f) (r := r) (neg := neg) (e := e) hm
  rw [hk]
  -- the magnitude in steps of the binade, and how many of them it holds
  have h2 : (0 : ℚ) < 2 ^ (f.unit + g) := by positivity
  set q := f.unit + (g : Int) with hq
  have hlo := Nat.log2_self_le hm
  have hhi := Nat.lt_log2_self (n := m)
  obtain ⟨n, hn0, hn1, hn⟩ : ∃ n : Nat, (n : ℚ) * 2 ^ q ≤ m * 2 ^ e ∧ (m : ℚ) * 2 ^ e < (n + 1 : ℚ) * 2 ^ q ∧
      (if q ≤ e then m * 2 ^ (e - q).toNat else roundShift r neg m (q - e).toNat) = roundPick r neg n (n * 2 ^ q) (m * 2 ^ e) ((n + 1) * 2 ^ q) := by
    split_ifs with hqe
    · refine ⟨m * 2 ^ (e - q).toNat, ?_⟩
      have hx : (m : ℚ) * 2 ^ e = ((m * 2 ^ (e - q).toNat : Nat) : ℚ) * 2 ^ q := by
        push_cast
        rw [mul_assoc, ← zpow_natCast, Int.toNat_of_nonneg (by omega), ← zpow_add₀ (by norm_num), sub_add_cancel]
      rw [hx, roundPick_exact]
      exact ⟨le_rfl, by gcongr; linarith, rfl⟩
    · have hx : (m : ℚ) * 2 ^ e = (m : ℚ) / 2 ^ (q - e).toNat * 2 ^ q := by
        rw [div_mul_eq_mul_div, eq_div_iff (by positivity), mul_assoc, ← zpow_natCast, Int.toNat_of_nonneg (by omega), ← zpow_add₀ (by norm_num), add_sub_cancel]
      refine ⟨m / 2 ^ (q - e).toNat, ?_⟩
      rw [hx, roundPick_scale _ _ _ _ _ _ h2, ← roundShift_eq_roundPick, mul_le_mul_iff_left₀ h2, mul_lt_mul_iff_left₀ h2]
      refine ⟨?_, ?_, rfl⟩
      · rw [le_div_iff₀ (by positivity)]; exact_mod_cast Nat.div_mul_le_self ..
      · rw [div_lt_iff₀ (by positivity)]; exact_mod_cast Nat.lt_mul_of_div_lt (Nat.lt_succ_self _) (Nat.two_pow_pos _)
  have two {a b : Int} (h : a ≤ b) : (2 : ℚ) ^ a ≤ 2 ^ b := zpow_le_zpow_right₀ (by norm_num) h
  have hbig : n < 2 ^ (f.mb + 1) := by
    have hx : (m : ℚ) * 2 ^ e < 2 ^ ((Nat.log2 m : Int) + 1 + e) := by
      rw [zpow_add₀ (by norm_num)]
      have : (m : ℚ) < 2 ^ ((Nat.log2 m : Int) + 1) := by exact_mod_cast hhi
      gcongr
    have : (n : ℚ) * 2 ^ q < 2 ^ ((f.mb : Int) + 1) * 2 ^ q := by
      rw [← zpow_add₀ (by norm_num)]
      exact (hn0.trans_lt hx).trans_le (two (by omega))
    exact_mod_cast lt_of_mul_lt_mul_right this h2.le
  have hlead : g = 0 ∨ 2 ^ f.mb ≤ n := by
    refine or_iff_not_imp_left.2 fun h0 => ?_
    have hx : (2 : ℚ) ^ ((Nat.log2 m : Int) + e) ≤ m * 2 ^ e := by
      rw [zpow_add₀ (by norm_num)]
      have : (2 : ℚ) ^ (Nat.log2 m : Int) ≤ m := by exact_mod_cast hlo
      gcongr
    have : (2 : ℚ) ^ (f.mb : Int) * 2 ^ q < (n + 1) * 2 ^ q := by
      rw [← zpow_add₀ (by norm_num)]
      exact ((two (by omega)).trans hx).trans_lt hn1
    have : 2 ^ f.mb < n + 1 := by exact_mod_cast lt_of_mul_lt_mul_right this h2.le
    omega
  have hl : f.grid (g * 2 ^ f.mb + n) = n * 2 ^ q := Fmt.grid_binade hbig.le hlead
  have hr : f.grid (g * 2 ^ f.mb + n + 1) = (n + 1) * 2 ^ q := by
    rw [add_assoc, Fmt.grid_binade (by omega) (by omega)]; push_cast; rfl
  refine ⟨g * 2 ^ f.mb + n, hl ▸ hn0, hr ▸ hn1, ?_⟩
  rw [hn, hl, hr, add_roundPick]
  rw [Nat.mul_mod, Nat.pow_mod]
  simp [show f.mb ≠ 0 by omega]

/-! ### What a rounded magnitude is -/

/-- A rounding of magnitudes that goes to the smaller neighbour: toward zero, or toward the infinity of the other sign. -/
def roundsDown (r : Rnd) (neg : Bool) : Prop := r = .rz ∨ r = .ru ∧ neg = true ∨ r = .rd ∧ neg = false
/-- A rounding of magnitudes that goes to the larger neighbour. -/
def roundsUp (r : Rnd) (neg : Bool) : Prop := r = .ru ∧ neg = false ∨ r = .rd ∧ neg = true

theorem roundPick_down (h : roundsDown r neg) (k : Nat) (lo x hi : ℚ) : roundPick r neg k lo x hi = k := by
  obtain rfl | ⟨rfl, rfl⟩ | ⟨rfl, rfl⟩ := h <;> simp [roundPick]

theorem roundPick_up (h : roundsUp r neg) (k : Nat) {lo x : ℚ} (hi : ℚ) (hx : x ≠ lo) : roundPick r neg k lo x hi = k + 1 := by
  obtain ⟨rfl, rfl⟩ | ⟨rfl, rfl⟩ := h <;> simp [roundPick, hx]

theorem roundPick_nearest (neg : Bool) (k : Nat) (lo x hi : ℚ) : roundPick .rn neg k lo x hi =
    if x = lo then k else if lo + hi < 2 * x then k + 1 else if 2 * x < lo + hi then k else k + k % 2 := rfl

namespace Fmt.Rounded

/-- No number of the grid lies between the exact value and the place that it is rounded to. -/
theorem le_of_grid_le (h : f.Rounded r neg x k) (hi : f.grid i ≤ x) : i ≤ k := by
  obtain ⟨j, h1, h2, rfl⟩ := h
  have := f.grid_lt.1 (hi.trans_lt h2)
  have := roundPick_eq_or r neg j (f.grid j) x (f.grid (j + 1))
  omega

theorem le_of_le_grid (h : f.Rounded r neg x k) (hi : x ≤ f.grid i) : k ≤ i := by
  obtain ⟨j, h1, h2, rfl⟩ := h
  rcases eq_or_lt_of_le h1 with h0 | h0
  · rw [← h0, roundPick_exact]
    exact f.grid_le.1 (h1.trans hi)
  · have := f.grid_lt.1 (h0.trans_le hi)
    have := roundPick_eq_or r neg j (f.grid j) x (f.grid (j + 1))
    omega

theorem exact (h : f.Rounded r neg (f.grid i) k) : k = i := le_antisymm (h.le_of_le_grid le_rfl) (h.le_of_grid_le le_rfl)

theorem down (h : f.Rounded r neg x k) (hr : roundsDown r neg) : f.grid k ≤ x := by
  obtain ⟨j, h1, h2, rfl⟩ := h
  rwa [roundPick_down hr]

theorem up (h : f.Rounded r neg x k) (hr : roundsUp r neg) : x ≤ f.grid k := by
  obtain ⟨j, h1, h2, rfl⟩ := h
  rcases eq_or_lt_of_le h1 with h0 | h0
  · rw [← h0, roundPick_exact]
  · rw [roundPick_up hr _ _ h0.ne']
    exact h2.le

/-- To nearest: one neighbour on the near side of the middle, or the even one. -/
theorem nearest_cases (h : f.Rounded .rn neg x k) :
    ∃ j, f.grid j ≤ x ∧ x < f.grid (j + 1) ∧ (k = j ∧ 2 * x < f.grid j + f.grid (j + 1) ∨ k = j + 1 ∧ f.grid j + f.grid (j + 1) < 2 * x
      ∨ k = j + j % 2 ∧ 2 * x = f.grid j + f.grid (j + 1)) := by
  obtain ⟨j, h1, h2, rfl⟩ := h
  refine ⟨j, h1, h2, ?_⟩
  have : f.grid j < f.grid (j + 1) := h1.trans_lt h2
  rw [roundPick_nearest]
  split_ifs with h0 h3 h4
  · exact .inl ⟨rfl, by linarith⟩
  · exact .inr (.inl ⟨rfl, h3⟩)
  · exact .inl ⟨rfl, h4⟩
  · exact .inr (.inr ⟨rfl, by linarith⟩)

/-- No number of the grid is nearer to the exact value, and one that is as near is the odd one of a tie. -/
theorem nearest (h : f.Rounded .rn neg x k) (i : Nat) : |f.grid k - x| ≤ |f.grid i - x| ∧ (|f.grid k - x| = |f.grid i - x| → i ≠ k → k % 2 = 0) := by
  obtain ⟨j, h1, h2, hk⟩ := h.nearest_cases
  have hi : i = j ∨ f.grid i < f.grid j ∨ i = j + 1 ∨ f.grid (j + 1) < f.grid i := by
    rw [f.grid_lt, f.grid_lt]; omega
  have habs : |f.grid i - x| = x - f.grid i ∧ f.grid i ≤ f.grid j ∨ |f.grid i - x| = f.grid i - x ∧ f.grid (j + 1) ≤ f.grid i := by
    rcases Nat.lt_or_ge j i with hij | hij
    · have := f.grid_le.2 (Nat.succ_le_of_lt hij)
      exact .inr ⟨abs_of_nonneg (by linarith), this⟩
    · have := f.grid_le.2 hij
      exact .inl ⟨abs_of_nonpos (by linarith) |>.trans (by ring), this⟩
  have hlo : |f.grid j - x| = x - f.grid j := (abs_of_nonpos (by linarith)).trans (by ring)
  have hhi : |f.grid (j + 1) - x| = f.grid (j + 1) - x := abs_of_nonneg (by linarith)
  obtain ⟨rfl, h3⟩ | ⟨rfl, h3⟩ | ⟨rfl, h3⟩ := hk
  · rw [hlo]
    refine ⟨by rcases habs with h | h <;> linarith, fun he hne => absurd he ?_⟩
    rcases hi with hi | hi | rfl | hi
    · exact absurd hi hne
    all_goals rcases habs with h | h <;> intro <;> linarith
  · rw [hhi]
    refine ⟨by rcases habs with h | h <;> linarith, fun he hne => absurd he ?_⟩
    rcases hi with rfl | hi | hi | hi
    rotate_left 2
    · exact absurd hi hne
    all_goals rcases habs with h | h <;> intro <;> linarith
  · refine ⟨?_, fun _ _ => by omega⟩
    have : |f.grid (j + j % 2) - x| = x - f.grid j := by
      rcases Nat.mod_two_eq_zero_or_one j with h | h <;> rw [h]
      · exact hlo
      · rw [hhi]; linarith
    rw [this]
    rcases habs with h | h <;> linarith

/-! Where a rounding passes a place. -/

theorem gt_iff_of_up (h : f.Rounded r neg x k) (hr : roundsUp r neg) : t < k ↔ f.grid t < x :=
  ⟨fun hk => lt_of_not_ge fun hx => absurd (h.le_of_le_grid hx) (by omega), fun hx => f.grid_lt.1 (hx.trans_le (h.up hr))⟩

theorem gt_iff_of_nearest (h : f.Rounded .rn neg x k) :
    t < k ↔ f.grid t + f.grid (t + 1) < 2 * x ∨ f.grid t + f.grid (t + 1) = 2 * x ∧ t % 2 = 1 := by
  obtain ⟨j, h1, h2, hk⟩ := h.nearest_cases
  have ht := f.grid_lt.2 (Nat.lt_succ_self t)
  rcases lt_trichotomy t j with htj | rfl | htj
  · have := f.grid_le.2 (Nat.succ_le_of_lt htj)
    exact ⟨fun _ => .inl (by linarith), fun _ => by omega⟩
  · obtain ⟨rfl, h3⟩ | ⟨rfl, h3⟩ | ⟨rfl, h3⟩ := hk
    · exact ⟨fun h => absurd h (lt_irrefl _), fun h => by rcases h with h | h <;> linarith [h]⟩
    · exact ⟨fun _ => .inl h3, fun _ => Nat.lt_succ_self _⟩
    · exact ⟨fun h => .inr ⟨h3.symm, by omega⟩, fun h => by rcases h with h | h <;> [linarith; omega]⟩
  · have := f.grid_le.2 (Nat.succ_le_of_lt htj)
    exact ⟨fun _ => by omega, fun h => by rcases h with h | h <;> linarith [h]⟩

end Fmt.Rounded

/-! ### Bits and values (R110, R112) -/

/-- What every format has: a mantissa, and a sign bit above its magnitudes. -/
structure Fmt.Sound (f : Fmt) : Prop where
  mb : 1 ≤ f.mb
  bits : f.maxBits < 2 ^ (f.eb + f.mb)

/-- A sign as a factor. -/
def sgn (neg : Bool) : ℚ := if neg then -1 else 1

@[simp] theorem sgn_true : sgn true = -1 := rfl
@[simp] theorem sgn_false : sgn false = 1 := rfl
@[simp] theorem abs_sgn_mul (neg : Bool) (x : ℚ) : |sgn neg * x| = |x| := by cases neg <;> simp
@[simp] theorem sgn_mul_eq_zero : sgn neg * x = 0 ↔ x = 0 := by cases neg <;> simp

theorem rational_fin (neg : Bool) (m : Nat) (e : Int) : rational (.fin neg m e) = some (sgn neg * (m * 2 ^ e)) := by
  rw [rational, mul_assoc]; rfl

/-- The bits of a format below its sign bit. -/
def Fmt.mag (f : Fmt) (w : Nat) : Nat := w % 2 ^ (f.eb + f.mb)
/-- The sign bit of a format. -/
def Fmt.sign (f : Fmt) (w : Nat) : Bool := w / 2 ^ (f.eb + f.mb) % 2 == 1

/-- A finite value as bits give it: its magnitude is on the grid, with a mantissa of `mb` bits and the leading one. -/
structure Fmt.Holds (f : Fmt) (k m : Nat) (e : Int) : Prop where
  value : (m : ℚ) * 2 ^ e = f.grid k
  mantissa : m < 2 ^ (f.mb + 1)
  exponent : f.unit ≤ e
  normal : e = f.unit ∨ 2 ^ f.mb ≤ m

theorem Fmt.decode_eq (f : Fmt) (w : Nat) : f.decode w =
    if f.maxBits < f.mag w then (if f.inf = some (f.mag w) then .inf (f.sign w) else .nan)
    else if f.mag w / 2 ^ f.mb = 0 then .fin (f.sign w) (f.mag w % 2 ^ f.mb) f.unit
    else .fin (f.sign w) (2 ^ f.mb + f.mag w % 2 ^ f.mb) (((f.mag w / 2 ^ f.mb : Nat) : Int) - f.bias - f.mb) := rfl

theorem Fmt.decode_nonfinite (hw : f.maxBits < f.mag w) : f.decode w = if f.inf = some (f.mag w) then .inf (f.sign w) else .nan := by
  rw [Fmt.decode_eq, if_pos hw]

theorem Fmt.decode_finite (hw : f.mag w ≤ f.maxBits) : ∃ m e, f.decode w = .fin (f.sign w) m e ∧ f.Holds (f.mag w) m e := by
  have hp : 0 < 2 ^ f.mb := Nat.two_pow_pos _
  have hd := Nat.div_add_mod' (f.mag w) (2 ^ f.mb)
  have hlt := Nat.mod_lt (f.mag w) hp
  rw [Fmt.decode_eq, if_neg (not_lt.2 hw)]
  generalize f.mag w % 2 ^ f.mb = n at *
  have hb : 2 ^ f.mb + n < 2 ^ (f.mb + 1) := by rw [pow_succ]; omega
  split_ifs with h0
  · refine ⟨_, _, rfl, ?_, by omega, le_rfl, .inl rfl⟩
    have := Fmt.grid_binade (f := f) (g := 0) (n := n) (by omega) (.inl rfl)
    rw [← hd, h0, this, Nat.cast_zero, add_zero]
  · obtain ⟨g, hg⟩ : ∃ g, f.mag w / 2 ^ f.mb = g + 1 := Nat.exists_eq_succ_of_ne_zero h0
    have := Fmt.grid_binade (f := f) (g := g) hb.le (.inr (by omega))
    rw [hg] at hd ⊢
    refine ⟨_, _, rfl, ?_, hb, by unfold Fmt.unit; omega, .inr (by omega)⟩
    rw [← hd, Nat.succ_mul, add_assoc, this]
    congr 2
    unfold Fmt.unit
    push_cast
    ring

/-- A finite value comes from magnitude bits on the grid. -/
theorem Fmt.of_decode_fin (h : f.decode w = .fin neg m e) : f.mag w ≤ f.maxBits ∧ neg = f.sign w ∧ f.Holds (f.mag w) m e := by
  rcases Nat.lt_or_ge f.maxBits (f.mag w) with hw | hw
  · rw [Fmt.decode_nonfinite hw] at h
    split_ifs at h
  · obtain ⟨m', e', h', hh⟩ := Fmt.decode_finite hw
    rw [h] at h'
    obtain ⟨rfl, rfl, rfl⟩ := FV.fin.inj h'
    exact ⟨hw, rfl, hh⟩

theorem Fmt.of_rational_decode (h : rational (f.decode w) = some x) : f.mag w ≤ f.maxBits ∧ x = sgn (f.sign w) * f.grid (f.mag w) := by
  rcases hd : f.decode w with _ | neg | ⟨neg, m, e⟩
  · rw [hd] at h; cases h
  · rw [hd] at h; cases h
  · rw [hd, rational_fin, Option.some_inj] at h
    obtain ⟨hw, rfl, hh⟩ := Fmt.of_decode_fin hd
    exact ⟨hw, by rw [← h, hh.value]⟩

theorem Fmt.rational_decode (hw : f.mag w ≤ f.maxBits) : rational (f.decode w) = some (sgn (f.sign w) * f.grid (f.mag w)) := by
  obtain ⟨m, e, hd, hh⟩ := Fmt.decode_finite hw
  rw [hd, rational_fin, hh.value]

theorem Fmt.mag_signBit_add (neg : Bool) (hk : k < 2 ^ (f.eb + f.mb)) : f.mag (f.signBit neg + k) = k := by
  unfold Fmt.mag Fmt.signBit
  cases neg
  · simp [Nat.mod_eq_of_lt hk]
  · simp [Nat.mod_eq_of_lt hk]

theorem Fmt.sign_signBit_add (neg : Bool) (hk : k < 2 ^ (f.eb + f.mb)) : f.sign (f.signBit neg + k) = neg := by
  unfold Fmt.sign Fmt.signBit
  cases neg
  · simp [Nat.div_eq_of_lt hk]
  · simp [Nat.add_div_left _ (Nat.two_pow_pos _), Nat.div_eq_of_lt hk]

/-- What finite magnitude bits under a sign stand for. -/
theorem Fmt.rational_signBit_add (hf : f.Sound) (neg : Bool) (hk : k ≤ f.maxBits) : rational (f.decode (f.signBit neg + k)) = some (sgn neg * f.grid k) := by
  have hlt := hk.trans_lt hf.bits
  rw [Fmt.rational_decode (by rwa [Fmt.mag_signBit_add _ hlt]), Fmt.mag_signBit_add _ hlt, Fmt.sign_signBit_add _ hlt]

theorem Fmt.pack_fin_of_le (hk : f.roundMag r neg m e ≤ f.maxBits) : f.pack r (.fin neg m e) = f.signBit neg + f.roundMag r neg m e :=
  if_neg (not_lt.2 hk)

theorem Fmt.pack_fin_of_gt (hk : f.maxBits < f.roundMag r neg m e) : f.pack r (.fin neg m e) = f.overflow r neg := if_pos hk

/-- A value that the format's range holds, rounded, as a rational number. -/
theorem Fmt.rational_pack (hf : f.Sound) (hk : f.roundMag r neg m e ≤ f.maxBits) :
    rational (f.decode (f.pack r (.fin neg m e))) = some (sgn neg * f.grid (f.roundMag r neg m e)) := by
  rw [Fmt.pack_fin_of_le hk, Fmt.rational_signBit_add hf _ hk]

theorem Fmt.signBit_even (hf : f.Sound) (neg : Bool) : f.signBit neg % 2 = 0 := by
  have := hf.mb
  unfold Fmt.signBit
  split_ifs
  · rw [Nat.pow_mod]; rw [Nat.mod_self, zero_pow (by omega), Nat.zero_mod]
  · rfl

/-- The formats of R110 are sound. -/
theorem Fmt.sound_of_mem (hf : f ∈ [fmt64, fmt32, fmt16, fmtB16, fmtE4M3, fmtE5M2]) : f.Sound := by
  simp only [List.mem_cons, List.not_mem_nil, or_false] at hf
  rcases hf with rfl | rfl | rfl | rfl | rfl | rfl <;> exact ⟨by decide, by decide⟩

/-! ### Formats with the exponents of IEEE 754 (R110) -/

/-- The format's largest exponent is kept for an infinity and NaNs. -/
structure Fmt.Ieee (f : Fmt) : Prop extends f.Sound where
  eb : 2 ≤ f.eb
  top : f.maxBits + 1 = (2 ^ f.eb - 1) * 2 ^ f.mb
  inf : f.inf = some (f.maxBits + 1)

theorem Fmt.ieee_of_mem (hf : f ∈ [fmt64, fmt32, fmt16, fmtB16]) : f.Ieee := by
  simp only [List.mem_cons, List.not_mem_nil, or_false] at hf
  rcases hf with rfl | rfl | rfl | rfl <;> exact ⟨⟨by decide, by decide⟩, by decide, by decide, by decide⟩

theorem Fmt.ieee_fmtE5M2 : fmtE5M2.Ieee := ⟨⟨by decide, by decide⟩, by decide, by decide, by decide⟩

section
variable (hf : f.Ieee)
include hf

theorem Fmt.Ieee.maxBits_odd : f.maxBits % 2 = 1 := by
  have h := hf.top
  have : (2 ^ f.eb - 1) * 2 ^ f.mb % 2 = 0 := by
    have := hf.mb
    rw [Nat.mul_mod, Nat.pow_mod]; simp [show f.mb ≠ 0 by omega]
  omega

/-- The largest exponent of a finite number, counted from the smallest one. -/
theorem Fmt.Ieee.exists_top : ∃ g : Nat, f.maxBits = g * 2 ^ f.mb + (2 ^ (f.mb + 1) - 1) ∧ f.unit + g = f.bias - f.mb := by
  have ht := hf.top
  have he := hf.eb
  obtain ⟨c, hc⟩ : ∃ c, f.eb = c + 2 := ⟨f.eb - 2, by omega⟩
  have h1 := Nat.two_pow_pos c
  have hm := Nat.two_pow_pos f.mb
  have hb : f.bias = 2 * 2 ^ c - 1 := by rw [Fmt.bias, hc, show c + 2 - 1 = c + 1 by omega, pow_succ, mul_comm]
  refine ⟨4 * 2 ^ c - 3, ?_, ?_⟩
  · have : (2 ^ f.eb - 1) * 2 ^ f.mb = (4 * 2 ^ c - 3) * 2 ^ f.mb + 2 * 2 ^ f.mb := by
      rw [← add_mul, hc, pow_add]; congr 1; omega
    rw [this] at ht
    rw [pow_succ]
    omega
  · unfold Fmt.unit
    omega

theorem Fmt.Ieee.grid_maxBits : f.grid f.maxBits = (2 - 2 ^ (-(f.mb : Int))) * 2 ^ f.bias := by
  obtain ⟨g, hk, hg⟩ := hf.exists_top
  have hp := Nat.two_pow_pos f.mb
  rw [hk, Fmt.grid_binade (by omega) (.inr (by rw [pow_succ]; omega)), hg, Nat.cast_sub (Nat.one_le_two_pow), zpow_sub₀ (by norm_num), zpow_neg]
  push_cast
  rw [zpow_natCast, zpow_natCast, pow_succ]
  field_simp

theorem Fmt.Ieee.grid_inf : f.grid (f.maxBits + 1) = 2 * 2 ^ f.bias := by
  obtain ⟨g, hk, hg⟩ := hf.exists_top
  have hp := Nat.two_pow_pos f.mb
  rw [hk, add_assoc, Nat.sub_add_cancel Nat.one_le_two_pow, Fmt.grid_binade le_rfl (.inr (by rw [pow_succ]; omega)), hg, zpow_sub₀ (by norm_num)]
  push_cast
  rw [zpow_natCast, zpow_natCast, pow_succ]
  field_simp

end

end Sys2Proof.Machine
end

section
/-! PROOF of O6: rounding follows IEEE 754.

`Fmt.roundMag_rounded` says which place of the format's grid a magnitude is rounded to; what the mode then means for signed values is
a matter of the sign: a mode that rounds toward an infinity rounds magnitudes up for one sign and down for the other. -/

namespace Sys2Proof.Machine
open Sys2Proof.Safety

variable {f : Fmt} {r : Rnd} {neg : Bool} {x X y : ℚ} {i j k m n t w : Nat} {e : Int}

/-! ### Signed values -/

/-- A number of the other sign is no nearer than its opposite. -/
theorem abs_sub_sgn_mul_ge (neg s : Bool) (hX : 0 ≤ X) (hx : 0 ≤ x) : |x - X| ≤ |sgn s * x - sgn neg * X| := by
  cases neg <;> cases s <;> simp only [sgn_true, sgn_false, one_mul, neg_mul]
  · exact le_rfl
  · rw [abs_le]; constructor <;> rw [← neg_add', abs_neg, abs_of_nonneg (by linarith)] <;> linarith
  · rw [abs_le]; constructor <;> rw [sub_neg_eq_add, abs_of_nonneg (by linarith)] <;> linarith
  · rw [← neg_sub', abs_neg]

theorem abs_sgn_mul_sub (neg : Bool) (x X : ℚ) : |sgn neg * x - sgn neg * X| = |x - X| := by rw [← mul_sub, abs_sgn_mul]

theorem Fmt.Rounded.signed_nearest (h : f.Rounded .rn neg X k) (hX : 0 ≤ X) (s : Bool) (i : Nat) :
    |sgn neg * f.grid k - sgn neg * X| ≤ |sgn s * f.grid i - sgn neg * X|
    ∧ (|sgn neg * f.grid k - sgn neg * X| = |sgn s * f.grid i - sgn neg * X| → sgn s * f.grid i ≠ sgn neg * f.grid k → k % 2 = 0) := by
  obtain ⟨hle, heven⟩ := h.nearest i
  have hge := abs_sub_sgn_mul_ge neg s hX (f.grid_nonneg i)
  rw [abs_sgn_mul_sub]
  refine ⟨hle.trans hge, fun he hne => ?_⟩
  refine heven (le_antisymm hle (he ▸ hge)) fun hik => ?_
  subst hik
  have hk := f.grid_nonneg i
  have hpos : 0 < f.grid i := hk.lt_of_ne' fun h0 => hne (by simp [h0])
  have hXpos : 0 < X := hX.lt_of_ne' fun h0 => by
    rw [h0, ← f.grid_zero] at h
    rw [h.exact, f.grid_zero] at hpos
    exact lt_irrefl _ hpos
  have hs : |f.grid i - X| < f.grid i + X := abs_lt.2 ⟨by linarith, by linarith⟩
  have hopp : |sgn s * f.grid i - sgn neg * X| = f.grid i + X := by
    cases neg <;> cases s <;> simp only [sgn_true, sgn_false, one_mul, neg_mul, ne_eq, not_true_eq_false] at hne ⊢
    · rw [← neg_add', abs_neg, abs_of_pos (by linarith)]
    · rw [sub_neg_eq_add, abs_of_pos (by linarith)]
  rw [he, hopp] at hs
  exact lt_irrefl _ hs

/-- Upward: the least number of the grid that is not below. -/
theorem Fmt.Rounded.signed_up (h : f.Rounded .ru neg X k) (hX : 0 ≤ X) (s : Bool) (i : Nat) :
    sgn neg * X ≤ sgn neg * f.grid k ∧ (sgn neg * X ≤ sgn s * f.grid i → sgn neg * f.grid k ≤ sgn s * f.grid i) := by
  have hi := f.grid_nonneg i
  have hk := f.grid_nonneg k
  cases neg
  · have hup := h.up (.inl ⟨rfl, rfl⟩)
    simp only [sgn_false, one_mul]
    refine ⟨hup, fun hy => ?_⟩
    cases s
    · simp only [sgn_false, one_mul] at hy ⊢
      exact f.grid_le.2 (h.le_of_le_grid hy)
    · rw [sgn_true] at hy ⊢
      have hX0 : X ≤ f.grid 0 := by rw [f.grid_zero]; linarith
      have := f.grid_le.2 (h.le_of_le_grid hX0)
      rw [f.grid_zero] at this
      linarith
  · have hdown := h.down (.inr (.inl ⟨rfl, rfl⟩))
    rw [sgn_true]
    refine ⟨by linarith, fun hy => ?_⟩
    cases s
    · rw [sgn_false]; linarith
    · rw [sgn_true] at hy ⊢
      have := f.grid_le.2 (h.le_of_grid_le (by linarith : f.grid i ≤ X))
      linarith

theorem roundPick_opposite (neg : Bool) (k : Nat) (lo x hi : ℚ) : roundPick .rd neg k lo x hi = roundPick .ru (!neg) k lo x hi := by
  cases neg <;> rfl

theorem sgn_not (neg : Bool) (x : ℚ) : sgn (!neg) * x = -(sgn neg * x) := by cases neg <;> simp

/-- Downward is upward of the opposite. -/
theorem Fmt.Rounded.signed_down (h : f.Rounded .rd neg X k) (hX : 0 ≤ X) (s : Bool) (i : Nat) :
    sgn neg * f.grid k ≤ sgn neg * X ∧ (sgn s * f.grid i ≤ sgn neg * X → sgn s * f.grid i ≤ sgn neg * f.grid k) := by
  have h' : f.Rounded .ru (!neg) X k := by
    obtain ⟨j, h1, h2, h3⟩ := h
    exact ⟨j, h1, h2, by rw [h3, roundPick_opposite]⟩
  have := h'.signed_up hX (!s) i
  simp only [sgn_not] at this
  exact ⟨by linarith [this.1], fun hy => by linarith [this.2 (by linarith)]⟩

/-- Toward zero: the number of the grid with the largest magnitude that does not exceed. -/
theorem Fmt.Rounded.signed_zero (h : f.Rounded .rz neg X k) (hX : 0 ≤ X) (s : Bool) (i : Nat) :
    |sgn neg * f.grid k| ≤ |sgn neg * X| ∧ 0 ≤ sgn neg * f.grid k * (sgn neg * X)
    ∧ (|sgn s * f.grid i| ≤ |sgn neg * X| → |sgn s * f.grid i| ≤ |sgn neg * f.grid k|) := by
  have hk := f.grid_nonneg k
  have hsq : sgn neg * f.grid k * (sgn neg * X) = f.grid k * X := by cases neg <;> simp
  simp only [abs_sgn_mul, hsq, abs_of_nonneg hX, abs_of_nonneg (f.grid_nonneg _)]
  exact ⟨h.down (.inl rfl), mul_nonneg hk hX, fun hi => f.grid_le.2 (h.le_of_grid_le hi)⟩

/-! ### Beyond the largest finite value (R114) -/

theorem Fmt.Ieee.infinity (hf : f.Ieee) : f.inf.getD 0 = f.maxBits + 1 ∧ f.inf.getD f.nan = f.maxBits + 1 := by rw [hf.inf]; exact ⟨rfl, rfl⟩

/-- The middle between the largest finite number and the infinity's place. -/
theorem Fmt.Ieee.grid_tie (hf : f.Ieee) : f.grid f.maxBits + f.grid (f.maxBits + 1) = 2 * ((2 - 2 ^ (-(f.mb : Int) - 1)) * 2 ^ f.bias) := by
  rw [hf.grid_maxBits, hf.grid_inf, zpow_sub₀ (by norm_num)]
  ring

/-- A magnitude that is rounded beyond its format's largest, or that exceeds it and is rounded to it. -/
theorem Fmt.pack_fin_beyond (hk : f.maxBits ≤ f.roundMag r neg m e) :
    f.pack r (.fin neg m e) = if f.maxBits < f.roundMag r neg m e then f.overflow r neg else f.signBit neg + f.maxBits := by
  split_ifs with h
  · exact Fmt.pack_fin_of_gt h
  · rw [Fmt.pack_fin_of_le (not_lt.1 h), le_antisymm (not_lt.1 h) hk]

theorem Fmt.overflow_down (hr : roundsDown r neg) : f.overflow r neg = f.signBit neg + f.maxBits := by
  obtain rfl | ⟨rfl, rfl⟩ | ⟨rfl, rfl⟩ := hr <;> rfl

theorem Fmt.overflow_up (hr : roundsUp r neg) : f.overflow r neg = f.signBit neg + f.inf.getD f.nan := by
  obtain ⟨rfl, rfl⟩ | ⟨rfl, rfl⟩ := hr <;> rfl

section
variable (hf : f.Ieee) (hx : f.grid f.maxBits < m * 2 ^ e)
include hf hx

theorem Fmt.Ieee.beyond (r : Rnd) (neg : Bool) : f.maxBits ≤ f.roundMag r neg m e :=
  (Fmt.roundMag_rounded hf.mb r neg m e).le_of_grid_le hx.le

theorem Fmt.Ieee.pack_beyond_down (hr : roundsDown r neg) : f.pack r (.fin neg m e) = f.signBit neg + f.maxBits := by
  rw [Fmt.pack_fin_beyond (hf.beyond hx r neg), Fmt.overflow_down hr, ite_self]

theorem Fmt.Ieee.pack_beyond_up (hr : roundsUp r neg) : f.pack r (.fin neg m e) = f.signBit neg + f.inf.getD 0 := by
  rw [Fmt.pack_fin_of_gt (((Fmt.roundMag_rounded hf.mb r neg m e).gt_iff_of_up hr).2 hx), Fmt.overflow_up hr, hf.infinity.1, hf.infinity.2]

theorem Fmt.Ieee.pack_beyond_nearest : f.pack .rn (.fin neg m e) =
    f.signBit neg + if (2 - 2 ^ (-(f.mb : Int) - 1)) * 2 ^ f.bias ≤ (m : ℚ) * 2 ^ e then f.inf.getD 0 else f.maxBits := by
  have hiff : f.maxBits < f.roundMag .rn neg m e ↔ (2 - 2 ^ (-(f.mb : Int) - 1)) * 2 ^ f.bias ≤ (m : ℚ) * 2 ^ e := by
    rw [(Fmt.roundMag_rounded hf.mb .rn neg m e).gt_iff_of_nearest, hf.grid_tie, and_iff_left hf.maxBits_odd, le_iff_lt_or_eq]
    constructor <;> rintro (h | h) <;> [left; right; left; right] <;> linarith
  rw [Fmt.pack_fin_beyond (hf.beyond hx .rn neg)]
  simp only [hiff]
  split_ifs
  · rw [hf.infinity.1, ← hf.infinity.2]; rfl
  · rfl

end

/-- Settles O6: the exact magnitude lies between two numbers of the format's grid, and the mode takes the right one of them. -/
theorem roundingFollowsIeee : Obligations.RoundingFollowsIeee := by
  unfold Obligations.RoundingFollowsIeee
  constructor
  · intro f hf r neg m e x hx hk
    have hs := Fmt.sound_of_mem hf
    have h := Fmt.roundMag_rounded hs.mb r neg m e
    have hX : (0 : ℚ) ≤ m * 2 ^ e := by positivity
    rw [rational_fin, Option.some_inj] at hx
    subst hx
    refine ⟨_, Fmt.rational_pack hs hk, fun u y _ hy => ?_⟩
    obtain ⟨-, rfl⟩ := Fmt.of_rational_decode hy
    cases r with
    | rn =>
      obtain ⟨hle, heven⟩ := h.signed_nearest hX (f.sign u) (f.mag u)
      refine ⟨hle, fun he hne => ?_⟩
      rw [Fmt.pack_fin_of_le hk, Nat.add_mod, Fmt.signBit_even hs, heven he hne]
    | rz => exact h.signed_zero hX _ _
    | ru => exact h.signed_up hX _ _
    | rd => exact h.signed_down hX _ _
  · intro f hf r neg m e x hx
    have hi := Fmt.ieee_of_mem hf
    have hX : (0 : ℚ) ≤ m * 2 ^ e := by positivity
    rw [rational_fin, Option.some_inj] at hx
    subst hx
    simp only [abs_sgn_mul, abs_of_nonneg hX, ← hi.grid_maxBits]
    refine ⟨fun hle => (Fmt.roundMag_rounded hi.mb r neg m e).le_of_le_grid hle, fun hlt => ?_⟩
    cases r with
    | rn => rw [hi.pack_beyond_nearest hlt]; dsimp only; split_ifs <;> rfl
    | rz => exact hi.pack_beyond_down hlt (.inl rfl)
    | ru =>
      cases neg
      · exact hi.pack_beyond_up hlt (.inl ⟨rfl, rfl⟩)
      · exact hi.pack_beyond_down hlt (.inr (.inl ⟨rfl, rfl⟩))
    | rd =>
      cases neg
      · exact hi.pack_beyond_down hlt (.inr (.inr ⟨rfl, rfl⟩))
      · exact hi.pack_beyond_up hlt (.inr ⟨rfl, rfl⟩)

end Sys2Proof.Machine
end

section
/-! PROOF of O7: the special values of floating-point arithmetic.

What `Fmt.pack` answers depends on the value alone, not on the mantissa and exponent that hold it (`Fmt.roundsTo_pack`). So each row of
the table of R114 says which exact value the sum or the product is. -/

namespace Sys2Proof.Machine
open Sys2Proof.Safety

variable {f : Fmt} {r : Rnd} {neg na nb : Bool} {x y : FV} {p q : ℚ} {a b k m m' w ma mb : Nat} {e e' ea eb lo : Int}

/-! ### Values and their rounding -/

@[simp] theorem rational_nan : rational .nan = none := rfl
@[simp] theorem rational_inf (neg : Bool) : rational (.inf neg) = none := rfl
@[simp] theorem negative_fin (neg : Bool) (m : Nat) (e : Int) : negative (.fin neg m e) = neg := rfl
@[simp] theorem negative_inf (neg : Bool) : negative (.inf neg) = neg := rfl

/-- A value that is a number is finite. -/
theorem exists_of_rational (h : rational x = some p) : ∃ neg m e, x = .fin neg m e ∧ p = sgn neg * (m * 2 ^ e) := by
  rcases x with _ | neg | ⟨neg, m, e⟩
  · cases h
  · cases h
  · rw [rational_fin, Option.some_inj] at h
    exact ⟨neg, m, e, rfl, h.symm⟩

theorem magnitude_eq_zero : (m : ℚ) * 2 ^ e = 0 ↔ m = 0 := by
  rw [mul_eq_zero, or_iff_left (by positivity)]
  exact Nat.cast_eq_zero

theorem sgn_mul_neg_iff (hp : 0 < p) : sgn neg * p < 0 ↔ neg = true := by cases neg <;> simp [hp, hp.le]

theorem Fmt.roundMag_congr (hmb : 1 ≤ f.mb) (h : (m : ℚ) * 2 ^ e = m' * 2 ^ e') : f.roundMag r neg m e = f.roundMag r neg m' e' :=
  (Fmt.roundMag_rounded hmb r neg m e).unique (h ▸ Fmt.roundMag_rounded hmb r neg m' e')

/-- Equal values that are not zero have one sign and one magnitude. -/
theorem sgn_mul_inj {X Y : ℚ} (hX : 0 < X) (hY : 0 < Y) (h : sgn na * X = sgn nb * Y) : na = nb ∧ X = Y := by
  have := sgn_mul_neg_iff (neg := na) hX
  rw [h, sgn_mul_neg_iff hY] at this
  obtain rfl : na = nb := by cases na <;> cases nb <;> simp_all
  refine ⟨rfl, ?_⟩
  cases na <;> simpa using h

/-- Two ways to write one value that is not zero. -/
theorem fin_eq_of_rational (h : rational (.fin na m e) = some p) (h' : rational (.fin nb m' e') = some p) (hp : p ≠ 0) :
    na = nb ∧ (m : ℚ) * 2 ^ e = m' * 2 ^ e' := by
  rw [rational_fin, Option.some_inj] at h h'
  have pos {neg : Bool} {m : Nat} {e : Int} (h : sgn neg * ((m : ℚ) * 2 ^ e) = p) : (0 : ℚ) < m * 2 ^ e :=
    lt_of_le_of_ne (by positivity) fun h0 => hp (by rw [← h, ← h0, mul_zero])
  exact sgn_mul_inj (pos h) (pos h') (h.trans h'.symm)

/-- A value that is not zero is rounded once, whatever mantissa and exponent hold it. -/
theorem Fmt.roundsTo_pack (hmb : 1 ≤ f.mb) (h : rational x = some p) (hp : p ≠ 0) : RoundsTo f r p (f.pack r x) := by
  intro neg m e h'
  obtain ⟨na, ma, ea, rfl, -⟩ := exists_of_rational h
  obtain ⟨rfl, hv⟩ := fin_eq_of_rational h h' hp
  simp only [Fmt.pack, Fmt.roundMag_congr hmb hv]

/-- Zero keeps its sign. -/
theorem Fmt.pack_zero (f : Fmt) (r : Rnd) (neg : Bool) (e : Int) : f.pack r (.fin neg 0 e) = f.signBit neg := by
  simp [Fmt.pack, Fmt.roundMag]

/-- A zero is packed with its sign. -/
theorem Fmt.pack_of_rational_zero (f : Fmt) (r : Rnd) (h : rational x = some 0) : f.pack r x = f.signBit (negative x) := by
  obtain ⟨neg, m, e, rfl, h0⟩ := exists_of_rational h
  obtain rfl : m = 0 := magnitude_eq_zero.1 (sgn_mul_eq_zero.1 h0.symm)
  exact Fmt.pack_zero ..

theorem Fmt.Ieee.pack_inf (hf : f.Ieee) (r : Rnd) (neg : Bool) : f.pack r (.inf neg) = f.signBit neg + f.inf.getD 0 := by
  rw [hf.infinity.1, ← hf.infinity.2]; rfl

theorem Fmt.Ieee.isRounded_pack (hf : f.Ieee) (r : Rnd) (x : FV) : IsRounded f r x (f.pack r x) where
  nan h := by rw [h]; rfl
  infinite n h := by rw [h, hf.pack_inf]
  zero h := f.pack_of_rational_zero r h
  finite p h hp := Fmt.roundsTo_pack hf.mb h hp

/-! ### Sums and products (R114) -/

/-- A signed integer in units of `2 ^ lo`. -/
theorem alignTo_value (h : lo ≤ e) : (alignTo lo neg m e : ℚ) * 2 ^ lo = sgn neg * (m * 2 ^ e) := by
  have hz : (2 : ℚ) ^ (e - lo).toNat * 2 ^ lo = 2 ^ e := by
    rw [← zpow_natCast, Int.toNat_of_nonneg (by omega), ← zpow_add₀ (by norm_num), sub_add_cancel]
  cases neg <;> simp [alignTo, mul_assoc, hz]

/-- The integer that an exact sum is, in units of the smaller exponent. -/
theorem alignTo_add (p q : ℚ) (hp : rational (.fin na ma ea) = some p) (hq : rational (.fin nb mb eb) = some q) :
    ((alignTo (min ea eb) na ma ea + alignTo (min ea eb) nb mb eb : Int) : ℚ) * 2 ^ min ea eb = p + q := by
  rw [rational_fin, Option.some_inj] at hp hq
  rw [Int.cast_add, add_mul, alignTo_value (min_le_left ..), alignTo_value (min_le_right ..), hp, hq]

theorem rational_signed (t : Int) (e : Int) : rational (.fin (decide (t < 0)) t.natAbs e) = some ((t : ℚ) * 2 ^ e) := by
  rw [rational_fin, ← mul_assoc, Nat.cast_natAbs]
  congr 2
  rcases lt_or_ge t 0 with h | h
  · simp [h, abs_of_neg h]
  · simp [not_lt.2 h, abs_of_nonneg h]

/-- The exact sum of two numbers that is not zero. -/
theorem rational_add (r : Rnd) (hx : rational x = some p) (hy : rational y = some q) (hs : p + q ≠ 0) : rational (FV.add r x y) = some (p + q) := by
  obtain ⟨na, ma, ea, rfl, hp⟩ := exists_of_rational hx
  obtain ⟨nb, mb, eb, rfl, hq⟩ := exists_of_rational hy
  have ht := alignTo_add p q hx hy
  have h0 : ¬ (ma = 0 ∧ mb = 0 ∧ na = nb) := by
    rintro ⟨rfl, rfl, -⟩
    exact hs (by rw [hp, hq]; simp)
  have h1 : alignTo (min ea eb) na ma ea + alignTo (min ea eb) nb mb eb ≠ 0 := fun h => hs (by rw [← ht, h]; simp)
  rw [FV.add, if_neg h0]
  simp only [if_neg h1, rational_signed, ht]

/-- The sign of a zero sum. -/
theorem add_eq_zero_value (r : Rnd) (hx : rational x = some p) (hy : rational y = some q) (hs : p + q = 0) :
    ∃ e, FV.add r x y = .fin (if p = 0 ∧ negative x = negative y then negative x else decide (r = .rd)) 0 e := by
  obtain ⟨na, ma, ea, rfl, hp⟩ := exists_of_rational hx
  obtain ⟨nb, mb, eb, rfl, hq⟩ := exists_of_rational hy
  have hp0 : p = 0 ↔ ma = 0 := by rw [hp, sgn_mul_eq_zero, magnitude_eq_zero]
  have hq0 : q = 0 ↔ mb = 0 := by rw [hq, sgn_mul_eq_zero, magnitude_eq_zero]
  have h0 : (ma = 0 ∧ mb = 0 ∧ na = nb) ↔ p = 0 ∧ na = nb := by
    rw [← hp0, ← hq0]
    constructor
    · rintro ⟨h, -, h'⟩; exact ⟨h, h'⟩
    · rintro ⟨h, h'⟩; exact ⟨h, by linarith, h'⟩
  have h1 : alignTo (min ea eb) na ma ea + alignTo (min ea eb) nb mb eb = 0 := by
    have := alignTo_add p q hx hy
    rw [hs, mul_eq_zero, or_iff_left (by positivity)] at this
    exact_mod_cast this
  rw [FV.add]
  simp only [h0, h1, if_true, negative_fin]
  refine ⟨0, ?_⟩
  split_ifs with h <;> simp [h]

theorem Fmt.Ieee.isSum_pack (hf : f.Ieee) (r : Rnd) (x y : FV) : IsSum f r x y (f.pack r (FV.add r x y)) where
  nan h := by
    rcases h with rfl | rfl
    · rfl
    · cases x <;> rfl
  both n p hx hy := by
    subst hx hy
    rw [FV.add]
    split_ifs
    · exact hf.pack_inf ..
    · rfl
  left n k hx hy := by
    obtain ⟨nb, mb, eb, rfl, -⟩ := exists_of_rational hy
    subst hx
    exact hf.pack_inf ..
  right n k hy hx := by
    obtain ⟨na, ma, ea, rfl, -⟩ := exists_of_rational hx
    subst hy
    exact hf.pack_inf ..
  zero p q hx hy hs := by
    obtain ⟨e, h⟩ := add_eq_zero_value r hx hy hs
    rw [h, Fmt.pack_zero]
  finite p q hx hy hs := Fmt.roundsTo_pack hf.mb (rational_add r hx hy hs) hs

theorem rational_fin_eq_zero : rational (.fin neg m e) = some 0 ↔ m = 0 := by
  rw [rational_fin, Option.some_inj, sgn_mul_eq_zero, magnitude_eq_zero]

theorem isProduct_mul (x y : FV) : IsProduct x y (FV.mul x y) where
  nan h := by
    rcases h with rfl | rfl
    · rfl
    · cases x <;> rfl
  invalid h := by
    rcases h with ⟨n, rfl, h⟩ | ⟨n, rfl, h⟩ <;> obtain ⟨neg, m, e, rfl, -⟩ := exists_of_rational h
    · exact if_pos (rational_fin_eq_zero.1 h)
    · exact if_pos (rational_fin_eq_zero.1 h)
  infinite n h := by
    rcases h with ⟨rfl, hn, h⟩ | ⟨rfl, hn, h⟩
    · rcases y with _ | s | ⟨s, m, e⟩
      · exact absurd rfl hn
      · rfl
      · exact if_neg (mt rational_fin_eq_zero.2 h)
    · rcases x with _ | s | ⟨s, m, e⟩
      · exact absurd rfl hn
      · rfl
      · exact if_neg (mt rational_fin_eq_zero.2 h)
  finite p q hx hy := by
    obtain ⟨na, ma, ea, rfl, rfl⟩ := exists_of_rational hx
    obtain ⟨nb, mb, eb, rfl, rfl⟩ := exists_of_rational hy
    refine ⟨?_, rfl⟩
    rw [FV.mul, rational_fin, zpow_add₀ (by norm_num)]
    congr 1
    cases na <;> cases nb <;> push_cast <;> simp only [sgn_true, sgn_false, bne_self_eq_false, Bool.true_bne, Bool.false_bne, Bool.not_false] <;> ring

/-! ### Order (R96, R115) -/

@[simp] theorem isNan_fin (neg : Bool) (m : Nat) (e : Int) : (FV.fin neg m e).isNan = false := rfl
@[simp] theorem isNan_inf (neg : Bool) : (FV.inf neg).isNan = false := rfl
@[simp] theorem isNan_nan : FV.nan.isNan = true := rfl

theorem isNan_iff : x.isNan = true ↔ x = .nan := by cases x <;> simp

theorem isNan_of_rational (h : rational x = some p) : x.isNan = false := by
  obtain ⟨neg, m, e, rfl, -⟩ := exists_of_rational h
  rfl

/-- Numbers are compared as they are (R96). -/
theorem cmp_of_rational (hx : rational x = some p) (hy : rational y = some q) : x.cmp y = compare p q := by
  obtain ⟨na, ma, ea, rfl, hp⟩ := exists_of_rational hx
  obtain ⟨nb, mb, eb, rfl, hq⟩ := exists_of_rational hy
  have hu : (0 : ℚ) < 2 ^ min ea eb := by positivity
  rw [FV.cmp]
  rw [← alignTo_value (min_le_left ea eb)] at hp
  rw [← alignTo_value (min_le_right ea eb)] at hq
  rw [hp, hq]
  rcases lt_trichotomy (alignTo (min ea eb) na ma ea) (alignTo (min ea eb) nb mb eb) with h | h | h
  · rw [compare_lt_iff_lt.2 h, compare_lt_iff_lt.2 ((mul_lt_mul_iff_left₀ hu).2 (Int.cast_lt.2 h))]
  · rw [compare_eq_iff_eq.2 h, compare_eq_iff_eq.2 (by rw [h])]
  · rw [compare_gt_iff_gt.2 h, compare_gt_iff_gt.2 ((mul_lt_mul_iff_left₀ hu).2 (Int.cast_lt.2 h))]

section
variable (lo : Bool)

theorem fpPick_nan_nan (hx : f.decode a = .nan) (hy : f.decode b = .nan) : fpPick f lo a b = f.nan := by simp [fpPick, hx, hy]
theorem fpPick_nan_left (hx : f.decode a = .nan) (hy : f.decode b ≠ .nan) : fpPick f lo a b = b := by simp [fpPick, hx, isNan_iff, hy]
theorem fpPick_nan_right (hx : f.decode a ≠ .nan) (hy : f.decode b = .nan) : fpPick f lo a b = a := by simp [fpPick, hy, isNan_iff, hx]

/-- Of two operands that are no NaN, the order decides, and else the sign of the first (R115). -/
theorem fpPick_numbers (hx : f.decode a ≠ .nan) (hy : f.decode b ≠ .nan) : fpPick f lo a b =
    match (f.decode a).cmp (f.decode b) with
    | .lt => if lo then a else b
    | .gt => if lo then b else a
    | .eq => if f.sign a == lo then a else b := by
  have hx : (f.decode a).isNan = false := by rwa [Bool.eq_false_iff, ne_eq, isNan_iff]
  have hy : (f.decode b).isNan = false := by rwa [Bool.eq_false_iff, ne_eq, isNan_iff]
  simp only [fpPick, hx, hy, Bool.false_and, Bool.false_eq_true, if_false, Fmt.sign] <;> rfl

theorem fpPick_of_lt (hx : f.decode a ≠ .nan) (hy : f.decode b ≠ .nan) (h : (f.decode a).cmp (f.decode b) = .lt) : fpPick f lo a b = if lo then a else b := by
  rw [fpPick_numbers lo hx hy, h]

theorem fpPick_of_gt (hx : f.decode a ≠ .nan) (hy : f.decode b ≠ .nan) (h : (f.decode a).cmp (f.decode b) = .gt) : fpPick f lo a b = if lo then b else a := by
  rw [fpPick_numbers lo hx hy, h]

theorem fpPick_of_eq (hx : f.decode a ≠ .nan) (hy : f.decode b ≠ .nan) (h : (f.decode a).cmp (f.decode b) = .eq) :
    fpPick f lo a b = if f.sign a == lo then a else b := by
  rw [fpPick_numbers lo hx hy, h]

end

theorem ne_nan_of_rational (h : rational x = some p) : x ≠ .nan := by rintro rfl; cases h

/-- The bits of an infinity are its sign and the place above the largest finite value. -/
theorem Fmt.Ieee.of_decode_inf (hf : f.Ieee) (h : f.decode w = .inf neg) : f.mag w = f.maxBits + 1 ∧ f.sign w = neg := by
  rcases Nat.lt_or_ge f.maxBits (f.mag w) with hw | hw
  · rw [Fmt.decode_nonfinite hw, hf.inf] at h
    split_ifs at h with h'
    exact ⟨(Option.some.inj h').symm, FV.inf.inj h⟩
  · obtain ⟨m, e, h', -⟩ := Fmt.decode_finite hw
    rw [h] at h'
    cases h'

/-- Bits of a format are a sign and a magnitude. -/
theorem Fmt.eq_signBit_add (hw : w < 2 ^ f.width) : w = f.signBit (f.sign w) + f.mag w := by
  have h := Nat.div_add_mod' w (2 ^ (f.eb + f.mb))
  have hlt : w / 2 ^ (f.eb + f.mb) < 2 := Nat.div_lt_of_lt_mul (by rwa [← pow_succ, show f.eb + f.mb + 1 = f.width by unfold Fmt.width; omega])
  unfold Fmt.signBit Fmt.sign Fmt.mag
  obtain h0 | h1 := Nat.le_one_iff_eq_zero_or_eq_one.1 (Nat.le_of_lt_succ hlt)
  · rw [h0] at h ⊢; simpa using h.symm
  · rw [h1] at h ⊢; simpa using h.symm

/-- Two operands that are one infinity are the same bits. -/
theorem Fmt.Ieee.eq_of_decode_inf (hf : f.Ieee) (ha : a < 2 ^ f.width) (hb : b < 2 ^ f.width) (hx : f.decode a = .inf neg) (hy : f.decode b = .inf neg) : a = b := by
  obtain ⟨ma, sa⟩ := hf.of_decode_inf hx
  obtain ⟨mb, sb⟩ := hf.of_decode_inf hy
  rw [Fmt.eq_signBit_add ha, Fmt.eq_signBit_add hb, ma, mb, sa, sb]

/-- An infinite first operand is the smaller one where it is negative, and else the larger one. -/
theorem Fmt.Ieee.fpPick_inf_left (hf : f.Ieee) (ha : a < 2 ^ f.width) (hb : b < 2 ^ f.width) (hx : f.decode a = .inf neg) (hy : f.decode b ≠ .nan) (lo : Bool) :
    fpPick f lo a b = if neg = lo then a else b := by
  have hxn : f.decode a ≠ .nan := by rw [hx]; simp
  by_cases hs : f.decode b = .inf neg
  · obtain rfl := hf.eq_of_decode_inf ha hb hx hs
    rw [fpPick_of_eq lo hxn hxn (by rw [hx]; simp [FV.cmp]), ite_self, ite_self]
  · have hc : (f.decode a).cmp (f.decode b) = if neg then .lt else .gt := by
      rw [hx]
      cases hd : f.decode b with
      | nan => exact absurd hd hy
      | inf n => rw [hd, FV.inf.injEq] at hs; exact if_neg (Ne.symm hs)
      | fin n m e => rfl
    cases neg
    · rw [fpPick_of_gt lo hxn hy hc]; cases lo <;> rfl
    · rw [fpPick_of_lt lo hxn hy hc]; cases lo <;> rfl

theorem Fmt.Ieee.fpPick_inf_right (hf : f.Ieee) (ha : a < 2 ^ f.width) (hb : b < 2 ^ f.width) (hx : f.decode b = .inf neg) (hy : f.decode a ≠ .nan) (lo : Bool) :
    fpPick f lo a b = if neg = lo then b else a := by
  have hxn : f.decode b ≠ .nan := by rw [hx]; simp
  by_cases hs : f.decode a = .inf neg
  · obtain rfl := hf.eq_of_decode_inf hb ha hx hs
    rw [fpPick_of_eq lo hxn hxn (by rw [hx]; simp [FV.cmp]), ite_self, ite_self]
  · have hc : (f.decode a).cmp (f.decode b) = if neg then .gt else .lt := by
      rw [hx]
      cases hd : f.decode a with
      | nan => exact absurd hd hy
      | inf n =>
        rw [hd, FV.inf.injEq] at hs
        simp only [FV.cmp, if_neg hs]
        cases n <;> cases neg <;> simp_all
      | fin n m e => rfl
    cases neg
    · rw [fpPick_of_lt lo hy hxn hc]; cases lo <;> rfl
    · rw [fpPick_of_gt lo hy hxn hc]; cases lo <;> rfl

/-- The bits of +0 and of -0. -/
theorem Fmt.Sound.rational_zeros (hf : f.Sound) (neg : Bool) : rational (f.decode (f.signBit neg)) = some 0 ∧ f.sign (f.signBit neg) = neg := by
  have h := Fmt.rational_signBit_add hf neg (Nat.zero_le f.maxBits)
  rw [f.grid_zero, mul_zero] at h
  exact ⟨h, Fmt.sign_signBit_add neg (Nat.two_pow_pos _)⟩

/-- Of two zeros the one with the sign that is looked for, or else the second. -/
theorem Fmt.Sound.fpPick_zeros (hf : f.Sound) (lo sa sb : Bool) : fpPick f lo (f.signBit sa) (f.signBit sb) = if sa == lo then f.signBit sa else f.signBit sb := by
  obtain ⟨ha, hsa⟩ := hf.rational_zeros sa
  obtain ⟨hb, -⟩ := hf.rational_zeros sb
  rw [fpPick_of_eq lo (ne_nan_of_rational ha) (ne_nan_of_rational hb) (by rw [cmp_of_rational ha hb]; rfl), hsa]

/-! ### Signs (R116) -/

theorem fpAbs_nan (h : f.decode a = .nan) : fpAbs f a = f.nan := by simp [fpAbs, h]
theorem fpNeg_nan (h : f.decode a = .nan) : fpNeg f a = f.nan := by simp [fpNeg, h]

theorem fpAbs_number (h : f.decode a ≠ .nan) : fpAbs f a = a % 2 ^ (f.eb + f.mb) := by simp [fpAbs, isNan_iff, h]

/-- FNEG inverts the sign bit. -/
theorem fpNeg_number (ha : a < 2 ^ f.width) (h : f.decode a ≠ .nan) : fpNeg f a = a ^^^ 2 ^ (f.eb + f.mb) := by
  have hlt : a / 2 ^ (f.eb + f.mb) < 2 := Nat.div_lt_of_lt_mul (by rwa [← pow_succ, show f.eb + f.mb + 1 = f.width by unfold Fmt.width; omega])
  have hx := Nat.div_add_mod' (a ^^^ 2 ^ (f.eb + f.mb)) (2 ^ (f.eb + f.mb))
  have hd := Nat.div_add_mod' a (2 ^ (f.eb + f.mb))
  rw [Nat.xor_mod_two_pow, Nat.mod_self, Nat.xor_zero, Nat.xor_div_two_pow, Nat.div_self (Nat.two_pow_pos _)] at hx
  simp only [fpNeg, isNan_iff, h, if_false]
  obtain h0 | h1 := Nat.le_one_iff_eq_zero_or_eq_one.1 (Nat.le_of_lt_succ hlt)
  · rw [h0] at hx hd ⊢
    rw [← hx]
    simp at hd ⊢
    omega
  · rw [h1] at hx ⊢
    rw [← hx]
    simp

/-- Settles O7: sums and products by the table of R114, of which each row says what the exact value is, and then the choice and the signs
of R115 and R116. -/
theorem floatSpecialValues : Obligations.FloatSpecialValues := by
  unfold Obligations.FloatSpecialValues
  refine ⟨fun f hf r a b c => ?_, fun f hf a b ha hb => ?_⟩
  · have hi := Fmt.ieee_of_mem hf
    refine ⟨hi.isSum_pack .., ?_, ⟨_, isProduct_mul _ _, hi.isRounded_pack ..⟩, _, isProduct_mul _ _, hi.isSum_pack ..⟩
    refine (congrArg (fun z => IsSum f r (f.decode a) z (fpSub f r a b)) ?_).mp (hi.isSum_pack r (f.decode a) (f.decode b).neg)
    cases f.decode b <;> rfl
  · have hi := Fmt.ieee_of_mem hf
    have hw : f.width - 1 = f.eb + f.mb := by unfold Fmt.width; omega
    dsimp only
    rw [hw]
    refine ⟨fun hx hy => ⟨fpPick_nan_nan _ hx hy, fpPick_nan_nan _ hx hy⟩, fun hx hy => ⟨fpPick_nan_left _ hx hy, fpPick_nan_left _ hx hy⟩,
      fun hx hy => ⟨fpPick_nan_right _ hx hy, fpPick_nan_right _ hx hy⟩, fun n hx hy => ?left, fun n hy hx => ?right, fun p q hp hq => ?finite, ?zeros,
      fun h => ⟨fpAbs_nan h, fpNeg_nan h⟩, fun h => ⟨fpAbs_number h, fpNeg_number ha h⟩⟩
    case left =>
      rw [hi.fpPick_inf_left ha hb hx hy, hi.fpPick_inf_left ha hb hx hy]
      cases n <;> exact ⟨rfl, rfl⟩
    case right =>
      rw [hi.fpPick_inf_right ha hb hy hx, hi.fpPick_inf_right ha hb hy hx]
      cases n <;> exact ⟨rfl, rfl⟩
    case finite =>
      have hc := cmp_of_rational hp hq
      have hx := ne_nan_of_rational hp
      have hy := ne_nan_of_rational hq
      refine ⟨fun hlt => ?_, fun hgt => ?_⟩
      · rw [compare_lt_iff_lt.2 hlt] at hc
        exact ⟨fpPick_of_lt true hx hy hc, fpPick_of_lt false hx hy hc⟩
      · rw [compare_gt_iff_gt.2 hgt] at hc
        exact ⟨fpPick_of_gt true hx hy hc, fpPick_of_gt false hx hy hc⟩
    case zeros =>
      rintro rfl rfl
      have h (lo sa sb : Bool) := hi.toSound.fpPick_zeros lo sa sb
      exact ⟨h true true false, h true false true, h false true false, h false false true⟩

end Sys2Proof.Machine
end

section
/-! PROOF of O9: the values of CVT.

The source is a value (`cvtSource`), and the destination decides what becomes of it: it is packed, packed within the range of an 8-bit
format, or rounded to an integer. A value whose mantissa and exponents the destination has is on its grid, so that packing is exact. -/

namespace Sys2Proof.Machine
open Sys2Proof.Safety

variable {f g : Fmt} {r : Rnd} {neg sat signed : Bool} {src dst : CvtTy} {x : FV} {p q X : ℚ} {a b k m n w : Nat} {e : Int} {u v : Int}

/-! ### The source (R118) -/

/-- The value that CVT converts. -/
def cvtSource (src : CvtTy) (a : Nat) : FV :=
  match src with
  | .i32 => let v := if a % 2 ^ 32 < 2 ^ 31 then ((a % 2 ^ 32 : Nat) : Int) else ((a % 2 ^ 32 : Nat) : Int) - 2 ^ 32
            .fin (decide (v < 0)) v.natAbs 0
  | .b32 => .fin false (a % 2 ^ 32) 0
  | .f32 => fmt32.decode a
  | .f64 => fmt64.decode a
  | .f16 => fmt16.decode (a % 65536)
  | .bf16 => fmtB16.decode (a % 65536)
  | .e4m3 => fmtE4M3.decode (a % 256)
  | .e5m2 => fmtE5M2.decode (a % 256)

/-- Bits above a format's sign are not read. -/
theorem Fmt.decode_mod (h : f.width ≤ n) (a : Nat) : f.decode (a % 2 ^ n) = f.decode a := by
  unfold Fmt.width at h
  have hm : f.mag (a % 2 ^ n) = f.mag a := Nat.mod_mod_of_dvd _ (Nat.pow_dvd_pow 2 (by omega))
  have hs : f.sign (a % 2 ^ n) = f.sign a := by
    have bit (w : Nat) : f.sign w = w.testBit (f.eb + f.mb) := (Nat.testBit_eq_decide_div_mod_eq.trans (by rfl)).symm
    rw [bit, bit, Nat.testBit_mod_two_pow, decide_eq_true (by omega), Bool.true_and]
  rw [Fmt.decode_eq, Fmt.decode_eq, hm, hs]

theorem cvtSource_float (hf : cvtFmt src = some f) (a : Nat) : cvtSource src a = f.decode a := by
  cases src <;> simp only [cvtFmt, Option.some_inj, reduceCtorEq] at hf <;> subst hf
  case f32 => rfl
  case f64 => rfl
  case f16 => exact Fmt.decode_mod (n := 16) (by decide) a
  case bf16 => exact Fmt.decode_mod (n := 16) (by decide) a
  case e4m3 => exact Fmt.decode_mod (n := 8) (by decide) a
  case e5m2 => exact Fmt.decode_mod (n := 8) (by decide) a

/-- The number that the bits of an integer type are. -/
def cvtInt (src : CvtTy) (a : Word) : Int := if src = .i32 then a.toInt else a.toNat

theorem cvtSource_int (hs : src ∈ [CvtTy.i32, .b32]) (a : Word) :
    cvtSource src a.toNat = .fin (decide (cvtInt src a < 0)) (cvtInt src a).natAbs 0 := by
  have hlt := a.isLt
  simp only [List.mem_cons, List.not_mem_nil, or_false] at hs
  rcases hs with rfl | rfl
  · have : (if a.toNat % 2 ^ 32 < 2 ^ 31 then ((a.toNat % 2 ^ 32 : Nat) : Int) else ((a.toNat % 2 ^ 32 : Nat) : Int) - 2 ^ 32) = a.toInt := by
      rw [BitVec.toInt_eq_toNat_cond, Nat.mod_eq_of_lt hlt]
      split_ifs <;> omega
    simp only [cvtSource, this, cvtInt, if_true]
  · simp [cvtSource, cvtInt, Nat.mod_eq_of_lt hlt]

theorem rational_cvtSource_int (hs : src ∈ [CvtTy.i32, .b32]) (a : Word) : rational (cvtSource src a.toNat) = some (cvtInt src a : ℚ) := by
  rw [cvtSource_int hs, rational_signed, zpow_zero, mul_one]

/-! ### The destination (R118) -/

theorem cvtValue_wide (hg : cvtFmt dst = some g) (h4 : dst ≠ .e4m3) (h5 : dst ≠ .e5m2) (src : CvtTy) (sat : Bool) (r : Rnd) (a : Nat) :
    cvtValue src dst sat r a = g.pack r (cvtSource src a) := by
  cases dst <;> simp only [cvtFmt, Option.some_inj, reduceCtorEq, ne_eq, not_true_eq_false] at hg h4 h5 <;> subst hg <;> rfl

theorem cvtValue_e4m3 (src : CvtTy) (sat : Bool) (r : Rnd) (a : Nat) : cvtValue src .e4m3 sat r a = cvtTo8 fmtE4M3 sat (cvtSource src a) := rfl
theorem cvtValue_e5m2 (src : CvtTy) (sat : Bool) (r : Rnd) (a : Nat) : cvtValue src .e5m2 sat r a = cvtTo8 fmtE5M2 sat (cvtSource src a) := rfl

theorem ieee_of_cvtFmt (hg : cvtFmt dst = some g) (h4 : dst ≠ .e4m3) : g.Ieee := by
  cases dst <;> simp only [cvtFmt, Option.some_inj, reduceCtorEq, ne_eq, not_true_eq_false] at hg h4 <;> subst hg
  case e5m2 => exact Fmt.ieee_fmtE5M2
  all_goals exact Fmt.ieee_of_mem (by decide)

/-! ### Exact conversions (R119) -/

/-- A magnitude whose mantissa and exponent a format has is on its grid. -/
theorem Fmt.exists_grid (hm : m < 2 ^ (f.mb + 1)) (he : f.unit ≤ e) : ∃ k, f.grid k = m * 2 ^ e := by
  by_cases h0 : m = 0
  · exact ⟨0, by rw [h0, f.grid_zero]; simp⟩
  have hl : Nat.log2 m ≤ f.mb := Nat.lt_succ_iff.1 ((Nat.log2_lt h0).2 hm)
  obtain ⟨c, hc⟩ : ∃ c : Nat, f.unit + c = max ((Nat.log2 m : Int) + e - f.mb) f.unit :=
    ⟨(max ((Nat.log2 m : Int) + e - f.mb) f.unit - f.unit).toNat, by omega⟩
  obtain ⟨d, hd⟩ : ∃ d : Nat, e = f.unit + c + d := ⟨(e - (f.unit + c)).toNat, by omega⟩
  refine ⟨c * 2 ^ f.mb + m * 2 ^ d, ?_⟩
  rw [Fmt.grid_binade, hd, zpow_add₀ (by norm_num) _ (d : Int)]
  · push_cast; rw [zpow_natCast]; ring
  · have : m * 2 ^ d < 2 ^ (Nat.log2 m + 1) * 2 ^ d := Nat.mul_lt_mul_of_pos_right Nat.lt_log2_self (Nat.two_pow_pos d)
    rw [← pow_add] at this
    exact (this.trans_le (Nat.pow_le_pow_right (by norm_num) (by omega))).le
  · refine or_iff_not_imp_left.2 fun hc0 => ?_
    have : 2 ^ Nat.log2 m * 2 ^ d ≤ m * 2 ^ d := Nat.mul_le_mul_right _ (Nat.log2_self_le h0)
    rw [← pow_add] at this
    exact (Nat.pow_le_pow_right (by norm_num) (by omega)).trans this

/-- A value on the grid of a format and within its range is packed as it is. -/
theorem Fmt.rational_pack_exact (hf : f.Sound) (hg : f.grid k = m * 2 ^ e) (hk : k ≤ f.maxBits) (r : Rnd) (neg : Bool) :
    rational (f.decode (f.pack r (.fin neg m e))) = rational (.fin neg m e) := by
  have h := Fmt.roundMag_rounded hf.mb r neg m e
  rw [← hg] at h
  have hk' := h.exact
  rw [Fmt.rational_pack hf (hk' ▸ hk), hk', rational_fin, hg]

/-- Every value of format `f` is one of format `g`. -/
structure Fmt.Fits (f g : Fmt) : Prop where
  mb : f.mb ≤ g.mb
  unit : g.unit ≤ f.unit
  top : f.grid f.maxBits ≤ g.grid g.maxBits

theorem Fmt.Fits.refl (f : Fmt) : f.Fits f := ⟨le_rfl, le_rfl, le_rfl⟩

theorem Fmt.Fits.pack_decode (h : f.Fits g) (hg : g.Sound) (hp : rational (f.decode a) = some p) (r : Rnd) :
    rational (g.decode (g.pack r (f.decode a))) = some p := by
  obtain ⟨neg, m, e, hd, -⟩ := exists_of_rational hp
  obtain ⟨hw, -, hh⟩ := Fmt.of_decode_fin hd
  obtain ⟨k, hk⟩ := Fmt.exists_grid (f := g) (hh.mantissa.trans_le (Nat.pow_le_pow_right (by norm_num) (Nat.succ_le_succ h.mb))) (h.unit.trans hh.exponent)
  have hle : g.grid k ≤ g.grid g.maxBits := by
    rw [hk, hh.value]
    exact (f.grid_le.2 hw).trans h.top
  rw [← hp, hd]
  exact Fmt.rational_pack_exact hg hk (g.grid_le.1 hle) r neg

theorem Fmt.Ieee.fits (hf : f.Ieee) (hg : g.Ieee) (hm : f.mb ≤ g.mb) (hu : g.unit ≤ f.unit) (hb : f.bias ≤ g.bias) : f.Fits g := by
  refine ⟨hm, hu, ?_⟩
  rw [hf.grid_maxBits, hg.grid_maxBits]
  have h1 : (2 : ℚ) ^ (-(g.mb : Int)) ≤ 2 ^ (-(f.mb : Int)) := zpow_le_zpow_right₀ (by norm_num) (by omega)
  have h2 : (2 : ℚ) ^ f.bias ≤ 2 ^ g.bias := pow_le_pow_right₀ (by norm_num) hb
  have h3 : (2 : ℚ) ^ (-(f.mb : Int)) ≤ 1 := zpow_le_one_of_nonpos₀ (by norm_num) (by omega)
  exact mul_le_mul (by linarith) h2 (by positivity) (by linarith)

theorem fmtE4M3_grid : fmtE4M3.grid 0x7E = 448 ∧ fmtE4M3.grid 0x7F = 480 := by
  constructor <;> norm_num [Fmt.grid, Fmt.steps, Fmt.unit, Fmt.bias, fmtE4M3]

theorem fmtE5M2_grid : fmtE5M2.grid 0x7B = 57344 ∧ fmtE5M2.grid 0x7C = 65536 := by
  constructor <;> norm_num [Fmt.grid, Fmt.steps, Fmt.unit, Fmt.bias, fmtE5M2]

theorem fmtE4M3_fits (hg : g.Ieee) (hm : 3 ≤ g.mb) (hu : g.unit ≤ fmtE4M3.unit) (hb : 15 ≤ g.bias) : fmtE4M3.Fits g := by
  refine ⟨hm, hu, ?_⟩
  rw [hg.grid_maxBits, show fmtE4M3.maxBits = 0x7E from rfl, fmtE4M3_grid.1]
  have h1 : (2 : ℚ) ^ (-(g.mb : Int)) ≤ 1 := zpow_le_one_of_nonpos₀ (by norm_num) (by omega)
  have h2 : (2 : ℚ) ^ 15 ≤ 2 ^ g.bias := pow_le_pow_right₀ (by norm_num) hb
  calc (448 : ℚ) ≤ 1 * 2 ^ 15 := by norm_num
    _ ≤ _ := mul_le_mul (by linarith) h2 (by positivity) (by linarith)

/-- The destinations that hold all values of the source's format (R119). -/
theorem fits_of_cvtFmt (hf : cvtFmt src = some f) (hg : cvtFmt dst = some g) (h4 : dst ≠ .e4m3) (h5 : dst ≠ .e5m2)
    (h : dst = .f64 ∨ dst = .f32 ∧ src ≠ .f64 ∨ src = .e4m3 ∨ src = .e5m2 ∨ src = dst) : f.Fits g := by
  by_cases hsd : src = dst
  · subst hsd
    obtain rfl := Option.some.inj (hf.symm.trans hg)
    exact Fmt.Fits.refl f
  have hi := ieee_of_cvtFmt hg h4
  by_cases hs : src = .e4m3
  · subst hs
    obtain rfl := Option.some.inj hf
    cases dst <;> simp only [cvtFmt, Option.some_inj, reduceCtorEq, ne_eq, not_true_eq_false] at hg h4 h5 <;> subst hg <;>
      exact fmtE4M3_fits hi (by decide) (by decide) (by decide)
  · have hj := ieee_of_cvtFmt hf hs
    cases src <;> cases dst <;> simp [cvtFmt] at hf hg h hs hsd h4 h5 <;> subst hf hg <;> exact hj.fits hi (by decide) (by decide) (by decide)

/-! ### The 8-bit formats (R120) -/

/-- Within its range, a value is packed, whatever .sat says. -/
theorem cvtTo8_within (h : f.roundMag .rn neg m e ≤ f.maxBits) (sat : Bool) : cvtTo8 f sat (.fin neg m e) = f.pack .rn (.fin neg m e) := by
  rw [Fmt.pack_fin_of_le h]
  exact if_neg (not_lt.2 h)

/-- Beyond its range, a value is treated as an infinity. -/
theorem cvtTo8_beyond (h : f.maxBits < f.roundMag .rn neg m e) (sat : Bool) : cvtTo8 f sat (.fin neg m e) = cvtTo8 f sat (.inf neg) := if_pos h

theorem cvtTo8_e4m3_inf (sat neg : Bool) : cvtTo8 fmtE4M3 sat (.inf neg) = if sat then (if neg then 0xFE else 0x7E) else 0x7F := by
  cases sat <;> cases neg <;> rfl

theorem cvtTo8_e5m2_inf (sat neg : Bool) : cvtTo8 fmtE5M2 sat (.inf neg) = (if neg then 0x80 else 0) + if sat then 0x7B else 0x7C := by
  cases sat <;> cases neg <;> rfl

theorem sound_fmtE4M3 : fmtE4M3.Sound := Fmt.sound_of_mem (by decide)

/-- 464 is the tie below which E4M3 rounds to 448, its largest value, which is even. -/
theorem fmtE4M3_overflows : fmtE4M3.maxBits < fmtE4M3.roundMag .rn neg m e ↔ 464 < (m : ℚ) * 2 ^ e := by
  rw [(Fmt.roundMag_rounded sound_fmtE4M3.mb .rn neg m e).gt_iff_of_nearest, show fmtE4M3.maxBits = 0x7E from rfl, fmtE4M3_grid.1, fmtE4M3_grid.2]
  constructor
  · rintro (h | ⟨-, h⟩)
    · linarith
    · exact absurd h (by decide)
  · intro h
    left; linarith

/-- 61,440 is the tie from which E5M2 rounds past 57,344, its largest value, which is odd. -/
theorem fmtE5M2_overflows : fmtE5M2.maxBits < fmtE5M2.roundMag .rn neg m e ↔ 61440 ≤ (m : ℚ) * 2 ^ e := by
  rw [(Fmt.roundMag_rounded Fmt.ieee_fmtE5M2.mb .rn neg m e).gt_iff_of_nearest, show fmtE5M2.maxBits = 0x7B from rfl, fmtE5M2_grid.1, fmtE5M2_grid.2,
    and_iff_left (by decide), le_iff_lt_or_eq]
  constructor <;> rintro (h | h) <;> [left; right; left; right] <;> linarith

theorem abs_of_rational_fin (h : rational (.fin neg m e) = some p) : |p| = m * 2 ^ e := by
  rw [rational_fin, Option.some_inj] at h
  rw [← h, abs_sgn_mul, abs_of_nonneg (by positivity)]

/-- Beyond 464, and from infinities, E4M3 gives its NaN, or the largest value of the sign with .sat. -/
theorem cvtTo8_e4m3_beyond (h : (∃ n, x = .inf n) ∨ ∃ p, rational x = some p ∧ 464 < |p|) (sat : Bool) :
    cvtTo8 fmtE4M3 sat x = if sat then (if negative x then 0xFE else 0x7E) else 0x7F := by
  obtain ⟨n, rfl⟩ | ⟨p, hp, hlt⟩ := h
  · exact cvtTo8_e4m3_inf ..
  · obtain ⟨neg, m, e, rfl, -⟩ := exists_of_rational hp
    rw [abs_of_rational_fin hp] at hlt
    rw [cvtTo8_beyond (fmtE4M3_overflows.2 hlt), cvtTo8_e4m3_inf, negative_fin]

/-- From 61,440 on, and from infinities, E5M2 gives the infinity of the sign, or the largest value with .sat. -/
theorem cvtTo8_e5m2_beyond (h : (∃ n, x = .inf n) ∨ ∃ p, rational x = some p ∧ 61440 ≤ |p|) (sat : Bool) :
    cvtTo8 fmtE5M2 sat x = (if negative x then 0x80 else 0) + if sat then 0x7B else 0x7C := by
  obtain ⟨n, rfl⟩ | ⟨p, hp, hle⟩ := h
  · exact cvtTo8_e5m2_inf ..
  · obtain ⟨neg, m, e, rfl, -⟩ := exists_of_rational hp
    rw [abs_of_rational_fin hp] at hle
    rw [cvtTo8_beyond (fmtE5M2_overflows.2 hle), cvtTo8_e5m2_inf, negative_fin]

theorem cvtTo8_e4m3_within (hp : rational x = some p) (h : ¬ 464 < |p|) (sat : Bool) : cvtTo8 fmtE4M3 sat x = fmtE4M3.pack .rn x := by
  obtain ⟨neg, m, e, rfl, -⟩ := exists_of_rational hp
  rw [abs_of_rational_fin hp, ← fmtE4M3_overflows (neg := neg), not_lt] at h
  exact cvtTo8_within h sat

theorem cvtTo8_e5m2_within (hp : rational x = some p) (h : ¬ 61440 ≤ |p|) (sat : Bool) : cvtTo8 fmtE5M2 sat x = fmtE5M2.pack .rn x := by
  obtain ⟨neg, m, e, rfl, -⟩ := exists_of_rational hp
  rw [abs_of_rational_fin hp, ← fmtE5M2_overflows (neg := neg), not_lt] at h
  exact cvtTo8_within h sat

/-! ### To integers (R121) -/

/-- `v` is the number `x` rounded to an integer under `r`. -/
def RoundsToInt (r : Rnd) (x : ℚ) (v : Int) : Prop :=
  match r with
  | .rz => v = if 0 ≤ x then ⌊x⌋ else ⌈x⌉
  | .ru => v = ⌈x⌉
  | .rd => v = ⌊x⌋
  | .rn => |(v : ℚ) - x| < 1 / 2 ∨ (|(v : ℚ) - x| = 1 / 2 ∧ v % 2 = 0)

theorem RoundsToInt.unique (hu : RoundsToInt r p u) (hv : RoundsToInt r p v) : u = v := by
  cases r with
  | rz | ru | rd => exact Eq.trans hu (Eq.symm hv)
  | rn =>
    by_contra hne
    have h1 : (1 : ℚ) ≤ |(u : ℚ) - v| := by exact_mod_cast Int.one_le_abs (sub_ne_zero.2 hne)
    have h2 : |(u : ℚ) - v| ≤ |(u : ℚ) - p| + |(v : ℚ) - p| := by rw [abs_sub_comm (v : ℚ)]; exact abs_sub_le ..
    rcases hu with hu | ⟨hu, eu⟩
    · rcases hv with hv | ⟨hv, -⟩ <;> linarith
    · rcases hv with hv | ⟨hv, ev⟩
      · linarith
      · -- both are even, and at most 1 apart
        rw [hu, hv] at h2
        have h3 : |u - v| ≤ 1 := by exact_mod_cast (by linarith : |(u : ℚ) - v| ≤ 1)
        rw [abs_le] at h3
        omega

/-- What `FV.toInt` answers is the natural number below or above the magnitude, with the sign. -/
theorem toInt_eq_roundPick (r : Rnd) (neg : Bool) (m : Nat) (e : Int) : ∃ n : Nat, (n : ℚ) ≤ m * 2 ^ e ∧ (m : ℚ) * 2 ^ e < n + 1 ∧
    FV.toInt r neg m e = if neg then -(roundPick r neg n n (m * 2 ^ e) (n + 1) : Int) else roundPick r neg n n (m * 2 ^ e) (n + 1) := by
  by_cases he : 0 ≤ e
  · refine ⟨m * 2 ^ e.toNat, ?_⟩
    simp only [FV.toInt, if_pos he]
    have hx : (m : ℚ) * 2 ^ e = ((m * 2 ^ e.toNat : Nat) : ℚ) := by
      push_cast
      rw [← zpow_natCast, Int.toNat_of_nonneg he]
    rw [hx, roundPick_exact]
    exact ⟨le_rfl, lt_add_one _, rfl⟩
  · refine ⟨m / 2 ^ (-e).toNat, ?_⟩
    simp only [FV.toInt, if_neg he]
    have hx : (m : ℚ) * 2 ^ e = m / 2 ^ (-e).toNat := by
      rw [← zpow_natCast, Int.toNat_of_nonneg (by omega), zpow_neg, div_inv_eq_mul]
    rw [hx, ← roundShift_eq_roundPick]
    refine ⟨?_, ?_, rfl⟩
    · rw [le_div_iff₀ (by positivity)]; exact_mod_cast Nat.div_mul_le_self ..
    · rw [div_lt_iff₀ (by positivity)]; exact_mod_cast Nat.lt_mul_of_div_lt (Nat.lt_succ_self _) (Nat.two_pow_pos _)

/-- The integers next to a number of magnitude `X`, of which `n` is the integer part. -/
theorem floor_ceil_sgn_mul (hn : (n : ℚ) ≤ X) (hn' : X < n + 1) :
    ⌊X⌋ = n ∧ ⌈-X⌉ = -n ∧ ⌈X⌉ = (if X = n then (n : Int) else n + 1) ∧ ⌊-X⌋ = -(if X = n then (n : Int) else n + 1) := by
  have hf : ⌊X⌋ = n := Int.floor_eq_iff.2 ⟨by exact_mod_cast hn, by exact_mod_cast hn'⟩
  have hc : ⌈X⌉ = if X = n then (n : Int) else n + 1 := by
    split_ifs with h
    · rw [h]; exact Int.ceil_natCast n
    · rw [Int.ceil_eq_iff]
      push_cast
      exact ⟨by rw [add_sub_cancel_right]; exact hn.lt_of_ne' h, hn'.le⟩
  exact ⟨hf, by rw [Int.ceil_neg, hf], hc, by rw [Int.floor_neg, hc]⟩

theorem roundPick_rn_nearest (neg : Bool) (hn : (n : ℚ) ≤ X) (hn' : X < n + 1) :
    |(roundPick .rn neg n n X (n + 1) : ℚ) - X| < 1 / 2 ∨ |(roundPick .rn neg n n X (n + 1) : ℚ) - X| = 1 / 2 ∧ roundPick .rn neg n n X (n + 1) % 2 = 0 := by
  have hlo : |(n : ℚ) - X| = X - n := (abs_of_nonpos (by linarith)).trans (by ring)
  have hhi : |((n + 1 : Nat) : ℚ) - X| = n + 1 - X := by push_cast; exact abs_of_pos (by linarith)
  rw [roundPick_nearest]
  split_ifs with h0 h1 h2
  · left; rw [hlo]; linarith
  · left; rw [hhi]; linarith
  · left; rw [hlo]; linarith
  · refine .inr ⟨?_, by omega⟩
    rcases Nat.mod_two_eq_zero_or_one n with h | h <;> rw [h]
    · rw [add_zero, hlo]; linarith
    · rw [hhi]; linarith

/-- `FV.toInt` rounds as the mode says (R121). -/
theorem toInt_rounds (hp : rational (.fin neg m e) = some p) : RoundsToInt r p (FV.toInt r neg m e) := by
  obtain ⟨n, hn, hn', ht⟩ := toInt_eq_roundPick r neg m e
  have hX : (0 : ℚ) ≤ m * 2 ^ e := by positivity
  rw [rational_fin, Option.some_inj] at hp
  subst hp
  rw [ht]
  generalize (m : ℚ) * 2 ^ e = X at *
  obtain ⟨h1, h2, h3, h4⟩ := floor_ceil_sgn_mul hn hn'
  have hup (h : roundsUp r neg) : (roundPick r neg n n X (n + 1) : Int) = if X = n then (n : Int) else n + 1 := by
    split_ifs with h0
    · rw [h0, roundPick_exact]
    · rw [roundPick_up h _ _ h0]; push_cast; rfl
  cases r with
  | rn =>
    have h := roundPick_rn_nearest neg hn hn'
    cases neg
    · rw [if_neg Bool.false_ne_true, sgn_false, one_mul]
      exact h.imp (fun h => by exact_mod_cast h) fun ⟨h, he⟩ => ⟨by exact_mod_cast h, by omega⟩
    · rw [if_pos rfl, sgn_true, neg_one_mul]
      simp only [RoundsToInt, Int.cast_neg, Int.cast_natCast, ← neg_sub', abs_neg]
      exact h.imp id fun ⟨h, he⟩ => ⟨h, by omega⟩
  | rz =>
    rw [roundPick_down (.inl rfl)]
    cases neg
    · simp [RoundsToInt, hX, h1]
    · rcases eq_or_lt_of_le hX with h0 | h0
      · subst h0
        obtain rfl : n = 0 := by simpa using hn
        simp [RoundsToInt]
      · simp [RoundsToInt, not_le.2 h0, h2]
  | ru =>
    cases neg
    · rw [hup (.inl ⟨rfl, rfl⟩)]; simp [RoundsToInt, h3]
    · rw [roundPick_down (.inr (.inl ⟨rfl, rfl⟩))]; simp [RoundsToInt, h2]
  | rd =>
    cases neg
    · rw [roundPick_down (.inr (.inr ⟨rfl, rfl⟩))]; simp [RoundsToInt, h1]
    · rw [hup (.inr ⟨rfl, rfl⟩)]; simp [RoundsToInt, h4]

/-- The bits of an integer in 32 bits. -/
theorem toNat_ofInt_word (v : Int) : (BitVec.ofInt 32 v).toNat = (v % 4294967296).toNat := BitVec.toNat_ofInt ..

theorem cvtToInt_nan (signed sat : Bool) (r : Rnd) : cvtToInt signed sat r .nan = if sat then 0 else if signed then 0x80000000 else 0xFFFFFFFF := rfl

theorem cvtToInt_inf (signed sat : Bool) (r : Rnd) (neg : Bool) : cvtToInt signed sat r (.inf neg) =
    if sat then (BitVec.ofInt 32 (if neg then (if signed then -2 ^ 31 else 0) else if signed then 2 ^ 31 - 1 else 2 ^ 32 - 1)).toNat
    else if signed then 0x80000000 else 0xFFFFFFFF := by
  cases signed <;> cases sat <;> cases neg <;> rfl

theorem cvtToInt_fin (signed sat : Bool) (r : Rnd) (neg : Bool) (m : Nat) (e : Int) :
    let lo : Int := if signed then -2 ^ 31 else 0
    let hi : Int := if signed then 2 ^ 31 - 1 else 2 ^ 32 - 1
    cvtToInt signed sat r (.fin neg m e) =
      if lo ≤ FV.toInt r neg m e ∧ FV.toInt r neg m e ≤ hi then (BitVec.ofInt 32 (FV.toInt r neg m e)).toNat
      else if sat then (BitVec.ofInt 32 (if FV.toInt r neg m e < lo then lo else hi)).toNat else if signed then 0x80000000 else 0xFFFFFFFF := by
  simp only [toNat_ofInt_word]
  cases signed <;> rfl

/-! ### From integers (R122) -/

theorem negative_cvtSource_int (hs : src ∈ [CvtTy.i32, .b32]) (a : Word) : negative (cvtSource src a.toNat) = decide (cvtInt src a < 0) := by
  rw [cvtSource_int hs, negative_fin]

/-- Integer 0 gives +0 in every format. -/
theorem cvtValue_int_zero (hs : src ∈ [CvtTy.i32, .b32]) (hg : cvtFmt dst = some g) {a : Word} (h0 : cvtInt src a = 0) (sat : Bool) (r : Rnd) :
    cvtValue src dst sat r a.toNat = 0 := by
  have hx := rational_cvtSource_int hs a
  have hn := negative_cvtSource_int hs a
  rw [h0] at hx hn
  have hp (f : Fmt) (r : Rnd) : f.pack r (cvtSource src a.toNat) = 0 := by rw [f.pack_of_rational_zero r hx, hn]; rfl
  by_cases h4 : dst = .e4m3
  · rw [h4, cvtValue_e4m3, cvtTo8_e4m3_within hx (by norm_num), hp]
  by_cases h5 : dst = .e5m2
  · rw [h5, cvtValue_e5m2, cvtTo8_e5m2_within hx (by norm_num), hp]
  · rw [cvtValue_wide hg h4 h5, hp]

theorem cvtValue_i32_b32 (r : Rnd) (a : Word) :
    cvtValue .i32 .b32 false r a.toNat = a.toNat ∧ cvtValue .i32 .b32 true r a.toNat = if a.toInt < 0 then 0 else a.toNat := by
  have ha := Nat.mod_eq_of_lt a.isLt
  have hneg : a.toInt < 0 ↔ 2 ^ 31 ≤ a.toNat := by rw [BitVec.toInt_eq_toNat_cond]; split_ifs <;> omega
  simp [cvtValue, ha, hneg]

theorem cvtValue_b32_i32 (r : Rnd) (a : Word) :
    cvtValue .b32 .i32 false r a.toNat = a.toNat ∧ cvtValue .b32 .i32 true r a.toNat = min a.toNat 0x7FFFFFFF := by
  have ha := Nat.mod_eq_of_lt a.isLt
  simp only [cvtValue, ha, if_true, Bool.false_and, Bool.true_and, Bool.false_eq_true, if_false, decide_eq_true_eq, true_and]
  split_ifs <;> omega

/-! ### The statement -/

/-- A value that is not zero, or zero, in an 8-bit format. -/
theorem IsRounded.small (hg : g.Sound) (hp : rational x = some p) : (p = 0 → g.pack .rn x = g.signBit (negative x)) ∧ (p ≠ 0 → RoundsTo g .rn p (g.pack .rn x)) :=
  ⟨fun h0 => g.pack_of_rational_zero .rn (h0 ▸ hp), fun h0 => Fmt.roundsTo_pack hg.mb hp h0⟩

/-- Settles O9: a source is a value, and packing, an 8-bit format or an integer is what the destination makes of it. -/
theorem conversionsFollowR119 : Obligations.ConversionsFollowR119 := by
  unfold Obligations.ConversionsFollowR119
  refine ⟨fun src dst f g hf hg h4 h5 sat r a => ?wide, fun src dst f hf r a => ?small, fun src hs dst g hg sat r a => ?ints, fun r a => ?bits, fun signed sat r => ?toInts⟩
  case wide =>
    have hi := ieee_of_cvtFmt hg h4
    rw [cvtValue_wide hg h4 h5, cvtSource_float hf]
    exact ⟨hi.isRounded_pack r _, fun h p hp => (fits_of_cvtFmt hf hg h4 h5 h).pack_decode hi.toSound hp r⟩
  case small =>
    dsimp only
    refine ⟨?_, ?_, ?_, ?_, ?_⟩
    · rintro rfl hn
      rw [cvtValue_e4m3, cvtValue_e4m3, cvtSource_float hf, hn]
      exact ⟨rfl, rfl⟩
    · rintro rfl hn
      rw [cvtValue_e5m2, cvtValue_e5m2, cvtSource_float hf, hn]
      exact ⟨rfl, rfl⟩
    · rintro rfl h
      rw [cvtValue_e4m3, cvtValue_e4m3, cvtSource_float hf, cvtTo8_e4m3_beyond h, cvtTo8_e4m3_beyond h]
      exact ⟨rfl, rfl⟩
    · rintro rfl h
      simp only [reduceCtorEq, if_false] at h
      rw [cvtValue_e5m2, cvtValue_e5m2, cvtSource_float hf, cvtTo8_e5m2_beyond h, cvtTo8_e5m2_beyond h]
      cases negative (f.decode a) <;> exact ⟨rfl, rfl⟩
    · rintro g p (⟨rfl, rfl⟩ | ⟨rfl, rfl⟩) hp hb
      · simp only [if_true] at hb
        rw [cvtValue_e4m3, cvtValue_e4m3, cvtSource_float hf, cvtTo8_e4m3_within hp hb, cvtTo8_e4m3_within hp hb]
        exact ⟨rfl, IsRounded.small sound_fmtE4M3 hp⟩
      · simp only [reduceCtorEq, if_false] at hb
        rw [cvtValue_e5m2, cvtValue_e5m2, cvtSource_float hf, cvtTo8_e5m2_within hp hb, cvtTo8_e5m2_within hp hb]
        exact ⟨rfl, IsRounded.small Fmt.ieee_fmtE5M2.toSound hp⟩
  case ints =>
    intro n v
    have hx : rational (cvtSource src a.toNat) = some (n : ℚ) := rational_cvtSource_int hs a
    have hneg : negative (cvtSource src a.toNat) = decide (n < 0) := negative_cvtSource_int hs a
    have abs_cast_le {c : Nat} : |(n : ℚ)| ≤ c ↔ |n| ≤ c := by rw [← Int.cast_abs]; exact_mod_cast Iff.rfl
    refine ⟨fun h0 => cvtValue_int_zero hs hg h0 sat r, fun h0 h4 h5 => ?_, fun h0 h4 => ⟨fun hn => ?_, fun hn => ?_⟩, fun h0 h5 => ⟨fun hn => ?_, fun hn => ?_⟩⟩
    · rw [show v = _ from cvtValue_wide hg h4 h5 ..]
      exact Fmt.roundsTo_pack (ieee_of_cvtFmt hg h4).mb hx (Int.cast_ne_zero.2 h0)
    · subst h4
      obtain rfl := Option.some.inj hg
      rw [show v = _ from cvtTo8_e4m3_within hx (not_lt.2 (abs_cast_le.2 hn)) sat]
      exact Fmt.roundsTo_pack sound_fmtE4M3.mb hx (Int.cast_ne_zero.2 h0)
    · subst h4
      rw [show v = _ from cvtTo8_e4m3_beyond (.inr ⟨_, hx, not_le.1 (mt abs_cast_le.1 (not_le.2 hn))⟩) sat, hneg]
      simp only [decide_eq_true_eq]
    · subst h5
      obtain rfl := Option.some.inj hg
      rw [show v = _ from cvtTo8_e5m2_within hx (by rw [← Int.cast_abs]; exact_mod_cast not_le.2 hn) sat]
      exact Fmt.roundsTo_pack Fmt.ieee_fmtE5M2.mb hx (Int.cast_ne_zero.2 h0)
    · subst h5
      rw [show v = _ from cvtTo8_e5m2_beyond (.inr ⟨_, hx, by rw [← Int.cast_abs]; exact_mod_cast hn⟩) sat, hneg]
      simp only [decide_eq_true_eq]
  case bits =>
    obtain ⟨h1, h2⟩ := cvtValue_i32_b32 r a
    obtain ⟨h3, h4⟩ := cvtValue_b32_i32 r a
    exact ⟨h1, h3, h2, h4⟩
  case toInts =>
    refine ⟨cvtToInt_nan .., fun neg => cvtToInt_inf .., fun neg m e x hx v hv => ?_⟩
    have : v = FV.toInt r neg m e := RoundsToInt.unique (r := r) (p := x) (by cases r <;> exact hv) (toInt_rounds hx)
    rw [this]
    exact cvtToInt_fin ..

end Sys2Proof.Machine
end

section
/-! PROOF of O1: the numbers of the integer units.

Each value function of R103 and R104 is `BitVec.ofInt` of the number that the statement names, for any width W. A unit writes a register
or a pair as its type says, and the two widths are one proof (`gives_rrr`). -/

namespace Sys2Proof.Machine
open Sys2Proof.Safety

variable {w n : Nat} {t : IntTy} {sg : Bool} {h : Hdr} {i : Instr} {d a b : RegNo}

/-! ### W-bit values and numbers -/

theorem ofInt_asInt (sg : Bool) (x : BitVec w) : BitVec.ofInt w (asInt sg x) = x := by
  cases sg
  · exact (BitVec.ofInt_natCast ..).trans (by simp)
  · exact BitVec.ofInt_toInt

theorem ofInt_sub (x y : Int) : BitVec.ofInt w (x - y) = BitVec.ofInt w x - BitVec.ofInt w y := by
  rw [sub_eq_add_neg, BitVec.ofInt_add, BitVec.ofInt_neg, BitVec.sub_eq_add_neg]

/-- The ends of a signed type. -/
theorem toInt_bounds (x : BitVec w) : -2 ^ (w - 1) ≤ x.toInt ∧ x.toInt ≤ 2 ^ (w - 1) - 1 := ⟨x.le_toInt, by have := x.toInt_lt; omega⟩

theorem asInt_eq_zero {x : BitVec w} : asInt sg x = 0 ↔ x = 0#w := by
  cases sg
  · simp [asInt, BitVec.toNat_eq]
  · simp only [asInt, if_true]
    rw [← BitVec.toInt_inj, BitVec.toInt_zero]

/-- The number of a register operand, or of a pair. -/
theorem num_of_one (ht : t.n = 1) (sg : Bool) (r : RegNo) (o : Fibre) : num sg t r o = asInt sg (o.reg r) := by
  rw [num, if_pos ht]; cases sg <;> rfl
theorem num_of_pair (ht : t.n ≠ 1) (sg : Bool) (r : RegNo) (o : Fibre) : num sg t r o = asInt sg (o.pair r) := by
  rw [num, if_neg ht]; cases sg <;> rfl

theorem width_of_one (ht : t.n = 1) : width t = 32 := by rw [width, ht]
theorem width_of_pair (ht : t.n ≠ 1) : width t = 64 := by
  have h2 : t.n = 1 ∨ t.n = 2 := by cases t <;> decide
  rw [width, h2.resolve_left ht]
theorem width_pos (t : IntTy) : 0 < width t := by cases t <;> decide

/-! ### Units that write a register or a pair -/

theorem key_setReg (f : Fibre) (r : RegNo) (v : Word) : (f.setReg r v).key = f.key := rfl
theorem key_setPair (f : Fibre) (r : RegNo) (v : DWord) : (f.setPair r v).key = f.key := rfl

theorem put_of_one (ht : t.n = 1) (d : RegNo) (v : Int) (g : Fibre) : put t d v g = g.setReg d (BitVec.ofInt 32 v) := if_pos ht
theorem put_of_pair (ht : t.n ≠ 1) (d : RegNo) (v : Int) (g : Fibre) : put t d v g = g.setPair d (BitVec.ofInt 64 v) := if_neg ht

theorem rrr_eq_put {F : IntOp} {V : (d a b : Bool → Int) → Int}
    (hV : ∀ w, w = width t → ∀ d a b : BitVec w, F w t.signed d a b = BitVec.ofInt w (V (asInt · d) (asInt · a) (asInt · b))) (o g : Fibre) :
    rrr F t d a b o g = put t d (V (num · t d o) (num · t a o) (num · t b o)) g := by
  by_cases ht : t.n = 1
  · simp only [rrr, if_pos ht, put_of_one ht, hV 32 (width_of_one ht).symm, num_of_one ht]
  · simp only [rrr, if_neg ht, put_of_pair ht, hV 64 (width_of_pair ht).symm, num_of_pair ht]

theorem rrs_eq_put {F : ShiftOp} {V : (d a : Bool → Int) → Word → Int}
    (hV : ∀ w, w = width t → ∀ (d a : BitVec w) (b : Word), F w t.signed d a b = BitVec.ofInt w (V (asInt · d) (asInt · a) b)) (o g : Fibre) :
    rrs F t d a b o g = put t d (V (num · t d o) (num · t a o) (o.reg b)) g := by
  by_cases ht : t.n = 1
  · simp only [rrs, if_pos ht, put_of_one ht, hV 32 (width_of_one ht).symm, num_of_one ht]
  · simp only [rrs, if_neg ht, put_of_pair ht, hV 64 (width_of_pair ht).symm, num_of_pair ht]

theorem key_rrr (F : IntOp) (t : IntTy) (d a b : RegNo) (o g : Fibre) : (rrr F t d a b o g).key = g.key := by unfold rrr; split <;> rfl
theorem key_rrs (F : ShiftOp) (t : IntTy) (d a b : RegNo) (o g : Fibre) : (rrs F t d a b o g).key = g.key := by unfold rrs; split <;> rfl

/-- A unit of three registers or pairs writes the number `V` of its operands where its value function does, for its width. -/
theorem gives_rrr {F : IntOp} (V : (d a b : Bool → Int) → Int) (he : ∀ s, exec i s = .next (resultUnit h (fun _ o g => rrr F t d a b o g) s))
    (hV : ∀ w, w = width t → ∀ d a b : BitVec w, F w t.signed d a b = BitVec.ofInt w (V (asInt · d) (asInt · a) (asInt · b))) :
    Gives h i (fun _ o g => put t d (V (num · t d o) (num · t a o) (num · t b o)) g) :=
  gives_of_resultUnit he (fun _ _ _ => key_rrr ..) fun _ o g => rrr_eq_put hV o g

/-- A unit whose second operand is one register in both widths. -/
theorem gives_rrs {F : ShiftOp} (V : (d a : Bool → Int) → Word → Int) (he : ∀ s, exec i s = .next (resultUnit h (fun _ o g => rrs F t d a b o g) s))
    (hV : ∀ w, w = width t → ∀ (d a : BitVec w) (b : Word), F w t.signed d a b = BitVec.ofInt w (V (asInt · d) (asInt · a) b)) :
    Gives h i (fun _ o g => put t d (V (num · t d o) (num · t a o) (o.reg b)) g) :=
  gives_of_resultUnit he (fun _ _ _ => key_rrs ..) fun _ o g => rrs_eq_put hV o g

/-! ### The values of R103 -/

section
variable (x y z : BitVec w)

theorem vIadd_eq : vIadd w sg z x y = BitVec.ofInt w (asInt false x + asInt false y) := by
  rw [BitVec.ofInt_add, ofInt_asInt, ofInt_asInt]; rfl

theorem vIsub_eq : vIsub w sg z x y = BitVec.ofInt w (asInt false x - asInt false y) := by
  rw [ofInt_sub, ofInt_asInt, ofInt_asInt]; rfl

theorem vImul_eq : vImul w sg z x y = BitVec.ofInt w (asInt false x * asInt false y) := by
  rw [BitVec.ofInt_mul, ofInt_asInt, ofInt_asInt]; rfl

theorem vImad_eq : vImad w sg z x y = BitVec.ofInt w (asInt false x * asInt false y + asInt false z) := by
  rw [BitVec.ofInt_add, BitVec.ofInt_mul, ofInt_asInt, ofInt_asInt, ofInt_asInt]; rfl

theorem vImulh_eq : vImulh w sg z x y = BitVec.ofInt w (asInt sg x * asInt sg y / 2 ^ w) := by
  cases sg
  · rw [vImulh, if_neg Bool.false_ne_true, ← BitVec.ofInt_natCast]; push_cast; rfl
  · rfl

/-- Clamping to the type's range is `sat`. -/
theorem clamp_eq (hw : w = width t) (v : Int) : clamp w t.signed v = BitVec.ofInt w (sat t v) := by
  subst hw
  unfold clamp sat
  cases t.signed <;> rfl

theorem vIadds_eq (hw : w = width t) : vIadds w t.signed z x y = BitVec.ofInt w (sat t (asInt t.signed x + asInt t.signed y)) := clamp_eq hw _
theorem vIsubs_eq (hw : w = width t) : vIsubs w t.signed z x y = BitVec.ofInt w (sat t (asInt t.signed x - asInt t.signed y)) := clamp_eq hw _

theorem vImin_eq : vImin w sg z x y = BitVec.ofInt w (min (asInt sg x) (asInt sg y)) := by
  rw [vImin]
  split_ifs with hle
  · rw [min_eq_left hle, ofInt_asInt]
  · rw [min_eq_right (not_le.1 hle).le, ofInt_asInt]

theorem vImax_eq : vImax w sg z x y = BitVec.ofInt w (max (asInt sg x) (asInt sg y)) := by
  rw [vImax]
  split_ifs with hle
  · rw [max_eq_right hle, ofInt_asInt]
  · rw [max_eq_left (not_le.1 hle).le, ofInt_asInt]

/-- A signed number that is not below the type's range is clamped at its upper end alone. -/
theorem clamp_signed {v : Int} (hv : -2 ^ (w - 1) ≤ v) : clamp w true v = BitVec.ofInt w (min v (2 ^ (w - 1) - 1)) := by
  have : (0 : Int) < 2 ^ (w - 1) := by positivity
  rw [clamp, if_pos rfl, if_pos rfl, min_comm, max_eq_right (le_min hv (by omega))]

theorem vIabs_eq : vIabs w sg z x y = BitVec.ofInt w (if sg then min |asInt true x| (2 ^ (w - 1) - 1) else |asInt true x|) := by
  have habs : (x.toInt.natAbs : Int) = |asInt true x| := Int.natCast_natAbs _
  have : (0 : Int) < 2 ^ (w - 1) := by positivity
  cases sg
  · rw [vIabs, if_neg Bool.false_ne_true, if_neg Bool.false_ne_true, ← BitVec.ofInt_natCast, habs]
  · rw [vIabs, if_pos rfl, if_pos rfl, habs, clamp_signed (le_trans (by omega) (abs_nonneg _))]

theorem vIneg_eq : vIneg w sg z x y = BitVec.ofInt w (if sg then min (-asInt true x) (2 ^ (w - 1) - 1) else -asInt true x) := by
  cases sg
  · rw [vIneg, if_neg Bool.false_ne_true, if_neg Bool.false_ne_true, BitVec.ofInt_neg, ofInt_asInt]
  · have := (toInt_bounds x).2
    rw [vIneg, if_pos rfl, if_pos rfl, clamp_signed (by omega)]; rfl

/-! ### The values of R104 -/

theorem ofInt_two_pow (w : Nat) : BitVec.ofInt w (2 ^ w) = 0#w :=
  BitVec.eq_of_toNat_eq (by rw [BitVec.toNat_ofInt, Nat.cast_pow, Nat.cast_ofNat, Int.emod_self]; simp)

theorem ofInt_two_pow_sub_one (w : Nat) : BitVec.ofInt w (2 ^ w - 1) = BitVec.allOnes w := by
  rw [ofInt_sub, ofInt_two_pow, ← BitVec.neg_one_eq_allOnes, BitVec.zero_sub]
  rfl

/-- The one quotient that is out of range stands for the least number, as wrapped bits do. -/
theorem ofInt_two_pow_pred (hw : 0 < w) : BitVec.ofInt w (2 ^ (w - 1)) = BitVec.ofInt w (-2 ^ (w - 1)) := by
  have h : (2 : Int) ^ w - 2 ^ (w - 1) = 2 ^ (w - 1) := by
    obtain ⟨c, rfl⟩ := Nat.exists_eq_succ_of_ne_zero hw.ne'
    rw [Nat.succ_eq_add_one, Nat.add_sub_cancel, pow_succ]
    ring
  rw [← h, ofInt_sub, ofInt_two_pow, BitVec.zero_sub, h, BitVec.ofInt_neg]

theorem vIdiv_eq (hw : 0 < w) : vIdiv w sg z x y = BitVec.ofInt w (
    if asInt sg y = 0 then (if sg then (if 0 ≤ asInt sg x then 2 ^ (w - 1) - 1 else -2 ^ (w - 1)) else 2 ^ w - 1)
    else if sg ∧ asInt sg x = -2 ^ (w - 1) ∧ asInt sg y = -1 then -2 ^ (w - 1) else Int.tdiv (asInt sg x) (asInt sg y)) := by
  simp only [asInt_eq_zero, vIdiv]
  cases sg
  · simp only [Bool.false_eq_true, if_false, false_and]
    split_ifs
    · exact (ofInt_two_pow_sub_one w).symm
    · rw [← BitVec.ofInt_natCast]; rfl
  · simp only [asInt, if_true, true_and]
    split_ifs with h0 h1 h2
    · rfl
    · rfl
    · rw [h2.1, h2.2, Int.tdiv_neg, Int.tdiv_one, neg_neg, ofInt_two_pow_pred hw]
    · rfl

theorem vIrem_eq : vIrem w sg z x y = BitVec.ofInt w (
    if asInt sg y = 0 then asInt sg x else if sg ∧ asInt sg x = -2 ^ (w - 1) ∧ asInt sg y = -1 then 0 else asInt sg x - asInt sg y * Int.tdiv (asInt sg x) (asInt sg y)) := by
  simp only [asInt_eq_zero, ← Int.tmod_def, vIrem]
  cases sg
  · simp only [Bool.false_eq_true, if_false, false_and]
    split_ifs
    · rw [ofInt_asInt]
    · rw [← BitVec.ofInt_natCast]; rfl
  · simp only [asInt, if_true, true_and]
    split_ifs with h0 h1
    · rw [BitVec.ofInt_toInt]
    · rw [h1.1, h1.2, Int.tmod_neg, Int.tmod_one]
    · rfl

end

/-- Settles O1: each unit writes the value of its function, which is the number of the statement. -/
theorem integerArithmeticWrites : Obligations.IntegerArithmeticWrites := by
  unfold Obligations.IntegerArithmeticWrites
  intro h d a b t
  refine ⟨?_, ?_, ?_, ?_, ?_, ?_, ?_, ?_, ?_, ?_, ?_, ?_⟩
  · exact gives_rrr (F := vIadd) (fun _ a b => a false + b false) (fun _ => rfl) fun _ _ d a b => vIadd_eq a b d
  · exact gives_rrr (F := vIsub) (fun _ a b => a false - b false) (fun _ => rfl) fun _ _ d a b => vIsub_eq a b d
  · exact gives_rrr (F := vImul) (fun _ a b => a false * b false) (fun _ => rfl) fun _ _ d a b => vImul_eq a b d
  · exact gives_rrr (F := vImad) (fun d a b => a false * b false + d false) (fun _ => rfl) fun _ _ d a b => vImad_eq a b d
  · exact gives_rrr (F := vImulh) (fun _ a b => a t.signed * b t.signed / 2 ^ width t) (fun _ => rfl) fun _ hw d a b => hw ▸ vImulh_eq a b d
  · exact gives_rrr (F := vIadds) (fun _ a b => sat t (a t.signed + b t.signed)) (fun _ => rfl) fun _ hw d a b => vIadds_eq a b d hw
  · exact gives_rrr (F := vIsubs) (fun _ a b => sat t (a t.signed - b t.signed)) (fun _ => rfl) fun _ hw d a b => vIsubs_eq a b d hw
  · exact gives_rrr (F := vImin) (fun _ a b => min (a t.signed) (b t.signed)) (fun _ => rfl) fun _ _ d a b => vImin_eq a b d
  · exact gives_rrr (F := vImax) (fun _ a b => max (a t.signed) (b t.signed)) (fun _ => rfl) fun _ _ d a b => vImax_eq a b d
  · exact gives_rrr (F := vIabs) (b := a) (fun _ a _ => if t.signed then min |a true| (2 ^ (width t - 1) - 1) else |a true|) (fun _ => rfl)
      fun _ hw d a b => hw ▸ vIabs_eq a b d
  · exact gives_rrr (F := vIneg) (b := a) (fun _ a _ => if t.signed then min (-a true) (2 ^ (width t - 1) - 1) else -a true) (fun _ => rfl)
      fun _ hw d a b => hw ▸ vIneg_eq a b d
  · refine ⟨gives_rrr (F := vIdiv) (fun _ a b => if b t.signed = 0 then (if t.signed then (if 0 ≤ a t.signed then 2 ^ (width t - 1) - 1 else -2 ^ (width t - 1)) else 2 ^ width t - 1)
        else if t.signed ∧ a t.signed = -2 ^ (width t - 1) ∧ b t.signed = -1 then -2 ^ (width t - 1) else Int.tdiv (a t.signed) (b t.signed)) (fun _ => rfl) ?_,
      gives_rrr (F := vIrem) (fun _ a b => if b t.signed = 0 then a t.signed else if t.signed ∧ a t.signed = -2 ^ (width t - 1) ∧ b t.signed = -1 then 0
        else a t.signed - b t.signed * Int.tdiv (a t.signed) (b t.signed)) (fun _ => rfl) ?_⟩
    · rintro _ rfl d a b
      exact vIdiv_eq a b d (width_pos t)
    · rintro _ rfl d a b
      exact vIrem_eq a b d

end Sys2Proof.Machine
end

section
/-! PROOF of O2: bits, counts, shifts and fields.

AND to NOT write the bits that the statement writes; the others come to a number, for any width W, as in the proof of O1. A shift by W
or more leaves nothing of the operand, which is what dividing or multiplying by `2 ^ c` leaves. -/

namespace Sys2Proof.Machine
open Sys2Proof.Safety

variable {w n : Nat} {t : IntTy} {sg : Bool} {h : Hdr} {i : Instr} {d a b : RegNo}

/-! ### Bits and counts (R103) -/

/-- A unit that writes the same bits in a register or in a pair, as its type says. -/
theorem gives_bits {F : IntOp} {x : Fibre → Word} {y : Fibre → DWord} (he : ∀ s, exec i s = .next (resultUnit h (fun _ o g => rrr F t d a b o g) s))
    (hx : ∀ o, F 32 t.signed (o.reg d) (o.reg a) (o.reg b) = x o) (hy : ∀ o, F 64 t.signed (o.pair d) (o.pair a) (o.pair b) = y o) :
    Gives h i (fun _ o g => if t.n = 1 then g.setReg d (x o) else g.setPair d (y o)) :=
  gives_of_resultUnit he (fun _ _ _ => key_rrr ..) fun _ o g => by rw [rrr, hx, hy]

theorem reverse_eq_ofFnLE (x : BitVec w) : x.reverse = BitVec.ofFnLE fun i => x.getLsbD (w - 1 - i.val) := by
  refine BitVec.eq_of_getElem_eq fun i hi => ?_
  rw [BitVec.getElem_reverse, BitVec.getMsbD_eq_getLsbD, BitVec.getElem_ofFnLE, decide_eq_true hi, Bool.true_and]

theorem vPopc_eq (x y z : BitVec w) : vPopc w sg z x y =
    BitVec.ofInt w (((List.range w).countP fun i => (asInt false x).toNat.testBit i : Nat) : Int) := by
  rw [vPopc, BitVec.ofInt_natCast, List.countP_eq_length_filter]
  rfl

/-- How many numbers below `w` are not below `n`. -/
theorem countP_le_range (n w : Nat) : (List.range w).countP (fun i => decide (n ≤ i)) = w - n := by
  induction w with
  | zero => simp
  | succ w ih =>
    rw [List.range_succ, List.countP_append, ih, List.countP_singleton]
    by_cases hn : n ≤ w
    · simp [hn]; omega
    · simp [hn]; omega

theorem size_eq_log2 {m : Nat} (hm : m ≠ 0) : m.size = Nat.log2 m + 1 := by
  refine le_antisymm (Nat.size_le.2 Nat.lt_log2_self) ?_
  by_contra hlt
  have := Nat.size_le.1 (Nat.le_of_lt_succ (not_le.1 hlt))
  exact absurd (Nat.log2_self_le hm) (not_le.2 this)

theorem vClz_eq (x y z : BitVec w) : vClz w sg z x y =
    BitVec.ofInt w (((List.range w).countP fun i => decide (asInt false x < 2 ^ i) : Nat) : Int) := by
  have hsize (i : Nat) : asInt false x < 2 ^ i ↔ x.toNat.size ≤ i := by
    rw [Nat.size_le, ← Nat.cast_lt (α := Int), Nat.cast_pow]
    rfl
  rw [vClz, BitVec.ofInt_natCast]
  simp only [hsize, countP_le_range]
  split_ifs with h0
  · rw [h0, Nat.size_zero, Nat.sub_zero]
  · rw [size_eq_log2 h0, Nat.sub_sub, Nat.add_comm 1]

/-! ### Shifts (R105) -/

theorem shiftLeft_eq (x : BitVec w) (c : Nat) : x <<< c = BitVec.ofInt w (if c < w then asInt false x * 2 ^ c else 0) := by
  have h : x <<< c = BitVec.ofNat w (x.toNat * 2 ^ c) := BitVec.eq_of_toNat_eq (by simp [Nat.shiftLeft_eq])
  split_ifs with hc
  · rw [h, ← BitVec.ofInt_natCast]; push_cast; rfl
  · rw [BitVec.shiftLeft_eq_zero (by omega)]; rfl

theorem ushiftRight_eq (x : BitVec w) (c : Nat) : x >>> c = BitVec.ofInt w (if c < w then asInt false x / 2 ^ c else 0) := by
  have h : x >>> c = BitVec.ofNat w (x.toNat / 2 ^ c) :=
    BitVec.eq_of_toNat_eq (by rw [BitVec.toNat_ushiftRight, Nat.shiftRight_eq_div_pow, BitVec.toNat_ofNat, Nat.mod_eq_of_lt ((Nat.div_le_self ..).trans_lt x.isLt)])
  split_ifs with hc
  · rw [h, ← BitVec.ofInt_natCast]; push_cast; rfl
  · rw [BitVec.ushiftRight_eq_zero (by omega)]; rfl

/-- What is left of a number below `2 ^ w` after it is divided by that much or more: its sign. -/
theorem div_two_pow_of_le (x : BitVec w) {c : Nat} (hc : w ≤ c) : x.toInt / 2 ^ c = if 0 ≤ x.toInt then 0 else -1 := by
  have hb := toInt_bounds x
  have h1 : (2 : Int) ^ (w - 1) ≤ 2 ^ c := pow_le_pow_right₀ (by norm_num) (by omega)
  split_ifs with h0
  · exact Int.ediv_eq_zero_of_lt h0 (by omega)
  · rw [Int.ediv_eq_iff_of_pos (by positivity)]
    constructor <;> omega

theorem sshiftRight_eq (x : BitVec w) (c : Nat) : x.sshiftRight c =
    BitVec.ofInt w (if c < w then asInt true x / 2 ^ c else if 0 ≤ asInt true x then 0 else -1) := by
  have h : x.sshiftRight c = BitVec.ofInt w (x.toInt / 2 ^ c) := by
    rw [← BitVec.ofInt_toInt (x := x.sshiftRight c), BitVec.toInt_sshiftRight, Int.shiftRight_eq_div_pow]; push_cast; rfl
  rw [h]
  split_ifs with hc h0
  · rfl
  · rw [div_two_pow_of_le x (not_lt.1 hc)]; exact congrArg _ (if_pos h0)
  · rw [div_two_pow_of_le x (not_lt.1 hc)]; exact congrArg _ (if_neg h0)

theorem rotateLeft_eq (x : BitVec w) {c : Nat} (hc : c < w) : x.rotateLeft c = BitVec.ofInt w (asInt false x * 2 ^ c + asInt false x / 2 ^ (w - c)) := by
  have hlow : x.toNat / 2 ^ (w - c) < 2 ^ c := Nat.div_lt_of_lt_mul (by rw [← pow_add, Nat.sub_add_cancel hc.le]; exact x.isLt)
  have hhigh : x.toNat * 2 ^ c % 2 ^ w = 2 ^ c * (x.toNat % 2 ^ (w - c)) := by
    rw [mul_comm, ← Nat.mul_mod_mul_left, ← pow_add, Nat.add_sub_cancel' hc.le]
  have hlt : 2 ^ c * (x.toNat % 2 ^ (w - c)) + x.toNat / 2 ^ (w - c) < 2 ^ w :=
    calc 2 ^ c * (x.toNat % 2 ^ (w - c)) + x.toNat / 2 ^ (w - c) < 2 ^ c * (x.toNat % 2 ^ (w - c) + 1) := by rw [mul_add, mul_one]; exact Nat.add_lt_add_left hlow _
      _ ≤ 2 ^ c * 2 ^ (w - c) := Nat.mul_le_mul_left _ (Nat.mod_lt _ (Nat.two_pow_pos _))
      _ = 2 ^ w := by rw [← pow_add, Nat.add_sub_cancel' hc.le]
  have hsum : (x.toNat * 2 ^ c + x.toNat / 2 ^ (w - c)) % 2 ^ w = 2 ^ c * (x.toNat % 2 ^ (w - c)) + x.toNat / 2 ^ (w - c) := by
    rw [Nat.add_mod, hhigh, Nat.mod_eq_of_lt (hlow.trans (Nat.pow_lt_pow_right (by norm_num) hc)), Nat.mod_eq_of_lt hlt]
  have h : x.rotateLeft c = BitVec.ofNat w (x.toNat * 2 ^ c + x.toNat / 2 ^ (w - c)) := by
    apply BitVec.eq_of_toNat_eq
    rw [BitVec.toNat_rotateLeft, Nat.mod_eq_of_lt hc, Nat.shiftLeft_eq, Nat.shiftRight_eq_div_pow, hhigh, ← Nat.two_pow_add_eq_or_of_lt hlow, BitVec.toNat_ofNat, hsum]
  rw [h, ← BitVec.ofInt_natCast]; push_cast; rfl

/-! ### Fields (R106) -/

theorem vBfe_eq (x z : BitVec w) (b : Word) :
    let v := asInt false x / 2 ^ fieldPos w b % 2 ^ fieldLen w b
    vBfe w sg z x b = BitVec.ofInt w (if fieldLen w b = 0 then 0 else if sg ∧ 2 ^ (fieldLen w b - 1) ≤ v then v - 2 ^ fieldLen w b else v) := by
  intro v
  have hv : v = ((x.toNat / 2 ^ fieldPos w b % 2 ^ fieldLen w b : Nat) : Int) := by push_cast; rfl
  rw [hv]
  simp only [vBfe, signedOf, Nat.mod_mod]
  generalize x.toNat / 2 ^ fieldPos w b % 2 ^ fieldLen w b = u
  split_ifs with h0 h1 h2 h3 h4 h5
  · rfl
  · exact absurd h3.2 (not_le.2 (by exact_mod_cast h2))
  · rfl
  · push_cast; rfl
  · exact absurd ⟨h1, by exact_mod_cast not_lt.1 h2⟩ h4
  · exact absurd h5.1 h1
  · rw [BitVec.ofInt_natCast]

/-- A field of a number replaced by the low bits of another. -/
theorem replace_field (x y p n : Nat) : ((2 ^ p * (2 ^ n * (x / 2 ^ p / 2 ^ n) + y % 2 ^ n) + x % 2 ^ p : Nat) : Int) =
    x - (x : Int) / 2 ^ p % 2 ^ n * 2 ^ p + (y : Int) % 2 ^ n * 2 ^ p := by
  have h1 := Nat.div_add_mod x (2 ^ p)
  have h2 := Nat.div_add_mod (x / 2 ^ p) (2 ^ n)
  zify at h1 h2 ⊢
  linear_combination (norm := ring_nf) h1 + 2 ^ p * h2

theorem vBfi_eq (x z : BitVec w) (b : Word) : vBfi w sg z x b =
    BitVec.ofInt w (asInt false z - asInt false z / 2 ^ fieldPos w b % 2 ^ fieldLen w b * 2 ^ fieldPos w b + asInt false x % 2 ^ fieldLen w b * 2 ^ fieldPos w b) := by
  rw [show asInt false z = (z.toNat : Int) from rfl, show asInt false x = (x.toNat : Int) from rfl, ← replace_field, BitVec.ofInt_natCast]
  have hpn : fieldPos w b + fieldLen w b ≤ w := by unfold fieldLen fieldPos; omega
  simp only [vBfi]
  generalize fieldPos w b = p at *
  generalize fieldLen w b = n at *
  refine BitVec.eq_of_getLsbD_eq fun i hi => ?_
  have hlow : z.toNat % 2 ^ p < 2 ^ p := Nat.mod_lt _ (Nat.two_pow_pos _)
  have hfield : x.toNat % 2 ^ n < 2 ^ n := Nat.mod_lt _ (Nat.two_pow_pos _)
  simp only [BitVec.getLsbD_or, BitVec.getLsbD_and, BitVec.getLsbD_not, BitVec.getLsbD_shiftLeft, BitVec.getLsbD_ofNat, Nat.testBit_two_pow_sub_one,
    Nat.testBit_two_pow_mul_add _ hlow, Nat.testBit_two_pow_mul_add _ hfield, Nat.testBit_mod_two_pow, Nat.testBit_div_two_pow, BitVec.testBit_toNat, hi]
  by_cases h1 : i < p
  · simp [h1]
  · by_cases h2 : i - p < n
    · simp [h1, h2, show i - p < w by omega]
    · have : i - p - n + n + p = i := by omega
      simp [h1, h2, this]

/-- Settles O2: bits as they are, and the numbers of counts, shifts and fields. -/
theorem bitwiseAndShiftsWrite : Obligations.BitwiseAndShiftsWrite := by
  unfold Obligations.BitwiseAndShiftsWrite
  refine ⟨fun h d a b t => ?_, fun h d a b t => ?_⟩
  · refine ⟨?_, ?_, ?_, ?_, ?_, ?_, ?_⟩
    · exact gives_bits (F := vAnd) (fun _ => rfl) (fun _ => rfl) (fun _ => rfl)
    · exact gives_bits (F := vOr) (fun _ => rfl) (fun _ => rfl) (fun _ => rfl)
    · exact gives_bits (F := vXor) (fun _ => rfl) (fun _ => rfl) (fun _ => rfl)
    · exact gives_bits (F := vNot) (b := a) (fun _ => rfl) (fun _ => rfl) (fun _ => rfl)
    · exact gives_bits (F := vBrev) (b := a) (fun _ => rfl) (fun _ => reverse_eq_ofFnLE _) (fun _ => reverse_eq_ofFnLE _)
    · exact gives_rrr (F := vPopc) (b := a) (fun _ a _ => (((List.range (width t)).countP fun i => (a false).toNat.testBit i : Nat) : Int)) (fun _ => rfl)
        fun _ hw d a b => hw ▸ vPopc_eq a b d
    · exact gives_rrr (F := vClz) (b := a) (fun _ a _ => (((List.range (width t)).countP fun i => decide (a false < 2 ^ i) : Nat) : Int)) (fun _ => rfl)
        fun _ hw d a b => hw ▸ vClz_eq a b d
  · refine ⟨?_, ?_, ?_, ?_, ?_, ?_⟩
    · exact gives_rrs (F := vShl) (fun _ a b => if b.toNat % 256 < width t then a false * 2 ^ (b.toNat % 256) else 0) (fun _ => rfl)
        fun _ hw _ a b => hw ▸ shiftLeft_eq a _
    · exact gives_rrs (F := vShr) (fun _ a b => if b.toNat % 256 < width t then a false / 2 ^ (b.toNat % 256) else 0) (fun _ => rfl)
        fun _ hw _ a b => hw ▸ ushiftRight_eq a _
    · exact gives_rrs (F := vSar) (fun _ a b => if b.toNat % 256 < width t then a true / 2 ^ (b.toNat % 256) else if 0 ≤ a true then 0 else -1) (fun _ => rfl)
        fun _ hw _ a b => hw ▸ sshiftRight_eq a _
    · exact gives_rrs (F := vRot) (fun _ a b => a false * 2 ^ (b.toNat % 256 % width t) + a false / 2 ^ (width t - b.toNat % 256 % width t)) (fun _ => rfl)
        fun _ hw _ a b => hw ▸ rotateLeft_eq a (Nat.mod_lt _ (hw ▸ width_pos t))
    · exact gives_rrs (F := vBfe) (fun _ a b => if fieldLen (width t) b = 0 then 0
          else if t.signed ∧ 2 ^ (fieldLen (width t) b - 1) ≤ a false / 2 ^ fieldPos (width t) b % 2 ^ fieldLen (width t) b
            then a false / 2 ^ fieldPos (width t) b % 2 ^ fieldLen (width t) b - 2 ^ fieldLen (width t) b
            else a false / 2 ^ fieldPos (width t) b % 2 ^ fieldLen (width t) b) (fun _ => rfl)
        fun _ hw d a b => hw ▸ vBfe_eq a d b
    · exact gives_rrs (F := vBfi) (fun d a b => d false - d false / 2 ^ fieldPos (width t) b % 2 ^ fieldLen (width t) b * 2 ^ fieldPos (width t) b
          + a false % 2 ^ fieldLen (width t) b * 2 ^ fieldPos (width t) b) (fun _ => rfl)
        fun _ hw d a b => hw ▸ vBfi_eq a d b

end Sys2Proof.Machine
end

section
/-! PROOF of O3: addresses, immediates and constants.

An immediate is a number of at most 29 bits, so that its sign extension to 32 bits holds it whole (`toInt_imm7`, `toInt_imm12`). -/

namespace Sys2Proof.Machine
open Sys2Proof.Safety

variable {n : Nat} {h : Hdr} {i : Instr} {d a b : RegNo} {c : UnitCtx}

/-! ### Units that write one register, or one pair -/

theorem gives_setReg {x y : UnitCtx → Fibre → Word} (he : ∀ s, exec i s = .next (resultUnit h (fun c o g => g.setReg d (x c o)) s))
    (hxy : ∀ c o, x c o = y c o) : Gives h i (fun c o g => g.setReg d (y c o)) :=
  gives_of_resultUnit he (fun _ _ _ => key_setReg ..) fun c o _ => by rw [hxy]

theorem gives_setPair {x y : UnitCtx → Fibre → DWord} (he : ∀ s, exec i s = .next (resultUnit h (fun c o g => g.setPair d (x c o)) s))
    (hxy : ∀ c o, x c o = y c o) : Gives h i (fun c o g => g.setPair d (y c o)) :=
  gives_of_resultUnit he (fun _ _ _ => key_setPair ..) fun c o _ => by rw [hxy]

/-! ### Immediates (R62) -/

theorem isEmpty_eq_isNone_getLast? {α : Type} (l : List α) : l.isEmpty = l.getLast?.isNone := by
  rcases l.eq_nil_or_concat with rfl | ⟨l, x, rfl⟩ <;> simp

/-- The extension of an IMX stands above the field. -/
theorem toInt_x17_append (x : BitVec 17) (i : BitVec n) : (x ++ i).toInt = x.toInt * 2 ^ n + i.toNat := by
  rw [BitVec.toInt_append, if_neg (by decide), mul_comm]

/-- A field, or the field with its extension, in 32 bits. -/
theorem toInt_extended (hn : n ≤ 15) (c : UnitCtx) (i : BitVec n) :
    (if c.imxs.isEmpty then i.signExtend 32 else (c.x17 ++ i).signExtend 32 : Word).toInt = imm c i := by
  rw [isEmpty_eq_isNone_getLast?]
  unfold imm UnitCtx.x17
  rcases c.imxs.getLast? with _ | x
  · exact BitVec.toInt_signExtend_of_le (by omega)
  · exact (BitVec.toInt_signExtend_of_le (by omega)).trans (toInt_x17_append x i)

theorem toInt_imm7 (c : UnitCtx) (i : BitVec 7) : (c.imm7 i).toInt = imm c i := toInt_extended (by norm_num) c i
theorem toInt_imm12 (c : UnitCtx) (i : BitVec 12) : (c.imm12 i).toInt = imm c i := toInt_extended (by norm_num) c i

theorem imm7_eq (c : UnitCtx) (i : BitVec 7) : c.imm7 i = BitVec.ofInt 32 (imm c i) := by rw [← toInt_imm7, BitVec.ofInt_toInt]
theorem imm12_eq (c : UnitCtx) (i : BitVec 12) : c.imm12 i = BitVec.ofInt 32 (imm c i) := by rw [← toInt_imm12, BitVec.ofInt_toInt]

/-- The count of an immediate shift. -/
theorem immCount_eq (c : UnitCtx) (i : BitVec 7) : immCount (c.imm7 i) = (imm c i % 32).toNat := by
  rw [← toInt_imm7, immCount, BitVec.toInt_eq_toNat_cond]
  split_ifs <;> omega

theorem immCount_lt (v : Word) : immCount v < 32 := Nat.mod_lt _ (by decide)

/-- The unsigned immediate of MOVH. -/
theorem toNat_uimm12 (c : UnitCtx) (i : BitVec 12) : ((c.uimm12 i).toNat : Int) = c.imxs.getLast?.elim (i.toNat : Int) fun y => y.toNat * 2 ^ 12 + i.toNat := by
  have hi := i.isLt
  unfold UnitCtx.uimm12 UnitCtx.x17
  rw [isEmpty_eq_isNone_getLast?]
  rcases c.imxs.getLast? with _ | x
  · simp only [Option.isNone_none, if_true, Option.elim_none, BitVec.toNat_setWidth]
    omega
  · have hx := x.isLt
    simp only [Option.isNone_some, Bool.false_eq_true, if_false, Option.elim_some, Option.getD_some, BitVec.toNat_setWidth, BitVec.toNat_append, Nat.shiftLeft_eq]
    rw [mul_comm, ← Nat.two_pow_add_eq_or_of_lt hi]
    omega

/-! ### The values of R107 to R109 -/

theorem signExtend_shiftLeft (x : Word) {k : Nat} (hk : k < 64) : x.signExtend 64 <<< k = BitVec.ofInt 64 (x.toInt * 2 ^ k) := by
  rw [shiftLeft_eq, if_pos hk, BitVec.ofInt_mul, BitVec.ofInt_mul, ofInt_asInt]
  rfl

theorem vAddp_eq (x : DWord) (y : Word) (sh : BitVec 2) : vAddp x y sh = BitVec.ofInt 64 (x.toInt + y.toInt * 2 ^ sh.toNat) := by
  have := sh.isLt
  rw [vAddp, signExtend_shiftLeft y (by omega), BitVec.ofInt_add, BitVec.ofInt_toInt]

/-- MOVH: a high half above a low one. -/
theorem append_halves (x y : Word) : x.extractLsb' 0 16 ++ y.extractLsb' 0 16 = BitVec.ofInt 32 (x.toNat * 2 ^ 16 + y.toNat % 2 ^ 16) := by
  have hy : y.toNat % 2 ^ 16 < 2 ^ 16 := Nat.mod_lt _ (by norm_num)
  rw [show ((x.toNat : Int) * 2 ^ 16 + y.toNat % 2 ^ 16) = ((x.toNat * 2 ^ 16 + y.toNat % 2 ^ 16 : Nat) : Int) by push_cast; rfl, BitVec.ofInt_natCast]
  apply BitVec.eq_of_toNat_eq
  rw [BitVec.toNat_append, BitVec.extractLsb'_toNat, BitVec.extractLsb'_toNat, Nat.shiftRight_zero, Nat.shiftRight_zero, Nat.shiftLeft_eq, mul_comm,
    ← Nat.two_pow_add_eq_or_of_lt hy, BitVec.toNat_ofNat]
  omega

/-- Settles O3: each unit writes one register or pair, with the number of the statement. -/
theorem addressAndImmediateFormsWrite : Obligations.AddressAndImmediateFormsWrite := by
  unfold Obligations.AddressAndImmediateFormsWrite
  intro h d a b sh i j
  refine ⟨?_, ?_, ?_, ?_, ?_, ?_, ?_, ?_, ?_, ?_, ?_, ?_, ?_⟩
  · exact gives_setPair (fun _ => rfl) fun _ _ => vAddp_eq ..
  · exact gives_setPair (fun _ => rfl) fun _ o => by rw [ofInt_sub, BitVec.ofInt_toInt, BitVec.ofInt_toInt]
  · exact gives_setPair (fun _ => rfl) fun c o => by rw [BitVec.ofInt_add, BitVec.ofInt_toInt, ← toInt_imm7]; rfl
  · exact gives_setReg (fun _ => rfl) fun c o => by rw [imm7_eq]
  · exact gives_setReg (fun _ => rfl) fun c o => by rw [imm7_eq]
  · exact gives_setReg (fun _ => rfl) fun c o => by rw [imm7_eq]
  · exact gives_setReg (fun _ => rfl) fun c o => by rw [imm7_eq]
  · exact gives_setReg (fun _ => rfl) fun c o => by rw [imm7_eq]
  · exact gives_setReg (fun _ => rfl) fun c o => by rw [shiftLeft_eq, if_pos (immCount_lt _), immCount_eq]; rfl
  · exact gives_setReg (fun _ => rfl) fun c o => by rw [ushiftRight_eq, if_pos (immCount_lt _), immCount_eq]; rfl
  · exact gives_setReg (fun _ => rfl) fun c o => by rw [sshiftRight_eq, if_pos (immCount_lt _), immCount_eq]; rfl
  · exact gives_setReg (fun _ => rfl) fun c _ => imm12_eq c j
  · exact gives_setReg (fun _ => rfl) fun c o => by rw [append_halves, toNat_uimm12]; cases c.imxs.getLast? <;> rfl

end Sys2Proof.Machine
end

section
/-! PROOF of O5: the floating units complete and write one value; the floating CMP writes its predicate. -/

namespace Sys2Proof.Machine
open Sys2Proof.Safety

variable {h : Hdr} {i : Instr} {n : Nat} {d : RegNo} {x y : FV} {cc : CC} {p q : ℚ}

theorem key_fpResult (n : Nat) (d : RegNo) (v : Nat) (g : Fibre) : (fpResult n d v g).key = g.key := by unfold fpResult; split <;> rfl
theorem key_setPred (g : Fibre) (d : PredNo) (b : Bool) : (g.setPred d b).key = g.key := rfl

/-- A unit that writes one floating value of its operands. -/
theorem gives_fpResult {v : Fibre → Nat} (he : ∀ s, exec i s = .next (resultUnit h (fun _ o g => fpResult n d (v o) g) s)) :
    Gives h i (fun _ o => fpResult n d (v o)) :=
  gives_of_resultUnit he (fun _ _ _ => key_fpResult ..) fun _ _ _ => rfl

/-! ### Comparison (R96) -/

theorem ccFp_nan (hxy : x = .nan ∨ y = .nan) : ccFp cc x y = decide (cc = .ne) := by
  rcases hxy with rfl | rfl
  · rfl
  · simp [ccFp]

/-- Two numbers compare as they are, so that -0 equals +0. -/
theorem ccFp_of_rational (hx : rational x = some p) (hy : rational y = some q) : ccFp cc x y =
    match cc with
    | .eq => decide (p = q)
    | .ne => decide (p ≠ q)
    | .lt => decide (p < q)
    | .ge => decide (p ≥ q) := by
  simp only [ccFp, isNan_of_rational hx, isNan_of_rational hy, Bool.or_self, Bool.false_eq_true, if_false, cmp_of_rational hx hy]
  rcases lt_trichotomy p q with hlt | rfl | hgt
  · rw [compare_lt_iff_lt.2 hlt]
    cases cc <;> simp [hlt, hlt.ne, not_le.2 hlt]
  · rw [compare_eq_iff_eq.2 rfl]
    cases cc <;> simp
  · rw [compare_gt_iff_gt.2 hgt]
    cases cc <;> simp [hgt.ne', hgt.le, not_lt.2 hgt.le]

/-- Settles O5. -/
theorem floatUnitsWrite : Obligations.FloatUnitsWrite := by
  unfold Obligations.FloatUnitsWrite
  refine ⟨fun h d a b t r => ?_, fun h d a b cc => ⟨⟨cmpValue .f32 cc a b, ?_, fun o => ?_⟩, cmpValue .f64 cc a b, ?_, fun o => ?_⟩⟩
  · have one {i : Instr} {v : Word → Nat} (he : ∀ s, exec i s = .next (resultUnit h (fun _ o g => g.setReg d (BitVec.ofNat 32 (v (o.reg a)))) s)) :
        Gives h i (fun _ o g => g.setReg d (BitVec.ofNat 32 (v (o.reg a)))) := gives_setReg he fun _ _ => rfl
    exact ⟨gives_fpResult fun _ => rfl, gives_fpResult fun _ => rfl, gives_fpResult fun _ => rfl, gives_fpResult fun _ => rfl, gives_fpResult fun _ => rfl,
      gives_fpResult fun _ => rfl, gives_fpResult fun _ => rfl, gives_fpResult fun _ => rfl, one fun _ => rfl, one fun _ => rfl, one fun _ => rfl,
      one fun _ => rfl, one fun _ => rfl, one fun _ => rfl, fun src dst sat => gives_fpResult fun _ => rfl⟩
  · exact gives_of_resultUnit (fun _ => rfl) (fun _ _ _ => key_setPred ..) fun _ _ _ => rfl
  · exact ⟨ccFp_nan, fun p q hp hq => (ccFp_of_rational hp hq).trans (by cases cc <;> rfl)⟩
  · exact gives_of_resultUnit (fun _ => rfl) (fun _ _ _ => key_setPred ..) fun _ _ _ => rfl
  · exact ⟨ccFp_nan, fun p q hp hq => (ccFp_of_rational hp hq).trans (by cases cc <;> rfl)⟩

end Sys2Proof.Machine
end

section
/-! SUPPORT. FP32 numbers and fixed-point values: how far rounding goes, what `Fx.near` says, and what `Fx.choose` delivers (R117). -/

namespace Sys2Proof.Machine
open Sys2Proof.Safety

variable {f : Fmt} {r : Rnd} {neg : Bool} {i j k m n v w : Nat} {e t : Int} {p q x X : ℚ} {y z : Fx}

/-! ### The error of rounding to nearest -/

/-- The numbers of a grid next to each other are multiples of one power of two. -/
theorem Fmt.exists_gap (f : Fmt) (j : Nat) : ∃ (n : Nat) (e : Int), n < 2 ^ (f.mb + 1) ∧ f.unit ≤ e ∧ f.grid j = n * 2 ^ e ∧ f.grid (j + 1) = (n + 1) * 2 ^ e := by
  obtain ⟨g, n, rfl, hn, hg⟩ := f.exists_binade j
  refine ⟨n, f.unit + g, hn, by omega, Fmt.grid_binade hn.le hg, ?_⟩
  rw [add_assoc, Fmt.grid_binade (by omega) (by omega)]
  push_cast
  rfl

theorem Fmt.exists_grid_le (hm : m ≤ 2 ^ (f.mb + 1)) (he : f.unit ≤ e) : ∃ k, f.grid k = m * 2 ^ e := by
  rcases hm.lt_or_eq with h | rfl
  · exact Fmt.exists_grid h he
  · obtain ⟨k, hk⟩ := Fmt.exists_grid (f := f) (m := 1) (e := e + f.mb + 1) (Nat.one_lt_two_pow (by omega)) (by omega)
    refine ⟨k, hk.trans ?_⟩
    rw [add_assoc, zpow_add₀ (by norm_num)]
    push_cast
    rw [← zpow_natCast]
    push_cast
    ring

/-- Rounding to nearest moves a magnitude below `2 ^ (e + mb + 1)` by half of `2 ^ e` at most. -/
theorem Fmt.Rounded.error (h : f.Rounded .rn neg X k) (hX : 0 ≤ X) (hlt : X < 2 ^ (e + f.mb + 1)) (he : f.unit ≤ e) : |f.grid k - X| ≤ 2 ^ e / 2 := by
  have h2 : (0 : ℚ) < 2 ^ e := by positivity
  obtain ⟨n, hn⟩ : ∃ n : Nat, round (X / 2 ^ e) = n :=
    Int.eq_ofNat_of_zero_le (by rw [round_eq]; exact Int.floor_nonneg.2 (by positivity))
  have hround := abs_sub_round (X / 2 ^ e)
  rw [hn, Int.cast_natCast] at hround
  have hn2 : n ≤ 2 ^ (f.mb + 1) := by
    have h1 : X / 2 ^ e < 2 ^ (f.mb + 1) := by
      rw [div_lt_iff₀ h2, ← zpow_natCast, ← zpow_add₀ (by norm_num)]
      push_cast
      rwa [show (f.mb : Int) + 1 + e = e + f.mb + 1 by ring]
    have h3 : (n : ℚ) < 2 ^ (f.mb + 1) + 1 := by linarith [(abs_le.1 hround).1]
    exact Nat.lt_succ_iff.1 (by exact_mod_cast h3)
  obtain ⟨i, hi⟩ := Fmt.exists_grid_le hn2 he
  calc |f.grid k - X| ≤ |f.grid i - X| := (h.nearest i).1
    _ = |X / 2 ^ e - n| * 2 ^ e := by
      rw [hi, ← abs_of_pos h2, ← abs_mul, abs_of_pos h2, sub_mul, div_mul_cancel₀ _ h2.ne', abs_sub_comm]
    _ ≤ 1 / 2 * 2 ^ e := by gcongr
    _ = 2 ^ e / 2 := by ring

/-! ### FP32 -/

theorem ieee_fmt32 : fmt32.Ieee := Fmt.ieee_of_mem (by decide)

theorem fmt32_unit : fmt32.unit = -149 := by decide

/-- The least magnitude that rounds to nearest beyond FP32: halfway past the largest finite value (R117). -/
def tie32 : ℚ := (2 - 2 ^ (-24 : Int)) * 2 ^ 127

theorem Fmt.Rounded.gt_maxBits32 (h : fmt32.Rounded .rn neg X k) : fmt32.maxBits < k ↔ tie32 ≤ X := by
  rw [h.gt_iff_of_nearest, ieee_fmt32.grid_tie, and_iff_left ieee_fmt32.maxBits_odd,
    show (2 - 2 ^ (-(fmt32.mb : Int) - 1)) * 2 ^ fmt32.bias = tie32 from rfl, le_iff_lt_or_eq]
  constructor <;> rintro (h | h) <;> [left; right; left; right] <;> linarith

theorem fmt32_overflows : fmt32.maxBits < fmt32.roundMag .rn neg m e ↔ tie32 ≤ m * 2 ^ e := (Fmt.roundMag_rounded ieee_fmt32.mb .rn neg m e).gt_maxBits32

theorem grid32_lt (hk : k ≤ fmt32.maxBits) : fmt32.grid k < tie32 := by
  have h := fmt32.grid_le.2 hk
  have h2 := fmt32.grid_lt.2 (Nat.lt_succ_self fmt32.maxBits)
  have h3 := ieee_fmt32.grid_tie
  rw [show (2 - 2 ^ (-(fmt32.mb : Int) - 1)) * 2 ^ fmt32.bias = tie32 from rfl] at h3
  linarith

theorem tie32_lt : tie32 < 2 ^ 128 := by norm_num [tie32]
theorem lt_tie32 : (2 : ℚ) ^ 127 < tie32 := by norm_num [tie32]

theorem signBit32_add_lt (neg : Bool) (hk : k < 2 ^ 31) : fmt32.signBit neg + k < 2 ^ 32 := by
  have : fmt32.signBit neg ≤ 2 ^ 31 := by cases neg <;> decide
  omega

/-- A finite operand of FP32 that is not zero: what its mantissa and exponent are. -/
structure Operand32 (neg : Bool) (m : Nat) (e : Int) (x : ℚ) : Prop where
  value : x = sgn neg * (m * 2 ^ e)
  pos : 0 < m
  mantissa : m < 2 ^ 24
  least : -149 ≤ e
  most : e ≤ 104
  magnitude : |x| = m * 2 ^ e
  range : (m : ℚ) * 2 ^ e < tie32

theorem two_zpow_lt {a b : Int} : (2 : ℚ) ^ a < 2 ^ b ↔ a < b := zpow_lt_zpow_iff_right₀ (by norm_num)
theorem two_zpow_le {a b : Int} : (2 : ℚ) ^ a ≤ 2 ^ b ↔ a ≤ b := zpow_le_zpow_iff_right₀ (by norm_num)

theorem operand32 (h : rational (fmt32.decode w) = some x) (hx : x ≠ 0) : ∃ neg m e, fmt32.decode w = .fin neg m e ∧ Operand32 neg m e x := by
  obtain ⟨neg, m, e, hd, rfl⟩ := exists_of_rational h
  obtain ⟨hw, -, hh⟩ := Fmt.of_decode_fin hd
  have hm : 0 < m := Nat.pos_of_ne_zero fun h0 => hx (by rw [h0]; simp)
  have hr : (m : ℚ) * 2 ^ e < tie32 := hh.value ▸ grid32_lt hw
  refine ⟨neg, m, e, hd, rfl, hm, hh.mantissa, hh.exponent, ?_, by rw [abs_sgn_mul, abs_of_nonneg (by positivity)], hr⟩
  rcases hh.normal with h1 | h1
  · rw [h1, fmt32_unit]; norm_num
  · have : (2 : ℚ) ^ (23 + e : Int) < 2 ^ (128 : Int) := by
      rw [zpow_add₀ (by norm_num)]
      have : (2 : ℚ) ^ (23 : Int) ≤ m := by exact_mod_cast h1
      calc (2 : ℚ) ^ (23 : Int) * 2 ^ e ≤ m * 2 ^ e := by gcongr
        _ < 2 ^ (128 : Int) := hr.trans tie32_lt
    have := two_zpow_lt.1 this
    omega

/-- A magnitude of FP32 that is at least `2 ^ c` is a multiple of `2 ^ (c - 23)`. -/
theorem exists_multiple32 (h : rational (fmt32.decode w) = some x) {c : Int} (hc : 2 ^ c ≤ |x|) : ∃ a : Int, x = a * 2 ^ (c - 23) := by
  have hx : x ≠ 0 := fun h0 => by
    have h2 : (0 : ℚ) < 2 ^ c := by positivity
    rw [h0, abs_zero] at hc
    linarith
  obtain ⟨neg, m, e, -, ho⟩ := operand32 h hx
  have hce : c < 24 + e := by
    rw [← two_zpow_lt, zpow_add₀ (by norm_num)]
    have : (m : ℚ) < 2 ^ (24 : Int) := by exact_mod_cast ho.mantissa
    calc (2 : ℚ) ^ c ≤ m * 2 ^ e := ho.magnitude ▸ hc
      _ < 2 ^ (24 : Int) * 2 ^ e := by gcongr
  obtain ⟨d, hd⟩ : ∃ d : Nat, e = c - 23 + d := ⟨(e - (c - 23)).toNat, by omega⟩
  refine ⟨(if neg then -1 else 1) * (m * 2 ^ d), ?_⟩
  rw [ho.value, hd, zpow_add₀ (by norm_num) _ (d : Int), zpow_natCast]
  push_cast
  cases neg <;> simp only [sgn_true, sgn_false, if_true, Bool.false_eq_true, if_false] <;> ring

/-! ### Fixed-point values -/

/-- The number that a fixed-point value is. -/
def Fx.val (y : Fx) : ℚ := y.y * 2 ^ y.sc

theorem fxOf_eq_some (h : rational (fmt32.decode w) = some x) : ∃ f, fxOf w = some f ∧ f.val = x := by
  obtain ⟨neg, m, e, hd, rfl⟩ := exists_of_rational h
  refine ⟨_, by rw [fxOf, hd], ?_⟩
  cases neg <;> simp [Fx.val]

theorem rational_of_fxOf {f : Fx} (h : fxOf w = some f) : rational (fmt32.decode w) = some f.val := by
  unfold fxOf at h
  split at h
  · next neg m e hd =>
    rw [hd, rational_fin, ← Option.some.inj h]
    cases neg <;> simp [Fx.val]
  · cases h
  · cases h

/-- `Fx.near` compares exactly. -/
theorem Fx.near_iff (v y : Fx) (k : Nat) (t : Int) : v.near y k t = true ↔ |v.val - y.val| ≤ k * 2 ^ t := by
  unfold Fx.near
  set lo := min (min v.sc y.sc) t
  have h2 : (0 : ℚ) < 2 ^ lo := by positivity
  have hs (c : Int) (hc : lo ≤ c) : (2 : ℚ) ^ c = 2 ^ (c - lo).toNat * 2 ^ lo := by
    rw [← zpow_natCast, Int.toNat_of_nonneg (by omega), ← zpow_add₀ (by norm_num), sub_add_cancel]
  rw [Fx.val, Fx.val, hs v.sc (by omega), hs y.sc (by omega), hs t (by omega), ← mul_assoc, ← mul_assoc, ← mul_assoc, ← sub_mul, abs_mul, abs_of_pos h2,
    mul_le_mul_iff_left₀ h2, decide_eq_true_eq, ← Int.ofNat_le, Int.natCast_natAbs]
  rw [← Int.cast_le (R := ℚ)]
  push_cast
  rfl

/-- The magnitude is below the next power of two after its exponent (R117). -/
theorem Fx.abs_val_lt (y : Fx) : |y.val| < 2 ^ (y.expo + 1) := by
  have h : (y.y.natAbs : ℚ) < 2 ^ ((Nat.log2 y.y.natAbs : Int) + 1) := by exact_mod_cast Nat.lt_log2_self
  calc |y.val| = y.y.natAbs * 2 ^ y.sc := by rw [Fx.val, abs_mul, abs_of_pos (by positivity : (0 : ℚ) < 2 ^ y.sc), Nat.cast_natAbs, Int.cast_abs]
    _ < 2 ^ ((Nat.log2 y.y.natAbs : Int) + 1) * 2 ^ y.sc := by gcongr
    _ = 2 ^ ((Nat.log2 y.y.natAbs : Int) + 1 + y.sc) := (zpow_add₀ (by norm_num) ..).symm
    _ ≤ 2 ^ (y.expo + 1) := two_zpow_le.2 (by unfold Fx.expo; omega)

/-- The exponent is that of the magnitude, where it is not the least one. -/
theorem Fx.expo_le (hy : y.y ≠ 0) {c : Int} (hc : |y.val| < 2 ^ (c + 1)) (h126 : -126 ≤ c) : y.expo ≤ c := by
  have h : (2 : ℚ) ^ (Nat.log2 y.y.natAbs : Int) ≤ y.y.natAbs := by exact_mod_cast Nat.log2_self_le (Int.natAbs_ne_zero.2 hy)
  have hlt : (2 : ℚ) ^ ((Nat.log2 y.y.natAbs : Int) + y.sc) < 2 ^ (c + 1) := by
    refine lt_of_le_of_lt ?_ hc
    rw [Fx.val, abs_mul, abs_of_pos (by positivity : (0 : ℚ) < 2 ^ y.sc), ← Int.cast_abs, ← Nat.cast_natAbs, zpow_add₀ (by norm_num)]
    gcongr
  have := two_zpow_lt.1 hlt
  unfold Fx.expo
  omega

/-! ### Rounded and chosen values -/

/-- `v` is the bits of a finite FP32 number of which `P` holds. -/
def Value32 (v : Nat) (P : ℚ → Prop) : Prop := v < 2 ^ 32 ∧ ∃ x, rational (fmt32.decode v) = some x ∧ P x

theorem Value32.imp {P Q : ℚ → Prop} (h : Value32 v P) (hPQ : ∀ x, P x → Q x) : Value32 v Q := by
  obtain ⟨hv, x, hx, hP⟩ := h
  exact ⟨hv, x, hx, hPQ x hP⟩

/-- A magnitude below the tie is packed as a finite number. -/
theorem value32_pack (hlt : (m : ℚ) * 2 ^ e < tie32) (neg : Bool) : Value32 (fmt32.pack .rn (.fin neg m e)) fun x =>
    x = sgn neg * fmt32.grid (fmt32.roundMag .rn neg m e) := by
  have hk : fmt32.roundMag .rn neg m e ≤ fmt32.maxBits := not_lt.1 (mt fmt32_overflows.1 (not_le.2 hlt))
  refine ⟨?_, _, Fmt.rational_pack ieee_fmt32.toSound hk, rfl⟩
  rw [Fmt.pack_fin_of_le hk]
  exact signBit32_add_lt neg (hk.trans_lt ieee_fmt32.bits)

/-- A number that FP32 has is packed as it is. -/
theorem value32_pack_exact (hlt : (m : ℚ) * 2 ^ e < tie32) (hg : fmt32.grid k = m * 2 ^ e) (neg : Bool) :
    Value32 (fmt32.pack .rn (.fin neg m e)) fun x => x = sgn neg * (m * 2 ^ e) := by
  refine (value32_pack hlt neg).imp fun x hx => ?_
  have h := Fmt.roundMag_rounded ieee_fmt32.mb .rn neg m e
  rw [← hg] at h
  rw [hx, h.exact, hg]

theorem Fx.natAbs_value (y : Fx) : (y.y.natAbs : ℚ) * 2 ^ y.sc = |y.val| := by
  rw [Fx.val, abs_mul, abs_of_pos (by positivity : (0 : ℚ) < 2 ^ y.sc), Nat.cast_natAbs, Int.cast_abs]

theorem Fx.sgn_mul_abs (y : Fx) : sgn (decide (y.y < 0)) * |y.val| = y.val := by
  have h := rational_signed y.y y.sc
  rw [rational_fin, Option.some_inj, y.natAbs_value] at h
  exact h

/-- The nearest FP32 number is within half an ULP. -/
theorem Fx.value_round (hlt : |y.val| < tie32) : Value32 y.round fun x => |x - y.val| ≤ 2 ^ (y.expo - 23) / 2 := by
  refine (value32_pack (by rwa [y.natAbs_value]) _).imp fun x hx => ?_
  have h := Fmt.roundMag_rounded ieee_fmt32.mb .rn (decide (y.y < 0)) y.y.natAbs y.sc
  rw [y.natAbs_value] at h
  rw [hx]
  conv_lhs => rw [← y.sgn_mul_abs, ← mul_sub, abs_sgn_mul]
  refine h.error (abs_nonneg _) ?_ (by rw [fmt32_unit]; unfold Fx.expo; omega)
  rw [show y.expo - 23 + (fmt32.mb : Int) + 1 = y.expo + 1 by norm_num [fmt32]]
  exact y.abs_val_lt

/-- A number that FP32 has is rounded to itself. -/
theorem Fx.round_exact (hlt : |y.val| < tie32) (hg : fmt32.grid k = |y.val|) : Value32 y.round fun x => x = y.val := by
  refine (value32_pack_exact (by rwa [y.natAbs_value]) (by rwa [y.natAbs_value]) _).imp fun x hx => ?_
  rw [hx, y.natAbs_value, y.sgn_mul_abs]

/-- `v` is the bits of a number within `k` ULP of `y`, or within `2 ^ t` where `abs` gives t (R117). -/
def Within (v : Nat) (y : Fx) (k : Nat) (abs : Option Int) : Prop := Value32 v fun x => |x - y.val| ≤ k * 2 ^ (y.expo - 23) ∨ ∃ t, abs = some t ∧ |x - y.val| ≤ 2 ^ t

theorem Fx.within_round (hlt : |y.val| < tie32) (hk : 1 ≤ k) (abs : Option Int) : Within y.round y k abs := by
  refine (Fx.value_round hlt).imp fun x hx => .inl (hx.trans ?_)
  have h2 : (0 : ℚ) < 2 ^ (y.expo - 23) := by positivity
  have : (1 : ℚ) ≤ k := by exact_mod_cast hk
  nlinarith

theorem Fx.within_choose (hlt : |y.val| < tie32) (hk : 1 ≤ k) (w : Word) (abs : Option Int) : Within (y.choose w k abs) y k abs := by
  unfold Fx.choose
  split
  · next f hf =>
    split_ifs with h
    · refine ⟨w.isLt, f.val, rational_of_fxOf hf, ?_⟩
      rw [Bool.or_eq_true, Fx.near_iff] at h
      refine h.imp id fun h => ?_
      cases abs with
      | none => cases h
      | some t => exact ⟨t, rfl, by simpa [Fx.near_iff] using h⟩
    · exact Fx.within_round hlt hk abs
  · exact Fx.within_round hlt hk abs

/-- What the statement of R117 says of a chosen value. -/
theorem Within.near {abs : Option Int} (h : Within v y k abs) :
    ∃ f, fxOf v = some f ∧ (f.near y k (y.expo - 23) = true ∨ ∃ t, abs = some t ∧ f.near y 1 t = true) := by
  obtain ⟨-, x, hx, hn⟩ := h
  obtain ⟨f, hf, rfl⟩ := fxOf_eq_some hx
  refine ⟨f, hf, ?_⟩
  simp only [Fx.near_iff, Nat.cast_one, one_mul]
  exact hn

theorem Within.of_none (h : Within v y k none) : Value32 v fun x => |x - y.val| ≤ k * 2 ^ (y.expo - 23) :=
  h.imp fun _ hx => hx.resolve_right (by rintro ⟨t, ht, -⟩; cases ht)

end Sys2Proof.Machine
end

section
/-! SUPPORT. FRCP and FRSQ (R117). The model evaluates both in fixed point, rounded down. An FP32 number that is within the bound of the
evaluation is within the bound of the exact value too: a number that lies just one bound below it would make the evaluation a multiple
of a large power of two, and then it is exact (`near_exact`). -/

namespace Sys2Proof.Machine
open Sys2Proof.Safety

variable {f : Fmt} {r : Rnd} {neg : Bool} {k m n v w K : Nat} {e s t : Int} {p q x X : ℚ}

/-! ### From an evaluation rounded down to the exact value -/

/-- `Z` lies in the unit that begins at `K`; an FP32 number `x` near `K` units is as near to `Z` units. -/
theorem near_exact {Z : ℝ} {c : Nat} (hx : rational (fmt32.decode v) = some x) (hlo : (K : ℝ) ≤ Z) (hhi : Z < K + 1)
    (hc : 24 ≤ c) (hK : 2 ^ c ≤ K) (ht : s + c - 23 ≤ t) (hsmall : (k : ℚ) * 2 ^ t ≤ K * 2 ^ s / 2) (hgap : 2 ^ (c - 24) ∣ K → (K : ℝ) = Z)
    (hnear : |x - sgn neg * (K * 2 ^ s)| ≤ k * 2 ^ t) : |(x : ℝ) - (sgn neg : ℚ) * (Z * 2 ^ s)| ≤ k * 2 ^ t := by
  -- without the sign
  obtain ⟨x', hx'⟩ : ∃ x', x = sgn neg * x' := ⟨sgn neg * x, by cases neg <;> simp⟩
  have hs : (0 : ℝ) < 2 ^ s := by positivity
  rw [hx', abs_sgn_mul_sub] at hnear
  have hreal : |(x : ℝ) - (sgn neg : ℚ) * (Z * 2 ^ s)| = |(x' : ℝ) - Z * 2 ^ s| := by
    rw [hx']
    cases neg
    · simp
    · rw [sgn_true]; push_cast; rw [← abs_neg]; ring_nf
  rw [hreal]
  obtain ⟨hdown, hup⟩ := abs_le.1 hnear
  have hdown' := (Rat.cast_le (K := ℝ)).2 hdown
  have hup' := (Rat.cast_le (K := ℝ)).2 hup
  push_cast at hdown' hup'
  have hmono : (K : ℝ) * 2 ^ s ≤ Z * 2 ^ s := by gcongr
  rw [abs_le]
  refine ⟨?_, by linarith⟩
  by_contra hlt
  rw [not_le] at hlt
  -- both the number and the bound are multiples of `2 ^ (c - 24)` units
  obtain ⟨a, ha⟩ : ∃ a : Int, x' = a * 2 ^ (c - 24) * 2 ^ s := by
    have hbig : (2 : ℚ) ^ (c + s - 1 : Int) ≤ |x| := by
      rw [hx', abs_sgn_mul, zpow_sub₀ (by norm_num), zpow_add₀ (by norm_num), zpow_one]
      have : (2 : ℚ) ^ (c : Int) ≤ K := by exact_mod_cast hK
      calc (2 : ℚ) ^ (c : Int) * 2 ^ s / 2 ≤ K * 2 ^ s / 2 := by gcongr
        _ ≤ x' := by linarith
        _ ≤ |x'| := le_abs_self _
    obtain ⟨a, ha⟩ := exists_multiple32 hx hbig
    refine ⟨(if neg then -1 else 1) * a, ?_⟩
    have he : (2 : ℚ) ^ (c + s - 1 - 23 : Int) = 2 ^ (c - 24) * 2 ^ s := by
      rw [← zpow_natCast, ← zpow_add₀ (by norm_num)]
      congr 1
      omega
    have : x' = sgn neg * x := by rw [hx']; cases neg <;> simp
    rw [this, ha, he]
    cases neg <;> push_cast <;> simp [mul_assoc]
  obtain ⟨b, hb⟩ : ∃ b : Nat, (2 : ℚ) ^ t = b * 2 ^ (c - 24) * 2 ^ s := by
    refine ⟨2 ^ (t - s - (c - 24 : Nat)).toNat, ?_⟩
    push_cast
    rw [← zpow_natCast, ← zpow_natCast, ← zpow_add₀ (by norm_num), ← zpow_add₀ (by norm_num)]
    congr 1
    omega
  have hsum : (x' : ℝ) + k * 2 ^ t = (((a + k * b) * 2 ^ (c - 24) : Int) : ℝ) * 2 ^ s := by
    have : x' + k * 2 ^ t = (((a + k * b) * 2 ^ (c - 24) : Int) : ℚ) * 2 ^ s := by rw [ha, hb]; push_cast; ring
    have := congrArg (fun q : ℚ => (q : ℝ)) this
    push_cast at this ⊢
    exact this
  have h1 : (K : ℝ) ≤ (((a + k * b) * 2 ^ (c - 24) : Int) : ℝ) := le_of_mul_le_mul_right (by rw [← hsum]; linarith) hs
  have h2 : (((a + k * b) * 2 ^ (c - 24) : Int) : ℝ) < Z := lt_of_mul_lt_mul_right (by rw [← hsum]; linarith) hs.le
  have h3 : ((a + k * b) * 2 ^ (c - 24) : Int) = K := by
    have h4 : ((K : Int) : ℝ) ≤ (((a + k * b) * 2 ^ (c - 24) : Int) : ℝ) := by exact_mod_cast h1
    have h5 : (((a + k * b) * 2 ^ (c - 24) : Int) : ℝ) < ((K + 1 : Int) : ℝ) := by push_cast at h2 ⊢; linarith
    have h4 := Int.cast_le.1 h4
    have h5 := Int.cast_lt.1 h5
    omega
  rw [h3] at h2
  have hdvd : 2 ^ (c - 24) ∣ K := by
    have : ((2 ^ (c - 24) : Nat) : Int) ∣ (K : Int) := ⟨a + k * b, by rw [← h3]; push_cast; ring⟩
    exact_mod_cast this
  have := hgap hdvd
  push_cast at h2
  linarith

/-- The exponent of one ULP of R117. -/
noncomputable def ulpExp (y : ℝ) : Int := max (Int.log 2 |y|) (-126) - 23

theorem lt_ulpExp (y : ℝ) : |y| < 2 ^ (ulpExp y + 24) := by
  have h := Int.lt_zpow_succ_log_self (b := 2) (by norm_num) |y|
  refine h.trans_le ?_
  push_cast
  exact zpow_le_zpow_right₀ (by norm_num) (by unfold ulpExp; omega)

/-- The exponent of an evaluation that does not exceed the exact value does not exceed its. -/
theorem Fx.expo_le_ulpExp {y : Fx} (hy : y.y ≠ 0) {Y : ℝ} (h : |(y.val : ℝ)| ≤ |Y|) : y.expo - 23 ≤ ulpExp Y := by
  have h1 : |y.val| < 2 ^ (ulpExp Y + 23 + 1) := by
    have : |(y.val : ℝ)| < 2 ^ (ulpExp Y + 23 + 1) := h.trans_lt (by rw [add_assoc]; exact lt_ulpExp Y)
    refine (Rat.cast_lt (K := ℝ)).1 ?_
    push_cast
    exact this
  have := Fx.expo_le hy h1 (by unfold ulpExp; omega)
  omega

/-- One ULP of an evaluation that is not far below the normal numbers is a small part of it. -/
theorem Fx.ulp_le {y : Fx} (h : 2 ^ (-128 : Int) ≤ |y.val|) : (2 : ℚ) ^ (y.expo - 23) ≤ |y.val| / 4 := by
  have hpos : 0 < |y.val| := lt_of_lt_of_le (by positivity) h
  have hlo : (2 : ℚ) ^ Int.log 2 |y.val| ≤ |y.val| := by exact_mod_cast Int.zpow_log_le_self (b := 2) (by norm_num) hpos
  have hhi : |y.val| < (2 : ℚ) ^ (Int.log 2 |y.val| + 1) := by exact_mod_cast Int.lt_zpow_succ_log_self (b := 2) (by norm_num) |y.val|
  have hL := two_zpow_lt.1 (h.trans_lt hhi)
  have hy : y.y ≠ 0 := fun h0 => by
    rw [Fx.val, h0, Int.cast_zero, zero_mul, abs_zero] at hpos
    exact lt_irrefl _ hpos
  have he : y.expo ≤ max (Int.log 2 |y.val|) (-126) := Fx.expo_le hy (hhi.trans_le (two_zpow_le.2 (by omega))) (le_max_right ..)
  calc (2 : ℚ) ^ (y.expo - 23) ≤ 2 ^ (Int.log 2 |y.val| - 2) := two_zpow_le.2 (by omega)
    _ = 2 ^ Int.log 2 |y.val| / 4 := by rw [zpow_sub₀ (by norm_num)]; norm_num
    _ ≤ |y.val| / 4 := by gcongr

/-- An FP32 number within some ULP of an evaluation of `K` units is within as many ULP of an exact value of `Z` units. -/
theorem Fx.near_exact {y : Fx} {Z : ℝ} {c : Nat} (hx : rational (fmt32.decode v) = some x) (hy : y.val = sgn neg * (K * 2 ^ s)) (hlo : (K : ℝ) ≤ Z) (hhi : Z < K + 1)
    (hc : 24 ≤ c) (hK : 2 ^ c ≤ K) (hs : -128 ≤ s + c) (hk : k ≤ 2) (hgap : 2 ^ (c - 24) ∣ K → (K : ℝ) = Z)
    (hnear : |x - y.val| ≤ k * 2 ^ (y.expo - 23)) : |(x : ℝ) - (sgn neg : ℚ) * (Z * 2 ^ s)| ≤ k * 2 ^ ulpExp ((sgn neg : ℚ) * (Z * 2 ^ s)) := by
  have habs : |y.val| = K * 2 ^ s := by rw [hy, abs_sgn_mul, abs_of_nonneg (by positivity)]
  have hbig : (2 : ℚ) ^ (s + c) ≤ |y.val| := by
    rw [habs, add_comm, zpow_add₀ (by norm_num), zpow_natCast]
    have : (2 : ℚ) ^ c ≤ K := by exact_mod_cast hK
    gcongr
  have hexp : s + c < y.expo + 1 := two_zpow_lt.1 (hbig.trans_lt y.abs_val_lt)
  have hulp := Fx.ulp_le (y := y) ((two_zpow_le.2 hs).trans hbig)
  have hk2 : (k : ℚ) ≤ 2 := by exact_mod_cast hk
  have hsmall : (k : ℚ) * 2 ^ (y.expo - 23) ≤ K * 2 ^ s / 2 := by
    rw [← habs]
    calc (k : ℚ) * 2 ^ (y.expo - 23) ≤ 2 * (|y.val| / 4) := by gcongr
      _ = |y.val| / 2 := by ring
  have hyy : y.y ≠ 0 := fun h0 => by
    rw [Fx.val, h0, Int.cast_zero, zero_mul, abs_zero] at hbig
    exact absurd hbig (not_le.2 (by positivity))
  have hle : |(y.val : ℝ)| ≤ |((sgn neg : ℚ) : ℝ) * (Z * 2 ^ s)| := by
    have h1 : |(y.val : ℝ)| = K * 2 ^ s := by
      have := congrArg (fun q : ℚ => (q : ℝ)) habs
      push_cast at this
      exact this
    have h2 : |((sgn neg : ℚ) : ℝ) * (Z * 2 ^ s)| = |Z * 2 ^ s| := by cases neg <;> simp
    rw [h1, h2]
    refine le_trans ?_ (le_abs_self _)
    gcongr
  rw [hy] at hnear
  refine (Machine.near_exact hx hlo hhi hc hK (by omega) hsmall hgap hnear).trans ?_
  have := Fx.expo_le_ulpExp hyy hle
  gcongr
  norm_num

/-! ### A quotient with a bit below it -/

/-- A half unit above `K` stands for any place between `K` and `K + 1`, as far as integers can tell. -/
theorem le_sticky {Z : ℚ} {d J : Nat} (h : d = 0 ∧ Z = K ∨ d = 1 ∧ (K : ℚ) < Z ∧ Z < K + 1) :
    ((J : ℚ) ≤ K + d / 2 ↔ (J : ℚ) ≤ Z) ∧ ((K : ℚ) + d / 2 ≤ J ↔ Z ≤ J) := by
  obtain ⟨rfl, rfl⟩ | ⟨rfl, h1, h2⟩ := h
  · simp
  · rcases Nat.lt_or_ge K J with hJ | hJ
    · have : (K : ℚ) + 1 ≤ J := by exact_mod_cast hJ
      push_cast
      refine ⟨⟨fun h => ?_, fun h => ?_⟩, fun _ => ?_, fun _ => ?_⟩ <;> linarith
    · have : (J : ℚ) ≤ K := by exact_mod_cast hJ
      push_cast
      refine ⟨⟨fun _ => ?_, fun _ => ?_⟩, fun h => ?_, fun h => ?_⟩ <;> linarith

/-- A quotient rounded down to a whole number of small units, with one bit below for what is left, rounds as the quotient does. -/
theorem Fmt.Rounded.of_sticky {Z : ℚ} {d : Nat} (h : f.Rounded r neg ((2 * K + d : Nat) * 2 ^ (s - 1)) k)
    (hd : d = 0 ∧ Z = K ∨ d = 1 ∧ (K : ℚ) < Z ∧ Z < K + 1) (hK : 2 ^ (f.mb + 2) ≤ K) : f.Rounded r neg (Z * 2 ^ s) k := by
  obtain ⟨j, hlo, hhi, rfl⟩ := h
  obtain ⟨n, e, hn, -, h0, h1⟩ := f.exists_gap j
  have h2 : (0 : ℚ) < 2 ^ s := by positivity
  have hS : ((2 * K + d : Nat) : ℚ) * 2 ^ (s - 1) = (K + d / 2) * 2 ^ s := by
    rw [zpow_sub₀ (by norm_num), zpow_one]
    push_cast
    ring
  -- the grid is coarse there
  have hes : s + 1 < e := by
    have hn' : (n : ℚ) + 1 ≤ 2 ^ ((f.mb : Int) + 1) := by exact_mod_cast hn
    have hK' : (2 : ℚ) ^ ((f.mb : Int) + 2) ≤ K := by exact_mod_cast hK
    have : (2 : ℚ) ^ ((f.mb : Int) + 2 + s) < 2 ^ ((f.mb : Int) + 1 + e) := by
      rw [zpow_add₀ (by norm_num), zpow_add₀ (by norm_num) _ e]
      calc (2 : ℚ) ^ ((f.mb : Int) + 2) * 2 ^ s ≤ (K + d / 2) * 2 ^ s := by gcongr; linarith [show (0 : ℚ) ≤ d / 2 by positivity]
        _ < (n + 1) * 2 ^ e := by rw [← hS, ← h1]; exact hhi
        _ ≤ 2 ^ ((f.mb : Int) + 1) * 2 ^ e := by gcongr
    have := two_zpow_lt.1 this
    omega
  obtain ⟨c, hc⟩ : ∃ c : Nat, e = s + (c + 1) := ⟨(e - s - 1).toNat, by omega⟩
  have hlo' : f.grid j = ((n * 2 ^ (c + 1) : Nat) : ℚ) * 2 ^ s := by
    rw [h0, hc, zpow_add₀ (by norm_num)]; push_cast; rw [← zpow_natCast]; push_cast; ring
  have hhi' : f.grid (j + 1) = (((n + 1) * 2 ^ (c + 1) : Nat) : ℚ) * 2 ^ s := by
    rw [h1, hc, zpow_add₀ (by norm_num)]; push_cast; rw [← zpow_natCast]; push_cast; ring
  have hmid : f.grid j + f.grid (j + 1) = 2 * (((2 * n + 1) * 2 ^ c : Nat) * 2 ^ s) := by
    rw [hlo', hhi']; push_cast; ring
  have scale {a b : ℚ} : a * 2 ^ s ≤ b * 2 ^ s ↔ a ≤ b := mul_le_mul_iff_left₀ h2
  have le1 (J : Nat) : (J : ℚ) * 2 ^ s ≤ (K + d / 2) * 2 ^ s ↔ (J : ℚ) * 2 ^ s ≤ Z * 2 ^ s := by rw [scale, scale]; exact (le_sticky hd).1
  have le2 (J : Nat) : ((K : ℚ) + d / 2) * 2 ^ s ≤ J * 2 ^ s ↔ Z * 2 ^ s ≤ J * 2 ^ s := by rw [scale, scale]; exact (le_sticky hd).2
  rw [hS] at hlo hhi ⊢
  refine ⟨j, ?_, ?_, roundPick_congr _ _ _ ?_ ?_ ?_⟩
  · rw [hlo'] at hlo ⊢
    exact (le1 _).1 hlo
  · rw [hhi'] at hhi ⊢
    exact not_le.1 (mt (le1 _).2 (not_le.2 hhi))
  · rw [hlo', le_antisymm_iff, le_antisymm_iff, le1, le2]
  · rw [hmid, mul_lt_mul_iff_right₀ two_pos, mul_lt_mul_iff_right₀ two_pos, ← not_le, ← not_le, not_iff_not]
    exact le2 _
  · rw [hmid, mul_lt_mul_iff_right₀ two_pos, mul_lt_mul_iff_right₀ two_pos, ← not_le, ← not_le, not_iff_not]
    exact le1 _

end Sys2Proof.Machine
end

section
/-! SUPPORT. FRCP (R117): the exact reciprocal rounded once, where it is a power of two, far from 1 or infinite, and else a value within one
ULP of an evaluation to 260 bits. -/

namespace Sys2Proof.Machine
open Sys2Proof.Safety

variable {neg : Bool} {k m n v w : Nat} {a : Word} {e : Int} {p : Int} {x : ℚ}

/-! ### Powers of two -/

/-- A magnitude is a power of two where its mantissa is one. -/
theorem pow2?_eq_some (hm : 0 < m) : pow2? m e = some p ↔ (m : ℚ) * 2 ^ e = 2 ^ p := by
  have h2 : ∀ c : Nat, (2 : ℚ) ^ c * 2 ^ e = 2 ^ (c + e : Int) := fun c => by rw [zpow_add₀ (by norm_num), zpow_natCast]
  unfold pow2?
  constructor
  · intro h
    split_ifs at h with hl
    rw [← Option.some.inj h, ← h2]
    congr 1
    exact_mod_cast hl
  · intro h
    obtain ⟨c, hc⟩ : ∃ c : Nat, p = c + e := by
      have h1 : (2 : ℚ) ^ e ≤ 2 ^ p := by
        rw [← h]
        exact le_mul_of_one_le_left (by positivity) (by exact_mod_cast hm)
      exact ⟨(p - e).toNat, by have := two_zpow_le.1 h1; omega⟩
    have hmc : m = 2 ^ c := by
      rw [hc, ← h2] at h
      exact_mod_cast mul_right_cancel₀ (by positivity) h
    rw [hmc, Nat.log2_two_pow, if_pos rfl, hc]

/-- FP32 has every power of two from its least subnormal one on. -/
theorem exists_grid32_two_zpow {c : Int} (hc : -149 ≤ c) : ∃ k, fmt32.grid k = (2 : ℚ) ^ c := by
  obtain ⟨k, hk⟩ := Fmt.exists_grid (f := fmt32) (m := 1) (e := c) (by decide) (by rwa [fmt32_unit])
  exact ⟨k, by rw [hk]; simp⟩

/-- A magnitude as a whole number of small units. -/
theorem natCast_mul_two_pow (c : Nat) (he : -(c : Int) ≤ e) : ((m * 2 ^ (e + c).toNat : Nat) : ℚ) = m * 2 ^ e * 2 ^ c := by
  push_cast
  rw [mul_assoc, ← zpow_natCast, ← zpow_natCast, ← zpow_add₀ (by norm_num), Int.toNat_of_nonneg (by omega)]

/-- A test of the model on a magnitude, by whole numbers. -/
theorem mul_two_pow_lt_iff (he : -149 ≤ e) (c : Nat) : 2 ^ (c + 149) < m * 2 ^ (e + 149).toNat ↔ (2 : ℚ) ^ c < m * 2 ^ e := by
  rw [← mul_lt_mul_iff_left₀ (by positivity : (0 : ℚ) < 2 ^ 149), ← natCast_mul_two_pow 149 he, ← pow_add]
  exact_mod_cast Iff.rfl

/-! ### The evaluation of FRCP -/

/-- The reciprocal of a mantissa, rounded down to 260 bits. -/
def recip (m : Nat) : Nat := 2 ^ 260 / m

/-- The evaluation of the reciprocal. -/
def frcpFx (neg : Bool) (m : Nat) (e : Int) : Fx := ⟨(if neg then -1 else 1) * (recip m : Int), -260 - e⟩

/-- The exact reciprocal, rounded once. -/
def frcpOnce (neg : Bool) (m : Nat) (e : Int) : Nat := fmt32.pack .rn (.fin neg (2 * recip m + (if 2 ^ 260 % m = 0 then 0 else 1)) (-261 - e))

theorem frcpValue_fin (hd : fmt32.decode a.toNat = .fin neg m e) (hm : 0 < m) : frcpValue a =
    if (pow2? m e).isSome ∨ 2 ^ 275 < m * 2 ^ (e + 149).toNat ∨ frcpOnce neg m e % 2 ^ 31 = inf32 then frcpOnce neg m e
    else (frcpFx neg m e).choose (Config.frcp a) 1 none := by
  rw [ite_or, ite_or, frcpValue, hd]
  simp only [if_neg hm.ne', gt_iff_lt]
  rfl

section
variable (ho : Operand32 neg m e x)
include ho

/-- The quotient and what is left of it. -/
theorem Operand32.recip_floor : (recip m : ℚ) ≤ 2 ^ 260 / m ∧ (2 : ℚ) ^ 260 / m < recip m + 1 ∧ ((recip m : ℚ) = 2 ^ 260 / m ↔ 2 ^ 260 % m = 0) := by
  have hm : (0 : ℚ) < m := by exact_mod_cast ho.pos
  have h : m * recip m + 2 ^ 260 % m = 2 ^ 260 := Nat.div_add_mod (2 ^ 260) m
  have hlt := Nat.mod_lt (2 ^ 260) ho.pos
  generalize 2 ^ 260 % m = d at *
  have hq : (2 : ℚ) ^ 260 / m = recip m + d / m := by
    rw [div_eq_iff hm.ne', add_mul, div_mul_cancel₀ _ hm.ne', mul_comm]
    exact_mod_cast h.symm
  have hd : (d : ℚ) / m < 1 := (div_lt_one hm).2 (by exact_mod_cast hlt)
  rw [hq]
  exact ⟨by linarith [show (0 : ℚ) ≤ d / m by positivity], by linarith, by simp [hm.ne']⟩

theorem Operand32.recip_ge : 2 ^ 236 ≤ recip m := by
  unfold recip
  rw [Nat.le_div_iff_mul_le ho.pos]
  calc 2 ^ 236 * m ≤ 2 ^ 236 * 2 ^ 24 := Nat.mul_le_mul_left _ ho.mantissa.le
    _ = 2 ^ 260 := (pow_add 2 236 24).symm

/-- A quotient that ends in many zeros is exact: what is left is smaller than the mantissa. -/
theorem Operand32.recip_exact (h : 2 ^ 212 ∣ recip m) : 2 ^ 260 % m = 0 := by
  have hd : m * recip m + 2 ^ 260 % m = 2 ^ 260 := Nat.div_add_mod (2 ^ 260) m
  have h1 : 2 ^ 212 ∣ 2 ^ 260 % m :=
    (Nat.dvd_add_right (h.mul_left m)).1 (by rw [hd]; exact Nat.pow_dvd_pow 2 (by norm_num : 212 ≤ 260))
  exact Nat.eq_zero_of_dvd_of_lt h1 ((Nat.mod_lt _ ho.pos).trans (ho.mantissa.trans (Nat.pow_lt_pow_right (by norm_num) (by norm_num))))

/-- The exact reciprocal in the units of the evaluation. -/
theorem Operand32.inv_eq : x⁻¹ = sgn neg * ((2 : ℚ) ^ 260 / m * 2 ^ (-260 - e)) := by
  have hm : (m : ℚ) ≠ 0 := by exact_mod_cast ho.pos.ne'
  have h2 : (2 : ℚ) ^ 260 * 2 ^ (-260 - e) = (2 ^ e)⁻¹ := by
    rw [← zpow_natCast, ← zpow_add₀ (by norm_num), ← zpow_neg]
    congr 1
    push_cast
    ring
  have hs : (sgn neg)⁻¹ = sgn neg := by cases neg <;> simp
  rw [ho.value, mul_inv, mul_inv, hs, div_mul_eq_mul_div, h2, inv_mul_eq_div]

theorem Operand32.abs_inv_eq : |x⁻¹| = (2 : ℚ) ^ 260 / m * 2 ^ (-260 - e) := by rw [ho.inv_eq, abs_sgn_mul, abs_of_nonneg (by positivity)]

theorem Operand32.lt_zero_iff : x < 0 ↔ neg = true := by
  rw [ho.value]
  exact sgn_mul_neg_iff (mul_pos (by exact_mod_cast ho.pos) (by positivity))

theorem Operand32.abs_lt : |x| < 2 ^ (128 : Int) := ho.magnitude ▸ ho.range.trans tie32_lt

theorem Operand32.ne_zero : x ≠ 0 := fun h => by
  have := ho.magnitude
  rw [h, abs_zero, eq_comm, magnitude_eq_zero] at this
  exact ho.pos.ne' this

/-- No reciprocal of a finite number is less than `2 ^ (-128)`. -/
theorem Operand32.lt_abs_inv : (2 : ℚ) ^ (-128 : Int) < |x⁻¹| := by
  rw [abs_inv, zpow_neg]
  exact inv_strictAnti₀ (abs_pos.2 ho.ne_zero) ho.abs_lt

theorem frcpOnce_rounded : fmt32.Rounded .rn neg |x⁻¹| (fmt32.roundMag .rn neg (2 * recip m + (if 2 ^ 260 % m = 0 then 0 else 1)) (-261 - e)) := by
  obtain ⟨h1, h2, h3⟩ := ho.recip_floor
  have h := Fmt.roundMag_rounded ieee_fmt32.mb .rn neg (2 * recip m + (if 2 ^ 260 % m = 0 then 0 else 1)) (-261 - e)
  rw [show -261 - e = -260 - e - 1 by ring] at h ⊢
  rw [ho.abs_inv_eq]
  refine h.of_sticky ?_ ((by norm_num [fmt32] : 2 ^ (fmt32.mb + 2) ≤ 2 ^ 236).trans ho.recip_ge)
  split_ifs with hr
  · exact .inl ⟨rfl, (h3.2 hr).symm⟩
  · exact .inr ⟨rfl, h1.lt_of_ne (mt h3.1 hr), h2⟩

/-- A reciprocal from the tie on is an infinity. -/
theorem frcpOnce_infinite (h : tie32 ≤ |x⁻¹|) : frcpOnce neg m e = fmt32.signBit neg + inf32 := by
  have hk := (frcpOnce_rounded ho).gt_maxBits32.2 h
  exact Fmt.pack_fin_of_gt hk

/-- What R117 asks of FRCP where the reciprocal is finite. -/
def FrcpSpec (x y : ℚ) : Prop :=
  |(y : ℝ) - (x : ℝ)⁻¹| ≤ 2 ^ ulpExp (x : ℝ)⁻¹ ∧ (∀ n : Int, |x| = 2 ^ n → y = x⁻¹)
  ∧ (2 ^ 126 < |x| → y ≠ 0 ∧ ∀ u z, u < 2 ^ 32 → rational (fmt32.decode u) = some z → |y - x⁻¹| ≤ |z - x⁻¹|)

theorem frcpOnce_value (h : |x⁻¹| < tie32) : Value32 (frcpOnce neg m e) (FrcpSpec x) ∧ frcpOnce neg m e % 2 ^ 31 ≠ inf32 := by
  have hr := frcpOnce_rounded ho
  unfold frcpOnce
  generalize 2 * recip m + (if 2 ^ 260 % m = 0 then 0 else 1) = M at *
  have hk : fmt32.roundMag .rn neg M (-261 - e) ≤ fmt32.maxBits := not_lt.1 (mt hr.gt_maxBits32.1 (not_le.2 h))
  have hlt : fmt32.roundMag .rn neg M (-261 - e) < 2 ^ 31 := hk.trans_lt ieee_fmt32.bits
  rw [Fmt.pack_fin_of_le hk]
  refine ⟨⟨signBit32_add_lt neg hlt, _, Fmt.rational_signBit_add ieee_fmt32.toSound neg hk, ?_⟩, ?_⟩
  · generalize fmt32.roundMag .rn neg M (-261 - e) = k at *
    have hx : x⁻¹ = sgn neg * |x⁻¹| := by rw [ho.abs_inv_eq, ho.inv_eq]
    refine ⟨?_, fun n hn => ?_, fun hbig => ⟨?_, fun u z _ hz => ?_⟩⟩
    · have hlt : |x⁻¹| < 2 ^ (ulpExp (x : ℝ)⁻¹ + 24) := by
        have := lt_ulpExp (x : ℝ)⁻¹
        refine (Rat.cast_lt (K := ℝ)).1 ?_
        push_cast
        exact this
      have herr := hr.error (abs_nonneg _) (show |x⁻¹| < 2 ^ (ulpExp (x : ℝ)⁻¹ + 23 + 1) by rwa [add_assoc]) (by rw [fmt32_unit]; unfold ulpExp; omega)
      rw [← abs_sgn_mul_sub neg, ← hx] at herr
      have h2 := (Rat.cast_le (K := ℝ)).2 herr
      push_cast at h2 ⊢
      exact h2.trans (half_le_self (by positivity))
    · have hn' : |x⁻¹| = 2 ^ (-n) := by rw [abs_inv, hn, zpow_neg]
      have hn127 : n < 128 := two_zpow_lt.1 (hn ▸ ho.abs_lt)
      obtain ⟨i, hi⟩ := exists_grid32_two_zpow (show -149 ≤ -n by omega)
      rw [hn', ← hi] at hr
      rw [hr.exact, hi, ← hn', ← hx]
    · have h1 : fmt32.grid 1 ≤ |x⁻¹| := by
        refine le_trans ?_ ho.lt_abs_inv.le
        rw [show fmt32.grid 1 = 1 * 2 ^ fmt32.unit by simp [Fmt.grid, Fmt.steps, fmt32], one_mul, fmt32_unit]
        exact two_zpow_le.2 (by norm_num)
      have : 0 < fmt32.grid k := by
        rw [← fmt32.grid_zero]
        exact fmt32.grid_lt.2 (hr.le_of_grid_le h1)
      exact mt sgn_mul_eq_zero.1 this.ne'
    · obtain ⟨-, rfl⟩ := Fmt.of_rational_decode hz
      rw [hx]
      exact (hr.signed_nearest (abs_nonneg _) _ _).1
  · have : (fmt32.signBit neg + fmt32.roundMag .rn neg M (-261 - e)) % 2 ^ 31 = fmt32.roundMag .rn neg M (-261 - e) := Fmt.mag_signBit_add (f := fmt32) neg hlt
    rw [this]
    exact (hk.trans_lt (by decide)).ne

omit ho in
theorem frcpFx_val (neg : Bool) (m : Nat) (e : Int) : (frcpFx neg m e).val = sgn neg * (recip m * 2 ^ (-260 - e)) := by
  unfold frcpFx Fx.val
  cases neg <;> simp

/-- An FP32 number within one ULP of the evaluation is within one of the exact reciprocal. -/
theorem frcpFx_near {y : ℚ} (hy : rational (fmt32.decode v) = some y) (hn : |y - (frcpFx neg m e).val| ≤ (1 : Nat) * 2 ^ ((frcpFx neg m e).expo - 23)) :
    |(y : ℝ) - (x : ℝ)⁻¹| ≤ 2 ^ ulpExp (x : ℝ)⁻¹ := by
  obtain ⟨h1, h2, h3⟩ := ho.recip_floor
  have hx : (x : ℝ)⁻¹ = (sgn neg : ℚ) * (((2 ^ 260 / m : ℚ) : ℝ) * 2 ^ (-260 - e)) := by
    have := congrArg (fun q : ℚ => (q : ℝ)) ho.inv_eq
    push_cast at this ⊢
    exact this
  have h := Fx.near_exact hy (frcpFx_val neg m e) (Z := ((2 ^ 260 / m : ℚ) : ℝ)) (by exact_mod_cast h1) (by exact_mod_cast h2) (by norm_num) ho.recip_ge
    (by have := ho.most; push_cast; omega) one_le_two (fun hd => by exact_mod_cast h3.2 (ho.recip_exact hd)) hn
  rw [hx]
  rwa [Nat.cast_one, one_mul] at h

/-- FRCP where the reciprocal is an infinity. -/
theorem frcpValue_infinite (hd : fmt32.decode a.toNat = .fin neg m e) (h : tie32 ≤ |x⁻¹|) : frcpValue a = if x < 0 then 0xFF800000 else 0x7F800000 := by
  have h1 := frcpOnce_infinite ho h
  rw [frcpValue_fin hd ho.pos, h1, if_pos (.inr (.inr (by cases neg <;> rfl)))]
  simp only [ho.lt_zero_iff]
  cases neg <;> rfl

/-- FRCP where the reciprocal is finite. -/
theorem frcpValue_finite (hd : fmt32.decode a.toNat = .fin neg m e) (h : |x⁻¹| < tie32) : Value32 (frcpValue a) (FrcpSpec x) := by
  obtain ⟨hv, hne⟩ := frcpOnce_value ho h
  rw [frcpValue_fin hd ho.pos]
  split_ifs with hc
  · exact hv
  · push Not at hc
    obtain ⟨hpow, hsmall, -⟩ := hc
    have hval : |(frcpFx neg m e).val| < tie32 := by
      rw [frcpFx_val, abs_sgn_mul, abs_of_nonneg (by positivity)]
      refine lt_of_le_of_lt ?_ (ho.abs_inv_eq ▸ h)
      have := ho.recip_floor.1
      gcongr
    obtain ⟨hlt, y, hy, hn⟩ := (Fx.within_choose hval le_rfl (Config.frcp a) none).of_none
    refine ⟨hlt, y, hy, frcpFx_near ho hy hn, fun n hn => absurd ?_ hpow, fun hbig => absurd ?_ (not_lt.2 hsmall)⟩
    · rw [ho.magnitude] at hn
      rw [(pow2?_eq_some ho.pos).2 hn]
      rfl
    · rw [ho.magnitude] at hbig
      exact (mul_two_pow_lt_iff ho.least 126).2 hbig

end

end Sys2Proof.Machine
end

section
/-! SUPPORT. FRSQ (R117): over an even exponent, the evaluation is the integer square root of `2 ^ 400 / M` for the mantissa M. It is exact
for a power of four. -/

namespace Sys2Proof.Machine
open Sys2Proof.Safety

variable {neg : Bool} {k m n v w : Nat} {a : Word} {e : Int} {p : Int} {x : ℚ}

/-! ### The integer square root -/

theorem isqrtAux_spec (x : Nat) : ∀ n r, r * r ≤ x → x < (r + 2 ^ n) * (r + 2 ^ n) →
    isqrtAux x n r * isqrtAux x n r ≤ x ∧ x < (isqrtAux x n r + 1) * (isqrtAux x n r + 1) := by
  intro n
  induction n with
  | zero => exact fun r h1 h2 => ⟨h1, by simpa [isqrtAux] using h2⟩
  | succ n ih =>
    intro r h1 h2
    rw [pow_succ, mul_two, ← add_assoc] at h2
    rw [isqrtAux]
    split_ifs with hc
    · exact ih _ hc h2
    · exact ih _ h1 (not_le.1 hc)

/-! ### The evaluation of FRSQ -/

/-- A mantissa over an even exponent. -/
def evenMantissa (m : Nat) (e : Int) : Nat := m * 2 ^ (e % 2).toNat
/-- The reciprocal square root of it, rounded down to 200 bits. -/
@[irreducible] def recipRoot (m : Nat) (e : Int) : Nat := isqrtAux (2 ^ 400 / evenMantissa m e) 201 0
/-- The evaluation of the reciprocal square root. -/
def frsqFx (m : Nat) (e : Int) : Fx := ⟨recipRoot m e, -200 - (e - e % 2) / 2⟩

theorem frsqValue_fin (hd : fmt32.decode a.toNat = .fin false m e) (hm : 0 < m) : frsqValue a =
    if ((pow2? m e).any fun p => p % 2 == 0) then (frsqFx m e).round else (frsqFx m e).choose (Config.frsq a) 2 none := by
  rw [frsqValue, hd]
  simp only [if_neg hm.ne', Bool.false_eq_true, if_false]
  delta frsqFx recipRoot
  cases pow2? m e <;> rfl

theorem frsqValue_negative (hd : fmt32.decode a.toNat = .fin true m e) (hm : 0 < m) : frsqValue a = 0x7FC00000 := by
  rw [frsqValue, hd]
  simp only [if_neg hm.ne', if_true]
  rfl

section
variable (ho : Operand32 false m e x)
include ho

theorem Operand32.evenMantissa_pos : 0 < evenMantissa m e := Nat.mul_pos ho.pos (Nat.two_pow_pos _)

theorem Operand32.evenMantissa_lt : evenMantissa m e < 2 ^ 25 := by
  have h1 : (e % 2).toNat ≤ 1 := by omega
  calc m * 2 ^ (e % 2).toNat ≤ m * 2 ^ 1 := Nat.mul_le_mul_left _ (Nat.pow_le_pow_right (by norm_num) h1)
    _ < 2 ^ 25 := by have := ho.mantissa; omega

theorem Operand32.even_value : x = evenMantissa m e * 4 ^ ((e - e % 2) / 2) := by
  have h4 : (4 : ℚ) ^ ((e - e % 2) / 2) = 2 ^ (e - e % 2) := by
    rw [show (4 : ℚ) = 2 ^ (2 : Int) by norm_num, ← zpow_mul]
    congr 1
    omega
  rw [ho.value, h4, evenMantissa, sgn_false, one_mul]
  push_cast
  rw [mul_assoc, ← zpow_natCast, ← zpow_add₀ (by norm_num)]
  congr 2
  omega

theorem Operand32.recipRoot_spec : evenMantissa m e * (recipRoot m e * recipRoot m e) ≤ 2 ^ 400
    ∧ 2 ^ 400 < evenMantissa m e * ((recipRoot m e + 1) * (recipRoot m e + 1)) := by
  have hM := ho.evenMantissa_pos
  delta recipRoot
  have hlt : 2 ^ 400 / evenMantissa m e < (0 + 2 ^ 201) * (0 + 2 ^ 201) := by
    rw [zero_add, ← pow_add]
    exact (Nat.div_le_self ..).trans_lt (Nat.pow_lt_pow_right (by norm_num) (by norm_num))
  obtain ⟨h1, h2⟩ := isqrtAux_spec (2 ^ 400 / evenMantissa m e) 201 0 (Nat.zero_le _) hlt
  exact ⟨(Nat.mul_le_mul_left _ h1).trans (Nat.mul_div_le ..), Nat.lt_mul_of_div_lt h2 hM |>.trans_eq (mul_comm ..)⟩

theorem Operand32.recipRoot_le : recipRoot m e ≤ 2 ^ 200 := by
  obtain ⟨h1, -⟩ := ho.recipRoot_spec
  have h2 : recipRoot m e * recipRoot m e ≤ 2 ^ 200 * 2 ^ 200 := by
    rw [← pow_add]
    exact (Nat.le_mul_of_pos_left _ ho.evenMantissa_pos).trans h1
  exact Nat.mul_self_le_mul_self_iff.1 h2

theorem Operand32.recipRoot_ge : 2 ^ 187 ≤ recipRoot m e := by
  obtain ⟨-, h2⟩ := ho.recipRoot_spec
  by_contra hlt
  have h3 : (recipRoot m e + 1) * (recipRoot m e + 1) ≤ 2 ^ 187 * 2 ^ 187 := Nat.mul_self_le_mul_self (not_le.1 hlt)
  have h4 : evenMantissa m e * ((recipRoot m e + 1) * (recipRoot m e + 1)) ≤ 2 ^ 25 * (2 ^ 187 * 2 ^ 187) := Nat.mul_le_mul ho.evenMantissa_lt.le h3
  rw [← pow_add, ← pow_add] at h4
  exact absurd (h2.trans_le h4) (not_lt.2 (Nat.pow_le_pow_right (by norm_num) (by norm_num)))

/-- A root that ends in many zeros is exact: what is left of the square is smaller than its unit. -/
theorem Operand32.recipRoot_exact (h : 2 ^ 163 ∣ recipRoot m e) : evenMantissa m e * (recipRoot m e * recipRoot m e) = 2 ^ 400 := by
  obtain ⟨h1, h2⟩ := ho.recipRoot_spec
  have hK := ho.recipRoot_le
  have hM := ho.evenMantissa_lt
  have hdvd : 2 ^ 326 ∣ 2 ^ 400 - evenMantissa m e * (recipRoot m e * recipRoot m e) :=
    Nat.dvd_sub (Nat.pow_dvd_pow 2 (by norm_num)) (((pow_add 2 163 163) ▸ Nat.mul_dvd_mul h h : 2 ^ 326 ∣ _).mul_left _)
  have hlt : 2 ^ 400 - evenMantissa m e * (recipRoot m e * recipRoot m e) < 2 ^ 326 := by
    generalize evenMantissa m e = M at *
    generalize recipRoot m e = K at *
    calc 2 ^ 400 - M * (K * K) < M * (2 * K + 1) := by
          rw [show M * ((K + 1) * (K + 1)) = M * (K * K) + M * (2 * K + 1) by ring] at h2
          exact Nat.sub_lt_left_of_lt_add h1 h2
      _ ≤ 2 ^ 25 * 2 ^ 202 := Nat.mul_le_mul hM.le (by rw [pow_add 2 200 2]; have := Nat.two_pow_pos 200; generalize 2 ^ 200 = c at *; omega)
      _ = 2 ^ 227 := (pow_add ..).symm
      _ ≤ 2 ^ 326 := Nat.pow_le_pow_right (by norm_num) (by norm_num)
  have := Nat.eq_zero_of_dvd_of_lt hdvd hlt
  omega

/-- The exact root in the units of the evaluation. -/
theorem Operand32.inv_sqrt_eq : (Real.sqrt x)⁻¹ = 2 ^ 200 / Real.sqrt (evenMantissa m e) * 2 ^ (-200 - (e - e % 2) / 2) := by
  have h4 : ((4 : ℝ) ^ ((e - e % 2) / 2)) = (2 ^ ((e - e % 2) / 2)) ^ 2 := by
    rw [← zpow_natCast, ← zpow_mul, show (4 : ℝ) = 2 ^ (2 : Int) by norm_num, ← zpow_mul]
    congr 1
    push_cast
    ring
  have hx : (x : ℝ) = evenMantissa m e * (2 ^ ((e - e % 2) / 2)) ^ 2 := by
    have := congrArg (fun q : ℚ => (q : ℝ)) ho.even_value
    push_cast at this
    rw [this, h4]
  rw [hx, Real.sqrt_mul (by positivity), Real.sqrt_sq (by positivity), zpow_sub₀ (by norm_num), zpow_neg, mul_inv]
  field_simp

theorem Operand32.recipRoot_floor : (recipRoot m e : ℝ) ≤ 2 ^ 200 / Real.sqrt (evenMantissa m e) ∧ 2 ^ 200 / Real.sqrt (evenMantissa m e) < recipRoot m e + 1
    ∧ (evenMantissa m e * (recipRoot m e * recipRoot m e) = 2 ^ 400 → (recipRoot m e : ℝ) = 2 ^ 200 / Real.sqrt (evenMantissa m e)) := by
  obtain ⟨h1, h2⟩ := ho.recipRoot_spec
  have hM : (0 : ℝ) < evenMantissa m e := by exact_mod_cast ho.evenMantissa_pos
  generalize recipRoot m e = K at *
  generalize evenMantissa m e = M at *
  have hs := Real.sqrt_pos.2 hM
  have hp : (2 : ℝ) ^ 400 = 2 ^ 200 * 2 ^ 200 := (pow_add 2 200 200)
  -- a multiple of the root is compared with `2 ^ 200` by squares
  have hsq (J : ℝ) : J * Real.sqrt M * (J * Real.sqrt M) = M * (J * J) := by
    rw [mul_mul_mul_comm, Real.mul_self_sqrt hM.le, mul_comm]
  have hK : (0 : ℝ) ≤ K * Real.sqrt M := by positivity
  refine ⟨?_, ?_, fun h => ?_⟩
  · rw [le_div_iff₀ hs, mul_self_le_mul_self_iff hK (by positivity), hsq, ← hp]
    exact_mod_cast h1
  · rw [div_lt_iff₀ hs, mul_self_lt_mul_self_iff (by positivity) (by positivity), hsq, ← hp]
    exact_mod_cast h2
  · rw [eq_div_iff hs.ne', ← mul_self_inj hK (by positivity), hsq, ← hp]
    exact_mod_cast h

/-- What R117 asks of FRSQ for a positive operand. -/
def FrsqSpec (x y : ℚ) : Prop := |(y : ℝ) - (Real.sqrt x)⁻¹| ≤ 2 * 2 ^ ulpExp (Real.sqrt x)⁻¹ ∧ ∀ n : Int, x = 4 ^ n → y = 2 ^ (-n)

omit ho in
theorem frsqFx_val (m : Nat) (e : Int) : (frsqFx m e).val = sgn false * (recipRoot m e * 2 ^ (-200 - (e - e % 2) / 2)) := by simp [frsqFx, Fx.val]

/-- An FP32 number within two ULP of the evaluation is within two of the exact value. -/
theorem frsqFx_near {y : ℚ} (hy : rational (fmt32.decode v) = some y) (hn : |y - (frsqFx m e).val| ≤ (2 : Nat) * 2 ^ ((frsqFx m e).expo - 23)) :
    |(y : ℝ) - (Real.sqrt x)⁻¹| ≤ 2 * 2 ^ ulpExp (Real.sqrt x)⁻¹ := by
  obtain ⟨h1, h2, h3⟩ := ho.recipRoot_floor
  have h := Fx.near_exact hy (frsqFx_val m e) h1 h2 (by norm_num) ho.recipRoot_ge (by have := ho.most; push_cast; omega) le_rfl
    (fun hd => h3 (ho.recipRoot_exact hd)) hn
  rw [ho.inv_sqrt_eq]
  simpa using h

theorem frsqFx_lt : |(frsqFx m e).val| < tie32 := by
  have hle : (recipRoot m e : ℚ) ≤ 2 ^ 200 := by exact_mod_cast ho.recipRoot_le
  have hs : (2 : ℚ) ^ (-200 - (e - e % 2) / 2) ≤ 2 ^ (-125 : Int) := two_zpow_le.2 (by have := ho.least; omega)
  rw [frsqFx_val, abs_sgn_mul, abs_of_nonneg (by positivity)]
  calc (recipRoot m e : ℚ) * 2 ^ (-200 - (e - e % 2) / 2) ≤ 2 ^ 200 * 2 ^ (-125 : Int) := by gcongr
    _ < tie32 := by norm_num [tie32]

/-- The evaluation is exact for a power of four. -/
theorem frsqFx_four {n : Int} (hn : x = 4 ^ n) : (frsqFx m e).val = 2 ^ (-n) := by
  obtain ⟨j, hj, hM⟩ : ∃ j : Nat, n = j + (e - e % 2) / 2 ∧ evenMantissa m e = 2 ^ j * 2 ^ j := by
    have hM : (evenMantissa m e : ℚ) = 4 ^ (n - (e - e % 2) / 2) := by
      rw [zpow_sub₀ (by norm_num), ← hn, ho.even_value, mul_div_cancel_right₀ _ (by positivity)]
    obtain ⟨j, hj⟩ : ∃ j : Nat, n - (e - e % 2) / 2 = j := Int.eq_ofNat_of_zero_le (by
      by_contra hneg
      have h1 : (1 : ℚ) ≤ evenMantissa m e := by exact_mod_cast ho.evenMantissa_pos
      exact absurd (hM ▸ h1) (not_le.2 (zpow_lt_one_of_neg₀ (by norm_num) (by omega))))
    refine ⟨j, by omega, ?_⟩
    rw [hj, zpow_natCast, show (4 : ℚ) = 2 * 2 by norm_num, mul_pow] at hM
    exact_mod_cast hM
  have hj25 : j + j < 25 := by
    have := ho.evenMantissa_lt
    rw [hM, ← pow_add] at this
    exact (Nat.pow_lt_pow_iff_right (by norm_num)).1 this
  obtain ⟨h1, h2⟩ := ho.recipRoot_spec
  rw [hM, mul_mul_mul_comm, pow_add 2 200 200, ← pow_mul_pow_sub 2 (show j ≤ 200 by omega)] at h1 h2
  have hK : recipRoot m e = 2 ^ (200 - j) := by
    have h3 := Nat.le_of_mul_le_mul_left (Nat.mul_self_le_mul_self_iff.1 h1) (Nat.two_pow_pos j)
    have h4 := Nat.lt_of_mul_lt_mul_left (Nat.mul_self_lt_mul_self_iff.1 h2)
    omega
  rw [frsqFx_val, hK, sgn_false, one_mul]
  push_cast
  rw [← zpow_natCast, ← zpow_add₀ (by norm_num)]
  congr 1
  omega

theorem Operand32.pow2?_of_four {n : Int} (hn : x = 4 ^ n) : pow2? m e = some (2 * n) := by
  rw [pow2?_eq_some ho.pos, zpow_mul, show (2 : ℚ) ^ (2 : Int) = 4 by norm_num, ← hn, ho.value, sgn_false, one_mul]

/-- FRSQ of a positive operand. -/
theorem frsqValue_positive (hd : fmt32.decode a.toNat = .fin false m e) : Value32 (frsqValue a) (FrsqSpec x) := by
  rw [frsqValue_fin hd ho.pos]
  split_ifs with hc
  · obtain ⟨p, hp, heven⟩ := (Option.any_eq_true _ _).1 hc
    obtain ⟨n, rfl⟩ : ∃ n, p = 2 * n := Int.dvd_of_emod_eq_zero (by simpa using heven)
    have hx : x = 4 ^ n := by
      rw [ho.value, sgn_false, one_mul, (pow2?_eq_some ho.pos).1 hp, zpow_mul]
      norm_num
    have hv := frsqFx_four ho hx
    have hn : n < 64 := by
      have := (pow2?_eq_some ho.pos).1 hp
      have := two_zpow_lt.1 (this ▸ ho.range.trans (by exact_mod_cast tie32_lt) : (2 : ℚ) ^ (2 * n) < 2 ^ (128 : Int))
      omega
    obtain ⟨i, hi⟩ := exists_grid32_two_zpow (show -149 ≤ -n by omega)
    obtain ⟨hlt, y, hy, rfl⟩ := Fx.round_exact (frsqFx_lt ho) (by rw [hv, hi, abs_of_pos (by positivity)])
    refine ⟨hlt, _, hy, frsqFx_near ho hy (by rw [sub_self, abs_zero]; positivity), fun n' hn' => frsqFx_four ho hn'⟩
  · obtain ⟨hlt, y, hy, hn⟩ := (Fx.within_choose (frsqFx_lt ho) one_le_two (Config.frsq a) none).of_none
    refine ⟨hlt, y, hy, frsqFx_near ho hy hn, fun n hx => absurd ?_ hc⟩
    rw [ho.pow2?_of_four hx]
    simp
end

end Sys2Proof.Machine
end

section
/-! SUPPORT. FEX2 (R117): the evaluation grows with the fraction, so its value at the largest fraction that FP32 has keeps it below the
overflow. -/

namespace Sys2Proof.Machine
open Sys2Proof.Safety

variable {neg : Bool} {k m n v w : Nat} {a : Word} {e t z z' : Int} {x : ℚ}

/-! ### The series -/

theorem ediv_mono {a b c : Int} (hc : 0 ≤ c) (h : a ≤ b) : a / c ≤ b / c := by
  rcases hc.eq_or_lt with rfl | hc
  · simp
  · exact Int.ediv_le_ediv hc h

theorem expDivisor_nonneg (n : Nat) : 0 ≤ fxOne * ((60 - n : Nat) : Int) := mul_nonneg (by decide) (Int.natCast_nonneg _)

/-- The terms are not negative. -/
theorem le_expTerms (hz : 0 ≤ z) : ∀ n term sum, 0 ≤ term → sum ≤ expTerms z n term sum := by
  intro n
  induction n with
  | zero => exact fun _ sum _ => le_refl sum
  | succ n ih =>
    intro term sum ht
    have h := Int.ediv_nonneg (mul_nonneg ht hz) (expDivisor_nonneg n)
    rw [expTerms]
    exact le_trans (by omega) (ih _ _ h)

/-- The series grows with its argument. -/
theorem expTerms_mono (hz : 0 ≤ z) (hzz : z ≤ z') : ∀ n term term' sum sum', 0 ≤ term → term ≤ term' → sum ≤ sum' → expTerms z n term sum ≤ expTerms z' n term' sum' := by
  intro n
  induction n with
  | zero => exact fun _ _ _ _ _ _ h => h
  | succ n ih =>
    intro term term' sum sum' ht htt hs
    have h := Int.ediv_nonneg (mul_nonneg ht hz) (expDivisor_nonneg n)
    have h2 := ediv_mono (expDivisor_nonneg n) (mul_le_mul htt hzz hz (ht.trans htt))
    rw [expTerms, expTerms]
    exact ih _ _ _ _ h h2 (by omega)

/-! ### The evaluation of FEX2 -/

/-- The series for a fraction of `f` units of `2 ^ (-149)`. -/
@[irreducible] def exp2 (f : Int) : Int := expTerms (f * fxLn2 / 2 ^ 149) 60 fxOne fxOne

/-- The evaluation of the power of two at `t` units of `2 ^ (-149)`. -/
def fex2Fx (t : Int) : Fx := ⟨exp2 (t % 2 ^ 149), t / 2 ^ 149 - 200⟩

theorem fex2Fx_eq (t : Int) : fex2Fx t = ⟨expTerms (t % 2 ^ 149 * fxLn2 / 2 ^ 149) 60 fxOne fxOne, t / 2 ^ 149 - 200⟩ := by
  delta fex2Fx exp2
  rfl

theorem fex2Value_fin (hd : fmt32.decode a.toNat = .fin neg m e) (hm : 0 < m) : fex2Value a =
    if 128 * 2 ^ 149 ≤ alignTo (-149) neg m e then inf32 else if alignTo (-149) neg m e ≤ -150 * 2 ^ 149 then 0
    else if alignTo (-149) neg m e % 2 ^ 149 = 0 then fmt32.pack .rn (.fin false 1 (alignTo (-149) neg m e / 2 ^ 149))
    else (fex2Fx (alignTo (-149) neg m e)).choose (Config.fex2 a) 2 none := by
  rw [fex2Value, hd]
  simp only [if_neg hm.ne']
  rw [fex2Fx_eq]

theorem exp2_mono {f g : Int} (hf : 0 ≤ f) (h : f ≤ g) : exp2 f ≤ exp2 g := by
  delta exp2
  have hl : (0 : Int) ≤ fxLn2 := by decide
  exact expTerms_mono (Int.ediv_nonneg (mul_nonneg hf hl) (by norm_num)) (ediv_mono (by norm_num) (mul_le_mul_of_nonneg_right h hl)) 60 fxOne fxOne fxOne fxOne (by decide) le_rfl le_rfl

theorem exp2_nonneg {f : Int} (hf : 0 ≤ f) : 0 ≤ exp2 f := by
  delta exp2
  exact le_trans (by decide) (le_expTerms (Int.ediv_nonneg (mul_nonneg hf (by decide)) (by norm_num)) 60 fxOne fxOne (by decide))

/-- At most one whole unit: 2 times 1, and a little. -/
theorem exp2_one : exp2 (2 ^ 149) ≤ 2 ^ 202 - 2 ^ 178 := by
  delta exp2
  decide +kernel

/-- The last FP32 number below a whole number of 127: less than 2 by more than the tie needs. -/
theorem exp2_last : exp2 (2 ^ 149 - 2 ^ 132) < 2 ^ 201 - 2 ^ 176 := by
  delta exp2
  decide +kernel

section
variable (ho : Operand32 neg m e x)
include ho

theorem Operand32.alignTo_eq : (alignTo (-149) neg m e : ℚ) = x * 2 ^ 149 := by
  have h := alignTo_value (neg := neg) (m := m) ho.least
  rw [← ho.value, zpow_neg] at h
  rw [← h, mul_assoc, ← zpow_natCast]
  norm_num

theorem Operand32.le_alignTo {c : Int} : c * 2 ^ 149 ≤ alignTo (-149) neg m e ↔ (c : ℚ) ≤ x := by
  rw [← Int.cast_le (R := ℚ), ho.alignTo_eq]
  push_cast
  exact mul_le_mul_iff_left₀ (by positivity)

theorem Operand32.alignTo_le {c : Int} : alignTo (-149) neg m e ≤ c * 2 ^ 149 ↔ x ≤ c := by
  rw [← Int.cast_le (R := ℚ), ho.alignTo_eq]
  push_cast
  exact mul_le_mul_iff_left₀ (by positivity)

theorem Operand32.alignTo_whole {c : Int} : alignTo (-149) neg m e = c * 2 ^ 149 ↔ x = c := by
  rw [le_antisymm_iff, ho.le_alignTo, ho.alignTo_le, ← le_antisymm_iff]

/-- From 64 on, an operand is a multiple of `2 ^ (-17)`. -/
theorem Operand32.alignTo_coarse (hd : fmt32.decode w = .fin neg m e) (h : 64 ≤ x) : 2 ^ 132 ∣ alignTo (-149) neg m e := by
  obtain ⟨b, hb⟩ := exists_multiple32 (w := w) (x := x) (by rw [hd, rational_fin, ho.value]) (c := 6) (by rw [abs_of_nonneg (by linarith)]; norm_num; exact h)
  refine ⟨b, ?_⟩
  have : (alignTo (-149) neg m e : ℚ) = 2 ^ 132 * b := by
    rw [ho.alignTo_eq, hb]
    norm_num
    ring
  exact_mod_cast this

theorem fex2Fx_lt (hd : fmt32.decode w = .fin neg m e) (h : x < 128) : |(fex2Fx (alignTo (-149) neg m e)).val| < tie32 := by
  have ht : alignTo (-149) neg m e < 128 * 2 ^ 149 := not_le.1 (mt ho.le_alignTo.1 (by push_cast; exact not_le.2 h))
  have hc := ho.alignTo_coarse hd
  have hle := ho.le_alignTo (c := 64)
  generalize alignTo (-149) neg m e = t at *
  have hf := Int.emod_nonneg t (by norm_num : (2 ^ 149 : Int) ≠ 0)
  -- the bounds at 2 ^ 126 and at 2 ^ 127 times the series
  obtain ⟨c, hsc, hlt⟩ : ∃ c : Int, t / 2 ^ 149 - 200 ≤ c ∧ (exp2 (t % 2 ^ 149) : ℚ) * 2 ^ c < tie32 := by
    rcases lt_or_ge (t / 2 ^ 149) 127 with hn | hn
    · refine ⟨-74, by omega, ?_⟩
      have h1 : (exp2 (t % 2 ^ 149) : ℚ) ≤ ((2 ^ 202 - 2 ^ 178 : Int) : ℚ) := Int.cast_le.2 ((exp2_mono hf (by omega)).trans exp2_one)
      calc (exp2 (t % 2 ^ 149) : ℚ) * 2 ^ (-74 : Int) ≤ ((2 ^ 202 - 2 ^ 178 : Int) : ℚ) * 2 ^ (-74 : Int) := by gcongr
        _ < tie32 := by norm_num [tie32]
    · refine ⟨-73, by omega, ?_⟩
      have h2 : t % 2 ^ 149 ≤ 2 ^ 149 - 2 ^ 132 := by
        have := hc (by exact_mod_cast hle.1 (by omega))
        omega
      have h1 : (exp2 (t % 2 ^ 149) : ℚ) < ((2 ^ 201 - 2 ^ 176 : Int) : ℚ) := Int.cast_lt.2 ((exp2_mono hf h2).trans_lt exp2_last)
      calc (exp2 (t % 2 ^ 149) : ℚ) * 2 ^ (-73 : Int) < ((2 ^ 201 - 2 ^ 176 : Int) : ℚ) * 2 ^ (-73 : Int) := by gcongr
        _ = tie32 := by norm_num [tie32]
  have h0 : (0 : ℚ) ≤ exp2 (t % 2 ^ 149) := by exact_mod_cast exp2_nonneg hf
  rw [fex2Fx, Fx.val, abs_of_nonneg (by positivity)]
  exact (mul_le_mul_of_nonneg_left (two_zpow_le.2 hsc) h0).trans_lt hlt

theorem fex2Value_high (hd : fmt32.decode a.toNat = .fin neg m e) (h : 128 ≤ x) : fex2Value a = 0x7F800000 := by
  rw [fex2Value_fin hd ho.pos, if_pos (ho.le_alignTo.2 (by exact_mod_cast h))]
  rfl

theorem fex2Value_low (hd : fmt32.decode a.toNat = .fin neg m e) (h : x ≤ -150) : fex2Value a = 0 := by
  rw [fex2Value_fin hd ho.pos, if_neg (mt ho.le_alignTo.1 (by push_cast; linarith)), if_pos (ho.alignTo_le.2 (by exact_mod_cast h))]

theorem fex2Value_mid (hd : fmt32.decode a.toNat = .fin neg m e) (h1 : -150 < x) (h2 : x < 128) : fex2Value a =
    if alignTo (-149) neg m e % 2 ^ 149 = 0 then fmt32.pack .rn (.fin false 1 (alignTo (-149) neg m e / 2 ^ 149))
    else (fex2Fx (alignTo (-149) neg m e)).choose (Config.fex2 a) 2 none := by
  rw [fex2Value_fin hd ho.pos, if_neg (mt ho.le_alignTo.1 (by push_cast; exact not_le.2 h2)), if_neg (mt ho.alignTo_le.1 (by push_cast; exact not_le.2 h1))]

/-- FEX2 of a whole number is exact. -/
theorem fex2Value_whole (hd : fmt32.decode a.toNat = .fin neg m e) {n : Int} (hx : x = n) (h1 : -149 ≤ n) (h2 : n ≤ 127) : Value32 (fex2Value a) fun y => y = 2 ^ n := by
  have hlo : (-150 : ℚ) < n := by exact_mod_cast (by omega : -150 < n)
  have hhi : (n : ℚ) < 128 := by exact_mod_cast (by omega : n < 128)
  rw [fex2Value_mid ho hd (hx ▸ hlo) (hx ▸ hhi), ho.alignTo_whole.2 hx, if_pos (Int.mul_emod_left ..), Int.mul_ediv_cancel _ (by norm_num)]
  obtain ⟨i, hi⟩ := exists_grid32_two_zpow h1
  have hlt : ((1 : Nat) : ℚ) * 2 ^ n < tie32 := by
    rw [Nat.cast_one, one_mul]
    exact (two_zpow_le.2 h2).trans_lt (by exact_mod_cast lt_tie32)
  exact (value32_pack_exact hlt (by rw [hi, Nat.cast_one, one_mul]) false).imp fun y hy => by rw [hy]; simp

/-- FEX2 between whole numbers is within two ULP of the evaluation. -/
theorem fex2Value_between (hd : fmt32.decode a.toNat = .fin neg m e) (h1 : -150 < x) (h2 : x < 128) (h : ∀ n : Int, x ≠ n) :
    Within (fex2Value a) (fex2Fx (alignTo (-149) neg m e)) 2 none := by
  have hne : alignTo (-149) neg m e % 2 ^ 149 ≠ 0 := fun h0 => h _ (ho.alignTo_whole.1 (Int.ediv_mul_cancel_of_emod_eq_zero h0).symm)
  rw [fex2Value_mid ho hd h1 h2, if_neg hne]
  exact Fx.within_choose (fex2Fx_lt ho hd h2) one_le_two _ _

end

end Sys2Proof.Machine
end

section
/-! SUPPORT. FLG2 (R117): the digits of the logarithm lie between 0 and 1 whatever the squarings give, so that the evaluation is small. -/

namespace Sys2Proof.Machine
open Sys2Proof.Safety

variable {neg : Bool} {k m n v w : Nat} {a : Word} {e p : Int} {x : ℚ}

theorem rational_decode_zero32 : rational (fmt32.decode 0) = some 0 := by
  rw [show fmt32.decode 0 = .fin false 0 (-149) by decide, rational_fin]
  simp

/-- `n` more digits of a logarithm. -/
theorem log2Digits_bounds : ∀ n z acc, acc * 2 ^ n ≤ log2Digits n z acc ∧ log2Digits n z acc < (acc + 1) * 2 ^ n := by
  intro n
  induction n with
  | zero => simp [log2Digits]
  | succ n ih =>
    intro z acc
    have h2 : (0 : Int) < 2 ^ n := by positivity
    rw [log2Digits, pow_succ]
    split_ifs with h
    · obtain ⟨h3, h4⟩ := ih (z * z / fxOne / 2) (2 * acc + 1)
      constructor <;> nlinarith
    · obtain ⟨h3, h4⟩ := ih (z * z / fxOne) (2 * acc)
      constructor <;> nlinarith

/-- The digits of the logarithm of a mantissa. -/
@[irreducible] def logDigits (m : Nat) : Int := log2Digits 150 ((m : Int) * fxOne / 2 ^ Nat.log2 m) 0

theorem logDigits_bounds (m : Nat) : 0 ≤ logDigits m ∧ logDigits m < 2 ^ 150 := by
  delta logDigits
  simpa using log2Digits_bounds 150 ((m : Int) * fxOne / 2 ^ Nat.log2 m) 0

/-- The evaluation of the logarithm. -/
def flg2Fx (m : Nat) (e : Int) : Fx := ⟨((Nat.log2 m : Int) + e) * 2 ^ 150 + logDigits m, -150⟩

theorem flg2Fx_eq (m : Nat) (e : Int) : flg2Fx m e = ⟨((Nat.log2 m : Int) + e) * 2 ^ 150 + log2Digits 150 ((m : Int) * fxOne / 2 ^ Nat.log2 m) 0, -150⟩ := by
  delta flg2Fx logDigits
  rfl

/-- The integer part of the logarithm is -1 or 0. -/
def nearOne (m : Nat) (e : Int) : Bool := decide ((Nat.log2 m : Int) + e = -1) || decide ((Nat.log2 m : Int) + e = 0)

theorem flg2Value_fin (hd : fmt32.decode a.toNat = .fin false m e) (hm : 0 < m) : flg2Value a = match pow2? m e with
    | some p => if p = 0 then 0 else fmt32.pack .rn (.fin (decide (p < 0)) p.natAbs 0)
    | none => (flg2Fx m e).choose (Config.flg2 a) 2 (if nearOne m e then some (-22) else none) := by
  rw [flg2Value, hd]
  simp only [if_neg hm.ne', Bool.false_eq_true, if_false]
  rw [flg2Fx_eq] <;> rfl

theorem flg2Value_negative (hd : fmt32.decode a.toNat = .fin true m e) (hm : 0 < m) : flg2Value a = 0x7FC00000 := by
  rw [flg2Value, hd]
  simp only [if_neg hm.ne', if_true]
  rfl

section
variable (ho : Operand32 false m e x)
include ho

theorem Operand32.binade : (2 : ℚ) ^ ((Nat.log2 m : Int) + e) ≤ x ∧ x < 2 ^ ((Nat.log2 m : Int) + e + 1) := by
  have h1 : (2 : ℚ) ^ (Nat.log2 m : Int) ≤ m := by exact_mod_cast Nat.log2_self_le ho.pos.ne'
  have h2 : (m : ℚ) < 2 ^ ((Nat.log2 m : Int) + 1) := by exact_mod_cast Nat.lt_log2_self
  rw [ho.value, sgn_false, one_mul, add_right_comm, zpow_add₀ (by norm_num) _ e, zpow_add₀ (by norm_num) _ e]
  constructor <;> gcongr

theorem Operand32.log_range : -149 ≤ (Nat.log2 m : Int) + e ∧ (Nat.log2 m : Int) + e ≤ 127 := by
  have h1 := two_zpow_lt.1 (ho.binade.1.trans_lt (abs_of_nonneg (ho.binade.1.trans' (by positivity)) ▸ ho.abs_lt))
  have := ho.least
  omega

theorem flg2Fx_lt : |(flg2Fx m e).val| < tie32 := by
  obtain ⟨h1, h2⟩ := ho.log_range
  obtain ⟨h3, h4⟩ := logDigits_bounds m
  have hb : |(flg2Fx m e).y| ≤ 149 * 2 ^ 150 := by
    unfold flg2Fx
    generalize logDigits m = d at *
    rw [abs_le]
    constructor <;> dsimp only <;> omega
  have hb' : |((flg2Fx m e).y : ℚ)| ≤ 149 * 2 ^ 150 := by exact_mod_cast hb
  rw [Fx.val, abs_mul, abs_of_pos (by positivity : (0 : ℚ) < 2 ^ (flg2Fx m e).sc)]
  calc |((flg2Fx m e).y : ℚ)| * 2 ^ (-150 : Int) ≤ 149 * 2 ^ 150 * 2 ^ (-150 : Int) := by gcongr
    _ < tie32 := by norm_num [tie32]

/-- The wider bound stands near 1. -/
theorem nearOne_iff (h : ∀ n : Int, x ≠ 2 ^ n) : nearOne m e = true ↔ 1 / 2 ≤ x ∧ x ≤ 2 := by
  obtain ⟨h1, h2⟩ := ho.binade
  have hhalf : (1 / 2 : ℚ) = 2 ^ (-1 : Int) := by norm_num
  have htwo : (2 : ℚ) = 2 ^ (1 : Int) := by norm_num
  rw [nearOne, Bool.or_eq_true, decide_eq_true_eq, decide_eq_true_eq]
  constructor
  · intro hn
    rw [hhalf]
    nth_rw 2 [htwo]
    exact ⟨h1.trans' (two_zpow_le.2 (by omega)), h2.le.trans (two_zpow_le.2 (by omega))⟩
  · rintro ⟨h3, h4⟩
    have h3 := two_zpow_lt.1 ((hhalf ▸ h3).trans_lt h2)
    have h4 := two_zpow_lt.1 (h1.trans_lt ((htwo ▸ h4 : x ≤ 2 ^ (1 : Int)).lt_of_ne (h 1)))
    omega

theorem Operand32.pow2?_iff : pow2? m e = some p ↔ x = 2 ^ p := by rw [pow2?_eq_some ho.pos, ho.value, sgn_false, one_mul]

/-- FLG2 of a power of two is exact. -/
theorem flg2Value_pow (hd : fmt32.decode a.toNat = .fin false m e) {n : Int} (hx : x = 2 ^ n) : Value32 (flg2Value a) fun y => y = n := by
  obtain ⟨h1, h2⟩ := ho.log_range
  have hp := ho.pow2?_iff.2 hx
  have hn : n = (Nat.log2 m : Int) + e := by
    unfold pow2? at hp
    split_ifs at hp
    exact (Option.some.inj hp).symm
  rw [flg2Value_fin hd ho.pos, hp]
  dsimp only
  split_ifs with h0
  · exact ⟨by norm_num, 0, rational_decode_zero32, by rw [h0]; rfl⟩
  · have hlt : (n.natAbs : ℚ) * 2 ^ (0 : Int) < tie32 := by
      have : (n.natAbs : ℚ) ≤ 149 := by exact_mod_cast (by omega : n.natAbs ≤ 149)
      rw [zpow_zero, mul_one]
      exact this.trans_lt (by norm_num [tie32])
    obtain ⟨k, hk⟩ := Fmt.exists_grid (f := fmt32) (m := n.natAbs) (e := 0) (by norm_num [fmt32]; omega) (by rw [fmt32_unit]; norm_num)
    refine (value32_pack_exact hlt hk _).imp fun y hy => ?_
    have h := rational_signed n 0
    rw [rational_fin, Option.some_inj, zpow_zero, mul_one] at h
    rw [hy, zpow_zero, mul_one, h, mul_one]

/-- FLG2 elsewhere is within two ULP of the evaluation, and near 1 within `2 ^ (-22)` of it. -/
theorem flg2Value_between (hd : fmt32.decode a.toNat = .fin false m e) (h : ∀ n : Int, x ≠ 2 ^ n) :
    Within (flg2Value a) (flg2Fx m e) 2 (if 1 / 2 ≤ x ∧ x ≤ 2 then some (-22) else none) := by
  have hp : pow2? m e = none := Option.eq_none_iff_forall_ne_some.2 fun p hp => h p (ho.pow2?_iff.1 hp)
  rw [flg2Value_fin hd ho.pos, hp]
  simp only [nearOne_iff ho h]
  exact Fx.within_choose (flg2Fx_lt ho) one_le_two _ _

theorem flg2Value_one (hd : fmt32.decode a.toNat = .fin false m e) (hx : x = 1) : flg2Value a = 0 := by
  rw [flg2Value_fin hd ho.pos, ho.pow2?_iff.2 (show x = 2 ^ (0 : Int) by rw [hx, zpow_zero])]
  rfl

end

end Sys2Proof.Machine
end

section
/-! SUPPORT. FSIN and FCOS (R117): each term of the series is at most 8 times the one before, which keeps the evaluation finite; and no FP32
number lies between 100 pi and the model's value of it. -/

namespace Sys2Proof.Machine
open Sys2Proof.Safety

variable {neg cos : Bool} {k m n v w : Nat} {a : Word} {e p z : Int} {x : ℚ} {y : Fx}

/-! ### The series -/

/-- The next term is at most 8 times the last one, and one for rounding down. -/
theorem abs_trigTerm_le (h0 : 0 ≤ z) (hz : z ≤ 16 * fxOne) (i : Nat) (term : Int) : |term * z / (fxOne * ((i + 1) * (i + 2) : Nat))| ≤ 8 * |term| + 1 := by
  have hone : 0 < fxOne := by decide
  have hK : (2 : Int) ≤ ((i + 1) * (i + 2) : Nat) := by exact_mod_cast (by nlinarith : 2 ≤ (i + 1) * (i + 2))
  generalize (((i + 1) * (i + 2) : Nat) : Int) = K at *
  generalize fxOne = c at *
  have hd : 0 < c * K := mul_pos hone (by omega)
  have hbound : |term * z| ≤ 8 * |term| * (c * K) := by
    rw [abs_mul, abs_of_nonneg h0]
    calc |term| * z ≤ |term| * (16 * c) := by gcongr
      _ = 8 * |term| * (c * 2) := by ring
      _ ≤ 8 * |term| * (c * K) := by gcongr
  obtain ⟨h1, h2⟩ := abs_le.1 hbound
  rw [abs_le]
  constructor
  · rw [Int.le_ediv_iff_mul_le hd]
    nlinarith
  · have := Int.ediv_le_of_le_mul hd h2
    omega

/-- A rough bound of the series. -/
theorem abs_trigTerms_le (h0 : 0 ≤ z) (hz : z ≤ 16 * fxOne) : ∀ n i term sum, |trigTerms z n i term sum| ≤ |sum| + (2 * 8 ^ n - 2) * (|term| + 1) := by
  intro n
  induction n with
  | zero => simp [trigTerms]
  | succ n ih =>
    intro i term sum
    rw [trigTerms]
    have ht := abs_trigTerm_le h0 hz i term
    rw [← abs_neg] at ht
    generalize -(term * z / (fxOne * ((i + 1) * (i + 2) : Nat))) = t at *
    have h8 : (1 : Int) ≤ 8 ^ n := one_le_pow₀ (by norm_num)
    calc |trigTerms z n (i + 2) t (sum + t)| ≤ |sum + t| + (2 * 8 ^ n - 2) * (|t| + 1) := ih ..
      _ ≤ |sum| + (8 * |term| + 1) + (2 * 8 ^ n - 2) * (8 * |term| + 1 + 1) := by
        have := abs_add_le sum t
        have : (2 * 8 ^ n - 2 : Int) * (|t| + 1) ≤ (2 * 8 ^ n - 2) * (8 * |term| + 1 + 1) := mul_le_mul_of_nonneg_left (by omega) (by omega)
        linarith
      _ ≤ |sum| + (2 * 8 ^ (n + 1) - 2) * (|term| + 1) := by
        rw [pow_succ]
        have := abs_nonneg term
        nlinarith

/-- An argument reduced modulo 2 pi. -/
def reduced (v : Int) : Int := if v % (2 * fxPi) > fxPi then v % (2 * fxPi) - 2 * fxPi else v % (2 * fxPi)

theorem abs_reduced_le (v : Int) : |reduced v| ≤ fxPi := by
  have hp : (0 : Int) < 2 * fxPi := by decide
  have h1 := Int.emod_nonneg v hp.ne'
  have h2 := Int.emod_lt_of_pos v hp
  unfold reduced
  generalize v % (2 * fxPi) = r at *
  rw [abs_le]
  split_ifs <;> omega

/-- The series, from the sine's or the cosine's first term. -/
@[irreducible] def trigSeries (cos : Bool) (r : Int) : Int := if cos then trigTerms (r * r / fxOne) 40 0 fxOne fxOne else trigTerms (r * r / fxOne) 40 1 r r

theorem fxTrig_eq (cos : Bool) (x : Fx) : fxTrig cos x = ⟨trigSeries cos (reduced (x.y * 2 ^ (x.sc + 176).toNat * 2 ^ 24)), -200⟩ := by
  delta trigSeries
  rfl

theorem abs_trigSeries_le {r : Int} (h : |r| ≤ fxPi) : |trigSeries cos r| ≤ 2 ^ 163 * 2 ^ 163 := by
  have hr : r * r ≤ fxPi * fxPi := by
    rw [← abs_mul_abs_self r]
    exact mul_self_le_mul_self (abs_nonneg r) h
  have h0 : 0 ≤ r * r / fxOne := Int.ediv_nonneg (mul_self_nonneg r) (by decide)
  have hz : r * r / fxOne ≤ 16 * fxOne := (Int.ediv_le_ediv (by decide) hr).trans (by decide)
  have key (i : Nat) {t : Int} (ht : |t| ≤ fxPi) : |trigTerms (r * r / fxOne) 40 i t t| ≤ 2 ^ 163 * 2 ^ 163 := by
    refine (abs_trigTerms_le h0 hz 40 i t t).trans ?_
    have hpi : fxPi ≤ 2 ^ 202 := by decide
    have ht' := ht.trans hpi
    generalize |t| = b at *
    calc b + (2 * 8 ^ 40 - 2) * (b + 1) ≤ 2 ^ 202 + (2 * 8 ^ 40 - 2) * (2 ^ 202 + 1) := by gcongr
      _ ≤ 2 ^ 163 * 2 ^ 163 := by norm_num
  delta trigSeries
  cases cos
  · exact key 1 h
  · exact key 0 (by decide)

theorem fxTrig_lt (cos : Bool) (x : Fx) : |(fxTrig cos x).val| < tie32 := by
  rw [fxTrig_eq, Fx.val, abs_mul, abs_of_pos (by positivity : (0 : ℚ) < 2 ^ (-200 : Int))]
  have h : |((trigSeries cos (reduced (x.y * 2 ^ (x.sc + 176).toNat * 2 ^ 24)) : Int) : ℚ)| ≤ 2 ^ 163 * 2 ^ 163 := by
    exact_mod_cast abs_trigSeries_le (cos := cos) (abs_reduced_le _)
  dsimp only
  generalize ((trigSeries cos (reduced (x.y * 2 ^ (x.sc + 176).toNat * 2 ^ 24)) : Int) : ℚ) = b at *
  calc |b| * 2 ^ (-200 : Int) ≤ 2 ^ 163 * 2 ^ 163 * 2 ^ (-200 : Int) := by gcongr
    _ < tie32 := by norm_num [tie32]

/-! ### 100 pi -/

/-- No FP32 number lies between two bounds of which `2 ^ 15` times has one integer part. -/
theorem lt_abs32_iff (h : rational (fmt32.decode w) = some x) {c : ℝ} (h1 : 10294370 ≤ c * 2 ^ 15) (h2 : c * 2 ^ 15 < 10294371) : c < |(x : ℝ)| ↔ 10294371 ≤ |x| * 2 ^ 15 := by
  constructor
  · intro hc
    have h8 : (2 : ℚ) ^ (8 : Int) ≤ |x| := by
      have : ((2 ^ (8 : Int) : ℚ) : ℝ) ≤ ((|x| : ℚ) : ℝ) := by push_cast; linarith
      exact_mod_cast this
    obtain ⟨b, hb⟩ := exists_multiple32 h h8
    have hx : |x| * 2 ^ 15 = (|b| : Int) := by
      rw [hb, abs_mul, abs_of_pos (by positivity : (0 : ℚ) < 2 ^ (8 - 23 : Int)), mul_assoc]
      norm_num
    have hx' : |(x : ℝ)| * 2 ^ 15 = ((|b| : Int) : ℝ) := by exact_mod_cast congrArg (fun q : ℚ => (q : ℝ)) hx
    have hlt : ((10294370 : Int) : ℝ) < ((|b| : Int) : ℝ) := by rw [← hx']; push_cast; linarith
    rw [hx]
    exact_mod_cast Int.cast_lt.1 hlt
  · intro hx
    have : ((10294371 : ℚ) : ℝ) ≤ ((|x| * 2 ^ 15 : ℚ) : ℝ) := Rat.cast_le.2 hx
    push_cast at this
    linarith

theorem lt_hundredPi_iff (h : rational (fmt32.decode w) = some x) : 100 * Real.pi < |(x : ℝ)| ↔ 10294371 ≤ |x| * 2 ^ 15 :=
  lt_abs32_iff h (by linarith [Real.pi_gt_d20]) (by linarith [Real.pi_lt_d20])

section
variable (ho : Operand32 neg m e x)
include ho

theorem beyond100pi_iff (hd : fmt32.decode w = .fin neg m e) : beyond100pi m e = true ↔ 100 * Real.pi < |(x : ℝ)| := by
  have hx : rational (fmt32.decode w) = some x := by rw [hd, rational_fin, ho.value]
  have hmag : ((m * 2 ^ (e + 200).toNat : Nat) : ℝ) = |(x : ℝ)| * 2 ^ 200 := by
    have h2 : ((m * 2 ^ (e + 200).toNat : Nat) : ℚ) = |x| * 2 ^ 200 := by
      rw [ho.magnitude]
      exact natCast_mul_two_pow 200 (by have := ho.least; push_cast; omega)
    exact_mod_cast congrArg (fun q : ℚ => (q : ℝ)) h2
  have hpi : ((100 * fxPi : Int) : ℝ) / 2 ^ 200 < |(x : ℝ)| ↔ 10294371 ≤ |x| * 2 ^ 15 := lt_abs32_iff hx (by norm_num [fxPi]) (by norm_num [fxPi])
  rw [lt_hundredPi_iff hx, ← hpi, div_lt_iff₀ (by positivity), ← hmag, beyond100pi, decide_eq_true_eq, ← Int.cast_lt (R := ℝ)]
  push_cast
  rfl

theorem fsin_small_iff : m = 0 ∨ (m : Int) * 2 ^ (e + 149).toNat < 2 ^ 137 ↔ |x| < 2 ^ (-12 : Int) := by
  rw [or_iff_right ho.pos.ne', ho.magnitude, ← mul_lt_mul_iff_left₀ (by positivity : (0 : ℚ) < 2 ^ 149), ← natCast_mul_two_pow 149 ho.least]
  norm_num
  exact_mod_cast Iff.rfl

end

/-! ### The values -/

theorem grid32_one : fmt32.grid 0x3F800000 = 1 := by
  rw [Fmt.grid, fmt32_unit, show fmt32.steps 0x3F800000 = 2 ^ 149 by decide +kernel]
  norm_num

/-- A free value of [-1, 1]. -/
theorem unitValue_le (w : Word) : Value32 (unitValue w) fun y => |y| ≤ 1 := by
  unfold unitValue
  split_ifs with h
  · have hk : w.toNat % 2 ^ 31 ≤ fmt32.maxBits := h.trans (by decide)
    refine ⟨w.isLt, _, Fmt.rational_decode hk, ?_⟩
    show |sgn _ * fmt32.grid _| ≤ 1
    rw [abs_sgn_mul, abs_of_nonneg (fmt32.grid_nonneg _), ← grid32_one]
    exact fmt32.grid_le.2 h
  · exact ⟨by norm_num, 0, rational_decode_zero32, by norm_num⟩

/-- The free value where it is within an absolute bound, else the rounded one. -/
def Fx.nearOrRound (y : Fx) (w : Word) (t : Int) : Nat :=
  match fxOf w.toNat with
  | some v => if v.near y 1 t then w.toNat else y.round
  | none => y.round

theorem Fx.within_nearOrRound (hlt : |y.val| < tie32) (hk : 1 ≤ k) (w : Word) (t : Int) : Within (y.nearOrRound w t) y k (some t) := by
  unfold Fx.nearOrRound
  split
  · next f hf =>
    split_ifs with h
    · rw [Fx.near_iff, Nat.cast_one, one_mul] at h
      exact ⟨w.isLt, f.val, rational_of_fxOf hf, .inr ⟨t, rfl, h⟩⟩
    · exact Fx.within_round hlt hk _
  · exact Fx.within_round hlt hk _

/-- What the sine or the cosine delivers of its evaluation. -/
def Fx.trigChoose (y : Fx) (w : Word) : Nat := if y.y.natAbs ≥ 2 ^ 180 then y.choose w 2 none else y.nearOrRound w (-42)

theorem Fx.within_trigChoose (hlt : |y.val| < tie32) (w : Word) : Within (y.trigChoose w) y 2 (if 2 ^ 180 ≤ y.y.natAbs then none else some (-42)) := by
  unfold Fx.trigChoose
  split_ifs
  · exact Fx.within_choose hlt one_le_two w none
  · exact Fx.within_nearOrRound hlt one_le_two w (-42)

/-- The operand as a fixed-point value. -/
def signedFx (neg : Bool) (m : Nat) (e : Int) : Fx := ⟨if neg then -(m : Int) else m, e⟩

theorem fsinValue_fin (hd : fmt32.decode a.toNat = .fin neg m e) : fsinValue a =
    if m = 0 ∨ (m : Int) * 2 ^ (e + 149).toNat < 2 ^ 137 then a.toNat else if beyond100pi m e then unitValue (Config.fsin a)
    else (fxTrig false (signedFx neg m e)).trigChoose (Config.fsin a) := by
  rw [fsinValue, hd]
  rfl

theorem fcosValue_fin (hd : fmt32.decode a.toNat = .fin neg m e) (hm : 0 < m) : fcosValue a =
    if beyond100pi m e then unitValue (Config.fcos a) else (fxTrig true (signedFx neg m e)).trigChoose (Config.fcos a) := by
  rw [fcosValue, hd]
  simp only [if_neg hm.ne']
  rfl

section
variable (ho : Operand32 neg m e x) (hd : fmt32.decode a.toNat = .fin neg m e)
include ho hd

theorem fsinValue_small (h : |x| < 2 ^ (-12 : Int)) : fsinValue a = a.toNat := by
  rw [fsinValue_fin hd, if_pos ((fsin_small_iff ho).2 h)]

theorem fsinValue_beyond (h : 100 * Real.pi < |(x : ℝ)|) : Value32 (fsinValue a) fun y => |y| ≤ 1 := by
  have hlarge : ¬ |x| < 2 ^ (-12 : Int) := fun hs => by
    have hs := (Rat.cast_lt (K := ℝ)).2 hs
    push_cast at hs
    have : (2 : ℝ) ^ (-12 : Int) < 1 := by norm_num
    linarith [Real.pi_gt_three]
  rw [fsinValue_fin hd, if_neg (mt (fsin_small_iff ho).1 hlarge), if_pos ((beyond100pi_iff ho hd).2 h)]
  exact unitValue_le _

theorem fsinValue_within (h1 : 2 ^ (-12 : Int) ≤ |x|) (h2 : |(x : ℝ)| ≤ 100 * Real.pi) :
    Within (fsinValue a) (fxTrig false (signedFx neg m e)) 2 (if 2 ^ 180 ≤ (fxTrig false (signedFx neg m e)).y.natAbs then none else some (-42)) := by
  rw [fsinValue_fin hd, if_neg (mt (fsin_small_iff ho).1 (not_lt.2 h1)), if_neg (mt (beyond100pi_iff ho hd).1 (not_lt.2 h2))]
  exact Fx.within_trigChoose (fxTrig_lt ..) _

theorem fcosValue_beyond (h : 100 * Real.pi < |(x : ℝ)|) : Value32 (fcosValue a) fun y => |y| ≤ 1 := by
  rw [fcosValue_fin hd ho.pos, if_pos ((beyond100pi_iff ho hd).2 h)]
  exact unitValue_le _

theorem fcosValue_within (h : |(x : ℝ)| ≤ 100 * Real.pi) :
    Within (fcosValue a) (fxTrig true (signedFx neg m e)) 2 (if 2 ^ 180 ≤ (fxTrig true (signedFx neg m e)).y.natAbs then none else some (-42)) := by
  rw [fcosValue_fin hd ho.pos, if_neg (mt (beyond100pi_iff ho hd).1 (not_lt.2 h))]
  exact Fx.within_trigChoose (fxTrig_lt ..) _

end

end Sys2Proof.Machine
end

section
/-! PROOF. O8: the approximate functions (R117). -/

namespace Sys2Proof.Machine
open Sys2Proof.Safety

/-- The zeros and the infinities. -/
theorem approx_special :
    ([0x00000000#32, 0x80000000#32, 0x7F800000#32, 0xFF800000#32].map frcpValue = [0x7F800000, 0xFF800000, 0, 0x80000000])
    ∧ ([0x00000000#32, 0x80000000#32, 0x7F800000#32, 0xFF800000#32].map frsqValue = [0x7F800000, 0xFF800000, 0, 0x7FC00000])
    ∧ ([0x00000000#32, 0x80000000#32, 0x7F800000#32, 0xFF800000#32].map fex2Value = [0x3F800000, 0x3F800000, 0x7F800000, 0])
    ∧ ([0x00000000#32, 0x80000000#32, 0x7F800000#32, 0xFF800000#32].map flg2Value = [0xFF800000, 0xFF800000, 0x7F800000, 0x7FC00000])
    ∧ ([0x00000000#32, 0x80000000#32, 0x7F800000#32, 0xFF800000#32].map fsinValue = [0, 0x80000000, 0x7FC00000, 0x7FC00000])
    ∧ ([0x00000000#32, 0x80000000#32, 0x7F800000#32, 0xFF800000#32].map fcosValue = [0x3F800000, 0x3F800000, 0x7FC00000, 0x7FC00000]) := by
  decide +kernel

theorem approx_nan {w : Word} (h : fmt32.decode w.toNat = .nan) :
    frcpValue w = 0x7FC00000 ∧ frsqValue w = 0x7FC00000 ∧ fex2Value w = 0x7FC00000 ∧ flg2Value w = 0x7FC00000 ∧ fsinValue w = 0x7FC00000 ∧ fcosValue w = 0x7FC00000 := by
  rw [frcpValue, frsqValue, fex2Value, flg2Value, fsinValue, fcosValue, h]
  exact ⟨rfl, rfl, rfl, rfl, rfl, rfl⟩

/-- Settles O8: each function's evaluation is compared with the exact value where R117 names it, and what is delivered with the evaluation. -/
theorem approximationsFollowR117 : Obligations.ApproximationsFollowR117 := by
  obtain ⟨h1, h2, h3, h4, h5, h6⟩ := approx_special
  refine ⟨⟨h1, h2, h3, h4, h5, h6, fun w hw => approx_nan hw⟩, fun w x hx hx0 => ?_⟩
  obtain ⟨neg, m, e, hd, ho⟩ := operand32 hx hx0
  have hneg (h : 0 < x) : neg = false := by
    by_contra hn
    exact absurd (ho.lt_zero_iff.2 (by simpa using hn)) (not_lt.2 h.le)
  refine ⟨frcpValue_infinite ho hd, frcpValue_finite ho hd, fun h => ?_, fun h => ?_, fex2Value_high ho hd, fex2Value_low ho hd,
    fun n hn => fex2Value_whole ho hd hn, fun n hn => ?_, fun h => ?_, fsinValue_small ho hd,
    fun h => ⟨fsinValue_beyond ho hd h, fcosValue_beyond ho hd h⟩, fun neg' m' e' hd' => ?_⟩
  · obtain rfl := ho.lt_zero_iff.1 h
    exact ⟨frsqValue_negative hd ho.pos, flg2Value_negative hd ho.pos⟩
  · obtain rfl := hneg h
    exact frsqValue_positive ho hd
  · obtain rfl := hneg (hn ▸ by positivity)
    exact flg2Value_pow ho hd hn
  · obtain rfl := hneg (h ▸ one_pos)
    exact flg2Value_one ho hd h
  · obtain ⟨rfl, rfl, rfl⟩ := FV.fin.inj (hd.symm.trans hd')
    refine ⟨fun h1 h2 h => ?_, fun h1 h => ?_, fun h1 h2 => (fsinValue_within ho hd h1 h2).near, fun h => (fcosValue_within ho hd h).near⟩
    · rw [← fex2Fx_eq]
      exact (fex2Value_between ho hd h1 h2 h).near
    · obtain rfl := hneg h1
      rw [← flg2Fx_eq]
      exact (flg2Value_between ho hd h).near

end Sys2Proof.Machine
end

section
/-! PROOF of O58: a step runs the decoded word or the event whose turn it is. -/

namespace Sys2Proof.Machine
open Sys2Proof.Safety

/-! ### From a plan to its step -/

/-- What a plan comes to: its instruction or event runs, and the step passes. -/
def Plan.carried (p : Plan) : Host.Outcome State Fault Refusal :=
  match p.run with
  | none => .next p.st.tick
  | some i =>
    match exec i p.st with
    | .next t => .next t.tick
    | .fault f => .fault f
    | .refused r => .refused r

theorem step_eq_carried (s : State) : step s = s.plan.carried := rfl

theorem step_of_idle {s x : State} (h : s.plan = ⟨x, none⟩) : step s = .next x.tick := congrArg Plan.carried h

theorem step_of_run {s x : State} {i : Instr} (h : s.plan = ⟨x, some i⟩) : step s = Plan.carried ⟨x, some i⟩ := congrArg Plan.carried h

/-! ### What the plan is -/

section
variable {s : State} {fl : Flock} {k : FKey} {w : Word} {i : Instr}

theorem runWord_of_decodes (hf : s.fetch (s.tenOf k) (s.ctx (s.ctxOf k)).prot fl.addr = .ok w) (hd : decode w = .ok i) :
    s.runWord fl k = ⟨s.walkVa k fl.addr.toNat, some i⟩ := by
  rw [State.runWord, hf]
  simp only [hd]

/-- A unit runs its word where no comparator stands on it (R333). -/
theorem runUnitAt_of_decodes (hc : fl.imxs = [] → s.comparator? fl.q = none)
    (hf : s.fetch (s.tenOf k) (s.ctx (s.ctxOf k)).prot fl.addr = .ok w) (hd : decode w = .ok i) :
    s.runUnitAt fl k = ⟨s.walkVa k fl.addr.toNat, some i⟩ := by
  have hn : (if fl.imxs.isEmpty then s.comparator? fl.q else none) = none := by
    split
    · exact hc (List.isEmpty_iff.1 ‹_›)
    · rfl
  rw [State.runUnitAt, hn]
  exact runWord_of_decodes hf hd

theorem continueChain_of_decodes (hc : fl.imxs = [] → fl.split ≠ some fl.addr ∧ ({ s with cur := fl.q } : State).comparator? fl.q = none)
    (hf : ({ s with cur := fl.q } : State).fetch (s.tenOf k) (s.ctx (s.ctxOf k)).prot fl.addr = .ok w) (hd : decode w = .ok i) :
    s.continueChain fl k = ⟨({ s with cur := fl.q } : State).walkVa k fl.addr.toNat, some i⟩ := by
  have hsplit : (fl.imxs.isEmpty && decide (fl.split = some fl.addr)) = false := by
    rcases hx : fl.imxs with _ | _
    · simp [(hc hx).1]
    · rfl
  rw [State.continueChain, hsplit]
  exact runUnitAt_of_decodes (fun hx => (hc hx).2) hf hd

theorem plan_of_midFlock (hcur : s.curfew = false) (hm : s.midFlock? = some (fl, k)) : s.plan = s.continueChain fl k := by
  rw [State.plan, hcur, hm]
  rfl

theorem plan_of_agenda {p : Pick} {q : List Pick} (hcur : s.curfew = false) (hm : s.midFlock? = none) (ha : s.agenda = p :: q) :
    s.plan = s.runAgenda p q := by
  rw [State.plan, hcur, hm, ha]
  rfl

theorem runAgenda_event (hcur : s.curfew = false) (q : List Pick) :
    s.runAgenda (.event i) q = ⟨{ s with agenda := q }, if i.isWord then none else some i⟩ := by
  simp only [State.runAgenda, hcur, Bool.false_and, Bool.or_false]

theorem plan_of_noAgenda (hcur : s.curfew = false) (hm : s.midFlock? = none) (ha : s.agenda = []) : s.plan = s.planOwn := by
  rw [State.plan, hcur, hm, ha]
  rfl

theorem planOwn_of_event (he : s.event? = some i) : s.planOwn = ⟨s, some i⟩ := by rw [State.planOwn, he]

theorem planOwn_of_formable {q : Nat} (he : s.event? = none) (hq : s.formable? = some q) : s.planOwn = ⟨s, some (.flockForm q)⟩ := by
  simp only [State.planOwn, he, hq]

theorem planOwn_of_issue (he : s.event? = none) (hq : s.formable? = none) : s.planOwn = s.issue?.getD ⟨s, none⟩ := by
  simp only [State.planOwn, he, hq]

/-- The only flock begins its next chain. -/
theorem issue_of_only {ks : List FKey} (hfl : s.flocks = [fl]) (hk : fl.members = k :: ks) (hsnap : fl.snap = []) (himx : fl.imxs = [])
    (hrun : (s.quarter fl.q).stopped = false) : s.issue? = s.beginChain fl k := by
  have hmid : fl.mid = false := by rw [Flock.mid, hsnap, himx]; rfl
  have hf : s.flockIssue? fl = s.beginChain fl k := by
    rw [State.flockIssue?, hmid, hrun, hk]
    rfl
  rw [State.issue?, hfl, List.reverse_singleton, List.findSome?_singleton, hf]

/-- A chain that passes its checks, and of which no member is held, begins with its first word (R67, R74). -/
theorem beginChain_of_checks {us : List ChainUnit} (hcode : s.codeHeld fl = false) (hus : s.chainCheck fl = .ok us) (hheld : s.heldMembers fl = []) :
    s.beginChain fl k = some ((({ s with cur := fl.q } : State).setFlock { fl with split := splitAt (s.snapOf fl) [] us }).runUnitAt
      { fl with split := splitAt (s.snapOf fl) [] us } k) := by
  simp only [State.beginChain, hcode, hus, hheld, Bool.false_eq_true, if_false, List.isEmpty_nil, Bool.not_true]

end

/-- Settles O58: the plan of each case, and the step that it comes to. -/
theorem stepRunsWordsAndEvents : Obligations.StepRunsWordsAndEvents := by
  unfold Obligations.StepRunsWordsAndEvents
  refine ⟨fun s fl k w i hcur hm hc hf hd => ?_, fun s hcur hm => ⟨fun i q ha hw => ?event, fun i q ha hw => ?word, fun i ha he => ?own,
    fun q ha he hq => ?forms, fun ha he hq hi => ?nothing, fun fl k ks us w i ha he hq hfl hk hsnap himx hrun hcode hus hheld hc hf hd => ?begins⟩⟩
  · exact step_of_run ((plan_of_midFlock hcur hm).trans (continueChain_of_decodes hc hf hd))
  case event => exact step_of_run (by rw [plan_of_agenda hcur hm ha, runAgenda_event hcur, hw]; rfl)
  case word => exact step_of_idle (by rw [plan_of_agenda hcur hm ha, runAgenda_event hcur, hw]; rfl)
  case own => exact step_of_run ((plan_of_noAgenda hcur hm ha).trans (planOwn_of_event he))
  case forms => exact step_of_run ((plan_of_noAgenda hcur hm ha).trans (planOwn_of_formable he hq))
  case nothing => exact step_of_idle (by rw [plan_of_noAgenda hcur hm ha, planOwn_of_issue he hq, hi, Option.getD_none])
  case begins =>
    refine step_of_run ?_
    rw [plan_of_noAgenda hcur hm ha, planOwn_of_issue he hq, issue_of_only hfl hk hsnap himx hrun, beginChain_of_checks hcode hus hheld, Option.getD_some]
    exact runUnitAt_of_decodes (fun _ => hc) hf hd

end Sys2Proof.Machine
end

section
/-! PROOF of O21: a load asks for its bytes. -/

namespace Sys2Proof.Machine
open Sys2Proof.Safety

section
variable {h : Hdr} {fl : Flock} {s : State} {f g : Fibre} {d base : RegNo} {la : BitVec 4} {esc : Bool}

theorem eachMember_solo (act : UnitCtx → Fibre → State → State) (hs : Solo h fl f g s) :
    eachMember h act s = (act (unitCtx h fl s) f (s.beginUnit fl)).closeUnit h.c fl := by
  rw [eachMember, runUnit_issues _ (issues_of_solo hs), hs.act, List.foldl_cons, List.foldl_nil]

/-- An access of the scratchpad meets no leaf. -/
theorem spadAccess_leaf {k : FKey} {va n align : Nat} {fe : Bool} {dst : Dest} {l : Option Leaf} (ha : s.spadAccess k va n align fe = .ok dst l) : l = none := by
  unfold State.spadAccess at ha
  split at ha
  · nomatch ha
  · split at ha
    · nomatch ha
    · split at ha
      · nomatch ha
      · exact (Acc.ok.inj ha).2.symm

/-- A global load that its access allows. -/
theorem globalLoad_asks {n : Nat} {signed acq : Bool} {loc : Nat} {l : Option Leaf} (hs : Solo h fl f g s)
    (ha : (s.beginUnit fl).access f.key ((unitCtx h fl s).ea f base) n false = .ok (.home loc) l) :
    ∃ r, Asks (ends h fl ((s.beginUnit fl).touched f.key l ((unitCtx h fl s).ea f base))) (globalLoad h d base la esc n signed acq s) r
      ∧ IsRequest (unitCtx h fl s) f ((unitCtx h fl s).ea f base) n (.home loc) (.load n signed) acq false d (wordsOf n) la.toNat (if esc then some f.esc else none) r := by
  rw [globalLoad, accessUnit_solo _ hs]
  exact requestOne_asks h fl _ _ f loc l _ n _ acq false d _ _ esc _ ha

/-- A load of the scratchpad that its access allows. -/
theorem spadLoad_asks {n : Nat} {signed : Bool} {loc : Nat} (hs : Solo h fl f g s)
    (ha : (s.beginUnit fl).spadAccess f.key ((unitCtx h fl s).ea f base) n n false = .ok (.home loc) none) :
    ∃ r, Asks (passed h fl s) (spadLoad h d base la n signed s) r
      ∧ IsRequest (unitCtx h fl s) f ((unitCtx h fl s).ea f base) n (.home loc) (.load n signed) false false d (wordsOf n) la.toNat none r := by
  rw [spadLoad, accessUnit_solo _ hs]
  exact requestOne_asks h fl _ _ f loc none _ n _ false false d _ _ false _ ha

/-- An LDF that its access allows (R155). -/
theorem exec_ldf_asks {z : Sz3} {loc : Nat} (hs : Solo h fl f g s)
    (ha : (s.beginUnit fl).spadAccess f.key ((unitCtx h fl s).ea f base) (sz3Bytes z) (sz3Bytes z) true = .ok (.home loc) none) :
    ∃ t r, exec (.ldf h d base la esc z) s = .next t ∧ Asks (passed h fl s) t r
      ∧ IsRequest (unitCtx h fl s) f ((unitCtx h fl s).ea f base) (sz3Bytes z) (.home loc) (.ldf (sz3Bytes z)) true false d (wordsOf (sz3Bytes z)) la.toNat
        (if esc then some f.esc else none) r := by
  obtain ⟨r, hr⟩ := requestOne_asks h fl (s.beginUnit fl) (unitCtx h fl s) f loc none ((unitCtx h fl s).ea f base) (sz3Bytes z) (.ldf (sz3Bytes z))
    true false d (wordsOf (sz3Bytes z)) la.toNat esc _ ha
  exact ⟨_, r, congrArg Host.Outcome.next (eachMember_solo _ hs), hr⟩

end

/-- Settles O21: each load is a global one, one of the scratchpad, or an LDF, of its own width. -/
theorem loadsRequest : Obligations.LoadsRequest := by
  unfold Obligations.LoadsRequest
  intro h d base la esc fl f g s hs
  dsimp only
  refine ⟨?_, ?_, ?_, ?_, ?_, ?_, ?_, ?_, ?_, ?_, ?_, ?_, ?_, ?_, ?_, ?_, ?ldf4, ?ldf8, ?ldf16⟩
  case ldf4 | ldf8 | ldf16 => exact fun loc ha => exec_ldf_asks hs ha
  iterate 9 · exact fun loc l ha => (globalLoad_asks hs ha).elim fun r hr => ⟨_, r, rfl, hr⟩
  all_goals exact fun loc ha => (spadLoad_asks hs ha).elim fun r hr => ⟨_, r, rfl, hr⟩

end Sys2Proof.Machine
end

section
/-! PROOF that O28 fails: a fibre that sleeps may stay in its flock.

A fibre waits while its first wait is one (`Fibre.wait`), and its further waits stand behind that one (`Fibre.more`). The statement
takes any member that lives, and so also one whose first wait is none and behind which a wait for nothing is listed: the wait of a
SLEEP joins the list behind it, the member then counts as one that does not wait, and its flock goes on with it (R81). -/

namespace Sys2Proof.Tests
open Sys2Proof.Machine Sys2Proof.Safety

/-- The state `s1`, whose fibre does not wait, with a wait for nothing behind its first. -/
def sHollow : State := s1With fun f => { f with more := [⟨0, 0#64, .none⟩] }

theorem sHollow_solo : Solo h0 fetchFlock (here sHollow) (here sHollow) sHollow := solo_of (by decide +kernel)

/-- After SLEEP 5 the flock still holds the member. -/
theorem sHollow_sleeps : ((after (.sleep h0 5#17) sHollow).flockOf? 0).map (fun v => v.members) = some [k0] := by decide +kernel

theorem after_of_exec {i : Instr} {s t : State} (h : exec i s = .next t) : after i s = t := by
  rw [after, h]

/-- Refutes O28: in `sHollow` the member of a SLEEP stays in its flock. -/
theorem not_hintsMasksAndPacing : ¬ Obligations.HintsMasksAndPacing := by
  unfold Obligations.HintsMasksAndPacing
  intro h
  obtain ⟨-, -, -, -, -, sleeps, -⟩ := h h0 5#17 fetchFlock (here sHollow) (here sHollow) sHollow sHollow_solo
  obtain ⟨t, hexec, -, houtside⟩ := sleeps (by decide)
  have hmembers := sHollow_sleeps
  rw [after_of_exec hexec] at hmembers
  obtain ⟨v, hv, hk⟩ := Option.map_eq_some_iff.1 hmembers
  exact houtside rfl v hv (hk ▸ List.mem_singleton_self k0)

end Sys2Proof.Tests
end

section
/-! PROOF that O43 fails: the record of a fibre that parks may end a WAITC.

A fibre that parks at a hot peer is written to its landing entry (R178), and that write rings the bells on its bytes as any other
(R254). Where a WAITC watches a word of the entry, the write answers it: the list of requests is not what it was, where the statement
has it stand. -/

namespace Sys2Proof.Tests
open Sys2Proof.Machine Sys2Proof.Safety

/-- Another fibre waits, with a bell, until the second word of the landing area's entry 1 is not 0. -/
def watcher : Req := { blankReq with id := 5, key := k1, kind := .waitc false .ne 0#32, dest := .home (0x80000000 + 144 + 4), n := 4, bell := true }

/-- The state of a fibre whose next unit loads from a hot peer, and of `watcher`. -/
def sBelled : State := { sPeer true with reqs := [watcher] }

/-- The leaf of the peer's window. -/
def farLeaf : Leaf := ⟨0, 1, false, false, false, false, 1, 1, 5, 0x20010, 30⟩

theorem sBelled_solo : Solo h0 fetchFlock (here sBelled) (here sBelled) sBelled := solo_of (by decide +kernel)

/-- The load goes to peer 5, which is hot. -/
theorem sBelled_access : sBelled.ownPeer.isSome = true ∧ sBelled.lost 5 = false ∧ farLeaf.mode = 1 ∧ (here sBelled).wb = []
    ∧ (begun sBelled).access k0 ((unitCtx h0 fetchFlock sBelled).ea (here sBelled) 6) (sz3Bytes .b32) false
      = .ok (.peer false 5 1 1 0x80000000) (some farLeaf)
    ∧ sBelled.hotPeer 0 5 = true := by
  and_intros <;> decide +kernel

/-- Entry 1 is the lowest free one of the landing area. -/
theorem sBelled_entry : (here sBelled).res = .resident 0 ∧ sBelled.landHeld (sBelled.ctxOf k0) = false ∧ 1 < sBelled.landEntries (sBelled.ctxOf k0)
    ∧ ∀ j ≤ 1, (sBelled.landRead (sBelled.ctxOf k0) j 0 (16 + 4 * (sBelled.ctx (sBelled.ctxOf k0)).lrec.win)).any
      (fun bs => decide ((bs.getD 4 0#8).getLsbD 0 = false ↔ j = 1)) = true := by
  and_intros <;> decide +kernel

/-- The fibre parks, and the watcher has its answer. -/
theorem sBelled_answers : (after (.ld h0 8 6 0#4 false .b32) sBelled).reqs.map (fun r => r.ans.isSome) = [true]
    ∧ (ends h0 fetchFlock ((begun sBelled).touched k0 (some farLeaf) ((unitCtx h0 fetchFlock sBelled).ea (here sBelled) 6))).reqs.map (fun r => r.ans.isSome)
      = [false] := by
  and_intros <;> decide +kernel

/-- Refutes O43: in `sBelled` the fibre parks at its hot peer, and its record answers `watcher`. -/
theorem not_remoteUnitsAndAnswers : ¬ Obligations.RemoteUnitsAndAnswers := by
  unfold Obligations.RemoteUnitsAndAnswers
  intro h
  obtain ⟨hown, hlost, hmode, hwb, hacc, hhot⟩ := sBelled_access
  obtain ⟨hres, hheld, hentry, hfree⟩ := sBelled_entry
  obtain ⟨hafter, hbefore⟩ := sBelled_answers
  obtain ⟨loads, -⟩ := h.1 h0 8 6 0#4 false fetchFlock (here sBelled) (here sBelled) sBelled 5 1 1 0x80000000 farLeaf sBelled_solo hown hlost hmode hwb
  obtain ⟨-, parks⟩ := loads .b32 hacc
  obtain ⟨t, -, -, hexec, -, hreqs, -⟩ := parks 1 hhot ⟨0, hres⟩ hheld hentry fun j hj => by
    obtain ⟨bs, hbs, hbit⟩ := (Option.any_eq_true _ _).1 (hfree j hj)
    exact ⟨bs, hbs, of_decide_eq_true hbit⟩
  rw [after_of_exec hexec, hreqs] at hafter
  exact absurd (hafter.symm.trans hbefore) (by decide)

end Sys2Proof.Tests
end

section
/-! PROOF of O17: recoverable faults.

A recoverable fault comes to `State.deliver`, which writes the frame at %fault and sends the fibre to %cont (R306, R307). What the
twelve plain writes of a frame do is said once, in `frameWrites_writes`; each unit that faults, and each reply that refuses, then comes
to one call of `deliver`. -/

namespace Sys2Proof.Machine
open Sys2Proof.Safety

/-! ### Tables that are walked alike -/

/-- Fibre `k` finds the same leaves in both states, and may pass the same ones: PROT of its context is the same. -/
structure WalksAlike (k : FKey) (s t : State) : Prop where
  tables : t.mem = s.mem ∧ t.regs = s.regs ∧ t.poison = s.poison
  tenancy : t.tenOf k = s.tenOf k
  prot : (t.ctx (t.ctxOf k)).prot = (s.ctx (s.ctxOf k)).prot

section
variable {s t u : State} {k : FKey}

theorem WalksAlike.trans (h : WalksAlike k s t) (h' : WalksAlike k t u) : WalksAlike k s u := by
  obtain ⟨⟨hm, hr, hp⟩, hten, hprot⟩ := h
  obtain ⟨⟨hm', hr', hp'⟩, hten', hprot'⟩ := h'
  exact ⟨⟨hm'.trans hm, hr'.trans hr, hp'.trans hp⟩, hten'.trans hten, hprot'.trans hprot⟩

theorem walkFrom_congr (hm : t.mem = s.mem) (hp : t.poison = s.poison) (va : Nat) :
    ∀ (ls : List (Nat × Nat)) (lv table : Nat), walkFrom t va lv table ls = walkFrom s va lv table ls
  | [], _, _ => rfl
  | (sh, w) :: ls, lv, table => by
    simp only [walkFrom, State.poisoned, hm, hp, walkFrom_congr hm hp va ls]; rfl

theorem WalksAlike.translate (h : WalksAlike k s t) (va : Nat) : t.translate (t.tenOf k) va = s.translate (s.tenOf k) va := by
  obtain ⟨⟨hm, hr, hp⟩, hten, -⟩ := h
  have hreg (off : Nat) : t.reg off = s.reg off := by rw [State.reg, hr, State.reg]
  rw [State.translate, State.translate, hten]
  simp only [hreg, walkFrom_congr hm hp]

theorem WalksAlike.writable (h : WalksAlike k s t) (va : Nat) : t.writable? k va = s.writable? k va := by
  have hown : t.ownPeer = s.ownPeer := by rw [State.ownPeer, State.reg, h.tables.2.1, State.ownPeer, State.reg]
  have hd (l : Leaf) : t.destOf l va = s.destOf l va := by rw [State.destOf, hown, State.destOf]
  simp only [State.writable?, h.translate, h.prot, hd]

theorem WalksAlike.frameOk (h : WalksAlike k s t) (va : Nat) : t.frameOk k va = s.frameOk k va := by
  simp only [State.frameOk, h.writable]

theorem WalksAlike.uncounted (h : WalksAlike k s t) {va : Nat} (hu : UncountedFrame s k va) : UncountedFrame t k va :=
  fun i hi l hl => hu i hi l ((h.translate _).symm.trans hl)

/-! ### The access that a write of a frame makes -/

/-- What updates of a context leave of it, they leave of every context. -/
theorem ctx_updCtx {α : Type} (p : Ctx → α) (s : State) (c n : Nat) (g : Ctx → Ctx) (hg : ∀ x, p (g x) = p x) : p ((s.updCtx c g).ctx n) = p (s.ctx n) := by
  unfold State.updCtx
  split
  next x hx =>
    show p ((s.ctxs.set c (g x)).getD n blankCtx) = _
    rw [tab_getD_set]
    split
    next hc =>
      subst hc
      rw [hg, State.ctx, Tab.getD, hx, Option.getD_some]
    next => rfl
  next => rfl

/-- A leaf that is met changes nothing of a context but what it has walked. -/
theorem ctx_meetLeaf {α : Type} (p : Ctx → α) (hp : ∀ (x : Ctx) w, p { x with walked := w } = p x) (s : State) (c : Option Nat) (l : Leaf) (va n : Nat) :
    p ((s.meetLeaf c l va).ctx n) = p (s.ctx n) := by
  have hmark (s : State) (loc : Nat) : p ((s.markLeaf c l loc).ctx n) = p (s.ctx n) := by
    unfold State.markLeaf
    cases c with
    | none => dsimp only; split <;> rfl
    | some c =>
      dsimp only
      split
      · rfl
      · exact ctx_updCtx p s c n _ fun x => hp x _
  have hask (pg : Nat) : (s.askBias pg l.hb).ctx n = s.ctx n := by rw [askBias_only]; rfl
  unfold State.meetLeaf
  dsimp only
  split
  · rfl
  · split
    · rw [hmark, hask]
    · rw [hask]

theorem joinWalk_only (s : State) (k : FKey) (va : Nat) : s.joinWalk k va = { s with kn := (s.joinWalk k va).kn, fibres := (s.joinWalk k va).fibres } := by
  unfold State.joinWalk
  dsimp only
  split
  · rfl
  · rw [show s.learnWalk k.die (s.tenOf k) va = { s with kn := (s.learnWalk k.die (s.tenOf k) va).kn } from
      foldl_kn_only _ (fun (s : State) e => s.learnRead k.die _ e 8) (fun s e => learnRead_only _ _ _ _ _) s]
    rfl

theorem prot_touchLeaf (s : State) (k : FKey) {l : Leaf} (hl : l.mode ≠ 3) (va n : Nat) : ((s.touchLeaf k l va).ctx n).prot = (s.ctx n).prot := by
  have hjoin : ((s.joinWalk k va).ctx n).prot = (s.ctx n).prot := by rw [joinWalk_only]; rfl
  rw [State.touchLeaf, State.countLeaf, if_pos hl, ctx_meetLeaf Ctx.prot (fun _ _ => rfl), hjoin]

/-- An access whose leaf is not of mode 11 leaves the tables as they are. -/
theorem walksAlike_touchLeaf (s : State) (k j : FKey) {l : Leaf} (hl : l.mode ≠ 3) (va : Nat) : WalksAlike k s (s.touchLeaf j l va) := by
  have hm : Meets s (s.touchLeaf j l va) j := touched_meets j (some l) va s fun z hz => Option.some.inj hz ▸ hl
  have hprot := prot_touchLeaf s j hl va
  obtain ⟨C, P, O, K, F, he⟩ : ∃ C P O K F, s.touchLeaf j l va = { s with ctxs := C, pages := P, out := O, kn := K, fibres := F } := ⟨_, _, _, _, _, hm.rest⟩
  rw [he] at hprot ⊢
  exact ⟨⟨rfl, rfl, rfl⟩, rfl, hprot _⟩

/-! ### The writes of a frame -/

/-- The bytes that a plain write stores. -/
def BufWrite.stored (w : BufWrite) : List Byte :=
  match w.kind with
  | .store bs => bs
  | _ => []

/-- `ws` are `n` plain writes of 16 bytes, in address order from `va` on, that store the first `16 * n` bytes of `bs`. -/
structure StoresPieces (ws : List BufWrite) (va n : Nat) (bs : List Byte) : Prop where
  count : ws.length = n
  plain : ∀ w ∈ ws, w.n = 16 ∧ w.rel = false
  places : ws.map (fun w => w.pva) = (List.range n).map fun j => va + 16 * j
  bytes : ws.flatMap BufWrite.stored = bs.take (16 * n)

/-- `t` is `s` with the writes of `n` pieces of a frame of fibre `k` in its write buffer; its accesses may have marked pages and contexts,
and what its view names may have grown. -/
structure WritesFrame (k : FKey) (va n : Nat) (bs : List Byte) (s t : State) : Prop where
  rest : t = { s with ctxs := t.ctxs, pages := t.pages, out := t.out, kn := t.kn, fibres := t.fibres, serial := t.serial }
  others : ∀ j, j ≠ k → t.fibre? j = s.fibre? j
  own : ∀ g, s.fibre? k = some g → ∃ ws v, t.fibre? k = some { g with wb := g.wb ++ ws, view := v } ∧ StoresPieces ws va n bs

theorem storesPieces_nil (va : Nat) (bs : List Byte) : StoresPieces [] va 0 bs := ⟨rfl, by simp, rfl, by simp⟩

theorem StoresPieces.cons {ws : List BufWrite} {va n : Nat} {bs : List Byte} (h : StoresPieces ws (va + 16) n (bs.drop 16)) {w : BufWrite} (hn : w.n = 16)
    (hrel : w.rel = false) (hva : w.pva = va) (hb : w.kind = .store (bs.take 16)) : StoresPieces (w :: ws) va (n + 1) bs := by
  obtain ⟨hcount, hplain, hplaces, hbytes⟩ := h
  refine ⟨by rw [List.length_cons, hcount], ?_, ?_, ?_⟩
  · simpa [hn, hrel] using hplain
  · rw [List.map_cons, hplaces, List.range_succ_eq_map, List.map_cons, List.map_map, hva]
    refine congrArg₂ _ rfl (List.map_congr_left fun j _ => ?_)
    simp only [Function.comp, Nat.succ_eq_add_one]
    omega
  · rw [List.flatMap_cons, hbytes, BufWrite.stored, hb, Nat.mul_succ, Nat.add_comm, List.take_add]

/-- One piece of a frame: its access, and its write at the tail of the write buffer. -/
theorem framePiece_writes (s : State) (k : FKey) {l : Leaf} (hl : l.mode ≠ 3) (seq : Nat) (d : Dest) (kind : WKind) (va : Nat) :
    let t := (s.touchLeaf k l va).bufferWrite k seq d 16 kind false va
    WalksAlike k s t ∧ t = { s with ctxs := t.ctxs, pages := t.pages, out := t.out, kn := t.kn, fibres := t.fibres, serial := t.serial }
      ∧ (∀ j, j ≠ k → t.fibre? j = s.fibre? j)
      ∧ ∀ g, s.fibre? k = some g → ∃ w v, t.fibre? k = some { g with wb := g.wb ++ [w], view := v } ∧ w.n = 16 ∧ w.rel = false ∧ w.pva = va ∧ w.kind = kind := by
  intro t
  have hm : Meets s (s.touchLeaf k l va) k := touched_meets k (some l) va s fun z hz => Option.some.inj hz ▸ hl
  obtain ⟨hrest, v, hf⟩ := hm
  have hother (j : FKey) (hj : j ≠ k) : (s.touchLeaf k l va).fibre? j = s.fibre? j := by
    rw [show (s.touchLeaf k l va).fibre? j = _ from hf j]
    cases s.fibre? j with
    | none => rfl
    | some g => rw [Option.map_some, if_neg hj]
  have ht (j : FKey) : t.fibre? j = if j = k then ((s.touchLeaf k l va).fibre? k).map fun g =>
      { g with wb := g.wb ++ [⟨(s.touchLeaf k l va).serial, seq, d, 16, kind, false, va, false, false⟩], view := g.view.name (s.touchLeaf k l va).serial }
      else (s.touchLeaf k l va).fibre? j := fibre?_bufferPage _ k j _ _ _ _ _ _ _ _
  refine ⟨?_, ?_, fun j hj => ?_, fun g hg => ?_⟩
  · obtain ⟨htab, hten, hprot⟩ := walksAlike_touchLeaf s k k hl va
    exact ⟨htab, hten, hprot⟩
  · obtain ⟨C, P, O, K, F, he⟩ : ∃ C P O K F, s.touchLeaf k l va = { s with ctxs := C, pages := P, out := O, kn := K, fibres := F } := ⟨_, _, _, _, _, hrest⟩
    simp only [t, he]
    rfl
  · rw [ht, if_neg hj, hother j hj]
  · rw [ht, if_pos rfl, show (s.touchLeaf k l va).fibre? k = _ from hf k, hg, Option.map_some, Option.map_some, if_pos rfl]
    exact ⟨⟨(s.touchLeaf k l va).serial, seq, d, 16, kind, false, va, false, false⟩, _, rfl, rfl, rfl, rfl, rfl⟩

/-- The pieces of a frame that may be written, and whose leaves are not of mode 11, are written one after the other. -/
theorem frameWrites_writes (k : FKey) (seq : Nat) : ∀ (n va : Nat) (bs : List Byte) (s : State), (∀ j < n, (s.writable? k (va + 16 * j)).isSome = true) →
    (∀ j < n, ∀ l, s.translate (s.tenOf k) (va + 16 * j) = .ok l → l.mode ≠ 3) → WritesFrame k va n bs s (s.frameWrites k seq va n bs)
  | 0, va, bs, s, _, _ => ⟨rfl, fun _ _ => rfl, fun g hg => ⟨[], g.view, by rw [List.append_nil]; exact hg, storesPieces_nil va bs⟩⟩
  | n + 1, va, bs, s, hw, hl => by
    obtain ⟨d, hd⟩ := Option.isSome_iff_exists.1 (hw 0 (Nat.succ_pos n))
    rw [Nat.mul_zero, Nat.add_zero] at hd
    obtain ⟨l, htr⟩ : ∃ l, s.translate (s.tenOf k) va = .ok l := by
      rw [State.writable?] at hd
      split at hd
      · exact ⟨_, ‹_›⟩
      · nomatch hd
      · nomatch hd
    obtain ⟨halike, hrest, hothers, hown⟩ := framePiece_writes s k (hl 0 (Nat.succ_pos n) l htr) seq d (.store (bs.take 16)) va
    have hstep : s.frameWrites k seq va (n + 1) bs
        = ((s.touchLeaf k l va).bufferWrite k seq d 16 (.store (bs.take 16)) false va).frameWrites k seq (va + 16) n (bs.drop 16) := by
      rw [State.frameWrites, hd]
      simp only [State.accessVa, htr]
    have hnext (j : Nat) : va + 16 + 16 * j = va + 16 * (j + 1) := by omega
    obtain ⟨irest, iothers, iown⟩ := frameWrites_writes k seq n (va + 16) (bs.drop 16) _
      (fun j hj => by rw [hnext, halike.writable]; exact hw (j + 1) (Nat.succ_lt_succ hj))
      (fun j hj l hl' => by rw [hnext, halike.translate] at hl'; exact hl (j + 1) (Nat.succ_lt_succ hj) l hl')
    rw [hstep]
    refine ⟨?_, fun j hj => (iothers j hj).trans (hothers j hj), fun g hg => ?_⟩
    · rw [irest, hrest]
    · obtain ⟨w, v, hg', hn, hrel, hva, hkind⟩ := hown g hg
      obtain ⟨ws, v', hg'', hpieces⟩ := iown _ hg'
      exact ⟨w :: ws, v', by rw [hg'', List.append_assoc, List.singleton_append], hpieces.cons hn hrel hva hkind⟩

theorem length_frameBytes (f : Fibre) (x : Household) (r : FaultRec) : (frameBytes f x r).length = 192 := by
  have hregs : ((maskRegs r.mask f.regs).toList.flatMap fun w => leBytes 4 w.toNat).length = 128 := by
    rw [List.length_flatMap]
    simp [length_leBytes]
  simp only [frameBytes, List.length_append, length_leBytes, hregs]

end


/-! ### The fibre takes the fault -/

section
variable {h : Hdr} {fl : Flock} {s t x y : State} {k : FKey} {o f g : Fibre} {r : FaultRec}

theorem not_mem_without {y z : Flock} (hz : Flock.without k y = some z) : k ∉ z.members := by
  unfold Flock.without at hz
  split at hz
  next hk =>
    obtain rfl := Option.some.inj hz
    simpa using hk
  next =>
    dsimp only at hz
    split at hz
    · nomatch hz
    · obtain rfl := Option.some.inj hz
      simp

/-- A fibre that has left its flock is in none. -/
theorem leaveFlock_outside (s : State) (k : FKey) : ∀ y ∈ (s.leaveFlock k).flocks, k ∉ y.members := by
  intro y hy
  obtain ⟨z, -, hz⟩ := List.mem_filterMap.1 hy
  exact not_mem_without hz

/-- The end of a unit makes no fibre a member of a flock. -/
theorem closeFlock_outside (s : State) (c : Bool) (q : Nat) (hk : ∀ y ∈ s.flocks, k ∉ y.members) : ∀ y ∈ (s.closeFlock c q).flocks, k ∉ y.members := by
  have hend : ∀ y ∈ (s.endFlock q).flocks, k ∉ y.members := fun y hy => hk y (List.mem_filter.1 hy).1
  unfold State.closeFlock
  split
  · exact hk
  next fl hfl =>
    have hin : k ∉ fl.members := hk fl (List.mem_of_find?_eq_some hfl)
    have hset (z : Flock) (hz : k ∉ z.members) : ∀ y ∈ (s.setFlock z).flocks, k ∉ y.members := by
      intro y hy
      rcases List.mem_cons.1 hy with rfl | hy
      · exact hz
      · exact hk y (List.mem_filter.1 hy).1
    have hstay : k ∉ fl.members.filter fun k => s.goesOn k := fun hm => hin (List.mem_filter.1 hm).1
    dsimp only
    split
    · exact hend
    split
    · split
      · exact hk
      · exact hset _ hstay
    split
    · exact hend
    · exact hset _ hstay

theorem closeUnit_outside (s : State) (h : Hdr) (fl : Flock) (hk : ∀ y ∈ s.flocks, k ∉ y.members) : ∀ y ∈ (s.closeUnit h.c fl).flocks, k ∉ y.members := by
  rw [State.closeUnit]
  refine closeFlock_outside _ _ _ ?_
  split
  · exact hk
  · exact hk

theorem cutAt_after (f : Fibre) (a : DWord) : (f.cutAt a).after = none := by
  unfold Fibre.cutAt
  split
  · rfl
  · assumption

theorem cutAt_only (f : Fibre) (a : DWord) : f.cutAt a = { f with after := none, owed := (f.cutAt a).owed } := by
  unfold Fibre.cutAt
  split
  · rfl
  · rename_i ha
    cases f
    subst ha
    rfl

theorem cutAt_key (f : Fibre) (a : DWord) : (f.cutAt a).key = f.key := by rw [cutAt_only]

theorem fsBit_set (f : Fibre) (n : Nat) (hn : n < 32) : (f.setFs n true).fsBit n = true := by
  simp [Fibre.setFs, Fibre.fsBit, setBit, hn]

/-- Fibre `k` has taken recoverable fault `r`, and its chain moves it nowhere. No request has been made or answered. -/
structure Faulted (x t : State) (k : FKey) (o : Fibre) (r : FaultRec) : Prop where
  takes : TakesFault x t k o r
  reqs : t.reqs = x.reqs
  unmoved : ∃ g, t.fibre? k = some g ∧ g.after = none

theorem waits_of_takesFault (h : g.takesFault = true) : g.waits = [] := by
  simp only [Fibre.takesFault, Bool.and_eq_true, List.isEmpty_iff] at h
  exact h.1.2

/-- A fibre that can take a fault takes it (R307). -/
theorem deliverNow_faulted (hf : x.fibre? k = some g) (hc : CanTake x k g) (r : FaultRec) : Faulted x (x.deliverNow k r) k g r := by
  obtain ⟨⟨htakes, hlive⟩, ⟨hfault, hfp⟩, hok, huc⟩ := hc
  have hframe : ∀ j < 12, (x.writable? k (g.fault.toNat + 16 * j)).isSome = true := fun j hj => List.all_eq_true.1 hok j (List.mem_range.2 hj)
  obtain ⟨hrest, hothers, hown⟩ : WritesFrame k g.fault.toNat 12 (frameBytes g (x.share k.share) r) x.bump
      (x.bump.frameWrites k x.serial g.fault.toNat 12 (frameBytes g (x.share k.share) r)) := frameWrites_writes k x.serial 12 _ _ _ hframe huc
  obtain ⟨ws, v, hg, hcount, hplain, hplaces, hbytes⟩ := hown g hf
  have he : x.deliverNow k r = ((x.bump.frameWrites k x.serial g.fault.toNat 12 (frameBytes g (x.share k.share) r)).updFibre k
      fun g => { ((g.setFs fsFP true).cutAt r.rip) with ip := wordAddr g.cont }).leaveFlock k := by
    rw [State.deliverNow, hf]
    simp [hlive, hfault, hfp, hok]
  have hfib (j : FKey) : (x.deliverNow k r).fibre? j = if j = k then
      ((x.bump.frameWrites k x.serial g.fault.toNat 12 (frameBytes g (x.share k.share) r)).fibre? k).map
        fun g => { ((g.setFs fsFP true).cutAt r.rip) with ip := wordAddr g.cont }
      else (x.bump.frameWrites k x.serial g.fault.toNat 12 (frameBytes g (x.share k.share) r)).fibre? j := by
    rw [he]
    exact fibre?_updFibre _ k j _ fun f => cutAt_key _ _
  rw [hg, Option.map_some] at hfib
  refine ⟨⟨?_, fun j hj => ?_, ?_, ?_⟩, ?_, _, (hfib k).trans (if_pos rfl), cutAt_after _ _⟩
  · have hm := congrArg State.mem hrest
    rw [he]
    exact hm
  · rw [hfib, if_neg hj, hothers j hj]
    rfl
  · rw [he]
    exact leaveFlock_outside _ _
  · refine ⟨_, ws, (hfib k).trans (if_pos rfl), ?_⟩
    rw [cutAt_only]
    refine ⟨rfl, fsBit_set _ _ (by decide), ?_, rfl, rfl, rfl, rfl, rfl, rfl, hcount, hplain, hplaces, hbytes.trans ?_⟩
    · exact waits_of_takesFault htakes
    · exact List.take_of_length_le (length_frameBytes _ _ _).le
  · have hr := congrArg State.reqs hrest
    rw [he]
    exact hr

/-- No unit of a fibre that is younger than the faulting one waits: nothing is cancelled. -/
theorem cancelAfter_of_le (hf : x.fibre? k = some g) {seq : Nat} (hw : ∀ w ∈ g.waits, w.seq ≤ seq) : x.cancelAfter k seq = x := by
  have hlate : (g.waits.filter fun w => decide (seq < w.seq)) = [] :=
    List.filter_eq_nil_iff.2 fun w hm => by simpa using hw w hm
  rw [State.cancelAfter, hf]
  simp [hlate]

theorem deliver_of_takesFault (hf : x.fibre? k = some g) (hl : g.wait ≠ .halted) (ht : g.takesFault = true) (r : FaultRec) :
    x.deliver k r = x.deliverNow k r := by
  have hw : ∀ w ∈ g.waits, w.seq ≤ r.seq := by rw [waits_of_takesFault ht]; nofun
  rw [State.deliver, cancelAfter_of_le hf hw, hf]
  simp [hl, ht]

theorem deliver_faulted (hf : x.fibre? k = some g) (hc : CanTake x k g) (r : FaultRec) : Faulted x (x.deliver k r) k g r := by
  rw [deliver_of_takesFault hf hc.alone.2 hc.alone.1]
  exact deliverNow_faulted hf hc r

/-- What a fibre can take does not depend on what has been touched since. -/
theorem canTake_of_walksAlike (hc : CanTake s k g) (hw : WalksAlike k s t) (ht : o.takesFault = g.takesFault ∧ o.wait = g.wait) (hf : o.fault = g.fault)
    (hs : o.fs = g.fs) : CanTake t k o := by
  obtain ⟨⟨htakes, hlive⟩, ⟨hfault, hfp⟩, hok, huc⟩ := hc
  exact ⟨⟨ht.1.trans htakes, ht.2 ▸ hlive⟩, ⟨hf ▸ hfault, by rw [Fibre.fsBit, hs]; exact hfp⟩, by rw [hw.frameOk, hf]; exact hok, by rw [hf]; exact hw.uncounted huc⟩

/-- The end of the unit leaves a fibre that has taken a fault where it stands. -/
theorem Faulted.closeUnit (hf : Faulted x t k o r) (h : Hdr) (fl : Flock) : Faulted (ends h fl x) (t.closeUnit h.c fl) k o r := by
  obtain ⟨⟨hmem, hothers, hout, g, ws, hg, hrest⟩, hreqs, g', hg', ha⟩ := hf
  obtain rfl := Option.some.inj (hg.symm.trans hg')
  have hland : (t.closeUnit h.c fl).fibre? k = some g := by rw [fibre?_closeUnit, hg, Option.map_some, landed_unmoved _ _ _ ha]
  refine ⟨⟨?_, fun j hj => ?_, closeUnit_outside t h fl hout, g, ws, hland, hrest⟩, (State.closeUnit_reqs _ _ _).trans hreqs, g, hland, ha⟩
  · rw [State.closeUnit_mem, hmem]
    rfl
  · rw [fibre?_closeUnit, fibre?_ends, hothers j hj]

/-! ### A unit that raises a recoverable fault -/

theorem advanced_only (s : State) (fl : Flock) (f : Fibre) : advanced s fl f = { f with
    after := (advanced s fl f).after, owed := (advanced s fl f).owed, ip := (advanced s fl f).ip, lastIssue := (advanced s fl f).lastIssue
    readyFrom := (advanced s fl f).readyFrom, cmpFrom := (advanced s fl f).cmpFrom, cmpPast := (advanced s fl f).cmpPast, stepDue := (advanced s fl f).stepDue } := by
  unfold advanced
  split <;> rfl

theorem here_beginUnit (hs : Solo h fl f g s) : (s.beginUnit fl).fibre? f.key = some (advanced s fl g) := by
  rw [fibre?_beginUnit, hs.here, Option.map_some]

theorem walksAlike_beginUnit (s : State) (fl : Flock) (k : FKey) : WalksAlike k s (s.beginUnit fl) := ⟨⟨rfl, rfl, rfl⟩, rfl, rfl⟩

theorem canTake_beginUnit (hc : CanTake s f.key g) (fl : Flock) : CanTake (s.beginUnit fl) f.key (advanced s fl g) := by
  have hadv := advanced_only s fl g
  exact canTake_of_walksAlike hc (walksAlike_beginUnit s fl f.key) (by rw [hadv]; exact ⟨rfl, rfl⟩) (by rw [hadv]) (by rw [hadv])

/-- The context of the fibre halts, and each of its fibres is frozen (R311). -/
theorem halt_frozen {c : Nat} {i : HaltInfo} {y : Ctx} (hc : x.ctxs.get? c = some y) (hh : y.halting = none) (h : Hdr) (fl : Flock) :
    ∀ z ∈ ((x.halt c i).closeUnit h.c fl).fibres, x.ctxOf z.key = c → z.wait = .halted := by
  intro z hz hctx
  rw [closeUnit_rest] at hz
  simp only [ends, State.halt, hc, hh, List.map_map] at hz
  obtain ⟨w, -, rfl⟩ := List.mem_map.1 hz
  rw [Function.comp, landed_key] at hctx
  rw [Function.comp, landed_wait]
  split
  · rfl
  next hne =>
    rw [if_neg hne] at hctx
    exact absurd hctx hne

/-- A unit whose one member's part comes to the delivery of a fault raises it. -/
theorem raises_of_deliver (hs : Solo h fl f g s) {i : Instr} {r : FaultRec} (hseq : r.seq = s.serial)
    (he : exec i s = .next (((s.beginUnit fl).deliver f.key r).closeUnit h.c fl)) : Raises h fl f g s i r := by
  have hf := here_beginUnit hs
  have hadv := advanced_only s fl g
  have htakes : (advanced s fl g).takesFault = g.takesFault := by rw [hadv]; rfl
  have hwait : (advanced s fl g).wait ≠ .halted := by rw [advanced_wait]; exact hs.live
  have hwaits : (advanced s fl g).waits = g.waits := by rw [hadv]; rfl
  refine ⟨fun hc => ⟨_, he, ((deliver_faulted hf (canTake_beginUnit hc fl) r).closeUnit h fl).takes⟩, fun hn hw => ?_, fun c hx hh ht => ?_⟩
  · have hd : (s.beginUnit fl).deliver f.key r
        = ((s.beginUnit fl).updFibre f.key fun g => { (g.cutAt r.rip) with rfaults := g.rfaults ++ [r] }).leaveFlock f.key := by
      rw [State.deliver, cancelAfter_of_le hf (by rw [hwaits, hseq]; exact hw), hf]
      simp [hwait, htakes, hn]
    refine ⟨_, he, ⟨?_, fun j => ?_⟩, closeUnit_outside _ _ _ (hd ▸ leaveFlock_outside _ _)⟩
    · rw [closeUnit_rest, hd]
      rfl
    · have hupd : ((s.beginUnit fl).deliver f.key r).fibre? j = if j = f.key
          then ((s.beginUnit fl).fibre? f.key).map fun g => { (g.cutAt r.rip) with rfaults := g.rfaults ++ [r] } else (s.beginUnit fl).fibre? j := by
        rw [hd]
        exact fibre?_updFibre _ _ _ _ fun f => cutAt_key f _
      rw [fibre?_closeUnit, hupd, passed, fibre?_ends]
      split
      · rw [hf, Option.map_some, Option.map_some, landed_unmoved]
        · rw [show (advanced s fl g).rfaults = g.rfaults by rw [hadv]]
        · exact cutAt_after _ _
      · rfl
  · have hd := deliver_of_takesFault hf hwait (htakes.trans ht) r
    have hstop (cause : Nat) (hclass : haltClass cause = 15)
        (hn : (s.beginUnit fl).deliverNow f.key r = (s.beginUnit fl).halt (s.ctxOf f.key) ⟨15, cause, r.unit, some f.key, 1⟩) :
        ∃ t, exec i s = .next t ∧ Halts (passed h fl s) t (s.ctxOf f.key) ⟨15, cause, r.unit, some f.key, 1⟩
          ∧ ∀ y ∈ t.fibres, s.ctxOf y.key = s.ctxOf f.key → y.wait = .halted := by
      rw [hd, hn] at he
      refine ⟨_, he, ?_, halt_frozen (x := s.beginUnit fl) hx hh h fl⟩
      obtain ⟨rest, report, others⟩ := halts_fatal (x := s.beginUnit fl) (h := h) (fl := fl) (k := f.key) (cause := cause) (ua := r.unit) hx hh
      rw [State.fatal, hclass] at rest report others
      exact ⟨rest, report, others⟩
    have hfault : (advanced s fl g).fault = g.fault := by rw [hadv]
    have hfs : (advanced s fl g).fsBit fsFP = g.fsBit fsFP := by rw [hadv]; rfl
    have hok := (walksAlike_beginUnit s fl f.key).frameOk g.fault.toNat
    refine ⟨fun h0 => hstop 0x25 rfl ?_, fun h0 hfp => hstop 0x26 rfl ?_, fun h0 hfp hbad => hstop 0x27 rfl ?_⟩
    · rw [State.deliverNow, hf]
      simp [hwait, hfault, h0]
      rfl
    · rw [State.deliverNow, hf]
      simp [hwait, hfault, hfs, h0, hfp]
      rfl
    · rw [State.deliverNow, hf]
      simp [hwait, hfault, hfs, h0, hfp, hok, hbad]
      rfl

end


/-! ### Units whose access does not translate -/

section
variable {h : Hdr} {fl : Flock} {s t x y : State} {k : FKey} {o f g : Fibre} {r : FaultRec}
variable {d a b base : RegNo} {la : BitVec 4} {esc : Bool} {reason : Nat}

/-- TRANSLATE (R127) of a member of the unit that issues: what the access at `va` comes to. -/
def missed (h : Hdr) (fl : Flock) (s : State) (k : FKey) (reason va : Nat) : FaultRec :=
  ⟨1, 0, reason, (unitCtx h fl s).uaddr, va, 0, windowMask (s.winOf k), (unitCtx h fl s).uaddr, s.serial⟩

/-- The member of a unit whose access does not translate. -/
theorem raises_of_missed (hs : Solo h fl f g s) {i : Instr} {va : Nat}
    (he : exec i s = .next (((s.beginUnit fl).deliver f.key (missed h fl s f.key reason va)).closeUnit h.c fl)) :
    Raises h fl f g s i (missed h fl s f.key reason va) := raises_of_deliver hs rfl he

theorem accessFault_missed {c : UnitCtx} {va : Nat} (hc : c = unitCtx h fl s) :
    (s.beginUnit fl).accessFault c k [] va (.trans reason) = (s.beginUnit fl).deliver k (missed h fl s k reason va) := by
  subst hc
  rfl

theorem requestOne_missed {acc : Acc} {va n dw left : Nat} {kind : ReqKind} {acq rel e : Bool} (ha : acc = .trans reason) :
    (s.beginUnit fl).requestOne (unitCtx h fl s) o [] acc va n kind acq rel d dw left e = (s.beginUnit fl).deliver o.key (missed h fl s o.key reason va) := by
  subst ha
  exact accessFault_missed rfl

theorem storeOne_missed {acc : Acc} {va n : Nat} {kind : WKind} {rel : Bool} (ha : acc = .trans reason) :
    (s.beginUnit fl).storeOne (unitCtx h fl s) o acc va n kind rel = (s.beginUnit fl).deliver o.key (missed h fl s o.key reason va) := by
  subst ha
  exact accessFault_missed rfl

theorem waitOne_missed {acc : Acc} {va n dw : Nat} {kind : ReqKind} (ha : acc = .trans reason) :
    (s.beginUnit fl).waitOne (unitCtx h fl s) o acc va n kind d dw = (s.beginUnit fl).deliver o.key (missed h fl s o.key reason va) := by
  subst ha
  exact accessFault_missed rfl

/-- `acc` does not translate only where instruction `i` raises TRANSLATE at `va`. -/
def RaisesMiss (h : Hdr) (fl : Flock) (f g : Fibre) (s : State) (i : Instr) (va : Nat) (acc : Acc) : Prop :=
  ∀ reason, acc = .trans reason → Raises h fl f g s i (missed h fl s f.key reason va)

variable (hs : Solo h fl f g s)
include hs

theorem accessUnit_missed {act : UnitCtx → Fibre → List FKey → State → State} {i : Instr} {va : Nat} {acc : Acc} (he : exec i s = .next (accessUnit h act s))
    (ha : ∀ reason, acc = .trans reason → act (unitCtx h fl s) f [] (s.beginUnit fl) = (s.beginUnit fl).deliver f.key (missed h fl s f.key reason va)) :
    RaisesMiss h fl f g s i va acc :=
  fun reason hm => raises_of_missed hs (by rw [he, accessUnit_solo _ hs, ha reason hm])

theorem eachMember_missed {act : UnitCtx → Fibre → State → State} {i : Instr} {va : Nat} {acc : Acc} (he : exec i s = .next (eachMember h act s))
    (ha : ∀ reason, acc = .trans reason → act (unitCtx h fl s) f (s.beginUnit fl) = (s.beginUnit fl).deliver f.key (missed h fl s f.key reason va)) :
    RaisesMiss h fl f g s i va acc :=
  fun reason hm => raises_of_missed hs (by rw [he, eachMember_solo _ hs, ha reason hm])

theorem memberUnit_missed {act : UnitCtx → Fibre → State → State} {i : Instr} {va : Nat} {acc : Acc} (he : exec i s = .next (memberUnit h act s))
    (ha : ∀ reason, acc = .trans reason → act (unitCtx h fl s) f (s.beginUnit fl) = (s.beginUnit fl).deliver f.key (missed h fl s f.key reason va)) :
    RaisesMiss h fl f g s i va acc :=
  fun reason hm => raises_of_missed hs (by rw [he, memberUnit_solo _ hs, ha reason hm])

theorem globalLoad_missed {i : Instr} {n : Nat} {signed acq : Bool} (he : exec i s = .next (globalLoad h d base la esc n signed acq s)) :
    RaisesMiss h fl f g s i ((unitCtx h fl s).ea f base) ((s.beginUnit fl).access f.key ((unitCtx h fl s).ea f base) n false) :=
  accessUnit_missed hs he fun _ => requestOne_missed

theorem globalStore_missed {i : Instr} {n : Nat} {rel : Bool} (he : exec i s = .next (globalStore h d base n rel s)) :
    RaisesMiss h fl f g s i ((unitCtx h fl s).ea f base) ((s.beginUnit fl).access f.key ((unitCtx h fl s).ea f base) n true) :=
  eachMember_missed hs he fun _ => storeOne_missed

theorem atomUnit_missed {i : Instr} {op : AOp} {ty : IntTy} {ord : Bool} (he : exec i s = .next (atomUnit h d base la esc op ty ord s)) :
    RaisesMiss h fl f g s i ((unitCtx h fl s).ea f base) ((s.beginUnit fl).atomAccess f.key ((unitCtx h fl s).ea f base) (4 * ty.n)) := by
  have hn : (4 * if decide (ty.n = 2) then 2 else 1) = 4 * ty.n := by cases ty <;> rfl
  exact eachMember_missed hs he fun _ hm => requestOne_missed (by rwa [hn])

theorem redUnit_missed {i : Instr} {op : AOp} {ty : IntTy} (he : exec i s = .next (redUnit h d base op ty s)) :
    RaisesMiss h fl f g s i ((unitCtx h fl s).ea f base) ((s.beginUnit fl).atomAccess f.key ((unitCtx h fl s).ea f base) (4 * ty.n)) :=
  eachMember_missed hs he fun _ => storeOne_missed

theorem waitcUnit_missed {i : Instr} {signed : Bool} {cc : CC} (he : exec i s = .next (waitcUnit h d a b signed cc s)) :
    RaisesMiss h fl f g s i (f.pair a).toNat ((s.beginUnit fl).access f.key (f.pair a).toNat 4 false) :=
  eachMember_missed hs he fun _ => waitOne_missed

/-- TDSET and TDGET of an image in memory. -/
theorem tdset_missed (n : TdNo) : RaisesMiss h fl f g s (.tdset h n a false) (f.pair a).toNat ((s.beginUnit fl).imageAccess f.key false (f.pair a).toNat false) :=
  memberUnit_missed hs rfl fun _ hm => by dsimp only; rw [hm]; exact accessFault_missed rfl

theorem tdget_missed (n : TdNo) : RaisesMiss h fl f g s (.tdget h n a false) (f.pair a).toNat ((s.beginUnit fl).imageAccess f.key false (f.pair a).toNat true) :=
  memberUnit_missed hs rfl fun _ hm => by dsimp only; rw [hm]; exact accessFault_missed rfl

/-- WOPEN of a context with PRIV. -/
theorem wopen_missed (hv : (f.pair a).toNat % 32 = 0) (hp : (s.ctx (s.ctxOf f.key)).priv = true) :
    RaisesMiss h fl f g s (.wopen h d a b) (f.pair a).toNat ((s.beginUnit fl).access f.key (f.pair a).toNat 1 false) :=
  memberUnit_missed hs rfl fun _ hm => by
    refine (if_pos hp).trans ?_
    dsimp only
    rw [if_neg (not_not_intro hv), hm]
    exact accessFault_missed rfl

end

/-! ### Units that go to a peer which is lost, or to a group -/

section
variable {h : Hdr} {fl : Flock} {s x y t : State} {k : FKey} {o f g : Fibre} {r : FaultRec}

theorem share_updShare {α : Type} (p : Household → α) (s : State) (sh j : Nat) (u : Household → Household) (hu : ∀ z, p (u z) = p z) :
    p ((s.updShare sh u).share j) = p (s.share j) := by
  unfold State.updShare
  split
  next z hz =>
    show p ((s.shares.set sh (u z)).getD j (s.saved.getD j blankHousehold)) = _
    rw [tab_getD_set]
    split
    next hj =>
      subst hj
      rw [hu, State.share, Tab.getD, hz, Option.getD_some]
    next => rfl
  next => rfl

theorem share_releaseCharge {α : Type} (p : Household → α) (s : State) (k : FKey) (n j : Nat) (hp : ∀ (z : Household) (c : Nat), p { z with charge := c } = p z) :
    p ((s.releaseCharge k n).share j) = p (s.share j) :=
  share_updShare p (s.updQuarter k.quarter _) k.share j _ fun z => hp z _

theorem releaseCharge_only (s : State) (k : FKey) (n : Nat) :
    s.releaseCharge k n = { s with quarters := (s.releaseCharge k n).quarters, shares := (s.releaseCharge k n).shares } := by
  rw [State.releaseCharge, updShare_only]
  rfl

theorem walksAlike_releaseCharge (s : State) (j : FKey) (n : Nat) : WalksAlike k s (s.releaseCharge j n) := by
  have hten := share_releaseCharge Household.ten s j n k.share fun _ _ => rfl
  have hctx := share_releaseCharge Household.ctx s j n k.share fun _ _ => rfl
  have hrest := releaseCharge_only s j n
  refine ⟨?_, hten, ?_⟩
  · rw [hrest]
    exact ⟨rfl, rfl, rfl⟩
  · rw [State.ctxOf, hctx, hrest]
    rfl

theorem winOf_releaseCharge (s : State) (j k : FKey) (n : Nat) : (s.releaseCharge j n).winOf k = s.winOf k := by
  have hctx := share_releaseCharge Household.ctx s j n k.share fun _ _ => rfl
  rw [State.winOf, State.ctxOf, hctx, releaseCharge_only]
  rfl

theorem frameBytes_releaseCharge (s : State) (k : FKey) (n : Nat) (o : Fibre) (j : Nat) (r : FaultRec) :
    frameBytes o ((s.releaseCharge k n).share j) r = frameBytes o (s.share j) r :=
  share_releaseCharge (fun z => frameBytes o z r) s k n j fun _ _ => rfl

/-- A fault does not depend on what else has changed before it was taken: here are memory, the fibres but for the view of its own, and the
identity of its household as they were. -/
theorem faulted_of_alike {v : View} {p : State} (hf : Faulted x t k { o with view := v } r) (hm : x.mem = p.mem) (hfib : ∀ j, j ≠ k → x.fibre? j = p.fibre? j)
    (hr : x.reqs = p.reqs) (hb : frameBytes o (x.share k.share) r = frameBytes o (p.share k.share) r) : Faulted p t k o r := by
  obtain ⟨⟨hmem, hothers, hout, g, ws, hg, hip, hfp, hw, hregs, hpreds, hcont, hfault, hesc, hwb, hcount, hplain, hplaces, hbytes⟩, hreqs, hun⟩ := hf
  exact ⟨⟨hmem.trans hm, fun j hj => (hothers j hj).trans (hfib j hj), hout, g, ws, hg, hip, hfp, hw, hregs, hpreds, hcont, hfault, hesc, hwb, hcount, hplain, hplaces,
    hbytes.trans hb⟩, hreqs.trans hr, hun⟩

/-- A fault taken after the charge of its request was released. -/
theorem faulted_of_releaseCharge {n : Nat} {j : FKey} (hf : Faulted (x.releaseCharge j n) t k o r) : Faulted x t k o r := by
  have hrest := releaseCharge_only x j n
  refine faulted_of_alike (v := o.view) hf ?_ (fun i _ => ?_) ?_ (frameBytes_releaseCharge _ _ _ _ _ _)
  all_goals rw [hrest]
  rfl

/-- The walk of an access to a peer's page is all that meets its leaf. -/
theorem touched_remote (s : State) (k : FKey) {l : Leaf} (hl : l.mode = 1) (va : Nat) : s.touched k (some l) va = s.joinWalk k va := by
  rw [State.touched, State.touchLeaf, State.countLeaf, if_pos (by rw [hl]; decide), State.meetLeaf]
  exact if_pos (.inl (by rw [hl]; decide))

/-- An access of fibre `k` to a peer's page leaves the fibre as it is, but for its view. -/
theorem here_touched_remote {l : Leaf} (hl : l.mode = 1) (va : Nat) (hf : x.fibre? k = some g) :
    ∃ v, (x.touched k (some l) va).fibre? k = some { g with view := v } := by
  obtain ⟨-, v, hv⟩ := touched_meets k (some l) va x fun z hz => by obtain rfl := Option.some.inj hz; rw [hl]; decide
  exact ⟨v g, by rw [hv, hf, Option.map_some, if_pos rfl]⟩

/-- A request that fails before it is sent (R269, R284, R286). -/
theorem arriveFaultNow_faulted (hf : x.fibre? k = some g) (hc : CanTake x k g) {q : Req} {cls code : Nat} (hk : q.key = k) (hframe : q.kind ≠ .frame)
    (hpref : q.kind ≠ .pref) (hal : q.also = []) :
    Faulted x (x.arriveFaultNow q cls code) k g ⟨cls, 0, if cls = 1 then 4 else code, q.unitAddr, q.va, if cls = 1 then code else 0, windowMask (x.winOf k), q.unitAddr, q.seq⟩ := by
  subst hk
  have hf' : (x.releaseCharge q.key q.charge).fibre? q.key = some g := by rw [releaseCharge_only]; exact hf
  have hmembers : q.members = [q.key] := by rw [Req.members, if_neg hpref, hal]; rfl
  rw [State.arriveFaultNow, if_neg hframe, hmembers, List.foldl_cons, List.foldl_nil, State.deliverResident, winOf_releaseCharge]
  exact faulted_of_releaseCharge (deliver_faulted hf' (canTake_of_walksAlike hc (walksAlike_releaseCharge _ _ _) ⟨rfl, rfl⟩ rfl rfl) _)

/-- A request that neither finds its words in the package nor can be sent fails as it issues. -/
theorem issueReq_faulted (hf : x.fibre? k = some g) (hc : CanTake x k g) {q : Req} {gr : Bool} {p w gen pa : Nat} (hk : q.key = k) (hframe : q.kind ≠ .frame)
    (hpref : q.kind ≠ .pref) (hal : q.also = []) (hd : q.dest = .peer gr p w gen pa) (hl : x.localLoad g q = none)
    (hp : gr = false → x.ownPeer = none ∨ x.lost p = true) :
    Faulted x (x.issueReq q) k g (if gr then ⟨1, 0, 4, q.unitAddr, q.va, 9, windowMask (x.winOf k), q.unitAddr, q.seq⟩
      else ⟨2, 0, 8, q.unitAddr, q.va, 0, windowMask (x.winOf k), q.unitAddr, q.seq⟩) := by
  unfold State.issueReq
  rw [hd]
  dsimp only
  cases gr with
  | true => exact arriveFaultNow_faulted hf hc hk hframe hpref hal
  | false =>
    have hgone : (x.ownPeer.isNone || x.lost p) = true := by
      rcases hp rfl with hn | hn <;> simp [hn]
    have hnone : ((x.fibre? q.key).bind fun f => x.localLoad f q) = none := by rw [hk, hf, Option.bind_some, hl]
    rw [if_neg Bool.false_ne_true, hnone, if_neg (by decide), if_pos hgone]
    exact arriveFaultNow_faulted hf hc hk hframe hpref hal

end


section
variable {h : Hdr} {fl : Flock} {s x y t : State} {k : FKey} {o f g : Fibre} {r : FaultRec} {d a b base : RegNo} {la : BitVec 4} {esc : Bool}

/-- What a unit that names a place at a peer raises as it issues. -/
def peerFault (gr : Bool) (h : Hdr) (fl : Flock) (s : State) (k : FKey) (va : Nat) : FaultRec :=
  if gr then ⟨1, 0, 4, (unitCtx h fl s).uaddr, va, 9, windowMask (s.winOf k), (unitCtx h fl s).uaddr, s.serial⟩
  else ⟨2, 0, 8, (unitCtx h fl s).uaddr, va, 0, windowMask (s.winOf k), (unitCtx h fl s).uaddr, s.serial⟩

/-- A load or atomic whose leaf names a peer which is lost, or a group, and which nothing of the package's own answers. -/
theorem requestOne_faulted (hs : Solo h fl f g s) (hc : CanTake s f.key g) {gr : Bool} {p w gen pa va n dw left : Nat} {l : Leaf} {kind : ReqKind} {acq rel e : Bool}
    (hmode : l.mode = 1) (hp : gr = false → s.ownPeer = none ∨ s.lost p = true) (hkind : kind ≠ .frame ∧ kind ≠ .pref)
    (hlocal : ∀ (z : State) (v : View) (q : Req), q.cache = none → z.localLoad { advanced s fl g with view := v } q = none) :
    Faulted (ends h fl ((s.beginUnit fl).touched f.key (some l) va))
      (((s.beginUnit fl).requestOne (unitCtx h fl s) f [] (.ok (.peer gr p w gen pa) (some l)) va n kind acq rel d dw left e).closeUnit h.c fl) f.key (advanced s fl g)
      (peerFault gr h fl s f.key va) := by
  obtain ⟨v, hv⟩ := here_touched_remote (va := va) hmode (here_beginUnit hs)
  have hjoin := touched_remote (s.beginUnit fl) f.key hmode va
  have hrest := joinWalk_only (s.beginUnit fl) f.key va
  have hcan : CanTake ((s.beginUnit fl).touched f.key (some l) va).bump f.key { advanced s fl g with view := v } := by
    have hw : WalksAlike f.key (s.beginUnit fl) ((s.beginUnit fl).touched f.key (some l) va).bump := by
      rw [hjoin, hrest]
      exact ⟨⟨rfl, rfl, rfl⟩, rfl, rfl⟩
    exact canTake_of_walksAlike (canTake_beginUnit hc fl) hw ⟨rfl, rfl⟩ rfl rfl
  have hgone : gr = false → ((s.beginUnit fl).touched f.key (some l) va).bump.ownPeer = none ∨ ((s.beginUnit fl).touched f.key (some l) va).bump.lost p = true := by
    rw [hjoin, hrest]
    exact hp
  have hwin : ((s.beginUnit fl).touched f.key (some l) va).bump.winOf f.key = s.winOf f.key := by
    rw [hjoin, hrest]
    rfl
  refine Faulted.closeUnit ?_ h fl
  have hf := issueReq_faulted (q := ((s.beginUnit fl).touched f.key (some l) va).paged (some l)
      { mkReq ((s.beginUnit fl).touched f.key (some l) va) (unitCtx h fl s) f va n (.peer gr p w gen pa) kind acq rel d dw left e f.esc with also := [] })
    (x := ((s.beginUnit fl).touched f.key (some l) va).bump) (pa := pa) (w := w) (gen := gen) hv hcan rfl hkind.1 hkind.2 rfl rfl
    (hlocal _ v _ (by simp [State.paged, mkReq, hmode])) hgone
  rw [hwin] at hf
  exact faulted_of_alike hf rfl (fun _ _ => rfl) rfl rfl

/-- Nothing of the package's own answers a fibre without buffered writes on a page that no L1 holds. -/
theorem localLoad_of_uncached {z : State} {q : Req} (hwb : f.wb = []) (hq : q.cache = none) : z.localLoad f q = none := by
  unfold State.localLoad
  split
  · simp only [Fibre.newest, hwb, List.filter_nil, List.getLast?_nil, State.heldLine, hq]
    split <;> rfl
  · rfl

end

/-! ### A reply that refuses -/

section
variable {s x y t : State} {k : FKey} {f g : Fibre} {r : Req}

theorem withWaits_nil_of (hw : f.waits = []) : f.withWaits [] = f := by
  unfold Fibre.waits at hw
  split at hw
  next hn =>
    cases f
    subst hn hw
    rfl
  next => nomatch hw

theorem waitOver_of_free (hw : f.waits = []) (id now : Nat) : f.waitOver id now = { f with since := now } := by
  rw [Fibre.waitOver, Fibre.unwait, hw, List.filter_nil, withWaits_nil_of hw]

theorem heardFrom_only (s : State) (p va n : Nat) : s.heardFrom p va n = { s with
    probes := (s.heardFrom p va n).probes, lostOn := (s.heardFrom p va n).lostOn, ports := (s.heardFrom p va n).ports, out := (s.heardFrom p va n).out } := by
  unfold State.heardFrom State.rxLeave
  dsimp only
  split <;> rfl

theorem heard_only (r : Req) (s : State) : r.heard s = { s with
    probes := (r.heard s).probes, lostOn := (r.heard s).lostOn, ports := (r.heard s).ports, out := (r.heard s).out } := by
  unfold Req.heard
  split
  · exact heardFrom_only _ _ _ _
  · rfl

theorem req?_updReq_same (s : State) (id : Nat) (u : Req → Req) (hu : ∀ q, (u q).id = q.id) : (s.updReq id u).req? id = (s.req? id).map u := by
  have hid : (fun q : Req => decide (q.id = id)) ∘ (fun q => if q.id = id then u q else q) = fun q => decide (q.id = id) := by
    funext q
    simp only [Function.comp]
    split <;> simp [hu]
  rw [State.req?, State.updReq, List.find?_map, hid, ← State.req?]
  cases hq : s.req? id with
  | none => rfl
  | some q =>
    have hq' : q.id = id := by simpa [State.req?] using List.find?_some hq
    rw [Option.map_some, Option.map_some, if_pos hq']

theorem req?_dropReq (s : State) (id : Nat) : (s.dropReq id).req? id = none := by
  simp [State.req?, State.dropReq, List.find?_eq_none]

/-- The fault of a request comes to its fibre, which takes it (R179). -/
theorem faultTo_faulted (hf : x.fibre? k = some g) (hc : CanTake x k g) (id : Nat) {fr : FaultRec} (hcls : fr.cls ≠ 15) :
    Faulted x (x.faultTo id fr k) k g { fr with mask := windowMask (x.winOf k) } := by
  obtain ⟨w, hres⟩ : ∃ w, g.res = .resident w := by
    have ht := hc.alone.1
    simp only [Fibre.takesFault, Bool.and_eq_true] at ht
    split at ht
    · exact ⟨_, ‹_›⟩
    · exact absurd ht.1.1 Bool.false_ne_true
  have hfree := waitOver_of_free (waits_of_takesFault hc.alone.1) id x.now
  have hfib (j : FKey) := fibre?_updFibre x k j (fun g => g.waitOver id x.now) fun q => by
    unfold Fibre.waitOver Fibre.unwait
    cases q.waits.filter _ <;> rfl
  rw [hf, Option.map_some, hfree] at hfib
  have he : x.faultTo id fr k = (x.updFibre k fun g => g.waitOver id x.now).deliver k { fr with mask := windowMask (x.winOf k) } := by
    rw [State.faultTo, hf]
    simp only [if_neg hcls, hres]
  rw [he]
  have hcan : CanTake (x.updFibre k fun g => g.waitOver id x.now) k { g with since := x.now } :=
    canTake_of_walksAlike hc ⟨⟨rfl, rfl, rfl⟩, rfl, rfl⟩ ⟨rfl, rfl⟩ rfl rfl
  have hd := deliver_faulted ((hfib k).trans (if_pos rfl)) hcan { fr with mask := windowMask (x.winOf k) }
  obtain ⟨⟨hmem, hothers, hout, o, ws, ho, hrest⟩, hreqs, hun⟩ := hd
  exact ⟨⟨hmem, fun j hj => (hothers j hj).trans ((hfib j).trans (if_neg hj)), hout, o, ws, ho, hrest⟩, hreqs, hun⟩

/-- A reply that refuses a request is a fault of the fibre that asked. -/
theorem arriveFault_faulted (hf : x.fibre? r.key = some g) (hc : CanTake x r.key g) (hpref : r.kind ≠ .pref) (hframe : r.kind ≠ .frame) (hal : r.also = []) {cls : Nat}
    (hcls : cls ≠ 15) (code : Nat) :
    (x.arriveFault r cls code).reqs = (x.dropReq r.id).reqs
      ∧ TakesFault x (x.arriveFault r cls code) r.key g (r.faultRec cls code (windowMask (x.winOf r.key))) := by
  have hmembers : r.members = [r.key] := by rw [Req.members, if_neg hpref, hal]; rfl
  have hdrop : (x.dropReq r.id).fibre? r.key = some g := hf
  have hcharge : ((x.dropReq r.id).releaseCharge r.key r.charge).fibre? r.key = some g := by rw [releaseCharge_only]; exact hf
  have hcan : CanTake ((x.dropReq r.id).releaseCharge r.key r.charge) r.key g :=
    canTake_of_walksAlike hc (WalksAlike.trans (t := x.dropReq r.id) ⟨⟨rfl, rfl, rfl⟩, rfl, rfl⟩ (walksAlike_releaseCharge _ _ _)) ⟨rfl, rfl⟩ rfl rfl
  have hfr : (r.faultRec cls code (windowMask (x.winOf r.key))).cls ≠ 15 := by rw [Req.faultRec, if_neg hframe]; exact hcls
  have he : x.arriveFault r cls code
      = ((x.dropReq r.id).releaseCharge r.key r.charge).faultTo r.id (r.faultRec cls code (windowMask (x.winOf r.key))) r.key := by
    rw [State.arriveFault]
    simp only [hdrop, if_neg hc.alone.2]
    split
    next hres =>
      have ht := hc.alone.1
      rw [Fibre.takesFault, hres] at ht
      exact absurd ht (by simp)
    next => rw [hmembers]; rfl
  have hwin : ((x.dropReq r.id).releaseCharge r.key r.charge).winOf r.key = x.winOf r.key := winOf_releaseCharge _ _ _ _
  have hd := faultTo_faulted hcharge hcan r.id hfr
  rw [hwin] at hd
  have hd' := faulted_of_releaseCharge hd
  obtain ⟨⟨hmem, hothers, hout, hown⟩, hreqs, -⟩ := hd'
  rw [he]
  exact ⟨hreqs, hmem, hothers, hout, hown⟩

/-- A reply that refuses an outstanding request (R179, R274). -/
theorem replyArrival_refused (hreq : s.req? r.id = some r) (hf : s.fibre? r.key = some f) (hc : CanTake s r.key f) (hmid : s.midChain r.key = false) (haway : s.awayOf r.key = none)
    {gr : Bool} {p w gen pa : Nat} (hdest : r.dest = .peer gr p w gen pa) (hdel : r.delivered = true) (hdec : r.decided = true) (hal : r.also = []) (hpref : r.kind ≠ .pref)
    (code : Nat) :
    let e := if code = 8 ∨ code = 11 then (2, 8) else (1, code)
    s.replyArrival r.id (.refused code) = ((r.heard s).updReq r.id fun q => { q with fail := some e }).arriveFault { r with fail := some e } e.1 e.2 := by
  intro e
  have hheld : s.entryHeld r = false := by
    have hmembers : r.members = [r.key] := by rw [Req.members, if_neg hpref, hal]; rfl
    rw [State.entryHeld, hmembers, List.any_cons, List.any_nil, Bool.or_false, hf, Option.any_some, State.landWaits]
    have ht := hc.alone.1
    rw [Fibre.takesFault] at ht
    cases hr : f.res <;> simp [hr] at ht ⊢
  have hstay : s.decideReq r = s := by simp [State.decideReq, hdec]
  have hbring : s.replyArrival r.id (.refused code) = (s.peerAnswer r (.refused code)).bring r.id := by
    rw [State.replyArrival, hreq]
    simp only [hmid, haway, hheld, hstay, hreq, hdest, Option.getD_some, Option.isSome_none, Bool.or_self, Bool.false_eq_true, if_false]
    cases r.kind <;> rfl
  have hans : s.peerAnswer r (.refused code) = (r.heard s).updReq r.id fun q => { q with fail := some e } := by
    rw [State.peerAnswer]
    simp [hdel, hpref, e]
  have hheard : (r.heard s).req? r.id = some r := by rw [heard_only]; exact hreq
  have hnew := req?_updReq_same (r.heard s) r.id (fun q => { q with fail := some e }) fun _ => rfl
  rw [hheard, Option.map_some] at hnew
  have hfib : ((r.heard s).updReq r.id fun q => { q with fail := some e }).fibre? r.key = some f := by rw [heard_only]; exact hf
  rw [hbring, hans, State.bring, hnew]
  simp only [Option.isSome_some, Bool.or_true, if_true]
  rw [State.tryReq, hnew]
  simp only [hfib]

/-- The reply of a peer that refuses a request is taken by the fibre that asked, as a fault. -/
theorem runs_refused (hreq : s.req? r.id = some r) (hf : s.fibre? r.key = some f) (hc : CanTake s r.key f) (hmid : s.midChain r.key = false) (haway : s.awayOf r.key = none)
    {gr : Bool} {p w gen pa : Nat} (hdest : r.dest = .peer gr p w gen pa) (hdel : r.delivered = true) (hdec : r.decided = true) (hal : r.also = [])
    (hframe : r.kind ≠ .frame) (hpref : r.kind ≠ .pref) (code : Nat) :
    let away := code = 8 ∨ code = 11
    Runs (.replyArrival r.id (.refused code)) s fun t => t.req? r.id = none
      ∧ TakesFault s t r.key f ⟨if away then 2 else 1, 0, if away then 8 else 4, r.unitAddr, r.va, if away then 0 else code, windowMask (s.winOf r.key), r.unitAddr, r.seq⟩ := by
  intro away
  refine ⟨_, rfl, ?_⟩
  have he := replyArrival_refused hreq hf hc hmid haway hdest hdel hdec hal hpref code
  dsimp only at he
  rw [he]
  obtain ⟨P, L, O, U, hheard⟩ : ∃ P L O U, r.heard s = { s with probes := P, lostOn := L, ports := O, out := U } := ⟨_, _, _, _, heard_only r s⟩
  rw [hheard]
  have hcan {q : List Req} : CanTake { s with probes := P, lostOn := L, ports := O, out := U, reqs := q } r.key f :=
    canTake_of_walksAlike hc ⟨⟨rfl, rfl, rfl⟩, rfl, rfl⟩ ⟨rfl, rfl⟩ rfl rfl
  have hcls : (if code = 8 ∨ code = 11 then (2, 8) else (1, code)).1 ≠ 15 := by split <;> simp
  obtain ⟨hreqs, hmem, hothers, hout, hown⟩ := arriveFault_faulted
    (x := ({ s with probes := P, lostOn := L, ports := O, out := U } : State).updReq r.id fun q => { q with fail := some (if code = 8 ∨ code = 11 then (2, 8) else (1, code)) })
    (r := { r with fail := some (if code = 8 ∨ code = 11 then (2, 8) else (1, code)) }) hf hcan hpref hframe hal hcls (if code = 8 ∨ code = 11 then (2, 8) else (1, code)).2
  have hrec : ({ r with fail := some (if code = 8 ∨ code = 11 then (2, 8) else (1, code)) } : Req).faultRec (if code = 8 ∨ code = 11 then (2, 8) else (1, code)).1
      (if code = 8 ∨ code = 11 then (2, 8) else (1, code)).2 (windowMask (s.winOf r.key))
      = ⟨if away then 2 else 1, 0, if away then 8 else 4, r.unitAddr, r.va, if away then 0 else code, windowMask (s.winOf r.key), r.unitAddr, r.seq⟩ := by
    rw [Req.faultRec, if_neg hframe]
    by_cases ha : code = 8 ∨ code = 11 <;> simp [away, ha]
  refine ⟨?_, hmem, hothers, hout, ?_⟩
  · rw [State.req?, hreqs]
    exact req?_dropReq _ _
  · rw [← hrec]
    exact hown

end

/-- Settles O17: an access that does not translate, a request that fails as it issues, and a reply that refuses one, each come to one delivery of the fault. -/
theorem recoverableFaultsAreTaken : Obligations.RecoverableFaultsAreTaken := by
  unfold Obligations.RecoverableFaultsAreTaken
  refine ⟨fun h d a b la esc fl f g s hs => ?_, ?_⟩
  · dsimp only
    refine ⟨fun z => globalLoad_missed hs rfl, fun z => globalLoad_missed hs rfl, fun z => globalLoad_missed hs rfl, fun z => globalStore_missed hs rfl,
      fun z => globalStore_missed hs rfl, fun z => globalStore_missed hs rfl, fun w => ?ldv, fun z => ?casv, fun op => ?rwl, fun t => ?integers,
      atomUnit_missed (ty := .b32) hs rfl, atomUnit_missed (ty := .b32) hs rfl, redUnit_missed (ty := .b32) hs rfl,
      ⟨fun cc => ?waitcs, fun ge => ?waitcu, fun i => ?twait, fun y => tdset_missed hs y, fun y => tdget_missed hs y, fun hv hp => wopen_missed hs hv hp⟩, ?peers⟩
    case ldv => exact accessUnit_missed hs rfl fun _ => requestOne_missed
    case casv => exact eachMember_missed hs rfl fun _ => requestOne_missed
    case rwl => exact eachMember_missed hs rfl fun _ => requestOne_missed
    case waitcs => exact waitcUnit_missed hs rfl
    case waitcu => exact waitcUnit_missed hs rfl
    case twait => exact eachMember_missed hs rfl fun _ => waitOne_missed
    case integers =>
      and_intros
      iterate 16 · exact atomUnit_missed hs rfl
      all_goals exact redUnit_missed hs rfl
    case peers =>
      intro gr p w gen pa l hc hwb hmode hp
      have hwb' : (advanced s fl g).wb = [] := by rw [advanced_only]; exact hwb
      have fails {acc : Acc} {n dw : Nat} {kind : ReqKind} {acq rel e : Bool} (hkind : kind ≠ .frame ∧ kind ≠ .pref) (ha : acc = .ok (.peer gr p w gen pa) (some l)) :
          TakesFault (ends h fl ((s.beginUnit fl).touched f.key (some l) ((unitCtx h fl s).ea f b)))
            (((s.beginUnit fl).requestOne (unitCtx h fl s) f [] acc ((unitCtx h fl s).ea f b) n kind acq rel d dw la.toNat e).closeUnit h.c fl) f.key (advanced s fl g)
            (peerFault gr h fl s f.key ((unitCtx h fl s).ea f b)) := by
        subst ha
        exact (requestOne_faulted hs hc hmode hp hkind fun z v q hq => localLoad_of_uncached hwb' hq).takes
      refine ⟨fun z ha => ⟨_, congrArg Host.Outcome.next (accessUnit_solo _ hs), fails (by simp) ha⟩, fun t ha => ?_⟩
      have hn : (4 * if decide (t.n = 2) then 2 else 1) = 4 * t.n := by cases t <;> rfl
      rw [← hn] at ha
      exact ⟨⟨_, congrArg Host.Outcome.next (eachMember_solo _ hs), fails (by simp) ha⟩, _, congrArg Host.Outcome.next (eachMember_solo _ hs), fails (by simp) ha⟩
  · intro s r f gr p w gen pa code hreq hf hc hmid haway hdest hdel hdec hal _ hframe hpref
    exact runs_refused hreq hf hc hmid haway hdest hdel hdec hal hframe hpref code

end Sys2Proof.Machine
end

section
/-! SUPPORT. What accesses and applied writes leave standing.

A write that is applied may fill lines, evict others, and in the end raise the machine check of a slice, which freezes fibres. The
households, the monitors, the launches of the contexts, and the fibres but for their waits stand through all of it. -/

namespace Sys2Proof.Machine
open Sys2Proof.Safety

/-- The households, resident and saved, the monitors, and the launch that each context runs. -/
def State.offices (s : State) : Tab Household × Tab Household × Tab MonSlot × (Nat → Nat) := (s.shares, s.saved, s.monitors, fun c => (s.ctx c).order)

/-- What stands through an applied write: the offices, and the fibres but for their waits. -/
def State.standing (s : State) : (Tab Household × Tab Household × Tab MonSlot × (Nat → Nat)) × List Fibre := (s.offices, s.fibres.map Fibre.freeze)

theorem standing_foldl {α : Type} (l : List α) (F : State → α → State) (hF : ∀ s a, (F s a).standing = s.standing) (s : State) :
    (l.foldl F s).standing = s.standing := by
  induction l generalizing s with
  | nil => rfl
  | cons a l ih => rw [List.foldl_cons, ih, hF]

theorem standing_halt (s : State) (c : Nat) (i : HaltInfo) : (s.halt c i).standing = s.standing := by
  have horders (x y : Ctx) (hx : s.ctxs.get? c = some x) (hy : y.order = x.order) : (fun n => ((s.ctxs.set c y).getD n blankCtx).order) = fun n => (s.ctx n).order := by
    funext n
    rw [tab_getD_set]
    split
    next hn =>
      subst hn
      rw [hy, State.ctx, Tab.getD, hx, Option.getD_some]
    next => rfl
  unfold State.halt
  split
  · rfl
  next x hx =>
    split
    · exact congrArg (fun o => ((s.shares, s.saved, s.monitors, o), s.fibres.map Fibre.freeze)) (horders x _ hx rfl)
    · have hfreeze : (s.fibres.map fun f => if s.ctxOf f.key = c then f.freeze else f).map Fibre.freeze = s.fibres.map Fibre.freeze := by
        rw [List.map_map]
        refine List.map_congr_left fun f _ => ?_
        rw [Function.comp]
        split <;> rfl
      exact congrArg₂ (fun o l => ((s.shares, s.saved, s.monitors, o), l)) (horders x _ hx rfl) hfreeze

theorem standing_machineCheck (s : State) (kind die slice c : Nat) : (s.machineCheck kind die slice c).standing = s.standing := by
  unfold State.machineCheck
  dsimp only
  split
  · rw [standing_foldl, standing_foldl]
    · rfl
    · exact fun s e => standing_halt s _ _
    · intro s t
      split <;> rfl
  · exact standing_halt _ _ _

theorem standing_recall (s : State) (line : Nat) (keep : Bool) : (s.recall line keep).standing = s.standing := by
  rw [recall_only]
  rfl

theorem standing_dropLine (s : State) (line : Nat) : (s.dropLine line).standing = s.standing := by
  unfold State.dropLine
  split
  · rfl
  · dsimp only
    split
    · rw [standing_machineCheck, standing_recall]
    · exact standing_recall s _ _

theorem standing_fillLine (s : State) (line : Nat) : (s.fillLine line).standing = s.standing := by
  unfold State.fillLine
  split
  · rfl
  · dsimp only
    split
    · split
      · exact standing_dropLine s _
      · rfl
    · rfl

theorem standing_hostTouch (s : State) (a : Nat) (keep : Bool) (n : Nat) : (s.hostTouch a keep n).standing = s.standing := by
  induction n generalizing s a with
  | zero => rfl
  | succ n ih =>
    rw [State.hostTouch, ih]
    exact (standing_recall _ _ _).trans (standing_fillLine s _)

theorem standing_writeLine (s : State) (line loc n : Nat) (own : Option Nat) (c : Bool) : (s.writeLine line loc n own c).standing = s.standing := by
  unfold State.writeLine
  dsimp only
  split
  · split
    · exact standing_fillLine s _
    · exact (standing_recall _ _ _).trans (standing_fillLine s _)
  · split <;> exact standing_fillLine s _

theorem standing_writeLines (s : State) (line loc n : Nat) (own : Option Nat) (c : Bool) (i : Nat) :
    (s.writeLines line loc n own c i).standing = s.standing := by
  induction i generalizing s line with
  | zero => rfl
  | succ i ih => rw [State.writeLines, ih, standing_writeLine]

theorem standing_ring (s : State) (loc n : Nat) : (s.ring loc n).standing = s.standing := by
  rw [ring_only]
  rfl

theorem standing_applyFrom (s : State) (own : Option Nat) (c : Bool) (st : List Nat) (wid loc : Nat) (bs : List Byte) (v : Option View) :
    (s.applyFrom own c st wid loc bs v).standing = s.standing := by
  unfold State.applyFrom
  split
  · dsimp only
    split
    · rfl
    · exact standing_machineCheck s _ _ _ _
  · dsimp only
    rw [standing_ring]
    split
    · rfl
    · exact standing_writeLines _ _ _ _ _ _ _

theorem standing_applyBytes (s : State) (wid loc : Nat) (bs : List Byte) (v : Option View) : (s.applyBytes wid loc bs v).standing = s.standing :=
  standing_applyFrom s none true [] wid loc bs v

/-! ### A write of an apply queue -/

theorem standing_fillGranule (s : State) (die loc : Nat) : (s.fillGranule die loc).standing = s.standing := by
  unfold State.fillGranule
  extract_lets t
  have ht : t.standing = s.standing := by
    unfold t
    split
    · rfl
    · rfl
  split
  · dsimp only
    rw [← ht, learnRead_only]
    rfl
  · split
    · exact ht
    · exact ht

theorem standing_snoop (s : State) (loc : Nat) : (s.snoop loc).standing = s.standing := by
  unfold State.snoop
  split <;> rfl

theorem standing_useAnswer (s : State) (loc n : Nat) : (s.useAnswer loc n).standing = s.standing := by
  rw [useAnswer_only]
  rfl

theorem standing_askHost (s : State) (loc n : Nat) : (s.askHost loc n).standing = s.standing := by
  rw [askHost_only]
  rfl

theorem standing_applyOne (s : State) (w : AqWrite) : (s.applyOne w).standing = s.standing := by
  unfold State.applyOne
  extract_lets s1 view s2 s3
  have hs2 : s2.standing = s.standing := by
    unfold s2
    split
    · exact standing_hostTouch _ _ _ _
    · exact (standing_useAnswer _ _ _).trans (standing_snoop s1 _)
  have hs3 : s3.standing = s.standing := (standing_applyFrom _ _ _ _ _ _ _ _).trans hs2
  split
  · exact hs3
  · exact (standing_foldl _ _ (fun s i => standing_fillGranule s _ _) _).trans hs3
  · exact hs3

theorem standing_applyAq (s : State) (wid : Nat) : (s.applyAq wid).standing = s.standing := by
  unfold State.applyAq
  split
  · rfl
  · extract_lets ws t
    have ht : t.standing = s.standing := by
      refine standing_foldl _ _ (fun s o => ?_) s
      split
      · exact standing_applyOne s _
      · rfl
    split
    · rfl
    · split
      · exact standing_askHost _ _ _
      · split
        · exact ht
        · exact (standing_foldl _ _ (fun s o => standing_ring s _ _) _).trans ht

/-- A fibre stands as it stood, but for its waits. -/
theorem fibre?_of_standing {s t : State} (h : t.standing = s.standing) (k : FKey) : (t.fibre? k).map Fibre.freeze = (s.fibre? k).map Fibre.freeze := by
  have hfind (l : List Fibre) : (l.find? fun f => f.key = k).map Fibre.freeze = (l.map Fibre.freeze).find? fun f => f.key = k := by
    rw [List.find?_map]
    rfl
  rw [State.fibre?, State.fibre?, hfind, hfind]
  exact congrArg (fun p : _ × List Fibre => p.2.find? fun f => f.key = k) h

end Sys2Proof.Machine
end

section
/-! PROOF of O44: retests, polls and write-backs. -/

namespace Sys2Proof.Machine
open Sys2Proof.Safety

/-! ### L1_WRITEBACK -/

section
variable {s t u : State} {k : FKey} {f g : Fibre} {b : BufWrite} {sh line : Nat}

/-- An L1 without dirty words of its own has no line to write back. -/
theorem dirtyLines_of_undirtied (h : Undirtied s sh) : s.dirtyLines sh = [] := by
  unfold State.dirtyLines
  refine congrArg List.eraseDups (a₂ := []) (List.flatMap_eq_nil_iff.2 fun f hf => List.filterMap_eq_nil_iff.2 fun w hw => ?_)
  obtain ⟨hin, hsh⟩ := List.mem_filter.1 hf
  have hc : w.cached = false := h f hin (of_decide_eq_true hsh) w hw
  split
  · simp [BufWrite.dirtyIn, hc]
  · rfl

theorem writeBack_of_undirtied (h : Undirtied s sh) : s.writeBack sh = s := by
  rw [State.writeBack, dirtyLines_of_undirtied h, List.foldl_nil]

/-- The fibre has only lost writes of its buffer since `s`, and no request has been made or answered. -/
structure Shrunk (s : State) (k : FKey) (g : Fibre) (u : State) : Prop where
  reqs : u.reqs = s.reqs
  fibre : ∃ ws, u.fibre? k = some { g with wb := ws } ∧ ∀ w ∈ ws, w ∈ g.wb

/-- A dirty word that may leave may still leave once others have left. -/
theorem leaveOk_of_shrunk (hreqs : u.reqs = s.reqs) (hok : s.leaveOk g b = true) {l : Nat} (hd : b.dest = .home l) (hrel : b.rel = false) {ws : List BufWrite}
    (hws : ∀ w ∈ ws, w ∈ g.wb) : u.leaveOk { g with wb := ws } b = true := by
  have hreads : u.olderReads g.key b.seq = s.olderReads g.key b.seq := by rw [State.olderReads, hreqs, State.olderReads]
  have holder : ∀ o, o ∈ ({ g with wb := ws } : Fibre).olderWrites b → o ∈ g.olderWrites b := fun o ho => by
    obtain ⟨hin, hold⟩ := List.mem_filter.1 ho
    exact List.mem_filter.2 ⟨hws o hin, hold⟩
  simp only [State.leaveOk, hd, hrel, Bool.not_false, Bool.true_or, Bool.and_true, Bool.and_eq_true, Bool.true_and, Bool.not_eq_true', List.any_eq_false] at hok ⊢
  obtain ⟨⟨⟨hbefore, hread⟩, hfence⟩, hlive⟩ := hok
  exact ⟨⟨⟨fun o ho => hbefore o (holder o ho), by rw [hreads]; exact hread⟩, hfence⟩, hlive⟩

/-- A dirty word is a store of device memory, and no release. -/
theorem dirtyIn_home {w : BufWrite} (h : w.dirtyIn line = true) : w.rel = false ∧ ∃ l, w.dest = .home l := by
  simp only [BufWrite.dirtyIn, Bool.and_eq_true, Bool.not_eq_true'] at h
  obtain ⟨⟨⟨-, hrel⟩, -⟩, hdest⟩ := h
  refine ⟨hrel, ?_⟩
  split at hdest
  next hd => exact ⟨_, hd⟩
  next => nomatch hdest

/-- What leaves of a line's dirty words: the write of that fibre, where it may. -/
def State.leaveWord (g : Nat) (s : State) (p : FKey × BufWrite) : State :=
  match s.fibre? p.1 with
  | some f => if s.leaveOk f p.2 then s.leave f p.2 g else s
  | none => s

/-- A dirty word that leaves its write buffer goes to the apply queue of its die. -/
theorem leave_home {w : BufWrite} {l : Nat} (hd : w.dest = .home l) (grp : Nat) :
    (s.leave f w grp).reqs = s.reqs ∧ (s.leave f w grp).fibre? k = if k = f.key then (s.fibre? k).map fun g => { g with wb := g.wb.filter fun o => o.wid ≠ w.wid } else s.fibre? k := by
  have hf := fibre?_updFibre s f.key k (fun g => { g with wb := g.wb.filter fun o => o.wid ≠ w.wid }) fun _ => rfl
  rw [State.leave, hd]
  dsimp only
  rw [askHost_only]
  refine ⟨rfl, hf.trans ?_⟩
  split
  next hk => rw [hk]
  next => rfl

theorem shrunk_leaveWord (h : Shrunk s k g u) {p : FKey × BufWrite} (hp : p.2.dirtyIn line = true) (grp : Nat) : Shrunk s k g (u.leaveWord grp p) := by
  obtain ⟨-, l, hd⟩ := dirtyIn_home hp
  obtain ⟨hreqs, ws, hf, hws⟩ := h
  unfold State.leaveWord
  split
  next x hx =>
    split
    · obtain ⟨hreqs', hfib⟩ := leave_home (s := u) (f := x) (k := k) hd grp
      rw [hf, Option.map_some] at hfib
      refine ⟨hreqs'.trans hreqs, ?_⟩
      split at hfib
      · exact ⟨_, hfib, fun w hw => hws w (List.mem_filter.1 hw).1⟩
      · exact ⟨ws, hfib, hws⟩
    · exact ⟨hreqs, ws, hf, hws⟩
  next => exact ⟨hreqs, ws, hf, hws⟩

/-- Once a word of the fibre has left, it is in its write buffer no longer. -/
theorem leaveWord_leaves (h : Shrunk s k g u) (hk : g.key = k) (hok : s.leaveOk g b = true) (hb : b.dirtyIn line = true) (grp : Nat) :
    ∀ x, (u.leaveWord grp (k, b)).fibre? k = some x → b ∉ x.wb := by
  obtain ⟨hrel, l, hd⟩ := dirtyIn_home hb
  obtain ⟨hreqs, ws, hf, hws⟩ := h
  intro x hx
  rw [State.leaveWord, hf] at hx
  dsimp only at hx
  rw [if_pos (leaveOk_of_shrunk hreqs hok hd hrel hws), (leave_home hd grp).2, if_pos hk.symm, hf, Option.map_some] at hx
  obtain rfl := Option.some.inj hx
  simp

/-- The write buffer of the fibre holds `b` no longer, and has taken nothing new. -/
theorem leaveWord_keeps_out (h : Shrunk s k g u) {p : FKey × BufWrite} (hp : p.2.dirtyIn line = true) (hout : ∀ x, u.fibre? k = some x → b ∉ x.wb) (grp : Nat) :
    ∀ x, (u.leaveWord grp p).fibre? k = some x → b ∉ x.wb := by
  obtain ⟨-, l, hd⟩ := dirtyIn_home hp
  obtain ⟨-, ws, hf, -⟩ := h
  unfold State.leaveWord
  split
  next y hy =>
    split
    · intro x hx
      rw [(leave_home hd grp).2, hf, Option.map_some] at hx
      split at hx
      · obtain rfl := Option.some.inj hx
        exact fun hin => hout _ hf (List.mem_filter.1 hin).1
      · exact hout x (hf.trans hx)
    · exact hout
  next => exact hout

theorem shrunk_foldl (grp : Nat) (ws : List (FKey × BufWrite)) (hws : ∀ p ∈ ws, p.2.dirtyIn line = true) (h : Shrunk s k g u) :
    Shrunk s k g (ws.foldl (State.leaveWord grp) u) := by
  induction ws generalizing u with
  | nil => exact h
  | cons p ws ih => exact ih (fun q hq => hws q (List.mem_cons_of_mem _ hq)) (shrunk_leaveWord h (hws p List.mem_cons_self) grp)

theorem foldl_keeps_out (grp : Nat) (ws : List (FKey × BufWrite)) (hws : ∀ p ∈ ws, p.2.dirtyIn line = true) (h : Shrunk s k g u)
    (hout : ∀ x, u.fibre? k = some x → b ∉ x.wb) : ∀ x, (ws.foldl (State.leaveWord grp) u).fibre? k = some x → b ∉ x.wb := by
  induction ws generalizing u with
  | nil => exact hout
  | cons p ws ih =>
    have hp := hws p List.mem_cons_self
    exact ih (fun q hq => hws q (List.mem_cons_of_mem _ hq)) (shrunk_leaveWord h hp grp) (leaveWord_keeps_out h hp hout grp)

/-- The dirty words of a line that a share's fibres hold. -/
def State.dirtyWords (s : State) (sh line : Nat) : List (FKey × BufWrite) :=
  (s.fibres.filter fun f => f.key.share = sh).flatMap fun f => (f.wb.filter fun w => w.dirtyIn line).map fun w => (f.key, w)

theorem writeBackLine_eq (s : State) (sh line : Nat) : s.writeBackLine sh line
    = (s.dirtyWords sh line).foldl (fun s p => s.applyAq p.2.wid) ((s.dirtyWords sh line).foldl (State.leaveWord s.serial) s.bump) := rfl

theorem dirtyIn_of_dirtyWords {p : FKey × BufWrite} (hp : p ∈ s.dirtyWords sh line) : p.2.dirtyIn line = true := by
  obtain ⟨f, -, hf⟩ := List.mem_flatMap.1 hp
  obtain ⟨w, hw, rfl⟩ := List.mem_map.1 hf
  exact (List.mem_filter.1 hw).2

/-- A dirty word that may leave is written back with its line. -/
theorem writeBackLine_takes (hf : s.fibre? k = some g) (hb : b ∈ g.wb) (hok : s.leaveOk g b = true) (hd : b.dirtyIn line = true) :
    ∃ x, (s.writeBackLine k.share line).fibre? k = some x ∧ b ∉ x.wb ∧ x.regs = g.regs := by
  have hk : g.key = k := fibre?_key hf
  have hin : (k, b) ∈ s.dirtyWords k.share line := by
    refine List.mem_flatMap.2 ⟨g, List.mem_filter.2 ⟨List.mem_of_find?_eq_some hf, by rw [hk]; exact decide_eq_true rfl⟩, ?_⟩
    exact List.mem_map.2 ⟨b, List.mem_filter.2 ⟨hb, hd⟩, by rw [hk]⟩
  have hdirty : ∀ p ∈ s.dirtyWords k.share line, p.2.dirtyIn line = true := fun p hp => dirtyIn_of_dirtyWords hp
  have hstart : Shrunk s k g s.bump := ⟨rfl, g.wb, hf, fun _ h => h⟩
  obtain ⟨-, ws, hleft, -⟩ := shrunk_foldl s.serial _ hdirty hstart
  have hout : b ∉ ws := by
    obtain ⟨pre, post, hsplit⟩ := List.append_of_mem hin
    rw [hsplit] at hdirty hleft
    have hpre := shrunk_foldl s.serial pre (fun p hp => hdirty p (List.mem_append_left _ hp)) hstart
    rw [List.foldl_append, List.foldl_cons] at hleft
    exact foldl_keeps_out s.serial post (fun p hp => hdirty p (List.mem_append_right _ (List.mem_cons_of_mem _ hp))) (shrunk_leaveWord hpre hd s.serial)
      (leaveWord_leaves hpre hk hok hd s.serial) _ hleft
  have hstand := fibre?_of_standing (standing_foldl (s.dirtyWords k.share line) (fun s p => s.applyAq p.2.wid) (fun s p => standing_applyAq s _)
    ((s.dirtyWords k.share line).foldl (State.leaveWord s.serial) s.bump)) k
  rw [← writeBackLine_eq, hleft, Option.map_some] at hstand
  obtain ⟨x, hx, hfreeze⟩ := Option.map_eq_some_iff.1 hstand
  have hwb := congrArg (fun f : Fibre => f.wb) hfreeze
  have hregs := congrArg (fun f : Fibre => f.regs) hfreeze
  replace hwb : x.wb = ws := hwb
  exact ⟨x, hx, hwb ▸ hout, hregs⟩

theorem dirtyIn_of_lineOf? (h : s.lineOf? sh b = some line) : b.dirtyIn line = true := by
  unfold State.lineOf? at h
  split at h
  · split at h
    next hc =>
      obtain rfl := Option.some.inj h
      exact (Bool.and_eq_true _ _ ▸ hc).1
    next => nomatch h
  · nomatch h

/-- L1_WRITEBACK of a share with one line of dirty words. -/
theorem runs_l1Writeback (hf : s.fibre? k = some g) (hb : b ∈ g.wb) (hok : s.leaveOk g b = true) (hl : s.lineOf? k.share b = some line)
    (hlines : s.dirtyLines k.share = [line]) : Runs (.l1Writeback k.share) s fun t => ∃ h, t.fibre? k = some h ∧ b ∉ h.wb ∧ h.regs = g.regs := by
  refine ⟨_, rfl, ?_⟩
  rw [State.writeBack, hlines, List.foldl_cons, List.foldl_nil]
  exact writeBackLine_takes hf hb hok (dirtyIn_of_lineOf? hl)

end


/-! ### Answers -/

section
variable {s t y : State} {k : FKey} {f g : Fibre} {r : Req} {v w loc : Nat}

theorem withWaits_only (f : Fibre) (ws : List Waiting) :
    f.withWaits ws = { f with wait := (f.withWaits ws).wait, waitSeq := (f.withWaits ws).waitSeq, waitUnit := (f.withWaits ws).waitUnit, more := (f.withWaits ws).more } := by
  cases ws <;> rfl

theorem waitOver_only (f : Fibre) (id now : Nat) : f.waitOver id now = { f with
    wait := (f.waitOver id now).wait, waitSeq := (f.waitOver id now).waitSeq, waitUnit := (f.waitOver id now).waitUnit, more := (f.waitOver id now).more, since := now } := by
  rw [Fibre.waitOver, Fibre.unwait, withWaits_only]

theorem foldl_regs_only {α : Type} (l : List α) (F : Fibre → α → Fibre) (hF : ∀ f a, F f a = { f with regs := (F f a).regs }) (f : Fibre) :
    l.foldl F f = { f with regs := (l.foldl F f).regs } := by
  induction l generalizing f with
  | nil => rfl
  | cons a l ih =>
    rw [List.foldl_cons, ih, hF]

/-- The registers that a value of `n` words leaves, from the registers as they stood. -/
theorem setOpd_only (f : Fibre) (d : RegNo) (n v : Nat) : f.setOpd d n v = { f with regs := (f.setOpd d n v).regs } := by
  unfold Fibre.setOpd
  split
  · rfl
  · split
    · rfl
    · exact foldl_regs_only _ _ (fun _ _ => rfl) f

theorem foldl_regs_congr {α : Type} (l : List α) (F : Fibre → α → Fibre) (hF : ∀ f g a, f.regs = g.regs → (F f a).regs = (F g a).regs) {f g : Fibre} (h : f.regs = g.regs) :
    (l.foldl F f).regs = (l.foldl F g).regs := by
  induction l generalizing f g with
  | nil => exact h
  | cons a l ih => exact ih (hF f g a h)

theorem setReg_regs_congr {f g : Fibre} (h : f.regs = g.regs) (d : RegNo) (v : Word) : (f.setReg d v).regs = (g.setReg d v).regs := by
  simp only [Fibre.setReg, h]

theorem setOpd_regs_congr {f g : Fibre} (h : f.regs = g.regs) (d : RegNo) (n v : Nat) : (f.setOpd d n v).regs = (g.setOpd d n v).regs := by
  unfold Fibre.setOpd
  split
  · exact setReg_regs_congr h _ _
  · split
    · exact setReg_regs_congr (setReg_regs_congr h _ _) _ _
    · exact foldl_regs_congr (List.range n) _ (fun f g i h => setReg_regs_congr h (d + BitVec.ofNat 5 i) (BitVec.ofNat 32 (v / 2 ^ (32 * i)))) h

/-- A value that comes to a resident fibre goes to its registers, and ends its wait. -/
theorem arrive_resident (hf : y.fibre? r.key = some g) (hres : g.res = .resident w) (hlive : g.wait ≠ .halted) (hkind : (∃ n, r.kind = .ldf n) ∨ ∃ sg cc c, r.kind = .waitc sg cc c)
    (hal : r.also = []) (hdw : r.dw ≠ 0) : (y.arrive r v).fibre? r.key = some ((g.waitOver r.id y.now).setOpd r.dst r.dw v)
      ∧ (y.arrive r v).mem = y.mem ∧ (y.arrive r v).full = y.full ∧ (y.arrive r v).req? r.id = none := by
  have hpref : r.kind ≠ .pref ∧ r.kind ≠ .frame := by
    obtain ⟨n, hk⟩ | ⟨sg, cc, c, hk⟩ := hkind <;> rw [hk] <;> exact ⟨nofun, nofun⟩
  have hmembers : r.members = [r.key] := by rw [Req.members, if_neg hpref.1, hal]; rfl
  have hwrite (x : Fibre) : r.writeTo v x = x.setOpd r.dst r.dw v := by
    obtain ⟨n, hk⟩ | ⟨sg, cc, c, hk⟩ := hkind <;> simp [Req.writeTo, Req.regValue, hk, hdw]
  have hdrop : (y.dropReq r.id).fibre? r.key = some g := hf
  have hrel : ((y.dropReq r.id).releaseCharge r.key r.charge).fibre? r.key = some g := by rw [releaseCharge_only]; exact hf
  have hnow : ((y.dropReq r.id).releaseCharge r.key r.charge).now = y.now := by rw [releaseCharge_only]; rfl
  have he : y.arrive r v = ((y.dropReq r.id).releaseCharge r.key r.charge).updFibre r.key fun g => (g.waitOver r.id y.now).setOpd r.dst r.dw v := by
    rw [State.arrive]
    simp only [hdrop, if_neg hlive, hres, hmembers, List.foldl_cons, List.foldl_nil, State.giveValue, hrel, hnow, if_neg hpref.2, hwrite]
  have hfib := fibre?_updFibre ((y.dropReq r.id).releaseCharge r.key r.charge) r.key r.key (fun g => (g.waitOver r.id y.now).setOpd r.dst r.dw v) fun x => by
    rw [setOpd_only, waitOver_only]
  rw [hrel, Option.map_some, if_pos rfl, ← he] at hfib
  refine ⟨hfib, ?_, ?_, ?_⟩
  all_goals rw [he, releaseCharge_only]
  · rfl
  · rfl
  · exact req?_dropReq y r.id

theorem acquireL1_only (h : r.acq = true → Undirtied s r.key.share) : s.acquireL1 r = { s with l1 := (s.acquireL1 r).l1 } := by
  unfold State.acquireL1
  split
  next ha =>
    rw [State.shareAcquire, writeBack_of_undirtied (h ha)]
    rfl
  next => rfl

/-- What the step of a request that has been answered leaves: the answer is noted, and has joined the fibre's view. -/
structure Answered (s t : State) (r : Req) (v : Nat) (f : Fibre) : Prop where
  req : ∃ w, t.req? r.id = some { r with ans := some v, ansView := w, bell := false, rd := none }
  fibre : ∃ w, t.fibre? r.key = some { f with view := w }
  mem : t.mem = s.mem
  full : t.full = s.full

/-- An acquire whose share has nothing to write back is answered. -/
theorem answered_acquire (hreq : s.req? r.id = some r) (hf : s.fibre? r.key = some f) (ha : r.acq = true → Undirtied s r.key.share) (v : Nat) (w : View) (die p loc n : Nat) :
    Answered s (((s.answer r v w).learnRead die p loc n).acquireL1 r) r v f := by
  have hupd := fibre?_updFibre (s.updReq r.id fun q => { q with ans := some v, ansView := w, bell := false, rd := none }) r.key r.key (fun g => { g with view := g.view.join w }) fun _ => rfl
  have hfib : (s.updReq r.id fun q => { q with ans := some v, ansView := w, bell := false, rd := none }).fibre? r.key = some f := hf
  rw [hfib, Option.map_some, if_pos rfl] at hupd
  have hnew := req?_updReq_same s r.id (fun q => { q with ans := some v, ansView := w, bell := false, rd := none }) fun _ => rfl
  rw [hreq, Option.map_some] at hnew
  have hcalm : r.acq = true → Undirtied ((s.answer r v w).learnRead die p loc n) r.key.share := by
    intro hacq x hx hsh
    rw [learnRead_only] at hx
    obtain ⟨z, hz, rfl⟩ := List.mem_map.1 hx
    split at hsh
    next hk => rw [if_pos hk]; exact ha hacq z hz hsh
    next hk => rw [if_neg hk]; exact ha hacq z hz hsh
  rw [acquireL1_only hcalm, learnRead_only]
  exact ⟨⟨w, hnew⟩, ⟨_, hupd⟩, rfl, rfl⟩

/-- The request may take its step: it is a waiting one of a resident fibre, and its word is where the fibre may read it. -/
structure MayStep (s : State) (r : Req) (f : Fibre) (w loc : Nat) : Prop where
  req : s.req? r.id = some r
  fibre : s.fibre? r.key = some f
  resident : f.res = .resident w
  away : s.midChain r.key = false ∧ s.awayOf r.key = none ∧ r.decided = true
  waiting : r.ans = none ∧ r.fail = none
  shape : r.rel = false ∧ r.also = [] ∧ r.dest = .home loc ∧ r.dw ≠ 0
  allowed : s.performOk f r = true ∧ s.eatsPoison f r = false
  roomy : Roomy s
  calm : r.acq = true → Undirtied s r.key.share

theorem decideReq_decided (hd : r.decided = true) : s.decideReq r = s := by simp [State.decideReq, hd]

/-- What the step of a request reads: the state after the snoop and the host's answer. -/
def State.readied (s : State) (loc n : Nat) : State := (s.snoop loc).useAnswer loc n

theorem readied_only (s : State) (loc n : Nat) :
    s.readied loc n = { s with pages := (s.readied loc n).pages, hbits := (s.readied loc n).hbits, out := (s.readied loc n).out } := by
  rw [State.readied, useAnswer_only]
  unfold State.snoop
  split <;> rfl

theorem roomy_readied (h : Roomy s) (loc n : Nat) : Roomy (s.readied loc n) := by
  have hsnoop : Roomy (s.snoop loc) := by
    unfold State.snoop
    split
    · exact h
    · exact h
  exact roomy_useAnswer hsnoop loc n

/-- Where its step has answered the request, the value arrives. -/
def State.answeredStep (s : State) (id : Nat) : State :=
  match s.req? id with
  | some r => (match r.ans with
      | some v => s.arrive r v
      | none => s)
  | none => s

theorem answeredStep_of_ans {q : Req} (hq : s.req? r.id = some q) (ha : q.ans = some v) : s.answeredStep r.id = s.arrive q v := by
  rw [State.answeredStep, hq]
  simp only [ha]

theorem answeredStep_of_none {q : Req} (hq : s.req? r.id = some q) (ha : q.ans = none) : s.answeredStep r.id = s := by
  rw [State.answeredStep, hq]
  simp only [ha]

/-- A request that is allowed takes its step. -/
theorem tryReq_perform (hm : MayStep s r f w loc) : s.tryReq r.id = (s.perform f r).answeredStep r.id := by
  obtain ⟨hans, hfail⟩ := hm.waiting
  obtain ⟨hok, hpoison⟩ := hm.allowed
  rw [State.tryReq, hm.req]
  simp only [hm.fibre, hfail, hans, hm.shape.1, hok, hpoison, Bool.false_eq_true, if_false, Bool.not_true]
  rfl

theorem arrives_of_answered (hm : MayStep s r f w loc) (ha : Answered t (s.perform f r) r v f) (hlive : f.wait ≠ .halted)
    (hkind : (∃ n, r.kind = .ldf n) ∨ ∃ sg cc c, r.kind = .waitc sg cc c) :
    (∃ g, (s.tryReq r.id).fibre? r.key = some g ∧ (∀ n a, f.waits = [⟨n, a, .request r.id⟩] → g.waits = []) ∧ g.regs = (f.setOpd r.dst r.dw v).regs ∧ g.ip = f.ip)
      ∧ (s.tryReq r.id).mem = t.mem ∧ (s.tryReq r.id).full = t.full ∧ (s.tryReq r.id).req? r.id = none := by
  obtain ⟨⟨rv, hreq⟩, ⟨fv, hf⟩, hmem, hfull⟩ := ha
  obtain ⟨-, hal, -, hdw⟩ := hm.shape
  have he : s.tryReq r.id = (s.perform f r).arrive { r with ans := some v, ansView := rv, bell := false, rd := none } v := by
    rw [tryReq_perform hm, answeredStep_of_ans hreq rfl]
  obtain ⟨hg, hmem', hfull', hgone⟩ := arrive_resident (v := v) (r := { r with ans := some v, ansView := rv, bell := false, rd := none }) hf hm.resident hlive hkind hal hdw
  rw [he]
  refine ⟨⟨_, hg, ?_, ?_, ?_⟩, hmem'.trans hmem, hfull'.trans hfull, hgone⟩
  · intro n a hw
    have hfv : ({ f with view := fv } : Fibre).waits = [⟨n, a, .request r.id⟩] := hw
    rw [setOpd_only, Fibre.waitOver, Fibre.unwait, hfv]
    simp [Wait.request?, Fibre.withWaits, Fibre.waits]
  · refine setOpd_regs_congr ?_ _ _ _
    rw [waitOver_only]
  · rw [setOpd_only, waitOver_only]

/-! ### LDF_RETEST and WAITC_POLL -/

theorem readied_mem (s : State) (loc n : Nat) : (s.readied loc n).mem = s.mem := by rw [readied_only]

theorem readied_keeps (hm : MayStep s r f w loc) : (s.readied loc r.n).req? r.id = some r ∧ (s.readied loc r.n).fibre? r.key = some f
    ∧ (r.acq = true → Undirtied (s.readied loc r.n) r.key.share) := by
  rw [readied_only]
  exact ⟨hm.req, hm.fibre, hm.calm⟩

/-- An LDF whose granule is full takes it, and empties the granule (R155). -/
theorem perform_ldf (hm : MayStep s r f w loc) {n : Nat} (hk : r.kind = .ldf n) :
    Answered { s.readied loc r.n with full := s.full.filter fun x => x ≠ loc / 16 } (s.perform f r) r (s.mem.read loc n) f := by
  obtain ⟨hreq, hf, hcalm⟩ := readied_keeps hm
  have hfull : (s.readied loc r.n).full = s.full := by rw [readied_only]
  rw [← readied_mem s loc r.n, ← hfull, State.perform, hm.shape.2.2.1, hk]
  exact answered_acquire (s := { s.readied loc r.n with full := (s.readied loc r.n).full.filter fun x => x ≠ loc / 16 }) hreq hf hcalm _ _ _ _ _ _

/-- A WAITC on a word that satisfies it is answered with the word. -/
theorem perform_waitc (hm : MayStep s r f w loc) {sg : Bool} {cc : CC} {c : Word} (hk : r.kind = .waitc sg cc c)
    (hc : waitcCond sg cc (s.mem.read loc 4) c.toNat = true) : Answered (s.readied loc r.n) (s.perform f r) r (s.mem.read loc 4) f := by
  obtain ⟨hreq, hf, hcalm⟩ := readied_keeps hm
  rw [← readied_mem s loc r.n] at hc ⊢
  rw [State.perform, hm.shape.2.2.1, hk]
  dsimp only
  rw [← State.readied, if_pos hc]
  exact answered_acquire hreq hf hcalm _ _ _ _ _ _

theorem readLine_only_of_roomy (h : Roomy s) (loc n : Nat) (own : Option Nat) (keep : Bool) :
    s.readLine loc n own keep = { s with lines := (s.readLine loc n own keep).lines, l1 := (s.readLine loc n own keep).l1 } := by
  unfold State.readLine
  dsimp only
  split
  · rfl
  · rw [fillLine_only_of_roomy h]
    split
    · rfl
    · rw [recall_only]

/-- A WAITC on a word that does not satisfy it waits on, with or without a bell. -/
theorem perform_waitc_waits (hm : MayStep s r f w loc) {sg : Bool} {cc : CC} {c : Word} (hk : r.kind = .waitc sg cc c)
    (hc : waitcCond sg cc (s.mem.read loc 4) c.toNat = false) :
    (s.perform f r).fibre? r.key = some f ∧ (s.perform f r).mem = s.mem ∧ ∃ q, (s.perform f r).req? r.id = some q ∧ q.ans = none := by
  obtain ⟨hreq, hf, -⟩ := readied_keeps hm
  have hperform : s.perform f r = (s.readied loc r.n).armBell r loc := by
    unfold State.perform
    rw [hm.shape.2.2.1, hk]
    dsimp only
    rw [← State.readied, readied_mem, if_neg (by rw [hc]; exact Bool.false_ne_true)]
  have hupd {z : State} (hz : z.req? r.id = some r) (u : Req → Req) (hid : ∀ q, (u q).id = q.id) (hu : (u r).ans = r.ans) :
      ∃ q, (z.updReq r.id u).req? r.id = some q ∧ q.ans = none :=
    ⟨u r, by rw [req?_updReq_same z r.id u hid, hz, Option.map_some], hu.trans hm.waiting.1⟩
  have hmem := readied_mem s loc r.n
  rw [hperform, State.armBell]
  split
  · have hline := readLine_only_of_roomy (roomy_readied hm.roomy loc r.n) loc r.n none false
    refine ⟨?_, ?_, hupd ?_ _ (fun _ => rfl) rfl⟩
    all_goals rw [hline]
    · exact hf
    · exact hmem
    · exact hreq
  · exact ⟨hf, hmem, hupd hreq _ (fun _ => rfl) rfl⟩

theorem execLdfRetest_tries (hm : MayStep s r f w loc) {n : Nat} (hk : r.kind = .ldf n) : exec (.ldfRetest r.id) s = .next (s.tryReq r.id) := by
  obtain ⟨hmid, haway, hdec⟩ := hm.away
  show Host.Outcome.next _ = _
  rw [hm.req]
  simp [hk, hmid, haway, decideReq_decided hdec]

theorem execWaitcPoll_tries (hm : MayStep s r f w loc) {sg : Bool} {cc : CC} {c : Word} (hk : r.kind = .waitc sg cc c) :
    exec (.waitcPoll r.id .own) s = .next (s.tryReq r.id) := by
  obtain ⟨hmid, haway, hdec⟩ := hm.away
  show Host.Outcome.next (s.waitcPoll r.id .own) = _
  rw [State.waitcPoll, hm.req]
  simp [hk, hmid, haway, decideReq_decided hdec, hm.req, hm.shape.2.2.1]

end

/-- Settles O44: a retest or a poll is one step of its request, and a write-back one of each dirty line. -/
theorem pollsEndWaits : Obligations.PollsEndWaits := by
  unfold Obligations.PollsEndWaits
  intro s r f w loc
  refine ⟨fun sh h => congrArg Host.Outcome.next (writeBack_of_undirtied h), fun k g b l hf hb hok hl hlines _ => runs_l1Writeback hf hb hok hl hlines, ?_⟩
  intro hreq hf hres hmid haway hdec hans hfail hrel hal hdest hdw hok hpoison hroomy hcalm
  have hm : MayStep s r f w loc := ⟨hreq, hf, hres, ⟨hmid, haway, hdec⟩, ⟨hans, hfail⟩, ⟨hrel, hal, hdest, hdw⟩, ⟨hok, hpoison⟩, hroomy, hcalm⟩
  refine ⟨fun n hk hwait => ?_, fun sg cc v n a hk hwaits => ⟨fun hc => ?_, fun hc => ?_⟩⟩
  · obtain ⟨⟨g, hg, -, hregs, hip⟩, hmem, hfull, hgone⟩ := arrives_of_answered hm (perform_ldf hm hk) (by rw [hwait]; nofun) (.inl ⟨n, hk⟩)
    exact ⟨_, execLdfRetest_tries hm hk, ⟨g, hg, hregs, hip⟩, hfull, hmem.trans (readied_mem s loc r.n), hgone⟩
  · have hlive : f.wait ≠ .halted := by
      intro hh
      simp [Fibre.waits, hh] at hwaits
    obtain ⟨⟨g, hg, hdone, hregs, hip⟩, hmem, -, hgone⟩ := arrives_of_answered hm (perform_waitc hm hk hc) hlive (.inr ⟨sg, cc, v, hk⟩)
    exact ⟨_, execWaitcPoll_tries hm hk, ⟨g, hg, hdone n a hwaits, hregs, hip⟩, hmem.trans (readied_mem s loc r.n), hgone⟩
  · obtain ⟨hg, hmem, q, hq, hnone⟩ := perform_waitc_waits hm hk hc
    have htry : s.tryReq r.id = s.perform f r := (tryReq_perform hm).trans (answeredStep_of_none hq hnone)
    refine ⟨_, execWaitcPoll_tries hm hk, ?_⟩
    rw [htry]
    exact ⟨hg, hmem, by rw [hq]; rfl⟩

end Sys2Proof.Machine
end

section
/-! PROOF of O23: stores enter the write buffer, and are counted.

That a store enters the write buffer is `storeOne_buffers`. What it adds to the partials of its household is said here: per slot in
`partials_countStore`, and for INT32 slots as a sum over the bytes of the store in `countInto_int`. -/

namespace Sys2Proof.Machine
open Sys2Proof.Safety

/-! ### Little-endian numbers -/

theorem leNat_drop (k : Nat) (bs : List Byte) : leNat (bs.drop k) = leNat bs / 256 ^ k := by
  induction k generalizing bs with
  | zero => simp
  | succ k ih =>
    cases bs with
    | nil => simp [leNat]
    | cons b bs =>
      have hb := b.isLt
      rw [List.drop_succ_cons, ih, leNat, Nat.pow_succ', ← Nat.div_div_eq_div_mul]
      congr 1
      omega

theorem leNat_take (m : Nat) (bs : List Byte) : leNat (bs.take m) = leNat bs % 256 ^ m := by
  induction m generalizing bs with
  | zero => simp [leNat, Nat.mod_one]
  | succ m ih =>
    cases bs with
    | nil => simp [leNat]
    | cons b bs =>
      have hb := b.isLt
      rw [List.take_succ_cons, leNat, ih, leNat, Nat.pow_succ', Nat.mod_mul]
      congr 1
      · omega
      · congr 2
        omega

/-- A word of a little-endian number. -/
theorem leNat_word (k : Nat) (bs : List Byte) : leNat bs / 2 ^ (8 * k) % 2 ^ 32 = leNat ((bs.drop k).take 4) := by
  rw [leNat_take, leNat_drop, Nat.pow_mul]
  rfl

theorem signedOf_word (w : Nat) : signedOf 32 w = (BitVec.ofNat 32 w).toInt := by
  rw [BitVec.toInt_eq_toNat_cond, BitVec.toNat_ofNat, signedOf]
  split <;> split <;> omega

/-! ### Lists without duplicates -/

theorem nodup_eraseDups (l : List Nat) : l.eraseDups.Nodup := by
  induction h : l.length using Nat.strong_induction_on generalizing l with
  | _ n ih =>
    cases l with
    | nil => simp
    | cons a l =>
      rw [List.eraseDups_cons, List.nodup_cons]
      refine ⟨fun hm => ?_, ih _ ?_ _ rfl⟩
      · have := (List.mem_filter.1 (List.mem_eraseDups.1 hm)).2
        simp at this
      · rw [← h, List.length_cons]
        exact Nat.lt_succ_of_le (List.length_filter_le _ _)

/-- A sum over distinct places, read off byte by byte from `a` on. -/
theorem sum_places {l : List Nat} (hl : l.Nodup) (a n : Nat) (g : Nat → Int) (hout : ∀ p ∈ l, p < a ∨ a + n ≤ p → g p = 0) :
    (l.map g).sum = ((List.range n).map fun k => if a + k ∈ l then g (a + k) else 0).sum := by
  have hplaces : ((List.range n).map (a + ·)).Nodup := List.nodup_range.map fun _ _ h => Nat.add_left_cancel h
  rw [← List.sum_toFinset g hl, show (fun k => if a + k ∈ l then g (a + k) else 0) = (fun p => if p ∈ l then g p else 0) ∘ (a + ·) from rfl, ← List.map_map,
    ← List.sum_toFinset _ hplaces]
  refine Finset.sum_congr_of_eq_on_inter (fun p hp hnot => ?_) (fun p _ hnot => ?_) (fun p hp _ => ?_)
  · refine hout p (List.mem_toFinset.1 hp) ?_
    by_contra hin
    refine hnot (List.mem_toFinset.2 (List.mem_map.2 ⟨p - a, List.mem_range.2 (by omega), by omega⟩))
  · exact if_neg fun hp => hnot (List.mem_toFinset.2 hp)
  · exact (if_pos (List.mem_toFinset.1 hp)).symm

/-! ### One store into one INT32 slot (R297, R298) -/

section
variable {d : BitVec 512} {a n v : Nat} {x : MonSum}

/-- The field at `p` lies whole in the `n` bytes at `a`. -/
abbrev Covers (a n p : Nat) : Prop := a ≤ p ∧ p + 4 ≤ a + n

/-- A field of the slot stands at `p`. -/
abbrev IsField (d : BitVec 512) (p : Nat) : Prop := monBase d ≤ p ∧ p + 4 ≤ monBase d + monSize d ∧ (p - monBase d) % monStride d = monOff d

/-- What the field at `p` counts of a store of `n` bytes, `v`, at `a`: one that the store covers in part counts nothing. -/
def fieldValue (a n v p : Nat) : Int := if Covers a n p then signedOf 32 (v / 2 ^ (8 * (p - a)) % 2 ^ 32) else 0

/-- The field at `p`, which the store touches, is counted, or the slot's partial is marked. -/
def countField (a n v : Nat) (x : MonSum) (p : Nat) : MonSum :=
  if Covers a n p then x.count 0 0 (v / 2 ^ (8 * (p - a)) % 2 ^ 32) else { x with pw := true }

theorem countInto_eq (ht : monType d = 0) (he : monEbm d = 0) : countInto d a n v x = (monFields d a n).eraseDups.foldl (countField a n v) x := by
  have hf : monField d = 4 := by rw [monField, if_neg (by rw [ht]; decide)]
  unfold countInto
  simp only [hf, ht, he]
  rfl

theorem mem_monFields (ht : monType d = 0) (p : Nat) : p ∈ (monFields d a n).eraseDups ↔ IsField d p ∧ p < a + n ∧ a < p + 4 := by
  have hf : monField d = 4 := by rw [monField, if_neg (by rw [ht]; decide)]
  simp only [List.mem_eraseDups, monFields, hf, List.mem_filter, List.mem_map, List.mem_range, Bool.and_eq_true, decide_eq_true_eq, overlap]
  constructor
  · rintro ⟨-, ⟨⟨hbase, hsize⟩, hstride⟩, hlt, hgt⟩
    exact ⟨⟨hbase, hsize, hstride⟩, hlt, hgt⟩
  · rintro ⟨⟨hbase, hsize, hstride⟩, hlt, hgt⟩
    exact ⟨⟨p + 4 - a, by omega, by omega⟩, ⟨⟨hbase, hsize⟩, hstride⟩, hlt, hgt⟩

theorem length_monFields (ht : monType d = 0) : (monFields d a n).eraseDups.length ≤ n + 4 := by
  have hf : monField d = 4 := by rw [monField, if_neg (by rw [ht]; decide)]
  have hsub : (monFields d a n).eraseDups ⊆ monFields d a n := fun p hp => List.mem_eraseDups.1 hp
  refine ((nodup_eraseDups _).subperm hsub).length_le.trans ((List.length_filter_le _ _).trans ?_)
  simp [hf]

theorem signedOf_bound (w : Nat) : -2 ^ 31 ≤ signedOf 32 w ∧ signedOf 32 w < 2 ^ 31 := by
  rw [signedOf]
  split <;> omega

/-- A field is added while the partial is far from its limits. -/
theorem count_int (hs : x.sat = false) {w : Nat} (hlow : -2 ^ 95 + 2 ^ 31 ≤ x.a) (hhigh : x.a ≤ 2 ^ 95 - 2 ^ 31) : x.count 0 0 w = { x with a := x.a + signedOf 32 w } := by
  obtain ⟨hl, hh⟩ := signedOf_bound w
  have hround (p : Int) : scaleRound p 0 = (p, true) := by simp [scaleRound]
  have hadd : x.add (signedOf 32 w) = { x with a := x.a + signedOf 32 w } := by
    rw [MonSum.add, hs, if_neg Bool.false_ne_true]
    dsimp only
    rw [if_neg (by omega), if_neg (by omega)]
  rw [MonSum.count, if_pos rfl]
  simp [hround, hadd]

theorem foldl_countField (l : List Nat) (hs : x.sat = false) (hlow : -2 ^ 95 + 2 ^ 31 * (l.length : Int) ≤ x.a) (hhigh : x.a ≤ 2 ^ 95 - 2 ^ 31 * (l.length : Int)) :
    l.foldl (countField a n v) x = { x with a := x.a + (l.map (fieldValue a n v)).sum, pw := x.pw || l.any fun p => decide (¬ Covers a n p) } := by
  induction l generalizing x with
  | nil => simp
  | cons p l ih =>
    rw [List.length_cons] at hlow hhigh
    push_cast at hlow hhigh
    rw [List.foldl_cons, List.map_cons, List.sum_cons, List.any_cons, countField, fieldValue]
    by_cases hc : Covers a n p
    · obtain ⟨hl, hh⟩ := signedOf_bound (v / 2 ^ (8 * (p - a)) % 2 ^ 32)
      rw [if_pos hc, if_pos hc, count_int hs (by omega) (by omega), ih (x := { x with a := x.a + signedOf 32 (v / 2 ^ (8 * (p - a)) % 2 ^ 32) }) hs (by dsimp only; omega) (by dsimp only; omega)]
      simp [hc, Int.add_assoc]
    · rw [if_neg hc, if_neg hc, ih (x := { x with pw := true }) hs (by dsimp only; omega) (by dsimp only; omega)]
      simp [hc]

/-- What a store of at most 16 bytes adds to the partial of an INT32 slot. -/
theorem countInto_int (ht : monType d = 0) (he : monEbm d = 0) (hs : x.sat = false) (hn : n ≤ 16) (hlow : -2 ^ 94 < x.a) (hhigh : x.a < 2 ^ 94) (bs : List Byte) :
    let y := countInto d a n (leNat bs) x
    (∃ w : Nat → Int, y.a = x.a + ((List.range n).map w).sum
      ∧ ∀ k, (k + 4 ≤ n ∧ IsField d (a + k) → w k = (BitVec.ofNat 32 (leNat ((bs.drop k).take 4))).toInt) ∧ (¬ (k + 4 ≤ n ∧ IsField d (a + k)) → w k = 0))
    ∧ (y.pw = true ↔ x.pw = true ∨ ∃ p, IsField d p ∧ p < a + n ∧ a < p + 4 ∧ ¬ Covers a n p) ∧ y.nan = x.nan ∧ y.sat = false ∧ y.inx = x.inx := by
  intro y
  have hlen := length_monFields (a := a) (n := n) ht
  have hy : y = _ := (countInto_eq ht he).trans (foldl_countField _ hs (by omega) (by omega))
  have hpw : (x.pw || (monFields d a n).eraseDups.any fun p => decide (¬ Covers a n p)) = true ↔ x.pw = true ∨ ∃ p, IsField d p ∧ p < a + n ∧ a < p + 4 ∧ ¬ Covers a n p := by
    simp only [Bool.or_eq_true, List.any_eq_true, mem_monFields ht, decide_eq_true_eq, and_assoc]
  have hsum := sum_places (nodup_eraseDups (monFields d a n)) a n (fieldValue a n (leNat bs)) fun p _ hp => if_neg (by omega)
  rw [hy]
  refine ⟨⟨_, congrArg (x.a + ·) hsum, fun k => ⟨fun ⟨hk, hfield⟩ => ?_, fun hno => ?_⟩⟩, hpw, rfl, hs, rfl⟩
  · have hc : Covers a n (a + k) := ⟨Nat.le_add_right a k, by omega⟩
    rw [if_pos ((mem_monFields ht _).2 ⟨hfield, by omega, by omega⟩), fieldValue, if_pos hc, Nat.add_sub_cancel_left, leNat_word, signedOf_word]
  · split
    next hin =>
      refine if_neg fun hc => hno ⟨?_, ((mem_monFields ht _).1 hin).1⟩
      omega
    next => rfl

end

/-! ### A store into the partials of its household -/

section
variable {s t u : State} {k : FKey} {spad : Bool} {va n v : Nat}

/-- What a store makes of the partial of slot `j`. -/
def State.counts (s : State) (k : FKey) (spad : Bool) (va n v j : Nat) (x : MonSum) : MonSum :=
  match s.monitors.get? j with
  | some m => if m.ctx = s.ctxOf k ∧ m.order = (s.ctx (s.ctxOf k)).order ∧ monLoc m.image = spad then countInto m.image (if spad then va % 2 ^ 20 else va) n v x else x
  | none => x

/-- One slot of `State.countStore`. -/
def State.countSlot (k : FKey) (c : Nat) (spad : Bool) (va n v : Nat) (s : State) (i : Nat) : State :=
  match s.monitors.get? i with
  | none => s
  | some m =>
    if m.ctx = c && m.order == (s.ctx c).order && monLoc m.image == spad then
      s.updShare k.share fun h => h.onPartial i (countInto m.image (if spad then va % 2 ^ 20 else va) n v)
    else s

theorem countStore_eq (s : State) : s.countStore k spad va n v = (List.range 8).foldl (State.countSlot k (s.ctxOf k) spad va n v) s := rfl

theorem onPartial_get (h : Household) (i : Nat) (f : MonSum → MonSum) (j : Fin 8) : (h.onPartial i f).partials[j] = if j.val = i then f h.partials[j] else h.partials[j] := by
  simp [Household.onPartial]

/-- The monitors, and the launch that each context runs. -/
def State.orders (s : State) : Tab MonSlot × (Nat → Nat) := (s.monitors, fun c => (s.ctx c).order)

/-- One slot counts a store, where it watches it, and leaves the others alone. -/
theorem countSlot_partials (hu : u.orders = s.orders) {o : Household} (ho : u.shares.get? k.share = some o) (i : Nat) :
    (u.countSlot k (s.ctxOf k) spad va n v i).orders = s.orders ∧ ∃ y, (u.countSlot k (s.ctxOf k) spad va n v i).shares.get? k.share = some y
      ∧ ∀ j : Fin 8, y.partials[j] = if j.val = i then s.counts k spad va n v i o.partials[j] else o.partials[j] := by
  have hmon : u.monitors = s.monitors := congrArg (fun p : Tab MonSlot × (Nat → Nat) => p.1) hu
  have hord : (u.ctx (s.ctxOf k)).order = (s.ctx (s.ctxOf k)).order := congrFun (congrArg Prod.snd hu) _
  unfold State.countSlot State.counts
  rw [hmon, hord]
  split
  next hm => exact ⟨hu, o, ho, fun j => by rw [hm]; simp⟩
  next m hm =>
    simp only [hm, Bool.and_eq_true, decide_eq_true_eq, beq_iff_eq, and_assoc]
    split
    · refine ⟨by rw [updShare_only]; exact hu, o.onPartial i _, ?_, fun j => onPartial_get o i _ j⟩
      rw [State.updShare, ho]
      exact (tab_get_set _ _ _ _).trans (if_pos rfl)
    · exact ⟨hu, o, ho, fun j => by simp⟩

theorem foldl_countSlot (l : List Nat) (hl : l.Nodup) (hu : u.orders = s.orders) {o : Household} (ho : u.shares.get? k.share = some o) :
    ∃ y, (l.foldl (State.countSlot k (s.ctxOf k) spad va n v) u).shares.get? k.share = some y
      ∧ ∀ j : Fin 8, y.partials[j] = if j.val ∈ l then s.counts k spad va n v j o.partials[j] else o.partials[j] := by
  induction l generalizing u o with
  | nil => exact ⟨o, ho, fun j => by simp⟩
  | cons i l ih =>
    obtain ⟨hi, hl⟩ := List.nodup_cons.1 hl
    obtain ⟨hu', y, hy, hpart⟩ := countSlot_partials (spad := spad) (va := va) (n := n) (v := v) hu ho i
    obtain ⟨z, hz, hrest⟩ := ih hl hu' hy
    refine ⟨z, hz, fun j => ?_⟩
    rw [hrest, hpart]
    by_cases hj : j.val = i
    · subst hj
      simp [hi]
    · simp [hj]

/-- What a store counts, from the partials as they stood (R297). -/
theorem partials_countStore (hu : u.offices = s.offices) {o : Household} (ho : s.shares.get? k.share = some o) :
    ∃ y, (u.countStore k spad va n v).shares.get? k.share = some y ∧ ∀ j : Fin 8, y.partials[j] = s.counts k spad va n v j o.partials[j] := by
  have hshares : u.shares = s.shares := congrArg Prod.fst hu
  have hsaved : u.saved = s.saved := congrArg (fun p => p.2.1) hu
  have hwatch : u.orders = s.orders := congrArg (fun p : Tab Household × Tab Household × Tab MonSlot × (Nat → Nat) => p.2.2) hu
  have hctx : u.ctxOf k = s.ctxOf k := by rw [State.ctxOf, State.share, hshares, hsaved, State.ctxOf, State.share]
  obtain ⟨y, hy, hpart⟩ := foldl_countSlot (k := k) (spad := spad) (va := va) (n := n) (v := v) (List.range 8) List.nodup_range hwatch (by rw [hshares]; exact ho)
  rw [countStore_eq, hctx]
  exact ⟨y, hy, fun j => by rw [hpart, if_pos (List.mem_range.2 j.isLt)]⟩

/-! ### What a store meets on its way -/

theorem standing_countLeaf (s : State) (k : FKey) (l : Leaf) (va : Nat) : (s.countLeaf k l va).standing = s.standing := by
  unfold State.countLeaf
  extract_lets key n s1 e cnt e' w s2 t q ctl g lgn tail head nxt size ph rec16 s3 s4
  have hreg (s : State) (off : Nat) (v : DWord) : (s.setReg off v).standing = s.standing := rfl
  have h2 : s2.standing = s.standing := standing_applyBytes _ _ _ _ _
  have h4 : s4.standing = s.standing := (hreg _ _ _).trans ((standing_applyBytes _ _ _ _ _).trans h2)
  split
  · rfl
  split
  · rfl
  split
  · rfl
  split
  · exact h2
  split
  · exact (hreg _ _ _).trans h2
  split
  · exact (hreg _ _ _).trans h4
  · exact h4

theorem offices_touched (s : State) (k : FKey) (l : Option Leaf) (va : Nat) : (s.touched k l va).offices = s.offices := by
  cases l with
  | none => rfl
  | some l =>
    have horder (c : Nat) := ctx_meetLeaf Ctx.order (fun _ _ => rfl) (s.joinWalk k va) (some (s.ctxOf k)) l va c
    have hmeet : ((s.joinWalk k va).meetLeaf (some (s.ctxOf k)) l va).offices = (s.joinWalk k va).offices := by
      have hrest := meetLeaf_only (s.joinWalk k va) (some (s.ctxOf k)) l va
      have hshares := congrArg State.shares hrest
      have hsaved := congrArg State.saved hrest
      have hmon := congrArg State.monitors hrest
      rw [State.offices, hshares, hsaved, hmon, funext horder]
      rfl
    have hjoin : (s.joinWalk k va).offices = s.offices := by rw [joinWalk_only]; rfl
    exact (congrArg Prod.fst (standing_countLeaf _ _ _ _)).trans (hmeet.trans hjoin)

/-! ### The store of a member -/

/-- Slot `m` watches the stores of fibre `k` to memory, or with `spad` those to its scratchpad (R295). -/
def Watches (s : State) (k : FKey) (spad : Bool) (j : Nat) (m : MonSlot) : Prop :=
  s.monitors.get? j = some m ∧ m.ctx = s.ctxOf k ∧ m.order = (s.ctx m.ctx).order ∧ monLoc m.image = spad

/-- What a store of bytes `bs` at `va` makes of the partial `o` of slot `j`, where it is an INT32 slot with EB 0 (R297, R298). -/
def Counted (s : State) (k : FKey) (spad : Bool) (va n : Nat) (bs : List Byte) (j : Fin 8) (o y : MonSum) : Prop :=
  let a := if spad then va % 2 ^ 20 else va
  ((¬ ∃ m, Watches s k spad j.val m) → y = o)
  ∧ ∀ m, Watches s k spad j.val m → monType m.image = 0 → monEbm m.image = 0 → o.sat = false → -2 ^ 94 < o.a → o.a < 2 ^ 94 →
    (∃ w : Nat → Int, y.a = o.a + ((List.range n).map w).sum
      ∧ ∀ k, (k + 4 ≤ n ∧ IsField m.image (a + k) → w k = (BitVec.ofNat 32 (leNat ((bs.drop k).take 4))).toInt) ∧ (¬ (k + 4 ≤ n ∧ IsField m.image (a + k)) → w k = 0))
    ∧ (y.pw = true ↔ o.pw = true ∨ ∃ p, IsField m.image p ∧ p < a + n ∧ a < p + 4 ∧ ¬ Covers a n p) ∧ y.nan = o.nan ∧ y.sat = false ∧ y.inx = o.inx

theorem counted_counts (hn : n ≤ 16) (bs : List Byte) (j : Fin 8) (o : MonSum) : Counted s k spad va n bs j o (s.counts k spad va n (leNat bs) j o) := by
  refine ⟨fun hno => ?_, fun m hm ht he hs hlow hhigh => ?_⟩
  · unfold State.counts
    split
    next m hm => exact if_neg fun ⟨hctx, hord, hloc⟩ => hno ⟨m, hm, hctx, by rw [hctx]; exact hord, hloc⟩
    next => rfl
  · obtain ⟨hget, hctx, hord, hloc⟩ := hm
    rw [hctx] at hord
    have hcount : s.counts k spad va n (leNat bs) j o = countInto m.image (if spad then va % 2 ^ 20 else va) n (leNat bs) o := by
      rw [State.counts, hget]
      exact if_pos ⟨hctx, hord, hloc⟩
    rw [hcount]
    exact countInto_int ht he hs hn hlow hhigh bs

end

section
variable {h : Hdr} {fl : Flock} {f g : Fibre} {s : State} {i : Instr} {acc : Acc} {n va : Nat} {rel : Bool} {sr base : RegNo}

/-- A store of instruction `i` enters the write buffer of member `f`, and `count` relates the partials of its household. -/
def Enters (h : Hdr) (fl : Flock) (f : Fibre) (s : State) (i : Instr) (acc : Acc) (va n : Nat) (kind : WKind) (rel : Bool) (count : Fin 8 → MonSum → MonSum → Prop) : Prop :=
  ∀ d l, acc = .ok d l → ∃ t w, exec i s = .next t ∧ Buffers (ends h fl ((s.beginUnit fl).touched f.key l va)) t f.key w
    ∧ w.dest = d ∧ w.n = n ∧ w.kind = kind ∧ w.rel = rel ∧ w.pva = va ∧ w.seq = s.serial
    ∧ ∀ o, s.shares.get? f.key.share = some o → ∃ y, t.shares.get? f.key.share = some y ∧ ∀ j : Fin 8, count j o.partials[j] y.partials[j]

/-- A unit whose one member's part is a write of it. -/
theorem enters_of_storeOne {kind : WKind} {count : Fin 8 → MonSum → MonSum → Prop}
    (he : exec i s = .next (((s.beginUnit fl).storeOne (unitCtx h fl s) f acc va n kind rel).closeUnit h.c fl))
    (hcount : ∀ d l, acc = .ok d l → ∀ o, s.shares.get? f.key.share = some o → ∃ y,
      ((s.beginUnit fl).storeOne (unitCtx h fl s) f acc va n kind rel).shares.get? f.key.share = some y ∧ ∀ j : Fin 8, count j o.partials[j] y.partials[j]) :
    Enters h fl f s i acc va n kind rel count := by
  intro d l ha
  obtain ⟨w, hbuf, hdest, hn, hkind, hrel, hpva, hseq⟩ := storeOne_buffers h fl f s acc n kind rel va d l ha
  exact ⟨_, w, he, hbuf, hdest, hn, hkind, hrel, hpva, hseq, by rw [State.closeUnit_shares]; exact hcount d l ha⟩

theorem storeL1_offices (s : State) (k : FKey) (d : Dest) (l : Option Leaf) (n : Nat) : (s.storeL1 k d l n).offices = s.offices := by
  rw [storeL1_only]
  rfl

/-- The state of a member's write as it is counted. -/
theorem bufferPage_offices (s : State) (fl : Flock) (k j : FKey) (d e : Dest) (l : Option Leaf) (va seq n m : Nat) (kind : WKind) (rel b sa : Bool) :
    (((((s.beginUnit fl).touched k l va).storeL1 k d l n).bufferPage j seq e m kind rel va b sa).offices) = s.offices :=
  (storeL1_offices _ _ _ _ _).trans (offices_touched (s.beginUnit fl) k l va)

/-- A store is counted, and so is one that fills its granule. -/
theorem enters_counted {kind : WKind} {bs : List Byte} {spad : Bool} (hn : n ≤ 16) (hkind : kind = .store bs ∨ kind = .fill bs)
    (hspad : ∀ d l, acc = .ok d l → l.isNone = spad)
    (he : exec i s = .next (((s.beginUnit fl).storeOne (unitCtx h fl s) f acc va n kind rel).closeUnit h.c fl)) :
    Enters h fl f s i acc va n kind rel (Counted s f.key spad va n bs) := by
  refine enters_of_storeOne he fun d l ha o ho => ?_
  subst ha
  obtain ⟨y, hy, hpart⟩ := partials_countStore (va := va) (n := n) (v := leNat bs) (spad := l.isNone)
    (bufferPage_offices s fl f.key f.key d d l va (unitCtx h fl s).seq n n kind rel
      ((((s.beginUnit fl).touched f.key l va).storeL1 f.key d l n).cachedPage d l) (l.any fun x => x.sa)) ho
  refine ⟨y, ?_, fun j => ?_⟩
  · obtain rfl | rfl := hkind <;> exact hy
  · rw [hpart, hspad d l rfl]
    exact counted_counts hn bs j _

/-- A reduction is counted nowhere. -/
theorem enters_red {op : AOp} {sg : Bool} {m : Nat} {v : DWord}
    (he : exec i s = .next (((s.beginUnit fl).storeOne (unitCtx h fl s) f acc va n (.red op sg m v) rel).closeUnit h.c fl)) :
    Enters h fl f s i acc va n (.red op sg m v) rel fun _ o y => y = o := by
  refine enters_of_storeOne he fun d l ha o ho => ?_
  subst ha
  have hshares : ((s.beginUnit fl).touched f.key l va).shares = s.shares :=
    congrArg (fun p : Tab Household × Tab Household × Tab MonSlot × (Nat → Nat) => p.1) (offices_touched (s.beginUnit fl) f.key l va)
  exact ⟨o, (congrArg (fun t : Tab Household => t.get? f.key.share) hshares).trans ho, fun _ => rfl⟩

/-- An access of memory goes through a leaf. -/
theorem access_leaf {k : FKey} {write : Bool} {d : Dest} {l : Option Leaf} (ha : s.access k va n write = .ok d l) : l.isNone = false := by
  unfold State.access at ha
  split at ha
  · nomatch ha
  split at ha
  · nomatch ha
  · nomatch ha
  split at ha
  · nomatch ha
  split at ha
  · nomatch ha
  obtain ⟨-, rfl⟩ := Acc.ok.inj ha
  rfl

theorem globalStore_enters (hs : Solo h fl f g s) (hn : n ≤ 16) (he : exec i s = .next (globalStore h sr base n rel s)) :
    let va := (unitCtx h fl s).ea f base
    let bs := leBytes n (f.opd sr (wordsOf n))
    Enters h fl f s i ((s.beginUnit fl).access f.key va n true) va n (.store bs) rel (Counted s f.key false va n bs) :=
  enters_counted hn (.inl rfl) (fun _ _ ha => access_leaf ha) (he.trans (congrArg Host.Outcome.next (eachMember_solo _ hs)))

theorem spadStore_enters (hs : Solo h fl f g s) (hn : n ≤ 16) (he : exec i s = .next (spadStore h sr base n s)) :
    let va := (unitCtx h fl s).ea f base
    let bs := leBytes n (f.opd sr (wordsOf n))
    Enters h fl f s i ((s.beginUnit fl).spadAccess f.key va n n false) va n (.store bs) false (Counted s f.key true va n bs) :=
  enters_counted hn (.inl rfl) (fun _ _ ha => by rw [spadAccess_leaf ha]; rfl) (he.trans (congrArg Host.Outcome.next (eachMember_solo _ hs)))

theorem stf_enters (hs : Solo h fl f g s) (z : Sz3) :
    let n := sz3Bytes z
    let va := (unitCtx h fl s).ea f base
    let bs := leBytes n (f.opd sr (wordsOf n))
    Enters h fl f s (.stf h sr base z) ((s.beginUnit fl).spadAccess f.key va n n true) va n (.fill bs) true (Counted s f.key true va n bs) :=
  enters_counted (by cases z <;> decide) (.inr rfl) (fun _ _ ha => by rw [spadAccess_leaf ha]; rfl) (congrArg Host.Outcome.next (eachMember_solo _ hs))

theorem redUnit_enters {op : AOp} {ty : IntTy} (hs : Solo h fl f g s) (he : exec i s = .next (redUnit h sr base op ty s)) :
    let va := (unitCtx h fl s).ea f base
    Enters h fl f s i ((s.beginUnit fl).atomAccess f.key va (4 * ty.n)) va (4 * ty.n) (.red op ty.signed (4 * ty.n) (BitVec.ofNat 64 (f.opd sr ty.n))) false fun _ o y => y = o :=
  enters_red (he.trans (congrArg Host.Outcome.next (eachMember_solo _ hs)))

end

/-- Settles O23: each store and reduction is one write of its member, and a store is counted slot by slot. -/
theorem storesEnterTheWriteBuffer : Obligations.StoresEnterTheWriteBuffer := by
  unfold Obligations.StoresEnterTheWriteBuffer
  intro h sr base ty fl f g s hs
  dsimp only
  refine ⟨?_, ?_, ?_, ?_, ?_, ?_, ?_, ?_, ?_, ?_, ?_, ?_, stf_enters hs .b32, stf_enters hs .b64, stf_enters hs .b128, redUnit_enters hs rfl, redUnit_enters hs rfl, redUnit_enters hs rfl,
    redUnit_enters hs rfl, redUnit_enters hs rfl, redUnit_enters hs rfl, redUnit_enters (ty := .b32) hs rfl, touched_meets⟩
  iterate 7 · exact globalStore_enters hs (by decide) rfl
  all_goals exact spadStore_enters hs (by decide) rfl

end Sys2Proof.Machine
end
